-- ==== Sys2Proof/Word.lean ====
section
/-! DEFINITION. The word types of the Sherok SK9240 and the operand forms of its instruction words (spec/02). Plain data; how each is read from bits stands in Decode.lean. -/

namespace Sys2Proof

/-- A byte (R5). -/
abbrev Byte := BitVec 8
/-- An instruction word, a clause header or a literal (R31, R36). -/
abbrev Word32 := BitVec 32
/-- A scalar register or a CSR (R13, R17). -/
abbrev Word64 := BitVec 64
/-- A vector register of VLEN bits (R13). -/
abbrev VWord := BitVec 2048
/-- A mask register (R13). -/
abbrev MWord := BitVec 256

/-- A source field (R40): a register of the file the opcode names, a bypass latch, or an inline constant whose
low five field bits are kept (its value is the field minus 0x70, R41). -/
inductive Src where
  | reg (n : BitVec 6)
  | latch (k : BitVec 2)
  | const (c : BitVec 5)
deriving DecidableEq, Repr, Inhabited

/-- The dst field together with the no-write-back bit (R39, R43). -/
structure Dst where
  reg : BitVec 6
  nw : Bool
deriving DecidableEq, Repr, Inhabited

/-- An integer type in mod (R44): natural or signed, and the width code 0 to 3 for 8, 16, 32, 64 bits. -/
structure IntTy where
  nat : Bool
  width : BitVec 2
deriving DecidableEq, Repr, Inhabited

/-- A scope (R45, R221). -/
inductive Scope where
  | grp | team | die | dev | sys
deriving DecidableEq, Repr, Inhabited

/-- The mask select of a vector instruction (R109). -/
inductive MSel where
  | none | m0 | m2 | m4
deriving DecidableEq, Repr, Inhabited

/-- The space of a memory literal (R77). -/
inductive Space where
  | g | l | p
deriving DecidableEq, Repr, Inhabited

/-- The condition of BRC (R70). -/
inductive BrCond where
  | eq | ne | lt | ge | ltn | gen
deriving DecidableEq, Repr, Inhabited

/-- The operation of an atomic or near-memory command (R239). -/
inductive AtomOp where
  | add | and | or | xor | min | max | swap | fadd | fmin | fmax
deriving DecidableEq, Repr, Inhabited

/-- Literal layout M (R77, R218). -/
structure MemM where
  space : Space
  off : BitVec 30
deriving DecidableEq, Repr, Inhabited

/-- Literal layout S (R218). -/
structure MemS where
  space : Space
  scope : Scope
  off : BitVec 27
deriving DecidableEq, Repr, Inhabited

/-- Literal layout A (R218). -/
structure MemA where
  space : Space
  scope : Scope
  op : AtomOp
  off : BitVec 23
deriving DecidableEq, Repr, Inhabited

/-- Literal layout X (R218): index width code, signedness and scale. -/
structure MemX where
  space : Space
  xw : BitVec 2
  xs : Bool
  scale : BitVec 2
  off : BitVec 25
deriving DecidableEq, Repr, Inhabited

/-- Literal layout VA (R218). -/
structure MemVA where
  space : Space
  scope : Scope
  op : AtomOp
  xw : BitVec 2
  xs : Bool
  scale : BitVec 2
  off : BitVec 18
deriving DecidableEq, Repr, Inhabited

/-- The literal of BFX and BFI (R64). -/
structure BfLit where
  sx : Bool
  width : BitVec 7
  lo : BitVec 6
deriving DecidableEq, Repr, Inhabited

/-- The literal of MMA and MMA.ADP (R181). -/
structure MmaLit where
  seg : BitVec 14
  idreg : BitVec 5
  z : Bool
  h : Bool
  breg : BitVec 5
deriving DecidableEq, Repr, Inhabited

/-- The literal of ADPFIN (R183). -/
structure FinLit where
  clr : Bool
  src : BitVec 4
  seg : BitVec 14
deriving DecidableEq, Repr, Inhabited

/-- The literal of ADPLD (R185). -/
structure AdpLit where
  up : Bool
  count : BitVec 7
  seg : BitVec 14
deriving DecidableEq, Repr, Inhabited

/-- The literal of GATH and SCAT (R279). -/
structure GathLit where
  pitch : BitVec 16
  words : BitVec 12
deriving DecidableEq, Repr, Inhabited

/-- The literal of GMATCH (R327). -/
structure GmLit where
  tmask : BitVec 16
  tval : BitVec 16
deriving DecidableEq, Repr, Inhabited

/-- The literal of GPROP (R328). -/
structure GpLit where
  ef : Bool
  comb : BitVec 3
  w : Bool
  dir : Bool
  gmode : BitVec 2
  h : BitVec 8
  etmask : BitVec 8
  etval : BitVec 8
deriving DecidableEq, Repr, Inhabited

/-- A register of the Drover's control space that has no event row of its own (R421, R204). -/
inductive CtlReg where
  /-- Base of the context records (R360). -/
  | contextBase
  /-- Sidecar base S (R414). -/
  | sidecarBase
  /-- The AES-XTS key pair of an ASID, two 256-bit keys (R414). -/
  | key (asid : Nat)
  /-- The error-log ring: base in bits [63:0], size in entries in bits [127:64] (R425). -/
  | errorLog
  /-- The halt-on-DBG mask bit of an ASID, bit 0 of the value (R380, R427). -/
  | haltOnDbg (asid : Nat)
  /-- Entry i of a core's port translation table, bits [127:0] (R204). -/
  | portEntry (core i : Nat)
deriving DecidableEq, Repr, Inhabited

/-- A fabric packet: the header fields of R398 and its data bytes; the flits field counts the data. -/
structure FabPkt where
  kind : BitVec 8
  src : BitVec 10
  dst : BitVec 10
  asid : BitVec 12
  core : BitVec 9
  gid : BitVec 5
  path : BitVec 2
  route : BitVec 30
  len : BitVec 3
  hop : BitVec 3
  enc : Bool
  rg : Bool
  ofl : Bool
  psn : BitVec 4
  addr : BitVec 42
  seq : BitVec 32
  control : BitVec 16
  region : BitVec 16
  bmask : BitVec 256
  data : List Byte
deriving DecidableEq, Repr, Inhabited

/-- Why a fabric region fails from outside the instruction stream (R410). -/
inductive RegionFailure where
  | unreachable (device : BitVec 10)
  | refused (device : BitVec 10)
  | evicted
deriving DecidableEq, Repr, Inhabited

/-- A firmware image as the boot ROM reads it (R420): its 128 header bytes, its body and its signature. -/
structure BootImage where
  header : List Byte
  body : List Byte
  signature : List Byte
deriving DecidableEq, Repr, Inhabited

/-- An Ultra Ethernet transport service that the device does not support (R422). -/
inductive UeService where
  | rod | rudi | uud
deriving DecidableEq, Repr, Inhabited

/-- Which kind of agent runs an instruction stream. -/
inductive Agent where
  | group | bank | stream | shepherd
deriving DecidableEq, Repr, Inhabited

/-- An agent: a path of a group, a bank core, a team's matrix sequencer or a Shepherd hart. -/
structure Focus where
  unit : Agent
  team : Nat
  gid : Nat
  path : Bool
  bank : Nat
  hart : Nat
deriving DecidableEq, Repr, Inhabited

end Sys2Proof
end

