-- ==== Sys2Proof/Syntax.lean ====
section
/-! DEFINITION. The instructions and events of the Sherok SK9240: one constructor per row of spec/opcode_table.json. Rows 0 to 239 are Thazen instruction words, row 240 is the RISC-V SUBMIT, rows 241 to 339 are the steps of the engines, of the service and of the outside world. -/

namespace Sys2Proof

/-- One constructor per row of the opcode table. -/
inductive Instr where
  /-- ADD (R60): Integer add at the typed width, wrapping modulo 2^w. -/
  | add (d : Dst) (a : Src) (b : Src) (t : IntTy)
  /-- SUB (R60): Integer subtract at the typed width. -/
  | sub (d : Dst) (a : Src) (b : Src) (t : IntTy)
  /-- MUL (R60): Integer multiply, low half of the product at width w. -/
  | mul (d : Dst) (a : Src) (b : Src) (t : IntTy)
  /-- MULH (R60): Upper half of the 2w-bit integer product. -/
  | mulh (d : Dst) (a : Src) (b : Src) (t : IntTy)
  /-- DIV (R60): Integer divide truncated toward zero, with the stated values for division by zero. -/
  | div (d : Dst) (a : Src) (b : Src) (t : IntTy)
  /-- REM (R60): Integer remainder matching DIV. -/
  | rem (d : Dst) (a : Src) (b : Src) (t : IntTy)
  /-- AND (R60): Bitwise AND at width w. -/
  | and (d : Dst) (a : Src) (b : Src) (t : IntTy)
  /-- OR (R60): Bitwise OR at width w. -/
  | or (d : Dst) (a : Src) (b : Src) (t : IntTy)
  /-- XOR (R60): Bitwise XOR at width w. -/
  | xor (d : Dst) (a : Src) (b : Src) (t : IntTy)
  /-- ANDN (R60): Bitwise a AND NOT b at width w. -/
  | andn (d : Dst) (a : Src) (b : Src) (t : IntTy)
  /-- SHL (R60): Shift left by the low bits of b. -/
  | shl (d : Dst) (a : Src) (b : Src) (t : IntTy)
  /-- SHR (R60): Shift right, arithmetic or logical by type. -/
  | shr (d : Dst) (a : Src) (b : Src) (t : IntTy)
  /-- ROL (R60): Rotate left at width w. -/
  | rol (d : Dst) (a : Src) (b : Src) (t : IntTy)
  /-- MIN (R60): Smaller of two typed integers. -/
  | min (d : Dst) (a : Src) (b : Src) (t : IntTy)
  /-- MAX (R60): Larger of two typed integers. -/
  | max (d : Dst) (a : Src) (b : Src) (t : IntTy)
  /-- SEL (R68): Selects a or b by the old value of the destination register. -/
  | sel (d : Dst) (a : Src) (b : Src)
  /-- ADDI (R61): 64-bit add of a sign-extended 10-bit immediate. -/
  | addi (d : Dst) (a : Src) (i : BitVec 10)
  /-- MULI (R61): 64-bit multiply by an immediate. -/
  | muli (d : Dst) (a : Src) (i : BitVec 10)
  /-- ANDI (R61): 64-bit AND with an immediate. -/
  | andi (d : Dst) (a : Src) (i : BitVec 10)
  /-- ORI (R61): 64-bit OR with an immediate. -/
  | ori (d : Dst) (a : Src) (i : BitVec 10)
  /-- XORI (R61): 64-bit XOR with an immediate. -/
  | xori (d : Dst) (a : Src) (i : BitVec 10)
  /-- SHLI (R61): 64-bit shift left by an immediate count. -/
  | shli (d : Dst) (a : Src) (c : BitVec 6)
  /-- SHRI (R61): 64-bit shift right by an immediate count, arithmetic or logical. -/
  | shri (d : Dst) (a : Src) (h : Bool) (c : BitVec 6)
  /-- LI (R62): Loads a sign-extended 10-bit immediate. -/
  | li (d : Dst) (i : BitVec 10)
  /-- LIW (R63): Loads a sign-extended literal word. -/
  | liw (d : Dst) (l : Word32)
  /-- LIW_Z (R63): Loads a zero-extended literal word. -/
  | liwZ (d : Dst) (l : Word32)
  /-- LIW_H (R63): Places the literal in the high half over a low-half source. -/
  | liwH (d : Dst) (a : Src) (l : Word32)
  /-- BFX (R64): Extracts a bit field, sign- or zero-extended. -/
  | bfx (d : Dst) (a : Src) (l : BfLit)
  /-- BFI (R64): Inserts a bit field. -/
  | bfi (d : Dst) (a : Src) (b : Src) (l : BfLit)
  /-- CLZ (R65): Counts leading zero bits. -/
  | clz (d : Dst) (a : Src) (w : BitVec 2)
  /-- CTZ (R65): Counts trailing zero bits. -/
  | ctz (d : Dst) (a : Src) (w : BitVec 2)
  /-- POPC (R65): Counts one bits. -/
  | popc (d : Dst) (a : Src) (w : BitVec 2)
  /-- CMP (R66): Three-way compare giving -1, 0 or 1. -/
  | cmp (d : Dst) (a : Src) (b : Src) (t : IntTy)
  /-- CMPI (R67): Three-way signed compare against an immediate. -/
  | cmpi (d : Dst) (a : Src) (i : BitVec 10)
  /-- BRA (R70): Unconditional branch relative to the clause header. -/
  | bra (i : BitVec 10)
  /-- BRC (R70): Conditional branch comparing two values, displacement in a literal. -/
  | brc (a : Src) (b : Src) (cc : BrCond) (l : Word32)
  /-- BRZ (R70): Branch when the operand is zero. -/
  | brz (a : Src) (i : BitVec 10)
  /-- BRNZ (R70): Branch when the operand is non-zero. -/
  | brnz (a : Src) (i : BitVec 10)
  /-- JMP (R71): Jump relative to the header by a literal displacement. -/
  | jmp (l : Word32)
  /-- JMP_REG (R71): Jump to a register plus a literal displacement. -/
  | jmpReg (a : Src) (l : Word32)
  /-- CALL (R72): Relative call writing the link to a chosen register. -/
  | call (d : Dst) (l : Word32)
  /-- CALLR (R72): Call through a register, writing the link. -/
  | callr (d : Dst) (a : Src)
  /-- RET (R72): Return through a register. -/
  | ret (a : Src)
  /-- BRM (R73): Branch on a mask, taken, not taken or dividing the path. -/
  | brm (a : Src) (i : BitVec 10)
  /-- JOIN (R94): Closes a divided path and reconverges when both children close. -/
  | join
  /-- LOOPH (R76): Sets the group's loop head to its own clause header. -/
  | looph
  /-- EXIT (R75): Waits for all counters, returns tokens and ends the group or path. -/
  | exit
  /-- NOP (R76): No effect beyond shifting the latches. -/
  | nop
  /-- YIELD (R76): Sets the yield hint for the end of the clause. -/
  | yield
  /-- LD (R79): Scalar load from the formed address. -/
  | ld (d : Dst) (a : Src) (t : IntTy) (l : MemM)
  /-- ST (R79): Scalar store to the formed address. -/
  | st (a : Src) (b : Src) (t : IntTy) (l : MemM)
  /-- LDAQ (R225): Scalar load with acquire meaning at a scope. -/
  | ldaq (d : Dst) (a : Src) (t : IntTy) (l : MemS)
  /-- STRL (R225): Scalar store with release meaning at a scope. -/
  | strl (a : Src) (b : Src) (t : IntTy) (l : MemS)
  /-- VLD (R137): Unit-stride vector load. -/
  | vld (d : Dst) (a : Src) (k : MSel) (l : MemM)
  /-- VST (R137): Unit-stride vector store. -/
  | vst (d : BitVec 6) (a : Src) (k : MSel) (l : MemM)
  /-- VLDS (R137): Strided vector load. -/
  | vlds (d : Dst) (a : Src) (b : Src) (k : MSel) (l : MemM)
  /-- VSTS (R137): Strided vector store. -/
  | vsts (d : BitVec 6) (a : Src) (b : Src) (k : MSel) (l : MemM)
  /-- VLDFF (R227): First-fault vector load that truncates vl at the first failing element. -/
  | vldff (d : Dst) (a : Src) (k : MSel) (l : MemM)
  /-- VLDX (R228): Indexed vector load. -/
  | vldx (d : Dst) (a : Src) (b : Src) (k : MSel) (l : MemX)
  /-- VSTX (R228): Indexed vector store. -/
  | vstx (d : BitVec 6) (a : Src) (b : Src) (k : MSel) (l : MemX)
  /-- TLD (R231): Plain 256-byte tile load, optionally checked. -/
  | tld (d : Dst) (a : Src) (chk : Bool) (l : MemM)
  /-- TST (R231): Plain 256-byte tile store. -/
  | tst (d : BitVec 6) (a : Src) (l : MemM)
  /-- PUTT (R233): Sends a 256-byte tile as a released put packet. -/
  | putt (d : BitVec 6) (a : Src) (l : MemS)
  /-- LDC (R234): Consuming tile load that waits for FULL and empties the tile. -/
  | ldc (d : Dst) (a : Src) (chk : Bool) (l : MemS)
  /-- LDP (R234): Peeking tile load that waits for FULL and leaves it FULL. -/
  | ldp (d : Dst) (a : Src) (chk : Bool) (l : MemS)
  /-- TAGLK (R237): Looks up a key in the team's tag table. -/
  | taglk (d : Dst) (a : Src)
  /-- TAGINS (R237): Installs or updates a key in the tag table. -/
  | tagins (d : Dst) (a : Src) (b : Src)
  /-- TAGDEL (R237): Removes a key from the tag table. -/
  | tagdel (d : Dst) (a : Src)
  /-- AMO (R241): Scalar atomic read-modify-write returning the old value. -/
  | amo (d : Dst) (a : Src) (b : Src) (t : IntTy) (l : MemA)
  /-- AMON (R241): Scalar atomic without return. -/
  | amon (a : Src) (b : Src) (t : IntTy) (l : MemA)
  /-- VAMO (R242): Vector indexed atomic returning old values, served in passes. -/
  | vamo (d : Dst) (a : Src) (b : Src) (u : Bool) (k : MSel) (l : MemVA)
  /-- VAMON (R242): Vector indexed atomic without return. -/
  | vamon (d : BitVec 6) (a : Src) (b : Src) (u : Bool) (k : MSel) (l : MemVA)
  /-- CAS (R241): Scalar compare-and-swap. -/
  | cas (d : Dst) (a : Src) (b : Src) (t : IntTy) (l : MemA)
  /-- VCAS (R242): Vector indexed compare-and-swap. -/
  | vcas (d : BitVec 6) (a : Src) (b : Src) (u : Bool) (k : MSel) (l : MemVA)
  /-- NMA (R245): Sends a return-free near-memory update command. -/
  | nma (a : Src) (b : Src) (t : IntTy) (l : MemA)
  /-- VNMA (R245): Sends vector indexed return-free near-memory commands. -/
  | vnma (d : BitVec 6) (a : Src) (b : Src) (u : Bool) (k : MSel) (l : MemVA)
  /-- FENCE (R226): Release and acquire at a scope without access. -/
  | fence (s : Scope)
  /-- PREF (R248): Begins prefetching a line. -/
  | pref (a : Src) (dc : Bool) (l : MemM)
  /-- CCLEAN (R249): Writes a modified die-cache line to its stack. -/
  | cclean (a : Src) (l : MemM)
  /-- CINV (R249): Discards the core's L1 copy of a line or all lines. -/
  | cinv (a : Src) (all : Bool) (l : MemM)
  /-- TFILL (R235): Applies the TFILL event to a run of tiles. -/
  | tfill (a : Src) (b : Src) (l : MemM)
  /-- TEMPTY (R235): Applies the TEMPTY event to a run of tiles. -/
  | tempty (a : Src) (b : Src) (l : MemM)
  /-- TTAG (R236): Reads the tags of 32 allocation tiles. -/
  | ttag (d : Dst) (a : Src) (l : MemM)
  /-- CFLUSH (R249): Cleans then discards die-cache and L1 copies of a line. -/
  | cflush (a : Src) (l : MemM)
  /-- VADD (R114): Element-wise integer add. -/
  | vadd (d : Dst) (a : Src) (b : Src) (u : Bool) (k : MSel)
  /-- VSUB (R114): Element-wise integer subtract. -/
  | vsub (d : Dst) (a : Src) (b : Src) (u : Bool) (k : MSel)
  /-- VMUL (R114): Element-wise integer multiply. -/
  | vmul (d : Dst) (a : Src) (b : Src) (u : Bool) (k : MSel)
  /-- VMULH (R114): Element-wise high half of the product. -/
  | vmulh (d : Dst) (a : Src) (b : Src) (u : Bool) (k : MSel)
  /-- VDIV (R114): Element-wise integer divide. -/
  | vdiv (d : Dst) (a : Src) (b : Src) (u : Bool) (k : MSel)
  /-- VREM (R114): Element-wise integer remainder. -/
  | vrem (d : Dst) (a : Src) (b : Src) (u : Bool) (k : MSel)
  /-- VAND (R114): Element-wise AND. -/
  | vand (d : Dst) (a : Src) (b : Src) (u : Bool) (k : MSel)
  /-- VOR (R114): Element-wise OR. -/
  | vor (d : Dst) (a : Src) (b : Src) (u : Bool) (k : MSel)
  /-- VXOR (R114): Element-wise XOR. -/
  | vxor (d : Dst) (a : Src) (b : Src) (u : Bool) (k : MSel)
  /-- VSHL (R114): Element-wise shift left. -/
  | vshl (d : Dst) (a : Src) (b : Src) (u : Bool) (k : MSel)
  /-- VSHR (R114): Element-wise shift right. -/
  | vshr (d : Dst) (a : Src) (b : Src) (u : Bool) (k : MSel)
  /-- VMIN (R114): Element-wise integer minimum. -/
  | vmin (d : Dst) (a : Src) (b : Src) (u : Bool) (k : MSel)
  /-- VMAX (R114): Element-wise integer maximum. -/
  | vmax (d : Dst) (a : Src) (b : Src) (u : Bool) (k : MSel)
  /-- VABS (R114): Element-wise absolute value. -/
  | vabs (d : Dst) (a : Src) (k : MSel)
  /-- VNEG (R114): Element-wise negation. -/
  | vneg (d : Dst) (a : Src) (k : MSel)
  /-- VMERGE (R115): Merges two vectors under a mask. -/
  | vmerge (d : Dst) (a : Src) (b : Src) (k : MSel)
  /-- VFADD (R117): Floating-point add, rounded once. -/
  | vfadd (d : Dst) (a : Src) (b : Src) (u : Bool) (k : MSel)
  /-- VFSUB (R117): Floating-point subtract. -/
  | vfsub (d : Dst) (a : Src) (b : Src) (u : Bool) (k : MSel)
  /-- VFMUL (R117): Floating-point multiply. -/
  | vfmul (d : Dst) (a : Src) (b : Src) (u : Bool) (k : MSel)
  /-- VFDIV (R117): Floating-point divide. -/
  | vfdiv (d : Dst) (a : Src) (b : Src) (u : Bool) (k : MSel)
  /-- VFMA (R117): Fused multiply-add into the destination. -/
  | vfma (d : Dst) (a : Src) (b : Src) (u : Bool) (k : MSel)
  /-- VFMS (R117): Fused multiply-subtract. -/
  | vfms (d : Dst) (a : Src) (b : Src) (u : Bool) (k : MSel)
  /-- VFNMA (R117): Fused negated multiply-add. -/
  | vfnma (d : Dst) (a : Src) (b : Src) (u : Bool) (k : MSel)
  /-- VFMIN (R117): Floating-point minimum. -/
  | vfmin (d : Dst) (a : Src) (b : Src) (u : Bool) (k : MSel)
  /-- VFMAX (R117): Floating-point maximum. -/
  | vfmax (d : Dst) (a : Src) (b : Src) (u : Bool) (k : MSel)
  /-- VFABS (R118): Clears the sign bit. -/
  | vfabs (d : Dst) (a : Src) (u : Bool) (k : MSel)
  /-- VFNEG (R118): Inverts the sign bit. -/
  | vfneg (d : Dst) (a : Src) (u : Bool) (k : MSel)
  /-- VFSQRT (R118): Correctly rounded square root. -/
  | vfsqrt (d : Dst) (a : Src) (u : Bool) (k : MSel)
  /-- VFRSQ (R118): Approximate reciprocal square root. -/
  | vfrsq (d : Dst) (a : Src) (u : Bool) (k : MSel)
  /-- VFRCP (R118): Approximate reciprocal. -/
  | vfrcp (d : Dst) (a : Src) (u : Bool) (k : MSel)
  /-- VFEXP (R118): Approximate base-2 exponential. -/
  | vfexp (d : Dst) (a : Src) (u : Bool) (k : MSel)
  /-- VFLOG (R118): Approximate base-2 logarithm. -/
  | vflog (d : Dst) (a : Src) (u : Bool) (k : MSel)
  /-- VFTANH (R118): Approximate hyperbolic tangent. -/
  | vftanh (d : Dst) (a : Src) (u : Bool) (k : MSel)
  /-- VFSIN (R118): Approximate sine. -/
  | vfsin (d : Dst) (a : Src) (u : Bool) (k : MSel)
  /-- VFCOS (R118): Approximate cosine. -/
  | vfcos (d : Dst) (a : Src) (u : Bool) (k : MSel)
  /-- VFCLASS (R119): Writes a one-hot class of each float element. -/
  | vfclass (d : Dst) (a : Src) (u : Bool) (k : MSel)
  /-- VCMPEQ (R120): Integer equality compare into a mask. -/
  | vcmpeq (d : Dst) (a : Src) (b : Src) (u : Bool) (k : MSel)
  /-- VCMPNE (R120): Integer inequality compare into a mask. -/
  | vcmpne (d : Dst) (a : Src) (b : Src) (u : Bool) (k : MSel)
  /-- VCMPLT (R120): Integer less-than compare into a mask. -/
  | vcmplt (d : Dst) (a : Src) (b : Src) (u : Bool) (k : MSel)
  /-- VCMPLE (R120): Integer less-or-equal compare into a mask. -/
  | vcmple (d : Dst) (a : Src) (b : Src) (u : Bool) (k : MSel)
  /-- VFCMPEQ (R120): Float equality compare into a mask. -/
  | vfcmpeq (d : Dst) (a : Src) (b : Src) (u : Bool) (k : MSel)
  /-- VFCMPLT (R120): Float less-than compare into a mask. -/
  | vfcmplt (d : Dst) (a : Src) (b : Src) (u : Bool) (k : MSel)
  /-- VFCMPLE (R120): Float less-or-equal compare into a mask. -/
  | vfcmple (d : Dst) (a : Src) (b : Src) (u : Bool) (k : MSel)
  /-- VFCMPUN (R120): Unordered (NaN) test into a mask. -/
  | vfcmpun (d : Dst) (a : Src) (b : Src) (u : Bool) (k : MSel)
  /-- VCVT (R122): Converts elements between formats. -/
  | vcvt (d : Dst) (a : Src) (c : BitVec 4) (e : BitVec 3) (k : MSel)
  /-- VQUANT (R123): Quantises the first vl elements into a 256-byte quantised tile. -/
  | vquant (d : Dst) (a : Src) (q : BitVec 3) (u : Bool)
  /-- VDEQ (R126): Dequantises a quantised tile into float elements. -/
  | vdeq (d : Dst) (a : Src) (u : Bool) (k : MSel)
  /-- VMV (R115): Vector move. -/
  | vmv (d : Dst) (a : Src) (k : MSel)
  /-- VREDSUM (R127): Integer sum reduction into element 0. -/
  | vredsum (d : Dst) (a : Src) (b : Src) (u : Bool) (k : MSel)
  /-- VREDMAX (R127): Integer maximum reduction. -/
  | vredmax (d : Dst) (a : Src) (b : Src) (u : Bool) (k : MSel)
  /-- VREDMIN (R127): Integer minimum reduction. -/
  | vredmin (d : Dst) (a : Src) (b : Src) (u : Bool) (k : MSel)
  /-- VFREDSUM (R128): Float sum reduction by a fixed pairwise tree. -/
  | vfredsum (d : Dst) (a : Src) (b : Src) (u : Bool) (k : MSel)
  /-- VFREDMAX (R127): Float maximum reduction. -/
  | vfredmax (d : Dst) (a : Src) (b : Src) (u : Bool) (k : MSel)
  /-- VFREDMIN (R127): Float minimum reduction. -/
  | vfredmin (d : Dst) (a : Src) (b : Src) (u : Bool) (k : MSel)
  /-- VSCAN (R129): Segmented inclusive integer scan. -/
  | vscan (d : Dst) (a : Src) (b : Src) (k : MSel)
  /-- VFSCAN (R129): Segmented inclusive float scan rounded each step. -/
  | vfscan (d : Dst) (a : Src) (b : Src) (u : Bool) (k : MSel)
  /-- VSLIDEUP (R130): Slides elements up by a scalar count. -/
  | vslideup (d : Dst) (a : Src) (b : Src) (k : MSel)
  /-- VSLIDEDN (R130): Slides elements down by a scalar count. -/
  | vslidedn (d : Dst) (a : Src) (b : Src) (k : MSel)
  /-- VRGATHER (R130): Register gather by index vector. -/
  | vrgather (d : Dst) (a : Src) (b : Src) (k : MSel)
  /-- VCOMPRESS (R131): Packs selected elements in order. -/
  | vcompress (d : Dst) (a : Src) (k : MSel)
  /-- VID (R115): Writes each element's index. -/
  | vid (d : Dst) (k : MSel)
  /-- VIOTA (R132): Writes the prefix count of set mask bits. -/
  | viota (d : Dst) (a : Src) (k : MSel)
  /-- VSORTK (R133): Stable sort of up to 64 keys with payload into a register pair. -/
  | vsortk (d : BitVec 6) (a : Src) (b : Src) (u : Bool) (e : Bool)
  /-- VBCAST (R115): Broadcasts a scalar to every element. -/
  | vbcast (d : Dst) (a : Src) (k : MSel)
  /-- SETVL (R113): Sets vtype from a register and vl to min(n, VLMAX). -/
  | setvl (d : Dst) (a : Src) (b : Src)
  /-- SETVLI (R113): Sets vtype from an immediate and vl to min(n, VLMAX). -/
  | setvli (d : Dst) (a : Src) (c : BitVec 6)
  /-- MAND (R134): Mask AND. -/
  | mand (d : Dst) (a : Src) (b : Src)
  /-- MOR (R134): Mask OR. -/
  | mor (d : Dst) (a : Src) (b : Src)
  /-- MXOR (R134): Mask XOR. -/
  | mxor (d : Dst) (a : Src) (b : Src)
  /-- MANDN (R134): Mask AND NOT. -/
  | mandn (d : Dst) (a : Src) (b : Src)
  /-- MNOT (R134): Mask NOT. -/
  | mnot (d : Dst) (a : Src)
  /-- MPOP (R134): Counts active set mask bits. -/
  | mpop (d : Dst) (a : Src) (k : MSel)
  /-- MFIRST (R134): Finds the first active set mask bit. -/
  | mfirst (d : Dst) (a : Src) (k : MSel)
  /-- EMGET (R135): Reads the path's emask into a scalar or mask register. -/
  | emget (d : Dst) (g : Bool)
  /-- EMSET (R135): Writes the path's emask from a scalar or mask. -/
  | emset (a : Src) (g : Bool)
  /-- MMA (R181): Issues a masked matrix multiply-accumulate into a tile. -/
  | mma (d : BitVec 6) (a : Src) (b : Src) (l : MmaLit)
  /-- MMA_ADP (R181): Matrix multiply-accumulate that also updates per-row adapter rank vectors. -/
  | mmaAdp (d : BitVec 6) (a : Src) (b : Src) (l : MmaLit)
  /-- ADPFIN (R182): Applies a tile's rank vectors through an up segment to a tile. -/
  | adpfin (d : BitVec 6) (b : Src) (l : FinLit)
  /-- MZERO (R187): Clears a tile and its rank area. -/
  | mzero (d : BitVec 6)
  /-- MLDACC (R188): Loads selected tile elements from memory. -/
  | mldacc (d : BitVec 6) (a : Src) (b : Src) (f : BitVec 2) (l : MemM)
  /-- MDRAIN (R188): Stores or add-stores selected tile elements to memory. -/
  | mdrain (d : BitVec 6) (a : Src) (b : Src) (f : BitVec 2) (add : Bool) (l : MemM)
  /-- MFENCE (R190): Closes issued members into a numbered batch and raises mat counters. -/
  | mfence (a : Src) (n : BitVec 4)
  /-- MBARA (R191): Arrives at a named barrier for the sequencer at issue or after batches close. -/
  | mbara (j : Bool) (n : BitVec 4)
  /-- MBARW (R191): Stalls the sequencer until its barrier phase completes. -/
  | mbarw (n : BitVec 4)
  /-- MLOOP (R192): Decrements a stream register and branches while non-zero. -/
  | mloop (d : BitVec 6) (l : Word32)
  /-- MJMP (R192): Unconditional stream branch. -/
  | mjmp (l : Word32)
  /-- MEND (R192): Waits for completion and batch closure, then stops the sequencer. -/
  | mend
  /-- ADPLD (R185): Begins fetching adapter segments into the adapter cache. -/
  | adpld (a : Src) (l : AdpLit)
  /-- ADPINV (R184): Invalidates an adapter's cache entries after its users finish. -/
  | adpinv (a : Src)
  /-- MSETB_ADD (R193): Adds two stream operands into a stream register. -/
  | msetbAdd (d : BitVec 6) (a : Src) (b : Src)
  /-- MSETB_LD (R193): Loads 8 scratchpad bytes into a stream register. -/
  | msetbLd (d : BitVec 6) (a : Src) (b : Src)
  /-- MSETB_FMT (R193): Sets the stream format register sfmt. -/
  | msetbFmt (a : Src)
  /-- MSETB_SEED (R193): Seeds the 16 row rounding generators. -/
  | msetbSeed (a : Src)
  /-- MSETB_BIND (R193): Binds the groups holding B quarters. -/
  | msetbBind (a : Src)
  /-- MSETB_ADIR (R193): Sets the adapter directory base. -/
  | msetbAdir (a : Src)
  /-- MNOP (R193): Stream no-op. -/
  | mnop
  /-- MACQ (R194): Takes a tile's token and copies the tile into four vector registers. -/
  | macq (d : BitVec 6) (a : Src)
  /-- MACQ_NC (R194): Takes a tile's token without copying. -/
  | macqNc (a : Src)
  /-- MREL (R194): Returns a tile's token to the engine. -/
  | mrel (a : Src)
  /-- MREL_W (R194): Copies four vector registers into the tile and returns its token. -/
  | mrelW (a : Src) (b : Src)
  /-- GATH (R280): Starts an indexed gather of global rows into scratchpad. -/
  | gath (d : BitVec 6) (a : Src) (b : Src) (k : MSel) (l : GathLit)
  /-- SCAT (R280): Starts an indexed scatter of scratchpad rows to global memory. -/
  | scat (d : BitVec 6) (a : Src) (b : Src) (k : MSel) (l : GathLit)
  /-- COLL (R416): Checks a descriptor and starts a collective. -/
  | coll (a : Src) (l : MemM)
  /-- WAITC (R281): Suspends until a counter is at or below a threshold. -/
  | waitc (n : BitVec 7) (k : BitVec 3)
  /-- ASTAT_CNT (R282): Returns an outstanding-operation counter value. -/
  | astatCnt (d : Dst) (a : Src)
  /-- ASTAT_CHAN (R282): Returns the team's copies on a channel. -/
  | astatChan (d : Dst) (a : Src)
  /-- ASTAT_FAULT (R282): Returns and clears the engine fault record. -/
  | astatFault (d : Dst)
  /-- NMSYNC (R304): Waits for near=0 and linear-view stores in banks, then releases at .dev. -/
  | nmsync
  /-- GCFG (R326): Checks a fold descriptor and binds the core's fold. -/
  | gcfg (a : Src)
  /-- GCFG_UN (R326): Unbinds the core's fold. -/
  | gcfgUn
  /-- GMATCH (R327): Submits a match wave that marks or loads matching nodes. -/
  | gmatch (d : Dst) (a : Src) (b : Src) (l : GmLit)
  /-- GPROP (R328): Submits a propagation wave. -/
  | gprop (d : Dst) (a : Src) (l : GpLit)
  /-- GWAIT (R329): Suspends until a wave is no longer held or running. -/
  | gwait (d : Dst) (a : Src)
  /-- GCOLLECT (R330): Stores the identifiers of local nodes holding the marker bits. -/
  | gcollect (d : Dst) (a : Src) (b : Src)
  /-- GCLR (R330): Clears marker bits and slots on every local node. -/
  | gclr (a : Src) (b : Src)
  /-- GVLD (R330): Loads a node's vector slot into a register. -/
  | gvld (d : Dst) (a : Src) (y : Bool)
  /-- GVST (R330): Stores a register into a node's vector slot. -/
  | gvst (d : BitVec 6) (a : Src) (y : Bool)
  /-- GSTAT (R329): Returns a wave's status at once. -/
  | gstat (d : Dst) (a : Src)
  /-- GABORT (R324): Marks a live wave aborting and notifies members. -/
  | gabort (a : Src)
  /-- BARI (R275): Sets a named barrier's configuration. -/
  | bari (a : Src) (n : BitVec 4)
  /-- BARA (R275): Arrives at a named barrier. -/
  | bara (n : BitVec 4)
  /-- BARW (R275): Suspends until the awaited barrier phase completes. -/
  | barw (n : BitVec 4)
  /-- BARAW (R275): Arrives and waits at a named barrier. -/
  | baraw (n : BitVec 4)
  /-- SYNCW (R278): Suspends until a synchronisation word reaches a generation. -/
  | syncw (d : Dst) (a : Src) (b : Src)
  /-- MQW (R353): Sends a message flit to a team's receive register. -/
  | mqw (d : BitVec 6) (a : Src) (b : Src) (s : Scope)
  /-- MQR (R353): Removes the oldest entry of a receive register, suspending when empty. -/
  | mqr (d : Dst) (k : BitVec 2)
  /-- REFILL (R354): Fills idle lanes with items from the team's FIFO. -/
  | refill (d : BitVec 6)
  /-- ITEMPUSH (R354): Appends an item to the team's FIFO. -/
  | itempush (d : Dst) (a : Src)
  /-- ITEMPUSH_CLOSE (R354): Closes the team's item FIFO and wakes waiting REFILLs. -/
  | itempushClose (d : Dst)
  /-- TENDER (R355): Reads a task record and enqueues its teams for tender. -/
  | tender (d : Dst) (a : Src) (l : BitVec 4)
  /-- WITHDRAW (R355): Cancels unstarted teams of a tendered task. -/
  | withdraw (d : Dst) (a : Src)
  /-- DONE (R355): ORs a value into the team result and acts as EXIT. -/
  | doneTask (a : Src)
  /-- BLKACQ (R88): Acquires register blocks for slots, waiting or trying. -/
  | blkacq (d : Dst) (a : Src) (y : Bool)
  /-- BLKREL (R88): Releases register blocks of slots to the role. -/
  | blkrel (d : Dst) (a : Src)
  /-- FBEGIN (R412): Opens a fabric region with a checkpoint and handler. -/
  | fbegin (a : Src) (l : Word32)
  /-- FCOMMIT (R409): Commits the region's held stores to their devices. -/
  | fcommit (d : Dst)
  /-- FABORT (R412): Fails the open region with reason ABORT. -/
  | fabort
  /-- CSRR (R376): Reads a CSR. -/
  | csrr (d : Dst) (c : BitVec 10)
  /-- CSRW (R376): Writes a CSR by its own rule, returning the old value. -/
  | csrw (d : Dst) (a : Src) (c : BitVec 10)
  /-- CSRS (R376): Sets CSR bits, returning the old value. -/
  | csrs (d : Dst) (a : Src) (c : BitVec 10)
  /-- CSRC (R376): Clears CSR bits, returning the old value. -/
  | csrc (d : Dst) (a : Src) (c : BitVec 10)
  /-- TRAP (R377): Takes a software trap of cause 0x40 plus code. -/
  | trap (c : BitVec 6)
  /-- ERET (R378): Returns from the handler, resuming the saved clause or a header. -/
  | eret
  /-- TLBINV (R379): Invalidates translations of one ASID for one page. -/
  | tlbinv (a : Src) (b : Src)
  /-- TLBINV_ASID (R379): Invalidates every translation of one ASID. -/
  | tlbinvAsid (b : Src)
  /-- TLBINV_ALL (R379): Invalidates every translation of every ASID. -/
  | tlbinvAll
  /-- CBLD (R155): Loads a codebook shadow copy after its readers finish. -/
  | cbld (a : Src) (b : Src)
  /-- CBSWAP (R156): Exchanges visible and shadow codebook copies at once. -/
  | cbswap (a : Src)
  /-- BIDLD (R356): Loads a bid formula table. -/
  | bidld (a : Src) (b : Src)
  /-- BIDLD_WINDOW (R356): Sets the bid window length W. -/
  | bidldWindow (a : Src)
  /-- DBG (R380): Latches a debug event and suspends when halt-on-DBG is set. -/
  | dbg (a : Src)
  /-- FEAT (R380): Returns the supported feature mask 0x3FFF. -/
  | feat (d : Dst)
  /-- NZSKIP (R296): Bank core finds the next set bit of a block bitmap. -/
  | nzskip (d : BitVec 6) (a : Src) (b : Src) (l : MemM)
  /-- ROWF (R297): Bank core marks a result row FULL after its stores are performed. -/
  | rowf (a : Src)
  /-- MBXR (R298): Bank core reads a mailbox word with acquire. -/
  | mbxr (d : BitVec 6) (a : Src)
  /-- HALTB (R299): Bank core halts with a value after its stores are performed. -/
  | haltb (a : Src)
  /-- SUBMIT (R337): Shepherd announces a new queue write index to the Drover. -/
  | submit (rs2 rs1 rd : BitVec 5)
  /-- CLAUSE_EXECUTE (R23): A ready path begins a clause: header fetch, wait check, latch clear and word execution. -/
  | clauseExecute (f : Focus)
  /-- BOUNDARY_CAUSE_TAKEN (R361): A pending boundary cause is taken at a clause boundary or suspension. -/
  | boundaryCauseTaken (team gid : Nat)
  /-- PATH_WAKE (R98): A suspended path becomes ready when its awaited condition comes true. -/
  | pathWake (team gid : Nat) (path : Bool)
  /-- SPARE_BLOCK_LEND (R89): The core lends its spare block when every group of a role waits in BLKACQ. -/
  | spareBlockLend (team role : Nat)
  /-- STREAM_FAULT (R164): A matrix stream stops on a fault and delivers it to the lowest live group. -/
  | streamFault (team : Nat)
  /-- MMA_ROW_COMMIT (R170): A matrix instruction's row is summed, residue-checked and committed to the tile. -/
  | mmaRowCommit (team mismatches : Nat)
  /-- ADAPTER_SEGMENT_FILL (R177): A fetched adapter directory entry or segment arrives in the adapter cache. -/
  | adapterSegmentFill (core : Nat)
  /-- ADAPTER_ROW_REPLAY (R178): A queued adapter row replays once its segments are present. -/
  | adapterRowReplay (team : Nat)
  /-- BATCH_CLOSE (R173): A matrix batch closes and its mat counters fall. -/
  | batchClose (team : Nat)
  /-- STREAM_STOP (R192): The sequencer stops after the team's last group ends and issued work completes. -/
  | streamStop (team : Nat)
  /-- PUT_ARRIVE (R208): A put packet is delivered to a tile's port and takes its tag transition. -/
  | putArrive (i : Nat)
  /-- PUT_RESEND (R210): The sending port resends a refused put. -/
  | putResend (i : Nat)
  /-- PAUSED_PUT_RETRY (R437): A paused replayed put is retried when a hold-buffer entry frees. -/
  | pausedPutRetry (team : Nat)
  /-- UNCORRECTABLE_ERROR (R214): Uncorrectable memory or scratchpad data is poisoned and logged. -/
  | uncorrectableError (team : Option Nat) (addr : Nat)
  /-- CORRECTED_ERROR (R375): A single error is corrected inline and logged. -/
  | correctedError (unit addr : Nat)
  /-- REGISTER_UNCORRECTABLE (R375): An uncorrectable register or latch error raises MACHINE_CHECK. -/
  | registerUncorrectable (team gid : Nat)
  /-- ASYNC_REFUSAL_ARRIVE (R205): A refusal of a store, put or atomic without return arrives and is queued as a boundary cause. -/
  | asyncRefusalArrive (i : Nat)
  /-- STORE_PERFORM (R224): A queued store or release is performed at its scope and st falls. -/
  | storePerform (team gid : Nat)
  /-- L1_LINE_EXPIRE (R255): An L1 line is discarded 65536 cycles after its fill. -/
  | l1LineExpire (core line : Nat)
  /-- NEAR_COMMAND_APPLY (R303): A bank's atomic unit applies a near-memory element and acknowledges it. -/
  | nearCommandApply (team gid : Nat)
  /-- NEAR_ACK_CREDIT (R256): A near-memory acknowledgement reaches the group and near falls in issue order. -/
  | nearAckCredit (team gid : Nat)
  /-- COPY_START_ACCEPT (R269): A copy start store reaches its channel, waiting for room when full. -/
  | copyStartAccept (team gid : Nat)
  /-- COPY_BEGIN (R269): A queued copy begins after the previous copy on its channel. -/
  | copyBegin (team chan : Nat)
  /-- COPY_ROW_WRITE (R267): One row of a copy is written or zero-filled. -/
  | copyRowWrite (team chan : Nat)
  /-- COPY_COMPLETE (R273): A copy completes, copy falls and its barrier arrival is made. -/
  | copyComplete (team chan : Nat)
  /-- COPY_FAULT (R272): A copy stops on a fault, records it and traps the group at a boundary. -/
  | copyFault (team chan : Nat)
  /-- TEMPLATE_SLOT_WRITE (R264): A store to a template slot updates the slot. -/
  | templateSlotWrite (team gid : Nat)
  /-- SYNC_WORD_RAISE (R277): A raise adds to a synchronisation word's count after its row is performed. -/
  | syncWordRaise (team : Nat)
  /-- GATHER_ROW_TRANSFER (R280): One gather or scatter row is moved. -/
  | gatherRowTransfer (team job : Nat)
  /-- GATHER_COMPLETE (R280): All rows of a gather are performed and gath falls. -/
  | gatherComplete (team job : Nat)
  /-- BANK_START (R292): A START store is applied at a bank core, starting or refusing a job. -/
  | bankStart (team gid : Nat)
  /-- MAILBOX_WRITE (R293): A mailbox store from the owner writes a mailbox word. -/
  | mailboxWrite (team gid : Nat)
  /-- BANK_JOB_SUSPEND (R371): A lower-prio bank-core job is suspended at its next chunk boundary for an urgent job. -/
  | bankJobSuspend (launch node : Nat)
  /-- WAVE_START (R313): The root starts a held wave and sends start messages. -/
  | waveStart (core entry : Nat)
  /-- START_MESSAGE_ARRIVE (R313): A fold applies a wave's start to its nodes. -/
  | startMessageArrive (i : Nat)
  /-- MARKER_MESSAGE_ARRIVE (R323): A marker message is processed at its target node. -/
  | markerMessageArrive (i : Nat)
  /-- DROP_NOTICE_ARRIVE (R315): A drop notice returns to the sending fold and counts as received. -/
  | dropNoticeArrive (i : Nat)
  /-- SWEEP_ANSWER (R317): An idle fold answers a sweep request with its counts. -/
  | sweepAnswer (core root entry : Nat)
  /-- SWEEP_RESULT (R317): The root receives a sweep result and ends the wave or starts another sweep. -/
  | sweepResult (root entry : Nat)
  /-- ABORT_NOTICE_ARRIVE (R324): A member takes a wave's abort notice. -/
  | abortNoticeArrive (i : Nat)
  /-- WAIT_PACKET (R338): A wait packet wakes a Drover thread. -/
  | waitPacket (q : Nat) (w : BitVec 32)
  /-- DROVER_FETCH (R338): A Drover thread reads the next queue entry or goes idle. -/
  | droverFetch (q : Nat)
  /-- COMMAND_NOP (R338): A NOP command advances the read index. -/
  | commandNop (q : Nat)
  /-- LAUNCH (R342): A LAUNCH command is checked and started, refused or held. -/
  | launch (q : Nat)
  /-- NODE_DISPATCH (R344): A ready node is run or handed to placement or tender by its kind. -/
  | nodeDispatch (launch node : Nat)
  /-- TEAM_PLACE (R345): A team is placed on a core with its resources and groups started. -/
  | teamPlace (entry : Nat)
  /-- NODE_COMPLETE (R347): A node completes, fails or is skipped, updating successors and words. -/
  | nodeComplete (launch node : Nat)
  /-- BID_WINDOW_OPEN (R350): The Bellwether announces a task and eligible cores bid. -/
  | bidWindowOpen
  /-- BID_WINDOW_CLOSE (R350): The window closes at W and the lowest bid wins. -/
  | bidWindowClose
  /-- AWARD_ACCEPT (R350): The winner accepts or declines the award at W plus 13. -/
  | awardAccept
  /-- URGENT_PLACE (R370): An urgent team is placed, evicting groups or teams of lower prio. -/
  | urgentPlace (entry : Nat)
  /-- GROUP_EVICT (R371): A group is evicted at its next clause boundary or at once if suspended. -/
  | groupEvict (team gid : Nat)
  /-- STREAM_EVICT_STOP (R371): An evicted team's stream stops and its sequencer is saved. -/
  | streamEvictStop (team : Nat)
  /-- TEAM_RESTORE (R373): A team evicted whole is restored and its ring replayed. -/
  | teamRestore (team core : Nat)
  /-- GROUP_RESTORE (R373): Partially evicted groups return to their core. -/
  | groupRestore (team : Nat)
  /-- FAULT_RING_APPEND (R369): A waiting fault record is appended when the fault ring has room. -/
  | faultRingAppend (team gid : Nat) (path : Bool)
  /-- PARKED_RESUME (R368): A resume command re-executes a parked faulting instruction. -/
  | parkedResume (asid : Nat) (serial : BitVec 32)
  /-- PARKED_KILL (R368): A kill command ends a parked group. -/
  | parkedKill (asid : Nat) (serial : BitVec 32)
  /-- QUEUE_DESCRIPTOR_WRITE (R333): The service maps or unmaps a queue descriptor. -/
  | queueDescriptorWrite (q : Nat) (desc : BitVec 256)
  /-- CONTROL_SPACE_WRITE (R421): A write to a control-space register without its own row takes effect. -/
  | controlSpaceWrite (reg : CtlReg) (v : BitVec 512)
  /-- SHASID_WRITE (R336): Machine mode sets the Shepherd's ASID. -/
  | shasidWrite (hart : Nat) (v : BitVec 64)
  /-- MESSAGE_FLIT_ARRIVE (R353): A message flit is written to a receive register or refused. -/
  | messageFlitArrive (i : Nat)
  /-- FABRIC_READ (R399): A remote read packet is served at its destination. -/
  | fabricRead (p : FabPkt)
  /-- FABRIC_WRITE (R399): A remote write packet is applied and acknowledged. -/
  | fabricWrite (p : FabPkt)
  /-- FABRIC_PUT (R400): A remote put packet is delivered to a scratchpad tile. -/
  | fabricPut (p : FabPkt)
  /-- FABRIC_ATOMIC (R405): A remote atomic packet is applied at the home. -/
  | fabricAtomic (p : FabPkt)
  /-- COMBINED_ATOMIC (R405): A combined-atomic packet applies its operands in element order. -/
  | combinedAtomic (p : FabPkt)
  /-- READ_REPLY (R404): A read reply reaches the waiting load. -/
  | readReply (p : FabPkt)
  /-- ACKNOWLEDGEMENT (R401): An acknowledgement credits fab and pathack. -/
  | acknowledgement (p : FabPkt)
  /-- ATOMIC_REPLY (R405): An atomic reply returns old values to the group. -/
  | atomicReply (p : FabPkt)
  /-- STAGE (R409): A stage packet is checked and kept in the staging buffer. -/
  | stage (p : FabPkt)
  /-- COMMIT (R409): A commit packet applies staged lines in issue order. -/
  | commit (p : FabPkt)
  /-- REGION_ABORT (R410): A region-abort packet discards staged lines. -/
  | regionAbort (p : FabPkt)
  /-- COLLECTIVE_DATA (R415): A collective data packet is taken by a collective engine. -/
  | collectiveData (p : FabPkt)
  /-- COLLECTIVE_ABORT (R417): A collective-abort packet ends the collective ABORTED and poisons tiles. -/
  | collectiveAbort (p : FabPkt)
  /-- UNKNOWN_PACKET_KIND (R398): A packet of an unknown kind is discarded and logged. -/
  | unknownPacketKind (p : FabPkt)
  /-- PATH_DOWN (R406): A path without acknowledgement for 2^22 cycles is marked down and traffic rerouted. -/
  | pathDown (dst path : Nat)
  /-- ORDERED_FLAG_SEND (R402): A held ordered-flag packet is sent once earlier writes are acknowledged. -/
  | orderedFlagSend (team gid : Nat)
  /-- COMMIT_POINT (R409): Every stage is acknowledged and FCOMMIT completes. -/
  | commitPoint (team gid : Nat)
  /-- REGION_FAIL (R410): A region fails from outside and rolls back to its checkpoint. -/
  | regionFail (team gid : Nat) (why : RegionFailure)
  /-- COLLECTIVE_STATUS_WRITE (R416): A finished collective writes its status word and coll falls. -/
  | collectiveStatusWrite (i : Nat)
  /-- CONTEXT_KILL (R417): System software kills a context, aborting its collectives. -/
  | contextKill (asid : Nat)
  /-- LINK_RETRY (R375): A link-level error is resent by the link in order. -/
  | linkRetry (link : Nat)
  /-- ROUTE_TABLE_WRITE (R396): The fabric manager writes a path record. -/
  | routeTableWrite (dst path : Nat) (rec : BitVec 64)
  /-- DEVICE_NUMBER_ASSIGN (R395): The fabric manager assigns the device number. -/
  | deviceNumberAssign (n : BitVec 10)
  /-- BOOT (R419): Reset runs the boot ROM sequence. -/
  | boot (images : List BootImage) (manager : Bool)
  /-- UE_RMA_WRITE (R422): An incoming RMA write is performed under the queue's ASID. -/
  | ueRmaWrite (q : Nat) (addr : BitVec 64) (data : List Byte)
  /-- UE_RMA_READ (R422): An incoming RMA read is served under the queue's ASID. -/
  | ueRmaRead (q : Nat) (addr : BitVec 64) (len : Nat)
  /-- UE_SEND (R422): An incoming send delivers a command into a queue's ring. -/
  | ueSend (q : Nat) (cmd : BitVec 512)
  /-- UE_UNSUPPORTED_PACKET (R422): A packet of an unsupported transport service is dropped and counted. -/
  | ueUnsupportedPacket (service : UeService)
  /-- ATTESTATION_QUOTE (R423): A nonce request produces a quote signed with the next one-time key. -/
  | attestationQuote (nonce : BitVec 256)
  /-- MUSTER_REQUEST (R424): A Muster store starts a summary, or is refused while one runs. -/
  | musterRequest (addr : BitVec 64)
  /-- MUSTER_COMPLETE (R424): The summary is written and its completion word released. -/
  | musterComplete
  /-- STOPWATCH_WRITE (R426): A store of 1 to the Stopwatch register freezes every clock. -/
  | stopwatchWrite (v : BitVec 64)
  /-- STOPW_N_FALL (R426): A falling edge on STOPW_N freezes every clock. -/
  | stopwNFall
  /-- STOPWATCH_RESUME (R426): A port resume restarts all clocks together. -/
  | stopwatchResume
  /-- DEBUG_RESUME (R427): The debug port ends a DBG suspension. -/
  | debugResume (team gid : Nat) (path : Bool)
  /-- THERMAL_THROTTLE (R428): A hot junction lowers the core clock in 100 MHz steps. -/
  | thermalThrottle (celsius : Nat)
  /-- THERMAL_TRIP (R428): A junction at 115 C freezes the device and drives FAULT low. -/
  | thermalTrip (celsius : Nat)
deriving DecidableEq, Repr

end Sys2Proof
end

