-- ==== Sys2Proof/WellFormed.lean ====
section
/-! DEFINITION. Which instruction terms have an encoding that passes the field checks of spec/02 R38 to R45 and of each instruction's own entry. -/

namespace Sys2Proof

/-- A scalar destination: nw = 1 needs dst 0 (R43). -/
def Dst.okS (d : Dst) : Bool := !d.nw || d.reg == 0
/-- A vector destination lies in v0 to v31 (R39). -/
def Dst.okV (d : Dst) : Bool := decide (d.reg.toNat < 32) && d.okS
/-- A mask destination lies in m0 to m7 (R39). -/
def Dst.okM (d : Dst) : Bool := decide (d.reg.toNat < 8) && d.okS
/-- A vector register named by dst in an instruction without nw. -/
def okV6 (d : BitVec 6) : Bool := decide (d.toNat < 32)
/-- A stream register that may be written: q1 to q15 (R163). -/
def okQ6 (d : BitVec 6) : Bool := decide (d.toNat < 16) && d != 0
/-- An accumulator tile acc0 to acc15 (R180). -/
def okT6 (d : BitVec 6) : Bool := decide (d.toNat < 16)
/-- A vector source: v0 to v31, a latch or an inline constant (R40). -/
def Src.okV : Src → Bool
  | .reg n => decide (n.toNat < 32)
  | _ => true
/-- A mask source: m0 to m7 or a latch; an inline constant is illegal (R41). -/
def Src.okM : Src → Bool
  | .reg n => decide (n.toNat < 8)
  | .latch _ => true
  | .const _ => false
/-- A stream source: q0 to q15 or an inline constant; there are no latches (R163). -/
def Src.okQ : Src → Bool
  | .reg n => decide (n.toNat < 16)
  | .latch _ => false
  | .const _ => true
/-- The four registers of MREL.w start at a multiple of 4 (R194). -/
def Src.isReg4 : Src → Bool
  | .reg n => decide (n.toNat < 32) && n.toNat % 4 == 0
  | _ => false
/-- Which type codes an atomic operation accepts (R240). -/
def atomTyOk (op : AtomOp) (t : IntTy) : Bool :=
  match op with
  | .fadd | .fmin | .fmax => t == ⟨false, 2⟩ || t == ⟨false, 1⟩ || t == ⟨true, 1⟩
  | _ => t.width == 2 || t.width == 3
/-- The limits of the bit-field literal (R64). -/
def BfLit.ok (l : BfLit) : Bool := l.width != 0 && decide (l.lo.toNat + l.width.toNat ≤ 64)
/-- The limits of the gather literal (R279). -/
def GathLit.ok (l : GathLit) : Bool := l.pitch.toNat % 4 == 0 && l.words != 0
/-- The codes and combinations of the GPROP literal that R328 allows. -/
def GpLit.ok (l : GpLit) : Bool :=
  decide (l.comb.toNat ≤ 4) && l.gmode != 3 && !(l.comb == 0 && (l.w || l.ef)) && !(l.comb == 1 && l.h == 0)

/-- The instruction has an encoding that the checks of R38 to R45 let pass. Events have no encoding and nothing to check. -/
def Instr.wf : Instr → Bool
  | .add d _ _ _ => d.okS
  | .sub d _ _ _ => d.okS
  | .mul d _ _ _ => d.okS
  | .mulh d _ _ _ => d.okS
  | .div d _ _ _ => d.okS
  | .rem d _ _ _ => d.okS
  | .and d _ _ _ => d.okS
  | .or d _ _ _ => d.okS
  | .xor d _ _ _ => d.okS
  | .andn d _ _ _ => d.okS
  | .shl d _ _ _ => d.okS
  | .shr d _ _ _ => d.okS
  | .rol d _ _ _ => d.okS
  | .min d _ _ _ => d.okS
  | .max d _ _ _ => d.okS
  | .sel d _ _ => d.okS
  | .addi d _ _ => d.okS
  | .muli d _ _ => d.okS
  | .andi d _ _ => d.okS
  | .ori d _ _ => d.okS
  | .xori d _ _ => d.okS
  | .shli d _ _ => d.okS
  | .shri d _ _ _ => d.okS
  | .li d _ => d.okS
  | .liw d _ => d.okS
  | .liwZ d _ => d.okS
  | .liwH d _ _ => d.okS
  | .bfx d _ l => d.okS && l.ok
  | .bfi d _ _ l => d.okS && (l.ok && !l.sx)
  | .clz d _ _ => d.okS
  | .ctz d _ _ => d.okS
  | .popc d _ _ => d.okS
  | .cmp d _ _ _ => d.okS
  | .cmpi d _ _ => d.okS
  | .bra _ => true
  | .brc _ _ _ _ => true
  | .brz _ _ => true
  | .brnz _ _ => true
  | .jmp _ => true
  | .jmpReg _ _ => true
  | .call d _ => d.okS
  | .callr d _ => d.okS
  | .ret _ => true
  | .brm a _ => a.okM
  | .join => true
  | .looph => true
  | .exit => true
  | .nop => true
  | .yield => true
  | .ld d _ _ _ => d.okS
  | .st _ _ _ _ => true
  | .ldaq d _ _ _ => d.okS
  | .strl _ _ _ _ => true
  | .vld d _ _ _ => d.okV
  | .vst d _ _ _ => okV6 d
  | .vlds d _ _ _ _ => d.okV
  | .vsts d _ _ _ _ => okV6 d
  | .vldff d _ _ _ => d.okV
  | .vldx d _ b _ _ => d.okV && b.okV
  | .vstx d _ b _ _ => okV6 d && b.okV
  | .tld d _ _ _ => d.okV
  | .tst d _ _ => okV6 d
  | .putt d _ l => okV6 d && (l.space != .p)
  | .ldc d _ _ l => d.okV && (l.space != .p)
  | .ldp d _ _ l => d.okV && (l.space != .p)
  | .taglk d _ => d.okS
  | .tagins d _ _ => d.okS
  | .tagdel d _ => d.okS
  | .amo d _ _ t l => d.okS && atomTyOk l.op t
  | .amon _ _ t l => atomTyOk l.op t
  | .vamo d _ b _ _ _ => d.okV && b.okV
  | .vamon d _ b _ _ _ => okV6 d && b.okV
  | .cas d _ _ t l => d.okS && (l.op == .add && atomTyOk .add t)
  | .vcas d _ b _ _ l => okV6 d && b.okV && (l.op == .add)
  | .nma _ _ t l => (l.scope == .grp && atomTyOk l.op t)
  | .vnma d _ b _ _ l => okV6 d && b.okV && (l.scope == .grp)
  | .fence _ => true
  | .pref _ _ _ => true
  | .cclean _ _ => true
  | .cinv a all l => (!all || (a == .reg 0 && l == ⟨.g, 0⟩))
  | .tfill _ _ l => (l.space != .p)
  | .tempty _ _ l => (l.space != .p)
  | .ttag d _ l => d.okS && (l.space != .p)
  | .cflush _ _ => true
  | .vadd d a b _ _ => d.okV && a.okV && b.okV
  | .vsub d a b _ _ => d.okV && a.okV && b.okV
  | .vmul d a b _ _ => d.okV && a.okV && b.okV
  | .vmulh d a b _ _ => d.okV && a.okV && b.okV
  | .vdiv d a b _ _ => d.okV && a.okV && b.okV
  | .vrem d a b _ _ => d.okV && a.okV && b.okV
  | .vand d a b _ _ => d.okV && a.okV && b.okV
  | .vor d a b _ _ => d.okV && a.okV && b.okV
  | .vxor d a b _ _ => d.okV && a.okV && b.okV
  | .vshl d a b _ _ => d.okV && a.okV && b.okV
  | .vshr d a b _ _ => d.okV && a.okV && b.okV
  | .vmin d a b _ _ => d.okV && a.okV && b.okV
  | .vmax d a b _ _ => d.okV && a.okV && b.okV
  | .vabs d a _ => d.okV && a.okV
  | .vneg d a _ => d.okV && a.okV
  | .vmerge d a b k => d.okV && a.okV && b.okV && (k != .none)
  | .vfadd d a b _ _ => d.okV && a.okV && b.okV
  | .vfsub d a b _ _ => d.okV && a.okV && b.okV
  | .vfmul d a b _ _ => d.okV && a.okV && b.okV
  | .vfdiv d a b _ _ => d.okV && a.okV && b.okV
  | .vfma d a b _ _ => d.okV && a.okV && b.okV
  | .vfms d a b _ _ => d.okV && a.okV && b.okV
  | .vfnma d a b _ _ => d.okV && a.okV && b.okV
  | .vfmin d a b _ _ => d.okV && a.okV && b.okV
  | .vfmax d a b _ _ => d.okV && a.okV && b.okV
  | .vfabs d a _ _ => d.okV && a.okV
  | .vfneg d a _ _ => d.okV && a.okV
  | .vfsqrt d a _ _ => d.okV && a.okV
  | .vfrsq d a _ _ => d.okV && a.okV
  | .vfrcp d a _ _ => d.okV && a.okV
  | .vfexp d a _ _ => d.okV && a.okV
  | .vflog d a _ _ => d.okV && a.okV
  | .vftanh d a _ _ => d.okV && a.okV
  | .vfsin d a _ _ => d.okV && a.okV
  | .vfcos d a _ _ => d.okV && a.okV
  | .vfclass d a _ _ => d.okV && a.okV
  | .vcmpeq d a b _ _ => d.okM && a.okV && b.okV
  | .vcmpne d a b _ _ => d.okM && a.okV && b.okV
  | .vcmplt d a b _ _ => d.okM && a.okV && b.okV
  | .vcmple d a b _ _ => d.okM && a.okV && b.okV
  | .vfcmpeq d a b _ _ => d.okM && a.okV && b.okV
  | .vfcmplt d a b _ _ => d.okM && a.okV && b.okV
  | .vfcmple d a b _ _ => d.okM && a.okV && b.okV
  | .vfcmpun d a b _ _ => d.okM && a.okV && b.okV
  | .vcvt d a _ _ _ => d.okV && a.okV
  | .vquant d a _ _ => d.okV && a.okV
  | .vdeq d a _ _ => d.okV && a.okV
  | .vmv d a _ => d.okV && a.okV
  | .vredsum d a b _ _ => d.okV && a.okV && b.okV
  | .vredmax d a b _ _ => d.okV && a.okV && b.okV
  | .vredmin d a b _ _ => d.okV && a.okV && b.okV
  | .vfredsum d a b _ _ => d.okV && a.okV && b.okV
  | .vfredmax d a b _ _ => d.okV && a.okV && b.okV
  | .vfredmin d a b _ _ => d.okV && a.okV && b.okV
  | .vscan d a b _ => d.okV && a.okV && b.okM
  | .vfscan d a b _ _ => d.okV && a.okV && b.okM
  | .vslideup d a _ _ => d.okV && a.okV
  | .vslidedn d a _ _ => d.okV && a.okV
  | .vrgather d a b _ => d.okV && a.okV && b.okV
  | .vcompress d a k => d.okV && a.okV && (k != .none)
  | .vid d _ => d.okV
  | .viota d a _ => d.okV && a.okM
  | .vsortk d a b _ _ => okV6 d && a.okV && b.okV && (d.getLsbD 0 == false)
  | .vbcast d _ _ => d.okV
  | .setvl d _ _ => d.okS
  | .setvli d _ _ => d.okS
  | .mand d a b => d.okM && a.okM && b.okM
  | .mor d a b => d.okM && a.okM && b.okM
  | .mxor d a b => d.okM && a.okM && b.okM
  | .mandn d a b => d.okM && a.okM && b.okM
  | .mnot d a => d.okM && a.okM
  | .mpop d a _ => d.okS && a.okM
  | .mfirst d a _ => d.okS && a.okM
  | .emget d g => (if g then d.okM else d.okS)
  | .emset a g => (!g || a.okM)
  | .mma d a b l => okT6 d && a.okQ && b.okQ && (l.seg == 0 && l.idreg == 0)
  | .mmaAdp d a b _ => okT6 d && a.okQ && b.okQ
  | .adpfin d b _ => okT6 d && b.okQ
  | .mzero d => okT6 d
  | .mldacc d a b f l => okT6 d && a.okQ && b.okQ && (f != 3 && l.space != .p)
  | .mdrain d a b f _ l => okT6 d && a.okQ && b.okQ && (f != 3 && l.space != .p)
  | .mfence a _ => a.okQ
  | .mbara _ _ => true
  | .mbarw _ => true
  | .mloop d _ => okQ6 d
  | .mjmp _ => true
  | .mend => true
  | .adpld a l => a.okQ && (l.count != 0 && l.count.toNat ≤ 64)
  | .adpinv a => a.okQ
  | .msetbAdd d a b => okQ6 d && a.okQ && b.okQ
  | .msetbLd d a b => okQ6 d && a.okQ && b.okQ
  | .msetbFmt a => a.okQ
  | .msetbSeed a => a.okQ
  | .msetbBind a => a.okQ
  | .msetbAdir a => a.okQ
  | .mnop => true
  | .macq d _ => okV6 d && (d.toNat % 4 == 0)
  | .macqNc _ => true
  | .mrel _ => true
  | .mrelW _ b => b.isReg4
  | .gath d _ _ _ l => okV6 d && l.ok
  | .scat d _ _ _ l => okV6 d && l.ok
  | .coll _ l => (l.space == .g)
  | .waitc _ _ => true
  | .astatCnt d _ => d.okS
  | .astatChan d _ => d.okS
  | .astatFault d => d.okS
  | .nmsync => true
  | .gcfg _ => true
  | .gcfgUn => true
  | .gmatch d _ _ _ => d.okS
  | .gprop d _ l => d.okS && l.ok
  | .gwait d _ => d.okS
  | .gcollect d _ _ => d.okS
  | .gclr _ _ => true
  | .gvld d _ _ => d.okV
  | .gvst d _ _ => okV6 d
  | .gstat d _ => d.okS
  | .gabort _ => true
  | .bari _ _ => true
  | .bara _ => true
  | .barw _ => true
  | .baraw _ => true
  | .syncw d _ _ => d.okS
  | .mqw d _ _ _ => (d.toNat ≤ 3)
  | .mqr d _ => d.okS
  | .refill d => okV6 d
  | .itempush d _ => d.okS
  | .itempushClose d => d.okS
  | .tender d _ _ => d.okS
  | .withdraw d _ => d.okS
  | .doneTask _ => true
  | .blkacq d _ _ => d.okS
  | .blkrel d _ => d.okS
  | .fbegin _ _ => true
  | .fcommit d => d.okS
  | .fabort => true
  | .csrr d _ => d.okS
  | .csrw d _ _ => d.okS
  | .csrs d _ _ => d.okS
  | .csrc d _ _ => d.okS
  | .trap _ => true
  | .eret => true
  | .tlbinv _ _ => true
  | .tlbinvAsid _ => true
  | .tlbinvAll => true
  | .cbld a _ => a.okV
  | .cbswap _ => true
  | .bidld _ _ => true
  | .bidldWindow _ => true
  | .dbg _ => true
  | .feat d => d.okS
  | .nzskip _ _ _ _ => true
  | .rowf _ => true
  | .mbxr _ _ => true
  | .haltb _ => true
  | .submit _ _ _ => true
  | .clauseExecute _ => true
  | .boundaryCauseTaken _ _ => true
  | .pathWake _ _ _ => true
  | .spareBlockLend _ _ => true
  | .streamFault _ => true
  | .mmaRowCommit _ _ => true
  | .adapterSegmentFill _ => true
  | .adapterRowReplay _ => true
  | .batchClose _ => true
  | .streamStop _ => true
  | .putArrive _ => true
  | .putResend _ => true
  | .pausedPutRetry _ => true
  | .uncorrectableError _ _ => true
  | .correctedError _ _ => true
  | .registerUncorrectable _ _ => true
  | .asyncRefusalArrive _ => true
  | .storePerform _ _ => true
  | .l1LineExpire _ _ => true
  | .nearCommandApply _ _ => true
  | .nearAckCredit _ _ => true
  | .copyStartAccept _ _ => true
  | .copyBegin _ _ => true
  | .copyRowWrite _ _ => true
  | .copyComplete _ _ => true
  | .copyFault _ _ => true
  | .templateSlotWrite _ _ => true
  | .syncWordRaise _ => true
  | .gatherRowTransfer _ _ => true
  | .gatherComplete _ _ => true
  | .bankStart _ _ => true
  | .mailboxWrite _ _ => true
  | .bankJobSuspend _ _ => true
  | .waveStart _ _ => true
  | .startMessageArrive _ => true
  | .markerMessageArrive _ => true
  | .dropNoticeArrive _ => true
  | .sweepAnswer _ _ _ => true
  | .sweepResult _ _ => true
  | .abortNoticeArrive _ => true
  | .waitPacket _ _ => true
  | .droverFetch _ => true
  | .commandNop _ => true
  | .launch _ => true
  | .nodeDispatch _ _ => true
  | .teamPlace _ => true
  | .nodeComplete _ _ => true
  | .bidWindowOpen => true
  | .bidWindowClose => true
  | .awardAccept => true
  | .urgentPlace _ => true
  | .groupEvict _ _ => true
  | .streamEvictStop _ => true
  | .teamRestore _ _ => true
  | .groupRestore _ => true
  | .faultRingAppend _ _ _ => true
  | .parkedResume _ _ => true
  | .parkedKill _ _ => true
  | .queueDescriptorWrite _ _ => true
  | .controlSpaceWrite _ _ => true
  | .shasidWrite _ _ => true
  | .messageFlitArrive _ => true
  | .fabricRead _ => true
  | .fabricWrite _ => true
  | .fabricPut _ => true
  | .fabricAtomic _ => true
  | .combinedAtomic _ => true
  | .readReply _ => true
  | .acknowledgement _ => true
  | .atomicReply _ => true
  | .stage _ => true
  | .commit _ => true
  | .regionAbort _ => true
  | .collectiveData _ => true
  | .collectiveAbort _ => true
  | .unknownPacketKind _ => true
  | .pathDown _ _ => true
  | .orderedFlagSend _ _ => true
  | .commitPoint _ _ => true
  | .regionFail _ _ _ => true
  | .collectiveStatusWrite _ => true
  | .contextKill _ => true
  | .linkRetry _ => true
  | .routeTableWrite _ _ _ => true
  | .deviceNumberAssign _ => true
  | .boot _ _ => true
  | .ueRmaWrite _ _ _ => true
  | .ueRmaRead _ _ _ => true
  | .ueSend _ _ => true
  | .ueUnsupportedPacket _ => true
  | .attestationQuote _ => true
  | .musterRequest _ => true
  | .musterComplete => true
  | .stopwatchWrite _ => true
  | .stopwNFall => true
  | .stopwatchResume => true
  | .debugResume _ _ _ => true
  | .thermalThrottle _ => true
  | .thermalTrip _ => true

end Sys2Proof
end

