-- ==== Sys2Proof/Decode.lean ====
section
/-! DEFINITION. Instruction words to instructions and back (spec/02): the field formats of R36, R37 and R40 to R46, the literal layouts, the opcode maps of R50 with the forms of R51, the feature bits of R53, and the encoder. -/

namespace Sys2Proof

/-- Sign extension to 64 bits (R8). -/
def sx64 {n : Nat} (x : BitVec n) : Word64 := x.signExtend 64
/-- Zero extension to 64 bits (R8). -/
def zx64 {n : Nat} (x : BitVec n) : Word64 := x.setWidth 64
/-- A little-endian number from bytes, lowest address first (R6). -/
def leNat : List Byte → Nat
  | [] => 0
  | b :: bs => b.toNat + 256 * leNat bs
/-- The n bytes of a number, little-endian (R6). -/
def leBytes : Nat → Nat → List Byte
  | 0, _ => []
  | n + 1, v => BitVec.ofNat 8 v :: leBytes n (v / 256)

/-- The fields of an instruction word of register form (R36). -/
structure Raw where
  op : BitVec 8
  d : BitVec 6
  nw : Bool
  a : BitVec 7
  b : BitVec 7
  m : BitVec 3
deriving DecidableEq, Repr

/-- The fields of a word (R36). -/
def Raw.ofWord (w : Word32) : Raw :=
  ⟨w.extractLsb' 24 8, w.extractLsb' 18 6, w.getLsbD 17, w.extractLsb' 10 7, w.extractLsb' 3 7, w.extractLsb' 0 3⟩
/-- The word of the fields (R36). -/
def Raw.toWord (r : Raw) : Word32 := r.op ++ r.d ++ BitVec.ofBool r.nw ++ r.a ++ r.b ++ r.m
/-- The immediate of a word of immediate form, bits [9:0] (R37). -/
def Raw.imm (r : Raw) : BitVec 10 := r.b ++ r.m
/-- A word of immediate form (R37). -/
def Raw.ofImm (op : BitVec 8) (d : BitVec 6) (nw : Bool) (a : BitVec 7) (i : BitVec 10) : Raw :=
  ⟨op, d, nw, a, i.extractLsb' 3 7, i.extractLsb' 0 3⟩

/-- A 7-bit source field (R40); 0x44 to 0x5F are illegal. -/
def Src.ofBits (x : BitVec 7) : Option Src :=
  if !x.getLsbD 6 then some (.reg (x.extractLsb' 0 6))
  else if x.getLsbD 5 then some (.const (x.extractLsb' 0 5))
  else if x.extractLsb' 2 3 == 0 then some (.latch (x.extractLsb' 0 2))
  else none
/-- The field of a source operand (R40). -/
def Src.toBits : Src → BitVec 7
  | .reg n => 0#1 ++ n
  | .latch k => 0b10000#5 ++ k
  | .const c => 0b11#2 ++ c

/-- The integer type of mod (R44). -/
def IntTy.ofBits (m : BitVec 3) : IntTy := ⟨m.getLsbD 2, m.extractLsb' 0 2⟩
/-- The mod field of an integer type (R44). -/
def IntTy.toBits (t : IntTy) : BitVec 3 := BitVec.ofBool t.nat ++ t.width

/-- A scope field (R45). -/
def Scope.ofBits (x : BitVec 3) : Option Scope :=
  match x.toNat with
  | 0 => some .grp
  | 1 => some .team
  | 2 => some .die
  | 3 => some .dev
  | 4 => some .sys
  | _ => none
/-- The code of a scope (R45). -/
def Scope.toBits : Scope → BitVec 3
  | .grp => 0 | .team => 1 | .die => 2 | .dev => 3 | .sys => 4

/-- The mask select mod[1:0] (R109). -/
def MSel.ofBits (x : BitVec 2) : MSel :=
  match x.toNat with
  | 0 => .none
  | 1 => .m0
  | 2 => .m2
  | _ => .m4
/-- The code of a mask select (R109). -/
def MSel.toBits : MSel → BitVec 2
  | .none => 0 | .m0 => 1 | .m2 => 2 | .m4 => 3

/-- The BRC condition (R70). -/
def BrCond.ofBits (x : BitVec 3) : Option BrCond :=
  match x.toNat with
  | 0 => some .eq
  | 1 => some .ne
  | 2 => some .lt
  | 3 => some .ge
  | 4 => some .ltn
  | 5 => some .gen
  | _ => none
/-- The code of a BRC condition (R70). -/
def BrCond.toBits : BrCond → BitVec 3
  | .eq => 0 | .ne => 1 | .lt => 2 | .ge => 3 | .ltn => 4 | .gen => 5

/-- The space field of a memory literal (R77). -/
def Space.ofBits (x : BitVec 2) : Option Space :=
  match x.toNat with
  | 0 => some .g
  | 1 => some .l
  | 2 => some .p
  | _ => none
/-- The code of a space (R77). -/
def Space.toBits : Space → BitVec 2
  | .g => 0 | .l => 1 | .p => 2

/-- The op field of an atomic (R239). -/
def AtomOp.ofBits (x : BitVec 4) : Option AtomOp :=
  match x.toNat with
  | 0 => some .add
  | 1 => some .and
  | 2 => some .or
  | 3 => some .xor
  | 4 => some .min
  | 5 => some .max
  | 6 => some .swap
  | 7 => some .fadd
  | 8 => some .fmin
  | 9 => some .fmax
  | _ => none
/-- The code of an atomic operation (R239). -/
def AtomOp.toBits : AtomOp → BitVec 4
  | .add => 0 | .and => 1 | .or => 2 | .xor => 3 | .min => 4 | .max => 5 | .swap => 6 | .fadd => 7 | .fmin => 8 | .fmax => 9

/-- Layout M (R218). -/
def MemM.ofBits (l : Word32) : Option MemM :=
  (Space.ofBits (l.extractLsb' 30 2)).bind fun s => some ⟨s, l.extractLsb' 0 30⟩
def MemM.toBits (m : MemM) : Word32 := m.space.toBits ++ m.off
/-- Layout S (R218). -/
def MemS.ofBits (l : Word32) : Option MemS :=
  (Space.ofBits (l.extractLsb' 30 2)).bind fun s => (Scope.ofBits (l.extractLsb' 27 3)).bind fun c =>
    some ⟨s, c, l.extractLsb' 0 27⟩
def MemS.toBits (m : MemS) : Word32 := m.space.toBits ++ m.scope.toBits ++ m.off
/-- Layout A (R218). -/
def MemA.ofBits (l : Word32) : Option MemA :=
  (Space.ofBits (l.extractLsb' 30 2)).bind fun s => (Scope.ofBits (l.extractLsb' 27 3)).bind fun c =>
    (AtomOp.ofBits (l.extractLsb' 23 4)).bind fun o => some ⟨s, c, o, l.extractLsb' 0 23⟩
def MemA.toBits (m : MemA) : Word32 := m.space.toBits ++ m.scope.toBits ++ m.op.toBits ++ m.off
/-- Layout X (R218). -/
def MemX.ofBits (l : Word32) : Option MemX :=
  (Space.ofBits (l.extractLsb' 30 2)).bind fun s =>
    some ⟨s, l.extractLsb' 28 2, l.getLsbD 27, l.extractLsb' 25 2, l.extractLsb' 0 25⟩
def MemX.toBits (m : MemX) : Word32 := m.space.toBits ++ m.xw ++ BitVec.ofBool m.xs ++ m.scale ++ m.off
/-- Layout VA (R218). -/
def MemVA.ofBits (l : Word32) : Option MemVA :=
  (Space.ofBits (l.extractLsb' 30 2)).bind fun s => (Scope.ofBits (l.extractLsb' 27 3)).bind fun c =>
    (AtomOp.ofBits (l.extractLsb' 23 4)).bind fun o =>
      some ⟨s, c, o, l.extractLsb' 21 2, l.getLsbD 20, l.extractLsb' 18 2, l.extractLsb' 0 18⟩
def MemVA.toBits (m : MemVA) : Word32 :=
  m.space.toBits ++ m.scope.toBits ++ m.op.toBits ++ m.xw ++ BitVec.ofBool m.xs ++ m.scale ++ m.off
/-- The BFX and BFI literal (R64); reserved bits must be zero. -/
def BfLit.ofBits (l : Word32) : Option BfLit :=
  if l.extractLsb' 14 18 == 0 then some ⟨l.getLsbD 13, l.extractLsb' 6 7, l.extractLsb' 0 6⟩ else none
def BfLit.toBits (l : BfLit) : Word32 := 0#18 ++ BitVec.ofBool l.sx ++ l.width ++ l.lo
/-- The MMA literal (R181). -/
def MmaLit.ofBits (l : Word32) : Option MmaLit :=
  if l.extractLsb' 27 5 == 0 && !l.getLsbD 12 then
    some ⟨l.extractLsb' 13 14, l.extractLsb' 7 5, l.getLsbD 6, l.getLsbD 5, l.extractLsb' 0 5⟩ else none
def MmaLit.toBits (l : MmaLit) : Word32 :=
  0#5 ++ l.seg ++ 0#1 ++ l.idreg ++ BitVec.ofBool l.z ++ BitVec.ofBool l.h ++ l.breg
/-- The ADPFIN literal (R183). -/
def FinLit.ofBits (l : Word32) : Option FinLit :=
  if l.extractLsb' 19 13 == 0 then some ⟨l.getLsbD 18, l.extractLsb' 14 4, l.extractLsb' 0 14⟩ else none
def FinLit.toBits (l : FinLit) : Word32 := 0#13 ++ BitVec.ofBool l.clr ++ l.src ++ l.seg
/-- The ADPLD literal (R185). -/
def AdpLit.ofBits (l : Word32) : Option AdpLit :=
  if l.extractLsb' 14 10 == 0 then some ⟨l.getLsbD 31, l.extractLsb' 24 7, l.extractLsb' 0 14⟩ else none
def AdpLit.toBits (l : AdpLit) : Word32 := BitVec.ofBool l.up ++ l.count ++ 0#10 ++ l.seg
/-- The GATH and SCAT literal (R279). -/
def GathLit.ofBits (l : Word32) : Option GathLit :=
  if l.extractLsb' 0 4 == 0 then some ⟨l.extractLsb' 16 16, l.extractLsb' 4 12⟩ else none
def GathLit.toBits (l : GathLit) : Word32 := l.pitch ++ l.words ++ 0#4
/-- The GMATCH literal (R327). -/
def GmLit.ofBits (l : Word32) : GmLit := ⟨l.extractLsb' 16 16, l.extractLsb' 0 16⟩
def GmLit.toBits (l : GmLit) : Word32 := l.tmask ++ l.tval
/-- The GPROP literal (R328). -/
def GpLit.ofBits (l : Word32) : GpLit :=
  ⟨l.getLsbD 31, l.extractLsb' 28 3, l.getLsbD 27, l.getLsbD 26, l.extractLsb' 24 2, l.extractLsb' 16 8,
   l.extractLsb' 8 8, l.extractLsb' 0 8⟩
def GpLit.toBits (l : GpLit) : Word32 :=
  BitVec.ofBool l.ef ++ l.comb ++ BitVec.ofBool l.w ++ BitVec.ofBool l.dir ++ l.gmode ++ l.h ++ l.etmask ++ l.etval
/-- The TENDER literal: the formula in [19:16], every other bit zero (R352). -/
def tenderOfBits (l : Word32) : Option (BitVec 4) :=
  if l.extractLsb' 20 12 == 0 && l.extractLsb' 0 16 == 0 then some (l.extractLsb' 16 4) else none
def tenderToBits (f : BitVec 4) : Word32 := 0#12 ++ f ++ 0#16

/-- The encoding of an instruction: its class, its word's fields and its literal, if it takes one (R46). -/
structure Enc where
  cls : BitVec 3
  raw : Raw
  lit : Option Word32
deriving DecidableEq, Repr


/-- The words of class 0 (Class 0, scalar and control), by opcode (R50). -/
def decodeClass0 (r : Raw) (l : Word32) : Option Instr :=
  match r.op.toNat with
  | 0x00 => (Src.ofBits r.a).bind fun a => (Src.ofBits r.b).bind fun b => some (.add ⟨r.d, r.nw⟩ a b (IntTy.ofBits r.m))
  | 0x01 => (Src.ofBits r.a).bind fun a => (Src.ofBits r.b).bind fun b => some (.sub ⟨r.d, r.nw⟩ a b (IntTy.ofBits r.m))
  | 0x02 => (Src.ofBits r.a).bind fun a => (Src.ofBits r.b).bind fun b => some (.mul ⟨r.d, r.nw⟩ a b (IntTy.ofBits r.m))
  | 0x03 => (Src.ofBits r.a).bind fun a => (Src.ofBits r.b).bind fun b => some (.mulh ⟨r.d, r.nw⟩ a b (IntTy.ofBits r.m))
  | 0x04 => (Src.ofBits r.a).bind fun a => (Src.ofBits r.b).bind fun b => some (.div ⟨r.d, r.nw⟩ a b (IntTy.ofBits r.m))
  | 0x05 => (Src.ofBits r.a).bind fun a => (Src.ofBits r.b).bind fun b => some (.rem ⟨r.d, r.nw⟩ a b (IntTy.ofBits r.m))
  | 0x06 => (Src.ofBits r.a).bind fun a => (Src.ofBits r.b).bind fun b => some (.and ⟨r.d, r.nw⟩ a b (IntTy.ofBits r.m))
  | 0x07 => (Src.ofBits r.a).bind fun a => (Src.ofBits r.b).bind fun b => some (.or ⟨r.d, r.nw⟩ a b (IntTy.ofBits r.m))
  | 0x08 => (Src.ofBits r.a).bind fun a => (Src.ofBits r.b).bind fun b => some (.xor ⟨r.d, r.nw⟩ a b (IntTy.ofBits r.m))
  | 0x09 => (Src.ofBits r.a).bind fun a => (Src.ofBits r.b).bind fun b => some (.andn ⟨r.d, r.nw⟩ a b (IntTy.ofBits r.m))
  | 0x0A => (Src.ofBits r.a).bind fun a => (Src.ofBits r.b).bind fun b => some (.shl ⟨r.d, r.nw⟩ a b (IntTy.ofBits r.m))
  | 0x0B => (Src.ofBits r.a).bind fun a => (Src.ofBits r.b).bind fun b => some (.shr ⟨r.d, r.nw⟩ a b (IntTy.ofBits r.m))
  | 0x0C => (Src.ofBits r.a).bind fun a => (Src.ofBits r.b).bind fun b => some (.rol ⟨r.d, r.nw⟩ a b (IntTy.ofBits r.m))
  | 0x0D => (Src.ofBits r.a).bind fun a => (Src.ofBits r.b).bind fun b => some (.min ⟨r.d, r.nw⟩ a b (IntTy.ofBits r.m))
  | 0x0E => (Src.ofBits r.a).bind fun a => (Src.ofBits r.b).bind fun b => some (.max ⟨r.d, r.nw⟩ a b (IntTy.ofBits r.m))
  | 0x0F => (Src.ofBits r.a).bind fun a => (Src.ofBits r.b).bind fun b => if r.m == 0 then some (.sel ⟨r.d, r.nw⟩ a b) else none
  | 0x10 => (Src.ofBits r.a).bind fun a => some (.addi ⟨r.d, r.nw⟩ a r.imm)
  | 0x11 => (Src.ofBits r.a).bind fun a => some (.muli ⟨r.d, r.nw⟩ a r.imm)
  | 0x12 => (Src.ofBits r.a).bind fun a => some (.andi ⟨r.d, r.nw⟩ a r.imm)
  | 0x13 => (Src.ofBits r.a).bind fun a => some (.ori ⟨r.d, r.nw⟩ a r.imm)
  | 0x14 => (Src.ofBits r.a).bind fun a => some (.xori ⟨r.d, r.nw⟩ a r.imm)
  | 0x15 => (Src.ofBits r.a).bind fun a => if r.imm.extractLsb' 6 4 == 0 then some (.shli ⟨r.d, r.nw⟩ a (r.imm.extractLsb' 0 6)) else none
  | 0x16 => (Src.ofBits r.a).bind fun a => if r.imm.extractLsb' 7 3 == 0 then some (.shri ⟨r.d, r.nw⟩ a (r.imm.getLsbD 6) (r.imm.extractLsb' 0 6)) else none
  | 0x17 => if r.a == 0 then some (.li ⟨r.d, r.nw⟩ r.imm) else none
  | 0x18 => ((some l).bind fun l => if r.m == 0 && r.a == 0 && r.b == 0 then some (.liw ⟨r.d, r.nw⟩ l) else none) <|> ((some l).bind fun l => if r.m == 1 && r.a == 0 && r.b == 0 then some (.liwZ ⟨r.d, r.nw⟩ l) else none) <|> ((Src.ofBits r.a).bind fun a => (some l).bind fun l => if r.m == 2 && r.b == 0 then some (.liwH ⟨r.d, r.nw⟩ a l) else none)
  | 0x19 => (Src.ofBits r.a).bind fun a => (BfLit.ofBits l).bind fun l => if r.b == 0 && r.m == 0 then some (.bfx ⟨r.d, r.nw⟩ a l) else none
  | 0x1A => (Src.ofBits r.a).bind fun a => (Src.ofBits r.b).bind fun b => (BfLit.ofBits l).bind fun l => if r.m == 0 then some (.bfi ⟨r.d, r.nw⟩ a b l) else none
  | 0x1B => (Src.ofBits r.a).bind fun a => if r.m.getLsbD 2 && r.b == 0 then some (.clz ⟨r.d, r.nw⟩ a (r.m.extractLsb' 0 2)) else none
  | 0x1C => (Src.ofBits r.a).bind fun a => if r.m.getLsbD 2 && r.b == 0 then some (.ctz ⟨r.d, r.nw⟩ a (r.m.extractLsb' 0 2)) else none
  | 0x1D => (Src.ofBits r.a).bind fun a => if r.m.getLsbD 2 && r.b == 0 then some (.popc ⟨r.d, r.nw⟩ a (r.m.extractLsb' 0 2)) else none
  | 0x1E => (Src.ofBits r.a).bind fun a => (Src.ofBits r.b).bind fun b => some (.cmp ⟨r.d, r.nw⟩ a b (IntTy.ofBits r.m))
  | 0x1F => (Src.ofBits r.a).bind fun a => some (.cmpi ⟨r.d, r.nw⟩ a r.imm)
  | 0x20 => if r.d == 0 && !r.nw && r.a == 0 then some (.bra r.imm) else none
  | 0x21 => (Src.ofBits r.a).bind fun a => (Src.ofBits r.b).bind fun b => (BrCond.ofBits r.m).bind fun cc => (some l).bind fun l => if r.d == 0 && !r.nw then some (.brc a b cc l) else none
  | 0x22 => (Src.ofBits r.a).bind fun a => if r.d == 0 && !r.nw then some (.brz a r.imm) else none
  | 0x23 => (Src.ofBits r.a).bind fun a => if r.d == 0 && !r.nw then some (.brnz a r.imm) else none
  | 0x24 => ((some l).bind fun l => if r.m == 0 && r.d == 0 && !r.nw && r.a == 0 && r.b == 0 then some (.jmp l) else none) <|> ((Src.ofBits r.a).bind fun a => (some l).bind fun l => if r.m == 1 && r.d == 0 && !r.nw && r.b == 0 then some (.jmpReg a l) else none)
  | 0x25 => (some l).bind fun l => if r.a == 0 && r.b == 0 && r.m == 0 then some (.call ⟨r.d, r.nw⟩ l) else none
  | 0x26 => (Src.ofBits r.a).bind fun a => if r.b == 0 && r.m == 0 then some (.callr ⟨r.d, r.nw⟩ a) else none
  | 0x27 => (Src.ofBits r.a).bind fun a => if r.d == 0 && !r.nw && r.b == 0 && r.m == 0 then some (.ret a) else none
  | 0x28 => (Src.ofBits r.a).bind fun a => if r.d == 0 && !r.nw then some (.brm a r.imm) else none
  | 0x29 => if r.d == 0 && !r.nw && r.a == 0 && r.b == 0 && r.m == 0 then some (.join) else none
  | 0x2A => if r.d == 0 && !r.nw && r.a == 0 && r.b == 0 && r.m == 0 then some (.looph) else none
  | 0x2B => if r.d == 0 && !r.nw && r.a == 0 && r.b == 0 && r.m == 0 then some (.exit) else none
  | 0x2C => if r.d == 0 && !r.nw && r.a == 0 && r.b == 0 && r.m == 0 then some (.nop) else none
  | 0x2D => if r.d == 0 && !r.nw && r.a == 0 && r.b == 0 && r.m == 0 then some (.yield) else none
  | _ => none

/-- The words of class 1 (Class 1, vector), by opcode (R50). -/
def decodeClass1 (r : Raw) (l : Word32) : Option Instr :=
  match r.op.toNat with
  | 0x00 => (Src.ofBits r.a).bind fun a => (Src.ofBits r.b).bind fun b => some (.vadd ⟨r.d, r.nw⟩ a b (r.m.getLsbD 2) (MSel.ofBits (r.m.extractLsb' 0 2)))
  | 0x01 => (Src.ofBits r.a).bind fun a => (Src.ofBits r.b).bind fun b => some (.vsub ⟨r.d, r.nw⟩ a b (r.m.getLsbD 2) (MSel.ofBits (r.m.extractLsb' 0 2)))
  | 0x02 => (Src.ofBits r.a).bind fun a => (Src.ofBits r.b).bind fun b => some (.vmul ⟨r.d, r.nw⟩ a b (r.m.getLsbD 2) (MSel.ofBits (r.m.extractLsb' 0 2)))
  | 0x03 => (Src.ofBits r.a).bind fun a => (Src.ofBits r.b).bind fun b => some (.vmulh ⟨r.d, r.nw⟩ a b (r.m.getLsbD 2) (MSel.ofBits (r.m.extractLsb' 0 2)))
  | 0x04 => (Src.ofBits r.a).bind fun a => (Src.ofBits r.b).bind fun b => some (.vdiv ⟨r.d, r.nw⟩ a b (r.m.getLsbD 2) (MSel.ofBits (r.m.extractLsb' 0 2)))
  | 0x05 => (Src.ofBits r.a).bind fun a => (Src.ofBits r.b).bind fun b => some (.vrem ⟨r.d, r.nw⟩ a b (r.m.getLsbD 2) (MSel.ofBits (r.m.extractLsb' 0 2)))
  | 0x06 => (Src.ofBits r.a).bind fun a => (Src.ofBits r.b).bind fun b => some (.vand ⟨r.d, r.nw⟩ a b (r.m.getLsbD 2) (MSel.ofBits (r.m.extractLsb' 0 2)))
  | 0x07 => (Src.ofBits r.a).bind fun a => (Src.ofBits r.b).bind fun b => some (.vor ⟨r.d, r.nw⟩ a b (r.m.getLsbD 2) (MSel.ofBits (r.m.extractLsb' 0 2)))
  | 0x08 => (Src.ofBits r.a).bind fun a => (Src.ofBits r.b).bind fun b => some (.vxor ⟨r.d, r.nw⟩ a b (r.m.getLsbD 2) (MSel.ofBits (r.m.extractLsb' 0 2)))
  | 0x09 => (Src.ofBits r.a).bind fun a => (Src.ofBits r.b).bind fun b => some (.vshl ⟨r.d, r.nw⟩ a b (r.m.getLsbD 2) (MSel.ofBits (r.m.extractLsb' 0 2)))
  | 0x0A => (Src.ofBits r.a).bind fun a => (Src.ofBits r.b).bind fun b => some (.vshr ⟨r.d, r.nw⟩ a b (r.m.getLsbD 2) (MSel.ofBits (r.m.extractLsb' 0 2)))
  | 0x0B => (Src.ofBits r.a).bind fun a => (Src.ofBits r.b).bind fun b => some (.vmin ⟨r.d, r.nw⟩ a b (r.m.getLsbD 2) (MSel.ofBits (r.m.extractLsb' 0 2)))
  | 0x0C => (Src.ofBits r.a).bind fun a => (Src.ofBits r.b).bind fun b => some (.vmax ⟨r.d, r.nw⟩ a b (r.m.getLsbD 2) (MSel.ofBits (r.m.extractLsb' 0 2)))
  | 0x0D => (Src.ofBits r.a).bind fun a => if !r.m.getLsbD 2 && r.b == 0 then some (.vabs ⟨r.d, r.nw⟩ a (MSel.ofBits (r.m.extractLsb' 0 2))) else none
  | 0x0E => (Src.ofBits r.a).bind fun a => if !r.m.getLsbD 2 && r.b == 0 then some (.vneg ⟨r.d, r.nw⟩ a (MSel.ofBits (r.m.extractLsb' 0 2))) else none
  | 0x0F => (Src.ofBits r.a).bind fun a => (Src.ofBits r.b).bind fun b => if !r.m.getLsbD 2 then some (.vmerge ⟨r.d, r.nw⟩ a b (MSel.ofBits (r.m.extractLsb' 0 2))) else none
  | 0x10 => (Src.ofBits r.a).bind fun a => (Src.ofBits r.b).bind fun b => some (.vfadd ⟨r.d, r.nw⟩ a b (r.m.getLsbD 2) (MSel.ofBits (r.m.extractLsb' 0 2)))
  | 0x11 => (Src.ofBits r.a).bind fun a => (Src.ofBits r.b).bind fun b => some (.vfsub ⟨r.d, r.nw⟩ a b (r.m.getLsbD 2) (MSel.ofBits (r.m.extractLsb' 0 2)))
  | 0x12 => (Src.ofBits r.a).bind fun a => (Src.ofBits r.b).bind fun b => some (.vfmul ⟨r.d, r.nw⟩ a b (r.m.getLsbD 2) (MSel.ofBits (r.m.extractLsb' 0 2)))
  | 0x13 => (Src.ofBits r.a).bind fun a => (Src.ofBits r.b).bind fun b => some (.vfdiv ⟨r.d, r.nw⟩ a b (r.m.getLsbD 2) (MSel.ofBits (r.m.extractLsb' 0 2)))
  | 0x14 => (Src.ofBits r.a).bind fun a => (Src.ofBits r.b).bind fun b => some (.vfma ⟨r.d, r.nw⟩ a b (r.m.getLsbD 2) (MSel.ofBits (r.m.extractLsb' 0 2)))
  | 0x15 => (Src.ofBits r.a).bind fun a => (Src.ofBits r.b).bind fun b => some (.vfms ⟨r.d, r.nw⟩ a b (r.m.getLsbD 2) (MSel.ofBits (r.m.extractLsb' 0 2)))
  | 0x16 => (Src.ofBits r.a).bind fun a => (Src.ofBits r.b).bind fun b => some (.vfnma ⟨r.d, r.nw⟩ a b (r.m.getLsbD 2) (MSel.ofBits (r.m.extractLsb' 0 2)))
  | 0x17 => (Src.ofBits r.a).bind fun a => (Src.ofBits r.b).bind fun b => some (.vfmin ⟨r.d, r.nw⟩ a b (r.m.getLsbD 2) (MSel.ofBits (r.m.extractLsb' 0 2)))
  | 0x18 => (Src.ofBits r.a).bind fun a => (Src.ofBits r.b).bind fun b => some (.vfmax ⟨r.d, r.nw⟩ a b (r.m.getLsbD 2) (MSel.ofBits (r.m.extractLsb' 0 2)))
  | 0x19 => (Src.ofBits r.a).bind fun a => if r.b == 0 then some (.vfabs ⟨r.d, r.nw⟩ a (r.m.getLsbD 2) (MSel.ofBits (r.m.extractLsb' 0 2))) else none
  | 0x1A => (Src.ofBits r.a).bind fun a => if r.b == 0 then some (.vfneg ⟨r.d, r.nw⟩ a (r.m.getLsbD 2) (MSel.ofBits (r.m.extractLsb' 0 2))) else none
  | 0x1B => (Src.ofBits r.a).bind fun a => if r.b == 0 then some (.vfsqrt ⟨r.d, r.nw⟩ a (r.m.getLsbD 2) (MSel.ofBits (r.m.extractLsb' 0 2))) else none
  | 0x1C => (Src.ofBits r.a).bind fun a => if r.b == 0 then some (.vfrsq ⟨r.d, r.nw⟩ a (r.m.getLsbD 2) (MSel.ofBits (r.m.extractLsb' 0 2))) else none
  | 0x1D => (Src.ofBits r.a).bind fun a => if r.b == 0 then some (.vfrcp ⟨r.d, r.nw⟩ a (r.m.getLsbD 2) (MSel.ofBits (r.m.extractLsb' 0 2))) else none
  | 0x1E => (Src.ofBits r.a).bind fun a => if r.b == 0 then some (.vfexp ⟨r.d, r.nw⟩ a (r.m.getLsbD 2) (MSel.ofBits (r.m.extractLsb' 0 2))) else none
  | 0x1F => (Src.ofBits r.a).bind fun a => if r.b == 0 then some (.vflog ⟨r.d, r.nw⟩ a (r.m.getLsbD 2) (MSel.ofBits (r.m.extractLsb' 0 2))) else none
  | 0x20 => (Src.ofBits r.a).bind fun a => if r.b == 0 then some (.vftanh ⟨r.d, r.nw⟩ a (r.m.getLsbD 2) (MSel.ofBits (r.m.extractLsb' 0 2))) else none
  | 0x21 => (Src.ofBits r.a).bind fun a => if r.b == 0 then some (.vfsin ⟨r.d, r.nw⟩ a (r.m.getLsbD 2) (MSel.ofBits (r.m.extractLsb' 0 2))) else none
  | 0x22 => (Src.ofBits r.a).bind fun a => if r.b == 0 then some (.vfcos ⟨r.d, r.nw⟩ a (r.m.getLsbD 2) (MSel.ofBits (r.m.extractLsb' 0 2))) else none
  | 0x23 => (Src.ofBits r.a).bind fun a => if r.b == 0 then some (.vfclass ⟨r.d, r.nw⟩ a (r.m.getLsbD 2) (MSel.ofBits (r.m.extractLsb' 0 2))) else none
  | 0x24 => (Src.ofBits r.a).bind fun a => (Src.ofBits r.b).bind fun b => some (.vcmpeq ⟨r.d, r.nw⟩ a b (r.m.getLsbD 2) (MSel.ofBits (r.m.extractLsb' 0 2)))
  | 0x25 => (Src.ofBits r.a).bind fun a => (Src.ofBits r.b).bind fun b => some (.vcmpne ⟨r.d, r.nw⟩ a b (r.m.getLsbD 2) (MSel.ofBits (r.m.extractLsb' 0 2)))
  | 0x26 => (Src.ofBits r.a).bind fun a => (Src.ofBits r.b).bind fun b => some (.vcmplt ⟨r.d, r.nw⟩ a b (r.m.getLsbD 2) (MSel.ofBits (r.m.extractLsb' 0 2)))
  | 0x27 => (Src.ofBits r.a).bind fun a => (Src.ofBits r.b).bind fun b => some (.vcmple ⟨r.d, r.nw⟩ a b (r.m.getLsbD 2) (MSel.ofBits (r.m.extractLsb' 0 2)))
  | 0x28 => (Src.ofBits r.a).bind fun a => (Src.ofBits r.b).bind fun b => some (.vfcmpeq ⟨r.d, r.nw⟩ a b (r.m.getLsbD 2) (MSel.ofBits (r.m.extractLsb' 0 2)))
  | 0x29 => (Src.ofBits r.a).bind fun a => (Src.ofBits r.b).bind fun b => some (.vfcmplt ⟨r.d, r.nw⟩ a b (r.m.getLsbD 2) (MSel.ofBits (r.m.extractLsb' 0 2)))
  | 0x2A => (Src.ofBits r.a).bind fun a => (Src.ofBits r.b).bind fun b => some (.vfcmple ⟨r.d, r.nw⟩ a b (r.m.getLsbD 2) (MSel.ofBits (r.m.extractLsb' 0 2)))
  | 0x2B => (Src.ofBits r.a).bind fun a => (Src.ofBits r.b).bind fun b => some (.vfcmpun ⟨r.d, r.nw⟩ a b (r.m.getLsbD 2) (MSel.ofBits (r.m.extractLsb' 0 2)))
  | 0x2C => (Src.ofBits r.a).bind fun a => if !r.m.getLsbD 2 then some (.vcvt ⟨r.d, r.nw⟩ a (r.b.extractLsb' 3 4) (r.b.extractLsb' 0 3) (MSel.ofBits (r.m.extractLsb' 0 2))) else none
  | 0x2D => (Src.ofBits r.a).bind fun a => if r.b.extractLsb' 3 4 == 0 && r.m.extractLsb' 0 2 == 0 then some (.vquant ⟨r.d, r.nw⟩ a (r.b.extractLsb' 0 3) (r.m.getLsbD 2)) else none
  | 0x2E => (Src.ofBits r.a).bind fun a => if r.b == 0 then some (.vdeq ⟨r.d, r.nw⟩ a (r.m.getLsbD 2) (MSel.ofBits (r.m.extractLsb' 0 2))) else none
  | 0x2F => (Src.ofBits r.a).bind fun a => if !r.m.getLsbD 2 && r.b == 0 then some (.vmv ⟨r.d, r.nw⟩ a (MSel.ofBits (r.m.extractLsb' 0 2))) else none
  | 0x30 => (Src.ofBits r.a).bind fun a => (Src.ofBits r.b).bind fun b => some (.vredsum ⟨r.d, r.nw⟩ a b (r.m.getLsbD 2) (MSel.ofBits (r.m.extractLsb' 0 2)))
  | 0x31 => (Src.ofBits r.a).bind fun a => (Src.ofBits r.b).bind fun b => some (.vredmax ⟨r.d, r.nw⟩ a b (r.m.getLsbD 2) (MSel.ofBits (r.m.extractLsb' 0 2)))
  | 0x32 => (Src.ofBits r.a).bind fun a => (Src.ofBits r.b).bind fun b => some (.vredmin ⟨r.d, r.nw⟩ a b (r.m.getLsbD 2) (MSel.ofBits (r.m.extractLsb' 0 2)))
  | 0x33 => (Src.ofBits r.a).bind fun a => (Src.ofBits r.b).bind fun b => some (.vfredsum ⟨r.d, r.nw⟩ a b (r.m.getLsbD 2) (MSel.ofBits (r.m.extractLsb' 0 2)))
  | 0x34 => (Src.ofBits r.a).bind fun a => (Src.ofBits r.b).bind fun b => some (.vfredmax ⟨r.d, r.nw⟩ a b (r.m.getLsbD 2) (MSel.ofBits (r.m.extractLsb' 0 2)))
  | 0x35 => (Src.ofBits r.a).bind fun a => (Src.ofBits r.b).bind fun b => some (.vfredmin ⟨r.d, r.nw⟩ a b (r.m.getLsbD 2) (MSel.ofBits (r.m.extractLsb' 0 2)))
  | 0x36 => (Src.ofBits r.a).bind fun a => (Src.ofBits r.b).bind fun b => if !r.m.getLsbD 2 then some (.vscan ⟨r.d, r.nw⟩ a b (MSel.ofBits (r.m.extractLsb' 0 2))) else none
  | 0x37 => (Src.ofBits r.a).bind fun a => (Src.ofBits r.b).bind fun b => some (.vfscan ⟨r.d, r.nw⟩ a b (r.m.getLsbD 2) (MSel.ofBits (r.m.extractLsb' 0 2)))
  | 0x38 => (Src.ofBits r.a).bind fun a => (Src.ofBits r.b).bind fun b => if !r.m.getLsbD 2 then some (.vslideup ⟨r.d, r.nw⟩ a b (MSel.ofBits (r.m.extractLsb' 0 2))) else none
  | 0x39 => (Src.ofBits r.a).bind fun a => (Src.ofBits r.b).bind fun b => if !r.m.getLsbD 2 then some (.vslidedn ⟨r.d, r.nw⟩ a b (MSel.ofBits (r.m.extractLsb' 0 2))) else none
  | 0x3A => (Src.ofBits r.a).bind fun a => (Src.ofBits r.b).bind fun b => if !r.m.getLsbD 2 then some (.vrgather ⟨r.d, r.nw⟩ a b (MSel.ofBits (r.m.extractLsb' 0 2))) else none
  | 0x3B => (Src.ofBits r.a).bind fun a => if !r.m.getLsbD 2 && r.b == 0 then some (.vcompress ⟨r.d, r.nw⟩ a (MSel.ofBits (r.m.extractLsb' 0 2))) else none
  | 0x3C => if !r.m.getLsbD 2 && r.a == 0 && r.b == 0 then some (.vid ⟨r.d, r.nw⟩ (MSel.ofBits (r.m.extractLsb' 0 2))) else none
  | 0x3D => (Src.ofBits r.a).bind fun a => if !r.m.getLsbD 2 && r.b == 0 then some (.viota ⟨r.d, r.nw⟩ a (MSel.ofBits (r.m.extractLsb' 0 2))) else none
  | 0x3E => (Src.ofBits r.a).bind fun a => (Src.ofBits r.b).bind fun b => if !r.nw && !r.m.getLsbD 0 then some (.vsortk r.d a b (r.m.getLsbD 2) (r.m.getLsbD 1)) else none
  | 0x3F => (Src.ofBits r.a).bind fun a => if !r.m.getLsbD 2 && r.b == 0 then some (.vbcast ⟨r.d, r.nw⟩ a (MSel.ofBits (r.m.extractLsb' 0 2))) else none
  | 0x40 => (Src.ofBits r.a).bind fun a => (Src.ofBits r.b).bind fun b => if r.m == 0 then some (.setvl ⟨r.d, r.nw⟩ a b) else none
  | 0x41 => (Src.ofBits r.a).bind fun a => if r.imm.extractLsb' 6 4 == 0 then some (.setvli ⟨r.d, r.nw⟩ a (r.imm.extractLsb' 0 6)) else none
  | 0x42 => (Src.ofBits r.a).bind fun a => (Src.ofBits r.b).bind fun b => if r.m == 0 then some (.mand ⟨r.d, r.nw⟩ a b) else none
  | 0x43 => (Src.ofBits r.a).bind fun a => (Src.ofBits r.b).bind fun b => if r.m == 0 then some (.mor ⟨r.d, r.nw⟩ a b) else none
  | 0x44 => (Src.ofBits r.a).bind fun a => (Src.ofBits r.b).bind fun b => if r.m == 0 then some (.mxor ⟨r.d, r.nw⟩ a b) else none
  | 0x45 => (Src.ofBits r.a).bind fun a => (Src.ofBits r.b).bind fun b => if r.m == 0 then some (.mandn ⟨r.d, r.nw⟩ a b) else none
  | 0x46 => (Src.ofBits r.a).bind fun a => if r.b == 0 && r.m == 0 then some (.mnot ⟨r.d, r.nw⟩ a) else none
  | 0x47 => (Src.ofBits r.a).bind fun a => if !r.m.getLsbD 2 && r.b == 0 then some (.mpop ⟨r.d, r.nw⟩ a (MSel.ofBits (r.m.extractLsb' 0 2))) else none
  | 0x48 => (Src.ofBits r.a).bind fun a => if !r.m.getLsbD 2 && r.b == 0 then some (.mfirst ⟨r.d, r.nw⟩ a (MSel.ofBits (r.m.extractLsb' 0 2))) else none
  | 0x49 => if r.m.extractLsb' 1 2 == 0 && r.a == 0 && r.b == 0 then some (.emget ⟨r.d, r.nw⟩ (r.m.getLsbD 0)) else none
  | 0x4A => (Src.ofBits r.a).bind fun a => if r.m.extractLsb' 1 2 == 0 && r.d == 0 && !r.nw && r.b == 0 then some (.emset a (r.m.getLsbD 0)) else none
  | _ => none

/-- The words of class 2 (Class 2, memory), by opcode (R50). -/
def decodeClass2 (r : Raw) (l : Word32) : Option Instr :=
  match r.op.toNat with
  | 0x00 => (Src.ofBits r.a).bind fun a => (MemM.ofBits l).bind fun l => if r.b == 0 then some (.ld ⟨r.d, r.nw⟩ a (IntTy.ofBits r.m) l) else none
  | 0x01 => (Src.ofBits r.a).bind fun a => (Src.ofBits r.b).bind fun b => (MemM.ofBits l).bind fun l => if r.d == 0 && !r.nw then some (.st a b (IntTy.ofBits r.m) l) else none
  | 0x02 => (Src.ofBits r.a).bind fun a => (MemS.ofBits l).bind fun l => if r.b == 0 then some (.ldaq ⟨r.d, r.nw⟩ a (IntTy.ofBits r.m) l) else none
  | 0x03 => (Src.ofBits r.a).bind fun a => (Src.ofBits r.b).bind fun b => (MemS.ofBits l).bind fun l => if r.d == 0 && !r.nw then some (.strl a b (IntTy.ofBits r.m) l) else none
  | 0x04 => (Src.ofBits r.a).bind fun a => (MemM.ofBits l).bind fun l => if !r.m.getLsbD 2 && r.b == 0 then some (.vld ⟨r.d, r.nw⟩ a (MSel.ofBits (r.m.extractLsb' 0 2)) l) else none
  | 0x05 => (Src.ofBits r.a).bind fun a => (MemM.ofBits l).bind fun l => if !r.nw && !r.m.getLsbD 2 && r.b == 0 then some (.vst r.d a (MSel.ofBits (r.m.extractLsb' 0 2)) l) else none
  | 0x06 => (Src.ofBits r.a).bind fun a => (Src.ofBits r.b).bind fun b => (MemM.ofBits l).bind fun l => if !r.m.getLsbD 2 then some (.vlds ⟨r.d, r.nw⟩ a b (MSel.ofBits (r.m.extractLsb' 0 2)) l) else none
  | 0x07 => (Src.ofBits r.a).bind fun a => (Src.ofBits r.b).bind fun b => (MemM.ofBits l).bind fun l => if !r.nw && !r.m.getLsbD 2 then some (.vsts r.d a b (MSel.ofBits (r.m.extractLsb' 0 2)) l) else none
  | 0x08 => (Src.ofBits r.a).bind fun a => (MemM.ofBits l).bind fun l => if !r.m.getLsbD 2 && r.b == 0 then some (.vldff ⟨r.d, r.nw⟩ a (MSel.ofBits (r.m.extractLsb' 0 2)) l) else none
  | 0x09 => (Src.ofBits r.a).bind fun a => (Src.ofBits r.b).bind fun b => (MemX.ofBits l).bind fun l => if !r.m.getLsbD 2 then some (.vldx ⟨r.d, r.nw⟩ a b (MSel.ofBits (r.m.extractLsb' 0 2)) l) else none
  | 0x0A => (Src.ofBits r.a).bind fun a => (Src.ofBits r.b).bind fun b => (MemX.ofBits l).bind fun l => if !r.nw && !r.m.getLsbD 2 then some (.vstx r.d a b (MSel.ofBits (r.m.extractLsb' 0 2)) l) else none
  | 0x0B => (Src.ofBits r.a).bind fun a => (MemM.ofBits l).bind fun l => if r.m.extractLsb' 1 2 == 0 && r.b == 0 then some (.tld ⟨r.d, r.nw⟩ a (r.m.getLsbD 0) l) else none
  | 0x0C => (Src.ofBits r.a).bind fun a => (MemM.ofBits l).bind fun l => if !r.nw && r.b == 0 && r.m == 0 then some (.tst r.d a l) else none
  | 0x0D => (Src.ofBits r.a).bind fun a => (MemS.ofBits l).bind fun l => if !r.nw && r.b == 0 && r.m == 0 then some (.putt r.d a l) else none
  | 0x0E => (Src.ofBits r.a).bind fun a => (MemS.ofBits l).bind fun l => if r.m.extractLsb' 1 2 == 0 && r.b == 0 then some (.ldc ⟨r.d, r.nw⟩ a (r.m.getLsbD 0) l) else none
  | 0x0F => (Src.ofBits r.a).bind fun a => (MemS.ofBits l).bind fun l => if r.m.extractLsb' 1 2 == 0 && r.b == 0 then some (.ldp ⟨r.d, r.nw⟩ a (r.m.getLsbD 0) l) else none
  | 0x10 => (Src.ofBits r.a).bind fun a => if r.b == 0 && r.m == 0 then some (.taglk ⟨r.d, r.nw⟩ a) else none
  | 0x11 => (Src.ofBits r.a).bind fun a => (Src.ofBits r.b).bind fun b => if r.m == 0 then some (.tagins ⟨r.d, r.nw⟩ a b) else none
  | 0x12 => (Src.ofBits r.a).bind fun a => if r.b == 0 && r.m == 0 then some (.tagdel ⟨r.d, r.nw⟩ a) else none
  | 0x13 => (Src.ofBits r.a).bind fun a => (Src.ofBits r.b).bind fun b => (MemA.ofBits l).bind fun l => some (.amo ⟨r.d, r.nw⟩ a b (IntTy.ofBits r.m) l)
  | 0x14 => (Src.ofBits r.a).bind fun a => (Src.ofBits r.b).bind fun b => (MemA.ofBits l).bind fun l => if r.d == 0 && !r.nw then some (.amon a b (IntTy.ofBits r.m) l) else none
  | 0x15 => (Src.ofBits r.a).bind fun a => (Src.ofBits r.b).bind fun b => (MemVA.ofBits l).bind fun l => some (.vamo ⟨r.d, r.nw⟩ a b (r.m.getLsbD 2) (MSel.ofBits (r.m.extractLsb' 0 2)) l)
  | 0x16 => (Src.ofBits r.a).bind fun a => (Src.ofBits r.b).bind fun b => (MemVA.ofBits l).bind fun l => if !r.nw then some (.vamon r.d a b (r.m.getLsbD 2) (MSel.ofBits (r.m.extractLsb' 0 2)) l) else none
  | 0x17 => (Src.ofBits r.a).bind fun a => (Src.ofBits r.b).bind fun b => (MemA.ofBits l).bind fun l => some (.cas ⟨r.d, r.nw⟩ a b (IntTy.ofBits r.m) l)
  | 0x18 => (Src.ofBits r.a).bind fun a => (Src.ofBits r.b).bind fun b => (MemVA.ofBits l).bind fun l => if !r.nw then some (.vcas r.d a b (r.m.getLsbD 2) (MSel.ofBits (r.m.extractLsb' 0 2)) l) else none
  | 0x19 => (Src.ofBits r.a).bind fun a => (Src.ofBits r.b).bind fun b => (MemA.ofBits l).bind fun l => if r.d == 0 && !r.nw then some (.nma a b (IntTy.ofBits r.m) l) else none
  | 0x1A => (Src.ofBits r.a).bind fun a => (Src.ofBits r.b).bind fun b => (MemVA.ofBits l).bind fun l => if !r.nw then some (.vnma r.d a b (r.m.getLsbD 2) (MSel.ofBits (r.m.extractLsb' 0 2)) l) else none
  | 0x1B => (Scope.ofBits r.m).bind fun s => if r.d == 0 && !r.nw && r.a == 0 && r.b == 0 then some (.fence s) else none
  | 0x1C => (Src.ofBits r.a).bind fun a => (MemM.ofBits l).bind fun l => if r.m.extractLsb' 1 2 == 0 && r.d == 0 && !r.nw && r.b == 0 then some (.pref a (r.m.getLsbD 0) l) else none
  | 0x1D => (Src.ofBits r.a).bind fun a => (MemM.ofBits l).bind fun l => if r.d == 0 && !r.nw && r.b == 0 && r.m == 0 then some (.cclean a l) else none
  | 0x1E => (Src.ofBits r.a).bind fun a => (MemM.ofBits l).bind fun l => if r.m.extractLsb' 1 2 == 0 && r.d == 0 && !r.nw && r.b == 0 then some (.cinv a (r.m.getLsbD 0) l) else none
  | 0x1F => (Src.ofBits r.a).bind fun a => (Src.ofBits r.b).bind fun b => (MemM.ofBits l).bind fun l => if r.d == 0 && !r.nw && r.m == 0 then some (.tfill a b l) else none
  | 0x20 => (Src.ofBits r.a).bind fun a => (Src.ofBits r.b).bind fun b => (MemM.ofBits l).bind fun l => if r.d == 0 && !r.nw && r.m == 0 then some (.tempty a b l) else none
  | 0x21 => (Src.ofBits r.a).bind fun a => (MemM.ofBits l).bind fun l => if r.b == 0 && r.m == 0 then some (.ttag ⟨r.d, r.nw⟩ a l) else none
  | 0x22 => (Src.ofBits r.a).bind fun a => (MemM.ofBits l).bind fun l => if r.d == 0 && !r.nw && r.b == 0 && r.m == 0 then some (.cflush a l) else none
  | _ => none

/-- The words of class 3 (Class 3, matrix), by opcode (R50). -/
def decodeClass3 (r : Raw) (l : Word32) : Option Instr :=
  match r.op.toNat with
  | 0x00 => (Src.ofBits r.a).bind fun a => (Src.ofBits r.b).bind fun b => (MmaLit.ofBits l).bind fun l => if !r.nw && r.m == 0 then some (.mma r.d a b l) else none
  | 0x01 => (Src.ofBits r.a).bind fun a => (Src.ofBits r.b).bind fun b => (MmaLit.ofBits l).bind fun l => if !r.nw && r.m == 0 then some (.mmaAdp r.d a b l) else none
  | 0x02 => (Src.ofBits r.b).bind fun b => (FinLit.ofBits l).bind fun l => if !r.nw && r.a == 0 && r.m == 0 then some (.adpfin r.d b l) else none
  | 0x03 => if !r.nw && r.a == 0 && r.b == 0 && r.m == 0 then some (.mzero r.d) else none
  | 0x04 => (Src.ofBits r.a).bind fun a => (Src.ofBits r.b).bind fun b => (MemM.ofBits l).bind fun l => if !r.nw && !r.m.getLsbD 2 then some (.mldacc r.d a b (r.m.extractLsb' 0 2) l) else none
  | 0x05 => (Src.ofBits r.a).bind fun a => (Src.ofBits r.b).bind fun b => (MemM.ofBits l).bind fun l => if !r.nw then some (.mdrain r.d a b (r.m.extractLsb' 0 2) (r.m.getLsbD 2) l) else none
  | 0x06 => (Src.ofBits r.a).bind fun a => if r.imm.extractLsb' 4 6 == 0 && r.d == 0 && !r.nw then some (.mfence a (r.imm.extractLsb' 0 4)) else none
  | 0x07 => if r.imm.extractLsb' 5 5 == 0 && r.d == 0 && !r.nw && r.a == 0 then some (.mbara (r.imm.getLsbD 4) (r.imm.extractLsb' 0 4)) else none
  | 0x08 => if r.imm.extractLsb' 4 6 == 0 && r.d == 0 && !r.nw && r.a == 0 then some (.mbarw (r.imm.extractLsb' 0 4)) else none
  | 0x09 => (some l).bind fun l => if !r.nw && r.a == 0 && r.b == 0 && r.m == 0 then some (.mloop r.d l) else none
  | 0x0A => (some l).bind fun l => if r.d == 0 && !r.nw && r.a == 0 && r.b == 0 && r.m == 0 then some (.mjmp l) else none
  | 0x0B => if r.d == 0 && !r.nw && r.a == 0 && r.b == 0 && r.m == 0 then some (.mend) else none
  | 0x0C => (Src.ofBits r.a).bind fun a => (AdpLit.ofBits l).bind fun l => if r.d == 0 && !r.nw && r.b == 0 && r.m == 0 then some (.adpld a l) else none
  | 0x0D => (Src.ofBits r.a).bind fun a => if r.d == 0 && !r.nw && r.b == 0 && r.m == 0 then some (.adpinv a) else none
  | 0x0E => ((Src.ofBits r.a).bind fun a => (Src.ofBits r.b).bind fun b => if !r.nw && r.m == 0 then some (.msetbAdd r.d a b) else none) <|> ((Src.ofBits r.a).bind fun a => (Src.ofBits r.b).bind fun b => if !r.nw && r.m == 1 then some (.msetbLd r.d a b) else none) <|> ((Src.ofBits r.a).bind fun a => if r.m == 2 && r.d == 0 && !r.nw && r.b == 0 then some (.msetbFmt a) else none) <|> ((Src.ofBits r.a).bind fun a => if r.m == 3 && r.d == 0 && !r.nw && r.b == 0 then some (.msetbSeed a) else none) <|> ((Src.ofBits r.a).bind fun a => if r.m == 4 && r.d == 0 && !r.nw && r.b == 0 then some (.msetbBind a) else none) <|> ((Src.ofBits r.a).bind fun a => if r.m == 5 && r.d == 0 && !r.nw && r.b == 0 then some (.msetbAdir a) else none)
  | 0x0F => if r.d == 0 && !r.nw && r.a == 0 && r.b == 0 && r.m == 0 then some (.mnop) else none
  | _ => none

/-- The words of class 4 (Class 4, asynchronous engines), by opcode (R50). -/
def decodeClass4 (r : Raw) (l : Word32) : Option Instr :=
  match r.op.toNat with
  | 0x00 => (Src.ofBits r.a).bind fun a => (Src.ofBits r.b).bind fun b => (GathLit.ofBits l).bind fun l => if !r.nw && !r.m.getLsbD 2 then some (.gath r.d a b (MSel.ofBits (r.m.extractLsb' 0 2)) l) else none
  | 0x01 => (Src.ofBits r.a).bind fun a => (Src.ofBits r.b).bind fun b => (GathLit.ofBits l).bind fun l => if !r.nw && !r.m.getLsbD 2 then some (.scat r.d a b (MSel.ofBits (r.m.extractLsb' 0 2)) l) else none
  | 0x02 => (Src.ofBits r.a).bind fun a => (MemM.ofBits l).bind fun l => if r.d == 0 && !r.nw && r.b == 0 && r.m == 0 then some (.coll a l) else none
  | 0x03 => if r.d == 0 && !r.nw && r.a == 0 then some (.waitc (r.imm.extractLsb' 3 7) (r.imm.extractLsb' 0 3)) else none
  | 0x04 => ((Src.ofBits r.a).bind fun a => if r.m == 0 && r.b == 0 then some (.astatCnt ⟨r.d, r.nw⟩ a) else none) <|> ((Src.ofBits r.a).bind fun a => if r.m == 1 && r.b == 0 then some (.astatChan ⟨r.d, r.nw⟩ a) else none) <|> (if r.m == 2 && r.a == 0 && r.b == 0 then some (.astatFault ⟨r.d, r.nw⟩) else none)
  | 0x05 => if r.d == 0 && !r.nw && r.a == 0 && r.b == 0 && r.m == 0 then some (.nmsync) else none
  | _ => none

/-- The words of class 5 (Class 5, graph), by opcode (R50). -/
def decodeClass5 (r : Raw) (l : Word32) : Option Instr :=
  match r.op.toNat with
  | 0x00 => ((Src.ofBits r.a).bind fun a => if r.m == 0 && r.d == 0 && !r.nw && r.b == 0 then some (.gcfg a) else none) <|> (if r.m == 1 && r.d == 0 && !r.nw && r.a == 0 && r.b == 0 then some (.gcfgUn) else none)
  | 0x01 => (Src.ofBits r.a).bind fun a => (Src.ofBits r.b).bind fun b => (some (GmLit.ofBits l)).bind fun l => if r.m == 0 then some (.gmatch ⟨r.d, r.nw⟩ a b l) else none
  | 0x02 => (Src.ofBits r.a).bind fun a => (some (GpLit.ofBits l)).bind fun l => if r.b == 0 && r.m == 0 then some (.gprop ⟨r.d, r.nw⟩ a l) else none
  | 0x03 => (Src.ofBits r.a).bind fun a => if r.b == 0 && r.m == 0 then some (.gwait ⟨r.d, r.nw⟩ a) else none
  | 0x04 => (Src.ofBits r.a).bind fun a => (Src.ofBits r.b).bind fun b => if r.m == 0 then some (.gcollect ⟨r.d, r.nw⟩ a b) else none
  | 0x05 => (Src.ofBits r.a).bind fun a => (Src.ofBits r.b).bind fun b => if r.d == 0 && !r.nw && r.m == 0 then some (.gclr a b) else none
  | 0x06 => (Src.ofBits r.a).bind fun a => if r.m.extractLsb' 1 2 == 0 && r.b == 0 then some (.gvld ⟨r.d, r.nw⟩ a (r.m.getLsbD 0)) else none
  | 0x07 => (Src.ofBits r.a).bind fun a => if !r.nw && r.m.extractLsb' 1 2 == 0 && r.b == 0 then some (.gvst r.d a (r.m.getLsbD 0)) else none
  | 0x08 => (Src.ofBits r.a).bind fun a => if r.b == 0 && r.m == 0 then some (.gstat ⟨r.d, r.nw⟩ a) else none
  | 0x09 => (Src.ofBits r.a).bind fun a => if r.d == 0 && !r.nw && r.b == 0 && r.m == 0 then some (.gabort a) else none
  | _ => none

/-- The words of class 6 (Class 6, synchronisation and tasks), by opcode (R50). -/
def decodeClass6 (r : Raw) (l : Word32) : Option Instr :=
  match r.op.toNat with
  | 0x00 => (Src.ofBits r.a).bind fun a => if r.imm.extractLsb' 4 6 == 0 && r.d == 0 && !r.nw then some (.bari a (r.imm.extractLsb' 0 4)) else none
  | 0x01 => if r.imm.extractLsb' 4 6 == 0 && r.d == 0 && !r.nw && r.a == 0 then some (.bara (r.imm.extractLsb' 0 4)) else none
  | 0x02 => if r.imm.extractLsb' 4 6 == 0 && r.d == 0 && !r.nw && r.a == 0 then some (.barw (r.imm.extractLsb' 0 4)) else none
  | 0x03 => if r.imm.extractLsb' 4 6 == 0 && r.d == 0 && !r.nw && r.a == 0 then some (.baraw (r.imm.extractLsb' 0 4)) else none
  | 0x04 => (Src.ofBits r.a).bind fun a => (Src.ofBits r.b).bind fun b => if r.m == 0 then some (.syncw ⟨r.d, r.nw⟩ a b) else none
  | 0x05 => (Src.ofBits r.a).bind fun a => (Src.ofBits r.b).bind fun b => (Scope.ofBits r.m).bind fun s => if !r.nw then some (.mqw r.d a b s) else none
  | 0x06 => if !r.m.getLsbD 2 && r.a == 0 && r.b == 0 then some (.mqr ⟨r.d, r.nw⟩ (r.m.extractLsb' 0 2)) else none
  | 0x07 => if !r.nw && r.a == 0 && r.b == 0 && r.m == 0 then some (.refill r.d) else none
  | 0x08 => ((Src.ofBits r.a).bind fun a => if r.m == 0 && r.b == 0 then some (.itempush ⟨r.d, r.nw⟩ a) else none) <|> (if r.m == 1 && r.a == 0 && r.b == 0 then some (.itempushClose ⟨r.d, r.nw⟩) else none)
  | 0x09 => (Src.ofBits r.a).bind fun a => (tenderOfBits l).bind fun l => if r.b == 0 && r.m == 0 then some (.tender ⟨r.d, r.nw⟩ a l) else none
  | 0x0A => (Src.ofBits r.a).bind fun a => if r.b == 0 && r.m == 0 then some (.withdraw ⟨r.d, r.nw⟩ a) else none
  | 0x0B => (Src.ofBits r.a).bind fun a => if r.d == 0 && !r.nw && r.b == 0 && r.m == 0 then some (.doneTask a) else none
  | 0x0C => (Src.ofBits r.a).bind fun a => if r.m.extractLsb' 1 2 == 0 && r.b == 0 then some (.blkacq ⟨r.d, r.nw⟩ a (r.m.getLsbD 0)) else none
  | 0x0D => (Src.ofBits r.a).bind fun a => if r.b == 0 && r.m == 0 then some (.blkrel ⟨r.d, r.nw⟩ a) else none
  | 0x0E => ((Src.ofBits r.a).bind fun a => if !r.nw && r.m == 1 && r.b == 0 then some (.macq r.d a) else none) <|> ((Src.ofBits r.a).bind fun a => if r.m == 0 && r.d == 0 && !r.nw && r.b == 0 then some (.macqNc a) else none)
  | 0x0F => ((Src.ofBits r.a).bind fun a => if r.m == 0 && r.d == 0 && !r.nw && r.b == 0 then some (.mrel a) else none) <|> ((Src.ofBits r.a).bind fun a => (Src.ofBits r.b).bind fun b => if r.m == 1 && r.d == 0 && !r.nw then some (.mrelW a b) else none)
  | 0x10 => (Src.ofBits r.a).bind fun a => (some l).bind fun l => if r.d == 0 && !r.nw && r.b == 0 && r.m == 0 then some (.fbegin a l) else none
  | 0x11 => if r.a == 0 && r.b == 0 && r.m == 0 then some (.fcommit ⟨r.d, r.nw⟩) else none
  | 0x12 => if r.d == 0 && !r.nw && r.a == 0 && r.b == 0 && r.m == 0 then some (.fabort) else none
  | _ => none

/-- The words of class 7 (Class 7, system), by opcode (R50). -/
def decodeClass7 (r : Raw) (l : Word32) : Option Instr :=
  match r.op.toNat with
  | 0x00 => if r.a == 0 then some (.csrr ⟨r.d, r.nw⟩ r.imm) else none
  | 0x01 => (Src.ofBits r.a).bind fun a => some (.csrw ⟨r.d, r.nw⟩ a r.imm)
  | 0x02 => (Src.ofBits r.a).bind fun a => some (.csrs ⟨r.d, r.nw⟩ a r.imm)
  | 0x03 => (Src.ofBits r.a).bind fun a => some (.csrc ⟨r.d, r.nw⟩ a r.imm)
  | 0x04 => if r.imm.extractLsb' 6 4 == 0 && r.d == 0 && !r.nw && r.a == 0 then some (.trap (r.imm.extractLsb' 0 6)) else none
  | 0x05 => if r.d == 0 && !r.nw && r.a == 0 && r.b == 0 && r.m == 0 then some (.eret) else none
  | 0x06 => ((Src.ofBits r.a).bind fun a => (Src.ofBits r.b).bind fun b => if r.m == 0 && r.d == 0 && !r.nw then some (.tlbinv a b) else none) <|> ((Src.ofBits r.b).bind fun b => if r.m == 1 && r.d == 0 && !r.nw && r.a == 0 then some (.tlbinvAsid b) else none) <|> (if r.m == 2 && r.d == 0 && !r.nw && r.a == 0 && r.b == 0 then some (.tlbinvAll) else none)
  | 0x07 => (Src.ofBits r.a).bind fun a => (Src.ofBits r.b).bind fun b => if r.d == 0 && !r.nw && r.m == 0 then some (.cbld a b) else none
  | 0x08 => (Src.ofBits r.a).bind fun a => if r.d == 0 && !r.nw && r.b == 0 && r.m == 0 then some (.cbswap a) else none
  | 0x09 => ((Src.ofBits r.a).bind fun a => (Src.ofBits r.b).bind fun b => if r.m == 0 && r.d == 0 && !r.nw then some (.bidld a b) else none) <|> ((Src.ofBits r.a).bind fun a => if r.m == 1 && r.d == 0 && !r.nw && r.b == 0 then some (.bidldWindow a) else none)
  | 0x0A => (Src.ofBits r.a).bind fun a => if r.d == 0 && !r.nw && r.b == 0 && r.m == 0 then some (.dbg a) else none
  | 0x0B => if r.a == 0 && r.b == 0 && r.m == 0 then some (.feat ⟨r.d, r.nw⟩) else none
  | _ => none

/-- The TZ-N words of class 7 (R295), which only a bank core accepts. -/
def decodeTzn (r : Raw) (l : Word32) : Option Instr :=
  match r.op.toNat with
  | 0xF0 => (Src.ofBits r.a).bind fun a => (Src.ofBits r.b).bind fun b => (MemM.ofBits l).bind fun l => if !r.nw && r.m == 0 then some (.nzskip r.d a b l) else none
  | 0xF1 => (Src.ofBits r.a).bind fun a => if r.d == 0 && !r.nw && r.b == 0 && r.m == 0 then some (.rowf a) else none
  | 0xF2 => (Src.ofBits r.a).bind fun a => if !r.nw && r.b == 0 && r.m == 0 then some (.mbxr r.d a) else none
  | 0xF3 => (Src.ofBits r.a).bind fun a => if r.d == 0 && !r.nw && r.b == 0 && r.m == 0 then some (.haltb a) else none
  | _ => none

/-- The instruction that the fields of a word stand for within a class (R35, R50), before the field limits. -/
def decodeFields (tzn : Bool) (cls : BitVec 3) (r : Raw) (l : Word32) : Option Instr :=
  match cls.toNat with
  | 0 => decodeClass0 r l
  | 1 => decodeClass1 r l
  | 2 => decodeClass2 r l
  | 3 => decodeClass3 r l
  | 4 => decodeClass4 r l
  | 5 => decodeClass5 r l
  | 6 => decodeClass6 r l
  | _ => if tzn then (decodeTzn r l <|> decodeClass7 r l) else decodeClass7 r l

/-- What the opcode alone decides: the feature bit (R53), whether a literal follows and whether it is a transfer (R51), and whether it must open its clause (R98). -/
structure OpInfo where
  feat : Nat
  lit : Bool
  transfer : Bool
  blocking : Bool
deriving DecidableEq, Repr

/-- Class 0: opcodes assigned by R50 with their forms. -/
def opInfo0 (op : Nat) : Option OpInfo :=
  match op with
  | 0x00 => some ⟨0, false, false, false⟩
  | 0x01 => some ⟨0, false, false, false⟩
  | 0x02 => some ⟨0, false, false, false⟩
  | 0x03 => some ⟨0, false, false, false⟩
  | 0x04 => some ⟨0, false, false, false⟩
  | 0x05 => some ⟨0, false, false, false⟩
  | 0x06 => some ⟨0, false, false, false⟩
  | 0x07 => some ⟨0, false, false, false⟩
  | 0x08 => some ⟨0, false, false, false⟩
  | 0x09 => some ⟨0, false, false, false⟩
  | 0x0A => some ⟨0, false, false, false⟩
  | 0x0B => some ⟨0, false, false, false⟩
  | 0x0C => some ⟨0, false, false, false⟩
  | 0x0D => some ⟨0, false, false, false⟩
  | 0x0E => some ⟨0, false, false, false⟩
  | 0x0F => some ⟨0, false, false, false⟩
  | 0x10 => some ⟨0, false, false, false⟩
  | 0x11 => some ⟨0, false, false, false⟩
  | 0x12 => some ⟨0, false, false, false⟩
  | 0x13 => some ⟨0, false, false, false⟩
  | 0x14 => some ⟨0, false, false, false⟩
  | 0x15 => some ⟨0, false, false, false⟩
  | 0x16 => some ⟨0, false, false, false⟩
  | 0x17 => some ⟨0, false, false, false⟩
  | 0x18 => some ⟨0, true, false, false⟩
  | 0x19 => some ⟨0, true, false, false⟩
  | 0x1A => some ⟨0, true, false, false⟩
  | 0x1B => some ⟨0, false, false, false⟩
  | 0x1C => some ⟨0, false, false, false⟩
  | 0x1D => some ⟨0, false, false, false⟩
  | 0x1E => some ⟨0, false, false, false⟩
  | 0x1F => some ⟨0, false, false, false⟩
  | 0x20 => some ⟨0, false, true, false⟩
  | 0x21 => some ⟨0, true, true, false⟩
  | 0x22 => some ⟨0, false, true, false⟩
  | 0x23 => some ⟨0, false, true, false⟩
  | 0x24 => some ⟨0, true, true, false⟩
  | 0x25 => some ⟨0, true, true, false⟩
  | 0x26 => some ⟨0, false, true, false⟩
  | 0x27 => some ⟨0, false, true, false⟩
  | 0x28 => some ⟨0, false, true, false⟩
  | 0x29 => some ⟨0, false, true, false⟩
  | 0x2A => some ⟨0, false, false, false⟩
  | 0x2B => some ⟨0, false, true, true⟩
  | 0x2C => some ⟨0, false, false, false⟩
  | 0x2D => some ⟨0, false, false, false⟩
  | _ => none

/-- Class 1: opcodes assigned by R50 with their forms. -/
def opInfo1 (op : Nat) : Option OpInfo :=
  match op with
  | 0x00 => some ⟨1, false, false, false⟩
  | 0x01 => some ⟨1, false, false, false⟩
  | 0x02 => some ⟨1, false, false, false⟩
  | 0x03 => some ⟨1, false, false, false⟩
  | 0x04 => some ⟨1, false, false, false⟩
  | 0x05 => some ⟨1, false, false, false⟩
  | 0x06 => some ⟨1, false, false, false⟩
  | 0x07 => some ⟨1, false, false, false⟩
  | 0x08 => some ⟨1, false, false, false⟩
  | 0x09 => some ⟨1, false, false, false⟩
  | 0x0A => some ⟨1, false, false, false⟩
  | 0x0B => some ⟨1, false, false, false⟩
  | 0x0C => some ⟨1, false, false, false⟩
  | 0x0D => some ⟨1, false, false, false⟩
  | 0x0E => some ⟨1, false, false, false⟩
  | 0x0F => some ⟨1, false, false, false⟩
  | 0x10 => some ⟨1, false, false, false⟩
  | 0x11 => some ⟨1, false, false, false⟩
  | 0x12 => some ⟨1, false, false, false⟩
  | 0x13 => some ⟨1, false, false, false⟩
  | 0x14 => some ⟨1, false, false, false⟩
  | 0x15 => some ⟨1, false, false, false⟩
  | 0x16 => some ⟨1, false, false, false⟩
  | 0x17 => some ⟨1, false, false, false⟩
  | 0x18 => some ⟨1, false, false, false⟩
  | 0x19 => some ⟨1, false, false, false⟩
  | 0x1A => some ⟨1, false, false, false⟩
  | 0x1B => some ⟨1, false, false, false⟩
  | 0x1C => some ⟨1, false, false, false⟩
  | 0x1D => some ⟨1, false, false, false⟩
  | 0x1E => some ⟨1, false, false, false⟩
  | 0x1F => some ⟨1, false, false, false⟩
  | 0x20 => some ⟨1, false, false, false⟩
  | 0x21 => some ⟨1, false, false, false⟩
  | 0x22 => some ⟨1, false, false, false⟩
  | 0x23 => some ⟨1, false, false, false⟩
  | 0x24 => some ⟨1, false, false, false⟩
  | 0x25 => some ⟨1, false, false, false⟩
  | 0x26 => some ⟨1, false, false, false⟩
  | 0x27 => some ⟨1, false, false, false⟩
  | 0x28 => some ⟨1, false, false, false⟩
  | 0x29 => some ⟨1, false, false, false⟩
  | 0x2A => some ⟨1, false, false, false⟩
  | 0x2B => some ⟨1, false, false, false⟩
  | 0x2C => some ⟨1, false, false, false⟩
  | 0x2D => some ⟨1, false, false, false⟩
  | 0x2E => some ⟨1, false, false, false⟩
  | 0x2F => some ⟨1, false, false, false⟩
  | 0x30 => some ⟨1, false, false, false⟩
  | 0x31 => some ⟨1, false, false, false⟩
  | 0x32 => some ⟨1, false, false, false⟩
  | 0x33 => some ⟨1, false, false, false⟩
  | 0x34 => some ⟨1, false, false, false⟩
  | 0x35 => some ⟨1, false, false, false⟩
  | 0x36 => some ⟨1, false, false, false⟩
  | 0x37 => some ⟨1, false, false, false⟩
  | 0x38 => some ⟨1, false, false, false⟩
  | 0x39 => some ⟨1, false, false, false⟩
  | 0x3A => some ⟨1, false, false, false⟩
  | 0x3B => some ⟨1, false, false, false⟩
  | 0x3C => some ⟨1, false, false, false⟩
  | 0x3D => some ⟨1, false, false, false⟩
  | 0x3E => some ⟨1, false, false, false⟩
  | 0x3F => some ⟨1, false, false, false⟩
  | 0x40 => some ⟨1, false, false, false⟩
  | 0x41 => some ⟨1, false, false, false⟩
  | 0x42 => some ⟨1, false, false, false⟩
  | 0x43 => some ⟨1, false, false, false⟩
  | 0x44 => some ⟨1, false, false, false⟩
  | 0x45 => some ⟨1, false, false, false⟩
  | 0x46 => some ⟨1, false, false, false⟩
  | 0x47 => some ⟨1, false, false, false⟩
  | 0x48 => some ⟨1, false, false, false⟩
  | 0x49 => some ⟨1, false, false, false⟩
  | 0x4A => some ⟨1, false, false, false⟩
  | _ => none

/-- Class 2: opcodes assigned by R50 with their forms. -/
def opInfo2 (op : Nat) : Option OpInfo :=
  match op with
  | 0x00 => some ⟨0, true, false, false⟩
  | 0x01 => some ⟨0, true, false, false⟩
  | 0x02 => some ⟨0, true, false, false⟩
  | 0x03 => some ⟨0, true, false, false⟩
  | 0x04 => some ⟨1, true, false, false⟩
  | 0x05 => some ⟨1, true, false, false⟩
  | 0x06 => some ⟨1, true, false, false⟩
  | 0x07 => some ⟨1, true, false, false⟩
  | 0x08 => some ⟨1, true, false, false⟩
  | 0x09 => some ⟨1, true, false, false⟩
  | 0x0A => some ⟨1, true, false, false⟩
  | 0x0B => some ⟨4, true, false, false⟩
  | 0x0C => some ⟨4, true, false, false⟩
  | 0x0D => some ⟨4, true, false, false⟩
  | 0x0E => some ⟨4, true, false, true⟩
  | 0x0F => some ⟨4, true, false, true⟩
  | 0x10 => some ⟨4, false, false, false⟩
  | 0x11 => some ⟨4, false, false, false⟩
  | 0x12 => some ⟨4, false, false, false⟩
  | 0x13 => some ⟨5, true, false, false⟩
  | 0x14 => some ⟨5, true, false, false⟩
  | 0x15 => some ⟨5, true, false, false⟩
  | 0x16 => some ⟨5, true, false, false⟩
  | 0x17 => some ⟨5, true, false, false⟩
  | 0x18 => some ⟨5, true, false, false⟩
  | 0x19 => some ⟨7, true, false, false⟩
  | 0x1A => some ⟨7, true, false, false⟩
  | 0x1B => some ⟨0, false, false, false⟩
  | 0x1C => some ⟨0, true, false, false⟩
  | 0x1D => some ⟨0, true, false, false⟩
  | 0x1E => some ⟨0, true, false, false⟩
  | 0x1F => some ⟨4, true, false, false⟩
  | 0x20 => some ⟨4, true, false, false⟩
  | 0x21 => some ⟨4, true, false, false⟩
  | 0x22 => some ⟨0, true, false, false⟩
  | _ => none

/-- Class 3: opcodes assigned by R50 with their forms. -/
def opInfo3 (op : Nat) : Option OpInfo :=
  match op with
  | 0x00 => some ⟨2, true, false, false⟩
  | 0x01 => some ⟨3, true, false, false⟩
  | 0x02 => some ⟨3, true, false, false⟩
  | 0x03 => some ⟨2, false, false, false⟩
  | 0x04 => some ⟨2, true, false, false⟩
  | 0x05 => some ⟨2, true, false, false⟩
  | 0x06 => some ⟨2, false, false, false⟩
  | 0x07 => some ⟨2, false, false, false⟩
  | 0x08 => some ⟨2, false, false, false⟩
  | 0x09 => some ⟨2, true, true, false⟩
  | 0x0A => some ⟨2, true, true, false⟩
  | 0x0B => some ⟨2, false, true, false⟩
  | 0x0C => some ⟨3, true, false, false⟩
  | 0x0D => some ⟨3, false, false, false⟩
  | 0x0E => some ⟨2, false, false, false⟩
  | 0x0F => some ⟨2, false, false, false⟩
  | _ => none

/-- Class 4: opcodes assigned by R50 with their forms. -/
def opInfo4 (op : Nat) : Option OpInfo :=
  match op with
  | 0x00 => some ⟨6, true, false, false⟩
  | 0x01 => some ⟨6, true, false, false⟩
  | 0x02 => some ⟨10, true, false, false⟩
  | 0x03 => some ⟨6, false, false, true⟩
  | 0x04 => some ⟨6, false, false, false⟩
  | 0x05 => some ⟨7, false, false, false⟩
  | _ => none

/-- Class 5: opcodes assigned by R50 with their forms. -/
def opInfo5 (op : Nat) : Option OpInfo :=
  match op with
  | 0x00 => some ⟨8, false, false, false⟩
  | 0x01 => some ⟨8, true, false, false⟩
  | 0x02 => some ⟨8, true, false, false⟩
  | 0x03 => some ⟨8, false, false, true⟩
  | 0x04 => some ⟨8, false, false, false⟩
  | 0x05 => some ⟨8, false, false, false⟩
  | 0x06 => some ⟨8, false, false, false⟩
  | 0x07 => some ⟨8, false, false, false⟩
  | 0x08 => some ⟨8, false, false, false⟩
  | 0x09 => some ⟨8, false, false, false⟩
  | _ => none

/-- Class 6: opcodes assigned by R50 with their forms. -/
def opInfo6 (op : Nat) : Option OpInfo :=
  match op with
  | 0x00 => some ⟨0, false, false, false⟩
  | 0x01 => some ⟨0, false, false, false⟩
  | 0x02 => some ⟨0, false, false, true⟩
  | 0x03 => some ⟨0, false, false, true⟩
  | 0x04 => some ⟨0, false, false, true⟩
  | 0x05 => some ⟨9, false, false, false⟩
  | 0x06 => some ⟨9, false, false, true⟩
  | 0x07 => some ⟨9, false, false, true⟩
  | 0x08 => some ⟨9, false, false, false⟩
  | 0x09 => some ⟨9, true, false, false⟩
  | 0x0A => some ⟨9, false, false, false⟩
  | 0x0B => some ⟨0, false, true, true⟩
  | 0x0C => some ⟨9, false, false, true⟩
  | 0x0D => some ⟨9, false, false, false⟩
  | 0x0E => some ⟨2, false, false, true⟩
  | 0x0F => some ⟨2, false, false, false⟩
  | 0x10 => some ⟨10, true, false, false⟩
  | 0x11 => some ⟨10, false, false, false⟩
  | 0x12 => some ⟨10, false, true, false⟩
  | _ => none

/-- Class 7: opcodes assigned by R50 with their forms. -/
def opInfo7 (op : Nat) : Option OpInfo :=
  match op with
  | 0x00 => some ⟨0, false, false, false⟩
  | 0x01 => some ⟨0, false, false, false⟩
  | 0x02 => some ⟨0, false, false, false⟩
  | 0x03 => some ⟨0, false, false, false⟩
  | 0x04 => some ⟨0, false, true, false⟩
  | 0x05 => some ⟨0, false, true, false⟩
  | 0x06 => some ⟨12, false, false, false⟩
  | 0x07 => some ⟨11, false, false, false⟩
  | 0x08 => some ⟨11, false, false, false⟩
  | 0x09 => some ⟨12, false, false, false⟩
  | 0x0A => some ⟨0, false, false, true⟩
  | 0x0B => some ⟨0, false, false, false⟩
  | 0xF0 => some ⟨0, true, false, false⟩
  | 0xF1 => some ⟨0, false, false, false⟩
  | 0xF2 => some ⟨0, false, false, false⟩
  | 0xF3 => some ⟨0, false, true, false⟩
  | _ => none

/-- The assigned opcodes of every class (R50). -/
def opInfo (cls op : Nat) : Option OpInfo :=
  match cls with
  | 0 => opInfo0 op
  | 1 => opInfo1 op
  | 2 => opInfo2 op
  | 3 => opInfo3 op
  | 4 => opInfo4 op
  | 5 => opInfo5 op
  | 6 => opInfo6 op
  | 7 => opInfo7 op
  | _ => none

/-- The opcodes that a bank core accepts (R287). -/
def bankAccepts (cls op : Nat) : Bool :=
  match cls with
  | 0 => (decide (0x00 ≤ op) && decide (op ≤ 0x27)) || (decide (0x2C ≤ op) && decide (op ≤ 0x2D))
  | 1 => (decide (0x00 ≤ op) && decide (op ≤ 0x1B)) || (decide (0x23 ≤ op) && decide (op ≤ 0x2C)) || (decide (0x2F ≤ op) && decide (op ≤ 0x3D)) || (decide (0x3F ≤ op) && decide (op ≤ 0x48))
  | 2 => (decide (0x00 ≤ op) && decide (op ≤ 0x01)) || (decide (0x04 ≤ op) && decide (op ≤ 0x07)) || (decide (0x09 ≤ op) && decide (op ≤ 0x0A)) || op == 0x13 || op == 0x17 || op == 0x1B
  | 7 => (decide (0x00 ≤ op) && decide (op ≤ 0x03)) || (decide (0xF0 ≤ op) && decide (op ≤ 0xF3))
  | _ => false

/-- A vector destination or source of a bank core lies in v0 to v15 (R286, R39). -/
def Dst.bankV (d : Dst) : Bool := decide (d.reg.toNat < 16)
/-- A vector source of a bank core. -/
def Src.bankV : Src → Bool
  | .reg n => decide (n.toNat < 16)
  | _ => true
/-- The codes of a 16- or 32-bit VCVT destination (R121, R287). -/
def bankCvtOk (c : BitVec 4) : Bool :=
  c == 2 || c == 3 || c == 4 || c == 5 || c == 8 || c == 9 || c == 10

/-- The limits that the TZ-N profile adds (R286, R287): vector registers v0 to v15, space `g` in every memory literal, VCVT codes of 16 or 32 bits. -/
def Instr.bankOk : Instr → Bool
  | .ld _ _ _ l => l.space == .g
  | .st _ _ _ l => l.space == .g
  | .vld d _ _ l => d.bankV && l.space == .g
  | .vst d _ _ l => decide (d.toNat < 16) && l.space == .g
  | .vlds d _ _ _ l => d.bankV && l.space == .g
  | .vsts d _ _ _ l => decide (d.toNat < 16) && l.space == .g
  | .vldx d _ b _ l => d.bankV && b.bankV && l.space == .g
  | .vstx d _ b _ l => decide (d.toNat < 16) && b.bankV && l.space == .g
  | .amo _ _ _ _ l => l.space == .g
  | .cas _ _ _ _ l => l.space == .g
  | .vadd d a b _ _ => d.bankV && a.bankV && b.bankV
  | .vsub d a b _ _ => d.bankV && a.bankV && b.bankV
  | .vmul d a b _ _ => d.bankV && a.bankV && b.bankV
  | .vmulh d a b _ _ => d.bankV && a.bankV && b.bankV
  | .vdiv d a b _ _ => d.bankV && a.bankV && b.bankV
  | .vrem d a b _ _ => d.bankV && a.bankV && b.bankV
  | .vand d a b _ _ => d.bankV && a.bankV && b.bankV
  | .vor d a b _ _ => d.bankV && a.bankV && b.bankV
  | .vxor d a b _ _ => d.bankV && a.bankV && b.bankV
  | .vshl d a b _ _ => d.bankV && a.bankV && b.bankV
  | .vshr d a b _ _ => d.bankV && a.bankV && b.bankV
  | .vmin d a b _ _ => d.bankV && a.bankV && b.bankV
  | .vmax d a b _ _ => d.bankV && a.bankV && b.bankV
  | .vabs d a _ => d.bankV && a.bankV
  | .vneg d a _ => d.bankV && a.bankV
  | .vmerge d a b _ => d.bankV && a.bankV && b.bankV
  | .vfadd d a b _ _ => d.bankV && a.bankV && b.bankV
  | .vfsub d a b _ _ => d.bankV && a.bankV && b.bankV
  | .vfmul d a b _ _ => d.bankV && a.bankV && b.bankV
  | .vfdiv d a b _ _ => d.bankV && a.bankV && b.bankV
  | .vfma d a b _ _ => d.bankV && a.bankV && b.bankV
  | .vfms d a b _ _ => d.bankV && a.bankV && b.bankV
  | .vfnma d a b _ _ => d.bankV && a.bankV && b.bankV
  | .vfmin d a b _ _ => d.bankV && a.bankV && b.bankV
  | .vfmax d a b _ _ => d.bankV && a.bankV && b.bankV
  | .vfabs d a _ _ => d.bankV && a.bankV
  | .vfneg d a _ _ => d.bankV && a.bankV
  | .vfsqrt d a _ _ => d.bankV && a.bankV
  | .vfclass d a _ _ => d.bankV && a.bankV
  | .vcmpeq _ a b _ _ => a.bankV && b.bankV
  | .vcmpne _ a b _ _ => a.bankV && b.bankV
  | .vcmplt _ a b _ _ => a.bankV && b.bankV
  | .vcmple _ a b _ _ => a.bankV && b.bankV
  | .vfcmpeq _ a b _ _ => a.bankV && b.bankV
  | .vfcmplt _ a b _ _ => a.bankV && b.bankV
  | .vfcmple _ a b _ _ => a.bankV && b.bankV
  | .vfcmpun _ a b _ _ => a.bankV && b.bankV
  | .vcvt d a c _ _ => d.bankV && a.bankV && bankCvtOk c
  | .vmv d a _ => d.bankV && a.bankV
  | .vredsum d a b _ _ => d.bankV && a.bankV && b.bankV
  | .vredmax d a b _ _ => d.bankV && a.bankV && b.bankV
  | .vredmin d a b _ _ => d.bankV && a.bankV && b.bankV
  | .vfredsum d a b _ _ => d.bankV && a.bankV && b.bankV
  | .vfredmax d a b _ _ => d.bankV && a.bankV && b.bankV
  | .vfredmin d a b _ _ => d.bankV && a.bankV && b.bankV
  | .vscan d a _ _ => d.bankV && a.bankV
  | .vfscan d a _ _ _ => d.bankV && a.bankV
  | .vslideup d a _ _ => d.bankV && a.bankV
  | .vslidedn d a _ _ => d.bankV && a.bankV
  | .vrgather d a b _ => d.bankV && a.bankV && b.bankV
  | .vcompress d a _ => d.bankV && a.bankV
  | .vid d _ => d.bankV
  | .viota d _ _ => d.bankV
  | .vbcast d _ _ => d.bankV
  | .nzskip _ _ _ l => l.space == .g
  | _ => true

/-- The class, fields and literal of an instruction word, by the encoding tables of spec/02 and of each entry; none for SUBMIT and for events, which have no Thazen word. -/
def encodeFields : Instr → Option Enc
  | .add d a b t => some ⟨0, ⟨0x00, d.reg, d.nw, a.toBits, b.toBits, t.toBits⟩, none⟩
  | .sub d a b t => some ⟨0, ⟨0x01, d.reg, d.nw, a.toBits, b.toBits, t.toBits⟩, none⟩
  | .mul d a b t => some ⟨0, ⟨0x02, d.reg, d.nw, a.toBits, b.toBits, t.toBits⟩, none⟩
  | .mulh d a b t => some ⟨0, ⟨0x03, d.reg, d.nw, a.toBits, b.toBits, t.toBits⟩, none⟩
  | .div d a b t => some ⟨0, ⟨0x04, d.reg, d.nw, a.toBits, b.toBits, t.toBits⟩, none⟩
  | .rem d a b t => some ⟨0, ⟨0x05, d.reg, d.nw, a.toBits, b.toBits, t.toBits⟩, none⟩
  | .and d a b t => some ⟨0, ⟨0x06, d.reg, d.nw, a.toBits, b.toBits, t.toBits⟩, none⟩
  | .or d a b t => some ⟨0, ⟨0x07, d.reg, d.nw, a.toBits, b.toBits, t.toBits⟩, none⟩
  | .xor d a b t => some ⟨0, ⟨0x08, d.reg, d.nw, a.toBits, b.toBits, t.toBits⟩, none⟩
  | .andn d a b t => some ⟨0, ⟨0x09, d.reg, d.nw, a.toBits, b.toBits, t.toBits⟩, none⟩
  | .shl d a b t => some ⟨0, ⟨0x0A, d.reg, d.nw, a.toBits, b.toBits, t.toBits⟩, none⟩
  | .shr d a b t => some ⟨0, ⟨0x0B, d.reg, d.nw, a.toBits, b.toBits, t.toBits⟩, none⟩
  | .rol d a b t => some ⟨0, ⟨0x0C, d.reg, d.nw, a.toBits, b.toBits, t.toBits⟩, none⟩
  | .min d a b t => some ⟨0, ⟨0x0D, d.reg, d.nw, a.toBits, b.toBits, t.toBits⟩, none⟩
  | .max d a b t => some ⟨0, ⟨0x0E, d.reg, d.nw, a.toBits, b.toBits, t.toBits⟩, none⟩
  | .sel d a b => some ⟨0, ⟨0x0F, d.reg, d.nw, a.toBits, b.toBits, 0⟩, none⟩
  | .addi d a i => some ⟨0, Raw.ofImm 0x10 d.reg d.nw a.toBits i, none⟩
  | .muli d a i => some ⟨0, Raw.ofImm 0x11 d.reg d.nw a.toBits i, none⟩
  | .andi d a i => some ⟨0, Raw.ofImm 0x12 d.reg d.nw a.toBits i, none⟩
  | .ori d a i => some ⟨0, Raw.ofImm 0x13 d.reg d.nw a.toBits i, none⟩
  | .xori d a i => some ⟨0, Raw.ofImm 0x14 d.reg d.nw a.toBits i, none⟩
  | .shli d a c => some ⟨0, Raw.ofImm 0x15 d.reg d.nw a.toBits (0#4 ++ c), none⟩
  | .shri d a h c => some ⟨0, Raw.ofImm 0x16 d.reg d.nw a.toBits (0#3 ++ BitVec.ofBool h ++ c), none⟩
  | .li d i => some ⟨0, Raw.ofImm 0x17 d.reg d.nw 0 i, none⟩
  | .liw d l => some ⟨0, ⟨0x18, d.reg, d.nw, 0, 0, 0⟩, some l⟩
  | .liwZ d l => some ⟨0, ⟨0x18, d.reg, d.nw, 0, 0, 1⟩, some l⟩
  | .liwH d a l => some ⟨0, ⟨0x18, d.reg, d.nw, a.toBits, 0, 2⟩, some l⟩
  | .bfx d a l => some ⟨0, ⟨0x19, d.reg, d.nw, a.toBits, 0, 0⟩, some l.toBits⟩
  | .bfi d a b l => some ⟨0, ⟨0x1A, d.reg, d.nw, a.toBits, b.toBits, 0⟩, some l.toBits⟩
  | .clz d a w => some ⟨0, ⟨0x1B, d.reg, d.nw, a.toBits, 0, (1#1 ++ w)⟩, none⟩
  | .ctz d a w => some ⟨0, ⟨0x1C, d.reg, d.nw, a.toBits, 0, (1#1 ++ w)⟩, none⟩
  | .popc d a w => some ⟨0, ⟨0x1D, d.reg, d.nw, a.toBits, 0, (1#1 ++ w)⟩, none⟩
  | .cmp d a b t => some ⟨0, ⟨0x1E, d.reg, d.nw, a.toBits, b.toBits, t.toBits⟩, none⟩
  | .cmpi d a i => some ⟨0, Raw.ofImm 0x1F d.reg d.nw a.toBits i, none⟩
  | .bra i => some ⟨0, Raw.ofImm 0x20 0 false 0 i, none⟩
  | .brc a b cc l => some ⟨0, ⟨0x21, 0, false, a.toBits, b.toBits, cc.toBits⟩, some l⟩
  | .brz a i => some ⟨0, Raw.ofImm 0x22 0 false a.toBits i, none⟩
  | .brnz a i => some ⟨0, Raw.ofImm 0x23 0 false a.toBits i, none⟩
  | .jmp l => some ⟨0, ⟨0x24, 0, false, 0, 0, 0⟩, some l⟩
  | .jmpReg a l => some ⟨0, ⟨0x24, 0, false, a.toBits, 0, 1⟩, some l⟩
  | .call d l => some ⟨0, ⟨0x25, d.reg, d.nw, 0, 0, 0⟩, some l⟩
  | .callr d a => some ⟨0, ⟨0x26, d.reg, d.nw, a.toBits, 0, 0⟩, none⟩
  | .ret a => some ⟨0, ⟨0x27, 0, false, a.toBits, 0, 0⟩, none⟩
  | .brm a i => some ⟨0, Raw.ofImm 0x28 0 false a.toBits i, none⟩
  | .join => some ⟨0, ⟨0x29, 0, false, 0, 0, 0⟩, none⟩
  | .looph => some ⟨0, ⟨0x2A, 0, false, 0, 0, 0⟩, none⟩
  | .exit => some ⟨0, ⟨0x2B, 0, false, 0, 0, 0⟩, none⟩
  | .nop => some ⟨0, ⟨0x2C, 0, false, 0, 0, 0⟩, none⟩
  | .yield => some ⟨0, ⟨0x2D, 0, false, 0, 0, 0⟩, none⟩
  | .ld d a t l => some ⟨2, ⟨0x00, d.reg, d.nw, a.toBits, 0, t.toBits⟩, some l.toBits⟩
  | .st a b t l => some ⟨2, ⟨0x01, 0, false, a.toBits, b.toBits, t.toBits⟩, some l.toBits⟩
  | .ldaq d a t l => some ⟨2, ⟨0x02, d.reg, d.nw, a.toBits, 0, t.toBits⟩, some l.toBits⟩
  | .strl a b t l => some ⟨2, ⟨0x03, 0, false, a.toBits, b.toBits, t.toBits⟩, some l.toBits⟩
  | .vld d a k l => some ⟨2, ⟨0x04, d.reg, d.nw, a.toBits, 0, (0#1 ++ k.toBits)⟩, some l.toBits⟩
  | .vst d a k l => some ⟨2, ⟨0x05, d, false, a.toBits, 0, (0#1 ++ k.toBits)⟩, some l.toBits⟩
  | .vlds d a b k l => some ⟨2, ⟨0x06, d.reg, d.nw, a.toBits, b.toBits, (0#1 ++ k.toBits)⟩, some l.toBits⟩
  | .vsts d a b k l => some ⟨2, ⟨0x07, d, false, a.toBits, b.toBits, (0#1 ++ k.toBits)⟩, some l.toBits⟩
  | .vldff d a k l => some ⟨2, ⟨0x08, d.reg, d.nw, a.toBits, 0, (0#1 ++ k.toBits)⟩, some l.toBits⟩
  | .vldx d a b k l => some ⟨2, ⟨0x09, d.reg, d.nw, a.toBits, b.toBits, (0#1 ++ k.toBits)⟩, some l.toBits⟩
  | .vstx d a b k l => some ⟨2, ⟨0x0A, d, false, a.toBits, b.toBits, (0#1 ++ k.toBits)⟩, some l.toBits⟩
  | .tld d a chk l => some ⟨2, ⟨0x0B, d.reg, d.nw, a.toBits, 0, (0#2 ++ BitVec.ofBool chk)⟩, some l.toBits⟩
  | .tst d a l => some ⟨2, ⟨0x0C, d, false, a.toBits, 0, 0⟩, some l.toBits⟩
  | .putt d a l => some ⟨2, ⟨0x0D, d, false, a.toBits, 0, 0⟩, some l.toBits⟩
  | .ldc d a chk l => some ⟨2, ⟨0x0E, d.reg, d.nw, a.toBits, 0, (0#2 ++ BitVec.ofBool chk)⟩, some l.toBits⟩
  | .ldp d a chk l => some ⟨2, ⟨0x0F, d.reg, d.nw, a.toBits, 0, (0#2 ++ BitVec.ofBool chk)⟩, some l.toBits⟩
  | .taglk d a => some ⟨2, ⟨0x10, d.reg, d.nw, a.toBits, 0, 0⟩, none⟩
  | .tagins d a b => some ⟨2, ⟨0x11, d.reg, d.nw, a.toBits, b.toBits, 0⟩, none⟩
  | .tagdel d a => some ⟨2, ⟨0x12, d.reg, d.nw, a.toBits, 0, 0⟩, none⟩
  | .amo d a b t l => some ⟨2, ⟨0x13, d.reg, d.nw, a.toBits, b.toBits, t.toBits⟩, some l.toBits⟩
  | .amon a b t l => some ⟨2, ⟨0x14, 0, false, a.toBits, b.toBits, t.toBits⟩, some l.toBits⟩
  | .vamo d a b u k l => some ⟨2, ⟨0x15, d.reg, d.nw, a.toBits, b.toBits, (BitVec.ofBool u ++ k.toBits)⟩, some l.toBits⟩
  | .vamon d a b u k l => some ⟨2, ⟨0x16, d, false, a.toBits, b.toBits, (BitVec.ofBool u ++ k.toBits)⟩, some l.toBits⟩
  | .cas d a b t l => some ⟨2, ⟨0x17, d.reg, d.nw, a.toBits, b.toBits, t.toBits⟩, some l.toBits⟩
  | .vcas d a b u k l => some ⟨2, ⟨0x18, d, false, a.toBits, b.toBits, (BitVec.ofBool u ++ k.toBits)⟩, some l.toBits⟩
  | .nma a b t l => some ⟨2, ⟨0x19, 0, false, a.toBits, b.toBits, t.toBits⟩, some l.toBits⟩
  | .vnma d a b u k l => some ⟨2, ⟨0x1A, d, false, a.toBits, b.toBits, (BitVec.ofBool u ++ k.toBits)⟩, some l.toBits⟩
  | .fence s => some ⟨2, ⟨0x1B, 0, false, 0, 0, s.toBits⟩, none⟩
  | .pref a dc l => some ⟨2, ⟨0x1C, 0, false, a.toBits, 0, (0#2 ++ BitVec.ofBool dc)⟩, some l.toBits⟩
  | .cclean a l => some ⟨2, ⟨0x1D, 0, false, a.toBits, 0, 0⟩, some l.toBits⟩
  | .cinv a all l => some ⟨2, ⟨0x1E, 0, false, a.toBits, 0, (0#2 ++ BitVec.ofBool all)⟩, some l.toBits⟩
  | .tfill a b l => some ⟨2, ⟨0x1F, 0, false, a.toBits, b.toBits, 0⟩, some l.toBits⟩
  | .tempty a b l => some ⟨2, ⟨0x20, 0, false, a.toBits, b.toBits, 0⟩, some l.toBits⟩
  | .ttag d a l => some ⟨2, ⟨0x21, d.reg, d.nw, a.toBits, 0, 0⟩, some l.toBits⟩
  | .cflush a l => some ⟨2, ⟨0x22, 0, false, a.toBits, 0, 0⟩, some l.toBits⟩
  | .vadd d a b u k => some ⟨1, ⟨0x00, d.reg, d.nw, a.toBits, b.toBits, (BitVec.ofBool u ++ k.toBits)⟩, none⟩
  | .vsub d a b u k => some ⟨1, ⟨0x01, d.reg, d.nw, a.toBits, b.toBits, (BitVec.ofBool u ++ k.toBits)⟩, none⟩
  | .vmul d a b u k => some ⟨1, ⟨0x02, d.reg, d.nw, a.toBits, b.toBits, (BitVec.ofBool u ++ k.toBits)⟩, none⟩
  | .vmulh d a b u k => some ⟨1, ⟨0x03, d.reg, d.nw, a.toBits, b.toBits, (BitVec.ofBool u ++ k.toBits)⟩, none⟩
  | .vdiv d a b u k => some ⟨1, ⟨0x04, d.reg, d.nw, a.toBits, b.toBits, (BitVec.ofBool u ++ k.toBits)⟩, none⟩
  | .vrem d a b u k => some ⟨1, ⟨0x05, d.reg, d.nw, a.toBits, b.toBits, (BitVec.ofBool u ++ k.toBits)⟩, none⟩
  | .vand d a b u k => some ⟨1, ⟨0x06, d.reg, d.nw, a.toBits, b.toBits, (BitVec.ofBool u ++ k.toBits)⟩, none⟩
  | .vor d a b u k => some ⟨1, ⟨0x07, d.reg, d.nw, a.toBits, b.toBits, (BitVec.ofBool u ++ k.toBits)⟩, none⟩
  | .vxor d a b u k => some ⟨1, ⟨0x08, d.reg, d.nw, a.toBits, b.toBits, (BitVec.ofBool u ++ k.toBits)⟩, none⟩
  | .vshl d a b u k => some ⟨1, ⟨0x09, d.reg, d.nw, a.toBits, b.toBits, (BitVec.ofBool u ++ k.toBits)⟩, none⟩
  | .vshr d a b u k => some ⟨1, ⟨0x0A, d.reg, d.nw, a.toBits, b.toBits, (BitVec.ofBool u ++ k.toBits)⟩, none⟩
  | .vmin d a b u k => some ⟨1, ⟨0x0B, d.reg, d.nw, a.toBits, b.toBits, (BitVec.ofBool u ++ k.toBits)⟩, none⟩
  | .vmax d a b u k => some ⟨1, ⟨0x0C, d.reg, d.nw, a.toBits, b.toBits, (BitVec.ofBool u ++ k.toBits)⟩, none⟩
  | .vabs d a k => some ⟨1, ⟨0x0D, d.reg, d.nw, a.toBits, 0, (0#1 ++ k.toBits)⟩, none⟩
  | .vneg d a k => some ⟨1, ⟨0x0E, d.reg, d.nw, a.toBits, 0, (0#1 ++ k.toBits)⟩, none⟩
  | .vmerge d a b k => some ⟨1, ⟨0x0F, d.reg, d.nw, a.toBits, b.toBits, (0#1 ++ k.toBits)⟩, none⟩
  | .vfadd d a b u k => some ⟨1, ⟨0x10, d.reg, d.nw, a.toBits, b.toBits, (BitVec.ofBool u ++ k.toBits)⟩, none⟩
  | .vfsub d a b u k => some ⟨1, ⟨0x11, d.reg, d.nw, a.toBits, b.toBits, (BitVec.ofBool u ++ k.toBits)⟩, none⟩
  | .vfmul d a b u k => some ⟨1, ⟨0x12, d.reg, d.nw, a.toBits, b.toBits, (BitVec.ofBool u ++ k.toBits)⟩, none⟩
  | .vfdiv d a b u k => some ⟨1, ⟨0x13, d.reg, d.nw, a.toBits, b.toBits, (BitVec.ofBool u ++ k.toBits)⟩, none⟩
  | .vfma d a b u k => some ⟨1, ⟨0x14, d.reg, d.nw, a.toBits, b.toBits, (BitVec.ofBool u ++ k.toBits)⟩, none⟩
  | .vfms d a b u k => some ⟨1, ⟨0x15, d.reg, d.nw, a.toBits, b.toBits, (BitVec.ofBool u ++ k.toBits)⟩, none⟩
  | .vfnma d a b u k => some ⟨1, ⟨0x16, d.reg, d.nw, a.toBits, b.toBits, (BitVec.ofBool u ++ k.toBits)⟩, none⟩
  | .vfmin d a b u k => some ⟨1, ⟨0x17, d.reg, d.nw, a.toBits, b.toBits, (BitVec.ofBool u ++ k.toBits)⟩, none⟩
  | .vfmax d a b u k => some ⟨1, ⟨0x18, d.reg, d.nw, a.toBits, b.toBits, (BitVec.ofBool u ++ k.toBits)⟩, none⟩
  | .vfabs d a u k => some ⟨1, ⟨0x19, d.reg, d.nw, a.toBits, 0, (BitVec.ofBool u ++ k.toBits)⟩, none⟩
  | .vfneg d a u k => some ⟨1, ⟨0x1A, d.reg, d.nw, a.toBits, 0, (BitVec.ofBool u ++ k.toBits)⟩, none⟩
  | .vfsqrt d a u k => some ⟨1, ⟨0x1B, d.reg, d.nw, a.toBits, 0, (BitVec.ofBool u ++ k.toBits)⟩, none⟩
  | .vfrsq d a u k => some ⟨1, ⟨0x1C, d.reg, d.nw, a.toBits, 0, (BitVec.ofBool u ++ k.toBits)⟩, none⟩
  | .vfrcp d a u k => some ⟨1, ⟨0x1D, d.reg, d.nw, a.toBits, 0, (BitVec.ofBool u ++ k.toBits)⟩, none⟩
  | .vfexp d a u k => some ⟨1, ⟨0x1E, d.reg, d.nw, a.toBits, 0, (BitVec.ofBool u ++ k.toBits)⟩, none⟩
  | .vflog d a u k => some ⟨1, ⟨0x1F, d.reg, d.nw, a.toBits, 0, (BitVec.ofBool u ++ k.toBits)⟩, none⟩
  | .vftanh d a u k => some ⟨1, ⟨0x20, d.reg, d.nw, a.toBits, 0, (BitVec.ofBool u ++ k.toBits)⟩, none⟩
  | .vfsin d a u k => some ⟨1, ⟨0x21, d.reg, d.nw, a.toBits, 0, (BitVec.ofBool u ++ k.toBits)⟩, none⟩
  | .vfcos d a u k => some ⟨1, ⟨0x22, d.reg, d.nw, a.toBits, 0, (BitVec.ofBool u ++ k.toBits)⟩, none⟩
  | .vfclass d a u k => some ⟨1, ⟨0x23, d.reg, d.nw, a.toBits, 0, (BitVec.ofBool u ++ k.toBits)⟩, none⟩
  | .vcmpeq d a b u k => some ⟨1, ⟨0x24, d.reg, d.nw, a.toBits, b.toBits, (BitVec.ofBool u ++ k.toBits)⟩, none⟩
  | .vcmpne d a b u k => some ⟨1, ⟨0x25, d.reg, d.nw, a.toBits, b.toBits, (BitVec.ofBool u ++ k.toBits)⟩, none⟩
  | .vcmplt d a b u k => some ⟨1, ⟨0x26, d.reg, d.nw, a.toBits, b.toBits, (BitVec.ofBool u ++ k.toBits)⟩, none⟩
  | .vcmple d a b u k => some ⟨1, ⟨0x27, d.reg, d.nw, a.toBits, b.toBits, (BitVec.ofBool u ++ k.toBits)⟩, none⟩
  | .vfcmpeq d a b u k => some ⟨1, ⟨0x28, d.reg, d.nw, a.toBits, b.toBits, (BitVec.ofBool u ++ k.toBits)⟩, none⟩
  | .vfcmplt d a b u k => some ⟨1, ⟨0x29, d.reg, d.nw, a.toBits, b.toBits, (BitVec.ofBool u ++ k.toBits)⟩, none⟩
  | .vfcmple d a b u k => some ⟨1, ⟨0x2A, d.reg, d.nw, a.toBits, b.toBits, (BitVec.ofBool u ++ k.toBits)⟩, none⟩
  | .vfcmpun d a b u k => some ⟨1, ⟨0x2B, d.reg, d.nw, a.toBits, b.toBits, (BitVec.ofBool u ++ k.toBits)⟩, none⟩
  | .vcvt d a c e k => some ⟨1, ⟨0x2C, d.reg, d.nw, a.toBits, (c ++ e), (0#1 ++ k.toBits)⟩, none⟩
  | .vquant d a q u => some ⟨1, ⟨0x2D, d.reg, d.nw, a.toBits, (0#4 ++ q), (BitVec.ofBool u ++ 0#2)⟩, none⟩
  | .vdeq d a u k => some ⟨1, ⟨0x2E, d.reg, d.nw, a.toBits, 0, (BitVec.ofBool u ++ k.toBits)⟩, none⟩
  | .vmv d a k => some ⟨1, ⟨0x2F, d.reg, d.nw, a.toBits, 0, (0#1 ++ k.toBits)⟩, none⟩
  | .vredsum d a b u k => some ⟨1, ⟨0x30, d.reg, d.nw, a.toBits, b.toBits, (BitVec.ofBool u ++ k.toBits)⟩, none⟩
  | .vredmax d a b u k => some ⟨1, ⟨0x31, d.reg, d.nw, a.toBits, b.toBits, (BitVec.ofBool u ++ k.toBits)⟩, none⟩
  | .vredmin d a b u k => some ⟨1, ⟨0x32, d.reg, d.nw, a.toBits, b.toBits, (BitVec.ofBool u ++ k.toBits)⟩, none⟩
  | .vfredsum d a b u k => some ⟨1, ⟨0x33, d.reg, d.nw, a.toBits, b.toBits, (BitVec.ofBool u ++ k.toBits)⟩, none⟩
  | .vfredmax d a b u k => some ⟨1, ⟨0x34, d.reg, d.nw, a.toBits, b.toBits, (BitVec.ofBool u ++ k.toBits)⟩, none⟩
  | .vfredmin d a b u k => some ⟨1, ⟨0x35, d.reg, d.nw, a.toBits, b.toBits, (BitVec.ofBool u ++ k.toBits)⟩, none⟩
  | .vscan d a b k => some ⟨1, ⟨0x36, d.reg, d.nw, a.toBits, b.toBits, (0#1 ++ k.toBits)⟩, none⟩
  | .vfscan d a b u k => some ⟨1, ⟨0x37, d.reg, d.nw, a.toBits, b.toBits, (BitVec.ofBool u ++ k.toBits)⟩, none⟩
  | .vslideup d a b k => some ⟨1, ⟨0x38, d.reg, d.nw, a.toBits, b.toBits, (0#1 ++ k.toBits)⟩, none⟩
  | .vslidedn d a b k => some ⟨1, ⟨0x39, d.reg, d.nw, a.toBits, b.toBits, (0#1 ++ k.toBits)⟩, none⟩
  | .vrgather d a b k => some ⟨1, ⟨0x3A, d.reg, d.nw, a.toBits, b.toBits, (0#1 ++ k.toBits)⟩, none⟩
  | .vcompress d a k => some ⟨1, ⟨0x3B, d.reg, d.nw, a.toBits, 0, (0#1 ++ k.toBits)⟩, none⟩
  | .vid d k => some ⟨1, ⟨0x3C, d.reg, d.nw, 0, 0, (0#1 ++ k.toBits)⟩, none⟩
  | .viota d a k => some ⟨1, ⟨0x3D, d.reg, d.nw, a.toBits, 0, (0#1 ++ k.toBits)⟩, none⟩
  | .vsortk d a b u e => some ⟨1, ⟨0x3E, d, false, a.toBits, b.toBits, (BitVec.ofBool u ++ BitVec.ofBool e ++ 0#1)⟩, none⟩
  | .vbcast d a k => some ⟨1, ⟨0x3F, d.reg, d.nw, a.toBits, 0, (0#1 ++ k.toBits)⟩, none⟩
  | .setvl d a b => some ⟨1, ⟨0x40, d.reg, d.nw, a.toBits, b.toBits, 0⟩, none⟩
  | .setvli d a c => some ⟨1, Raw.ofImm 0x41 d.reg d.nw a.toBits (0#4 ++ c), none⟩
  | .mand d a b => some ⟨1, ⟨0x42, d.reg, d.nw, a.toBits, b.toBits, 0⟩, none⟩
  | .mor d a b => some ⟨1, ⟨0x43, d.reg, d.nw, a.toBits, b.toBits, 0⟩, none⟩
  | .mxor d a b => some ⟨1, ⟨0x44, d.reg, d.nw, a.toBits, b.toBits, 0⟩, none⟩
  | .mandn d a b => some ⟨1, ⟨0x45, d.reg, d.nw, a.toBits, b.toBits, 0⟩, none⟩
  | .mnot d a => some ⟨1, ⟨0x46, d.reg, d.nw, a.toBits, 0, 0⟩, none⟩
  | .mpop d a k => some ⟨1, ⟨0x47, d.reg, d.nw, a.toBits, 0, (0#1 ++ k.toBits)⟩, none⟩
  | .mfirst d a k => some ⟨1, ⟨0x48, d.reg, d.nw, a.toBits, 0, (0#1 ++ k.toBits)⟩, none⟩
  | .emget d g => some ⟨1, ⟨0x49, d.reg, d.nw, 0, 0, (0#2 ++ BitVec.ofBool g)⟩, none⟩
  | .emset a g => some ⟨1, ⟨0x4A, 0, false, a.toBits, 0, (0#2 ++ BitVec.ofBool g)⟩, none⟩
  | .mma d a b l => some ⟨3, ⟨0x00, d, false, a.toBits, b.toBits, 0⟩, some l.toBits⟩
  | .mmaAdp d a b l => some ⟨3, ⟨0x01, d, false, a.toBits, b.toBits, 0⟩, some l.toBits⟩
  | .adpfin d b l => some ⟨3, ⟨0x02, d, false, 0, b.toBits, 0⟩, some l.toBits⟩
  | .mzero d => some ⟨3, ⟨0x03, d, false, 0, 0, 0⟩, none⟩
  | .mldacc d a b f l => some ⟨3, ⟨0x04, d, false, a.toBits, b.toBits, (0#1 ++ f)⟩, some l.toBits⟩
  | .mdrain d a b f add l => some ⟨3, ⟨0x05, d, false, a.toBits, b.toBits, (BitVec.ofBool add ++ f)⟩, some l.toBits⟩
  | .mfence a n => some ⟨3, Raw.ofImm 0x06 0 false a.toBits (0#6 ++ n), none⟩
  | .mbara j n => some ⟨3, Raw.ofImm 0x07 0 false 0 (0#5 ++ BitVec.ofBool j ++ n), none⟩
  | .mbarw n => some ⟨3, Raw.ofImm 0x08 0 false 0 (0#6 ++ n), none⟩
  | .mloop d l => some ⟨3, ⟨0x09, d, false, 0, 0, 0⟩, some l⟩
  | .mjmp l => some ⟨3, ⟨0x0A, 0, false, 0, 0, 0⟩, some l⟩
  | .mend => some ⟨3, ⟨0x0B, 0, false, 0, 0, 0⟩, none⟩
  | .adpld a l => some ⟨3, ⟨0x0C, 0, false, a.toBits, 0, 0⟩, some l.toBits⟩
  | .adpinv a => some ⟨3, ⟨0x0D, 0, false, a.toBits, 0, 0⟩, none⟩
  | .msetbAdd d a b => some ⟨3, ⟨0x0E, d, false, a.toBits, b.toBits, 0⟩, none⟩
  | .msetbLd d a b => some ⟨3, ⟨0x0E, d, false, a.toBits, b.toBits, 1⟩, none⟩
  | .msetbFmt a => some ⟨3, ⟨0x0E, 0, false, a.toBits, 0, 2⟩, none⟩
  | .msetbSeed a => some ⟨3, ⟨0x0E, 0, false, a.toBits, 0, 3⟩, none⟩
  | .msetbBind a => some ⟨3, ⟨0x0E, 0, false, a.toBits, 0, 4⟩, none⟩
  | .msetbAdir a => some ⟨3, ⟨0x0E, 0, false, a.toBits, 0, 5⟩, none⟩
  | .mnop => some ⟨3, ⟨0x0F, 0, false, 0, 0, 0⟩, none⟩
  | .macq d a => some ⟨6, ⟨0x0E, d, false, a.toBits, 0, 1⟩, none⟩
  | .macqNc a => some ⟨6, ⟨0x0E, 0, false, a.toBits, 0, 0⟩, none⟩
  | .mrel a => some ⟨6, ⟨0x0F, 0, false, a.toBits, 0, 0⟩, none⟩
  | .mrelW a b => some ⟨6, ⟨0x0F, 0, false, a.toBits, b.toBits, 1⟩, none⟩
  | .gath d a b k l => some ⟨4, ⟨0x00, d, false, a.toBits, b.toBits, (0#1 ++ k.toBits)⟩, some l.toBits⟩
  | .scat d a b k l => some ⟨4, ⟨0x01, d, false, a.toBits, b.toBits, (0#1 ++ k.toBits)⟩, some l.toBits⟩
  | .coll a l => some ⟨4, ⟨0x02, 0, false, a.toBits, 0, 0⟩, some l.toBits⟩
  | .waitc n k => some ⟨4, Raw.ofImm 0x03 0 false 0 (n ++ k), none⟩
  | .astatCnt d a => some ⟨4, ⟨0x04, d.reg, d.nw, a.toBits, 0, 0⟩, none⟩
  | .astatChan d a => some ⟨4, ⟨0x04, d.reg, d.nw, a.toBits, 0, 1⟩, none⟩
  | .astatFault d => some ⟨4, ⟨0x04, d.reg, d.nw, 0, 0, 2⟩, none⟩
  | .nmsync => some ⟨4, ⟨0x05, 0, false, 0, 0, 0⟩, none⟩
  | .gcfg a => some ⟨5, ⟨0x00, 0, false, a.toBits, 0, 0⟩, none⟩
  | .gcfgUn => some ⟨5, ⟨0x00, 0, false, 0, 0, 1⟩, none⟩
  | .gmatch d a b l => some ⟨5, ⟨0x01, d.reg, d.nw, a.toBits, b.toBits, 0⟩, some l.toBits⟩
  | .gprop d a l => some ⟨5, ⟨0x02, d.reg, d.nw, a.toBits, 0, 0⟩, some l.toBits⟩
  | .gwait d a => some ⟨5, ⟨0x03, d.reg, d.nw, a.toBits, 0, 0⟩, none⟩
  | .gcollect d a b => some ⟨5, ⟨0x04, d.reg, d.nw, a.toBits, b.toBits, 0⟩, none⟩
  | .gclr a b => some ⟨5, ⟨0x05, 0, false, a.toBits, b.toBits, 0⟩, none⟩
  | .gvld d a y => some ⟨5, ⟨0x06, d.reg, d.nw, a.toBits, 0, (0#2 ++ BitVec.ofBool y)⟩, none⟩
  | .gvst d a y => some ⟨5, ⟨0x07, d, false, a.toBits, 0, (0#2 ++ BitVec.ofBool y)⟩, none⟩
  | .gstat d a => some ⟨5, ⟨0x08, d.reg, d.nw, a.toBits, 0, 0⟩, none⟩
  | .gabort a => some ⟨5, ⟨0x09, 0, false, a.toBits, 0, 0⟩, none⟩
  | .bari a n => some ⟨6, Raw.ofImm 0x00 0 false a.toBits (0#6 ++ n), none⟩
  | .bara n => some ⟨6, Raw.ofImm 0x01 0 false 0 (0#6 ++ n), none⟩
  | .barw n => some ⟨6, Raw.ofImm 0x02 0 false 0 (0#6 ++ n), none⟩
  | .baraw n => some ⟨6, Raw.ofImm 0x03 0 false 0 (0#6 ++ n), none⟩
  | .syncw d a b => some ⟨6, ⟨0x04, d.reg, d.nw, a.toBits, b.toBits, 0⟩, none⟩
  | .mqw d a b s => some ⟨6, ⟨0x05, d, false, a.toBits, b.toBits, s.toBits⟩, none⟩
  | .mqr d k => some ⟨6, ⟨0x06, d.reg, d.nw, 0, 0, (0#1 ++ k)⟩, none⟩
  | .refill d => some ⟨6, ⟨0x07, d, false, 0, 0, 0⟩, none⟩
  | .itempush d a => some ⟨6, ⟨0x08, d.reg, d.nw, a.toBits, 0, 0⟩, none⟩
  | .itempushClose d => some ⟨6, ⟨0x08, d.reg, d.nw, 0, 0, 1⟩, none⟩
  | .tender d a l => some ⟨6, ⟨0x09, d.reg, d.nw, a.toBits, 0, 0⟩, some (tenderToBits l)⟩
  | .withdraw d a => some ⟨6, ⟨0x0A, d.reg, d.nw, a.toBits, 0, 0⟩, none⟩
  | .doneTask a => some ⟨6, ⟨0x0B, 0, false, a.toBits, 0, 0⟩, none⟩
  | .blkacq d a y => some ⟨6, ⟨0x0C, d.reg, d.nw, a.toBits, 0, (0#2 ++ BitVec.ofBool y)⟩, none⟩
  | .blkrel d a => some ⟨6, ⟨0x0D, d.reg, d.nw, a.toBits, 0, 0⟩, none⟩
  | .fbegin a l => some ⟨6, ⟨0x10, 0, false, a.toBits, 0, 0⟩, some l⟩
  | .fcommit d => some ⟨6, ⟨0x11, d.reg, d.nw, 0, 0, 0⟩, none⟩
  | .fabort => some ⟨6, ⟨0x12, 0, false, 0, 0, 0⟩, none⟩
  | .csrr d c => some ⟨7, Raw.ofImm 0x00 d.reg d.nw 0 c, none⟩
  | .csrw d a c => some ⟨7, Raw.ofImm 0x01 d.reg d.nw a.toBits c, none⟩
  | .csrs d a c => some ⟨7, Raw.ofImm 0x02 d.reg d.nw a.toBits c, none⟩
  | .csrc d a c => some ⟨7, Raw.ofImm 0x03 d.reg d.nw a.toBits c, none⟩
  | .trap c => some ⟨7, Raw.ofImm 0x04 0 false 0 (0#4 ++ c), none⟩
  | .eret => some ⟨7, ⟨0x05, 0, false, 0, 0, 0⟩, none⟩
  | .tlbinv a b => some ⟨7, ⟨0x06, 0, false, a.toBits, b.toBits, 0⟩, none⟩
  | .tlbinvAsid b => some ⟨7, ⟨0x06, 0, false, 0, b.toBits, 1⟩, none⟩
  | .tlbinvAll => some ⟨7, ⟨0x06, 0, false, 0, 0, 2⟩, none⟩
  | .cbld a b => some ⟨7, ⟨0x07, 0, false, a.toBits, b.toBits, 0⟩, none⟩
  | .cbswap a => some ⟨7, ⟨0x08, 0, false, a.toBits, 0, 0⟩, none⟩
  | .bidld a b => some ⟨7, ⟨0x09, 0, false, a.toBits, b.toBits, 0⟩, none⟩
  | .bidldWindow a => some ⟨7, ⟨0x09, 0, false, a.toBits, 0, 1⟩, none⟩
  | .dbg a => some ⟨7, ⟨0x0A, 0, false, a.toBits, 0, 0⟩, none⟩
  | .feat d => some ⟨7, ⟨0x0B, d.reg, d.nw, 0, 0, 0⟩, none⟩
  | .nzskip d a b l => some ⟨7, ⟨0xF0, d, false, a.toBits, b.toBits, 0⟩, some l.toBits⟩
  | .rowf a => some ⟨7, ⟨0xF1, 0, false, a.toBits, 0, 0⟩, none⟩
  | .mbxr d a => some ⟨7, ⟨0xF2, d, false, a.toBits, 0, 0⟩, none⟩
  | .haltb a => some ⟨7, ⟨0xF3, 0, false, a.toBits, 0, 0⟩, none⟩
  | .submit _ _ _ => none
  | .clauseExecute _ => none
  | .boundaryCauseTaken _ _ => none
  | .pathWake _ _ _ => none
  | .spareBlockLend _ _ => none
  | .streamFault _ => none
  | .mmaRowCommit _ _ => none
  | .adapterSegmentFill _ => none
  | .adapterRowReplay _ => none
  | .batchClose _ => none
  | .streamStop _ => none
  | .putArrive _ => none
  | .putResend _ => none
  | .pausedPutRetry _ => none
  | .uncorrectableError _ _ => none
  | .correctedError _ _ => none
  | .registerUncorrectable _ _ => none
  | .asyncRefusalArrive _ => none
  | .storePerform _ _ => none
  | .l1LineExpire _ _ => none
  | .nearCommandApply _ _ => none
  | .nearAckCredit _ _ => none
  | .copyStartAccept _ _ => none
  | .copyBegin _ _ => none
  | .copyRowWrite _ _ => none
  | .copyComplete _ _ => none
  | .copyFault _ _ => none
  | .templateSlotWrite _ _ => none
  | .syncWordRaise _ => none
  | .gatherRowTransfer _ _ => none
  | .gatherComplete _ _ => none
  | .bankStart _ _ => none
  | .mailboxWrite _ _ => none
  | .bankJobSuspend _ _ => none
  | .waveStart _ _ => none
  | .startMessageArrive _ => none
  | .markerMessageArrive _ => none
  | .dropNoticeArrive _ => none
  | .sweepAnswer _ _ _ => none
  | .sweepResult _ _ => none
  | .abortNoticeArrive _ => none
  | .waitPacket _ _ => none
  | .droverFetch _ => none
  | .commandNop _ => none
  | .launch _ => none
  | .nodeDispatch _ _ => none
  | .teamPlace _ => none
  | .nodeComplete _ _ => none
  | .bidWindowOpen => none
  | .bidWindowClose => none
  | .awardAccept => none
  | .urgentPlace _ => none
  | .groupEvict _ _ => none
  | .streamEvictStop _ => none
  | .teamRestore _ _ => none
  | .groupRestore _ => none
  | .faultRingAppend _ _ _ => none
  | .parkedResume _ _ => none
  | .parkedKill _ _ => none
  | .queueDescriptorWrite _ _ => none
  | .controlSpaceWrite _ _ => none
  | .shasidWrite _ _ => none
  | .messageFlitArrive _ => none
  | .fabricRead _ => none
  | .fabricWrite _ => none
  | .fabricPut _ => none
  | .fabricAtomic _ => none
  | .combinedAtomic _ => none
  | .readReply _ => none
  | .acknowledgement _ => none
  | .atomicReply _ => none
  | .stage _ => none
  | .commit _ => none
  | .regionAbort _ => none
  | .collectiveData _ => none
  | .collectiveAbort _ => none
  | .unknownPacketKind _ => none
  | .pathDown _ _ => none
  | .orderedFlagSend _ _ => none
  | .commitPoint _ _ => none
  | .regionFail _ _ _ => none
  | .collectiveStatusWrite _ => none
  | .contextKill _ => none
  | .linkRetry _ => none
  | .routeTableWrite _ _ _ => none
  | .deviceNumberAssign _ => none
  | .boot _ _ => none
  | .ueRmaWrite _ _ _ => none
  | .ueRmaRead _ _ _ => none
  | .ueSend _ _ => none
  | .ueUnsupportedPacket _ => none
  | .attestationQuote _ => none
  | .musterRequest _ => none
  | .musterComplete => none
  | .stopwatchWrite _ => none
  | .stopwNFall => none
  | .stopwatchResume => none
  | .debugResume _ _ _ => none
  | .thermalThrottle _ => none
  | .thermalTrip _ => none

/-- The RISC-V word of SUBMIT (R336). -/
def decodeSubmit (w : Word32) : Option Instr :=
  if w.extractLsb' 25 7 == 0 && w.extractLsb' 12 3 == 0 && w.extractLsb' 0 7 == 0b0001011#7 then
    some (.submit (w.extractLsb' 20 5) (w.extractLsb' 15 5) (w.extractLsb' 7 5)) else none
/-- The word of SUBMIT (R336). -/
def encodeSubmit (rs2 rs1 rd : BitVec 5) : Word32 := 0#7 ++ rs2 ++ rs1 ++ 0#3 ++ rd ++ 0b0001011#7

/-- The words of an instruction, the word first and its literal after it; none for an event. -/
def encode : Instr → List Word32
  | .submit rs2 rs1 rd => [encodeSubmit rs2 rs1 rd]
  | i => match encodeFields i with
    | some e => e.raw.toWord :: e.lit.toList
    | none => []

/-- The well-formed instruction of a word and the literal after it, within a class (R49 steps 1 and 4). -/
def decodeWord (tzn : Bool) (cls : BitVec 3) (w l : Word32) : Option Instr :=
  (decodeFields tzn cls (Raw.ofWord w) l).filter fun i => i.wf && (!tzn || i.bankOk)

/-- What the bits of a word alone leave open: who fetches it and in which class. -/
inductive WordKind where
  | group (cls : BitVec 3)
  | stream
  | bank (cls : BitVec 3)
  | hart
deriving DecidableEq, Repr

/-- The decoder of a kind of word. -/
def WordKind.decode (k : WordKind) (w l : Word32) : Option Instr :=
  match k with
  | .group c => decodeWord false c w l
  | .stream => decodeWord false 3 w l
  | .bank c => decodeWord true c w l
  | .hart => decodeSubmit w
/-- Does the word's opcode take a literal in this kind? -/
def WordKind.takesLit (k : WordKind) (w : Word32) : Bool :=
  let op := (w.extractLsb' 24 8).toNat
  let info := match k with
    | .group c => opInfo c.toNat op
    | .stream => opInfo 3 op
    | .bank c => opInfo c.toNat op
    | .hart => none
  (info.map OpInfo.lit).getD false

/-- The kinds in the order in which a bare word is tried: the sparsest opcode maps first. The table gives a word no class (log 3). -/
def wordKinds : List WordKind :=
  [.hart, .group 6, .group 4, .group 5, .stream, .group 7, .bank 7, .group 2, .group 0, .group 1]

/-- The kind that a bare word of the opcode table is read in: the first without a literal that decodes it, then the first with one. -/
def tableKind (w l : Word32) : Option WordKind :=
  match wordKinds.find? (fun k => !k.takesLit w && (k.decode w l).isSome) with
  | some k => some k
  | none => wordKinds.find? (fun k => (k.decode w l).isSome)

/-- The instruction that the decoder reads from a bare word of the opcode table, bits above the first word being its literal. -/
def decodeTableWord (_nbits w : Nat) : Option Instr :=
  let w0 := BitVec.ofNat 32 w
  let l := BitVec.ofNat 32 (w / 2 ^ 32)
  (tableKind w0 l).bind fun k => k.decode w0 l


end Sys2Proof
end

