-- ==== Sys2Proof/Config.lean ====
section
/-! DEFINITION. What an implementation fixes and the free values: constants without a body, so that no proof can see a value of them. -/

namespace Sys2Proof.Config

/-- The cycle count that the device writes into an error-log entry or a Muster summary (R424, R425): time is not modelled, so the value is free (log 4). -/
opaque freeCycle : Nat → BitVec 64

/-- The FP32 results of the approximations of R118, of which the spec gives a bound and no value (log 5). -/
opaque approxRsq : BitVec 32 → BitVec 32
opaque approxRcp : BitVec 32 → BitVec 32
opaque approxExp : BitVec 32 → BitVec 32
opaque approxLog : BitVec 32 → BitVec 32
opaque approxTanh : BitVec 32 → BitVec 32
opaque approxSin : BitVec 32 → BitVec 32
opaque approxCos : BitVec 32 → BitVec 32

/-- SHA-256, which the spec takes from outside (R420; log 6). -/
opaque sha256 : List Byte → BitVec 256
/-- Does an LMS signature verify under the fused key of an image kind (R420, RFC 8554; log 6)? -/
opaque lmsVerifies : (kind : Nat) → (message signature : List Byte) → Bool
/-- The LMS signature of a quote with one-time key q (R423; log 6). -/
opaque lmsSign : (q : Nat) → (message : List Byte) → List Byte
/-- The fused minimum version of an image kind (R420). -/
opaque fusedVersion : Nat → BitVec 32
/-- The fused digest of the LMS key of an image kind (R420). -/
opaque fusedKey : Nat → BitVec 256
/-- AES-XTS encryption of a 128-byte line under a key pair and a tweak (R414, IEEE 1619; log 6). -/
opaque xtsEncrypt : (keys : BitVec 512) → (tweak : BitVec 128) → BitVec 1024 → BitVec 1024
/-- AES-XTS decryption of a line (R414; log 6). -/
opaque xtsDecrypt : (keys : BitVec 512) → (tweak : BitVec 128) → BitVec 1024 → BitVec 1024
/-- The first 64 bits of the AES-GMAC of a line's ciphertext under an initialisation vector (R414; log 6). -/
opaque gmacTag : (keys : BitVec 512) → (iv : BitVec 96) → BitVec 1024 → BitVec 64
/-- The router of a bank's home on its die, by its local number, which the spec does not give (R385; log 76). -/
opaque homeRouter : (bank : Nat) → Nat
/-- The engine's own way to reduce n ranks in a run (R415, R161): which partial result takes in which other, step by step. -/
opaque reductionPlan : (n run : Nat) → List (Nat × Nat)

end Sys2Proof.Config
end

