-- ==== Sys2Proof/Machine/State.lean ====
section
/-! DEFINITION. The state of the device: every register, memory, table, queue and engine that the spec names, as plain data, and the state after reset. -/

namespace Sys2Proof.Machine

/-- A table with a value for every key: the pairs that differ from the default, newest first. -/
abbrev AMap (κ α : Type) := List (κ × α)

/-- The bytes of a memory: address and byte pairs, addresses strictly rising, no entry of value 0, which is what an unlisted address reads as. -/
abbrev Mem := List Host.Cell

/-- What an unlisted byte of any memory reads as: scratchpad and template bytes are zero by R203 and R264; for DRAM the spec gives no contents after power-on and zero is a DESIGN CHOICE (log 1). -/
def unlistedByte : Byte := 0

/-- Trap causes (R357). -/
inductive Cause where
  | illegalOp | illegalClause | latchInvalid | misaligned | pageFault | accessViolation | stackLimit
  | featureAbsent | accToken | dataCheck | poison | rowNotFull | bidWithdrawn | blockDenied | barrierMisuse
  | collAbort | peerKilled | waveLimit | graphBound | machineCheck
  | software (code : BitVec 6)
deriving DecidableEq, Repr, Inhabited

/-- Why a step stops without a next state. -/
inductive Fault where
  /-- Raised by `step` once the boot ROM has stopped at a step whose verification failed (R419): the device then runs nothing. Safe: the model stops where the device stops. -/
  | bootStopped
deriving DecidableEq, Repr

/-- Why an instruction has no meaning here. -/
inductive Refusal where
  /-- Raised by an arm of `exec` for an instruction that has no meaning yet. Safe: nothing can be proved about it. -/
  | notModelled (mnemonic : String)
deriving DecidableEq, Repr

/-- The kind of a bypass latch (R42); `invalid` is the cleared valid bit. -/
inductive LatchKind where
  | invalid | scalar | vector | mask
deriving DecidableEq, Repr, Inhabited

/-- A bypass latch (R13, R42). -/
structure Latch where
  kind : LatchKind
  bits : VWord
deriving DecidableEq, Repr, Inhabited

/-- The clause that a path or a sequencer is running (R23): its header's address, class and count, the words fetched before its first word executed (R33), and the index of the next word, 1 to count. -/
structure Clause where
  hdr : Word64
  cls : BitVec 3
  count : Nat
  words : List Word32
  idx : Nat
  yield : Bool
deriving DecidableEq, Repr, Inhabited

/-- What a suspended path waits for (R98, R31, R367, R369). A barrier wait tells whether the pending phase held the phase that it waits for, and whether BARAW has made its arrival (R275). -/
inductive Wait where
  | blocks (a : Word64)
  | token (tile : Nat)
  | barrier (b : Nat) (phase : BitVec 32) (pended made : Bool)
  | sync (off : Nat) (gen : BitVec 32)
  | message (k : Nat)
  | item
  | counter (k n : Nat)
  | wave (graph root entry : Nat) (serial : BitVec 32)
  | tile (t : Nat) (consume : Bool) (chk : Bool) (addr : Word64)
  | debug
  | drain
  | header (mask : BitVec 8) (threshold : Nat)
  | parked (serial : BitVec 32)
  | ringRoom (kind : Nat) (tval epc lanes : Word64)
deriving DecidableEq, Repr, Inhabited

/-- What a waking event has handed to a suspended path: leave to go on, the data of the tile that it waited for (R209), or the trap that its test or the tile's tag gives (R208, R232). -/
inductive Grant where
  | go
  | data (v : VWord)
  | trap (c : Cause) (tval : Word64)
deriving DecidableEq, Repr, Inhabited

/-- A path (R91): its lanes, program counter, `emask`, `fmt`, latches and clause in progress, how it waits, whether a BARAW that is to execute again has made its arrival (R275), the results of the parts that an instruction of many separate events has made (R236, R242, R330), and whether the path holds its quadrant's issue slot (R98, R100). -/
structure Path where
  active : Bool
  lanes : Word64
  pc : Word64
  emask : Word64
  fmt : Word64
  latches : Vector Latch 4
  clause : Option Clause
  susp : Option Wait
  since : Nat
  grant : Option Grant
  stalled : Bool
  arrived : Bool
  replay : Bool
  aging : Nat
  yielded : Bool
  issuing : Bool
  part : List (Nat × Nat)
deriving DecidableEq, Repr

/-- A fall-through child that waits for a path slot (R92). -/
structure PendingPath where
  lanes : Word64
  pc : Word64
  fmt : Word64
deriving DecidableEq, Repr, Inhabited

/-- A divergence record (R92, R94): the parent's lanes and `fmt`, and what each child left when it closed. -/
structure DivRec where
  lanes : Word64
  fmt : Word64
  taken : Word64
  fall : Word64
  takenOpen : Bool
  fallOpen : Bool
  takenMask : Word64
  fallMask : Word64
  takenPc : Option Word64
  fallPc : Option Word64
  pending : Option PendingPath
deriving DecidableEq, Repr, Inhabited

/-- A boundary cause in a group's pending list (R361). -/
structure BCause where
  cause : Cause
  tval : Word64
  path : Option Bool
deriving DecidableEq, Repr, Inhabited

/-- Where one byte of an access lies after translation (R196, R284, R400, R413). -/
inductive Tgt where
  /-- A byte of this device's banks, by bank location. -/
  | home (key : Nat)
  /-- A byte of a fabric-shared page of this device under the access's ASID. -/
  | shared (key : Nat) (pa : Nat) (asid : Nat)
  /-- A byte of a team's allocation. -/
  | spad (team off : Nat)
  /-- A byte reached through window 0xE of another core, or of another team, by a context. -/
  | win (core off asid : Nat)
  /-- A byte of another device, by local address there, for a context; `shared` marks a fabric-shared page. -/
  | remote (dev addr asid : Nat) (shared : Bool)
deriving DecidableEq, Repr, Inhabited

/-- The type of an atomic's element (R240). -/
inductive AtomTy where
  | int (w : Nat) (nat : Bool)
  | f32 | f16 | bf16
deriving DecidableEq, Repr, Inhabited

/-- One element of an atomic or near-memory command: operation, type, operand, and the expected value of a compare-and-swap (R239, R241). -/
structure AtomArg where
  op : AtomOp
  ty : AtomTy
  x : Nat
  expect : Option Nat
deriving DecidableEq, Repr, Inhabited

/-- What an entry of a group's store queue does when it is performed (R250). -/
inductive SQOp where
  | bytes (cells : List (Tgt × Byte)) (va : Word64) (size : Nat)
  | put (tgt : Tgt) (va : Word64) (data : List Byte)
  | tfill (first n : Nat)
  | tempty (first n : Nat)
  | atomic (elems : List (Tgt × AtomArg)) (va : Word64)
  | copyStart (chan : Nat) (data : Word64)
  | template (off : Nat) (data : Word64)
  | bankStart (bank : Nat) (rec : Word64) (aperture : Word64)
  | mailbox (bank w : Nat) (data : Word64) (aperture : Word64)
  | clean (line : Nat)
  | flush (line : Nat)
  | flag (cells : List (Tgt × Byte)) (va : Word64)
  | flit (core wbase rx : Nat) (v : Word64) (sendReg : Nat)
deriving DecidableEq, Repr

/-- An entry of the store queue, numbered in the group's order; `st` or `fab` covers the entry (R224). -/
structure SQEntry where
  id : Nat
  op : SQOp
  release : Bool
  scope : Scope
  st : Bool
  fab : Bool
  inRegion : Bool
deriving DecidableEq, Repr

/-- A part of a store that its core already observes, and with `die` every agent of its compute die, before its home does (R221, R250, R251): its operation, its bank location and its bytes. -/
structure Posted where
  team : Nat
  gid : Nat
  id : Nat
  core : Nat
  die : Bool
  key : Nat
  bytes : List Byte
deriving DecidableEq, Repr, Inhabited

/-- A return-free near-memory command in flight (R245, R303): its operation number and the elements still to apply; with none left it has been acknowledged. -/
structure NearCmd where
  id : Nat
  elems : List (Tgt × AtomArg)
deriving DecidableEq, Repr, Inhabited

/-- A packet of a remote operation that is not yet acknowledged (R401, R398): destination and packet number, the path, the operation's number, and whether its acknowledgement counts on `near` and on `pathack`. -/
structure RemoteOp where
  dst : Nat
  seq : Word32
  path : Nat
  id : Nat
  near : Bool
  pathack : Bool
  /-- The address that a refusal reports (R205). -/
  va : Word64
deriving DecidableEq, Repr, Inhabited

/-- An open fabric region (R407): its checkpoint, its handler and the held items. -/
structure Region where
  serial : BitVec 16
  cs : Vector Word64 64
  cv : List (Nat × VWord)
  cvl : Word64
  cvtype : Word64
  cemask : Word64
  cfmt : Word64
  path : Bool
  depth : Nat
  handler : Word64
  hdr : Word64
  items : List SQEntry
  staged : Bool
  /-- The stage packets that are not yet acknowledged, by destination and packet number (R409). -/
  awaiting : List (Nat × Word32)
  /-- A failure from outside that waits for the path's boundary (R410). -/
  doomed : Option RegionFailure
  /-- The remote items in the parts that are staged and committed one after another, each under a serial of its own (R260, R409). -/
  phases : List (BitVec 16 × List SQEntry)
deriving DecidableEq, Repr

/-- The registers and private state of a group (R13), or of a bank core, whose VLEN is 512 (R286). -/
structure Hart where
  s : Vector Word64 64
  v : Vector VWord 32
  m : Vector MWord 8
  held : BitVec 4
  vl : Word64
  vtype : Word64
  slimit : Word64
  sbase : Word64
  seed : Word64
  spbase : Word64
  tcause : Word64
  tval : Word64
  epc : Word64
  fcause : Word64
  asid : Word64
  prio : Word64
  pathack : Vector Word64 4
  gens : Vector Word32 64
  sys : Bool
  /-- The operations that the counters of R34 count, oldest first, each with its number and whether it is complete; a counter's value is the length (R256). -/
  ledger : Vector (List (Nat × Bool)) 8
  /-- How many operations each counter has credited since the group began. -/
  credited : Vector Nat 8
  nextOp : Nat
  p0 : Path
  p1 : Path
  recs : List DivRec
  loopHead : Option Word64
  pend : Vector (Option (BitVec 32)) 16
  causes : List BCause
  lost : Nat
  sq : List SQEntry
  /-- Ordered flags that the sending port holds, oldest first (R402). -/
  flags : List SQEntry
  /-- The parts of committed regions whose commit packets are still to go (R260, R409). -/
  commits : List (BitVec 16 × List SQEntry)
  near : List NearCmd
  efr : Word64
  send : Vector (Option Word64) 4
  region : Option Region
  remote : List RemoteOp
  arrived : List ((Nat × Nat) × Byte)
  asked : List (Nat × Nat)
  /-- The 64-byte granules of other devices whose read was refused or met poisoned data (R404). -/
  bad : List ((Nat × Nat) × Cause)
  role : Nat
  /-- The path slot that a trap of the other path has stopped until ERET (R97, R362). -/
  stopOther : Option Bool
  /-- The quadrant of the group's core (R82). -/
  quad : Nat
  live : Bool
  evicted : Bool
  /-- It is to be evicted at its next clause boundary (R371). -/
  evictAsked : Bool
deriving DecidableEq, Repr

/-- A presence tag (R207). -/
inductive Tag where
  | empty | full | poison | never
deriving DecidableEq, Repr, Inhabited

/-- A named barrier (R274). -/
structure Barrier where
  cfg : Word64
  a : Nat
  ph : BitVec 32
deriving DecidableEq, Repr, Inhabited

/-- A role of a team (R85, R89). -/
structure Role where
  producer : Bool
  groups : Nat
  slots : Nat
  budget : Nat
  entry : Word64
  lent : Bool
deriving DecidableEq, Repr, Inhabited

/-- An accumulator tile (R171, R175): elements by row × 16 + column, identifiers by row, rank values by row × 64 + column; the token's holder, none being the engine. -/
structure Tile where
  el : AMap Nat Word32
  rid : AMap Nat (BitVec 12)
  rank : AMap Nat Word32
  token : Option Nat
deriving DecidableEq, Repr, Inhabited

/-- A value: a NaN, an infinity, or a finite value of magnitude m × 2^e. With `more` the magnitude lies strictly between m × 2^e and (m + 1) × 2^e: a quotient or a root, whose m has at least 64 bits. -/
inductive FVal where
  | nan
  | inf (neg : Bool)
  | fin (neg : Bool) (m : Nat) (e : Int) (more : Bool)
deriving DecidableEq, Repr, Inhabited

/-- One row of an issued instruction, with the operands that it took at issue (R170): the products' A values by depth and B values by column and depth, what an adapter row needs (R178), loaded patterns, or where a drain goes; `seed` sets generators behind the draws of earlier rows (R193). -/
inductive RowOp where
  | mma (z : Bool) (a : List (Nat × FVal)) (b : List (Nat × List FVal)) (adapter seg k : Nat)
  | fin (src : Nat) (cols : List Nat) (adapter seg : Nat) (clr : Bool)
  | zero
  | load (cells : List (Nat × Nat)) (f : BitVec 2)
  | drain (cells : List (Nat × Tgt)) (f : BitVec 2)
  | seed (x : Word32)
deriving DecidableEq, Repr

/-- A row of an issued instruction, waiting to be committed: tile, row index, operation, the `sfmt` at issue, the address of the word, and the batch it belongs to (none before its MFENCE). -/
structure IssuedRow where
  tile : Nat
  row : Nat
  op : RowOp
  sfmt : Word64
  addr : Word64
  batch : Option Nat
  queued : Bool
deriving DecidableEq, Repr

/-- An open batch (R173): its number and the groups that count it. -/
structure Batch where
  uid : Nat
  n : Nat
  groups : Word32
  /-- The adapters that its members refer to (R184). -/
  adapters : List Nat
deriving DecidableEq, Repr, Inhabited

/-- How the sequencer stands: not started, running, stopped by MEND or at the end of its team, stopped by a fault, or saved by an eviction (R162, R164, R192, R371). -/
inductive SeqState where
  | absent | running | stopped | faulted | saved
deriving DecidableEq, Repr, Inhabited

/-- A pending MBARA.c (R191): the barrier, and the batches that must close first. -/
structure MArrive where
  barrier : Nat
  batches : List Nat
deriving DecidableEq, Repr, Inhabited

/-- The matrix sequencer of a team (R162). -/
structure Seq where
  st : SeqState
  q : Vector Word64 16
  spc : Word64
  sfmt : Word64
  binding : Vector (BitVec 5) 4
  adir : Word64
  gens : Vector Word32 16
  clause : Option Clause
  stalled : Bool
  rows : List IssuedRow
  batches : List Batch
  nextBatch : Nat
  /-- The adapters that the members issued since the last MFENCE refer to (R184). -/
  members : List Nat
  joined : Vector (Option (BitVec 32)) 16
  arrivals : List MArrive
  fault : Option (Cause × Word64)
  /-- The phase that a stalled MBARW with no earlier MBARA waits for (R191). -/
  awaits : Option (BitVec 32)
  stopAsked : Bool
  evictAsked : Bool
deriving DecidableEq, Repr

/-- How far a copy has come (R269, R272, R273). -/
inductive CopyState where
  | queued | running
  | failed (cause : Cause) (tval : Word64) (step : Nat)
deriving DecidableEq, Repr, Inhabited

/-- A copy on a channel (R261 to R273), with its descriptor and template as it took them. -/
structure Copy where
  team : Nat
  id : Nat
  gid : Nat
  tslot : Nat
  doff : Nat
  desc : BitVec 256
  tmpl : BitVec 512
  aperture : Word64
  sys : Bool
  st : CopyState
  next : Nat
deriving DecidableEq, Repr, Inhabited

/-- A gather or scatter in flight (R280): rows still to move, each with its element, global address and allocation offset. -/
structure Gather where
  job : Nat
  id : Nat
  gid : Nat
  sys : Bool
  scat : Bool
  size : Nat
  rows : List (Nat × Word64 × Nat)
  /-- The destination of the row that was sent last. -/
  last : Word64
deriving DecidableEq, Repr, Inhabited

/-- A raise of a synchronisation word that waits to be applied (R277): the engine that makes it, and the packets of its row. -/
structure Raise where
  off : Nat
  n : Nat
  key : Nat
  pkts : List (Nat × Word32)
deriving DecidableEq, Repr, Inhabited

/-- Who has sent a read: a path of a group. -/
abbrev ReadId := Nat × Nat × Bool

/-- A read of a line that is in flight in the mesh (R389): the entries that it has made in the tables of the routers on its way, each with the reads that have joined it there, and whether it has itself joined another and goes no further. -/
structure MeshRead where
  reader : ReadId
  line : Nat
  entries : List (Nat × List ReadId)
  joined : Bool
deriving DecidableEq, Repr, Inhabited

/-- Who injected a packet of the mesh (R386). -/
inductive Port where
  | group (team gid : Nat)
  | engine (team : Nat)
  | fold (core : Nat)
  | device (dev : Nat)
deriving DecidableEq, Repr, Inhabited

/-- What a packet of the mesh carries (R208, R205, R353, R311 to R324); `control` is the scope of a put or a flit, as a bounce ring keeps it (R372). A marker message carries its edge's gate bit, which the gate test needs (R321). -/
inductive MsgBody where
  | put (off : Nat) (asid : Nat) (control : Nat) (data : List Byte) (marks : List Nat) (st : Option Nat) (remote : Option FabPkt)
  | flit (wbase rx asid : Nat) (v : Word64) (sendReg id control : Nat)
  | refusal (cause : Cause) (tval : Word64)
  | start (root entry : Nat) (serial : BitVec 32) (graph : Nat)
  | marker (root entry : Nat) (serial : BitVec 32) (graph : Nat) (value : BitVec 256) (hops tindex : Nat) (gate : Bool) (sender : Nat)
  | notice (root entry : Nat) (serial : BitVec 32) (graph : Nat) (target : Option Nat)
  | abort (root entry : Nat) (serial : BitVec 32) (graph : Nat)
deriving DecidableEq, Repr

/-- What a packet in a bounce ring does when it is replayed (R211, R372). A load or an atomic with return names the group and the keys that its answer goes to. -/
inductive BounceOp where
  | put (data : List Byte) (marks : List Nat)
  | store (data : List Byte) (bad : Bool)
  | atomic (args : List AtomArg) (asker : Option (Nat × Nat × Nat))
  | load (n : Nat) (asker : Option (Nat × Nat))
  | reply (gid : Nat) (cells : List ((Nat × Nat) × Byte)) (bad : List ((Nat × Nat) × Cause))
  | raise (n : Nat)
  | msg (m : MsgBody)
deriving DecidableEq, Repr, Inhabited

/-- A packet in a team's bounce ring: the bytes ever written before it, its allocation offset, its sender, the packet of another device that waits for its answer, and what it does. It has counted as delivered when it joined (R381). -/
structure Bounced where
  pos : Nat
  off : Nat
  src : Port
  remote : Option FabPkt
  op : BounceOp
deriving DecidableEq, Repr, Inhabited

/-- A team (R81, R84) with its resources. -/
structure Team where
  live : Bool
  core : Nat
  slot : Nat
  asid : Nat
  prio : Nat
  tid : Nat
  launch : Nat
  node : Nat
  feat : Word64
  priv : Nat
  stack : Nat
  spad : Nat
  accs : Nat
  grid : Nat
  roles : List Role
  groups : Nat
  pbase : Nat
  wbase : Nat
  absent : Bool
  mem : Mem
  marks : List Nat
  tags : AMap Nat Tag
  table : AMap Nat (BitVec 48 × Byte)
  bars : Vector Barrier 16
  tmpl : Mem
  cb : AMap (Nat × Bool) (BitVec 256)
  cbVisible : BitVec 8
  acc : AMap Nat Tile
  seq : Seq
  rx : Vector (List Word64) 4
  items : List Word32
  itemsClosed : Bool
  result : Word32
  gathers : List Gather
  nextJob : Nat
  raises : List Raise
  /-- Barrier arrivals of copies that have ended, each with the group's operation whose fall it follows (R273). -/
  owed : List (Nat × Nat × Nat)
  /-- The allocation offsets that a copy descriptor or SYNCW has named as synchronisation words (R277; log 7). -/
  syncs : List Nat
  serial : Option Word32
  ringPaused : Bool
  /-- Bytes of other devices that the team's engines have received, by device and address, and the blocks that they have asked for (R399). -/
  arrived : List ((Nat × Nat) × Byte)
  asked : List (Nat × Nat)
  /-- The 64-byte granules of other devices whose read was refused or met poisoned data (R404). -/
  bad : List ((Nat × Nat) × Cause)
  /-- Packets of the team's engines that are not yet acknowledged: destination, packet number, and which engine sent it. -/
  sent : List (Nat × Word32 × Nat)
  /-- The packets that its bounce ring holds, oldest first, and the rings whose failure has been logged (R211, R438). -/
  bounced : List Bounced
  ringLogged : List Word64
deriving DecidableEq, Repr

/-- An entry of a port translation table (R204, R373). -/
structure PortEntry where
  ring : Word64
  asid : Nat
  wbase : Nat
  size : Nat
  pbase : Nat
  absent : Bool
  valid : Bool
  team : Nat
deriving DecidableEq, Repr, Inhabited

/-- A cached translation (R365): ASID, virtual page number in units of 64 KiB, pages of 64 KiB that it covers, and the leaf. -/
structure TlbEntry where
  asid : Nat
  page : Nat
  span : Nat
  leaf : Word64
deriving DecidableEq, Repr, Inhabited

/-- A segment of the adapter cache (R177): team, adapter, up or down, segment number, and its bytes. -/
structure AdpSeg where
  team : Nat
  adapter : Nat
  up : Bool
  seg : Nat
  bytes : List Byte
deriving DecidableEq, Repr, Inhabited

/-- A directory entry held beside the cache (R176, R177). -/
structure AdpDir where
  team : Nat
  adapter : Nat
  down : Word64
  up : Word64
  alpha : Word32
  rank : Nat
deriving DecidableEq, Repr, Inhabited

/-- A segment fetch in flight (R177, R185, R195); with `room` it holds an entry of the cache, and without it waits for one. -/
structure AdpFetch where
  team : Nat
  adapter : Nat
  up : Bool
  seg : Nat
  room : Bool
deriving DecidableEq, Repr, Inhabited

/-- What a wave does (R320, R323, R327, R328). -/
inductive WaveSpec where
  | gmatch (tval tmask : BitVec 16) (v1 v2 : Word32) (ctl : BitVec 21)
  | gprop (l : GpLit) (a b g : BitVec 6) (x y : Bool)
deriving DecidableEq, Repr, Inhabited

/-- A wave's status (R325). -/
inductive WaveStatus where
  | held | running | ended | aborted | faulted
deriving DecidableEq, Repr, Inhabited

/-- An entry of a root's wave table (R311, R317): the wave with its sweeps. -/
structure Wave where
  serial : BitVec 32
  team : Nat
  gid : Nat
  spec : WaveSpec
  status : WaveStatus
  drop : Option Nat
  aborting : Bool
  asked : List Nat
  sweep : Nat
  sumS : Nat
  sumR : Nat
  sumA : Bool
  lastS : Nat
  lastR : Nat
deriving DecidableEq, Repr, Inhabited

/-- What a fold keeps for one live wave (R315, R316, R324). -/
structure WaveCount where
  root : Nat
  entry : Nat
  serial : BitVec 32
  sent : BitVec 48
  recv : BitVec 48
  active : Bool
  drop : Option Nat
  aborted : Bool
deriving DecidableEq, Repr, Inhabited

/-- A bound fold (R306, R307), with the root's member set and wave table where it is the root fold. -/
structure Fold where
  team : Nat
  asid : Nat
  graph : Nat
  root : Nat
  nbase : Nat
  sbase : Nat
  ebase : Nat
  ncount : Nat
  ecount : Nat
  counts : List WaveCount
  members : List Nat
  waves : List (Option Wave)
  nextSerial : BitVec 32
deriving DecidableEq, Repr, Inhabited

/-- A packet in flight in the mesh: its source port, its destination core and its body; a refused one waits at its sending port (R210). -/
structure Msg where
  src : Port
  core : Nat
  body : MsgBody
  refused : Bool
deriving DecidableEq, Repr

/-- A put in a core's hold buffer (R210). -/
structure Held where
  team : Nat
  tile : Nat
  src : Port
  data : List Byte
  marks : List Nat
  st : Option Nat
  remote : Option FabPkt
  control : Nat
deriving DecidableEq, Repr

/-- The state of a core that is not a team's. -/
structure Core where
  ports : List PortEntry
  hold : List Held
  l1 : List (Nat × List Byte)
  tlb : List TlbEntry
  segs : List AdpSeg
  dirs : List AdpDir
  fetches : List AdpFetch
  /-- The team whose sequencer last issued a product, from which the rotation goes on (R170). -/
  lastSeq : Nat
  spare : Option (Nat × Nat)
  fold : Option Fold
  /-- The copies of the 32 channels, in the order in which they reached the aperture (R261, R269). -/
  chans : AMap Nat (List Copy)
deriving DecidableEq, Repr, Inhabited

/-- The region of a bank-core job (R291): virtual base, pages of 64 KiB, first bank offset, and the pages with the full/empty attribute. -/
structure BankRegion where
  va : Word64
  pages : Nat
  b0 : Nat
  fe : List Nat
deriving DecidableEq, Repr, Inhabited

/-- A suspended bank-core job (R371). -/
structure BankJob where
  hart : Hart
  region : BankRegion
  owner : Nat
  mail : Vector Word64 32
  prio : Nat
  job : Option (Nat × Nat)
deriving DecidableEq, Repr

/-- The state of a bank core beside its registers (R290 to R294). -/
structure Bank where
  running : Bool
  cause : BitVec 7
  owner : Nat
  value : Word32
  mail : Vector Word64 32
  region : BankRegion
  prio : Nat
  job : Option (Nat × Nat)
  /-- Its last instruction ended a chunk: the job stands at a chunk boundary (R289). -/
  chunk : Bool
  suspended : Option BankJob
deriving DecidableEq, Repr

/-- A tile operand record (R341). -/
structure TileRec where
  out : Bool
  peer : Nat
  ptid : Nat
  count : Nat
  first : Nat
deriving DecidableEq, Repr, Inhabited

/-- A launch-table node as it was read (R339). -/
structure Node where
  pred : Nat
  kind : Nat
  tendered : Bool
  prio : Nat
  formula : Nat
  succ : List Nat
  code : Word64
  args : Vector Word64 15
  bars : Vector Word64 16
  ndone : Word64
  report : Word64
  tiles : List TileRec
  kparm : BitVec 128
  adapters : List Nat
deriving DecidableEq, Repr

/-- A code object header as it was read (R340). -/
structure Header where
  feat : Word64
  stream : Word64
  grid : Nat
  spad : Nat
  accs : Nat
  gang : Bool
  roles : List Role
  tmpl : Word64
  ntmpl : Nat
  priv : Nat
  stack : Nat
deriving DecidableEq, Repr, Inhabited

/-- A node's state (R343). -/
inductive NodeStatus where
  | waiting | ready | tendered | running | done | failed | skipped
deriving DecidableEq, Repr, Inhabited

/-- A live node with its progress (R343, R347). -/
structure NodeRun where
  node : Node
  header : Header
  status : NodeStatus
  counter : Nat
  cause : BitVec 7
  result : Word32
  placed : Nat
  ended : Nat
  cancelled : Nat
  trapped : Bool
  /-- A placement of it was refused, since the context's record was not valid (R360). -/
  refused : Bool
  produced : List (Nat × Nat)
  /-- When it entered the ready pool: the order of R345. -/
  entered : Nat
deriving DecidableEq, Repr

/-- A live launch (R338, R348) with the address of its command, or the record of one TENDER (R355). -/
structure Launch where
  id : Nat
  command : Word64
  queue : Option Nat
  asid : Nat
  tag : Word32
  table : Word64
  status : Word64
  doneAddr : Word64
  nodes : List NodeRun
  tenderer : Option (Nat × Nat)
  serial : Word32
deriving DecidableEq, Repr

/-- A Drover thread's state (R338). -/
inductive DroverState where
  | idle | fetch | check | full
deriving DecidableEq, Repr, Inhabited

/-- A Drover thread with the command that it holds (R335, R338). -/
structure Drover where
  st : DroverState
  cmd : BitVec 512
  /-- The nodes of a command that has passed its checks and waits in FULL. -/
  held : List NodeRun
deriving DecidableEq, Repr, Inhabited

/-- A queue descriptor (R333). -/
structure Queue where
  windex : Word32
  rindex : Word32
  asid : Nat
  ridx : Word64
  ring : Word64
  maxprio : Nat
  lsize : Nat
deriving DecidableEq, Repr, Inhabited

/-- Teams that wait for a core (R345), or tasks in the tender queue (R349): those of a node from `tid` on, `left` of them, the first with its serial; `order` is the time of their entry. An awarded task names its core and the first unit of the allocation that is reserved for it (R350). -/
structure ReadyTeam where
  launch : Nat
  node : Nat
  tid : Nat
  left : Nat
  prio : Nat
  order : Nat
  serial : Word32
  withdrawals : Nat
  awarded : Option (Nat × Nat)
deriving DecidableEq, Repr, Inhabited

/-- The open bid window (R350): the task, its bids as core and cost, the cycle in which cores sample next, and the length it opened with. -/
structure Window where
  task : ReadyTeam
  bids : List (Nat × Nat)
  cycle : Nat
  length : Nat
  winner : Option Nat
deriving DecidableEq, Repr, Inhabited

/-- The Bellwether (R349, R350, R356): a task that has returned to the head of the queue stands apart, and waits for the end of a team where no core bid for it. -/
structure Bellwether where
  serial : Word32
  queue : List ReadyTeam
  head : Option ReadyTeam
  stalled : Bool
  window : Option Window
  tables : AMap Nat Word64
  length : Nat
deriving DecidableEq, Repr, Inhabited

/-- A staged line at a target device (R409). -/
structure Staged where
  src : Nat
  core : Nat
  gid : Nat
  region : BitVec 16
  /-- The I/O die that keeps it. -/
  die : Nat
  pkt : FabPkt
deriving DecidableEq, Repr

/-- A running collective (R415 to R417): its issuing group with the number of its operation on `coll`, or the node that started it; the device numbers by rank; this rank's contribution; and, once it has finished, the status and the peer of its status word. -/
structure Coll where
  id : Nat
  team : Nat
  gid : Nat
  op : Nat
  launch : Option (Nat × Nat)
  asid : Nat
  sys : Bool
  desc : BitVec 512
  peers : List Nat
  /-- Its bytes, each with the mark of poisoned data. -/
  input : List (Byte × Bool)
  status : Option (Nat × Nat)
  /-- Its status word is on its way. -/
  wrote : Bool
deriving DecidableEq, Repr, Inhabited

/-- A piece of another rank's contribution: source, ASID, identifier, offset, and its bytes with their poison (R415, R398; the layout is log 12). -/
structure CollPiece where
  src : Nat
  asid : Nat
  id : Nat
  off : Nat
  bytes : List (Byte × Bool)
deriving DecidableEq, Repr, Inhabited

/-- Who sent a read or an atomic with return to another device: a group, an engine of a team, or the device itself, for one of its own works. -/
inductive Asker where
  | group (team gid : Nat)
  | engine (team key : Nat)
  | device (key : Nat)
deriving DecidableEq, Repr, Inhabited

/-- A store to one line of another device's fabric-shared memory (R413, R414): the packet that will write it, whose number is taken, the line, the bytes by their place in it, whether they are poisoned, and whether the line has been asked for. -/
structure FsJob where
  pkt : FabPkt
  line : Nat
  cells : List (Nat × Byte)
  bad : Bool
  asked : Bool
deriving DecidableEq, Repr

/-- The fabric port (R395 to R406). -/
structure Fabric where
  device : BitVec 10
  routes : AMap Nat Word64
  down : List Nat
  seqOut : AMap Nat Word32
  applied : List (Nat × Word32)
  wire : List FabPkt
  unacked : List FabPkt
  staging : List Staged
  colls : List Coll
  pieces : List CollPiece
  nextRegion : BitVec 16
  /-- Who sent each read or atomic with return that is not yet answered: destination, packet number, asker. -/
  asks : List (Nat × Word32 × Asker)
  /-- Packets of combined atomics whose run is not whole yet (R405). -/
  runs : List FabPkt
  /-- Packets that wait for a commit of their group, or for a fabric-shared line that another device holds (R409, R414). -/
  parked : List FabPkt
  /-- What the device itself has received of other devices, the blocks that it has asked for, and the granules that it may not use. -/
  arrived : List ((Nat × Nat) × Byte)
  asked : List (Nat × Nat)
  bad : List ((Nat × Nat) × Cause)
  fsJobs : List FsJob
  /-- Fabric-shared lines of this device that another device holds between its read and its write: device and line (R414). -/
  fsHeld : List (Nat × Nat)
  /-- Aborts of collectives that this device has not started: device, ASID, identifier; and the collectives that it has completed (R417). -/
  aborts : List (Nat × Nat × Nat)
  ended : List (Nat × Nat)
  /-- The fabric manager has written the device number (R419). -/
  numbered : Bool
deriving DecidableEq, Repr, Inhabited

/-- How far the boot ROM has come (R419). -/
inductive BootStage where
  | reset | trained | drover | service | manager | awaitManager | open
  | failed (stage : Nat)
deriving DecidableEq, Repr, Inhabited

/-- An incoming operation of Ultra Ethernet that waits for other devices (R422). -/
inductive UeWork where
  /-- A read: the device's key, the queue, the address and the length. -/
  | read (key q addr len : Nat)
  /-- A write, with those of its packets that were sent: destination and number. -/
  | write (pkts : List (Nat × Word32))
  /-- A command for a queue's ring: with the write index behind it and its packets, once it is on its way. -/
  | send (q : Nat) (cmd : BitVec 512) (sent : Option (Word32 × List (Nat × Word32)))
deriving DecidableEq, Repr, Inhabited

/-- The resident service's registers and the service mechanisms (R419 to R428). -/
structure Service where
  boot : BootStage
  digests : List (BitVec 256)
  faultPin : Bool
  ctxBase : Word64
  sidecar : Word64
  keys : AMap Nat (BitVec 512)
  logBase : Word64
  logSize : Word64
  logHead : Word64
  log : List (Byte × Byte × BitVec 16 × Word32 × Word64 × Word64)
  haltDbg : List Nat
  dbgRecord : Option (Word64 × Nat × Nat × Word64)
  muster : Word64
  mustering : Option Word64
  frozen : Bool
  /-- The clock of R3 in MHz, and whether it is being lowered (R428). -/
  clock : Nat
  throttling : Bool
  oneTime : Nat
  quote : List Byte
  ueDropped : Nat
  ueReply : List Byte
  ueWorks : List UeWork
  faultSerial : AMap Nat Word32
deriving DecidableEq, Repr, Inhabited

/-- Whose registers: a group's or a bank core's. -/
inductive HartId where
  | group (team gid : Nat)
  | bank (b : Nat)
deriving DecidableEq, Repr, Inhabited

/-- A Shepherd hart beside its x registers (R2, R336, R337): its pc, whether it is in machine mode, the trap registers of RISC-V, the words that it has yet to execute of those that the spec gives a meaning, next first, and its stores to memory that are not yet performed at `.dev`, oldest first, by bank location. -/
structure Shepherd where
  pc : Word64
  machine : Bool
  mtvec : Word64
  mepc : Word64
  mcause : Word64
  mtval : Word64
  mpp : Bool
  words : List Word32
  stores : List (Nat × List Byte)
deriving DecidableEq, Repr, Inhabited

/-- The state of the device. -/
structure State where
  /-- The model's own: which agent the next step runs. -/
  cur : Focus
  /-- The model's own: the events and agent steps that come next, in order. -/
  agenda : List Instr
  /-- The model's own: the choices that the permitted alternatives of the spec leave, taken in order; 0 when empty. -/
  oracle : List Nat
  /-- The model's own: a counter that free values and waiting orders are taken by. -/
  tick : Nat
  harts : AMap HartId Hart
  teams : AMap Nat Team
  nextTeam : Nat
  cores : AMap Nat Core
  banks : AMap Nat Bank
  /-- Bank bytes as their home serves them, by bank location (R213, R284). -/
  mem : Mem
  /-- Lines that the home die cache holds modified, with the bytes that the bank still holds (R300, R301). -/
  dirty : List (Nat × List Byte)
  /-- Poisoned 64-byte granules by bank location / 64 (R214). -/
  poisoned : List Nat
  /-- Result rows that are FULL, by bank location / 1024 (R285). -/
  fullRows : List Nat
  /-- Parts of stores that some agents observe before their home does, oldest first (R251). -/
  posted : List Posted
  /-- Reads of this device's memory that are in flight (R389). -/
  reads : List MeshRead
  net : List Msg
  queues : AMap Nat Queue
  drovers : AMap Nat Drover
  launches : AMap Nat Launch
  nextLaunch : Nat
  ready : List ReadyTeam
  /-- Wait packets on their way to a Drover thread: queue and write index (R337). -/
  waits : List (Nat × Word32)
  bell : Bellwether
  fabric : Fabric
  service : Service
  /-- The Shepherd harts' shasid (R336). -/
  shasid : AMap Nat Word64
  /-- The integer registers x0 to x31 of the Shepherd harts, by hart × 32 + register, for the operands and the result of SUBMIT (R336). -/
  xregs : AMap Nat Word64
  shepherds : AMap Nat Shepherd
deriving DecidableEq, Repr

/-- A path at rest: no lanes, nothing running. -/
def Path.idle : Path :=
  { active := false, lanes := 0, pc := 0, emask := 0, fmt := 0, latches := Vector.replicate 4 default,
    clause := none, susp := none, since := 0, grant := none, stalled := false, arrived := false, replay := false,
    aging := 0, yielded := false, issuing := false, part := [] }

/-- A path that holds all 64 lanes, as a group's first path does (R15). -/
def Path.first : Path := { Path.idle with active := true, lanes := BitVec.allOnes 64, emask := BitVec.allOnes 64 }

/-- The generator states as if 0 had been written to `seed` (R152): lane l holds (l + 1) × 0x9E37_79B9 modulo 2^32, and 1 where that is 0. -/
def genInit (l : Nat) : Word32 :=
  let x := BitVec.ofNat 32 ((l + 1) * 0x9E3779B9)
  if x == 0 then 1 else x

/-- A group's registers at its first instruction with no launch argument (R15, R17): four slots held. -/
def Hart.reset : Hart :=
  { s := Vector.replicate 64 0, v := Vector.replicate 32 0, m := Vector.replicate 8 0, held := 0xF,
    vl := 0, vtype := 0, slimit := 0, sbase := 0, seed := 0, spbase := 0, tcause := 0, tval := 0, epc := 0,
    fcause := 0, asid := 0, prio := 0, pathack := Vector.replicate 4 0, gens := Vector.ofFn fun l => genInit l.val,
    sys := false, ledger := Vector.replicate 8 [], credited := Vector.replicate 8 0, nextOp := 0, p0 := Path.first, p1 := Path.idle,
    recs := [], loopHead := none, pend := Vector.replicate 16 none, causes := [], lost := 0, sq := [], flags := [], commits := [], near := [],
    efr := 0, send := Vector.replicate 4 none, region := none, remote := [], arrived := [], asked := [], bad := [], role := 0,
    stopOther := none, quad := 0, live := false, evicted := false, evictAsked := false }

/-- A sequencer that no stream address has started (R162). -/
def Seq.reset : Seq :=
  { st := .absent, q := Vector.replicate 16 0, spc := 0, sfmt := 0, binding := #v[0, 1, 2, 3], adir := 0,
    gens := Vector.ofFn fun l => genInit l.val, clause := none, stalled := false, rows := [], batches := [],
    nextBatch := 0, members := [], joined := Vector.replicate 16 none, arrivals := [], fault := none, awaits := none,
    stopAsked := false, evictAsked := false }

/-- A team key that no team holds. -/
def Team.vacant : Team :=
  { live := false, core := 0, slot := 0, asid := 0, prio := 0, tid := 0, launch := 0, node := 0, feat := 0, priv := 0,
    stack := 0, spad := 0, accs := 0, grid := 1, roles := [], groups := 0, pbase := 0, wbase := 0, absent := false,
    mem := [], marks := [], tags := [], table := [], bars := Vector.replicate 16 ⟨0, 0, 0⟩, tmpl := [], cb := [],
    cbVisible := 0, acc := [], seq := Seq.reset, rx := Vector.replicate 4 [], items := [], itemsClosed := false,
    result := 0, gathers := [], nextJob := 0, raises := [], owed := [], syncs := [], serial := Option.none,
    ringPaused := false, arrived := [], asked := [], bad := [], sent := [], bounced := [],
    ringLogged := [] }

/-- A core after the boot ROM has cleared its tables and caches (R419). -/
def Core.reset : Core :=
  { ports := [], hold := [], l1 := [], tlb := [], segs := [], dirs := [], fetches := [], lastSeq := 0, spare := none, fold := none,
    chans := [] }

/-- A bank core that has run no job (R294). -/
def Bank.reset : Bank :=
  { running := false, cause := 0, owner := 0, value := 0, mail := Vector.replicate 32 0, region := default, prio := 0,
    job := none, chunk := false, suspended := none }

/-- The Bellwether after reset (R356): W is 96 and every weight is 0. -/
def Bellwether.reset : Bellwether := { serial := 0, queue := [], head := none, stalled := false, window := none, tables := [], length := 96 }

/-- The fabric port before the fabric manager has written it (R395, R396; log 2). -/
def Fabric.reset : Fabric :=
  { device := 0, routes := [], down := [], seqOut := [], applied := [], wire := [], unacked := [],
    staging := [], colls := [], pieces := [], nextRegion := 0, asks := [], runs := [], parked := [], arrived := [], asked := [],
    bad := [], fsJobs := [], fsHeld := [], aborts := [], ended := [], numbered := false }

/-- The service mechanisms before the boot ROM has run (R419; log 2); the clock is that of R3. -/
def Service.reset : Service :=
  { boot := .reset, digests := [0, 0, 0], faultPin := false, ctxBase := 0, sidecar := 0, keys := [], logBase := 0,
    logSize := 0, logHead := 0, log := [], haltDbg := [], dbgRecord := none, muster := 0, mustering := none,
    frozen := false, clock := 2500, throttling := false, oneTime := 0, quote := [], ueDropped := 0, ueReply := [], ueWorks := [], faultSerial := [] }

/-- A Shepherd hart after reset: in machine mode; the spec gives no other value (log 46). -/
def Shepherd.reset : Shepherd := ⟨0, true, 0, 0, 0, 0, false, [], []⟩

/-- The device after reset: nothing is placed, no queue is mapped, and the boot ROM has yet to run (R419). -/
def State.reset : State :=
  { cur := ⟨.group, 0, 0, false, 0, 0⟩, agenda := [], oracle := [], tick := 0, harts := [], teams := [], nextTeam := 1,
    cores := [], banks := [], mem := [], dirty := [], poisoned := [], fullRows := [], posted := [], reads := [], net := [], queues := [],
    drovers := [], launches := [], nextLaunch := 1, ready := [], waits := [], bell := Bellwether.reset, fabric := Fabric.reset,
    service := Service.reset, shasid := [], xregs := [], shepherds := [] }

end Sys2Proof.Machine
end

