-- ==== Sys2Proof/Machine/Mem.lean ====
section
/-! DEFINITION. Tables and byte memories as lists: the value of a key, and reading and writing bytes in the canonical form. -/

namespace Sys2Proof.Machine

/-- The value of a key, or the default. -/
def mget {κ α : Type} [DecidableEq κ] (dflt : α) (k : κ) : List (κ × α) → α
  | [] => dflt
  | (k', v) :: m => if k' = k then v else mget dflt k m

/-- The value of a key, if one has been set. -/
def mfind {κ α : Type} [DecidableEq κ] (k : κ) : List (κ × α) → Option α
  | [] => none
  | (k', v) :: m => if k' = k then some v else mfind k m

/-- Sets the value of a key. -/
def mset {κ α : Type} [DecidableEq κ] (k : κ) (v : α) : List (κ × α) → List (κ × α)
  | [] => [(k, v)]
  | (k', v') :: m => if k' = k then (k, v) :: m else (k', v') :: mset k v m

/-- The element of a vector at an index, or the default beyond its end. -/
def vget {α : Type} {n : Nat} (v : Vector α n) (i : Nat) (dflt : α) : α := v[i]?.getD dflt

/-- The vector with one element replaced; unchanged beyond its end. -/
def vset {α : Type} {n : Nat} (v : Vector α n) (i : Nat) (x : α) : Vector α n := v.setIfInBounds i x

/-- The byte at an address. -/
def Mem.byte : Mem → Nat → Byte
  | [], _ => unlistedByte
  | (a, b) :: m, x => if a = x then b else if x < a then unlistedByte else Mem.byte m x

/-- Writes one byte and keeps the canonical form: an entry of the unlisted value is removed. -/
def Mem.put : Mem → Nat → Byte → Mem
  | [], x, v => if v = unlistedByte then [] else [(x, v)]
  | (a, b) :: m, x, v =>
    if a < x then (a, b) :: Mem.put m x v
    else if a = x then (if v = unlistedByte then m else (x, v) :: m)
    else if v = unlistedByte then (a, b) :: m else (x, v) :: (a, b) :: m

/-- The part of a memory at and above an address. -/
def Mem.from : Mem → Nat → Mem
  | [], _ => []
  | (a, b) :: m, x => if a < x then Mem.from m x else (a, b) :: m

/-- The n bytes from an address upward: each is `Mem.byte` of its address. -/
def Mem.read (m : Mem) (a : Nat) : Nat → List Byte
  | 0 => []
  | n + 1 => let m := m.from a; m.byte a :: Mem.read m (a + 1) n

/-- Puts bytes one after another from an address upward. -/
def Mem.puts (m : Mem) (a : Nat) : List Byte → Mem
  | [] => m
  | b :: bs => Mem.puts (m.put a b) (a + 1) bs

/-- Writes bytes from an address upward. -/
def Mem.write : Mem → Nat → List Byte → Mem
  | [], x, bs => Mem.puts [] x bs
  | (a, b) :: m, x, bs => if a < x then (a, b) :: Mem.write m x bs else Mem.puts ((a, b) :: m) x bs

/-- The number in n bytes, little-endian (R6). -/
def Mem.nat (m : Mem) (a n : Nat) : Nat := leNat (m.read a n)

/-- All entries of the memory lie above a bound, in rising order, and none has the unlisted value. -/
def Mem.above (lo : Nat) : Mem → Bool
  | [] => true
  | (a, b) :: m => decide (lo ≤ a) && b != unlistedByte && Mem.above (a + 1) m

/-- The canonical form of a memory. -/
def Mem.wf (m : Mem) : Bool := Mem.above 0 m

/-- The list with element i replaced by its image. -/
def modifyAt {α : Type} (f : α → α) : Nat → List α → List α
  | _, [] => []
  | 0, x :: xs => f x :: xs
  | i + 1, x :: xs => x :: modifyAt f i xs

/-- The list without element i. -/
def removeAt {α : Type} : Nat → List α → List α
  | _, [] => []
  | 0, _ :: xs => xs
  | i + 1, x :: xs => x :: removeAt i xs

/-- Adds an element to a list that holds each element once. -/
def insertNew {α : Type} [DecidableEq α] (x : α) (xs : List α) : List α := if x ∈ xs then xs else x :: xs

/-- The numbers of aligned blocks of a size that the n bytes from a touch. -/
def blocksOf (size a n : Nat) : List Nat :=
  if n = 0 then [] else (List.range ((a + n - 1) / size - a / size + 1)).map (a / size + ·)

/-- The numbers of aligned blocks that lie wholly in the n bytes from a. -/
def blocksIn (size a n : Nat) : List Nat :=
  (blocksOf size a n).filter fun g => decide (a ≤ g * size) && decide ((g + 1) * size ≤ a + n)

/-- The sum of a list, exact. -/
def sumNat (xs : List Nat) : Nat := xs.foldl (· + ·) 0

/-- How many of the low n bits are set. -/
def popcount (x : Nat) : Nat → Nat
  | 0 => 0
  | n + 1 => x % 2 + popcount (x / 2) n

end Sys2Proof.Machine
end

