-- ==== Sys2Proof/Machine/Space.lean ====
section
/-! DEFINITION. Where bytes lie and how they change: the views of R284, homes and die caches (R213, R300), poison (R203, R214), fabric-shared lines (R414), the scratchpad with its synchronisation words (R277), context records (R360), page tables (R364, R365) and the error log (R425). -/

namespace Sys2Proof.Machine

/-! ## The parts of the state -/

/-- The identity of the focus hart. -/
def State.hid (s : State) : HartId :=
  match s.cur.unit with
  | .bank => .bank s.cur.bank
  | _ => .group s.cur.team s.cur.gid
/-- Does the focus lie on a bank core? -/
def State.onBank (s : State) : Bool := s.cur.unit == .bank
/-- The registers of a group or bank core. -/
def State.hartOf (s : State) (i : HartId) : Hart := mget Hart.reset i s.harts
def State.setHartOf (s : State) (i : HartId) (h : Hart) : State := { s with harts := mset i h s.harts }
/-- The registers of the focus. -/
def State.hart (s : State) : Hart := s.hartOf s.hid
def State.setHart (s : State) (h : Hart) : State := s.setHartOf s.hid h
def State.teamOf (s : State) (k : Nat) : Team := mget Team.vacant k s.teams
def State.setTeamOf (s : State) (k : Nat) (t : Team) : State := { s with teams := mset k t s.teams }
/-- The team of the focus. -/
def State.team (s : State) : Team := s.teamOf s.cur.team
def State.setTeam (s : State) (t : Team) : State := s.setTeamOf s.cur.team t
def State.coreOf (s : State) (k : Nat) : Core := mget Core.reset k s.cores
def State.setCoreOf (s : State) (k : Nat) (c : Core) : State := { s with cores := mset k c s.cores }
def State.bankOf (s : State) (k : Nat) : Bank := mget Bank.reset k s.banks
def State.setBankOf (s : State) (k : Nat) (b : Bank) : State := { s with banks := mset k b s.banks }
/-- A path slot of a hart: false is slot 0. -/
def Hart.path (h : Hart) (p : Bool) : Path := if p then h.p1 else h.p0
def Hart.setPath (h : Hart) (p : Bool) (x : Path) : Hart := if p then { h with p1 := x } else { h with p0 := x }
/-- The path that the focus runs; a bank core has one. -/
def State.path (s : State) : Path := s.hart.path s.cur.path
def State.setPath (s : State) (x : Path) : State := s.setHart (s.hart.setPath s.cur.path x)
/-- The groups of a team that have not ended, lowest gid first. -/
def State.liveGids (s : State) (k : Nat) : List Nat :=
  let live := s.harts.filterMap fun (x : HartId × Hart) => match x.1 with
    | .group t g => if t = k ∧ x.2.live then some g else none
    | .bank _ => none
  (List.range 32).filter fun g => decide (g ∈ live)
/-- The value of an outstanding-operation counter (R34, R256). -/
def Hart.counter (h : Hart) (k : Nat) : Nat := (vget h.ledger k []).length

/-- Takes the next permitted choice; 0 when none is given. -/
def State.choice (s : State) : Nat := s.oracle.headD 0
def State.chosen (s : State) : State := { s with oracle := s.oracle.tail }

/-! ## Homes -/

/-- Bytes in a bank (R284). -/
def bankSize : Nat := 0xC0000000
/-- The base of the scratchpad view (R400). -/
def spadView : Nat := 0x24000000000
/-- The base of the linear view (R284). -/
def linearView : Nat := 0x28000000000

/-- The bank location of a local physical address (R284). -/
def homeKey (a : Nat) : Option Nat :=
  if a < 0x24000000000 then
    let u := a / 4096
    some ((32 * (u % 24) + u / 24 % 32) * bankSize + (u / 768 * 4096 + a % 4096))
  else if linearView ≤ a ∧ a < 0x40000000000 then
    some ((a - linearView) / 2 ^ 31 * bankSize + a % 2 ^ 31)
  else none

/-- The compute die to which a bank's stack is attached (R284). -/
def dieOfKey (key : Nat) : Nat := key / bankSize / 32 / 3

/-- Do the bytes at a bank location touch a poisoned granule (R214)? -/
def State.poisonedAt (s : State) (key n : Nat) : Bool :=
  (blocksOf 64 key n).any fun g => decide (g ∈ s.poisoned)

/-- The poison list after a write: granules that the write covers whole are cleared, or marked where the data is poisoned (R214, R267). -/
def poisonAfter (old : List Nat) (size a n : Nat) (bad : Bool) : List Nat :=
  if bad then (blocksOf size a n).foldl (fun l g => insertNew g l) old
  else let whole := blocksIn size a n
       old.filter fun g => !decide (g ∈ whole)

/-- The lines that a home write leaves modified in the die cache, with the bytes that the bank holds (R213, R301). -/
def State.markDirty (s : State) (key n : Nat) : List (Nat × List Byte) :=
  (blocksOf 128 key n).foldl
    (fun d l => if (mfind l d).isSome then d else (l, s.mem.read (l * 128) 128) :: d) s.dirty

/-- Writes bytes at their home, in the die cache (R213). -/
def State.pokeHome (s : State) (key : Nat) (bs : List Byte) (bad : Bool) : State :=
  { s with dirty := s.markDirty key bs.length, mem := s.mem.write key bs,
           poisoned := poisonAfter s.poisoned 64 key bs.length bad }

/-- The lines left modified once those of a range have been written to their bank (R249, R301). -/
def State.writeBack (s : State) (key n : Nat) : State :=
  let ls := blocksOf 128 key n
  { s with dirty := s.dirty.filter fun l => !decide (l.1 ∈ ls) }

/-- Writes bytes into the bank: the die cache first writes its modified line back, and its copy is discarded (R300, R303). -/
def State.pokeBank (s : State) (key : Nat) (bs : List Byte) : State :=
  let s := s.writeBack key bs.length
  { s with mem := s.mem.write key bs, poisoned := poisonAfter s.poisoned 64 key bs.length false }

/-- The byte that the bank itself holds, which the die cache may hold newer (R301). -/
def State.bankByte (s : State) (key : Nat) : Byte :=
  match mfind (key / 128) s.dirty with
  | some bs => bs.getD (key % 128) 0
  | none => s.mem.byte key

/-- The bytes that a bank core's load reads (R300). -/
def State.bankBytes (s : State) (key n : Nat) : List Byte := (List.range n).map fun i => s.bankByte (key + i)

/-- The evictions from the die cache that follow a write are the device's choice: at 1 the written lines are written back at once (R301). -/
def State.maybeEvict (s : State) (key n : Nat) : State :=
  match s.choice with
  | 0 => s.chosen
  | _ => s.chosen.writeBack key n

/-- Bytes written at a bank location through the die cache, with the poison of its granules as it is (R414). -/
def State.rawPoke (s : State) (key : Nat) (bs : List Byte) : State :=
  { s with dirty := s.markDirty key bs.length, mem := s.mem.write key bs }

/-- Splits n bytes from a into pieces that lie each in one aligned block. -/
def pieces (size : Nat) : (fuel : Nat) → (a n : Nat) → List (Nat × Nat)
  | 0, _, _ => []
  | fuel + 1, a, n =>
    if n = 0 then [] else
      let k := Nat.min n (size - a % size)
      (a, k) :: pieces size fuel (a + k) (n - k)

/-- The parts of n bytes from a local physical address, each of which lies in one bank (R284). -/
def physPieces (a n : Nat) : List (Nat × Nat) := pieces 4096 (n / 4096 + 2) a n
/-- Bytes at a local physical address, through the homes; none outside the views. -/
def State.physBytes (s : State) (a n : Nat) : Option (List Byte) :=
  if a % 4096 + n ≤ 4096 then (homeKey a).map fun k => s.mem.read k n
  else (physPieces a n).foldl (fun r p => do return (← r) ++ s.mem.read (← homeKey p.1) p.2) (some [])
/-- Writes the parts of some bytes at a local physical address by a write at a bank location; what lies outside the views is not written. -/
def State.physWrite (s : State) (write : State → Nat → List Byte → State) (a : Nat) (bs : List Byte) : State :=
  (physPieces a bs.length).foldl (fun s p => match homeKey p.1 with
    | some k => write s k ((bs.drop (p.1 - a)).take p.2)
    | none => s) s
def State.physPoke (s : State) (a : Nat) (bs : List Byte) : State := s.physWrite (fun s k bs => s.pokeHome k bs false) a bs

/-! ## The error log -/

/-- Kinds of error-log entries (R425). -/
inductive LogKind where
  | boot | corrected | poison | discarded | engine | machineCheck | link | dropped | trap
deriving DecidableEq, Repr
/-- Their codes (R425). -/
def LogKind.code : LogKind → Byte
  | .boot => 0 | .corrected => 1 | .poison => 2 | .discarded => 3 | .engine => 4 | .machineCheck => 5
  | .link => 6 | .dropped => 7 | .trap => 8

/-- The code of a trap cause (R357). -/
def Cause.code : Cause → BitVec 7
  | .illegalOp => 0x01 | .illegalClause => 0x02 | .latchInvalid => 0x03 | .misaligned => 0x04
  | .pageFault => 0x05 | .accessViolation => 0x06 | .stackLimit => 0x07 | .featureAbsent => 0x08
  | .accToken => 0x09 | .dataCheck => 0x0A | .poison => 0x0B | .rowNotFull => 0x0C
  | .bidWithdrawn => 0x0D | .blockDenied => 0x0E | .barrierMisuse => 0x0F | .collAbort => 0x10
  | .peerKilled => 0x11 | .waveLimit => 0x12 | .graphBound => 0x13 | .machineCheck => 0x14
  | .software c => 0x40 + c.setWidth 7

/-- The bytes of a log entry (R425). -/
def logBytes (cycle : Word64) (e : Byte × Byte × BitVec 16 × Word32 × Word64 × Word64) : List Byte :=
  leBytes 8 cycle.toNat ++ [e.1, e.2.1] ++ leBytes 2 e.2.2.1.toNat ++ leBytes 4 e.2.2.2.1.toNat
    ++ leBytes 8 e.2.2.2.2.1.toNat ++ leBytes 8 e.2.2.2.2.2.toNat

/-- Writes an error-log entry; the head keeps counting past the ring's size (R425). -/
def State.logError (s : State) (k : LogKind) (cause : BitVec 7) (unit : Nat) (asid gid : Nat) (addr : Word64) : State :=
  let v := s.service
  let e : Byte × Byte × BitVec 16 × Word32 × Word64 × Word64 :=
    (k.code, cause.setWidth 8, BitVec.ofNat 16 unit, BitVec.ofNat 32 (asid + gid * 65536), addr, 1)
  let s := { s with service := { v with log := v.log ++ [e], logHead := v.logHead + 1 } }
  if v.logSize = 0 then s
  else s.physPoke (v.logBase.toNat + 32 * (v.logHead.toNat % v.logSize.toNat)) (logBytes (Config.freeCycle s.tick) e)

/-! ## Fabric-shared lines (R414) -/

/-- The address of the sidecar entry of the line at a local address. -/
def State.sidecarAddr (s : State) (a : Nat) : Nat := s.service.sidecar.toNat + 16 * (a / 128)

def bytesToBits (n : Nat) (bs : List Byte) : BitVec n := BitVec.ofNat n (leNat bs)

/-- The initialisation vector of a line: its number in [44:0] and the write count in [95:45]. -/
def gmacIv (pa : Nat) (count : BitVec 51) : BitVec 96 := count ++ BitVec.ofNat 45 (pa / 128)

/-- The plain bytes of a line's ciphertext and sidecar entry, 144 bytes together, under this device's keys, and whether the tag matches (R414). -/
def State.fsOpen (s : State) (pa asid : Nat) (raw : List Byte) : List Byte × Bool :=
  let c : BitVec 1024 := bytesToBits 1024 (raw.take 128)
  let e : BitVec 128 := bytesToBits 128 (raw.drop 128)
  let keys := mget 0 asid s.service.keys
  let ok := Config.gmacTag keys (gmacIv pa (e.extractLsb' 64 51)) c == e.extractLsb' 0 64
  (leBytes 128 (Config.xtsDecrypt keys (BitVec.ofNat 128 (pa / 128 * 128)) c).toNat, ok)

/-- The ciphertext and the sidecar entry of plain bytes, the count of the old entry raised. -/
def State.fsSeal (s : State) (pa asid : Nat) (raw plain : List Byte) : List Byte :=
  let e : BitVec 128 := bytesToBits 128 (raw.drop 128)
  let keys := mget 0 asid s.service.keys
  let count := e.extractLsb' 64 51 + 1
  let c := Config.xtsEncrypt keys (BitVec.ofNat 128 (pa / 128 * 128)) (bytesToBits 1024 plain)
  leBytes 128 c.toNat ++ leBytes 16 ((0#13 ++ count ++ Config.gmacTag keys (gmacIv pa count) c : BitVec 128)).toNat

/-- The ciphertext and the sidecar entry that this device holds for the line at a local address. -/
def State.fsRaw (s : State) (a : Nat) : List Byte :=
  (s.physBytes (a / 128 * 128) 128).getD [] ++ (s.physBytes (s.sidecarAddr a) 16).getD []

/-- The plain bytes of the fabric-shared line at a physical address, and whether its tag matches. -/
def State.fsLine (s : State) (pa asid : Nat) : List Byte × Bool := s.fsOpen pa asid (s.fsRaw (pa % 2 ^ 42))

/-- Writes bytes at a local physical address with the poison as it is. -/
def State.physRaw (s : State) (a : Nat) (bs : List Byte) : State := s.physWrite State.rawPoke a bs

/-- Writes the ciphertext and the sidecar entry of the line at a local address. -/
def State.fsWriteRaw (s : State) (a : Nat) (raw : List Byte) : State :=
  (s.physRaw (a / 128 * 128) (raw.take 128)).physRaw (s.sidecarAddr a) (raw.drop 128)

/-- Writes the whole plain bytes of a fabric-shared line: encrypted, with the entry's count raised. -/
def State.fsPut (s : State) (pa asid : Nat) (plain : List Byte) : State :=
  let a := pa % 2 ^ 42
  s.fsWriteRaw a (s.fsSeal pa asid (s.fsRaw a) plain)

/-- Replaces bytes of a list from an index. -/
def splice (old : List Byte) (i : Nat) (new : List Byte) : List Byte :=
  old.take i ++ new.take (old.length - i) ++ old.drop (i + new.length)

/-- Stores bytes into one fabric-shared line: read, check, merge, encrypt and write, with the poison of the granules that it touches (R214); a tag that does not match poisons the line. -/
def State.fsStore (s : State) (key pa asid : Nat) (bs : List Byte) (bad : Bool) : State :=
  let (old, ok) := s.fsLine pa asid
  if ok then
    let s := s.fsPut pa asid (splice old (pa % 128) bs)
    { s with poisoned := poisonAfter s.poisoned 64 key bs.length bad }
  else { s with poisoned := poisonAfter s.poisoned 64 (key / 128 * 128) 128 true }

/-! ## The scratchpad -/

/-- The loop that a synchronisation word's port makes after each event that writes its bytes 0 to 7 (R277). -/
def syncLoop (m : Mem) (w : Nat) : Mem :=
  let total := m.nat w 4
  let count := m.nat (w + 4) 4
  if total = 0 then m
  else (m.write (w + 4) (leBytes 4 (count % total))).write (w + 8)
    (leBytes 4 ((m.nat (w + 8) 4 + count / total) % 2 ^ 32))

/-- The allocation bytes after the ports of the synchronisation words that a write touches have run their loops. -/
def syncPorts (syncs : List Nat) (m : Mem) (a n : Nat) : Mem :=
  syncs.foldl (fun m w => if decide (a < w + 8) && decide (w < a + n) then syncLoop m w else m) m

/-- The presence tag of a tile of an allocation (R207). -/
def Team.tag (t : Team) (tile : Nat) : Tag := mget .empty tile t.tags
def Team.setTag (t : Team) (tile : Nat) (x : Tag) : Team := { t with tags := mset tile x t.tags }
/-- The size of an allocation in bytes. -/
def Team.spadBytes (t : Team) : Nat := t.spad * 1024

/-- Writes bytes of an allocation: marks change by R203 and the ports of synchronisation words act (R277). -/
def Team.poke (t : Team) (off : Nat) (bs : List Byte) (bad : Bool) : Team :=
  { t with mem := syncPorts t.syncs (t.mem.write off bs) off bs.length,
           marks := poisonAfter t.marks 8 off bs.length bad,
           tags := if bad then (blocksOf 256 off bs.length).foldl (fun g k => mset k .poison g) t.tags else t.tags }

/-- Do bytes of an allocation touch a marked word (R203)? -/
def Team.markedAt (t : Team) (off n : Nat) : Bool := (blocksOf 8 off n).any fun w => decide (w ∈ t.marks)

/-! ## Context records and page tables -/

/-- A context record (R360). -/
structure Ctx where
  root : Nat
  handler : Word64
  fring : Word64
  valid : Bool
  spool : Word64
  spsize : Nat
deriving DecidableEq, Repr

/-- The context record of an ASID; one that lies outside the views reads as not valid. Only bit 0 of the flags is read (R7, R360). -/
def State.ctx (s : State) (asid : Nat) : Ctx :=
  let bs := (s.physBytes (s.service.ctxBase.toNat + 64 * asid) 64).getD []
  let f := fun i n => leNat ((bs.drop i).take n)
  ⟨f 0 8, BitVec.ofNat 64 (f 8 8), BitVec.ofNat 64 (f 16 8), f 24 1 % 2 == 1, BitVec.ofNat 64 (f 32 8), f 40 4⟩

/-- What an access does to a page (R364). -/
inductive Access where
  | read | write | exec
deriving DecidableEq, Repr

/-- A level of the page tables (R364): index shift, entries, table size, and what a leaf maps. -/
structure Level where
  shift : Nat
  entries : Nat
  size : Nat
  page : Option Nat

/-- The four levels of R364. -/
def levels : List Level :=
  [⟨43, 8192, 65536, none⟩, ⟨30, 8192, 65536, some (2 ^ 30)⟩, ⟨21, 512, 4096, some (2 ^ 21)⟩, ⟨16, 32, 256, some (2 ^ 16)⟩]

/-- Walks the tables from one that lies at a physical address, to the leaf and the size of its page (R365). A root is 8 bytes and a physical address 52 bits: bits [63:52] of a root have no meaning in the spec, and are ignored: DESIGN CHOICE (log 67). -/
def State.walk (s : State) (va : Nat) : List Level → Nat → Except Cause (Word64 × Nat)
  | [], _ => .error .accessViolation
  | l :: ls, table =>
    if table % l.size ≠ 0 || table / 2 ^ 42 % 1024 ≠ s.fabric.device.toNat then .error .accessViolation
    else match s.physBytes (table % 2 ^ 42 + 8 * (va / 2 ^ l.shift % l.entries)) 8 with
      | none => .error .accessViolation
      | some bs =>
        let e : Word64 := bytesToBits 64 bs
        let addr := (e.extractLsb' 8 44).toNat * 256
        if !e.getLsbD 63 then .error .pageFault
        else if e.extractLsb' 52 10 != 0 || e.extractLsb' 0 2 != 0 then .error .accessViolation
        else if e.getLsbD 62 then
          match l.page with
          | none => .error .accessViolation
          | some pg => if addr % pg ≠ 0 then .error .accessViolation else .ok (e, pg)
        else s.walk va ls addr

/-- The physical address and the leaf of a translated byte. -/
structure Xlat where
  pa : Nat
  leaf : Word64
  page : Nat
deriving DecidableEq, Repr

/-- The permission checks of a leaf (R365, R413). -/
def leafCheck (e : Word64) (pa : Nat) (sys : Bool) (acc : Access) : Bool :=
  (match acc with | .read => e.getLsbD 2 | .write => e.getLsbD 3 | .exec => e.getLsbD 4)
    && (sys || e.getLsbD 5) && (!e.getLsbD 7 || decide (pa % 2 ^ 42 < 0x24000000000))

/-- A cached translation of an ASID's page that a core or its die holds (R365). -/
def State.cachedLeaf (s : State) (core : Option Nat) (asid va : Nat) : Option (Word64 × Nat) :=
  match core with
  | none => none
  | some c =>
    let hit := fun (k : Nat) => (s.coreOf k).tlb.find? fun e =>
      e.asid == asid && decide (e.page ≤ va / 65536) && decide (va / 65536 < e.page + e.span)
    match hit c with
    | some e => some (e.leaf, e.span * 65536)
    | none => ((List.range 36).findSome? fun i => hit (c / 36 * 36 + i)).map fun e => (e.leaf, e.span * 65536)

/-- `Translate` (R211, R365); only windows 0x0 to 0xB have virtual addresses (R364). -/
def State.translate (s : State) (core : Option Nat) (asid : Nat) (sys : Bool) (acc : Access) (va : Nat) :
    Except Cause Xlat :=
  let found : Except Cause (Word64 × Nat) :=
    match s.cachedLeaf core asid va with
    | some r => .ok r
    | none =>
      let c := s.ctx asid
      if !c.valid || decide (12 * 2 ^ 52 ≤ va) then .error .accessViolation else s.walk va levels c.root
  match found with
  | .error e => .error e
  | .ok (e, pg) =>
    let pa := (e.extractLsb' 8 44).toNat * 256 + va % pg
    if leafCheck e pa sys acc then .ok ⟨pa, e, pg⟩ else .error .accessViolation

/-- Where a byte lies, and whether its page has the full/empty attribute in the linear view (R285). -/
structure Place where
  tgt : Tgt
  fe : Bool
deriving DecidableEq, Repr

/-- The place of a translated byte (R284, R400, R413). -/
def State.placeOf (s : State) (asid : Nat) (x : Xlat) : Except Cause Place :=
  let dev := x.pa / 2 ^ 42 % 1024
  let loc := x.pa % 2 ^ 42
  if dev = s.fabric.device.toNat then
    match homeKey loc with
    | none => .error .accessViolation
    | some k => .ok ⟨if x.leaf.getLsbD 7 then .shared k x.pa asid else .home k, x.leaf.getLsbD 6 && decide (linearView ≤ loc)⟩
  else .ok ⟨.remote dev loc asid (x.leaf.getLsbD 7), x.leaf.getLsbD 6 && decide (linearView ≤ loc) && !x.leaf.getLsbD 7⟩

/-- The place of a virtual address for an agent that acts for a context. -/
def State.vplace (s : State) (core : Option Nat) (asid : Nat) (sys : Bool) (acc : Access) (va : Nat) : Except Cause Place :=
  match s.translate core asid sys acc va with
  | .error e => .error e
  | .ok x => s.placeOf asid x

/-- The target i bytes further on. -/
def Tgt.plus (t : Tgt) (i : Nat) : Tgt :=
  match t with
  | .home k => .home (k + i)
  | .shared k pa a => .shared (k + i) (pa + i) a
  | .spad tm o => .spad tm (o + i)
  | .win c o a => .win c (o + i) a
  | .remote d a x f => .remote d (a + i) x f

/-- The address of a target in its own space. -/
def Tgt.at : Tgt → Nat
  | .home k => k
  | .shared k _ _ => k
  | .spad _ o => o
  | .win _ o _ => o
  | .remote _ a _ _ => a

/-- The other device that a target lies on. -/
def Tgt.device : Tgt → Option Nat
  | .remote d _ _ _ => some d
  | _ => none

/-- The bytes at a place of this device, with no check of poison, rows or tags. -/
def State.peek (s : State) (t : Tgt) (n : Nat) : List Byte :=
  match t with
  | .home k => s.mem.read k n
  | .shared _ pa asid =>
    (pieces 128 (n + 1) pa n).flatMap fun p => ((s.fsLine p.1 asid).1.drop (p.1 % 128)).take p.2
  | .spad tm o => (s.teamOf tm).mem.read o n
  | _ => List.replicate n 0

/-- Does reading n bytes at a place consume poisoned data (R203, R214, R414)? -/
def State.bad (s : State) (t : Tgt) (n : Nat) : Bool :=
  match t with
  | .home k => s.poisonedAt k n
  | .shared k pa asid => s.poisonedAt k n || (pieces 128 (n + 1) pa n).any fun p => !(s.fsLine p.1 asid).2
  | .spad tm o => (s.teamOf tm).markedAt o n
  | _ => false

/-! ## Stores on their way to the home (R221, R251) -/

/-- Does a core observe a part of a store that its home does not hold yet: its own core's, or one that the whole die observes? -/
def Posted.seenBy (p : Posted) (core : Nat) : Bool := p.core == core || (p.die && p.core / 36 == core / 36)
/-- Does it touch the n bytes from a bank location? -/
def Posted.meets (p : Posted) (key n : Nat) : Bool := decide (p.key < key + n) && decide (key < p.key + p.bytes.length)
/-- The byte that the youngest of some parts holds for a bank location. -/
def postedByte (ps : List Posted) (key : Nat) : Option Byte :=
  (ps.reverse.find? fun p => p.meets key 1).map fun p => p.bytes.getD (key - p.key) 0
/-- The parts of stores that a core observes before their home. -/
def State.visible (s : State) (core : Nat) : List Posted := s.posted.filter (·.seenBy core)

/-- The lines of a core's L1 after a store of the core to bytes at home: a copy is updated (R212). -/
def l1Update (l1 : List (Nat × List Byte)) (key : Nat) (bs : List Byte) : List (Nat × List Byte) :=
  l1.map fun (l, old) =>
    (l, (List.range 128).map fun i =>
      let k := l * 128 + i
      if decide (key ≤ k) && decide (k < key + bs.length) then bs.getD (k - key) 0 else old.getD i 0)

/-- A core's L1 copies follow the core's own store (R212). -/
def State.l1Store (s : State) (core : Option Nat) (key : Nat) (bs : List Byte) : State :=
  match core with
  | none => s
  | some c => let k := s.coreOf c; s.setCoreOf c { k with l1 := l1Update k.l1 key bs }

/-- Writes bytes at a place of this device; `bad` marks poisoned data. -/
def State.poke (s : State) (core : Option Nat) (t : Tgt) (bs : List Byte) (bad : Bool) : State :=
  match t with
  | .home k => ((s.pokeHome k bs bad).l1Store core k bs).maybeEvict k bs.length
  | .shared k pa asid =>
    (pieces 128 (bs.length + 1) pa bs.length).foldl
      (fun s p => s.fsStore (k + (p.1 - pa)) p.1 asid ((bs.drop (p.1 - pa)).take p.2) bad) s
  | .spad tm o => s.setTeamOf tm ((s.teamOf tm).poke o bs bad)
  | _ => s

/-! ## Packets (R398, R401) -/

/-- Is a path record usable (R396)? -/
def Fabric.usable (f : Fabric) (dst p : Nat) : Bool :=
  let r := mget 0 (dst * 4 + p) f.routes
  let len := (r.extractLsb' 60 3).toNat
  r.getLsbD 63 && decide (1 ≤ len) && decide (len ≤ 6)
    && (List.range len).all (fun k => decide (r.toNat / 2 ^ (5 * k) % 32 < 18)) && !decide (dst * 4 + p ∈ f.down)

def Fabric.reachable (f : Fabric) (dst : Nat) : Bool := (List.range 4).any (f.usable dst)

/-- The usable paths to a device. -/
def Fabric.paths (f : Fabric) (dst : Nat) : List Nat := (List.range 4).filter (f.usable dst)

/-- Does the sender keep a packet until it is answered (R406)? -/
def expectsAnswer (kind : BitVec 8) : Bool := decide (kind.toNat < 0x10) || decide (0x20 ≤ kind.toNat)

/-- A packet as it leaves the source: on a path, whose record is copied into the header, by the link that the record names first (R397). -/
def Fabric.routed (f : Fabric) (p : FabPkt) (path : Nat) : FabPkt :=
  let r := mget 0 (p.dst.toNat * 4 + path) f.routes
  { p with path := BitVec.ofNat 2 path, route := r.extractLsb' 0 30, len := r.extractLsb' 60 3, hop := 1 }

/-- Takes the next packet number to a packet's destination (R398). -/
def State.numbered (s : State) (p : FabPkt) : State × FabPkt :=
  let f := s.fabric
  let n := mget 0 p.dst.toNat f.seqOut
  ({ s with fabric := { f with seqOut := mset p.dst.toNat (n + 1) f.seqOut } }, { p with src := f.device, seq := n })

/-- A numbered packet leaves on a usable path: that of an earlier packet of its run, or one of choice. How many flits stand queued on each path is timing, so the path is a choice among the usable ones (R401). -/
def State.leave (s : State) (p : FabPkt) (run : Option Nat) : State × FabPkt :=
  let f := s.fabric
  let ps := f.paths p.dst.toNat
  let path := run.getD (ps.getD (s.choice % Nat.max 1 ps.length) 0)
  let q := f.routed p path
  ({ (if run.isSome then s else s.chosen) with fabric := { f with
      wire := f.wire ++ [q], unacked := if expectsAnswer q.kind then f.unacked ++ [q] else f.unacked } }, q)

/-- Sends a packet: it takes the next packet number to its destination and a path; what went. -/
def State.sendPkt (s : State) (p : FabPkt) : State × FabPkt :=
  let (s, q) := s.numbered p
  s.leave q none

/-- A packet with every optional field zero. -/
def FabPkt.blank (kind : BitVec 8) (dst : Nat) (asid core gid addr : Nat) : FabPkt :=
  { kind := kind, src := 0, dst := BitVec.ofNat 10 dst, asid := BitVec.ofNat 12 asid, core := BitVec.ofNat 9 core,
    gid := BitVec.ofNat 5 gid, path := 0, route := 0, len := 0, hop := 0, enc := false, rg := false, ofl := false, psn := 0,
    addr := BitVec.ofNat 42 addr, seq := 0, control := 0, region := 0, bmask := 0, data := [] }

/-- Sends an answer on a given path (R401). -/
def State.sendOn (s : State) (p : FabPkt) (path : BitVec 2) : State :=
  let (s, q) := s.numbered p
  { s with fabric := { s.fabric with wire := s.fabric.wire ++ [s.fabric.routed q path.toNat] } }

/-- The answer to a packet. The number that it answers stands in the low 32 bits of its addr field, and what the answer says above them: 1 the packet was refused, 2 its sender is to send it again, 4 the data was poisoned, 8 the result row is not full (log 12). -/
def answerTo (kind : BitVec 8) (p : FabPkt) (tell : Nat) : FabPkt :=
  { FabPkt.blank kind p.src.toNat p.asid.toNat p.core.toNat p.gid.toNat (p.seq.toNat + tell * 2 ^ 32) with rg := p.rg }
/-- What an answer says. -/
def answerTells (p : FabPkt) : Nat := p.addr.toNat / 2 ^ 32

/-- The acknowledgement of a packet, on the packet's path (R401). -/
def State.ack (s : State) (p : FabPkt) : State := s.sendOn (answerTo 0x11 p 0) p.path
/-- The answer to a device whose packet was refused (R205). -/
def State.refusePkt (s : State) (p : FabPkt) : State := s.sendOn (answerTo 0x11 p 1) p.path

/-- The mask of bytes [o, o + n) of a block. -/
def maskOf (o n : Nat) : BitVec 256 := BitVec.ofNat 256 ((2 ^ n - 1) * 2 ^ o)

/-- A write packet that the device itself sends: bytes within one aligned 256-byte block of another device (R399). -/
def ownWrite (d addr asid : Nat) (bad : Bool) (bs : List Byte) : FabPkt :=
  let o := addr % 256
  { FabPkt.blank 0x02 d asid 0 0 (addr / 256 * 256) with
      bmask := maskOf o bs.length, data := List.replicate o 0 ++ bs ++ List.replicate (256 - o - bs.length) 0,
      psn := if bad then BitVec.ofNat 4 ((blocksOf 64 o bs.length).foldl (fun m g => m + 2 ^ g) 0) else 0 }

/-- A store to one line of another device's fabric-shared memory begins: its packet takes its number, and goes once the line has been read, merged and sealed (R414). -/
def State.fsQueue (s : State) (p : FabPkt) (line : Nat) (cells : List (Nat × Byte)) (bad : Bool) : State × FabPkt :=
  let (s, q) := s.numbered p
  ({ s with fabric := { s.fabric with fsJobs := s.fabric.fsJobs ++ [⟨q, line, cells, bad, false⟩] } }, q)

/-- The lines of a block's cells, with the bytes by their place in the line. -/
def linesOf (cells : List (Nat × Byte)) : List (Nat × List (Nat × Byte)) :=
  ((cells.map fun c => c.1 / 128).eraseDups).map fun l => (l, cells.filterMap fun c => if c.1 / 128 = l then some (c.1 % 128, c.2) else none)

/-- The packet that will write one fabric-shared line: the half of its block that the line is (R399; the other half carries the line's sidecar entry, log 53). -/
def linePkt (kind : BitVec 8) (d line asid core gid : Nat) : FabPkt :=
  { FabPkt.blank kind d asid core gid (line / 2 * 256) with enc := true, bmask := maskOf (128 * (line % 2)) 128 }

/-- The data of a packet that writes a fabric-shared line: the ciphertext in the line's half of the block, the entry at the start of the other half. -/
def lineData (line : Nat) (raw : List Byte) : List Byte :=
  let entry := raw.drop 128 ++ List.replicate 112 0
  if line % 2 = 0 then raw.take 128 ++ entry else entry ++ raw.take 128
/-- The ciphertext and the entry in such a packet. -/
def lineRaw (line : Nat) (data : List Byte) : List Byte :=
  if line % 2 = 0 then data.take 144 else data.drop 128 ++ data.take 16
/-- The psn field for the granules of a line, bits 0 and 1. -/
def linePsn (line bits : Nat) : BitVec 4 := BitVec.ofNat 4 (bits * 4 ^ (line % 2))

/-! ## What has come from other devices (R399, R404, R414) -/

/-- Why the answer to a read of n bytes of another device cannot be used: it was refused or carried poisoned data (R404). -/
def badReply (bad : List ((Nat × Nat) × Cause)) (key a n : Nat) : Option Cause :=
  (blocksOf 64 a n).findSome? fun g => mfind (key, g) bad

/-- What an agent has received of other devices: bytes, and granules that it may not use (R404). -/
structure Inbox where
  arrived : List ((Nat × Nat) × Byte)
  bad : List ((Nat × Nat) × Cause)

/-- The n bytes at an address of another device, as an engine's or a group's key finds them: a cause, the bytes, or nothing yet. -/
def Inbox.bytes (b : Inbox) (key a n : Nat) : Except Cause (Option (List Byte)) :=
  match badReply b.bad key a n with
  | some c => .error c
  | none => .ok ((List.range n).mapM fun i => mfind (key, a + i) b.arrived)

/-- Where the ciphertext and the entry of a fabric-shared line of another device are kept: apart from the plain blocks. -/
def fsKey (a : Nat) : Nat := 2 ^ 42 + a / 128 * 128

/-- Where the blocks of a result row of another device are kept, whose read its home decides (R302). -/
def rowKey (fe : Bool) (a : Nat) : Nat := if fe then 2 ^ 43 + a else a

/-- The addresses to ask for n bytes of another device: its blocks, or each line of a fabric-shared page. -/
def remoteAsks (d a n : Nat) (sh : Bool) : List (Nat × Nat) :=
  if sh then (blocksOf 128 a n).map fun l => (d, fsKey (128 * l)) else (blocksOf 256 a n).map fun b => (d, 256 * b)

/-- The n bytes at an address of another device; those of a fabric-shared page are opened with this device's keys, and a tag that does not match gives POISON (R413, R414). -/
def State.opened (s : State) (b : Inbox) (key d a asid n : Nat) (sh : Bool) : Except Cause (Option (List Byte)) :=
  if !sh then b.bytes key a n
  else
    let one : Nat × Nat → Except Cause (Option (List Byte)) := fun p =>
      match badReply b.bad key (fsKey p.1 + p.1 % 128) p.2 with
      | some c => .error c
      | none =>
      match (List.range 144).mapM fun i => mfind (key, fsKey p.1 + i) b.arrived with
      | none => .ok none
      | some raw =>
        let (plain, ok) := s.fsOpen (d * 2 ^ 42 + p.1) asid raw
        if ok then .ok (some ((plain.drop (p.1 % 128)).take p.2)) else .error Cause.poison
    ((pieces 128 (n + 1) a n).mapM one).map fun bs => (bs.mapM id).map List.flatten

/-! ## The device's own accesses -/

/-- Writes bytes at virtual addresses of a context for the device itself, block by block; the first failure leaves the earlier blocks written. -/
def State.vwriteAux (s : State) (asid : Nat) (sys bad : Bool) (va : Nat) (bs : List Byte) : List (Nat × Nat) → Except Cause State
  | [] => .ok s
  | p :: ps =>
    match s.vplace none asid sys .write p.1 with
    | .error e => .error e
    | .ok q =>
      let x := (bs.drop (p.1 - va)).take p.2
      match q.tgt with
      | .remote d a _ sh =>
        if !s.fabric.reachable d then .error .peerKilled
        else if sh then
          let cells := (List.range x.length).map fun i => (a + i, x.getD i 0)
          ((linesOf cells).foldl (fun s l => (s.fsQueue (linePkt 0x02 d l.1 asid 0 0) l.1 l.2 bad).1) s).vwriteAux asid sys bad va bs ps
        else (s.sendPkt (ownWrite d a asid bad x)).1.vwriteAux asid sys bad va bs ps
      | t => (s.poke none t x bad).vwriteAux asid sys bad va bs ps

def State.vwrite (s : State) (asid : Nat) (sys : Bool) (va : Nat) (bs : List Byte) : Except Cause State :=
  s.vwriteAux asid sys false va bs (pieces 256 (bs.length + 1) va bs.length)
/-- Writes poisoned bytes (R398). -/
def State.vwriteBad (s : State) (asid : Nat) (sys : Bool) (va : Nat) (bs : List Byte) : Except Cause State :=
  s.vwriteAux asid sys true va bs (pieces 256 (bs.length + 1) va bs.length)

/-- Reads bytes at virtual addresses of a context for the device itself; poisoned data gives POISON. What lies on another device is read by `vfetch`; saved state and rings lie on this one (log 13). -/
def State.vreadAux (s : State) (asid : Nat) (sys : Bool) : List (Nat × Nat) → Except Cause (List Byte)
  | [] => .ok []
  | p :: ps =>
    match s.vplace none asid sys .read p.1 with
    | .error e => .error e
    | .ok q =>
      if q.tgt.device.isSome then .error .accessViolation
      else if s.bad q.tgt p.2 then .error .poison
      else (s.vreadAux asid sys ps).map (s.peek q.tgt p.2 ++ ·)

def State.vread (s : State) (asid : Nat) (sys : Bool) (va n : Nat) : Except Cause (List Byte) :=
  s.vreadAux asid sys (pieces 256 (n + 1) va n)

/-- Why a read that the device makes for one of its own works gives no bytes: a fault, or data of another device that has yet to come. -/
inductive DevErr where
  | fault (c : Cause)
  | ask (reqs : List (Nat × Nat))
deriving DecidableEq, Repr

/-- Reads bytes at virtual addresses of a context for a work of the device, on whichever device they lie (R399, R404). -/
def State.vfetchAux (s : State) (key asid : Nat) (sys : Bool) : List (Nat × Nat) → Except DevErr (List Byte)
  | [] => .ok []
  | p :: ps =>
    match s.vplace none asid sys .read p.1 with
    | .error e => .error (.fault e)
    | .ok q =>
      match q.tgt with
      | .remote d a x sh =>
        match s.opened ⟨s.fabric.arrived, s.fabric.bad⟩ (d + 1024 * key) d a x p.2 sh with
        | .error c => .error (.fault c)
        | .ok (some bs) => (s.vfetchAux key asid sys ps).map (bs ++ ·)
        | .ok none => .error (if s.fabric.reachable d then .ask (remoteAsks d a p.2 sh) else .fault .peerKilled)
      | t => if s.bad t p.2 then .error (.fault .poison) else (s.vfetchAux key asid sys ps).map (s.peek t p.2 ++ ·)

def State.vfetch (s : State) (key asid : Nat) (sys : Bool) (va n : Nat) : Except DevErr (List Byte) :=
  s.vfetchAux key asid sys (pieces 256 (n + 1) va n)

end Sys2Proof.Machine
end

