-- ==== Sys2Proof/Machine/Mesh.lean ====
section
/-! DEFINITION. The mesh: the edges of the dies and the routes of packets (R383 to R385), and the reads in flight that other reads join at a router (R389, R390). -/

namespace Sys2Proof.Machine

/-- The window of an address, bits [55:52], or none when bits [63:56] are not zero (R20). -/
def window (va : Word64) : Option Nat :=
  if va.extractLsb' 56 8 == 0 then some (va.extractLsb' 52 4).toNat else none

/-! ## Routes (R383 to R385) -/

/-- The routers that a packet passes on one die, along x and then along y, from one local number to another; both ends stand in the list. -/
def legOn (die src dst : Nat) : List Nat :=
  let between := fun (a b : Nat) => if a ≤ b then (List.range (b - a)).map (a + 1 + ·) else (List.range (a - b)).map (a - 1 - ·)
  let x := dst % 6
  (src :: (between (src % 6) x).map (src / 6 * 6 + ·) ++ (between (src / 6) (dst / 6)).map fun y => 6 * y + x).map (36 * die + ·)

/-- The dies from one to another: along the row's ring in the shorter direction, east on a tie, then across the V edge. -/
def diesBetween (a b : Nat) : List Nat :=
  let steps := (b % 4 + 4 - a % 4) % 4
  let row := a / 4 * 4
  let ring := if steps ≤ 2 then (List.range (steps + 1)).map fun i => row + (a + i) % 4 else (List.range (5 - steps)).map fun i => row + (a + 4 - i) % 4
  ring ++ (if a / 4 = b / 4 then [] else [b])

/-- The local numbers of the routers at which a packet leaves a die and enters the next (R384). -/
def edgeOf (a b : Nat) : Nat × Nat :=
  if a / 4 ≠ b / 4 then (if a < 4 then (32, 2) else (2, 32)) else if b % 4 = (a + 1) % 4 then (23, 12) else (12, 23)

/-- The routers on the way through dies, from a local number of the first to one of the last. -/
def routeOver (dst : Nat) : (src : Nat) → List Nat → List Nat
  | _, [] => []
  | src, [d] => legOn d src dst
  | src, d :: e :: ds => legOn d src (edgeOf d e).1 ++ routeOver dst (edgeOf d e).2 (e :: ds)

/-- The routers that a packet passes from one router to another of the compute dies, by their numbers on the device. -/
def route (src dst : Nat) : List Nat := routeOver (dst % 36) (src % 36) (diesBetween (src / 36) (dst / 36))

/-- The router of the home of a bank byte: its die is that of the bank (R284), its place on the die a constant of Config, since the spec gives none (log 76). -/
def homeRouter (key : Nat) : Nat :=
  let b := key / bankSize
  36 * (b / 96) + Config.homeRouter b % 36

/-! ## Reads in flight (R389, R390) -/

/-- Where the answer of a read of this device's memory is kept for the load that waits for it. -/
def meshKey (key : Nat) : Nat := 2 ^ 42 + key

/-- Is a read joinable: a plain one of windows 0x0 to 0xB, of memory of this device and no full/empty page (R390)? An acquire reads at the home. -/
def Place.joinable (p : Place) (va : Word64) (acquire : Bool) : Bool :=
  !p.fe && !acquire && ((window va).any fun w => decide (w < 12)) && (match p.tgt with | .home _ => true | _ => false)

/-- The reads in the table of a router: each with those that have joined it there. -/
def State.tableAt (s : State) (r : Nat) : List (MeshRead × List ReadId) :=
  s.reads.filterMap fun m => (m.entries.find? fun e => e.1 == r).map fun e => (m, e.2)

/-- Does a router hold an entry for a line that has room for one more read? -/
def State.joinAt (s : State) (line r : Nat) : Option MeshRead :=
  ((s.tableAt r).find? fun e => e.1.line == line && decide (e.2.length < 4)).map (·.1)

/-- Would a read of a line from a core join another on its way? -/
def State.wouldJoin (s : State) (core line : Nat) : Bool :=
  (s.reads.any fun m => m.line == line) && (route core (homeRouter (128 * line))).any fun r => (s.joinAt line r).isSome

/-- A read passes along its route: at the first router where it can, it joins; at each router before that it makes an entry where the table of 8 has room. -/
def State.passRead (s : State) (m : MeshRead) : List Nat → State
  | [] => { s with reads := s.reads ++ [m] }
  | r :: rs => match s.joinAt m.line r with
    | some e =>
      let join := fun (x : Nat × List ReadId) => if x.1 = r then (r, x.2 ++ [m.reader]) else x
      { s with reads := (s.reads.map fun x => if x = e then { e with entries := e.entries.map join } else x) ++ [{ m with joined := true }] }
    | none => s.passRead (if (s.tableAt r).length < 8 then { m with entries := m.entries ++ [(r, [])] } else m) rs

/-- A read of a line leaves a core for the line's home. -/
def State.sendRead (s : State) (who : ReadId) (core line : Nat) : State :=
  s.passRead ⟨who, line, [], false⟩ (route core (homeRouter (128 * line)))

/-- The readers that a reply reaches: its read, those that have joined its entries, those that have joined theirs, and so on. -/
def forks (reads : List MeshRead) (line : Nat) : (fuel : Nat) → List ReadId → List ReadId
  | 0, ids => ids
  | fuel + 1, ids =>
    let more := (reads.filter fun m => m.line == line && decide (m.reader ∈ ids)).flatMap fun m => m.entries.flatMap (·.2)
    forks reads line fuel ((ids ++ more).eraseDups)

end Sys2Proof.Machine
end

