-- ==== Sys2Proof/Machine/Num.lean ====
section
/-! DEFINITION. Number formats and exact arithmetic (spec/06): patterns and values (R140 to R146), `Round` (R151), the generators (R152), `Sat` (R153), exact sums (R117, R159), quotients and roots, the approximations of R118 within their bounds, and CRC-32C (R125). -/

namespace Sys2Proof.Machine

/-! ## Values -/

/-- The floating-point formats (R140). -/
inductive FF where
  | f32 | f16 | bf16 | e4m3 | e5m2 | e3m2 | e2m3 | e2m1
deriving DecidableEq, Repr, Inhabited

/-- Width of the exponent field (R140). -/
def FF.eb : FF → Nat
  | .f32 => 8 | .f16 => 5 | .bf16 => 8 | .e4m3 => 4 | .e5m2 => 5 | .e3m2 => 3 | .e2m3 => 2 | .e2m1 => 2
/-- Width of the fraction field (R140). -/
def FF.mb : FF → Nat
  | .f32 => 23 | .f16 => 10 | .bf16 => 7 | .e4m3 => 3 | .e5m2 => 2 | .e3m2 => 2 | .e2m3 => 3 | .e2m1 => 1
/-- The bias of the exponent (R140). -/
def FF.bias : FF → Int
  | .f32 => 127 | .f16 => 15 | .bf16 => 127 | .e4m3 => 7 | .e5m2 => 15 | .e3m2 => 3 | .e2m3 => 1 | .e2m1 => 1
/-- The width of a pattern. -/
def FF.bits (f : FF) : Nat := 1 + f.eb + f.mb
/-- Formats whose highest exponent holds the infinities and NaNs (R140). -/
def FF.special : FF → Bool
  | .f32 | .f16 | .bf16 | .e5m2 => true
  | _ => false
/-- The exponent of the smallest normal value. -/
def FF.emin (f : FF) : Int := 1 - f.bias
/-- The pattern of the largest finite value (R140). -/
def FF.maxPat : FF → Nat
  | .f32 => 0x7F7FFFFF | .f16 => 0x7BFF | .bf16 => 0x7F7F | .e4m3 => 0x7E | .e5m2 => 0x7B | .e3m2 => 0x1F
  | .e2m3 => 0x1F | .e2m1 => 0x7
/-- The canonical NaN (R116, R141); +0 in the formats that have none (R153). -/
def FF.nanPat : FF → Nat
  | .f32 => 0x7FC00000 | .f16 => 0x7E00 | .bf16 => 0x7FC0 | .e4m3 => 0x7F | .e5m2 => 0x7E
  | .e3m2 | .e2m3 | .e2m1 => 0

/-- The value of a pattern (R141). -/
def FF.dec (f : FF) (p : Nat) : FVal :=
  let s := p / 2 ^ (f.eb + f.mb) % 2 == 1
  let E := p / 2 ^ f.mb % 2 ^ f.eb
  let M := p % 2 ^ f.mb
  if f.special && E == 2 ^ f.eb - 1 then (if M = 0 then .inf s else .nan)
  else if f == .e4m3 && E == 15 && M == 7 then .nan
  else if E = 0 then .fin s M (f.emin - f.mb) false
  else .fin s (2 ^ f.mb + M) (E - f.bias - f.mb) false

/-- m × 2^t, rounded down. -/
def scale (m : Nat) (t : Int) : Nat := if 0 ≤ t then m * 2 ^ t.toNat else m / 2 ^ (-t).toNat

/-- The pattern of a value that the format holds. -/
def FF.enc (f : FF) : FVal → Nat
  | .nan => f.nanPat
  | .inf s => (if s then 2 ^ (f.eb + f.mb) else 0) + (2 ^ f.eb - 1) * 2 ^ f.mb
  | .fin s m e _ =>
    let sign := if s then 2 ^ (f.eb + f.mb) else 0
    let x : Int := (Nat.log2 m : Int) + e
    if m = 0 then sign
    else if x < f.emin then sign + scale m (e - (f.emin - f.mb))
    else sign + (scale m (f.mb - Nat.log2 m) + ((x + f.bias).toNat - 1) * 2 ^ f.mb)

/-- An integer as a value. -/
def FVal.ofInt (x : Int) : FVal := .fin (decide (x < 0)) x.natAbs 0 false
/-- The integer of a finite value with no fraction. -/
def FVal.toInt : FVal → Int
  | .fin s m e _ => if s then -(scale m e : Int) else scale m e
  | _ => 0
def FVal.neg : FVal → FVal
  | .nan => .nan
  | .inf s => .inf (!s)
  | .fin s m e x => .fin (!s) m e x
def FVal.abs : FVal → FVal
  | .nan => .nan
  | .inf _ => .inf false
  | .fin _ m e x => .fin false m e x
def FVal.isNeg : FVal → Bool
  | .nan => false
  | .inf s => s
  | .fin s _ _ _ => s
def FVal.isZero : FVal → Bool
  | .fin _ m _ x => m == 0 && !x
  | _ => false
def FVal.isNan : FVal → Bool
  | .nan => true
  | _ => false
def FVal.isFin : FVal → Bool
  | .fin _ _ _ _ => true
  | _ => false
/-- A finite value times 2^k. -/
def FVal.shift (v : FVal) (k : Int) : FVal :=
  match v with
  | .fin s m e x => .fin s m (e + k) x
  | v => v

/-- Compares m × 2^e with m' × 2^e'. -/
def cmpMag (m : Nat) (e : Int) (m' : Nat) (e' : Int) : Ordering :=
  let lo := if e ≤ e' then e else e'
  compare (m * 2 ^ (e - lo).toNat) (m' * 2 ^ (e' - lo).toNat)

/-- The order of two values that are no NaN; −0 equals +0. -/
def FVal.cmp (a b : FVal) : Ordering :=
  match a, b with
  | .inf s, .inf t => if s = t then .eq else if s then .lt else .gt
  | .inf s, _ => if s then .lt else .gt
  | _, .inf t => if t then .gt else .lt
  | .fin s m e _, .fin t m' e' _ =>
    if m = 0 ∧ m' = 0 then .eq
    else if m = 0 then (if t then .gt else .lt)
    else if m' = 0 then (if s then .lt else .gt)
    else if s ≠ t then (if s then .lt else .gt)
    else if s then cmpMag m' e' m e else cmpMag m e m' e'
  | _, _ => .eq
def FVal.lt (a b : FVal) : Bool := !a.isNan && !b.isNan && a.cmp b == .lt
def FVal.le (a b : FVal) : Bool := !a.isNan && !b.isNan && a.cmp b != .gt
def FVal.eq (a b : FVal) : Bool := !a.isNan && !b.isNan && a.cmp b == .eq

/-- VFMIN: −0 lies below +0, and one NaN gives the other operand (R117). -/
def FVal.min (a b : FVal) : FVal :=
  if a.isNan then b else if b.isNan then a
  else match a.cmp b with
    | .lt => a
    | .gt => b
    | .eq => if a.isNeg then a else b
/-- VFMAX. -/
def FVal.max (a b : FVal) : FVal :=
  if a.isNan then b else if b.isNan then a
  else match a.cmp b with
    | .lt => b
    | .gt => a
    | .eq => if a.isNeg then b else a

/-! ## Exact operations -/

/-- The rounding modes (R147). -/
def rNE : Nat := 0
def rDN : Nat := 3
def rSR : Nat := 5

/-- An exact finite term as sign and magnitude over 2^lo. -/
def FVal.over (lo : Int) : FVal → Int
  | .fin s m e _ => let x : Int := m * 2 ^ (e - lo).toNat; if s then -x else x
  | _ => 0
def FVal.expOf : FVal → Option Int
  | .fin _ m e _ => if m = 0 then none else some e
  | _ => none

/-- The exact sum of terms (R117, R159): a NaN term or infinities of both signs give NaN; an exact zero is +0, −0 under RDN, and −0 when every term is −0. -/
def sumF (rm : Nat) (ts : List FVal) : FVal :=
  if ts.any FVal.isNan then .nan
  else if ts.any (· == .inf false) then (if ts.any (· == .inf true) then .nan else .inf false)
  else if ts.any (· == .inf true) then .inf true
  else
    let lo := ((ts.filterMap FVal.expOf).foldl
      (fun (a : Option Int) x => match a with | none => some x | some y => some (if x ≤ y then x else y)) none).getD 0
    let x := (ts.filter fun t => !t.isZero).foldl (fun (a : Int) t => a + t.over lo) 0
    if x = 0 then .fin (rm == rDN || (!ts.isEmpty && ts.all fun t => t.isZero && t.isNeg)) 0 0 false
    else .fin (decide (x < 0)) x.natAbs lo false

def FVal.add (rm : Nat) (a b : FVal) : FVal := sumF rm [a, b]

/-- The exact product; zero times an infinity is NaN. -/
def FVal.mul (a b : FVal) : FVal :=
  match a, b with
  | .nan, _ => .nan
  | _, .nan => .nan
  | .inf s, .inf t => .inf (s != t)
  | .inf s, .fin t m _ _ => if m = 0 then .nan else .inf (s != t)
  | .fin s m _ _, .inf t => if m = 0 then .nan else .inf (s != t)
  | .fin s m e _, .fin t m' e' _ => .fin (s != t) (m * m') (e + e') false

/-- The quotient; 0/0 and ∞/∞ are NaN, and a non-zero value divided by zero is an infinity (R117). -/
def FVal.div (a b : FVal) : FVal :=
  match a, b with
  | .nan, _ => .nan
  | _, .nan => .nan
  | .inf _, .inf _ => .nan
  | .inf s, .fin t _ _ _ => .inf (s != t)
  | .fin s _ _ _, .inf t => .fin (s != t) 0 0 false
  | .fin s m e _, .fin t m' e' _ =>
    if m' = 0 then (if m = 0 then .nan else .inf (s != t))
    else if m = 0 then .fin (s != t) 0 0 false
    else
      let k := 65 + Nat.log2 m'
      .fin (s != t) (m * 2 ^ k / m') (e - e' - k) (m * 2 ^ k % m' != 0)

/-- The integer root of n below 2^k times a partial root r. -/
def rootBits : (k : Nat) → (r n : Nat) → Nat
  | 0, r, _ => r
  | k + 1, r, n => let r' := r + 2 ^ k; rootBits k (if r' * r' ≤ n then r' else r) n

/-- The square root (R118): −0 stays, a negative value gives NaN. -/
def FVal.sqrt : FVal → FVal
  | .nan => .nan
  | .inf s => if s then .nan else .inf false
  | .fin s m e _ =>
    if m = 0 then .fin s 0 0 false
    else if s then .nan
    else
      let k : Nat := 130 + (e % 2).toNat
      let n := m * 2 ^ k
      let r := rootBits (Nat.log2 n / 2 + 1) 0 n
      .fin false r ((e - k) / 2) (r * r != n)

/-! ## Rounding -/

/-- Does the rounding of a magnitude of sign s go up (R151)? q is the kept multiple of the grid, d = r / 2^t the discarded fraction. -/
def goesUp (rm W : Nat) (s : Bool) (q r t : Nat) (more : Bool) : Bool :=
  let half := if t = 0 then Ordering.lt else
    match compare (2 * r) (2 ^ t) with
    | .eq => if more then .gt else .eq
    | o => o
  let some_ := r != 0 || more
  match rm with
  | 0 => half == .gt || (half == .eq && q % 2 == 1)
  | 1 => false
  | 2 => some_ && !s
  | 3 => some_ && s
  | 4 => half != .lt
  | _ => decide (2 ^ 16 ≤ r * 2 ^ 16 / 2 ^ t + W)

/-- A finite value rounded to a grid of step 2^g. -/
def roundGrid (rm W : Nat) (s : Bool) (m : Nat) (e : Int) (more : Bool) (g : Int) : FVal :=
  if g ≤ e then .fin s m e false
  else
    let t := (g - e).toNat
    let q := m / 2 ^ t
    .fin s (if goesUp rm W s q (m % 2 ^ t) t more then q + 1 else q) g false

/-- `Round` into a floating-point format (R151). -/
def roundF (rm W : Nat) (f : FF) : FVal → FVal
  | .fin s m e more =>
    if m = 0 then .fin s 0 0 false
    else
      let x : Int := (Nat.log2 m : Int) + e
      roundGrid rm W s m e more ((if x ≤ f.emin then f.emin else x) - f.mb)
  | v => v
/-- `Round` into an integer format (R151). -/
def roundI (rm W : Nat) : FVal → FVal
  | .fin s m e more => if m = 0 then .fin s 0 0 false else roundGrid rm W s m e more 0
  | v => v

/-- Is the magnitude of a finite value at most that of a pattern? -/
def FVal.within (v : FVal) (f : FF) (p : Nat) : Bool := v.abs.cmp (f.dec p) != .gt

/-- `Sat` into a floating-point format, as a pattern (R153). -/
def satF (rm sm : Nat) (f : FF) (x : FVal) : Nat :=
  let sign := fun (s : Bool) => if s then 2 ^ (f.eb + f.mb) else 0
  match x with
  | .nan => f.nanPat
  | v =>
    let s := v.isNeg
    if v.isFin && v.within f f.maxPat then f.enc v
    else if sm = 1 || f == .e3m2 || f == .e2m3 || f == .e2m1 then sign s + f.maxPat
    else if f == .e4m3 then sign s + 0x7F
    else if !v.isFin then f.enc v
    else if rm = 0 || rm = 4 || rm = 5 || (rm = 2 && !s) || (rm = 3 && s) then f.enc (.inf s)
    else sign s + f.maxPat

/-- The ends of an integer format's range. -/
def intMin (w : Nat) (nat : Bool) : Int := if nat then 0 else -(2 ^ (w - 1))
def intMax (w : Nat) (nat : Bool) : Int := if nat then 2 ^ w - 1 else 2 ^ (w - 1) - 1
/-- An integer clamped to a range. -/
def clampInt (lo hi x : Int) : Int := if x < lo then lo else if hi < x then hi else x
/-- `Sat` into an integer format (R153, R122). -/
def satI (w : Nat) (nat : Bool) : FVal → Int
  | .nan => 0
  | .inf s => if s then intMin w nat else intMax w nat
  | v => clampInt (intMin w nat) (intMax w nat) v.toInt

/-- F of R116 with the word W drawn: Sat(Round(v, f), f). -/
def fOf (rm sm : Nat) (f : FF) (W : Nat) (v : FVal) : Nat := satF rm sm f (roundF rm W f v)

/-- The word with its low w bits of an integer. -/
def patOf (v : Int) (w : Nat) : Nat := (v % 2 ^ w).toNat

/-! ## Generators (R152) -/

/-- The states of the generators of the lanes. -/
abbrev Gens := Vector Word32 64
/-- The next state of a generator. -/
def genNext (x : Word32) : Word32 :=
  let x := x ^^^ (x <<< 13)
  let x := x ^^^ (x >>> 17)
  x ^^^ (x <<< 5)
/-- A draw by a lane: the 16-bit word and the states after it. -/
def draw (g : Gens) (lane : Nat) : Nat × Gens :=
  let x := genNext (vget g lane 1)
  (x.toNat / 65536, vset g lane x)
/-- The states that a write to `seed` leaves. -/
def seeded (x : Word64) : Gens :=
  Vector.ofFn fun l : Fin 64 =>
    let y := x.setWidth 32 ^^^ BitVec.ofNat 32 ((l.val + 1) * 0x9E3779B9)
    if y == 0 then 1 else y

/-- The rounding and saturation modes that an instruction takes from `fmt` (R147, R150). -/
structure Modes where
  rm : Nat
  sm : Nat
deriving DecidableEq, Repr
def modesOf (fmt : Word64) : Modes := ⟨(fmt.extractLsb' 13 3).toNat, (fmt.extractLsb' 16 2).toNat⟩

/-! ## The fields of `fmt` and `sfmt` (R147) -/

def fmtA (x : Word64) : Nat := (x.extractLsb' 0 5).toNat
def fmtB (x : Word64) : Nat := (x.extractLsb' 5 5).toNat
def fmtAcc (x : Word64) : Nat := (x.extractLsb' 10 3).toNat
def fmtPlanes (x : Word64) : Nat := (x.extractLsb' 18 4).toNat
def fmtCb (x : Word64) : Nat := (x.extractLsb' 22 3).toNat

/-- Is an operand format code reserved (R148)? -/
def codeReserved (c : Nat) : Bool := c == 0x11 || decide (0x19 ≤ c)
/-- The check of R149 on a value written to `fmt` or `sfmt`. -/
def fmtLegal (x : Word64) : Bool :=
  !codeReserved (fmtA x) && !codeReserved (fmtB x) && decide (fmtAcc x ≤ 3) && decide ((modesOf x).rm ≤ 5)
    && decide ((modesOf x).sm ≤ 1) && decide (fmtPlanes x ≤ 8)
/-- The value that `fmt` keeps: bits [63:25] read as zero. -/
def fmtKept (x : Word64) : Word64 := x &&& 0x1FFFFFF

/-- The word that a rounding uses: drawn by a lane under SR. -/
def Modes.word (m : Modes) (lane : Nat) (g : Gens) : Nat × Gens := if m.rm = rSR then draw g lane else (0, g)
/-- F(v) in a format, with a draw by a lane under SR (R116). -/
def Modes.F (m : Modes) (f : FF) (lane : Nat) (v : FVal) (g : Gens) : Nat × Gens :=
  let (W, g) := m.word lane g
  (fOf m.rm m.sm f W v, g)
/-- A value rounded to an integer and clamped, with a draw by a lane under SR (R122). -/
def Modes.toInt (m : Modes) (w : Nat) (nat : Bool) (lane : Nat) (v : FVal) (g : Gens) : Int × Gens :=
  let (W, g) := m.word lane g
  (satI w nat (roundI m.rm W v), g)

/-! ## Approximations within their bounds (R118)

The FP32 result is a free value of `Config` where it lies within the bound, and else the value nearest the exact one, so that a claim may rest on the bound and on nothing more (log 5). The exact value is computed as a fixed-point number with an error below 2^−100. -/

/-- 1 in fixed point. -/
def fixOne : Nat := 2 ^ 128
def ln2Fix : Nat := 0xb17217f7d1cf79abc9e3b39803f2f6af
def invLn2Fix : Nat := 0x171547652b82fe1777d0ffda0d23a7d11
def twoPiFix : Nat := 0x6487ed5110b4611a62633145c06e0e689
/-- 1 / 2π times 2^320. -/
def inv2Pi : Nat := 0x28be60db9391054a7f09d5f47d4d377036d8a5664f10e4107f9458eaf7aef1586dc91b8e909374b8

/-- e^t for t below 1 in fixed point. -/
def expFix (t : Nat) : Nat := (List.range 40).foldl (fun a i => fixOne + t * a / (fixOne * (40 - i))) fixOne
/-- 2^x for a fixed-point x ≥ 0, as m × 2^k with m in fixed point. -/
def exp2Fix (x : Nat) : FVal := .fin false (expFix (x % fixOne * ln2Fix / fixOne)) ((x / fixOne : Nat) - 128) false

/-- The magnitude of a finite value in fixed point. -/
def toFix (m : Nat) (e : Int) : Nat := scale m (e + 128)

/-- 2^x of a finite value; beyond ±256 only its side matters. -/
def refExp (s : Bool) (m : Nat) (e : Int) : FVal :=
  if cmpMag m e 256 0 == .gt then (if s then .fin false 0 0 false else .fin false 1 256 false)
  else if s then
    let x := 300 * fixOne - toFix m e
    (exp2Fix x).shift (-300)
  else exp2Fix (toFix m e)

/-- log2 of a positive finite value. -/
def refLog (m : Nat) (e : Int) : FVal :=
  let k := Nat.log2 m
  let one := 2 ^ k
  let z := (m - one) * fixOne / (m + one)
  let z2 := z * z / fixOne
  let series := (List.range 60).foldl (fun a i => fixOne / (2 * (59 - i) + 1) + z2 * a / fixOne) 0
  let frac := 2 * z * series / fixOne * invLn2Fix / fixOne
  let v : Int := ((k : Int) + e) * fixOne + frac
  .fin (decide (v < 0)) v.natAbs (-128) false

/-- tanh of a finite value. -/
def refTanh (s : Bool) (m : Nat) (e : Int) : FVal :=
  if cmpMag m e 64 0 == .gt then .fin s 1 0 false
  else
    let t := exp2Fix (2 * toFix m e * invLn2Fix / fixOne)
    let one : FVal := .fin false 1 0 false
    let q := (t.add 0 one.neg).div (t.add 0 one)
    if s then q.neg else q

/-- The angle of a finite magnitude reduced to [−π, π) in fixed point. -/
def angle (m : Nat) (e : Int) : Int :=
  let f : Nat := scale (m * inv2Pi) e % 2 ^ 320
  let th : Int := ((f * twoPiFix / 2 ^ 320 : Nat) : Int)
  if 2 ^ 319 ≤ f then th - twoPiFix else th
/-- sin (odd) or cos (even) of a fixed-point angle. -/
def trigFix (odd : Bool) (th : Int) : Int :=
  let t2 := th * th / fixOne
  let b := if odd then 1 else 0
  let acc := (List.range 32).foldl
    (fun (a : Int) i => let k := 2 * (32 - i); fixOne - t2 * a / (fixOne * ((k + b) * (k + b - 1) : Nat))) (fixOne : Int)
  if odd then th * acc / fixOne else acc
def refTrig (odd s : Bool) (m : Nat) (e : Int) : FVal :=
  let v := trigFix odd (angle m e)
  .fin (decide (v < 0) != (odd && s)) v.natAbs (-128) false

/-- n units in the last place of FP32 at a value. -/
def ulps (n : Nat) (v : FVal) : FVal :=
  match v with
  | .fin _ m e _ =>
    let x : Int := if m = 0 then -126 else Nat.log2 m + e
    .fin false n ((if x ≤ -126 then -126 else x) - 23) false
  | _ => .fin false 0 0 false

/-- The free FP32 value where it lies within a distance of the exact one, else the value nearest the exact one. -/
def approx (free : Nat) (ref bound : FVal) : FVal :=
  let y := FF.f32.dec free
  let near := roundF 0 0 .f32 ref
  if y.isFin then (if ((y.add 0 ref.neg).abs).le bound then y else near)
  else if y == .inf ref.isNeg && !(near.within .f32 FF.f32.maxPat) then y
  else near

/-- The opcodes of R118 that approximate. -/
inductive Approx where
  | rsq | rcp | exp | log | tanh | sin | cos
deriving DecidableEq, Repr

/-- The FP32 value of an approximation before `Sat`, from a value and its FP32 pattern (R118). -/
def Approx.value (op : Approx) (x : FVal) (p : Word32) : FVal :=
  match op, x with
  | _, .nan => .nan
  | .rsq, .inf s => if s then .nan else .fin false 0 0 false
  | .rcp, .inf s => .fin s 0 0 false
  | .exp, .inf s => if s then .fin false 0 0 false else .inf false
  | .log, .inf s => if s then .nan else .inf false
  | .tanh, .inf s => .fin s 1 0 false
  | .sin, .inf _ => .nan
  | .cos, .inf _ => .nan
  | .rsq, .fin s m e b =>
    if m = 0 then .inf s else if s then .nan
    else let r := (FVal.fin false 1 0 false).div (FVal.sqrt (.fin s m e b)); approx (Config.approxRsq p).toNat r (ulps 1 r)
  | .rcp, .fin s m e b =>
    if m = 0 then .inf s
    else let r := (FVal.fin false 1 0 false).div (.fin s m e b); approx (Config.approxRcp p).toNat r (ulps 1 r)
  | .exp, .fin s m e _ => let r := refExp s m e; approx (Config.approxExp p).toNat r (ulps 2 r)
  | .log, .fin s m e b =>
    if m = 0 then .inf true else if s then .nan
    else if (FVal.fin s m e b).eq (.fin false 1 0 false) then .fin false 0 0 false
    else
      let r := refLog m e
      let close := cmpMag m e 1 (-1) != .lt && cmpMag m e 2 0 != .gt
      approx (Config.approxLog p).toNat r (if close then (ulps 2 r).min (.fin false 1 (-21) false) else ulps 2 r)
  | .tanh, .fin s m e _ =>
    if m = 0 then .fin s 0 0 false
    else let r := refTanh s m e; approx (Config.approxTanh p).toNat r ((ulps 2 r).max (.fin false 1 (-23) false))
  | .sin, .fin s m e _ =>
    if m = 0 then .fin s 0 0 false else approx (Config.approxSin p).toNat (refTrig true s m e) (.fin false 1 (-21) false)
  | .cos, .fin s m e _ =>
    if m = 0 then .fin false 1 0 false else approx (Config.approxCos p).toNat (refTrig false s m e) (.fin false 1 (-21) false)

/-- The result of an approximation in a format (R118): at 16 bits, the FP32 result of the widened input converted once. -/
def Approx.result (op : Approx) (sm : Nat) (f : FF) (x : FVal) : Nat :=
  let r := satF 0 sm .f32 (op.value x (BitVec.ofNat 32 (FF.f32.enc x)))
  if f = .f32 then r else fOf 0 sm f 0 (FF.f32.dec r)

/-! ## Classification, CRC-32C and the operand codes -/

/-- The class bit of a pattern (R119). -/
def FF.cls (f : FF) (p : Nat) : Nat :=
  let M := p % 2 ^ f.mb
  match f.dec p with
  | .nan => if M / 2 ^ (f.mb - 1) = 0 then 8 else 9
  | .inf s => if s then 0 else 7
  | .fin s m _ _ =>
    let normal := p / 2 ^ f.mb % 2 ^ f.eb != 0
    match s, m == 0, normal with
    | true, true, _ => 3
    | false, true, _ => 4
    | true, false, true => 1
    | true, false, false => 2
    | false, false, false => 5
    | false, false, true => 6

/-- Eight bit steps of the reflected CRC-32C. -/
def crcBits : (k : Nat) → Word32 → Word32
  | 0, c => c
  | k + 1, c => crcBits k (if c.getLsbD 0 then (c >>> 1) ^^^ 0x82F63B78 else c >>> 1)
/-- CRC-32C of bytes (RFC 3720). -/
def crc32c (bs : List Byte) : Word32 :=
  ~~~(bs.foldl (fun c b => crcBits 8 (c ^^^ b.setWidth 32)) (BitVec.allOnes 32))

end Sys2Proof.Machine
end

