-- ==== Sys2Proof/Machine/Ops.lean ====
section
/-! DEFINITION. The shared operations of every meaning: how an instruction stops, operands and results, retiring and transferring, the counters of R34, packets, the end of a group, saved state, taking a trap (R361 to R363), parking (R367), failing a region (R410), halting a bank core (R289), and returning from a handler (R378). -/

namespace Sys2Proof.Machine

/-! ## How an instruction stops -/

/-- A precise trap: its cause, `tval`, lane fault mask, highest failing address (R363), and the access kind of a fault record (R369). -/
structure TrapRec where
  cause : Cause
  tval : Word64
  lanes : Word64
  addr2 : Word64
  kind : Nat
deriving DecidableEq, Repr

/-- Why an instruction does not complete in this step. -/
inductive Halt where
  /-- It traps precisely (R27). -/
  | trap (t : TrapRec)
  /-- It stalls, holding its issue slot, and is tried again (R98). -/
  | stall
  /-- It stalls for data of other devices or of absent teams: device and aligned 256-byte block (R399, R211). -/
  | ask (reqs : List (Nat × Nat))
  /-- It stalls for old values of atomics on other devices or at absent teams, by location, with the operands in element order (R241, R405). -/
  | atom (reqs : List (Tgt × List AtomArg))
  /-- It suspends its path (R98). -/
  | suspend (w : Wait)
  /-- The group's spill store cannot be reached (R199). -/
  | broken (addr : Word64)
  /-- An open region would need a 65th line (R408). -/
  | full
deriving DecidableEq, Repr

/-- The result of a meaning before it becomes a step: a value, or why it stops. -/
abbrev Res (α : Type) := Except Halt α
/-- The outcome type of every meaning. -/
abbrev Out := Host.Outcome State Fault Refusal

def trapOf (c : Cause) (tval : Word64) : Halt := .trap ⟨c, tval, 0, tval, 1⟩
/-- A precise trap with its cause and `tval`; lanes 0 and addr2 equal to `tval` (R363). -/
def raise {α : Type} (c : Cause) (tval : Word64) : Res α := .error (trapOf c tval)
def illegal {α : Type} : Res α := raise .illegalOp 0
/-- Continues when a condition holds, else stops with a trap. -/
def need (b : Bool) (c : Cause) (tval : Word64) : Res Unit := if b then .ok () else raise c tval
def needOp (b : Bool) : Res Unit := need b .illegalOp 0
/-- Continues when a condition holds, else stalls. -/
def await (b : Bool) : Res Unit := if b then .ok () else .error .stall

/-! ## Operands and results -/

/-- A scalar register; s0 reads as zero (R14). -/
def Hart.sreg (h : Hart) (n : BitVec 6) : Word64 := if n = 0 then 0 else vget h.s n.toNat 0
/-- Writes a scalar register; a write to s0 has no effect (R14). -/
def Hart.setS (h : Hart) (n : BitVec 6) (x : Word64) : Hart := if n = 0 then h else { h with s := vset h.s n.toNat x }

/-- The integer of an inline constant, −16 to 15 (R41); the argument holds the low five bits of the field. -/
def constInt (c : BitVec 5) : Int := (c.toNat : Int) - 16
def constS (c : BitVec 5) : Word64 := BitVec.ofInt 64 (constInt c)

/-- The bits of a valid latch of a kind; any other latch traps (R42). -/
def Path.latch (p : Path) (k : BitVec 2) (kind : LatchKind) : Res VWord :=
  let l := vget p.latches k.toNat default
  if l.kind = kind then .ok l.bits else raise .latchInvalid 0

/-- A scalar source (R40, R41). -/
def State.opnd (s : State) : Src → Res Word64
  | .reg n => .ok (s.hart.sreg n)
  | .latch k => (s.path.latch k .scalar).map (·.setWidth 64)
  | .const c => .ok (constS c)

/-- The focus hart with a scalar result in its destination; nw keeps the register file (R43). -/
def State.setDst (s : State) (d : Dst) (x : Word64) : State := if d.nw then s else s.setHart (s.hart.setS d.reg x)

def Latch.none : Latch := ⟨.invalid, 0⟩
def Latch.scalar (x : Word64) : Latch := ⟨.scalar, x.setWidth 2048⟩
def Latch.vector (v : VWord) : Latch := ⟨.vector, v⟩
def Latch.mask (m : MWord) : Latch := ⟨.mask, m.setWidth 2048⟩

/-! ## Retiring and transferring -/

/-- The address of the word that the path is to execute. -/
def Path.wordAddr (p : Path) : Word64 :=
  match p.clause with
  | some c => c.hdr + BitVec.ofNat 64 (4 * c.idx)
  | none => p.pc
/-- The address of the path's current clause header. -/
def Path.header (p : Path) : Word64 :=
  match p.clause with
  | some c => c.hdr
  | none => p.pc
/-- The header that follows the clause (R72). -/
def Path.nextHeader (p : Path) : Word64 :=
  match p.clause with
  | some c => c.hdr + BitVec.ofNat 64 (4 * (c.count + 1))
  | none => p.pc

/-- The path at the header of another clause, its latches shifted; a yield hint acts on its next readiness (R100). -/
def Path.goto (p : Path) (pc : Word64) : Path :=
  let y := match p.clause with | some c => c.yield | none => false
  { p with pc := pc, clause := none, yielded := y, aging := if y then 0 else p.aging, issuing := false }

/-- Shifts the latches (R23 step 5, R24); a path that is at a boundary then became ready now (R100). -/
def Path.shift (p : Path) (tick : Nat) (b0 : Latch) : Path :=
  { p with since := tick, latches := #v[b0, vget p.latches 0 default, vget p.latches 1 default, vget p.latches 2 default],
           stalled := false, grant := none, arrived := false, replay := false, part := [] }

/-- The path past the n words that an instruction takes; after the last word, at the following header (R23 step 6). -/
def Path.advance (p : Path) (n : Nat) : Path :=
  match p.clause with
  | none => p
  | some c => if c.idx + n ≤ c.count then { p with clause := some { c with idx := c.idx + n } } else p.goto p.nextHeader

/-- Remote data that an instruction has consumed is forgotten when it completes. -/
def Hart.forget (h : Hart) : Hart := { h with arrived := [], asked := [], bad := [] }

/-- The focus after an instruction of n words with its result in b0. -/
def State.retire (s : State) (n : Nat) (b0 : Latch) : State :=
  s.setHart ((s.hart.setPath s.cur.path ((s.path.shift s.tick b0).advance n)).forget)

/-- The focus after a taken transfer. -/
def State.jump (s : State) (b0 : Latch) (target : Word64) : State :=
  s.setHart ((s.hart.setPath s.cur.path ((s.path.shift s.tick b0).goto target)).forget)

/-- A scalar result retires: written to its destination and to b0. -/
def State.retireS (s : State) (n : Nat) (d : Dst) (x : Word64) : State := (s.setDst d x).retire n (.scalar x)

/-- The checks of R69 on a taken transfer's target: on a bank core, R287. -/
def State.checkTarget (s : State) (t : Word64) : Res Unit :=
  if s.onBank then do
    need (decide (t.toNat < 65536 * (s.bankOf s.cur.bank).region.pages)) .accessViolation t
    need (t.toNat % 4 == 0) .misaligned t
  else do
    need (t.extractLsb' 56 8 == 0 && decide ((t.extractLsb' 52 4).toNat < 12)) .accessViolation t
    need (t.toNat % 4 == 0) .misaligned t

/-- The target of a displacement in words from the header (R48). -/
def State.dispTarget (s : State) (d : Word64) : Word64 := s.path.header + 4 * d

/-! ## Counters (R34, R224, R256) -/

/-- Drops the completed operations at the head; how many were dropped. -/
def creditHead : List (Nat × Bool) → List (Nat × Bool) × Nat
  | [] => ([], 0)
  | (i, d) :: l => if d then let (l', n) := creditHead l; (l', n + 1) else ((i, d) :: l, 0)

/-- An operation of a counter completes; the counter credits in issue order (R256). -/
def Hart.complete (h : Hart) (k id : Nat) : Hart :=
  let marked := (vget h.ledger k []).map fun e => if e.1 = id then (e.1, true) else e
  let (l, n) := creditHead marked
  { h with ledger := vset h.ledger k l, credited := vset h.credited k (vget h.credited k 0 + n) }

/-- Raises a counter for operation id. -/
def Hart.raiseCtr (h : Hart) (k id : Nat) : Hart :=
  { h with ledger := vset h.ledger k (vget h.ledger k [] ++ [(id, false)]) }

/-- Numbers of the counters (R34). -/
def kCopy : Nat := 0
def kGath : Nat := 1
def kMat : Nat := 2
def kColl : Nat := 3
def kNear : Nat := 4
def kGraph : Nat := 5
def kFab : Nat := 6
def kSt : Nat := 7

def State.completeOp (s : State) (i : HartId) (k id : Nat) : State := s.setHartOf i ((s.hartOf i).complete k id)

/-- A put has been written or discarded: its sender's counter falls, or its sender's device is answered (R210, R401). -/
def State.putDone (s : State) (src : Port) (st : Option Nat) (remote : Option FabPkt) : State :=
  let s := match src, st with
    | .group k g, some id => s.completeOp (.group k g) kSt id
    | _, _ => s
  match remote with
  | some p => s.ack p
  | none => s

/-! ## The end of a group -/

def State.modNode (s : State) (l n : Nat) (f : NodeRun → NodeRun) : State :=
  match mfind l s.launches with
  | none => s
  | some x => { s with launches := mset l { x with nodes := modifyAt f n x.nodes } s.launches }

/-- A word that cannot be stored is not written, and the failure is logged (R348). -/
def State.putWord (s : State) (asid : Nat) (va : Nat) (x : Nat) : State :=
  match s.vwrite asid true va (leBytes 8 x) with
  | .ok t => t
  | .error c => s.logError .engine c.code 0 asid 0 (BitVec.ofNat 64 va)

/-- The code of a node's state in its status word (R343). -/
def NodeStatus.code : NodeStatus → Nat
  | .waiting => 0 | .ready => 1 | .tendered => 2 | .running => 3 | .done => 4 | .failed => 5 | .skipped => 6

/-- A node's status word (R343). -/
def NodeRun.word (n : NodeRun) : Nat :=
  n.result.toNat * 2 ^ 32 + n.cause.toNat * 2 ^ 24 + n.status.code * 2 ^ 16 + n.counter % 2 ^ 13

/-- The status word of a node is mirrored; the record of a TENDER has no status area. -/
def State.mirror (s : State) (l n : Nat) : State :=
  match mfind l s.launches with
  | none => s
  | some x => match x.nodes[n]? with
    | some r => if x.queue.isSome then s.putWord x.asid (x.status.toNat + 8 * n) r.word else s
    | none => s

/-- A node changes, and its status word with it. -/
def State.changeNode (s : State) (l n : Nat) (f : NodeRun → NodeRun) : State := (s.modNode l n f).mirror l n

/-- Tells the port translation tables to release a team's entries (R203, R373). -/
def State.dropPorts (s : State) (k : Nat) : State :=
  { s with cores := s.cores.map fun (c, x) =>
      (c, { x with ports := x.ports.map fun e => if e.team = k then default else e, hold := x.hold.filter (·.team != k) }) }

/-- Unbinds the fold that a team has bound: it leaves its graph's member set (R326). -/
def State.unbindFold (s : State) (c : Nat) : State :=
  match (s.coreOf c).fold with
  | none => s
  | some f =>
    let leave := fun (g : Fold) => if g.asid = f.asid ∧ g.graph = f.graph then { g with members := g.members.filter (· != c) } else g
    { s with cores := s.cores.map fun (i, x) => (i, { x with fold := if i = c then none else x.fold.map leave }) }

/-- Does a team hold no group and no running stream any more (R203)? -/
def State.teamOver (s : State) (k : Nat) : Bool :=
  let t := s.teamOf k
  t.live && (s.liveGids k).isEmpty && (t.seq.st == .absent || t.seq.st == .stopped)

/-- Puts held for a released allocation are discarded and logged (R210). -/
def State.discardHeld (s : State) (k : Nat) : State :=
  let t := s.teamOf k
  ((s.coreOf t.core).hold.filter (·.team == k)).foldl
    (fun s h => (s.logError .discarded 0 t.core t.asid 0 (BitVec.ofNat 64 (h.tile * 256))).putDone h.src h.st h.remote) s

/-- What a group receives of an answer that it still waits for. -/
def Hart.receive (h : Hart) (asked : Nat × Nat) (cells : List ((Nat × Nat) × Byte)) (bad : List ((Nat × Nat) × Cause)) : Hart :=
  if asked ∈ h.asked then { h with arrived := cells ++ h.arrived, bad := bad ++ h.bad } else h
/-- What an engine of a team receives. -/
def Team.receive (t : Team) (asked : Nat × Nat) (cells : List ((Nat × Nat) × Byte)) (bad : List ((Nat × Nat) × Cause)) : Team :=
  if asked ∈ t.asked then { t with arrived := cells ++ t.arrived, bad := bad ++ t.bad } else t

/-- The agent that waits for the answer of a packet in a ring is told that it was refused. -/
def State.refuseAsker (s : State) (src : Port) (asked : Nat × Nat) (n : Nat) : State :=
  let bad := (blocksOf 64 asked.2 n).map fun g => ((asked.1, g), Cause.accessViolation)
  match src with
  | .group j g => s.setHartOf (.group j g) ((s.hartOf (.group j g)).receive asked [] bad)
  | .engine j => s.setTeamOf j ((s.teamOf j).receive asked [] bad)
  | _ => s

/-- The packets that a ring still holds when its team ends: each is logged as discarded, and one that waits for an answer is refused, as one that arrives later would be (R205, R210, R437). -/
def State.discardRing (s : State) (k : Nat) : State :=
  let t := s.teamOf k
  t.bounced.foldl (fun s b =>
    let s := s.logError .discarded 0 t.core t.asid 0 (BitVec.ofNat 64 b.off)
    match b.remote, b.op with
    | some p, .load _ _ => s.sendOn (answerTo 0x10 p 1) p.path
    | some p, .atomic _ _ => s.sendOn (answerTo 0x12 p 1) p.path
    | none, .load n (some asked) => s.refuseAsker b.src asked n
    | none, .atomic _ (some (key, addr, j)) => s.refuseAsker b.src (key - 1024 * j, addr) 1
    | _, _ => s) s

/-- Releases a team's allocation and resources once its last group has ended and its stream has stopped (R203, R347). -/
def State.releaseTeam (s : State) (k : Nat) : State :=
  if !s.teamOver k then s
  else
    let t := s.teamOf k
    let s := ((s.discardHeld k).discardRing k).dropPorts k
    let s := s.setTeamOf k { Team.vacant with result := t.result, launch := t.launch, node := t.node, tid := t.tid, groups := t.groups, asid := t.asid, roles := t.roles, feat := t.feat, core := t.core, serial := t.serial }
    { s with bell := { s.bell with stalled := false } }.changeNode t.launch t.node fun n =>
      { n with ended := n.ended + 1, result := n.result ||| t.result }

/-- The tiles with every token of a group returned to the engine (R75). -/
def returnTokens (g : Nat) (acc : AMap Nat Tile) : AMap Nat Tile :=
  acc.map fun (i, x) => (i, if x.token = some g then { x with token := none } else x)

/-- A group ends (R30, R75): tokens, blocks and a lent spare block return; the end of the team's last group unbinds its fold and stops its stream; `cause` is that of an unhandled trap (R347). -/
def State.endGroup (s : State) (k g : Nat) (cause : Option (BitVec 7)) : State :=
  let h := s.hartOf (.group k g)
  let s := s.setHartOf (.group k g)
    { h with live := false, p0 := Path.idle, p1 := Path.idle, recs := [], region := none, causes := [], held := 0 }
  let t := s.teamOf k
  let c := s.coreOf t.core
  let s := if c.spare = some (k, g) then
      (s.setCoreOf t.core { c with spare := none }).setTeamOf k { t with roles := modifyAt (fun r => { r with lent := false }) h.role t.roles }
    else s
  let t := s.teamOf k
  let s := s.setTeamOf k { t with acc := returnTokens g t.acc }
  let s := match cause with
    | none => s
    | some c => s.changeNode t.launch t.node fun n => { n with trapped := true, cause := c }
  if (s.liveGids k).isEmpty then
    let s := match (s.coreOf t.core).fold with
      | some f => if f.team = k then s.unbindFold t.core else s
      | none => s
    let t := s.teamOf k
    let s := s.setTeamOf k { t with seq := { t.seq with stopAsked := t.seq.stopAsked || t.seq.st == .running } }
    let t := s.teamOf k
    let s := if t.seq.st = .faulted then s.setTeamOf k { t with seq := { t.seq with st := .stopped } } else s
    s.releaseTeam k
  else s

/-! ## Saved state (R363, R366) -/

/-- A code for what a path waits for, in its saved path state (log 8). -/
def Wait.code : Wait → Byte
  | .blocks _ => 1 | .token _ => 2 | .barrier _ _ _ made => if made then 15 else 3 | .sync _ _ => 4 | .message _ => 5 | .item => 6
  | .counter _ _ => 7 | .wave _ _ _ _ => 8 | .tile _ _ _ _ => 9 | .debug => 10 | .drain => 11 | .header _ _ => 12
  | .parked _ => 13 | .ringRoom _ _ _ _ => 14

/-- A path's saved state, 96 bytes: pc, `emask`, `fmt`, clause word index, suspension kind, replay flag (R366; the places are log 8). -/
def Path.bytes (p : Path) : List Byte :=
  leBytes 8 p.pc.toNat ++ leBytes 8 p.emask.toNat ++ leBytes 8 p.fmt.toNat
    ++ [match p.clause with | some c => BitVec.ofNat 8 c.idx | none => 0,
        match p.susp with | some w => w.code | none => 0, if p.replay then 1 else 0]
    ++ List.replicate 69 0

def LatchKind.code : LatchKind → Nat
  | .invalid => 0 | .scalar => 1 | .vector => 2 | .mask => 3
def LatchKind.ofCode : Nat → LatchKind
  | 1 => .scalar | 2 => .vector | 3 => .mask | _ => .invalid

/-- The kinds of a path's latches, two bits each (R363). -/
def Path.latchKinds (p : Path) : Nat :=
  (List.range 4).foldl (fun n k => n + (vget p.latches k default).kind.code * 4 ^ k) 0

def Path.latchBytes (p : Path) : List Byte :=
  (List.range 4).flatMap fun k => leBytes 256 (vget p.latches k default).bits.toNat

/-- A path with the latches of saved bytes and kinds. -/
def Path.withLatches (p : Path) (kinds : Nat) (bs : List Byte) : Path :=
  { p with latches := Vector.ofFn fun k : Fin 4 =>
      ⟨LatchKind.ofCode (kinds / 4 ^ k.val % 4), bytesToBits 2048 ((bs.drop (256 * k.val)).take 256)⟩ }

/-- The base of a group's saved-state area (R199). -/
def Hart.savedBase (h : Hart) : Nat := (h.spbase - 65536).toNat

/-- The trap frame (R363). -/
def frameBytes (h : Hart) (p : Bool) (epc lanes addr2 : Word64) (serial : BitVec 32) : List Byte :=
  leBytes 8 (h.path p).header.toNat ++ leBytes 8 epc.toNat ++ leBytes 8 lanes.toNat ++ leBytes 8 addr2.toNat
    ++ [BitVec.ofNat 8 (h.path p).latchKinds, if p then 1 else 0, if h.sys then 1 else 0, BitVec.ofNat 8 (Nat.min h.lost 255)]
    ++ leBytes 4 serial.toNat ++ List.replicate 24 0

/-- A divergence record in 32 bytes (R93, R366): its lanes, of each child the lanes while it is open and its `emask` once it has closed, and the saved `fmt`. The rest of a record, which 32 bytes cannot hold, stays with the device (log 8). -/
def DivRec.bytes (r : DivRec) : List Byte :=
  leBytes 8 r.lanes.toNat ++ leBytes 8 (if r.takenOpen then r.taken else r.takenMask).toNat
    ++ leBytes 8 (if r.fallOpen then r.fall else r.fallMask).toNat ++ leBytes 8 r.fmt.toNat

/-- A record with what its 32 bytes say. -/
def DivRec.loadBytes (r : DivRec) (bs : List Byte) : DivRec :=
  let f := fun (i : Nat) => (bytesToBits 64 ((bs.drop (8 * i)).take 8) : Word64)
  let r := { r with lanes := f 0, fmt := if fmtLegal (fmtKept (f 3)) then fmtKept (f 3) else 0 }
  let r := if r.takenOpen then { r with taken := f 1 } else { r with takenMask := f 1 }
  if r.fallOpen then { r with fall := f 2 } else { r with fallMask := f 2 }

/-- The records that lie in hardware, the newest 32, as the saved-state area holds them (R93, R366). -/
def Hart.recBytes (h : Hart) : List Byte := (h.recs.take 32).flatMap DivRec.bytes
/-- A group's records with what the saved-state area holds of those in hardware. -/
def Hart.loadRecs (h : Hart) (bs : List Byte) : Hart :=
  let n := Nat.min 32 h.recs.length
  { h with recs := ((List.range n).zip h.recs).map (fun (x : Nat × DivRec) => x.2.loadBytes ((bs.drop (32 * x.1)).take 32)) ++ h.recs.drop n }

/-- The cause that a code names (R357). -/
def Cause.ofCode (n : Nat) : Cause :=
  match n with
  | 0x01 => .illegalOp | 0x02 => .illegalClause | 0x03 => .latchInvalid | 0x04 => .misaligned | 0x05 => .pageFault
  | 0x06 => .accessViolation | 0x07 => .stackLimit | 0x08 => .featureAbsent | 0x09 => .accToken | 0x0A => .dataCheck
  | 0x0B => .poison | 0x0C => .rowNotFull | 0x0D => .bidWithdrawn | 0x0E => .blockDenied | 0x0F => .barrierMisuse
  | 0x10 => .collAbort | 0x11 => .peerKilled | 0x12 => .waveLimit | 0x13 => .graphBound | 0x14 => .machineCheck
  | n => .software (BitVec.ofNat 6 n)

/-- Writes the frame, the path state and the latches of both paths, and the records in hardware (R97, R362 step 2). -/
def State.saveTrap (s : State) (i : HartId) (p : Bool) (epc lanes addr2 : Word64) (serial : BitVec 32) : Except Cause State := do
  let h := s.hartOf i
  let asid := h.asid.toNat
  let s ← s.vwrite asid true h.savedBase (frameBytes h p epc lanes addr2 serial ++ h.p0.bytes ++ h.p1.bytes)
  let s ← s.vwrite asid true (h.savedBase + 0x400) (h.p0.latchBytes ++ h.p1.latchBytes)
  s.vwrite asid true (h.savedBase + 0xE00) h.recBytes

/-! ## Taking a trap -/

/-- A group whose spill store fails `Translate` ends as an unhandled MACHINE_CHECK, and it is logged (R199). -/
def State.spillLost (s : State) (k g : Nat) (addr : Word64) : State :=
  let h := s.hartOf (.group k g)
  (s.logError .machineCheck Cause.machineCheck.code (s.teamOf k).core h.asid.toNat g addr).endGroup k g
    (some Cause.machineCheck.code)

/-- The value of `tcause` (R358). -/
def tcauseOf (c : Cause) (boundary parked : Bool) : Word64 :=
  (0#55 ++ BitVec.ofBool parked ++ BitVec.ofBool boundary ++ c.code : BitVec 64)

/-- A suspension ends without its condition: the pending phase of its barrier is as it was, and the arrival of a BARAW stands (R275, R371). -/
def Hart.abandon (h : Hart) (p : Bool) : Hart :=
  match (h.path p).susp with
  | some (.barrier b ph pended made) =>
    let h := if pended then { h with pend := vset h.pend b (some ph) } else h
    h.setPath p { h.path p with arrived := made }
  | _ => h

/-- The registers of a group that enters its handler: saved cause, value and address, system mode, the trapping path at the handler with invalid latches, the other path, if there is one, stopped (R97, R362 steps 3 and 5). -/
def Hart.enter (h : Hart) (p : Bool) (t : TrapRec) (boundary : Bool) (epc handler : Word64) : Hart :=
  let h := h.abandon p
  let x := h.path p
  let h := { h with tcause := tcauseOf t.cause boundary false, tval := t.tval, epc := epc, sys := true, stopOther := if (h.path (!p)).active then some (!p) else none }
  h.setPath p { x with clause := none, pc := handler, susp := none, grant := none, stalled := false, arrived := false, issuing := false, part := [],
                       latches := Vector.replicate 4 Latch.none }

/-- Taking a trap, with no region open (R362): in system mode the group ends and the trap is logged; else the frame and the latches are saved, the registers are set, and the handler runs, or the group ends when the context has none. A handler's address is no transfer target (R21): one that is no multiple of 4 is taken as it is, and its words are fetched from there: DESIGN CHOICE (log 68). -/
def State.enterTrap (s : State) (k g : Nat) (p : Bool) (t : TrapRec) (boundary : Bool) (epc : Word64) : State :=
  let h := s.hartOf (.group k g)
  if h.sys then
    (s.logError .trap t.cause.code (s.teamOf k).core h.asid.toNat g epc).endGroup k g (some t.cause.code)
  else match s.saveTrap (.group k g) p epc t.lanes t.addr2 0 with
    | .error _ => s.spillLost k g (BitVec.ofNat 64 h.savedBase)
    | .ok s =>
      let handler := (s.ctx h.asid.toNat).handler
      let s := s.setHartOf (.group k g) ((s.hartOf (.group k g)).enter p t boundary epc handler)
      if handler = 0 then s.endGroup k g (some t.cause.code) else s

/-- The reasons of a region's failure (R411). -/
inductive RegionReason where
  | abort | full | trap (t : TrapRec) (boundary : Bool) (epc : Word64) | unreachable (dev : BitVec 10) | refused (dev : BitVec 10) | evicted
deriving DecidableEq, Repr

/-- The value of `fcause` (R411). -/
def RegionReason.fcause : RegionReason → Word64
  | .abort => 0x01
  | .full => 0x02
  | .trap t _ _ => 0x03 + t.cause.code.setWidth 64 * 256
  | .unreachable d => 0x04 + d.setWidth 64 * 65536
  | .refused d => 0x05 + d.setWidth 64 * 65536
  | .evicted => 0x06

/-- The checkpoint's registers back in place, the region closed (R410 step 2): the path that held all lanes resumes. -/
def Hart.rollback (h : Hart) (r : Region) : Hart :=
  let h := { h with s := r.cs, v := r.cv.foldl (fun v (e : Nat × VWord) => vset v e.1 e.2) h.v, vl := r.cvl, vtype := r.cvtype,
                    recs := h.recs.drop (h.recs.length - r.depth), region := none }
  let x := h.path r.path
  let h := h.setPath (!r.path) Path.idle
  h.setPath r.path { x with active := true, lanes := BitVec.allOnes 64, emask := r.cemask, fmt := r.cfmt, clause := none,
                            susp := none, grant := none, stalled := false, arrived := false, issuing := false, part := [],
                            latches := Vector.replicate 4 Latch.none }

/-- The send register of an item that is a message flit. -/
def SQEntry.sendReg (e : SQEntry) : Option Nat :=
  match e.op with
  | .flit _ _ _ _ j => some j
  | _ => none

/-- The counters of held items that will not be performed are credited, and their send registers are free (R410 step 1). -/
def Hart.creditItems (h : Hart) (items : List SQEntry) : Hart :=
  items.foldl (fun h e =>
    let h := match e.sendReg with | some j => { h with send := vset h.send j none } | none => h
    let h := if e.st then h.complete kSt e.id else h
    if e.fab then h.complete kFab e.id else h) h

/-- The devices that held items of a region target. -/
def SQEntry.devices (e : SQEntry) : List Nat :=
  (match e.op with
   | .bytes cs _ _ => cs.filterMap fun (c : Tgt × Byte) => c.1.device
   | .flag cs _ => cs.filterMap fun (c : Tgt × Byte) => c.1.device
   | .put t _ _ => t.device.toList
   | _ => []).eraseDups

/-- Region-abort packets to the devices of a region's items (R410 step 1); stores to fabric-shared lines that are not staged yet go no further. -/
def State.abortStaged (s : State) (k g : Nat) (r : Region) : State :=
  let t := s.teamOf k
  let s := { s with fabric := { s.fabric with fsJobs := s.fabric.fsJobs.filter fun j => j.asked || !(r.phases.any fun x => j.pkt.rg && j.pkt.region == x.1) } }
  r.phases.foldl (fun s x =>
    ((x.2.flatMap SQEntry.devices).eraseDups).foldl (fun s d =>
      (s.sendPkt { FabPkt.blank 0x22 d t.asid t.core g 0 with rg := true, region := x.1 }).1) s) s

/-- The registers that a failed region sets (R410 step 3). -/
def Hart.setFailed (h : Hart) (why : RegionReason) : Hart :=
  let h := { h with fcause := why.fcause }
  match why with
  | .trap t b epc => { h with tcause := tcauseOf t.cause b false, tval := t.tval, epc := epc }
  | _ => h

/-- An open region fails (R410): held items go, the checkpoint returns, and the path begins the clause at the handler, whose address is checked now (R412). -/
def State.failRegion (s : State) (k g : Nat) (why : RegionReason) : State :=
  let h := s.hartOf (.group k g)
  match h.region with
  | none => s
  | some r =>
    let s := if r.staged then s.abortStaged k g r else s
    let h := s.hartOf (.group k g)
    let h := ((h.creditItems r.items).rollback r).setFailed why
    let bad : Option Cause :=
      if r.handler.extractLsb' 56 8 != 0 || decide (12 ≤ (r.handler.extractLsb' 52 4).toNat) then some .accessViolation
      else if r.handler.toNat % 4 != 0 then some .misaligned else none
    match bad with
    | none => s.setHartOf (.group k g) (h.setPath r.path { h.path r.path with pc := r.handler })
    | some c =>
      let s := s.setHartOf (.group k g) (h.setPath r.path { h.path r.path with pc := r.hdr })
      s.enterTrap k g r.path ⟨c, r.handler, 0, r.handler, 0⟩ false r.hdr

/-- A group takes a trap: inside a region the region fails (R410), else R362. -/
def State.takeTrap (s : State) (k g : Nat) (p : Bool) (t : TrapRec) (boundary : Bool) (epc : Word64) : State :=
  if (s.hartOf (.group k g)).region.isSome then s.failRegion k g (.trap t boundary epc)
  else s.enterTrap k g p t boundary epc

/-! ## Fetching a clause (R23, R32, R33) -/

/-- The number of words of a header. -/
def hdrCount (w : Word32) : Nat := (w.extractLsb' 0 4).toNat
/-- The class of a header. -/
def hdrClass (w : Word32) : BitVec 3 := w.extractLsb' 4 3
/-- Is a header malformed, for a sequencer or for another agent (R32)? -/
def hdrBad (stream : Bool) (w : Word32) : Bool :=
  hdrCount w == 0 || w.getLsbD 20 || w.extractLsb' 21 11 != 0
    || (if stream then hdrClass w != 3 || w.extractLsb' 8 8 != 0 else hdrClass w == 3)

/-- Is a fabric-shared line of this device held between another device's read and its write (R414)? -/
def State.lineHeld (s : State) (key : Nat) : Bool := s.fabric.fsHeld.any fun h => h.2 == key / 128

/-- The word at a place of this device. -/
def State.fetchHere (s : State) (va : Word64) (t : Tgt) : Res Word32 :=
  if s.bad t 4 then .error (.trap ⟨.poison, va, 0, va, 0⟩) else .ok (bytesToBits 32 (s.peek t 4))

/-- The word at a translated place, for an instruction fetch of a context; data of another device must have arrived, or the device is lost (R404, R406). -/
def State.fetchAt (s : State) (inbox : Inbox) (va : Word64) (p : Place) : Res Word32 :=
  match p.tgt with
  | .remote d a x sh =>
    match s.opened inbox d d a x 4 sh with
    | .error c => .error (.trap ⟨c, va, 0, va, 0⟩)
    | .ok (some bs) => .ok (bytesToBits 32 bs)
    | .ok none =>
      let dev := BitVec.ofNat 64 d ||| 0x8000000000000000
      if s.fabric.reachable d then .error (.ask (remoteAsks d a 4 sh)) else .error (.trap ⟨.peerKilled, dev, 0, dev, 0⟩)
  | .shared k _ _ => if s.lineHeld k then .error .stall else s.fetchHere va p.tgt
  | t => s.fetchHere va t

/-- Fetches one word for a group or for its team's sequencer (R21, R53, R365). -/
def State.fetchGlobal (s : State) (core asid : Nat) (sys fab : Bool) (inbox : Inbox) (va : Word64) : Res Word32 :=
  if va.extractLsb' 56 8 != 0 || decide (12 ≤ (va.extractLsb' 52 4).toNat) then .error (.trap ⟨.accessViolation, va, 0, va, 0⟩)
  else match s.vplace (some core) asid sys .exec va.toNat with
    | .error c => .error (.trap ⟨c, va, 0, va, 0⟩)
    | .ok p => if p.tgt.device.isSome && !fab then .error (.trap ⟨.featureAbsent, 0, 0, 0, 0⟩) else s.fetchAt inbox va p

/-- Fetches one word for a bank core, from a region offset (R287, R300). -/
def State.fetchBank (s : State) (b : Nat) (va : Word64) : Res Word32 :=
  let r := (s.bankOf b).region
  let key := b * bankSize + r.b0 + va.toNat
  if 65536 * r.pages < va.toNat + 4 then .error (.trap ⟨.accessViolation, va, 0, va, 0⟩)
  else if s.poisonedAt key 4 then .error (.trap ⟨.poison, va, 0, va, 0⟩)
  else .ok (bytesToBits 32 (s.bankBytes key 4))

/-- Fetches one word for the focus. -/
def State.fetchWord (s : State) (va : Word64) : Res Word32 :=
  if s.onBank then s.fetchBank s.cur.bank va
  else s.fetchGlobal s.team.core s.hart.asid.toNat s.hart.sys (s.team.feat.getLsbD 10) ⟨s.hart.arrived, s.hart.bad⟩ va

/-- Fetches n words from an address upward; the first that cannot be fetched decides. -/
def fetchWords (fetch : Word64 → Res Word32) (va : Word64) : Nat → Res (List Word32)
  | 0 => .ok []
  | n + 1 => do
    let w ← fetch va
    let ws ← fetchWords fetch (va + 4) n
    return w :: ws

/-- The clause at a header, at its first word, with the header word; a malformed one traps (R32, R33). -/
def fetchClause (fetch : Word64 → Res Word32) (stream : Bool) (hdr : Word64) : Res (Clause × Word32) := do
  let w ← fetch hdr
  need (!hdrBad stream w) .illegalClause 0
  let ws ← fetchWords fetch (hdr + 4) (hdrCount w)
  return ({ hdr := hdr, cls := hdrClass w, count := hdrCount w, words := ws, idx := 1, yield := w.getLsbD 7 }, w)

/-! ## Returning from a handler (R378) -/

/-- A path with the `emask` and `fmt` of its saved path state; a saved value that `fmt` cannot hold leaves 0 there (R149; DESIGN CHOICE, log 69). -/
def Path.loadModes (p : Path) (bs : List Byte) : Path :=
  let f := fmtKept (bytesToBits 64 ((bs.drop 16).take 8))
  { p with emask := bytesToBits 64 ((bs.drop 8).take 8) &&& p.lanes, fmt := if fmtLegal f then f else 0 }
/-- A path with its saved path state; a suspension in BARAW keeps the arrival that it has made. -/
def Path.loadState (p : Path) (bs : List Byte) : Path :=
  { p.loadModes bs with arrived := bs.getD 25 0 == 15, pc := bytesToBits 64 (bs.take 8) }

/-- ERET: the frame, the state of both paths and the records in hardware come from the saved-state area; a path that stands inside a clause keeps its place there; the interrupted clause resumes at `epc` with the saved latches, or the clause at `epc` begins with invalid ones. -/
def State.leaveHandler (s : State) : Res State :=
  let h := s.hart
  let base := h.savedBase
  let me := s.cur.path
  let rs := if h.recs.isEmpty then .ok [] else s.vread h.asid.toNat true (base + 0xE00) 1024
  match s.vread h.asid.toNat true base 256, s.vread h.asid.toNat true (base + 0x400) 2048, rs with
  | .ok bs, .ok ls, .ok rs => do
    let f := fun (i n : Nat) => leNat ((bs.drop i).take n)
    let frameHdr : Word64 := BitVec.ofNat 64 (f 0 8)
    let slot := fun (p : Bool) => (bs.drop (if p then 0xA0 else 0x40)).take 96
    let lat := fun (p : Bool) => (ls.drop (if p then 1024 else 0)).take 1024
    let x := h.path me
    let y := h.path (!me)
    let other := if y.clause.isNone then y.loadState (slot (!me)) else y.loadModes (slot (!me))
    let h := if y.active then h.setPath (!me) (other.withLatches y.latchKinds (lat (!me))) else h
    let h := { h.loadRecs rs with sys := f 34 1 == 1, stopOther := none }
    let fresh := { x with clause := none, pc := h.epc, latches := Vector.replicate 4 Latch.none, stalled := false, issuing := false }
    let inside ←
      if f 8 8 = h.epc.toNat ∧ frameHdr.toNat < h.epc.toNat then do
        let w ← s.fetchWord frameHdr
        pure (decide (h.epc.toNat ≤ frameHdr.toNat + 4 * hdrCount w))
      else pure false
    if inside then
      let (c, _) ← fetchClause s.fetchWord false frameHdr
      let idx := (h.epc.toNat - frameHdr.toNat) / 4
      let p := ((x.loadState (slot me)).withLatches (f 32 1) (lat me))
      return s.setHart (h.setPath me { p with clause := some { c with idx := idx }, pc := frameHdr, stalled := false })
    else do
      s.checkTarget h.epc
      return s.setHart (h.setPath me fresh)
  | _, _, _ => .error (.broken (BitVec.ofNat 64 base))

/-! ## Fault rings and parking (R367 to R369) -/

/-- The control block of a ring under an ASID: size, head, tail (R372). -/
def State.ringBlock (s : State) (asid ring : Nat) : Option (Nat × Nat × Nat) :=
  match s.vread asid true ring 24 with
  | .error _ => none
  | .ok bs =>
    let f := fun i => leNat ((bs.drop i).take 8)
    let size := f 0
    let used := (f 8 + 2 ^ 64 - f 16) % 2 ^ 64
    if (List.range 15).any (fun e => size == 2 ^ (16 + e)) && decide (used ≤ size) then some (size, f 8, f 16) else none

/-- Appends bytes to a ring with room for them; none when it is full or unusable (R372, R438). -/
def State.ringPush (s : State) (asid ring : Nat) (bs : List Byte) : Option State :=
  match s.ringBlock asid ring with
  | none => none
  | some (size, head, tail) =>
    if size < (head + 2 ^ 64 - tail) % 2 ^ 64 + bs.length then none
    else
      let at_ := fun i => ring + 64 + (head + i) % size
      let step := fun (r : Except Cause State) (i : Nat) =>
        match r with
        | .ok s => s.vwrite asid true (at_ (64 * i)) ((bs.drop (64 * i)).take 64)
        | e => e
      match (List.range (bs.length / 64)).foldl step (.ok s) with
      | .error _ => none
      | .ok s => (s.vwrite asid true (ring + 8) (leBytes 8 ((head + bs.length) % 2 ^ 64))).toOption

/-- A fault record (R369). -/
def faultRecord (serial : BitVec 32) (core gid : Nat) (tval lanes epc : Word64) (kind : Nat) : List Byte :=
  leBytes 4 serial.toNat ++ leBytes 4 (core + gid * 65536) ++ leBytes 8 tval.toNat ++ leBytes 8 lanes.toNat
    ++ leBytes 8 epc.toNat ++ [BitVec.ofNat 8 kind] ++ List.replicate 31 0

/-- Appends a fault record with the ASID's next serial, writes the serial into the frame, and leaves the path parked; with no room the path waits for it. -/
def State.pushFault (s : State) (k g : Nat) (p : Bool) (kind : Nat) (tval epc lanes : Word64) : State :=
  let i := HartId.group k g
  let h := s.hartOf i
  let asid := h.asid.toNat
  let serial := mget 0 asid s.service.faultSerial
  match s.ringPush asid (s.ctx asid).fring.toNat (faultRecord serial (s.teamOf k).core g tval lanes epc kind) with
  | none => s.setHartOf i (h.setPath p { h.path p with susp := some (.ringRoom kind tval epc lanes), stalled := false, issuing := false })
  | some s =>
    let s := (s.vwrite asid true (h.savedBase + 36) (leBytes 4 serial.toNat)).toOption.getD s
    let s := { s with service := { s.service with faultSerial := mset asid (serial + 1) s.service.faultSerial } }
    s.setHartOf i (h.setPath p { h.path p with susp := some (.parked serial), stalled := false, issuing := false })

/-- A page fault parks the path (R367). -/
def State.park (s : State) (k g : Nat) (p : Bool) (t : TrapRec) (epc : Word64) : State :=
  let i := HartId.group k g
  match s.saveTrap i p epc t.lanes t.addr2 0 with
  | .error _ => s.spillLost k g (BitVec.ofNat 64 (s.hartOf i).savedBase)
  | .ok s =>
    let h := s.hartOf i
    let s := s.setHartOf i { h with tcause := tcauseOf .pageFault false true, tval := t.tval, epc := epc }
    s.pushFault k g p t.kind t.tval epc t.lanes

/-! ## Bank cores halt (R289, R299) -/

/-- The job of a bank core has halted: a suspended job resumes (R371), and a kind-1 node has its end (R347). -/
def State.bankHalted (s : State) (b : Nat) (cause : BitVec 7) (value : Word32) : State :=
  let x := s.bankOf b
  let s := match x.job with
    | none => s
    | some (l, n) => s.changeNode l n fun r => { r with ended := r.ended + 1, cause := if cause = 0 then r.cause else cause, trapped := r.trapped || cause != 0 }
  match x.suspended with
  | none => s.setBankOf b { x with running := false, cause := cause, value := value, job := none }
  | some j =>
    (s.setHartOf (.bank b) j.hart).setBankOf b
      { x with running := true, cause := cause, value := value, owner := j.owner, mail := j.mail, region := j.region,
               prio := j.prio, job := j.job, chunk := true, suspended := none }

/-- A trap on a bank core halts it (R289). -/
def State.bankTrap (s : State) (b : Nat) (t : TrapRec) (epc : Word64) : State :=
  let h := s.hartOf (.bank b)
  let s := s.setHartOf (.bank b)
    { h with tcause := tcauseOf t.cause false false, tval := t.tval, epc := epc, p0 := { h.p0 with active := false, clause := none, issuing := false } }
  s.bankHalted b t.cause.code (epc.setWidth 32)

/-! ## Finishing a meaning -/

/-- The valid entry of a core's port translation table for a window offset under an ASID (R205). -/
def State.portEntry (s : State) (core o asid : Nat) : Option PortEntry :=
  (s.coreOf core).ports.find? fun e =>
    e.valid && e.asid == asid && decide (e.wbase * 4096 ≤ o) && decide (o < (e.wbase + e.size) * 4096)

/-- A packet of a bounce ring: header and data flits (R372). -/
def ringPacket (kind : Nat) (target source control : Nat) (operand data : List Byte) : List Byte :=
  let flits := (data.length + 63) / 64
  [BitVec.ofNat 8 kind, BitVec.ofNat 8 flits, 0, 0] ++ leBytes 4 (Nat.max data.length operand.length) ++ leBytes 8 target
    ++ leBytes 8 source ++ leBytes 8 control ++ (operand ++ List.replicate (32 - operand.length) 0)
    ++ data ++ List.replicate (flits * 64 - data.length) 0

/-- The source field of a ring packet: device, core, `gid` and path, 16 bits each (R372; the places are log 8). -/
def ringSource (dev core gid path : Nat) : Nat := dev + core * 2 ^ 16 + gid * 2 ^ 32 + path * 2 ^ 48

/-- Who sends a packet, as the source field of its ring entry says it. -/
def State.portSource (s : State) (p : Port) (path : Nat) : Nat :=
  let me := s.fabric.device.toNat
  match p with
  | .group k g => ringSource me (s.teamOf k).core g path
  | .engine k => ringSource me (s.teamOf k).core 0 0
  | .fold c => ringSource me c 0 0
  | .device d => ringSource d 0 0 0

/-- The port translation entry of a team. -/
def State.entryOf (s : State) (k : Nat) : Option PortEntry := (s.coreOf (s.teamOf k).core).ports.find? fun e => e.team == k

/-- The first failure of a ring is logged, once for each ring (R438). -/
def State.logRing (s : State) (k asid : Nat) (ring : Word64) : State :=
  let t := s.teamOf k
  if ring ∈ t.ringLogged then s
  else (s.logError .machineCheck Cause.machineCheck.code t.core asid 0 ring).setTeamOf k { t with ringLogged := ring :: t.ringLogged }

/-- What remains of an attempt r that found no room in some ring: the failures of rings that it has logged. -/
def State.keepRingLogs (s r : State) : State :=
  r.teams.foldl (fun (s : State) (t : Nat × Team) => t.2.ringLogged.reverse.foldl (fun s ring => s.logRing t.1 t.2.asid ring) s) s

/-- A packet joins the bounce ring of a port translation entry (R211); the answer is false where the ring is full or unusable, whose first failure is logged (R438). -/
def State.bounceTo (s : State) (e : PortEntry) (b : Bounced) (path kind control : Nat) (operand data : List Byte) : State × Bool :=
  let ring := e.ring.toNat
  let pkt := ringPacket kind b.off (s.portSource b.src path) control operand data
  match s.ringBlock e.asid ring, s.ringPush e.asid ring pkt with
  | some (_, head, _), some s =>
    let t := s.teamOf e.team
    (s.setTeamOf e.team { t with bounced := t.bounced ++ [{ b with pos := head }] }, true)
  | some (size, head, tail), none =>
    if size < (head + 2 ^ 64 - tail) % 2 ^ 64 + pkt.length then (s, false) else (s.logRing e.team e.asid e.ring, false)
  | none, _ => (s.logRing e.team e.asid e.ring, false)

/-- A load request to an allocation of an absent team joins its bounce ring (R211); the answer tells whether it was taken. -/
def State.askRing (s : State) (addr : Nat) : State × Bool :=
  let core := (addr - spadView) / 2 ^ 20
  let o := (addr - spadView) % 2 ^ 20
  match s.portEntry core o s.hart.asid.toNat with
  | none => (s, true)
  | some e =>
    let me := s.fabric.device.toNat
    s.bounceTo e { pos := 0, off := o - e.wbase * 4096, src := .group s.cur.team s.cur.gid, remote := none, op := .load 256 (some (me, addr)) }
      (if s.cur.path then 1 else 0) 9 0 [] []

/-- A packet that asks for an answer is sent, and who asked is kept. -/
def State.sendAsk (s : State) (p : FabPkt) (who : Asker) : State :=
  let (s, q) := s.sendPkt p
  { s with fabric := { s.fabric with asks := s.fabric.asks ++ [(q.dst.toNat, q.seq, who)] } }

/-- The block that a request asks for: 256 bytes, or one line of a fabric-shared page (R399; log 53). -/
def askBlock (r : Nat × Nat) : Nat × Nat := if r.2 / 2 ^ 42 % 2 = 0 then (r.1, r.2 / 256 * 256) else r
/-- The read packet of a block, with its data word where it asks for a fabric-shared line or for a result row (log 12). -/
def askPkt (r : Nat × Nat) (asid core gid : Nat) : FabPkt :=
  let enc := r.2 / 2 ^ 42 % 2 == 1
  let row := decide (2 ^ 43 ≤ r.2)
  { FabPkt.blank 0x01 r.1 asid core gid (r.2 % 2 ^ 42 / 256 * 256) with
      enc := enc, data := if enc || row then leBytes 8 ((if row then 2 else 0) + (if enc && r.2 / 128 % 2 == 1 then 4 else 0)) else [] }

/-- Read packets for data that a load waits for: one for each block not asked for yet (R399); on this device, a read of a line of memory on its way through the mesh (R389), or a request in the ring of an absent team. -/
def State.askAll (s : State) (reqs : List (Nat × Nat)) : State :=
  let t := s.team
  reqs.foldl (fun s x =>
    let r := askBlock x
    let h := s.hart
    let s' := s.setHart { h with asked := r :: h.asked }
    if r ∈ h.asked then s
    else if r.1 = s.fabric.device.toNat ∧ 2 ^ 42 ≤ r.2 then s'.chosen.sendRead (s.cur.team, s.cur.gid, s.cur.path) t.core (r.2 % 2 ^ 42 / 128)
    else if r.1 = s.fabric.device.toNat then
      let (x, taken) := s.askRing r.2
      if taken then x.setHart { x.hart with asked := r :: x.hart.asked } else x
    else s'.sendAsk (askPkt r h.asid.toNat t.core s.cur.gid) (.group s.cur.team s.cur.gid)) s

/-- Read packets for data that engine e of a team waits for, each block once (R399); on this device, a request in the ring of an absent team (R211). What arrives is kept under the engine's own key. -/
def State.askEngine (s : State) (k e : Nat) (reqs : List (Nat × Nat)) : State :=
  reqs.foldl (fun s r =>
    let t := s.teamOf k
    let key := (r.1 + 1024 * e, (askBlock r).2)
    let noted := fun (s : State) => let t := s.teamOf k; s.setTeamOf k { t with asked := key :: t.asked }
    if key ∈ t.asked then s
    else if r.1 = s.fabric.device.toNat then
      let core := (key.2 - spadView) / 2 ^ 20
      let o := (key.2 - spadView) % 2 ^ 20
      match s.portEntry core o t.asid with
      | none => s
      | some p =>
        let b : Bounced :=
          { pos := 0, off := o - p.wbase * 4096, src := .engine k, remote := none, op := .load 256 (some key) }
        let (s, taken) := s.bounceTo p b 0 9 0 [] []
        if taken then noted s else s
    else
      (noted s).sendAsk (askPkt (r.1, key.2) t.asid t.core 0) (.engine k e)) s

/-- Read packets for data that a work of the device waits for, each block once. -/
def State.askDevice (s : State) (key asid : Nat) (reqs : List (Nat × Nat)) : State :=
  reqs.foldl (fun s r =>
    let b := askBlock r
    let k := (b.1 + 1024 * key, b.2)
    if k ∈ s.fabric.asked then s
    else ({ s with fabric := { s.fabric with asked := k :: s.fabric.asked } }).sendAsk (askPkt b asid 0 0) (.device key)) s

/-- What a work of the device has received and used is forgotten. -/
def State.forgetDevice (s : State) (key : Nat) : State :=
  let f := s.fabric
  { s with fabric := { f with arrived := f.arrived.filter fun a => a.1.1 / 1024 != key, asked := f.asked.filter fun a => a.1 / 1024 != key,
                              bad := f.bad.filter fun a => a.1.1 / 1024 != key } }

/-- What engine e of a team has received and consumed is forgotten. -/
def Team.forget (t : Team) (e : Nat) : Team :=
  { t with arrived := t.arrived.filter fun a => a.1.1 / 1024 != e, asked := t.asked.filter fun a => a.1 / 1024 != e,
           bad := t.bad.filter fun a => a.1.1 / 1024 != e }

/-! ## Streams stop (R164) -/

/-- The address of the word that a sequencer is to execute. -/
def Seq.wordAddr (q : Seq) : Word64 :=
  match q.clause with
  | some c => c.hdr + BitVec.ofNat 64 (4 * c.idx)
  | none => q.spc

def State.modSeq (s : State) (k : Nat) (f : Seq → Seq) : State :=
  let t := s.teamOf k
  s.setTeamOf k { t with seq := f t.seq }

/-- What becomes of a sequencer whose instruction stops: a fault ends the issuing and is recorded with the address of the word (R164); any other stop stalls it (R163). -/
def State.seqStopped (s : State) (k : Nat) : Halt → State
  | .trap t => s.modSeq k fun q => { q with fault := q.fault <|> some (t.cause, q.wordAddr), stalled := false }
  | .ask reqs => (s.modSeq k fun q => { q with stalled := true }).askEngine k 0 reqs
  | _ => s.modSeq k fun q => { q with stalled := true }

/-- Operand formats that need the NFMT feature: FP6, FP4, MX, LUT4 and bit planes (R53, R148). -/
def codeNfmt (c : Nat) : Bool := decide (5 ≤ c) && decide (c ≤ 7) || decide (0x0A ≤ c) && decide (c ≤ 0x18)
/-- Does an `sfmt` select a format that needs the NFMT feature? -/
def fmtNfmt (x : Word64) : Bool := codeNfmt (x.extractLsb' 0 5).toNat || codeNfmt (x.extractLsb' 5 5).toNat
/-- Every stream instruction reads all of `sfmt` (R150), and may execute only where the feature mask covers its formats (R53, R54). -/
def Team.formatsOk (t : Team) : Bool := t.feat.getLsbD 13 || !fmtNfmt t.seq.sfmt

/-- The outcome of a meaning of a matrix sequencer, after the feature check on the formats in force. -/
def State.finishSeq (s : State) (r : Res State) : Out :=
  if !s.team.formatsOk then .next (s.seqStopped s.cur.team (.trap ⟨.featureAbsent, 0, 0, 0, 0⟩))
  else match r with
  | .ok s' => .next s'
  | .error h => .next (s.seqStopped s.cur.team h)

/-- Fetches one word for a team's sequencer, in user mode. -/
def State.fetchStream (s : State) (k : Nat) (va : Word64) : Res Word32 :=
  let t := s.teamOf k
  s.fetchGlobal t.core t.asid false (t.feat.getLsbD 10) ⟨t.arrived, t.bad⟩ va

/-! ## Atomics that leave the core (R239, R405) -/

/-- The width of an atomic's element in bits. -/
def AtomTy.bits : AtomTy → Nat
  | .int w _ => w
  | .f32 => 32
  | .f16 => 16
  | .bf16 => 16
/-- The floating-point format of an atomic's element. -/
def AtomTy.ff : AtomTy → Option FF
  | .f32 => some .f32
  | .f16 => some .f16
  | .bf16 => some .bf16
  | .int _ _ => none

/-- The value that an atomic leaves (R239, R241, R244): floats round with RNE and IEEE saturation whatever `fmt` holds. -/
def AtomArg.next (a : AtomArg) (old : Nat) : Nat :=
  let w := a.ty.bits
  let x := a.x % 2 ^ w
  match a.expect, a.ty.ff with
  | some e, _ => if old = e % 2 ^ w then x else old
  | none, some f =>
    match a.op with
    | .fmin => f.enc ((f.dec old).min (f.dec x))
    | .fmax => f.enc ((f.dec old).max (f.dec x))
    | _ => fOf 0 0 f 0 ((f.dec old).add 0 (f.dec x))
  | none, none =>
    let nat := match a.ty with | .int _ n => n | _ => true
    let sgn := fun (p : Nat) => if nat || decide (p < 2 ^ (w - 1)) then (p : Int) else (p : Int) - 2 ^ w
    match a.op with
    | .and => old &&& x
    | .or => old ||| x
    | .xor => old ^^^ x
    | .min => if sgn old ≤ sgn x then old else x
    | .max => if sgn old ≤ sgn x then x else old
    | .swap => x
    | _ => (old + x) % 2 ^ w

/-- The code of an operation (R239). -/
def opCode : AtomOp → Nat
  | .add => 0 | .and => 1 | .or => 2 | .xor => 3 | .min => 4 | .max => 5 | .swap => 6 | .fadd => 7 | .fmin => 8 | .fmax => 9
/-- The control field of an atomic's packet: op, width and type (R398). -/
def atomControl (a : AtomArg) : Nat :=
  let wc := match a.ty.bits with | 8 => 0 | 16 => 1 | 32 => 2 | _ => 3
  let ty := match a.ty with | .int _ n => n | .bf16 => true | _ => false
  opCode a.op * 4096 + wc * 1024 + (if ty then 512 else 0)

/-- The code of a scope in the control field of a ring's packet (R372; log 8). -/
def scopeCode : Scope → Nat
  | .grp => 0 | .team => 1 | .die => 2 | .dev => 3 | .sys => 4

/-- The operand bytes of an element: an expected value, where there is one, and the operand. -/
def AtomArg.bytes (a : AtomArg) : List Byte :=
  let n := a.ty.bits / 8
  (match a.expect with | some e => leBytes n e | none => []) ++ leBytes n a.x

/-- The elements of one packet of a run, 248 bytes of operands at most. -/
def atomsPerPkt (a : AtomArg) : Nat := 248 / a.bytes.length

/-- A list in parts of n elements. -/
def chunks {α : Type} (n : Nat) : (fuel : Nat) → List α → List (List α)
  | 0, _ => []
  | fuel + 1, xs => if xs.isEmpty then [] else xs.take n :: chunks n fuel (xs.drop n)

/-- The packets of the atomics at one location (R405): one operand for integers and swaps, every operand for floats and CAS, as a run where they need more than one packet. Eight bytes stand before the operands: whether the old values are wanted, whether a near-memory command asks, the packet's place in its run, and the packets of the run (log 12). -/
def atomPkts (dev addr asid core gid : Nat) (args : List AtomArg) (ret near : Bool) : List FabPkt :=
  match args with
  | [] => []
  | a :: as =>
    let n := a.ty.bits / 8
    let base := { FabPkt.blank 0x04 dev asid core gid addr with control := BitVec.ofNat 16 (atomControl a) }
    let head := fun (i m : Nat) => leBytes 8 ((if ret then 1 else 0) + (if near then 2 else 0) + i * 2 ^ 8 + m * 2 ^ 16)
    match a.expect, a.ty.ff, as with
    | none, none, _ =>
      let x := if a.op == .swap then ((a :: as).getLastD a).x else as.foldl (fun x b => b.next x) (a.x % 2 ^ a.ty.bits)
      [{ base with data := head 0 1 ++ leBytes n x }]
    | none, some _, [] => [{ base with data := head 0 1 ++ leBytes n a.x }]
    | _, _, _ =>
      let parts := chunks (atomsPerPkt a) (a :: as).length (a :: as)
      ((List.range parts.length).zip parts).map fun (p : Nat × List AtomArg) =>
        { base with kind := 0x05, data := head p.1 parts.length ++ p.2.flatMap AtomArg.bytes }

/-- Sends the packets of one location on one path (R405); what went. -/
def State.sendRun (s : State) (ps : List FabPkt) : State × List FabPkt :=
  ps.foldl (fun (r : State × List FabPkt) p =>
    let (s, q) := r.1.numbered p
    let (s, q) := s.leave q (r.2.head?.map fun x => x.path.toNat)
    (s, r.2 ++ [q])) (s, [])

/-- The key under which the old value of the j-th atomic at a location arrives. -/
def atomKey (dev addr j : Nat) : Nat × Nat := (dev + 1024 * (j + 1), addr)

/-- Sends the atomics that an instruction waits for, once: to other devices as packets, to an absent team as ring entries in element order. -/
def State.askAtoms (s : State) (reqs : List (Tgt × List AtomArg)) : State :=
  let me := s.fabric.device.toNat
  let asid := s.hart.asid.toNat
  reqs.foldl (fun s r =>
    let h := s.hart
    match r.1 with
    | .remote d a _ _ =>
      if atomKey d a 0 ∈ h.asked then s
      else
        let (s, sent) := (s.setHart { h with asked := atomKey d a 0 :: h.asked }).sendRun (atomPkts d a asid s.team.core s.cur.gid r.2 true false)
        { s with fabric := { s.fabric with asks := s.fabric.asks ++ sent.map fun q => (q.dst.toNat, q.seq, Asker.group s.cur.team s.cur.gid) } }
    | .win c o _ =>
      let addr := spadView + 2 ^ 20 * c + o
      if atomKey me addr 0 ∈ h.asked then s
      else match s.portEntry c o asid with
        | none => s
        | some e =>
          let put := fun (r : State × Bool) (ja : Nat × AtomArg) =>
            let b : Bounced :=
              { pos := 0, off := o - e.wbase * 4096, src := .group s.cur.team s.cur.gid, remote := none,
                op := .atomic [ja.2] (some ((atomKey me addr ja.1).1, addr, ja.1)) }
            if r.2 then r.1.bounceTo e b (if s.cur.path then 1 else 0) 4 (atomControl ja.2)
                (leBytes 8 ja.2.x ++ (match ja.2.expect with | some x => leBytes 8 x | none => [])) []
            else r
          let (u, taken) := ((List.range r.2.length).zip r.2).foldl put (s, true)
          if taken then u.setHart { u.hart with asked := atomKey me addr 0 :: u.hart.asked } else s.keepRingLogs u
    | _ => s) s

/-- A tag that does not match poisons the granules of its line, beside the trap of the reader (R414). -/
def State.fsPoison (s : State) (va : Word64) : State :=
  match s.vplace none s.hart.asid.toNat true .read va.toNat with
  | .ok ⟨.remote d a asid true, _⟩ =>
    match (Inbox.mk s.hart.arrived s.hart.bad).bytes d (fsKey a) 144 with
    | .ok (some raw) =>
      if (s.fsOpen (d * 2 ^ 42 + a) asid raw).2 then s
      else (s.sendPkt { linePkt 0x02 d (a / 128) asid s.team.core s.cur.gid with data := lineData (a / 128) raw, psn := linePsn (a / 128) 3 }).1
    | _ => s
  | .ok ⟨.shared k pa asid, _⟩ =>
    if (s.fsLine pa asid).2 then s else { s with poisoned := poisonAfter s.poisoned 64 (k / 128 * 128) 128 true }
  | _ => s

def State.stallPath (s : State) : State := s.setPath { s.path with stalled := true }

/-- What becomes of the focus when its instruction stops. -/
def State.stopped (s : State) : Halt → State
  | .stall => s.stallPath
  | .ask reqs => s.stallPath.askAll reqs
  | .atom reqs => s.stallPath.askAtoms reqs
  | .suspend w =>
    { s.setPath { s.path with susp := some w, since := s.tick, stalled := false, issuing := false } with tick := s.tick + 1 }
  | .broken a => s.spillLost s.cur.team s.cur.gid a
  | .full => s.failRegion s.cur.team s.cur.gid .full
  | .trap t =>
    let epc := s.path.wordAddr
    if s.onBank then s.bankTrap s.cur.bank t epc
    else
      let s := if t.cause = .poison then s.fsPoison t.tval else s
      let h := s.hart
      if t.cause = .pageFault ∧ h.sys = false ∧ h.region = none ∧ (s.ctx h.asid.toNat).fring ≠ 0
      then s.park s.cur.team s.cur.gid s.cur.path t epc
      else s.takeTrap s.cur.team s.cur.gid s.cur.path t false epc

/-- The outcome of a meaning of a group or a bank core. -/
def State.finish (s : State) (r : Res State) : Out :=
  match r with
  | .ok s' => .next s'
  | .error h => .next (s.stopped h)

/-- A boundary cause joins a group's pending list; one that meets a full list is dropped, logged and counted; that of an ended group is logged (R361, R272). -/
def State.addCause (s : State) (k g : Nat) (c : BCause) : State :=
  let i := HartId.group k g
  let h := s.hartOf i
  let core := (s.teamOf k).core
  if !h.live then s.logError .engine c.cause.code core h.asid.toNat g c.tval
  else if 8 ≤ h.causes.length then
    (s.setHartOf i { h with lost := h.lost + 1 }).logError .dropped c.cause.code core h.asid.toNat g c.tval
  else s.setHartOf i { h with causes := h.causes ++ [c] }

/-- Bit 63 marks the address of a cause that an engine, a stream or a refusal reports (R357). -/
def mark63 (x : Word64) : Word64 := x ||| 0x8000000000000000

end Sys2Proof.Machine
end

