-- ==== Sys2Proof/Machine/Access.lean ====
section
/-! DEFINITION. How a group or a bank core reaches memory: forming an address (R78), the windows (R196, R220), loads with forwarding, rows, poison and caches (R212, R214, R250, R302), and issuing stores to the store queue or a region (R224, R250, R408). -/

namespace Sys2Proof.Machine

/-- A precise trap of a memory access, with the access kind of a fault record (R369). -/
def accTrap {α : Type} (c : Cause) (va : Word64) (kind : Nat) : Res α := .error (.trap ⟨c, va, 0, va, kind⟩)

/-- Continues when a condition holds, else stops as given. -/
def orElse (b : Bool) (stop : Res Unit) : Res Unit := if b then .ok () else stop

/-- The private size of the focus's team in bytes (R340). -/
def Team.privBytes (t : Team) : Nat := t.priv * 65536

/-- The address of a memory operand (R78). -/
def State.form (s : State) (sp : Space) (base off : Word64) : Res Word64 :=
  let e := base + off
  match sp with
  | .g => .ok e
  | .l => if s.onBank then illegal
          else if e.toNat < 2 ^ 20 then .ok (0x00D0000000000000 + e) else accTrap .accessViolation e 1
  | .p => if s.onBank then illegal
          else if e.toNat < s.team.privBytes then .ok (0x00C0000000000000 + e) else accTrap .accessViolation e 1

/-- Do bytes of an allocation lie in the region of the fold that its core has bound (R310)? -/
def State.inFold (s : State) (core team off n : Nat) : Bool :=
  match (s.coreOf core).fold with
  | none => false
  | some f =>
    let hit := fun (b len : Nat) => len != 0 && decide (off < b + len) && decide (b < off + n)
    f.team == team && (hit f.nbase (64 * f.ncount) || hit f.sbase (64 * f.ncount) || hit f.ebase (8 * f.ecount))

/-- What the access is, for the kind field of a fault record (R369). -/
structure AccKind where
  acc : Access
  atomic : Bool
  code : Nat
deriving DecidableEq, Repr
def aLoad : AccKind := ⟨.read, false, 1⟩
def aStore : AccKind := ⟨.write, false, 2⟩
def aAtomic : AccKind := ⟨.write, true, 3⟩

/-- The place of n bytes of global memory at an address, for the focus group (R365, R53, R413). -/
def State.locGlobal (s : State) (k : AccKind) (va : Word64) : Res Place :=
  let h := s.hart
  match s.vplace (some s.team.core) h.asid.toNat h.sys k.acc va.toNat with
  | .error c => accTrap c va k.code
  | .ok p =>
    match p.tgt with
    | .remote _ _ _ sh =>
      if !s.team.feat.getLsbD 10 then accTrap .featureAbsent 0 k.code
      else if sh && k.atomic then accTrap .accessViolation va k.code else .ok p
    | .shared _ _ _ => if k.atomic then accTrap .accessViolation va k.code else .ok p
    | _ => .ok p

/-- The place of n bytes of the private window (R199, R201). -/
def State.locPrivate (s : State) (k : AccKind) (va : Word64) (n : Nat) : Res Place :=
  let h := s.hart
  let o := va.toNat % 2 ^ 52
  if s.team.privBytes < o + n then accTrap .accessViolation va k.code
  else if decide (h.slimit.toNat - 65536 ≤ o) && decide (o < h.slimit.toNat) then accTrap .stackLimit va k.code
  else match s.vplace (some s.team.core) h.asid.toNat true k.acc (h.spbase.toNat + o) with
    | .error _ => .error (.broken (BitVec.ofNat 64 (h.spbase.toNat + o)))
    | .ok p => .ok p

/-- The place of n bytes of the own allocation (R196, R203, R310). -/
def State.locSpad (s : State) (k : AccKind) (va : Word64) (off n : Nat) : Res Place :=
  if s.team.spadBytes < off + n then accTrap .accessViolation va k.code
  else if k.acc == .write && s.inFold s.team.core s.cur.team off n then accTrap .accessViolation va k.code
  else .ok ⟨.spad s.cur.team off, false⟩

/-- The place of n bytes of window 0xE (R196, R205); the alias of the own allocation is that allocation. -/
def State.locWindow (s : State) (k : AccKind) (va : Word64) (n : Nat) : Res Place :=
  let o := va.toNat % 2 ^ 20
  let core := va.toNat / 2 ^ 20 % 512
  if va.extractLsb' 29 23 != 0 || decide (288 ≤ core) then accTrap .accessViolation va k.code
  else
    let asid := s.hart.asid.toNat
    match s.portEntry core o asid with
    | none => .ok ⟨.win core o asid, false⟩
    | some e =>
      let off := o - e.wbase * 4096
      if e.team = s.cur.team ∧ core = s.team.core then s.locSpad k va off n
      else if k.acc == .write && core == s.team.core && s.inFold core e.team off n then accTrap .accessViolation va k.code
      else .ok ⟨.win core o asid, false⟩

/-- The place of n bytes at a region offset of a bank core (R287, R291). -/
def State.locBank (s : State) (k : AccKind) (va : Word64) (n : Nat) : Res Place :=
  let b := s.bankOf s.cur.bank
  if 65536 * b.region.pages < va.toNat + n then accTrap .accessViolation va k.code
  else .ok ⟨.home (s.cur.bank * bankSize + b.region.b0 + va.toNat), false⟩

/-- The windows that an instruction accepts (R220). -/
inductive Wins where
  | all | upToE | global | tiles | own
deriving DecidableEq, Repr
def Wins.ok : Wins → Nat → Bool
  | .all, _ => true
  | .upToE, w => decide (w < 15)
  | .global, w => decide (w < 12)
  | .tiles, w => decide (w < 12) || w == 13 || w == 14
  | .own, w => w == 13 || w == 14

/-- Where n bytes at an address lie, with the checks of R20, R79 and R196 to R220: the window, then the alignment, then the place (log 9). -/
def State.locate (s : State) (k : AccKind) (wins : Wins) (va : Word64) (n align : Nat) : Res Place :=
  if s.onBank then
    if va.toNat % align ≠ 0 then accTrap .misaligned va k.code else s.locBank k va n
  else match window va with
    | none => accTrap .accessViolation va k.code
    | some w =>
      if !wins.ok w then accTrap .accessViolation va k.code
      else if va.toNat % align ≠ 0 then accTrap .misaligned va k.code
      else if w < 12 then s.locGlobal k va
      else if w = 12 then s.locPrivate k va n
      else if w = 13 then
        if va.extractLsb' 20 32 != 0 then accTrap .accessViolation va k.code
        else s.locSpad k va (va.toNat % 2 ^ 20) n
      else if w = 14 then s.locWindow k va n
      else accTrap .accessViolation va k.code

/-! ## Loads -/

/-- The byte that the youngest of a group's waiting stores writes at a target (R22, R250). -/
def forward (es : List SQEntry) (t : Tgt) : Option Byte :=
  (es.foldl (fun (best : Option (Nat × Byte)) e =>
    let cells := match e.op with | .bytes cs _ _ => cs | .flag cs _ => cs | _ => []
    match cells.reverse.find? (fun c => c.1 == t) with
    | none => best
    | some c => match best with
      | some (i, b) => if i ≤ e.id then some (e.id, c.2) else some (i, b)
      | none => some (e.id, c.2)) none).map (·.2)

/-- The items that an open region holds. -/
def Hart.heldItems (h : Hart) : List SQEntry := match h.region with | some r => r.items | none => []
/-- The stores of a group that wait in its queue or in its region. -/
def Hart.waiting (h : Hart) : List SQEntry := h.sq ++ h.heldItems

/-- Do the n bytes from one target overlap the m bytes from another? -/
def overlaps (t : Tgt) (n : Nat) (u : Tgt) (m : Nat) : Bool :=
  match t, u with
  | .home a, .home b => decide (a < b + m) && decide (b < a + n)
  | .shared a _ _, .shared b _ _ => decide (a < b + m) && decide (b < a + n)
  | .spad k a, .spad l b => k == l && decide (a < b + m) && decide (b < a + n)
  | .win c a _, .win d b _ => c == d && decide (a < b + m) && decide (b < a + n)
  | .remote d a _ _, .remote e b _ _ => d == e && decide (a < b + m) && decide (b < a + n)
  | _, _ => false

/-- The aligned range of bytes that a load's line covers (R391): the 128-byte lines of bytes of this device's or another's memory, the bytes themselves elsewhere. -/
def Tgt.lineOf (t : Tgt) (n : Nat) : Tgt × Nat :=
  match t with
  | .home k => (.home (k / 128 * 128), (k % 128 + n + 127) / 128 * 128)
  | .remote d a x f => (.remote d (a / 128 * 128) x f, (a % 128 + n + 127) / 128 * 128)
  | t => (t, n)

/-- Is a put of the group to some of n bytes still in its queue, or one of a group of its core on its way to the port (R22, R250)? -/
def State.putAhead (s : State) (h : Hart) (t : Tgt) (n : Nat) : Bool :=
  h.sq.any (fun e => match e.op with | .put u _ _ => overlaps t n u 256 | _ => false)
  || s.net.any fun m => (match m.src with | .group k _ => (s.teamOf k).core == s.team.core | _ => false) && !m.refused && match m.body, t with
    | .put off _ _ _ _ _ _, .spad k o => m.core == (s.teamOf k).core && overlaps (.spad 0 ((s.teamOf k).wbase * 4096 + o)) n (.spad 0 off) 256
    | .put off _ _ _ _ _ _, .win c o _ => m.core == c && overlaps (.spad 0 o) n (.spad 0 off) 256
    | _, _ => false

/-- Has a store of the group to a line that the load would read at its home been sent and not yet performed there (R391)? A line that the L1 holds is not read there. -/
def State.lineBusy (s : State) (t : Tgt) (n : Nat) : Bool :=
  match t with
  | .home k => (blocksOf 128 k n).any fun l => (mfind l (s.coreOf s.team.core).l1).isNone
      && s.posted.any fun p => p.team == s.cur.team && p.gid == s.cur.gid && p.meets (128 * l) 128
  | _ => false

/-- Does a packet that asks for no value touch the 128-byte lines of n bytes at an address of its device (R391, R399)? -/
def pktCovers (p : FabPkt) (a n : Nat) : Bool :=
  (blocksOf 128 a n).any fun l =>
    if p.kind = 0x02 then p.addr.toNat / 256 == l / 2 && p.bmask.extractLsb' (128 * (l % 2)) 128 != 0
    else if p.kind = 0x03 then p.addr.toNat / 256 == l / 2
    else (p.kind == 0x04 || p.kind == 0x05) && p.addr.toNat / 128 == l

/-- The targets of an entry. -/
def SQEntry.targets (e : SQEntry) : List Tgt :=
  match e.op with
  | .bytes cs _ _ => cs.map fun (c : Tgt × Byte) => c.1
  | .flag cs _ => cs.map fun (c : Tgt × Byte) => c.1
  | .put t _ _ => [t]
  | .atomic es _ => es.map fun (c : Tgt × AtomArg) => c.1
  | _ => []

/-- Must a load of the group wait: an older atomic to its bytes, a put to them, or a sent store or near-memory command to their line is still to be performed (R22, R246, R391), or a sent store to a remote byte is not acknowledged (R401)? -/
def State.blocked (s : State) (h : Hart) (t : Tgt) (n : Nat) : Bool :=
  h.sq.any (fun e => match e.op with
    | .atomic es _ => es.any fun (u : Tgt × AtomArg) => overlaps t n u.1 8
    | _ => false)
  || s.putAhead h t n || s.lineBusy t n
  || h.near.any (fun c => c.elems.any fun u => overlaps (t.lineOf n).1 (t.lineOf n).2 u.1 8)
  || (match t with
      | .remote d a _ _ => (s.fabric.unacked.any fun p =>
          p.dst.toNat == d && p.core.toNat == s.team.core && p.gid.toNat == s.cur.gid && pktCovers p a n)
          || (s.fabric.fsJobs.any fun j => j.pkt.dst.toNat == d && j.pkt.core.toNat == s.team.core && j.pkt.gid.toNat == s.cur.gid
                && !j.pkt.rg && decide (j.line ∈ blocksOf 128 a n))
          || (h.sq ++ h.flags).any fun e => e.targets.any fun u => overlaps t n u 1
      | _ => false)

/-- Does the running or the suspended job of a bank cover a bank location (R302, R371)? -/
def State.jobCovers (s : State) (key : Nat) : Bool :=
  let b := key / bankSize
  let x := s.bankOf b
  let inR := fun (r : BankRegion) => decide (b * bankSize + r.b0 ≤ key) && decide (key < b * bankSize + r.b0 + 65536 * r.pages)
  (x.running && inR x.region) || (match x.suspended with | some j => inR j.region | none => false)

/-- The decision on a load of result rows (R302): served, waiting, or ROW_NOT_FULL. -/
def State.rowCheck (s : State) (key n : Nat) (va : Word64) : Res Unit :=
  match (blocksOf 1024 key n).find? (fun r => !decide (r ∈ s.fullRows)) with
  | none => .ok ()
  | some r => if s.jobCovers (Nat.max key (r * 1024)) then .error .stall else accTrap .rowNotFull va 1

/-- The byte that a core's loads see: that of a store of the core that its home does not hold yet, that of a line of the L1, that of a store which the core's die observes, or the one at home (R212, R221, R250, R254). -/
def State.cachedByte (s : State) (core key : Nat) : Byte :=
  match mfind (key / 128) (s.coreOf core).l1 with
  | some bs => (postedByte (s.posted.filter (·.core == core)) key).getD (bs.getD (key % 128) 0)
  | none => (postedByte (s.visible core) key).getD (s.mem.byte key)

/-- The list with the bytes that waiting stores forward in place of those read. -/
def overlay (fwd : List (Option Byte)) (bs : List Byte) : List Byte :=
  (fwd.zip bs).map fun p => p.1.getD p.2

/-- The lines that a load of the focus group reads through the mesh: those of a joinable read (R390) that its core holds no copy of. -/
def State.meshLines (s : State) (p : Place) (va : Word64) (n : Nat) (atHome : Bool) : List Nat :=
  match p.tgt with
  | .home k => if p.joinable va atHome then (blocksOf 128 k n).filter fun l => (mfind l (s.coreOf s.team.core).l1).isNone else []
  | _ => []

/-- The lines that a load must wait for: those that are in flight for it, those whose read joins another on its way, and, where the device's choice is 4, every line whose read takes its time (R389). -/
def State.meshWaits (s : State) (p : Place) (va : Word64) (n : Nat) (atHome : Bool) : List Nat :=
  let h := s.hart
  let me := s.fabric.device.toNat
  (s.meshLines p va n atHome).filter fun l =>
    let has := (mfind (me, meshKey (128 * l)) h.arrived).isSome || (badReply h.bad me (meshKey (128 * l)) 128).isSome
    !has && (decide ((me, meshKey (128 * l)) ∈ h.asked) || s.choice == 4 || s.wouldJoin s.team.core l)

/-- The bytes of home memory as a core sees them without its L1. -/
def State.homeBytes (s : State) (core k n : Nat) : List Byte :=
  (List.range n).map fun i => (postedByte (s.visible core) (k + i)).getD (s.mem.byte (k + i))

/-- A reply of the mesh reaches its reader, with the line as the home holds it now and its poisoned granules (R389). -/
def State.meshReply (s : State) (line : Nat) (who : ReadId) : State :=
  let i := HartId.group who.1 who.2.1
  let me := s.fabric.device.toNat
  let a := 128 * line
  let bs := s.homeBytes (s.teamOf who.1).core a 128
  let cells := (List.range 128).map fun j => ((me, meshKey (a + j)), bs.getD j 0)
  let bad := ((blocksOf 64 a 128).filter fun g => decide (g ∈ s.poisoned)).map fun g => ((me, meshKey (64 * g) / 64), Cause.poison)
  s.setHartOf i ((s.hartOf i).receive (me, meshKey a) cells bad)

/-- A read in flight is performed at its home: at that instant it and every read that has joined it take the line's value, and their entries are free again (R389). -/
def State.performRead (i : Nat) (s : State) : Out :=
  match s.reads[i]? with
  | none => .next s
  | some m =>
    if m.joined then .next s
    else
      let ids := forks s.reads m.line s.reads.length [m.reader]
      let s := ids.foldl (fun s who => s.meshReply m.line who) s
      .next { s with reads := s.reads.filter fun x => !(x.line == m.line && decide (x.reader ∈ ids)) }

/-- Reads n bytes at a place for the focus group; `atHome` bypasses the L1 (R254). -/
def State.readGroup (s : State) (p : Place) (va : Word64) (n : Nat) (atHome : Bool) : Res (List Byte) :=
  let h := s.hart
  let fwd := (List.range n).map fun i => forward h.waiting (p.tgt.plus i)
  let all := fwd.all Option.isSome
  if s.blocked h p.tgt n then .error .stall
  else match p.tgt with
    | .home k =>
      if all then .ok (fwd.map (·.getD 0))
      else do
        if p.fe then s.rowCheck k n va
        orElse (!(blocksOf 64 k n).any fun g => decide (g ∈ s.poisoned) && !(List.range 64).all fun i =>
          (forward h.waiting (.home (g * 64 + i))).isSome || (postedByte (s.visible s.team.core) (g * 64 + i)).isSome) (accTrap .poison va 1)
        await (!(atHome && (s.visible s.team.core).any (·.meets k n)))
        let me := s.fabric.device.toNat
        let waits := s.meshWaits p va n atHome
        if !waits.isEmpty then .error (.ask (waits.map fun l => (me, meshKey (128 * l)))) else
        orElse ((s.meshLines p va n atHome).all fun l => (badReply h.bad me (meshKey (128 * l)) 128).isNone) (accTrap .poison va 1)
        let bs := if atHome then s.mem.read k n
          else if p.fe then s.homeBytes s.team.core k n
          else (List.range n).map fun i => (mfind (me, meshKey (k + i)) h.arrived).getD (s.cachedByte s.team.core (k + i))
        return overlay fwd bs
    | .shared k _ _ =>
      if s.lineHeld k then .error .stall
      else if all then .ok (fwd.map (·.getD 0))
      else if s.bad p.tgt n then accTrap .poison va 1 else .ok (overlay fwd (s.peek p.tgt n))
    | .spad tm o =>
      if (blocksOf 8 o n).any (fun w => decide (w ∈ (s.teamOf tm).marks)
          && !(List.range 8).all fun i => (forward h.waiting (.spad tm (w * 8 + i))).isSome)
      then accTrap .poison va 1 else .ok (overlay fwd (s.peek p.tgt n))
    | .win c o asid =>
      match s.portEntry c o asid with
      | none => accTrap .accessViolation va 1
      | some e =>
        let addr := spadView + 2 ^ 20 * c + o
        let dev := s.fabric.device.toNat
        if (s.coreOf c).ports.any (fun x => x == e && x.absent) then
          match (Inbox.mk h.arrived h.bad).bytes dev addr n with
          | .error c => accTrap c va 1
          | .ok (some bs) => .ok (overlay fwd bs)
          | .ok none => .error (.ask [(dev, addr)])
        else
          let t := Tgt.spad e.team (o - e.wbase * 4096)
          if s.bad t n && !all then accTrap .poison va 1 else .ok (overlay fwd (s.peek t n))
    | .remote d a x sh =>
      if all then .ok (fwd.map (·.getD 0))
      else
        match s.opened ⟨h.arrived, h.bad⟩ d d (rowKey p.fe a) x n sh with
        | .error c => accTrap c va 1
        | .ok (some bs) => .ok (overlay fwd bs)
        | .ok none =>
          if !s.fabric.reachable d then accTrap .peerKilled (mark63 (BitVec.ofNat 64 d)) 1 else .error (.ask (remoteAsks d (rowKey p.fe a) n sh))

/-- Reads n bytes at a place for the focus. -/
def State.readAt (s : State) (p : Place) (va : Word64) (n : Nat) (atHome : Bool) : Res (List Byte) :=
  if s.onBank then
    match p.tgt with
    | .home k => if s.poisonedAt k n then accTrap .poison va 1 else .ok (s.bankBytes k n)
    | _ => illegal
  else s.readGroup p va n atHome

/-- A translation joins a core's TLB: that of the page of a virtual address, where it has a valid leaf (R365). -/
def State.fillTlb (s : State) (core asid : Nat) (va : Nat) : State :=
  match s.translate none asid true .read va with
  | .error _ => s
  | .ok t =>
    let x := s.coreOf core
    let e : TlbEntry := ⟨asid, va / t.page * t.page / 65536, t.page / 65536, t.leaf⟩
    if e ∈ x.tlb then s else s.setCoreOf core { x with tlb := x.tlb ++ [e] }

/-- A page of a context that a number names, for the translations that fetches, stores, atomics and engines bring into the TLB (R365). -/
def pageOf (n : Nat) : Nat := n % (12 * 2 ^ 36) * 65536

/-- What a core's caches keep of accesses is the device's choice (R255, R365): 0 nothing, 1 the lines of the loads, 2 the translations, 3 drops the core's translations, 4 sends the reads on their way (R389), and more brings in the translation of another page of the context, which a fetch, a store, an atomic or an engine may have used. Only windows 0x0 to 0xB have lines in the L1 (R212). -/
def State.touch (s : State) (loads : List (Word64 × Place)) : State :=
  if s.onBank then s
  else
    let c := s.team.core
    let x := s.coreOf c
    match s.choice with
    | 0 => s.chosen
    | 1 =>
      let lines := (loads.filterMap fun (l : Word64 × Place) => match l.2.tgt with
        | .home k => if l.2.fe || !((window l.1).any fun w => decide (w < 12)) || s.poisonedAt (k / 128 * 128) 128 then none else some (k / 128)
        | _ => none).eraseDups
      let l1 := lines.foldl (fun l1 l => if (mfind l l1).isSome then l1
        else l1 ++ [(l, (List.range 128).map fun i => (postedByte (s.visible c) (l * 128 + i)).getD (s.mem.byte (l * 128 + i)))]) x.l1
      s.chosen.setCoreOf c { x with l1 := l1 }
    | 2 => (loads.filter fun (l : Word64 × Place) => (window l.1).any fun w => decide (w < 12)).foldl
        (fun s l => s.fillTlb c s.hart.asid.toNat l.1.toNat) s.chosen
    | 3 => s.chosen.setCoreOf c { x with tlb := [] }
    | 4 => s.chosen
    | n => s.chosen.fillTlb c s.hart.asid.toNat (pageOf (n - 5))

/-- An acquire of scope `.die` or wider, or a counter wait, discards every L1 line of the core (R255). -/
def State.dropL1 (s : State) : State :=
  if s.onBank then s else s.setCoreOf s.team.core { s.coreOf s.team.core with l1 := [] }

/-- Scopes at and beyond the die (R221). -/
def wide : Scope → Bool
  | .die | .dev | .sys => true
  | _ => false
/-- Scopes whose releases wait for near-memory and fabric operations (R222). -/
def far : Scope → Bool
  | .dev | .sys => true
  | _ => false

def State.acquire (s : State) (sc : Scope) : State := if wide sc then s.dropL1 else s

/-! ## Issuing stores -/

/-- Is a target on another device? -/
def Tgt.isRemote (t : Tgt) : Bool := t.device.isSome

/-- The 128-byte line that a held byte lies in (R408). -/
def Tgt.line : Tgt → Nat × Nat × Nat
  | .home k => (0, 0, k / 128)
  | .shared k _ _ => (0, 0, k / 128)
  | .spad t o => (1, t, o / 128)
  | .win c o _ => (2, c, o / 128)
  | .remote d a _ _ => (3, d, a / 128)

/-- The lines that held items occupy; a put occupies two of its own (R408). -/
def heldLines (items : List SQEntry) : Nat :=
  let lines := (items.flatMap fun e => match e.op with
    | .bytes cs _ _ => cs.map fun (c : Tgt × Byte) => c.1.line
    | .flag cs _ => cs.map fun (c : Tgt × Byte) => c.1.line
    | _ => []).eraseDups
  let puts := (items.filter fun e => match e.op with | .put _ _ _ => true | _ => false).length
  lines.length + 2 * puts

/-- A held store without the bytes that a younger store of the group, performed before the commit, writes (R22). -/
def SQEntry.without (gone : List Tgt) (e : SQEntry) : SQEntry :=
  match e.op with
  | .bytes cs va n => { e with op := .bytes (cs.filter fun c => !decide (c.1 ∈ gone)) va n }
  | .flag cs va => { e with op := .flag (cs.filter fun c => !decide (c.1 ∈ gone)) va }
  | _ => e

/-- A store instruction enters the store queue, or the open region (R224, R250, R408): it raises `st` for local targets and `fab` for remote ones. A local plain store inside a region replaces the bytes of older held ones (R22, R408). -/
def State.issue (s : State) (op : SQOp) (loc rem release : Bool) (sc : Scope) : Res State :=
  let h := s.hart
  if (loc && decide (65535 ≤ h.counter kSt)) || (rem && decide (65535 ≤ h.counter kFab)) then .error .stall
  else
    let id := h.nextOp
    let e : SQEntry := { id := id, op := op, release := release, scope := sc, st := loc, fab := rem, inRegion := false }
    let h := { h with nextOp := id + 1 }
    let h := if loc then h.raiseCtr kSt id else h
    let h := if rem then h.raiseCtr kFab id else h
    match h.region with
    | some r =>
      if rem || release then
        let items := r.items ++ [{ e with inRegion := true }]
        if 64 < heldLines items then .error .full
        else .ok (s.setHart { h with region := some { r with items := items } })
      else .ok (s.setHart { h with sq := h.sq ++ [e], region := some { r with items := r.items.map (·.without e.targets) } })
    | none => .ok (s.setHart { h with sq := h.sq ++ [e] })

/-- A store of bytes at places, by increasing position: one entry for the local bytes and one for those of other devices; on a bank core it reaches the bank at once (R224, R229, R300). -/
def State.storeBytes (s : State) (va : Word64) (size : Nat) (parts : List (Place × List Byte)) (release : Bool) (sc : Scope) : Res State :=
  if s.onBank then
    .ok (parts.foldl (fun s p => match p.1.tgt with | .home k => s.pokeBank k p.2 | _ => s) s)
  else do
    let cells := parts.flatMap fun (p : Place × List Byte) => (List.range p.2.length).map fun i => (p.1.tgt.plus i, p.2.getD i 0)
    let near := cells.filter fun c => !c.1.isRemote
    let away := cells.filter fun c => c.1.isRemote
    let s ← if near.isEmpty then .ok s else s.issue (.bytes near va size) true false release sc
    if away.isEmpty then .ok s
    else s.issue (if release && sc == .grp then .flag away va else .bytes away va size) false true release sc

/-- Instructions that an open region forbids trap with ILLEGAL_OP (R408). -/
def State.notInRegion (s : State) : Res Unit := needOp s.hart.region.isNone

/-- Has every operation on a counter of a group been performed at a scope, up to operation `below` where it is given, and those that its region holds excepted? A store that all agents of its die observe is performed at `.team` and `.die` (R221). -/
def State.performed (s : State) (i : HartId) (k : Nat) (sc : Scope) (below : Option Nat) : Bool :=
  let h := s.hartOf i
  let held := match h.region with | some r => r.items.map SQEntry.id | none => []
  let mine := fun (p : Posted) (o : Nat) => HartId.group p.team p.gid == i && p.id == o
  (vget h.ledger k []).all fun o => o.2 || (below.any fun b => decide (b ≤ o.1)) || decide (o.1 ∈ held)
    || (!far sc && s.posted.any (fun p => mine p o.1) && s.posted.all fun p => p.die || !mine p o.1)

/-- Is every access that is older than a release of a group, all of its accesses where no operation is named, performed at the release's scope, with every store that they may have read from (R221, R222, R253)? At `.dev` and `.sys` the near-memory commands count too. -/
def State.olderDone (s : State) (i : HartId) (core : Nat) (sc : Scope) (below : Option Nat) : Bool :=
  s.performed i kSt sc below && s.performed i kFab sc below && (!far sc || s.performed i kNear sc below)
    && (s.visible core).all fun p => !far sc && p.die

/-- Every older access of the focus group has been performed at a scope, those that a region holds excepted (R222, R226, R260). -/
def State.quiet (s : State) (sc : Scope) : Bool :=
  sc == .grp || (s.hart.sq.isEmpty && s.olderDone s.hid s.team.core sc none)

/-- A bank core's accesses are performed as they are made, so nothing waits there (R300). -/
def State.drained (s : State) (sc : Scope) : Res Unit := if s.onBank then .ok () else await (s.quiet sc)

/-- Integer types: the width in bits (R44). -/
def tyBits (t : IntTy) : Nat := 8 * 2 ^ t.width.toNat
def tyBytes (t : IntTy) : Nat := 2 ^ t.width.toNat

/-- `Val` (R57): the value of the low w bits of a pattern. -/
def valOf (p w : Nat) (nat : Bool) : Int :=
  let x := p % 2 ^ w
  if nat || decide (x < 2 ^ (w - 1)) then x else (x : Int) - 2 ^ w
/-- `Ext` (R57): an integer reduced to w bits and extended to 64. -/
def extOf (v : Int) (w : Nat) (nat : Bool) : Word64 :=
  let q := (v % 2 ^ w).toNat
  BitVec.ofInt 64 (valOf q w nat)

end Sys2Proof.Machine
end

