-- ==== Sys2Proof/Machine/Tiles.lean ====
section
/-! DEFINITION. The tile port: presence tags and their events (R207 to R209), the hold buffer (R210), `Deliver` (R211), and packets that a team's bounce ring takes in its absence (R211, R372). -/

namespace Sys2Proof.Machine

/-! ## Waking -/

/-- A suspended path becomes ready, with what the waking event hands to it (R98); its readiness counts from now (R100). -/
def State.wake (s : State) (k g : Nat) (p : Bool) (gr : Option Grant) : State :=
  let h := s.hartOf (.group k g)
  let x := h.path p
  { s.setHartOf (.group k g) (h.setPath p { x with susp := none, grant := gr, stalled := false, since := s.tick }) with tick := s.tick + 1 }

/-- A path that waits for a tile. -/
structure Waiter where
  gid : Nat
  path : Bool
  since : Nat
  consume : Bool
  chk : Bool
  addr : Word64
deriving DecidableEq, Repr

/-- The paths of a team that wait for a tile. -/
def State.tileWaiters (s : State) (k t : Nat) : List Waiter :=
  (s.liveGids k).flatMap fun g =>
    [false, true].filterMap fun p =>
      let x := (s.hartOf (.group k g)).path p
      match x.susp with
      | some (.tile t' c ch a) => if t' = t then some ⟨g, p, x.since, c, ch, a⟩ else none
      | _ => none

/-- The earliest of a list of waiters. -/
def oldest : List Waiter → Option Waiter
  | [] => none
  | w :: ws => match oldest ws with
    | none => some w
    | some v => if v.since < w.since then some v else some w

/-! ## Events of a tile -/

def State.tagOf (s : State) (k t : Nat) : Tag := (s.teamOf k).tag t
def State.setTagOf (s : State) (k t : Nat) (x : Tag) : State := s.setTeamOf k ((s.teamOf k).setTag t x)

/-- Wakes every path that waits for a tile, to trap as the tile's new tag gives; bit 63 marks the address for NEVER (R208). -/
def State.wakeTile (s : State) (k t : Nat) (never : Bool) : State :=
  (s.tileWaiters k t).foldl (fun s w => s.wake k w.gid w.path (some (.trap .poison (if never then mark63 w.addr else w.addr)))) s

/-- The puts held for a tile are discarded and logged (R208, R210). -/
def State.discardTile (s : State) (k t : Nat) : State :=
  let c := (s.teamOf k).core
  let x := s.coreOf c
  let gone := x.hold.filter fun h => h.team == k && h.tile == t
  let s := s.setCoreOf c { x with hold := x.hold.filter fun h => !(h.team == k && h.tile == t) }
  gone.foldl (fun s h => (s.logError .discarded 0 c (s.teamOf k).asid 0 (BitVec.ofNat 64 (h.tile * 256))).putDone h.src h.st h.remote) s

/-- Bad data in a tile (R208): the tag becomes POISON, waiters wake, held puts are discarded. -/
def State.poisonTile (s : State) (k t : Nat) : State :=
  ((s.setTagOf k t .poison).discardTile k t).wakeTile k t false

/-- Writes 256 bytes of a put; poisoned words mark the tile (R203, R208). The tag that follows. -/
def State.writeTile (s : State) (k t : Nat) (data : List Byte) (marks : List Nat) : State × Tag :=
  let tm := (s.teamOf k).poke (256 * t) data false
  let tm := { tm with marks := marks.foldl (fun l w => insertNew (32 * t + w) l) tm.marks }
  (s.setTeamOf k tm, if marks.isEmpty then .full else .poison)

/-- What a FULL tile gives to a waiter: its data, or a trap where a word of it is marked (R203) or where the waiter's test of the data fails (R232). The test is handed in. -/
def Waiter.gets (test : List Byte → Bool) (bs : List Byte) (marked : Bool) (w : Waiter) : Grant :=
  if marked then .trap .poison w.addr
  else if w.chk && !test bs then .trap .dataCheck w.addr
  else .data (bytesToBits 2048 bs)
def Grant.isTrap : Grant → Bool
  | .trap _ _ => true
  | _ => false

/-- A tile that is FULL serves its waiters (R209): every LDP, then the oldest LDC, which empties it; the oldest held put for it is applied in the same step. A waiter that traps leaves the tile FULL. -/
def State.serveTile (test : List Byte → Bool) : (fuel : Nat) → State → (k t : Nat) → State
  | 0, s, _, _ => s
  | fuel + 1, s, k, t =>
    let bs := (s.teamOf k).mem.read (256 * t) 256
    let gets := fun (w : Waiter) => w.gets test bs ((s.teamOf k).markedAt (256 * t) 256)
    let give := fun (s : State) (w : Waiter) => s.wake k w.gid w.path (some (gets w))
    let s := ((s.tileWaiters k t).filter (!·.consume)).foldl give s
    match oldest (s.tileWaiters k t) with
    | none => s
    | some w =>
      if (gets w).isTrap then (give s w).serveTile test fuel k t
      else
        let s := (give s w).setTagOf k t .empty
        let c := (s.teamOf k).core
        let x := s.coreOf c
        match x.hold.find? fun h => h.team == k && h.tile == t with
        | none => s
        | some h =>
          let s := s.setCoreOf c { x with hold := x.hold.erase h }
          let (s, tag) := s.writeTile k t h.data h.marks
          let s := s.putDone h.src h.st h.remote
          if tag = .poison then s.poisonTile k t else (s.setTagOf k t .full).serveTile test fuel k t

/-- How often a tile may change within one event: once for each waiter and held put. -/
def State.tileFuel (s : State) (k : Nat) : Nat := 2 * (s.liveGids k).length + (s.coreOf (s.teamOf k).core).hold.length + 2

/-- A tile becomes FULL. -/
def State.fillTile (s : State) (test : List Byte → Bool) (k t : Nat) : State :=
  let s := s.setTagOf k t .full
  s.serveTile test (s.tileFuel k) k t

/-- A tile becomes EMPTY: the oldest held put for it is applied (R209). -/
def State.emptyTile (s : State) (test : List Byte → Bool) (k t : Nat) : State :=
  let s := s.setTagOf k t .empty
  let c := (s.teamOf k).core
  let x := s.coreOf c
  match x.hold.find? fun h => h.team == k && h.tile == t with
  | none => s
  | some h =>
    let s := s.setCoreOf c { x with hold := x.hold.erase h }
    let (s, tag) := s.writeTile k t h.data h.marks
    let s := s.putDone h.src h.st h.remote
    if tag = .poison then s.poisonTile k t else s.fillTile test k t

/-- A put at its tile (R208, R210): none where the hold buffer has no room. -/
def State.applyPut (s : State) (test : List Byte → Bool) (k t : Nat) (h : Held) : Option State :=
  match s.tagOf k t with
  | .empty | .never =>
    let (s, tag) := s.writeTile k t h.data h.marks
    let s := s.putDone h.src h.st h.remote
    some (if tag = .poison then s.poisonTile k t else s.fillTile test k t)
  | .full =>
    let c := (s.teamOf k).core
    let x := s.coreOf c
    if 16 ≤ x.hold.length then none else some (s.setCoreOf c { x with hold := x.hold ++ [h] })
  | .poison =>
    some ((s.logError .discarded 0 (s.teamOf k).core (s.teamOf k).asid 0 (BitVec.ofNat 64 (256 * t))).putDone h.src h.st h.remote)

/-- TFILL and TEMPTY at one tile (R208). -/
def State.tagEvent (s : State) (test : List Byte → Bool) (fill : Bool) (k t : Nat) : State :=
  match s.tagOf k t, fill with
  | .full, true => s
  | _, true => s.fillTile test k t
  | .empty, false => s
  | _, false => s.emptyTile test k t

/-! ## Stores that some agents observe before the home (R221, R251) -/

/-- The part of a store at the head of the posted ones reaches its home; the L1 of its core follows, but for bytes that younger stores of the core's view hold (R212). -/
def State.landOne (s : State) (p : Posted) : State :=
  let s := { s with posted := s.posted.erase p }
  let s := (s.poke none (.home p.key) p.bytes false)
  let view := (List.range p.bytes.length).map fun i => (postedByte (s.visible p.core) (p.key + i)).getD (p.bytes.getD i 0)
  let s := s.l1Store (some p.core) p.key view
  let i := HartId.group p.team p.gid
  if s.posted.any fun q => q.team == p.team && q.gid == p.gid && q.id == p.id then s else s.completeOp i kSt p.id

/-- Some of the posted parts land, oldest first, each behind the older ones that meet it and that an agent may observe beside it (coherence, R251). -/
def State.landWhere (s : State) (hit : Posted → Bool) : State :=
  let near := fun (p q : Posted) => p.meets q.key q.bytes.length && p.core / 36 == q.core / 36 && (p.core == q.core || p.die || q.die)
  -- from the youngest to the oldest: a part lands where it is hit, or where a younger one that lands meets it
  let go := s.posted.foldr (fun p (l : List Posted) => if hit p || l.any (near p) then p :: l else l) []
  go.foldl State.landOne s

/-- The parts that a core observes of stores to n bytes land before another access of the core's agents is performed there. -/
def State.landOver (s : State) (core key n : Nat) : State :=
  if s.posted.isEmpty then s else s.landWhere fun p => p.seenBy core && p.meets key n

/-- The oldest part of a group's stores lands. -/
def State.landOldest (s : State) (k g : Nat) : State :=
  match s.posted.find? fun p => p.team == k && p.gid == g with
  | some p => s.landWhere (· == p)
  | none => s

/-- Another agent's parts of stores to n bytes land, where they lie on the die of a core, before the core's own store to them is observed (coherence, R251). -/
def State.landOthers (s : State) (core key n : Nat) : State :=
  s.landWhere fun p => p.meets key n && p.core != core && p.core / 36 == core / 36

/-- The part of a store at a place in the list is observed by its whole die from now on. -/
def State.promote (s : State) (i : Nat) : State :=
  match s.posted[i]? with
  | some p =>
    let s := s.landOthers p.core p.key p.bytes.length
    { s with posted := s.posted.map fun q => if q = p then { q with die := true } else q }
  | none => s

/-- What the device does beside performing a store is its choice: an even number lets the whole die observe a part, an odd one lets the part land (R221, R251). -/
def State.movePosted (s : State) (n : Nat) : State :=
  if n % 2 = 0 then s.promote (n / 2)
  else match s.posted[n / 2]? with
    | some p => s.landWhere (· == p)
    | none => s

/-- Bytes written at a place by an agent of this device, with the tile events of poisoned data (R203, R207). -/
def State.pokeMarked (s : State) (core : Option Nat) (t : Tgt) (bs : List Byte) (bad : Bool) : State :=
  let s := s.poke core t bs bad
  match t with
  | .spad k o => if bad then (blocksOf 256 o bs.length).foldl (fun s b => s.poisonTile k b) s else s
  | _ => s

/-! ## Window 0xE (R205, R211) -/

/-- What an access through window 0xE meets (R205): nothing, an absent team with its ring, or bytes of an allocation. -/
inductive WinPlace where
  | refused
  | absent (e : PortEntry) (off : Nat)
  | here (team off : Nat)
deriving DecidableEq, Repr

/-- Resolves a window offset of a core under an ASID (R205, R211). -/
def State.winPlace (s : State) (core o asid : Nat) : WinPlace :=
  match s.portEntry core o asid with
  | none => .refused
  | some e => if e.absent then .absent e (o - e.wbase * 4096) else .here e.team (o - e.wbase * 4096)

end Sys2Proof.Machine
end

