-- ==== Sys2Proof/Machine/Control.lean ====
section
/-! DEFINITION. Class 0, control transfers, divergence and the end of a group (spec/03 R69 to R76, spec/04 R91 to R95). -/

namespace Sys2Proof.Machine

/-- A taken transfer with the checks of R69; the latch is what the instruction leaves in b0. -/
def State.transfer (s : State) (b0 : Latch) (target : Word64) : Res State := do
  s.checkTarget target
  return s.jump b0 target

/-- A branch of n words: taken to a target, or not. -/
def State.branch (s : State) (n : Nat) (taken : Bool) (target : Word64) : Res State :=
  if taken then s.transfer Latch.none target else .ok (s.retire n Latch.none)

def execBra (i : BitVec 10) (s : State) : Out := s.finish (s.branch 1 true (s.dispTarget (sx64 i)))
def execBrz (a : Src) (i : BitVec 10) (s : State) : Out :=
  s.finish do
    let x ← s.opnd a
    s.branch 1 (x == 0) (s.dispTarget (sx64 i))
def execBrnz (a : Src) (i : BitVec 10) (s : State) : Out :=
  s.finish do
    let x ← s.opnd a
    s.branch 1 (x != 0) (s.dispTarget (sx64 i))

/-- The conditions of BRC (R70). -/
def condHolds (cc : BrCond) (a b : Word64) : Bool :=
  match cc with
  | .eq => a == b
  | .ne => a != b
  | .lt => a.slt b
  | .ge => !a.slt b
  | .ltn => a.ult b
  | .gen => !a.ult b

def execBrc (a b : Src) (cc : BrCond) (l : Word32) (s : State) : Out :=
  s.finish do
    let x ← s.opnd a
    let y ← s.opnd b
    s.branch 2 (condHolds cc x y) (s.dispTarget (sx64 l))
def execJmp (l : Word32) (s : State) : Out := s.finish (s.transfer Latch.none (s.dispTarget (sx64 l)))
def execJmpReg (a : Src) (l : Word32) (s : State) : Out :=
  s.finish do
    let x ← s.opnd a
    s.transfer Latch.none (x + 4 * sx64 l)

/-- A call: the checks, then the link to its register and b0, then the transfer (R72). -/
def State.callTo (s : State) (d : Dst) (target : Word64) : Res State := do
  s.checkTarget target
  let link := s.path.nextHeader
  return (s.setDst d link).jump (.scalar link) target

def execCall (d : Dst) (l : Word32) (s : State) : Out := s.finish (s.callTo d (s.dispTarget (sx64 l)))
def execCallr (d : Dst) (a : Src) (s : State) : Out :=
  s.finish do
    let x ← s.opnd a
    s.callTo d x
def execRet (a : Src) (s : State) : Out :=
  s.finish do
    let x ← s.opnd a
    s.transfer Latch.none x

/-! ## Divergence (R91 to R95) -/

/-- A mask source (R40, R41). -/
def State.opndM (s : State) : Src → Res MWord
  | .reg n => if n.toNat < 8 then .ok (vget s.hart.m n.toNat 0) else illegal
  | .latch k => (s.path.latch k .mask).map (·.setWidth 256)
  | .const _ => illegal

/-- A child path that begins at a clause (R92). -/
def childPath (lanes pc fmt : Word64) : Path :=
  { Path.idle with active := true, lanes := lanes, pc := pc, emask := lanes, fmt := fmt }

/-- The address of the spill-store entry of the record that is number n from the oldest (R199). -/
def State.recEntry (s : State) (n : Nat) : Nat := s.hart.spbase.toNat + s.team.privBytes + 32 * n

/-- Writes the records from position i on, newest first, to the spill store (R93, R199). -/
def State.spillFrom (s : State) (i : Nat) : Res State :=
  let n := s.hart.recs.length
  (List.range (n - i)).foldl (fun r j => do
    let s ← r
    match s.hart.recs[i + j]? with
    | none => return s
    | some x =>
      let a := s.recEntry (n - 1 - (i + j))
      match s.vwrite s.hart.asid.toNat true a x.bytes with
      | .ok s => return s
      | .error _ => .error (.broken (BitVec.ofNat 64 a))) (.ok s)

/-- Reads the records that lie in the spill store, those behind the newest 32 (R93, R199). -/
def State.fillRecs (s : State) : Res State :=
  let n := s.hart.recs.length
  (List.range (n - 32)).foldl (fun r j => do
    let s ← r
    let a := s.recEntry (n - 33 - j)
    match s.vread s.hart.asid.toNat true a 32 with
    | .ok bs => return s.setHart { s.hart with recs := modifyAt (fun x => x.loadBytes bs) (32 + j) s.hart.recs }
    | .error _ => .error (.broken (BitVec.ofNat 64 a))) (.ok s)

/-- A mixed BRM divides its path (R92): the taken child in its slot, the fall-through child in the other or pending. Where both the target and the number of records fail, the target's trap is taken: DESIGN CHOICE (log 70). -/
def State.divide (s : State) (t target : Word64) : Res State := do
  s.checkTarget target
  need (decide (s.hart.recs.length < 1024)) .stackLimit 1025
  let h := s.hart
  let p := s.path
  let f := p.emask &&& ~~~t
  let fall := p.nextHeader
  let other := h.path (!s.cur.path)
  let r : DivRec :=
    { lanes := p.lanes, fmt := p.fmt, taken := t, fall := f, takenOpen := true, fallOpen := true, takenMask := 0,
      fallMask := 0, takenPc := none, fallPc := none, pending := if other.active then some ⟨f, fall, p.fmt⟩ else none }
  let h := { h with recs := r :: h.recs }
  let h := if other.active then h else h.setPath (!s.cur.path) { childPath f fall p.fmt with since := s.tick }
  let s ← if h.recs.length ≤ 32 then .ok (s.setHart h) else (s.setHart h).spillFrom 32
  let s := s.jump Latch.none target
  return s.setPath { s.path with lanes := t, emask := t }

def execBrm (a : Src) (i : BitVec 10) (s : State) : Out :=
  s.finish do
    let m ← s.opndM a
    let p := s.path
    let t := m.setWidth 64 &&& p.emask
    let target := s.dispTarget (sx64 i)
    if t = p.emask then s.branch 1 true target
    else if t = 0 then s.branch 1 false target
    else s.divide t target

/-- The newest record that has the lanes of a path as an open child, by position, and whether it is the taken child. -/
def findRec (lanes : Word64) : List DivRec → Option (Nat × Bool)
  | [] => none
  | r :: rs =>
    if r.takenOpen && r.taken == lanes then some (0, true)
    else if r.fallOpen && r.fall == lanes then some (0, false)
    else (findRec lanes rs).map fun x => (x.1 + 1, x.2)

/-- A record after one child has closed, with its `emask` and the clause after its JOIN; none for EXIT (R94, R95). -/
def DivRec.close (r : DivRec) (taken : Bool) (mask : Word64) (pc : Option Word64) : DivRec :=
  if taken then { r with takenOpen := false, takenMask := mask, takenPc := pc }
  else { r with fallOpen := false, fallMask := mask, fallPc := pc }

/-- The newest pending path takes a free slot (R94). -/
def Hart.refill (h : Hart) (slot : Bool) (tick : Nat) : Hart :=
  match h.recs.findIdx? fun r => r.pending.isSome with
  | none => h
  | some i => match (h.recs[i]?).bind DivRec.pending with
    | none => h
    | some q =>
      { h with recs := modifyAt (fun r => { r with pending := none }) i h.recs }.setPath slot
        { childPath q.lanes q.pc q.fmt with since := tick }

/-- A path closes as a child of its record (R94, R95). The parent resumes in the slot when both children have closed; when both closed by EXIT the parent closes by EXIT too, and the answer is true where that parent holds all the group's lanes. Where another path is pending as the second child closes, the parent takes the freed slot, and the pending path goes on waiting: DESIGN CHOICE (log 71). -/
def Hart.closeChild (h : Hart) (slot : Bool) (tick : Nat) : (fuel : Nat) → Word64 → Word64 → Option Word64 → Hart × Bool
  | 0, _, _, _ => (h, false)
  | fuel + 1, lanes, mask, pc =>
    match findRec lanes h.recs with
    | none => (h, pc.isNone)
    | some (i, taken) =>
      let h := { h with recs := modifyAt (fun r => r.close taken mask pc) i h.recs }
      match h.recs[i]? with
      | none => (h, false)
      | some r =>
        if r.takenOpen || r.fallOpen then ((h.setPath slot Path.idle).refill slot tick, false)
        else
          let h := { h with recs := removeAt i h.recs }
          let mask := r.takenMask ||| r.fallMask
          let parent := { childPath r.lanes 0 r.fmt with emask := mask, since := tick }
          match r.takenPc <|> r.fallPc with
          | some q => (h.setPath slot { parent with pc := q }, false)
          | none =>
            -- both children closed by EXIT: the parent stands at the EXIT and closes in the same way
            let x := h.path slot
            let h := h.setPath slot { x with lanes := r.lanes, emask := mask, fmt := r.fmt }
            h.closeChild slot tick fuel r.lanes 0 none

def execJoin (s : State) : Out :=
  s.finish do
    let p := s.path
    match findRec p.lanes s.hart.recs with
    | none => return s.retire 1 Latch.none
    | some _ =>
      let s ← s.fillRecs
      (s.setHart (s.hart.closeChild s.cur.path s.tick 1 p.lanes p.emask (some p.nextHeader)).1).spillFrom 32

/-- All eight counters of a group are zero (R75). -/
def Hart.drainedAll (h : Hart) : Bool := (List.range 8).all fun k => h.counter k == 0

/-- EXIT (R75, R95): a child path closes; the path that holds all lanes waits for the counters and ends the group. -/
def State.exitPath (s : State) : Res State := do
  let s ← s.fillRecs
  let n := s.hart.recs.length
  let p := s.path
  let (h, whole) := s.hart.closeChild s.cur.path s.tick (n + 1) p.lanes 0 none
  if !whole then (s.setHart h).spillFrom 32
  else if h.drainedAll then .ok ((s.setHart h).endGroup s.cur.team s.cur.gid none)
  else if h.recs.length = n then .error (.suspend .drain)
  else (s.setHart (h.setPath s.cur.path { h.path s.cur.path with susp := some .drain, since := s.tick, issuing := false })).spillFrom 32

def execExit (s : State) : Out := s.finish s.exitPath

/-! ## Hints (R76) -/

def execLooph (s : State) : Out :=
  .next ((s.setHart { s.hart with loopHead := some s.path.header }).retire 1 Latch.none)
def execNop (s : State) : Out := .next (s.retire 1 Latch.none)
/-- The yield hint for the end of the clause. -/
def Path.setYield (p : Path) : Path :=
  { p with clause := p.clause.map fun c => { c with yield := true } }
def execYield (s : State) : Out := .next ((s.setPath s.path.setYield).retire 1 Latch.none)

end Sys2Proof.Machine
end

