-- ==== Sys2Proof/Machine/Flags.lean ====
section
/-! DEFINITION. Conditions: the mask bits of the vector compares (R120) and the widths and formats that a vector instruction selects (R112, R116). The device has no flag register (R116). -/

namespace Sys2Proof.Machine

/-- The integer compares (R120). -/
inductive ICmp where
  | eq | ne | lt | le
deriving DecidableEq, Repr
def ICmp.holds (c : ICmp) (x y : Int) : Bool :=
  match c with
  | .eq => x == y
  | .ne => x != y
  | .lt => decide (x < y)
  | .le => decide (x ≤ y)

/-- The floating-point compares (R120). -/
inductive FCmp where
  | eq | lt | le | un
deriving DecidableEq, Repr
def FCmp.holds (c : FCmp) (x y : FVal) : Bool :=
  match c with
  | .eq => x.eq y
  | .lt => x.lt y
  | .le => x.le y
  | .un => x.isNan || y.isNan

/-- The format that alt selects at an element width; none is illegal (R112, R116). -/
def fpFormat (u : Bool) (sew : Nat) : Option FF :=
  if sew = 16 then some (if u then .bf16 else .f16)
  else if sew = 32 && !u then some .f32 else none

end Sys2Proof.Machine
end

