-- ==== Sys2Proof/Machine/Operands.lean ====
section
/-! DEFINITION. Vector and mask operands: the vector type (R104, R105), register groups and latches (R106, R107), mask groups and mask selects (R108, R109), and the rule of writing (R110, R43). -/

namespace Sys2Proof.Machine

/-! ## The vector type -/

/-- The vector type in force, with VLEN and the number of vector registers of the agent (R104, R286). -/
structure VC where
  vlen : Nat
  regs : Nat
  sew : Nat
  lmul : Nat
  vl : Nat
  ta : Bool
  ma : Bool
deriving DecidableEq, Repr

/-- The fields of a `vtype` value (R104). -/
def VC.of (bank : Bool) (vtype vl : Word64) : VC :=
  { vlen := if bank then 512 else 2048, regs := if bank then 16 else 32, sew := 8 * 2 ^ (vtype.extractLsb' 0 2).toNat,
    lmul := 2 ^ (vtype.extractLsb' 2 2).toNat, vl := vl.toNat, ta := vtype.getLsbD 4, ma := vtype.getLsbD 5 }
def State.vc (s : State) : VC := VC.of s.onBank s.hart.vtype s.hart.vl
/-- VLMAX (R105). -/
def VC.max (c : VC) : Nat := c.vlen / c.sew * c.lmul
/-- MG, the registers of a mask group (R108). -/
def VC.mg (c : VC) : Nat := Nat.max 1 (c.max / 256)
/-- The elements that a masked instruction may touch: VLMAX, `vl` within it (R105). -/
def vlmaxOf (bank : Bool) (vtype : Word64) : Nat := (VC.of bank vtype 0).max

/-- The execution mask of the focus: all 16 lanes on a bank core (R286). -/
def State.lanesOn (s : State) : Word64 := if s.onBank then 0xFFFF else s.path.emask

/-- `Lanes(i, w)` (R106). -/
def laneOn (vlen : Nat) (em : Word64) (i w : Nat) : Bool :=
  let j := i % (vlen / w)
  (List.range ((w + 31) / 32)).all fun k => em.getLsbD (w * j / 32 + k)
/-- The lowest lane that holds element i at width w. -/
def laneOf (vlen i w : Nat) : Nat := w * (i % (vlen / w)) / 32

/-! ## Checks on operands -/

/-- A vector instruction executes at any SEW on a group, at SEW 16 or 32 on a bank core (R286). -/
def State.sewOk (s : State) (c : VC) : Bool := !s.onBank || c.sew == 16 || c.sew == 32
/-- A destination group of L registers (R107, R43). -/
def VC.dstOk (c : VC) (d : Dst) (L : Nat) : Bool :=
  if d.nw then L == 1 && c.lmul == 1 else d.reg.toNat % L == 0 && decide (d.reg.toNat + L ≤ c.regs)
/-- A register group that an instruction names in dst without nw. -/
def VC.regOk (c : VC) (r L : Nat) : Bool := r % L == 0 && decide (r + L ≤ c.regs)
/-- A vector source of L registers (R107). -/
def VC.srcOk (c : VC) (a : Src) (L : Nat) : Bool :=
  match a with
  | .reg n => c.regOk n.toNat L
  | .latch _ => L == 1
  | .const _ => true
/-- nw asks for LMUL 1, whatever the result is (R43). -/
def VC.nwOk (c : VC) (d : Dst) : Bool := !d.nw || c.lmul == 1
/-- A mask destination (R108, R43). -/
def VC.mdstOk (c : VC) (d : Dst) : Bool :=
  if d.nw then c.mg == 1 && c.nwOk d else d.reg.toNat % c.mg == 0 && decide (d.reg.toNat + c.mg ≤ 8)
/-- A mask source (R108). -/
def VC.msrcOk (c : VC) (a : Src) : Bool :=
  match a with
  | .reg n => n.toNat % c.mg == 0 && decide (n.toNat + c.mg ≤ 8)
  | .latch _ => c.mg == 1
  | .const _ => false
/-- A mask select (R109). -/
def VC.selOk (c : VC) : MSel → Bool
  | .none => true
  | .m0 => true
  | .m2 => decide (c.mg ≤ 2)
  | .m4 => decide (c.mg ≤ 4)
/-- Do two register groups share a register? -/
def groupsMeet (a m b n : Nat) : Bool := decide (a < b + n) && decide (b < a + m)
/-- Does a destination group of L registers overlap a source group of M? -/
def dstMeets (d : Dst) (L : Nat) (a : Src) (M : Nat) : Bool :=
  match a with
  | .reg n => !d.nw && groupsMeet d.reg.toNat L n.toNat M
  | _ => false

/-- The slot check of R87: the first register of a range in a slot that is not held. -/
def State.heldRegs (s : State) (r L : Nat) : Res Unit :=
  if s.onBank then .ok ()
  else match (List.range L).find? (fun k => !s.hart.held.getLsbD ((r + k) / 8)) with
    | none => .ok ()
    | some k => raise .blockDenied (BitVec.ofNat 64 (r + k))
def State.heldSrc (s : State) (a : Src) (L : Nat) : Res Unit :=
  match a with
  | .reg n => s.heldRegs n.toNat L
  | _ => .ok ()
def State.heldDst (s : State) (d : Dst) (L : Nat) : Res Unit := if d.nw then .ok () else s.heldRegs d.reg.toNat L

/-! ## Reading -/

/-- Element j of width w of a register pattern. -/
def vpat (v : VWord) (w j : Nat) : Nat := v.toNat / 2 ^ (w * j) % 2 ^ w
/-- Element i of a register group that starts at register r. -/
def Hart.elem (h : Hart) (vlen r w i : Nat) : Nat := vpat (vget h.v (r + i / (vlen / w)) 0) w (i % (vlen / w))

/-- A vector source as a function from element number to pattern; `cst` gives an inline constant's pattern (R41, R107). -/
def State.vsrc (s : State) (c : VC) (a : Src) (w : Nat) (cst : Int → Nat) : Res (Nat → Nat) :=
  match a with
  | .reg n => let h := s.hart; .ok (h.elem c.vlen n.toNat w)
  | .latch k => (s.path.latch k .vector).map fun v i => vpat v w i
  | .const x => let p := cst (constInt x); .ok fun _ => p

/-- One whole vector register or vector latch; an inline constant fills its lanes by `cst`. -/
def State.vreg1 (s : State) (a : Src) (cst : Int → VWord) : Res VWord :=
  match a with
  | .reg n => .ok (vget s.hart.v n.toNat 0)
  | .latch k => s.path.latch k .vector
  | .const x => .ok (cst (constInt x))

/-- Bit i of the mask group that starts at m(k) (R108). -/
def Hart.mbit (h : Hart) (k i : Nat) : Bool := (vget h.m (k + i / 256) 0).getLsbD (i % 256)
/-- A mask source as a function from element number to bit. -/
def State.msrc (s : State) (a : Src) : Res (Nat → Bool) :=
  match a with
  | .reg n => let h := s.hart; .ok (h.mbit n.toNat)
  | .latch k => (s.path.latch k .mask).map fun v i => v.getLsbD i
  | .const _ => illegal
/-- `Sel(i)` (R109). -/
def State.sel (s : State) (k : MSel) : Nat → Bool :=
  let h := s.hart
  match k with
  | .none => fun _ => true
  | .m0 => h.mbit 0
  | .m2 => h.mbit 2
  | .m4 => h.mbit 4

/-! ## Writing (R110) -/

/-- The rule of R110 over the elements from i on: what each receives, none where it stays. A value that is absent leaves an active element unwritten. -/
def writeRule (c : VC) (em : Word64) (sel : Nat → Bool) (w ones : Nat) : (i : Nat) → List (Option Nat) → List (Option Nat)
  | _, [] => []
  | i, x :: xs =>
    (if !laneOn c.vlen em i w then none
     else if c.vl ≤ i then (if c.ta then some ones else none)
     else if !sel i then (if c.ma then some ones else none)
     else x) :: writeRule c em sel w ones (i + 1) xs

/-- A register pattern with elements of width w replaced from the bottom. -/
def packCells (w : Nat) : (old : Nat) → List (Option Nat) → Nat
  | old, [] => old
  | old, c :: cs => c.getD old % 2 ^ w + 2 ^ w * packCells w (old / 2 ^ w) cs

/-- The registers of a group after its elements were written. -/
def Hart.putCells (h : Hart) (vlen r w : Nat) (cells : List (Option Nat)) (L : Nat) : Hart :=
  let E := vlen / w
  let one := fun (k : Nat) => BitVec.ofNat 2048 (packCells w (vget h.v (r + k) 0).toNat ((cells.drop (k * E)).take E))
  let v := (List.range L).foldl (fun v k => vset v (r + k) (one k)) h.v
  { h with v := v }

/-- Writes the elements of a destination group of L registers; the result's latch (R42, R43). -/
def State.putV (s : State) (c : VC) (d : Dst) (w L : Nat) (cells : List (Option Nat)) : State × Latch :=
  if d.nw then (s, .vector (BitVec.ofNat 2048 (packCells w 0 cells)))
  else
    let h := s.hart.putCells c.vlen d.reg.toNat w cells L
    (s.setHart h, if L = 1 then .vector (vget h.v d.reg.toNat 0) else Latch.none)

/-- Writes one whole vector register; the latch holds it. -/
def State.putReg (s : State) (d : Dst) (v : VWord) : State × Latch :=
  (if d.nw then s else s.setHart { s.hart with v := vset s.hart.v d.reg.toNat v }, .vector v)

/-- A mask group after bits were written; the bits from VLMAX up are tail bits (R110). -/
def State.putM (s : State) (c : VC) (d : Dst) (cells : List (Option Nat)) : State × Latch :=
  let cells := cells ++ List.replicate (256 * c.mg - c.max) (if c.ta then some 1 else none)
  if d.nw then (s, .mask (BitVec.ofNat 256 (packCells 1 0 cells)))
  else
    let h := s.hart
    let r := d.reg.toNat
    let one := fun (k : Nat) => BitVec.ofNat 256 (packCells 1 (vget h.m (r + k) 0).toNat ((cells.drop (k * 256)).take 256))
    let m := (List.range c.mg).foldl (fun m k => vset m (r + k) (one k)) h.m
    let h := { h with m := m }
    (s.setHart h, if c.mg = 1 then .mask (vget h.m d.reg.toNat 0) else Latch.none)

/-- Is element i active: below `vl`, its lanes on at width w, and selected? -/
def VC.active (c : VC) (em : Word64) (sel : Nat → Bool) (w i : Nat) : Bool := decide (i < c.vl) && laneOn c.vlen em i w && sel i

/-- Runs an element function over the active elements in increasing order, drawing from the generators as it goes. -/
def runElems (act : Nat → Bool) (f : Nat → Gens → Nat × Gens) : List Nat → Gens → List (Option Nat) × Gens
  | [], g => ([], g)
  | i :: is, g =>
    if act i then
      let (x, g) := f i g
      let (xs, g) := runElems act f is g
      (some x :: xs, g)
    else
      let (xs, g) := runElems act f is g
      (none :: xs, g)

def State.setGens (s : State) (g : Gens) : State := s.setHart { s.hart with gens := g }

end Sys2Proof.Machine
end

