-- ==== Sys2Proof/Machine/Scalar.lean ====
section
/-! DEFINITION. Class 0, integer arithmetic, constants, bit fields, compares and select (spec/03, R57 to R68). -/

namespace Sys2Proof.Machine

/-! ## Shared shapes -/

/-- A scalar result from two scalar sources. -/
def State.alu2 (s : State) (n : Nat) (d : Dst) (a b : Src) (f : Word64 → Word64 → Word64) : Out :=
  s.finish do
    let x ← s.opnd a
    let y ← s.opnd b
    return s.retireS n d (f x y)

/-- A scalar result from one scalar source. -/
def State.alu1 (s : State) (n : Nat) (d : Dst) (a : Src) (f : Word64 → Word64) : Out :=
  s.finish do
    let x ← s.opnd a
    return s.retireS n d (f x)

/-- A typed operation on exact integers (R60). -/
def typed (t : IntTy) (f : Int → Int → Int) (a b : Word64) : Word64 :=
  extOf (f (valOf a.toNat (tyBits t) t.nat) (valOf b.toNat (tyBits t) t.nat)) (tyBits t) t.nat

/-- A typed operation on the low w bits as patterns (R60). -/
def typedBits (t : IntTy) (f : Nat → Nat → Nat) (a b : Word64) : Word64 :=
  extOf (f (a.toNat % 2 ^ tyBits t) (b.toNat % 2 ^ tyBits t)) (tyBits t) t.nat

/-- Division truncated toward zero, −1 for a zero divisor (R60). -/
def divT (x y : Int) : Int := if y = 0 then -1 else x.tdiv y
/-- The matching remainder (R60). -/
def remT (x y : Int) : Int := if y = 0 then x else x - y * x.tdiv y
/-- −1, 0 or 1 as x is below, equal to or above y (R66). -/
def cmp3 (x y : Int) : Word64 := BitVec.ofInt 64 (if x < y then -1 else if x = y then 0 else 1)

/-- A pattern of w bits rotated left by c (R60). -/
def rotl (w p c : Nat) : Nat := (p * 2 ^ c + p / 2 ^ (w - c)) % 2 ^ w

/-- Zero bits above the highest one bit of a w-bit pattern; w for zero (R65). -/
def clzOf (w p : Nat) : Nat := if p = 0 then w else w - 1 - Nat.log2 p
/-- Zero bits below the lowest one bit of a pattern of w bits; w for zero (R65). -/
def ctzOf : (w p : Nat) → Nat
  | 0, _ => 0
  | w + 1, p => if p % 2 = 1 then 0 else 1 + ctzOf w (p / 2)

/-! ## Register form (R60) -/

def execAdd (d : Dst) (a b : Src) (t : IntTy) (s : State) : Out := s.alu2 1 d a b (typed t (· + ·))
def execSub (d : Dst) (a b : Src) (t : IntTy) (s : State) : Out := s.alu2 1 d a b (typed t (· - ·))
def execMul (d : Dst) (a b : Src) (t : IntTy) (s : State) : Out := s.alu2 1 d a b (typed t (· * ·))
def execMulh (d : Dst) (a b : Src) (t : IntTy) (s : State) : Out :=
  s.alu2 1 d a b (typed t fun x y => (x * y) / 2 ^ tyBits t)
def execDiv (d : Dst) (a b : Src) (t : IntTy) (s : State) : Out := s.alu2 1 d a b (typed t divT)
def execRem (d : Dst) (a b : Src) (t : IntTy) (s : State) : Out := s.alu2 1 d a b (typed t remT)
def execAnd (d : Dst) (a b : Src) (t : IntTy) (s : State) : Out := s.alu2 1 d a b (typedBits t (· &&& ·))
def execOr (d : Dst) (a b : Src) (t : IntTy) (s : State) : Out := s.alu2 1 d a b (typedBits t (· ||| ·))
def execXor (d : Dst) (a b : Src) (t : IntTy) (s : State) : Out := s.alu2 1 d a b (typedBits t (· ^^^ ·))
def execAndn (d : Dst) (a b : Src) (t : IntTy) (s : State) : Out :=
  s.alu2 1 d a b (typedBits t fun x y => x &&& (2 ^ tyBits t - 1 - y))
def execShl (d : Dst) (a b : Src) (t : IntTy) (s : State) : Out :=
  s.alu2 1 d a b fun x y => extOf (valOf x.toNat (tyBits t) t.nat * 2 ^ (y.toNat % tyBits t)) (tyBits t) t.nat
def execShr (d : Dst) (a b : Src) (t : IntTy) (s : State) : Out :=
  s.alu2 1 d a b fun x y => extOf (valOf x.toNat (tyBits t) t.nat / 2 ^ (y.toNat % tyBits t)) (tyBits t) t.nat
def execRol (d : Dst) (a b : Src) (t : IntTy) (s : State) : Out :=
  s.alu2 1 d a b (typedBits t fun x y => rotl (tyBits t) x (y % tyBits t))
def execMin (d : Dst) (a b : Src) (t : IntTy) (s : State) : Out :=
  s.alu2 1 d a b (typed t fun x y => if x ≤ y then x else y)
def execMax (d : Dst) (a b : Src) (t : IntTy) (s : State) : Out :=
  s.alu2 1 d a b (typed t fun x y => if x ≤ y then y else x)
/-- The condition is the destination register before the write (R68). -/
def execSel (d : Dst) (a b : Src) (s : State) : Out :=
  s.alu2 1 d a b fun x y => if s.hart.sreg d.reg != 0 then x else y

/-! ## Immediate form (R61, R62) -/

def execAddi (d : Dst) (a : Src) (i : BitVec 10) (s : State) : Out := s.alu1 1 d a fun x => x + sx64 i
def execMuli (d : Dst) (a : Src) (i : BitVec 10) (s : State) : Out := s.alu1 1 d a fun x => x * sx64 i
def execAndi (d : Dst) (a : Src) (i : BitVec 10) (s : State) : Out := s.alu1 1 d a fun x => x &&& sx64 i
def execOri (d : Dst) (a : Src) (i : BitVec 10) (s : State) : Out := s.alu1 1 d a fun x => x ||| sx64 i
def execXori (d : Dst) (a : Src) (i : BitVec 10) (s : State) : Out := s.alu1 1 d a fun x => x ^^^ sx64 i
def execShli (d : Dst) (a : Src) (c : BitVec 6) (s : State) : Out := s.alu1 1 d a fun x => x <<< c.toNat
def execShri (d : Dst) (a : Src) (h : Bool) (c : BitVec 6) (s : State) : Out :=
  s.alu1 1 d a fun x => if h then x.sshiftRight c.toNat else x >>> c.toNat
def execLi (d : Dst) (i : BitVec 10) (s : State) : Out := s.finish (.ok (s.retireS 1 d (sx64 i)))
def execCmpi (d : Dst) (a : Src) (i : BitVec 10) (s : State) : Out :=
  s.alu1 1 d a fun x => cmp3 x.toInt (sx64 i).toInt

/-! ## Literals and bit fields (R63, R64) -/

def execLiw (d : Dst) (l : Word32) (s : State) : Out := s.finish (.ok (s.retireS 2 d (sx64 l)))
def execLiwZ (d : Dst) (l : Word32) (s : State) : Out := s.finish (.ok (s.retireS 2 d (zx64 l)))
def execLiwH (d : Dst) (a : Src) (l : Word32) (s : State) : Out :=
  s.alu1 2 d a fun x => (l ++ x.setWidth 32 : BitVec 64)

/-- The field of a value that a bit-field literal names (R64). -/
def BitField.extract (l : BfLit) (x : Word64) : Word64 :=
  let f := x.toNat / 2 ^ l.lo.toNat % 2 ^ l.width.toNat
  BitVec.ofInt 64 (valOf f l.width.toNat (!l.sx))
/-- A value with the field replaced (R64). -/
def BitField.insert (l : BfLit) (x y : Word64) : Word64 :=
  let old := x.toNat / 2 ^ l.lo.toNat % 2 ^ l.width.toNat
  BitVec.ofNat 64 (x.toNat - old * 2 ^ l.lo.toNat + y.toNat % 2 ^ l.width.toNat * 2 ^ l.lo.toNat)

def execBfx (d : Dst) (a : Src) (l : BfLit) (s : State) : Out := s.alu1 2 d a (BitField.extract l)
def execBfi (d : Dst) (a b : Src) (l : BfLit) (s : State) : Out := s.alu2 2 d a b (BitField.insert l)

/-! ## Counts and compares (R65 to R67) -/

/-- The width that a two-bit code names. -/
def codeBits (w : BitVec 2) : Nat := 8 * 2 ^ w.toNat

def execClz (d : Dst) (a : Src) (w : BitVec 2) (s : State) : Out :=
  s.alu1 1 d a fun x => BitVec.ofNat 64 (clzOf (codeBits w) (x.toNat % 2 ^ codeBits w))
def execCtz (d : Dst) (a : Src) (w : BitVec 2) (s : State) : Out :=
  s.alu1 1 d a fun x => BitVec.ofNat 64 (ctzOf (codeBits w) (x.toNat % 2 ^ codeBits w))
def execPopc (d : Dst) (a : Src) (w : BitVec 2) (s : State) : Out :=
  s.alu1 1 d a fun x => BitVec.ofNat 64 (popcount x.toNat (codeBits w))
def execCmp (d : Dst) (a b : Src) (t : IntTy) (s : State) : Out :=
  s.alu2 1 d a b fun x y => cmp3 (valOf x.toNat (tyBits t) t.nat) (valOf y.toNat (tyBits t) t.nat)

end Sys2Proof.Machine
end

