-- ==== Sys2Proof/Machine/Vector.lean ====
section
/-! DEFINITION. Class 1, integer elements, moves, compares, reductions, scans, permutations, sorting, mask logic and the execution mask (spec/05, R113 to R135). -/

namespace Sys2Proof.Machine

/-! ## Shared shapes -/

/-- A vector result written by R110 from the values of the active elements. -/
def State.writeV (s : State) (c : VC) (d : Dst) (sel : Nat → Bool) (w L : Nat) (vals : List (Option Nat)) : State × Latch :=
  s.putV c d w L (writeRule c s.lanesOn sel w (2 ^ w - 1) 0 vals)
/-- A mask result written by R110 at width SEW. -/
def State.writeM (s : State) (c : VC) (d : Dst) (sel : Nat → Bool) (vals : List (Option Nat)) : State × Latch :=
  s.putM c d (writeRule c s.lanesOn sel c.sew 1 0 vals)

/-- The state and the latch of a result, retired. -/
def retireP (r : State × Latch) : State := r.1.retire 1 r.2

/-- An inline constant as an integer element of w bits (R41). -/
def cstI (w : Nat) (x : Int) : Nat := patOf x w
/-- An inline constant as an element of a floating-point format (R41). -/
def cstF (f : FF) (x : Int) : Nat := f.enc (.ofInt x)

/-- The source that stands for an operand that an instruction does not have. -/
def Src.absent : Src := .const 0x10

/-- An element-wise operation of width SEW: from the element's number, its two sources and the old destination, with draws by the element's lowest lane (R114, R116). -/
def State.elementwise (s : State) (d : Dst) (a b : Src) (k : MSel) (readD all ok : Bool) (cst : Int → Nat)
    (f : Nat → Nat → Nat → Nat → Nat → Gens → Nat × Gens) : Out :=
  s.finish do
    let c := s.vc
    let L := c.lmul
    needOp (ok && s.sewOk c && c.dstOk d L && (!readD || c.regOk d.reg.toNat L) && c.srcOk a L && c.srcOk b L && c.selOk k)
    let x ← s.vsrc c a c.sew cst
    let y ← s.vsrc c b c.sew cst
    s.heldSrc a L
    s.heldSrc b L
    if readD then s.heldRegs d.reg.toNat L else s.heldDst d L
    let z := s.hart.elem c.vlen d.reg.toNat c.sew
    let sel := if all then fun _ => true else s.sel k
    let (vals, g) := runElems (c.active s.lanesOn sel c.sew)
      (fun i g => f i (x i) (y i) (z i) (laneOf c.vlen i c.sew) g) (List.range c.max) s.hart.gens
    return retireP ((s.setGens g).writeV c d sel c.sew L vals)

/-- An integer operation on two sources (R114). -/
def State.vint (s : State) (d : Dst) (a b : Src) (u : Bool) (k : MSel) (f : Nat → Int → Int → Int) : Out :=
  let w := s.vc.sew
  s.elementwise d a b k false false true (cstI w)
    fun _ x y _ _ g => (patOf (f w (valOf x w u) (valOf y w u)) w, g)
/-- A bitwise operation on two sources (R114). -/
def State.vbits (s : State) (d : Dst) (a b : Src) (k : MSel) (f : Nat → Nat → Nat → Nat) : Out :=
  let w := s.vc.sew
  s.elementwise d a b k false false true (cstI w) fun _ x y _ _ g => (f w x y % 2 ^ w, g)

/-! ## Integer elements (R114) -/

def execVadd (d : Dst) (a b : Src) (u : Bool) (k : MSel) (s : State) : Out := s.vint d a b u k fun _ x y => x + y
def execVsub (d : Dst) (a b : Src) (u : Bool) (k : MSel) (s : State) : Out := s.vint d a b u k fun _ x y => x - y
def execVmul (d : Dst) (a b : Src) (u : Bool) (k : MSel) (s : State) : Out := s.vint d a b u k fun _ x y => x * y
def execVmulh (d : Dst) (a b : Src) (u : Bool) (k : MSel) (s : State) : Out := s.vint d a b u k fun w x y => (x * y) / 2 ^ w
def execVdiv (d : Dst) (a b : Src) (u : Bool) (k : MSel) (s : State) : Out := s.vint d a b u k fun _ x y => divT x y
def execVrem (d : Dst) (a b : Src) (u : Bool) (k : MSel) (s : State) : Out := s.vint d a b u k fun _ x y => remT x y
def execVand (d : Dst) (a b : Src) (_u : Bool) (k : MSel) (s : State) : Out := s.vbits d a b k fun _ x y => x &&& y
def execVor (d : Dst) (a b : Src) (_u : Bool) (k : MSel) (s : State) : Out := s.vbits d a b k fun _ x y => x ||| y
def execVxor (d : Dst) (a b : Src) (_u : Bool) (k : MSel) (s : State) : Out := s.vbits d a b k fun _ x y => x ^^^ y
def execVshl (d : Dst) (a b : Src) (_u : Bool) (k : MSel) (s : State) : Out :=
  s.vbits d a b k fun w x y => x * 2 ^ (y % w)
def execVshr (d : Dst) (a b : Src) (u : Bool) (k : MSel) (s : State) : Out :=
  s.vint d a b u k fun w x y => x / 2 ^ (y % w).toNat
def execVmin (d : Dst) (a b : Src) (u : Bool) (k : MSel) (s : State) : Out := s.vint d a b u k fun _ x y => if x ≤ y then x else y
def execVmax (d : Dst) (a b : Src) (u : Bool) (k : MSel) (s : State) : Out := s.vint d a b u k fun _ x y => if x ≤ y then y else x
def execVabs (d : Dst) (a : Src) (k : MSel) (s : State) : Out := s.vint d a Src.absent false k fun _ x _ => x.natAbs
def execVneg (d : Dst) (a : Src) (k : MSel) (s : State) : Out := s.vint d a Src.absent false k fun _ x _ => -x

/-! ## Moves and fills (R115) -/

def execVmerge (d : Dst) (a b : Src) (k : MSel) (s : State) : Out :=
  let sel := s.sel k
  s.elementwise d a b k false true (k != .none) (cstI s.vc.sew) fun i x y _ _ g => (if sel i then x else y, g)
def execVmv (d : Dst) (a : Src) (k : MSel) (s : State) : Out :=
  s.elementwise d a Src.absent k false false true (cstI s.vc.sew) fun _ x _ _ _ g => (x, g)
def execVid (d : Dst) (k : MSel) (s : State) : Out :=
  s.elementwise d Src.absent Src.absent k false false true (cstI s.vc.sew) fun i _ _ _ _ g => (i % 2 ^ s.vc.sew, g)

/-- VBCAST, with its checks before the scalar source is read. -/
def execVbcast (d : Dst) (a : Src) (k : MSel) (s : State) : Out :=
  s.finish do
    let c := s.vc
    needOp (s.sewOk c && c.dstOk d c.lmul && c.selOk k)
    let x ← s.opnd a
    s.heldDst d c.lmul
    let vals := (List.range c.max).map fun _ => some (x.toNat % 2 ^ c.sew)
    return retireP (s.writeV c d (s.sel k) c.sew c.lmul vals)

/-! ## Compares (R120) -/

/-- A compare of two sources into a mask group. -/
def State.vcompare (s : State) (d : Dst) (a b : Src) (k : MSel) (ok : Bool) (cst : Int → Nat) (f : Nat → Nat → Bool) : Out :=
  s.finish do
    let c := s.vc
    let L := c.lmul
    needOp (ok && s.sewOk c && c.mdstOk d && c.srcOk a L && c.srcOk b L && c.selOk k)
    let x ← s.vsrc c a c.sew cst
    let y ← s.vsrc c b c.sew cst
    s.heldSrc a L
    s.heldSrc b L
    let vals := (List.range c.max).map fun i => some (if f (x i) (y i) then 1 else 0)
    return retireP (s.writeM c d (s.sel k) vals)

/-- An integer compare. -/
def State.vicmp (s : State) (d : Dst) (a b : Src) (u : Bool) (k : MSel) (op : ICmp) : Out :=
  let w := s.vc.sew
  s.vcompare d a b k true (cstI w) fun x y => op.holds (valOf x w u) (valOf y w u)
/-- A floating-point compare. -/
def State.vfcmp (s : State) (d : Dst) (a b : Src) (u : Bool) (k : MSel) (op : FCmp) : Out :=
  let f := fpFormat u s.vc.sew
  let f' := f.getD .f32
  s.vcompare d a b k f.isSome (cstF f') fun x y => op.holds (f'.dec x) (f'.dec y)

def execVcmpeq (d : Dst) (a b : Src) (u : Bool) (k : MSel) (s : State) : Out := s.vicmp d a b u k .eq
def execVcmpne (d : Dst) (a b : Src) (u : Bool) (k : MSel) (s : State) : Out := s.vicmp d a b u k .ne
def execVcmplt (d : Dst) (a b : Src) (u : Bool) (k : MSel) (s : State) : Out := s.vicmp d a b u k .lt
def execVcmple (d : Dst) (a b : Src) (u : Bool) (k : MSel) (s : State) : Out := s.vicmp d a b u k .le
def execVfcmpeq (d : Dst) (a b : Src) (u : Bool) (k : MSel) (s : State) : Out := s.vfcmp d a b u k .eq
def execVfcmplt (d : Dst) (a b : Src) (u : Bool) (k : MSel) (s : State) : Out := s.vfcmp d a b u k .lt
def execVfcmple (d : Dst) (a b : Src) (u : Bool) (k : MSel) (s : State) : Out := s.vfcmp d a b u k .le
def execVfcmpun (d : Dst) (a b : Src) (u : Bool) (k : MSel) (s : State) : Out := s.vfcmp d a b u k .un

/-! ## Reductions (R127) -/

/-- What a reduction leaves in vd: element 0 where `vl` > 0, the rest as tail elements. -/
def reduceCells (c : VC) (em : Word64) (x : Nat) : List (Option Nat) :=
  let E := c.vlen / c.sew
  if c.vl = 0 then List.replicate E none
  else writeRule { c with vl := 1 } em (fun _ => true) c.sew (2 ^ c.sew - 1) 0 (some x :: List.replicate (E - 1) none)

/-- A reduction: from element 0 of b and the source's elements with whether each takes part. -/
def State.reduce (s : State) (d : Dst) (a b : Src) (k : MSel) (ok : Bool) (cst : Int → Nat)
    (f : VC → Nat → List (Nat × Bool) → Gens → Nat × Gens) : Out :=
  s.finish do
    let c := s.vc
    needOp (ok && s.sewOk c && c.dstOk d 1 && c.srcOk a c.lmul && c.srcOk b 1 && c.selOk k)
    let x ← s.vsrc c a c.sew cst
    let y ← s.vsrc c b c.sew cst
    s.heldSrc a c.lmul
    s.heldSrc b 1
    s.heldDst d 1
    let act := c.active s.lanesOn (s.sel k) c.sew
    let g := s.hart.gens
    let (r, g) := if c.vl = 0 then (0, g) else f c (y 0) ((List.range c.max).map fun i => (x i, act i)) g
    return retireP ((s.setGens g).putV c d c.sew 1 (reduceCells c s.lanesOn r))

/-- An integer reduction by a binary operation. -/
def State.vred (s : State) (d : Dst) (a b : Src) (u : Bool) (k : MSel) (f : Int → Int → Int) : Out :=
  let w := s.vc.sew
  s.reduce d a b k true (cstI w) fun _ y xs g =>
    (patOf ((xs.filter (·.2)).foldl (fun r x => f r (valOf x.1 w u)) (valOf y w u)) w, g)

def execVredsum (d : Dst) (a b : Src) (u : Bool) (k : MSel) (s : State) : Out := s.vred d a b u k fun x y => x + y
def execVredmax (d : Dst) (a b : Src) (u : Bool) (k : MSel) (s : State) : Out := s.vred d a b u k fun x y => if x ≤ y then y else x
def execVredmin (d : Dst) (a b : Src) (u : Bool) (k : MSel) (s : State) : Out := s.vred d a b u k fun x y => if x ≤ y then x else y

/-! ## Scans (R129) -/

/-- The running values of a scan from element i on: reset at heads, advanced at active elements. -/
def scanFrom (head act : Nat → Bool) (step : Nat → Nat → Nat → Gens → Nat × Gens) (x : Nat → Nat) :
    List Nat → (acc : Nat) → Gens → List (Option Nat) × Gens
  | [], _, g => ([], g)
  | i :: is, acc, g =>
    let acc := if head i then 0 else acc
    let (acc, g) := if act i then step i acc (x i) g else (acc, g)
    let (vs, g) := scanFrom head act step x is acc g
    (some acc :: vs, g)

/-- A scan; 0 is the pattern of the sum's start in every format. -/
def State.scan (s : State) (d : Dst) (a b : Src) (k : MSel) (ok : Bool) (cst : Int → Nat)
    (step : Nat → Nat → Nat → Gens → Nat × Gens) : Out :=
  s.finish do
    let c := s.vc
    let L := c.lmul
    needOp (ok && s.sewOk c && c.dstOk d L && c.srcOk a L && c.msrcOk b && c.selOk k)
    let x ← s.vsrc c a c.sew cst
    let h ← s.msrc b
    s.heldSrc a L
    s.heldDst d L
    let sel := s.sel k
    let (vals, g) := scanFrom h (c.active s.lanesOn sel c.sew) step x (List.range c.max) 0 s.hart.gens
    return retireP ((s.setGens g).writeV c d sel c.sew L vals)

def execVscan (d : Dst) (a b : Src) (k : MSel) (s : State) : Out :=
  let w := s.vc.sew
  s.scan d a b k true (cstI w) fun _ acc x g => ((acc + x) % 2 ^ w, g)

/-! ## Permutations (R130 to R132) -/

/-- A permutation of one source group by a scalar: the value of each element, none where it is not written, whatever the policies (R130). -/
def State.slide (s : State) (d : Dst) (a b : Src) (k : MSel) (f : Nat → (Nat → Nat) → Nat → Nat → Option Nat) : Out :=
  s.finish do
    let c := s.vc
    let L := c.lmul
    needOp (s.sewOk c && c.dstOk d L && c.srcOk a L && c.selOk k && !dstMeets d L a L)
    let x ← s.vsrc c a c.sew (cstI c.sew)
    let n ← s.opnd b
    s.heldSrc a L
    s.heldDst d L
    let vals := (List.range c.max).map fun i => f c.max x n.toNat i
    let cells := writeRule c s.lanesOn (s.sel k) c.sew (2 ^ c.sew - 1) 0 vals
    let cells := (cells.zip vals).map fun p => if p.2.isNone then none else p.1
    return retireP (s.putV c d c.sew L cells)

def execVslideup (d : Dst) (a b : Src) (k : MSel) (s : State) : Out :=
  s.slide d a b k fun _ x n i => if n ≤ i then some (x (i - n)) else none
def execVslidedn (d : Dst) (a b : Src) (k : MSel) (s : State) : Out :=
  s.slide d a b k fun m x n i => some (if i + n < m then x (i + n) else 0)

def execVrgather (d : Dst) (a b : Src) (k : MSel) (s : State) : Out :=
  s.finish do
    let c := s.vc
    let L := c.lmul
    needOp (s.sewOk c && c.dstOk d L && c.srcOk a L && c.srcOk b L && c.selOk k && !dstMeets d L a L && !dstMeets d L b L)
    let x ← s.vsrc c a c.sew (cstI c.sew)
    let y ← s.vsrc c b c.sew (cstI c.sew)
    s.heldSrc a L
    s.heldSrc b L
    s.heldDst d L
    let vals := (List.range c.max).map fun i => some (if y i < c.max then x (y i) else 0)
    return retireP (s.writeV c d (s.sel k) c.sew L vals)

/-- Places values in increasing order at the positions that hold; what is left of the positions gets a filler. -/
def placeAt (pos : Nat → Bool) (fill : Option Nat) (off : Nat → Option Nat) : List Nat → List Nat → List (Option Nat)
  | [], _ => []
  | i :: is, xs =>
    if pos i then
      match xs with
      | x :: xs => some x :: placeAt pos fill off is xs
      | [] => fill :: placeAt pos fill off is []
    else off i :: placeAt pos fill off is xs

/-- What R110 gives a position that is not active: nothing for a lane that is off, the tail policy above `vl`. -/
def VC.tailCell (c : VC) (em : Word64) (w i : Nat) : Option Nat :=
  if laneOn c.vlen em i w && decide (c.vl ≤ i) && c.ta then some (2 ^ w - 1) else none

def execVcompress (d : Dst) (a : Src) (k : MSel) (s : State) : Out :=
  s.finish do
    let c := s.vc
    let L := c.lmul
    needOp (k != .none && s.sewOk c && c.dstOk d L && c.srcOk a L && c.selOk k && !dstMeets d L a L)
    let x ← s.vsrc c a c.sew (cstI c.sew)
    s.heldSrc a L
    s.heldDst d L
    let is := List.range c.max
    let pos := c.active s.lanesOn (fun _ => true) c.sew
    let xs := (is.filter (c.active s.lanesOn (s.sel k) c.sew)).map x
    let fill := if c.ta then some (2 ^ c.sew - 1) else none
    return retireP (s.putV c d c.sew L (placeAt pos fill (c.tailCell s.lanesOn c.sew) is xs))

/-- The number of earlier active positions whose bit is 1, for each position (R132); it wraps at SEW bits. -/
def iotaFrom (bit act : Nat → Bool) : List Nat → (n : Nat) → List Nat
  | [], _ => []
  | i :: is, n => n :: iotaFrom bit act is (if bit i && act i then n + 1 else n)

def execViota (d : Dst) (a : Src) (k : MSel) (s : State) : Out :=
  s.finish do
    let c := s.vc
    let L := c.lmul
    needOp (s.sewOk c && c.dstOk d L && c.msrcOk a && c.selOk k)
    let b ← s.msrc a
    s.heldDst d L
    let sel := s.sel k
    let ns := iotaFrom b (c.active s.lanesOn sel c.sew) (List.range c.max) 0
    return retireP (s.writeV c d sel c.sew L (ns.map fun n => some (n % 2 ^ c.sew)))

/-! ## Sorting (R133) -/

/-- Inserts a pair behind every pair that is not to come after it. -/
def insertPair (before : Nat → Nat → Bool) (p : Nat × Nat) : List (Nat × Nat) → List (Nat × Nat)
  | [] => [p]
  | q :: qs => if before p.1 q.1 then p :: q :: qs else q :: insertPair before p qs
/-- A stable sort of keys with payloads. -/
def sortPairs (before : Nat → Nat → Bool) (ps : List (Nat × Nat)) : List (Nat × Nat) :=
  ps.foldl (fun acc p => insertPair before p acc) []

def execVsortk (d : BitVec 6) (a b : Src) (u e : Bool) (s : State) : Out :=
  s.finish do
    let c := s.vc
    let dd : Dst := ⟨d, false⟩
    needOp (!s.onBank && c.sew == 32 && c.lmul == 1 && d.toNat % 2 == 0 && !dstMeets dd 2 a 1 && !dstMeets dd 2 b 1)
    let x ← s.vsrc c a 32 (cstI 32)
    let y ← s.vsrc c b 32 (cstI 32)
    s.heldSrc a 1
    s.heldSrc b 1
    s.heldRegs d.toNat 2
    let is := List.range c.max
    let pos := c.active s.lanesOn (fun _ => true) 32
    let before := fun p q => if e then decide (valOf q 32 u < valOf p 32 u) else decide (valOf p 32 u < valOf q 32 u)
    let ps := sortPairs before ((is.filter pos).map fun i => (x i, y i))
    let cells := fun (vs : List Nat) => placeAt pos none (c.tailCell s.lanesOn 32) is vs
    let s := (s.putV c dd 32 1 (cells (ps.map (·.1)))).1
    let s := (s.putV c ⟨d + 1, false⟩ 32 1 (cells (ps.map (·.2)))).1
    return s.retire 1 Latch.none

/-! ## Setting the length (R113) -/

/-- Takes a type and a requested length. -/
def State.setLength (s : State) (d : Dst) (t : BitVec 6) (n : Word64) : State :=
  let ty := t.setWidth 64
  let vl := BitVec.ofNat 64 (Nat.min n.toNat (vlmaxOf s.onBank ty))
  (s.setHart { s.hart with vtype := ty, vl := vl }).retireS 1 d vl

def execSetvl (d : Dst) (a b : Src) (s : State) : Out :=
  s.finish do
    needOp (s.vc.nwOk d)
    let n ← s.opnd a
    let t ← s.opnd b
    needOp (t.extractLsb' 6 58 == 0)
    return s.setLength d (t.setWidth 6) n
def execSetvli (d : Dst) (a : Src) (c : BitVec 6) (s : State) : Out :=
  s.finish do
    needOp (s.vc.nwOk d)
    let n ← s.opnd a
    return s.setLength d c n

/-! ## Mask logic (R134) -/

/-- A mask operation on the bits below `vl`. -/
def State.maskOp (s : State) (d : Dst) (a b : Src) (two : Bool) (f : Bool → Bool → Bool) : Out :=
  s.finish do
    let c := s.vc
    needOp (s.sewOk c && c.mdstOk d && c.msrcOk a && (!two || c.msrcOk b))
    let x ← s.msrc a
    let y ← if two then s.msrc b else .ok x
    let vals := (List.range c.max).map fun i => some (if f (x i) (y i) then 1 else 0)
    return retireP (s.writeM c d (fun _ => true) vals)

def execMand (d : Dst) (a b : Src) (s : State) : Out := s.maskOp d a b true fun x y => x && y
def execMor (d : Dst) (a b : Src) (s : State) : Out := s.maskOp d a b true fun x y => x || y
def execMxor (d : Dst) (a b : Src) (s : State) : Out := s.maskOp d a b true fun x y => x != y
def execMandn (d : Dst) (a b : Src) (s : State) : Out := s.maskOp d a b true fun x y => x && !y
def execMnot (d : Dst) (a : Src) (s : State) : Out := s.maskOp d a Src.absent false fun x _ => !x

/-- The active positions whose bit in a mask source is 1, for a scalar result. -/
def State.maskHits (s : State) (d : Dst) (a : Src) (k : MSel) : Res (List Nat) := do
  let c := s.vc
  needOp (s.sewOk c && c.nwOk d && c.msrcOk a && c.selOk k)
  let x ← s.msrc a
  let act := c.active s.lanesOn (s.sel k) c.sew
  return (List.range c.max).filter fun i => act i && x i

def execMpop (d : Dst) (a : Src) (k : MSel) (s : State) : Out :=
  s.finish do
    let hits ← s.maskHits d a k
    return s.retireS 1 d (BitVec.ofNat 64 hits.length)
def execMfirst (d : Dst) (a : Src) (k : MSel) (s : State) : Out :=
  s.finish do
    let hits ← s.maskHits d a k
    return s.retireS 1 d (match hits with | [] => BitVec.allOnes 64 | i :: _ => BitVec.ofNat 64 i)

/-! ## The execution mask (R135, R91) -/

def execEmget (d : Dst) (g : Bool) (s : State) : Out :=
  s.finish do
    needOp (s.vc.nwOk d)
    let e := s.path.emask
    let m : MWord := e.setWidth 256
    return if g then (if d.nw then s else s.setHart { s.hart with m := vset s.hart.m d.reg.toNat m }).retire 1 (.mask m)
      else s.retireS 1 d e

/-- Bits of lanes outside the path are not written and read as zero. -/
def State.setEmask (s : State) (x : Word64) : State := s.setPath { s.path with emask := x &&& s.path.lanes }

def execEmset (a : Src) (g : Bool) (s : State) : Out :=
  s.finish do
    let x ← if g then (s.opndM a).map (·.setWidth 64) else s.opnd a
    return (s.setEmask x).retire 1 Latch.none

end Sys2Proof.Machine
end

