-- ==== Sys2Proof/Machine/VectorFloat.lean ====
section
/-! DEFINITION. Class 1, floating-point elements, conversion and quantised tiles (spec/05, R116 to R129; spec/06, R158). -/

namespace Sys2Proof.Machine

/-- The modes that the executing path's `fmt` selects. -/
def State.modes (s : State) : Modes := modesOf s.path.fmt

/-- A floating-point operation with draws (R116): from the values of a, b and the old vd. -/
def State.vfp (s : State) (d : Dst) (a b : Src) (u : Bool) (k : MSel) (readD : Bool)
    (v : Nat → FVal → FVal → FVal → FVal) : Out :=
  let f := fpFormat u s.vc.sew
  let f' := f.getD .f32
  let m := s.modes
  s.elementwise d a b k readD false f.isSome (cstF f')
    fun _ x y z lane g => m.F f' lane (v m.rm (f'.dec x) (f'.dec y) (f'.dec z)) g
/-- A floating-point operation on patterns, with no rounding. -/
def State.vfpat (s : State) (d : Dst) (a b : Src) (u : Bool) (k : MSel) (v : FF → Nat → Nat → Nat) : Out :=
  let f := fpFormat u s.vc.sew
  let f' := f.getD .f32
  s.elementwise d a b k false false f.isSome (cstF f') fun _ x y _ _ g => (v f' x y, g)

/-! ## Binary and fused operations (R117) -/

def execVfadd (d : Dst) (a b : Src) (u : Bool) (k : MSel) (s : State) : Out := s.vfp d a b u k false fun rm x y _ => x.add rm y
def execVfsub (d : Dst) (a b : Src) (u : Bool) (k : MSel) (s : State) : Out := s.vfp d a b u k false fun rm x y _ => x.add rm y.neg
def execVfmul (d : Dst) (a b : Src) (u : Bool) (k : MSel) (s : State) : Out := s.vfp d a b u k false fun _ x y _ => x.mul y
def execVfdiv (d : Dst) (a b : Src) (u : Bool) (k : MSel) (s : State) : Out := s.vfp d a b u k false fun _ x y _ => x.div y
def execVfma (d : Dst) (a b : Src) (u : Bool) (k : MSel) (s : State) : Out :=
  s.vfp d a b u k true fun rm x y z => (x.mul y).add rm z
def execVfms (d : Dst) (a b : Src) (u : Bool) (k : MSel) (s : State) : Out :=
  s.vfp d a b u k true fun rm x y z => (x.mul y).add rm z.neg
def execVfnma (d : Dst) (a b : Src) (u : Bool) (k : MSel) (s : State) : Out :=
  s.vfp d a b u k true fun rm x y z => z.add rm (x.mul y).neg
def execVfmin (d : Dst) (a b : Src) (u : Bool) (k : MSel) (s : State) : Out :=
  s.vfpat d a b u k fun f x y => f.enc ((f.dec x).min (f.dec y))
def execVfmax (d : Dst) (a b : Src) (u : Bool) (k : MSel) (s : State) : Out :=
  s.vfpat d a b u k fun f x y => f.enc ((f.dec x).max (f.dec y))

/-! ## Unary operations (R118, R119) -/

def execVfabs (d : Dst) (a : Src) (u : Bool) (k : MSel) (s : State) : Out :=
  s.vfpat d a Src.absent u k fun f x _ => x % 2 ^ (f.bits - 1)
def execVfneg (d : Dst) (a : Src) (u : Bool) (k : MSel) (s : State) : Out :=
  s.vfpat d a Src.absent u k fun f x _ => x ^^^ 2 ^ (f.bits - 1)
def execVfsqrt (d : Dst) (a : Src) (u : Bool) (k : MSel) (s : State) : Out :=
  s.vfp d a Src.absent u k false fun _ x _ _ => x.sqrt
/-- An approximation: no rounding mode and no draw. -/
def State.vapprox (s : State) (d : Dst) (a : Src) (u : Bool) (k : MSel) (op : Approx) : Out :=
  let sm := s.modes.sm
  s.vfpat d a Src.absent u k fun f x _ => op.result sm f (f.dec x)
def execVfrsq (d : Dst) (a : Src) (u : Bool) (k : MSel) (s : State) : Out := s.vapprox d a u k .rsq
def execVfrcp (d : Dst) (a : Src) (u : Bool) (k : MSel) (s : State) : Out := s.vapprox d a u k .rcp
def execVfexp (d : Dst) (a : Src) (u : Bool) (k : MSel) (s : State) : Out := s.vapprox d a u k .exp
def execVflog (d : Dst) (a : Src) (u : Bool) (k : MSel) (s : State) : Out := s.vapprox d a u k .log
def execVftanh (d : Dst) (a : Src) (u : Bool) (k : MSel) (s : State) : Out := s.vapprox d a u k .tanh
def execVfsin (d : Dst) (a : Src) (u : Bool) (k : MSel) (s : State) : Out := s.vapprox d a u k .sin
def execVfcos (d : Dst) (a : Src) (u : Bool) (k : MSel) (s : State) : Out := s.vapprox d a u k .cos
def execVfclass (d : Dst) (a : Src) (u : Bool) (k : MSel) (s : State) : Out :=
  s.vfpat d a Src.absent u k fun f x _ => 2 ^ f.cls x

/-! ## Conversion (R121, R122) -/

/-- A format that VCVT names. -/
inductive CvtFmt where
  | int (w : Nat) (nat : Bool)
  | fp (f : FF)
deriving DecidableEq, Repr

/-- The width that an element of a format occupies in a register (R121). -/
def CvtFmt.width : CvtFmt → Nat
  | .int w _ => w
  | .fp .f32 => 32
  | .fp .f16 => 16
  | .fp .bf16 => 16
  | .fp _ => 8

/-- The destination formats (R121). -/
def cvtDst (c : BitVec 4) : CvtFmt :=
  match c.toNat with
  | 0 => .int 8 false | 1 => .int 8 true | 2 => .int 16 false | 3 => .int 16 true
  | 4 => .int 32 false | 5 => .int 32 true | 6 => .int 64 false | 7 => .int 64 true
  | 8 => .fp .f16 | 9 => .fp .bf16 | 10 => .fp .f32 | 11 => .fp .e4m3
  | 12 => .fp .e5m2 | 13 => .fp .e3m2 | 14 => .fp .e2m3 | _ => .fp .e2m1

/-- The source formats at an element width (R121). -/
def cvtSrc (sew : Nat) (e : BitVec 3) : Option CvtFmt :=
  match sew, e.toNat with
  | 8, 0 => some (.int 8 false) | 8, 1 => some (.int 8 true) | 8, 2 => some (.fp .e4m3) | 8, 3 => some (.fp .e5m2)
  | 8, 4 => some (.fp .e3m2) | 8, 5 => some (.fp .e2m3) | 8, 6 => some (.fp .e2m1)
  | 16, 0 => some (.int 16 false) | 16, 1 => some (.int 16 true) | 16, 2 => some (.fp .f16) | 16, 3 => some (.fp .bf16)
  | 32, 0 => some (.int 32 false) | 32, 1 => some (.int 32 true) | 32, 2 => some (.fp .f32)
  | 64, 0 => some (.int 64 false) | 64, 1 => some (.int 64 true)
  | _, _ => none

/-- The value of a source element; the bits above a narrow format are ignored (R121). -/
def CvtFmt.dec : CvtFmt → Nat → FVal
  | .int w nat, p => .ofInt (valOf p w nat)
  | .fp f, p => f.dec (p % 2 ^ f.bits)

/-- An inline constant as an element of a format, and the generators after it: a narrow format converts it by `Round` and `Sat` (R41). Under SR that one rounding draws one word (R151), before any element draws; that it is lane 0 that draws is a DESIGN CHOICE (log 65). -/
def CvtFmt.const (m : Modes) (g : Gens) : CvtFmt → Int → Nat × Gens
  | .int w _, x => (patOf x w, g)
  | .fp f, x => if f.bits ≤ 8 then m.F f 0 (.ofInt x) g else (f.enc (.ofInt x), g)

/-- The generators once an inline constant that stands for the source has been converted. -/
def CvtFmt.constGens (m : Modes) (g : Gens) (src : CvtFmt) : Src → Gens
  | .const c => (src.const m g (constInt c)).2
  | _ => g

/-- One converted element (R122). -/
def convert (m : Modes) (src dst : CvtFmt) (lane p : Nat) (g : Gens) : Nat × Gens :=
  match src, dst with
  | .int w nat, .int w' nat' => (patOf (clampInt (intMin w' nat') (intMax w' nat') (valOf p w nat)) w', g)
  | .fp f, .int w' nat' =>
    let (x, g) := m.toInt w' nat' lane ((CvtFmt.fp f).dec p) g
    (patOf x w', g)
  | _, .fp f => m.F f lane (src.dec p) g

/-- The destination's register multiplier (R122). -/
def emul (lmul dw sew : Nat) : Nat := Nat.max 1 (lmul * dw / sew)

def execVcvt (d : Dst) (a : Src) (cd : BitVec 4) (ce : BitVec 3) (k : MSel) (s : State) : Out :=
  s.finish do
    let c := s.vc
    let dst := cvtDst cd
    let dw := dst.width
    let L := emul c.lmul dw c.sew
    let srcF := cvtSrc c.sew ce
    let src := srcF.getD (.int 8 false)
    needOp (srcF.isSome && s.sewOk c && (!s.onBank || dw == 16 || dw == 32) && decide (L ≤ 8)
      && (if d.nw then c.lmul == 1 && L == 1 else c.regOk d.reg.toNat L) && c.srcOk a c.lmul && c.selOk k
      && (dw == c.sew || !dstMeets d L a c.lmul))
    let m := s.modes
    let x ← s.vsrc c a c.sew fun n => (src.const m s.hart.gens n).1
    s.heldSrc a c.lmul
    s.heldDst d L
    let sel := s.sel k
    let (vals, g) := runElems (c.active s.lanesOn sel dw) (fun i g => convert m src dst (laneOf c.vlen i c.sew) (x i) g)
      (List.range c.max) (src.constGens m s.hart.gens a)
    return retireP ((s.setGens g).writeV c d sel dw L vals)

/-! ## Quantised tiles (R123 to R126, R158) -/

/-- A target of VQUANT: capacity, element format, and whether it has block scales. -/
structure Target where
  cap : Nat
  fmt : CvtFmt
  mx : Bool
  half : Bool
deriving DecidableEq, Repr

/-- The targets of R123. -/
def targets (q : Nat) : Option Target :=
  match q with
  | 0 => some ⟨224, .fp .e4m3, false, false⟩
  | 1 => some ⟨224, .fp .e5m2, false, false⟩
  | 2 => some ⟨224, .int 8 false, false, false⟩
  | 3 => some ⟨448, .fp .e2m1, false, true⟩
  | 4 => some ⟨448, .int 4 false, false, true⟩
  | 5 => some ⟨192, .fp .e4m3, true, false⟩
  | 6 => some ⟨384, .fp .e2m1, true, true⟩
  | 7 => some ⟨192, .int 8 false, true, false⟩
  | _ => none

/-- The largest magnitude of the finite elements of a list. -/
def amaxOf (xs : List FVal) : FVal :=
  xs.foldl (fun m x => if x.isFin && m.lt x.abs then x.abs else m) (.fin false 0 0 false)

/-- The exponent of a block's scale (R124). -/
def scaleExp (t : Target) (xs : List FVal) : Int :=
  let emax : Int := match t.fmt with | .fp .e4m3 => 8 | .fp .e2m1 => 2 | _ => 0
  match amaxOf xs with
  | .fin _ m e _ => if m = 0 then 0 else clampInt (-127) 127 ((Nat.log2 m : Int) + e - emax)
  | _ => 0

/-- One quantised element: its pattern, and whether it is counted (R124). -/
def quantise (m : Modes) (t : Target) (e : Int) (lane : Nat) (x : FVal) (g : Gens) : (Nat × Bool) × Gens :=
  let y := if t.mx then x.shift (-e) else x
  match t.fmt with
  | .fp f =>
    let hi := f.dec f.maxPat
    if y.isNan then ((match f with | .e4m3 => 0x7F | .e5m2 => 0x7E | _ => 0, true), g)
    else if hi.lt y then ((f.enc hi, true), g)
    else if y.lt hi.neg then ((f.enc hi.neg, true), g)
    else let (W, g) := m.word lane g; ((f.enc (roundF m.rm W f y), false), g)
  | .int w nat =>
    let y := if t.mx then y.shift 6 else y
    let hi := FVal.ofInt (intMax w nat)
    let lo := FVal.ofInt (intMin w nat)
    if y.isNan then ((0, true), g)
    else if hi.lt y then ((patOf (intMax w nat) w, true), g)
    else if y.lt lo then ((patOf (intMin w nat) w, true), g)
    else let (W, g) := m.word lane g; ((patOf (roundI m.rm W y).toInt w, false), g)

/-- The elements of a quantised tile from number i on, with the scale exponent of each. -/
def quantiseAll (m : Modes) (t : Target) (e : Nat → Int) (lane : Nat → Nat) : (i : Nat) → List FVal → Gens → List (Nat × Bool) × Gens
  | _, [], g => ([], g)
  | i, x :: xs, g =>
    let (q, g) := quantise m t (e i) (lane i) x g
    let (qs, g) := quantiseAll m t e lane (i + 1) xs g
    (q :: qs, g)

/-- Packs element patterns into bytes. -/
def packElems (half : Bool) : List Nat → List Byte
  | [] => []
  | [x] => [BitVec.ofNat 8 x]
  | x :: y :: xs => if half then BitVec.ofNat 8 (x + 16 * y) :: packElems half xs
                    else BitVec.ofNat 8 x :: packElems half (y :: xs)
/-- Bytes extended with zeros to a length. -/
def padTo (n : Nat) (bs : List Byte) : List Byte := bs.take n ++ List.replicate (n - bs.length) 0

/-- The 256 bytes of a quantised tile (R123, R125). -/
def tileBytes (q : Nat) (t : Target) (vl : Nat) (xs : List FVal) (qs : List (Nat × Bool)) (e : Nat → Int) : List Byte :=
  let elems := packElems t.half (qs.map (·.1))
  let payload :=
    if t.mx then padTo 224 (padTo 192 elems ++ (List.range (t.cap / 32)).map fun b => BitVec.ofInt 8 (e b + 127))
    else padTo 224 elems
  payload ++ leBytes 4 (FF.f32.enc (amaxOf xs)) ++ leBytes 4 (qs.filter (·.2)).length ++ leBytes 4 (crc32c payload).toNat
    ++ [BitVec.ofNat 8 q, 0] ++ leBytes 2 vl ++ List.replicate 16 0

def execVquant (d : Dst) (a : Src) (q : BitVec 3) (u : Bool) (s : State) : Out :=
  s.finish do
    let c := s.vc
    let f := fpFormat u c.sew
    let f' := f.getD .f32
    let t := (targets q.toNat).getD ⟨0, .fp .e4m3, false, false⟩
    needOp (!s.onBank && f.isSome && decide (c.vl ≤ t.cap) && c.dstOk d 1 && c.srcOk a c.lmul && !dstMeets d 1 a c.lmul)
    let x ← s.vsrc c a c.sew (cstF f')
    needOp (s.path.lanes == BitVec.allOnes 64 && s.path.emask == BitVec.allOnes 64)
    s.heldSrc a c.lmul
    s.heldDst d 1
    let xs := (List.range c.vl).map fun i => f'.dec (x i)
    let e := fun b => scaleExp t ((xs.drop (32 * b)).take 32)
    let (qs, g) := quantiseAll s.modes t (fun i => e (i / 32)) (fun i => laneOf c.vlen i c.sew) 0 xs s.hart.gens
    return retireP ((s.setGens g).putReg d (bytesToBits 2048 (tileBytes q.toNat t c.vl xs qs e)))

/-- The value of element i of a tile's bytes (R126). -/
def tileElem (t : Target) (bs : List Byte) (i : Nat) : FVal :=
  let p := if t.half then (bs.getD (i / 2) 0).toNat / 16 ^ (i % 2) % 16 else (bs.getD i 0).toNat
  let v := t.fmt.dec p
  if t.mx then
    let X := (bs.getD (192 + i / 32) 0).toNat
    if X = 255 then .nan
    else v.shift ((X : Int) - 127 - (match t.fmt with | .int _ _ => 6 | _ => 0))
  else v

/-- VDEQ (R126); an inline constant as the tile is that of an integer operand (R41). -/
def execVdeq (d : Dst) (a : Src) (u : Bool) (k : MSel) (s : State) : Out :=
  s.finish do
    let c := s.vc
    let L := c.lmul
    let f := fpFormat u c.sew
    let f' := f.getD .f32
    needOp (!s.onBank && f.isSome && c.dstOk d L && c.srcOk a 1 && c.selOk k && !dstMeets d L a 1)
    let v ← s.vreg1 a fun x => BitVec.ofNat 2048 (packCells c.sew 0 (List.replicate (c.vlen / c.sew) (some (cstI c.sew x))))
    s.heldSrc a 1
    s.heldDst d L
    let bs := leBytes 256 v.toNat
    let code := (bs.getD 236 0).toNat
    match targets code with
    | none => raise .dataCheck 0
    | some t =>
      needOp (decide (c.vl ≤ t.cap))
      let m := s.modes
      let sel := s.sel k
      let (vals, g) := runElems (c.active s.lanesOn sel c.sew)
        (fun i g => m.F f' (laneOf c.vlen i c.sew) (tileElem t bs i) g) (List.range c.max) s.hart.gens
      return retireP ((s.setGens g).writeV c d sel c.sew L vals)

/-- The test of a quantised tile (R158). -/
def tileConsistent (bs : List Byte) : Bool :=
  match targets (bs.getD 236 0).toNat with
  | none => false
  | some t =>
    decide (leNat ((bs.drop 238).take 2) ≤ t.cap) && bs.getD 237 0 == 0 && (bs.drop 240).all (· == 0)
      && leNat ((bs.drop 232).take 4) == (crc32c (bs.take 224)).toNat

/-! ## Floating-point reductions and scans (R127 to R129) -/

/-- One level of the pairwise tree (R128). -/
def treeLevel (add : FVal → FVal → FVal) : List FVal → List FVal
  | x :: y :: xs => add x y :: treeLevel add xs
  | xs => xs
/-- The root of the pairwise tree over 2^k leaves. -/
def treeSum (add : FVal → FVal → FVal) : (k : Nat) → List FVal → FVal
  | 0, xs => xs.headD (.fin false 0 0 false)
  | k + 1, xs => treeSum add k (treeLevel add xs)

def execVfredsum (d : Dst) (a b : Src) (u : Bool) (k : MSel) (s : State) : Out :=
  let f := fpFormat u s.vc.sew
  let f' := f.getD .f32
  let m := s.modes
  let rm := if m.rm = rSR then rNE else m.rm
  let add := fun (x y : FVal) => FF.f32.dec (fOf rm m.sm .f32 0 (x.add rm y))
  s.reduce d a b k f.isSome (cstF f') fun c y xs g =>
    let leaves := xs.map fun (x : Nat × Bool) => if x.2 then f'.dec x.1 else .fin false 0 0 false
    m.F f' 0 ((f'.dec y).add m.rm (treeSum add (Nat.log2 c.max) leaves)) g

/-- VFREDMAX and VFREDMIN by the pairwise operation. -/
def State.vfpick (s : State) (d : Dst) (a b : Src) (u : Bool) (k : MSel) (pick : FVal → FVal → FVal) : Out :=
  let f := fpFormat u s.vc.sew
  let f' := f.getD .f32
  s.reduce d a b k f.isSome (cstF f') fun _ y xs g =>
    (f'.enc ((xs.filter (·.2)).foldl (fun r x => pick r (f'.dec x.1)) (f'.dec y)), g)
def execVfredmax (d : Dst) (a b : Src) (u : Bool) (k : MSel) (s : State) : Out := s.vfpick d a b u k FVal.max
def execVfredmin (d : Dst) (a b : Src) (u : Bool) (k : MSel) (s : State) : Out := s.vfpick d a b u k FVal.min

def execVfscan (d : Dst) (a b : Src) (u : Bool) (k : MSel) (s : State) : Out :=
  let c := s.vc
  let f := fpFormat u c.sew
  let f' := f.getD .f32
  let m := s.modes
  s.scan d a b k f.isSome (cstF f') fun i acc x g => m.F f' (laneOf c.vlen i c.sew) ((f'.dec acc).add m.rm (f'.dec x)) g

end Sys2Proof.Machine
end

