-- ==== Sys2Proof/Machine/Memory.lean ====
section
/-! DEFINITION. Class 2 without the atomics: scalar and vector loads and stores (R77 to R80, R136 to R139, R225 to R229), apertures (R197, R261 to R264, R290), tiles (R230 to R236), the tag table (R237, R238), FENCE (R226) and the caches (R247 to R249). -/

namespace Sys2Proof.Machine

/-! ## Apertures (R197) -/

/-- Window 0xF at one address: kind and offset, for an aligned 8-byte access; the feature that covers it (R53, R54). -/
def State.aperture (s : State) (va : Word64) (n : Nat) (store : Bool) : Res (Nat × Nat) := do
  let kind := (va.extractLsb' 28 4).toNat
  let o := (va.extractLsb' 0 28).toNat
  need (va.extractLsb' 32 20 == 0 && decide (kind < 3) && n == 8 && va.toNat % 8 == 0) .accessViolation va
  need (if kind = 2 then s.team.feat.getLsbD 7 else !store || s.team.feat.getLsbD 6) .featureAbsent 0
  return (kind, o)

/-- The bank that a bank-core aperture offset addresses, and the register's offset (R290). -/
def bankOffset (o : Nat) : Nat × Nat := (o / 2 ^ 23 * 32 + o / 2 ^ 18 % 32, o % 2 ^ 18)

/-- Is a load defined at an aperture's offset (R197)? -/
def State.apertureLoads (s : State) (va : Word64) (n : Nat) : Res (Nat × Nat) := do
  let (kind, o) ← s.aperture va n false
  match kind with
  | 0 => need (decide (o < 256)) .accessViolation va
  | 1 => need (decide (o < 16384)) .accessViolation va
  | _ => need (decide ((bankOffset o).1 < 768) && (bankOffset o).2 == 8) .accessViolation va
  return (kind, o)

/-- What an aligned 8-byte store to an aperture asks for, with the checks made at issue (R261, R262, R264, R290); starts are forbidden in a region (R408). -/
def State.apertureStore (s : State) (va : Word64) (n : Nat) (data : Word64) : Res SQOp := do
  let (kind, o) ← s.aperture va n true
  match kind with
  | 0 =>
    let desc := (data.extractLsb' 8 20).toNat
    need (decide (o < 256)) .accessViolation va
    s.notInRegion
    need (data.extractLsb' 28 36 == 0 && desc % 32 == 0 && decide (desc + 32 ≤ s.team.spadBytes)) .accessViolation va
    return .copyStart (o / 8) data
  | 1 =>
    need (decide (o < 16384)) .accessViolation va
    return .template o data
  | _ =>
    let (bank, r) := bankOffset o
    need (decide (bank < 768) && (r == 0 || (decide (0x100 ≤ r) && decide (r < 0x200)))) .accessViolation va
    if r = 0 then do
      s.notInRegion
      return .bankStart bank data va
    else return .mailbox bank ((r - 0x100) / 8) data va

/-- The copies of a team that are queued or running on a channel (R261, R282). -/
def State.copiesOn (s : State) (k chan : Nat) : Nat :=
  sumNat (s.cores.map fun (c : Nat × Core) => ((mget [] chan c.2.chans).filter fun x => x.team == k).length)

/-- STATUS as a reader of an ASID sees it (R294). -/
def Bank.status (b : Bank) (asid : Nat) : Word64 :=
  if b.owner = asid then
    BitVec.ofBool b.running ++ b.cause ++ 0#4 ++ BitVec.ofNat 12 b.owner ++ 0#8 ++ b.value
  else BitVec.ofBool b.running ++ 0#63

/-- An aligned 8-byte load of an aperture; it waits for the group's older aperture stores (R22, R261, R264, R290). -/
def State.apertureLoad (s : State) (va : Word64) (n : Nat) : Res (List Byte) := do
  let (kind, o) ← s.apertureLoads va n
  await (s.hart.waiting.all fun e => match e.op with
    | .copyStart _ _ | .template _ _ | .bankStart _ _ _ | .mailbox _ _ _ _ => false
    | _ => true)
  match kind with
  | 0 => return leBytes 8 (s.copiesOn s.cur.team (o / 8))
  | 1 => return s.team.tmpl.read o 8
  | _ => return leBytes 8 ((s.bankOf (bankOffset o).1).status s.hart.asid.toNat).toNat

/-- Where an access goes: memory or an aperture. -/
inductive Where where
  | mem (p : Place)
  | ap
deriving DecidableEq, Repr

/-- The checks of one access of n bytes: the place, or the checks of a window-0xF access, with the data of a store. -/
def State.find (s : State) (k : AccKind) (wins : Wins) (va : Word64) (n align : Nat) (data : Word64 := 0) : Res Where :=
  if !s.onBank && wins == .all && window va == some 15 then
    if k.acc == .write then (s.apertureStore va n data).map fun _ => .ap else (s.apertureLoads va n).map fun _ => .ap
  else (s.locate k wins va n align).map .mem

/-- Reads n bytes where an access goes. -/
def State.load (s : State) (w : Where) (va : Word64) (n : Nat) (atHome : Bool) : Res (List Byte) :=
  match w with
  | .mem p => s.readAt p va n atHome
  | .ap => s.apertureLoad va n

/-- Stores one value of n bytes where an access goes; a start raises `copy` too (R261). -/
def State.store (s : State) (w : Where) (va : Word64) (n : Nat) (data : Word64) (release : Bool) (sc : Scope) (count : Bool) : Res State :=
  match w with
  | .mem p => s.storeBytes va n [(p, leBytes n data.toNat)] release sc
  | .ap => do
    let op ← s.apertureStore va n data
    let id := s.hart.nextOp
    let s ← s.issue op count false release sc
    match op with
    | .copyStart _ _ =>
      if 65535 ≤ s.hart.counter kCopy then .error .stall else return s.setHart (s.hart.raiseCtr kCopy id)
    | _ => return s

/-- What the caches may keep of a load. -/
def Where.loads (va : Word64) : Where → List (Word64 × Place)
  | .mem p => [(va, p)]
  | .ap => []

/-- Before a bank core reads, the die cache may have evicted the modified lines of what it reads: the device's choice (R301). -/
def State.evictFor (s : State) (loads : List (Word64 × Place)) (n : Nat) : State :=
  if !s.onBank then s
  else match s.choice with
    | 0 => s.chosen
    | _ => loads.foldl (fun s l => match l.2.tgt with | .home k => s.writeBack k n | _ => s) s.chosen

/-! ## Scalar loads and stores (R77 to R80, R225) -/

/-- A scalar load; an acquire reads at the home and then drops the L1 lines (R254, R255). -/
def State.loadS (s : State) (d : Dst) (a : Src) (t : IntTy) (sp : Space) (off : Word64) (acq : Option Scope) : Out :=
  s.finish do
    let base ← s.opnd a
    let va ← s.form sp base off
    let n := tyBytes t
    let w ← s.find aLoad .all va n n
    let s := s.evictFor (w.loads va) n
    let bs ← s.load w va n ((acq.map wide).getD false)
    let s := s.touch (w.loads va)
    let s := match acq with | some sc => s.acquire sc | none => s
    return s.retireS 2 d (extOf (leNat bs) (tyBits t) t.nat)

/-- A scalar store; a release where a scope is given. -/
def State.storeS (s : State) (a b : Src) (t : IntTy) (sp : Space) (off : Word64) (rel : Option Scope) : Out :=
  s.finish do
    let base ← s.opnd a
    let x ← s.opnd b
    let va ← s.form sp base off
    let n := tyBytes t
    let w ← s.find aStore .all va n n x
    let s' ← s.store w va n x rel.isSome (rel.getD .grp) true
    return s'.retire 2 Latch.none

def execLd (d : Dst) (a : Src) (t : IntTy) (l : MemM) (s : State) : Out := s.loadS d a t l.space (sx64 l.off) none
def execSt (a b : Src) (t : IntTy) (l : MemM) (s : State) : Out := s.storeS a b t l.space (sx64 l.off) none
def execLdaq (d : Dst) (a : Src) (t : IntTy) (l : MemS) (s : State) : Out :=
  s.loadS d a t l.space (sx64 l.off) (some l.scope)
def execStrl (a b : Src) (t : IntTy) (l : MemS) (s : State) : Out :=
  s.storeS a b t l.space (sx64 l.off) (some l.scope)

/-! ## Vector accesses (R136 to R139, R228) -/

/-- A taking-part element: its number, address and place. -/
structure Elem where
  i : Nat
  va : Word64
  w : Where
deriving DecidableEq, Repr

/-- The lanes of an element, for the lane fault mask (R363). -/
def laneBits (vlen i w : Nat) : Word64 :=
  let lo := laneOf vlen i w
  (List.range ((w + 31) / 32)).foldl (fun m k => m ||| (1 : Word64) <<< (lo + k)) 0

/-- Gathers the results of the elements: a lost spill store or a wait comes first, then the trap of the lowest failing element, with every failing lane and the highest failing address (R138, R363). -/
def joinElems {α : Type} (vlen w : Nat) (rs : List (Nat × Res α)) : Res (List (Nat × α)) :=
  let stop := rs.findSome? fun (r : Nat × Res α) => match r.2 with
    | .error (.trap _) => none
    | .error (.ask _) => none
    | .error h => some h
    | .ok _ => none
  let asks := rs.flatMap fun (r : Nat × Res α) => match r.2 with | .error (.ask q) => q | _ => []
  let fails := rs.filterMap fun (r : Nat × Res α) => match r.2 with | .error (.trap t) => some (r.1, t) | _ => none
  match stop, asks.isEmpty, fails with
  | some h, _, _ => .error h
  | none, false, _ => .error (.ask asks.eraseDups)
  | none, true, (_, t) :: more =>
    let lanes := fails.foldl (fun m (f : Nat × TrapRec) => m ||| laneBits vlen f.1 w) 0
    let last := (more.getLast?.map (·.2.addr2)).getD t.addr2
    .error (.trap { t with lanes := lanes, addr2 := last })
  | none, true, [] => .ok (rs.filterMap fun (r : Nat × Res α) => match r.2 with | .ok x => some (r.1, x) | _ => none)

/-- Checks every taking-part element before any is accessed (R138). -/
def State.findElems (s : State) (c : VC) (sel : Nat → Bool) (k : AccKind) (wins : Wins) (sp : Space) (e : Nat → Word64) (data : Nat → Nat := fun _ => 0) : Res (List Elem) := do
  let n := c.sew / 8
  let is := (List.range c.max).filter (c.active s.lanesOn sel c.sew)
  let one := fun (i : Nat) => do
    let va ← s.form sp (e i) 0
    let w ← s.find k wins va n n (BitVec.ofNat 64 (data i))
    pure (Elem.mk i va w)
  let rs := is.map fun i => (i, one i)
  let xs ← joinElems c.vlen c.sew rs
  return xs.map (·.2)

/-- The values of the elements that were loaded, at their positions. -/
def placeVals (max : Nat) (vals : List (Nat × Nat)) : List (Option Nat) := (List.range max).map fun i => mfind i vals

/-- Loads the elements and writes them to vd by R110. -/
def State.loadElems (s : State) (c : VC) (d : Dst) (sel : Nat → Bool) (es : List Elem) (words : Nat) : Res State := do
  let n := c.sew / 8
  let s := s.evictFor (es.flatMap fun e => e.w.loads e.va) n
  let rs ← joinElems c.vlen c.sew (es.map fun e => (e.i, s.load e.w e.va n false))
  let vals := rs.map fun r => (r.1, leNat r.2)
  let s := s.touch (es.flatMap fun e => e.w.loads e.va)
  let (s, b) := s.writeV c d sel c.sew c.lmul (placeVals c.max vals)
  return s.retire words b

/-- The elements of a store that lie on this device, in runs that no aperture element interrupts; an aperture element is a run of its own. -/
def localRuns (n : Nat) : List (Elem × Nat) → List (List (Tgt × Byte) ⊕ (Elem × Nat))
  | [] => []
  | e :: es =>
    match e.1.w, localRuns n es with
    | .ap, rs => .inr e :: rs
    | .mem p, rs =>
      if p.tgt.isRemote then rs
      else
        let cs := (List.range n).map fun i => (p.tgt.plus i, (leBytes n e.2).getD i 0)
        match rs with
        | .inl ds :: rs => .inl (cs ++ ds) :: rs
        | rs => .inl cs :: rs

/-- Stores an element list in increasing order; `st` rises once, with the last local part (R139, R224). -/
def State.storeElems (s : State) (c : VC) (es : List (Elem × Nat)) : Res State := do
  let n := c.sew / 8
  let mems := fun (es : List (Elem × Nat)) => es.filterMap fun e => match e.1.w with | .mem p => some (p, leBytes n e.2) | .ap => none
  let va := (es.head?.map (·.1.va)).getD 0
  if es.all fun e => e.1.w != .ap then s.storeBytes va n (mems es) false .grp
  else
    let rs := localRuns n es
    let step := fun (r : Res State) (x : Nat × (List (Tgt × Byte) ⊕ (Elem × Nat))) => do
      let s ← r
      let last := x.1 + 1 == rs.length
      match x.2 with
      | .inl cs => s.issue (.bytes cs va n) last false false .grp
      | .inr e => s.store e.1.w e.1.va n (BitVec.ofNat 64 e.2) false .grp last
    let s ← ((List.range rs.length).zip rs).foldl step (.ok s)
    s.storeBytes va n ((mems es).filter fun p => p.1.tgt.isRemote) false .grp

/-- A vector load with an element address function. -/
def State.vload (s : State) (d : Dst) (k : MSel) (ok : VC → Bool) (wins : Wins) (sp : Space) (e : Res (Nat → Word64)) : Out :=
  s.finish do
    let c := s.vc
    needOp (s.sewOk c && c.dstOk d c.lmul && c.selOk k && ok c)
    let e ← e
    s.heldDst d c.lmul
    let sel := s.sel k
    let es ← s.findElems c sel aLoad wins sp e
    s.loadElems c d sel es 2

/-- A vector store with an element address function. -/
def State.vstore (s : State) (d : BitVec 6) (k : MSel) (ok : VC → Bool) (wins : Wins) (sp : Space) (e : Res (Nat → Word64)) : Out :=
  s.finish do
    let c := s.vc
    needOp (s.sewOk c && c.regOk d.toNat c.lmul && c.selOk k && ok c)
    let e ← e
    s.heldRegs d.toNat c.lmul
    let val := fun (i : Nat) => s.hart.elem c.vlen d.toNat c.sew i
    let es ← s.findElems c (s.sel k) aStore wins sp e val
    let s' ← s.storeElems c (es.map fun x => (x, val x.i))
    return s'.retire 2 Latch.none

/-- Unit-stride addresses (R137). -/
def State.unitAddr (s : State) (a : Src) (off : Word64) : Res (Nat → Word64) := do
  let base ← s.opnd a
  let w := s.vc.sew / 8
  return fun i => base + off + BitVec.ofNat 64 (i * w)
/-- Strided addresses (R137). -/
def State.strideAddr (s : State) (a b : Src) (off : Word64) : Res (Nat → Word64) := do
  let base ← s.opnd a
  let d ← s.opnd b
  return fun i => base + off + BitVec.ofNat 64 i * d

/-- The registers that an index group spans (R228). -/
def indexRegs (c : VC) (xw : BitVec 2) : Nat := Nat.max 1 (c.lmul * (8 * 2 ^ xw.toNat) / c.sew)
/-- The checks on an index source (R228). -/
def indexOk (c : VC) (b : Src) (xw : BitVec 2) : Bool :=
  let n := indexRegs c xw
  decide (n ≤ 8) && c.srcOk b n && (match b with | .const _ => n == 1 | _ => true)
/-- Indexed addresses (R228). -/
def State.indexAddr (s : State) (a b : Src) (off : Word64) (xw : BitVec 2) (xs : Bool) (scale : BitVec 2) : Res (Nat → Word64) := do
  let c := s.vc
  let w := 8 * 2 ^ xw.toNat
  let base ← s.opnd a
  let x ← s.vsrc c b w (cstI w)
  s.heldSrc b (indexRegs c xw)
  return fun i => base + off + BitVec.ofInt 64 (valOf (x i) w (!xs) * 2 ^ scale.toNat)

def execVld (d : Dst) (a : Src) (k : MSel) (l : MemM) (s : State) : Out :=
  s.vload d k (fun _ => true) .all l.space (s.unitAddr a (sx64 l.off))
def execVst (d : BitVec 6) (a : Src) (k : MSel) (l : MemM) (s : State) : Out :=
  s.vstore d k (fun _ => true) .all l.space (s.unitAddr a (sx64 l.off))
def execVlds (d : Dst) (a b : Src) (k : MSel) (l : MemM) (s : State) : Out :=
  s.vload d k (fun _ => true) .all l.space (s.strideAddr a b (sx64 l.off))
def execVsts (d : BitVec 6) (a b : Src) (k : MSel) (l : MemM) (s : State) : Out :=
  s.vstore d k (fun _ => true) .all l.space (s.strideAddr a b (sx64 l.off))
def execVldx (d : Dst) (a b : Src) (k : MSel) (l : MemX) (s : State) : Out :=
  s.vload d k (fun c => indexOk c b l.xw && (8 * 2 ^ l.xw.toNat == c.sew || !dstMeets d c.lmul b (indexRegs c l.xw)))
    .upToE l.space (s.indexAddr a b (sx64 l.off) l.xw l.xs l.scale)
def execVstx (d : BitVec 6) (a b : Src) (k : MSel) (l : MemX) (s : State) : Out :=
  s.vstore d k (fun c => indexOk c b l.xw) .upToE l.space (s.indexAddr a b (sx64 l.off) l.xw l.xs l.scale)

/-! ## First fault (R227) -/

/-- The causes that end a first-fault load; any other traps. -/
def endsLoad : Cause → Bool
  | .accessViolation | .pageFault | .misaligned | .stackLimit | .poison => true
  | _ => false

/-- How far a first-fault load comes: the elements read, and the failing element that ended it. -/
def firstFault (read : Nat → Res (Elem × List Byte)) : List Nat → Res (List (Elem × Nat) × Option (Nat × TrapRec))
  | [] => .ok ([], none)
  | i :: is =>
    match read i with
    | .ok (e, bs) => (firstFault read is).map fun r => ((e, leNat bs) :: r.1, r.2)
    | .error (.trap t) => if endsLoad t.cause then .ok ([], some (i, t)) else .error (.trap t)
    | .error h => .error h

def execVldff (d : Dst) (a : Src) (k : MSel) (l : MemM) (s : State) : Out :=
  s.finish do
    let c := s.vc
    needOp (!s.onBank && c.dstOk d c.lmul && c.selOk k)
    let e ← s.unitAddr a (sx64 l.off)
    s.heldDst d c.lmul
    let sel := s.sel k
    let n := c.sew / 8
    let read := fun i => do
      let va ← s.form l.space (e i) 0
      let w ← s.find aLoad .upToE va n n
      let bs ← s.load w va n false
      pure (Elem.mk i va w, bs)
    let ps := (List.range c.max).filter (c.active s.lanesOn sel c.sew)
    let (xs, f) ← firstFault read ps
    match f, xs with
    | some (_, t), [] =>
      let fails := ps.filterMap fun i => match read i with | .error (.trap t) => some (i, t) | _ => none
      .error (.trap { t with lanes := fails.foldl (fun m f => m ||| laneBits c.vlen f.1 c.sew) 0, addr2 := (fails.getLast?.map (·.2.addr2)).getD t.addr2 })
    | _, [] =>
      let (s, b) := s.putV c d c.sew c.lmul (List.replicate c.max none)
      return s.retire 2 b
    | f, _ =>
      let m := match f with | some (i, _) => i | none => c.vl
      let s := s.touch (xs.flatMap fun x => x.1.w.loads x.1.va)
      let s := s.setHart { s.hart with vl := BitVec.ofNat 64 m }
      let (s, b) := s.writeV { c with vl := m } d sel c.sew c.lmul (placeVals c.max (xs.map fun x => (x.1.i, x.2)))
      return s.retire 2 b

/-! ## Tiles (R230 to R236) -/

/-- A tile transfer needs all 64 lanes, on and in the path (R230). -/
def State.wholePath (s : State) : Bool := s.path.lanes == BitVec.allOnes 64 && s.path.emask == BitVec.allOnes 64

/-- The register of a tile transfer. -/
def State.tileReg (s : State) (d : BitVec 6) : List Byte := leBytes 256 (vget s.hart.v d.toNat 0).toNat

def execTld (d : Dst) (a : Src) (chk : Bool) (l : MemM) (s : State) : Out :=
  s.finish do
    let base ← s.opnd a
    needOp s.wholePath
    s.heldDst d 1
    let va ← s.form l.space base (sx64 l.off)
    let p ← s.locate aLoad .upToE va 256 256
    let bs ← s.readAt p va 256 false
    need (!chk || tileConsistent bs) .dataCheck va
    let (s, b) := (s.touch [(va, p)]).putReg d (bytesToBits 2048 bs)
    return s.retire 2 b

def execTst (d : BitVec 6) (a : Src) (l : MemM) (s : State) : Out :=
  s.finish do
    let base ← s.opnd a
    needOp s.wholePath
    s.heldRegs d.toNat 1
    let va ← s.form l.space base (sx64 l.off)
    let p ← s.locate aStore .upToE va 256 256
    let s' ← s.storeBytes va 256 [(p, s.tileReg d)] false .grp
    return s'.retire 2 Latch.none

/-- Does a target take puts: a scratchpad of this device, or another device's scratchpad view (R220, R400)? -/
def Tgt.takesPut : Tgt → Bool
  | .spad _ _ => true
  | .win _ _ _ => true
  | .remote _ a _ _ => decide (spadView ≤ a) && decide (a < spadView + 288 * 2 ^ 20)
  | _ => false

def execPutt (d : BitVec 6) (a : Src) (l : MemS) (s : State) : Out :=
  s.finish do
    let base ← s.opnd a
    needOp s.wholePath
    s.heldRegs d.toNat 1
    let va ← s.form l.space base (sx64 l.off)
    let p ← s.locate aStore .tiles va 256 256
    need p.tgt.takesPut .accessViolation va
    let rem := p.tgt.isRemote
    let s' ← s.issue (.put p.tgt va (s.tileReg d)) (!rem) rem true l.scope
    return s'.retire 2 Latch.none

/-- An older store, put or tag event of the group to the scratchpad still waits (R22). -/
def Hart.spadPending (h : Hart) : Bool :=
  h.sq.any fun e => match e.op with
    | .bytes cs _ _ => cs.any fun (c : Tgt × Byte) => match c.1 with | .spad _ _ => true | _ => false
    | .atomic es _ => es.any fun (c : Tgt × AtomArg) => match c.1 with | .spad _ _ => true | _ => false
    | .put t _ _ => match t with | .spad _ _ => true | _ => false
    | .tfill _ _ | .tempty _ _ => true
    | _ => false

/-- Is an older store or tag event of the group to a run of its own tiles still to be performed, or, where the first of them is not FULL, a put to it (R22)? A put never overwrites a FULL tile, so a load that empties the tile need not wait for one. -/
def State.tilePending (s : State) (o : Nat) : Bool :=
  let t := o / 256
  let me := fun (u : Tgt) => overlaps (.spad s.cur.team (256 * t)) 256 u 1
  (s.hart.sq.any fun e => match e.op with
    | .bytes cs _ _ => cs.any fun (c : Tgt × Byte) => me c.1
    | .atomic es _ => es.any fun (c : Tgt × AtomArg) => overlaps (.spad s.cur.team (256 * t)) 256 c.1 8
    | .tfill f n => decide (f ≤ t) && decide (t < f + n)
    | .tempty f n => decide (f ≤ t) && decide (t < f + n)
    | _ => false)
  || (s.tagOf s.cur.team t != .full && s.putAhead s.hart (.spad s.cur.team (256 * t)) 256)

/-- The allocation byte of an address of the own allocation (R220). -/
def State.ownTile (s : State) (va : Word64) (n align : Nat) : Res Nat := do
  let p ← s.locate aLoad .own va n align
  match p.tgt with
  | .spad _ o => .ok o
  | _ => accTrap .accessViolation va 1

/-- LDC and LDP (R234): what a waking event has handed over, else the event at the tile's port. -/
def State.consume (s : State) (d : Dst) (a : Src) (chk take : Bool) (l : MemS) : Out :=
  s.finish do
    let base ← s.opnd a
    needOp s.wholePath
    s.heldDst d 1
    let va ← s.form l.space base (sx64 l.off)
    let done := fun (s : State) (v : VWord) => do
      let (s, b) := (s.acquire l.scope).putReg d v
      return s.retire 2 b
    match s.path.grant with
    | some (.data v) => done s v
    | some (.trap c x) => accTrap c x 1
    | _ =>
      let o ← s.ownTile va 256 256
      let k := s.cur.team
      let t := o / 256
      await (!s.tilePending o)
      match s.tagOf k t with
      | .empty => .error (.suspend (.tile t take chk va))
      | .poison => accTrap .poison va 1
      | .never => accTrap .poison (mark63 va) 1
      | .full =>
        let bs := s.team.mem.read (256 * t) 256
        need (!s.team.markedAt (256 * t) 256) .poison va
        need (!chk || tileConsistent bs) .dataCheck va
        done (if take then s.emptyTile tileConsistent k t else s) (bytesToBits 2048 bs)

def execLdc (d : Dst) (a : Src) (chk : Bool) (l : MemS) (s : State) : Out := s.consume d a chk true l
def execLdp (d : Dst) (a : Src) (chk : Bool) (l : MemS) (s : State) : Out := s.consume d a chk false l

/-- TFILL and TEMPTY enter the store queue (R235, R250). -/
def State.tagRun (s : State) (a b : Src) (l : MemM) (op : Nat → Nat → SQOp) : Out :=
  s.finish do
    let base ← s.opnd a
    let n ← s.opnd b
    let va ← s.form l.space base (sx64 l.off)
    if n = 0 then return s.retire 2 Latch.none
    else
      let o ← s.ownTile va 1 1
      need (decide (o / 256 + n.toNat ≤ s.team.spadBytes / 256)) .accessViolation va
      let s' ← s.issue (op (o / 256) n.toNat) false false false .grp
      return s'.retire 2 Latch.none

def execTfill (a b : Src) (l : MemM) (s : State) : Out := s.tagRun a b l .tfill
def execTempty (a b : Src) (l : MemM) (s : State) : Out := s.tagRun a b l .tempty

/-- The codes of R207. -/
def Tag.code : Tag → Nat
  | .empty => 0 | .full => 1 | .poison => 2 | .never => 3

/-- Is an older TFILL or TEMPTY of the group to one of n tiles still to be performed (R22)? -/
def Hart.tagsPending (h : Hart) (first n : Nat) : Bool :=
  h.sq.any fun e => match e.op with
    | .tfill f m => decide (f < first + n) && decide (first < f + m)
    | .tempty f m => decide (f < first + n) && decide (first < f + m)
    | _ => false

/-- TTAG reads its 32 tags as separate events: how many of those that are left it reads now is the device's choice, all of them at 0 (R236). -/
def execTtag (d : Dst) (a : Src) (l : MemM) (s : State) : Out :=
  s.finish do
    let base ← s.opnd a
    let va ← s.form l.space base (sx64 l.off)
    let o ← s.ownTile va 1 1
    let t := o / 256
    await (!s.hart.tagsPending t 32)
    let now := fun (k : Nat) => if t + k < s.team.spadBytes / 256 then (s.team.tag (t + k)).code else 0
    let had := s.path.part
    let left := 32 - had.length
    let n := if s.choice = 0 then left else Nat.min s.choice left
    let part := had ++ (List.range n).map fun j => (had.length + j, now (had.length + j))
    let s := s.chosen
    if part.length < 32 then return s.setPath { s.path with part := part, stalled := true }
    else return s.retireS 2 d (BitVec.ofNat 64 (part.foldl (fun x p => x + p.2 * 4 ^ p.1) 0))

/-! ## The tag table (R237, R238) -/

/-- The entry that holds a key. -/
def Team.keyEntry (t : Team) (key : BitVec 48) : Option (Nat × Byte) :=
  (List.range (t.spadBytes / 4096)).findSome? fun i =>
    match mfind i t.table with
    | some (k, x) => if k = key then some (i, x) else none
    | none => none
/-- The lowest invalid entry of the team. -/
def Team.freeEntry (t : Team) : Option Nat := (List.range (t.spadBytes / 4096)).find? fun i => (mfind i t.table).isNone

def execTaglk (d : Dst) (a : Src) (s : State) : Out :=
  s.finish do
    let x ← s.opnd a
    return s.retireS 1 d (match s.team.keyEntry (x.setWidth 48) with | some (_, v) => v.setWidth 64 | none => -1)
def execTagins (d : Dst) (a b : Src) (s : State) : Out :=
  s.finish do
    let x ← s.opnd a
    let y ← s.opnd b
    let t := s.team
    match t.keyEntry (x.setWidth 48) <|> (t.freeEntry.map fun i => (i, 0)) with
    | some (i, _) => return (s.setTeam { t with table := mset i (x.setWidth 48, y.setWidth 8) t.table }).retireS 1 d (BitVec.ofNat 64 i)
    | none => return s.retireS 1 d (-1)
def execTagdel (d : Dst) (a : Src) (s : State) : Out :=
  s.finish do
    let x ← s.opnd a
    let t := s.team
    match t.keyEntry (x.setWidth 48) with
    | some (i, v) => return (s.setTeam { t with table := t.table.filter fun e => e.1 != i }).retireS 1 d (v.setWidth 64)
    | none => return s.retireS 1 d (-1)

/-! ## FENCE and the caches (R226, R247 to R249) -/

def execFence (sc : Scope) (s : State) : Out :=
  s.finish do
    s.drained sc
    return (s.acquire sc).retire 1 Latch.none

/-- PREF has no architectural effect; what the L1 keeps of the line is the device's choice (R248). -/
def execPref (a : Src) (dc : Bool) (l : MemM) (s : State) : Out :=
  s.finish do
    let base ← s.opnd a
    let va := base + sx64 l.off
    let s' := if dc || l.space != .g then s else match s.locate aLoad .global va 1 1 with
      | .ok p => s.touch [(va, p)]
      | .error _ => s
    return s'.retire 2 Latch.none

/-- The line at home that a maintenance instruction acts on; none where it has no effect (R247). -/
def State.homeLine (s : State) (a : Src) (l : MemM) : Res (Option Nat) := do
  let base ← s.opnd a
  let va := base + sx64 l.off
  if l.space ≠ .g then return none
  else
    need (va.extractLsb' 56 8 == 0) .accessViolation va
    if 12 ≤ (va.extractLsb' 52 4).toNat then return none
    else
      let h := s.hart
      match s.vplace (some s.team.core) h.asid.toNat h.sys .read va.toNat with
      | .error c => accTrap c va 1
      | .ok p => match p.tgt with
        | .home k => return some (k / 128)
        | .shared k _ _ => return some (k / 128)
        | _ => return none

/-- A core's L1 without one line. -/
def State.dropLine (s : State) (core line : Nat) : State :=
  let c := s.coreOf core
  s.setCoreOf core { c with l1 := c.l1.filter fun e => e.1 != line }

def execCinv (a : Src) (all : Bool) (l : MemM) (s : State) : Out :=
  s.finish do
    if all then return s.dropL1.retire 2 Latch.none
    else
      let line ← s.homeLine a l
      let s' := match line with | some n => s.dropLine s.team.core n | none => s
      return s'.retire 2 Latch.none

/-- CCLEAN and CFLUSH count on `st` until the stack holds the line (R249). -/
def State.maintain (s : State) (a : Src) (l : MemM) (op : Nat → SQOp) : Out :=
  s.finish do
    let line ← s.homeLine a l
    match line with
    | none => return s.retire 2 Latch.none
    | some n =>
      let s' ← s.issue (op n) true false false .grp
      return s'.retire 2 Latch.none

def execCclean (a : Src) (l : MemM) (s : State) : Out := s.maintain a l .clean
def execCflush (a : Src) (l : MemM) (s : State) : Out := s.maintain a l .flush

end Sys2Proof.Machine
end

