-- ==== Sys2Proof/Machine/Atomic.lean ====
section
/-! DEFINITION. Class 2, atomics (R239 to R244) and return-free near-memory commands (R245, R246). -/

namespace Sys2Proof.Machine

/-! ## Types and addresses -/

/-- The element type of a scalar atomic (R240). -/
def atomTyS (op : AtomOp) (t : IntTy) : AtomTy :=
  match op with
  | .fadd | .fmin | .fmax => if t.width = 2 then .f32 else if t.nat then .bf16 else .f16
  | _ => .int (tyBits t) t.nat
/-- The element type of a vector atomic; none is illegal (R240). -/
def atomTyV (op : AtomOp) (u : Bool) (sew : Nat) : Option AtomTy :=
  match op with
  | .fadd | .fmin | .fmax =>
    match fpFormat u sew with
    | some .f32 => some .f32
    | some .f16 => some .f16
    | some .bf16 => some .bf16
    | _ => none
  | _ => if sew = 32 || sew = 64 then some (.int sew u) else none

/-- One element of an atomic instruction: its number, address, target and operands. -/
structure AtomElem where
  i : Nat
  va : Word64
  tgt : Tgt
  arg : AtomArg
deriving DecidableEq, Repr

/-! ## Applying at the home -/

/-- One indivisible update of a location of this device (R241), after the stores to it that its core observes; the old value. -/
def State.applyAtom (s : State) (core : Option Nat) (t : Tgt) (a : AtomArg) : State × Nat :=
  let n := a.ty.bits / 8
  let s := match t, core with | .home k, some c => s.landOver c k n | _, _ => s
  let old := leNat (s.peek t n)
  (if s.onBank then (match t with | .home k => s.pokeBank k (leBytes n (a.next old)) | _ => s)
   else s.poke core t (leBytes n (a.next old)) false, old)

/-- Where an element is applied: a location of this device now, or a location that must be asked. -/
inductive AtomPlace where
  | here (t : Tgt)
  | away (t : Tgt) (dev addr : Nat)
deriving DecidableEq, Repr

/-- Was an atomic at a location refused, or did it meet poisoned data, where it was sent (R404)? -/
def Hart.badAtom (h : Hart) (dev addr : Nat) : Option Cause :=
  (h.bad.find? fun (b : (Nat × Nat) × Cause) => b.1.1 % 1024 == dev && decide (1024 ≤ b.1.1) && b.1.2 == addr / 64).map (·.2)

/-- Resolves an element's target for an atomic with return (R205, R211, R404, R406). -/
def State.atomPlace (s : State) (e : AtomElem) : Res AtomPlace :=
  match e.tgt with
  | .win c o asid =>
    match s.winPlace c o asid with
    | .refused => accTrap .accessViolation e.va 3
    | .here k off =>
      if s.inFold c k off (e.arg.ty.bits / 8) then accTrap .accessViolation e.va 3
      else if s.bad (.spad k off) (e.arg.ty.bits / 8) then accTrap .poison e.va 3 else .ok (.here (.spad k off))
    | .absent _ _ =>
      let me := s.fabric.device.toNat
      match s.hart.badAtom me (spadView + 2 ^ 20 * c + o) with
      | some x => accTrap x e.va 3
      | none => .ok (.away e.tgt me (spadView + 2 ^ 20 * c + o))
  | .remote d a _ _ =>
    match s.hart.badAtom d a with
    | some x => accTrap x e.va 3
    | none =>
    if (mfind (atomKey d a 0) s.hart.arrived).isNone && !s.fabric.reachable d
    then accTrap .peerKilled (mark63 (BitVec.ofNat 64 d)) 3 else .ok (.away e.tgt d a)
  | t => if s.bad t (e.arg.ty.bits / 8) then accTrap .poison e.va 3 else .ok (.here t)

/-- The old values of the elements at a location from its first old value. -/
def oldsFrom (old : Nat) : List AtomElem → List (Nat × Nat)
  | [] => []
  | e :: es => (e.i, old) :: oldsFrom (e.arg.next old) es

/-- The value that has arrived under a key. -/
def Hart.arrivedNat (h : Hart) (key : Nat × Nat) (n : Nat) : Option Nat :=
  let bs := (List.range n).map fun i => mfind (key.1, key.2 + i) h.arrived
  if bs.all Option.isSome then some (leNat (bs.map (·.getD 0))) else none

/-- The old values of the elements that lie away, by location; with what is still to be asked. -/
def State.awayOlds (s : State) (es : List (AtomElem × Tgt × Nat × Nat)) : Res (List (Nat × Nat)) :=
  let h := s.hart
  let me := s.fabric.device.toNat
  let locs := (es.map fun (e : AtomElem × Tgt × Nat × Nat) => e.2).eraseDups
  let one := fun (l : Tgt × Nat × Nat) =>
    let mine := (es.filter fun (e : AtomElem × Tgt × Nat × Nat) => e.2 == l).map (·.1)
    let n := (mine.head?.map fun e => e.arg.ty.bits / 8).getD 0
    let olds : Option (List (Nat × Nat)) :=
      if l.2.1 = me then
        ((List.range mine.length).zip mine).mapM fun (je : Nat × AtomElem) =>
          (h.arrivedNat (atomKey me l.2.2 je.1) n).map fun v => (je.2.i, v)
      else (h.arrivedNat (atomKey l.2.1 l.2.2 0) n).map fun v => oldsFrom v mine
    (l.1, mine.map (·.arg), olds)
  let rs := locs.map one
  let asks := (rs.filter fun (r : Tgt × List AtomArg × Option (List (Nat × Nat))) => r.2.2.isNone).map fun r => (r.1, r.2.1)
  if asks.isEmpty then .ok (rs.flatMap fun r => r.2.2.getD []) else .error (.atom asks)

/-- The elements in the order of their passes: the first of each location, then the second of each, and so on (R243). -/
def passOrder {α : Type} (loc : α → Tgt) : Nat → List α → List α
  | 0, es => es
  | fuel + 1, es =>
    let split := es.foldl (fun (r : List α × List α) e =>
      if r.1.any fun x => loc x == loc e then (r.1, r.2 ++ [e]) else (r.1 ++ [e], r.2)) ([], [])
    if split.2.isEmpty then split.1 else split.1 ++ passOrder loc fuel split.2

/-- Atomics with return: what lies away is asked first, then the elements of this device are applied, pass by pass (R243, R405). How many of those that are left are applied now is the device's choice, all of them at 0; the old values of the others are kept with the path. The answer tells whether none is left. -/
def State.runAtoms (s : State) (w : Nat) (es : List AtomElem) : Res (State × List (Nat × Nat) × Bool) := do
  let had := s.path.part
  let left := es.filter fun e => (mfind e.i had).isNone
  let ps ← joinElems s.vc.vlen w (left.map fun e => (e.i, (s.atomPlace e).map fun p => (e, p)))
  let away := ps.filterMap fun (x : Nat × AtomElem × AtomPlace) => match x.2.2 with
    | .away t d a => some (x.2.1, t, d, a)
    | .here _ => none
  let olds ← s.awayOlds away
  let core := if s.onBank then none else some s.team.core
  let here := passOrder (fun (x : Nat × Tgt × AtomArg) => x.2.1) ps.length (ps.filterMap fun (x : Nat × AtomElem × AtomPlace) => match x.2.2 with
    | .here t => some (x.1, t, x.2.1.arg)
    | .away _ _ _ => none)
  let n := if s.choice = 0 || w == 0 then here.length else Nat.min s.choice here.length
  let step := fun (r : State × List (Nat × Nat)) (x : Nat × Tgt × AtomArg) =>
    let (s, old) := r.1.applyAtom core x.2.1 x.2.2
    (s, (x.1, old) :: r.2)
  let (t, now) := (here.take n).foldl step (if w = 0 then s else s.chosen, [])
  if n = here.length then return (t, now ++ had ++ olds, true)
  else return (t.setPath { t.path with part := now ++ had, stalled := true }, [], false)

/-! ## Scalar atomics (R241) -/

/-- The checks of a scalar atomic: its one element. -/
def State.atomScalar (s : State) (a : Src) (wins : Wins) (ty : AtomTy) (op : AtomOp) (sp : Space) (off : Word64) (x : Word64) (e : Option Nat) : Res AtomElem := do
  let base ← s.opnd a
  let va ← s.form sp base off
  let n := ty.bits / 8
  let p ← s.locate aAtomic wins va n n
  return ⟨0, va, p.tgt, ⟨op, ty, x.toNat % 2 ^ ty.bits, e⟩⟩

/-- The result of a scalar atomic (R241). -/
def atomResult (ty : AtomTy) (old : Nat) : Word64 :=
  match ty with
  | .int w nat => extOf old w nat
  | _ => BitVec.ofNat 64 old

/-- AMO and CAS: a release and an acquire (R223). -/
def State.atomReturn (s : State) (d : Dst) (a b : Src) (t : IntTy) (l : MemA) (e : Option Nat) : Out :=
  s.finish do
    let ty := atomTyS l.op t
    let x ← s.opnd b
    let _ ← s.opnd a
    s.notInRegion
    let el ← s.atomScalar a .upToE ty l.op l.space (sx64 l.off) x e
    if !s.onBank then
      await (s.hart.sq.isEmpty && !s.blocked s.hart el.tgt (ty.bits / 8))
      s.drained l.scope
    let (s, olds, _) ← s.runAtoms 0 [el]
    return (s.acquire l.scope).retireS 2 d (atomResult ty (mget 0 0 olds))

def execAmo (d : Dst) (a b : Src) (t : IntTy) (l : MemA) (s : State) : Out := s.atomReturn d a b t l none
def execCas (d : Dst) (a b : Src) (t : IntTy) (l : MemA) (s : State) : Out :=
  s.atomReturn d a b t l (some ((s.hart.sreg d.reg).toNat % 2 ^ tyBits t))

/-- Atomics without return enter the store queue as a release (R223, R250). -/
def State.issueAtoms (s : State) (es : List AtomElem) (sc : Scope) : Res State :=
  let rem := es.any fun e => e.tgt.isRemote
  let loc := es.any fun e => !e.tgt.isRemote
  s.issue (.atomic (es.map fun e => (e.tgt, e.arg)) ((es.head?.map (·.va)).getD 0)) loc rem true sc

def execAmon (a b : Src) (t : IntTy) (l : MemA) (s : State) : Out :=
  s.finish do
    let x ← s.opnd b
    let _ ← s.opnd a
    s.notInRegion
    let el ← s.atomScalar a .upToE (atomTyS l.op t) l.op l.space (sx64 l.off) x none
    let s' ← s.issueAtoms [el] l.scope
    return s'.retire 2 Latch.none

/-- A near-memory instruction raises `near` and leaves its elements to the homes (R245, R224). -/
def State.issueNear (s : State) (es : List AtomElem) : Res State :=
  let h := s.hart
  if 65535 ≤ h.counter kNear then .error .stall
  else
    let id := h.nextOp
    let h := { h with nextOp := id + 1, near := h.near ++ [NearCmd.mk id (es.map fun (e : AtomElem) => (e.tgt, e.arg))] }
    .ok (s.setHart (h.raiseCtr kNear id))

def execNma (a b : Src) (t : IntTy) (l : MemA) (s : State) : Out :=
  s.finish do
    let x ← s.opnd b
    let _ ← s.opnd a
    s.notInRegion
    let el ← s.atomScalar a .global (atomTyS l.op t) l.op l.space (sx64 l.off) x none
    let s' ← s.issueNear [el]
    return s'.retire 2 Latch.none

/-! ## Vector atomics (R242, R243) -/

/-- The elements of a vector atomic: its checks, addresses and operands; `cas` names the expected values' group, the operands lying behind it. -/
def State.atomVector (s : State) (d : Nat) (a b : Src) (k : MSel) (wins : Wins) (ty : AtomTy) (l : MemVA) (cas : Bool) : Res (List AtomElem) := do
  let c := s.vc
  let e ← s.indexAddr a b (sx64 l.off) l.xw l.xs l.scale
  let regs := if cas then 2 * c.lmul else c.lmul
  s.heldRegs d regs
  let es ← s.findElems c (s.sel k) aAtomic wins l.space e
  let h := s.hart
  let arg := fun (i : Nat) =>
    if cas then AtomArg.mk l.op ty (h.elem c.vlen (d + c.lmul) c.sew i) (some (h.elem c.vlen d c.sew i))
    else AtomArg.mk l.op ty (h.elem c.vlen d c.sew i) none
  return es.filterMap fun x => match x.w with | .mem p => some ⟨x.i, x.va, p.tgt, arg x.i⟩ | .ap => none

/-- The static checks of a vector atomic (R228, R240). -/
def vatomOk (c : VC) (b : Src) (k : MSel) (l : MemVA) (ty : Option AtomTy) : Bool :=
  ty.isSome && c.selOk k && indexOk c b l.xw

/-- VAMO and VCAS: old values into vd. -/
def State.vatomReturn (s : State) (d : Dst) (a b : Src) (u : Bool) (k : MSel) (l : MemVA) (cas : Bool) : Out :=
  s.finish do
    let c := s.vc
    let ty := atomTyV l.op u c.sew
    let t := ty.getD .f32
    needOp (!s.onBank && vatomOk c b k l ty && c.dstOk d c.lmul && c.regOk d.reg.toNat (if cas then 2 * c.lmul else c.lmul))
    let _ ← s.indexAddr a b (sx64 l.off) l.xw l.xs l.scale
    s.notInRegion
    let es ← s.atomVector d.reg.toNat a b k .upToE t l cas
    await (s.hart.sq.isEmpty && es.all fun e => !s.blocked s.hart e.tgt (t.bits / 8))
    s.drained l.scope
    let (s, olds, whole) ← s.runAtoms c.sew es
    if !whole then return s
    let (s, r) := (s.acquire l.scope).writeV c d (s.sel k) c.sew c.lmul (placeVals c.max olds)
    return s.retire 2 r

def execVamo (d : Dst) (a b : Src) (u : Bool) (k : MSel) (l : MemVA) (s : State) : Out := s.vatomReturn d a b u k l false
def execVcas (d : BitVec 6) (a b : Src) (u : Bool) (k : MSel) (l : MemVA) (s : State) : Out :=
  s.vatomReturn ⟨d, false⟩ a b u k l true

/-- VAMON and VNMA: vd is read, nothing returns. -/
def State.vatomSend (s : State) (d : BitVec 6) (a b : Src) (u : Bool) (k : MSel) (l : MemVA) (wins : Wins) (send : State → List AtomElem → Res State) : Out :=
  s.finish do
    let c := s.vc
    let ty := atomTyV l.op u c.sew
    needOp (!s.onBank && vatomOk c b k l ty && c.regOk d.toNat c.lmul)
    let _ ← s.indexAddr a b (sx64 l.off) l.xw l.xs l.scale
    s.notInRegion
    let es ← s.atomVector d.toNat a b k wins (ty.getD .f32) l false
    let s' ← send s es
    return s'.retire 2 Latch.none

def execVamon (d : BitVec 6) (a b : Src) (u : Bool) (k : MSel) (l : MemVA) (s : State) : Out :=
  s.vatomSend d a b u k l .upToE fun s es => if es.isEmpty then .ok s else s.issueAtoms es l.scope
def execVnma (d : BitVec 6) (a b : Src) (u : Bool) (k : MSel) (l : MemVA) (s : State) : Out :=
  s.vatomSend d a b u k l .global fun s es => s.issueNear es

end Sys2Proof.Machine
end

