-- ==== Sys2Proof/Machine/Perform.lean ====
section
/-! DEFINITION. What happens after issue: the store queue (R222, R224, R250), near-memory commands at the home (R245, R303), puts at their port (R208 to R211), refusals (R205), template slots (R264), L1 expiry (R255) and uncorrectable errors (R203, R214, R375). -/

namespace Sys2Proof.Machine

/-! ## Remote packets of a group (R399, R401, R406) -/

/-- Does the group still wait for an answer to operation id on `fab` or `near`? -/
def Hart.awaitsRemote (h : Hart) (id : Nat) : Bool := h.remote.any fun r => r.id == id

/-- A packet of a group's operation: sent and remembered, or, where the device is unreachable, discarded with a PEER_KILLED boundary cause (R406). -/
def State.sendRemote (s : State) (k g id : Nat) (near pathack : Bool) (va : Word64) (p : FabPkt) : State :=
  if s.fabric.reachable p.dst.toNat then
    let (s, q) := s.sendPkt p
    let i := HartId.group k g
    let h := s.hartOf i
    s.setHartOf i { h with remote := h.remote ++ [⟨q.dst.toNat, q.seq, q.path.toNat, id, near, pathack, va⟩] }
  else s.addCause k g ⟨.peerKilled, mark63 (p.dst.setWidth 64), none⟩

/-- The blocks that remote cells fall in, in order of first appearance. -/
def remoteBlocks (cells : List (Tgt × Byte)) : List (Nat × Nat × Bool) :=
  (cells.filterMap fun (c : Tgt × Byte) => match c.1 with
    | .remote d a _ sh => some (d, a / 256, sh)
    | _ => none).eraseDups

/-- The bytes that cells put into a block, the last one of equals, with their enables. -/
def blockBytes (cells : List (Tgt × Byte)) (d b : Nat) : List (Option Byte) :=
  (List.range 256).map fun i =>
    (cells.reverse.find? fun (c : Tgt × Byte) => match c.1 with
      | .remote d' a _ _ => d' == d && a == b * 256 + i
      | _ => false).map (·.2)

/-- The enables of a block's bytes, as the bmask field (R398). -/
def enables (bs : List (Option Byte)) : BitVec 256 :=
  BitVec.ofNat 256 ((List.range 256).foldl (fun n i => if ((bs[i]?).getD none).isSome then n + 2 ^ i else n) 0)

/-- A packet that writes the enabled bytes of a block (R399). -/
def blockPkt (kind : BitVec 8) (d b asid core gid : Nat) (bs : List (Option Byte)) : FabPkt :=
  { FabPkt.blank kind d asid core gid (b * 256) with bmask := enables bs, data := bs.map (·.getD 0) }

/-- A store to the lines of a block of another device's fabric-shared page begins (R414). -/
def State.sendShared (s : State) (k g id : Nat) (flag : Bool) (va : Word64) (d asid : Nat) (bytes : List (Nat × Byte)) : State :=
  let i := HartId.group k g
  if s.fabric.reachable d then
    (linesOf bytes).foldl (fun s l =>
      let (s, q) := s.fsQueue { linePkt 0x02 d l.1 asid (s.teamOf k).core g with ofl := flag } l.1 l.2 false
      let h := s.hartOf i
      s.setHartOf i { h with remote := h.remote ++ [⟨d, q.seq, 0, id, false, true, va⟩] }) s
  else s.addCause k g ⟨.peerKilled, mark63 (BitVec.ofNat 64 d), none⟩

/-- Sends the remote cells of a store: one write packet for each device and block (R399), or for each line of a fabric-shared page. -/
def State.sendCells (s : State) (k g id : Nat) (flag : Bool) (va : Word64) (cells : List (Tgt × Byte)) : State :=
  let core := (s.teamOf k).core
  let asid := (s.hartOf (.group k g)).asid.toNat
  (remoteBlocks cells).foldl (fun s b =>
    let bytes := cells.filterMap fun (c : Tgt × Byte) => match c.1 with
      | .remote d a _ _ => if d = b.1 ∧ a / 256 = b.2.1 then some (a, c.2) else none
      | _ => none
    if b.2.2 then s.sendShared k g id flag va b.1 asid bytes
    else s.sendRemote k g id false true va { blockPkt 0x02 b.1 b.2.1 asid core g (blockBytes cells b.1 b.2.1) with ofl := flag }) s

/-- The atomic packets of remote elements, one run for each location (R405). -/
def State.sendAtoms (s : State) (k g id : Nat) (near : Bool) (va : Word64) (es : List (Tgt × AtomArg)) : State :=
  let core := (s.teamOf k).core
  let asid := (s.hartOf (.group k g)).asid.toNat
  let locs := (es.map fun (e : Tgt × AtomArg) => e.1).eraseDups
  locs.foldl (fun s t => match t with
    | .remote d a _ _ =>
      let args := (es.filter fun (e : Tgt × AtomArg) => e.1 == t).map (·.2)
      if s.fabric.reachable d then
        let (s, sent) := s.sendRun (atomPkts d a asid core g args false near)
        let i := HartId.group k g
        let h := s.hartOf i
        s.setHartOf i { h with remote := h.remote ++ sent.map fun q => ⟨d, q.seq, q.path.toNat, id, near, false, va⟩ }
      else s.addCause k g ⟨.peerKilled, mark63 (BitVec.ofNat 64 d), none⟩
    | _ => s) s

/-- Does a packet of the group to a block that these cells touch still wait for its answer? A younger one would have no order with it (R401, R22). -/
def State.wireBusy (s : State) (k g : Nat) (tgts : List Tgt) : Bool :=
  tgts.any fun t => match t with
    | .remote d a _ _ => (s.fabric.unacked.any fun p =>
        p.dst.toNat == d && p.core.toNat == (s.teamOf k).core && p.gid.toNat == g && p.kind != 0x01
          && p.addr.toNat / 256 == a / 256)
        || s.fabric.fsJobs.any fun j => j.pkt.dst.toNat == d && j.pkt.core.toNat == (s.teamOf k).core && j.pkt.gid.toNat == g && j.line / 2 == a / 256
    | _ => false

/-! ## Performing an entry of the store queue -/

/-- Cells joined into runs of consecutive bytes of one aligned block of 256. -/
def runsOf : List (Tgt × Byte) → List (Tgt × List Byte)
  | [] => []
  | (t, b) :: cs =>
    match runsOf cs with
    | (u, bs) :: rs => if u = t.plus 1 ∧ u.at % 256 ≠ 0 then (t, b :: bs) :: rs else (t, [b]) :: (u, bs) :: rs
    | [] => [(t, [b])]

/-- The window-0xE address of a byte of a core. -/
def winAddr (core off : Nat) : Word64 := BitVec.ofNat 64 (0xE * 2 ^ 52 + core * 2 ^ 20 + off)

/-- A refusal on its way to the group that sent a store, a put or an atomic (R205). -/
def State.refuse (s : State) (k g core off : Nat) : State :=
  { s with net := s.net ++ [⟨.group k g, (s.teamOf k).core, .refusal .accessViolation (winAddr core off), false⟩] }

/-- How an entry stands while its parts are performed: the state, whether a part was refused, whether a ring had no room for a part, and the entry's scope. -/
structure Performed where
  s : State
  refused : Bool
  full : Bool
  scope : Scope

/-- Performs one run of bytes at its target. -/
def Performed.run (r : Performed) (k g : Nat) (t : Tgt) (bs : List Byte) : Performed :=
  let s := r.s
  match t with
  | .win c o asid =>
    match s.winPlace c o asid with
    | .refused => { r with s := if r.refused then s else s.refuse k g c o, refused := true }
    | .here tm off =>
      if s.inFold c tm off bs.length then { r with s := if r.refused then s else s.refuse k g c o, refused := true }
      else { r with s := s.pokeMarked none (.spad tm off) bs false }
    | .absent e off =>
      let b : Bounced := { pos := 0, off := off, src := .group k g, remote := none, op := .store bs false }
      let (s, ok) := s.bounceTo e b 0 2 (scopeCode r.scope) (if bs.length ≤ 32 then bs else []) (if bs.length ≤ 32 then [] else bs)
      { r with s := s, full := r.full || !ok }
  | .remote _ _ _ _ => r
  | .home key =>
    let core := (s.teamOf k).core
    { r with s := (s.landOver core key bs.length).pokeMarked (some core) t bs false }
  | _ => { r with s := s.pokeMarked (some (s.teamOf k).core) t bs false }

/-- A granule of memory that a store covers whole, whatever its elements' order, is no longer poisoned, and a scratchpad word no longer marked (R203, R214). -/
def State.clearCovered (s : State) (cells : List (Tgt × Byte)) : State :=
  let ts := cells.map fun (c : Tgt × Byte) => match c.1 with
    | .win c o asid => (match s.winPlace c o asid with | .here k off => Tgt.spad k off | _ => .win c o asid)
    | .shared k _ _ => .home k
    | t => t
  let covers := fun (at_ : Nat → Tgt) (size g : Nat) => (List.range size).all fun i => decide (at_ (g * size + i) ∈ ts)
  { s with
    poisoned := s.poisoned.filter fun g => !covers .home 64 g,
    teams := s.teams.map fun (k, t) => (k, { t with marks := t.marks.filter fun w => !covers (.spad k) 8 w }) }

/-- Applies one element of an atomic without return; one that meets poisoned data is discarded and logged. -/
def Performed.atom (r : Performed) (k g : Nat) (t : Tgt) (a : AtomArg) : Performed :=
  let s := r.s
  let core := (s.teamOf k).core
  let s := match t with | .home key => s.landOver core key (a.ty.bits / 8) | _ => s
  let here := fun (t : Tgt) =>
    if s.bad t (a.ty.bits / 8) then s.logError .discarded Cause.poison.code core (s.hartOf (.group k g)).asid.toNat g 0
    else (s.pokeMarked (some core) t (leBytes (a.ty.bits / 8) (a.next (leNat (s.peek t (a.ty.bits / 8))))) false)
  match t with
  | .win c o asid =>
    match s.winPlace c o asid with
    | .refused => { r with s := if r.refused then s else s.refuse k g c o, refused := true }
    | .here tm off =>
      if s.inFold c tm off (a.ty.bits / 8) then { r with s := if r.refused then s else s.refuse k g c o, refused := true }
      else { r with s := here (.spad tm off) }
    | .absent e off =>
      let b : Bounced := { pos := 0, off := off, src := .group k g, remote := none, op := .atomic [a] none }
      let (s, ok) := s.bounceTo e b 0 3 (atomControl a + scopeCode r.scope) (leBytes 8 a.x) []
      { r with s := s, full := r.full || !ok }
  | .remote _ _ _ _ => r
  | t => { r with s := here t }

/-- The counters of an entry whose parts have been performed fall, where nothing of it is still on its way; a part that a bounce ring has taken counts as delivered (R381). -/
def State.credit (s : State) (k g : Nat) (e : SQEntry) (st : Bool) : State :=
  let i := HartId.group k g
  let s := if e.st && st then s.completeOp i kSt e.id else s
  if e.fab && !(s.hartOf i).awaitsRemote e.id then s.completeOp i kFab e.id else s

/-- May a release be performed: every older access of the group has been performed at its scope (R222), and for one that a region has held, whatever its scope, the region's own stores too (R260)? -/
def State.releaseDue (s : State) (k g : Nat) (e : SQEntry) : Bool :=
  !e.release || (e.scope == .grp && !e.inRegion)
    || s.olderDone (.group k g) (s.teamOf k).core (if e.inRegion then .sys else e.scope) (some e.id)

/-- The core of this device whose port a put goes to. -/
def State.putCore (s : State) : Tgt → Option Nat
  | .spad k _ => some (s.teamOf k).core
  | .win c _ _ => some c
  | _ => none

/-- Must an entry wait for an older put or message of the group that has not been performed yet (R210, R250, R258)? A put waits only for a refused one to its core; accesses to other devices have no place in the order of R250. -/
def State.putFirst (s : State) (k g : Nat) (e : SQEntry) : Bool :=
  s.net.any fun m => m.src == .group k g && match m.body, e.op with
    | .put _ _ _ _ _ _ _, .put t _ _ => m.refused && s.putCore t == some m.core
    | .put _ _ _ _ _ _ _, .flit c _ _ _ _ => m.refused && c == m.core
    | .put _ _ _ _ _ _ _, _ => e.st || !e.fab
    | .flit _ _ _ _ _ _ _, .put _ _ _ => false
    | .flit _ _ _ _ _ _ _, .flit _ _ _ _ _ => false
    | .flit _ _ _ _ _ _ _, _ => !m.refused && (e.st || !e.fab)
    | _, _ => false

/-- Does a packet of the group to a line behind a held ordered flag wait (R402)? -/
def Hart.flagFirst (h : Hart) (tgts : List Tgt) : Bool :=
  h.flags.any fun f => f.targets.any fun u => tgts.any fun t => t.isRemote && t.line == u.line

/-- Must an entry wait for an older near-memory command to its bytes (R246)? -/
def Hart.nearFirst (h : Hart) (e : SQEntry) : Bool :=
  h.near.any fun c => decide (c.id < e.id) && c.elems.any fun u => e.targets.any fun t => overlaps t 8 u.1 8

/-- May the oldest entry of a store queue be performed now? -/
def State.entryDue (s : State) (k g : Nat) (e : SQEntry) : Bool :=
  let h := s.hartOf (.group k g)
  s.releaseDue k g e && !s.putFirst k g e && !(e.targets.any fun t => match t with | .shared x _ _ => s.lineHeld x | _ => false) && !h.nearFirst e && !h.flagFirst e.targets && !s.wireBusy k g e.targets

/-- Sends a put on its way: to the port of a core of this device, or in a packet (R233, R400). -/
def State.sendPut (s : State) (k g : Nat) (e : SQEntry) (t : Tgt) (va : Word64) (data : List Byte) : State :=
  let tm := s.teamOf k
  let msg := fun (core off asid : Nat) =>
    { s with net := s.net ++ [⟨.group k g, core, .put off asid (scopeCode e.scope) data [] (some e.id) none, false⟩] }
  match t with
  | .spad _ o => msg tm.core (tm.wbase * 4096 + o) tm.asid
  | .win c o asid => msg c o asid
  | .remote d a asid _ =>
    s.sendRemote k g e.id false true va (blockPkt 0x03 d (a / 256) asid tm.core g (data.map some))
  | _ => s

/-- The effect of an entry, or how far it came where a bounce ring has no room for it and it stays (R210). The entry leaves the queue of the state given. -/
def State.perform (s : State) (k g : Nat) (e : SQEntry) : Except State State :=
  let core := (s.teamOf k).core
  match e.op with
  | .bytes cells va _ =>
    let r := (runsOf cells).foldl (fun (r : Performed) x => r.run k g x.1 x.2) ⟨s, false, false, e.scope⟩
    if r.full then .error r.s else .ok (((r.s.clearCovered cells).sendCells k g e.id false va cells).credit k g e true)
  | .atomic es va =>
    let r := es.foldl (fun (r : Performed) x => r.atom k g x.1 x.2) ⟨s, false, false, e.scope⟩
    if r.full then .error r.s else .ok ((r.s.sendAtoms k g e.id false va es).credit k g e true)
  | .put t va data => .ok ((s.sendPut k g e t va data).credit k g e false)
  | .tfill f n => .ok ((List.range n).foldl (fun s i => s.tagEvent tileConsistent true k (f + i)) s)
  | .tempty f n => .ok ((List.range n).foldl (fun s i => s.tagEvent tileConsistent false k (f + i)) s)
  | .clean line => .ok (((s.landOver core (line * 128) 128).writeBack (line * 128) 128).credit k g e true)
  | .flush line => .ok ((((s.landOver core (line * 128) 128).writeBack (line * 128) 128).dropLine core line).credit k g e true)
  | .flit core wbase rx v j =>
    .ok { s with net := s.net ++ [⟨.group k g, core, .flit wbase rx (s.hartOf (.group k g)).asid.toNat v j e.id (scopeCode e.scope), false⟩] }
  | _ => .error s

/-- A group's queue without its oldest entry. -/
def State.popSq (s : State) (k g : Nat) : State :=
  let i := HartId.group k g
  let h := s.hartOf i
  s.setHartOf i { h with sq := h.sq.tail }

/-- The oldest entry of a queue is performed, or stays where a ring has no room for it. -/
def State.performHead (s : State) (k g : Nat) (e : SQEntry) : State :=
  match (s.popSq k g).perform k g e with
  | .ok t => t
  | .error t => s.keepRingLogs t

/-- Takes the oldest entry of a queue where it is of a kind and due. -/
def State.headEntry (s : State) (k g : Nat) (isKind : SQOp → Bool) : Option SQEntry :=
  match (s.hartOf (.group k g)).sq with
  | e :: _ => if isKind e.op && s.entryDue k g e then some e else none
  | [] => none

/-- Is a store one of bytes of this device's banks, which some agents may observe before their home (R251)? -/
def SQEntry.postable (e : SQEntry) : Bool :=
  match e.op with
  | .bytes cs _ _ => e.st && cs.all fun (c : Tgt × Byte) => match c.1 with | .home _ => true | _ => false
  | _ => false

/-- The oldest store of a queue leaves it: its core, and with `die` its compute die, observes it before its home does. One of a scope that this covers has been performed at it (R221). -/
def State.observe (s : State) (k g : Nat) (e : SQEntry) (cells : List (Tgt × Byte)) (die : Bool) : State :=
  let core := (s.teamOf k).core
  let put := fun (s : State) (r : Tgt × List Byte) =>
    let s := s.landOthers core r.1.at r.2.length
    { s with posted := s.posted ++ [⟨k, g, e.id, core, die, r.1.at, r.2⟩] }
  let s := (runsOf cells).foldl put (s.popSq k g)
  if e.release && (e.scope == .grp || (die && !far e.scope)) then s.completeOp (.group k g) kSt e.id else s

/-- Performs the first n elements of an atomic without return that lie on this device, and the rest of the entry once none of them is left (R242, R243). -/
def State.performSome (s : State) (k g : Nat) (e : SQEntry) (es : List (Tgt × AtomArg)) (va : Word64) (n : Nat) : State :=
  let order := passOrder (·.1) es.length (es.filter fun x => !x.1.isRemote)
  let rest := order.drop n ++ es.filter fun x => x.1.isRemote
  if order.length ≤ n then s.performHead k g e
  else
    let r := (order.take n).foldl (fun (r : Performed) x => r.atom k g x.1 x.2) ⟨s, false, false, e.scope⟩
    if r.full then s.keepRingLogs r.s
    else
      let i := HartId.group k g
      let h := r.s.hartOf i
      r.s.setHartOf i { h with sq := { e with op := .atomic rest va } :: h.sq.tail }

/-- STORE_PERFORM: the oldest entry of a group's store queue is performed at its scope (R224, R250). The device's choices: at 0 the whole of it is performed at its home, or where it may not be, the oldest part of a store that waits for its home lands; of an atomic, n elements are performed; a store of bytes is observed by its core first at 1, by its die at 2; above that, some store's part becomes observed by its die, or lands (R221, R242, R251). -/
def execStorePerform (team gid : Nat) (s : State) : Out :=
  let plain := fun (o : SQOp) => match o with
    | .copyStart _ _ | .template _ _ | .bankStart _ _ _ | .mailbox _ _ _ _ | .flag _ _ => false
    | _ => true
  let n := s.choice
  let t := s.chosen
  match s.headEntry team gid plain with
  | none => .next (if n < 3 then t.landOldest team gid else t.movePosted (n - 3))
  | some e =>
    if n = 0 then .next (t.performHead team gid e)
    else match e.op with
      | .atomic es va => .next (t.performSome team gid e es va n)
      | .bytes cells _ _ =>
        .next (if 3 ≤ n then t.movePosted (n - 3) else if e.postable then t.observe team gid e cells (n == 2) else t.performHead team gid e)
      | _ => .next (if 3 ≤ n then t.movePosted (n - 3) else t.performHead team gid e)

/-- ORDERED_FLAG_SEND: a flag at the head of the store queue goes to its port, which holds it; one that the port holds is sent once every write and put packet that the group sent earlier to its device has been acknowledged (R402). -/
def execOrderedFlagSend (team gid : Nat) (s : State) : Out :=
  let i := HartId.group team gid
  match s.headEntry team gid (fun o => match o with | .flag _ _ => true | _ => false) with
  | some e =>
    let s := s.popSq team gid
    let h := s.hartOf i
    .next (s.setHartOf i { h with flags := h.flags ++ [e] })
  | none =>
    let h := s.hartOf i
    let free := fun (e : SQEntry) =>
      let before := fun (d : Nat) (id : Nat) => decide (id < e.id) && decide (d ∈ e.devices)
      !h.remote.any (fun r => r.pathack && before r.dst r.id) && !h.flags.any fun f => f.devices.any fun d => before d f.id
    match h.flags.find? free with
    | none => .next s
    | some e =>
      let s := s.setHartOf i { h with flags := h.flags.filter (·.id != e.id) }
      match e.op with
      | .flag cells va => .next ((s.sendCells team gid e.id true va cells).credit team gid e true)
      | _ => .next s

/-- TEMPLATE_SLOT_WRITE: a store to a template slot updates the slot (R264). -/
def execTemplateSlotWrite (team gid : Nat) (s : State) : Out :=
  match s.headEntry team gid (fun o => match o with | .template _ _ => true | _ => false) with
  | none => .next s
  | some e =>
    match e.op with
    | .template off data =>
      let s := s.popSq team gid
      let t := s.teamOf team
      .next ((s.setTeamOf team { t with tmpl := t.tmpl.write off (leBytes 8 data.toNat) }).credit team gid e true)
    | _ => .next s

/-! ## Near-memory commands (R245, R303) -/

/-- The elements that a group's near commands have still to apply, oldest command first, with the command's number. -/
def Hart.nearElems (h : Hart) : List (Nat × Tgt × AtomArg) :=
  h.near.flatMap fun c => c.elems.map fun (e : Tgt × AtomArg) => (c.id, e.1, e.2)

/-- Does an element come after another to the same bytes, or after an older store to them? -/
def Hart.nearWaits (h : Hart) (before : List (Nat × Tgt × AtomArg)) (id : Nat) (t : Tgt) : Bool :=
  before.any (fun u => overlaps t 8 u.2.1 8) || h.sq.any fun e => decide (e.id < id) && e.targets.any fun u => overlaps t 8 u 8

/-- Takes one element out of a command. -/
def Hart.dropNear (h : Hart) (i : Nat) : Hart :=
  let rec go : Nat → List NearCmd → List NearCmd
    | _, [] => []
    | i, c :: cs => if i < c.elems.length then { c with elems := removeAt i c.elems } :: cs else c :: go (i - c.elems.length) cs
  { h with near := go i h.near }

/-- Applies one element at the bank of its byte; a poisoned granule discards it, and it is logged. -/
def State.applyNear (s : State) (k g id : Nat) (t : Tgt) (a : AtomArg) : State :=
  let n := a.ty.bits / 8
  match t with
  | .home key =>
    if s.poisonedAt key n then
      s.logError .discarded Cause.poison.code (key / bankSize) (s.hartOf (.group k g)).asid.toNat g (BitVec.ofNat 64 key)
    else
      let core := (s.teamOf k).core
      let s := s.landOver core key n
      let bs := leBytes n (a.next (leNat (s.mem.read key n)))
      (s.pokeBank key bs).l1Store (some core) key bs
  | .remote _ _ _ _ => if s.wireBusy k g [t] then s else s.sendAtoms k g id true (BitVec.ofNat 64 (match t with | .remote d x _ _ => d * 2 ^ 42 + x | _ => 0)) [(t, a)]
  | _ => s

/-- NEAR_COMMAND_APPLY: a bank's atomic unit applies one element and acknowledges it; which one of those that need not wait is the device's choice. -/
def execNearCommandApply (team gid : Nat) (s : State) : Out :=
  let h := s.hartOf (.group team gid)
  let es := h.nearElems
  let pick := s.choice % Nat.max 1 es.length
  let ok := fun (i : Nat) => match es[i]? with
    | some (id, t, _) => !h.nearWaits (es.take i) id t && !h.flagFirst [t] && !s.wireBusy team gid [t]
    | none => false
  let i := if ok pick then pick else 0
  match es[i]? with
  | none => .next s
  | some (id, t, a) =>
    if !ok i then .next s
    else
      let s := s.chosen
      let s := s.setHartOf (.group team gid) (h.dropNear i)
      .next (s.applyNear team gid id t a)

/-- NEAR_ACK_CREDIT: the acknowledgements of a command have reached the group, and `near` falls in issue order (R256). -/
def execNearAckCredit (team gid : Nat) (s : State) : Out :=
  let i := HartId.group team gid
  let h := s.hartOf i
  match h.near.find? fun c => c.elems.isEmpty && !h.awaitsRemote c.id with
  | none => .next s
  | some c => .next (s.setHartOf i ({ h with near := h.near.filter fun d => d.id != c.id }.complete kNear c.id))

/-! ## Puts at their port -/

/-- The Drover's produced bit of a tile: a PUTT of a producing node's group was delivered, held or appended to a ring (R347). -/
def State.noteProduced (s : State) (src : Port) (k t : Nat) : State :=
  match src with
  | .group p _ => s.modNode (s.teamOf p).launch (s.teamOf p).node fun n => { n with produced := insertNew (k, t) n.produced }
  | _ => s

def State.dropMsg (s : State) (i : Nat) : State := { s with net := removeAt i s.net }

/-- A refusal that comes back is an answer; every other packet is a request (R385). -/
def MsgBody.isReply : MsgBody → Bool
  | .refusal _ _ => true
  | _ => false

/-- Is a message the oldest of its class from its source port to its destination core (R210, R385, R386)? -/
def State.msgFirst (s : State) (i : Nat) (m : Msg) : Bool :=
  !(s.net.take i).any fun n => n.src == m.src && n.core == m.core && n.body.isReply == m.body.isReply

/-- A put that its port refuses stays with its sender, to be sent again (R210). -/
def State.keepPut (s : State) (i : Nat) : State := { s with net := modifyAt (fun m => { m with refused := true }) i s.net }

/-- A put that no entry takes: it counts as delivered, and a refusal goes back (R205). -/
def State.putRefused (s : State) (m : Msg) (off : Nat) (st : Option Nat) (remote : Option FabPkt) : State :=
  let s := s.putDone m.src st none
  match m.src, remote with
  | .group k g, _ => s.refuse k g m.core off
  | _, some p => s.refusePkt p
  | _, none => s

/-- `Deliver` for a put (R208 to R211); one that joins a ring counts as delivered (R381). -/
def State.deliverPut (s : State) (i : Nat) (m : Msg) (off asid control : Nat) (data : List Byte) (marks : List Nat) (st : Option Nat) (remote : Option FabPkt) : State :=
  match s.portEntry m.core off asid with
  | none => (s.dropMsg i).putRefused m off st remote
  | some e =>
    let o := off - e.wbase * 4096
    if e.absent then
      let b : Bounced := { pos := 0, off := o, src := m.src, remote := none, op := .put data marks }
      let (s', ok) := s.bounceTo e b 0 1 control [] data
      if ok then ((s'.dropMsg i).putDone m.src st remote).noteProduced m.src e.team (o / 256) else s'.keepPut i
    else if s.inFold m.core e.team o 256 then (s.dropMsg i).putRefused m off st remote
    else
      let h : Held := { team := e.team, tile := o / 256, src := m.src, data := data, marks := marks, st := st, remote := remote, control := control }
      match s.applyPut tileConsistent e.team (o / 256) h with
      | some s' => (s'.dropMsg i).noteProduced m.src e.team (o / 256)
      | none => s.keepPut i

/-- A put at the front of its port is delivered. -/
def State.putEvent (s : State) (i : Nat) (refused : Bool) : State :=
  match s.net[i]? with
  | none => s
  | some m =>
    match m.body with
    | .put off asid control data marks st remote =>
      if m.refused == refused && s.msgFirst i m then s.deliverPut i m off asid control data marks st remote else s
    | _ => s

def execPutArrive (i : Nat) (s : State) : Out := .next (s.putEvent i false)
def execPutResend (i : Nat) (s : State) : Out := .next (s.putEvent i true)

/-- ASYNC_REFUSAL_ARRIVE: the refusal joins the group's pending causes (R205, R361). -/
def execAsyncRefusalArrive (i : Nat) (s : State) : Out :=
  match s.net[i]? with
  | some ⟨.group k g, _, .refusal c tval, _⟩ => .next ((s.dropMsg i).addCause k g ⟨c, mark63 tval, none⟩)
  | _ => .next s

/-! ## Caches and errors -/

/-- L1_LINE_EXPIRE: a line is discarded (R255). -/
def execL1LineExpire (core line : Nat) (s : State) : Out := .next (s.dropLine core line)

/-- UNCORRECTABLE_ERROR: the 64-byte granule at a bank location is poisoned, or the word of a team's allocation is marked and its tile poisoned; either is logged (R203, R208, R214). -/
def execUncorrectableError (team : Option Nat) (addr : Nat) (s : State) : Out :=
  match team with
  | none => .next ({ s with poisoned := insertNew (addr / 64) s.poisoned }.logError .poison Cause.poison.code (addr / bankSize) 0 0 (BitVec.ofNat 64 addr))
  | some k =>
    let t := s.teamOf k
    let s := s.setTeamOf k { t with marks := insertNew (addr / 8) t.marks }
    .next ((s.poisonTile k (addr / 256)).logError .poison Cause.poison.code t.core t.asid 0 (BitVec.ofNat 64 addr))

/-- A MACHINE_CHECK boundary cause of a group, with the index of its error-log entry (R357, R425). -/
def State.machineCheck (s : State) (k g : Nat) (addr : Word64) : State :=
  let n := s.service.logHead
  (s.logError .machineCheck Cause.machineCheck.code (s.teamOf k).core (s.hartOf (.group k g)).asid.toNat g addr).addCause k g
    ⟨.machineCheck, n, none⟩

/-- REGISTER_UNCORRECTABLE: an uncorrectable error in a register or latch of a group (R375). -/
def execRegisterUncorrectable (team gid : Nat) (s : State) : Out := .next (s.machineCheck team gid 0)

end Sys2Proof.Machine
end

