-- ==== Sys2Proof/Machine/Engine.lean ====
section
/-! DEFINITION. How the asynchronous engines and the matrix stream of a team reach memory: where a row lies (R196, R267), reading it (R302, R214, R404), writing it (R205, R211, R273), arrivals at named barriers (R274), and raises of synchronisation words (R277). -/

namespace Sys2Proof.Machine

/-- An engine at work: its team, its key among the team's engines (0 the stream, 1 + c the copy channel c, 33 + 2j the transfer j of the gather engine, an even number above 33 a fetch of the adapter cache), the group that it acts for (none for the stream), and the rights of its accesses. -/
structure Agt where
  team : Nat
  key : Nat
  gid : Option Nat
  sys : Bool
deriving DecidableEq, Repr
def streamAgt (k : Nat) : Agt := ⟨k, 0, none, false⟩
/-- The key of a fetch of the adapter cache: one for each segment. -/
def AdpFetch.key (f : AdpFetch) : Nat := 34 + 2 * ((f.adapter * 2 + f.up.toNat) * 2 ^ 16 + f.seg)
def adapterAgt (f : AdpFetch) : Agt := ⟨f.team, f.key, none, false⟩

/-! ## Places -/

/-- The place of n bytes of the private window of the group that an engine acts for; `low` is the lowest byte of the access that they belong to (R199, R201). A spill store that fails `Translate` is a MACHINE_CHECK, which ends the group. -/
def State.engPrivate (s : State) (a : Agt) (acc : Access) (o n low : Nat) : Except Cause Place :=
  match a.gid with
  | none => .error .accessViolation
  | some g =>
    let t := s.teamOf a.team
    let h := s.hartOf (.group a.team g)
    if t.privBytes < o + n then .error .accessViolation
    else if decide (h.slimit.toNat - 65536 ≤ low) && decide (low < h.slimit.toNat) then .error .stackLimit
    else match s.vplace (some t.core) t.asid true acc (h.spbase.toNat + o) with
      | .ok p => .ok p
      | .error _ => .error .machineCheck

/-- The place of n bytes of the team's own allocation. -/
def State.engSpad (s : State) (a : Agt) (acc : Access) (o n : Nat) : Except Cause Place :=
  let t := s.teamOf a.team
  if t.spadBytes < o + n then .error .accessViolation
  else if acc == .write && a.gid.isNone && s.inFold t.core a.team o n then .error .accessViolation
  else .ok ⟨.spad a.team o, false⟩

/-- The place of n bytes through window 0xE (R196, R205). -/
def State.engWindow (s : State) (a : Agt) (acc : Access) (va : Word64) (n : Nat) : Except Cause Place :=
  let t := s.teamOf a.team
  let o := va.toNat % 2 ^ 20
  let core := va.toNat / 2 ^ 20 % 512
  if va.extractLsb' 29 23 != 0 || decide (288 ≤ core) then .error .accessViolation
  else match s.portEntry core o t.asid with
    | some e => if e.team = a.team then s.engSpad a acc (o - e.wbase * 4096) n else .ok ⟨.win core o t.asid, false⟩
    | none => .ok ⟨.win core o t.asid, false⟩

/-- Where n bytes at an address lie for an engine, as part of an access from `low` on (R20, R196, R365, R53). -/
def State.engPlace (s : State) (a : Agt) (acc : Access) (va : Word64) (n : Nat) (low : Word64 := va) : Except Cause Place :=
  let t := s.teamOf a.team
  match window va with
  | none => .error .accessViolation
  | some w =>
    if w < 12 then
      match s.vplace (some t.core) t.asid a.sys acc va.toNat with
      | .error c => .error c
      | .ok p => if p.tgt.isRemote && !t.feat.getLsbD 10 then .error .featureAbsent else .ok p
    else if w = 12 then s.engPrivate a acc (va.toNat % 2 ^ 52) n (low.toNat % 2 ^ 52)
    else if w = 13 then
      if va.extractLsb' 20 32 != 0 then .error .accessViolation else s.engSpad a acc (va.toNat % 2 ^ 20) n
    else if w = 14 then s.engWindow a acc va n
    else .error .accessViolation

/-- The pieces of a row, by aligned blocks of 256 bytes, with their places; a row lies in one window and is a multiple of 4 (R267). -/
def State.engRow (s : State) (a : Agt) (acc : Access) (wins : Nat) (va : Word64) (n : Nat) : Except Cause (List (Place × Nat)) :=
  let last := va + BitVec.ofNat 64 (n - 1)
  if window va == none || window va != window last || !((window va).all fun w => decide (w < wins)) then .error .accessViolation
  else if va.toNat % 4 ≠ 0 then .error .misaligned
  else
    let step := fun (p : Nat × Nat) => (s.engPlace a acc (BitVec.ofNat 64 p.1) p.2 va).map fun x => (x, p.2)
    (pieces 256 (n + 1) va.toNat n).mapM step

/-! ## Reading -/

/-- What a read of an engine meets: bytes, with whether they are poisoned, a wait, data of other devices or of absent teams that has yet to come, or a fault. -/
inductive EngRead where
  | data (bs : List Byte) (bad : Bool)
  | wait
  | ask (dev addr : Nat)
  | fail (c : Cause)
deriving DecidableEq, Repr

/-- The received bytes of another device, or of the allocation of an absent team; a poisoned reply gives poisoned data (R267, R404). -/
def State.engArrived (s : State) (a : Agt) (dev addr n asid : Nat) (sh : Bool) : EngRead :=
  let t := s.teamOf a.team
  match s.opened ⟨t.arrived, t.bad⟩ (dev + 1024 * a.key) dev addr asid n sh with
  | .error .poison => .data (List.replicate n 0) true
  | .error c => .fail c
  | .ok (some bs) => .data bs false
  | .ok none =>
    if dev ≠ s.fabric.device.toNat ∧ !s.fabric.reachable dev then .fail .peerKilled
    else match (remoteAsks dev addr n sh).find? fun r => (mfind (r.1 + 1024 * a.key, Nat.max r.2 (if sh then 0 else addr)) t.arrived).isNone with
      | some r => .ask r.1 r.2
      | none => .ask dev addr

/-- Reads n bytes at a place, at their home; a store that the engine's die observes before its home is waited for (R221), and so is a read in flight that the engine's read would join (R389). -/
def State.engRead (s : State) (a : Agt) (p : Place) (n : Nat) : EngRead :=
  let me := s.fabric.device.toNat
  match p.tgt with
  | .home k =>
    match if p.fe then s.rowCheck k n 0 else .ok () with
    | .ok () =>
      let core := (s.teamOf a.team).core
      if ((s.visible core).any fun q => q.die && q.meets k n) || (!p.fe && (blocksOf 128 k n).any (s.wouldJoin core)) then .wait else .data (s.mem.read k n) (s.poisonedAt k n)
    | .error .stall => .wait
    | .error _ => .fail .rowNotFull
  | .spad tm o =>
    let t := s.teamOf tm
    if t.absent then s.engArrived a me (spadView + 2 ^ 20 * t.core + t.wbase * 4096 + o) n 0 false
    else .data (t.mem.read o n) (t.markedAt o n)
  | .win c o asid =>
    match s.winPlace c o asid with
    | .refused => .fail .accessViolation
    | .absent _ _ => s.engArrived a me (spadView + 2 ^ 20 * c + o) n 0 false
    | .here tm off => .data ((s.teamOf tm).mem.read off n) ((s.teamOf tm).markedAt off n)
  | .remote d x asid sh => s.engArrived a d (rowKey p.fe x) n asid sh
  | .shared k _ _ => if s.lineHeld k then .wait else .data (s.peek p.tgt n) (s.bad p.tgt n)

/-- The device that a row cannot reach (R406). -/
def State.deadIn (s : State) (ps : List (Place × Nat)) : Option Nat :=
  ps.findSome? fun p => p.1.tgt.device.filter fun d => !s.fabric.reachable d

/-- The address that an engine's fault at a row reports: the number of a lost device, else that of the row (R272, R406). -/
def State.faultAddr (s : State) (ps : List (Place × Nat)) (c : Cause) (va : Word64) : Word64 :=
  if c = .peerKilled then BitVec.ofNat 64 ((s.deadIn ps).getD 0) else va

/-- Reads the pieces of a row. -/
def State.engReadRow (s : State) (a : Agt) : List (Place × Nat) → EngRead
  | [] => .data [] false
  | p :: ps =>
    match s.engRead a p.1 p.2, s.engReadRow a ps with
    | .data x b, .data y c => .data (x ++ y) (b || c)
    | .data _ _, r => r
    | .wait, .fail c => .fail c
    | r, _ => r

/-! ## Writing -/

/-- How a write of an engine goes: done, refused at its destination, or with no room in a ring. -/
structure EngWrite where
  s : State
  refused : Bool
  full : Bool
  dead : Bool

/-- The packet of a piece of a row that goes to another device, with the marks of poisoned flits (R398). -/
def enginePkt (d addr asid core : Nat) (bad : Bool) (bs : List Byte) : FabPkt :=
  let cells : List (Tgt × Byte) := (List.range bs.length).map fun i => (Tgt.remote d (addr + i) asid false, bs.getD i 0)
  let p := blockPkt 0x02 d (addr / 256) asid core 0 (blockBytes cells d (addr / 256))
  if bad then { p with psn := BitVec.ofNat 4 ((blocksOf 64 (addr % 256) bs.length).foldl (fun m g => m + 2 ^ g) 0) } else p

/-- A piece joins the ring of an absent team, and counts as delivered (R381). -/
def EngWrite.toRing (r : EngWrite) (a : Agt) (e : PortEntry) (off : Nat) (bs : List Byte) (bad : Bool) : EngWrite :=
  let b : Bounced := { pos := 0, off := off, src := .engine a.team, remote := none, op := .store bs bad }
  let (s, ok) := r.s.bounceTo e b 0 (if a.key = 0 then 2 else 8) 0 (if bs.length ≤ 32 then bs else []) (if bs.length ≤ 32 then [] else bs)
  { r with s := s, full := r.full || !ok }

/-- Is a team's port translation entry absent: its team has been evicted, or its ring is not yet replayed (R211, R437)? -/
def State.away (s : State) (k : Nat) : Bool := (s.teamOf k).absent || ((s.entryOf k).map PortEntry.absent).getD false

/-- Writes one piece at its place. -/
def EngWrite.piece (r : EngWrite) (a : Agt) (t : Tgt) (bs : List Byte) (bad : Bool) : EngWrite :=
  let s := r.s
  let tm := s.teamOf a.team
  match t with
  | .spad k o =>
    if s.away k then
      match s.entryOf k with
      | some e => r.toRing a e o bs bad
      | none => { r with refused := true }
    else if s.inFold (s.teamOf k).core k o bs.length then { r with refused := true }
    else { r with s := s.pokeMarked none t bs bad }
  | .win c o asid =>
    match s.winPlace c o asid with
    | .refused => { r with refused := true }
    | .absent e off => r.toRing a e off bs bad
    | .here k off =>
      if s.inFold c k off bs.length then { r with refused := true } else { r with s := s.pokeMarked none (.spad k off) bs bad }
  | .remote d x asid sh =>
    if s.fabric.reachable d then
      let cells := (List.range bs.length).map fun i => (x + i, bs.getD i 0)
      let (s, ps) := if sh then
          (linesOf cells).foldl (fun (r : State × List FabPkt) l =>
            let (s, p) := r.1.fsQueue (linePkt 0x02 d l.1 asid tm.core 0) l.1 l.2 bad
            (s, r.2 ++ [p])) (s, [])
        else let (s, p) := s.sendPkt (enginePkt d x asid tm.core bad bs); (s, [p])
      let tm := s.teamOf a.team
      { r with s := s.setTeamOf a.team { tm with sent := tm.sent ++ ps.map fun p => (d, p.seq, a.key) } }
    else { r with dead := true }
  | .shared k _ _ => if s.lineHeld k then { r with full := true } else { r with s := s.pokeMarked none t bs bad }
  | t => { r with s := s.pokeMarked none t bs bad }

/-- Writes a row, whole or, where a ring has no room or a line is held, not at all. -/
def State.engWriteRow (s : State) (a : Agt) (ps : List (Place × Nat)) (bs : List Byte) (bad : Bool) : EngWrite :=
  let step := fun (r : EngWrite × List Byte) (p : Place × Nat) => (r.1.piece a p.1.tgt (r.2.take p.2) bad, r.2.drop p.2)
  let r := (ps.foldl step (⟨s, false, false, false⟩, bs)).1
  if r.full then { r with s := s.keepRingLogs r.s } else r

/-- Have the packets of an engine been acknowledged? -/
def Team.settled (t : Team) (key : Nat) : Bool := t.sent.all fun p => p.2.2 != key

/-! ## Named barriers (R274) -/

/-- The expected count X of a barrier. -/
def Barrier.expected (b : Barrier) : Nat :=
  (b.cfg.extractLsb' 0 6).toNat + (b.cfg.extractLsb' 6 1).toNat + (b.cfg.extractLsb' 8 8).toNat
/-- A barrier after one arrival; a full count completes the phase. -/
def Barrier.arrive (b : Barrier) : Barrier :=
  if b.a + 1 = b.expected then { b with a := 0, ph := b.ph + 1 } else { b with a := b.a + 1 }
def Team.bar (t : Team) (b : Nat) : Barrier := vget t.bars b ⟨0, 0, 0⟩
/-- An arrival at a team's barrier. -/
def State.arriveBar (s : State) (k b : Nat) : State :=
  let t := s.teamOf k
  s.setTeamOf k { t with bars := vset t.bars b (t.bar b).arrive }

/-- The arrivals of ended copies are made once their counter has fallen for them (R273). One that meets an uninitialised barrier is not made: DESIGN CHOICE (log 73). -/
def State.payOwed (s : State) (k : Nat) : State :=
  let due := fun (o : Nat × Nat × Nat) => !(vget (s.hartOf (.group k o.1)).ledger kCopy []).any fun e => e.1 == o.2.1
  let t := s.teamOf k
  (t.owed.filter due).foldl (fun s o => if ((s.teamOf k).bar o.2.2).expected = 0 then s else s.arriveBar k o.2.2)
    (s.setTeamOf k { t with owed := t.owed.filter fun o => !due o })

/-! ## Synchronisation words (R277) -/

/-- A raise at the word's port, its loop included. -/
def Team.raiseWord (t : Team) (off n : Nat) : Team :=
  { t with mem := syncLoop (t.mem.write (off + 4) (leBytes 4 ((t.mem.nat (off + 4) 4 + n) % 2 ^ 32))) off }

/-- A raise reaches the team's port; one of a word in a bound fold's region is discarded and logged: DEDUCED (R310; log 75). -/
def State.raiseHere (s : State) (k off n : Nat) : State :=
  let t := s.teamOf k
  if s.inFold t.core k off 16 then s.logError .discarded 0 t.core t.asid 0 (BitVec.ofNat 64 off) else s.setTeamOf k (t.raiseWord off n)

/-- A raise of an engine, or for an absent team its packet in the ring (R273); the answer is false where the ring has no room. -/
def State.raiseSync (s : State) (k off n : Nat) : State × Bool :=
  if !s.away k then (s.raiseHere k off n, true)
  else match s.entryOf k with
    | none => (s, true)
    | some e => s.bounceTo e { pos := 0, off := off, src := .engine k, remote := none, op := .raise n } 0 10 0 (leBytes 4 n) []

/-! ## Engine faults (R272, R282) -/

/-- The engine fault record. -/
def faultWord (c : Cause) (template chan engine step : Nat) : Word64 :=
  BitVec.ofNat 64 (2 ^ 63 + c.code.toNat * 2 ^ 56 + template % 256 * 2 ^ 48 + chan % 32 * 2 ^ 43 + engine % 8 * 2 ^ 40 + step % 2 ^ 24)

/-- An engine reports a fault to the group that started it: the end of the group where its spill store failed (R199), else the record, and a boundary cause or, where the group has ended, a log entry. -/
def State.engineFault (s : State) (k g : Nat) (c : Cause) (rec : Word64) (addr : Word64) : State :=
  let i := HartId.group k g
  let h := s.hartOf i
  if c = .machineCheck ∧ h.live then s.spillLost k g addr
  else (s.setHartOf i { h with efr := rec }).addCause k g ⟨c, mark63 addr, none⟩

end Sys2Proof.Machine
end

