-- ==== Sys2Proof/Machine/Matrix.lean ====
section
/-! DEFINITION. Class 3, the matrix sequencer: operands and formats (R163, R166 to R169), issue (R170), rows in issue order (R172), adapters (R176 to R185), residue checks (R186), tiles in memory (R187 to R189), batches and barriers (R173, R190, R191), stream control (R192), stream state (R193), and the stream's events (R164, R192). -/

namespace Sys2Proof.Machine

/-! ## Stream registers and control -/

/-- A stream source (R163). -/
def Seq.src (q : Seq) : Src → Word64
  | .reg n => if n = 0 then 0 else vget q.q n.toNat 0
  | .const c => constS c
  | .latch _ => 0

/-- The sequencer past the n words of an instruction. -/
def Seq.retire (q : Seq) (n : Nat) : Seq :=
  match q.clause with
  | none => q
  | some c =>
    if c.idx + n ≤ c.count then { q with clause := some { c with idx := c.idx + n }, stalled := false }
    else { q with clause := none, spc := c.hdr + BitVec.ofNat 64 (4 * (c.count + 1)), stalled := false }
/-- The sequencer at the header of another clause. -/
def Seq.goto (q : Seq) (t : Word64) : Seq := { q with clause := none, spc := t, stalled := false }

/-- The focus team's sequencer. -/
def State.seq (s : State) : Seq := s.team.seq
def State.mapSeq (s : State) (f : Seq → Seq) : State := s.modSeq s.cur.team f
/-- The stream goes on after an instruction of n words. -/
def State.nextWord (s : State) (n : Nat) : State :=
  let t := s.team.forget 0
  s.setTeam { t with seq := t.seq.retire n }

/-- The target of a stream transfer, with the checks of R21. -/
def Seq.target (q : Seq) (d : Word32) : Res Word64 := do
  let h := match q.clause with | some c => c.hdr | none => q.spc
  let t := h + 4 * sx64 d
  need (t.extractLsb' 56 8 == 0 && decide ((t.extractLsb' 52 4).toNat < 12)) .accessViolation t
  need (t.toNat % 4 == 0) .misaligned t
  return t

/-- The classes of operand formats of R166. -/
inductive OpClass where
  | half | eight | four | int8 | int4 | planes (n : Nat)
deriving DecidableEq, Repr

/-- The class of a format code; FP32 and the reserved codes have none. -/
def opClass (c : Nat) : Option OpClass :=
  match c with
  | 1 | 2 => some .half
  | 3 | 4 | 5 | 6 | 0xA | 0xB | 0xC | 0xD | 0xF => some .eight
  | 7 | 0xE | 0x10 => some .four
  | 8 => some .int8
  | 9 => some .int4
  | 0x12 | 0x13 | 0x14 | 0x15 | 0x16 | 0x17 | 0x18 => some (.planes (c - 0x10))
  | _ => none

/-- The planes that a read of a format of n planes takes (R147). -/
def planesRead (x : Word64) (n : Nat) : Nat := if fmtPlanes x = 0 then n else Nat.min (fmtPlanes x) n

/-- The depth K of one instruction, and whether its operands are integers; none for a pair outside R166. -/
def pairDepth (x : Word64) : Option (Nat × Bool) :=
  match opClass (fmtA x), opClass (fmtB x) with
  | some .half, some .half => some (16, false)
  | some .eight, some .eight => some (32, false)
  | some .four, some .four => some (64, false)
  | some .int8, some .int8 => some (32, true)
  | some .int4, some .int4 => some (64, true)
  | some .int8, some (.planes n) =>
    let k := planesRead x n
    some (if k = 1 then 256 else if k = 2 then 128 else if k ≤ 4 then 64 else 32, true)
  | _, _ => none

/-- The check of an instruction's formats (R166); the depth. -/
def depthOf (x : Word64) : Res Nat :=
  match pairDepth x with
  | none => illegal
  | some (k, int) => if (fmtAcc x == 3) == int then .ok k else illegal

/-! ## Elements -/

/-- The width of a packed element of a format (R146). -/
def elemBits (c : Nat) : Nat :=
  match c with
  | 1 | 2 => 16
  | 5 | 6 | 0xC | 0xD => 6
  | 7 | 9 | 0xE | 0x10 => 4
  | _ => 8
/-- Is a format an MX format (R143)? -/
def codeMx (c : Nat) : Bool := decide (0xA ≤ c) && decide (c ≤ 0xF)

/-- A two's-complement integer of w bits as a value. -/
def intVal (w p : Nat) : FVal := .ofInt (valOf p w false)

/-- The value of an element's pattern before its MX scale (R141 to R144); `cb` is the visible codebook copy. -/
def elemVal (cb : BitVec 256) (c p : Nat) : FVal :=
  match c with
  | 1 => FF.f16.dec p
  | 2 => FF.bf16.dec p
  | 3 | 0xA => FF.e4m3.dec p
  | 4 | 0xB => FF.e5m2.dec p
  | 5 | 0xC => FF.e3m2.dec p
  | 6 | 0xD => FF.e2m3.dec p
  | 7 | 0xE => FF.e2m1.dec p
  | 8 => intVal 8 p
  | 9 => intVal 4 p
  | 0xF => (intVal 8 p).shift (-6)
  | 0x10 => FF.f16.dec (cb.toNat / 2 ^ (16 * p) % 65536)
  | _ => .nan

/-- A value under an E8M0 scale byte (R143). -/
def mxScale (x : Nat) (v : FVal) : FVal := if x = 0xFF then .nan else v.shift ((x : Int) - 127)

/-- Element d of packed bytes, with the scales of its row or column (R146, R143). -/
def packedVal (cb : BitVec 256) (c : Nat) (bs scales : List Byte) (d : Nat) : FVal :=
  let w := elemBits c
  let v := elemVal cb c (leNat bs / 2 ^ (w * d) % 2 ^ w)
  if codeMx c then mxScale (scales.getD (d / 32) 0).toNat v else v

/-- Element d of a bit-plane column of n planes of which k are read, most significant first, for a depth K (R145, R169). -/
def planeVal (n k K : Nat) (bs : List Byte) (d : Nat) : FVal :=
  let bit := fun (m : Nat) => if (bs.getD (m * (K / 8) + d / 8) 0).getLsbD (d % 8) then 2 ^ (n - 1 - m) else 0
  intVal n (sumNat ((List.range k).map bit))

/-! ## Operands (R167 to R169) -/

/-- The indices below n of the bits that are set. -/
def bitsOn (x n : Nat) : List Nat := (List.range n).filter fun i => x.testBit i
def maskRows (m : Word64) : List Nat := bitsOn m.toNat 16
def maskCols (m : Word64) : List Nat := bitsOn (m.toNat / 2 ^ 16) 16
def maskStride (m : Word64) : Nat := (m.extractLsb' 48 16).toNat
/-- The selected depths of an instruction of depth K. -/
def maskDepths (m : Word64) (K : Nat) : List Nat := (List.range K).filter fun d => m.getLsbD (32 + 16 * d / K)

/-- Bytes of the team's scratchpad for the stream (R168, R193). -/
def State.streamSpad (s : State) (off n : Nat) : Res (List Byte) := do
  let t := s.team
  need (decide (off + n ≤ t.spadBytes)) .accessViolation 0
  need (!t.markedAt off n) .poison 0
  return t.mem.read off n

/-- The A rows that an instruction reads: selected rows at selected depths (R168). -/
def State.rowsA (s : State) (base : Word64) (m : Word64) (x : Word64) (K : Nat) (cb : BitVec 256) : Res (List (Nat × List (Nat × FVal))) := do
  let c := fmtA x
  let stride := maskStride m
  need (base.toNat % 32 == 0 && stride % 32 == 0) .misaligned 0
  let rows := maskRows m
  let scales ← if codeMx c && !rows.isEmpty then s.streamSpad (base.toNat + 16 * stride) 32 else .ok []
  rows.mapM fun i => do
    let bs ← s.streamSpad (base.toNat + i * stride) (K * elemBits c / 8)
    return (i, (maskDepths m K).map fun d => (d, packedVal cb c bs ((scales.drop (2 * i)).take 2) d))

/-- A register of the group that a binding names (R169): an ended group faults, one that is not resident stalls the stream, an unheld slot faults. -/
def State.boundReg (s : State) (gid : BitVec 5) (r : Nat) : Res VWord := do
  let h := s.hartOf (.group s.cur.team gid.toNat)
  needOp h.live
  await (!h.evicted)
  need (h.held.getLsbD (r / 8)) .blockDenied (BitVec.ofNat 64 r)
  return vget h.v r 0

/-- The B columns that an instruction reads: selected columns at selected depths (R169). The elements of a column are packed as in memory, FP6 in 24 of the 32 bytes as FP4 in nibbles; R146 also says one byte for each element of a vector register, which FP4 at K = 64 cannot have: DESIGN CHOICE (log 66). -/
def State.colsB (s : State) (m : Word64) (l : MmaLit) (x : Word64) (K : Nat) (cb : BitVec 256) : Res (List (Nat × List FVal)) := do
  let c := fmtB x
  needOp (!(codeMx c && l.h))
  let cols := maskCols m
  let quarters ← ((List.range 4).filter fun p => cols.any fun j => j / 4 == p).mapM fun p => do
    let v ← s.boundReg (vget s.seq.binding p 0) l.breg.toNat
    return (p, leBytes 256 v.toNat)
  return cols.map fun j =>
    let bs := mget [] (j / 4) quarters
    let mine := (bs.drop ((if l.h then 128 else 0) + 32 * (j % 4))).take 32
    let scales := (bs.drop (128 + 2 * (j % 4))).take 2
    let one := fun (d : Nat) => match opClass c with
      | some (.planes n) => planeVal n (planesRead x n) K mine d
      | _ => packedVal cb c mine scales d
    (j, (maskDepths m K).map one)

/-- The visible copy of a codebook (R154). -/
def Team.codebook (t : Team) (n : Nat) : BitVec 256 := mget 0 (n, t.cbVisible.getLsbD n) t.cb

/-! ## Tiles -/

def Tile.fresh : Tile := ⟨[], [], [], none⟩
def Team.tile (t : Team) (i : Nat) : Tile := mget Tile.fresh i t.acc
def Team.setTile (t : Team) (i : Nat) (x : Tile) : Team := { t with acc := mset i x t.acc }
def Tile.at (t : Tile) (i j : Nat) : Word32 := mget 0 (16 * i + j) t.el
def Tile.rankAt (t : Tile) (i m : Nat) : Word32 := mget 0 (64 * i + m) t.rank
/-- A tile field names a tile of the team (R180) whose token the engine holds (R175). -/
def State.tileFree (s : State) (t : Nat) : Res Unit := do
  needOp (decide (t < s.team.accs))
  need (s.team.tile t).token.isNone .accToken (BitVec.ofNat 64 t)

/-- The value of an accumulator element under an accumulate format (R171). -/
def accVal (acc : Nat) (x : Word32) : FVal :=
  match acc with
  | 0 => FF.f32.dec x.toNat
  | 1 => FF.f16.dec (x.toNat % 65536)
  | 2 => FF.bf16.dec (x.toNat % 65536)
  | _ => .ofInt x.toInt
/-- The format of an accumulate format; none for INT32. -/
def accFF : Nat → Option FF
  | 0 => some .f32
  | 1 => some .f16
  | 2 => some .bf16
  | _ => none

/-- The word that a rounding in row i uses: drawn by generator i under SR (R162, R181). -/
def Seq.word (q : Seq) (rm i : Nat) : Nat × Seq :=
  if rm = rSR then
    let x := genNext (vget q.gens i 1)
    (x.toNat / 65536, { q with gens := vset q.gens i x })
  else (0, q)

/-- `Sat(Round(v, f), f)` under an `sfmt`, into a floating-point format or INT32, which wraps or is clamped (R159); every use draws under SR (R151). -/
def Seq.out (q : Seq) (sfmt : Word64) (f : Option FF) (i : Nat) (v : FVal) : Nat × Seq :=
  let m := modesOf sfmt
  match f with
  | some f => let (W, q) := q.word m.rm i; (fOf m.rm m.sm f W v, q)
  | none => (patOf (if m.sm = 1 then clampInt (intMin 32 false) (intMax 32 false) v.toInt else v.toInt) 32, (q.word m.rm i).2)

/-! ## Rows -/

/-- The tiles that a row reads or writes. -/
def IssuedRow.tiles (r : IssuedRow) : List Nat :=
  match r.op with
  | .seed _ => []
  | .fin src _ _ _ _ => [r.tile, src]
  | _ => [r.tile]

/-- The adapter segments that a row needs: adapter, up or down, and the segments (R178). -/
def IssuedRow.needs (r : IssuedRow) : Nat × Bool × List Nat :=
  match r.op with
  | .mma _ _ _ a seg K => (a, false, if a = 0 then [] else (List.range (K / 16)).map (seg + ·))
  | .fin _ _ a seg _ => (a, true, [seg])
  | _ => (0, false, [])

/-- The identifier of a tile's row once every issued row has taken effect (R181, R182). -/
def Team.ridIssued (t : Team) (tile i : Nat) : Nat :=
  t.seq.rows.foldl (fun rid r =>
    if r.row ≠ i then rid
    else match r.op with
      | .mma _ _ _ a _ _ => if r.tile = tile ∧ a ≠ 0 then a else rid
      | .fin src _ _ _ clr => if src = tile ∧ clr then 0 else rid
      | .zero => if r.tile = tile then 0 else rid
      | _ => rid) (mget 0 i (t.tile tile).rid).toNat

/-- The cached segment of a team's adapter. -/
def Core.seg (c : Core) (k a : Nat) (up : Bool) (n : Nat) : Option AdpSeg :=
  c.segs.find? fun g => g.team == k && g.adapter == a && g.up == up && g.seg == n
def Core.dir (c : Core) (k a : Nat) : Option AdpDir := c.dirs.find? fun d => d.team == k && d.adapter == a

/-- Are the directory entry and the segments that a row needs present? -/
def Core.holds (c : Core) (k : Nat) (r : IssuedRow) : Bool :=
  let (a, up, ns) := r.needs
  a == 0 || ((c.dir k a).isSome && ns.all fun n => (c.seg k a up n).isSome)

/-- The entries that issued and queued rows of a core's teams need: team, adapter, kind and segment (R177). -/
def State.pinned (s : State) (core : Nat) : List (Nat × Nat × Bool × Nat) :=
  (s.teams.flatMap fun (k, t) => if t.core != core then [] else t.seq.rows.flatMap fun r =>
    let (a, up, ns) := r.needs
    if a = 0 then [] else ns.map fun n => (k, a, up, n)).eraseDups
/-- Does an issued row of a team need a segment: is its entry pinned? -/
def State.segPinned (s : State) (team adapter : Nat) (up : Bool) (seg : Nat) : Bool :=
  (s.teamOf team).seq.rows.any fun r =>
    let (a, u, ns) := r.needs
    a == adapter && a != 0 && u == up && decide (seg ∈ ns)

/-- Room for one more fill among the 128 entries, those being filled counted: a free one, or that of the least recently used segment that no row needs (R177). -/
def State.segRoom (s : State) (c : Core) : Option Core :=
  if c.segs.length + (c.fetches.filter (·.room)).length < 128 then some c
  else (c.segs.find? fun g => !s.segPinned g.team g.adapter g.up g.seg).map fun g => { c with segs := c.segs.erase g }

/-- Is a segment being fetched? -/
def Core.fetching (c : Core) (k a : Nat) (up : Bool) (n : Nat) : Bool :=
  c.fetches.any fun f => f.team == k && f.adapter == a && f.up == up && f.seg == n

/-- Begins the fetches of segments that are neither present nor being fetched (R178, R195); those present have been used. Where no entry can be had, a fetch for a row waits and one of ADPLD is dropped (R177). -/
def State.fetchSegs (s : State) (core k a : Nat) (up : Bool) (ns : List Nat) (row : Bool) : State :=
  ns.foldl (fun s n =>
    let c := s.coreOf core
    match c.seg k a up n with
    | some g => s.setCoreOf core { c with segs := c.segs.erase g ++ [g] }
    | none =>
      if c.fetching k a up n then s
      else match s.segRoom c with
        | some c => s.setCoreOf core { c with fetches := c.fetches ++ [⟨k, a, up, n, true⟩] }
        | none => if row then s.setCoreOf core { c with fetches := c.fetches ++ [⟨k, a, up, n, false⟩] } else s) s

/-- Issues the rows of an instruction: an adapter row whose segments miss, or that finds a queued row of its tiles and row index, joins the replay queue (R178). -/
def State.issueRows (s : State) (rows : List IssuedRow) : State :=
  rows.foldl (fun s r =>
    let t := s.team
    let (a, up, ns) := r.needs
    let behind := t.seq.rows.any fun q => q.queued && q.row == r.row && q.tiles.any fun x => decide (x ∈ r.tiles)
    let queued := a != 0 && (!(s.coreOf t.core).holds s.cur.team r || behind)
    let q := t.seq
    let q := { q with rows := q.rows ++ [{ r with queued := queued }], members := if a = 0 then q.members else q.members ++ [a] }
    let s := s.setTeam { t with seq := q }
    if a = 0 then s else s.fetchSegs t.core s.cur.team a up ns true) s

/-- Rows issue only where the entries that are then pinned are at most 96 (R177). -/
def State.pinRoom (s : State) (rows : List IssuedRow) : Res Unit :=
  let new := rows.flatMap fun r => let (a, up, ns) := r.needs; if a = 0 then [] else ns.map fun n => (s.cur.team, a, up, n)
  await (decide ((s.pinned s.team.core ++ new).eraseDups.length ≤ 96))

/-- The focus's core has issued a product for its team (R170). -/
def State.tookProduct (s : State) : State := s.setCoreOf s.team.core { s.coreOf s.team.core with lastSeq := s.cur.team }

/-- A row of the instruction at the sequencer's word. -/
def Seq.rowAt (q : Seq) (tile i : Nat) (op : RowOp) : IssuedRow :=
  { tile := tile, row := i, op := op, sfmt := q.sfmt, addr := q.wordAddr, batch := none, queued := false }

/-- An adapter instruction issues only with 16 of the 24 queue entries free (R178). -/
def Seq.roomFor (q : Seq) : Res Unit := await (decide ((q.rows.filter (·.queued)).length ≤ 8))

/-- MMA and MMA.ADP (R181). The codebook copy is the one visible at issue; R157 allows either copy where no barrier lies between: DESIGN CHOICE (log 66). -/
def State.issueMma (s : State) (d : BitVec 6) (a b : Src) (l : MmaLit) (adp : Bool) : Out :=
  s.finishSeq do
    let q := s.seq
    let x := q.sfmt
    let T := d.toNat
    needOp (decide (T < s.team.accs))
    let K ← depthOf x
    needOp (!(adp && fmtAcc x == 3))
    s.tileFree T
    if adp then q.roomFor
    let base := q.src a
    let m := q.src b
    let cb := s.team.codebook (fmtCb x)
    let A ← s.rowsA base m x K cb
    let B ← s.colsB m l x K cb
    let ids ← if adp then s.boundReg (vget q.binding 0 0) l.idreg.toNat else .ok 0
    let id := fun (i : Nat) => ids.toNat / 2 ^ (16 * i) % 4096
    needOp (A.all fun (r : Nat × List (Nat × FVal)) =>
      let old := s.team.ridIssued T r.1
      id r.1 == 0 || old == 0 || old == id r.1)
    let rows := A.map fun (r : Nat × List (Nat × FVal)) => q.rowAt T r.1 (.mma l.z r.2 B (id r.1) l.seg.toNat K)
    s.pinRoom rows
    return (s.issueRows rows).tookProduct.nextWord 2

def execMma (d : BitVec 6) (a b : Src) (l : MmaLit) (s : State) : Out := s.issueMma d a b l false
def execMmaAdp (d : BitVec 6) (a b : Src) (l : MmaLit) (s : State) : Out := s.issueMma d a b l true

/-- ADPFIN (R182). -/
def execAdpfin (d : BitVec 6) (b : Src) (l : FinLit) (s : State) : Out :=
  s.finishSeq do
    let q := s.seq
    let T := d.toNat
    let S := l.src.toNat
    needOp (decide (T < s.team.accs) && decide (S < s.team.accs))
    needOp (fmtAcc q.sfmt != 3)
    s.tileFree T
    s.tileFree S
    q.roomFor
    let m := q.src b
    let row := fun (i : Nat) =>
      let a := s.team.ridIssued S i
      if a = 0 then none else some (q.rowAt T i (.fin S (maskCols m) a l.seg.toNat l.clr))
    let rows := (maskRows m).filterMap row
    s.pinRoom rows
    return (s.issueRows rows).nextWord 2

/-- MZERO (R187). -/
def execMzero (d : BitVec 6) (s : State) : Out :=
  s.finishSeq do
    s.tileFree d.toNat
    return (s.issueRows ((List.range 16).map fun i => s.seq.rowAt d.toNat i .zero)).nextWord 1

/-! ## Tiles and memory (R188, R189) -/

/-- The places of the selected elements of a tile in memory. -/
def State.tilePlaces (s : State) (a b : Src) (f : BitVec 2) (l : MemM) (acc : Access) : Res (List (Nat × Nat × Place × Word64)) := do
  let q := s.seq
  needOp (f != 3 && l.space != .p && !(f != 0 && fmtAcc q.sfmt == 3))
  let w := if f = 0 then 4 else 2
  let m := q.src b
  let e := q.src a + sx64 l.off
  let base ← match l.space with
    | .g => .ok e
    | _ => if e.toNat < 2 ^ 20 then .ok (0x00D0000000000000 + e) else raise .accessViolation e
  let cells := (maskRows m).flatMap fun i => (maskCols m).map fun j => (i, j)
  cells.mapM fun (ij : Nat × Nat) => do
    let va := base + BitVec.ofNat 64 (ij.1 * maskStride m + ij.2 * w)
    need (va.toNat % w == 0) .misaligned va
    match s.engPlace (streamAgt s.cur.team) acc va w with
    | .error c => raise c va
    | .ok p => return (ij.1, ij.2, p, va)

/-- Reads the elements of a tile in memory for MLDACC or an add-on-store: poisoned data and EMPTY result rows fault, a row of a running job and data still to come stall the stream (R188, R302). -/
def State.tileRead (s : State) (w : Nat) : List (Nat × Nat × Place × Word64) → Res (List (Nat × Nat × Nat))
  | [] => .ok []
  | (i, j, p, va) :: rest =>
    match s.engRead (streamAgt s.cur.team) p w with
    | .fail c => raise c va
    | .wait => .error .stall
    | .ask d x =>
      match s.tileRead w rest with
      | .error (.ask rs) => .error (.ask ((d, x) :: rs))
      | .error e => .error e
      | .ok _ => .error (.ask [(d, x)])
    | .data bs bad =>
      if bad then raise .poison va
      else (s.tileRead w rest).map ((i, j, leNat bs) :: ·)

/-- The element format of MLDACC and MDRAIN; none is the held format of INT32. -/
def elemFF (f : BitVec 2) (acc : Nat) : Option FF :=
  if f = 1 then some .f16 else if f = 2 then some .bf16 else accFF acc
/-- The value of an element in memory. -/
def memVal (f : BitVec 2) (acc x : Nat) : FVal :=
  if f = 1 then FF.f16.dec x else if f = 2 then FF.bf16.dec x else accVal acc (BitVec.ofNat 32 x)

/-- MLDACC: its reads are made as it issues. -/
def execMldacc (d : BitVec 6) (a b : Src) (f : BitVec 2) (l : MemM) (s : State) : Out :=
  s.finishSeq do
    needOp (decide (d.toNat < s.team.accs))
    needOp (f != 3 && l.space != .p && !(f != 0 && fmtAcc s.seq.sfmt == 3))
    s.tileFree d.toNat
    let ps ← s.tilePlaces a b f l .read
    let xs ← s.tileRead (if f = 0 then 4 else 2) ps
    let row := fun (i : Nat) =>
      s.seq.rowAt d.toNat i (.load ((xs.filter fun (x : Nat × Nat × Nat) => x.1 == i).map fun x => (x.2.1, x.2.2)) f)
    return (s.issueRows ((maskRows (s.seq.src b)).map row)).nextWord 2

/-- Is a target the allocation of an absent team? Its port applies an add-on-store when the team is back: DEDUCED (log 28). -/
def State.portAway (s : State) (t : Tgt) : Bool :=
  match t with
  | .spad k _ => s.away k
  | .win c o asid => match s.winPlace c o asid with | .absent _ _ => true | _ => false
  | _ => false

/-- The one indivisible update of an add-on-store (R189), element by element in row order; refusals and unreachable devices are found before. -/
def State.addOnStore (s : State) (d : Nat) (f : BitVec 2) (ps : List (Nat × Nat × Place × Word64)) (xs : List (Nat × Nat × Nat)) : EngWrite :=
  let w := if f = 0 then 4 else 2
  let x := s.seq.sfmt
  let step := fun (r : EngWrite) (e : (Nat × Nat × Place × Word64) × (Nat × Nat × Nat)) =>
    let t := (r.s.teamOf s.cur.team).tile d
    let now := match r.s.engRead (streamAgt s.cur.team) e.1.2.2.1 w with | .data bs _ => leNat bs | _ => e.2.2.2
    let old := memVal f (fmtAcc x) now
    let v := sumF (modesOf x).rm [old, accVal (fmtAcc x) (t.at e.1.1 e.1.2.1)]
    let (y, q) := (r.s.teamOf s.cur.team).seq.out x (elemFF f (fmtAcc x)) e.1.1 v
    ({ r with s := r.s.modSeq s.cur.team fun _ => q }).piece (streamAgt s.cur.team) e.1.2.2.1.tgt (leBytes w y) false
  (ps.zip xs).foldl step ⟨s, false, false, false⟩

/-- MDRAIN: a plain one stores each row as the row is committed; an add-on-store waits for the rows issued before it and is applied at once (R188, R189). -/
def execMdrain (d : BitVec 6) (a b : Src) (f : BitVec 2) (add : Bool) (l : MemM) (s : State) : Out :=
  s.finishSeq do
    needOp (decide (d.toNat < s.team.accs))
    needOp (f != 3 && l.space != .p && !(f != 0 && fmtAcc s.seq.sfmt == 3))
    s.tileFree d.toNat
    let ps ← s.tilePlaces a b f l .write
    if add then
      await (s.seq.rows.isEmpty && !ps.any fun p => s.portAway p.2.2.1.tgt)
      let xs ← s.tileRead (if f = 0 then 4 else 2) ps
      let r := s.addOnStore d.toNat f ps xs
      need (!r.refused) .accessViolation 0
      need (!r.dead) .peerKilled 0
      return if r.full then (s.keepRingLogs r.s).modSeq s.cur.team fun q => { q with stalled := true } else r.s.nextWord 2
    else
      let row := fun (i : Nat) =>
        s.seq.rowAt d.toNat i (.drain ((ps.filter fun (p : Nat × Nat × Place × Word64) => p.1 == i).map fun p => (p.2.1, p.2.2.1.tgt)) f)
      return (s.issueRows ((maskRows (s.seq.src b)).map row)).nextWord 2

/-! ## Batches and barriers (R173, R190, R191) -/

/-- MFENCE: the members issued since the last one become batch n, which the selected groups count; an eviction of the team stops the stream here (R371). -/
def execMfence (a : Src) (n : BitVec 4) (s : State) : Out :=
  s.finishSeq do
    let q := s.seq
    await (!q.batches.any fun b => b.n == n.toNat)
    let gs := (s.liveGids s.cur.team).filter fun g => (q.src a).getLsbD g
    await (gs.all fun g => decide ((s.hartOf (.group s.cur.team g)).counter kMat < 65535))
    let uid := q.nextBatch
    let close := fun (r : IssuedRow) => match r.op, r.batch with
      | .seed _, _ => r
      | _, none => { r with batch := some uid }
      | _, _ => r
    let groups : Word32 := BitVec.ofNat 32 (sumNat (gs.map fun g => 2 ^ g))
    let s := s.mapSeq fun q => { q with rows := q.rows.map close, batches := q.batches ++ [⟨uid, n.toNat, groups, q.members⟩],
                                        nextBatch := uid + 1, members := [] }
    let s := gs.foldl (fun s g => let i := HartId.group s.cur.team g; s.setHartOf i ((s.hartOf i).raiseCtr kMat uid)) s
    return (s.mapSeq fun q => { q with stopAsked := q.stopAsked || q.evictAsked }).nextWord 1

/-- Makes the sequencer's arrivals that wait for no batch, in stream order at each barrier; the others stay pending (R191). -/
def State.makeArrivals (s : State) (k : Nat) (as : List MArrive) : State :=
  as.foldl (fun s a =>
    if a.batches.isEmpty && !(s.teamOf k).seq.arrivals.any (fun b => b.barrier == a.barrier) then
      let ph := ((s.teamOf k).bar a.barrier).ph
      (s.arriveBar k a.barrier).modSeq k fun q => { q with joined := vset q.joined a.barrier (some ph) }
    else s.modSeq k fun q => { q with arrivals := q.arrivals ++ [a] }) (s.modSeq k fun q => { q with arrivals := [] })

/-- MBARA (R191): `.i` arrives now, `.c` when every batch closed by an earlier MFENCE has closed. -/
def execMbara (j : Bool) (n : BitVec 4) (s : State) : Out :=
  s.finishSeq do
    need ((s.team.bar n.toNat).cfg.getLsbD 6) .barrierMisuse 0
    let q := s.seq
    let a : MArrive := ⟨n.toNat, if j then q.batches.map (·.uid) else []⟩
    return (s.makeArrivals s.cur.team (q.arrivals ++ [a])).nextWord 1

/-- MBARW (R191). -/
def execMbarw (n : BitVec 4) (s : State) : Out :=
  let q := s.seq
  let b := n.toNat
  if q.arrivals.any fun a => a.barrier == b then s.finishSeq (.error .stall)
  else
    let now := (s.team.bar b).ph
    let p := (vget q.joined b none).getD (q.awaits.getD now)
    if p = now then s.finishSeq (.ok ((s.seqStopped s.cur.team .stall).mapSeq fun q => { q with awaits := some p }))
    else s.finishSeq (.ok ((s.mapSeq fun q => { q with awaits := none }).nextWord 1))

/-! ## Stream control (R192) and stream state (R193) -/

def execMloop (d : BitVec 6) (l : Word32) (s : State) : Out :=
  s.finishSeq do
    let q := s.seq
    let x := vget q.q d.toNat 0 - 1
    let keep := fun (q : Seq) => { q with q := vset q.q d.toNat x }
    if x = 0 then return (s.mapSeq keep).nextWord 2
    else
      let t ← q.target l
      return s.mapSeq fun q => (keep q).goto t

def execMjmp (l : Word32) (s : State) : Out :=
  s.finishSeq do
    let t ← s.seq.target l
    return s.mapSeq fun q => q.goto t

/-- Has everything that the stream issued completed, and every batch closed? -/
def Team.streamIdle (t : Team) : Bool := t.seq.rows.isEmpty && t.seq.batches.isEmpty && t.seq.arrivals.isEmpty && t.settled 0

/-- MEND: the sequencer stops once everything issued has completed. -/
def execMend (s : State) : Out :=
  s.finishSeq do
    await s.team.streamIdle
    return (s.mapSeq fun q => { q with st := .stopped, clause := none }).releaseTeam s.cur.team

def execMnop (s : State) : Out := s.finishSeq (.ok (s.nextWord 1))

/-- A write of a stream register. -/
def Seq.setQ (q : Seq) (d : BitVec 6) (x : Word64) : Seq := { q with q := vset q.q d.toNat x }

def execMsetbAdd (d : BitVec 6) (a b : Src) (s : State) : Out :=
  s.finishSeq (.ok ((s.mapSeq fun q => q.setQ d (q.src a + q.src b)).nextWord 1))
def execMsetbLd (d : BitVec 6) (a b : Src) (s : State) : Out :=
  s.finishSeq do
    let off := (s.seq.src a + s.seq.src b).toNat
    need (off % 8 == 0) .misaligned 0
    let bs ← s.streamSpad off 8
    return (s.mapSeq fun q => q.setQ d (bytesToBits 64 bs)).nextWord 1
def execMsetbFmt (a : Src) (s : State) : Out :=
  s.finishSeq do
    needOp (fmtLegal (s.seq.src a))
    return (s.mapSeq fun q => { q with sfmt := fmtKept (q.src a) }).nextWord 1
/-- MSETB.seed sets the generators behind the draws of the rows issued before it. -/
def execMsetbSeed (a : Src) (s : State) : Out :=
  let q := s.seq
  s.finishSeq (.ok ((s.issueRows ((List.range 16).map fun i => q.rowAt 0 i (.seed (vget (seeded (q.src a)) i 1)))).nextWord 1))
/-- MSETB.bind; the spec names no cause for other bits that are set, and the model takes ILLEGAL_OP: DESIGN CHOICE (log 66). -/
def execMsetbBind (a : Src) (s : State) : Out :=
  s.finishSeq do
    let x := s.seq.src a
    needOp (x &&& 0xFFFFFFFFE0E0E0E0 == 0)
    return (s.mapSeq fun q => { q with binding := Vector.ofFn fun p : Fin 4 => x.extractLsb' (8 * p.val) 5 }).nextWord 1
/-- MSETB.adir; the spec names no cause for an operand outside its limits, and the model takes ILLEGAL_OP: DESIGN CHOICE (log 66). -/
def execMsetbAdir (a : Src) (s : State) : Out :=
  s.finishSeq do
    let x := s.seq.src a
    needOp (x.toNat % 32 == 0 && x.extractLsb' 56 8 == 0)
    return (s.mapSeq fun q => { q with adir := x }).nextWord 1

/-! ## Adapters (R184, R185) -/

/-- ADPLD begins fetches and never waits. -/
def execAdpld (a : Src) (l : AdpLit) (s : State) : Out :=
  s.finishSeq do
    needOp (decide (1 ≤ l.count.toNat) && decide (l.count.toNat ≤ 64))
    let x := (s.seq.src a).toNat % 4096
    let s' := if x = 0 then s else s.fetchSegs s.team.core s.cur.team x l.up ((List.range l.count.toNat).map (l.seg.toNat + ·)) false
    return s'.nextWord 2

/-- ADPINV waits until no member that is not yet fenced and no open batch refers to the adapter, and then drops its entries and its fetches. -/
def execAdpinv (a : Src) (s : State) : Out :=
  s.finishSeq do
    let x := (s.seq.src a).toNat
    needOp (decide (x < 4096))
    if x = 0 then return s.nextWord 1
    await (!decide (x ∈ s.seq.members) && s.seq.batches.all fun b => !decide (x ∈ b.adapters))
    let core := s.team.core
    let c := s.coreOf core
    let k := s.cur.team
    let c := { c with segs := c.segs.filter fun g => !(g.team == k && g.adapter == x),
                      dirs := c.dirs.filter fun d => !(d.team == k && d.adapter == x),
                      fetches := c.fetches.filter fun f => !(f.team == k && f.adapter == x) }
    return (s.setCoreOf core c).nextWord 1

/-! ## Committing a row -/

/-- One product sum of R181, rounded into the element. -/
def mmaElem (sfmt : Word64) (z : Bool) (a : List (Nat × FVal)) (i j : Nat) (b : List FVal) (r : Tile × Seq) : Tile × Seq :=
  let acc := fmtAcc sfmt
  let old : FVal := if z then .fin false 0 0 false else accVal acc (r.1.at i j)
  let terms := old :: ((a.map (·.2)).zip b).map fun p => p.1.mul p.2
  let (y, q) := r.2.out sfmt (accFF acc) i (sumF (modesOf sfmt).rm terms)
  ({ r.1 with el := mset (16 * i + j) (BitVec.ofNat 32 y) r.1.el }, q)

/-- Byte 64d + m of a down segment, or 16m + c of an up segment, as an E4M3 value; rows and columns from the rank on are zero (R176). -/
def segVal (bs : List Byte) (rank m i : Nat) : FVal := if m < rank then FF.e4m3.dec (bs.getD i 0).toNat else .fin false 0 0 false

/-- The rank update of MMA.ADP (R181): a rounded value that FP32 cannot hold saturates as IEEE gives. -/
def rankRow (t : Tile) (i rank : Nat) (segs : List (List Byte)) (a : List (Nat × FVal)) : Tile :=
  (List.range 64).foldl (fun (t : Tile) m =>
    let terms := FF.f32.dec (t.rankAt i m).toNat :: a.map fun (x : Nat × FVal) =>
      x.2.mul (segVal (segs.getD (x.1 / 16) []) rank m (64 * (x.1 % 16) + m))
    { t with rank := mset (64 * i + m) (BitVec.ofNat 32 (fOf rNE 0 .f32 0 (sumF rNE terms))) t.rank }) t

/-- The sum of ADPFIN at one element (R182). -/
def finElem (sfmt : Word64) (src : Tile) (i : Nat) (alpha : Word32) (rank : Nat) (up : List Byte) (j : Nat) (r : Tile × Seq) : Tile × Seq :=
  let acc := fmtAcc sfmt
  let rm := (modesOf sfmt).rm
  let corr := sumF rm ((List.range 64).map fun m =>
    (FF.f32.dec (src.rankAt i m).toNat).mul (segVal up rank m (16 * m + j)))
  let v := sumF rm [accVal acc (r.1.at i j), (FF.f32.dec alpha.toNat).mul corr]
  let (y, q) := r.2.out sfmt (accFF acc) i v
  ({ r.1 with el := mset (16 * i + j) (BitVec.ofNat 32 y) r.1.el }, q)

/-- A tile with a row's rank vector and identifier cleared. -/
def Tile.clearRank (t : Tile) (i : Nat) : Tile :=
  { t with rid := mset i 0 t.rid, rank := (List.range 64).foldl (fun m k => mset (64 * i + k) 0 m) t.rank }

/-- The stores of a drained row: the state after them, and how they went. -/
def State.drainRow (s : State) (k : Nat) (r : IssuedRow) (cells : List (Nat × Tgt)) (f : BitVec 2) : EngWrite :=
  let acc := fmtAcc r.sfmt
  let step := fun (w : EngWrite) (c : Nat × Tgt) =>
    let t := w.s.teamOf k
    let (y, q) := t.seq.out r.sfmt (elemFF f acc) r.row (accVal acc ((t.tile r.tile).at r.row c.1))
    ({ w with s := w.s.modSeq k fun _ => q }).piece (streamAgt k) c.2 (leBytes (if f = 0 then 4 else 2) y) false
  cells.foldl step ⟨s, false, false, false⟩

/-- A fault that is detected after issue: issuing stops at the next instruction (R164, R186). -/
def State.lateFault (s : State) (k : Nat) (c : Cause) (addr : Word64) : State :=
  s.modSeq k fun q => { q with fault := q.fault <|> some (c, addr) }

/-- The effect of a row on the state that no longer holds it; an error, with how far it came, where a ring has no room for a drained row. -/
def State.commitRow (s : State) (k : Nat) (r : IssuedRow) : Except State State :=
  let t := s.teamOf k
  let c := s.coreOf t.core
  let T := t.tile r.tile
  let put := fun (x : Tile × Seq) => .ok (s.setTeamOf k { t.setTile r.tile x.1 with seq := x.2 })
  match r.op with
  | .mma z a b ad seg K =>
    let x := b.foldl (fun x (j : Nat × List FVal) => mmaElem r.sfmt z a r.row j.1 j.2 x) (T, t.seq)
    if ad = 0 then put x
    else
      let segs := (List.range (K / 16)).map fun n => ((c.seg k ad false (seg + n)).map AdpSeg.bytes).getD []
      let rank := ((c.dir k ad).map AdpDir.rank).getD 0
      put ({ rankRow x.1 r.row rank segs a with rid := mset r.row (BitVec.ofNat 12 ad) x.1.rid }, x.2)
  | .fin src cols ad seg clr =>
    let up := ((c.seg k ad true seg).map AdpSeg.bytes).getD []
    let d := (c.dir k ad).getD default
    let x := cols.foldl (fun x j => finElem r.sfmt (t.tile src) r.row d.alpha d.rank up j x) (T, t.seq)
    let t := { t.setTile r.tile x.1 with seq := x.2 }
    .ok (s.setTeamOf k (if clr then t.setTile src ((t.tile src).clearRank r.row) else t))
  | .zero =>
    put ({ T.clearRank r.row with el := (List.range 16).foldl (fun m j => mset (16 * r.row + j) 0 m) T.el }, t.seq)
  | .load cells f =>
    let acc := fmtAcc r.sfmt
    let step := fun (x : Tile × Seq) (e : Nat × Nat) =>
      let (y, q) := x.2.out r.sfmt (accFF acc) r.row (memVal f acc e.2)
      ({ x.1 with el := mset (16 * r.row + e.1) (BitVec.ofNat 32 y) x.1.el }, q)
    put (cells.foldl step (T, t.seq))
  | .drain cells f =>
    let w := s.drainRow k r cells f
    if w.full then .error w.s
    else
      let s := if w.refused then w.s.lateFault k .accessViolation r.addr else w.s
      .ok (if w.dead then s.lateFault k .peerKilled r.addr else s)
  | .seed x => put (T, { t.seq with gens := vset t.seq.gens r.row x })

/-- Takes row number n out of the issued rows. -/
def State.takeRow (s : State) (k n : Nat) : State := s.modSeq k fun q => { q with rows := removeAt n q.rows }

/-- The number of the first row that may be committed: not queued, with no earlier row of its index (R172). -/
def Seq.firstFree (q : Seq) : Option Nat :=
  (List.range q.rows.length).find? fun n => match q.rows[n]? with
    | none => false
    | some r => !r.queued && !(q.rows.take n).any fun e => e.row == r.row

/-- A row of products is checked by its residue before it is committed (R186): up to two recomputations, else the row is not written and the stream faults. -/
def State.checkedCommit (s : State) (k n mismatches : Nat) (r : IssuedRow) : State :=
  let checked := match r.op with | .mma _ _ _ _ _ _ => true | .fin _ _ _ _ _ => true | _ => false
  let t := s.teamOf k
  let s' := s.takeRow k n
  if checked && decide (3 ≤ mismatches) then
    (s'.logError .machineCheck Cause.machineCheck.code t.core t.asid 0 r.addr).lateFault k .machineCheck r.addr
  else match s'.commitRow k r with
    | .error u => s.keepRingLogs u
    | .ok u => if checked && mismatches != 0 then u.logError .corrected 0 t.core t.asid 0 r.addr else u

/-- MMA_ROW_COMMIT: the next row takes its effect. -/
def execMmaRowCommit (team mismatches : Nat) (s : State) : Out :=
  let q := (s.teamOf team).seq
  match q.firstFree with
  | none => .next s
  | some n => match q.rows[n]? with
    | none => .next s
    | some r => .next (s.checkedCommit team n mismatches r)

/-- ADAPTER_ROW_REPLAY: the first queued row, once its segments are present and no earlier row of its index is left (R178); how often its residue mismatches is taken from the choices. -/
def execAdapterRowReplay (team : Nat) (s : State) : Out :=
  let t := s.teamOf team
  let q := t.seq
  match (List.range q.rows.length).find? fun n => ((q.rows[n]?).map IssuedRow.queued).getD false with
  | none => .next s
  | some n => match q.rows[n]? with
    | none => .next s
    | some r =>
      if !(s.coreOf t.core).holds team r || (q.rows.take n).any (fun e => e.row == r.row) then .next s
      else .next (s.chosen.checkedCommit team n s.choice r)

/-! ## Filling the adapter cache (R176, R177) -/

/-- Reads bytes of global memory for a fetch of the adapter cache. -/
def State.adapterRead (s : State) (f : AdpFetch) (va : Word64) (n : Nat) : EngRead :=
  match s.engRow (adapterAgt f) .read 12 va n with
  | .error c => .fail c
  | .ok ps => match s.engReadRow (adapterAgt f) ps with
    | .data _ true => .fail .poison
    | r => r

/-- The directory entry in 32 bytes, none where it is not valid or breaks a limit (R176). -/
def dirOf (team adapter : Nat) (bs : List Byte) : Option AdpDir :=
  let f := fun (i n : Nat) => leNat ((bs.drop i).take n)
  if f 20 1 = 0 ∨ 64 < f 20 1 ∨ f 21 1 ≠ 1 ∨ f 0 8 % 64 ≠ 0 ∨ f 8 8 % 64 ≠ 0 then none
  else some ⟨team, adapter, BitVec.ofNat 64 (f 0 8), BitVec.ofNat 64 (f 8 8), BitVec.ofNat 32 (f 16 4), f 20 1⟩

/-- A fetch fails: the rows that wait for it are not written and the stream faults (R178); one that no row needs is dropped (R185). -/
def State.fetchFails (s : State) (core : Nat) (f : AdpFetch) (whole : Bool) (c : Cause) : State :=
  let x := s.coreOf core
  let same := fun (g : AdpFetch) => if whole then g.team == f.team && g.adapter == f.adapter else g == f
  let s := s.setCoreOf core { x with fetches := x.fetches.filter fun g => !same g }
  let hit := fun (r : IssuedRow) =>
    let (a, u, ns) := r.needs
    r.queued && a == f.adapter && (whole || (u == f.up && decide (f.seg ∈ ns)))
  match (s.teamOf f.team).seq.rows.find? hit with
  | none => s
  | some r => (s.modSeq f.team fun q => { q with rows := q.rows.filter fun r => !hit r }).lateFault f.team c r.addr

/-- A fetch that waits for an entry of the cache takes one, or is dropped where no row needs it any more (R177). -/
def State.takeRoom (s : State) (core : Nat) (f : AdpFetch) : State :=
  let x := s.coreOf core
  match s.segRoom x with
  | some c => s.setCoreOf core { c with fetches := c.fetches.map fun g => if g = f then { f with room := true } else g }
  | none => if s.segPinned f.team f.adapter f.up f.seg then s else s.setCoreOf core { x with fetches := x.fetches.erase f }

/-- A fetch goes on: an entry of the cache, its directory entry, then its segment; data of another device is asked for. -/
def State.fetchStep (s : State) (core : Nat) (f : AdpFetch) : State :=
  let t := s.teamOf f.team
  let x := s.coreOf core
  let read := fun (va : Word64) (n : Nat) (whole : Bool) (k : State → List Byte → State) =>
    match s.adapterRead f va n with
    | .fail c => (s.setTeamOf f.team (t.forget f.key)).fetchFails core f whole c
    | .wait => s
    | .ask d a => s.askEngine f.team f.key [(d, a)]
    | .data bs _ => k (s.setTeamOf f.team (t.forget f.key)) bs
  if !f.room then s.takeRoom core f
  else match x.dir f.team f.adapter with
  | none =>
    if t.seq.adir = 0 then s.fetchFails core f true .dataCheck
    else read (t.seq.adir + BitVec.ofNat 64 (32 * f.adapter)) 32 true fun s bs =>
      match dirOf f.team f.adapter bs with
      | none => s.fetchFails core f true .dataCheck
      | some d => s.setCoreOf core { x with dirs := x.dirs ++ [d] }
  | some d =>
    read ((if f.up then d.up else d.down) + BitVec.ofNat 64 (1024 * f.seg)) 1024 false fun s' bs =>
      s'.setCoreOf core { x with fetches := x.fetches.erase f, segs := x.segs ++ [⟨f.team, f.adapter, f.up, f.seg, bs⟩] }

/-- The first fetch of a core that a team's queued rows wait for, in queue order (R178). -/
def State.firstFetch (s : State) (core k : Nat) : Option AdpFetch :=
  ((s.teamOf k).seq.rows.filter (·.queued)).findSome? fun r =>
    let (a, up, ns) := r.needs
    ns.findSome? fun n => (s.coreOf core).fetches.find? fun f => f.team == k && f.adapter == a && f.up == up && f.seg == n
/-- Does a queued row wait for a fetch? -/
def State.rowWaits (s : State) (f : AdpFetch) : Bool :=
  (s.teamOf f.team).seq.rows.any fun r => let (a, up, ns) := r.needs; r.queued && a == f.adapter && up == f.up && decide (f.seg ∈ ns)

/-- ADAPTER_SEGMENT_FILL: one of the core's fetches, as the choices say, goes a step further; those that queued rows wait for go in queue order. -/
def execAdapterSegmentFill (core : Nat) (s : State) : Out :=
  let fs := (s.coreOf core).fetches.filter fun f => !s.rowWaits f || s.firstFetch core f.team == some f
  match fs[s.choice % Nat.max 1 fs.length]? with
  | none => .next s
  | some f => .next (s.chosen.fetchStep core f)

/-! ## Batches close, streams stop -/

/-- BATCH_CLOSE: the oldest batch closes once its members are complete; its groups' `mat` falls, and the arrivals that waited for it are made (R173, R191). -/
def execBatchClose (team : Nat) (s : State) : Out :=
  let t := s.teamOf team
  match t.seq.batches with
  | [] => .next s
  | b :: bs =>
    if t.seq.rows.any (fun r => r.batch == some b.uid) || !t.settled 0 then .next s
    else
      let s := s.modSeq team fun q => { q with batches := bs }
      let s := ((List.range 32).filter fun g => b.groups.getLsbD g).foldl (fun s g =>
        if (s.hartOf (.group team g)).live then s.completeOp (.group team g) kMat b.uid else s) s
      let due := (s.teamOf team).seq.arrivals.map fun a => { a with batches := a.batches.filter (· != b.uid) }
      .next (s.makeArrivals team due)

/-- STREAM_FAULT: everything issued before the fault has completed and every batch has closed; the cause goes to the live group of lowest gid, or to the log (R164). -/
def execStreamFault (team : Nat) (s : State) : Out :=
  let t := s.teamOf team
  match t.seq.fault with
  | none => .next s
  | some (c, addr) =>
    if t.seq.st ≠ .running ∨ !t.streamIdle then .next s
    else
      let s := s.modSeq team fun q => { q with st := .faulted, fault := none, clause := none }
      match s.liveGids team with
      | g :: _ => .next (s.addCause team g ⟨c, mark63 addr, none⟩)
      | [] => .next ((s.logError .engine c.code t.core t.asid 0 addr).modSeq team (fun q => { q with st := .stopped }) |>.releaseTeam team)

/-- STREAM_STOP: with the team's last group gone, the stream stops once its issued instructions are complete (R192). -/
def execStreamStop (team : Nat) (s : State) : Out :=
  let t := s.teamOf team
  if t.live && (s.liveGids team).isEmpty && t.seq.st == .running && t.seq.fault.isNone && t.streamIdle then
    .next ((s.modSeq team fun q => { q with st := .stopped, clause := none }).releaseTeam team)
  else .next s

/-! ## Tokens (R194) -/

/-- The tile that MACQ and MREL name. -/
def State.tokenTile (s : State) (a : Src) : Res Nat := do
  let x ← s.opnd a
  needOp (decide (x.toNat < s.team.accs))
  return x.toNat

/-- Rows of a tile, as the four registers of a copy hold them. -/
def Tile.regs (t : Tile) (k : Nat) : VWord :=
  BitVec.ofNat 2048 (sumNat ((List.range 64).map fun e => (t.at (4 * k + e / 16) (e % 16)).toNat * 2 ^ (32 * e)))

/-- MACQ: waits for the token and for the stream's issued work on the tile, takes the token, and copies the tile when asked to. -/
def State.takeToken (s : State) (d : Option (BitVec 6)) (a : Src) : Out :=
  s.finish do
    let t ← s.tokenTile a
    match d with
    | none => .ok ()
    | some r => s.heldRegs r.toNat 4
    let tile := s.team.tile t
    let me := s.cur.gid
    need (tile.token != some me) .accToken (BitVec.ofNat 64 t)
    if tile.token.isSome || s.team.seq.rows.any (fun r => decide (t ∈ r.tiles)) then .error (.suspend (.token t))
    else
      let s := s.setTeam (s.team.setTile t { tile with token := some me })
      match d with
      | none => return s.retire 1 Latch.none
      | some r =>
        let h := s.hart
        let v := (List.range 4).foldl (fun v k => vset v (r.toNat + k) (tile.regs k)) h.v
        return (s.setHart { h with v := v }).retire 1 Latch.none

def execMacq (d : BitVec 6) (a : Src) (s : State) : Out := s.takeToken (some d) a
def execMacqNc (a : Src) (s : State) : Out := s.takeToken none a

/-- MREL: the group gives its token back, and with a source writes the tile; FP16 and BF16 elements are taken from bits [15:0]. -/
def State.giveToken (s : State) (a : Src) (v : Option Src) : Out :=
  s.finish do
    let t ← s.tokenTile a
    let tile := s.team.tile t
    need (tile.token == some s.cur.gid) .accToken (BitVec.ofNat 64 t)
    match v with
    | none => return (s.setTeam (s.team.setTile t { tile with token := none })).retire 1 Latch.none
    | some src =>
      s.heldSrc src 4
      let r := match src with | .reg n => n.toNat | _ => 0
      let narrow := fmtAcc s.team.seq.sfmt == 1 || fmtAcc s.team.seq.sfmt == 2
      let h := s.hart
      let el := (List.range 256).map fun e =>
        let x := vpat (vget h.v (r + e / 64) 0) 32 (e % 64)
        (e, BitVec.ofNat 32 (if narrow then x % 65536 else x))
      return (s.setTeam (s.team.setTile t { tile with token := none, el := el })).retire 1 Latch.none

def execMrel (a : Src) (s : State) : Out := s.giveToken a none
def execMrelW (a b : Src) (s : State) : Out := s.giveToken a (some b)

end Sys2Proof.Machine
end

