-- ==== Sys2Proof/Machine/Async.lean ====
section
/-! DEFINITION. Class 4 without COLL, and the barriers and synchronisation words of class 6: copies with their descriptors and templates (R261 to R273), named barriers (R274 to R276), SYNCW (R277, R278), GATH and SCAT (R279, R280), WAITC (R281) and ASTAT (R282). -/

namespace Sys2Proof.Machine

/-! ## Copies -/

/-- Bits [hi:lo] of a number. -/
def bitsOf (x hi lo : Nat) : Nat := x / 2 ^ lo % 2 ^ (hi + 1 - lo)
/-- A signed 32-bit field. -/
def signed32 (x : Nat) : Int := valOf x 32 false

/-- The fields of a descriptor (R263). -/
structure Desc where
  src : Nat
  dst : Nat
  origin : Nat
  barrier : Nat
  arrive : Bool
  rise : Bool
  sync : Nat
  clean : Bool
def Copy.d (c : Copy) : Desc :=
  let x := c.desc.toNat
  { src := bitsOf x 63 0, dst := bitsOf x 127 64, origin := bitsOf x 159 128, barrier := bitsOf x 171 168,
    arrive := x.testBit 175, rise := x.testBit 176, sync := bitsOf x 223 192,
    clean := bitsOf x 167 160 == 0 && bitsOf x 174 172 == 0 && bitsOf x 191 177 == 0 && bitsOf x 255 224 == 0 }

/-- The fields of a template's walk and source records (R265, R266). -/
structure Tmpl where
  mode : Nat
  E : Nat
  n0 : Nat
  n1 : Nat
  n2 : Nat
  n3 : Nat
  dp0 : Int
  dp1 : Int
  OW : Nat
  M : Nat
  sh : Nat
  sw : Nat
  ph : Nat
  pw : Nat
  H : Nat
  W : Nat
  kind : Nat
  p0 : Int
  p1 : Int
  p2 : Int
  p3 : Int
  table : Nat
  clean : Bool
def Copy.t (c : Copy) : Tmpl :=
  let x := c.tmpl.toNat
  let y := x / 2 ^ 256
  { mode := bitsOf x 7 0, E := bitsOf x 31 16, n0 := bitsOf x 47 32, n1 := bitsOf x 63 48, n2 := bitsOf x 79 64,
    n3 := bitsOf x 95 80, dp0 := signed32 (bitsOf x 127 96), dp1 := signed32 (bitsOf x 159 128), OW := bitsOf x 175 160,
    M := bitsOf x 191 176, sh := bitsOf x 199 192, sw := bitsOf x 207 200, ph := bitsOf x 215 208, pw := bitsOf x 223 216,
    H := bitsOf x 239 224, W := bitsOf x 255 240, kind := bitsOf y 7 0, p0 := signed32 (bitsOf y 95 64),
    p1 := signed32 (bitsOf y 127 96), p2 := signed32 (bitsOf y 159 128), p3 := signed32 (bitsOf y 191 160),
    table := bitsOf y 255 192, clean := bitsOf x 15 8 == 0 && bitsOf y 63 8 == 0 }

/-- The number of rows N (R267). -/
def Tmpl.rows (t : Tmpl) : Nat := t.n0 * t.n1 * t.n2 * t.n3

/-- Do a descriptor and a template keep the limits whose breach stops the copy with DATA_CHECK (R263 to R268)? -/
def copyOk (d : Desc) (t : Tmpl) : Bool :=
  d.clean && t.clean && (d.rise || d.sync == 0) && (d.arrive || d.barrier == 0) && decide (t.mode ≤ 1) && decide (t.kind ≤ 1)
    && t.E % 4 == 0 && decide (4 ≤ t.E) && decide (t.E ≤ 4096) && t.rows != 0 && decide (t.rows ≤ 2 ^ 24)
    && (if t.mode = 1 then t.OW != 0 && t.sh != 0 && t.sw != 0 && t.H != 0 && t.W != 0
        else t.OW == 0 && t.M == 0 && t.sh == 0 && t.sw == 0 && t.ph == 0 && t.pw == 0 && t.H == 0 && t.W == 0)
    && (if t.kind = 1 then t.table % 4 == 0 else t.table == 0)

/-- Row s of a copy: its destination, and its coordinates where it is valid (R267). -/
def copyRow (d : Desc) (t : Tmpl) (s : Nat) : Word64 × Option (Int × Int × Int × Int) :=
  let i0 := s % t.n0
  let u := s / t.n0
  let i1 := u % t.n1
  let i2 := u / t.n1 % t.n2
  let i3 := u / (t.n1 * t.n2)
  let drow := BitVec.ofInt 64 (d.dst + i0 * t.dp0 + u * t.dp1)
  if t.mode = 0 then (drow, some ((d.origin + i0 : Nat), i1, i2, i3))
  else
    let m := d.origin + i0
    let c0 : Int := (m % t.OW * t.sw + i1 : Nat) - (t.pw : Int)
    let c1 : Int := (m / t.OW * t.sh + i2 : Nat) - (t.ph : Int)
    (drow, if m < t.M ∧ 0 ≤ c0 ∧ c0 < t.W ∧ 0 ≤ c1 ∧ c1 < t.H then some (c0, c1, i3, 0) else none)

/-- The agent of a copy. -/
def Copy.agt (c : Copy) (chan : Nat) : Agt := ⟨c.team, 1 + chan, some c.gid, c.sys⟩

/-- COPY_START_ACCEPT: a start store reaches its channel; at a full one it waits, and the group's later entries behind it (R269). The copy takes its descriptor and its template here (R263, R264). -/
def execCopyStartAccept (team gid : Nat) (s : State) : Out :=
  match s.headEntry team gid (fun o => match o with | .copyStart _ _ => true | _ => false) with
  | none => .next s
  | some e =>
    match e.op with
    | .copyStart chan data =>
      let t := s.teamOf team
      let c := s.coreOf t.core
      let q := mget [] chan c.chans
      if 64 ≤ q.length then .next s
      else
        let h := s.hartOf (.group team gid)
        let doff := (data.extractLsb' 8 20).toNat
        let x : Copy :=
          { team := team, id := e.id, gid := gid, tslot := (data.extractLsb' 0 8).toNat, doff := doff,
            desc := bytesToBits 256 (t.mem.read doff 32),
            tmpl := bytesToBits 512 (t.tmpl.read (64 * (data.extractLsb' 0 8).toNat) 64), aperture := BitVec.ofNat 64 (0xF * 2 ^ 52 + 8 * chan), sys := h.sys, st := .queued, next := 0 }
        let s := (s.popSq team gid).setCoreOf t.core { c with chans := mset chan (q ++ [x]) c.chans }
        .next (s.credit team gid e true)
    | _ => .next s

/-- The copies of a team that lead a channel, with their cores: a team that has moved may have one on the core that it left (R273). -/
def State.leading (s : State) (team chan : Nat) : List (Nat × Copy) :=
  s.cores.filterMap fun (k : Nat × Core) => match mget [] chan k.2.chans with
    | x :: _ => if x.team = team then some (k.1, x) else none
    | [] => none

/-- The leading copy of a channel becomes another, or leaves it. -/
def State.setLeading (s : State) (core chan : Nat) (x : Option Copy) : State :=
  let c := s.coreOf core
  s.setCoreOf core { c with chans := mset chan (x.toList ++ (mget [] chan c.chans).tail) c.chans }

/-- A word that a copy descriptor or SYNCW names, whose port then keeps its loop (R277; log 7). -/
def State.nameSync (s : State) (k off : Nat) : State :=
  let t := s.teamOf k
  s.setTeamOf k { t with syncs := insertNew off t.syncs, mem := syncLoop t.mem off }

/-- COPY_BEGIN: the leading copy begins, and the faults of its template and descriptor are found (R268, R269). -/
def execCopyBegin (team chan : Nat) (s : State) : Out :=
  match (s.leading team chan).find? fun x => x.2.st == .queued with
  | none => .next s
  | some (core, x) =>
    let t := s.teamOf team
    let x := { x with st := .running }
    let d := x.d
    let bad : Option Cause :=
      if !copyOk d x.t then some .dataCheck
      else if d.arrive ∧ (t.bar d.barrier).cfg.extractLsb' 8 8 = 0 then some .barrierMisuse
      else if d.rise ∧ (d.sync % 16 ≠ 0 ∨ t.spadBytes < d.sync + 16) then some .accessViolation
      else none
    match bad with
    | some c => .next (s.setLeading core chan (some { x with st := .failed c x.aperture x.next }))
    | none =>
      let s := s.setLeading core chan (some x)
      .next (if d.rise then s.nameSync team d.sync else s)

/-- What a copy reads for one row: its source bytes, or that it must wait, with the packets to send, or that it fails there. -/
inductive RowSrc where
  | data (bs : List Byte) (bad : Bool)
  | wait (ask : Option (Nat × Nat))
  | fail (c : Cause) (va : Word64)

/-- Reads n bytes of a row or of a table. -/
def State.readRow (s : State) (a : Agt) (wins : Nat) (va : Word64) (n : Nat) : RowSrc :=
  match s.engRow a .read wins va n with
  | .error c => .fail c va
  | .ok ps => match s.engReadRow a ps with
    | .data bs b => .data bs b
    | .wait => .wait none
    | .ask d x => .wait (some (d, x))
    | .fail c => .fail c (s.faultAddr ps c va)

/-- The source of a valid row (R267): the table entry of an INDEXED source first, which must not be poisoned (R268). -/
def State.copySource (s : State) (a : Agt) (d : Desc) (t : Tmpl) (c : Int × Int × Int × Int) : RowSrc :=
  let row := fun (r : Int) => s.readRow a 15 (BitVec.ofInt 64 (d.src + r * t.p0 + c.2.1 * t.p1 + c.2.2.1 * t.p2 + c.2.2.2 * t.p3)) t.E
  if t.kind = 0 then row c.1
  else
    let ta := BitVec.ofInt 64 (t.table + 4 * c.1)
    match s.readRow a 15 ta 4 with
    | .data bs bad => if bad then .fail .poison ta else row (leNat bs)
    | r => r

/-- A row of an engine is written; its synchronisation word's raise waits for the row's packets, or follows it into the ring (R273, R277). -/
def State.writeRowRaise (s : State) (a : Agt) (ps : List (Place × Nat)) (bs : List Byte) (bad : Bool) (sync : Option (Nat × Nat)) : EngWrite :=
  let before := (s.teamOf a.team).sent
  let w := s.engWriteRow a ps bs bad
  match sync with
  | none => w
  | some (off, n) =>
    if w.full || w.refused || w.dead then w
    else
      let t := w.s.teamOf a.team
      let mine := (t.sent.filter fun p => !decide (p ∈ before)).map fun (p : Nat × Word32 × Nat) => (p.1, p.2.1)
      { w with s := w.s.setTeamOf a.team { t with raises := t.raises ++ [⟨off, n, a.key, mine⟩] } }

/-- A copy that stops: where it failed. What its engine has received is forgotten. -/
def State.copyFails (s : State) (core chan : Nat) (x : Copy) (step : Nat) (c : Cause) (tval : Word64) : State :=
  let s := s.setLeading core chan (some { x with st := .failed c tval step })
  s.setTeamOf x.team ((s.teamOf x.team).forget (1 + chan))

/-- COPY_ROW_WRITE: the next row of the running copy is written, or zero-filled (R267); a fault stops the copy there. A row that goes to another device is acknowledged before the next is written, so that no row behind a failing one is written and equal bytes keep the rows' order (R269, R272). -/
def execCopyRowWrite (team chan : Nat) (s : State) : Out :=
  match (s.leading team chan).find? fun x => x.2.st == .running && decide (x.2.next < x.2.t.rows) && (s.teamOf team).settled (1 + chan) with
  | none => .next s
  | some (core, x) =>
    let d := x.d
    let t := x.t
    let a := x.agt chan
    let fails := fun (s : State) (c : Cause) (va : Word64) => s.copyFails core chan x x.next c va
    let (drow, coords) := copyRow d t x.next
    let src := match coords with
      | none => RowSrc.data (List.replicate t.E 0) false
      | some c => s.copySource a d t c
    match src with
    | .wait none => .next s
    | .wait (some r) => .next (s.askEngine team a.key [r])
    | .fail c va => .next (fails s c va)
    | .data bs bad =>
      match s.engRow a .write 15 drow t.E with
      | .error c => .next (fails s c drow)
      | .ok ps =>
        let w := s.writeRowRaise a ps bs bad (if d.rise then some (d.sync, t.E) else none)
        if w.full then .next w.s
        else if w.refused then .next (fails s .accessViolation drow)
        else if w.dead then .next (fails s .peerKilled (s.faultAddr ps .peerKilled drow))
        else
          let s := w.s.setLeading core chan (some { x with next := x.next + 1 })
          .next (s.setTeamOf team ((s.teamOf team).forget a.key))

/-- Are the rows of an engine performed and its raises applied (R273)? -/
def State.engineQuiet (s : State) (team key : Nat) : Bool :=
  let t := s.teamOf team
  t.settled key && t.raises.all fun r => r.key != key

/-- A copy leaves its channel: `copy` falls in issue order, and after that its arrival is made (R272, R273). -/
def State.endCopy (s : State) (core chan : Nat) (x : Copy) : State :=
  let s := (s.setLeading core chan none).completeOp (.group x.team x.gid) kCopy x.id
  let d := x.d
  let t := s.teamOf x.team
  (if d.arrive then s.setTeamOf x.team { t with owed := t.owed ++ [(x.gid, x.id, d.barrier)] } else s).payOwed x.team

/-- COPY_COMPLETE: every row is performed and every raise applied (R273). -/
def execCopyComplete (team chan : Nat) (s : State) : Out :=
  match (s.leading team chan).find? fun x => x.2.st == .running && x.2.next == x.2.t.rows with
  | none => .next s
  | some (core, x) => if s.engineQuiet team (1 + chan) then .next (s.endCopy core chan x) else .next s

/-- COPY_FAULT: a copy that a fault has stopped completes for its counter, and the fault is reported (R272). -/
def execCopyFault (team chan : Nat) (s : State) : Out :=
  match (s.leading team chan).find? fun x => match x.2.st with | .failed _ _ _ => true | _ => false with
  | none => .next s
  | some (core, x) =>
    match x.st with
    | .failed c tval step =>
      if !s.engineQuiet team (1 + chan) then .next s
      else .next ((s.endCopy core chan x).engineFault team x.gid c (faultWord c x.tslot chan 0 step) tval)
    | _ => .next s

/-- SYNC_WORD_RAISE: the oldest raise whose row is performed is applied at the word's port, or joins the ring of an absent team (R273, R277). -/
def execSyncWordRaise (team : Nat) (s : State) : Out :=
  let t := s.teamOf team
  let due := fun (r : Raise) => r.pkts.all fun p => !t.sent.any fun q => q.1 == p.1 && q.2.1 == p.2
  match t.raises.find? due with
  | none => .next s
  | some r =>
    let (s, ok) := s.raiseSync team r.off r.n
    let t := s.teamOf team
    .next (if ok then s.setTeamOf team { t with raises := t.raises.erase r } else s)

/-! ## GATH and SCAT (R279, R280) -/

/-- The checks of one taking-part row, with its global address and its allocation offset. -/
def State.gathRow (s : State) (a : Agt) (acc : Access) (g l : Word64) (n : Nat) : Res (Word64 × Nat) := do
  match s.engRow a acc 12 g n with
  | .error c => raise c g
  | .ok _ => do
    let la := BitVec.ofNat 64 (0xD * 2 ^ 52 + l.toNat % 2 ^ 52)
    need (l.toNat % 4 == 0) .misaligned la
    need (decide (l.toNat + n ≤ s.team.spadBytes)) .accessViolation la
    return (g, l.toNat)

/-- GATH and SCAT: every row is checked, then the transfer is handed to the gather engine. -/
def State.startGather (s : State) (d : BitVec 6) (a b : Src) (k : MSel) (l : GathLit) (scat : Bool) : Out :=
  s.finish do
    let c := s.vc
    needOp (c.sew == 32 && c.selOk k && c.regOk d.toNat c.lmul)
    let g0 ← s.opnd a
    let l0 ← s.opnd b
    s.notInRegion
    s.heldRegs d.toNat c.lmul
    let h := s.hart
    let R := 4 * l.words.toNat
    let acc := if scat then Access.write else Access.read
    let job := s.team.nextJob
    let agt : Agt := ⟨s.cur.team, 33 + 2 * job, some s.cur.gid, h.sys⟩
    let is := (List.range c.max).filter (c.active s.lanesOn (s.sel k) 32)
    let one := fun (i : Nat) =>
      (i, s.gathRow agt acc (g0 + BitVec.ofNat 64 (h.elem c.vlen d.toNat 32 i * l.pitch.toNat)) (l0 + BitVec.ofNat 64 (i * R)) R)
    let rows ← joinElems c.vlen 32 (is.map one)
    await (decide (h.counter kGath < 65535))
    let id := h.nextOp
    let x : Gather :=
      { job := job, id := id, gid := s.cur.gid, sys := h.sys, scat := scat, size := R,
        rows := rows.map (fun (r : Nat × Word64 × Nat) => (r.1, r.2.1, r.2.2)), last := 0 }
    let t := s.team
    let s := (s.setTeam { t with gathers := t.gathers ++ [x], nextJob := job + 1 }).setHart ({ h with nextOp := id + 1 }.raiseCtr kGath id)
    return s.retire 2 Latch.none

def execGath (d : BitVec 6) (a b : Src) (k : MSel) (l : GathLit) (s : State) : Out := s.startGather d a b k l false
def execScat (d : BitVec 6) (a b : Src) (k : MSel) (l : GathLit) (s : State) : Out := s.startGather d a b k l true

/-- A transfer of a team becomes another. -/
def State.setGather (s : State) (k : Nat) (x : Gather) : State :=
  let t := s.teamOf k
  s.setTeamOf k { t with gathers := t.gathers.map fun y => if y.job = x.job then x else y }

/-- GATHER_ROW_TRANSFER: the next row is moved in increasing element order (R280). A row that meets an EMPTY result row is reported and not written; a row that any other fault meets after issue is logged and not written. The packets of a row are acknowledged before the next row is moved, so that of rows with equal bytes the higher element's stays. -/
def execGatherRowTransfer (team job : Nat) (s : State) : Out :=
  let t := s.teamOf team
  match t.gathers.find? fun x => x.job == job && t.settled (33 + 2 * job) with
  | none => .next s
  | some x =>
    match x.rows with
    | [] => .next s
    | (i, g, l) :: rest =>
      let a : Agt := ⟨team, 33 + 2 * job, some x.gid, x.sys⟩
      let la := BitVec.ofNat 64 (0xD * 2 ^ 52 + l)
      let s' := s.setGather team { x with rows := rest, last := if x.scat then g else la }
      let lost := fun (c : Cause) (va : Word64) => s'.logError .engine c.code t.core t.asid x.gid va
      let src := if x.scat then la else g
      let dst := if x.scat then g else la
      match s.readRow a 15 src x.size with
      | .wait none => .next s
      | .wait (some r) => .next (s.askEngine team a.key [r])
      | .fail c va =>
        .next (if c = .rowNotFull ∧ !x.scat then s'.engineFault team x.gid c (faultWord c 0 0 1 i) g else lost c va)
      | .data bs bad =>
        match s'.engRow a .write 15 dst x.size with
        | .error c => .next (lost c dst)
        | .ok ps =>
          let w := s'.engWriteRow a ps bs bad
          if w.full then .next (s.keepRingLogs w.s)
          else if w.refused then .next (w.s.addCause team x.gid ⟨.accessViolation, mark63 dst, none⟩)
          else if w.dead then .next (w.s.addCause team x.gid ⟨.peerKilled, mark63 (s.faultAddr ps .peerKilled dst), none⟩)
          else .next (w.s.setTeamOf team ((w.s.teamOf team).forget a.key))

/-- GATHER_COMPLETE: every row has been performed, and `gath` falls. -/
def execGatherComplete (team job : Nat) (s : State) : Out :=
  let t := s.teamOf team
  match t.gathers.find? fun x => x.job == job && x.rows.isEmpty with
  | none => .next s
  | some x =>
    if !t.settled (33 + 2 * job) then .next s
    else
      let s := s.setTeamOf team { t with gathers := t.gathers.filter fun y => y.job != job }
      .next (s.completeOp (.group team x.gid) kGath x.id)

/-! ## WAITC and ASTAT -/

/-- WAITC (R281): the end of the wait observes what the counter covers (R256). -/
def execWaitc (n : BitVec 7) (k : BitVec 3) (s : State) : Out :=
  s.finish (
    if s.hart.counter k.toNat ≤ n.toNat then .ok (s.dropL1.retire 1 Latch.none)
    else .error (.suspend (.counter k.toNat n.toNat)))

/-- ASTAT.cnt reads a counter; a `mat` count by which a closed batch is observed acquires (R174). -/
def execAstatCnt (d : Dst) (a : Src) (s : State) : Out :=
  s.finish do
    let x ← s.opnd a
    let k := x.toNat % 8
    let s' := if k = kMat ∧ vget s.hart.credited kMat 0 ≠ 0 then s.dropL1 else s
    return s'.retireS 1 d (BitVec.ofNat 64 (s.hart.counter k))
def execAstatChan (d : Dst) (a : Src) (s : State) : Out :=
  s.finish do
    let x ← s.opnd a
    return s.retireS 1 d (BitVec.ofNat 64 (s.copiesOn s.cur.team (x.toNat % 32)))
/-- ASTAT.fault reads the engine fault record and clears it. -/
def execAstatFault (d : Dst) (s : State) : Out :=
  .next ((s.setHart { s.hart with efr := 0 }).retireS 1 d s.hart.efr)

/-! ## Named barriers (R275) -/

/-- Does a group or the sequencer of the focus team wait at a barrier? -/
def State.barWaiter (s : State) (b : Nat) : Bool :=
  let waits := fun (p : Path) => match p.susp with | some (.barrier c _ _ _) => c == b | _ => false
  let q := s.team.seq
  (s.liveGids s.cur.team).any (fun g => let h := s.hartOf (.group s.cur.team g); waits h.p0 || waits h.p1)
    || (q.stalled && match q.clause with
        | some c => let w := c.words.getD (c.idx - 1) 0; w.extractLsb' 24 8 == 8 && (w.extractLsb' 0 4).toNat == b
        | none => false)

/-- An initialised barrier (R274). -/
def State.barReady (s : State) (b : BitVec 4) : Res Unit :=
  need ((s.team.bar b.toNat).expected != 0) .barrierMisuse (BitVec.ofNat 64 b.toNat)

def execBari (a : Src) (n : BitVec 4) (s : State) : Out :=
  s.finish do
    let cfg ← s.opnd a
    needOp (cfg.extractLsb' 16 48 == 0 && !cfg.getLsbD 7 && decide ((cfg.extractLsb' 0 6).toNat ≤ 32))
    let t := s.team
    let b := t.bar n.toNat
    need (b.a == 0 && !s.barWaiter n.toNat) .barrierMisuse (BitVec.ofNat 64 n.toNat)
    return (s.setTeam { t with bars := vset t.bars n.toNat { b with cfg := cfg } }).retire 1 Latch.none

/-- BARA: an arrival, a release of scope `.team` (R276). -/
def execBara (n : BitVec 4) (s : State) : Out :=
  s.finish do
    s.barReady n
    s.drained .team
    let ph := (s.team.bar n.toNat).ph
    let s := s.arriveBar s.cur.team n.toNat
    return (s.setHart { s.hart with pend := vset s.hart.pend n.toNat (some ph) }).retire 1 Latch.none

/-- The end of a barrier wait is an acquire of scope `.dev` (R276). -/
def State.leaveBar (s : State) : State := s.dropL1.retire 1 Latch.none
/-- A wait for a phase that is over: the pending phase is taken (R275). -/
def State.passBar (s : State) (n : BitVec 4) : State :=
  (s.setHart { s.hart with pend := vset s.hart.pend n.toNat none }).leaveBar

/-- The focus path suspended at a barrier, its pending phase taken. -/
def State.waitBar (s : State) (n : BitVec 4) (p : BitVec 32) (pended made : Bool) : State :=
  let s := s.setHart { s.hart with pend := vset s.hart.pend n.toNat none }
  s.stopped (.suspend (.barrier n.toNat p pended made))

def execBarw (n : BitVec 4) (s : State) : Out :=
  s.finish (
    match s.path.grant with
    | some _ => .ok s.leaveBar
    | none => do
      s.barReady n
      let now := (s.team.bar n.toNat).ph
      let pend := vget s.hart.pend n.toNat none
      let p := pend.getD now
      return if p = now then s.waitBar n p pend.isSome false else s.passBar n)

/-- BARAW: the arrival is made once, though the instruction may execute again after a trap or an eviction (R275, R371). -/
def execBaraw (n : BitVec 4) (s : State) : Out :=
  s.finish (
    match s.path.grant with
    | some _ => .ok s.leaveBar
    | none => do
      s.barReady n
      s.drained .team
      let now := (s.team.bar n.toNat).ph
      let p := if s.path.arrived then (vget s.hart.pend n.toNat none).getD now else now
      let s := if s.path.arrived then s else s.arriveBar s.cur.team n.toNat
      return if (s.team.bar n.toNat).ph = p then s.waitBar n p true true else s.passBar n)

/-! ## SYNCW (R278) -/

/-- Has a generation been reached? -/
def genReached (gen g : BitVec 32) : Bool := decide ((gen - g).toNat < 2 ^ 31)

def execSyncw (d : Dst) (a b : Src) (s : State) : Out :=
  let r : Res (Nat × BitVec 32) := do
    let w ← s.opnd a
    let g ← s.opnd b
    let at' := BitVec.ofNat 64 (0xD * 2 ^ 52) + w
    need (w.toNat % 16 == 0) .misaligned at'
    need (decide (w.toNat + 16 ≤ s.team.spadBytes)) .accessViolation at'
    await (!s.hart.spadPending)
    return (w.toNat, g.setWidth 32)
  match r with
  | .error e => s.finish (.error e)
  | .ok (w, g) =>
    let s := s.nameSync s.cur.team w
    let gen : BitVec 32 := BitVec.ofNat 32 (s.team.mem.nat (w + 8) 4)
    if genReached gen g then .next (s.dropL1.retireS 1 d (gen.setWidth 64)) else s.finish (.error (.suspend (.sync w g)))

end Sys2Proof.Machine
end

