-- ==== Sys2Proof/Machine/Near.lean ====
section
/-! DEFINITION. Bank cores: START with its record and region (R290 to R292), mailboxes (R293), suspension at a chunk boundary (R371), the four TZ-N instructions (R295 to R299), and NMSYNC (R304). -/

namespace Sys2Proof.Machine

/-! ## Starting a job (R291, R292) -/

/-- The pages of a region from page i on: each readable and writable, in the linear view of the bank and at consecutive offsets; the pages with the full/empty attribute. -/
def State.regionPages (s : State) (b asid : Nat) (sys : Bool) (va base : Nat) : (n i : Nat) → Except Cause (List Nat)
  | 0, _ => .ok []
  | n + 1, i => do
    let x ← s.translate none asid sys .read (va + 65536 * i)
    let _ ← s.translate none asid sys .write (va + 65536 * i)
    let p ← s.placeOf asid x
    let loc := x.pa % 2 ^ 42
    match p.tgt with
    | .home k =>
      if linearView ≤ loc ∧ k = b * bankSize + base + 65536 * i then
        let fe ← s.regionPages b asid sys va base n (i + 1)
        return if x.leaf.getLsbD 6 then i :: fe else fe
      else .error .accessViolation
    | _ => .error .accessViolation

/-- A start record as it was read and checked. -/
structure StartRec where
  region : BankRegion
  entry : Word64
  args : List Word64

/-- What a start record says, checked against R291. -/
def State.readRecord (s : State) (b asid : Nat) (sys : Bool) (bs : List Byte) : Except Cause StartRec := do
  let f := fun (i n : Nat) => leNat ((bs.drop i).take n)
  let va := f 0 8
  let size := f 8 4
  let entry := f 12 4
  if va % 65536 ≠ 0 || 2 ^ 52 * 12 < va + 65536 * size || size == 0 || decide (32768 < size) || entry % 4 ≠ 0 || decide (65536 * size ≤ entry) then
    .error .accessViolation
  let x ← s.translate none asid sys .read va
  let p ← s.placeOf asid x
  match p.tgt with
  | .home k =>
    if k / bankSize ≠ b then .error .accessViolation
    else
      let fe ← s.regionPages b asid sys va (k % bankSize) size 0
      return { region := ⟨BitVec.ofNat 64 va, size, k % bankSize, fe⟩, entry := BitVec.ofNat 64 entry,
               args := (List.range 6).map fun i => BitVec.ofNat 64 (f (16 + 8 * i) 8) }
  | _ => .error .accessViolation

/-- Reads and checks a start record, which may lie on another device (R291, R292 step 3). -/
def State.startRecord (s : State) (key b asid : Nat) (sys : Bool) (rec : Word64) : Except DevErr StartRec := do
  if rec.toNat % 64 ≠ 0 || !((window rec).any fun w => decide (w < 12)) then .error (.fault .accessViolation)
  let bs ← s.vfetch key asid sys rec.toNat 64
  match s.readRecord b asid sys bs with
  | .ok r => .ok r
  | .error c => .error (.fault c)

/-- A job begins: what the die caches hold newer goes to the banks, the region's result rows become EMPTY, its mailbox is cleared, and its registers hold their reset values and the arguments (R292 step 4). -/
def State.beginJob (s : State) (b asid prio : Nat) (job : Option (Nat × Nat)) (r : StartRec) : State :=
  let lo := (b * bankSize + r.region.b0) / 1024
  let h := Hart.reset
  let sr := ((List.range 6).zip r.args).foldl (fun v (e : Nat × Word64) => vset v (e.1 + 1) e.2) h.s
  let s := { s with dirty := [], fullRows := s.fullRows.filter fun x => !(decide (lo ≤ x) && decide (x < lo + 64 * r.region.pages)) }
  let s := s.setHartOf (.bank b) { h with s := sr, live := true, p0 := { Path.first with pc := r.entry } }
  let x := s.bankOf b
  s.setBankOf b { x with running := true, owner := asid, mail := Vector.replicate 32 0,
                         region := r.region, prio := prio, job := job, chunk := false }

/-- A START (R292): the refusing cause, what is still to come of another device, or the job running. -/
def State.startBank (s : State) (key b asid : Nat) (sys : Bool) (prio : Nat) (job : Option (Nat × Nat)) (rec : Word64) : Except DevErr State :=
  if (s.bankOf b).running then .error (.fault .accessViolation)
  else (s.startRecord key b asid sys rec).map fun r => s.beginJob b asid prio job r

/-- The device's key of the start record that a bank core's START reads. -/
def bankKey (b : Nat) : Nat := 2 ^ 12 + b

/-- A START or a mailbox store is refused: the group takes the cause at its next boundary (R292, R293). -/
def State.apertureRefused (s : State) (team gid : Nat) (c : Cause) (aperture : Word64) : State :=
  s.addCause team gid ⟨c, mark63 aperture, none⟩

/-- BANK_START: a START reaches its bank core, once the group's older stores to the linear view are in their banks (R292 step 1). -/
def execBankStart (team gid : Nat) (s : State) : Out :=
  match s.headEntry team gid (fun o => match o with | .bankStart _ _ _ => true | _ => false) with
  | none => .next s
  | some e => match e.op with
    | .bankStart b rec aperture =>
      let h := s.hartOf (.group team gid)
      let t := { (s.popSq team gid).landWhere (fun p => p.team == team && p.gid == gid) with dirty := [] }
      match t.startBank (bankKey b) b h.asid.toNat h.sys h.prio.toNat none rec with
      | .error (.ask reqs) => .next (s.askDevice (bankKey b) h.asid.toNat reqs)
      | .ok u => .next ((u.forgetDevice (bankKey b)).credit team gid e true)
      | .error (.fault c) => .next (((t.apertureRefused team gid c aperture).forgetDevice (bankKey b)).credit team gid e true)
    | _ => .next s

/-- MAILBOX_WRITE: a mailbox store of the owner's context (R293). -/
def execMailboxWrite (team gid : Nat) (s : State) : Out :=
  match s.headEntry team gid (fun o => match o with | .mailbox _ _ _ _ => true | _ => false) with
  | none => .next s
  | some e => match e.op with
    | .mailbox b w data aperture =>
      let h := s.hartOf (.group team gid)
      let s := s.popSq team gid
      let x := s.bankOf b
      let s := if x.owner = h.asid.toNat then s.setBankOf b { x with mail := vset x.mail w data }
        else s.apertureRefused team gid .accessViolation aperture
      .next (s.credit team gid e true)
    | _ => .next s

/-- The fields of a kind-1 node's parameters (R344): record address and bank. -/
def kind1Parms (p : BitVec 128) : Word64 × Nat := (p.extractLsb' 0 64, (p.extractLsb' 64 16).toNat)

/-- A node of a launch. -/
def State.nodeRun (s : State) (launch node : Nat) : Option NodeRun := (mfind launch s.launches).bind fun l => l.nodes[node]?

/-- A kind-1 node that may displace a lower-prio job of its bank core (R371). -/
def State.displaces (s : State) (n : NodeRun) : Bool :=
  let x := s.bankOf (kind1Parms n.node.kparm).2
  decide (10 ≤ n.node.prio) && x.running && decide (x.prio < n.node.prio) && x.suspended.isNone

/-! ## The instructions of a bank core (R295 to R299) -/

/-- The first set bit of a bitmap at or above bit j and below n, byte by byte (R296). -/
def nzScan (rd : Nat → Res Byte) (n : Nat) : (fuel j : Nat) → Res Nat
  | 0, _ => .ok n
  | fuel + 1, j =>
    if n ≤ j then .ok n
    else do
      let b ← rd (j / 8)
      match (List.range (8 - j % 8)).find? fun k => b.getLsbD (j % 8 + k) with
      | some k => return Nat.min n (j + k)
      | none => nzScan rd n fuel (j / 8 * 8 + 8)

/-- The bank core stands at a chunk boundary (R289). -/
def State.endChunk (s : State) : State := s.setBankOf s.cur.bank { s.bankOf s.cur.bank with chunk := true }

def execNzskip (d : BitVec 6) (a b : Src) (l : MemM) (s : State) : Out :=
  s.finish do
    needOp (l.space == .g)
    let n ← s.opnd b
    let base ← s.opnd a
    needOp (decide (n.toNat ≤ 2 ^ 32))
    let va := base + sx64 l.off
    need (va.toNat % 8 == 0) .misaligned va
    let rd := fun (i : Nat) => do
      let x := va + BitVec.ofNat 64 i
      let p ← s.locBank aLoad x 1
      let bs ← s.readAt p x 1 false
      return bs.getD 0 0
    let k := (s.hart.sreg d).toNat
    let j ← nzScan rd n.toNat (n.toNat / 8 + 2) k
    return (s.retireS 2 ⟨d, false⟩ (BitVec.ofNat 64 j)).endChunk

def execRowf (a : Src) (s : State) : Out :=
  s.finish do
    let o ← s.opnd a
    let r := (s.bankOf s.cur.bank).region
    need (o.toNat % 1024 == 0) .misaligned o
    need (decide (o.toNat + 1024 ≤ 65536 * r.pages) && decide (o.toNat / 65536 ∈ r.fe)) .accessViolation o
    let row := (s.cur.bank * bankSize + r.b0 + o.toNat) / 1024
    return ({ s with fullRows := insertNew row s.fullRows }.retire 1 Latch.none).endChunk

def execMbxr (d : BitVec 6) (a : Src) (s : State) : Out :=
  s.finish do
    let w ← s.opnd a
    return s.retireS 1 ⟨d, false⟩ (vget (s.bankOf s.cur.bank).mail (w.toNat % 32) 0)

def execHaltb (a : Src) (s : State) : Out :=
  s.finish do
    let x ← s.opnd a
    let b := s.cur.bank
    let h := s.hartOf (.bank b)
    let s := s.setHartOf (.bank b) { h with p0 := { h.p0 with active := false, clause := none, issuing := false } }
    return s.bankHalted b 0 (x.setWidth 32)

/-! ## NMSYNC (R304) -/

/-- NMSYNC waits for `near` and the older stores, and writes the modified lines to their banks. -/
def execNmsync (s : State) : Out :=
  s.finish do
    s.drained .dev
    return { s with dirty := [] }.retire 1 Latch.none

end Sys2Proof.Machine
end

