-- ==== Sys2Proof/Machine/Graph.lean ====
section
/-! DEFINITION. The fold engine: class 5 and the waves, with their messages, drops, sweeps and aborts (R306 to R332). -/

namespace Sys2Proof.Machine

/-! ## Folds and their records -/

/-- The name of a fold's graph among the graphs of the device: its ASID and its number as one number (R307). -/
def Fold.name (f : Fold) : Nat := 16 * f.asid + f.graph

/-- The fold of a graph on a core. -/
def State.foldIn (s : State) (core graph : Nat) : Option Fold := (s.coreOf core).fold.filter fun f => f.name == graph

def State.setFold (s : State) (core : Nat) (f : Fold) : State := s.setCoreOf core { s.coreOf core with fold := some f }

/-- The fold of the focus's core, where one of the group's context is bound (R325). -/
def State.myFold (s : State) : Res Fold :=
  match (s.coreOf s.team.core).fold with
  | some f => if f.asid = s.hart.asid.toNat then .ok f else raise .graphBound 0
  | none => raise .graphBound 0

/-- The root fold of a fold's graph. -/
def State.rootOf (s : State) (f : Fold) : Option Fold :=
  s.cores.findSome? fun (c : Nat × Core) => c.2.fold.filter fun g => g.name == f.name && g.root == c.1

/-- A node record (R308). -/
structure GNode where
  markers : Word64
  type : BitVec 16
  valid : Bool
  eoff : Nat
  ecount : Nat
  attr : List Byte
deriving DecidableEq, Repr

/-- An edge record (R309). -/
structure GEdge where
  weight : Nat
  gate : Bool
  rev : Bool
  etype : BitVec 8
  tcore : Nat
  tindex : Nat
deriving DecidableEq, Repr

/-- Node i of a fold whose team's allocation holds the bytes m. -/
def Fold.node (f : Fold) (m : Mem) (i : Nat) : GNode :=
  let a := f.nbase + 64 * i
  { markers := BitVec.ofNat 64 (m.nat a 8), type := BitVec.ofNat 16 (m.nat (a + 8) 2), valid := m.nat (a + 10) 1 % 2 == 1,
    eoff := m.nat (a + 12) 2, ecount := m.nat (a + 14) 2, attr := m.read (a + 16) 32 }

def Fold.edge (f : Fold) (m : Mem) (j : Nat) : GEdge :=
  let x : Word64 := BitVec.ofNat 64 (m.nat (f.ebase + 8 * j) 8)
  { weight := (x.extractLsb' 32 16).toNat, gate := x.getLsbD 30, rev := x.getLsbD 29, etype := x.extractLsb' 21 8,
    tcore := (x.extractLsb' 12 9).toNat, tindex := (x.extractLsb' 0 12).toNat }

/-- The allocation offset of slot x of node i. -/
def Fold.slotAt (f : Fold) (i : Nat) (x : Bool) : Nat := f.sbase + 64 * i + (if x then 32 else 0)

def State.foldMem (s : State) (f : Fold) : Mem := (s.teamOf f.team).mem
def State.gnode (s : State) (f : Fold) (i : Nat) : GNode := f.node (s.foldMem f) i
def State.foldPoke (s : State) (f : Fold) (off : Nat) (bs : List Byte) : State :=
  s.setTeamOf f.team ((s.teamOf f.team).poke off bs false)
def State.setMarkers (s : State) (f : Fold) (i : Nat) (x : Word64) : State := s.foldPoke f (f.nbase + 64 * i) (leBytes 8 x.toNat)
def State.gslot (s : State) (f : Fold) (i : Nat) (x : Bool) : List Byte := (s.foldMem f).read (f.slotAt i x) 32
def State.setSlot (s : State) (f : Fold) (i : Nat) (x : Bool) (bs : List Byte) : State := s.foldPoke f (f.slotAt i x) bs

/-- Bit k of a node's markers set or cleared. -/
def setBit (m : Word64) (k : Nat) (on : Bool) : Word64 :=
  let b : Word64 := (1 : Word64) <<< k
  if on then m ||| b else m &&& ~~~b

/-! ## Counts (R315, R316) -/

/-- What names a wave: root core, entry, serial number. -/
abbrev WaveKey := Nat × Nat × BitVec 32

def WaveCount.has (c : WaveCount) (k : WaveKey) : Bool := c.root == k.1 && c.entry == k.2.1 && c.serial == k.2.2
def Fold.count (f : Fold) (k : WaveKey) : WaveCount := (f.counts.find? (·.has k)).getD ⟨k.1, k.2.1, k.2.2, 0, 0, false, none, false⟩
def Fold.setCount (f : Fold) (k : WaveKey) (c : WaveCount) : Fold := { f with counts := c :: f.counts.filter fun d => !d.has k }
/-- A change of a core's count of a wave. -/
def State.modCount (s : State) (core : Nat) (k : WaveKey) (g : WaveCount → WaveCount) : State :=
  match (s.coreOf core).fold with
  | none => s
  | some f => s.setFold core (f.setCount k (g (f.count k)))

def WaveCount.receive (c : WaveCount) : WaveCount := { c with recv := c.recv + 1, active := true }
def WaveCount.send (c : WaveCount) (n : Nat) : WaveCount := if n = 0 then c else { c with sent := c.sent + BitVec.ofNat 48 n, active := true }
/-- The smaller of two dropped targets. -/
def minDrop (a b : Option Nat) : Option Nat :=
  match a, b with
  | some x, some y => some (Nat.min x y)
  | some x, none => some x
  | none, y => y
def WaveCount.dropping (c : WaveCount) (t : Option Nat) : WaveCount := { c with drop := minDrop c.drop t }

/-! ## Wave tables (R311, R312, R332) -/

def Wave.live (w : Wave) : Bool := w.status == .held || w.status == .running
def Fold.waveAt (f : Fold) (e : Nat) : Option Wave := (f.waves[e]?).getD none
def Fold.setWave (f : Fold) (e : Nat) (w : Wave) : Fold := { f with waves := modifyAt (fun _ => some w) e f.waves }
def Fold.liveWaves (f : Fold) : List Wave := (f.waves.filterMap id).filter Wave.live
/-- The lowest entry that holds no live wave. -/
def Fold.freeEntry (f : Fold) : Option Nat := f.waves.findIdx? fun w => !(w.map Wave.live).getD false

/-- The wave of a graph with a key in its root's table. -/
def State.waveOf (s : State) (graph : Nat) (k : WaveKey) : Option Wave :=
  (s.foldIn k.1 graph).bind fun f => (f.waveAt k.2.1).filter fun w => w.serial == k.2.2

/-- The handle of a wave. -/
def handleOf (k : WaveKey) : Word64 := (0#20 ++ k.2.2 ++ BitVec.ofNat 9 k.1 ++ BitVec.ofNat 3 k.2.1 : BitVec 64)
/-- The number of a wave's operation on its group's `graph` counter. -/
def waveOp (k : WaveKey) : Nat := (handleOf k).toNat

/-- The parts of a GMATCH control word (R327). -/
def ctlY (c : BitVec 21) : Bool := c.getLsbD 20
def ctlAct (c : BitVec 21) : BitVec 2 := c.extractLsb' 18 2
def ctlBit (c : BitVec 21) : BitVec 6 := c.extractLsb' 12 6

/-- The number of a slot among the resources of a node, after the 64 marker bits (R312). -/
def slotRes (y : Bool) : Nat := if y then 65 else 64
/-- The read set of a wave (R312). -/
def WaveSpec.reads : WaveSpec → List Nat
  | .gmatch _ _ _ _ _ => []
  | .gprop l a b g x _ =>
    [a.toNat] ++ (if l.gmode = 0 then [] else [g.toNat]) ++ (if l.comb = 0 then [] else [slotRes x])
      ++ (if l.comb = 4 then [b.toNat] else [])
/-- The write set of a wave (R312). -/
def WaveSpec.writes : WaveSpec → List Nat
  | .gmatch _ _ _ _ c => if (ctlAct c).toNat < 2 then [(ctlBit c).toNat] else [slotRes (ctlY c)]
  | .gprop l _ b _ _ y => [b.toNat] ++ (if l.comb = 0 then [] else [slotRes y])

/-- Does a wave conflict with an earlier one? -/
def WaveSpec.conflicts (w e : WaveSpec) : Bool :=
  w.writes.any (fun r => decide (r ∈ e.reads) || decide (r ∈ e.writes)) || w.reads.any fun r => decide (r ∈ e.writes)
/-- Was serial a given before b? -/
def earlier (a b : BitVec 32) : Bool := a != b && decide ((b - a).toNat < 2 ^ 31)
/-- Does an earlier live wave hold a wave back? -/
def Fold.heldBack (f : Fold) (w : Wave) : Bool := f.liveWaves.any fun e => earlier e.serial w.serial && w.spec.conflicts e.spec

/-! ## What a wave does at a fold -/

/-- An attribute test (R320). -/
def attrTest (op : BitVec 3) (a v : Word32) : Bool :=
  match op.toNat with
  | 0 => true
  | 1 => a == v
  | 2 => a != v
  | 3 => a.ult v
  | 4 => !a.ult v
  | 5 => a.slt v
  | 6 => !a.slt v
  | _ => a &&& v != 0

def GNode.attribute (n : GNode) (k : BitVec 3) : Word32 := bytesToBits 32 ((n.attr.drop (4 * k.toNat)).take 4)

/-- Does a node match (R320)? -/
def GNode.matched (n : GNode) (tval tmask : BitVec 16) (v1 v2 : Word32) (c : BitVec 21) : Bool :=
  n.valid && (n.type ^^^ tval) &&& tmask == 0
    && attrTest (c.extractLsb' 3 3) (n.attribute (c.extractLsb' 0 3)) v1
    && attrTest (c.extractLsb' 9 3) (n.attribute (c.extractLsb' 6 3)) v2

/-- The action of a GMATCH on a matching node. -/
def State.matchNode (s : State) (f : Fold) (i : Nat) (n : GNode) (c : BitVec 21) : State :=
  match (ctlAct c).toNat with
  | 0 => s.setMarkers f i (setBit n.markers (ctlBit c).toNat true)
  | 1 => s.setMarkers f i (setBit n.markers (ctlBit c).toNat false)
  | 2 => s.setSlot f i (ctlY c) n.attr
  | _ => s.setSlot f i (ctlY c) (List.replicate 32 0)

/-- The element format of a wave (R308, R328). -/
def waveFF (l : GpLit) : FF := if l.ef then .f32 else .f16
/-- The value of an element operation on each element of a slot. -/
def slotMap (f : FF) (op : FVal → FVal → Nat) (t v : List Byte) : List Byte :=
  let n := f.bits / 8
  let el := fun (x : List Byte) (e : Nat) => f.dec (leNat ((x.drop (n * e)).take n))
  (List.range (32 / n)).flatMap fun e => leBytes n (op (el t e) (el v e))

/-- The value that an edge's message carries (R322): with weights, the product rounded with RNE and IEEE saturation. -/
def weighted (l : GpLit) (e : GEdge) (v : List Byte) : List Byte :=
  let f := waveFF l
  if l.w then slotMap f (fun x _ => fOf 0 0 f 0 (x.mul (FF.f16.dec e.weight))) v v else v

/-- The combination of an old slot value and an arriving one (R322). -/
def combined (l : GpLit) (t v : List Byte) : List Byte :=
  let f := waveFF l
  match l.comb.toNat with
  | 1 => slotMap f (fun x y => fOf 0 0 f 0 (x.add 0 y)) t v
  | 2 => slotMap f (fun x y => f.enc (x.max y)) t v
  | 3 => slotMap f (fun x y => f.enc (x.min y)) t v
  | _ => v

/-- Is an edge followed, its gate aside (R321)? -/
def GEdge.follows (e : GEdge) (l : GpLit) : Bool := e.rev == l.dir && (e.etype ^^^ l.etval) &&& l.etmask == 0

/-- A message of a fold engine on its way. -/
def State.post (s : State) (src core : Nat) (m : MsgBody) : State := { s with net := s.net ++ [⟨.fold src, core, m, false⟩] }

/-- `send` (R323): a marker message along every followed edge of a node. -/
def State.sendMarkers (s : State) (core : Nat) (f : Fold) (k : WaveKey) (l : GpLit) (n : GNode) (v : List Byte) (hops : Nat) : State :=
  let m := s.foldMem f
  let es := ((List.range n.ecount).map fun j => f.edge m (n.eoff + j)).filter fun e => e.follows l
  let one := fun (s : State) (e : GEdge) =>
    s.post core e.tcore (.marker k.1 k.2.1 k.2.2 f.name (bytesToBits 256 (weighted l e v)) hops e.tindex e.gate core)
  (es.foldl one s).modCount core k fun c => c.send es.length

/-- A start message at a fold (R313, R320, R323). -/
def State.startAt (s : State) (core : Nat) (f : Fold) (k : WaveKey) (w : WaveSpec) : State :=
  let one := fun (s : State) (i : Nat) =>
    let n := s.gnode f i
    match w with
    | .gmatch tval tmask v1 v2 c => if n.matched tval tmask v1 v2 c then s.matchNode f i n c else s
    | .gprop l a _ _ x _ =>
      if n.valid && n.markers.getLsbD a.toNat then
        s.sendMarkers core f k l n (if l.comb = 0 then List.replicate 32 0 else s.gslot f i x) l.h.toNat
      else s
  (List.range f.ncount).foldl one s

/-- The gate test of an arriving message (R321). -/
def gatePasses (l : GpLit) (gate : Bool) (markers : Word64) (g : BitVec 6) : Bool :=
  match l.gmode.toNat with
  | 0 => true
  | 1 => markers.getLsbD g.toNat
  | _ => !gate || markers.getLsbD g.toNat

/-- An arrival's event on its target node, past the gate (R323): the state, and the value to forward where there is one. -/
def State.arriveNode (s : State) (f : Fold) (i : Nat) (n : GNode) (l : GpLit) (b : BitVec 6) (y : Bool) (v : List Byte) : State × Option (List Byte) :=
  let marked := n.markers.getLsbD b.toNat
  let on := setBit n.markers b.toNat true
  match l.comb.toNat with
  | 0 => if marked then (s, none) else (s.setMarkers f i on, some (List.replicate 32 0))
  | c =>
    if c = 4 && marked then (s, none)
    else
      let old := s.gslot f i y
      let new := combined l old v
      let s := (s.setSlot f i y new).setMarkers f i on
      if c ≠ 1 && new == old then (s, none) else (s, some (if c = 1 then v else new))

/-- A marker message at a fold that has not taken an abort (R315, R321, R323). -/
def State.markerAt (s : State) (core : Nat) (f : Fold) (k : WaveKey) (w : WaveSpec) (i : Nat) (v : List Byte) (hops : Nat) (gate : Bool) : State :=
  let n := s.gnode f i
  if f.ncount ≤ i || !n.valid then s.modCount core k fun c => c.dropping (some (core * 4096 + i))
  else match w with
    | .gmatch _ _ _ _ _ => s
    | .gprop l _ b g _ y =>
      if !gatePasses l gate n.markers g then s
      else
        let (s, out) := s.arriveNode f i n l b y v
        match out with
        | none => s
        | some u => if hops = 1 then s else s.sendMarkers core f k l n u (hops - 1)

/-! ## Messages -/

/-- The wave that a fold engine's message names, and its graph. -/
def MsgBody.wave : MsgBody → Option (WaveKey × Nat)
  | .start r e n g => some ((r, e, n), g)
  | .marker r e n g _ _ _ _ _ => some ((r, e, n), g)
  | .notice r e n g _ => some ((r, e, n), g)
  | .abort r e n g => some ((r, e, n), g)
  | _ => none

/-- The flit of a marker message to a core (R314); the other messages of a fold engine have its layout with value, hops and target index zero: DESIGN CHOICE (log 25). -/
def MsgBody.flitTo (m : MsgBody) (core : Nat) : BitVec 512 :=
  let (k, graph) := m.wave.getD ((0, 0, 0), 0)
  let (v, hops, i) : BitVec 256 × Nat × Nat := match m with
    | .marker _ _ _ _ v hops i _ _ => (v, hops, i)
    | _ => (0, 0, 0)
  (v ++ 0#160 ++ BitVec.ofNat 12 (graph / 16) ++ (handleOf k).extractLsb' 0 44 ++ BitVec.ofNat 8 hops ++ 0#11 ++ BitVec.ofNat 9 core ++ BitVec.ofNat 12 i : BitVec 512)

/-- A fold takes a message of its graph. -/
def State.foldTakes (s : State) (core : Nat) (f : Fold) (m : MsgBody) : State :=
  match m.wave with
  | none => s
  | some (k, graph) =>
    let stopped := (f.count k).aborted
    match m with
    | .start _ _ _ _ =>
      let s := s.modCount core k WaveCount.receive
      match s.waveOf graph k with
      | some w => if stopped then s else s.startAt core f k w.spec
      | none => s
    | .marker _ _ _ _ v hops i gate _ =>
      let s := s.modCount core k WaveCount.receive
      match s.waveOf graph k with
      | some w => if stopped then s else s.markerAt core f k w.spec i (leBytes 32 v.toNat) hops gate
      | none => s
    | .notice _ _ _ _ t => s.modCount core k fun c => c.receive.dropping t
    | .abort _ _ _ _ => s.modCount core k fun c => { c with aborted := true }
    | _ => s

/-- The drop notice for a message that met no fold of its graph (R315). -/
def State.noFold (s : State) (core : Nat) (m : MsgBody) : State :=
  match m with
  | .start r e n g => s.post core r (.notice r e n g none)
  | .marker r e n g _ _ i _ sender => s.post core sender (.notice r e n g (some (core * 4096 + i)))
  | _ => s

/-- A message at its core: to the fold, to the bounce ring of an absent team (R319), or dropped. The answer is false where the ring has no room. -/
def State.foldDeliver (s : State) (src : Port) (core : Nat) (m : MsgBody) : State × Bool :=
  match m.wave with
  | none => (s, true)
  | some (_, graph) =>
    match s.foldIn core graph with
    | none => (s.noFold core m, true)
    | some f =>
      if !s.away f.team then (s.foldTakes core f m, true)
      else match s.entryOf f.team with
        | none => (s, true)
        | some e =>
          s.bounceTo e { pos := 0, off := f.nbase, src := src, remote := none, op := .msg m } 0 7 0 [] (leBytes 64 (m.flitTo core).toNat)

/-- The arrival of a message of one kind. -/
def State.foldEvent (s : State) (i : Nat) (kind : MsgBody → Bool) : State :=
  match s.net[i]? with
  | none => s
  | some m =>
    if !kind m.body || !s.msgFirst i m then s
    else
      let (s', ok) := s.foldDeliver m.src m.core m.body
      if ok then s'.dropMsg i else s'

def execStartMessageArrive (i : Nat) (s : State) : Out :=
  .next (s.foldEvent i fun m => match m with | .start _ _ _ _ => true | _ => false)
def execMarkerMessageArrive (i : Nat) (s : State) : Out :=
  .next (s.foldEvent i fun m => match m with | .marker _ _ _ _ _ _ _ _ _ => true | _ => false)
def execDropNoticeArrive (i : Nat) (s : State) : Out :=
  .next (s.foldEvent i fun m => match m with | .notice _ _ _ _ _ => true | _ => false)
def execAbortNoticeArrive (i : Nat) (s : State) : Out :=
  .next (s.foldEvent i fun m => match m with | .abort _ _ _ _ => true | _ => false)

/-! ## Starting a wave, sweeps and the end (R312, R313, R317, R318) -/

/-- Is a root fold's team on its core (R319)? -/
def State.rootHere (s : State) (f : Fold) : Bool := !(s.teamOf f.team).absent

/-- A held wave that no earlier live wave holds back starts: a start message to every member, and its first sweep is asked for. -/
def State.startWave (s : State) (root entry : Nat) : State :=
  match (s.coreOf root).fold with
  | none => s
  | some f =>
    match f.waveAt entry with
    | none => s
    | some w =>
      if w.status ≠ .held ∨ f.heldBack w ∨ !s.rootHere f then s
      else
        let k : WaveKey := (root, entry, w.serial)
        let w := { w with status := .running, sweep := 1, asked := f.members, sumS := 0, sumR := 0, sumA := false }
        let f := (f.setWave entry w).setCount k ((f.count k).send f.members.length)
        f.members.foldl (fun s c => s.post root c (.start root entry w.serial f.name)) (s.setFold root f)

/-- WAVE_START. -/
def execWaveStart (core entry : Nat) (s : State) : Out := .next (s.startWave core entry)

/-- Does an absent team's ring hold a message of a wave (R319)? -/
def Team.ringHolds (t : Team) (k : WaveKey) : Bool :=
  t.bounced.any fun b => match b.op with
    | .msg m => (m.wave.map (·.1)) == some k
    | _ => false

/-- What a member answers to a sweep, and its fold with the activity bit cleared; a core that has left the graph contributes nothing. -/
def State.answer (s : State) (core graph : Nat) (k : WaveKey) : WaveCount × State :=
  match s.foldIn core graph with
  | none => (⟨k.1, k.2.1, k.2.2, 0, 0, false, none, false⟩, s)
  | some f =>
    let c := f.count k
    let t := s.teamOf f.team
    ({ c with active := c.active || t.ringHolds k }, s.setFold core (f.setCount k { c with active := false }))

/-- Is an older packet of a root fold to a core still on its way? The sweep request, which follows it, has not arrived then (R386, R394). -/
def State.sweepBehind (s : State) (root core : Nat) : Bool := s.net.any fun m => m.src == .fold root && m.core == core && !m.body.isReply

/-- SWEEP_ANSWER: a member that the request has reached answers the sweep of a running wave; each event of a fold is whole, so the fold is idle (R316, R317). -/
def execSweepAnswer (core root entry : Nat) (s : State) : Out :=
  match (s.coreOf root).fold with
  | none => .next s
  | some f =>
    match f.waveAt entry with
    | none => .next s
    | some w =>
      if w.status ≠ .running ∨ core ∉ w.asked ∨ !s.rootHere f ∨ s.sweepBehind root core then .next s
      else
        let (c, s) := s.answer core f.name (root, entry, w.serial)
        let w := { w with asked := w.asked.filter (· != core), sumS := w.sumS + c.sent.toNat, sumR := w.sumR + c.recv.toNat,
                          sumA := w.sumA || c.active, drop := minDrop w.drop c.drop }
        match (s.coreOf root).fold with
        | none => .next s
        | some f => .next (s.setFold root (f.setWave entry w))

/-- Every fold forgets the counts of a wave that has ended. -/
def State.forgetWave (s : State) (k : WaveKey) : State :=
  { s with cores := s.cores.map fun (c : Nat × Core) =>
      (c.1, { c.2 with fold := c.2.fold.map fun f => { f with counts := f.counts.filter fun d => !d.has k } }) }

def WaveStatus.code : WaveStatus → Nat
  | .held => 0 | .running => 1 | .ended => 2 | .aborted => 3 | .faulted => 4

/-- The status word of a wave, given its root's number of live waves; with no wave, that of an entry that no longer holds it (R325). -/
def statusWord (live : Nat) (w : Option Wave) : Word64 :=
  match w with
  | none => BitVec.ofNat 64 (live * 256 + 7)
  | some w => BitVec.ofNat 64 ((if w.status = .faulted then w.drop.getD 0 else 0) * 2 ^ 32 + live * 256 + w.status.code)

/-- Every GWAIT on a wave ends, with the status that it returns (R318, R329). -/
def State.endGwaits (s : State) (graph : Nat) (k : WaveKey) (st : Word64) : State :=
  let waits := s.harts.flatMap fun (x : HartId × Hart) => match x.1 with
    | .group t g => [false, true].filterMap fun p =>
        if x.2.live && (x.2.path p).susp == some (.wave graph k.1 k.2.1 k.2.2) then some (t, g, p) else none
    | .bank _ => []
  waits.foldl (fun s x => s.wake x.1 x.2.1 x.2.2 (some (.data (st.setWidth 2048)))) s

/-- The last events of a wave, in their order (R318): its final status, the waves that it held, the fall of its group's counter, and the end of every GWAIT on it. -/
def State.endWave (s : State) (root entry : Nat) (f : Fold) (w : Wave) : State :=
  let k : WaveKey := (root, entry, w.serial)
  let st : WaveStatus := if w.drop.isSome then .faulted else if w.aborting then .aborted else .ended
  let w := { w with status := st }
  let s := (s.setFold root (f.setWave entry w)).forgetWave k
  let s := (List.range 8).foldl (fun s e => s.startWave root e) s
  let live := (((s.foldIn root f.name).map fun f => f.liveWaves.length)).getD 0
  (s.completeOp (.group w.team w.gid) kGraph (waveOp k)).endGwaits f.name k (statusWord live (some w))

/-- SWEEP_RESULT: the root has every answer: the wave ends, or another sweep begins (R317). -/
def execSweepResult (root entry : Nat) (s : State) : Out :=
  match (s.coreOf root).fold with
  | none => .next s
  | some f =>
    match f.waveAt entry with
    | none => .next s
    | some w =>
      if w.status ≠ .running ∨ !w.asked.isEmpty ∨ !s.rootHere f then .next s
      else if 2 ≤ w.sweep ∧ w.sumS = w.sumR ∧ !w.sumA ∧ w.sumS = w.lastS ∧ w.sumR = w.lastR then .next (s.endWave root entry f w)
      else
        .next (s.setFold root (f.setWave entry
          { w with sweep := w.sweep + 1, lastS := w.sumS, lastR := w.sumR, sumS := 0, sumR := 0, sumA := false, asked := f.members }))

/-! ## GCFG (R326) -/

/-- The window-0xD address of an allocation offset. -/
def spadAddr (o : Word64) : Word64 := 0x00D0000000000000 + o

/-- A fold descriptor as its fields (R306), or none where a reserved field is not zero or a limit is broken. -/
def foldOf (team asid size : Nat) (d : BitVec 256) : Option Fold :=
  let x := d.toNat
  let f : Fold :=
    { team := team, asid := asid, graph := bitsOf x 3 0, root := bitsOf x 168 160, nbase := bitsOf x 63 32, sbase := bitsOf x 95 64,
      ebase := bitsOf x 127 96, ncount := bitsOf x 143 128, ecount := bitsOf x 159 144, counts := [], members := [],
      waves := List.replicate 8 none, nextSerial := 0 }
  let ends := fun (b n : Nat) => decide (b + n ≤ size)
  let apart := fun (b n c m : Nat) => n == 0 || m == 0 || decide (b + n ≤ c) || decide (c + m ≤ b)
  let n := 64 * f.ncount
  let e := 8 * f.ecount
  if bitsOf x 255 169 = 0 ∧ bitsOf x 31 4 = 0 ∧ f.root < 288 ∧ 1 ≤ f.ncount ∧ f.ncount ≤ 4096 ∧ f.ecount ≤ 16384 ∧ f.nbase % 64 = 0
      ∧ f.sbase % 64 = 0 ∧ f.ebase % 8 = 0 ∧ ends f.nbase n ∧ ends f.sbase n ∧ ends f.ebase e
      ∧ apart f.nbase n f.sbase n ∧ apart f.nbase n f.ebase e ∧ apart f.sbase n f.ebase e then some f
  else none

/-- The cores that hold a fold of a graph. -/
def State.membersOf (s : State) (graph : Nat) : List Nat :=
  s.cores.filterMap fun (c : Nat × Core) => if (c.2.fold.map Fold.name) = some graph then some c.1 else none

/-- May a fold join its graph: the root core holds the root fold or is this core, and no other core holds one (R326)? -/
def State.mayJoin (s : State) (core : Nat) (f : Fold) : Bool :=
  let members := s.membersOf f.name
  (core == f.root || decide (f.root ∈ members))
    && s.cores.all fun c => (c.2.fold.map fun g => g.name == f.name && g.root == c.1 && c.1 != f.root) != some true

/-- Binds a fold: the member set gains the core; a root fold starts its member set and its wave table (R332). -/
def State.bindFold (s : State) (core : Nat) (f : Fold) : State :=
  if core = f.root then s.setFold core { f with members := insertNew core (s.membersOf f.name) }
  else
    let s := s.setFold core f
    match (s.coreOf f.root).fold with
    | some r => s.setFold f.root { r with members := insertNew core r.members }
    | none => s

def execGcfg (a : Src) (s : State) : Out :=
  s.finish do
    let o ← s.opnd a
    s.drained .team
    let t := s.team
    let va := spadAddr o
    need (o.toNat % 32 == 0 && decide (o.toNat + 32 ≤ t.spadBytes)) .accessViolation va
    need (!t.markedAt o.toNat 32) .poison va
    match foldOf s.cur.team s.hart.asid.toNat t.spadBytes (bytesToBits 256 (t.mem.read o.toNat 32)) with
    | none => raise .graphBound va
    | some f => do
      need ((s.coreOf t.core).fold.isNone && s.mayJoin t.core f) .graphBound va
      let bad := (List.range f.ncount).find? fun i => let n := s.gnode f i; n.valid && decide (f.ecount < n.eoff + n.ecount)
      match bad with
      | some i => raise .graphBound (spadAddr (BitVec.ofNat 64 (f.nbase + 64 * i)))
      | none => return (s.bindFold t.core f).retire 1 Latch.none

def execGcfgUn (s : State) : Out :=
  s.finish do
    let c := s.team.core
    match (s.coreOf c).fold with
    | none => raise .graphBound 0
    | some f => do
      need (f.team == s.cur.team) .graphBound 0
      need (((s.rootOf f).map fun r => r.liveWaves.isEmpty).getD true) .graphBound 0
      need (c != f.root || f.members.all (· == c)) .graphBound 0
      return (s.unbindFold c).retire 1 Latch.none

/-! ## Waves of a group (R327 to R329) -/

/-- A wave is asked of the root: accepted into the lowest free entry with the next serial, started where nothing holds it back, its handle returned. -/
def State.askWave (s : State) (d : Dst) (spec : WaveSpec) : Res State := do
  let f ← s.myFold
  match s.rootOf f with
  | none => raise .graphBound 0
  | some r => do
    await (s.rootHere r)
    match r.freeEntry with
    | none => raise .waveLimit 0
    | some e => do
      await (decide (s.hart.counter kGraph < 65535))
      let k : WaveKey := (r.root, e, r.nextSerial)
      let w : Wave :=
        { serial := r.nextSerial, team := s.cur.team, gid := s.cur.gid, spec := spec, status := .held, drop := none,
          aborting := false, asked := [], sweep := 0, sumS := 0, sumR := 0, sumA := false, lastS := 0, lastR := 0 }
      let s := s.setFold r.root { r.setWave e w with nextSerial := r.nextSerial + 1 }
      let s := s.setHart (s.hart.raiseCtr kGraph (waveOp k))
      return (s.startWave r.root e).retireS 2 d (handleOf k)

def execGmatch (d : Dst) (a b : Src) (l : GmLit) (s : State) : Out :=
  s.finish do
    let v ← s.opnd a
    let c ← s.opnd b
    s.notInRegion
    let ctl : BitVec 21 := c.extractLsb' 0 21
    needOp (c.extractLsb' 21 43 == 0 && (if (ctlAct ctl).toNat < 2 then !ctlY ctl else ctlBit ctl == 0))
    s.askWave d (.gmatch l.tval l.tmask (v.extractLsb' 0 32) (v.extractLsb' 32 32) ctl)

def execGprop (d : Dst) (a : Src) (l : GpLit) (s : State) : Out :=
  s.finish do
    let m ← s.opnd a
    s.notInRegion
    let x := m.getLsbD 24
    let y := m.getLsbD 25
    let g : BitVec 6 := m.extractLsb' 16 6
    needOp (m &&& 0xFFFFFFFFFCC0C0C0 == 0 && decide (l.comb.toNat ≤ 4) && l.gmode != 3)
    needOp (!(l.comb == 0 && (l.w || l.ef || x || y)) && !(l.gmode == 0 && g != 0) && !(l.comb == 1 && l.h == 0))
    s.askWave d (.gprop l (m.extractLsb' 0 6) (m.extractLsb' 8 6) g x y)

/-- The wave that a handle names, with the fold of the issuer's graph on the core that it names as root; none where the entry no longer holds it, or where that fold is no root and keeps no wave table (R307, R325, R329). -/
def State.handled (s : State) (a : Src) : Res (WaveKey × Fold × Option Wave) := do
  let h ← s.opnd a
  needOp (h.extractLsb' 44 20 == 0)
  let f ← s.myFold
  let k : WaveKey := ((h.extractLsb' 3 9).toNat, (h.extractLsb' 0 3).toNat, h.extractLsb' 12 32)
  match s.foldIn k.1 f.name with
  | none => raise .graphBound h
  | some r => return (k, r, (r.waveAt k.2.1).filter fun w => w.serial == k.2.2)

/-- The number of live waves in the table of the root of a fold's graph. -/
def State.graphLive (s : State) (f : Fold) : Nat := ((s.rootOf f).map fun r => r.liveWaves.length).getD 0

/-- GWAIT: it suspends while the wave is live; the end of the wave hands it the status (R318, R329). -/
def execGwait (d : Dst) (a : Src) (s : State) : Out :=
  s.finish (
    match s.path.grant with
    | some (.data v) => .ok (s.dropL1.retireS 1 d (v.setWidth 64))
    | _ => do
      let (k, r, w) ← s.handled a
      match w with
      | none => return s.retireS 1 d (statusWord (s.graphLive r) none)
      | some x =>
        if x.live then .error (.suspend (.wave r.name k.1 k.2.1 k.2.2))
        else return s.dropL1.retireS 1 d (statusWord (s.graphLive r) w))

def execGstat (d : Dst) (a : Src) (s : State) : Out :=
  s.finish do
    let (_, r, w) ← s.handled a
    return s.retireS 1 d (statusWord (s.graphLive r) w)

/-- GABORT: a live wave is aborting, and every member is told (R324). -/
def execGabort (a : Src) (s : State) : Out :=
  s.finish do
    let (k, r, w) ← s.handled a
    match w with
    | none => return s.retire 1 Latch.none
    | some x =>
      if x.live && !x.aborting then
        let s := s.setFold k.1 (r.setWave k.2.1 { x with aborting := true })
        return (r.members.foldl (fun s c => s.post k.1 c (.abort k.1 k.2.1 k.2.2 r.name)) s).retire 1 Latch.none
      else return s.retire 1 Latch.none

/-! ## Local reads and writes (R330) -/

/-- The nodes that GCOLLECT or GCLR touches now, each an event of its own: how many of those that are left is the device's choice, all of them at 0 (R313, R330). -/
def State.nodesNow (s : State) (f : Fold) : List Nat :=
  let had := s.path.part.length
  let left := f.ncount - had
  (List.range (if s.choice = 0 then left else Nat.min s.choice left)).map (had + ·)

/-- GCOLLECT reads its nodes one by one, and stores when it has read the last (R330). -/
def execGcollect (d : Dst) (a b : Src) (s : State) : Out :=
  s.finish do
    let k ← s.opnd b
    let o ← s.opnd a
    let f ← s.myFold
    let hit := fun (i : Nat) => let n := s.gnode f i; n.valid && n.markers &&& k == k
    let part := s.path.part ++ (s.nodesNow f).map fun i => (i, if hit i then 1 else 0)
    let s := s.chosen
    if part.length < f.ncount then return s.setPath { s.path with part := part, stalled := true } else
    let L := (part.filter fun p => p.2 == 1).map (·.1)
    let va := spadAddr o
    need (o.toNat % 4 == 0) .misaligned va
    let n := 4 * L.length
    need (decide (o.toNat + n ≤ s.team.spadBytes) && !(n != 0 && s.inFold s.team.core s.cur.team o.toNat n)) .accessViolation va
    let core := s.team.core
    let bs := L.flatMap fun i => leBytes 4 (core * 4096 + i)
    let s ← if n = 0 then .ok s else s.storeBytes va n [(⟨.spad s.cur.team o.toNat, false⟩, bs)] false .grp
    return s.retireS 1 d (BitVec.ofNat 64 L.length)

/-- GCLR clears its nodes one by one (R330). -/
def execGclr (a b : Src) (s : State) : Out :=
  s.finish do
    let m ← s.opnd a
    let x ← s.opnd b
    needOp (x.extractLsb' 2 62 == 0)
    let f ← s.myFold
    let one := fun (s : State) (i : Nat) =>
      let s := s.setMarkers f i ((s.gnode f i).markers &&& ~~~m)
      let s := if x.getLsbD 0 then s.setSlot f i false (List.replicate 32 0) else s
      if x.getLsbD 1 then s.setSlot f i true (List.replicate 32 0) else s
    let now := s.nodesNow f
    let part := s.path.part ++ now.map fun i => (i, 0)
    let s := (now.foldl one s).chosen
    if part.length < f.ncount then return s.setPath { s.path with part := part, stalled := true }
    else return s.retire 1 Latch.none

/-- The node of the core's fold that an identifier names. -/
def State.nodeNamed (s : State) (a : Src) : Res (Fold × Nat) := do
  let x ← s.opnd a
  let f ← s.myFold
  let i := x.toNat % 4096
  need (decide (x.toNat / 4096 = s.team.core) && decide (i < f.ncount) && (s.gnode f i).valid) .graphBound x
  return (f, i)

def execGvld (d : Dst) (a : Src) (y : Bool) (s : State) : Out :=
  s.finish do
    let _ ← s.opnd a
    needOp s.wholePath
    s.heldDst d 1
    let (f, i) ← s.nodeNamed a
    let off := f.slotAt i y
    need (!(s.teamOf f.team).markedAt off 32) .poison (spadAddr (BitVec.ofNat 64 off))
    let (s, b) := s.putReg d (bytesToBits 2048 (s.gslot f i y))
    return s.retire 1 b

def execGvst (d : BitVec 6) (a : Src) (y : Bool) (s : State) : Out :=
  s.finish do
    let _ ← s.opnd a
    needOp s.wholePath
    s.heldRegs d.toNat 1
    let (f, i) ← s.nodeNamed a
    return (s.setSlot f i y ((s.tileReg d).take 32)).retire 1 Latch.none

end Sys2Proof.Machine
end

