-- ==== Sys2Proof/Machine/Place.lean ====
section
/-! DEFINITION. Room for teams: what a core has free (R81, R82, R84, R90, R203, R373), spill stores (R199), and what a team is when it has been placed (R15, R17, R87, R162, R203, R204, R264, R274). -/

namespace Sys2Proof.Machine

/-! ## What is taken -/

/-- A reserve core (R370). -/
def reserveCore (c : Nat) : Bool := decide (c % 36 ∈ [0, 5, 30, 35])

def budgetOf (rs : List Role) : Nat := sumNat (rs.map Role.budget)
def groupsOf (rs : List Role) : Nat := sumNat (rs.map Role.groups)
def Header.units (h : Header) : Nat := h.spad / 4
/-- The bytes of a group's spill store (R199). -/
def Header.spill (h : Header) : Nat := h.priv * 65536 + 131072

/-- The teams that are resident on a core. -/
def State.teamsOn (s : State) (c : Nat) : List (Nat × Team) := s.teams.filter fun (t : Nat × Team) => t.2.live && !t.2.absent && t.2.core == c

/-- The node that an entry of a queue of teams belongs to. -/
def State.nodeOf (s : State) (e : ReadyTeam) : Option NodeRun := s.nodeRun e.launch e.node
/-- The awards that a core has accepted and not yet started, with their headers (R350). -/
def State.awardsOn (s : State) (c : Nat) : List (ReadyTeam × Nat × Header) :=
  s.ready.filterMap fun e => match e.awarded, s.nodeOf e with
    | some (d, base), some n => if d = c then some (e, base, n.header) else none
    | _, _ => none

/-- Which occupation of a core is not counted: whole teams, groups of teams that stay, and, with `given`, the blocks that evicted groups have given up (R371). Without it a resident team's whole budgets count (R90). -/
structure Less where
  teams : List Nat
  groups : List (Nat × Nat)
  given : Bool
deriving DecidableEq, Repr
/-- Everything counts. -/
def Less.none : Less := ⟨[], [], false⟩
/-- What evicted groups have given up is free. -/
def Less.evicted : Less := ⟨[], [], true⟩

/-- The resident teams that count. -/
def State.staying (s : State) (c : Nat) (w : Less) : List (Nat × Team) := (s.teamsOn c).filter fun (t : Nat × Team) => !decide (t.1 ∈ w.teams)
/-- Has a group given up its blocks? -/
def State.gone (s : State) (w : Less) (k g : Nat) : Bool :=
  decide ((k, g) ∈ w.groups) || (w.given && (s.hartOf (.group k g)).evicted)

/-- How many groups each quadrant of a core runs; an evicted group runs on none. -/
def State.quadLoad (s : State) (c : Nat) (w : Less) : List Nat :=
  (List.range 4).map fun q => sumNat ((s.staying c w).map fun (t : Nat × Team) =>
    ((s.liveGids t.1).filter fun g => !decide ((t.1, g) ∈ w.groups) && !(s.hartOf (.group t.1 g)).evicted && (s.hartOf (.group t.1 g)).quad == q).length)

/-- The quadrant with the fewest groups, the lowest number of equals (R82). -/
def leastQuad (load : List Nat) : Nat :=
  (List.range 4).foldl (fun b q => if load.getD q 0 < load.getD b 0 then q else b) 0
/-- The quadrants that n groups go to in turn, and the load that follows. -/
def takeQuads : (n : Nat) → List Nat → List Nat × List Nat
  | 0, load => ([], load)
  | n + 1, load =>
    let q := leastQuad load
    let (qs, l) := takeQuads n (modifyAt (· + 1) q load)
    (q :: qs, l)
/-- Does a load keep the limits of R81? -/
def loadOk (load : List Nat) : Bool := load.all (fun n => decide (n ≤ 8)) && decide (sumNat load ≤ 32)

/-- The lowest start of n free units in [lo, hi), apart from runs that are taken. -/
def lowestRun (lo hi n : Nat) (taken : List (Nat × Nat)) : Option Nat :=
  let ok := fun (a : Nat) => decide (lo ≤ a) && decide (a + n ≤ hi) && taken.all fun r => decide (a + n ≤ r.1) || decide (r.1 + r.2 ≤ a)
  ((lo :: taken.map fun (r : Nat × Nat) => r.1 + r.2).filter ok).min?

/-! ## Spill stores (R199) -/

/-- The runs of a context's spill pool that groups hold. -/
def State.spillTaken (s : State) (asid : Nat) : List (Nat × Nat) :=
  s.teams.flatMap fun (t : Nat × Team) =>
    if t.2.live && t.2.asid == asid then
      (s.liveGids t.1).map fun g => ((s.hartOf (.group t.1 g)).spbase.toNat - 65536, t.2.priv * 65536 + 131072)
    else []

/-- Runs for n spill stores of one size, each the lowest free one. -/
def spillRuns (lo hi size : Nat) : (n : Nat) → List (Nat × Nat) → Option (List Nat)
  | 0, _ => some []
  | n + 1, taken =>
    match lowestRun lo hi size taken with
    | none => none
    | some a => (spillRuns lo hi size n ((a, size) :: taken)).map (a :: ·)

/-- The spill bases of the groups of one team; none when the pool cannot supply them, or the context's record is not valid (R360). -/
def State.spillFor (s : State) (asid : Nat) (h : Header) : Option (List Nat) :=
  let c := s.ctx asid
  if !c.valid then none
  else (spillRuns c.spool.toNat (c.spool.toNat + c.spsize * 65536) h.spill (groupsOf h.roles) (s.spillTaken asid)).map
    fun as => as.map (· + 65536)

/-! ## Fit (R82, R84, R90, R345) -/

/-- The units of a core's scratchpad that teams and awards hold. -/
def State.unitsTaken (s : State) (c : Nat) (w : Less) : List (Nat × Nat) :=
  (s.staying c w).map (fun (t : Nat × Team) => (t.2.pbase, t.2.spad / 4)) ++ (s.awardsOn c).map fun a => (a.2.1, a.2.2.units)
/-- The windows of a context's entries in a core's port translation table. -/
def State.windowsTaken (s : State) (c asid : Nat) : List (Nat × Nat) :=
  (s.coreOf c).ports.filterMap fun e => if e.valid && e.asid == asid then some (e.wbase, e.size) else none
/-- Where the allocation of a new team would lie: the lowest free run whose window no entry of the context has (R204; log 24). -/
def State.freeUnits (s : State) (c asid n : Nat) (w : Less) : Option Nat := lowestRun 0 256 n (s.unitsTaken c w ++ s.windowsTaken c asid)

/-- The blocks that groups of a team have given up. -/
def State.givenBlocks (s : State) (w : Less) (k : Nat) : Nat :=
  sumNat (((s.liveGids k).filter (s.gone w k)).map fun g => popcount (s.hartOf (.group k g)).held.toNat 4)
/-- The budgets of the teams on a core, awards included, less what groups have given up. -/
def State.budgetsOn (s : State) (c : Nat) (w : Less) : Nat :=
  sumNat ((s.staying c w).map fun (t : Nat × Team) => budgetOf t.2.roles - s.givenBlocks w t.1)
    + sumNat ((s.awardsOn c).map fun a => budgetOf a.2.2.roles)
/-- The free register blocks of a core (R345). -/
def State.freeBlocks (s : State) (c : Nat) : Nat := 255 - s.budgetsOn c Less.none

/-- Does a core's port translation table have room for one more entry (R373)? -/
def Core.portRoom (c : Core) : Bool := decide ((c.ports.filter PortEntry.valid).length < 16)

/-- What a team takes of a core: groups, blocks, accumulator tiles. -/
structure Need where
  groups : Nat
  blocks : Nat
  accs : Nat
deriving DecidableEq, Repr
def Header.need (h : Header) : Need := ⟨groupsOf h.roles, budgetOf h.roles, h.accs⟩

/-- Are there group places and register blocks for a need (R81, R82, R90)? -/
def State.groupRoom (s : State) (c : Nat) (n : Need) (w : Less) : Bool :=
  let reserved := (s.awardsOn c).map fun a => groupsOf a.2.2.roles
  loadOk (takeQuads (sumNat reserved + n.groups) (s.quadLoad c w)).2 && decide (s.budgetsOn c w + n.blocks ≤ 255)
/-- Are there a team slot and accumulator tiles for a need (R81, R84)? -/
def State.teamRoom (s : State) (c : Nat) (n : Need) (w : Less) : Bool :=
  let ts := s.staying c w
  let aw := s.awardsOn c
  decide (ts.length + aw.length < 4)
    && decide (sumNat (ts.map fun (t : Nat × Team) => t.2.accs) + sumNat (aw.map fun a => a.2.2.accs) + n.accs ≤ 64)

/-- Has a core room for a new team, apart from its spill stores; where its allocation would lie. -/
def State.roomOn (s : State) (c asid prio : Nat) (h : Header) (w : Less) : Option Nat :=
  if (reserveCore c && decide (prio < 10)) || !s.groupRoom c h.need w || !s.teamRoom c h.need w || !(s.coreOf c).portRoom then none
  else s.freeUnits c asid h.units w
/-- Can the context supply the spill stores of a new team? -/
def State.spillRoom (s : State) (asid : Nat) (h : Header) : Bool := (s.spillFor asid h).isSome
/-- Does a new team fit on a core; where its allocation would lie. -/
def State.fitsOn (s : State) (c asid prio : Nat) (h : Header) (w : Less) : Option Nat :=
  if s.spillRoom asid h then s.roomOn c asid prio h w else none

/-- The core for a team: the one with the most free register blocks, the lowest number of equals (R345). -/
def State.bestCore (s : State) (asid prio : Nat) (h : Header) (w : Less) (cores : List Nat) : Option (Nat × Nat) :=
  if !s.spillRoom asid h then none
  else cores.foldl (fun (best : Option (Nat × Nat)) c =>
    match s.roomOn c asid prio h w with
    | none => best
    | some p => match best with
      | none => some (c, p)
      | some (b, q) => if s.freeBlocks b < s.freeBlocks c then some (c, p) else some (b, q)) none

def allCores : List Nat := List.range 288

/-! ## A placed team -/

/-- The registers of a group at its first instruction (R15, R17, R87); it is ready from now on (R100). -/
def startHart (n : Node) (h : Header) (asid spbase role quad tick : Nat) (r : Role) : Hart :=
  let x := Hart.reset
  let regs := (List.range 15).foldl (fun v i => vset v (i + 1) (vget n.args i 0)) x.s
  { x with s := regs, held := BitVec.ofNat 4 (2 ^ r.slots - 1), slimit := BitVec.ofNat 64 ((h.priv - h.stack) * 65536),
           sbase := BitVec.ofNat 64 (h.priv * 65536), spbase := BitVec.ofNat 64 spbase, asid := BitVec.ofNat 64 asid,
           prio := BitVec.ofNat 64 n.prio, role := role, quad := quad, live := true,
           p0 := { Path.first with pc := r.entry, since := tick } }

/-- The sequencer of a placed team (R162). -/
def startSeq (n : Node) (h : Header) : Seq :=
  if h.stream = 0 then Seq.reset
  else { Seq.reset with st := .running, spc := h.stream, q := (List.range 15).foldl (fun v i => vset v (i + 1) (vget n.args i 0)) Seq.reset.q }

/-- The device's key of what it reads for a node of a launch. -/
def nodeKey (launch node : Nat) : Nat := 2 ^ 16 + 4096 * launch + node

/-- The images of the template slots that a placement loads, as they are read. -/
def State.images (s : State) (key asid : Nat) (h : Header) : List (Nat × Except DevErr (List Byte)) :=
  if h.tmpl = 0 then [] else (List.range h.ntmpl).map fun k => (k, s.vfetch key asid true (h.tmpl.toNat + 64 * k) 64)
/-- What is still to come of other devices before a team can be placed. -/
def State.imagesAsk (s : State) (key asid : Nat) (h : Header) : List (Nat × Nat) :=
  (s.images key asid h).flatMap fun i => match i.2 with | .error (.ask reqs) => reqs | _ => []
/-- The template slots that a placement loads; an image that cannot be read leaves its slot zero (R264). -/
def State.templates (s : State) (key asid : Nat) (h : Header) : Mem :=
  (s.images key asid h).foldl (fun m i => match i.2 with
    | .ok bs => Mem.write m (64 * i.1) bs
    | .error _ => m) []

/-- The lowest team slot of a core that no resident team has. -/
def State.freeSlot (s : State) (c : Nat) : Nat :=
  ((List.range 4).find? fun i => (s.teamsOn c).all fun (t : Nat × Team) => t.2.slot != i).getD 0

/-- Puts an entry into the first place of a port translation table that holds none. -/
def addPort (e : PortEntry) : List PortEntry → List PortEntry
  | [] => [e]
  | x :: xs => if x.valid then x :: addPort e xs else e :: xs

/-- The role of each group of a team, by gid (R85). -/
def rolesByGid (rs : List Role) : List (Nat × Role) :=
  ((List.range rs.length).zip rs).flatMap fun (r : Nat × Role) => List.replicate r.2.groups r

/-- A team is placed: its resources, its entry, its groups on their quadrants and its sequencer; its key. -/
def State.placeTeam (s : State) (c base asid : Nat) (n : Node) (h : Header) (launch node tid : Nat) (serial : Option Word32) : State × Nat :=
  let k := s.nextTeam
  let spill := (s.spillFor asid h).getD []
  let t : Team :=
    { Team.vacant with
        live := true, core := c, slot := s.freeSlot c, asid := asid, prio := n.prio, tid := tid, launch := launch, node := node,
        feat := h.feat, priv := h.priv, stack := h.stack, spad := h.spad, accs := h.accs, grid := h.grid, roles := h.roles,
        groups := groupsOf h.roles, pbase := base, wbase := base, tmpl := s.templates (nodeKey launch node) asid h, seq := startSeq n h, serial := serial,
        bars := n.bars.map fun x => ⟨x &&& 0xFFFF, 0, 0⟩ }
  let quads := (takeQuads (groupsOf h.roles) (s.quadLoad c Less.evicted)).1
  let start := fun (s : State) (x : Nat × Nat × Role) =>
    s.setHartOf (.group k x.1) (startHart n h asid (spill.getD x.1 0) x.2.1 (quads.getD x.1 0) s.tick x.2.2)
  let rs := rolesByGid h.roles
  let core := s.coreOf c
  let e : PortEntry :=
    { ring := 0, asid := asid, wbase := base, size := h.units, pbase := base, absent := false, valid := true, team := k }
  let s := ({ s with nextTeam := k + 1 }.setTeamOf k t).setCoreOf c { core with ports := addPort e core.ports }
  (((List.range rs.length).zip rs).foldl start s, k)

end Sys2Proof.Machine
end

