-- ==== Sys2Proof/Machine/Fabric.lean ====
section
/-! DEFINITION. The Wifel fabric: packets that arrive (R398 to R406), paths that go down (R406), the route table (R395, R396), and fabric regions (R407 to R412). -/

namespace Sys2Proof.Machine

/-! ## The header and the route (R397, R398) -/

/-- The header flit of a packet. -/
def pktHeader (p : FabPkt) : BitVec 512 :=
  p.bmask ++ p.region ++ p.control ++ p.seq ++ (0 : BitVec 18) ++ p.psn ++ p.addr ++ (0 : BitVec 30) ++ p.gid ++ p.core ++ p.asid ++ p.src
    ++ p.dst ++ p.route ++ p.len ++ p.hop ++ p.path ++ BitVec.ofBool p.enc ++ BitVec.ofBool p.rg ++ BitVec.ofBool p.ofl
    ++ BitVec.ofNat 3 ((p.data.length + 63) / 64) ++ p.kind

/-- The link that a packet's header names for its hop. -/
def hopLink (p : FabPkt) : Nat := p.route.toNat / 2 ^ (5 * p.hop.toNat) % 32

/-- A packet for another device goes on by the link that its header names for its hop, with the hop field raised (R397). One that names no further link is discarded and logged: DESIGN CHOICE (log 12). -/
def State.transit (s : State) (p : FabPkt) : State :=
  if p.hop.toNat < p.len.toNat ∧ hopLink p < 18 then { s with fabric := { s.fabric with wire := s.fabric.wire ++ [{ p with hop := p.hop + 1 }] } }
  else s.logError .link 0 p.src.toNat p.asid.toNat p.gid.toNat (p.addr.setWidth 64)

/-! ## Packets that arrive -/

/-- Has the packet's number been applied already (R398)? -/
def State.seen (s : State) (p : FabPkt) : Bool := decide ((p.src.toNat, p.seq) ∈ s.fabric.applied)
def State.markSeen (s : State) (p : FabPkt) : State := { s with fabric := { s.fabric with applied := (p.src.toNat, p.seq) :: s.fabric.applied } }

/-- Where a packet's address lies on this device (R400). -/
inductive PktPlace where
  | home (key : Nat)
  | tile (w : WinPlace) (core off : Nat)
  | nowhere
deriving DecidableEq, Repr

def State.pktPlace (s : State) (p : FabPkt) : PktPlace :=
  let a := p.addr.toNat
  if spadView ≤ a ∧ a < spadView + 288 * 2 ^ 20 then
    let core := (a - spadView) / 2 ^ 20
    let off := (a - spadView) % 2 ^ 20
    .tile (s.winPlace core off p.asid.toNat) core off
  else match homeKey a with
    | some k => .home k
    | none => .nowhere

/-- Do two packets come from one group? -/
def sameGroup (p q : FabPkt) : Bool := p.src == q.src && p.core == q.core && p.gid == q.gid

/-- What a read packet says in its data word beside its block: bit 0, the line is to be held for a store; bit 1, the block lies in a result row; bit 2, the line is the block's second (log 12). -/
def readWord (p : FabPkt) : Nat := leNat (p.data.take 8)
def readHolds (p : FabPkt) : Bool := readWord p % 2 == 1
def readsRow (p : FabPkt) : Bool := readWord p / 2 % 2 == 1
/-- The line that an encrypted read asks for. -/
def readLine (p : FabPkt) : Nat := p.addr.toNat / 128 + readWord p / 4 % 2
/-- The line that an encrypted write or stage packet writes: the half of its block that bmask enables. -/
def writeLine (p : FabPkt) : Nat := p.addr.toNat / 128 + (if p.bmask.getLsbD 0 then 0 else 1)

/-- The line of this device that an encrypted packet acts on, by bank location. -/
def pktLine (p : FabPkt) : Option Nat :=
  (homeKey (128 * if p.kind = 0x01 then readLine p else writeLine p)).map (· / 128)

/-- Must a read, a write, a put or an atomic wait: for a line that another device holds (R414), for a result row whose job runs (R302), for the commit of its group's staged lines (R409), or behind a waiting packet of its group to its block (R401)? -/
def State.mustWait (s : State) (p : FabPkt) (before : List FabPkt) : Bool :=
  let k := p.kind.toNat
  let held := match s.pktPlace p with
    | .home k => if p.enc then p.kind == 0x01 && (pktLine p).any fun l => s.lineHeld (128 * l) else s.lineHeld k || s.lineHeld (k + 128)
    | _ => false
  let row := match s.pktPlace p with
    | .home k => p.kind == 0x01 && readsRow p && (match s.rowCheck k 256 0 with | .error .stall => true | _ => false)
    | _ => false
  let behind := (s.fabric.staging.any fun x => sameGroup x.pkt p)
    || before.any fun q => sameGroup q p && (q.kind == 0x21 || (!q.enc && !p.enc && q.addr.toNat / 256 == p.addr.toNat / 256))
  decide (1 ≤ k) && decide (k ≤ 5) && !s.seen p && (held || row || (!(k == 1 && readHolds p) && behind))

/-- A packet that has to wait is kept, once. -/
def State.parkPkt (s : State) (p : FabPkt) : State :=
  if s.fabric.parked.any fun q => q.src == p.src && q.seq == p.seq then s
  else { s with fabric := { s.fabric with parked := s.fabric.parked ++ [p] } }

/-- A packet of one of some kinds arrives: one for another device goes on, one that has to wait is kept, and else it acts. -/
def State.arrive (s : State) (p : FabPkt) (kinds : List Nat) (act : State → State) : Out :=
  .next (if p.dst != s.fabric.device then s.transit p
    else if !decide (p.kind.toNat ∈ kinds) then s
    else if s.mustWait p s.fabric.parked then s.parkPkt p
    else act s)

/-- The psn bits of 256 bytes: the granules whose bytes are poisoned. -/
def psnOf (bad : Nat → Bool) : BitVec 4 := BitVec.ofNat 4 ((List.range 4).foldl (fun n g => if bad g then n + 2 ^ g else n) 0)

/-- An answer goes back on the path of its packet (R401). -/
def State.answerPkt (s : State) (p q : FabPkt) : State := s.sendOn q p.path

/-- A line of this device is held for a device's store (R414). -/
def State.hold (s : State) (src line : Nat) : State := { s with fabric := { s.fabric with fsHeld := insertNew (src, line) s.fabric.fsHeld } }
/-- A line that a device has written is free, unless another store of the device to it is staged. -/
def State.unhold (s : State) (src line : Nat) : State :=
  if s.fabric.staging.any fun x => x.pkt.enc && x.src == src && pktLine x.pkt == some line then s
  else { s with fabric := { s.fabric with fsHeld := s.fabric.fsHeld.filter (· != (src, line)) } }

/-- Serves a read: the block at its home, a fabric-shared line with its entry as ciphertext, a decision on a result row, or the bytes of an allocation; a request to an absent team joins its ring (R302, R399, R400, R211, R414). -/
def State.serveRead (s : State) (p : FabPkt) : State :=
  let q := answerTo 0x10 p 0
  match s.pktPlace p with
  | .home k =>
    if p.enc then
      let l := (pktLine p).getD 0
      let s := if readHolds p then (s.markSeen p).hold p.src.toNat l else s
      s.answerPkt p { q with enc := true, data := s.fsRaw (128 * readLine p), psn := psnOf fun g => decide (g < 2) && s.bad (.home (128 * l + 64 * g)) 64 }
    else match if readsRow p then s.rowCheck k 256 0 else .ok () with
      | .ok _ => s.answerPkt p { q with data := s.peek (.home k) 256, psn := psnOf fun g => s.bad (.home (k + 64 * g)) 64 }
      | .error _ => s.answerPkt p (answerTo 0x10 p 8)
  | .tile (.here k off) _ _ =>
    s.answerPkt p { q with data := (s.teamOf k).mem.read off 256, psn := psnOf fun g => (s.teamOf k).markedAt (off + 64 * g) 64 }
  | .tile (.absent e off) _ _ =>
    if s.seen p then s
    else
      let b : Bounced := { pos := 0, off := off, src := .device p.src.toNat, remote := some p, op := .load 256 none }
      let (t, ok) := s.bounceTo e b p.path.toNat 9 0 [] []
      if ok then t.markSeen p else s.keepRingLogs t
  | _ => s.answerPkt p (answerTo 0x10 p 1)

/-- FABRIC_READ. -/
def execFabricRead (p : FabPkt) (s : State) : Out := s.arrive p [0x01] (·.serveRead p)

/-- The enabled bytes of one data flit, as runs at a target. -/
def flitRuns (p : FabPkt) (t : Tgt) (g : Nat) : List (Tgt × List Byte) :=
  runsOf ((List.range 64).filterMap fun i =>
    let j := 64 * g + i
    if p.bmask.getLsbD j then some (t.plus j, p.data.getD j 0) else none)

/-- Every run of a block with its poison. -/
def blockRuns (p : FabPkt) (t : Tgt) : List (Tgt × List Byte × Bool) :=
  (List.range 4).flatMap fun g => (flitRuns p t g).map fun r => (r.1, r.2, p.psn.getLsbD g)

/-- What becomes of a block of bytes at its destination: written, refused, or with no room in a ring. -/
inductive BlockDone where
  | done (s : State)
  | refused
  | full (s : State)

/-- Writes a fabric-shared line as it came: the ciphertext, its entry, and the marks of its granules; the line is free (R414). -/
def State.writeLine (s : State) (p : FabPkt) : State :=
  let n := Machine.writeLine p
  match pktLine p with
  | none => s
  | some l =>
    let s := s.fsWriteRaw (128 * n) (lineRaw n p.data)
    let mark := fun (s : State) (g : Nat) =>
      { s with poisoned := poisonAfter s.poisoned 64 (128 * l + 64 * g) 64 (p.psn.getLsbD (2 * (n % 2) + g)) }
    (mark (mark s 0) 1).unhold p.src.toNat l

/-- Writes the enabled bytes of a block (R399, R400); in an absent team's ring each run has its own entry, and counts as delivered (R381). -/
def State.writeBlock (s : State) (p : FabPkt) : BlockDone :=
  match s.pktPlace p with
  | .home k =>
    if p.enc then .done (s.writeLine p)
    else .done ((blockRuns p (.home k)).foldl (fun s r => s.pokeMarked none r.1 r.2.1 r.2.2) s)
  | .tile (.here k off) core _ =>
    let rs := blockRuns p (.spad k off)
    let held := fun (r : Tgt × List Byte × Bool) => match r.1 with | .spad _ o => s.inFold core k o r.2.1.length | _ => false
    if rs.any held then .refused else .done (rs.foldl (fun s r => s.pokeMarked none r.1 r.2.1 r.2.2) s)
  | .tile (.absent e off) _ _ =>
    let one := fun (r : State × Bool) (x : Tgt × List Byte × Bool) =>
      let o := match x.1 with | .spad _ o => o | _ => 0
      let b : Bounced := { pos := 0, off := o, src := .device p.src.toNat, remote := none, op := .store x.2.1 x.2.2 }
      let (s, ok) := r.1.bounceTo e b p.path.toNat 2 0 (if x.2.1.length ≤ 32 then x.2.1 else []) (if x.2.1.length ≤ 32 then [] else x.2.1)
      (s, r.2 && ok)
    let (t, ok) := (blockRuns p (.spad e.team off)).foldl one (s, true)
    if ok then .done t else .full (s.keepRingLogs t)
  | _ => .refused

/-- Applies a write at most once, and acknowledges it (R398, R401). -/
def State.serveWrite (s : State) (p : FabPkt) : State :=
  if s.seen p then s.ack p
  else match s.writeBlock p with
    | .done t => (t.markSeen p).ack p
    | .refused => (s.markSeen p).refusePkt p
    | .full t => t

/-- FABRIC_WRITE. -/
def execFabricWrite (p : FabPkt) (s : State) : Out := s.arrive p [0x02] (·.serveWrite p)

/-- A put from another device reaches the port of a core. -/
def State.portPut (s : State) (p : FabPkt) (core off : Nat) : State :=
  let marks := (List.range 4).flatMap fun g => if p.psn.getLsbD g then (List.range 8).map (8 * g + ·) else []
  let i := s.net.length
  let m := Msg.mk (.device p.src.toNat) core (.put off p.asid.toNat 0 p.data marks none (some p)) false
  let t : State := { s with net := s.net ++ [m] }
  t.putEvent i false

/-- Delivers a put at most once; its acknowledgement goes when it has been delivered (R400, R401). -/
def State.servePut (s : State) (p : FabPkt) : State :=
  if s.seen p then s.ack p
  else match s.pktPlace p with
    | .tile _ core off => (s.markSeen p).portPut p core off
    | _ => (s.markSeen p).refusePkt p

/-- FABRIC_PUT. -/
def execFabricPut (p : FabPkt) (s : State) : Out := s.arrive p [0x03] (·.servePut p)

/-! ## Atomics from other devices (R405) -/

/-- The operation that a code names (R239). -/
def opOf : Nat → AtomOp
  | 0 => .add | 1 => .and | 2 => .or | 3 => .xor | 4 => .min | 5 => .max | 6 => .swap | 7 => .fadd | 8 => .fmin | _ => .fmax
/-- The type that a control field names. -/
def typeOf (op : AtomOp) (width : Nat) (ty : Bool) : AtomTy :=
  match op with
  | .fadd | .fmin | .fmax => if width = 2 then .f32 else if ty then .bf16 else .f16
  | _ => .int (8 * 2 ^ width) ty

/-- The word before the operands of an atomic packet (log 12): are old values wanted, does a near-memory command ask, the packet's place in its run, the packets of the run. -/
def atomWord (p : FabPkt) : Nat := leNat (p.data.take 8)
def pktWantsOld (p : FabPkt) : Bool := atomWord p % 2 == 1
def pktNear (p : FabPkt) : Bool := atomWord p / 2 % 2 == 1
def pktIndex (p : FabPkt) : Nat := atomWord p / 2 ^ 8 % 256
def pktCount (p : FabPkt) : Nat := Nat.max 1 (atomWord p / 2 ^ 16 % 256)

/-- Bytes per element of an atomic packet. -/
def pktWidth (p : FabPkt) : Nat := 2 ^ (p.control.toNat / 1024 % 4)
/-- Does a packet carry compare-and-swaps: a combined one with op 0 (log 12)? -/
def pktIsCas (p : FabPkt) : Bool := p.kind == 0x05 && p.control.toNat / 4096 == 0
/-- The elements in a packet of a run that is not the last one. -/
def pktPer (p : FabPkt) : Nat := 248 / (if pktIsCas p then 2 * pktWidth p else pktWidth p)

/-- The elements of an atomic packet: compare-and-swaps give an expected value and an operand in turn. -/
def pktArgs (p : FabPkt) : List AtomArg :=
  let c := p.control.toNat
  let op := opOf (c / 4096)
  let ty := typeOf op (c / 1024 % 4) (c / 512 % 2 == 1)
  let n := pktWidth p
  let bs := p.data.drop 8
  let x := fun (i : Nat) => leNat ((bs.drop (n * i)).take n)
  let m := bs.length / n
  if pktIsCas p then (List.range (m / 2)).map fun i => ⟨op, ty, x (2 * i + 1), some (x (2 * i))⟩
  else (List.range m).map fun i => ⟨op, ty, x i, none⟩

/-- Applies atomics in order at a place of this device, those of a near-memory command at the bank (R303): the old values. -/
def State.applyArgs (s : State) (near : Bool) (t : Tgt) : List AtomArg → State × List Nat
  | [] => (s, [])
  | a :: as =>
    let n := a.ty.bits / 8
    let old := leNat (s.peek t n)
    let bs := leBytes n (a.next old)
    let s := match near, t with
      | true, .home k => s.pokeBank k bs
      | _, _ => s.pokeMarked none t bs false
    let (s, olds) := s.applyArgs near t as
    (s, old :: olds)

/-- The answer to atomics that have been applied: their old values, or an acknowledgement. -/
def State.atomDone (s : State) (p : FabPkt) (olds : List Nat) : State :=
  if pktWantsOld p then s.answerPkt p { answerTo 0x12 p 0 with data := olds.flatMap (leBytes (pktWidth p)) } else s.ack p
/-- The answer to atomics that were refused or met poisoned data, which an atomic without return discards (R205, R214). -/
def State.atomBad (s : State) (p : FabPkt) (poison : Bool) : State :=
  if pktWantsOld p then s.answerPkt p (answerTo 0x12 p (if poison then 4 else 1))
  else if poison then (s.logError .discarded Cause.poison.code p.core.toNat p.asid.toNat p.gid.toNat (p.addr.setWidth 64)).ack p
  else s.refusePkt p

/-- Atomics of a run at a place of this device, all in one step: no other access comes between them (R405). -/
def State.atomsHere (s : State) (ps : List FabPkt) (t : Tgt) : State :=
  if ps.any fun p => s.bad t (pktWidth p) then ps.foldl (fun s p => s.atomBad p true) s
  else ps.foldl (fun s p => let (s, olds) := s.applyArgs (pktNear p) t (pktArgs p); s.atomDone p olds) s

/-- The packets of the run that a packet belongs to, in order, where it is whole. -/
def State.wholeRun (s : State) (p : FabPkt) : Option (List FabPkt) :=
  let first := p.seq - BitVec.ofNat 32 (pktIndex p)
  (List.range (pktCount p)).mapM fun i =>
    if i = pktIndex p then some p else s.fabric.runs.find? fun q => q.src == p.src && q.seq == first + BitVec.ofNat 32 i

/-- The entries of an absent team's ring for a run of atomics (R211); those without return count as delivered (R381). -/
def State.atomsToRing (s : State) (ps : List FabPkt) (e : PortEntry) (off : Nat) : State × Bool :=
  ps.foldl (fun (r : State × Bool) p =>
    let old := pktWantsOld p
    let b : Bounced := { pos := 0, off := off, src := .device p.src.toNat, remote := if old then some p else none, op := .atomic (pktArgs p) none }
    let long := decide (40 < p.data.length)
    let (s, ok) := r.1.bounceTo e b p.path.toNat (if old then 4 else 3) p.control.toNat (if long then [] else p.data.drop 8) (if long then p.data.drop 8 else [])
    (if old then s else s.ack p, r.2 && ok)) (s, true)

/-- Serves an atomic packet, at most once, when its run is whole; a repeated one is answered with what it was answered before (R398, R405). -/
def State.serveAtomic (s : State) (p : FabPkt) : State :=
  if s.seen p then
    match s.fabric.wire.find? fun q => q.kind == 0x12 && q.dst == p.src && q.addr.toNat % 2 ^ 32 == p.seq.toNat with
    | some q => { s with fabric := { s.fabric with wire := s.fabric.wire ++ [q] } }
    | none => if pktWantsOld p then s else s.ack p
  else
    let f := s.fabric
    let others := f.runs.filter fun q => !(q.src == p.src && q.seq == p.seq)
    match s.wholeRun p with
    | none => { s with fabric := { f with runs := others ++ [p] } }
    | some ps =>
      let s' := ps.foldl State.markSeen { s with fabric := { f with runs := f.runs.filter fun q => !decide (q ∈ ps) } }
      match s.pktPlace p with
      | .home k => s'.atomsHere ps (.home k)
      | .tile (.here k off) core _ =>
        if s.inFold core k off (pktWidth p) then ps.foldl (fun s p => s.atomBad p false) s' else s'.atomsHere ps (.spad k off)
      | .tile (.absent e off) _ _ =>
        let (t, ok) := s'.atomsToRing ps e off
        if ok then t else s.keepRingLogs t
      | _ => ps.foldl (fun s p => s.atomBad p false) s'

def execFabricAtomic (p : FabPkt) (s : State) : Out := s.arrive p [0x04] (·.serveAtomic p)
def execCombinedAtomic (p : FabPkt) (s : State) : Out := s.arrive p [0x05] (·.serveAtomic p)

/-! ## Replies and acknowledgements -/

/-- The packet that an answer answers. -/
def State.answered (s : State) (p : FabPkt) : Option FabPkt :=
  s.fabric.unacked.find? fun q => q.dst == p.src && q.seq.toNat == p.addr.toNat % 2 ^ 32

/-- A packet's answer has come: it is kept no longer. -/
def State.settle (s : State) (q : FabPkt) : State :=
  { s with fabric := { s.fabric with
      unacked := s.fabric.unacked.filter (fun u => !(u.dst == q.dst && u.seq == q.seq)),
      asks := s.fabric.asks.filter fun a => !(a.1 == q.dst.toNat && a.2.1 == q.seq) } }

/-- Who asked. -/
def State.askerOf (s : State) (q : FabPkt) : Option Asker :=
  (s.fabric.asks.find? fun a => a.1 == q.dst.toNat && a.2.1 == q.seq).map (·.2.2)

/-- The destination register of the load or atomic with return for which a group's path stalls (R366, R372). -/
def Hart.waitsFor (h : Hart) : Nat :=
  match (if h.p0.stalled || !h.p1.stalled then h.p0 else h.p1).clause with
  | some c => ((c.words.getD (c.idx - 1) 0).extractLsb' 18 6).toNat
  | none => 0

/-- An answer reaches its asker; that of a group whose team is absent joins its ring, whatever it says (R372 kind 5, R373). The answer is false where the ring has no room. -/
def State.deliverAnswer (s : State) (who : Asker) (asked : Nat × Nat) (cells : List ((Nat × Nat) × Byte)) (bad : List ((Nat × Nat) × Cause)) : State × Bool :=
  match who with
  | .engine k _ => (s.setTeamOf k ((s.teamOf k).receive asked cells bad), true)
  | .device _ =>
    let f := s.fabric
    (if asked ∈ f.asked then { s with fabric := { f with arrived := cells ++ f.arrived, bad := bad ++ f.bad } } else s, true)
  | .group k g =>
    let i := HartId.group k g
    if s.away k then
      match s.entryOf k with
      | none => (s, true)
      | some e =>
        let bs := cells.map (·.2)
        s.bounceTo e { pos := 0, off := g + 64 * (s.hartOf i).waitsFor, src := .device asked.1, remote := none, op := .reply g cells bad } 0 5 0
          (if bs.length ≤ 32 then bs else []) (if bs.length ≤ 32 then [] else bs)
    else (s.setHartOf i ((s.hartOf i).receive asked cells bad), true)

/-- An asker's key of a device's bytes (R399). -/
def Asker.key (who : Asker) (dev : Nat) : Nat := match who with | .engine _ e => dev + 1024 * e | .device e => dev + 1024 * e | .group _ _ => dev

/-- The address that a read packet was asked for by, as its asker keeps it. -/
def readKey (q : FabPkt) : Nat := if q.enc then fsKey (128 * readLine q) else q.addr.toNat + if readsRow q then 2 ^ 43 else 0

/-- The cause that an answer gives its asker (R302, R404). -/
def answerCause (p : FabPkt) : Option Cause :=
  match answerTells p with
  | 0 => none
  | 4 => some .poison
  | 8 => some .rowNotFull
  | _ => some .accessViolation

/-- An answer with its asker's packet goes to its asker; one that finds no room in a ring comes again. -/
def State.tellAsker (s : State) (q : FabPkt) (what : Asker → (Nat × Nat) × List ((Nat × Nat) × Byte) × List ((Nat × Nat) × Cause)) : State :=
  match s.askerOf q with
  | none => s.settle q
  | some who =>
    let (asked, cells, bad) := what who
    let (t, ok) := (s.settle q).deliverAnswer who asked cells bad
    if ok then t else s.keepRingLogs t

/-- READ_REPLY (R404): poisoned granules and refusals are kept as such. -/
def execReadReply (p : FabPkt) (s : State) : Out :=
  s.arrive p [0x10] fun s => match s.answered p with
    | none => s
    | some q => s.tellAsker q fun who =>
      let key := who.key q.dst.toNat
      let a := readKey q
      let cells := if (answerCause p).isSome then [] else (List.range (if q.enc then 144 else 256)).map fun i => ((key, a + i), p.data.getD i 0)
      let bad := (List.range 4).filterMap fun g => match answerCause p with
        | some c => some ((key, a / 64 + g), c)
        | none => if p.psn.getLsbD g then some ((key, a / 64 + g), Cause.poison) else none
      ((key, a), cells, bad)

/-- ATOMIC_REPLY (R405): the old values by their places in the run. -/
def execAtomicReply (p : FabPkt) (s : State) : Out :=
  s.arrive p [0x12] fun s => match s.answered p with
    | none => s
    | some q => s.tellAsker q fun _ =>
      let d := q.dst.toNat
      let a := q.addr.toNat
      let n := pktWidth q
      let cells := (List.range (p.data.length / n)).flatMap fun j =>
        (List.range n).map fun i => (((atomKey d a (pktIndex q * pktPer q + j)).1, a + i), p.data.getD (n * j + i) 0)
      (atomKey d a 0, cells, (answerCause p).toList.map fun c => (((atomKey d a 0).1, a / 64), c))

/-- A group's operations whose packet has been answered: `pathack` rises for writes, puts and flags, and `fab` falls in issue order once nothing of an operation is on its way (R401, R256). -/
def Hart.creditPkt (h : Hart) (dst : Nat) (seq : Word32) (counts : Bool) : Hart :=
  let mine := h.remote.filter fun r => r.dst == dst && r.seq == seq
  let h := { h with remote := h.remote.filter fun r => !(r.dst == dst && r.seq == seq) }
  let h := mine.foldl (fun (h : Hart) r =>
    if counts && r.pathack then { h with pathack := vset h.pathack r.path (vget h.pathack r.path 0 + 1) } else h) h
  (mine.filter (!·.near)).foldl (fun (h : Hart) r => if h.awaitsRemote r.id then h else h.complete kFab r.id) h

/-- The groups with an operation in a packet, with the address that a refusal reports. -/
def State.sendersOf (s : State) (dst : Nat) (seq : Word32) : List (Nat × Nat × Word64) :=
  s.harts.filterMap fun (x : HartId × Hart) => match x.1 with
    | .group k g => (x.2.remote.find? fun r => r.dst == dst && r.seq == seq).map fun r => (k, g, r.va)
    | .bank _ => none

/-- An engine's packet to a device was refused, or lost: its copy stops at the row that it belongs to, the last one sent, or its transfer's group is told (R205, R272, R406). -/
def State.enginePktLost (s : State) (k key dst : Nat) (c : Cause) : State :=
  let addr := fun (va : Word64) => if c = .peerKilled then BitVec.ofNat 64 dst else va
  if 1 ≤ key ∧ key ≤ 32 then
    match s.leading k (key - 1) with
    | (core, x) :: _ =>
      if x.st = .running then s.copyFails core (key - 1) x (x.next - 1) c (addr (copyRow x.d x.t (x.next - 1)).1) else s
    | [] => s
  else if key % 2 = 1 then
    match (s.teamOf k).gathers.find? fun x => 33 + 2 * x.job == key with
    | some x => s.addCause k x.gid ⟨c, mark63 (addr x.last), none⟩
    | none => s
  else s

/-- The teams with an engine's packet. -/
def State.enginesOf (s : State) (dst : Nat) (seq : Word32) : List (Nat × Nat) :=
  s.teams.filterMap fun (t : Nat × Team) => (t.2.sent.find? fun p => p.1 == dst && p.2.1 == seq).map fun p => (t.1, p.2.2)

/-- The region that waits for a stage packet, after its answer. -/
def Region.staged? (r : Region) (dst : Nat) (seq : Word32) (refused : Bool) : Region :=
  if (dst, seq) ∈ r.awaiting then
    { r with awaiting := r.awaiting.filter (· != (dst, seq)), doomed := if refused then some (.refused (BitVec.ofNat 10 dst)) else r.doomed }
  else r

/-- The registers of an evicted group that acknowledgements change stand in its saved state too (R366). -/
def State.saveAcks (s : State) (k g : Nat) : State :=
  let h := s.hartOf (.group k g)
  if h.evicted then
    (s.vwrite h.asid.toNat true (h.savedBase + 0xC98) ((List.range 4).flatMap fun p => leBytes 8 (vget h.pathack p 0).toNat)).toOption.getD s
  else s

/-- A packet's operations are over. -/
def State.overPkt (s : State) (dst : Nat) (seq : Word32) (counts refused : Bool) : State :=
  let groups := s.sendersOf dst seq
  let s := { s with
    harts := s.harts.map fun (x : HartId × Hart) =>
      (x.1, { x.2.creditPkt dst seq counts with region := x.2.region.map fun r => r.staged? dst seq refused }),
    teams := s.teams.map fun (t : Nat × Team) => (t.1, { t.2 with sent := t.2.sent.filter fun p => !(p.1 == dst && p.2.1 == seq) }) }
  groups.foldl (fun s g => s.saveAcks g.1 g.2.1) s

/-- The packets of an operation of Ultra Ethernet: destination and number. -/
def UeWork.pkts : UeWork → List (Nat × Word32)
  | .read _ _ _ _ => []
  | .write ps => ps
  | .send _ _ sent => (sent.map (·.2)).getD []

/-- An operation of Ultra Ethernet whose packet has been refused or lost is answered with an error (R422; the answer is log 43). -/
def State.ueFails (s : State) (q : FabPkt) : State :=
  let v := s.service
  let fails := fun (w : UeWork) => w.pkts.contains (q.dst.toNat, q.seq)
  if v.ueWorks.any fails then { s with service := { v with ueWorks := v.ueWorks.filter fun w => !fails w, ueReply := [1] } } else s

/-- A packet's destination has refused it: its groups have their boundary cause, its engine stops, its region fails (R205, R410). -/
def State.refusedBy (s : State) (q : FabPkt) : State :=
  let dst := q.dst.toNat
  let groups := s.sendersOf dst q.seq
  let engines := s.enginesOf dst q.seq
  let s := ((s.settle q).overPkt dst q.seq true true).ueFails q
  let s := groups.foldl (fun s g => s.addCause g.1 g.2.1 ⟨.accessViolation, mark63 g.2.2, none⟩) s
  engines.foldl (fun s e => s.enginePktLost e.1 e.2 dst .accessViolation) s

/-- A packet is sent again on a usable path with its number (R406). -/
def State.resend (s : State) (q : FabPkt) : State :=
  let dst := q.dst.toNat
  let ps := s.fabric.paths dst
  let p := ps.getD (s.choice % Nat.max 1 ps.length) 0
  let r := s.fabric.routed q p
  let same := fun (d : Nat) (n : Word32) => d == dst && n == q.seq
  let s := s.chosen
  { s with
    fabric := { s.fabric with
      wire := s.fabric.wire ++ [r], unacked := s.fabric.unacked.map fun u => if same u.dst.toNat u.seq then r else u },
    harts := s.harts.map fun (x : HartId × Hart) =>
      (x.1, { x.2 with remote := x.2.remote.map fun o => if same o.dst o.seq then { o with path := p } else o }) }

/-- ACKNOWLEDGEMENT (R401): the packet's operations are over, or it was refused, or it is to be sent again. -/
def execAcknowledgement (p : FabPkt) (s : State) : Out :=
  s.arrive p [0x11] fun s => match s.answered p with
    | none => s
    | some q => match answerTells p with
      | 0 => (s.settle q).overPkt q.dst.toNat q.seq true false
      | 2 => s.resend q
      | _ => s.refusedBy q

/-- The kinds of R398. -/
def pktKinds : List Nat := [0x01, 0x02, 0x03, 0x04, 0x05, 0x10, 0x11, 0x12, 0x20, 0x21, 0x22, 0x30, 0x31]
/-- UNKNOWN_PACKET_KIND: discarded and logged (R398). -/
def execUnknownPacketKind (p : FabPkt) (s : State) : Out :=
  .next (if p.dst != s.fabric.device then s.transit p
    else if decide (p.kind.toNat ∈ pktKinds) then s
    else s.logError .link 0 p.src.toNat p.asid.toNat p.gid.toNat (p.addr.setWidth 64))

/-! ## Paths and routes -/

/-- DEVICE_NUMBER_ASSIGN (R395). -/
def execDeviceNumberAssign (n : BitVec 10) (s : State) : Out := .next { s with fabric := { s.fabric with device := n, numbered := true } }

/-- ROUTE_TABLE_WRITE: the record is rewritten, and the path is no longer down (R396, R406). -/
def execRouteTableWrite (dst path : Nat) (rec : BitVec 64) (s : State) : Out :=
  if 1024 ≤ dst ∨ 4 ≤ path then .next s
  else
    let i := dst * 4 + path
    .next { s with fabric := { s.fabric with routes := mset i rec s.fabric.routes, down := s.fabric.down.filter (· != i) } }

/-- LINK_RETRY: a link resends what it lost, in order; nothing that the device's state shows changes (R375). -/
def execLinkRetry (_link : Nat) (s : State) : Out := .next s

/-- A group's flags for a device whose earlier packets were lost are discarded, those that its port holds too (R402, R375). -/
def Hart.dropFlags (h : Hart) (dst : Nat) : Hart :=
  let isFlag := fun (e : SQEntry) => (match e.op with | .flag _ _ => true | _ => false) && decide (dst ∈ e.devices)
  { h with sq := h.sq.filter fun e => !isFlag e, flags := h.flags.filter fun e => !isFlag e }.creditItems ((h.flags ++ h.sq).filter isFlag)

/-- A packet to an unreachable device is discarded and credited; its group takes PEER_KILLED, its engine stops (R406). -/
def State.losePkt (s : State) (q : FabPkt) : State :=
  let dst := q.dst.toNat
  let groups := s.sendersOf dst q.seq
  let engines := s.enginesOf dst q.seq
  let s := ((s.settle q).overPkt dst q.seq false false).ueFails q
  let cause : BCause := ⟨.peerKilled, mark63 (BitVec.ofNat 64 dst), none⟩
  let s := groups.foldl (fun s g =>
    let i := HartId.group g.1 g.2.1
    let s := s.setHartOf i ((s.hartOf i).dropFlags dst)
    if cause ∈ (s.hartOf i).causes then s else s.addCause g.1 g.2.1 cause) s
  engines.foldl (fun s e => s.enginePktLost e.1 e.2 dst .peerKilled) s

/-- Packets of the fabric that carry operations of R406: reads, writes, puts and atomics; the others are kept. -/
def lostKinds (q : FabPkt) : Bool := decide (q.kind.toNat ∈ [0x01, 0x02, 0x03, 0x04, 0x05])

/-- A device that cannot be reached any more: its packets are lost, the stores to its fabric-shared lines too, and what it holds of this device's lines is free (R406, R414). -/
def State.loseDevice (s : State) (dst : Nat) : State :=
  let jobs := s.fabric.fsJobs.filter fun j => j.pkt.dst.toNat == dst
  let s := { s with fabric := { s.fabric with fsJobs := s.fabric.fsJobs.filter (fun j => j.pkt.dst.toNat != dst),
                                              fsHeld := s.fabric.fsHeld.filter fun h => h.1 != dst } }
  let s := jobs.foldl (fun s j => s.losePkt j.pkt) s
  (s.fabric.unacked.filter fun q => q.dst.toNat == dst && lostKinds q).foldl State.losePkt s

/-- PATH_DOWN: a path with an unanswered packet is marked down, and its packets go on another path, or are lost with their device (R406). -/
def execPathDown (dst path : Nat) (s : State) : Out :=
  let f := s.fabric
  if !f.unacked.any (fun q => q.dst.toNat == dst && q.path.toNat == path) || decide (dst * 4 + path ∈ f.down) then .next s
  else
    let s := { s with fabric := { f with down := (dst * 4 + path) :: f.down } }
    if s.fabric.reachable dst then
      .next ((s.fabric.unacked.filter fun q => q.dst.toNat == dst && q.path.toNat == path).foldl State.resend s)
    else .next (s.loseDevice dst)

/-! ## Stores to fabric-shared lines of other devices (R413, R414) -/

/-- The device's own key of the line that a store reads. -/
def FsJob.key (j : FsJob) : Nat := j.pkt.dst.toNat + 1024 * (2 ^ 64 + j.pkt.seq.toNat)

/-- Does the region that staged a store still stand? -/
def State.jobStands (s : State) (j : FsJob) : Bool :=
  !j.pkt.rg || s.harts.any fun (x : HartId × Hart) => match x.2.region with | some r => r.phases.any fun y => y.1 == j.pkt.region | none => false

/-- The read of a store's line, which its home holds from then on. -/
def FsJob.ask (j : FsJob) : FabPkt :=
  let p := askPkt (j.pkt.dst.toNat, fsKey (128 * j.line)) j.pkt.asid.toNat j.pkt.core.toNat j.pkt.gid.toNat
  { p with data := leBytes 8 (readWord p + 1) }

/-- The packet that a store sends once its line has come: the tag is checked, the bytes merged, and the line sealed with its count raised. A tag that does not match, and a region that has failed, write the line back as it was. -/
def State.fsPacket (s : State) (j : FsJob) (raw : List Byte) (was : List Nat) : FabPkt :=
  let pa := j.pkt.dst.toNat * 2 ^ 42 + 128 * j.line
  let (plain, ok) := s.fsOpen pa j.pkt.asid.toNat raw
  let put := fun (raw : List Byte) (p : FabPkt) (gs : List Nat) =>
    { p with data := lineData j.line raw, psn := linePsn j.line (gs.foldl (fun n g => n + 2 ^ g) 0) }
  let back := { j.pkt with kind := 0x02, rg := false, region := 0 }
  if !s.jobStands j then put raw back was
  else if !ok then put raw j.pkt [0, 1]
  else
    let touched := fun (g : Nat) => j.cells.any fun c => c.1 / 64 == g
    let whole := fun (g : Nat) => (List.range 64).all fun i => j.cells.any fun c => c.1 == 64 * g + i
    let marked := fun (g : Nat) => if j.bad && touched g then true else decide (g ∈ was) && !whole g
    put (s.fsSeal pa j.pkt.asid.toNat raw (j.cells.foldl (fun p c => p.set c.1 c.2) plain)) j.pkt ([0, 1].filter marked)

/-- A later store of a region to the line that a store has staged goes on from what it staged. -/
def State.fsPass (s : State) (j : FsJob) (p : FabPkt) : State :=
  let next := fun (x : FsJob) => x.pkt.rg && x.pkt.dst == j.pkt.dst && x.line == j.line && !x.asked
  match if p.rg then s.fabric.fsJobs.find? next else none with
  | none => s
  | some x =>
    let raw := lineRaw j.line p.data
    let a := fsKey (128 * j.line)
    let f := s.fabric
    { s with fabric := { f with
        fsJobs := f.fsJobs.map fun y => if y = x then { y with asked := true } else y,
        arrived := (List.range 144).map (fun i => ((x.key, a + i), raw.getD i 0)) ++ f.arrived,
        bad := ((List.range 2).filter fun g => p.psn.getLsbD (2 * (j.line % 2) + g)).map (fun g => ((x.key, a / 64 + g), Cause.poison)) ++ f.bad } }

/-- A store to a fabric-shared line of another device goes on: its line is asked for, or, when it has come, its packet leaves. -/
def State.fsStep (i : Nat) (s : State) : Out :=
  .next (match s.fabric.fsJobs[i]? with
    | none => s
    | some j =>
      let a := fsKey (128 * j.line)
      let without := { s with fabric := { s.fabric with fsJobs := removeAt i s.fabric.fsJobs } }.forgetDevice (2 ^ 64 + j.pkt.seq.toNat)
      if !s.fabric.reachable j.pkt.dst.toNat then without.losePkt j.pkt
      else if (s.fabric.fsJobs.take i).any fun x => x.pkt.dst == j.pkt.dst && x.line == j.line then s
      else if !j.asked then
        { s with fabric := { s.fabric with
            fsJobs := modifyAt (fun j => { j with asked := true }) i s.fabric.fsJobs, asked := (j.key, a) :: s.fabric.asked } }.sendAsk
          j.ask (.device (2 ^ 64 + j.pkt.seq.toNat))
      else if mfind (j.key, a / 64) s.fabric.bad == some .accessViolation then without.refusedBy j.pkt
      else match (List.range 144).mapM fun o => mfind (j.key, a + o) s.fabric.arrived with
        | none => s
        | some raw =>
          let p := s.fsPacket j raw ([0, 1].filter fun g => (mfind (j.key, a / 64 + g) s.fabric.bad).isSome)
          let (s, q) := (without.fsPass j p).leave p none
          { s with harts := s.harts.map fun (x : HartId × Hart) =>
              (x.1, { x.2 with remote := x.2.remote.map fun o => if o.dst == q.dst.toNat && o.seq == q.seq then { o with path := q.path.toNat } else o }) })

/-! ## Regions at their source (R407 to R412) -/

/-- FBEGIN: the checkpoint is taken and the region opens. -/
def execFbegin (a : Src) (l : Word32) (s : State) : Out :=
  s.finish do
    let h := s.hart
    needOp (h.region.isNone && h.recs.isEmpty)
    let k ← s.opnd a
    needOp (k.extractLsb' 32 32 == 0 && decide (popcount k.toNat 32 ≤ 8))
    let vs := (List.range 32).filter fun j => k.getLsbD j
    match vs.find? fun j => !h.held.getLsbD (j / 8) with
    | some j => raise .blockDenied (BitVec.ofNat 64 j)
    | none =>
      let x := s.path
      let r : Region :=
        { serial := s.fabric.nextRegion, cs := h.s, cv := vs.map fun j => (j, vget h.v j 0), cvl := h.vl, cvtype := h.vtype,
          cemask := x.emask, cfmt := x.fmt, path := s.cur.path, depth := h.recs.length, handler := s.dispTarget (sx64 l),
          hdr := x.header, items := [], staged := false, awaiting := [], doomed := none, phases := [] }
      let s := { s with fabric := { s.fabric with nextRegion := s.fabric.nextRegion + 1 } }
      return (s.setHart { h with region := some r }).retire 2 Latch.none

/-- What a region stages: the enabled bytes of one line on a device, or a put. -/
inductive StageItem where
  | line (dev line : Nat) (sh : Bool) (cells : List (Nat × Byte))
  | put (dev addr : Nat) (data : List Byte)

/-- A byte joins its line, or begins it. -/
def addCell (d a : Nat) (sh : Bool) (b : Byte) : List StageItem → List StageItem
  | [] => [.line d (a / 128) sh [(a % 128, b)]]
  | .line d' l sh' cs :: xs => if d' = d ∧ l = a / 128 then .line d' l sh' (cs ++ [(a % 128, b)]) :: xs else .line d' l sh' cs :: addCell d a sh b xs
  | x :: xs => x :: addCell d a sh b xs

/-- The staged items of a part of a region in issue order: writes merge by line, puts never (R408, R409). -/
def stageItems (items : List SQEntry) : List StageItem :=
  let cells := fun (r : List StageItem) (cs : List (Tgt × Byte)) => cs.foldl (fun l c => match c.1 with
    | .remote d a _ sh => addCell d a sh c.2 l
    | _ => l) r
  items.foldl (fun r e => match e.op with
    | .bytes cs _ _ => cells r cs
    | .flag cs _ => cells r cs
    | .put (.remote d a _ _) _ data => r ++ [.put d a data]
    | _ => r) []

/-- Stages an item: a packet goes, or a store to a fabric-shared line begins. A put's packet enables no byte (log 12). -/
def State.stageItem (s : State) (x : StageItem) (asid core gid : Nat) (serial : BitVec 16) : State × FabPkt :=
  match x with
  | .line d l true cs => s.fsQueue { linePkt 0x20 d l asid core gid with rg := true, region := serial } l cs false
  | .line d l false cs =>
    let bs := (List.range 256).map fun i => (cs.reverse.find? fun c => c.1 + 128 * (l % 2) == i).map (·.2)
    s.sendPkt { blockPkt 0x20 d (l / 2) asid core gid bs with rg := true, region := serial }
  | .put d a data => s.sendPkt { FabPkt.blank 0x20 d asid core gid (a / 256 * 256) with rg := true, region := serial, data := data }

/-- The remote items of a region in the parts that are committed one after another. A release begins a new part where its part holds a store to another device, or where a local release of the region comes before it: it is performed after both (R260). -/
def phasesOf (items : List SQEntry) : List (List SQEntry) :=
  (items.foldl (fun (r : List (List SQEntry) × Bool) e =>
    if !e.fab then (r.1, r.2 || e.release)
    else match r.1.getLast? with
      | none => ([[e]], false)
      | some p =>
        if e.release && (r.2 || (p.flatMap SQEntry.devices).any fun d => !decide (d ∈ e.devices)) then (r.1 ++ [[e]], false)
        else (r.1.dropLast ++ [p ++ [e]], r.2)) ([], false)).1

/-- Takes serials for the parts of a region after its first. -/
def State.serials (s : State) (first : BitVec 16) : List (List SQEntry) → State × List (BitVec 16 × List SQEntry)
  | [] => (s, [])
  | p :: ps =>
    let f := s.fabric
    let (t, rest) := { s with fabric := { f with nextRegion := f.nextRegion + 1 } }.serials f.nextRegion ps
    (t, (first, p) :: rest)

/-- Stages every remote item of a group's region (R409 step 2). -/
def State.stageRegion (s : State) (k g : Nat) (r : Region) : State :=
  let t := s.teamOf k
  let (s, phases) := s.serials r.serial (phasesOf r.items)
  let (s, sent) := phases.foldl (fun (x : State × List (Nat × Word32)) ph =>
    (stageItems ph.2).foldl (fun (x : State × List (Nat × Word32)) i =>
      let (s, q) := x.1.stageItem i t.asid t.core g ph.1
      (s, x.2 ++ [(q.dst.toNat, q.seq)])) x) (s, [])
  let i := HartId.group k g
  s.setHartOf i { s.hartOf i with region := some { r with staged := true, awaiting := sent, phases := phases } }

/-- May a part of a committed region go: everything older than its releases has been performed (R260)? -/
def Hart.partDue (h : Hart) (items : List SQEntry) : Bool :=
  let older := fun (id : Nat) => items.any fun e => e.release && decide (id < e.id)
  [kFab, kSt].all fun c => (vget h.ledger c []).all fun o => o.2 || !older o.1 || items.any fun e => e.id == o.1

/-- SEND_COMMITS, the model's own turn: the commit packets of the oldest part that has yet to go are sent when it may. Each of its items falls from its counter when the commits of its devices are acknowledged (R409). -/
def State.sendCommits (k g : Nat) (s : State) : Out :=
  let i := HartId.group k g
  let t := s.teamOf k
  .next (match (s.hartOf i).commits with
    | [] => s
    | (serial, items) :: rest =>
      if !(s.hartOf i).partDue items then s
      else
        let s := s.setHartOf i { s.hartOf i with commits := rest }
        ((items.flatMap SQEntry.devices).eraseDups).foldl (fun s d =>
          let (s, q) := s.sendPkt { FabPkt.blank 0x21 d t.asid t.core g 0 with rg := true, region := serial }
          let h := s.hartOf i
          let ops := (items.filter fun e => decide (d ∈ e.devices)).map fun e => RemoteOp.mk d q.seq q.path.toNat e.id false false 0
          s.setHartOf i { h with remote := h.remote ++ ops }) s)

/-- The commit point (R409 step 4): the region closes, its local held releases join the store queue, and its parts are to be committed. -/
def State.commitRegion (s : State) (k g : Nat) (r : Region) : State :=
  let i := HartId.group k g
  let h := s.hartOf i
  s.setHartOf i { h with sq := h.sq ++ r.items.filter (fun e => !e.fab), commits := h.commits ++ r.phases, region := none }

/-- FCOMMIT: with nothing held it completes at once (R412); with nothing held for another device, when the older accesses are performed; else its stage packets go out, and it stalls until the commit point. -/
def execFcommit (d : Dst) (s : State) : Out :=
  match s.hart.region with
  | none => s.finish illegal
  | some r =>
    if r.items.isEmpty then .next ((s.commitRegion s.cur.team s.cur.gid r).retireS 1 d 0)
    else if r.staged || !s.quiet .sys then s.finish (.error .stall)
    else if !r.items.any (·.fab) then
      .next ((s.commitRegion s.cur.team s.cur.gid r).retireS 1 d (BitVec.ofNat 64 (heldLines r.items)))
    else .next ((s.stageRegion s.cur.team s.cur.gid r).stallPath)

/-- FABORT: the region fails with reason ABORT (R410). -/
def execFabort (s : State) : Out :=
  if s.hart.region.isNone then s.finish illegal else .next (s.failRegion s.cur.team s.cur.gid .abort)

/-- The destination of the FCOMMIT that a path is executing. -/
def Path.fcommit (p : Path) : Option Dst :=
  match p.clause with
  | some c =>
    let w := c.words.getD (c.idx - 1) 0
    if c.cls == 6 && w.extractLsb' 24 8 == 0x11 && p.issuing then some ⟨w.extractLsb' 18 6, w.getLsbD 17⟩ else none
  | none => none

/-- COMMIT_POINT: every stage is acknowledged; FCOMMIT completes and the commit goes out. -/
def execCommitPoint (team gid : Nat) (s : State) : Out :=
  let h := s.hartOf (.group team gid)
  match h.region with
  | none => .next s
  | some r =>
    if !r.staged || !r.awaiting.isEmpty || r.doomed.isSome then .next s
    else
      let run := fun (p : Bool) (d : Dst) =>
        let s' := { s with cur := ⟨.group, team, gid, p, 0, 0⟩ }
        { (s'.commitRegion team gid r).retireS 1 d (BitVec.ofNat 64 (heldLines r.items)) with cur := s.cur }
      match h.p0.fcommit, h.p1.fcommit with
      | some d, _ => .next (run false d)
      | none, some d => .next (run true d)
      | none, none => .next s

/-- Does a region fail from outside for a reason (R410)? -/
def State.doomedBy (s : State) (r : Region) : RegionFailure → Bool
  | .unreachable d => !s.fabric.reachable d.toNat && decide (d.toNat ∈ r.items.flatMap SQEntry.devices)
  | why => r.doomed == some why

/-- Does no path of a group run a clause at this moment: each is at a boundary, suspended or stalled? -/
def Hart.between (h : Hart) : Bool :=
  [h.p0, h.p1].all fun p => !p.active || p.clause.isNone || p.susp.isSome || p.stalled || !p.issuing

def reasonOf : RegionFailure → RegionReason
  | .unreachable d => .unreachable d
  | .refused d => .refused d
  | .evicted => .evicted

/-- REGION_FAIL: a failure from outside is taken at the next boundary, or at once from a suspension or a stall (R410). -/
def execRegionFail (team gid : Nat) (why : RegionFailure) (s : State) : Out :=
  let h := s.hartOf (.group team gid)
  match h.region with
  | none => .next s
  | some r => if h.live && !h.evicted && h.between && s.doomedBy r why then .next (s.failRegion team gid (reasonOf why)) else .next s

/-! ## Regions at their targets (R409, R410) -/

/-- The staged items of a packet's region. -/
def Staged.of (x : Staged) (p : FabPkt) : Bool := x.src == p.src.toNat && x.core == p.core.toNat && x.gid == p.gid.toNat && x.region == p.region

/-- Does a staged packet carry a put? -/
def stagedPut (p : FabPkt) : Bool := p.bmask == 0
/-- The lines that staged items take in an I/O die's buffer: a put occupies two. -/
def stagedLines (xs : List Staged) (die : Nat) : Nat :=
  (xs.filter (·.die == die)).foldl (fun n x => n + if stagedPut x.pkt then 2 else 1) 0

/-- Would a staged packet be refused where it goes (R205, R310, R400)? -/
def State.stageRefused (s : State) (p : FabPkt) : Bool :=
  match s.pktPlace p with
  | .home _ => stagedPut p
  | .tile .refused _ _ => true
  | .tile (.here k off) core _ => s.inFold core k off 256
  | .tile _ _ _ => false
  | .nowhere => true

/-- STAGE: checked, kept in the buffer of one of the two I/O dies, and acknowledged; one that finds 4096 lines in it is refused and sent again (R409). Which die keeps it is the device's choice. -/
def execStage (p : FabPkt) (s : State) : Out :=
  s.arrive p [0x20] fun s =>
    if s.seen p then s.ack p
    else if s.stageRefused p then (s.markSeen p).refusePkt p
    else
      let die := s.choice % 2
      let s := s.chosen
      let x := Staged.mk p.src.toNat p.core.toNat p.gid.toNat p.region die p
      if 4096 < stagedLines (s.fabric.staging ++ [x]) die then s.answerPkt p (answerTo 0x11 p 2)
      else ({ s with fabric := { s.fabric with staging := s.fabric.staging ++ [x] } }.markSeen p).ack p

/-- Applies staged items in order, as ordinary stores and puts, with their marks; those from one that finds no room in a ring on stay staged. -/
def State.applyStaged (s : State) : List Staged → State × Bool
  | [] => (s, true)
  | x :: xs =>
    let gone := { s with fabric := { s.fabric with staging := s.fabric.staging.erase x } }
    if stagedPut x.pkt then
      match s.pktPlace x.pkt with
      | .tile _ core off => (gone.portPut x.pkt core off).applyStaged xs
      | _ => gone.applyStaged xs
    else match gone.writeBlock x.pkt with
      | .done t => t.applyStaged xs
      | .refused => gone.applyStaged xs
      | .full t => ({ t with fabric := s.fabric }, false)

/-- Is a put of a packet's region still on its way to its tile? -/
def State.putsOut (s : State) (p : FabPkt) : Bool :=
  let mine := fun (q : Option FabPkt) => q.any fun q => q.kind == 0x20 && sameGroup q p && q.region == p.region
  (s.net.any fun m => match m.body with | .put _ _ _ _ _ _ q => mine q | _ => false)
    || s.cores.any fun (x : Nat × Core) => x.2.hold.any fun h => mine h.remote

/-- Applies the staged items of a region; the acknowledgement goes when all are applied, its puts delivered (R409). -/
def State.serveCommit (s : State) (p : FabPkt) : State :=
  if s.seen p then s.ack p
  else
    let (t, whole) := s.applyStaged (s.fabric.staging.filter (·.of p))
    if whole && !t.putsOut p then (t.markSeen p).ack p else t.parkPkt p

/-- COMMIT. -/
def execCommit (p : FabPkt) (s : State) : Out := s.arrive p [0x21] (·.serveCommit p)

/-- REGION_ABORT: the staged items of the region are discarded, and the lines that they held are free. -/
def execRegionAbort (p : FabPkt) (s : State) : Out :=
  s.arrive p [0x22] fun s =>
    if s.seen p then s.ack p
    else
      let gone := s.fabric.staging.filter (·.of p)
      let s := { s with fabric := { s.fabric with staging := s.fabric.staging.filter fun x => !x.of p } }
      let free := fun (s : State) (x : Staged) => match pktLine x.pkt with
        | some l => if x.pkt.enc then s.unhold x.src l else s
        | none => s
      ((gone.foldl free s).markSeen p).ack p

/-- PARKED_PACKET, the model's own turn: a packet that has waited acts when it may. -/
def State.parkedTurn (i : Nat) (s : State) : Out :=
  .next (match s.fabric.parked[i]? with
    | none => s
    | some p =>
      if s.mustWait p (s.fabric.parked.take i) then s
      else
        let s := { s with fabric := { s.fabric with parked := removeAt i s.fabric.parked } }
        match p.kind.toNat with
        | 0x01 => s.serveRead p
        | 0x02 => s.serveWrite p
        | 0x03 => s.servePut p
        | 0x21 => s.serveCommit p
        | _ => s.serveAtomic p)

end Sys2Proof.Machine
end

