-- ==== Sys2Proof/Machine/Coll.lean ====
section
/-! DEFINITION. Collectives (R415 to R417): COLL, the streams that the ranks send each other (their layout is log 12), the reduction, the status word, and aborts. -/

namespace Sys2Proof.Machine

/-! ## Descriptors -/

/-- The fields of a collective's descriptor (R415). -/
structure CollDesc where
  src : Nat
  dst : Nat
  peers : Nat
  status : Nat
  count : Nat
  id : Nat
  n : Nat
  rank : Nat
  kind : Nat
  rop : Nat
  etype : Nat
  first : Nat
  tiles : Nat

/-- A descriptor's fields; reserved ones read as zero whatever they hold (R7). -/
def collDesc (d : BitVec 512) : CollDesc :=
  let f := fun (i n : Nat) => d.toNat / 2 ^ (8 * i) % 2 ^ (8 * n)
  { src := f 0 8, dst := f 8 8, peers := f 16 8, status := f 24 8, count := f 32 4, id := f 36 4, n := f 40 2, rank := f 42 2,
    kind := f 44 1, rop := f 45 1, etype := f 46 1, first := f 48 2, tiles := f 50 2 }

/-- The format of the elements; INT32 has none. -/
def CollDesc.ff (d : CollDesc) : Option FF :=
  match d.etype with
  | 0 => some .f32
  | 1 => some .bf16
  | 2 => some .f16
  | _ => none
/-- Bytes of an element. -/
def CollDesc.width (d : CollDesc) : Nat := if d.etype = 1 ∨ d.etype = 2 then 2 else 4
def CollDesc.inBytes (d : CollDesc) : Nat := d.width * d.count * (if d.kind = 2 then d.n else 1)
def CollDesc.outBytes (d : CollDesc) : Nat := d.width * d.count * (if d.kind = 1 then d.n else 1)

/-- The limits of R415, apart from the peer list. -/
def CollDesc.ok (d : CollDesc) (node : Bool) : Bool :=
  d.status % 8 == 0 && decide (1 ≤ d.count) && decide (d.count ≤ 2 ^ 24) && decide (2 ≤ d.n) && decide (d.n ≤ 1024)
    && decide (d.rank < d.n) && decide (d.kind ≤ 2) && decide (d.rop ≤ 2) && (d.kind != 1 || d.rop == 0) && decide (d.etype ≤ 3)
    && decide (d.tiles ≤ 1023) && (d.tiles == 0 || (!node && d.dst == 0 && d.outBytes == 256 * d.tiles))

/-- The device numbers of a peer list. -/
def peersOf (bs : List Byte) : List Nat := (List.range (bs.length / 2)).map fun i => leNat ((bs.drop (2 * i)).take 2)
/-- The checks on the peer list: this device stands at its rank, and no device stands twice. -/
def peersOk (me : Nat) (d : CollDesc) (ps : List Nat) : Bool := ps[d.rank]? == some me && decide ps.Nodup

/-! ## Streams -/

/-- A rank's stream: its parameters in 16 bytes, then its input. -/
def CollDesc.head (d : CollDesc) : List Byte :=
  leBytes 4 d.count ++ leBytes 2 d.n ++ leBytes 1 d.kind ++ leBytes 1 d.rop ++ leBytes 1 d.etype ++ List.replicate 7 0
/-- The length of a stream that begins with these bytes. -/
def streamLen (h : List Byte) : Nat :=
  let f := fun (i n : Nat) => leNat ((h.drop i).take n)
  let w := if f 8 1 = 1 ∨ f 8 1 = 2 then 2 else 4
  16 + w * f 0 4 * (if f 6 1 = 2 then f 4 2 else 1)

/-- The bytes that stand in order from the beginning of a rank's stream. -/
def gathered (ps : List CollPiece) : (fuel : Nat) → List (Byte × Bool) → List (Byte × Bool)
  | 0, bs => bs
  | fuel + 1, bs =>
    match ps.find? fun p => p.off == bs.length with
    | none => bs
    | some p => if p.bytes = [] then bs else gathered ps fuel (bs ++ p.bytes)

/-- The pieces of a source for a collective. -/
def CollPiece.of (p : CollPiece) (c : Coll) (src : Nat) : Bool := p.src == src && p.asid == c.asid && p.id == c.id

/-- What has come of a peer's stream. -/
def State.streamSoFar (s : State) (c : Coll) (src : Nat) : List (Byte × Bool) :=
  let ps := s.fabric.pieces.filter (·.of c src)
  gathered ps (ps.length + 1) []

/-- The whole stream of a peer, once it has come. -/
def State.streamOf (s : State) (c : Coll) (src : Nat) : Option (List (Byte × Bool)) :=
  let bs := s.streamSoFar c src
  let n := streamLen (bs.map (·.1))
  if decide (16 ≤ bs.length) && decide (n ≤ bs.length) then some (bs.take n) else none

/-- The offset of the piece by which a rank tells that it has ended FAILED (log 12). -/
def failedOff : Nat := 2 ^ 64 - 1

/-- Does a peer disagree: the parameters of its stream differ, or it has told that it has ended FAILED (R416)? -/
def State.disagrees (s : State) (c : Coll) (src : Nat) : Bool :=
  let bs := s.streamSoFar c src
  (decide (16 ≤ bs.length) && (bs.take 16).map (·.1) != (collDesc c.desc).head)
    || s.fabric.pieces.any fun p => p.of c src && p.off == failedOff

/-- A packet of a rank's stream: the identifier and the offset in 16 bytes, then 240 bytes at most, with the marks of poisoned flits (R398; log 12). -/
def collPkt (c : Coll) (core gid dst off : Nat) (bs : List (Byte × Bool)) : FabPkt :=
  let all := List.replicate 16 false ++ bs.map (·.2)
  { FabPkt.blank 0x30 dst c.asid core gid 0 with
      data := leBytes 8 c.id ++ leBytes 8 off ++ bs.map (·.1), psn := psnOf fun g => ((all.drop (64 * g)).take 64).any id }

/-- Sends this rank's stream to one peer. -/
def State.sendStream (s : State) (c : Coll) (core gid dst : Nat) : State :=
  let bs := (collDesc c.desc).head.map (·, false) ++ c.input
  (List.range ((bs.length + 239) / 240)).foldl (fun s i =>
    (s.sendPkt (collPkt c core gid dst (240 * i) ((bs.drop (240 * i)).take 240))).1) s

/-! ## The reduction -/

/-- Two elements combined: sums in FP32, max and min by R117, INT32 wrapping and signed. -/
def CollDesc.combine (d : CollDesc) (x y : Nat) : Nat :=
  match d.ff with
  | some f =>
    match d.rop with
    | 0 => fOf 0 0 .f32 0 ((FF.f32.dec x).add 0 (FF.f32.dec y))
    | 1 => f.enc ((f.dec x).max (f.dec y))
    | _ => f.enc ((f.dec x).min (f.dec y))
  | none =>
    let sgn := fun (p : Nat) => valOf p 32 false
    match d.rop with
    | 0 => (x + y) % 2 ^ 32
    | 1 => if sgn x ≤ sgn y then y else x
    | _ => if sgn x ≤ sgn y then x else y
/-- An element as the reduction takes it: a sum begins in FP32. -/
def CollDesc.lift (d : CollDesc) (x : Nat) : Nat :=
  match d.ff with
  | some f => if d.rop = 0 then FF.f32.enc (f.dec x) else x
  | none => x
/-- A reduced element in its type: sums are rounded once, with RNE. -/
def CollDesc.lower (d : CollDesc) (x : Nat) : Nat :=
  match d.ff with
  | some f => if d.rop = 0 then fOf 0 0 f 0 (FF.f32.dec x) else x
  | none => x

/-- Does a plan bring n partial results to one, each step taking one of them in? -/
def planOk (n : Nat) (plan : List (Nat × Nat)) : Bool :=
  let r := plan.foldl (fun (r : List Nat × Bool) (p : Nat × Nat) =>
    (r.1.filter (· != p.2), r.2 && p.1 != p.2 && decide (p.1 ∈ r.1) && decide (p.2 ∈ r.1))) (List.range n, true)
  r.2 && r.1.length == 1
/-- The plan of a run: the engine's own, or rank order. -/
def planFor (n run : Nat) : List (Nat × Nat) :=
  let p := Config.reductionPlan n run
  if planOk n p then p else (List.range (n - 1)).map fun i => (0, i + 1)
/-- The reduction of one element by a plan. -/
def CollDesc.reduce (d : CollDesc) (plan : List (Nat × Nat)) (xs : List Nat) : Nat :=
  let ys := plan.foldl (fun (ys : List Nat) (p : Nat × Nat) => modifyAt (fun x => d.combine x (ys.getD p.2 0)) p.1 ys) (xs.map d.lift)
  d.lower (ys.getD ((plan.getLastD (0, 0)).1) 0)

/-- The result of a collective from the inputs in rank order; what comes of poisoned data is poisoned (R398). -/
def CollDesc.result (d : CollDesc) (plan : List (Nat × Nat)) (ins : List (List (Byte × Bool))) : List (Byte × Bool) :=
  if d.kind = 1 then ins.flatten
  else
    let w := d.width
    let off := if d.kind = 2 then d.rank * d.count else 0
    let elem := fun (e : Nat) (bs : List (Byte × Bool)) => (bs.drop (w * (off + e))).take w
    (List.range d.count).flatMap fun e =>
      let bad := ins.any fun bs => (elem e bs).any (·.2)
      (leBytes w (d.reduce plan (ins.map fun bs => leNat ((elem e bs).map (·.1))))).map (·, bad)

/-! ## The engine -/

def State.setColl (s : State) (c d : Coll) : State :=
  { s with fabric := { s.fabric with colls := s.fabric.colls.map fun x => if x = c then d else x } }

/-- The first piece of each offset of a collective's streams is used up. -/
def usePieces (c : Coll) (ps : List CollPiece) : List CollPiece :=
  let r := ps.foldl (fun (r : List (Nat × Nat) × List CollPiece) p =>
    if p.of c p.src && decide (p.src ∈ c.peers) && !decide ((p.src, p.off) ∈ r.1) then ((p.src, p.off) :: r.1, r.2) else (r.1, r.2 ++ [p])) ([], [])
  r.2

/-- Puts of a result into the registered tiles, with the marks of poisoned words. -/
def State.putResult (s : State) (c : Coll) (bs : List (Byte × Bool)) : State :=
  let d := collDesc c.desc
  let t := s.teamOf c.team
  let put := fun (i : Nat) =>
    let tile := (bs.drop (256 * i)).take 256
    let marks := (List.range 32).filter fun w => ((tile.drop (8 * w)).take 8).any (·.2)
    Msg.mk (.engine c.team) t.core (.put (t.wbase * 4096 + 256 * (d.first + i)) c.asid 0 (tile.map (·.1)) marks none none) false
  { s with net := s.net ++ (List.range d.tiles).map put }

/-- Bytes in runs of one mark. -/
def markRuns : List (Byte × Bool) → List (List Byte × Bool)
  | [] => []
  | b :: bs =>
    match markRuns bs with
    | (r, m) :: rs => if m = b.2 then (b.1 :: r, m) :: rs else ([b.1], b.2) :: (r, m) :: rs
    | [] => [([b.1], b.2)]

/-- Writes a result at a virtual address, run by run. -/
def State.writeRuns (s : State) (asid : Nat) (sys : Bool) (va : Nat) : List (List Byte × Bool) → Except Cause State
  | [] => .ok s
  | (bs, bad) :: rs =>
    match if bad then s.vwriteBad asid sys va bs else s.vwrite asid sys va bs with
    | .error e => .error e
    | .ok t => t.writeRuns asid sys (va + bs.length) rs

/-- Writes the result of a collective whose streams are whole; the status that follows. -/
def State.writeResult (s : State) (c : Coll) (bs : List (Byte × Bool)) : State × Nat :=
  let d := collDesc c.desc
  if d.tiles ≠ 0 then (s.putResult c bs, 1)
  else match s.writeRuns c.asid c.sys d.dst (markRuns bs) with
    | .ok t => (t, 1)
    | .error _ => (s, 3)

/-- The other ranks that can be reached. -/
def State.otherRanks (s : State) (c : Coll) : List Nat := c.peers.filter fun p => p != s.fabric.device.toNat && s.fabric.reachable p

/-- A collective ends FAILED, and its other ranks are told, so that every rank does (R416; log 12). -/
def State.failColl (s : State) (c : Coll) : State :=
  ((s.otherRanks c).foldl (fun s p => (s.sendPkt (collPkt c 0 c.gid p failedOff [])).1) s).setColl c { c with status := some (3, 0) }

/-- A collective ends FAILED as soon as a rank disagrees, and with its result when every stream has come (R416). -/
def State.tryColl (s : State) (c : Coll) : State :=
  let d := collDesc c.desc
  let me := s.fabric.device.toNat
  let own := d.head.map (·, false) ++ c.input
  let used := { s with fabric := { s.fabric with pieces := usePieces c s.fabric.pieces } }
  if c.status.isSome then s
  else if c.peers.any fun p => p != me && s.disagrees c p then used.failColl c
  else
    let streams : Option (List (List (Byte × Bool))) := c.peers.mapM fun p => if p = me then some own else s.streamOf c p
    match streams with
    | none => s
    | some ss =>
      let used : State := { used with tick := s.tick + 1 }
      let ins := ss.map fun (x : List (Byte × Bool)) => x.drop 16
      let (t, st) := used.writeResult c (d.result (planFor d.n s.tick) ins)
      t.setColl c { c with status := some (st, 0) }

/-- The registered tiles become POISON; every group that waits on one takes COLL_ABORT (R417, R208). -/
def State.abortTiles (s : State) (c : Coll) : State :=
  let d := collDesc c.desc
  let k := c.team
  (List.range d.tiles).foldl (fun s i =>
    let t := d.first + i
    let ws := s.tileWaiters k t
    let s := (s.setTagOf k t .poison).discardTile k t
    ws.foldl (fun s w => s.addCause k w.gid ⟨.collAbort, w.addr, some w.path⟩) s) s

/-- A collective that has not completed ends ABORTED by a killed device (R417). -/
def State.abortColl (s : State) (c : Coll) (src : Nat) : State :=
  let s := (s.setColl c { c with status := some (2, src) }).abortTiles c
  let s := { s with fabric := { s.fabric with pieces := usePieces c s.fabric.pieces } }
  if c.launch.isSome then s else s.addCause c.team c.gid ⟨.peerKilled, mark63 (BitVec.ofNat 64 src), none⟩

/-- The engine starts: its stream goes to every other rank; an input that cannot be read ends it FAILED, and an abort that has come before ends it ABORTED. -/
def State.startColl (s : State) (c : Coll) (inputOk : Bool) (core gid : Nat) : State :=
  let f := s.fabric
  let early := f.aborts.find? fun a => a.2 == (c.asid, c.id) && decide (a.1 ∈ c.peers)
  let s := { s with fabric := { f with
      colls := f.colls ++ [c], ended := f.ended.filter (· != (c.asid, c.id)), aborts := f.aborts.filter fun a => some a != early } }
  match early with
  | some a => s.abortColl c a.1
  | none => if !inputOk then s.failColl c else ((s.otherRanks c).foldl (fun s p => s.sendStream c core gid p) s).tryColl c

/-! ## COLL -/

/-- Reads n bytes of global memory for the focus, block by block. -/
def State.readSpan (s : State) (va : Word64) (n : Nat) : Res (List Byte) := do
  let one := fun (p : Nat × Nat) => do
    let x := BitVec.ofNat 64 p.1
    let q ← s.locate aLoad .global x p.2 1
    s.readAt q x p.2 true
  let bs ← (pieces 256 (n + 1) va.toNat n).mapM one
  return bs.flatten

/-- The input of a collective that a group starts: its bytes, poisoned pieces marked, or none where it cannot be read. -/
def State.collInput (s : State) (d : CollDesc) : Res (Option (List (Byte × Bool))) :=
  let one : Nat × Nat → Res (Option (List (Byte × Bool))) := fun p =>
    match s.readSpan (BitVec.ofNat 64 p.1) p.2 with
    | .ok bs => .ok (some (bs.map (·, false)))
    | .error (.trap t) => .ok (if t.cause = .poison then some (List.replicate p.2 (0, true)) else none)
    | .error h => .error h
  ((pieces 64 (d.inBytes + 1) d.src d.inBytes).mapM one).map fun ps => (ps.mapM id).map List.flatten

def execColl (a : Src) (l : MemM) (s : State) : Out :=
  s.finish do
    needOp (l.space == .g)
    let base ← s.opnd a
    s.notInRegion
    let va := base + sx64 l.off
    s.drained .sys
    need (va.toNat % 64 == 0) .dataCheck va
    let bs ← s.readSpan va 64
    let desc : BitVec 512 := bytesToBits 512 bs
    let d := collDesc desc
    need (d.ok false) .dataCheck va
    let ps ← s.readSpan (BitVec.ofNat 64 d.peers) (2 * d.n)
    let peers := peersOf ps
    need (peersOk s.fabric.device.toNat d peers) .dataCheck va
    let input ← s.collInput d
    await (decide (s.hart.counter kColl < 65535))
    let h := s.hart
    let c : Coll :=
      { id := d.id, team := s.cur.team, gid := s.cur.gid, op := h.nextOp, launch := none, asid := h.asid.toNat, sys := h.sys, desc := desc,
        peers := peers, input := input.getD [], status := none, wrote := false }
    let s := s.setHart ({ h with nextOp := h.nextOp + 1 }.raiseCtr kColl h.nextOp)
    return (s.startColl c input.isSome s.team.core s.cur.gid).retire 2 Latch.none

/-! ## Packets -/

/-- The identifier that a collective's packet carries, and the offset of a piece (log 12). -/
def pktColl (p : FabPkt) : Nat := leNat (p.data.take 8)
def pktOff (p : FabPkt) : Nat := leNat ((p.data.drop 8).take 8)

/-- COLLECTIVE_DATA: a piece of a rank's stream is taken, once, with the marks of its flits. -/
def execCollectiveData (p : FabPkt) (s : State) : Out :=
  s.arrive p [0x30] fun s =>
    if s.seen p then s.ack p
    else
      let n := p.data.length - 16
      let x : CollPiece :=
        { src := p.src.toNat, asid := p.asid.toNat, id := pktColl p, off := pktOff p,
          bytes := (List.range n).map fun i => (p.data.getD (16 + i) 0, p.psn.getLsbD ((16 + i) / 64)) }
      let s := ({ s with fabric := { s.fabric with pieces := s.fabric.pieces ++ [x] } }.markSeen p).ack p
      match s.fabric.colls.find? fun c => c.status.isNone && x.of c x.src with
      | some c => s.tryColl c
      | none => s

/-- COLLECTIVE_ABORT: a collective that has not completed ends ABORTED; one that has not started ends so when it starts (R417). -/
def execCollectiveAbort (p : FabPkt) (s : State) : Out :=
  s.arrive p [0x31] fun s =>
    if s.seen p then s.ack p
    else
      let s := (s.markSeen p).ack p
      let key := (p.asid.toNat, pktColl p)
      match s.fabric.colls.find? fun c => (c.asid, c.id) == key && decide (p.src.toNat ∈ c.peers) with
      | some c => if c.status.isNone then s.abortColl c p.src.toNat else s
      | none => if key ∈ s.fabric.ended then s else { s with fabric := { s.fabric with aborts := insertNew (p.src.toNat, key) s.fabric.aborts } }

/-! ## The end -/

/-- Is a collective's result still on its way: puts to its tiles, or writes of the device to other devices? -/
def State.collBusy (s : State) (c : Coll) : Bool :=
  let put := fun (m : Msg) => m.src == .engine c.team && (match m.body with | .put _ _ _ _ _ _ _ => true | _ => false)
  ((collDesc c.desc).tiles != 0
      && (s.net.any put || s.cores.any fun (x : Nat × Core) => x.2.hold.any fun h => h.src == .engine c.team))
    || (s.fabric.unacked ++ s.fabric.fsJobs.map (·.pkt)).any fun p => p.kind == 0x02 && p.core == 0 && p.gid == 0 && p.asid.toNat == c.asid

/-- The collective's end reaches its group's counter, or its node (R416, R347). -/
def State.collEnded (s : State) (c : Coll) (status : Nat) : State :=
  match c.launch with
  | none => s.completeOp (.group c.team c.gid) kColl c.op
  | some (l, n) => s.modNode l n fun r => { r with ended := r.ended + 1, trapped := r.trapped || status != 1 }

/-- COLLECTIVE_STATUS_WRITE: a finished collective writes its status word, and `coll` falls after it is written: where the word lies on another device, once the write has been acknowledged (R416). -/
def execCollectiveStatusWrite (i : Nat) (s : State) : Out :=
  match s.fabric.colls[i]? with
  | none => .next s
  | some c =>
    match c.status with
    | none => .next s
    | some (st, peer) =>
      if s.collBusy c then .next s
      else
        let d := collDesc c.desc
        let s := if c.wrote then s
          else match s.vwrite c.asid c.sys d.status (leBytes 8 (peer * 256 + st)) with
            | .ok t => t
            | .error e => s.logError .engine e.code 0 c.asid c.gid (BitVec.ofNat 64 d.status)
        let f := s.fabric
        if !c.wrote && s.collBusy c then .next (s.setColl c { c with wrote := true })
        else .next ({ s with fabric := { f with colls := removeAt i f.colls, ended := insertNew (c.asid, c.id) f.ended } }.collEnded c st)

/-- CONTEXT_KILL: every collective of the context tells its other ranks, and ends (R417). -/
def execContextKill (asid : Nat) (s : State) : Out :=
  let mine := s.fabric.colls.filter fun c => c.asid == asid
  let kill := fun (s : State) (c : Coll) =>
    let tell := fun (s : State) (p : Nat) => (s.sendPkt { FabPkt.blank 0x31 p asid 0 c.gid 0 with data := leBytes 8 c.id }).1
    (if c.status.isNone then (s.otherRanks c).foldl tell s else s).collEnded c 2
  let s := mine.foldl kill s
  let f := s.fabric
  .next { s with fabric := { f with colls := f.colls.filter fun c => c.asid != asid, pieces := f.pieces.filter fun p => p.asid != asid,
                                    aborts := f.aborts.filter fun a => a.2.1 != asid } }

end Sys2Proof.Machine
end

