-- ==== Sys2Proof/Machine/Fetch.lean ====
section
/-! DEFINITION. What an agent fetches and decodes: the checks of R49 in their order, the beginning of a clause (R23, R32, R33), the path that a quadrant issues next (R100), and what the next step does. -/

namespace Sys2Proof.Machine

/-! ## Decoding a word of a clause (R49) -/

/-- Word i of a clause, 1 being the first after the header. -/
def Clause.word (c : Clause) (i : Nat) : Word32 := c.words.getD (i - 1) 0

/-- Steps 1 to 4 of R49 for the next word of a clause, fetched by a bank core or not, under a declared feature mask (none on a bank core, R287); `formats` tells whether the mask covers the formats that a stream instruction reads (R150). -/
def checkWord (bank : Bool) (feat : Option Word64) (formats : Bool) (c : Clause) : Res Instr :=
  let w := c.word c.idx
  let op := (w.extractLsb' 24 8).toNat
  match opInfo c.cls.toNat op with
  | none => illegal
  | some o => do
    needOp (if bank then bankAccepts c.cls.toNat op else !(c.cls == 7 && decide (0xF0 ≤ op)))
    need (feat.all (·.getLsbD o.feat) && formats) .featureAbsent 0
    let last := if o.lit then c.idx + 1 else c.idx
    need (decide (last ≤ c.count) && (!o.transfer || last == c.count) && (!o.blocking || c.idx == 1)) .illegalClause 0
    match decodeWord bank c.cls w (if o.lit then c.word (c.idx + 1) else 0) with
    | none => illegal
    | some i => .ok i

/-! ## Which path begins a clause (R96, R98, R100) -/

/-- The first pending boundary cause that a path is to take (R361): one that names it, slot 0 where none is named, or the other slot's where that slot holds no path. -/
def Hart.causeFor (h : Hart) (p : Bool) : Option Nat :=
  h.causes.findIdx? fun c => let t := c.path.getD false; t == p || !(h.path t).active

/-- Is a path ready to issue but for a header wait: no suspension, no trap of the other path, and at a boundary no cause to take and no eviction (R361, R371)? -/
def Hart.ready (h : Hart) (p : Bool) : Bool :=
  let x := h.path p
  h.live && !h.evicted && x.active && !x.issuing && x.susp.isNone && h.stopOther != some p
    && (x.clause.isSome || ((h.causeFor p).isNone && !h.evictAsked))

/-- The paths of the groups on a quadrant of a core. -/
def State.quadPaths (s : State) (core quad : Nat) : List Focus :=
  s.teams.flatMap fun (k, t) =>
    if !t.live || t.core != core then []
    else (s.liveGids k).flatMap fun g =>
      if (s.hartOf (.group k g)).quad = quad then [⟨.group, k, g, false, 0, 0⟩, ⟨.group, k, g, true, 0, 0⟩] else []

/-- The path of a focus. -/
def State.pathAt (s : State) (f : Focus) : Path := (s.hartOf (.group f.team f.gid)).path f.path

/-- The counters that a wait mask selects are at or below the threshold (R31). -/
def Hart.waitMet (h : Hart) (mask : BitVec 8) (thr : Nat) : Bool :=
  (List.range 8).all fun k => !mask.getLsbD k || decide (h.counter k ≤ thr)

/-- The wait of the header at which a path stands, where it is not met (R31). -/
def State.headerWait (s : State) (f : Focus) : Option Wait :=
  let s := { s with cur := f }
  if s.path.clause.isSome then none
  else match s.fetchWord s.path.pc with
    | .ok w =>
      let mask := w.extractLsb' 8 8
      let thr := (w.extractLsb' 16 4).toNat
      if hdrBad false w || s.hart.waitMet mask thr then none else some (.header mask thr)
    | .error _ => none
/-- Is a path ready: also its header wait is met, or its header cannot begin (R100)? -/
def State.readyAt (s : State) (f : Focus) : Bool := (s.hartOf (.group f.team f.gid)).ready f.path && (s.headerWait f).isNone

/-- A path at a boundary whose header wait is not met waits for it; its readiness counts from the end of the wait (R100). -/
def State.settleWaits (s : State) : State :=
  if s.cur.unit == .group && s.hart.ready s.cur.path then
    match s.headerWait s.cur with
    | some w => s.stopped (.suspend w)
    | none => s
  else s

/-- The order of precedence of R100, smallest first: an aging count at its cap, a higher `prio`, a producer role, and the earliest readiness, a yielded path counting as the latest. -/
def State.rank (s : State) (f : Focus) : List Nat :=
  let h := s.hartOf (.group f.team f.gid)
  let x := h.path f.path
  let producer := (((s.teamOf f.team).roles[h.role]?).map Role.producer).getD false
  [if x.aging = 16 then 0 else 1, 11 - h.prio.toNat, if producer then 0 else 1, if x.yielded then 1 else 0, x.since]

/-- The order of lists of numbers, first difference first. -/
def before : List Nat → List Nat → Bool
  | x :: xs, y :: ys => decide (x < y) || (x == y && before xs ys)
  | _, _ => false

/-- The member of a list that comes first by its rank. -/
def firstBy (rank : Focus → List Nat) : List Focus → Option Focus
  | [] => none
  | f :: fs => match firstBy rank fs with
    | none => some f
    | some g => if before (rank g) (rank f) then some g else some f

/-- The path that a quadrant runs next: the one under way, or the best of the ready ones. -/
def State.bestOn (s : State) (core quad : Nat) : Option Focus :=
  let fs := s.quadPaths core quad
  match fs.find? fun f => (s.pathAt f).issuing with
  | some f => some f
  | none => firstBy s.rank (fs.filter s.readyAt)

/-! ## Beginning a clause -/

/-- Every ready path that is passed over ages by one, up to 16 (R100). -/
def State.passOver (s : State) (f : Focus) (fs : List Focus) : State :=
  fs.foldl (fun s g =>
    if g = f then s
    else
      let i := HartId.group g.team g.gid
      let h := s.hartOf i
      let x := h.path g.path
      s.setHartOf i (h.setPath g.path { x with aging := Nat.min 16 (x.aging + 1) })) s

/-- A path takes its quadrant's issue slot. -/
def Path.take (p : Path) : Path := { p with issuing := true, aging := 0, yielded := false, stalled := false }

/-- The focus path's clause is fetched and begins: a malformed header traps, an unmet header wait suspends, and a wait that is met discards L1 lines (R23, R255). All words are fetched before the wait is looked at, and again when it ends; R23 puts only the header before the wait: DESIGN CHOICE (log 72). -/
def State.openClause (s : State) : Res State := do
  let (c, w) ← fetchClause s.fetchWord false s.path.pc
  let mask := w.extractLsb' 8 8
  let thr := (w.extractLsb' 16 4).toNat
  if !s.hart.waitMet mask thr then .error (.suspend (.header mask thr))
  else
    let s := if mask = 0 then s else s.setCoreOf s.team.core { s.coreOf s.team.core with l1 := [] }
    return s.setPath { s.path.take with clause := some c, latches := Vector.replicate 4 Latch.none }

/-- A group's path takes the issue slot: it moves the focus to a clause under way, goes on with a suspended one, or begins the next. -/
def State.issuePath (s : State) (f : Focus) : State :=
  let s' := { s with cur := f }
  let h := s.hartOf (.group f.team f.gid)
  let fs := s.quadPaths (s.teamOf f.team).core h.quad
  if (h.path f.path).issuing then s'
  else if !h.ready f.path || fs.any (fun g => (s.pathAt g).issuing) then s
  else
    let aged := s'.passOver f (fs.filter s.readyAt)
    match (h.path f.path).clause with
    | some _ => aged.setPath aged.path.take
    | none => match s'.openClause with
      | .error e => s'.stopped e
      | .ok _ => match aged.openClause with
        | .ok t => t
        | .error e => s'.stopped e

/-- A bank core begins its next clause (R286, R287): only classes 0, 1, 2 and 7 are well formed there. -/
def State.issueBank (s : State) (f : Focus) : State :=
  let s' := { s with cur := f }
  let h := s.hartOf (.bank f.bank)
  if !(s.bankOf f.bank).running || !h.p0.active then s
  else if h.p0.clause.isSome then s'
  else
    let r : Res State := do
      let w ← s'.fetchWord h.p0.pc
      need (!decide (3 ≤ (hdrClass w).toNat) || hdrClass w == 7) .illegalClause 0
      let (c, _) ← fetchClause s'.fetchWord false h.p0.pc
      return s'.setPath { s'.path.take with clause := some c, latches := Vector.replicate 4 Latch.none }
    match r with
    | .ok t => t
    | .error e => s'.stopped e

/-- Does a sequencer issue (R162, R164, R192)? -/
def Seq.issues (q : Seq) : Bool := q.st == .running && q.fault.isNone && !q.stopAsked

/-- A team's sequencer begins its next stream clause (R163). -/
def State.issueStream (s : State) (f : Focus) : State :=
  let q := (s.teamOf f.team).seq
  let s' := { s with cur := f }
  if !q.issues then s
  else if q.clause.isSome then s'
  else match fetchClause (s.fetchStream f.team) true q.spc with
    | .ok (c, _) => s'.modSeq f.team fun q => { q with clause := some c, stalled := false }
    | .error e => s'.seqStopped f.team e

/-- CLAUSE_EXECUTE: an agent runs the clause at its program counter (R23, R100, R163). -/
def execClauseExecute (f : Focus) (s : State) : Out :=
  .next (match f.unit with
    | .group => s.issuePath { f with bank := 0, hart := 0 }
    | .bank => s.issueBank { f with path := false }
    | .stream => s.issueStream f
    | .shepherd => s)

/-! ## What the next step does -/

/-- The clause that the focus is executing, and whether its agent is stalled; none where it executes none. -/
def State.underWay (s : State) : Option (Clause × Bool) :=
  match s.cur.unit with
  | .group =>
    let x := s.path
    if s.hart.live && !s.hart.evicted && x.active && x.issuing && x.susp.isNone then x.clause.map fun c => (c, x.stalled) else none
  | .bank => if (s.bankOf s.cur.bank).running && s.path.active then s.path.clause.map fun c => (c, s.path.stalled) else none
  | .stream => let q := s.team.seq; if q.issues then q.clause.map fun c => (c, q.stalled) else none
  | .shepherd => none

/-- The instruction that the focus decodes next. -/
def State.decodeNext (s : State) (c : Clause) : Res Instr :=
  match s.cur.unit with
  | .bank => checkWord true none true c
  | .stream => checkWord false (some s.team.feat) s.team.formatsOk c
  | _ => checkWord false (some s.team.feat) true c

/-- Is a team's sequencer about to issue a product: its next word is MMA or MMA.ADP, and nothing holds it? -/
def State.productNext (s : State) (k : Nat) : Bool :=
  let t := s.teamOf k
  t.live && t.seq.issues && !t.seq.stalled && match t.seq.clause with
    | none => false
    | some c => match checkWord false (some t.feat) t.formatsOk c with
      | .ok (.mma _ _ _ _) => true
      | .ok (.mmaAdp _ _ _ _) => true
      | _ => false

/-- The order in which a core takes products from its sequencers (R170): team `prio`, then the rotation behind the team that issued last. -/
def State.streamRank (s : State) (k : Nat) : List Nat :=
  let t := s.teamOf k
  [11 - t.prio, if (s.coreOf t.core).lastSeq < k then 0 else 1, k]

/-- Must the focus's stream let another sequencer of its core issue its product first? -/
def State.streamYields (s : State) : Bool :=
  let k := s.cur.team
  s.cur.unit == .stream && s.productNext k && s.teams.any fun (j, t) =>
    j != k && t.core == s.team.core && s.productNext j && before (s.streamRank j) (s.streamRank k)

/-- A word that fails its decoding. -/
def State.decodeStopped (s : State) (h : Halt) : State :=
  match s.cur.unit with
  | .stream => s.seqStopped s.cur.team h
  | _ => s.stopped h

/-- The focus is tried again. -/
def State.unstall (s : State) : State :=
  match s.cur.unit with
  | .stream => s.modSeq s.cur.team fun q => { q with stalled := false }
  | .shepherd => s
  | _ => s.setPath { s.path with stalled := false }

end Sys2Proof.Machine
end

