-- ==== Sys2Proof/Machine/System.lean ====
section
/-! DEFINITION. Class 7: CSRs (R17 to R19, R376), TRAP and ERET (R377, R378), TLBINV (R379), codebooks (R155 to R157), DBG and FEAT (R380), and BIDLD (R356). -/

namespace Sys2Proof.Machine

/-! ## CSRs -/

/-- Who may read and write a register (R17). -/
inductive CsrAccess where
  | rw | ro | rosw | sr
deriving DecidableEq, Repr

/-- The access column of R17; none for a number that it does not list. -/
def csrAccess (n : BitVec 10) : Option CsrAccess :=
  match n.toNat with
  | 0x000 | 0x001 | 0x003 | 0x004 | 0x010 | 0x011 | 0x012 | 0x020 | 0x021 | 0x022 | 0x023 => some .rw
  | 0x013 => some .sr
  | 0x030 | 0x031 => some .rosw
  | 0x002 | 0x032 | 0x033 | 0x034 | 0x035 | 0x040 | 0x041 | 0x042 | 0x043 => some .ro
  | _ => none
/-- The same on a bank core (R288). -/
def csrAccessBank (n : BitVec 10) : Option CsrAccess :=
  match n.toNat with
  | 0x000 | 0x001 | 0x004 | 0x012 | 0x020 | 0x021 | 0x022 => some .rw
  | 0x002 | 0x003 | 0x034 => some .ro
  | _ => none

/-- The checks of R19, in its order. -/
def State.csrCheck (s : State) (n : BitVec 10) (write : Bool) : Res Unit :=
  match if s.onBank then csrAccessBank n else csrAccess n with
  | none => illegal
  | some a =>
    if a == .sr && !s.hart.sys then raise .accessViolation 0
    else if write && a == .rosw && !s.hart.sys then raise .accessViolation 0
    else needOp (!(write && (a == .ro || a == .sr)))

/-- `coreid` (R18, R288). -/
def State.coreId (s : State) : Word64 :=
  if s.onBank then BitVec.ofNat 64 (2 ^ 63 + s.cur.bank)
  else BitVec.ofNat 64 (s.team.core / 36 * 512 + s.team.core)

/-- The value that a CSR reads as; `emask` and `fmt` are the path's (R91). -/
def State.csrRead (s : State) (n : BitVec 10) : Word64 :=
  let h := s.hart
  match n.toNat with
  | 0x000 => h.vl
  | 0x001 => h.vtype
  | 0x002 => if s.onBank then 64 else 256
  | 0x003 => s.lanesOn
  | 0x004 => s.path.fmt
  | 0x010 => h.slimit
  | 0x011 => h.sbase
  | 0x012 => h.seed
  | 0x013 => h.spbase
  | 0x020 => h.tcause
  | 0x021 => h.tval
  | 0x022 => h.epc
  | 0x023 => h.fcause
  | 0x030 => h.asid
  | 0x031 => h.prio
  | 0x032 => BitVec.ofNat 64 s.cur.gid
  | 0x033 => BitVec.ofNat 64 s.team.tid
  | 0x034 => s.coreId
  | 0x035 => s.team.feat
  | 0x040 => vget h.pathack 0 0
  | 0x041 => vget h.pathack 1 0
  | 0x042 => vget h.pathack 2 0
  | 0x043 => vget h.pathack 3 0
  | _ => 0

/-- `vl` after a write, at most VLMAX (R105). -/
def State.capVl (s : State) (vtype vl : Word64) : Word64 := BitVec.ofNat 64 (Nat.min vl.toNat (vlmaxOf s.onBank vtype))

/-- The fields of `fmt` that a bank core may set are rm and sm (R288). -/
def State.fmtOk (s : State) (x : Word64) : Bool := fmtLegal x && (!s.onBank || fmtKept x &&& 0x1FC1FFF == 0)

/-- A write by the register's own rule (R105, R135, R149, R152, R19); bits that R7 reserves are not kept. -/
def State.csrWrite (s : State) (n : BitVec 10) (x : Word64) : Res State :=
  let h := s.hart
  match n.toNat with
  | 0x000 => .ok (s.setHart { h with vl := s.capVl h.vtype x })
  | 0x001 => let t := x &&& 0x3F; .ok (s.setHart { h with vtype := t, vl := s.capVl t h.vl })
  | 0x003 => .ok (s.setEmask x)
  | 0x004 => do
    needOp (s.fmtOk x)
    return s.setPath { s.path with fmt := fmtKept x }
  | 0x010 => .ok (s.setHart { h with slimit := x })
  | 0x011 => .ok (s.setHart { h with sbase := x })
  | 0x012 => .ok (s.setHart { h with seed := x, gens := seeded x })
  | 0x020 => .ok (s.setHart { h with tcause := x &&& 0x1FF })
  | 0x021 => .ok (s.setHart { h with tval := x })
  | 0x022 => .ok (s.setHart { h with epc := x })
  | 0x023 => .ok (s.setHart { h with fcause := x &&& 0x3FFFFFF })
  | 0x030 => do
    needOp (decide (x.toNat ≤ 4095))
    return s.setHart { h with asid := x }
  | 0x031 => do
    needOp (decide (x.toNat ≤ 11))
    return s.setHart { h with prio := x }
  | _ => .ok s

def execCsrr (d : Dst) (c : BitVec 10) (s : State) : Out :=
  s.finish do
    s.csrCheck c false
    return s.retireS 1 d (s.csrRead c)

/-- A CSR write: the old value goes to the destination (R376). -/
def State.csrModify (s : State) (d : Dst) (a : Src) (c : BitVec 10) (f : Word64 → Word64 → Word64) : Out :=
  s.finish do
    let x ← s.opnd a
    s.csrCheck c true
    let old := s.csrRead c
    let s ← s.csrWrite c (f old x)
    return s.retireS 1 d old

def execCsrw (d : Dst) (a : Src) (c : BitVec 10) (s : State) : Out := s.csrModify d a c fun _ x => x
def execCsrs (d : Dst) (a : Src) (c : BitVec 10) (s : State) : Out := s.csrModify d a c fun old x => old ||| x
def execCsrc (d : Dst) (a : Src) (c : BitVec 10) (s : State) : Out := s.csrModify d a c fun old x => old &&& ~~~x

/-! ## TRAP and ERET -/

/-- TRAP: a precise trap whose `epc` is the header that follows the clause (R377). -/
def execTrap (c : BitVec 6) (s : State) : Out :=
  let x : Word64 := c.setWidth 64
  let t : TrapRec := ⟨.software c, x, 0, x, 0⟩
  let epc := s.path.nextHeader
  .next (if s.onBank then s.bankTrap s.cur.bank t epc else s.takeTrap s.cur.team s.cur.gid s.cur.path t false epc)

/-- Privileged instructions trap in user mode (R359). -/
def State.privileged (s : State) : Res Unit := need s.hart.sys .accessViolation 0

def execEret (s : State) : Out :=
  s.finish do
    s.privileged
    await s.hart.sq.isEmpty
    let s ← s.leaveHandler
    return s.setHart s.hart.forget

/-! ## TLBINV (R379) -/

/-- Has every access of some contexts that issue may have translated been performed: those of groups, the issued rows of streams, the packets of engines, and stores to lines of other devices? -/
def State.asidQuiet (s : State) (p : Nat → Bool) : Bool :=
  (s.harts.all fun (x : HartId × Hart) => !p x.2.asid.toNat
      || (x.2.sq.isEmpty && x.2.flags.isEmpty && x.2.commits.isEmpty && x.2.near.isEmpty && x.2.remote.isEmpty))
    && (s.posted.all fun q => !p (s.teamOf q.team).asid)
    && (s.teams.all fun (t : Nat × Team) => !p t.2.asid || (t.2.seq.rows.isEmpty && t.2.sent.isEmpty))
    && s.fabric.fsJobs.all fun j => !p j.pkt.asid.toNat

/-- Drops the cached translations that a test picks, on every core. -/
def State.tlbDrop (s : State) (p : TlbEntry → Bool) : State :=
  { s with cores := s.cores.map fun (c : Nat × Core) => (c.1, { c.2 with tlb := c.2.tlb.filter fun e => !p e }) }

/-- A TLBINV: a release of scope `.dev`, which waits for the accesses that used what it drops. -/
def State.invalidate (s : State) (asids : Nat → Bool) (p : TlbEntry → Bool) : Res State := do
  s.drained .dev
  await (s.asidQuiet asids)
  return (s.tlbDrop p).retire 1 Latch.none

def execTlbinv (a b : Src) (s : State) : Out :=
  s.finish do
    let va ← s.opnd a
    let asid ← s.opnd b
    s.privileged
    needOp (decide (asid.toNat < 4096))
    s.invalidate (· == asid.toNat) fun e =>
      e.asid == asid.toNat && decide (e.page ≤ va.toNat / 65536) && decide (va.toNat / 65536 < e.page + e.span)
def execTlbinvAsid (b : Src) (s : State) : Out :=
  s.finish do
    let asid ← s.opnd b
    s.privileged
    needOp (decide (asid.toNat < 4096))
    s.invalidate (· == asid.toNat) fun e => e.asid == asid.toNat
def execTlbinvAll (s : State) : Out :=
  s.finish do
    s.privileged
    s.invalidate (fun _ => true) fun _ => true

/-! ## Codebooks -/

/-- CBLD: the shadow copy takes the sixteen entries. Matrix instructions take a copy whole at their issue, so none is still reading it (R155, R157). -/
def execCbld (a b : Src) (s : State) : Out :=
  s.finish do
    needOp (match a with | .const _ => false | _ => true)
    let n ← s.opnd b
    let v ← s.vreg1 a fun _ => 0
    needOp (decide (n.toNat ≤ 7))
    s.heldSrc a 1
    let t := s.team
    let key := (n.toNat, !t.cbVisible.getLsbD n.toNat)
    return (s.setTeam { t with cb := mset key (v.setWidth 256) t.cb }).retire 1 Latch.none

def execCbswap (a : Src) (s : State) : Out :=
  s.finish do
    let m ← s.opnd a
    needOp (m.extractLsb' 8 56 == 0)
    let t := s.team
    return (s.setTeam { t with cbVisible := t.cbVisible ^^^ m.setWidth 8 }).retire 1 Latch.none

/-! ## DBG, FEAT and BIDLD -/

/-- DBG: with the halt control set for the group's ASID it fills the debug event record and suspends until the port resumes it (R380, R427). -/
def execDbg (a : Src) (s : State) : Out :=
  s.finish (
    match s.path.grant with
    | some _ => .ok (s.retire 1 Latch.none)
    | none => do
      let x ← s.opnd a
      if s.onBank || !decide (s.hart.asid.toNat ∈ s.service.haltDbg) then return s.retire 1 Latch.none
      else
        let s := { s with service := { s.service with dbgRecord := some (x, s.team.core, s.cur.gid, s.path.wordAddr) } }
        return s.stopped (.suspend .debug))

def execFeat (d : Dst) (s : State) : Out := .next (s.retireS 1 d 0x3FFF)

def execBidld (a b : Src) (s : State) : Out :=
  s.finish do
    let n ← s.opnd a
    let w ← s.opnd b
    s.privileged
    needOp (decide (n.toNat ≤ 15))
    return { s with bell := { s.bell with tables := mset n.toNat w s.bell.tables } }.retire 1 Latch.none
def execBidldWindow (a : Src) (s : State) : Out :=
  s.finish do
    let w ← s.opnd a
    s.privileged
    needOp (decide (16 ≤ w.toNat) && decide (w.toNat ≤ 1024))
    return { s with bell := { s.bell with length := w.toNat } }.retire 1 Latch.none

end Sys2Proof.Machine
end

