-- ==== Sys2Proof/Machine/Launch.lean ====
section
/-! DEFINITION. The Drover: commands, launch tables and their checks (R335 to R342), nodes and their words (R343 to R348), dispatch, placement and completion, and the threads of R338. The Drover reads and writes at the homes under the queue's ASID with system rights (log 31). -/

namespace Sys2Proof.Machine

/-- The number in n bytes from byte i. -/
def field (bs : List Byte) (i n : Nat) : Nat := leNat ((bs.drop i).take n)

/-! ## Reading nodes and headers (R339 to R341) -/

def parseTile (x : Nat) : Option TileRec :=
  if x.testBit 63 then
    some { out := x.testBit 62, peer := x / 2 ^ 50 % 2 ^ 12, ptid := x / 2 ^ 34 % 2 ^ 16, count := x / 2 ^ 12 % 2 ^ 10, first := x % 2 ^ 12 }
  else none

/-- A node from its 256 bytes. -/
def parseNode (bs : List Byte) : Node :=
  let f := field bs
  let w := fun (i : Nat) => BitVec.ofNat 64 (f i 8)
  { pred := f 0 2, kind := f 2 1, tendered := f 3 1 % 2 == 1, prio := f 4 1, formula := f 5 1,
    succ := (List.range (Nat.min 8 (f 6 2))).map fun k => f (8 + 2 * k) 2, code := w 24,
    args := Vector.ofFn fun k : Fin 15 => w (32 + 8 * k.val),
    bars := Vector.ofFn fun k : Fin 16 => BitVec.ofNat 64 (f (152 + 2 * k.val) 2), ndone := w 184, report := w 192,
    tiles := (List.range 4).filterMap fun k => parseTile (f (200 + 8 * k) 8), kparm := BitVec.ofNat 128 (f 232 16),
    adapters := (List.range 4).map fun k => f (248 + 2 * k) 2 }

/-- Do a node's bytes break a limit of R339, R341, R274 or R344, in a table of so many nodes? A reserved field is no limit: it is not looked at (R7). -/
def nodeBad (bs : List Byte) (count : Nat) : Bool :=
  let f := field bs
  let n := parseNode bs
  decide (4095 < n.pred) || decide (3 < n.kind) || decide (1 < f 3 1) || decide (11 < n.prio) || decide (15 < n.formula)
    || decide (8 < f 6 2) || (List.range 8).any (fun k => decide (f 6 2 ≤ k) && f (8 + 2 * k) 2 != 0)
    || n.succ.any (fun x => decide (count ≤ x)) || n.adapters.any (fun a => decide (4096 ≤ a))
    || (if n.kind = 0 then n.code.toNat % 128 != 0 else n.code != 0)
    || (List.range 16).any (fun k => let x := f (152 + 2 * k) 2; x.testBit 7 || decide (32 < x % 64))
    || (n.kind == 1 && (decide (767 < f 240 2) || f 242 6 != 0))
    || (List.range 4).any (fun k =>
        let x := f (200 + 8 * k) 8
        x.testBit 63 && (x / 2 ^ 12 % 2 ^ 10 == 0 || decide (count ≤ x / 2 ^ 50 % 2 ^ 12)))

/-- A header as it was read, with whether a limit of R340 and one of R85 is broken. -/
structure ReadHeader where
  header : Header
  bad : Bool
  rolesBad : Bool
deriving DecidableEq, Repr

def roleBad (r : Role) : Bool :=
  r.groups == 0 || decide (32 < r.groups) || r.slots == 0 || decide (4 < r.slots) || decide (r.budget < r.groups * r.slots)
    || decide (r.groups * 4 < r.budget)

/-- A header from its 128 bytes; its reserved fields are not looked at (R7). -/
def parseHeader (bs : List Byte) : ReadHeader :=
  let f := field bs
  let w := fun (i : Nat) => BitVec.ofNat 64 (f i 8)
  let nr := f 24 1
  let roles := (List.range (Nat.min 4 nr)).map fun k =>
    Role.mk (f (32 + 16 * k) 1 == 0) (f (33 + 16 * k) 1) (f (34 + 16 * k) 1) (f (35 + 16 * k) 1) (w (40 + 16 * k)) false
  let h : Header :=
    { feat := w 0, stream := w 8, grid := f 16 4, spad := f 20 2, accs := f 22 1, gang := f 23 1 % 2 == 1, roles := roles,
      tmpl := w 96, ntmpl := f 104 2, priv := f 108 2, stack := f 110 2 }
  { header := h,
    bad := h.grid == 0 || h.spad % 4 != 0 || decide (h.spad < 4) || decide (1024 < h.spad) || decide (16 < h.accs) || decide (1 < f 23 1)
      || nr == 0 || decide (4 < nr) || decide (256 < h.ntmpl) || h.priv == 0 || decide (16384 < h.priv) || decide (h.priv < h.stack)
      || (List.range (Nat.min 4 nr)).any (fun k => decide (1 < f (32 + 16 * k) 1) || f (36 + 16 * k) 4 != 0),
    rolesBad := roles.any roleBad || decide (32 < groupsOf roles) }

/-- A node under check, with its header: none for another kind, an error where it cannot be read. -/
structure Checked where
  node : Node
  bad : Bool
  header : Option (Except Cause ReadHeader)

/-- The header that a check could read. -/
def Checked.read (c : Checked) : Option ReadHeader :=
  match c.header with
  | some (.ok h) => some h
  | _ => none

/-- Reads the header of a node; what is still to come of another device is asked for. -/
def State.readHeader (s : State) (key asid : Nat) (n : Node) : Except (List (Nat × Nat)) (Option (Except Cause ReadHeader)) :=
  if n.kind ≠ 0 then .ok none
  else match s.vfetch key asid true n.code.toNat 128 with
    | .ok bs => .ok (some (.ok (parseHeader bs)))
    | .error (.fault c) => .ok (some (.error c))
    | .error (.ask reqs) => .error reqs

/-! ## The launch checks (R342) -/

/-- Does some input record lack the output record that matches it? -/
def recordsBad (cs : List Checked) : Bool :=
  ((List.range cs.length).zip cs).any fun (i, c) => c.node.tiles.any fun r =>
    !r.out && !(match cs[r.peer]? with
      | some p => p.node.tiles.any fun q => q.out && q.peer == i && q.ptid == r.ptid && q.count == r.count && q.first == r.first
      | none => false)

/-- How many successor entries name a node. -/
def namedBy (cs : List Checked) (i : Nat) : Nat := sumNat (cs.map fun c => (c.node.succ.filter (· == i)).length)

/-- Nodes whose predecessors are all among those taken away so far are taken away too, again and again; the nodes that remain lie on or behind a cycle. -/
def peel (cs : List Checked) : (fuel : Nat) → (left : List Nat) → List Nat
  | 0, left => left
  | fuel + 1, left =>
    let held := fun (i : Nat) => left.any fun j => decide (i ∈ ((cs[j]?).map (·.node.succ)).getD [])
    peel cs fuel (left.filter held)

/-- How many teams of a header the empty device holds, spill stores aside (R81, R82, R84, R90, R345). -/
def emptyRoom (h : Header) (prio : Nat) : Nat :=
  let per := [4, 255 / Nat.max 1 (budgetOf h.roles), 32 / Nat.max 1 (groupsOf h.roles), 256 / Nat.max 1 h.units,
    if h.accs = 0 then 4 else 64 / h.accs]
  per.foldl Nat.min 4 * (if prio < 10 then 256 else 288)

/-- Does a node not fit (R90, R199)? -/
def State.noFit (s : State) (asid : Nat) (n : Node) (h : Header) : Bool :=
  let pool := (s.ctx asid).spsize * 65536
  let need := groupsOf h.roles * h.spill
  decide (pool < need) || (h.gang && (decide (emptyRoom h n.prio < h.grid) || decide (pool < h.grid * need)))

/-- The refusal code of the nodes of a table, from BADTABLE to the headers' FAULT; 0 when they pass. -/
def State.judge (s : State) (asid maxprio : Nat) (cs : List Checked) : Nat :=
  let hs := cs.filterMap fun c => c.read.map fun h => (c.node, h)
  if cs.any Checked.bad || hs.any (fun h => h.2.bad) || recordsBad cs then 0x02
  else if ((List.range cs.length).zip cs).any (fun (i, c) => c.node.pred != namedBy cs i) then 0x03
  else if !(peel cs cs.length (List.range cs.length)).isEmpty then 0x04
  else if hs.any (fun h => !h.2.header.feat.getLsbD 0 || h.2.header.feat.extractLsb' 14 50 != 0) then 0x05
  else if hs.any (fun h => h.2.rolesBad) then 0x06
  else if hs.any (fun h => s.noFit asid h.1 h.2.header) then 0x07
  else if cs.any (fun c => decide (maxprio < c.node.prio)) then 0x08
  else if cs.any (fun c => match c.header with | some (.error _) => true | _ => false) then 0x09
  else 0

/-- May a word be stored there? -/
def State.storable (s : State) (asid : Nat) (va : Nat) : Bool :=
  match s.vplace none asid true .write va with
  | .ok _ => true
  | .error _ => false
/-- May every word of an area of n words be stored? One word of each page decides. -/
def State.areaStorable (s : State) (asid va n : Nat) : Bool :=
  (List.range ((va % 65536 + 8 * n + 65535) / 65536)).all fun p =>
    s.storable asid (if p = 0 then va else va / 65536 * 65536 + 65536 * p)

/-- The words of a launch that do not translate for a store give FAULT. -/
def State.unwritable (s : State) (asid : Nat) (status done : Nat) (cs : List Checked) : Bool :=
  let word := fun (x : Word64) => x == 0 || s.storable asid x.toNat
  !s.areaStorable asid status cs.length || !(done == 0 || s.storable asid done)
    || cs.any fun c => !word c.node.ndone
        || !(c.node.report == 0 || s.areaStorable asid c.node.report.toNat ((c.read.map fun h => h.header.grid).getD 1))

/-- A command's fields (R335). -/
structure Command where
  op : Nat
  tag : Word32
  table : Nat
  count : Nat
  status : Nat
  doneAt : Nat
  clean : Bool
def command (c : BitVec 512) : Command :=
  let f := fun (i n : Nat) => c.toNat / 2 ^ (8 * i) % 2 ^ (8 * n)
  { op := f 0 4, tag := BitVec.ofNat 32 (f 4 4), table := f 8 8, count := f 16 2, status := f 24 8, doneAt := f 32 8,
    clean := f 18 6 == 0 && f 40 24 == 0 }

/-- The nodes of a table as it is read. -/
def State.readTable (s : State) (key asid : Nat) (bs : List Byte) (count : Nat) : Except (List (Nat × Nat)) (List Checked) :=
  let one : Nat → Except (List (Nat × Nat)) Checked := fun i =>
    let b := (bs.drop (256 * i)).take 256
    let n := parseNode b
    (s.readHeader key asid n).map fun h => { node := n, bad := nodeBad b count, header := h }
  (List.range count).mapM one

/-- A node before its launch. -/
def Checked.run (c : Checked) : NodeRun :=
  { node := c.node, header := (c.read.map (·.header)).getD { (default : Header) with grid := 1 }, status := .waiting, counter := c.node.pred,
    cause := 0, result := 0, placed := 0, ended := 0, cancelled := 0, trapped := false, refused := false, produced := [], entered := 0 }

/-- The launch checks of a command: its refusal code, or 0 with its nodes; what is still to come of other devices is asked for. -/
def State.checkLaunch (s : State) (key asid maxprio : Nat) (cmd : BitVec 512) : Except (List (Nat × Nat)) (Nat × List NodeRun) :=
  let c := command cmd
  if c.op ≠ 1 ∨ !c.clean ∨ c.table % 256 ≠ 0 ∨ c.status % 8 ≠ 0 ∨ c.doneAt % 8 ≠ 0 ∨ c.count = 0 ∨ 4096 < c.count then .ok (0x01, [])
  else if !(s.ctx asid).valid then .ok (0x09, [])
  else match s.vfetch key asid true c.table (256 * c.count) with
    | .error (.fault _) => .ok (0x09, [])
    | .error (.ask reqs) => .error reqs
    | .ok bs => (s.readTable key asid bs c.count).map fun cs =>
      let code := s.judge asid maxprio cs
      if code ≠ 0 then (code, [])
      else if s.unwritable asid c.status c.doneAt cs then (0x09, [])
      else (0, cs.map Checked.run)

/-! ## The words that the Drover writes (R343, R346, R348) -/

/-- Has a node completed, failed or been skipped? -/
def NodeStatus.final (s : NodeStatus) : Bool := decide (4 ≤ s.code)

/-- A word of R348. -/
def endWord (tag : Word32) (failed code status : Nat) : Nat := tag.toNat * 2 ^ 32 + failed * 2 ^ 19 + code * 2 ^ 8 + status

/-! ## The ready pool (R344) -/

/-- Does a node enter the pool: no predecessor is left, and the peers of its input records are placed whole or have completed? -/
def entersPool (x : Launch) (n : NodeRun) : Bool :=
  n.status == .waiting && n.counter == 0 && n.node.tiles.all fun r =>
    r.out || (match x.nodes[r.peer]? with
      | some p => p.status.final || (p.node.kind == 0 && decide (p.header.grid ≤ p.placed))
      | none => true)

/-- The nodes of a launch that may enter the pool do, in index order. -/
def State.fillPool (s : State) (l : Nat) : State :=
  match mfind l s.launches with
  | none => s
  | some x => (List.range x.nodes.length).foldl (fun s n =>
      match (mfind l s.launches).bind fun y => y.nodes[n]? with
      | none => s
      | some r =>
        if !entersPool ((mfind l s.launches).getD x) r then s
        else { s with tick := s.tick + 1 }.changeNode l n fun r => { r with status := .ready, entered := s.tick }) s

def State.queueOf (s : State) (q : Nat) : Queue := mget default q s.queues
/-- The address of a queue's next entry. -/
def Queue.entryAt (d : Queue) : Nat := d.ring.toNat + 64 * (d.rindex.toNat % 2 ^ d.lsize)

/-- A launch begins: its nodes' words are written and those without predecessors enter the pool. -/
def State.startLaunch (s : State) (q asid : Nat) (cmd : BitVec 512) (nodes : List NodeRun) : State :=
  let c := command cmd
  let l := s.nextLaunch
  let x : Launch :=
    { id := l, command := BitVec.ofNat 64 (s.queueOf q).entryAt, queue := some q, asid := asid, tag := c.tag, table := BitVec.ofNat 64 c.table, status := BitVec.ofNat 64 c.status,
      doneAddr := BitVec.ofNat 64 c.doneAt, nodes := nodes, tenderer := none, serial := 0 }
  let s := { s with launches := mset l x s.launches, nextLaunch := l + 1 }
  ((List.range nodes.length).foldl (fun s n => s.mirror l n) s).fillPool l

/-! ## Drover threads (R337, R338) -/

def State.setQueue (s : State) (q : Nat) (x : Queue) : State := { s with queues := mset q x s.queues }
def Drover.idle : Drover := ⟨.idle, 0, []⟩
def State.drover (s : State) (q : Nat) : Drover := mget Drover.idle q s.drovers
def State.setDrover (s : State) (q : Nat) (d : Drover) : State := { s with drovers := mset q d s.drovers }
/-- The live launches of a thread. -/
def State.liveOf (s : State) (q : Nat) : Nat := (s.launches.filter fun (l : Nat × Launch) => l.2.queue == some q).length

/-- A Shepherd hart, of which the device has 16 (R2). -/
def State.shepherd (s : State) (i : Nat) : Shepherd := mget Shepherd.reset i s.shepherds
def State.setShepherd (s : State) (i : Nat) (x : Shepherd) : State := { s with shepherds := mset i x s.shepherds }
/-- An x register of a hart; x0 reads 0. -/
def State.xreg (s : State) (i : Nat) (r : BitVec 5) : Word64 := if r = 0 then 0 else mget 0 (i * 32 + r.toNat) s.xregs
/-- A hart's instruction is over: its result is in rd, and the pc is past its word. -/
def State.hartDone (s : State) (i : Nat) (rd : BitVec 5) (v : Word64) : State :=
  let h := s.shepherd i
  let s := s.setShepherd i { h with pc := h.pc + 4 }
  if rd = 0 then s else { s with xregs := mset (i * 32 + rd.toNat) v s.xregs }

/-- SUBMIT at the coprocessor port (R337): the write index moves and a wait packet is sent, or the status tells why not. -/
def State.submits (s : State) (i : Nat) (rs2 rs1 rd : BitVec 5) : State :=
  let w := (s.xreg i rs2).setWidth 32
  let q := (s.xreg i rs1).toNat
  let d := s.queueOf q
  if 32 ≤ q ∨ d.lsize = 0 then s.hartDone i rd 1
  else if d.asid ≠ (mget 0 i s.shasid).toNat then s.hartDone i rd 2
  else if 2 ^ 31 ≤ (w - d.windex).toNat ∨ 2 ^ d.lsize < (w - d.rindex).toNat then s.hartDone i rd 3
  else { s.setQueue q { d with windex := w } with waits := s.waits ++ [(q, w)] }.hartDone i rd 0

/-- SUBMIT (R336, R337): with a store of the hart still to be performed at `.dev` it waits as the hart's next word. -/
def execSubmit (rs2 rs1 rd : BitVec 5) (s : State) : Out :=
  let i := s.cur.hart
  let h := s.shepherd i
  if 16 ≤ i then .next s
  else if h.stores.isEmpty then .next (s.submits i rs2 rs1 rd)
  else .next (s.setShepherd i { h with words := encodeSubmit rs2 rs1 rd :: h.words })

/-- The RISC-V illegal-instruction exception (R336): machine mode takes it, with cause 2, the word as value and the pc saved; the registers are those of RISC-V: PRESUMED (log 46). -/
def State.illegalWord (s : State) (i : Nat) (w : Word32) : State :=
  let h := s.shepherd i
  s.setShepherd i { h with mepc := h.pc, mcause := 2, mtval := w.setWidth 64, mpp := h.machine, machine := true, pc := h.mtvec &&& ~~~3 }

/-- What a CSR instruction of RISC-V does to `shasid` (R336): any mode reads it as 0xCC0, which no instruction writes, and machine mode reads and writes it as 0x7C0; none where the word is no such instruction or is illegal. -/
def State.csrWord (s : State) (i : Nat) (w : Word32) : Option State :=
  let csr := w.extractLsb' 20 12
  let f := w.extractLsb' 12 3
  let rs1 := w.extractLsb' 15 5
  let old := mget 0 i s.shasid
  let src := if f.getLsbD 2 then rs1.setWidth 64 else s.xreg i rs1
  let writes := f.extractLsb' 0 2 == 1 || rs1 != 0
  let new := match (f.extractLsb' 0 2).toNat with | 1 => src | 2 => old ||| src | _ => old &&& ~~~src
  if f.extractLsb' 0 2 == 0 then none
  else if csr = 0xCC0 then if writes then none else some (s.hartDone i (w.extractLsb' 7 5) old)
  else if csr = 0x7C0 ∧ (s.shepherd i).machine then
    some ((if writes then { s with shasid := mset i new s.shasid } else s).hartDone i (w.extractLsb' 7 5) old)
  else none

/-- The next word of a Shepherd hart: SUBMIT, which waits for the hart's older stores, a CSR instruction on `shasid`, or the illegal-instruction exception (R336, R337). -/
def State.hartTurn (i : Nat) (s : State) : Out :=
  let h := s.shepherd i
  match h.words with
  | [] => .next s
  | w :: ws =>
    let t := s.setShepherd i { h with words := ws }
    match decodeSubmit w with
    | some (.submit rs2 rs1 rd) => .next (if h.stores.isEmpty then t.submits i rs2 rs1 rd else s)
    | _ => .next (if w.extractLsb' 0 7 = 0b1110011#7 then (t.csrWord i w).getD (t.illegalWord i w) else t.illegalWord i w)

/-- The oldest store of a Shepherd hart is performed at its home (R337). -/
def State.hartStore (i : Nat) (s : State) : Out :=
  let h := s.shepherd i
  match h.stores with
  | [] => .next s
  | (key, bs) :: rest => .next ((s.setShepherd i { h with stores := rest }).pokeMarked none (.home key) bs false)

/-- WAIT_PACKET: a wait packet wakes its idle thread, whatever index it carries (R337, R338). -/
def execWaitPacket (q : Nat) (w : BitVec 32) (s : State) : Out :=
  if (q, w) ∉ s.waits then .next s
  else
    let s := { s with waits := s.waits.erase (q, w) }
    let d := s.drover q
    .next (if d.st = .idle ∧ (s.queueOf q).lsize ≠ 0 then s.setDrover q { d with st := .fetch } else s)

/-- The device's key of the blocks of other devices that a thread reads for its table. -/
def tableKey (q : Nat) : Nat := 64 + q

/-- DROVER_FETCH: the next entry is read with an acquire, or the thread goes idle; an entry that cannot be read is logged. -/
def execDroverFetch (q : Nat) (s : State) : Out :=
  let t := s.drover q
  let d := s.queueOf q
  if t.st ≠ .fetch then .next s
  else if d.lsize = 0 ∨ d.rindex = d.windex then .next (s.setDrover q { t with st := .idle })
  else match s.vfetch q d.asid true d.entryAt 64 with
    | .ok bs => .next ((s.forgetDevice q).setDrover q { t with st := .check, cmd := bytesToBits 512 bs })
    | .error (.ask reqs) => .next (s.askDevice q d.asid reqs)
    | .error (.fault c) =>
      .next (((s.logError .engine c.code q d.asid 0 (BitVec.ofNat 64 d.entryAt)).forgetDevice q).setDrover q { t with st := .idle })

/-- The read index advances, and its word is written. -/
def State.nextEntry (s : State) (q : Nat) : State :=
  let d := s.queueOf q
  let s := s.setQueue q { d with rindex := d.rindex + 1 }
  (s.putWord d.asid d.ridx.toNat (d.rindex + 1).toNat).setDrover q { s.drover q with st := .fetch, held := [] }

/-- COMMAND_NOP. -/
def execCommandNop (q : Nat) (s : State) : Out :=
  let t := s.drover q
  .next (if t.st = .check ∧ (command t.cmd).op = 0 then s.nextEntry q else s)

/-- The completion word of a refused command, where its address is aligned (R335, R348). -/
def State.refuseCommand (s : State) (asid : Nat) (cmd : BitVec 512) (code : Nat) : State :=
  let c := command cmd
  if c.doneAt = 0 ∨ c.doneAt % 8 ≠ 0 then s else s.putWord asid c.doneAt (endWord c.tag 0 code 3)

/-- LAUNCH: a command is checked, and refused, started, or held while four launches of the thread are live; a held one starts when one of them has ended (R338, R342). -/
def execLaunch (q : Nat) (s : State) : Out :=
  let t := s.drover q
  let d := s.queueOf q
  match t.st with
  | .check =>
    if (command t.cmd).op = 0 then .next s
    else
      match s.checkLaunch (tableKey q) d.asid d.maxprio t.cmd with
      | .error reqs => .next (s.askDevice (tableKey q) d.asid reqs)
      | .ok (code, nodes) =>
        let s := s.forgetDevice (tableKey q)
        if code ≠ 0 then .next ((s.refuseCommand d.asid t.cmd code).nextEntry q)
        else if 4 ≤ s.liveOf q then .next (s.setDrover q { t with st := .full, held := nodes })
        else .next ((s.startLaunch q d.asid t.cmd nodes).nextEntry q)
  | .full => if 4 ≤ s.liveOf q then .next s else .next ((s.startLaunch q d.asid t.cmd t.held).nextEntry q)
  | _ => .next s

/-! ## Dispatch (R344) -/

/-- Is a node in the pool that NODE_DISPATCH has yet to hand on? -/
def State.undispatched (s : State) (l n : Nat) (r : NodeRun) : Bool :=
  r.status == .ready && !s.ready.any fun e => e.launch == l && e.node == n

/-- A node's tasks join the tender queue, in the order of R345, and take their serials (R349). -/
def queueTask (e : ReadyTeam) : List ReadyTeam → List ReadyTeam
  | [] => [e]
  | x :: xs => if x.prio < e.prio || (x.prio == e.prio && decide (e.order < x.order)) then e :: x :: xs else x :: queueTask e xs

def State.tenderNode (s : State) (l n : Nat) (r : NodeRun) : State :=
  let b := s.bell
  let e : ReadyTeam :=
    { launch := l, node := n, tid := 0, left := r.header.grid, prio := r.node.prio, order := r.entered, serial := b.serial,
      withdrawals := 0, awarded := none }
  { s with bell := { b with queue := queueTask e b.queue, serial := b.serial + BitVec.ofNat 32 r.header.grid } }

/-- The end of a node that did not run: its cause fails it. -/
def NodeRun.stopped (r : NodeRun) (c : Cause) : NodeRun := { r with status := .running, ended := 1, trapped := true, cause := c.code }

/-- The input of a node's collective, poisoned pieces marked; none where it cannot be read. -/
def State.nodeInput (s : State) (key asid : Nat) (d : CollDesc) : Except DevErr (Option (List (Byte × Bool))) :=
  let one : Nat × Nat → Except DevErr (Option (List (Byte × Bool))) := fun p =>
    match s.vfetch key asid true p.1 p.2 with
    | .ok bs => .ok (some (bs.map (·, false)))
    | .error (.fault c) => .ok (if c = .poison then some (List.replicate p.2 (0, true)) else none)
    | .error e => .error e
  ((pieces 64 (d.inBytes + 1) d.src d.inBytes).mapM one).map fun ps => (ps.mapM id).map List.flatten

/-- A kind-2 node starts its collective (R344, R416); a descriptor or peer list that cannot be read, or that breaks a limit, fails the node. -/
def State.collNode (s : State) (l n asid : Nat) (r : NodeRun) : Except DevErr State := do
  let key := nodeKey l n
  let va := (r.node.kparm.extractLsb' 0 64).toNat
  if va % 64 ≠ 0 then .error (.fault .dataCheck)
  let bs ← s.vfetch key asid true va 64
  let desc : BitVec 512 := bytesToBits 512 bs
  let d := collDesc desc
  if !d.ok true then .error (.fault .dataCheck)
  let ps ← s.vfetch key asid true d.peers (2 * d.n)
  let peers := peersOf ps
  if !peersOk s.fabric.device.toNat d peers then .error (.fault .dataCheck)
  let input ← s.nodeInput key asid d
  let c : Coll :=
    { id := d.id, team := 0, gid := 0, op := 0, launch := some (l, n), asid := asid, sys := true, desc := desc, peers := peers,
      input := input.getD [], status := none, wrote := false }
  let s := s.changeNode l n fun r => { r with status := .running }
  return s.startColl c input.isSome 0 0

/-- What a node's start comes to: its new state, its failure, or a wait for data of other devices; what was read for it is then forgotten. -/
def State.nodeStarted (s : State) (l n asid : Nat) : Except DevErr State → State
  | .ok t => t.forgetDevice (nodeKey l n)
  | .error (.fault c) => (s.changeNode l n fun r => r.stopped c).forgetDevice (nodeKey l n)
  | .error (.ask reqs) => s.askDevice (nodeKey l n) asid reqs

/-- NODE_DISPATCH: a node of the pool is run by its kind: a grid goes to placement or to tender, a bank-core job or a collective is started, a notify word is stored. A job that may displace one of lower prio waits for BANK_JOB_SUSPEND. -/
def execNodeDispatch (launch node : Nat) (s : State) : Out :=
  match mfind launch s.launches, s.nodeRun launch node with
  | some x, some r =>
    if !s.undispatched launch node r then .next s
    else match r.node.kind with
      | 0 =>
        if r.node.tendered then .next ((s.tenderNode launch node r).changeNode launch node fun r => { r with status := .tendered })
        else
          let e : ReadyTeam :=
            { launch := launch, node := node, tid := 0, left := r.header.grid, prio := r.node.prio, order := r.entered, serial := 0,
              withdrawals := 0, awarded := none }
          .next { s with ready := s.ready ++ [e] }
      | 1 =>
        if s.displaces r then .next s
        else
          let (rec, b) := kind1Parms r.node.kparm
          .next (s.nodeStarted launch node x.asid ((s.startBank (nodeKey launch node) b x.asid false r.node.prio (some (launch, node)) rec).map
            fun t => t.changeNode launch node fun r => { r with status := .running }))
      | 2 => .next (s.nodeStarted launch node x.asid (s.collNode launch node x.asid r))
      | _ =>
        let s := s.putWord x.asid (r.node.kparm.extractLsb' 0 64).toNat (r.node.kparm.extractLsb' 64 64).toNat
        .next (s.changeNode launch node fun r => { r with status := .running, ended := 1 })
  | _, _ => .next s

/-! ## Producer ends (R208, R347) -/

/-- The live team of a node with an index. -/
def State.teamAt (s : State) (l n tid : Nat) : Option Nat :=
  (s.teams.find? fun (t : Nat × Team) => t.2.live && t.2.launch == l && t.2.node == n && t.2.tid == tid).map (·.1)

/-- A tile whose producer has ended without producing it: EMPTY becomes NEVER, and its waiters wake. -/
def State.neverTile (s : State) (k t : Nat) : State :=
  if t * 256 < (s.teamOf k).spadBytes ∧ s.tagOf k t = .empty then (s.setTagOf k t .never).wakeTile k t true else s

/-- The tiles of one output record that were not produced, at a consumer team. -/
def State.neverRecord (s : State) (produced : List (Nat × Nat)) (k : Nat) (r : TileRec) : State :=
  (List.range r.count).foldl (fun s i =>
    if (k, r.first + i) ∈ produced then s else s.neverTile k (r.first + i)) s

/-- The producer-ends events of a node. -/
def State.producerEnds (s : State) (l n : Nat) : State :=
  match s.nodeRun l n with
  | none => s
  | some r => (r.node.tiles.filter TileRec.out).foldl (fun s t =>
      match s.teamAt l t.peer t.ptid with
      | some k => s.neverRecord r.produced k t
      | none => s) s

/-- A team that is placed after its producers have ended finds their tiles NEVER. -/
def State.lateProducers (s : State) (l n tid k : Nat) : State :=
  match mfind l s.launches with
  | none => s
  | some x => (x.nodes.filter fun p => p.status.final).foldl (fun s p =>
      (p.node.tiles.filter fun t => t.out && t.peer == n && t.ptid == tid).foldl (fun s t => s.neverRecord p.produced k t) s) s

/-! ## Placement (R345, R346) -/

/-- One team of an entry is placed on a core: its report word is written, the tiles of ended producers are marked, and nodes that waited for the placement enter the pool. -/
def State.placeNext (s : State) (e : ReadyTeam) (core base : Nat) : State :=
  match mfind e.launch s.launches, s.nodeOf e with
  | some x, some r =>
    let serial := if r.node.tendered then some e.serial else none
    let (s, k) := s.placeTeam core base x.asid r.node r.header e.launch e.node e.tid serial
    let s := if r.node.report = 0 then s
      else s.putWord x.asid (r.node.report.toNat + 8 * e.tid) (2 ^ 63 + base * 2 ^ 32 + core)
    let s := s.lateProducers e.launch e.node e.tid k
    let running := fun (r : NodeRun) => { r with placed := r.placed + 1, status := if r.status.final then r.status else .running }
    (if r.status = .running then s.modNode e.launch e.node running else s.changeNode e.launch e.node running).fillPool e.launch
  | _, _ => s

/-- An entry after its first team has been handed out. -/
def ReadyTeam.rest (e : ReadyTeam) : Option ReadyTeam :=
  if e.left ≤ 1 then none else some { e with tid := e.tid + 1, left := e.left - 1, serial := e.serial + 1 }
def State.popReady (s : State) (i : Nat) : State :=
  match s.ready[i]? with
  | none => s
  | some e => match e.rest with
    | none => { s with ready := removeAt i s.ready }
    | some e' => { s with ready := modifyAt (fun _ => e') i s.ready }

/-- Where the next team of an entry would go as the cores stand (R345): an urgent one to a reserve core, or to the lowest core where it fits with no eviction (R370). -/
def State.spot (s : State) (e : ReadyTeam) : Option (Nat × Nat) :=
  match mfind e.launch s.launches, s.nodeOf e with
  | some x, some r =>
    if e.prio < 10 then s.bestCore x.asid e.prio r.header Less.none allCores
    else
      let here := fun (c : Nat) => (s.roomOn c x.asid e.prio r.header Less.evicted).map fun b => (c, b)
      if s.spillRoom x.asid r.header then
        s.bestCore x.asid e.prio r.header Less.evicted (allCores.filter reserveCore) <|> allCores.findSome? here
      else none
  | _, _ => none

/-- Where an entry's next team goes: an award to its winner, another one where it fits best. -/
def State.placeFor (s : State) (e : ReadyTeam) : Option (Nat × Nat) :=
  match e.awarded, mfind e.launch s.launches, s.nodeOf e with
  | some (c, b), some x, some r => if (s.coreOf c).portRoom && (s.spillFor x.asid r.header).isSome then some (c, b) else none
  | none, _, _ => s.spot e
  | _, _, _ => none

/-- Every remaining team of an entry is placed by a rule for the next place; the answer is false where one has none. -/
def State.placeAll (s : State) (spot : State → ReadyTeam → Option (Nat × Nat)) : (n : Nat) → ReadyTeam → State × Bool
  | 0, _ => (s, true)
  | n + 1, e =>
    match spot s e with
    | none => (s, false)
    | some (c, b) =>
      let s := s.placeNext e c b
      match e.rest with
      | none => (s, true)
      | some e => s.placeAll spot n e

/-- No more teams than this are resident on the device at once. -/
def maxTeams : Nat := 1152

/-- Does an entry belong to a gang grid, whose teams are placed at one moment, all of them or none (R90)? -/
def State.gangOf (s : State) (e : ReadyTeam) : Bool := (s.nodeOf e).any fun r => r.header.gang

/-- Removes an entry from the ready teams wherever it stands. -/
def State.dropEntry (s : State) (e : ReadyTeam) : State := { s with ready := s.ready.erase e }

/-- The entries of an entry's grid that wait for their places, by `tid`: one for a grid of the pool, and for a tendered one those that are awarded and those that its withdrawals have sent to the pool. -/
def State.gridEntries (s : State) (e : ReadyTeam) : List ReadyTeam :=
  (s.ready.filter fun x => x.launch == e.launch && x.node == e.node).mergeSort fun x y => decide (x.tid ≤ y.tid)

/-- Places a whole gang grid, awarded teams on their winners; the answer is false where a team has yet to be awarded or finds no place. -/
def State.placeGang (s : State) (e : ReadyTeam) : State × Bool :=
  let es := s.gridEntries e
  let n := sumNat (es.map ReadyTeam.left)
  let whole := (s.nodeOf e).any fun r => n + r.cancelled == r.header.grid
  if !whole || decide (maxTeams < n) then (s, false)
  else es.foldl (fun (r : State × Bool) x => if r.2 then (r.1.dropEntry x).placeAll State.placeFor x.left x else r) (s, true)

/-- Does an entry fit: its next team, or its whole gang grid? -/
def State.entryFits (s : State) (e : ReadyTeam) : Bool := if s.gangOf e then (s.placeGang e).2 else (s.spot e).isSome

/-- Takes teams that have not started out of every queue; how many there were. A task that waited at the head of the tender queue makes room for the next one (R349). -/
def State.cancelWhere (s : State) (mine : ReadyTeam → Bool) : State × Nat :=
  let b := s.bell
  let n := sumNat ((b.queue.filter mine).map ReadyTeam.left) + sumNat ((b.head.toList.filter mine).map ReadyTeam.left)
    + sumNat ((b.window.toList.filter fun w => mine w.task).map fun w => w.task.left) + sumNat ((s.ready.filter mine).map ReadyTeam.left)
  ({ s with
      ready := s.ready.filter fun e => !mine e,
      bell := { b with queue := b.queue.filter fun e => !mine e, head := b.head.filter fun e => !mine e,
                       stalled := b.stalled && !b.head.any mine, window := b.window.filter fun w => !mine w.task } }, n)

/-- A placement under an invalid context record is refused: the teams of its node that have not started never do, and the node has failed with refusal code FAULT (R360; log 74). -/
def State.refusePlace (s : State) (l n : Nat) : State :=
  let (s, k) := s.cancelWhere fun e => e.launch == l && e.node == n
  s.changeNode l n fun r =>
    { r with refused := true, trapped := true, cancelled := r.cancelled + k, status := if r.status = .ready then .running else r.status }

/-- A placement with the template images that it loads: those that lie on other devices are asked for first (R264). -/
def State.withImages (s : State) (e : ReadyTeam) (place : State) : State :=
  let key := nodeKey e.launch e.node
  match mfind e.launch s.launches, s.nodeOf e with
  | some x, some r => match s.imagesAsk key x.asid r.header with
    | [] => place.forgetDevice key
    | reqs => s.askDevice key x.asid reqs
  | _, _ => s

/-- Is the context record of an entry's launch valid? -/
def State.entryValid (s : State) (e : ReadyTeam) : Bool := (mfind e.launch s.launches).all fun x => (s.ctx x.asid).valid

/-- Is an entry the earliest of its prio that waits for a place? -/
def State.firstOfPrio (s : State) (e : ReadyTeam) : Bool :=
  !s.ready.any fun x => x.awarded.isNone && x.prio == e.prio && decide (x.order < e.order)

/-- Does a grid of the pool still wait to be handed to placement? -/
def State.poolPending (s : State) : Bool :=
  s.launches.any fun (l : Nat × Launch) => ((List.range l.2.nodes.length).zip l.2.nodes).any fun (n, r) =>
    r.node.kind == 0 && !r.node.tendered && s.undispatched l.1 n r

/-- Could a group or a team that was evicted return (R373)? The prio of the highest. -/
def State.evictedPrio (s : State) : Option Nat :=
  (s.teams.filterMap fun (t : Nat × Team) =>
    if t.2.live && (s.liveGids t.1).any fun g => (s.hartOf (.group t.1 g)).evicted then some t.2.prio else none).max?

/-! ## Completion (R347, R348, R257) -/

/-- Are the effects of a node's groups performed at `.dev`, those of its groups that have ended without EXIT too (R257)? -/
def State.nodeQuiet (s : State) (l n : Nat) : Bool :=
  s.harts.all fun (x : HartId × Hart) => match x.1 with
    | .group k _ => let t := s.teamOf k
        !(t.launch == l && t.node == n)
          || (x.2.sq.isEmpty && x.2.flags.isEmpty && x.2.commits.isEmpty && x.2.remote.isEmpty && s.olderDone x.1 t.core .dev none)
    | .bank _ => true

/-- Has every part of a node ended? -/
def NodeRun.over (r : NodeRun) : Bool :=
  (r.status == .running || r.status == .tendered || r.status == .ready)
    && (if r.node.kind = 0 then decide (r.header.grid ≤ r.ended + r.cancelled) else decide (1 ≤ r.ended))

/-- The per-node word, written once the node is final (R348). -/
def State.nodeWord (s : State) (x : Launch) (n : Node) (code status : Nat) : State :=
  if n.ndone = 0 then s else s.putWord x.asid n.ndone.toNat (endWord x.tag (if status = 1 then 0 else 1) code status)

/-- A node is skipped: its words are written, and its declared tiles have no producer. -/
def State.skipNode (s : State) (l : Nat) (x : Launch) (n : Nat) : State :=
  match s.nodeRun l n with
  | some r =>
    if r.status = .waiting then
      ((s.changeNode l n fun r => { r with status := .skipped }).nodeWord x r.node 0 5).producerEnds l n
    else s
  | none => s

/-- The waiting successors of the failed and skipped nodes of a launch. -/
def doomedNodes (nodes : List NodeRun) : List Nat :=
  let named := (nodes.filter fun r => r.status == .failed || r.status == .skipped).flatMap fun r => r.node.succ
  (List.range nodes.length).filter fun n => decide (n ∈ named) && ((nodes[n]?).map fun r => r.status == .waiting).getD false

/-- Skipping goes on transitively. -/
def State.skipAll (s : State) (l : Nat) : (fuel : Nat) → State
  | 0 => s
  | fuel + 1 =>
    match mfind l s.launches with
    | none => s
    | some x => match doomedNodes x.nodes with
      | [] => s
      | ns => (ns.foldl (fun s n => s.skipNode l x n) s).skipAll l fuel

/-- Each successor entry of a done node counts down (R347). -/
def State.releaseSuccessors (s : State) (l : Nat) (succ : List Nat) : State :=
  succ.foldl (fun s n => s.changeNode l n fun r => { r with counter := r.counter - 1 }) s

/-- The end of a launch: its completion word, once every node is final (R348). -/
def State.endLaunch (s : State) (l : Nat) : State :=
  match mfind l s.launches with
  | none => s
  | some x =>
    if !x.nodes.all (fun r => r.status.final) then s
    else
      let failed := (x.nodes.filter fun r => r.status == .failed || r.status == .skipped).length
      let s := { s with launches := s.launches.filter fun (y : Nat × Launch) => y.1 != l }
      if x.doneAddr = 0 then s else s.putWord x.asid x.doneAddr.toNat (endWord x.tag failed 0 (if failed = 0 then 1 else 2))

/-- NODE_COMPLETE: a node whose parts have all ended, with their effects performed, is DONE or FAILED; its words are written, its successors count down or are skipped, and its unproduced tiles become NEVER. -/
def execNodeComplete (launch node : Nat) (s : State) : Out :=
  match mfind launch s.launches, s.nodeRun launch node with
  | some x, some r =>
    if !r.over || !s.nodeQuiet launch node then .next s
    else
      let failed := r.trapped || r.result != 0
      let withdrawn := r.node.kind == 0 && r.ended == 0
      let s := s.changeNode launch node fun r => { r with status := if failed then .failed else .done }
      let s := s.nodeWord x r.node (if r.refused then 0x09 else 0) (if failed then 2 else if withdrawn then 4 else 1)
      let s := s.producerEnds launch node
      let s := if failed then s.skipAll launch x.nodes.length else s.releaseSuccessors launch r.node.succ
      .next ((s.fillPool launch).endLaunch launch)
  | _, _ => .next s

end Sys2Proof.Machine
end

