-- ==== Sys2Proof/Machine/Tasks.lean ====
section
/-! DEFINITION. Message queues (R353), items (R99, R354), tasks (R355), register blocks (R87 to R89), and the Bellwether's windows (R349, R350). -/

namespace Sys2Proof.Machine

/-! ## Message queues (R353) -/

def execMqw (d : BitVec 6) (a b : Src) (sc : Scope) (s : State) : Out :=
  s.finish do
    needOp (decide (d.toNat ≤ 3))
    let v ← s.opnd a
    let t ← s.opnd b
    let core := (t.extractLsb' 0 9).toNat
    need (t.extractLsb' 19 45 == 0 && decide (core < 288)) .accessViolation t
    await (vget s.hart.send d.toNat none).isNone
    let s := s.setHart { s.hart with send := vset s.hart.send d.toNat (some v) }
    let s ← s.issue (.flit core (t.extractLsb' 9 8).toNat (t.extractLsb' 17 2).toNat v d.toNat) true false true sc
    return s.retire 1 Latch.none

/-- A flit has been written, refused or appended to a ring: its send register is free and `st` falls (R353, R381). -/
def State.flitDone (s : State) (src : Port) (j id : Nat) : State :=
  match src with
  | .group k g =>
    let i := HartId.group k g
    let h := s.hartOf i
    (s.setHartOf i { h with send := vset h.send j none }).completeOp i kSt id
  | _ => s

/-- The valid entry of a core with a window base under an ASID. -/
def State.entryAtBase (s : State) (core wbase asid : Nat) : Option PortEntry :=
  (s.coreOf core).ports.find? fun e => e.valid && e.asid == asid && e.wbase == wbase

/-- A value joins a receive register that has room. -/
def State.receiveFlit (s : State) (k rx : Nat) (v : Word64) : Option State :=
  let t := s.teamOf k
  let q := vget t.rx rx []
  if 16 ≤ q.length then none else some (s.setTeamOf k { t with rx := vset t.rx rx (q ++ [v]) })

/-- MESSAGE_FLIT_ARRIVE: the flit is written to its receive register, joins the ring of an absent team, is refused, or stays with its port while the register is full. -/
def execMessageFlitArrive (i : Nat) (s : State) : Out :=
  match s.net[i]? with
  | none => .next s
  | some m =>
    match m.body with
    | .flit wbase rx asid v j id control =>
      if !s.msgFirst i m then .next s
      else match s.entryAtBase m.core wbase asid with
        | none =>
          let s := (s.dropMsg i).flitDone m.src j id
          .next (match m.src with | .group k g => s.refuse k g m.core (wbase * 4096) | _ => s)
        | some e =>
          if e.absent then
            let b : Bounced := { pos := 0, off := rx, src := m.src, remote := none, op := .msg m.body }
            let (t, ok) := s.bounceTo e b 0 6 control (leBytes 8 v.toNat) []
            .next (if ok then (t.dropMsg i).flitDone m.src j id else t.keepPut i)
          else match s.receiveFlit e.team rx v with
            | some t => .next ((t.dropMsg i).flitDone m.src j id)
            | none => .next (s.keepPut i)
    | _ => .next s

/-- MQR: an acquire of scope `.dev`. -/
def execMqr (d : Dst) (k : BitVec 2) (s : State) : Out :=
  s.finish (
    let t := s.team
    match vget t.rx k.toNat [] with
    | [] => .error (.suspend (.message k.toNat))
    | v :: q => .ok ((s.setTeam { t with rx := vset t.rx k.toNat q }).dropL1.retireS 1 d v))

/-! ## Items (R99, R354) -/

/-- The lanes that are filled, with their items. -/
def fills (emask : Word64) (items : List Word32) : List (Nat × Word32) :=
  ((List.range 64).filter fun l => !emask.getLsbD l).zip items

def execRefill (d : BitVec 6) (s : State) : Out :=
  s.finish do
    let h := s.hart
    let p := s.path
    needOp (decide (d.toNat < 32))
    need (h.loopHead == some p.header && p.lanes == BitVec.allOnes 64 && h.recs.isEmpty) .illegalClause 0
    s.heldRegs d.toNat 1
    let t := s.team
    if t.items.isEmpty && p.emask == 0 && !t.itemsClosed then .error (.suspend .item)
    else
      let fs := fills p.emask t.items
      let v := fs.foldl (fun (v : VWord) (f : Nat × Word32) =>
        let m : VWord := 0xFFFFFFFF#2048 <<< (32 * f.1)
        let w : VWord := f.2.setWidth 2048
        (v &&& ~~~m) ||| (w <<< (32 * f.1))) (vget h.v d.toNat 0)
      let on := fs.foldl (fun (e : Word64) (f : Nat × Word32) => e ||| (1#64 <<< f.1)) p.emask
      let s := (s.setTeam { t with items := t.items.drop fs.length }).setHart { h with v := vset h.v d.toNat v }
      return (s.setPath { s.path with emask := on }).retire 1 Latch.none

/-- The items that wait on a core: the team's own and those of the teams resident there. -/
def State.itemsOn (s : State) (c : Nat) : Nat := sumNat ((s.teamsOn c).map fun (t : Nat × Team) => t.2.items.length)

def execItempush (d : Dst) (a : Src) (s : State) : Out :=
  s.finish do
    let x ← s.opnd a
    s.drained .team
    let t := s.team
    if t.itemsClosed then return s.retireS 1 d (BitVec.allOnes 64)
    else if 4096 ≤ s.itemsOn t.core then return s.retireS 1 d 0
    else return (s.setTeam { t with items := t.items ++ [x.setWidth 32] }).retireS 1 d 1
def execItempushClose (d : Dst) (s : State) : Out :=
  s.finish do
    s.drained .team
    return (s.setTeam { s.team with itemsClosed := true }).retireS 1 d 0

/-! ## Tasks (R355) -/

/-- Tasks that are open: in the tender queue, at its head, in the window, or awarded and not yet started. -/
def State.openTasks (s : State) : Nat :=
  sumNat (s.bell.queue.map ReadyTeam.left) + (s.bell.head.map ReadyTeam.left).getD 0
    + (s.bell.window.map fun w => w.task.left).getD 0 + (s.ready.filter fun e => e.awarded.isSome).length

/-- The checks of a task record (R355 step 1). -/
def State.taskOk (s : State) (asid : Nat) (c : Checked) (bs : List Byte) : Bool :=
  let n := c.node
  n.kind == 0 && n.tendered && n.pred == 0 && field bs 6 18 == 0 && !n.tiles.any TileRec.out && decide (n.prio ≤ s.hart.prio.toNat)
    && s.judge asid 11 [c] == 0
    && (n.ndone == 0 || s.storable asid n.ndone.toNat)
    && (n.report == 0 || s.areaStorable asid n.report.toNat ((c.read.map fun h => h.header.grid).getD 1))

def execTender (d : Dst) (a : Src) (l : BitVec 4) (s : State) : Out :=
  s.finish do
    let va ← s.opnd a
    need (va.toNat % 256 == 0) .misaligned va
    let bs ← s.readSpan va 256
    let n := parseNode bs
    let head ← if n.kind = 0 then (s.readSpan n.code 128).map (some ∘ parseHeader) else .ok none
    let asid := s.hart.asid.toNat
    let c : Checked := { node := { n with formula := l.toNat }, bad := nodeBad bs 1, header := head.map .ok }
    need (s.taskOk asid c bs) .dataCheck va
    s.drained .dev
    await (decide (s.openTasks < 256))
    let serial := s.bell.serial
    let id := s.nextLaunch
    let run := { c.run with status := .tendered, entered := s.tick }
    let x : Launch :=
      { id := id, command := 0, queue := none, asid := asid, tag := 0, table := va, status := 0, doneAddr := 0, nodes := [run],
        tenderer := some (s.cur.team, s.cur.gid), serial := serial }
    let s := { s with launches := mset id x s.launches, nextLaunch := id + 1, tick := s.tick + 1 }
    return (s.tenderNode id 0 run).retireS 2 d (serial.setWidth 64)

/-- Takes the teams of a launch that have not started out of every queue; how many there were. -/
def State.cancelTasks (s : State) (l : Nat) : State × Nat := s.cancelWhere fun e => e.launch == l

def execWithdraw (d : Dst) (a : Src) (s : State) : Out :=
  s.finish do
    let x ← s.opnd a
    let mine := fun (l : Nat × Launch) => l.2.queue.isNone && l.2.serial == x.setWidth 32 && (match l.2.tenderer with | some (k, _) => k == s.cur.team | none => false)
    match s.launches.find? mine with
    | none => return s.retireS 1 d 0
    | some (l, _) =>
      let (s, n) := s.cancelTasks l
      return (s.modNode l 0 fun r => { r with cancelled := r.cancelled + n }).retireS 1 d (BitVec.ofNat 64 n)

/-- DONE: the result, then as EXIT. -/
def execDoneTask (a : Src) (s : State) : Out :=
  match s.opnd a with
  | .error h => s.finish (.error h)
  | .ok x =>
    let t := s.team
    let s := s.setTeam { t with result := t.result ||| x.setWidth 32 }
    s.finish s.exitPath

/-! ## Register blocks (R87 to R89) -/

/-- Blocks that the groups of a role hold together; an evicted group holds none (R371). -/
def State.roleHeld (s : State) (k role : Nat) : Nat :=
  sumNat ((s.liveGids k).map fun g =>
    let h := s.hartOf (.group k g)
    if h.role = role ∧ h.evicted = false then popcount h.held.toNat 4 else 0)

/-- The budget of a role, one more while it has the spare block. -/
def Team.budgetOf (t : Team) (role : Nat) : Nat :=
  match t.roles[role]? with
  | some r => r.budget + (if r.lent then 1 else 0)
  | none => 0

/-- The slots that a request still lacks. -/
def Hart.lacks (h : Hart) (a : Word64) : BitVec 4 := a.setWidth 4 &&& ~~~h.held

/-- Binds blocks to slots: every register of them is zero. -/
def Hart.bind (h : Hart) (req : BitVec 4) : Hart :=
  { h with held := h.held ||| req, v := (List.range 32).foldl (fun v r => if req.getLsbD (r / 8) then vset v r 0 else v) h.v }

/-- A path that waits in BLKACQ. -/
structure BlockWaiter where
  gid : Nat
  path : Bool
  since : Nat
  a : Word64
deriving DecidableEq, Repr

/-- The waiters of a role, the one that has waited longest first. -/
def State.blockWaiters (s : State) (k role : Nat) : List BlockWaiter :=
  let ws := (s.liveGids k).flatMap fun g =>
    let h := s.hartOf (.group k g)
    if h.role ≠ role ∨ h.evicted then [] else [false, true].filterMap fun p =>
      match (h.path p).susp with
      | some (.blocks a) => some (BlockWaiter.mk g p (h.path p).since a)
      | _ => none
  ws.mergeSort fun x y => decide (x.since ≤ y.since)

/-- Does a waiter's request fit in a budget? -/
def State.requestFits (s : State) (k role budget : Nat) (w : BlockWaiter) : Bool :=
  decide (s.roleHeld k role + popcount ((s.hartOf (.group k w.gid)).lacks w.a).toNat 4 ≤ budget)

/-- A waiter receives its blocks and wakes. -/
def State.giveBlocks (s : State) (k : Nat) (w : BlockWaiter) : State :=
  let i := HartId.group k w.gid
  let h := s.hartOf i
  (s.setHartOf i (h.bind (h.lacks w.a))).wake k w.gid w.path (some .go)

/-- Every waiter of a role that can be served is, the one that has waited longest and whose request fits first (R88). -/
def State.serveBlocks (s : State) (k role : Nat) : (fuel : Nat) → State
  | 0 => s
  | fuel + 1 =>
    match (s.blockWaiters k role).find? (s.requestFits k role ((s.teamOf k).budgetOf role)) with
    | none => s
    | some w => (s.giveBlocks k w).serveBlocks k role fuel

def heldWord (h : Hart) : Word64 := h.held.setWidth 64

/-- BLKACQ (R88); blocks that the role owes to waiters go to them first. -/
def execBlkacq (d : Dst) (a : Src) (y : Bool) (s : State) : Out :=
  s.finish do
    let x ← s.opnd a
    let h := s.hart
    let req := h.lacks x
    let n := popcount req.toNat 4
    let budget := s.team.budgetOf h.role
    if s.path.grant.isSome || n == 0 then return s.retireS 1 d (heldWord h)
    else
      need (decide (popcount h.held.toNat 4 + n ≤ budget)) .blockDenied x
      let s := s.serveBlocks s.cur.team h.role 64
      if s.roleHeld s.cur.team h.role + n ≤ budget then
        let s := s.setHart (s.hart.bind req)
        return s.retireS 1 d (heldWord s.hart)
      else if y then return s.retireS 1 d (heldWord s.hart)
      else return s.stopped (.suspend (.blocks x))

/-- The spare block returns to the core (R89). -/
def State.spareBack (s : State) (k g : Nat) : State :=
  let c := (s.teamOf k).core
  let x := s.coreOf c
  if x.spare = some (k, g) then
    let t := s.teamOf k
    (s.setCoreOf c { x with spare := none }).setTeamOf k
      { t with roles := modifyAt (fun r => { r with lent := false }) (s.hartOf (.group k g)).role t.roles }
  else s

def execBlkrel (d : Dst) (a : Src) (s : State) : Out :=
  s.finish do
    let x ← s.opnd a
    let rel := x.setWidth 4 &&& s.hart.held
    let s := if rel = 0 then s else s.spareBack s.cur.team s.cur.gid
    let s := s.setHart { s.hart with held := s.hart.held &&& ~~~rel }
    return s.retireS 1 d (heldWord s.hart)

/-- Is every path of a group suspended in BLKACQ? -/
def Hart.inBlkacq (h : Hart) : Bool :=
  let waits := fun (p : Path) => !p.active || (match p.susp with | some (.blocks _) => true | _ => false)
  waits h.p0 && waits h.p1

/-- SPARE_BLOCK_LEND: every group of a role that has not ended waits in BLKACQ: the core lends its spare block to the first waiter that then fits, or the one that has waited longest traps (R89). -/
def execSpareBlockLend (team role : Nat) (s : State) : Out :=
  let gs := (s.liveGids team).filter fun g => (s.hartOf (.group team g)).role == role
  let t := s.teamOf team
  let ws := s.blockWaiters team role
  let c := s.coreOf t.core
  let ready := t.live && !t.absent && gs.all (fun g => let h := s.hartOf (.group team g); !h.evicted && h.inBlkacq)
  if !ready || c.spare.isSome || ws.any (s.requestFits team role (t.budgetOf role)) then .next s
  else match ws.find? (s.requestFits team role (t.budgetOf role + 1)), ws with
    | some w, _ =>
      let s := s.setCoreOf t.core { c with spare := some (team, w.gid) }
      let s := s.setTeamOf team { t with roles := modifyAt (fun r => { r with lent := true }) role t.roles }
      .next (s.giveBlocks team w)
    | none, w :: _ =>
      let p := (s.hartOf (.group team w.gid)).path w.path
      .next (s.takeTrap team w.gid w.path ⟨.blockDenied, w.a, 0, w.a, 0⟩ false p.wordAddr)
    | none, [] => .next s

/-! ## The Bellwether (R349, R350) -/

/-- The distance of R349 from a core to a team's core. -/
def meshDistance (a b : Nat) : Nat :=
  if a / 36 = b / 36 then
    let x := fun (c : Nat) => c % 36 % 6
    let y := fun (c : Nat) => c % 36 / 6
    (x a - x b) + (x b - x a) + ((y a - y b) + (y b - y a))
  else 16

/-- The features of a bid (R349, R382). -/
def State.features (s : State) (e : ReadyTeam) (n : NodeRun) (asid c : Nat) : List Nat :=
  let here := s.teamsOn c
  let peers := fun (r : TileRec) => s.teams.filter fun (t : Nat × Team) => t.2.live && !t.2.absent && t.2.launch == e.launch && t.2.node == r.peer
  let ins := n.node.tiles.filter fun r => !r.out && r.ptid == e.tid
  let near := ins.filter fun r => (peers r).any fun (t : Nat × Team) => t.2.core == c
  let x := s.coreOf c
  let cached := fun (a : Nat) => a != 0 && (x.segs.any (fun g => g.adapter == a && (s.teamOf g.team).asid == asid)
    || x.dirs.any fun g => g.adapter == a && (s.teamOf g.team).asid == asid)
  [(256 * sumNat (near.map TileRec.count) + 1023) / 1024,
   Nat.min 255 (s.awardsOn c).length,
   (match ins with | [] => 0 | r :: _ => ((peers r).map fun (t : Nat × Team) => meshDistance c t.2.core).foldl Nat.min 16),
   255 - sumNat (here.map fun (t : Nat × Team) => budgetOf t.2.roles),
   (here.map fun (t : Nat × Team) => t.2.prio).foldl Nat.min 12,
   if reserveCore c then 1 else 0,
   (n.node.adapters.eraseDups.filter cached).length,
   1]

/-- The cost of a bid under the weights of a formula table. -/
def bidCost (weights : Word64) (fs : List Nat) : Nat :=
  let sum := ((List.range 8).zip fs).foldl (fun (n : Int) (f : Nat × Nat) => n + valOf (weights.toNat / 2 ^ (8 * f.1)) 8 false * f.2) 0
  if sum < 0 then 0 else Nat.min 65535 sum.toNat

/-- The cycle in which the bid of a core reaches the root (R350). -/
def bidCycle (c : Nat) : Nat := 9 + 10 * (c / 36 / 4) + c % 36 / 6

/-- The task that the next window announces, and the Bellwether without it. -/
def Bellwether.take (b : Bellwether) : Option (ReadyTeam × Bellwether) :=
  match b.head, b.queue with
  | some e, _ => some (e, { b with head := none })
  | none, e :: q => some ({ e with left := 1 }, { b with queue := match e.rest with | some r => r :: q | none => q })
  | none, [] => none

/-- The cycle in which a core samples its features (R350). -/
def sampleCycle (c : Nat) : Nat := 6 + 5 * (c / 36 / 4) + c % 36 / 6
/-- The first cycle in which a core samples, and the one after the last. -/
def firstSample : Nat := 6
def sampled : Nat := 17

/-- BID_WINDOW_OPEN: the task is announced; one under an invalid context record is refused (R360). -/
def execBidWindowOpen (s : State) : Out :=
  let b := s.bell
  if b.window.isSome || b.stalled then .next s
  else match b.take with
    | none => .next s
    | some (e, b') =>
      let s' := { s with bell := { b' with window := some { task := e, bids := [], cycle := firstSample, length := b.length, winner := none } } }
      .next (if s.entryValid e then s' else s'.refusePlace e.launch e.node)

/-- The cores that sample in the window's next cycle do: each eligible one whose bid reaches the root in time bids (R349, R350). -/
def State.sampleBids (s : State) (w : Window) : State :=
  let e := w.task
  match mfind e.launch s.launches, s.nodeOf e with
  | some x, some n =>
    let weights := mget 0 n.node.formula s.bell.tables
    let bid := fun (c : Nat) =>
      if sampleCycle c != w.cycle || w.length < bidCycle c || (s.roomOn c x.asid e.prio n.header Less.none).isNone then none
      else some (c, bidCost weights (s.features e n x.asid c))
    let bids := if s.spillRoom x.asid n.header then allCores.filterMap bid else []
    { s with bell := { s.bell with window := some { w with bids := w.bids ++ bids, cycle := w.cycle + 1 } } }
  | _, _ => { s with bell := { s.bell with window := none } }

/-- Does one bid beat another: the lower cost, then the smaller (core − serial) mod 288? -/
def beats (serial : Word32) (a b : Nat × Nat) : Bool :=
  let turn := fun (c : Nat) => ((c : Int) - serial.toNat) % 288
  decide (a.2 < b.2) || (a.2 == b.2 && decide (turn a.1 < turn b.1))

/-- BID_WINDOW_CLOSE: while cores have yet to sample, those of the next cycle do; then the best bid wins, and with none the task waits at the head of the queue for the end of a team. -/
def execBidWindowClose (s : State) : Out :=
  match s.bell.window with
  | none => .next s
  | some w =>
    if w.winner.isSome then .next s
    else if w.cycle < sampled then .next (s.sampleBids w)
    else match w.bids with
      | [] => .next { s with bell := { s.bell with window := none, head := some w.task, stalled := true } }
      | x :: xs =>
        let best := xs.foldl (fun a b => if beats w.task.serial b a then b else a) x
        .next { s with bell := { s.bell with window := some { w with winner := some best.1 } } }

/-- AWARD_ACCEPT: the winner reserves the allocation and the blocks, or declines where the team no longer fits. -/
def execAwardAccept (s : State) : Out :=
  match s.bell.window with
  | none => .next s
  | some w =>
    match w.winner, mfind w.task.launch s.launches, s.nodeOf w.task with
    | some c, some x, some n =>
      match s.fitsOn c x.asid w.task.prio n.header Less.none with
      | some base =>
        let e := { w.task with awarded := some (c, base) }
        .next { s with ready := s.ready ++ [e], bell := { s.bell with window := none } }
      | none => .next { s with bell := { s.bell with window := none, head := some w.task } }
    | _, _, _ => .next s

end Sys2Proof.Machine
end

