-- ==== Sys2Proof/Machine/Preempt.lean ====
section
/-! DEFINITION. Boundary causes (R361, R362), waking (R98, R101), placement and pre-emption (R345, R351, R370), eviction (R366, R371), bounce rings (R211, R372, R437), restore (R373), and parked faults (R368, R369). -/

namespace Sys2Proof.Machine

/-! ## Boundary causes -/

/-- May a path take a boundary cause: it stands at a clause boundary or suspended, and is not stopped by a trap of the other path (R361, R97)? -/
def Hart.atBoundary (h : Hart) (p : Bool) : Bool :=
  let x := h.path p
  x.active && h.stopOther != some p && (x.clause.isNone || x.susp.isSome)

/-- BOUNDARY_CAUSE_TAKEN: the first pending cause of a path that stands at a boundary or suspended, while no clause of the group runs, is taken as a trap; `epc` is the header, or the suspended word (R361, R362). -/
def execBoundaryCauseTaken (team gid : Nat) (s : State) : Out :=
  let i := HartId.group team gid
  let h := s.hartOf i
  if !h.live || h.evicted || h.p0.issuing || h.p1.issuing then .next s
  else match [false, true].find? fun p => h.atBoundary p && (h.causeFor p).isSome with
    | none => .next s
    | some p => match (h.causeFor p).bind fun n => (h.causes[n]?).map fun c => (n, c) with
      | none => .next s
      | some (n, c) =>
        let s := s.setHartOf i { h with causes := removeAt n h.causes }
        .next (s.takeTrap team gid p ⟨c.cause, c.tval, 0, c.tval, 0⟩ true (h.path p).wordAddr)

/-! ## Waking (R98, R101) -/

/-- Is a waiter in BLKACQ the first of its role whose request fits (R88)? -/
def State.blockTurn (s : State) (k g : Nat) (p : Bool) : Option BlockWaiter :=
  let role := (s.hartOf (.group k g)).role
  ((s.blockWaiters k role).find? (s.requestFits k role ((s.teamOf k).budgetOf role))).filter fun w => w.gid == g && w.path == p

/-- Has the condition of a suspension come true? -/
def State.waitOver (s : State) (k g : Nat) (p : Bool) : Wait → Bool
  | .blocks _ => (s.blockTurn k g p).isSome
  | .token t => ((s.teamOf k).tile t).token.isNone && !(s.teamOf k).seq.rows.any fun r => decide (t ∈ r.tiles)
  | .barrier b ph _ _ => ((s.teamOf k).bar b).ph != ph
  | .sync off gen => genReached (BitVec.ofNat 32 ((s.teamOf k).mem.nat (off + 8) 4)) gen
  | .message r => !(vget (s.teamOf k).rx r []).isEmpty
  | .item => !(s.teamOf k).items.isEmpty || (s.teamOf k).itemsClosed
  | .counter c n => decide ((s.hartOf (.group k g)).counter c ≤ n)
  | .wave g r e n => !((s.waveOf g (r, e, n)).map Wave.live).getD false
  | .tile t _ _ _ => s.tagOf k t != .empty
  | .drain => (s.hartOf (.group k g)).drainedAll
  | .header mask thr => (s.hartOf (.group k g)).waitMet mask thr
  | .debug => false
  | .parked _ => false
  | .ringRoom _ _ _ _ => false

/-- A path whose wait is over wakes: with its blocks, with leave to pass its barrier, or to execute its instruction again. -/
def State.endWait (s : State) (k g : Nat) (p : Bool) (w : Wait) : State :=
  match w with
  | .blocks _ => match s.blockTurn k g p with
    | some b => s.giveBlocks k b
    | none => s
  | .barrier _ _ _ _ => s.wake k g p (some .go)
  | _ => s.wake k g p none

/-- PATH_WAKE: a suspension ends when the condition that its instruction names comes true; a boundary cause for the path goes first (R361). -/
def execPathWake (team gid : Nat) (path : Bool) (s : State) : Out :=
  let h := s.hartOf (.group team gid)
  match (h.path path).susp with
  | none => .next s
  | some w =>
    if !h.live || h.evicted || (h.causeFor path).isSome || !s.waitOver team gid path w then .next s
    else .next (s.endWait team gid path w)

/-! ## Saving and loading a group (R366) -/

/-- The numbers of the CSRs in the order of R17. -/
def csrOrder : List Nat :=
  [0x000, 0x001, 0x002, 0x003, 0x004, 0x010, 0x011, 0x012, 0x013, 0x020, 0x021, 0x022, 0x023, 0x030, 0x031, 0x032, 0x033, 0x034,
   0x035, 0x040, 0x041, 0x042, 0x043]

/-- The tiles whose token a group holds, as a mask. -/
def State.tokensOf (s : State) (k g : Nat) : Nat :=
  (List.range 16).foldl (fun n i => if ((s.teamOf k).tile i).token = some g then n + 2 ^ i else n) 0

/-- The pending list in 80 bytes: codes, paths and values of eight causes (R366; the places are log 8). -/
def causeBytes (cs : List BCause) : List Byte :=
  let at_ := fun (i : Nat) => cs[i]?
  ((List.range 8).map fun i => ((at_ i).map fun c => c.cause.code.setWidth 8).getD 0)
    ++ ((List.range 8).map fun i => match (at_ i).bind BCause.path with | some true => (2 : Byte) | some false => 1 | none => 0)
    ++ (List.range 8).flatMap fun i => leBytes 8 (((at_ i).map fun c => c.tval.toNat).getD 0)

/-- A pending list with what its bytes say of the causes that they hold. -/
def loadCauses (cs : List BCause) (bs : List Byte) : List BCause :=
  ((List.range cs.length).zip cs).map fun (x : Nat × BCause) =>
    let code := (bs.getD x.1 0).toNat
    if 8 ≤ x.1 ∨ code = 0 then x.2
    else ⟨Cause.ofCode code, bytesToBits 64 ((bs.drop (16 + 8 * x.1)).take 8),
          match (bs.getD (8 + x.1) 0).toNat with | 1 => some false | 2 => some true | _ => none⟩

/-- The outstanding remote loads and atomics, twelve at most, with the register that waits for them: 8 bytes each (R366; the places are log 8). -/
def Hart.askedBytes (h : Hart) : List Byte :=
  (h.asked.take 12).flatMap fun a => leBytes 8 (2 ^ 63 + h.waitsFor * 2 ^ 54 + a.1 % 1024 * 2 ^ 44 + a.2)

/-- The parts of the saved state of a group, each with its offset: path state, scalar and mask registers, latches, CSRs with the mode, generators, the records in hardware, counters, the held mask, the pending list, tokens, outstanding accesses, and the vector registers of held slots (R366). -/
def State.savedParts (s : State) (k g : Nat) : List (Nat × List Byte) :=
  let h := s.hartOf (.group k g)
  let mine := { s with cur := ⟨.group, k, g, false, 0, 0⟩ }
  let csrs := csrOrder.flatMap fun n => leBytes 8 (mine.csrRead (BitVec.ofNat 10 n)).toNat
  [(0x40, h.p0.bytes ++ h.p1.bytes),
   (0x100, (List.range 64).flatMap fun i => leBytes 8 (h.sreg (BitVec.ofNat 6 i)).toNat),
   (0x300, (List.range 8).flatMap fun i => leBytes 32 (vget h.m i 0).toNat),
   (0x400, h.p0.latchBytes ++ h.p1.latchBytes),
   (0xC00, csrs ++ List.replicate (0xF8 - csrs.length) 0 ++ leBytes 8 (if h.sys then 1 else 0)),
   (0xD00, (List.range 64).flatMap fun l => leBytes 4 (vget h.gens l 0).toNat),
   (0xE00, h.recBytes),
   (0x1200, ((List.range 8).flatMap fun c => leBytes 8 (h.counter c)) ++ leBytes 8 h.held.toNat ++ causeBytes h.causes
      ++ leBytes 8 (s.tokensOf k g) ++ h.askedBytes)]
    ++ ((List.range 32).filter fun r => h.held.getLsbD (r / 8)).map fun r => (0x2000 + 256 * r, leBytes 256 (vget h.v r 0).toNat)

/-- Writes the saved state of a group. -/
def State.saveGroup (s : State) (k g : Nat) : Except Cause State :=
  let h := s.hartOf (.group k g)
  (s.savedParts k g).foldlM (fun (s : State) (p : Nat × List Byte) => s.vwrite h.asid.toNat true (h.savedBase + p.1) p.2) s

/-- A path with its saved state, the word of its clause included. -/
def Path.loadPlace (p : Path) (bs : List Byte) : Path :=
  let p := p.loadState bs
  { p with
    replay := bs.getD 26 0 != 0,
    clause := p.clause.map fun c => let i := (bs.getD 24 0).toNat; if 1 ≤ i ∧ i ≤ c.count then { c with idx := i } else c }

/-- The registers of a group from the bytes of its saved state (R366, R373); it holds no slot that it did not hold at its eviction. -/
def Hart.load (h : Hart) (ps rs ms ls cs gs xs : List Byte) (vs : List (Nat × List Byte)) : Hart :=
  let w := fun (bs : List Byte) (i : Nat) => (bytesToBits 64 ((bs.drop (8 * i)).take 8) : Word64)
  let h := { h with
    s := Vector.ofFn fun i : Fin 64 => w rs i.val,
    m := Vector.ofFn fun i : Fin 8 => bytesToBits 256 ((ms.drop (32 * i.val)).take 32),
    gens := Vector.ofFn fun l : Fin 64 => bytesToBits 32 ((gs.drop (4 * l.val)).take 4),
    v := vs.foldl (fun v (r : Nat × List Byte) => vset v r.1 (bytesToBits 2048 r.2)) h.v,
    vl := w cs 0, vtype := w cs 1, slimit := w cs 5, sbase := w cs 6, seed := w cs 7, tcause := w cs 9, tval := w cs 10,
    epc := w cs 11, fcause := w cs 12, asid := w cs 13 &&& 0xFFF, prio := w cs 14, sys := (cs.getD 0xF8 0).getLsbD 0,
    pathack := Vector.ofFn fun p : Fin 4 => w cs (19 + p.val),
    held := h.held &&& (w xs 0).setWidth 4, causes := loadCauses h.causes (xs.drop 8) }
  let one := fun (h : Hart) (p : Bool) =>
    let x := h.path p
    let o : Nat := if p then 1 else 0
    h.setPath p ((x.loadPlace ((ps.drop (96 * o)).take 96)).withLatches x.latchKinds ((ls.drop (1024 * o)).take 1024))
  one (one h false) true

/-- Reads the saved state of a group back. -/
def State.loadGroup (s : State) (k g : Nat) : Except Cause Hart := do
  let h := s.hartOf (.group k g)
  let get := fun (o n : Nat) => s.vread h.asid.toNat true (h.savedBase + o) n
  let ps ← get 0x40 192
  let rs ← get 0x100 512
  let ms ← get 0x300 256
  let ls ← get 0x400 2048
  let cs ← get 0xC00 256
  let gs ← get 0xD00 256
  let es ← get 0xE00 1024
  let xs ← get 0x1240 192
  let vs ← ((List.range 32).filter fun r => h.held.getLsbD (r / 8)).mapM fun r => (get (0x2000 + 256 * r) 256).map fun bs => (r, bs)
  return (h.load ps rs ms ls cs gs xs vs).loadRecs es

/-! ## Eviction (R371, R372) -/

/-- A path that is about to be evicted: an instruction that is suspended or stalled is to execute again (R368, R371). -/
def Path.toReplay (p : Path) : Path := { p with replay := p.replay || (p.active && (p.susp.isSome || p.stalled)) }
/-- A path of an evicted group: what it was executing is abandoned. -/
def Path.evict (p : Path) : Path := { p with susp := none, grant := none, stalled := false, issuing := false }

/-- May a group be evicted now: each path is at a boundary, suspended, stalled, or woken to execute again? -/
def Hart.evictable (h : Hart) : Bool := h.between && h.p0.grant.isNone && h.p1.grant.isNone

/-- A group gives up its place and its blocks: its state is saved, and a lent spare block returns. An open region is to fail at its restore (R410). The parts of its stores that only its core observes reach their home, so that the group sees them wherever it returns (R22). -/
def State.evictGroup (s : State) (k g : Nat) : State :=
  let i := HartId.group k g
  if !(s.hartOf i).live then s
  else
    let s := s.landWhere fun p => p.team == k && p.gid == g
    let h := s.hartOf i
    let doomed := h.region.map fun r => { r with doomed := r.doomed <|> some .evicted }
    let s := s.setHartOf i { h with p0 := h.p0.toReplay, p1 := h.p1.toReplay, region := doomed }
    match s.saveGroup k g with
    | .error _ => s.spillLost k g (BitVec.ofNat 64 (s.hartOf i).savedBase)
    | .ok s =>
      let h := ((s.hartOf i).abandon false).abandon true
      let s := s.setHartOf i { h with p0 := h.p0.evict, p1 := h.p1.evict, evicted := true, evictAsked := false }
      s.spareBack k g

/-- Are all groups of a team that have not ended evicted? -/
def State.allEvicted (s : State) (k : Nat) : Bool :=
  let gs := s.liveGids k
  !gs.isEmpty && gs.all fun g => (s.hartOf (.group k g)).evicted

/-- Changes the valid entries of a team in every port translation table. -/
def State.mapEntries (s : State) (k : Nat) (f : Nat → PortEntry → PortEntry) : State :=
  { s with cores := s.cores.map fun (x : Nat × Core) =>
      (x.1, { x.2 with ports := x.2.ports.map fun e => if e.valid && e.team == k then f x.1 e else e }) }

/-- Can a ring's bytes from one position to another be read (R438)? -/
def State.flitsReadable (s : State) (e : PortEntry) (size first last : Nat) : Bool :=
  (List.range ((last + 2 ^ 64 - first) % 2 ^ 64 / 64)).all fun i =>
    (s.vread e.asid true (e.ring.toNat + 64 + (first + 64 * i) % size) 64).isOk

/-- Is the ring of a team usable: its control block, and the bytes of every entry that it holds (R438)? -/
def State.ringReady (s : State) (k : Nat) : Bool :=
  match s.entryOf k with
  | none => true
  | some e => match s.ringBlock e.asid e.ring.toNat, (s.teamOf k).bounced with
    | some (size, head, _), b :: _ => s.flitsReadable e size b.pos head
    | r, _ => r.isSome

/-- The ring of a team is checked; a failure is logged (R438). -/
def State.checkRing (s : State) (k : Nat) : State :=
  match s.entryOf k with
  | none => s
  | some e => if s.ringReady k then s else s.logRing k e.asid e.ring

/-- The held puts of a team join its ring in hold order, and count as delivered (R381); an error where the ring has no room for them. -/
def State.holdToRing (s : State) (k : Nat) : Except State State :=
  let c := (s.teamOf k).core
  let held := (s.coreOf c).hold.filter (·.team == k)
  match s.entryOf k with
  | none => .ok s
  | some e =>
    let step := fun (r : State × Bool) (h : Held) =>
      let b : Bounced := { pos := 0, off := 256 * h.tile, src := h.src, remote := none, op := .put h.data h.marks }
      if r.2 then let (s, ok) := r.1.bounceTo e b 0 1 h.control [] h.data; (s.putDone h.src h.st h.remote, ok) else r
    let r := held.foldl step (s, true)
    if r.2 then
      let x := r.1.coreOf c
      .ok (r.1.setCoreOf c { x with hold := x.hold.filter (·.team != k) })
    else .error (s.keepRingLogs r.1)

/-- A team whose groups are all evicted is evicted whole once its stream has stopped: its held puts go to its ring, its entry becomes absent, and the adapter cache forgets it. It waits where the ring has no room (R372, R438). -/
def State.evictTeam (s : State) (k : Nat) : State :=
  let t := s.teamOf k
  if t.absent || !s.allEvicted k then s
  else if t.seq.st == .running then s.modSeq k fun q => { q with evictAsked := true }
  else
    let s := s.checkRing k
    match s.holdToRing k with
    | .error s => s
    | .ok s =>
      let s := s.mapEntries k fun _ e => { e with absent := true }
      let c := s.coreOf t.core
      let s := s.setCoreOf t.core
        { c with segs := c.segs.filter (·.team != k), dirs := c.dirs.filter (·.team != k), fetches := c.fetches.filter (·.team != k) }
      s.setTeamOf k { s.teamOf k with absent := true }

/-- GROUP_EVICT: a group that is to be evicted is, at its boundary or out of its wait; the last one takes its team with it. -/
def execGroupEvict (team gid : Nat) (s : State) : Out :=
  let h := s.hartOf (.group team gid)
  if !h.live then .next s
  else if h.evicted then .next (s.evictTeam team)
  else if h.evictAsked && h.evictable then .next ((s.evictGroup team gid).evictTeam team)
  else .next s

/-- Does a stalled stream stand at an instruction that its team's groups hold back: MBARW, or a product with a B quarter of an evicted group (R169)? -/
def State.streamHeld (s : State) (k : Nat) : Bool :=
  let q := (s.teamOf k).seq
  q.stalled && match q.clause with
    | none => false
    | some c =>
      let op := ((c.words.getD (c.idx - 1) 0).extractLsb' 24 8).toNat
      op == 8 || (decide (op ≤ 1) && (List.range 4).any fun p => (s.hartOf (.group k (vget q.binding p 0).toNat)).evicted)

/-- STREAM_EVICT_STOP: the stream of a team that is evicted whole has stopped at an MFENCE or on the team's groups, and its issued work is complete: it is saved (R371). -/
def execStreamEvictStop (team : Nat) (s : State) : Out :=
  let t := s.teamOf team
  let q := t.seq
  if !q.evictAsked || q.st ≠ .running || q.fault.isSome || !(q.stopAsked || s.streamHeld team) || !t.streamIdle then .next s
  else
    let s := s.modSeq team fun q => { q with st := .saved, stalled := false, stopAsked := false, evictAsked := false }
    .next (s.evictTeam team)

/-! ## Replaying a ring (R211, R259, R372, R437) -/

/-- A replayed packet that the allocation refuses: its group has its refusal, as on arrival; that of an engine or of another device, which has been told of its delivery, is discarded and logged (R205, R210). -/
def State.replayRefused (s : State) (k : Nat) (b : Bounced) : State :=
  let t := s.teamOf k
  match b.src with
  | .group j g => s.refuse j g t.core (t.wbase * 4096 + b.off)
  | _ => s.logError .discarded 0 t.core t.asid 0 (BitVec.ofNat 64 b.off)

/-- The granules of a reply that may not be used, by their numbers. -/
def badGranules (t : Team) (key addr off n : Nat) : List ((Nat × Nat) × Cause) :=
  (blocksOf 64 addr n).filterMap fun g =>
    let a := Nat.max addr (64 * g)
    let m := Nat.min (addr + n) (64 * g + 64) - a
    if t.markedAt (off + (a - addr)) m then some ((key, g), .poison) else none

/-- A load that waited in the ring is performed and answered (R211). -/
def State.replayLoad (s : State) (k : Nat) (b : Bounced) (n : Nat) (asker : Option (Nat × Nat)) : State :=
  let t := s.teamOf k
  match b.remote, asker with
  | some p, _ =>
    s.answerPkt p { answerTo 0x10 p 0 with data := t.mem.read b.off n, psn := psnOf fun g => t.markedAt (b.off + 64 * g) 64 }
  | none, some (key, addr) =>
    let bs := t.mem.read b.off n
    let cells := (List.range n).map fun i => ((key, addr + i), bs.getD i 0)
    let bad := badGranules t key addr b.off n
    match b.src with
    | .group j g => let i := HartId.group j g; s.setHartOf i ((s.hartOf i).receive (key, addr) cells bad)
    | .engine j => s.setTeamOf j ((s.teamOf j).receive (key, addr) cells bad)
    | _ => s
  | none, none => s

/-- The old value of a replayed atomic, or why there is none, goes to the group that waits for it. -/
def State.replayOld (s : State) (b : Bounced) (key addr j n : Nat) (old : Except Cause Nat) : State :=
  match b.src with
  | .group t g =>
    let i := HartId.group t g
    let first := key - 1024 * j
    match old with
    | .ok x => s.setHartOf i ((s.hartOf i).receive (first, addr) ((List.range n).map fun m => ((key, addr + m), (leBytes n x).getD m 0)) [])
    | .error c => s.setHartOf i ((s.hartOf i).receive (first, addr) [] [((first, addr / 64), c)])
  | _ => s

/-- Atomics that waited in the ring are applied and answered; those to the region of a bound fold are refused (R241, R310, R405). -/
def State.replayAtomic (s : State) (k : Nat) (b : Bounced) (args : List AtomArg) (asker : Option (Nat × Nat × Nat)) : State :=
  let t := Tgt.spad k b.off
  let n := ((args.head?).map fun a => a.ty.bits / 8).getD 1
  let tm := s.teamOf k
  let held := s.inFold tm.core k b.off n
  let bad := s.bad t n
  match b.remote, asker with
  | some p, _ => if held then s.atomBad p false else s.atomsHere [p] t
  | none, some (key, addr, j) =>
    if held then s.replayOld b key addr j n (.error .accessViolation)
    else if bad then s.replayOld b key addr j n (.error .poison)
    else let (s, olds) := s.applyArgs false t args; s.replayOld b key addr j n (.ok (olds.headD 0))
  | none, none =>
    if held then s.replayRefused k b
    else if bad then s.logError .discarded Cause.poison.code tm.core tm.asid 0 (BitVec.ofNat 64 b.off)
    else (s.applyArgs false t args).1

/-- One packet of the ring takes the effect that it would have had on arrival; none where it has no room and the replay pauses. The packet has left the ring in the state given. -/
def State.replayOne (s : State) (k : Nat) (b : Bounced) : Option State :=
  let t := s.teamOf k
  match b.op with
  | .put data marks =>
    if s.inFold t.core k b.off 256 then some (s.replayRefused k b)
    else s.applyPut tileConsistent k (b.off / 256)
      { team := k, tile := b.off / 256, src := b.src, data := data, marks := marks, st := none, remote := none, control := 0 }
  | .store data bad =>
    some (if s.inFold t.core k b.off data.length then s.replayRefused k b else s.pokeMarked none (.spad k b.off) data bad)
  | .atomic args asker => some (s.replayAtomic k b args asker)
  | .load n asker => some (s.replayLoad k b n asker)
  | .reply g cells bad =>
    let i := HartId.group k g
    let h := s.hartOf i
    some (s.setHartOf i { h with arrived := cells ++ h.arrived, bad := bad ++ h.bad })
  | .raise n => some (s.raiseHere k b.off n)
  | .msg m =>
    match m, m.wave with
    | .flit _ rx _ v _ _ _, _ => s.receiveFlit k rx v
    | _, some (_, graph) => some (match s.foldIn t.core graph with
        | some f => s.foldTakes t.core f m
        | none => s.noFold t.core m)
    | _, none => some s

/-- Replays the ring of a team, oldest packet first, up to its end, to a packet that has no room, or to a ring that cannot be read (R437, R438). -/
def State.drainRing (s : State) (k : Nat) : (fuel : Nat) → State
  | 0 => s
  | fuel + 1 =>
    let t := s.teamOf k
    match t.bounced, s.entryOf k with
    | b :: bs, some e =>
      match s.ringBlock e.asid e.ring.toNat with
      | none => s.checkRing k
      | some (size, head, _) =>
        let tail := match bs with | c :: _ => c.pos | [] => head
        if !s.flitsReadable e size b.pos tail then s.logRing k e.asid e.ring
        else match (s.setTeamOf k { t with bounced := bs }).replayOne k b with
        | none => s
        | some u => match u.vwrite e.asid true (e.ring.toNat + 16) (leBytes 8 tail) with
          | .ok v => v.drainRing k fuel
          | .error _ => s.logRing k e.asid e.ring
    | _, _ => s

/-- Replays the ring as far as it goes; the team's own entry stops being absent when the ring is empty. -/
def State.replayRing (s : State) (k : Nat) : State :=
  let s := s.drainRing k (s.teamOf k).bounced.length
  let t := s.teamOf k
  let s := s.setTeamOf k { t with ringPaused := !t.bounced.isEmpty }
  s.mapEntries k fun c e => if c = t.core then { e with absent := e.absent && !t.bounced.isEmpty } else e

/-- PAUSED_PUT_RETRY: the port of a resident team goes on with its ring (R437, R373). -/
def execPausedPutRetry (team : Nat) (s : State) : Out :=
  let t := s.teamOf team
  .next (if !t.live || t.absent || t.bounced.isEmpty then s else s.replayRing team)

/-! ## Placement of urgent teams (R345, R351, R370) -/

/-- Teams of a core that may be evicted, lowest prio first. -/
def State.lowTeams (s : State) (c : Nat) : List (Nat × Team) :=
  ((s.teamsOn c).filter fun (t : Nat × Team) => decide (t.2.prio < 10)).mergeSort fun x y => decide (x.2.prio ≤ y.2.prio)

/-- What an eviction takes on a core (R370): whole teams, and groups of others; its cost is the groups that it evicts. -/
structure EvictPlan where
  core : Nat
  less : Less
  cost : Nat
deriving DecidableEq, Repr

/-- The groups of a team that an eviction would take, highest gid first. -/
def State.victims (s : State) (k : Nat) : List (Nat × Nat) :=
  (((s.liveGids k).filter fun g => !(s.hartOf (.group k g)).evicted).reverse).map fun g => (k, g)

/-- Evicts whole teams of lowest prio until the other resources suffice (R370 step 2). -/
def State.planTeams (s : State) (c : Nat) (enough : Less → Bool) : List (Nat × Team) → Less → Option (Less × List (Nat × Team))
  | low, w =>
    if enough w then some (w, low)
    else match low with
      | [] => none
      | t :: ts => s.planTeams c enough ts { w with teams := t.1 :: w.teams }

/-- Evicts groups in order until the group places and blocks suffice (R370 step 1). -/
def planGroups (enough : Less → Bool) : List (Nat × Nat) → Less → Option Less
  | gs, w =>
    if enough w then some w
    else match gs with
      | [] => none
      | g :: gs => planGroups enough gs { w with groups := g :: w.groups }

/-- The least eviction on a core that makes room for a team. -/
def State.planOn (s : State) (c asid : Nat) (h : Header) : Option EvictPlan :=
  if reserveCore c || !(s.coreOf c).portRoom then none
  else
    let others := fun (w : Less) => s.teamRoom c h.need w && (s.freeUnits c asid h.units w).isSome
    match s.planTeams c others (s.lowTeams c) Less.evicted with
    | none => none
    | some (w, low) =>
      match planGroups (s.groupRoom c h.need) (low.flatMap fun (t : Nat × Team) => s.victims t.1) w with
      | none => none
      | some w =>
        some { core := c, less := w, cost := w.groups.length + sumNat (w.teams.map fun k => (s.victims k).length) }

/-- The core that needs the least eviction: the fewest groups, then the lowest number. -/
def State.leastPlan (s : State) (asid : Nat) (h : Header) : Option EvictPlan :=
  if (s.spillFor asid h).isNone then none
  else allCores.foldl (fun (best : Option EvictPlan) c =>
    match s.planOn c asid h, best with
    | some p, some b => if p.cost < b.cost then some p else some b
    | some p, none => some p
    | none, b => b) none

/-- Asks for the evictions of a plan; a team that is to go whole and has no group left to evict goes now. -/
def State.askEviction (s : State) (p : EvictPlan) : State :=
  let groups := p.less.groups ++ p.less.teams.flatMap s.victims
  let s := groups.foldl (fun (s : State) (x : Nat × Nat) =>
    let i := HartId.group x.1 x.2
    s.setHartOf i { s.hartOf i with evictAsked := true }) s
  p.less.teams.foldl (fun (s : State) k =>
    let s := s.modSeq k fun q => { q with evictAsked := q.st == .running }
    s.evictTeam k) s

/-- Is some eviction under way? -/
def State.evicting (s : State) : Bool :=
  s.harts.any (fun (x : HartId × Hart) => x.2.live && x.2.evictAsked) || s.teams.any fun (t : Nat × Team) => t.2.live && t.2.seq.evictAsked && t.2.seq.st == .running

/-- An accepted award is undone (R351): the task is tendered once more, or, the second time, its tenderer has BID_WITHDRAWN and the team waits in the ready pool. -/
def State.undoAward (s : State) (i : Nat) : State :=
  match s.ready[i]? with
  | none => s
  | some e =>
    let s := { s with ready := removeAt i s.ready }
    if e.withdrawals = 0 then
      { s with bell := { s.bell with queue := queueTask { e with awarded := none, withdrawals := 1 } s.bell.queue } }
    else
      let s := { s with ready := s.ready ++ [{ e with awarded := none, withdrawals := e.withdrawals + 1 }] }
      match (mfind e.launch s.launches).bind Launch.tenderer with
      | some (k, g) => s.addCause k g ⟨.bidWithdrawn, mark63 (e.serial.setWidth 64), none⟩
      | none => s.changeNode e.launch e.node fun r => { r with cause := Cause.bidWithdrawn.code }

/-- The state without an award of a lower prio whose undoing makes room for an entry, with the place. -/
def State.undoFor (s : State) (e : ReadyTeam) : Option (State × Nat × Nat) :=
  (List.range s.ready.length).findSome? fun i =>
    match s.ready[i]? with
    | some a => if a.awarded.isSome && decide (a.prio < 10) then let t := s.undoAward i; (t.spot e).map fun p => (t, p) else none
    | none => none

/-- The state without as many awards of lower prio, one after another, as make room for a whole gang grid, with the grid placed (R351, R370). -/
def State.undoForGang (s : State) (e : ReadyTeam) : (fuel : Nat) → Option State
  | 0 => none
  | fuel + 1 =>
    match (List.range s.ready.length).find? fun i => ((s.ready[i]?).map fun a => a.awarded.isSome && decide (a.prio < 10)).getD false with
    | none => none
    | some i =>
      let t := s.undoAward i
      let r := t.placeGang e
      if r.2 then some r.1 else t.undoForGang e fuel

/-- The state in which undone awards have made room for an urgent entry, and it stands placed. -/
def State.undoAndPlace (s : State) (e : ReadyTeam) : Option State :=
  if s.gangOf e then s.undoForGang e s.ready.length
  else (s.undoFor e).map fun (t, c, b) =>
    let rest := e.rest.toList
    let t := t.placeNext e c b
    { t with ready := t.ready.flatMap fun x => if x = e then rest else [x] }

/-- The eviction for the next team of an urgent entry. -/
def State.planFor (s : State) (e : ReadyTeam) : Option EvictPlan :=
  match mfind e.launch s.launches, s.nodeOf e with
  | some x, some r => s.leastPlan x.asid r.header
  | _, _ => none

/-- Will an urgent entry be placed before one of lower prio: it fits, an award or an eviction makes room, or an eviction is under way? -/
def State.urgentDue (s : State) (e : ReadyTeam) : Bool :=
  decide (10 ≤ e.prio) && (s.evicting || s.entryFits e || (s.undoAndPlace e).isSome || (s.planFor e).isSome)

/-- Does an entry of a higher prio go first (R345, R373)? -/
def State.higherFirst (s : State) (prio : Nat) : Bool :=
  s.ready.any fun x => x.awarded.isNone && decide (prio < x.prio) && (s.entryFits x || s.urgentDue x)

/-- The next team of an entry, or its whole gang grid, placed as the cores stand. -/
def State.placeEntry (s : State) (i : Nat) (e : ReadyTeam) : Option State :=
  if s.gangOf e then let r := s.placeGang e; if r.2 then some r.1 else none
  else (s.placeFor e).map fun p => (s.placeNext e p.1 p.2).popReady i

/-- URGENT_PLACE: the next team of an urgent entry, or its whole gang, is placed where it fits; else an award is undone, or the least eviction is asked for, and the entry waits (R370). -/
def execUrgentPlace (entry : Nat) (s : State) : Out :=
  match s.ready[entry]? with
  | none => .next s
  | some e =>
    if e.prio < 10 || e.awarded.isSome || s.poolPending || !s.firstOfPrio e || s.higherFirst e.prio then .next s
    else if !s.entryValid e then .next (s.refusePlace e.launch e.node)
    else match s.placeEntry entry e with
      | some t => .next (s.withImages e t)
      | none => match s.undoAndPlace e with
        | some t => .next (s.withImages e t)
        | none =>
          let most := if s.gangOf e then (s.placeGang e).1 else s
          if s.evicting then .next s
          else match most.planFor e with
            | some p => .next (s.askEviction p)
            | none => .next s

/-! ## Restore (R373) -/

/-- What a team needs of a core to return. -/
def State.needBack (s : State) (k : Nat) : Need :=
  let t := s.teamOf k
  ⟨(s.liveGids k).length, budgetOf t.roles, t.accs⟩

/-- May a team that was evicted whole return to a core: its own, or another one where its port translation table has room and no fold binds it to its own? -/
def State.takesBack (s : State) (k c : Nat) : Option Nat :=
  let t := s.teamOf k
  let bound := ((s.coreOf t.core).fold.map fun f => f.team == k).getD false
  let window := (t.wbase, t.spad / 4)
  let known := (s.coreOf c).ports.any fun e => e.valid && e.team == k
  let apart := (s.coreOf c).ports.all fun e =>
    !e.valid || e.asid != t.asid || e.team == k || decide (e.wbase + e.size ≤ window.1) || decide (window.1 + window.2 ≤ e.wbase)
  if !t.live || !t.absent || decide (288 ≤ c) || (reserveCore c && decide (t.prio < 10)) || !(s.ctx t.asid).valid
      || !s.groupRoom c (s.needBack k) Less.evicted || !s.teamRoom c (s.needBack k) Less.evicted
      || (c != t.core && (bound || !(known || (s.coreOf c).portRoom) || !apart)) then none
  else lowestRun 0 256 (t.spad / 4) (s.unitsTaken c Less.none)

/-- Does a role's budget hold the blocks of an evicted group again (R88, R371)? -/
def State.blocksBack (s : State) (k g : Nat) : Bool :=
  let h := s.hartOf (.group k g)
  decide (s.roleHeld k h.role + popcount h.held.toNat 4 ≤ (s.teamOf k).budgetOf h.role)

/-- The first evicted group of a resident team that its core can take back, with its quadrant. -/
def State.groupBack (s : State) (k : Nat) : Option Nat :=
  let t := s.teamOf k
  if !t.live || t.absent || !(s.ctx t.asid).valid then none
  else (s.liveGids k).find? fun g =>
    let h := s.hartOf (.group k g)
    h.evicted && s.groupRoom t.core ⟨1, popcount h.held.toNat 4, 0⟩ Less.evicted && s.blocksBack k g

/-- Does a team or a group of a higher prio return first? -/
def State.higherBack (s : State) (prio : Nat) : Bool :=
  s.teams.any fun (t : Nat × Team) => t.2.live && decide (prio < t.2.prio)
    && ((s.groupBack t.1).isSome || (t.2.absent && allCores.any fun c => (s.takesBack t.1 c).isSome))

/-- A group returns to a quadrant with its saved state; a saved state that cannot be read ends it (R199). Its core keeps no line that is older than the group's own stores (R22, R216), and a region that was open at the eviction fails now (R410). -/
def State.returnGroup (s : State) (k g quad : Nat) : State :=
  let i := HartId.group k g
  match s.loadGroup k g with
  | .error _ => s.spillLost k g (BitVec.ofNat 64 (s.hartOf i).savedBase)
  | .ok h =>
    let s := s.setHartOf i { h with quad := quad, evicted := false }
    let c := (s.teamOf k).core
    let s := s.setCoreOf c { s.coreOf c with l1 := [] }
    match h.region with
    | some r => s.failRegion k g (reasonOf (r.doomed.getD .evicted))
    | none => s

/-- A team returns to a core: its entry has its new place there, its ring is replayed, and then its groups and its stream go on. A group whose blocks its role no longer has waits for them (R88). -/
def State.returnTeam (s : State) (k c base : Nat) : State :=
  let t := s.teamOf k
  let gs := s.liveGids k
  let quads := (takeQuads gs.length (s.quadLoad c Less.evicted)).1
  let slot := s.freeSlot c
  let s := if (s.coreOf c).ports.any fun e => e.valid && e.team == k then
      s.mapEntries k fun d e => if d = c then { e with pbase := base } else e
    else match s.entryOf k with
      | none => s
      | some e => let x := s.coreOf c; s.setCoreOf c { x with ports := addPort { e with pbase := base } x.ports }
  let s := s.setTeamOf k { t with absent := false, core := c, slot := slot, pbase := base }
  let s := s.replayRing k
  let s := s.modSeq k fun q => if q.st = .saved then { q with st := .running } else q
  ((List.range gs.length).zip gs).foldl (fun (s : State) (x : Nat × Nat) =>
    if s.blocksBack k x.2 then s.returnGroup k x.2 (quads.getD x.1 0) else s) s

/-- TEAM_RESTORE: a team that was evicted whole returns, the highest prio first, and before new placements of equal or lower prio. -/
def execTeamRestore (team core : Nat) (s : State) : Out :=
  let t := s.teamOf team
  match s.takesBack team core with
  | none => .next s
  | some base =>
    if s.higherFirst t.prio || s.higherBack t.prio then .next s
    else if !s.ringReady team then .next (s.checkRing team)
    else .next (s.returnTeam team core base)

/-- GROUP_RESTORE: an evicted group of a resident team returns to its core. -/
def execGroupRestore (team : Nat) (s : State) : Out :=
  let t := s.teamOf team
  match s.groupBack team with
  | none => .next s
  | some g =>
    if s.higherFirst t.prio || s.higherBack t.prio then .next s
    else .next (s.returnGroup team g (leastQuad (s.quadLoad t.core Less.evicted)))

/-- Could an evicted team or group of at least a prio return now? -/
def State.backFirst (s : State) (prio : Nat) : Bool :=
  s.teams.any fun (t : Nat × Team) => t.2.live && decide (prio ≤ t.2.prio)
    && ((s.groupBack t.1).isSome || (t.2.absent && allCores.any fun c => (s.takesBack t.1 c).isSome))

/-! ## Placement of other teams (R345, R90) -/

/-- TEAM_PLACE: the next team of an entry, or its whole gang, is placed; an accepted award starts on its core. Higher prio goes first, then the earlier entry, and evicted teams of at least the entry's prio go before it. -/
def execTeamPlace (entry : Nat) (s : State) : Out :=
  match s.ready[entry]? with
  | none => .next s
  | some e =>
    let turn := e.awarded.isSome
      || (decide (e.prio < 10) && !s.poolPending && s.firstOfPrio e && !s.higherFirst e.prio && !s.backFirst e.prio)
    if !turn then .next s
    else if !s.entryValid e then .next (s.refusePlace e.launch e.node)
    else match s.placeEntry entry e with
      | some t => .next (s.withImages e t)
      | none => .next s

/-! ## Bank-core jobs (R371) -/

/-- BANK_JOB_SUSPEND: at a chunk boundary the job gives way to an urgent node's job (R289, R371); a START that is refused leaves it running, and the node has failed (R344). -/
def execBankJobSuspend (launch node : Nat) (s : State) : Out :=
  match s.nodeRun launch node, mfind launch s.launches with
  | some n, some l =>
    let (rec, b) := kind1Parms n.node.kparm
    let x := s.bankOf b
    if n.node.kind ≠ 1 ∨ n.status ≠ .ready ∨ !s.displaces n ∨ !x.chunk then .next s
    else match s.startRecord (nodeKey launch node) b l.asid false rec with
      | .error e => .next (s.nodeStarted launch node l.asid (.error e))
      | .ok r =>
        let j : BankJob := { hart := s.hartOf (.bank b), region := x.region, owner := x.owner, mail := x.mail, prio := x.prio, job := x.job }
        let s := (s.beginJob b l.asid n.node.prio (some (launch, node)) r).changeNode launch node fun n => { n with status := .running }
        .next ((s.setBankOf b { s.bankOf b with suspended := some j }).forgetDevice (nodeKey launch node))
  | _, _ => .next s

/-! ## Parked faults (R368, R369) -/

/-- The path that is parked with a fault serial of an ASID. -/
def State.parkedAt (s : State) (asid : Nat) (serial : BitVec 32) : Option (Nat × Nat × Bool) :=
  s.teams.findSome? fun (t : Nat × Team) =>
    if !t.2.live then none
    else (s.liveGids t.1).findSome? fun g =>
      let h := s.hartOf (.group t.1 g)
      if h.asid.toNat ≠ asid || h.evicted then none
      else ([false, true].find? fun p => (h.path p).susp == some (.parked serial)).map fun p => (t.1, g, p)

/-- FAULT_RING_APPEND: a fault that waits for room in the fault ring is tried again. -/
def execFaultRingAppend (team gid : Nat) (path : Bool) (s : State) : Out :=
  let h := s.hartOf (.group team gid)
  match (h.path path).susp with
  | some (.ringRoom kind tval epc lanes) =>
    if h.live && !h.evicted then .next (s.pushFault team gid path kind tval epc lanes) else .next s
  | _ => .next s

/-- PARKED_RESUME: the path executes its faulting instruction again. -/
def execParkedResume (asid : Nat) (serial : BitVec 32) (s : State) : Out :=
  match s.parkedAt asid serial with
  | some (k, g, p) => .next (s.wake k g p none)
  | none => .next s

/-- PARKED_KILL: the group ends as an unhandled PAGE_FAULT. -/
def execParkedKill (asid : Nat) (serial : BitVec 32) (s : State) : Out :=
  match s.parkedAt asid serial with
  | some (k, g, _) => .next (s.endGroup k g (some Cause.pageFault.code))
  | none => .next s

end Sys2Proof.Machine
end

