-- ==== Sys2Proof/Machine/Service.lean ====
section
/-! DEFINITION. Boot and firmware images (R419, R420), the control space (R421), Ultra Ethernet (R422), attestation (R423), the Muster (R424), corrected errors (R425), the Stopwatch and the debug port (R426, R427), and thermal limits (R428). -/

namespace Sys2Proof.Machine

def State.mapService (s : State) (f : Service → Service) : State := { s with service := f s.service }

/-! ## Boot -/

/-- Why an image is refused (R420), with the code that the error-log entry carries (log 40). -/
inductive ImageFault where
  | header | digest | signature
deriving DecidableEq, Repr
def ImageFault.code : ImageFault → BitVec 7
  | .header => 1 | .digest => 2 | .signature => 3

/-- Does a header keep every row of the table of R420 for a kind of image? -/
def headerOk (kind : Nat) (i : BootImage) : Bool :=
  let f := field i.header
  i.header.length == 128 && f 0 4 == 0x53485246 && f 4 1 == kind && f 5 3 == 0 && decide ((Config.fusedVersion kind).toNat ≤ f 8 4)
    && f 12 4 == i.body.length && f 12 4 % 64 == 0 && decide (f 12 4 ≤ 2 ^ 28)
    && decide (f 16 8 ≤ f 24 8) && decide (f 24 8 < f 16 8 + f 12 4) && f 64 32 == 0
    && BitVec.ofNat 256 (f 96 32) == Config.fusedKey kind

/-- The verification of an image (R420): header, digest, signature. -/
def imageFault (kind : Nat) (i : BootImage) : Option ImageFault :=
  if !headerOk kind i then some .header
  else if BitVec.ofNat 256 (field i.header 32 32) != Config.sha256 i.body then some .digest
  else if i.signature.length != 2668 || !Config.lmsVerifies kind (i.header.take 96 ++ i.body) i.signature then some .signature
  else none

/-- A stage of the boot ROM has failed: it is logged, the ROM stops there, and FAULT goes low. -/
def State.bootFailed (s : State) (kind : Nat) (f : ImageFault) : State :=
  (s.logError .boot f.code kind 0 0 0).mapService fun v => { v with boot := .failed kind, faultPin := true }

/-- A verified image is loaded at its address, where that lies in the memory views, and its digest is kept (log 41). -/
def State.loadImage (s : State) (kind : Nat) (i : BootImage) : State :=
  (s.physPoke (field i.header 16 8) i.body).mapService fun v =>
    { v with digests := modifyAt (fun _ => BitVec.ofNat 256 (field i.header 32 32)) kind v.digests }

/-- Step 1: the memories train, and every scratchpad, tag, register file and cache is cleared. -/
def State.trained (s : State) : State :=
  { s with harts := [], teams := [], cores := [], banks := [], dirty := [] }.mapService fun v => { v with boot := .trained }

/-- The code of an image starts: the resident service on Shepherd core 0, at its entry address (R419, R420). The spec gives the Drover's firmware and the fabric manager no pc of their own. -/
def State.startCode (s : State) (kind : Nat) (i : BootImage) : State :=
  if kind = 1 then s.setShepherd 0 { s.shepherd 0 with pc := BitVec.ofNat 64 (field i.header 24 8) } else s

/-- Verifies and loads the image of a kind, and goes on to a stage. -/
def State.bootImage (s : State) (kind : Nat) (images : List BootImage) (next : BootStage) : State :=
  match s.service.boot with
  | .failed _ => s
  | _ =>
    let i := images.getD kind default
    match imageFault kind i with
    | some f => s.bootFailed kind f
    | none => ((s.loadImage kind i).startCode kind i).mapService fun v => { v with boot := next }

/-- BOOT: the sequence of R419 from reset; a device that is not the manager waits until the manager has written its device number and a route, and then opens its ports. -/
def execBoot (images : List BootImage) (manager : Bool) (s : State) : Out :=
  let opened := fun (s : State) => match s.service.boot with
    | .failed _ => s
    | _ => s.mapService fun v => { v with boot := .open }
  match s.service.boot with
  | .reset =>
    let s := (s.trained.bootImage 0 images .drover).bootImage 1 images .service
    if manager then .next (opened (s.bootImage 2 images .manager))
    else match s.service.boot with
      | .failed _ => .next s
      | _ => .next (s.mapService fun v => { v with boot := .awaitManager })
  | .awaitManager => .next (if s.fabric.routes.isEmpty || !s.fabric.numbered then s else opened s)
  | _ => .next s

/-! ## The control space (R421) -/

/-- A queue descriptor as it is written (R333). -/
def queueFrom (d : BitVec 256) : Queue :=
  { windex := d.extractLsb' 224 32, rindex := d.extractLsb' 192 32, asid := (d.extractLsb' 128 12).toNat, ridx := d.extractLsb' 64 64,
    ring := (d.extractLsb' 8 56 ++ 0#8 : BitVec 64), maxprio := (d.extractLsb' 4 4).toNat, lsize := (d.extractLsb' 0 4).toNat }

/-- QUEUE_DESCRIPTOR_WRITE: an unmapped queue is mapped; a mapped one is only unmapped, and not while it has a live launch or a held command (R333, R421). -/
def execQueueDescriptorWrite (q : Nat) (desc : BitVec 256) (s : State) : Out :=
  let old := s.queueOf q
  let new := queueFrom desc
  if 32 ≤ q then .next s
  else if old.lsize ≠ 0 then
    if new.lsize = 0 ∧ s.liveOf q = 0 ∧ (s.drover q).st ≠ .full then .next (s.setQueue q { old with lsize := 0 }) else .next s
  else if new.lsize = 0 then .next s
  else .next ((s.setQueue q new).setDrover q Drover.idle)

/-- A port translation entry as it is written (R204), for the team of the entry that it replaces. -/
def portFrom (v : BitVec 512) (team : Nat) : PortEntry :=
  { ring := (0#8 ++ v.extractLsb' 72 50 ++ 0#6 : BitVec 64), asid := (v.extractLsb' 52 12).toNat, wbase := (v.extractLsb' 44 8).toNat,
    size := (v.extractLsb' 35 9).toNat, pbase := (v.extractLsb' 27 8).toNat, absent := v.getLsbD 1, valid := v.getLsbD 0, team := team }

/-- CONTROL_SPACE_WRITE: a store of the resident service to a register of the control space. -/
def execControlSpaceWrite (reg : CtlReg) (v : BitVec 512) (s : State) : Out :=
  match reg with
  | .contextBase => .next (s.mapService fun x => { x with ctxBase := v.extractLsb' 0 64 })
  | .sidecarBase => .next (s.mapService fun x => { x with sidecar := v.extractLsb' 0 64 })
  | .key asid => .next (s.mapService fun x => { x with keys := mset asid v x.keys })
  | .errorLog => .next (s.mapService fun x => { x with logBase := v.extractLsb' 0 64, logSize := v.extractLsb' 64 64 })
  | .haltOnDbg asid =>
    .next (s.mapService fun x => { x with haltDbg := if v.getLsbD 0 then insertNew asid x.haltDbg else x.haltDbg.filter (· != asid) })
  | .portEntry core i =>
    let c := s.coreOf core
    if 288 ≤ core ∨ 16 ≤ i then .next s
    else
      let ports := c.ports ++ List.replicate (i + 1 - c.ports.length) default
      .next (s.setCoreOf core { c with ports := modifyAt (fun e => portFrom v e.team) i ports })

/-- SHASID_WRITE: machine mode sets the ASID of the process on a hart (R336). -/
def execShasidWrite (hart : Nat) (v : BitVec 64) (s : State) : Out := .next (if hart < 16 then { s with shasid := mset hart v s.shasid } else s)

/-! ## Ultra Ethernet (R422) -/

def State.ueReplies (s : State) (bs : List Byte) : State := s.mapService fun v => { v with ueReply := bs }
/-- An error completion, and a completion with data (log 43). -/
def ueError : List Byte := [1]
def ueDone (bs : List Byte) : List Byte := 0 :: bs

/-- May an incoming operation name a queue: the ports are open and the queue is mapped? -/
def State.ueQueue (s : State) (q : Nat) : Option Queue :=
  let d := s.queueOf q
  if s.service.boot == .open && decide (q < 32) && d.lsize != 0 then some d else none

/-- Do all pages of a range translate for an access of a context in user mode? -/
def State.spanOk (s : State) (asid : Nat) (acc : Access) (va n : Nat) : Bool :=
  (pieces 65536 (n + 1) va n).all fun p => match s.vplace none asid false acc p.1 with
    | .ok _ => true
    | .error _ => false

/-- The packets that are on their way to other devices: destination and number. -/
def State.onWay (s : State) : List (Nat × Word32) :=
  (s.fabric.unacked ++ s.fabric.fsJobs.map (·.pkt)).map fun p => (p.dst.toNat, p.seq)
/-- The packets that a write has sent, from the states before and after it. -/
def State.sentSince (s t : State) : List (Nat × Word32) := t.onWay.filter fun p => !s.onWay.contains p
/-- An operation joins those that wait for other devices. -/
def State.ueLater (s : State) (w : UeWork) : State := s.mapService fun v => { v with ueWorks := v.ueWorks ++ [w] }

/-- UE_RMA_WRITE: performed under the queue's ASID, whole or not at all; it is answered when its parts on other devices are acknowledged, so performed at `.sys` (R422). -/
def execUeRmaWrite (q : Nat) (addr : BitVec 64) (data : List Byte) (s : State) : Out :=
  match s.ueQueue q with
  | none => .next s
  | some d =>
    if !s.spanOk d.asid .write addr.toNat data.length then .next (s.ueReplies ueError)
    else match s.vwrite d.asid false addr.toNat data with
      | .ok t => .next (match s.sentSince t with | [] => t.ueReplies (ueDone []) | ps => t.ueLater (.write ps))
      | .error _ => .next (s.ueReplies ueError)

/-- The least key above all other works of the device that no waiting read has. -/
def State.ueKey (s : State) : Nat :=
  let ks := s.service.ueWorks.filterMap fun w => match w with | .read key _ _ _ => some key | _ => none
  2 ^ 65 + ((List.range (ks.length + 1)).find? fun i => !decide (2 ^ 65 + i ∈ ks)).getD 0

/-- A read goes on under a key: it is answered, or names what it still needs of other devices. -/
def State.ueRead (s : State) (key q addr len : Nat) : Except (List (Nat × Nat)) State :=
  match s.vfetch key (s.queueOf q).asid false addr len with
  | .ok bs => .ok ((s.ueReplies (ueDone bs)).forgetDevice key)
  | .error (.fault _) => .ok ((s.ueReplies ueError).forgetDevice key)
  | .error (.ask reqs) => .error reqs

/-- UE_RMA_READ: answered with the bytes, on whichever device they lie. -/
def execUeRmaRead (q : Nat) (addr : BitVec 64) (len : Nat) (s : State) : Out :=
  match s.ueQueue q with
  | none => .next s
  | some _ =>
    let key := s.ueKey
    .next (match s.ueRead key q addr.toNat len with
      | .ok t => t
      | .error reqs => (s.ueLater (.read key q addr.toNat len)).askDevice key (s.queueOf q).asid reqs)

/-- Is an operation a command for a queue, and is it on its way? -/
def UeWork.sendsTo (q : Nat) : UeWork → Bool
  | .send r _ _ => r == q
  | _ => false
def UeWork.sentTo (q : Nat) : UeWork → Bool
  | .send r _ sent => r == q && sent.isSome
  | _ => false

/-- A command stands in the ring below a write index: it is submitted under the queue's own ASID (R337). -/
def State.ueSubmit (s : State) (q : Nat) (w : Word32) : State :=
  let d := s.queueOf q
  if d.lsize = 0 then s.ueReplies ueError
  else ({ s.setQueue q { d with windex := if (w - d.windex).toNat < 2 ^ 31 then w else d.windex } with waits := s.waits ++ [(q, w)] }).ueReplies (ueDone [])

/-- A command is written at the write index, and submitted when it stands there; a full ring refuses it (R337). -/
def State.ueStore (s : State) (q : Nat) (cmd : BitVec 512) : State :=
  let d := s.queueOf q
  let w := d.windex + 1
  if d.lsize = 0 ∨ 2 ^ d.lsize < (w - d.rindex).toNat then s.ueReplies ueError
  else match s.vwrite d.asid false { d with rindex := d.windex }.entryAt (leBytes 64 cmd.toNat) with
    | .error _ => s.ueReplies ueError
    | .ok t => match s.sentSince t with
      | [] => t.ueSubmit q w
      | ps => t.ueLater (.send q cmd (some (w, ps)))

/-- UE_SEND: the payload becomes a command of the queue, behind those that have come for it before. -/
def execUeSend (q : Nat) (cmd : BitVec 512) (s : State) : Out :=
  match s.ueQueue q with
  | none => .next s
  | some _ => .next (if s.service.ueWorks.any (UeWork.sendsTo q) then s.ueLater (.send q cmd none) else s.ueStore q cmd)

/-- UE_TRY, the model's own turn: an operation that waits for other devices goes on: a read whose data has come, a write whose packets are acknowledged, a command in its order. -/
def State.ueTry (i : Nat) (s : State) : Out :=
  let works := s.service.ueWorks
  let still := fun (ps : List (Nat × Word32)) => ps.any s.onWay.contains
  let gone := s.mapService fun v => { v with ueWorks := removeAt i works }
  .next (match works[i]? with
    | none => s
    | some (.read key q addr len) => match gone.ueRead key q addr len with
      | .ok t => t
      | .error reqs => s.askDevice key (s.queueOf q).asid reqs
    | some (.write ps) => if still ps then s else gone.ueReplies (ueDone [])
    | some (.send q _ (some (w, ps))) => if still ps then s else gone.ueSubmit q w
    | some (.send q cmd none) => if works.any (UeWork.sentTo q) || (works.take i).any (UeWork.sendsTo q) then s else gone.ueStore q cmd)

/-- UE_UNSUPPORTED_PACKET: dropped and counted. -/
def execUeUnsupportedPacket (_service : UeService) (s : State) : Out :=
  .next (s.mapService fun v => { v with ueDropped := v.ueDropped + 1 })

/-! ## Attestation (R423) -/

/-- The first 148 bytes of the quote with one-time key q. -/
def State.quoteBytes (s : State) (q : Nat) (nonce : BitVec 256) : List Byte :=
  leBytes 4 0x51534B39 ++ leBytes 4 q ++ leBytes 4 (32767 - q) ++ leBytes 4 s.fabric.device.toNat ++ leBytes 32 nonce.toNat
    ++ ((List.range 3).flatMap fun k => leBytes 32 (s.service.digests.getD k 0).toNat)
    ++ ((List.range 3).flatMap fun k => leBytes 1 (Config.fusedVersion k).toNat) ++ [0]

/-- ATTESTATION_QUOTE: signed with the next unused one-time key; with none left the request is refused. -/
def execAttestationQuote (nonce : BitVec 256) (s : State) : Out :=
  let q := s.service.oneTime
  if 32768 ≤ q then .next s
  else
    let m := s.quoteBytes q nonce
    .next (s.mapService fun v => { v with oneTime := q + 1, quote := m ++ Config.lmsSign q m })

/-! ## The Muster (R424) -/

/-- MUSTER_REQUEST: a summary is asked for; while one is under way, another request is refused and the register reads 1. -/
def execMusterRequest (addr : BitVec 64) (s : State) : Out :=
  .next (s.mapService fun v =>
    if v.mustering.isSome then { v with muster := 1 } else { v with muster := addr, mustering := some addr })

/-- The record of a queue in a summary (R424; the places of its fields are log 44). -/
def State.queueRecord (s : State) (q : Nat) : List Byte :=
  let d := s.queueOf q
  let st : Nat := if d.lsize = 0 then 0 else match (s.drover q).st with
    | .idle => 1
    | .fetch => 2
    | .check => 2
    | .full => 3
  leBytes 4 d.rindex.toNat ++ leBytes 4 d.windex.toNat ++ leBytes 4 d.asid ++ leBytes 4 d.lsize ++ leBytes 4 st ++ List.replicate 12 0

def State.musterLaunches (s : State) : List Launch := (s.launches.filter fun (l : Nat × Launch) => l.2.queue.isSome).map (·.2)
/-- The teams that hold a context: resident, or evicted. -/
def State.musterTeams (s : State) : List (Nat × Team) := s.teams.filter fun (t : Nat × Team) => t.2.live
def State.musterRegions (s : State) : List (Nat × Nat × Region) :=
  s.harts.filterMap fun (x : HartId × Hart) => match x.1, x.2.region with
    | .group k g, some r => some (k, g, r)
    | _, _ => none
def State.musterWaves (s : State) : List (Nat × Nat × Wave) :=
  s.cores.flatMap fun (c : Nat × Core) => match c.2.fold with
    | none => []
    | some f => ((List.range f.waves.length).zip f.waves).filterMap fun (e : Nat × Option Wave) => match e.2 with
      | some w => if w.live then some (c.1, e.1, w) else none
      | none => none
def State.musterTenders (s : State) : List ReadyTeam :=
  s.bell.queue ++ s.bell.head.toList ++ (s.bell.window.toList.map fun w => w.task) ++ s.ready.filter fun e => e.awarded.isSome

/-- The lists of a summary. -/
def State.musterLists (s : State) : List Byte :=
  (s.musterLaunches.flatMap fun l =>
    leBytes 8 l.command.toNat ++ leBytes 8 (l.queue.getD 0) ++ l.nodes.flatMap fun n => leBytes 8 n.word)
  ++ (s.musterTeams.flatMap fun (t : Nat × Team) =>
    leBytes 2 t.2.asid ++ leBytes 2 t.2.core ++ leBytes 2 t.1 ++ leBytes 1 (s.liveGids t.1).length ++ leBytes 1 (if t.2.absent then 1 else 0))
  ++ (s.musterRegions.flatMap fun (r : Nat × Nat × Region) =>
    leBytes 4 (s.teamOf r.1).core ++ leBytes 2 r.2.1 ++ leBytes 2 (heldLines r.2.2.items))
  ++ (s.musterWaves.flatMap fun (w : Nat × Nat × Wave) =>
    leBytes 8 (handleOf (w.1, w.2.1, w.2.2.serial)).toNat ++ leBytes 8 w.2.2.status.code)
  ++ s.musterTenders.flatMap fun e =>
    let who := match (mfind e.launch s.launches).bind Launch.tenderer with
      | some (k, g) => k * 32 + g
      | none => 0
    leBytes 4 e.serial.toNat ++ leBytes 4 e.withdrawals ++ leBytes 8 who

/-- A summary, its completion word first. -/
def State.musterBytes (s : State) : List Byte :=
  let lists := s.musterLists
  let counts := leBytes 1 s.musterLaunches.length ++ leBytes 2 s.musterTeams.length ++ leBytes 1 s.musterRegions.length
    ++ leBytes 1 s.musterWaves.length ++ leBytes 1 s.musterTenders.length ++ leBytes 2 s.service.logHead.toNat
  leBytes 8 (2 ^ 63 + (1048 + lists.length)) ++ leBytes 8 (Config.freeCycle s.tick).toNat
    ++ ((List.range 32).flatMap s.queueRecord) ++ counts ++ lists

/-- MUSTER_COMPLETE: the summary is written, its completion word last. -/
def execMusterComplete (s : State) : Out :=
  match s.service.mustering with
  | none => .next s
  | some a =>
    let bs := s.musterBytes
    let t := (s.physPoke (a.toNat + 8) (bs.drop 8)).physPoke a.toNat (bs.take 8)
    .next (t.mapService fun v => { v with mustering := none })

/-! ## Errors, the Stopwatch, debug and heat -/

/-- The latest entry of the log for corrected errors of a unit. -/
def State.correctedEntry (s : State) (unit : Nat) : Option Nat :=
  ((List.range s.service.log.length).reverse).find? fun i => match s.service.log[i]? with
    | some e => e.1 == LogKind.corrected.code && e.2.2.1 == BitVec.ofNat 16 unit
    | none => false

/-- The entry of a log with its count raised. -/
def raiseCount (e : Byte × Byte × BitVec 16 × Word32 × Word64 × Word64) : Byte × Byte × BitVec 16 × Word32 × Word64 × Word64 :=
  (e.1, e.2.1, e.2.2.1, e.2.2.2.1, e.2.2.2.2.1, e.2.2.2.2.2 + 1)

/-- CORRECTED_ERROR: an entry of its own, or one more in the count of the unit's last entry; which of the two depends on time, and is a choice (R425). -/
def execCorrectedError (unit addr : Nat) (s : State) : Out :=
  let v := s.service
  match s.correctedEntry unit, s.choice with
  | some i, c + 1 =>
    let _ := c
    let t := s.chosen.mapService fun v => { v with log := modifyAt raiseCount i v.log }
    let n := (v.log[i]?).map fun e => e.2.2.2.2.2 + 1
    if v.logSize = 0 then .next t
    else .next (t.physPoke (v.logBase.toNat + 32 * (i % v.logSize.toNat) + 24) (leBytes 8 (n.getD 0).toNat))
  | some _, 0 => .next (s.chosen.logError .corrected 0 unit 0 0 (BitVec.ofNat 64 addr))
  | none, _ => .next (s.logError .corrected 0 unit 0 0 (BitVec.ofNat 64 addr))

def State.freeze (s : State) : State := s.mapService fun v => { v with frozen := true }

/-- STOPWATCH_WRITE: a store of 1 freezes the device. -/
def execStopwatchWrite (v : BitVec 64) (s : State) : Out := .next (if v = 1 then s.freeze else s)
/-- STOPW_N_FALL. -/
def execStopwNFall (s : State) : Out := .next s.freeze
/-- STOPWATCH_RESUME. -/
def execStopwatchResume (s : State) : Out := .next (s.mapService fun v => { v with frozen := false })

/-- DEBUG_RESUME: the port ends a suspension in DBG. -/
def execDebugResume (team gid : Nat) (path : Bool) (s : State) : Out :=
  let h := s.hartOf (.group team gid)
  .next (if h.live && !h.evicted && (h.path path).susp == some .debug then s.wake team gid path (some .go) else s)

/-- THERMAL_THROTTLE: a junction reading lowers the clock by a step at 105 °C and, from then on, at every reading that is not below 100 °C (R428). -/
def execThermalThrottle (celsius : Nat) (s : State) : Out :=
  .next (s.mapService fun v =>
    if 105 ≤ celsius ∨ (v.throttling ∧ 100 ≤ celsius) then { v with throttling := true, clock := v.clock - 100 }
    else if celsius < 100 then { v with throttling := false } else v)

/-- THERMAL_TRIP: at 115 °C the device freezes and drives FAULT low. -/
def execThermalTrip (celsius : Nat) (s : State) : Out :=
  .next (if 115 ≤ celsius then s.freeze.mapService fun v => { v with faultPin := true } else s)

end Sys2Proof.Machine
end

