-- ==== Sys2Proof/Machine/Dispatch.lean ====
section
/-! DEFINITION. The meaning of every instruction and event, one arm for each. -/

namespace Sys2Proof.Machine

/-- What one instruction or event does. -/
def exec (i : Instr) (s : State) : Host.Outcome State Fault Refusal :=
  match i with
  | .add d a b t => Sys2Proof.Machine.execAdd d a b t s
  | .sub d a b t => Sys2Proof.Machine.execSub d a b t s
  | .mul d a b t => Sys2Proof.Machine.execMul d a b t s
  | .mulh d a b t => Sys2Proof.Machine.execMulh d a b t s
  | .div d a b t => Sys2Proof.Machine.execDiv d a b t s
  | .rem d a b t => Sys2Proof.Machine.execRem d a b t s
  | .and d a b t => Sys2Proof.Machine.execAnd d a b t s
  | .or d a b t => Sys2Proof.Machine.execOr d a b t s
  | .xor d a b t => Sys2Proof.Machine.execXor d a b t s
  | .andn d a b t => Sys2Proof.Machine.execAndn d a b t s
  | .shl d a b t => Sys2Proof.Machine.execShl d a b t s
  | .shr d a b t => Sys2Proof.Machine.execShr d a b t s
  | .rol d a b t => Sys2Proof.Machine.execRol d a b t s
  | .min d a b t => Sys2Proof.Machine.execMin d a b t s
  | .max d a b t => Sys2Proof.Machine.execMax d a b t s
  | .sel d a b => Sys2Proof.Machine.execSel d a b s
  | .addi d a im => Sys2Proof.Machine.execAddi d a im s
  | .muli d a im => Sys2Proof.Machine.execMuli d a im s
  | .andi d a im => Sys2Proof.Machine.execAndi d a im s
  | .ori d a im => Sys2Proof.Machine.execOri d a im s
  | .xori d a im => Sys2Proof.Machine.execXori d a im s
  | .shli d a c => Sys2Proof.Machine.execShli d a c s
  | .shri d a h c => Sys2Proof.Machine.execShri d a h c s
  | .li d im => Sys2Proof.Machine.execLi d im s
  | .liw d l => Sys2Proof.Machine.execLiw d l s
  | .liwZ d l => Sys2Proof.Machine.execLiwZ d l s
  | .liwH d a l => Sys2Proof.Machine.execLiwH d a l s
  | .bfx d a l => Sys2Proof.Machine.execBfx d a l s
  | .bfi d a b l => Sys2Proof.Machine.execBfi d a b l s
  | .clz d a w => Sys2Proof.Machine.execClz d a w s
  | .ctz d a w => Sys2Proof.Machine.execCtz d a w s
  | .popc d a w => Sys2Proof.Machine.execPopc d a w s
  | .cmp d a b t => Sys2Proof.Machine.execCmp d a b t s
  | .cmpi d a im => Sys2Proof.Machine.execCmpi d a im s
  | .bra im => Sys2Proof.Machine.execBra im s
  | .brc a b cc l => Sys2Proof.Machine.execBrc a b cc l s
  | .brz a im => Sys2Proof.Machine.execBrz a im s
  | .brnz a im => Sys2Proof.Machine.execBrnz a im s
  | .jmp l => Sys2Proof.Machine.execJmp l s
  | .jmpReg a l => Sys2Proof.Machine.execJmpReg a l s
  | .call d l => Sys2Proof.Machine.execCall d l s
  | .callr d a => Sys2Proof.Machine.execCallr d a s
  | .ret a => Sys2Proof.Machine.execRet a s
  | .brm a im => Sys2Proof.Machine.execBrm a im s
  | .join => Sys2Proof.Machine.execJoin s
  | .looph => Sys2Proof.Machine.execLooph s
  | .exit => Sys2Proof.Machine.execExit s
  | .nop => Sys2Proof.Machine.execNop s
  | .yield => Sys2Proof.Machine.execYield s
  | .ld d a t l => Sys2Proof.Machine.execLd d a t l s
  | .st a b t l => Sys2Proof.Machine.execSt a b t l s
  | .ldaq d a t l => Sys2Proof.Machine.execLdaq d a t l s
  | .strl a b t l => Sys2Proof.Machine.execStrl a b t l s
  | .vld d a k l => Sys2Proof.Machine.execVld d a k l s
  | .vst d a k l => Sys2Proof.Machine.execVst d a k l s
  | .vlds d a b k l => Sys2Proof.Machine.execVlds d a b k l s
  | .vsts d a b k l => Sys2Proof.Machine.execVsts d a b k l s
  | .vldff d a k l => Sys2Proof.Machine.execVldff d a k l s
  | .vldx d a b k l => Sys2Proof.Machine.execVldx d a b k l s
  | .vstx d a b k l => Sys2Proof.Machine.execVstx d a b k l s
  | .tld d a chk l => Sys2Proof.Machine.execTld d a chk l s
  | .tst d a l => Sys2Proof.Machine.execTst d a l s
  | .putt d a l => Sys2Proof.Machine.execPutt d a l s
  | .ldc d a chk l => Sys2Proof.Machine.execLdc d a chk l s
  | .ldp d a chk l => Sys2Proof.Machine.execLdp d a chk l s
  | .taglk d a => Sys2Proof.Machine.execTaglk d a s
  | .tagins d a b => Sys2Proof.Machine.execTagins d a b s
  | .tagdel d a => Sys2Proof.Machine.execTagdel d a s
  | .amo d a b t l => Sys2Proof.Machine.execAmo d a b t l s
  | .amon a b t l => Sys2Proof.Machine.execAmon a b t l s
  | .vamo d a b u k l => Sys2Proof.Machine.execVamo d a b u k l s
  | .vamon d a b u k l => Sys2Proof.Machine.execVamon d a b u k l s
  | .cas d a b t l => Sys2Proof.Machine.execCas d a b t l s
  | .vcas d a b u k l => Sys2Proof.Machine.execVcas d a b u k l s
  | .nma a b t l => Sys2Proof.Machine.execNma a b t l s
  | .vnma d a b u k l => Sys2Proof.Machine.execVnma d a b u k l s
  | .fence sc => Sys2Proof.Machine.execFence sc s
  | .pref a dc l => Sys2Proof.Machine.execPref a dc l s
  | .cclean a l => Sys2Proof.Machine.execCclean a l s
  | .cinv a all l => Sys2Proof.Machine.execCinv a all l s
  | .tfill a b l => Sys2Proof.Machine.execTfill a b l s
  | .tempty a b l => Sys2Proof.Machine.execTempty a b l s
  | .ttag d a l => Sys2Proof.Machine.execTtag d a l s
  | .cflush a l => Sys2Proof.Machine.execCflush a l s
  | .vadd d a b u k => Sys2Proof.Machine.execVadd d a b u k s
  | .vsub d a b u k => Sys2Proof.Machine.execVsub d a b u k s
  | .vmul d a b u k => Sys2Proof.Machine.execVmul d a b u k s
  | .vmulh d a b u k => Sys2Proof.Machine.execVmulh d a b u k s
  | .vdiv d a b u k => Sys2Proof.Machine.execVdiv d a b u k s
  | .vrem d a b u k => Sys2Proof.Machine.execVrem d a b u k s
  | .vand d a b u k => Sys2Proof.Machine.execVand d a b u k s
  | .vor d a b u k => Sys2Proof.Machine.execVor d a b u k s
  | .vxor d a b u k => Sys2Proof.Machine.execVxor d a b u k s
  | .vshl d a b u k => Sys2Proof.Machine.execVshl d a b u k s
  | .vshr d a b u k => Sys2Proof.Machine.execVshr d a b u k s
  | .vmin d a b u k => Sys2Proof.Machine.execVmin d a b u k s
  | .vmax d a b u k => Sys2Proof.Machine.execVmax d a b u k s
  | .vabs d a k => Sys2Proof.Machine.execVabs d a k s
  | .vneg d a k => Sys2Proof.Machine.execVneg d a k s
  | .vmerge d a b k => Sys2Proof.Machine.execVmerge d a b k s
  | .vfadd d a b u k => Sys2Proof.Machine.execVfadd d a b u k s
  | .vfsub d a b u k => Sys2Proof.Machine.execVfsub d a b u k s
  | .vfmul d a b u k => Sys2Proof.Machine.execVfmul d a b u k s
  | .vfdiv d a b u k => Sys2Proof.Machine.execVfdiv d a b u k s
  | .vfma d a b u k => Sys2Proof.Machine.execVfma d a b u k s
  | .vfms d a b u k => Sys2Proof.Machine.execVfms d a b u k s
  | .vfnma d a b u k => Sys2Proof.Machine.execVfnma d a b u k s
  | .vfmin d a b u k => Sys2Proof.Machine.execVfmin d a b u k s
  | .vfmax d a b u k => Sys2Proof.Machine.execVfmax d a b u k s
  | .vfabs d a u k => Sys2Proof.Machine.execVfabs d a u k s
  | .vfneg d a u k => Sys2Proof.Machine.execVfneg d a u k s
  | .vfsqrt d a u k => Sys2Proof.Machine.execVfsqrt d a u k s
  | .vfrsq d a u k => Sys2Proof.Machine.execVfrsq d a u k s
  | .vfrcp d a u k => Sys2Proof.Machine.execVfrcp d a u k s
  | .vfexp d a u k => Sys2Proof.Machine.execVfexp d a u k s
  | .vflog d a u k => Sys2Proof.Machine.execVflog d a u k s
  | .vftanh d a u k => Sys2Proof.Machine.execVftanh d a u k s
  | .vfsin d a u k => Sys2Proof.Machine.execVfsin d a u k s
  | .vfcos d a u k => Sys2Proof.Machine.execVfcos d a u k s
  | .vfclass d a u k => Sys2Proof.Machine.execVfclass d a u k s
  | .vcmpeq d a b u k => Sys2Proof.Machine.execVcmpeq d a b u k s
  | .vcmpne d a b u k => Sys2Proof.Machine.execVcmpne d a b u k s
  | .vcmplt d a b u k => Sys2Proof.Machine.execVcmplt d a b u k s
  | .vcmple d a b u k => Sys2Proof.Machine.execVcmple d a b u k s
  | .vfcmpeq d a b u k => Sys2Proof.Machine.execVfcmpeq d a b u k s
  | .vfcmplt d a b u k => Sys2Proof.Machine.execVfcmplt d a b u k s
  | .vfcmple d a b u k => Sys2Proof.Machine.execVfcmple d a b u k s
  | .vfcmpun d a b u k => Sys2Proof.Machine.execVfcmpun d a b u k s
  | .vcvt d a c e k => Sys2Proof.Machine.execVcvt d a c e k s
  | .vquant d a q u => Sys2Proof.Machine.execVquant d a q u s
  | .vdeq d a u k => Sys2Proof.Machine.execVdeq d a u k s
  | .vmv d a k => Sys2Proof.Machine.execVmv d a k s
  | .vredsum d a b u k => Sys2Proof.Machine.execVredsum d a b u k s
  | .vredmax d a b u k => Sys2Proof.Machine.execVredmax d a b u k s
  | .vredmin d a b u k => Sys2Proof.Machine.execVredmin d a b u k s
  | .vfredsum d a b u k => Sys2Proof.Machine.execVfredsum d a b u k s
  | .vfredmax d a b u k => Sys2Proof.Machine.execVfredmax d a b u k s
  | .vfredmin d a b u k => Sys2Proof.Machine.execVfredmin d a b u k s
  | .vscan d a b k => Sys2Proof.Machine.execVscan d a b k s
  | .vfscan d a b u k => Sys2Proof.Machine.execVfscan d a b u k s
  | .vslideup d a b k => Sys2Proof.Machine.execVslideup d a b k s
  | .vslidedn d a b k => Sys2Proof.Machine.execVslidedn d a b k s
  | .vrgather d a b k => Sys2Proof.Machine.execVrgather d a b k s
  | .vcompress d a k => Sys2Proof.Machine.execVcompress d a k s
  | .vid d k => Sys2Proof.Machine.execVid d k s
  | .viota d a k => Sys2Proof.Machine.execViota d a k s
  | .vsortk d a b u e => Sys2Proof.Machine.execVsortk d a b u e s
  | .vbcast d a k => Sys2Proof.Machine.execVbcast d a k s
  | .setvl d a b => Sys2Proof.Machine.execSetvl d a b s
  | .setvli d a c => Sys2Proof.Machine.execSetvli d a c s
  | .mand d a b => Sys2Proof.Machine.execMand d a b s
  | .mor d a b => Sys2Proof.Machine.execMor d a b s
  | .mxor d a b => Sys2Proof.Machine.execMxor d a b s
  | .mandn d a b => Sys2Proof.Machine.execMandn d a b s
  | .mnot d a => Sys2Proof.Machine.execMnot d a s
  | .mpop d a k => Sys2Proof.Machine.execMpop d a k s
  | .mfirst d a k => Sys2Proof.Machine.execMfirst d a k s
  | .emget d g => Sys2Proof.Machine.execEmget d g s
  | .emset a g => Sys2Proof.Machine.execEmset a g s
  | .mma d a b l => Sys2Proof.Machine.execMma d a b l s
  | .mmaAdp d a b l => Sys2Proof.Machine.execMmaAdp d a b l s
  | .adpfin d b l => Sys2Proof.Machine.execAdpfin d b l s
  | .mzero d => Sys2Proof.Machine.execMzero d s
  | .mldacc d a b f l => Sys2Proof.Machine.execMldacc d a b f l s
  | .mdrain d a b f add l => Sys2Proof.Machine.execMdrain d a b f add l s
  | .mfence a n => Sys2Proof.Machine.execMfence a n s
  | .mbara j n => Sys2Proof.Machine.execMbara j n s
  | .mbarw n => Sys2Proof.Machine.execMbarw n s
  | .mloop d l => Sys2Proof.Machine.execMloop d l s
  | .mjmp l => Sys2Proof.Machine.execMjmp l s
  | .mend => Sys2Proof.Machine.execMend s
  | .adpld a l => Sys2Proof.Machine.execAdpld a l s
  | .adpinv a => Sys2Proof.Machine.execAdpinv a s
  | .msetbAdd d a b => Sys2Proof.Machine.execMsetbAdd d a b s
  | .msetbLd d a b => Sys2Proof.Machine.execMsetbLd d a b s
  | .msetbFmt a => Sys2Proof.Machine.execMsetbFmt a s
  | .msetbSeed a => Sys2Proof.Machine.execMsetbSeed a s
  | .msetbBind a => Sys2Proof.Machine.execMsetbBind a s
  | .msetbAdir a => Sys2Proof.Machine.execMsetbAdir a s
  | .mnop => Sys2Proof.Machine.execMnop s
  | .macq d a => Sys2Proof.Machine.execMacq d a s
  | .macqNc a => Sys2Proof.Machine.execMacqNc a s
  | .mrel a => Sys2Proof.Machine.execMrel a s
  | .mrelW a b => Sys2Proof.Machine.execMrelW a b s
  | .gath d a b k l => Sys2Proof.Machine.execGath d a b k l s
  | .scat d a b k l => Sys2Proof.Machine.execScat d a b k l s
  | .coll a l => Sys2Proof.Machine.execColl a l s
  | .waitc n k => Sys2Proof.Machine.execWaitc n k s
  | .astatCnt d a => Sys2Proof.Machine.execAstatCnt d a s
  | .astatChan d a => Sys2Proof.Machine.execAstatChan d a s
  | .astatFault d => Sys2Proof.Machine.execAstatFault d s
  | .nmsync => Sys2Proof.Machine.execNmsync s
  | .gcfg a => Sys2Proof.Machine.execGcfg a s
  | .gcfgUn => Sys2Proof.Machine.execGcfgUn s
  | .gmatch d a b l => Sys2Proof.Machine.execGmatch d a b l s
  | .gprop d a l => Sys2Proof.Machine.execGprop d a l s
  | .gwait d a => Sys2Proof.Machine.execGwait d a s
  | .gcollect d a b => Sys2Proof.Machine.execGcollect d a b s
  | .gclr a b => Sys2Proof.Machine.execGclr a b s
  | .gvld d a y => Sys2Proof.Machine.execGvld d a y s
  | .gvst d a y => Sys2Proof.Machine.execGvst d a y s
  | .gstat d a => Sys2Proof.Machine.execGstat d a s
  | .gabort a => Sys2Proof.Machine.execGabort a s
  | .bari a n => Sys2Proof.Machine.execBari a n s
  | .bara n => Sys2Proof.Machine.execBara n s
  | .barw n => Sys2Proof.Machine.execBarw n s
  | .baraw n => Sys2Proof.Machine.execBaraw n s
  | .syncw d a b => Sys2Proof.Machine.execSyncw d a b s
  | .mqw d a b sc => Sys2Proof.Machine.execMqw d a b sc s
  | .mqr d k => Sys2Proof.Machine.execMqr d k s
  | .refill d => Sys2Proof.Machine.execRefill d s
  | .itempush d a => Sys2Proof.Machine.execItempush d a s
  | .itempushClose d => Sys2Proof.Machine.execItempushClose d s
  | .tender d a l => Sys2Proof.Machine.execTender d a l s
  | .withdraw d a => Sys2Proof.Machine.execWithdraw d a s
  | .doneTask a => Sys2Proof.Machine.execDoneTask a s
  | .blkacq d a y => Sys2Proof.Machine.execBlkacq d a y s
  | .blkrel d a => Sys2Proof.Machine.execBlkrel d a s
  | .fbegin a l => Sys2Proof.Machine.execFbegin a l s
  | .fcommit d => Sys2Proof.Machine.execFcommit d s
  | .fabort => Sys2Proof.Machine.execFabort s
  | .csrr d c => Sys2Proof.Machine.execCsrr d c s
  | .csrw d a c => Sys2Proof.Machine.execCsrw d a c s
  | .csrs d a c => Sys2Proof.Machine.execCsrs d a c s
  | .csrc d a c => Sys2Proof.Machine.execCsrc d a c s
  | .trap c => Sys2Proof.Machine.execTrap c s
  | .eret => Sys2Proof.Machine.execEret s
  | .tlbinv a b => Sys2Proof.Machine.execTlbinv a b s
  | .tlbinvAsid b => Sys2Proof.Machine.execTlbinvAsid b s
  | .tlbinvAll => Sys2Proof.Machine.execTlbinvAll s
  | .cbld a b => Sys2Proof.Machine.execCbld a b s
  | .cbswap a => Sys2Proof.Machine.execCbswap a s
  | .bidld a b => Sys2Proof.Machine.execBidld a b s
  | .bidldWindow a => Sys2Proof.Machine.execBidldWindow a s
  | .dbg a => Sys2Proof.Machine.execDbg a s
  | .feat d => Sys2Proof.Machine.execFeat d s
  | .nzskip d a b l => Sys2Proof.Machine.execNzskip d a b l s
  | .rowf a => Sys2Proof.Machine.execRowf a s
  | .mbxr d a => Sys2Proof.Machine.execMbxr d a s
  | .haltb a => Sys2Proof.Machine.execHaltb a s
  | .submit rs2 rs1 rd => Sys2Proof.Machine.execSubmit rs2 rs1 rd s
  | .clauseExecute f => Sys2Proof.Machine.execClauseExecute f s
  | .boundaryCauseTaken team gid => Sys2Proof.Machine.execBoundaryCauseTaken team gid s
  | .pathWake team gid path => Sys2Proof.Machine.execPathWake team gid path s
  | .spareBlockLend team role => Sys2Proof.Machine.execSpareBlockLend team role s
  | .streamFault team => Sys2Proof.Machine.execStreamFault team s
  | .mmaRowCommit team mismatches => Sys2Proof.Machine.execMmaRowCommit team mismatches s
  | .adapterSegmentFill core => Sys2Proof.Machine.execAdapterSegmentFill core s
  | .adapterRowReplay team => Sys2Proof.Machine.execAdapterRowReplay team s
  | .batchClose team => Sys2Proof.Machine.execBatchClose team s
  | .streamStop team => Sys2Proof.Machine.execStreamStop team s
  | .putArrive im => Sys2Proof.Machine.execPutArrive im s
  | .putResend im => Sys2Proof.Machine.execPutResend im s
  | .pausedPutRetry team => Sys2Proof.Machine.execPausedPutRetry team s
  | .uncorrectableError team addr => Sys2Proof.Machine.execUncorrectableError team addr s
  | .correctedError unit addr => Sys2Proof.Machine.execCorrectedError unit addr s
  | .registerUncorrectable team gid => Sys2Proof.Machine.execRegisterUncorrectable team gid s
  | .asyncRefusalArrive im => Sys2Proof.Machine.execAsyncRefusalArrive im s
  | .storePerform team gid => Sys2Proof.Machine.execStorePerform team gid s
  | .l1LineExpire core line => Sys2Proof.Machine.execL1LineExpire core line s
  | .nearCommandApply team gid => Sys2Proof.Machine.execNearCommandApply team gid s
  | .nearAckCredit team gid => Sys2Proof.Machine.execNearAckCredit team gid s
  | .copyStartAccept team gid => Sys2Proof.Machine.execCopyStartAccept team gid s
  | .copyBegin team chan => Sys2Proof.Machine.execCopyBegin team chan s
  | .copyRowWrite team chan => Sys2Proof.Machine.execCopyRowWrite team chan s
  | .copyComplete team chan => Sys2Proof.Machine.execCopyComplete team chan s
  | .copyFault team chan => Sys2Proof.Machine.execCopyFault team chan s
  | .templateSlotWrite team gid => Sys2Proof.Machine.execTemplateSlotWrite team gid s
  | .syncWordRaise team => Sys2Proof.Machine.execSyncWordRaise team s
  | .gatherRowTransfer team job => Sys2Proof.Machine.execGatherRowTransfer team job s
  | .gatherComplete team job => Sys2Proof.Machine.execGatherComplete team job s
  | .bankStart team gid => Sys2Proof.Machine.execBankStart team gid s
  | .mailboxWrite team gid => Sys2Proof.Machine.execMailboxWrite team gid s
  | .bankJobSuspend launch node => Sys2Proof.Machine.execBankJobSuspend launch node s
  | .waveStart core entry => Sys2Proof.Machine.execWaveStart core entry s
  | .startMessageArrive im => Sys2Proof.Machine.execStartMessageArrive im s
  | .markerMessageArrive im => Sys2Proof.Machine.execMarkerMessageArrive im s
  | .dropNoticeArrive im => Sys2Proof.Machine.execDropNoticeArrive im s
  | .sweepAnswer core root entry => Sys2Proof.Machine.execSweepAnswer core root entry s
  | .sweepResult root entry => Sys2Proof.Machine.execSweepResult root entry s
  | .abortNoticeArrive im => Sys2Proof.Machine.execAbortNoticeArrive im s
  | .waitPacket q w => Sys2Proof.Machine.execWaitPacket q w s
  | .droverFetch q => Sys2Proof.Machine.execDroverFetch q s
  | .commandNop q => Sys2Proof.Machine.execCommandNop q s
  | .launch q => Sys2Proof.Machine.execLaunch q s
  | .nodeDispatch launch node => Sys2Proof.Machine.execNodeDispatch launch node s
  | .teamPlace entry => Sys2Proof.Machine.execTeamPlace entry s
  | .nodeComplete launch node => Sys2Proof.Machine.execNodeComplete launch node s
  | .bidWindowOpen => Sys2Proof.Machine.execBidWindowOpen s
  | .bidWindowClose => Sys2Proof.Machine.execBidWindowClose s
  | .awardAccept => Sys2Proof.Machine.execAwardAccept s
  | .urgentPlace entry => Sys2Proof.Machine.execUrgentPlace entry s
  | .groupEvict team gid => Sys2Proof.Machine.execGroupEvict team gid s
  | .streamEvictStop team => Sys2Proof.Machine.execStreamEvictStop team s
  | .teamRestore team core => Sys2Proof.Machine.execTeamRestore team core s
  | .groupRestore team => Sys2Proof.Machine.execGroupRestore team s
  | .faultRingAppend team gid path => Sys2Proof.Machine.execFaultRingAppend team gid path s
  | .parkedResume asid serial => Sys2Proof.Machine.execParkedResume asid serial s
  | .parkedKill asid serial => Sys2Proof.Machine.execParkedKill asid serial s
  | .queueDescriptorWrite q desc => Sys2Proof.Machine.execQueueDescriptorWrite q desc s
  | .controlSpaceWrite reg v => Sys2Proof.Machine.execControlSpaceWrite reg v s
  | .shasidWrite hart v => Sys2Proof.Machine.execShasidWrite hart v s
  | .messageFlitArrive im => Sys2Proof.Machine.execMessageFlitArrive im s
  | .fabricRead p => Sys2Proof.Machine.execFabricRead p s
  | .fabricWrite p => Sys2Proof.Machine.execFabricWrite p s
  | .fabricPut p => Sys2Proof.Machine.execFabricPut p s
  | .fabricAtomic p => Sys2Proof.Machine.execFabricAtomic p s
  | .combinedAtomic p => Sys2Proof.Machine.execCombinedAtomic p s
  | .readReply p => Sys2Proof.Machine.execReadReply p s
  | .acknowledgement p => Sys2Proof.Machine.execAcknowledgement p s
  | .atomicReply p => Sys2Proof.Machine.execAtomicReply p s
  | .stage p => Sys2Proof.Machine.execStage p s
  | .commit p => Sys2Proof.Machine.execCommit p s
  | .regionAbort p => Sys2Proof.Machine.execRegionAbort p s
  | .collectiveData p => Sys2Proof.Machine.execCollectiveData p s
  | .collectiveAbort p => Sys2Proof.Machine.execCollectiveAbort p s
  | .unknownPacketKind p => Sys2Proof.Machine.execUnknownPacketKind p s
  | .pathDown dst path => Sys2Proof.Machine.execPathDown dst path s
  | .orderedFlagSend team gid => Sys2Proof.Machine.execOrderedFlagSend team gid s
  | .commitPoint team gid => Sys2Proof.Machine.execCommitPoint team gid s
  | .regionFail team gid why => Sys2Proof.Machine.execRegionFail team gid why s
  | .collectiveStatusWrite im => Sys2Proof.Machine.execCollectiveStatusWrite im s
  | .contextKill asid => Sys2Proof.Machine.execContextKill asid s
  | .linkRetry link => Sys2Proof.Machine.execLinkRetry link s
  | .routeTableWrite dst path rec => Sys2Proof.Machine.execRouteTableWrite dst path rec s
  | .deviceNumberAssign n => Sys2Proof.Machine.execDeviceNumberAssign n s
  | .boot images manager => Sys2Proof.Machine.execBoot images manager s
  | .ueRmaWrite q addr data => Sys2Proof.Machine.execUeRmaWrite q addr data s
  | .ueRmaRead q addr len => Sys2Proof.Machine.execUeRmaRead q addr len s
  | .ueSend q cmd => Sys2Proof.Machine.execUeSend q cmd s
  | .ueUnsupportedPacket service => Sys2Proof.Machine.execUeUnsupportedPacket service s
  | .attestationQuote nonce => Sys2Proof.Machine.execAttestationQuote nonce s
  | .musterRequest addr => Sys2Proof.Machine.execMusterRequest addr s
  | .musterComplete => Sys2Proof.Machine.execMusterComplete s
  | .stopwatchWrite v => Sys2Proof.Machine.execStopwatchWrite v s
  | .stopwNFall => Sys2Proof.Machine.execStopwNFall s
  | .stopwatchResume => Sys2Proof.Machine.execStopwatchResume s
  | .debugResume team gid path => Sys2Proof.Machine.execDebugResume team gid path s
  | .thermalThrottle celsius => Sys2Proof.Machine.execThermalThrottle celsius s
  | .thermalTrip celsius => Sys2Proof.Machine.execThermalTrip celsius s

end Sys2Proof.Machine
end

