-- ==== Sys2Proof/Machine/Sched.lean ====
section
/-! DEFINITION. What comes next where the agenda names nothing: the device's own events that may be due, and the choice among them. An event that is not due leaves the state as it is. -/

namespace Sys2Proof.Machine

/-- A turn of the device: the meaning of an event with its arguments. -/
abbrev Turn := State → Out

/-- A turn, where it may be due. -/
def turnIf (b : Bool) (f : Turn) : List Turn := if b then [f] else []

/-- The event that performs the oldest entry of a store queue. -/
def SQEntry.turn (e : SQEntry) (k g : Nat) : Turn :=
  match e.op with
  | .copyStart _ _ => execCopyStartAccept k g
  | .template _ _ => execTemplateSlotWrite k g
  | .bankStart _ _ _ => execBankStart k g
  | .mailbox _ _ _ _ => execMailboxWrite k g
  | .flag _ _ => execOrderedFlagSend k g
  | _ => execStorePerform k g

/-- The event that a suspended path waits for; the debug port and the resident service act on their own. -/
def Wait.turns (w : Wait) (k g : Nat) (p : Bool) : List Turn :=
  match w with
  | .ringRoom _ _ _ _ => [execFaultRingAppend k g p]
  | .debug => []
  | .parked _ => []
  | _ => [execPathWake k g p]

/-- The failures from outside that an open region may have to take (R410). -/
def State.regionTurns (s : State) (k g : Nat) (r : Region) : List Turn :=
  turnIf (r.staged && r.awaiting.isEmpty) (execCommitPoint k g)
    ++ (r.doomed.toList.map fun why => execRegionFail k g why)
    ++ (((r.items.flatMap SQEntry.devices).eraseDups).filter fun d => !s.fabric.reachable d).map fun d =>
        execRegionFail k g (.unreachable (BitVec.ofNat 10 d))

/-- The events of a group: its stores and commands, ended or not, its causes, its waits, its region and its eviction. -/
def State.groupTurns (s : State) (k g : Nat) (h : Hart) : List Turn :=
  (h.sq.head?.toList.map fun e => e.turn k g)
    ++ turnIf (s.posted.any fun p => p.team == k && p.gid == g) (execStorePerform k g)
    ++ turnIf (!h.flags.isEmpty) (execOrderedFlagSend k g)
    ++ turnIf (!h.commits.isEmpty) (State.sendCommits k g)
    ++ turnIf (h.near.any fun c => !c.elems.isEmpty) (execNearCommandApply k g)
    ++ turnIf (h.near.any fun c => c.elems.isEmpty) (execNearAckCredit k g)
    ++ (if h.live then
          turnIf (!h.causes.isEmpty) (execBoundaryCauseTaken k g)
            ++ ([false, true].flatMap fun p => match (h.path p).susp with
                | some w => w.turns k g p
                | none => [])
            ++ (match h.region with | some r => s.regionTurns k g r | none => [])
            ++ turnIf (h.evictAsked || (h.evicted && !(s.teamOf k).absent && s.allEvicted k)) (execGroupEvict k g)
        else [])

/-- The events of a team's stream (R164, R170 to R178, R192, R371). -/
def Team.streamTurns (t : Team) (k : Nat) : List Turn :=
  let q := t.seq
  turnIf q.fault.isSome (execStreamFault k) ++ turnIf (!q.rows.isEmpty) (execMmaRowCommit k 0)
    ++ turnIf (q.rows.any IssuedRow.queued) (execAdapterRowReplay k) ++ turnIf (!q.batches.isEmpty) (execBatchClose k)
    ++ turnIf (q.stopAsked && q.st == .running) (execStreamStop k)
    ++ turnIf (q.evictAsked && q.st == .running) (execStreamEvictStop k)
    ++ turnIf q.issues (execClauseExecute ⟨.stream, k, 0, false, 0, 0⟩)

/-- Where a team that was evicted whole may return: its own core first. -/
def State.backCore (s : State) (k : Nat) : Nat :=
  let own := (s.teamOf k).core
  ((own :: allCores).find? fun c => (s.takesBack k c).isSome).getD own

/-- The events of a team. -/
def State.teamTurns (s : State) (k : Nat) (t : Team) : List Turn :=
  t.streamTurns k
    ++ (t.gathers.map fun x => if x.rows.isEmpty then execGatherComplete k x.job else execGatherRowTransfer k x.job)
    ++ turnIf (!t.raises.isEmpty) (execSyncWordRaise k)
    ++ turnIf (!t.absent && !t.bounced.isEmpty) (execPausedPutRetry k)
    ++ ((List.range t.roles.length).filter fun r => !(s.blockWaiters k r).isEmpty).map (fun r => execSpareBlockLend k r)
    ++ turnIf t.absent (execTeamRestore k (s.backCore k))
    ++ turnIf (!t.absent && (s.liveGids k).any fun g => (s.hartOf (.group k g)).evicted) (execGroupRestore k)

/-- The events of a copy (R265 to R273). -/
def Copy.turns (x : Copy) (chan : Nat) : List Turn :=
  match x.st with
  | .queued => [execCopyBegin x.team chan]
  | .running => [execCopyRowWrite x.team chan, execCopyComplete x.team chan]
  | .failed _ _ _ => [execCopyFault x.team chan]

/-- The events of a root fold's waves (R312 to R318). -/
def Fold.turns (f : Fold) (c : Nat) : List Turn :=
  ((List.range f.waves.length).zip f.waves).flatMap fun (e : Nat × Option Wave) => match e.2 with
    | none => []
    | some w => turnIf (w.status == .held) (execWaveStart c e.1)
        ++ turnIf (w.status == .running && w.asked.isEmpty) (execSweepResult c e.1)
        ++ (w.asked.head?.toList.map fun m => execSweepAnswer m c e.1)

/-- The events of a core: its quadrants, its copies, the adapter fetches and the waves of a root. -/
def State.coreTurns (s : State) (c : Nat) (x : Core) : List Turn :=
  (List.range 4).filterMap (fun q => (s.bestOn c q).map execClauseExecute)
    ++ x.chans.flatMap (fun (l : Nat × List Copy) => l.2.flatMap fun y => y.turns l.1)
    ++ turnIf (!x.fetches.isEmpty) (execAdapterSegmentFill c)
    ++ (match x.fold with | some f => f.turns c | none => [])

/-- The arrival of a packet of the mesh. -/
def Msg.turn (m : Msg) (i : Nat) : Turn :=
  match m.body with
  | .put _ _ _ _ _ _ _ => if m.refused then execPutResend i else execPutArrive i
  | .flit _ _ _ _ _ _ _ => execMessageFlitArrive i
  | .refusal _ _ => execAsyncRefusalArrive i
  | .start _ _ _ _ => execStartMessageArrive i
  | .marker _ _ _ _ _ _ _ _ _ => execMarkerMessageArrive i
  | .notice _ _ _ _ _ => execDropNoticeArrive i
  | .abort _ _ _ _ => execAbortNoticeArrive i

/-- The events of the Drover and the Bellwether (R338 to R352). -/
def State.launchTurns (s : State) : List Turn :=
  (s.waits.head?.toList.map fun w => execWaitPacket w.1 w.2)
    ++ s.drovers.flatMap (fun (q : Nat × Drover) => match q.2.st with
        | .idle => []
        | .fetch => [execDroverFetch q.1]
        | .check => [execCommandNop q.1, execLaunch q.1]
        | .full => [execLaunch q.1])
    ++ s.launches.flatMap (fun (l : Nat × Launch) => (List.range l.2.nodes.length).flatMap fun n =>
        [execNodeDispatch l.1 n, execBankJobSuspend l.1 n, execNodeComplete l.1 n])
    ++ (List.range s.ready.length).flatMap (fun i => [execTeamPlace i, execUrgentPlace i])
    ++ turnIf (s.bell.window.isNone && !s.bell.stalled && !(s.bell.queue.isEmpty && s.bell.head.isNone)) execBidWindowOpen
    ++ (match s.bell.window with
        | some w => if w.winner.isSome then [execAwardAccept] else [execBidWindowClose]
        | none => [])

/-- Every event of the device that may be due. What comes from outside (the fabric, the service, the debug port, errors, heat) stands in the agenda. -/
def State.turns (s : State) : List Turn :=
  s.cores.flatMap (fun (c : Nat × Core) => s.coreTurns c.1 c.2)
    ++ s.harts.flatMap (fun (x : HartId × Hart) => match x.1 with
        | .group k g => s.groupTurns k g x.2
        | .bank _ => [])
    ++ s.teams.flatMap (fun (t : Nat × Team) => if t.2.live then s.teamTurns t.1 t.2 else [])
    ++ s.banks.filterMap (fun (b : Nat × Bank) => if b.2.running then some (execClauseExecute ⟨.bank, 0, 0, false, b.1, 0⟩) else none)
    ++ ((List.range s.net.length).zip s.net).map (fun (m : Nat × Msg) => m.2.turn m.1)
    ++ s.launchTurns
    ++ ((List.range s.fabric.colls.length).zip s.fabric.colls).flatMap (fun (c : Nat × Coll) =>
        turnIf c.2.status.isSome (execCollectiveStatusWrite c.1))
    ++ (List.range s.fabric.fsJobs.length).map State.fsStep
    ++ (List.range s.reads.length).map State.performRead
    ++ (List.range s.fabric.parked.length).map State.parkedTurn
    ++ (List.range s.service.ueWorks.length).map State.ueTry
    ++ s.shepherds.flatMap (fun (h : Nat × Shepherd) => turnIf (!h.2.words.isEmpty) (State.hartTurn h.1) ++ turnIf (!h.2.stores.isEmpty) (State.hartStore h.1))
    ++ turnIf s.service.mustering.isSome execMusterComplete

/-- The event that a turn falls on; the turns go round. -/
def State.due (s : State) : Option Turn :=
  let es := s.turns
  es[s.tick % Nat.max 1 es.length]?

/-- A bank core that goes on has left its chunk boundary (R289). -/
def State.leaveChunk (s : State) : State :=
  if s.onBank then let b := s.bankOf s.cur.bank; s.setBankOf s.cur.bank { b with chunk := false } else s

/-- The next step: an instruction to execute in a state, a turn of the device, a state that is reached without one, or a stop. -/
inductive Plan where
  | run (i : Instr) (s : State)
  | turn (f : Turn) (s : State)
  | done (s : State)
  | stop (f : Fault)

/-- The next step. The agenda comes first; then the word of the clause under way; a path that has ended its clause waits for its next header (R100); a stalled agent, and a stream that must let another issue first (R170), lets the device's other events have a turn before it is tried again. The Stopwatch freezes everything but its resumption (R426), and nothing runs once the boot ROM has stopped (R419). -/
def State.plan (s : State) : Plan :=
  match s.service.boot with
  | .failed _ => .stop .bootStopped
  | _ =>
    match s.agenda with
    | i :: rest =>
      let s' := { s with agenda := rest }
      if s.service.frozen then (match i with | .stopwatchResume => .run i s' | _ => .done s') else .run i s'
    | [] =>
      if s.service.frozen then .done s
      else
        let turn := fun (s : State) =>
          match s.due with
          | some f => Plan.turn f { s with tick := s.tick + 1 }
          | none => .done { s with tick := s.tick + 1 }
        match s.underWay with
        | none => turn s.settleWaits
        | some (_, true) => turn s.unstall
        | some (c, false) =>
          if s.streamYields then turn s
          else match s.decodeNext c with
          | .ok i => .run i s.leaveChunk
          | .error h => .done (s.decodeStopped h)

/-! ## Placing one instruction for the next step -/

/-- The words of a decoded table word with a group, a stream or a bank core in the middle of a clause that holds them. -/
def Clause.holding (cls : BitVec 3) (w : Word32) (lit : Option Word32) : Clause :=
  { hdr := 0, cls := cls, count := 1 + lit.toList.length, words := w :: lit.toList, idx := 1, yield := false }

/-- A path in the middle of a clause. -/
def Path.inClause (p : Path) (c : Clause) : Path :=
  { p with active := true, lanes := BitVec.allOnes 64, clause := some c, susp := none, stalled := false, issuing := true,
           grant := none, arrived := false, pc := 0 }

/-- The state in which the next step executes a word: a group, a bank core or a stream holds a clause of it, or SUBMIT stands in the agenda. -/
def State.placeWord (s : State) (k : WordKind) (w l : Word32) : State :=
  let lit := if k.takesLit w then some l else none
  let s := { s with agenda := [], service := { s.service with frozen := false } }
  match k with
  | .group cls =>
    let s := { s with cur := ⟨.group, 0, 0, false, 0, 0⟩ }
    let h := s.hart
    let s := s.setHart ({ h with live := true, evicted := false }.setPath false (h.p0.inClause (.holding cls w lit)))
    s.setTeam { s.team with live := true, feat := 0x3FFF }
  | .stream =>
    let s := { s with cur := ⟨.stream, 0, 0, false, 0, 0⟩ }
    let t := s.team
    s.setTeam { t with live := true, feat := 0x3FFF, seq := { t.seq with st := .running, fault := none, stopAsked := false, clause := some (.holding 3 w lit), stalled := false } }
  | .bank cls =>
    let s := { s with cur := ⟨.bank, 0, 0, false, 0, 0⟩ }
    let h := s.hart
    let s := s.setHart (h.setPath false (h.p0.inClause (.holding cls w lit)))
    s.setBankOf 0 { s.bankOf 0 with running := true }
  | .hart => match k.decode w l with
    | some i => { s with agenda := [i] }
    | none => s

end Sys2Proof.Machine
end

