-- ==== Sys2Proof/Machine/Step.lean ====
section
/-! DEFINITION. One step of the device, and placing one instruction as the next. -/

namespace Sys2Proof.Machine

/-- One step: what `State.plan` names is done. -/
def step (s : State) : Host.Outcome State Fault Refusal :=
  match s.plan with
  | .run i t => exec i t
  | .turn f t => f t
  | .done t => .next t
  | .stop r => .fault r

/-- The state with one instruction of the opcode table where `step` takes its next word from. -/
def State.withFetchWord (s : State) (_nbits w : Nat) : State :=
  let w0 : Word32 := BitVec.ofNat 32 w
  let l : Word32 := BitVec.ofNat 32 (w / 2 ^ 32)
  match tableKind w0 l with
  | some k => s.placeWord k w0 l
  | none => s

end Sys2Proof.Machine
end

