-- ==== Sys2Proof/Certificates/Slice0/Obligations.lean ====
section
/-! DEFINITION. The statements about the model, for the provers. Each docstring names the rules of spec/ that it formalises. -/

namespace Sys2Proof.Claims
open Sys2Proof.Machine

/-! ## What a statement says of a next state -/

/-- The value of the low w bits of a scalar, natural or two's complement (R57). -/
def value (t : IntTy) (x : Word64) : Int :=
  if t.nat then (x.setWidth (8 * 2 ^ t.width.toNat)).toNat else (x.setWidth (8 * 2 ^ t.width.toNat)).toInt
/-- An exact integer reduced modulo 2^w and extended to 64 bits (R57). -/
def extended (t : IntTy) (v : Int) : Word64 :=
  let q := BitVec.ofInt (8 * 2 ^ t.width.toNat) v
  if t.nat then q.setWidth 64 else q.signExtend 64
/-- The low w bits of a scalar as a pattern, combined and extended (R57, R60). -/
def extendedBits (t : IntTy) (f : BitVec (8 * 2 ^ t.width.toNat) → BitVec (8 * 2 ^ t.width.toNat) → BitVec (8 * 2 ^ t.width.toNat))
    (x y : Word64) : Word64 :=
  let q := f (x.setWidth _) (y.setWidth _)
  if t.nat then q.setWidth 64 else q.signExtend 64
/-- An integer truncated toward zero after a division; the divisor is not 0. -/
def truncQuot (x y : Int) : Int := x.sign * y.sign * (x.natAbs / y.natAbs : Nat)

/-- The latches and the place of the focus's path after an instruction of n words that left b0 (R23 steps 5 and 6, R24): b0 takes the result and the others shift; a word of the clause that is left comes next, or else the header that follows; the other path stays. -/
structure PathDone (s t : State) (n : Nat) (b0 : Latch) : Prop where
  latches : t.path.latches = #v[b0, s.path.latches[0], s.path.latches[1], s.path.latches[2]]
  next : ∀ c, s.path.clause = some c →
    if c.idx + n ≤ c.count then t.path.clause = some { c with idx := c.idx + n } ∧ t.path.pc = s.path.pc
    else t.path.clause = none ∧ t.path.pc = c.hdr + BitVec.ofNat 64 (4 * (c.count + 1))
  lanes : t.path.lanes = s.path.lanes
  emask : t.path.emask = s.path.emask
  fmt : t.path.fmt = s.path.fmt
  active : t.path.active = s.path.active
  susp : t.path.susp = s.path.susp
  other : t.hart.path (!s.cur.path) = s.hart.path (!s.cur.path)

/-- The same, for a transfer that is taken to a target (R23 step 6, R69). -/
structure PathJumped (s t : State) (target : Word64) (b0 : Latch) : Prop where
  latches : t.path.latches = #v[b0, s.path.latches[0], s.path.latches[1], s.path.latches[2]]
  clause : t.path.clause = none
  pc : t.path.pc = target
  lanes : t.path.lanes = s.path.lanes
  emask : t.path.emask = s.path.emask
  fmt : t.path.fmt = s.path.fmt
  active : t.path.active = s.path.active
  susp : t.path.susp = s.path.susp
  other : t.hart.path (!s.cur.path) = s.hart.path (!s.cur.path)

/-- Every byte of every memory reads as before: DRAM by bank location, every allocation, every template. -/
def SameBytes (s t : State) : Prop :=
  (∀ a, t.mem.byte a = s.mem.byte a) ∧ (∀ k a, (t.teamOf k).mem.byte a = (s.teamOf k).mem.byte a)
    ∧ ∀ k a, (t.teamOf k).tmpl.byte a = (s.teamOf k).tmpl.byte a

/-- Nothing but the focus's own registers and paths differs: no other group, no bank core, no team, no core, no memory, nothing of the device. -/
structure OnlyHart (s t : State) : Prop where
  others : ∀ i, i ≠ s.hid → t.hartOf i = s.hartOf i
  rest : t = { s with harts := t.harts }
  bytes : SameBytes s t

/-- The focus's registers but for the scalar, vector and mask files, the generators, its paths, and the remote data that an instruction consumes. -/
def SameRegs (s t : State) : Prop :=
  t.hart = { s.hart with s := t.hart.s, v := t.hart.v, m := t.hart.m, gens := t.hart.gens, p0 := t.hart.p0, p1 := t.hart.p1,
                         arrived := [], asked := [], bad := [] }

/-- The scalar registers after a write of x to d: no other register changes, nw writes none, s0 stays 0 (R14, R43). -/
def ScalarWritten (s t : State) (d : Dst) (x : Word64) : Prop :=
  ∀ r, t.hart.sreg r = if r = d.reg ∧ d.nw = false ∧ r ≠ 0 then x else s.hart.sreg r

/-- An instruction of n words with a scalar result is complete: x is in its destination and in b0, and nothing else has changed. -/
structure ScalarDone (s t : State) (d : Dst) (n : Nat) (x : Word64) : Prop where
  reg : ScalarWritten s t d x
  path : PathDone s t n (Latch.scalar x)
  vectors : t.hart.v = s.hart.v
  masks : t.hart.m = s.hart.m
  gens : t.hart.gens = s.hart.gens
  regs : SameRegs s t
  only : OnlyHart s t

/-- An instruction of n words without a result is complete, and no register has changed. -/
structure Passed (s t : State) (n : Nat) : Prop where
  path : PathDone s t n Latch.none
  scalars : t.hart.s = s.hart.s
  vectors : t.hart.v = s.hart.v
  masks : t.hart.m = s.hart.m
  gens : t.hart.gens = s.hart.gens
  regs : SameRegs s t
  only : OnlyHart s t

end Sys2Proof.Claims

open Sys2Proof Sys2Proof.Machine Sys2Proof.Claims

namespace Sys2Proof.Claims
open Sys2Proof.Machine

/-- A taken transfer that leaves b0 invalid is complete: the path stands at the target's clause, and no register has changed. -/
structure Jumped (s t : State) (target : Word64) : Prop where
  path : PathJumped s t target Latch.none
  scalars : t.hart.s = s.hart.s
  vectors : t.hart.v = s.hart.v
  masks : t.hart.m = s.hart.m
  gens : t.hart.gens = s.hart.gens
  regs : SameRegs s t
  only : OnlyHart s t

/-- A call is complete: the link is in its register and in b0, and the path stands at the target's clause (R72). -/
structure Called (s t : State) (d : Dst) (link target : Word64) : Prop where
  reg : ScalarWritten s t d link
  path : PathJumped s t target (Latch.scalar link)
  vectors : t.hart.v = s.hart.v
  masks : t.hart.m = s.hart.m
  gens : t.hart.gens = s.hart.gens
  regs : SameRegs s t
  only : OnlyHart s t

/-- A target that a taken transfer accepts (R69, R21; on a bank core R287): a multiple of 4 below window 0xC, or inside the job's region. -/
def TargetOk (s : State) (t : Word64) : Prop :=
  t.toNat % 4 = 0 ∧ if s.onBank then t.toNat < 65536 * (s.bankOf s.cur.bank).region.pages else t.toNat < 12 * 2 ^ 52

/-- Only the paths and the divergence records of the focus's group differ. -/
def OnlyPaths (s t : State) : Prop :=
  OnlyHart s t ∧ t.hart = { s.hart with p0 := t.hart.p0, p1 := t.hart.p1, recs := t.hart.recs, arrived := t.hart.arrived,
                                        asked := t.hart.asked, bad := t.hart.bad }

/-- A path that begins at a clause with its own lanes as its emask (R92). -/
def Begins (p : Path) (lanes pc fmt : Word64) : Prop :=
  p.active = true ∧ p.lanes = lanes ∧ p.emask = lanes ∧ p.pc = pc ∧ p.fmt = fmt ∧ p.clause = none ∧ p.susp = none

end Sys2Proof.Claims

namespace Sys2Proof.Claims
open Sys2Proof.Machine

/-- `Lanes(i, w)` of R106: every lane that holds a bit of element i of width w is on. -/
def LanesOn (s : State) (w i : Nat) : Prop :=
  let j := i % (s.vc.vlen / w)
  ∀ l < 64, 32 * l < w * (j + 1) → w * j < 32 * (l + 1) → s.lanesOn.getLsbD l = true

open Classical in
/-- The table of R110 for element i at width w: what it holds afterwards, from what it held and the instruction's result; `ones` has every bit of an element set. -/
noncomputable def afterWrite (s : State) (w ones : Nat) (sel : Nat → Bool) (i old new : Nat) : Nat :=
  if ¬ LanesOn s w i then old
  else if s.vc.vl ≤ i then (if s.vc.ta then ones else old)
  else if sel i = false then (if s.vc.ma then ones else old)
  else new

/-- Is element i active at width w (R110)? -/
def Active (s : State) (w : Nat) (sel : Nat → Bool) (i : Nat) : Prop := LanesOn s w i ∧ i < s.vc.vl ∧ sel i = true

/-- Nothing but the vector file, the generators, the paths and consumed remote data of the focus differs. -/
structure VectorFrame (s t : State) : Prop where
  scalars : t.hart.s = s.hart.s
  masks : t.hart.m = s.hart.m
  regs : SameRegs s t
  only : OnlyHart s t

/-- A vector instruction of n words is complete: element i of the first `count` of a destination group of L registers of width w is `after i` of what it held; the other elements and every other register stay; b0 holds the register, or with nw the elements over zeros (R42, R43). -/
structure Written (s t : State) (d : Dst) (w L n count : Nat) (after : Nat → Nat → Nat) : Prop where
  elems : d.nw = false → ∀ i < L * (s.vc.vlen / w),
    t.hart.elem s.vc.vlen d.reg.toNat w i
      = if i < count then after i (s.hart.elem s.vc.vlen d.reg.toNat w i) else s.hart.elem s.vc.vlen d.reg.toNat w i
  others : ∀ r < 32, d.nw = true ∨ r < d.reg.toNat ∨ d.reg.toNat + L ≤ r → vget t.hart.v r 0 = vget s.hart.v r 0
  path : ∃ b, PathDone s t n b
    ∧ (d.nw = false → b = if L = 1 then Latch.vector (vget t.hart.v d.reg.toNat 0) else Latch.none)
    ∧ (d.nw = true → b.kind = .vector ∧ ∀ i < s.vc.vlen / w, vpat b.bits w i = if i < count then after i 0 else 0)
  frame : VectorFrame s t

/-- A vector result by the table of R110 over all VLMAX elements. -/
noncomputable def VectorDone (s t : State) (d : Dst) (w L n : Nat) (sel : Nat → Bool) (new : Nat → Nat) : Prop :=
  Written s t d w L n s.vc.max fun i old => afterWrite s w (2 ^ w - 1) sel i old (new i)

/-- A mask instruction is complete: bit i of a mask group follows R110 at width SEW, and the bits from VLMAX up are tail bits whatever the lanes are. -/
structure MaskDone (s t : State) (d : Dst) (sel : Nat → Bool) (new : Nat → Bool) : Prop where
  bits : d.nw = false → ∀ i < 256 * s.vc.mg,
    (t.hart.mbit d.reg.toNat i).toNat =
      if i < s.vc.max then afterWrite s s.vc.sew 1 sel i (s.hart.mbit d.reg.toNat i).toNat (new i).toNat
      else if s.vc.ta then 1 else (s.hart.mbit d.reg.toNat i).toNat
  others : ∀ r < 8, d.nw = true ∨ r < d.reg.toNat ∨ d.reg.toNat + s.vc.mg ≤ r → vget t.hart.m r 0 = vget s.hart.m r 0
  path : ∃ b, PathDone s t 1 b
    ∧ (d.nw = false → b = if s.vc.mg = 1 then Latch.mask (vget t.hart.m d.reg.toNat 0) else Latch.none)
    ∧ (d.nw = true → b.kind = .mask ∧ ∀ i < 256, (b.bits.getLsbD i).toNat =
        if i < s.vc.max then afterWrite s s.vc.sew 1 sel i 0 (new i).toNat else if s.vc.ta then 1 else 0)
  scalars : t.hart.s = s.hart.s
  vectors : t.hart.v = s.hart.v
  gens : t.hart.gens = s.hart.gens
  regs : SameRegs s t
  only : OnlyHart s t

/-- Two vector sources that an instruction may read at the type in force (R107 to R109, R87). -/
structure SourcesReady (s : State) (a b : Src) (k : MSel) (cst : Int → Nat) (x y : Nat → Nat) : Prop where
  width : s.sewOk s.vc = true
  srcA : s.vc.srcOk a s.vc.lmul = true
  srcB : s.vc.srcOk b s.vc.lmul = true
  mask : s.vc.selOk k = true
  readA : s.vsrc s.vc a s.vc.sew cst = .ok x
  readB : s.vsrc s.vc b s.vc.sew cst = .ok y
  heldA : s.heldSrc a s.vc.lmul = .ok ()
  heldB : s.heldSrc b s.vc.lmul = .ok ()

/-- A vector destination that an instruction may write: its alignment, its size, nw, and its slots (R107, R43, R87). -/
def DstReady (s : State) (d : Dst) (L : Nat) : Prop := s.vc.dstOk d L = true ∧ s.heldDst d L = .ok ()

/-- The generators after the active elements among the first n have drawn in increasing order, under stochastic rounding (R116, R152). -/
noncomputable def drawn (m : Modes) (lane : Nat → Nat) (act : Nat → Prop) (g : Gens) : Nat → Gens
  | 0 => g
  | n + 1 => open Classical in if act n ∧ m.rm = rSR then (draw (drawn m lane act g n) (lane n)).2 else drawn m lane act g n
/-- The word that element n draws: 0 where the mode is not stochastic (R151, R152). -/
noncomputable def wordOf (m : Modes) (lane : Nat → Nat) (act : Nat → Prop) (g : Gens) (n : Nat) : Nat :=
  if m.rm = rSR then (draw (drawn m lane act g n) (lane n)).1 else 0
/-- A value that is no NaN as an extended rational number: the magnitude m × 2^e with its sign, or an infinity. -/
noncomputable def number : FVal → WithBot (WithTop ℚ)
  | .inf true => ⊥
  | .inf false => ((⊤ : WithTop ℚ) : WithBot (WithTop ℚ))
  | .fin s m e _ => (((if s then -1 else 1) * (m : ℚ) * (2 : ℚ) ^ e : ℚ) : WithTop ℚ)
  | .nan => ⊥
/-- The lowest lane that holds element i of width w (R106). -/
def lowLane (s : State) (w i : Nat) : Nat := w * (i % (s.vc.vlen / w)) / 32

end Sys2Proof.Claims

namespace Sys2Proof.Claims
open Sys2Proof.Machine

/-- Nothing but the focus's own registers and paths, and what the caches of cores and dies hold, differs; the device's free choices may have been used (R255, R301). -/
structure OnlyHartAndCaches (s t : State) : Prop where
  others : ∀ i, i ≠ s.hid → t.hartOf i = s.hartOf i
  rest : t = { s with harts := t.harts, cores := t.cores, oracle := t.oracle, dirty := t.dirty }
  cores : ∀ c, t.coreOf c = { s.coreOf c with l1 := (t.coreOf c).l1, tlb := (t.coreOf c).tlb }
  bytes : SameBytes s t

/-- A load of n words with a scalar result is complete. -/
structure LoadDone (s t : State) (d : Dst) (n : Nat) (x : Word64) : Prop where
  reg : ScalarWritten s t d x
  path : PathDone s t n (Latch.scalar x)
  vectors : t.hart.v = s.hart.v
  masks : t.hart.m = s.hart.m
  gens : t.hart.gens = s.hart.gens
  regs : SameRegs s t
  only : OnlyHartAndCaches s t

/-- A load of one whole vector register is complete. -/
structure TileLoaded (s t : State) (d : Dst) (v : VWord) : Prop where
  reg : ∀ r < 32, vget t.hart.v r 0 = if r = d.reg.toNat ∧ d.nw = false then v else vget s.hart.v r 0
  path : PathDone s t 2 (Latch.vector v)
  scalars : t.hart.s = s.hart.s
  masks : t.hart.m = s.hart.m
  gens : t.hart.gens = s.hart.gens
  regs : SameRegs s t

/-- No register of the focus differs but those that issuing a store changes: the store queue or the open region, the ledger of the counters, and the number of the next operation. -/
def OnlyQueues (s t : State) : Prop :=
  OnlyHart s t ∧ t.hart = { s.hart with sq := t.hart.sq, near := t.hart.near, region := t.hart.region, ledger := t.hart.ledger, nextOp := t.hart.nextOp,
                                        p0 := t.hart.p0, p1 := t.hart.p1, arrived := [], asked := [], bad := [] }

/-- An instruction of n words has entered the store queue as the youngest entry, or the open region where it is a release or goes to another device; a plain local store inside a region takes its bytes out of the older ones that the region holds; `st`, `fab` and, for a copy start, `copy` have risen by one; and no byte of memory, no register and no other agent has changed (R224, R250, R261, R408). -/
def Enters (s t : State) (op : SQOp) (st fab release : Bool) (sc : Scope) (n : Nat) (copy : Bool := false) : Prop :=
  ∃ e : SQEntry, e.op = op ∧ e.id = s.hart.nextOp ∧ e.release = release ∧ e.scope = sc ∧ e.st = st ∧ e.fab = fab
    ∧ (match s.hart.region with
      | some r => if fab ∨ release then t.hart.sq = s.hart.sq ∧ t.hart.region = some { r with items := r.items ++ [e] }
                  else t.hart.sq = s.hart.sq ++ [e] ∧ t.hart.region = some { r with items := r.items.map (·.without e.targets) }
      | none => t.hart.sq = s.hart.sq ++ [e] ∧ t.hart.region = none)
    ∧ (∀ k < 8, t.hart.counter k = s.hart.counter k
        + if (k = kSt ∧ st) ∨ (k = kFab ∧ fab) ∨ (k = kCopy ∧ copy) then 1 else 0)
    ∧ t.hart.near = s.hart.near ∧ PathDone s t n Latch.none ∧ OnlyQueues s t

/-- There is room for an operation: its counters stand below their limit (R224), and an open region keeps to 64 lines (R408). -/
def Room (s : State) (op : SQOp) (st fab release : Bool) : Prop :=
  (st → s.hart.counter kSt < 65535) ∧ (fab → s.hart.counter kFab < 65535)
    ∧ ∀ r, s.hart.region = some r → fab ∨ release → ∀ e : SQEntry, e.op = op → heldLines (r.items ++ [e]) ≤ 64

/-- The bytes of a value at consecutive targets. -/
def cellsAt (t : Tgt) (bs : List Byte) : List (Tgt × Byte) := (List.range bs.length).map fun i => (t.plus i, bs.getD i 0)

/-- The element addresses that take part lie in memory that the instruction may reach: where each lies (R137, R138). -/
def Elements (s : State) (k : MSel) (acc : AccKind) (wins : Wins) (sp : Space) (e va : Nat → Word64) (p : Nat → Place) : Prop :=
  ∀ i < s.vc.max, s.vc.active s.lanesOn (s.sel k) s.vc.sew i = true →
    s.form sp (e i) 0 = .ok (va i) ∧ s.find acc wins (va i) (s.vc.sew / 8) (s.vc.sew / 8) = .ok (.mem (p i))

/-- The elements that take part, in increasing order. -/
def actives (s : State) (k : MSel) : List Nat :=
  (List.range s.vc.max).filter fun i => s.vc.active s.lanesOn (s.sel k) s.vc.sew i

/-- The new value of an integer atomic on w bits (R239). -/
def atomNew {w : Nat} (nat : Bool) (op : AtomOp) (old x : BitVec w) : BitVec w :=
  let le := fun (a b : BitVec w) => if nat then a.ule b else a.sle b
  match op with
  | .and => old &&& x
  | .or => old ||| x
  | .xor => old ^^^ x
  | .min => if le old x then old else x
  | .max => if le old x then x else old
  | .swap => x
  | _ => old + x

/-- The memory of an allocation after the first k active elements of a vector atomic have been applied in increasing order (R243). -/
def atomRun (m : Mem) (n : Nat) (off : Nat → Nat) (arg : Nat → AtomArg) : List Nat → Mem
  | [] => m
  | i :: is => atomRun (m.write (off i) (leBytes n ((arg i).next (m.nat (off i) n)))) n off arg is
/-- The old value that element j of such a run meets. -/
def atomOld (m : Mem) (n : Nat) (off : Nat → Nat) (arg : Nat → AtomArg) (j : Nat) : List Nat → Nat
  | [] => 0
  | i :: is => if i = j then m.nat (off i) n
               else atomOld (m.write (off i) (leBytes n ((arg i).next (m.nat (off i) n)))) n off arg j is

end Sys2Proof.Claims

/-! ## Class 0, scalar arithmetic -/

/-- R60: the value of each register-form arithmetic instruction, for every type and every readable pair of operands; the frame with it. -/
def Sys2Proof.Claims.RegisterFormArithmeticResults : Prop :=
  ∀ (s : State) (d : Dst) (a b : Src) (t : IntTy) (x y : Word64), s.opnd a = .ok x → s.opnd b = .ok y →
    let w := 8 * 2 ^ t.width.toNat
    let p := value t x
    let q := value t y
    let c := y.toNat % w
    ∀ e ∈ [(Instr.add d a b t, extended t (p + q)), (.sub d a b t, extended t (p - q)), (.mul d a b t, extended t (p * q)),
        (.mulh d a b t, extended t (Int.fdiv (p * q) (2 ^ w))),
        (.div d a b t, extended t (if q = 0 then -1 else truncQuot p q)),
        (.rem d a b t, extended t (if q = 0 then p else p - q * truncQuot p q)),
        (.and d a b t, extendedBits t (· &&& ·) x y), (.or d a b t, extendedBits t (· ||| ·) x y),
        (.xor d a b t, extendedBits t (· ^^^ ·) x y), (.andn d a b t, extendedBits t (fun u v => u &&& ~~~v) x y),
        (.shl d a b t, extended t (p * 2 ^ c)), (.shr d a b t, extended t (Int.fdiv p (2 ^ c))),
        (.rol d a b t, extendedBits t (fun u _ => u.rotateLeft c) x y),
        (.min d a b t, extended t (min p q)), (.max d a b t, extended t (max p q))],
      ∃ u, exec e.1 s = .next u ∧ ScalarDone s u d 1 e.2

/-- R61, R62, R66, R68: the immediate forms, the compares and the select. -/
def Sys2Proof.Claims.ImmediateCompareAndSelectResults : Prop :=
  ∀ (s : State) (d : Dst) (a b : Src) (t : IntTy) (i : BitVec 10) (c : BitVec 6) (x y : Word64),
    s.opnd a = .ok x → s.opnd b = .ok y →
    let order : Int → Int → Word64 := fun p q => if p < q then BitVec.allOnes 64 else if p = q then 0 else 1
    ∀ e ∈ [(Instr.addi d a i, x + i.signExtend 64), (.muli d a i, x * i.signExtend 64), (.andi d a i, x &&& i.signExtend 64),
        (.ori d a i, x ||| i.signExtend 64), (.xori d a i, x ^^^ i.signExtend 64), (.shli d a c, x <<< c.toNat),
        (.shri d a false c, x >>> c.toNat), (.shri d a true c, x.sshiftRight c.toNat), (.li d i, i.signExtend 64),
        (.cmpi d a i, order x.toInt i.toInt), (.cmp d a b t, order (value t x) (value t y)),
        (.sel d a b, if s.hart.sreg d.reg = 0 then y else x)],
      ∃ u, exec e.1 s = .next u ∧ ScalarDone s u d 1 e.2

/-- R60: the value of each register-form arithmetic instruction, for every type and every readable pair of operands; the frame with it. R61, R62, R66, R68: the immediate forms, the compares and the select. -/
def Obligations.ScalarArithmeticResults : Prop :=
  Sys2Proof.Claims.RegisterFormArithmeticResults ∧ Sys2Proof.Claims.ImmediateCompareAndSelectResults

/-- R63, R64: literals and bit fields. The field that a literal names lies in bits [lo + width − 1 : lo]. -/
def Sys2Proof.Claims.LiteralAndBitFieldResults : Prop :=
  ∀ (s : State) (d : Dst) (a b : Src) (l : Word32) (f : BfLit) (x y : Word64), s.opnd a = .ok x → s.opnd b = .ok y →
    1 ≤ f.width.toNat → f.lo.toNat + f.width.toNat ≤ 64 →
    let field := x.extractLsb' f.lo.toNat f.width.toNat
    (∀ e ∈ [(Instr.liw d l, l.signExtend 64), (.liwZ d l, l.setWidth 64), (.liwH d a l, l ++ x.setWidth 32),
        (.bfx d a f, if f.sx then field.signExtend 64 else field.setWidth 64)],
      ∃ u, exec e.1 s = .next u ∧ ScalarDone s u d 2 e.2)
    ∧ ∃ u z, exec (.bfi d a b f) s = .next u ∧ ScalarDone s u d 2 z
      ∧ ∀ k < 64, z.getLsbD k = if f.lo.toNat ≤ k ∧ k < f.lo.toNat + f.width.toNat then y.getLsbD (k - f.lo.toNat) else x.getLsbD k

/-- R65: the number of zero bits above the highest one bit, of zero bits below the lowest one bit, and of one bits, in the low w bits; w where a count of zeros meets no one bit. -/
def Sys2Proof.Claims.BitCountResults : Prop :=
  ∀ (s : State) (d : Dst) (a : Src) (k : BitVec 2) (x : Word64), s.opnd a = .ok x →
    let w := 8 * 2 ^ k.toNat
    (∃ u n, exec (.clz d a k) s = .next u ∧ ScalarDone s u d 1 (BitVec.ofNat 64 n) ∧ n ≤ w
      ∧ (∀ i < n, x.getLsbD (w - 1 - i) = false) ∧ (n < w → x.getLsbD (w - 1 - n) = true))
    ∧ (∃ u n, exec (.ctz d a k) s = .next u ∧ ScalarDone s u d 1 (BitVec.ofNat 64 n) ∧ n ≤ w
      ∧ (∀ i < n, x.getLsbD i = false) ∧ (n < w → x.getLsbD n = true))
    ∧ ∃ u, exec (.popc d a k) s = .next u
      ∧ ScalarDone s u d 1 (BitVec.ofNat 64 (((List.range w).filter fun i => x.getLsbD i).length))

/-- R63, R64: literals and bit fields. The field that a literal names lies in bits [lo + width − 1 : lo]. R65: the number of zero bits above the highest one bit, of zero bits below the lowest one bit, and of one bits, in the low w bits; w where a count of zeros meets no one bit. -/
def Obligations.LiteralAndBitResults : Prop :=
  Sys2Proof.Claims.LiteralAndBitFieldResults ∧ Sys2Proof.Claims.BitCountResults

/-! ## Class 0, control -/

/-- R69 to R72: every branch and jump goes where its entry says when it is taken and its target passes R69, and goes on to the next word or header when it is not taken. -/
def Sys2Proof.Claims.TransfersGoToTheirTargets : Prop :=
  ∀ (s : State) (c : Clause) (a b : Src) (x y : Word64) (i : BitVec 10) (l : Word32),
    s.path.clause = some c → s.opnd a = .ok x → s.opnd b = .ok y →
    let near := c.hdr + 4 * i.signExtend 64
    let far := c.hdr + 4 * l.signExtend 64
    ∀ e ∈ [(Instr.bra i, 1, true, near), (.brz a i, 1, decide (x = 0), near), (.brnz a i, 1, decide (x ≠ 0), near),
        (.brc a b .eq l, 2, decide (x = y), far), (.brc a b .ne l, 2, decide (x ≠ y), far),
        (.brc a b .lt l, 2, decide (x.toInt < y.toInt), far), (.brc a b .ge l, 2, decide (y.toInt ≤ x.toInt), far),
        (.brc a b .ltn l, 2, decide (x.toNat < y.toNat), far), (.brc a b .gen l, 2, decide (y.toNat ≤ x.toNat), far),
        (.jmp l, 2, true, far), (.jmpReg a l, 2, true, x + 4 * l.signExtend 64), (.ret a, 1, true, x)],
      if e.2.2.1 then TargetOk s e.2.2.2 → ∃ t, exec e.1 s = .next t ∧ Jumped s t e.2.2.2
      else ∃ t, exec e.1 s = .next t ∧ Passed s t e.2.1

/-- R72: a call writes its link, the header that follows the calling clause, and goes to its target. -/
def Sys2Proof.Claims.CallsWriteTheirLinkAndJump : Prop :=
  ∀ (s : State) (c : Clause) (d : Dst) (a : Src) (x : Word64) (l : Word32), s.path.clause = some c → s.opnd a = .ok x →
    let link := c.hdr + BitVec.ofNat 64 (4 * (c.count + 1))
    (TargetOk s (c.hdr + 4 * l.signExtend 64) →
      ∃ t, exec (.call d l) s = .next t ∧ Called s t d link (c.hdr + 4 * l.signExtend 64))
    ∧ (TargetOk s x → ∃ t, exec (.callr d a) s = .next t ∧ Called s t d link x)

/-- R73, R92, R93: BRM with its mask operand: taken where every active lane is selected, not taken where none is; else the path divides. The taken child takes the path's slot, and the fall-through child the other slot or, where that holds a path, the record; with 1024 records open it traps instead, which this does not say. -/
def Sys2Proof.Claims.BrmBranchesOrDivides : Prop :=
  ∀ (s : State) (c : Clause) (a : Src) (m : MWord) (i : BitVec 10),
    s.path.active = true → s.path.susp = none → s.path.clause = some c → s.opndM a = .ok m →
    let target := c.hdr + 4 * i.signExtend 64
    let next := c.hdr + BitVec.ofNat 64 (4 * (c.count + 1))
    let T := m.setWidth 64 &&& s.path.emask
    let F := s.path.emask &&& ~~~T
    (T = s.path.emask → TargetOk s target → ∃ t, exec (.brm a i) s = .next t ∧ Jumped s t target)
    ∧ (T = 0 → s.path.emask ≠ 0 → ∃ t, exec (.brm a i) s = .next t ∧ Passed s t 1)
    ∧ (T ≠ 0 → T ≠ s.path.emask → TargetOk s target → s.hart.recs.length < 32 →
      ∃ t r, exec (.brm a i) s = .next t ∧ OnlyPaths s t ∧ t.hart.recs = r :: s.hart.recs
        ∧ r.lanes = s.path.lanes ∧ r.fmt = s.path.fmt ∧ r.taken = T ∧ r.fall = F ∧ r.takenOpen = true ∧ r.fallOpen = true
        ∧ Begins t.path T target s.path.fmt
        ∧ if (s.hart.path (!s.cur.path)).active then
            t.hart.path (!s.cur.path) = s.hart.path (!s.cur.path) ∧ r.pending = some ⟨F, next, s.path.fmt⟩
          else Begins (t.hart.path (!s.cur.path)) F next s.path.fmt ∧ r.pending = none)
    ∧ ∀ u, 32 ≤ s.hart.recs.length → s.hart.recs.length < 1024 → T ≠ 0 → T ≠ s.path.emask → TargetOk s target →
        s.divide T target = .ok u → exec (.brm a i) s = .next u ∧ Begins u.path T target s.path.fmt
          ∧ ∃ r, u.hart.recs = r :: s.hart.recs ∧ r.taken = T ∧ r.fall = F

/-- R74, R94: JOIN with no record goes on; with a record at the top of the stack whose child the path is, that child closes: while the other child is open, the slot takes the record's pending path or stands free; else the record is popped and the parent resumes in the slot. -/
def Sys2Proof.Claims.JoinClosesAChildAndRestoresTheParent : Prop :=
  ∀ (s : State) (c : Clause) (r : DivRec) (rs : List DivRec) (taken : Bool), s.path.clause = some c →
    let next := c.hdr + BitVec.ofNat 64 (4 * (c.count + 1))
    let mine := fun (a b : Word64) => if taken then a else b
    (s.hart.recs = [] → ∃ t, exec .join s = .next t ∧ Passed s t 1)
    ∧ (s.hart.recs = r :: rs → r.taken ≠ r.fall → mine r.taken r.fall = s.path.lanes →
        (if taken then r.takenOpen else r.fallOpen) = true → rs.length < 32 →
        ∃ t, exec .join s = .next t ∧ OnlyPaths s t ∧ t.hart.path (!s.cur.path) = s.hart.path (!s.cur.path) ∧
          if (if taken then r.fallOpen else r.takenOpen) then
            (∀ q, r.pending = some q → Begins t.path q.lanes q.pc q.fmt)
            ∧ (r.pending = none → (∀ x ∈ rs, x.pending = none) → t.path.active = false)
            ∧ ∃ r', t.hart.recs.head? = some r' ∧ r'.lanes = r.lanes ∧ r'.fmt = r.fmt ∧ r'.pending = none
                ∧ (if taken then r'.takenOpen = false ∧ r'.takenMask = s.path.emask ∧ r'.takenPc = some next ∧ r'.fallOpen = true
                   else r'.fallOpen = false ∧ r'.fallMask = s.path.emask ∧ r'.fallPc = some next ∧ r'.takenOpen = true)
          else
            t.hart.recs = rs ∧ t.path.active = true ∧ t.path.lanes = r.lanes ∧ t.path.fmt = r.fmt ∧ t.path.clause = none
            ∧ t.path.emask = s.path.emask ||| (if taken then r.fallMask else r.takenMask)
            ∧ t.path.pc = (if taken then next else r.takenPc.getD next))

/-- R73, R92, R93: BRM with its mask operand: taken where every active lane is selected, not taken where none is; else the path divides. The taken child takes the path's slot, and the fall-through child the other slot or, where that holds a path, the record; with 1024 records open it traps instead, which this does not say. R74, R94: JOIN with no record goes on; with a record at the top of the stack whose child the path is, that child closes: while the other child is open, the slot takes the record's pending path or stands free; else the record is popped and the parent resumes in the slot. -/
def Obligations.DivergenceResults : Prop :=
  Sys2Proof.Claims.BrmBranchesOrDivides ∧ Sys2Proof.Claims.JoinClosesAChildAndRestoresTheParent

/-- R75, R30, R95: EXIT of a group that is not divided waits while an operation is outstanding, and else ends the group: it issues nothing more, and where others of its team go on, its tokens are with the engine. EXIT of a child closes that child with an empty emask. -/
def Obligations.ExitEndsTheGroup : Prop :=
  ∀ (s : State), s.cur.unit = .group →
    (s.hart.recs = [] → (∀ k < 8, s.hart.counter k = 0) →
      ∃ t, exec .exit s = .next t ∧ (t.hartOf s.hid).live = false ∧ (t.hartOf s.hid).p0.active = false
        ∧ (t.hartOf s.hid).p1.active = false ∧ (t.liveGids s.cur.team ≠ [] → ∀ i, i ≠ s.hid → t.hartOf i = s.hartOf i)
        ∧ (t.liveGids s.cur.team ≠ [] → ∀ n, (mget (default : Tile) n (t.teamOf s.cur.team).acc).token ≠ some s.cur.gid))
    ∧ (s.hart.recs = [] → (∃ k < 8, s.hart.counter k ≠ 0) →
      ∃ t, exec .exit s = .next t ∧ t.path.susp = some .drain ∧ t.path.clause = s.path.clause ∧ (t.hartOf s.hid).live = s.hart.live)
    ∧ (∀ (r : DivRec) (rs : List DivRec), s.hart.recs = r :: rs → rs.length < 32 → r.takenOpen = true → r.taken = s.path.lanes → r.fallOpen = true →
      ∃ t r', exec .exit s = .next t ∧ OnlyPaths s t ∧ t.hart.recs.head? = some r' ∧ r'.takenOpen = false ∧ r'.takenMask = 0
        ∧ r'.takenPc = none ∧ r'.fallOpen = true)

/-- R76, R24: NOP shifts the latches and goes on; YIELD also leaves the hint for the end of the clause; LOOPH also sets the loop head to its own clause's header. -/
def Sys2Proof.Claims.HintsOnlyGoOn : Prop :=
  ∀ (s : State) (c : Clause), s.path.clause = some c →
    (∃ t, exec .nop s = .next t ∧ Passed s t 1)
    ∧ (∃ t, exec .yield s = .next t ∧ Passed (s.setPath { s.path with clause := some { c with yield := true } }) t 1)
    ∧ ∃ t, exec .looph s = .next t ∧ Passed (s.setHart { s.hart with loopHead := some c.hdr }) t 1

/-- R69 to R72: every branch and jump goes where its entry says when it is taken and its target passes R69, and goes on to the next word or header when it is not taken. R72: a call writes its link, the header that follows the calling clause, and goes to its target. R76, R24: NOP shifts the latches and goes on; YIELD also leaves the hint for the end of the clause; LOOPH also sets the loop head to its own clause's header. -/
def Obligations.TransferCallAndHintResults : Prop :=
  Sys2Proof.Claims.TransfersGoToTheirTargets ∧ Sys2Proof.Claims.CallsWriteTheirLinkAndJump ∧ Sys2Proof.Claims.HintsOnlyGoOn

/-! ## Class 1, integer elements, moves and compares -/

/-- R114: the value of each integer element operation, on the elements as bit vectors of SEW bits; R110 for every other element, and the frame. -/
def Obligations.VectorIntegerElementResults : Prop :=
  ∀ (s : State) (d : Dst) (a b : Src) (u : Bool) (k : MSel) (x y : Nat → Nat),
    let w := s.vc.sew
    SourcesReady s a b k (cstI w) x y → DstReady s d s.vc.lmul →
    let X := fun i => BitVec.ofNat w (x i)
    let Y := fun i => BitVec.ofNat w (y i)
    let num := fun (z : BitVec w) => if u then (z.toNat : Int) else z.toInt
    ∀ e ∈ [(Instr.vadd d a b u k, fun i => X i + Y i), (.vsub d a b u k, fun i => X i - Y i), (.vmul d a b u k, fun i => X i * Y i),
        (.vmulh d a b u k, fun i => BitVec.ofInt w (Int.fdiv (num (X i) * num (Y i)) (2 ^ w))),
        (.vdiv d a b u k, fun i => if Y i = 0 then BitVec.allOnes w else if u then (X i).udiv (Y i) else (X i).sdiv (Y i)),
        (.vrem d a b u k, fun i => if Y i = 0 then X i else if u then (X i).umod (Y i) else (X i).srem (Y i)),
        (.vand d a b u k, fun i => X i &&& Y i), (.vor d a b u k, fun i => X i ||| Y i), (.vxor d a b u k, fun i => X i ^^^ Y i),
        (.vshl d a b u k, fun i => X i <<< ((Y i).toNat % w)),
        (.vshr d a b u k, fun i => if u then X i >>> ((Y i).toNat % w) else (X i).sshiftRight ((Y i).toNat % w)),
        (.vmin d a b u k, fun i => if num (X i) ≤ num (Y i) then X i else Y i),
        (.vmax d a b u k, fun i => if num (X i) ≤ num (Y i) then Y i else X i),
        (.vabs d a k, fun i => if (X i).msb then -X i else X i), (.vneg d a k, fun i => -X i)],
      ∃ t, exec e.1 s = .next t ∧ VectorDone s t d w s.vc.lmul 1 (s.sel k) (fun i => (e.2 i).toNat) ∧ t.hart.gens = s.hart.gens

/-- R115: moves and fills. VMERGE has no masked-off elements: its mask operand chooses. -/
def Sys2Proof.Claims.VectorMoveAndFillResults : Prop :=
  ∀ (s : State) (d : Dst) (a b c : Src) (k : MSel) (x y : Nat → Nat) (z : Word64),
    let w := s.vc.sew
    SourcesReady s a b k (cstI w) x y → DstReady s d s.vc.lmul → s.opnd c = .ok z →
    (k ≠ .none → ∃ t, exec (.vmerge d a b k) s = .next t
      ∧ VectorDone s t d w s.vc.lmul 1 (fun _ => true) (fun i => if s.sel k i then x i else y i) ∧ t.hart.gens = s.hart.gens)
    ∧ ∀ e ∈ [(Instr.vmv d a k, x), (.vid d k, fun i => i % 2 ^ w), (.vbcast d c k, fun _ => z.toNat % 2 ^ w)],
      ∃ t, exec e.1 s = .next t ∧ VectorDone s t d w s.vc.lmul 1 (s.sel k) e.2 ∧ t.hart.gens = s.hart.gens

open Classical in
/-- R120: the integer and the floating-point compares write one bit for each element; −0 equals +0, and a NaN answers only VFCMPUN. -/
def Sys2Proof.Claims.VectorCompareResults : Prop :=
  ∀ (s : State) (d : Dst) (a b : Src) (u : Bool) (k : MSel) (x y : Nat → Nat) (cst : Int → Nat),
    let w := s.vc.sew
    let num := fun (z : Nat) => if u then ((BitVec.ofNat w z).toNat : Int) else (BitVec.ofNat w z).toInt
    SourcesReady s a b k cst x y → s.vc.mdstOk d = true →
    (cst = cstI w →
      ∀ e ∈ [(Instr.vcmpeq d a b u k, fun i => num (x i) = num (y i)), (.vcmpne d a b u k, fun i => num (x i) ≠ num (y i)),
          (.vcmplt d a b u k, fun i => num (x i) < num (y i)), (.vcmple d a b u k, fun i => num (x i) ≤ num (y i))],
        ∃ t, exec e.1 s = .next t ∧ MaskDone s t d (s.sel k) fun i => decide (e.2 i))
    ∧ ∀ f, fpFormat u w = some f → cst = cstF f →
      let p := fun i => f.dec (x i)
      let q := fun i => f.dec (y i)
      let nan := fun i => p i = .nan ∨ q i = .nan
      ∀ e ∈ [(Instr.vfcmpeq d a b u k, fun i => ¬ nan i ∧ number (p i) = number (q i)),
          (.vfcmplt d a b u k, fun i => ¬ nan i ∧ number (p i) < number (q i)),
          (.vfcmple d a b u k, fun i => ¬ nan i ∧ number (p i) ≤ number (q i)), (.vfcmpun d a b u k, nan)],
        ∃ t, exec e.1 s = .next t ∧ MaskDone s t d (s.sel k) fun i => decide (e.2 i)

/-- R115: moves and fills. VMERGE has no masked-off elements: its mask operand chooses. R120: the integer and the floating-point compares write one bit for each element; −0 equals +0, and a NaN answers only VFCMPUN. -/
def Obligations.VectorMoveAndCompareResults : Prop :=
  Sys2Proof.Claims.VectorMoveAndFillResults ∧ Sys2Proof.Claims.VectorCompareResults

/-! ## Class 1, floating-point elements -/

/-- R116, R117: each floating-point sum, product, quotient and fused operation is formed exactly and rounded once by F, with one draw for each active element under stochastic rounding. -/
def Obligations.VectorFloatArithmeticResults : Prop :=
  ∀ (s : State) (d : Dst) (a b : Src) (u : Bool) (k : MSel) (f : FF) (x y : Nat → Nat),
    let w := s.vc.sew
    fpFormat u w = some f → SourcesReady s a b k (cstF f) x y → DstReady s d s.vc.lmul →
    let m := modesOf s.path.fmt
    let act := Active s w (s.sel k)
    let p := fun i => f.dec (x i)
    let q := fun i => f.dec (y i)
    let z := fun i => f.dec (s.hart.elem s.vc.vlen d.reg.toNat w i)
    let F := fun (v : Nat → FVal) i => fOf m.rm m.sm f (wordOf m (lowLane s w) act s.hart.gens i) (v i)
    let done := fun (i : Instr) (v : Nat → FVal) => ∃ t, exec i s = .next t ∧ VectorDone s t d w s.vc.lmul 1 (s.sel k) (F v)
      ∧ t.hart.gens = drawn m (lowLane s w) act s.hart.gens s.vc.max
    (∀ e ∈ [(Instr.vfadd d a b u k, fun i => (p i).add m.rm (q i)), (.vfsub d a b u k, fun i => (p i).add m.rm (q i).neg),
        (.vfmul d a b u k, fun i => (p i).mul (q i)), (.vfdiv d a b u k, fun i => (p i).div (q i)),
        (.vfsqrt d a u k, fun i => (p i).sqrt)], done e.1 e.2)
    ∧ (s.vc.regOk d.reg.toNat s.vc.lmul = true → s.heldRegs d.reg.toNat s.vc.lmul = .ok () →
        ∀ e ∈ [(Instr.vfma d a b u k, fun i => ((p i).mul (q i)).add m.rm (z i)),
          (.vfms d a b u k, fun i => ((p i).mul (q i)).add m.rm (z i).neg),
          (.vfnma d a b u k, fun i => (z i).add m.rm ((p i).mul (q i)).neg)], done e.1 e.2)

open Classical in
/-- R117, R118, R119: the operations that do not round: the smaller and the larger operand with −0 below +0 and one NaN giving way, the sign bit cleared or inverted, and the class of a pattern. -/
def Sys2Proof.Claims.VectorFloatPatternResults : Prop :=
  ∀ (s : State) (d : Dst) (a b : Src) (u : Bool) (k : MSel) (f : FF) (x y : Nat → Nat),
    let w := s.vc.sew
    fpFormat u w = some f → SourcesReady s a b k (cstF f) x y → DstReady s d s.vc.lmul →
    let p := fun i => f.dec (x i)
    let q := fun i => f.dec (y i)
    let pick := fun (less : Nat → Prop) i =>
      if p i = .nan ∧ q i = .nan then f.nanPat else if p i = .nan then y i else if q i = .nan then x i else if less i then x i else y i
    let sign := fun i => x i / 2 ^ (w - 1) % 2 = 1
    let top := fun i => x i / 2 ^ f.mb % 2 ^ f.eb
    let frac := fun i => x i % 2 ^ f.mb
    let cls : Nat → Nat := fun i =>
      if top i = 2 ^ f.eb - 1 then
        (if frac i = 0 then (if sign i then 0 else 7) else if frac i < 2 ^ (f.mb - 1) then 8 else 9)
      else if top i = 0 then
        (if frac i = 0 then (if sign i then 3 else 4) else if sign i then 2 else 5)
      else if sign i then 1 else 6
    ∀ e ∈ [(Instr.vfmin d a b u k, pick fun i => number (p i) < number (q i) ∨ (number (p i) = number (q i) ∧ sign i)),
        (.vfmax d a b u k, pick fun i => number (q i) < number (p i) ∨ (number (p i) = number (q i) ∧ ¬ sign i)),
        (.vfabs d a u k, fun i => x i % 2 ^ (w - 1)), (.vfneg d a u k, fun i => x i ^^^ 2 ^ (w - 1)),
        (.vfclass d a u k, fun i => 2 ^ cls i)],
      ∃ t, exec e.1 s = .next t ∧ VectorDone s t d w s.vc.lmul 1 (s.sel k) e.2 ∧ t.hart.gens = s.hart.gens

/-- R118: each approximation writes one value for an operand, ignores the rounding mode and draws nothing; and on the special inputs of the table that value is the table's, passed through Sat. Elsewhere the value is free within its bound (log 5). -/
def Sys2Proof.Claims.VectorApproximationResults : Prop :=
  (∀ (s : State) (d : Dst) (a b : Src) (u : Bool) (k : MSel) (f : FF) (x y : Nat → Nat),
    let w := s.vc.sew
    fpFormat u w = some f → SourcesReady s a b k (cstF f) x y → DstReady s d s.vc.lmul →
    ∀ e ∈ [(Instr.vfrsq d a u k, Approx.rsq), (.vfrcp d a u k, .rcp), (.vfexp d a u k, .exp), (.vflog d a u k, .log),
        (.vftanh d a u k, .tanh), (.vfsin d a u k, .sin), (.vfcos d a u k, .cos)],
      ∃ t, exec e.1 s = .next t ∧ t.hart.gens = s.hart.gens
        ∧ VectorDone s t d w s.vc.lmul 1 (s.sel k) fun i => e.2.result (modesOf s.path.fmt).sm f (f.dec (x i)))
  ∧ ∀ (f : FF) (sm : Nat) (n : Bool), f = .f32 ∨ f = .f16 ∨ f = .bf16 →
      let zero := fun n => FVal.fin n 0 0 false
      let one := fun n => FVal.fin n 1 0 false
      ∀ e ∈ [(Approx.rsq, FVal.nan, FVal.nan), (.rcp, .nan, .nan), (.exp, .nan, .nan), (.log, .nan, .nan), (.tanh, .nan, .nan),
          (.sin, .nan, .nan), (.cos, .nan, .nan), (.rsq, zero n, .inf n), (.rsq, .inf false, zero false), (.rsq, one true, .nan),
          (.rcp, zero n, .inf n), (.rcp, .inf n, zero n), (.exp, .inf true, zero false), (.exp, .inf false, .inf false),
          (.log, zero n, .inf true), (.log, one true, .nan), (.log, .inf false, .inf false), (.log, one false, zero false),
          (.tanh, .inf n, one n), (.tanh, zero n, zero n), (.sin, .inf n, .nan), (.sin, zero n, zero n),
          (.cos, .inf n, .nan), (.cos, zero n, one false)],
        e.1.result sm f e.2.1 = satF 0 sm f e.2.2

/-- R117, R118, R119: the operations that do not round: the smaller and the larger operand with −0 below +0 and one NaN giving way, the sign bit cleared or inverted, and the class of a pattern. R118: each approximation writes one value for an operand, ignores the rounding mode and draws nothing; and on the special inputs of the table that value is the table's, passed through Sat. Elsewhere the value is free within its bound (log 5). -/
def Obligations.VectorFloatPatternAndApproximationResults : Prop :=
  Sys2Proof.Claims.VectorFloatPatternResults ∧ Sys2Proof.Claims.VectorApproximationResults

/-- R121, R122: VCVT clamps integers, rounds and clamps floats into integers, and rounds by F into every floating-point format; the destination group has the width of its own format. An inline constant of a narrow format is rounded first, with one draw under SR, by lane 0 as the model chooses (log 65). -/
def Obligations.VectorConversionResults : Prop :=
  ∀ (s : State) (d : Dst) (a : Src) (cd : BitVec 4) (ce : BitVec 3) (k : MSel) (src : CvtFmt) (x : Nat → Nat),
    let w := s.vc.sew
    let dst := cvtDst cd
    let dw := dst.width
    let L := Nat.max 1 (s.vc.lmul * dw / w)
    let m := modesOf s.path.fmt
    cvtSrc w ce = some src → s.sewOk s.vc = true → (s.onBank = true → dw = 16 ∨ dw = 32) → L ≤ 8 →
    (if d.nw then s.vc.lmul = 1 ∧ L = 1 else s.vc.regOk d.reg.toNat L = true) → s.vc.srcOk a s.vc.lmul = true →
    s.vc.selOk k = true → (dw = w ∨ dstMeets d L a s.vc.lmul = false) → s.vsrc s.vc a w (fun n => (src.const m s.hart.gens n).1) = .ok x →
    s.heldSrc a s.vc.lmul = .ok () → s.heldDst d L = .ok () →
    let act := Active s dw (s.sel k)
    let gens := src.constGens m s.hart.gens a
    let W := wordOf m (lowLane s w) act gens
    let new := fun i => match src, dst with
      | .int v nat, .int v' nat' => (max (intMin v' nat') (min (intMax v' nat') (valOf (x i) v nat)) % 2 ^ v').toNat
      | .fp f, .int v' nat' => (satI v' nat' (roundI m.rm (W i) (f.dec (x i % 2 ^ f.bits))) % 2 ^ v').toNat
      | .int v nat, .fp g => fOf m.rm m.sm g (W i) (.ofInt (valOf (x i) v nat))
      | .fp f, .fp g => fOf m.rm m.sm g (W i) (f.dec (x i % 2 ^ f.bits))
    ∃ t, exec (.vcvt d a cd ce k) s = .next t ∧ VectorDone s t d dw L 1 (s.sel k) new
      ∧ t.hart.gens = match src, dst with
        | .int _ _, .int _ _ => gens
        | _, _ => drawn m (lowLane s w) act gens s.vc.max

/-- R123, R125, R158, R126: VQUANT writes one register of 256 bytes whose trailer names the target and the count, carries the check sum of the first 224 bytes and leaves its reserved bytes zero, so that the tile is consistent; VDEQ decodes such a tile into F of each element's value. -/
def Obligations.QuantisedTileResults : Prop :=
  (∀ (s : State) (d : Dst) (a : Src) (q : BitVec 3) (u : Bool) (f : FF) (tg : Target) (x : Nat → Nat),
    fpFormat u s.vc.sew = some f → targets q.toNat = some tg → s.onBank = false → s.vc.vl ≤ tg.cap →
    s.vc.dstOk d 1 = true → s.vc.srcOk a s.vc.lmul = true → dstMeets d 1 a s.vc.lmul = false →
    s.path.lanes = BitVec.allOnes 64 → s.path.emask = BitVec.allOnes 64 → s.vsrc s.vc a s.vc.sew (cstF f) = .ok x →
    s.heldSrc a s.vc.lmul = .ok () → s.heldDst d 1 = .ok () →
    ∃ t v, exec (.vquant d a q u) s = .next t ∧ PathDone s t 1 (.vector v) ∧ VectorFrame s t
      ∧ (∀ r < 32, vget t.hart.v r 0 = if d.nw = false ∧ r = d.reg.toNat then v else vget s.hart.v r 0)
      ∧ let bs := leBytes 256 v.toNat
        (bs.getD 236 0).toNat = q.toNat ∧ bs.getD 237 0 = 0 ∧ leNat ((bs.drop 238).take 2) = s.vc.vl
        ∧ (∀ i, 240 ≤ i → i < 256 → bs.getD i 0 = 0) ∧ leNat ((bs.drop 232).take 4) = (crc32c (bs.take 224)).toNat
        ∧ tileConsistent bs = true)
  ∧ ∀ (s : State) (d : Dst) (a : Src) (u : Bool) (k : MSel) (f : FF) (tg : Target) (v : VWord),
    let w := s.vc.sew
    let bs := leBytes 256 v.toNat
    let m := modesOf s.path.fmt
    let act := Active s w (s.sel k)
    fpFormat u w = some f → s.onBank = false → DstReady s d s.vc.lmul → s.vc.srcOk a 1 = true → s.vc.selOk k = true →
    dstMeets d s.vc.lmul a 1 = false → 
    s.vreg1 a (fun z => BitVec.ofNat 2048 (packCells w 0 (List.replicate (s.vc.vlen / w) (some (cstI w z))))) = .ok v → s.heldSrc a 1 = .ok () →
    targets (bs.getD 236 0).toNat = some tg → s.vc.vl ≤ tg.cap →
    ∃ t, exec (.vdeq d a u k) s = .next t
      ∧ VectorDone s t d w s.vc.lmul 1 (s.sel k)
          (fun i => fOf m.rm m.sm f (wordOf m (lowLane s w) act s.hart.gens i) (tileElem tg bs i))
      ∧ t.hart.gens = drawn m (lowLane s w) act s.hart.gens s.vc.max

/-! ## Class 1, reductions, scans, permutations, masks and lengths -/

open Classical in
/-- R127, R128: a reduction writes element 0 of one register: the initial value with every active element; nothing where `vl` is 0. VFREDSUM adds the pairwise tree's sum to the initial value and rounds once more. -/
def Sys2Proof.Claims.VectorReductionResults : Prop :=
  ∀ (s : State) (d : Dst) (a b : Src) (u : Bool) (k : MSel) (cst : Int → Nat) (x y : Nat → Nat),
    let w := s.vc.sew
    let E := s.vc.vlen / w
    s.sewOk s.vc = true → s.vc.dstOk d 1 = true → s.vc.srcOk a s.vc.lmul = true → s.vc.srcOk b 1 = true → s.vc.selOk k = true →
    s.vsrc s.vc a w cst = .ok x → s.vsrc s.vc b w cst = .ok y → s.heldSrc a s.vc.lmul = .ok () → s.heldSrc b 1 = .ok () →
    s.heldDst d 1 = .ok () →
    let takes := fun i => decide (Active s w (s.sel k) i)
    let parts := ((List.range s.vc.max).filter takes).map x
    let cell := fun (r : Nat) (i old : Nat) =>
      if s.vc.vl = 0 ∨ ¬ LanesOn s w i then old else if i = 0 then r else if s.vc.ta then 2 ^ w - 1 else old
    let num := fun (z : Nat) => if u then ((BitVec.ofNat w z).toNat : Int) else (BitVec.ofNat w z).toInt
    let done := fun (i : Instr) (r : Nat) => ∃ t, exec i s = .next t ∧ Written s t d w 1 1 E (cell r) ∧ t.hart.gens = s.hart.gens
    (cst = cstI w →
      (∀ e ∈ [(Instr.vredsum d a b u k, (parts.foldl (· + ·) (y 0)) % 2 ^ w)], done e.1 e.2)
      ∧ ∃ hi ∈ y 0 :: parts, ∃ lo ∈ y 0 :: parts, (∀ z ∈ y 0 :: parts, num z ≤ num hi ∧ num lo ≤ num z)
        ∧ done (.vredmax d a b u k) hi ∧ done (.vredmin d a b u k) lo)
    ∧ ∀ f, fpFormat u w = some f → cst = cstF f →
      let m := modesOf s.path.fmt
      let rm := if m.rm = rSR then rNE else m.rm
      let leaves := (List.range s.vc.max).map fun i => if takes i then f.dec (x i) else .fin false 0 0 false
      let add := fun p q => FF.f32.dec (fOf rm m.sm .f32 0 (FVal.add rm p q))
      let lane0 := draw s.hart.gens 0
      let sum := (f.dec (y 0)).add m.rm (treeSum add (Nat.log2 s.vc.max) leaves)
      let draws := m.rm = rSR ∧ s.vc.vl ≠ 0
      (∃ t, exec (.vfredsum d a b u k) s = .next t
        ∧ Written s t d w 1 1 E (cell (fOf m.rm m.sm f (if draws then lane0.1 else 0) sum))
        ∧ t.hart.gens = if draws then lane0.2 else s.hart.gens)
      ∧ ∀ e ∈ [(Instr.vfredmax d a b u k, FVal.max), (.vfredmin d a b u k, FVal.min)],
          done e.1 (f.enc ((parts.map f.dec).foldl e.2 (f.dec (y 0))))

/-- R129: the inclusive running sums restart at every head, on an active element or not, and take in the active elements alone. -/
def Sys2Proof.Claims.VectorScanResults : Prop :=
  ∀ (s : State) (d : Dst) (a b : Src) (u : Bool) (k : MSel) (cst : Int → Nat) (x : Nat → Nat) (h : Nat → Bool),
    let w := s.vc.sew
    s.sewOk s.vc = true → DstReady s d s.vc.lmul → s.vc.srcOk a s.vc.lmul = true → s.vc.msrcOk b = true → s.vc.selOk k = true →
    s.vsrc s.vc a w cst = .ok x → s.msrc b = .ok h → s.heldSrc a s.vc.lmul = .ok () →
    let act := Active s w (s.sel k)
    (cst = cstI w →
      ∃ t new, exec (.vscan d a b k) s = .next t ∧ VectorDone s t d w s.vc.lmul 1 (s.sel k) new ∧ t.hart.gens = s.hart.gens
        ∧ ∀ i < s.vc.max, let before := if h i = true ∨ i = 0 then 0 else new (i - 1)
            (act i → new i = (before + x i) % 2 ^ w) ∧ (¬ act i → new i = before))
    ∧ ∀ f, fpFormat u w = some f → cst = cstF f →
      let m := modesOf s.path.fmt
      ∃ t new, exec (.vfscan d a b u k) s = .next t ∧ VectorDone s t d w s.vc.lmul 1 (s.sel k) new
        ∧ t.hart.gens = drawn m (lowLane s w) act s.hart.gens s.vc.max
        ∧ ∀ i < s.vc.max, let before := if h i = true ∨ i = 0 then 0 else new (i - 1)
            (act i → new i = fOf m.rm m.sm f (wordOf m (lowLane s w) act s.hart.gens i) ((f.dec before).add m.rm (f.dec (x i))))
            ∧ (¬ act i → new i = before)

/-- R127, R128: a reduction writes element 0 of one register: the initial value with every active element; nothing where `vl` is 0. VFREDSUM adds the pairwise tree's sum to the initial value and rounds once more. R129: the inclusive running sums restart at every head, on an active element or not, and take in the active elements alone. -/
def Obligations.VectorReductionAndScanResults : Prop :=
  Sys2Proof.Claims.VectorReductionResults ∧ Sys2Proof.Claims.VectorScanResults

open Classical in
/-- R130 to R132: slides, gather, compress and iota. -/
def Obligations.VectorPermutationResults : Prop :=
  ∀ (s : State) (d : Dst) (a b c mk : Src) (k : MSel) (x y : Nat → Nat) (n : Word64) (h : Nat → Bool),
    let w := s.vc.sew
    let max := s.vc.max
    let L := s.vc.lmul
    SourcesReady s a b k (cstI w) x y → DstReady s d L → dstMeets d L a L = false → s.opnd c = .ok n →
    let done := fun (i : Instr) (new : Nat → Nat) =>
      ∃ t, exec i s = .next t ∧ VectorDone s t d w L 1 (s.sel k) new ∧ t.hart.gens = s.hart.gens
    (∃ t, exec (.vslideup d a c k) s = .next t ∧ t.hart.gens = s.hart.gens
      ∧ Written s t d w L 1 max fun i old =>
          if i < n.toNat then old else afterWrite s w (2 ^ w - 1) (s.sel k) i old (x (i - n.toNat)))
    ∧ done (.vslidedn d a c k) (fun i => if i + n.toNat < max then x (i + n.toNat) else 0)
    ∧ (dstMeets d L b L = false → done (.vrgather d a b k) (fun i => if y i < max then x (y i) else 0))
    ∧ (k ≠ .none →
        let places := (List.range max).filter fun i => decide (Active s w (fun _ => true) i)
        let chosen := (List.range max).filter fun i => decide (Active s w (s.sel k) i)
        ∃ t, exec (.vcompress d a k) s = .next t ∧ t.hart.gens = s.hart.gens
          ∧ Written s t d w L 1 max fun i old =>
              if i ∈ places then
                (match chosen[places.idxOf i]? with | some j => x j | none => if s.vc.ta then 2 ^ w - 1 else old)
              else if LanesOn s w i ∧ s.vc.ta = true then 2 ^ w - 1 else old)
    ∧ (s.vc.msrcOk mk = true → s.msrc mk = .ok h →
        done (.viota d mk k) fun i => ((List.range i).filter fun j => decide (Active s w (s.sel k) j) && h j).length % 2 ^ w)

open Classical in
/-- R133: VSORTK places the keys of the active positions in order, equal keys in lane order, each with its payload in the next register. -/
def Obligations.VectorSortResults : Prop :=
  ∀ (s : State) (d : BitVec 6) (a b : Src) (u e : Bool) (x y : Nat → Nat),
    s.onBank = false → s.vc.sew = 32 → s.vc.lmul = 1 → d.toNat % 2 = 0 → d.toNat < 32 →
    SourcesReady s a b .none (cstI 32) x y → dstMeets ⟨d, false⟩ 2 a 1 = false → dstMeets ⟨d, false⟩ 2 b 1 = false →
    s.heldRegs d.toNat 2 = .ok () →
    let num := fun (i : Nat) => if u then ((BitVec.ofNat 32 (x i)).toNat : Int) else (BitVec.ofNat 32 (x i)).toInt
    let places := (List.range s.vc.max).filter fun i => decide (Active s 32 (fun _ => true) i)
    ∃ t order, exec (.vsortk d a b u e) s = .next t ∧ PathDone s t 1 Latch.none ∧ VectorFrame s t ∧ t.hart.gens = s.hart.gens
      ∧ List.Perm order places
      ∧ order.Pairwise (fun i j => (if e then num j < num i else num i < num j) ∨ (num i = num j ∧ i < j))
      ∧ (∀ r < 32, r ≠ d.toNat → r ≠ d.toNat + 1 → vget t.hart.v r 0 = vget s.hart.v r 0)
      ∧ ∀ i < s.vc.max, ∀ g ∈ [(d.toNat, x), (d.toNat + 1, y)],
          t.hart.elem s.vc.vlen g.1 32 i =
            match (if i ∈ places then order[places.idxOf i]? else none) with
            | some j => g.2 j
            | none => if LanesOn s 32 i ∧ s.vc.vl ≤ i ∧ s.vc.ta = true then 2 ^ 32 - 1 else s.hart.elem s.vc.vlen g.1 32 i

/-- R113, R104, R105: a length instruction takes a type and the smaller of the requested length and the type's VLMAX, which is also its result. -/
def Sys2Proof.Claims.SetLengthResults : Prop :=
  ∀ (s : State) (d : Dst) (a b : Src) (n : Word64) (ty : BitVec 6), s.opnd a = .ok n →
    let vlen := if s.onBank then 512 else 2048
    let vl := BitVec.ofNat 64 (min n.toNat (vlen / (8 * 2 ^ (ty.extractLsb' 0 2).toNat) * 2 ^ (ty.extractLsb' 2 2).toNat))
    let s' := s.setHart { s.hart with vtype := ty.setWidth 64, vl := vl }
    s.vc.nwOk d = true → (∃ t, exec (.setvli d a ty) s = .next t ∧ ScalarDone s' t d 1 vl)
    ∧ (s.opnd b = .ok (ty.setWidth 64) → ∃ t, exec (.setvl d a b) s = .next t ∧ ScalarDone s' t d 1 vl)

open Classical in
/-- R134, R135: mask logic below `vl`, the count and the first of the active set bits, and the execution mask, of which lanes outside the path read as zero and are not written. -/
def Sys2Proof.Claims.MaskLogicAndExecutionMaskResults : Prop :=
  ∀ (s : State) (d : Dst) (a b c : Src) (k : MSel) (x y : Nat → Bool) (z : Word64) (m : MWord),
    s.sewOk s.vc = true → s.vc.msrcOk a = true → s.msrc a = .ok x →
    let hits := (List.range s.vc.max).filter fun i => decide (Active s s.vc.sew (s.sel k) i) && x i
    (s.vc.mdstOk d = true → (∃ t, exec (.mnot d a) s = .next t ∧ MaskDone s t d (fun _ => true) fun i => !x i)
      ∧ (s.vc.msrcOk b = true → s.msrc b = .ok y →
          ∀ e ∈ [(Instr.mand d a b, fun i => x i && y i), (.mor d a b, fun i => x i || y i), (.mxor d a b, fun i => x i ^^ y i),
            (.mandn d a b, fun i => x i && !y i)], ∃ t, exec e.1 s = .next t ∧ MaskDone s t d (fun _ => true) e.2))
    ∧ (s.vc.selOk k = true → s.vc.nwOk d = true → (∃ t, exec (.mpop d a k) s = .next t ∧ ScalarDone s t d 1 (BitVec.ofNat 64 hits.length))
      ∧ ∃ t, exec (.mfirst d a k) s = .next t
          ∧ ScalarDone s t d 1 (match hits.head? with | some i => BitVec.ofNat 64 i | none => BitVec.allOnes 64))
    ∧ (s.vc.nwOk d = true → ∃ t, exec (.emget d false) s = .next t ∧ ScalarDone s t d 1 s.path.emask)
    ∧ (s.vc.nwOk d = true → ∃ t, exec (.emget d true) s = .next t ∧ PathDone s t 1 (Latch.mask (s.path.emask.setWidth 256))
        ∧ (∀ r < 8, vget t.hart.m r 0 = if r = d.reg.toNat ∧ d.nw = false then s.path.emask.setWidth 256 else vget s.hart.m r 0)
        ∧ t.hart.s = s.hart.s ∧ t.hart.v = s.hart.v ∧ SameRegs s t ∧ OnlyHart s t)
    ∧ (s.opnd c = .ok z → ∃ t, exec (.emset c false) s = .next t ∧ Passed (s.setPath { s.path with emask := z &&& s.path.lanes }) t 1)
    ∧ (s.opndM c = .ok m →
        ∃ t, exec (.emset c true) s = .next t ∧ Passed (s.setPath { s.path with emask := m.setWidth 64 &&& s.path.lanes }) t 1)

/-- R113, R104, R105: a length instruction takes a type and the smaller of the requested length and the type's VLMAX, which is also its result. R134, R135: mask logic below `vl`, the count and the first of the active set bits, and the execution mask, of which lanes outside the path read as zero and are not written. -/
def Obligations.LengthAndMaskResults : Prop :=
  Sys2Proof.Claims.SetLengthResults ∧ Sys2Proof.Claims.MaskLogicAndExecutionMaskResults

/-! ## Class 2, loads and stores -/

/-- R77, R78, R225, R255: a scalar load forms its address, reads the bytes there and extends them into dst; an acquire of scope `.die` or wider then leaves the core's L1 without lines. Memory stays as it is; a die cache may have written modified lines back before a bank core reads (R301). -/
def Sys2Proof.Claims.ScalarLoadResults : Prop :=
  ∀ (s : State) (d : Dst) (a : Src) (t : IntTy) (l : MemM) (q : MemS) (base va : Word64) (w : Where) (bs : List Byte),
    let n := 2 ^ t.width.toNat
    s.opnd a = .ok base → s.find aLoad .all va n n = .ok w →
    let at_ := s.evictFor (w.loads va) n
    (s.form l.space base (l.off.signExtend 64) = .ok va → at_.load w va n false = .ok bs →
      ∃ u, exec (.ld d a t l) s = .next u ∧ LoadDone s u d 2 (extended t (leNat bs)))
    ∧ (s.form q.space base (q.off.signExtend 64) = .ok va →
      at_.load w va n (q.scope = .die || q.scope = .dev || q.scope = .sys) = .ok bs →
      ∃ u, exec (.ldaq d a t q) s = .next u ∧ LoadDone s u d 2 (extended t (leNat bs))
        ∧ (s.onBank = false → q.scope = .die ∨ q.scope = .dev ∨ q.scope = .sys → (u.coreOf s.team.core).l1 = []))

/-- R78, R79, R196, R203: what a load of the team's own allocation finds where nothing of the group is on its way to it and no word of it is marked: the little-endian number in the bytes from the allocation offset on. -/
def Sys2Proof.Claims.LoadOfTheAllocationReadsItsBytes : Prop :=
  ∀ (s : State) (d : Dst) (a : Src) (t : IntTy) (off : BitVec 30) (base : Word64),
    let n := 2 ^ t.width.toNat
    let e := (base + off.signExtend 64).toNat
    s.onBank = false → s.opnd a = .ok base → e + n ≤ s.team.spadBytes → s.team.spadBytes ≤ 2 ^ 20 → e % n = 0 →
    s.hart.sq = [] → s.hart.near = [] → s.hart.region = none → s.team.markedAt e n = false →
    s.putAhead s.hart (.spad s.cur.team e) n = false →
    ∃ u, exec (.ld d a t ⟨.l, off⟩) s = .next u
      ∧ LoadDone s u d 2 (extended t (sumNat ((List.range n).map fun i => (s.team.mem.byte (e + i)).toNat * 256 ^ i) : Nat))

/-- R77, R78, R225, R255: a scalar load forms its address, reads the bytes there and extends them into dst; an acquire of scope `.die` or wider then leaves the core's L1 without lines. Memory stays as it is. R78, R79, R196, R203: what a load of the team's own allocation finds where nothing of the group is on its way to it and no word of it is marked: the little-endian number in the bytes from the allocation offset on. -/
def Obligations.ScalarLoadsReadTheirBytes : Prop :=
  Sys2Proof.Claims.ScalarLoadResults ∧ Sys2Proof.Claims.LoadOfTheAllocationReadsItsBytes

/-- R224, R250, R197, R261, R300: a scalar store enters the group's store queue with the low bytes of its operand, or acts on an aperture through it; on a bank core the bytes reach the bank at once. -/
def Sys2Proof.Claims.ScalarStoreEffects : Prop :=
  ∀ (s : State) (a b : Src) (t : IntTy) (i : Instr) (sp : Space) (off : Word64) (rel : Option Scope) (base x va : Word64),
    let n := 2 ^ t.width.toNat
    ((∃ l : MemM, i = .st a b t l ∧ sp = l.space ∧ off = l.off.signExtend 64 ∧ rel = none)
      ∨ ∃ l : MemS, i = .strl a b t l ∧ sp = l.space ∧ off = l.off.signExtend 64 ∧ rel = some l.scope) →
    s.opnd a = .ok base → s.opnd b = .ok x → s.form sp base off = .ok va →
    (∀ p, s.onBank = false → s.find aStore .all va n n = .ok (.mem p) →
      let far := p.tgt.device.isSome
      let cells := cellsAt p.tgt (leBytes n x.toNat)
      let op := if rel = some .grp ∧ far then SQOp.flag cells va else .bytes cells va n
      Room s op (!far) far rel.isSome →
      ∃ u, exec i s = .next u ∧ Enters s u op (!far) far rel.isSome (rel.getD .grp) 2)
    ∧ (∀ op, s.onBank = false → s.find aStore .all va n n x = .ok .ap → s.apertureStore va n x = .ok op →
      s.hart.counter kCopy < 65535 → Room s op true false rel.isSome →
      ∃ u, exec i s = .next u
        ∧ Enters s u op true false rel.isSome (rel.getD .grp) 2 (match op with | .copyStart _ _ => true | _ => false))
    ∧ (∀ p k, s.onBank = true → s.find aStore .all va n n = .ok (.mem p) → p.tgt = .home k → s.mem.wf = true →
      ∃ u, exec i s = .next u ∧ PathDone s u 2 Latch.none ∧ u.hart.s = s.hart.s ∧ u.hart.v = s.hart.v
        ∧ (∀ j, j ≠ s.hid → u.hartOf j = s.hartOf j) ∧ u.teams = s.teams
        ∧ ∀ j, u.mem.byte j = if k ≤ j ∧ j < k + n then (leBytes n x.toNat).getD (j - k) 0 else s.mem.byte j)

/-- R22, R250: a load of the group's own allocation returns the value that the group's youngest store to those bytes left in its queue, before that store is performed. -/
def Sys2Proof.Claims.LoadReturnsTheGroupsOwnStore : Prop :=
  ∀ (s : State) (c : Clause) (d : Dst) (a b : Src) (t : IntTy) (off : BitVec 30) (n : BitVec 6) (x : Word64),
    let w := 2 ^ t.width.toNat
    let e := ((s.hart.sreg n) + off.signExtend 64).toNat
    s.cur.unit = .group → s.path.clause = some c → c.idx + 2 ≤ c.count → a = .reg n → s.opnd b = .ok x → e + w ≤ s.team.spadBytes → s.team.spadBytes ≤ 2 ^ 20 →
    e % w = 0 → s.hart.counter kSt < 65535 → s.hart.region = none → s.hart.near = [] → s.team.markedAt e w = false →
    s.inFold s.team.core s.cur.team e w = false → (∀ q ∈ s.hart.sq, q.id < s.hart.nextOp) →
    (∀ q ∈ s.hart.sq, ∀ es va, q.op ≠ .atomic es va) → s.putAhead s.hart (.spad s.cur.team e) w = false →
    ∃ u v, exec (.st a b t ⟨.l, off⟩) s = .next u ∧ exec (.ld d a t ⟨.l, off⟩) u = .next v
      ∧ LoadDone u v d 2 (extended t (value t x))

/-- R224, R250, R197, R261, R300: a scalar store enters the group's store queue with the low bytes of its operand, or acts on an aperture through it; on a bank core the bytes reach the bank at once. R22, R250: a load of the group's own allocation returns the value that the group's youngest store to those bytes left in its queue, before that store is performed. -/
def Obligations.ScalarStoresAreQueuedAndForwarded : Prop :=
  Sys2Proof.Claims.ScalarStoreEffects ∧ Sys2Proof.Claims.LoadReturnsTheGroupsOwnStore

/-- R250, R203: when the oldest entry of a queue, a plain store to an allocation of this device, is performed, exactly its bytes change, the entry leaves the queue and `st` falls. -/
def Obligations.StorePerformWritesExactlyItsBytes : Prop :=
  ∀ (s : State) (k g id off : Nat) (va : Word64) (bs : List Byte) (es : List SQEntry) (rest : List (Nat × Bool)) (e : SQEntry),
    let h := s.hartOf (.group k g)
    h.sq = e :: es → e.op = .bytes (cellsAt (.spad k off) bs) va bs.length → e.id = id → e.release = false → e.st = true → e.fab = false →
    bs ≠ [] → bs.length ≤ 256 → h.near = [] → (s.teamOf k).syncs = [] → (s.teamOf k).mem.wf = true → s.choice < 3 → s.putFirst k g e = false →
    vget h.ledger kSt [] = (id, false) :: rest → (∀ x ∈ rest, x.1 ≠ id ∧ x.2 = false) →
    ∃ t, exec (.storePerform k g) s = .next t ∧ (t.hartOf (.group k g)).sq = es
      ∧ (t.hartOf (.group k g)).counter kSt = h.counter kSt - 1
      ∧ (∀ a, (t.teamOf k).mem.byte a = if off ≤ a ∧ a < off + bs.length then bs.getD (a - off) 0 else (s.teamOf k).mem.byte a)
      ∧ (∀ j, j ≠ k → t.teamOf j = s.teamOf j) ∧ t.mem = s.mem ∧ (∀ i, i ≠ .group k g → t.hartOf i = s.hartOf i)
      ∧ (t.hartOf (.group k g)).s = h.s ∧ (t.hartOf (.group k g)).v = h.v

/-- R136 to R139, R228: a vector load reads each active element at its address, and writes them by R110. -/
def Sys2Proof.Claims.VectorLoadResults : Prop :=
  ∀ (s : State) (d : Dst) (a b : Src) (k : MSel) (l : MemM) (x : MemX) (base step : Word64) (idx : Nat → Nat) (i : Instr)
    (sp : Space) (wins : Wins) (e va : Nat → Word64) (p : Nat → Place) (bs : Nat → List Byte),
    let w := s.vc.sew
    let L := s.vc.lmul
    let xw := 8 * 2 ^ x.xw.toNat
    let offset := fun i => (if x.xs then (BitVec.ofNat xw (idx i)).toInt else ((BitVec.ofNat xw (idx i)).toNat : Int)) * 2 ^ x.scale.toNat
    s.opnd a = .ok base →
    ((i = .vld d a k l ∧ sp = l.space ∧ wins = .all ∧ e = fun j => base + l.off.signExtend 64 + BitVec.ofNat 64 (j * (w / 8)))
      ∨ (i = .vlds d a b k l ∧ s.opnd b = .ok step ∧ sp = l.space ∧ wins = .all
          ∧ e = fun j => base + l.off.signExtend 64 + BitVec.ofNat 64 j * step)
      ∨ (i = .vldx d a b k x ∧ s.vsrc s.vc b xw (cstI xw) = .ok idx ∧ indexOk s.vc b x.xw = true
          ∧ (xw = w ∨ dstMeets d L b (indexRegs s.vc x.xw) = false) ∧ s.heldSrc b (indexRegs s.vc x.xw) = .ok ()
          ∧ sp = x.space ∧ wins = .upToE ∧ e = fun j => base + x.off.signExtend 64 + BitVec.ofInt 64 (offset j))) →
    s.sewOk s.vc = true → DstReady s d L → s.vc.selOk k = true → Elements s k aLoad wins sp e va p →
    let at_ := s.evictFor ((actives s k).map fun j => (va j, p j)) (w / 8)
    (∀ j ∈ actives s k, at_.load (.mem (p j)) (va j) (w / 8) false = .ok (bs j) ∧ (bs j).length = w / 8) →
    ∃ t b, exec i s = .next t ∧ PathDone s t 2 b ∧ OnlyHartAndCaches s t ∧ t.hart.s = s.hart.s ∧ t.hart.m = s.hart.m
      ∧ t.hart.gens = s.hart.gens ∧ SameRegs s t
      ∧ (d.nw = false → ∀ j < s.vc.max, t.hart.elem s.vc.vlen d.reg.toNat w j
          = afterWrite s w (2 ^ w - 1) (s.sel k) j (s.hart.elem s.vc.vlen d.reg.toNat w j) (leNat (bs j)))
      ∧ (∀ r < 32, d.nw = true ∨ r < d.reg.toNat ∨ d.reg.toNat + L ≤ r → vget t.hart.v r 0 = vget s.hart.v r 0)

/-- R227: a first-fault load whose elements can all be read loads them all; where element m is the first that traps, and not the first of all, it loads those below m and sets `vl` to m. -/
def Sys2Proof.Claims.FirstFaultLoadStopsAtTheFirstFailingElement : Prop :=
  ∀ (s : State) (d : Dst) (a : Src) (k : MSel) (l : MemM) (base : Word64) (bs : Nat → List Byte) (m : Nat) (tr : TrapRec) (first : Nat),
    let w := s.vc.sew
    let read : Nat → Res (List Byte) := fun j => do
      let va ← s.form l.space (base + l.off.signExtend 64 + BitVec.ofNat 64 (j * (w / 8))) 0
      let p ← s.find aLoad .upToE va (w / 8) (w / 8)
      s.load p va (w / 8) false
    s.onBank = false → s.opnd a = .ok base → DstReady s d s.vc.lmul → s.vc.selOk k = true → first ∈ actives s k → first < m →
    (∀ j ∈ actives s k, j < m → read j = .ok (bs j) ∧ (bs j).length = w / 8) →
    (m = s.vc.vl ∨ (m ∈ actives s k ∧ read m = .error (.trap tr)
      ∧ tr.cause ∈ [Cause.accessViolation, .pageFault, .misaligned, .stackLimit, .poison])) →
    ∃ t b, exec (.vldff d a k l) s = .next t ∧ PathDone s t 2 b ∧ t.hart.vl = BitVec.ofNat 64 m
      ∧ (d.nw = false → ∀ j < m, j < s.vc.max → t.hart.elem s.vc.vlen d.reg.toNat w j
          = afterWrite s w (2 ^ w - 1) (s.sel k) j (s.hart.elem s.vc.vlen d.reg.toNat w j) (leNat (bs j)))
      ∧ (∀ r < 32, d.nw = true ∨ r < d.reg.toNat ∨ d.reg.toNat + s.vc.lmul ≤ r → vget t.hart.v r 0 = vget s.hart.v r 0)
      ∧ t.hart.s = s.hart.s ∧ t.hart.m = s.hart.m ∧ OnlyHartAndCaches s t

/-- R136 to R139, R228: a vector load reads each active element at its address, and writes them by R110. R227: a first-fault load whose elements can all be read loads them all; where element m is the first that traps, and not the first of all, it loads those below m and sets `vl` to m. -/
def Obligations.VectorLoadAndFirstFaultResults : Prop :=
  Sys2Proof.Claims.VectorLoadResults ∧ Sys2Proof.Claims.FirstFaultLoadStopsAtTheFirstFailingElement

/-- R136 to R139, R224, R229: a vector store of elements in this device's memory enters the store queue once, with the bytes of the active elements in increasing order; with no active element it only goes on. On a bank core the same bytes reach the bank in that order. -/
def Obligations.VectorStoreEffects : Prop :=
  ∀ (s : State) (d : BitVec 6) (a b : Src) (k : MSel) (l : MemM) (x : MemX) (base step : Word64) (idx : Nat → Nat) (i : Instr)
    (sp : Space) (wins : Wins) (e va : Nat → Word64) (p : Nat → Place),
    let w := s.vc.sew
    let L := s.vc.lmul
    let xw := 8 * 2 ^ x.xw.toNat
    let offset := fun i => (if x.xs then (BitVec.ofNat xw (idx i)).toInt else ((BitVec.ofNat xw (idx i)).toNat : Int)) * 2 ^ x.scale.toNat
    s.opnd a = .ok base →
    ((i = .vst d a k l ∧ sp = l.space ∧ wins = .all ∧ e = fun j => base + l.off.signExtend 64 + BitVec.ofNat 64 (j * (w / 8)))
      ∨ (i = .vsts d a b k l ∧ s.opnd b = .ok step ∧ sp = l.space ∧ wins = .all
          ∧ e = fun j => base + l.off.signExtend 64 + BitVec.ofNat 64 j * step)
      ∨ (i = .vstx d a b k x ∧ s.vsrc s.vc b xw (cstI xw) = .ok idx ∧ indexOk s.vc b x.xw = true
          ∧ s.heldSrc b (indexRegs s.vc x.xw) = .ok ()
          ∧ sp = x.space ∧ wins = .upToE ∧ e = fun j => base + x.off.signExtend 64 + BitVec.ofInt 64 (offset j))) →
    s.sewOk s.vc = true → s.vc.regOk d.toNat L = true → s.heldRegs d.toNat L = .ok () → s.vc.selOk k = true →
    Elements s k aStore wins sp e va p → (∀ j ∈ actives s k, (p j).tgt.device = none) →
    let data := fun j => leBytes (w / 8) (s.hart.elem s.vc.vlen d.toNat w j)
    let op := SQOp.bytes ((actives s k).flatMap fun j => cellsAt (p j).tgt (data j)) (((actives s k).head?.map va).getD 0) (w / 8)
    (s.onBank = false → actives s k = [] → ∃ t, exec i s = .next t ∧ Passed s t 2)
    ∧ (s.onBank = false → actives s k ≠ [] → Room s op true false false →
        ∃ t, exec i s = .next t ∧ Enters s t op true false false .grp 2)
    ∧ (s.onBank = true → ∃ t, exec i s = .next t ∧ PathDone s t 2 Latch.none ∧ t.hart.s = s.hart.s ∧ t.hart.v = s.hart.v
        ∧ t.mem = (actives s k).foldl (fun m j => match (p j).tgt with | .home key => m.write key (data j) | _ => m) s.mem
        ∧ t.teams = s.teams)

/-! ## Class 2, tiles, tags, atomics and caches -/

/-- R230 to R233: TLD moves 256 bytes from memory into one whole register, TST and PUTT enter the store queue with the register's 256 bytes, the put as a release of its scope; a whole undivided group with every lane on does so. -/
def Obligations.TileTransferResults : Prop :=
  ∀ (s : State) (d : Dst) (r : BitVec 6) (a : Src) (chk : Bool) (l : MemM) (q : MemS) (base va : Word64) (p : Place),
    s.path.lanes = BitVec.allOnes 64 → s.path.emask = BitVec.allOnes 64 → s.opnd a = .ok base →
    (∀ bs, s.heldDst d 1 = .ok () → s.form l.space base (l.off.signExtend 64) = .ok va → s.locate aLoad .upToE va 256 256 = .ok p →
      s.readAt p va 256 false = .ok bs → (chk = true → tileConsistent bs = true) →
      ∃ t, exec (.tld d a chk l) s = .next t ∧ TileLoaded s t d (bytesToBits 2048 bs) ∧ OnlyHartAndCaches s t)
    ∧ (s.onBank = false → s.heldRegs r.toNat 1 = .ok () →
      let bytes := leBytes 256 (vget s.hart.v r.toNat 0).toNat
      let far := p.tgt.device.isSome
      (s.form l.space base (l.off.signExtend 64) = .ok va → s.locate aStore .upToE va 256 256 = .ok p →
        let op := SQOp.bytes (cellsAt p.tgt bytes) va 256
        Room s op (!far) far false → ∃ t, exec (.tst r a l) s = .next t ∧ Enters s t op (!far) far false .grp 2)
      ∧ (s.form q.space base (q.off.signExtend 64) = .ok va → s.locate aStore .tiles va 256 256 = .ok p → p.tgt.takesPut = true →
        let op := SQOp.put p.tgt va bytes
        Room s op (!far) far true → ∃ t, exec (.putt r a q) s = .next t ∧ Enters s t op (!far) far true q.scope 2))

/-- R234, R209: on a FULL tile of the own allocation LDC and LDP take its 256 bytes. LDP leaves the tag; LDC leaves it EMPTY, or, where a put is held for the tile and no path waits, applies the oldest one in the same step, so that the tile is FULL with that put's data. On an EMPTY tile the path suspends. -/
def Obligations.ConsumeAndPeekOfTiles : Prop :=
  ∀ (s : State) (d : Dst) (a : Src) (chk : Bool) (l : MemS) (base va : Word64) (k o : Nat) (fe : Bool),
    s.path.lanes = BitVec.allOnes 64 → s.path.emask = BitVec.allOnes 64 → s.opnd a = .ok base → s.heldDst d 1 = .ok () →
    s.form l.space base (l.off.signExtend 64) = .ok va → s.path.grant = none → s.onBank = false →
    s.locate aLoad .own va 256 256 = .ok ⟨.spad k o, fe⟩ → s.tilePending o = false →
    let tile := o / 256
    let bs := s.team.mem.read (256 * tile) 256
    k = s.cur.team →
    ((s.teamOf k).tag tile = .empty →
      (∃ t, exec (.ldc d a chk l) s = .next t ∧ t.path.susp = some (.tile tile true chk va) ∧ t.teams = s.teams)
      ∧ ∃ t, exec (.ldp d a chk l) s = .next t ∧ t.path.susp = some (.tile tile false chk va) ∧ t.teams = s.teams)
    ∧ ((s.teamOf k).tag tile = .full → (chk = true → tileConsistent bs = true) → s.team.markedAt (256 * tile) 256 = false →
      (∃ t, exec (.ldp d a chk l) s = .next t ∧ TileLoaded s t d (bytesToBits 2048 bs) ∧ OnlyHartAndCaches s t)
      ∧ ((∀ h ∈ (s.coreOf s.team.core).hold, ¬ (h.team = k ∧ h.tile = tile)) →
          ∃ t, exec (.ldc d a chk l) s = .next t ∧ TileLoaded s t d (bytesToBits 2048 bs) ∧ (t.teamOf k).tag tile = .empty
            ∧ (∀ j, j ≠ tile → (t.teamOf k).tag j = (s.teamOf k).tag j) ∧ SameBytes s t ∧ ∀ j, j ≠ k → t.teamOf j = s.teamOf j)
      ∧ ∀ h hs, (s.coreOf s.team.core).hold = h :: hs → h.team = k → h.tile = tile → h.marks = [] → h.data.length = 256 →
          s.tileWaiters k tile = [] → s.team.syncs = [] → s.team.mem.wf = true → h.st = none → h.remote = none →
          ∃ t, exec (.ldc d a chk l) s = .next t ∧ TileLoaded s t d (bytesToBits 2048 bs) ∧ (t.teamOf k).tag tile = .full
            ∧ (∀ i, (t.teamOf k).mem.byte i = if 256 * tile ≤ i ∧ i < 256 * tile + 256 then h.data.getD (i - 256 * tile) 0 else s.team.mem.byte i)
            ∧ (t.coreOf s.team.core).hold = hs)

/-- R235, R236: TFILL and TEMPTY enter the store queue with their run of tiles, and do nothing for a run of none; TTAG reads the tags of 32 tiles into a scalar, two bits each, zero beyond the allocation, where it reads them all in one step; else it has read some of them and goes on in its next steps. -/
def Sys2Proof.Claims.TagInstructionResults : Prop :=
  ∀ (s : State) (d : Dst) (a b : Src) (l : MemM) (base n va : Word64) (k o : Nat) (fe : Bool),
    s.onBank = false → s.opnd a = .ok base → s.opnd b = .ok n → s.form l.space base (l.off.signExtend 64) = .ok va →
    (n = 0 → (∃ t, exec (.tfill a b l) s = .next t ∧ Passed s t 2) ∧ ∃ t, exec (.tempty a b l) s = .next t ∧ Passed s t 2)
    ∧ (s.locate aLoad .own va 1 1 = .ok ⟨.spad k o, fe⟩ →
      (n ≠ 0 → o / 256 + n.toNat ≤ s.team.spadBytes / 256 →
        (∃ t, exec (.tfill a b l) s = .next t ∧ Enters s t (.tfill (o / 256) n.toNat) false false false .grp 2)
        ∧ ∃ t, exec (.tempty a b l) s = .next t ∧ Enters s t (.tempty (o / 256) n.toNat) false false false .grp 2)
      ∧ (s.hart.tagsPending (o / 256) 32 = false → s.path.part = [] → s.choice = 0 →
        ∃ t x, exec (.ttag d a l) s = .next t ∧ ScalarDone s.chosen t d 2 x
        ∧ ∀ j < 32, (x.extractLsb' (2 * j) 2).toNat =
            if o / 256 + j < s.team.spadBytes / 256 then (match s.team.tag (o / 256 + j) with | .empty => 0 | .full => 1 | .poison => 2 | .never => 3)
            else 0))

/-- R237: the tag table: a lookup answers the slot of the entry that holds the key, an insertion replaces that entry's slot or takes the lowest invalid entry, a deletion makes the entry invalid; −1 answers where there is none. -/
def Sys2Proof.Claims.TagTableResults : Prop :=
  ∀ (s : State) (d : Dst) (a b : Src) (x y : Word64), s.opnd a = .ok x → s.opnd b = .ok y →
    let key := x.setWidth 48
    let n := s.team.spadBytes / 4096
    let entry := fun i => mfind i s.team.table
    let absent := ∀ i < n, ∀ v, entry i ≠ some (key, v)
    let change := fun (u : State) (i : Nat) (e : Option (BitVec 48 × Byte)) (r : Word64) =>
      ScalarWritten s u d r ∧ PathDone s u 1 (Latch.scalar r) ∧ u.hart.v = s.hart.v ∧ u.hart.m = s.hart.m ∧ SameRegs s u
        ∧ u.mem = s.mem ∧ (∀ j, j ≠ s.cur.team → u.teamOf j = s.teamOf j) ∧ u.team = { s.team with table := u.team.table }
        ∧ ∀ j, mfind j u.team.table = if j = i then e else entry j
    (absent → (∃ u, exec (.taglk d a) s = .next u ∧ ScalarDone s u d 1 (BitVec.allOnes 64))
      ∧ (∃ u, exec (.tagdel d a) s = .next u ∧ ScalarDone s u d 1 (BitVec.allOnes 64))
      ∧ ((∀ i < n, entry i ≠ none) → ∃ u, exec (.tagins d a b) s = .next u ∧ ScalarDone s u d 1 (BitVec.allOnes 64))
      ∧ ∀ i < n, entry i = none → (∀ j < i, entry j ≠ none) →
          ∃ u, exec (.tagins d a b) s = .next u ∧ change u i (some (key, y.setWidth 8)) (BitVec.ofNat 64 i))
    ∧ ∀ i < n, ∀ v, entry i = some (key, v) → (∀ j < i, ∀ z, entry j ≠ some (key, z)) →
        (∃ u, exec (.taglk d a) s = .next u ∧ ScalarDone s u d 1 (v.setWidth 64))
        ∧ (∃ u, exec (.tagins d a b) s = .next u ∧ change u i (some (key, y.setWidth 8)) (BitVec.ofNat 64 i))
        ∧ ∃ u, exec (.tagdel d a) s = .next u ∧ change u i none (v.setWidth 64)

/-- R235, R236: TFILL and TEMPTY enter the store queue with their run of tiles, and do nothing for a run of none; TTAG reads the tags of 32 tiles into a scalar, two bits each, zero beyond the allocation. R237: the tag table: a lookup answers the slot of the entry that holds the key, an insertion replaces that entry's slot or takes the lowest invalid entry, a deletion makes the entry invalid; −1 answers where there is none. -/
def Obligations.TagAndTagTableResults : Prop :=
  Sys2Proof.Claims.TagInstructionResults ∧ Sys2Proof.Claims.TagTableResults

/-- R239 to R241, R244: an atomic with return reads a location of this device and replaces it in one step, by its operation, or by the new value where the expected one is found; it answers the old value. Everything older of the group has been performed. -/
def Obligations.ScalarAtomicResults : Prop :=
  ∀ (s : State) (d : Dst) (a b : Src) (t : IntTy) (l : MemA) (base x va : Word64) (p : Place),
    let float := l.op = .fadd ∨ l.op = .fmin ∨ l.op = .fmax
    let w := if float then (if t.width = 2 then 32 else 16) else 8 * 2 ^ t.width.toNat
    let n := w / 8
    s.onBank = false → s.hart.region = none → s.opnd a = .ok base → s.opnd b = .ok x →
    s.form l.space base (l.off.signExtend 64) = .ok va → s.locate aAtomic .upToE va n n = .ok p →
    s.hart.sq = [] → s.blocked s.hart p.tgt n = false → s.drained l.scope = .ok () → s.bad p.tgt n = false →
    s.posted = [] → s.team.syncs = [] → s.team.mem.wf = true → s.mem.wf = true →
    ∀ (read : State → Nat → Byte) (at0 : Nat),
      ((∃ o, p.tgt = .spad s.cur.team o ∧ at0 = o ∧ read = fun u i => u.team.mem.byte i)
        ∨ ∃ key, p.tgt = .home key ∧ at0 = key ∧ read = fun u i => u.mem.byte i) →
      let old := sumNat ((List.range n).map fun i => (read s (at0 + i)).toNat * 256 ^ i)
      let done := fun (i : Instr) (new : Nat) (r : Word64) =>
        ∃ u, exec i s = .next u ∧ ScalarWritten s u d r ∧ PathDone s u 2 (Latch.scalar r)
          ∧ u.hart.v = s.hart.v ∧ u.hart.m = s.hart.m ∧ SameRegs s u ∧ (∀ j, j ≠ s.hid → u.hartOf j = s.hartOf j)
          ∧ ∀ i, read u i = if at0 ≤ i ∧ i < at0 + n then (leBytes n new).getD (i - at0) 0 else read s i
      let q := BitVec.ofNat w old
      (¬ float → done (.amo d a b t l) (atomNew t.nat l.op q (x.setWidth w)).toNat (extended t old)
        ∧ (l.op = .add → done (.cas d a b t l)
            (if q = (s.hart.sreg d.reg).setWidth w then (x.setWidth w).toNat else old) (extended t old)))
      ∧ (float → let f : FF := if t.width = 2 then .f32 else if t.nat then .bf16 else .f16
          let u := f.dec old
          let v := f.dec (x.toNat % 2 ^ w)
          done (.amo d a b t l)
            (if l.op = .fadd then fOf 0 0 f 0 (u.add 0 v) else if l.op = .fmin then f.enc (u.min v) else f.enc (u.max v))
            (BitVec.ofNat 64 old))

/-- R241, R250, R245, R224: an atomic without return enters the store queue as a release; a near-memory command leaves its element to the home and raises `near`. Neither changes a byte at issue. -/
def Obligations.AtomicsWithoutReturnAreQueued : Prop :=
  ∀ (s : State) (a b : Src) (r : BitVec 6) (t : IntTy) (u : Bool) (k : MSel) (l : MemA) (q : MemVA) (base x va : Word64) (p : Place)
    (ty : AtomTy) (idx vas : Nat → Word64) (ps : Nat → Place),
    s.hart.region = none → s.onBank = false → s.opnd a = .ok base → s.opnd b = .ok x →
    let sty := atomTyS l.op t
    let arg : AtomArg := ⟨l.op, sty, x.toNat % 2 ^ sty.bits, none⟩
    let varg := fun i => AtomArg.mk q.op ty (s.hart.elem s.vc.vlen r.toNat s.vc.sew i) none
    let near := fun (v : State) (es : List (Tgt × AtomArg)) (n : Nat) =>
      v.hart.near = s.hart.near ++ [⟨s.hart.nextOp, es⟩] ∧ v.hart.sq = s.hart.sq ∧ v.hart.region = none ∧ PathDone s v n Latch.none ∧ OnlyQueues s v
        ∧ ∀ j < 8, v.hart.counter j = s.hart.counter j + if j = kNear then 1 else 0
    (s.form l.space base (l.off.signExtend 64) = .ok va →
      (s.locate aAtomic .upToE va (sty.bits / 8) (sty.bits / 8) = .ok p →
        let far := p.tgt.device.isSome
        let op := SQOp.atomic [(p.tgt, arg)] va
        Room s op (!far) far true → ∃ v, exec (.amon a b t l) s = .next v ∧ Enters s v op (!far) far true l.scope 2)
      ∧ (s.locate aAtomic .global va (sty.bits / 8) (sty.bits / 8) = .ok p → s.hart.counter kNear < 65535 →
        ∃ v, exec (.nma a b t l) s = .next v ∧ near v [(p.tgt, arg)] 2))
    ∧ (atomTyV q.op u s.vc.sew = some ty → s.vc.selOk k = true → indexOk s.vc b q.xw = true → s.vc.regOk r.toNat s.vc.lmul = true →
      s.heldRegs r.toNat s.vc.lmul = .ok () → s.indexAddr a b (q.off.signExtend 64) q.xw q.xs q.scale = .ok idx → actives s k ≠ [] →
      let es := (actives s k).map fun i => ((ps i).tgt, varg i)
      (Elements s k aAtomic .upToE q.space idx vas ps → (∀ i ∈ actives s k, (ps i).tgt.device = none) →
        let op := SQOp.atomic es (((actives s k).head?.map vas).getD 0)
        Room s op true false true → ∃ v, exec (.vamon r a b u k q) s = .next v ∧ Enters s v op true false true q.scope 2)
      ∧ (Elements s k aAtomic .global q.space idx vas ps → s.hart.counter kNear < 65535 →
        ∃ v, exec (.vnma r a b u k q) s = .next v ∧ near v es 2))

/-- R242, R243: vector atomics on the own allocation whose elements are applied in one step apply the active elements in increasing order, each seeing what the one before it left, and return the old values by R110. -/
def Obligations.VectorAtomicResults : Prop :=
  ∀ (s : State) (d : Dst) (a b : Src) (u : Bool) (k : MSel) (l : MemVA) (ty : AtomTy) (idx vas : Nat → Word64) (ps : Nat → Place) (off : Nat → Nat),
    let c := s.vc
    let w := c.sew
    let n := w / 8
    s.onBank = false → s.hart.region = none → s.hart.sq = [] → s.hart.near = [] → s.drained l.scope = .ok () →
    atomTyV l.op u w = some ty → c.selOk k = true → indexOk c b l.xw = true → c.dstOk d c.lmul = true →
    s.indexAddr a b (l.off.signExtend 64) l.xw l.xs l.scale = .ok idx → Elements s k aAtomic .upToE l.space idx vas ps →
    (∀ i ∈ actives s k, (ps i).tgt = .spad s.cur.team (off i) ∧ s.team.markedAt (off i) n = false
      ∧ s.blocked s.hart (.spad s.cur.team (off i)) n = false) → s.team.syncs = [] → s.team.mem.wf = true → s.choice = 0 → s.path.part = [] →
    let value := fun r i => s.hart.elem c.vlen r w i
    let done := fun (i : Instr) (arg : Nat → AtomArg) => ∃ t b, exec i s = .next t ∧ PathDone s t 2 b
      ∧ t.team.mem = atomRun s.team.mem n off arg (actives s k)
      ∧ (d.nw = false → ∀ i < c.max, t.hart.elem c.vlen d.reg.toNat w i
          = afterWrite s w (2 ^ w - 1) (s.sel k) i (value d.reg.toNat i) (atomOld s.team.mem n off arg i (actives s k)))
      ∧ (∀ r < 32, d.nw = true ∨ r < d.reg.toNat ∨ d.reg.toNat + c.lmul ≤ r → vget t.hart.v r 0 = vget s.hart.v r 0)
      ∧ t.hart.s = s.hart.s ∧ t.hart.m = s.hart.m ∧ t.mem = s.mem ∧ ∀ j, j ≠ s.cur.team → t.teamOf j = s.teamOf j
    (c.regOk d.reg.toNat c.lmul = true → s.heldRegs d.reg.toNat c.lmul = .ok () →
      done (.vamo d a b u k l) fun i => ⟨l.op, ty, value d.reg.toNat i, none⟩)
    ∧ (d.nw = false → c.regOk d.reg.toNat (2 * c.lmul) = true → s.heldRegs d.reg.toNat (2 * c.lmul) = .ok () →
      done (.vcas d.reg a b u k l) fun i => ⟨l.op, ty, value (d.reg.toNat + c.lmul) i, some (value d.reg.toNat i)⟩)

/-- R226, R247 to R249: a fence whose scope is drained goes on and, from `.die` outward, leaves the core's L1 without lines; one that is not drained stalls. PREF changes nothing but caches; CINV discards the core's copy of the line, or every line; CCLEAN and CFLUSH enter the store queue for the line at home, and have no effect elsewhere. -/
def Obligations.FenceAndCacheInstructionResults : Prop :=
  ∀ (s : State) (sc : Scope) (a : Src) (dc : Bool) (l : MemM) (base : Word64), s.onBank = false → s.opnd a = .ok base →
    let core := s.team.core
    let without := fun (keep : Nat × List Byte → Bool) => s.setCoreOf core { s.coreOf core with l1 := (s.coreOf core).l1.filter keep }
    (s.drained sc = .ok () → ∃ t, exec (.fence sc) s = .next t
      ∧ Passed (if sc = .die ∨ sc = .dev ∨ sc = .sys then without fun _ => false else s) t 1)
    ∧ (s.quiet sc = false → ∃ t, exec (.fence sc) s = .next t ∧ t = s.setPath { s.path with stalled := true })
    ∧ (∃ t, exec (.pref a dc l) s = .next t ∧ PathDone s t 2 Latch.none ∧ t.hart.s = s.hart.s ∧ t.hart.v = s.hart.v ∧ SameRegs s t
        ∧ OnlyHartAndCaches s t)
    ∧ (∃ t, exec (.cinv a true l) s = .next t ∧ Passed (without fun _ => false) t 2)
    ∧ (s.homeLine a l = .ok none → ∀ i ∈ [Instr.cinv a false l, .cclean a l, .cflush a l], ∃ t, exec i s = .next t ∧ Passed s t 2)
    ∧ ∀ n, s.homeLine a l = .ok (some n) →
        (∃ t, exec (.cinv a false l) s = .next t ∧ Passed (without fun e => e.1 != n) t 2)
        ∧ (Room s (.clean n) true false false → ∃ t, exec (.cclean a l) s = .next t ∧ Enters s t (.clean n) true false false .grp 2)
        ∧ (Room s (.flush n) true false false → ∃ t, exec (.cflush a l) s = .next t ∧ Enters s t (.flush n) true false false .grp 2)

namespace Sys2Proof.Claims
open Sys2Proof.Machine

/-- The kinds of a path's four latches, two bits each, latch 0 lowest (R363). -/
def latchKinds (p : Path) : Nat :=
  let k := fun (l : Latch) => match l.kind with | .invalid => 0 | .scalar => 1 | .vector => 2 | .mask => 3
  k p.latches[0] + 4 * k p.latches[1] + 16 * k p.latches[2] + 64 * k p.latches[3]

/-- The trap frame of R363, for a precise trap of the focus's path: no fault serial. -/
def frame (s : State) (epc lanes addr2 : Word64) : List Byte :=
  leBytes 8 s.path.header.toNat ++ leBytes 8 epc.toNat ++ leBytes 8 lanes.toNat ++ leBytes 8 addr2.toNat
    ++ [BitVec.ofNat 8 (latchKinds s.path), if s.cur.path then 1 else 0, if s.hart.sys then 1 else 0, BitVec.ofNat 8 (min s.hart.lost 255)]
    ++ leBytes 4 0 ++ List.replicate 24 0

/-- u is the state in which the frame, the state of both paths, their latches and the records in hardware stand in the saved-state area (R97, R362 step 2, R366). -/
def Saved (s : State) (epc lanes addr2 : Word64) (u : State) : Prop :=
  let base := (s.hart.spbase - 65536).toNat
  let asid := s.hart.asid.toNat
  ∃ w x, s.vwrite asid true base (frame s epc lanes addr2 ++ s.hart.p0.bytes ++ s.hart.p1.bytes) = .ok w
    ∧ w.vwrite asid true (base + 0x400) (s.hart.p0.latchBytes ++ s.hart.p1.latchBytes) = .ok x
    ∧ x.vwrite asid true (base + 0xE00) s.hart.recBytes = .ok u

/-- The focus's path has entered its handler: cause, value and address in their registers, system mode, the clause at the handler with invalid latches and its own `emask`, the other path, where there is one, stopped; no other register, and no byte beside those saved, has changed (R362). -/
structure Trapped (s u t : State) (cause : Nat) (tval epc : Word64) : Prop where
  hart : t.hart = { s.hart with tcause := BitVec.ofNat 64 cause, tval := tval, epc := epc, sys := true,
                                stopOther := if (s.hart.path (!s.cur.path)).active then some (!s.cur.path) else none,
                                p0 := t.hart.p0, p1 := t.hart.p1 }
  pc : t.path.pc = (u.ctx s.hart.asid.toNat).handler
  clause : t.path.clause = none
  latches : ∀ k < 4, (vget t.path.latches k default).kind = .invalid
  lanes : t.path.lanes = s.path.lanes
  emask : t.path.emask = s.path.emask
  active : t.path.active = s.path.active
  other : t.hart.path (!s.cur.path) = s.hart.path (!s.cur.path)
  rest : t = { u with harts := t.harts }
  harts : ∀ i, i ≠ s.hid → t.hartOf i = u.hartOf i

/-- Nothing but caches of translations differs. -/
def OnlyTlbs (s t : State) : Prop := t = { s with cores := t.cores } ∧ ∀ c, t.coreOf c = { s.coreOf c with tlb := (t.coreOf c).tlb }

end Sys2Proof.Claims

/-! ## Class 7 -/

/-- R376, R17 to R19: a group in system mode reads each register of R17 as its value, and CSRW, CSRS and CSRC write the operand, the old value with the operand's bits set, and with them clear, by each register's own rule; the old value is the result. A user-mode group is refused `spbase`, and writes to `asid` and `prio`; a number that no register has is illegal. -/
def Obligations.StatusRegisterResults : Prop :=
  ∀ (s : State) (d : Dst) (a : Src) (x : Word64), s.cur.unit = .group → s.opnd a = .ok x →
    let h := s.hart
    let num := fun (n : Nat) => BitVec.ofNat 10 n
    let cap := fun (vt vl : Word64) => BitVec.ofNat 64 (Nat.min vl.toNat (vlmaxOf false vt))
    let legal := fun (v : Word64) => fmtLegal v = true
    (∀ e ∈ [(0x000, h.vl), (0x001, h.vtype), (0x002, 256), (0x003, s.path.emask), (0x004, s.path.fmt), (0x010, h.slimit), (0x011, h.sbase),
        (0x012, h.seed), (0x020, h.tcause), (0x021, h.tval), (0x022, h.epc), (0x023, h.fcause), (0x030, h.asid), (0x031, h.prio),
        (0x032, BitVec.ofNat 64 s.cur.gid), (0x033, BitVec.ofNat 64 s.team.tid), (0x034, BitVec.ofNat 64 (s.team.core / 36 * 512 + s.team.core)),
        (0x035, s.team.feat), (0x040, vget h.pathack 0 0), (0x041, vget h.pathack 1 0), (0x042, vget h.pathack 2 0), (0x043, vget h.pathack 3 0)],
      ∃ t, exec (.csrr d (num e.1)) s = .next t ∧ ScalarDone s t d 1 e.2)
    ∧ (h.sys = true → ∃ t, exec (.csrr d (num 0x013)) s = .next t ∧ ScalarDone s t d 1 h.spbase)
    ∧ (∀ c : BitVec 10, ∀ e ∈ [(Instr.csrw d a c, fun (_ : Word64) => x), (.csrs d a c, fun o => o ||| x), (.csrc d a c, fun o => o &&& ~~~x)],
        let put := fun (n : Nat) (old : Word64) (ok : Word64 → Prop) (u : Word64 → State) =>
          c = num n → ok (e.2 old) → ∃ t, exec e.1 s = .next t ∧ ScalarDone (u (e.2 old)) t d 1 old
        let any := fun (_ : Word64) => True
        put 0x000 h.vl any (fun v => s.setHart { h with vl := cap h.vtype v })
        ∧ put 0x001 h.vtype any (fun v => s.setHart { h with vtype := v &&& 0x3F, vl := cap (v &&& 0x3F) h.vl })
        ∧ put 0x003 s.path.emask any (fun v => s.setPath { s.path with emask := v &&& s.path.lanes })
        ∧ put 0x004 s.path.fmt legal (fun v => s.setPath { s.path with fmt := v &&& 0x1FFFFFF })
        ∧ put 0x010 h.slimit any (fun v => s.setHart { h with slimit := v })
        ∧ put 0x011 h.sbase any (fun v => s.setHart { h with sbase := v })
        ∧ put 0x012 h.seed any (fun v => s.setHart { h with seed := v, gens := seeded v })
        ∧ put 0x020 h.tcause any (fun v => s.setHart { h with tcause := v &&& 0x1FF })
        ∧ put 0x021 h.tval any (fun v => s.setHart { h with tval := v })
        ∧ put 0x022 h.epc any (fun v => s.setHart { h with epc := v })
        ∧ put 0x023 h.fcause any (fun v => s.setHart { h with fcause := v &&& 0x3FFFFFF })
        ∧ (h.sys = true → put 0x030 h.asid (fun v => v.toNat ≤ 4095) (fun v => s.setHart { h with asid := v }))
        ∧ (h.sys = true → put 0x031 h.prio (fun v => v.toNat ≤ 11) (fun v => s.setHart { h with prio := v }))
        ∧ (h.sys = false → c = num 0x030 ∨ c = num 0x031 ∨ c = num 0x013 → exec e.1 s = .next (s.stopped (trapOf .accessViolation 0)))
        ∧ (h.sys = true → c = num 0x013 → exec e.1 s = .next (s.stopped (trapOf .illegalOp 0)))
        ∧ (c ∈ [num 0x002, num 0x032, num 0x033, num 0x034, num 0x035, num 0x040, num 0x041, num 0x042, num 0x043] →
            exec e.1 s = .next (s.stopped (trapOf .illegalOp 0))))
    ∧ (h.sys = false → exec (.csrr d (num 0x013)) s = .next (s.stopped (trapOf .accessViolation 0)))
    ∧ ∀ n ∈ [0x005, 0x00F, 0x014, 0x01F, 0x024, 0x02F, 0x036, 0x03F, 0x044, 0x3FF], exec (.csrr d (num n)) s = .next (s.stopped (trapOf .illegalOp 0))

/-- R361, R362, R363, R377, R42: a precise trap of a user-mode group outside a region saves its frame, path states, latches and records, sets `tcause`, `tval` and `epc`, and enters the handler in system mode; with no handler the group ends. TRAP takes cause 0x40 + code with the header that follows its clause; an instruction that reads a latch of another kind takes LATCH_INVALID at its own word. A bank core halts instead (R289), and a trap taken in system mode ends the group. -/
def Obligations.PreciseTrapsEnterTheHandler : Prop :=
  ∀ (s u : State) (c : Cause) (v : Word64) (code : BitVec 6) (k : BitVec 2) (d : Dst) (b : Src) (ty : IntTy),
    s.cur.unit = .group → s.path.susp = none → s.hart.region = none →
    let at_ := s.path.wordAddr
    let next := s.path.nextHeader
    let soft := code.setWidth 64
    (c ≠ .pageFault → c ≠ .poison → s.hart.sys = false → Saved s at_ 0 v u →
      ((u.ctx s.hart.asid.toNat).handler ≠ 0 → Trapped s u (s.stopped (trapOf c v)) c.code.toNat v at_)
      ∧ ((u.ctx s.hart.asid.toNat).handler = 0 → ((s.stopped (trapOf c v)).hartOf s.hid).live = false))
    ∧ (s.hart.sys = false → Saved s next 0 soft u → (u.ctx s.hart.asid.toNat).handler ≠ 0 →
        ∃ t, exec (.trap code) s = .next t ∧ Trapped s u t (0x40 + code.toNat) soft next)
    ∧ (s.hart.sys = true → ((s.stopped (trapOf .illegalOp v)).hartOf s.hid).live = false)
    ∧ ((vget s.path.latches k.toNat default).kind ≠ .scalar →
        exec (.add d (.latch k) b ty) s = .next (s.stopped (trapOf .latchInvalid 0)))

/-- R378: ERET in system mode, its stores performed. Where `epc` is that of the frame and lies in the clause of the frame's header, the clause resumes at that word with the saved latches, `emask` and `fmt`; elsewhere the clause at `epc` begins with invalid latches. The mode is the frame's, the records in hardware are the saved ones, and the other path is no longer stopped. In user mode ERET is refused. -/
def Obligations.EretResumesWhatTheFrameNames : Prop :=
  ∀ (s : State) (bs ls rs : List Byte) (w : Word32) (c : Clause),
    let base := (s.hart.spbase - 65536).toNat
    let back := (s.hart.loadRecs rs).recs
    let field := fun (i n : Nat) => leNat ((bs.drop i).take n)
    let hdr := field 0 8
    let inside := field 8 8 = s.hart.epc.toNat ∧ hdr < s.hart.epc.toNat
    s.cur.unit = .group → (s.hart.path (!s.cur.path)).active = false → s.hart.sq = [] →
    s.vread s.hart.asid.toNat true base 256 = .ok bs → s.vread s.hart.asid.toNat true (base + 0x400) 2048 = .ok ls →
    (s.hart.recs = [] ∨ s.vread s.hart.asid.toNat true (base + 0xE00) 1024 = .ok rs) →
    (s.hart.sys = false → exec .eret s = .next (s.stopped (trapOf .accessViolation 0)))
    ∧ (s.hart.sys = true → (¬ inside ∨ (inside ∧ s.fetchWord (BitVec.ofNat 64 hdr) = .ok w ∧ hdr + 4 * (w.extractLsb' 0 4).toNat < s.hart.epc.toNat)) →
        TargetOk s s.hart.epc →
        ∃ t, exec .eret s = .next t ∧ t.path.pc = s.hart.epc ∧ t.path.clause = none ∧ (∀ k < 4, (vget t.path.latches k default).kind = .invalid)
          ∧ t.path.emask = s.path.emask ∧ OnlyHart s t
          ∧ t.hart = { s.hart with sys := (field 34 1 == 1), stopOther := none, recs := back, p0 := t.hart.p0, p1 := t.hart.p1, arrived := [], asked := [], bad := [] })
    ∧ (s.hart.sys = true → inside → s.fetchWord (BitVec.ofNat 64 hdr) = .ok w → s.hart.epc.toNat ≤ hdr + 4 * (w.extractLsb' 0 4).toNat →
        fetchClause s.fetchWord false (BitVec.ofNat 64 hdr) = .ok (c, w) →
        let mine := if s.cur.path then 0xA0 else 0x40
        ∃ t, exec .eret s = .next t ∧ t.path.clause = some { c with idx := (s.hart.epc.toNat - hdr) / 4 }
          ∧ t.path.emask = BitVec.ofNat 64 (field (mine + 8) 8) &&& s.path.lanes
          ∧ (fmtLegal (BitVec.ofNat 64 (field (mine + 16) 8) &&& 0x1FFFFFF) = true → t.path.fmt = BitVec.ofNat 64 (field (mine + 16) 8) &&& 0x1FFFFFF)
          ∧ (∀ k < 4, (vget t.path.latches k default).bits.toNat = leNat ((ls.drop ((if s.cur.path then 1024 else 0) + 256 * k)).take 256))
          ∧ (∀ k < 4, ((vget t.path.latches k default).kind = .scalar ↔ field 32 1 / 4 ^ k % 4 = 1)
              ∧ ((vget t.path.latches k default).kind = .vector ↔ field 32 1 / 4 ^ k % 4 = 2)
              ∧ ((vget t.path.latches k default).kind = .mask ↔ field 32 1 / 4 ^ k % 4 = 3))
          ∧ OnlyHart s t
          ∧ t.hart = { s.hart with sys := (field 34 1 == 1), stopOther := none, recs := back, p0 := t.hart.p0, p1 := t.hart.p1, arrived := [], asked := [], bad := [] })

/-- R379, R155, R156, R356, R380: TLBINV drops, on every core, the cached translations that it names and no other; CBLD fills the shadow copy of a codebook, and CBSWAP exchanges the copies that its operand names; BIDLD writes a weight table or the window's length; DBG goes on where no halt is set for its ASID and suspends its path where one is; FEAT reads 0x3FFF. A user-mode group is refused TLBINV and BIDLD. -/
def Obligations.ServiceInstructionResults : Prop :=
  ∀ (s : State) (a b : Src) (d : Dst) (x y : Word64), s.cur.unit = .group → s.opnd a = .ok x → s.opnd b = .ok y →
    (∃ t, exec (.feat d) s = .next t ∧ ScalarDone s t d 1 0x3FFF)
    ∧ (s.path.grant = none → (s.hart.asid.toNat ∉ s.service.haltDbg → ∃ t, exec (.dbg a) s = .next t ∧ Passed s t 1)
      ∧ (s.hart.asid.toNat ∈ s.service.haltDbg → ∃ t, exec (.dbg a) s = .next t ∧ t.path.susp = some .debug ∧ t.path.clause = s.path.clause
          ∧ t.service.dbgRecord = some (x, s.team.core, s.cur.gid, s.path.wordAddr) ∧ t.mem = s.mem ∧ t.teams = s.teams))
    ∧ (∀ n : BitVec 6, ∀ v : VWord, a = .reg n → v = vget s.hart.v n.toNat 0 → s.heldRegs n.toNat 1 = .ok () → y.toNat ≤ 7 →
        ∃ t, exec (.cbld a b) s = .next t ∧ PathDone s t 1 Latch.none
          ∧ t.team = { s.team with cb := t.team.cb } ∧ (∀ j, j ≠ s.cur.team → t.teamOf j = s.teamOf j)
          ∧ (∀ q : Nat × Bool, mget 0 q t.team.cb = if q = (y.toNat, !s.team.cbVisible.getLsbD y.toNat) then v.setWidth 256 else mget 0 q s.team.cb)
          ∧ t.hart.s = s.hart.s ∧ t.hart.v = s.hart.v ∧ SameRegs s t ∧ t.mem = s.mem)
    ∧ (x.toNat < 256 → ∃ t, exec (.cbswap a) s = .next t
        ∧ Passed (s.setTeam { s.team with cbVisible := s.team.cbVisible ^^^ BitVec.ofNat 8 x.toNat }) t 1)
    ∧ (s.hart.sys = true → x.toNat ≤ 15 → ∃ t, exec (.bidld a b) s = .next t
        ∧ Passed { s with bell := { s.bell with tables := mset x.toNat y s.bell.tables } } t 1)
    ∧ (s.hart.sys = true → 16 ≤ x.toNat → x.toNat ≤ 1024 → ∃ t, exec (.bidldWindow a) s = .next t
        ∧ Passed { s with bell := { s.bell with length := x.toNat } } t 1)
    ∧ (s.hart.sys = true → s.drained .dev = .ok () →
        let gone := fun (u : State) (p : TlbEntry → Prop) => OnlyTlbs s { u with harts := s.harts } ∧ PathDone s u 1 Latch.none
          ∧ u.hart.s = s.hart.s ∧ u.hart.v = s.hart.v ∧ u.hart.m = s.hart.m ∧ u.hart.gens = s.hart.gens ∧ SameRegs s u
          ∧ (∀ i, i ≠ s.hid → u.hartOf i = s.hartOf i) ∧ ∀ c e, e ∈ (u.coreOf c).tlb ↔ e ∈ (s.coreOf c).tlb ∧ ¬ p e
        (y.toNat < 4096 → s.asidQuiet (· == y.toNat) = true →
          (∃ t, exec (.tlbinv a b) s = .next t
            ∧ gone t fun e => e.asid = y.toNat ∧ e.page ≤ x.toNat / 65536 ∧ x.toNat / 65536 < e.page + e.span)
          ∧ ∃ t, exec (.tlbinvAsid b) s = .next t ∧ gone t fun e => e.asid = y.toNat)
        ∧ (s.asidQuiet (fun _ => true) = true → ∃ t, exec .tlbinvAll s = .next t ∧ gone t fun _ => True))
    ∧ (s.hart.sys = false → ∀ i ∈ [Instr.tlbinv a b, .tlbinvAsid b, .tlbinvAll, .bidld a b, .bidldWindow a],
        exec i s = .next (s.stopped (trapOf .accessViolation 0)))

namespace Sys2Proof.Claims
open Sys2Proof.Machine

/-- Nothing but the focus's team differs, and of it only its sequencer and the data of other devices that its engines have received. -/
structure OnlyStream (s t : State) : Prop where
  team : t.team = { s.team with seq := t.team.seq, arrived := t.team.arrived, asked := t.team.asked, bad := t.team.bad }
  others : ∀ j, j ≠ s.cur.team → t.teamOf j = s.teamOf j
  cores : ∀ c, t.coreOf c = s.coreOf c
  harts : ∀ i, t.hartOf i = s.hartOf i
  rest : t = { s with teams := t.teams, cores := t.cores, harts := t.harts }

/-- A stream instruction of n words is complete: the sequencer is q, past the instruction, and nothing else has changed (R23 step 6, R163). -/
structure StreamPassed (s t : State) (q : Seq) (n : Nat) : Prop where
  seq : ∀ c, s.seq.clause = some c →
    t.seq = if c.idx + n ≤ c.count then { q with clause := some { c with idx := c.idx + n }, stalled := false }
            else { q with clause := none, spc := c.hdr + BitVec.ofNat 64 (4 * (c.count + 1)), stalled := false }
  only : OnlyStream s t

/-- The value of a stream source (R163). -/
def streamValue (s : State) : Src → Word64
  | .reg n => if n = 0 then 0 else vget s.seq.q n.toNat 0
  | .const k => BitVec.ofInt 64 ((k.toNat : Int) - 16)
  | .latch _ => 0

/-- The bits of a selection mask (R167): rows at [15:0], columns at [31:16]. -/
def rowsOf (m : Word64) : List Nat := (List.range 16).filter fun i => m.getLsbD i
def colsOf (m : Word64) : List Nat := (List.range 16).filter fun j => m.getLsbD (16 + j)

/-- A row of an instruction that the focus's sequencer issues. -/
def rowOf (s : State) (tile i : Nat) (op : RowOp) : IssuedRow :=
  { tile := tile, row := i, op := op, sfmt := s.seq.sfmt, addr := s.seq.wordAddr, batch := none, queued := false }

/-- The operand format codes that need the NFMT feature (R53, R148): FP6, FP4, MX, LUT4 and bit planes. -/
def nfmtCodes : List Nat := [5, 6, 7] ++ (List.range 15).map (0x0A + ·)

/-- Rows as they were issued, whether or not the replay queue holds them. -/
def issuedAs (rows : List IssuedRow) : List IssuedRow := rows.map fun r => { r with queued := false }

/-- An instruction of n words has issued rows behind those of the stream (R170, R172); rows that name no adapter are not queued, and of the core only the adapter cache's order of use and its fetches may have changed: a segment leaves it only where an adapter row needs room (R177, R178). -/
structure StreamIssued (s t : State) (rows : List IssuedRow) (n : Nat) : Prop where
  issued : issuedAs t.seq.rows = issuedAs (s.seq.rows ++ rows)
  old : ∀ k < s.seq.rows.length, t.seq.rows[k]? = s.seq.rows[k]?
  plain : (∀ r ∈ rows, r.needs.1 = 0) → t.seq.rows = s.seq.rows ++ rows
  members : t.seq.members = s.seq.members ++ (rows.map fun r => r.needs.1).filter (· ≠ 0)
  seq : ∀ c, s.seq.clause = some c →
    t.seq = if c.idx + n ≤ c.count then { s.seq with rows := t.seq.rows, members := t.seq.members, clause := some { c with idx := c.idx + n }, stalled := false }
            else { s.seq with rows := t.seq.rows, members := t.seq.members, clause := none, spc := c.hdr + BitVec.ofNat 64 (4 * (c.count + 1)), stalled := false }
  team : t.team = { s.team with seq := t.team.seq, arrived := t.team.arrived, asked := t.team.asked, bad := t.team.bad }
  others : ∀ j, j ≠ s.cur.team → t.teamOf j = s.teamOf j
  core : ∀ c, t.coreOf c = { s.coreOf c with segs := (t.coreOf c).segs, fetches := (t.coreOf c).fetches, lastSeq := (t.coreOf c).lastSeq }
  segs : ∀ c g, g ∈ (t.coreOf c).segs → g ∈ (s.coreOf c).segs
  kept : (∀ r ∈ rows, r.needs.1 = 0) → ∀ c, (t.coreOf c).segs = (s.coreOf c).segs ∧ (t.coreOf c).fetches = (s.coreOf c).fetches
  rest : t = { s with teams := t.teams, cores := t.cores }

/-- The stream cannot go on now: nothing has changed but that it is to be tried again (R163). -/
def StreamStalls (s t : State) : Prop := t.seq = { s.seq with stalled := true } ∧ OnlyStream s t

/-- R53, R54, R150, R164: every matrix-stream instruction reads all of `sfmt`: where one of its operand formats needs the NFMT feature and the feature mask lacks it, the instruction has no effect and the stream faults with FEATURE_ABSENT at its word. -/
def FormatsNeedTheirFeature (s : State) : Prop :=
  ∀ (d : BitVec 6) (a b : Src) (l : Word32) (ml : MmaLit) (fl : FinLit) (mm : MemM) (al : AdpLit) (f : BitVec 2) (n : BitVec 4) (j : Bool),
    let q := s.seq
    s.team.feat.getLsbD 13 = false → ((q.sfmt.extractLsb' 0 5).toNat ∈ nfmtCodes ∨ (q.sfmt.extractLsb' 5 5).toNat ∈ nfmtCodes) → q.fault = none →
      ∀ i ∈ [Instr.mma d a b ml, .mmaAdp d a b ml, .adpfin d b fl, .adpld a al, .adpinv a, .mzero d, .mldacc d a b f mm, .mdrain d a b f j mm,
          .mfence a n, .mbara j n, .mbarw n, .mloop d l, .mjmp l, .mend, .mnop,
          .msetbAdd d a b, .msetbLd d a b, .msetbFmt a, .msetbSeed a, .msetbBind a, .msetbAdir a],
        ∃ t, exec i s = .next t ∧ t.seq = { q with fault := some (.featureAbsent, q.wordAddr), stalled := false } ∧ OnlyStream s t

end Sys2Proof.Claims

/-! ## Class 3: the matrix stream -/

/-- R192, R193: MSETB writes the stream register, format, generators, binding or directory that its mode names; MNOP only goes on; MLOOP decrements its register and branches while the result is not 0; MJMP branches; MEND stops a stream that has nothing left, and stalls one that has. The generators take their seeds behind the draws of earlier rows (a row of the issue order; DEDUCED, log 27). R53, R54, R150: under a format that needs NFMT, with no NFMT in the feature mask, every stream instruction ends the stream with FEATURE_ABSENT. -/
def Obligations.StreamStateAndControlResults : Prop :=
  ∀ (s : State) (c : Clause) (d : BitVec 6) (a b : Src) (l : Word32), s.seq.clause = some c → 1 ≤ d.toNat → d.toNat ≤ 15 →
    let q := s.seq
    let x := streamValue s a
    let y := streamValue s b
    let n := vget q.q d.toNat 0 - 1
    let target := c.hdr + 4 * l.signExtend 64
    let ok := target.toNat % 4 = 0 ∧ target.toNat < 12 * 2 ^ 52
    let set := fun (v : Word64) => { q with q := vset q.q d.toNat v }
    FormatsNeedTheirFeature s ∧ ((s.team.feat.getLsbD 13 = true ∨ (q.sfmt.extractLsb' 0 5).toNat ∉ nfmtCodes ∧ (q.sfmt.extractLsb' 5 5).toNat ∉ nfmtCodes) →
    (∃ t, exec (.msetbAdd d a b) s = .next t ∧ StreamPassed s t (set (x + y)) 1)
    ∧ ((x + y).toNat % 8 = 0 → (x + y).toNat + 8 ≤ s.team.spadBytes → s.team.markedAt (x + y).toNat 8 = false →
        ∃ t, exec (.msetbLd d a b) s = .next t ∧ StreamPassed s t (set (bytesToBits 64 (s.team.mem.read (x + y).toNat 8))) 1)
    ∧ (fmtLegal x = true → ∃ t, exec (.msetbFmt a) s = .next t ∧ StreamPassed s t { q with sfmt := x &&& 0x1FFFFFF } 1)
    ∧ (∃ t, exec (.msetbSeed a) s = .next t ∧ StreamPassed s t
        { q with rows := q.rows ++ (List.range 16).map fun i => rowOf s 0 i (.seed
            (let z := x.setWidth 32 ^^^ BitVec.ofNat 32 ((i + 1) * 0x9E3779B9); if z = 0 then 1 else z)) } 1)
    ∧ (x &&& 0xFFFFFFFFE0E0E0E0 = 0 → ∃ t, exec (.msetbBind a) s = .next t
        ∧ StreamPassed s t { q with binding := #v[x.extractLsb' 0 5, x.extractLsb' 8 5, x.extractLsb' 16 5, x.extractLsb' 24 5] } 1)
    ∧ (x.toNat % 32 = 0 → x.toNat < 2 ^ 56 → ∃ t, exec (.msetbAdir a) s = .next t ∧ StreamPassed s t { q with adir := x } 1)
    ∧ (∃ t, exec .mnop s = .next t ∧ StreamPassed s t q 1)
    ∧ (n = 0 → ∃ t, exec (.mloop d l) s = .next t ∧ StreamPassed s t (set n) 2)
    ∧ (n ≠ 0 → ok → ∃ t, exec (.mloop d l) s = .next t ∧ t.seq = { set n with clause := none, spc := target, stalled := false } ∧ OnlyStream s t)
    ∧ (ok → ∃ t, exec (.mjmp l) s = .next t ∧ t.seq = { q with clause := none, spc := target, stalled := false } ∧ OnlyStream s t)
    ∧ (q.rows = [] → q.batches = [] → q.arrivals = [] → (∀ p ∈ s.team.sent, p.2.2 ≠ 0) →
        (s.liveGids s.cur.team ≠ [] → ∃ t, exec .mend s = .next t ∧ t.seq = { q with st := .stopped, clause := none } ∧ OnlyStream s t)
        ∧ (s.liveGids s.cur.team = [] → s.team.live = true → ∃ t, exec .mend s = .next t ∧ t.team.live = false))
    ∧ (q.rows ≠ [] ∨ q.batches ≠ [] → ∃ t, exec .mend s = .next t ∧ StreamStalls s t))

/-- R170 to R172, R178, R181, R182, R187, R188: MMA, MMA.ADP, ADPFIN, MZERO, MLDACC and a plain MDRAIN issue one row for each selected row index, in increasing order, with the operands that they have at issue: products by depth and column with the row's adapter, the source tile and columns, cleared rows, loaded patterns, and the places that a row is stored to. Rows issue only where the adapter segments that are then pinned are at most 96 (R177). A tile whose token a group holds stops the stream. -/
def Obligations.MatrixInstructionsIssueTheirRows : Prop :=
  ∀ (s : State) (d : BitVec 6) (a b : Src) (l : MmaLit) (fl : FinLit) (ml : MemM) (f : BitVec 2) (K : Nat)
    (A : List (Nat × List (Nat × FVal))) (B : List (Nat × List FVal)) (ids : VWord)
    (ps : List (Nat × Nat × Place × Word64)) (xs : List (Nat × Nat × Nat)),
    let T := d.toNat
    let m := streamValue s b
    let acc := (s.seq.sfmt.extractLsb' 10 3).toNat
    let row := rowOf s T
    let id := fun (i : Nat) => ids.toNat / 2 ^ (16 * i) % 4096
    let cb := s.team.codebook (fmtCb s.seq.sfmt)
    let room := fun (rows : List IssuedRow) => s.pinRoom rows = .ok ()
    T < s.team.accs → (s.team.tile T).token = none → s.team.formatsOk = true →
    (depthOf s.seq.sfmt = .ok K → s.rowsA (streamValue s a) m s.seq.sfmt K cb = .ok A → s.colsB m l s.seq.sfmt K cb = .ok B →
      (room (A.map fun r => row r.1 (.mma l.z r.2 B 0 l.seg.toNat K)) →
        ∃ t, exec (.mma d a b l) s = .next t ∧ StreamIssued s t (A.map fun r => row r.1 (.mma l.z r.2 B 0 l.seg.toNat K)) 2)
      ∧ (acc ≠ 3 → (s.seq.rows.filter (·.queued)).length ≤ 8 → s.boundReg (vget s.seq.binding 0 0) l.idreg.toNat = .ok ids →
          (∀ r ∈ A, id r.1 ≠ 0 → s.team.ridIssued T r.1 = 0 ∨ s.team.ridIssued T r.1 = id r.1) →
          room (A.map fun r => row r.1 (.mma l.z r.2 B (id r.1) l.seg.toNat K)) →
          ∃ t, exec (.mmaAdp d a b l) s = .next t ∧ StreamIssued s t (A.map fun r => row r.1 (.mma l.z r.2 B (id r.1) l.seg.toNat K)) 2))
    ∧ (fl.src.toNat < s.team.accs → (s.team.tile fl.src.toNat).token = none → acc ≠ 3 → (s.seq.rows.filter (·.queued)).length ≤ 8 →
        let fins := (rowsOf m).filterMap fun i => let ad := s.team.ridIssued fl.src.toNat i
            if ad = 0 then none else some (row i (.fin fl.src.toNat (colsOf m) ad fl.seg.toNat fl.clr))
        room fins → ∃ t, exec (.adpfin d b fl) s = .next t ∧ StreamIssued s t fins 2)
    ∧ (∃ t, exec (.mzero d) s = .next t ∧ StreamIssued s t ((List.range 16).map fun i => row i .zero) 1)
    ∧ (f.toNat ≤ 2 → ml.space ≠ .p → (f.toNat = 0 ∨ acc ≠ 3) →
      (s.tilePlaces a b f ml .read = .ok ps → s.tileRead (if f.toNat = 0 then 4 else 2) ps = .ok xs →
        ∃ t, exec (.mldacc d a b f ml) s = .next t ∧ StreamIssued s t
          ((rowsOf m).map fun i => row i (.load ((xs.filter fun x => x.1 == i).map fun x => (x.2.1, x.2.2)) f)) 2)
      ∧ (s.tilePlaces a b f ml .write = .ok ps →
        ∃ t, exec (.mdrain d a b f false ml) s = .next t ∧ StreamIssued s t
          ((rowsOf m).map fun i => row i (.drain ((ps.filter fun p => p.1 == i).map fun p => (p.2.1, p.2.2.1.tgt)) f)) 2))

/-- R181, R187, R188: committing the oldest row gives its row of the tile: the selected elements of a product row without an adapter become the rounded sum of the old element (or 0) and the products; a loaded row takes the loaded values; MZERO's row becomes 0 with its rank values and identifier; every other element, and every other tile, keeps its value. -/
def Obligations.RowCommitsWriteTheirTileRow : Prop :=
  ∀ (s : State) (k : Nat) (r : IssuedRow) (rest : List IssuedRow), (s.teamOf k).seq.rows = r :: rest → r.queued = false →
    let t0 := s.teamOf k
    let T := t0.tile r.tile
    let m := modesOf r.sfmt
    let acc := (r.sfmt.extractLsb' 10 3).toNat
    let rounded := fun (v : FVal) => if acc = 3 then BitVec.ofInt 32 (if m.sm = 1 then max (-2147483648) (min 2147483647 v.toInt) else v.toInt)
      else BitVec.ofNat 32 (fOf m.rm m.sm (if acc = 0 then .f32 else if acc = 1 then .f16 else .bf16) 0 v)
    let commits := fun (el : Nat → Word32) => ∃ t, exec (.mmaRowCommit k 0) s = .next t ∧ (t.teamOf k).seq.rows = rest
      ∧ (∀ i < 16, ∀ j < 16, ((t.teamOf k).tile r.tile).at i j = if i = r.row then el j else T.at i j)
      ∧ (∀ n, n ≠ r.tile → (t.teamOf k).tile n = t0.tile n) ∧ (∀ n, n ≠ k → t.teamOf n = s.teamOf n)
      ∧ t = { s with teams := t.teams } ∧ (t.teamOf k).mem = t0.mem
    (acc ≤ 3 → m.rm ≠ 5 → r.row < 16 →
      (∀ (z : Bool) (a : List (Nat × FVal)) (b : List (Nat × List FVal)) (seg K : Nat), r.op = .mma z a b 0 seg K →
        (b.map (·.1)).Nodup → (∀ e ∈ b, e.1 < 16) →
        commits fun j => match b.find? (fun e => e.1 == j) with
          | none => T.at r.row j
          | some e => rounded (sumF m.rm ((if z then .fin false 0 0 false else accVal acc (T.at r.row j)) :: ((a.map (·.2)).zip e.2).map fun p => p.1.mul p.2)))
      ∧ (r.op = .zero → commits fun _ => 0)
      ∧ (∀ (cells : List (Nat × Nat)) (f : BitVec 2), r.op = .load cells f → (cells.map (·.1)).Nodup → (∀ e ∈ cells, e.1 < 16) →
        commits fun j => match cells.find? (fun e => e.1 == j) with
          | none => T.at r.row j
          | some e => rounded (memVal f acc e.2)))
    ∧ (∀ x, r.op = .seed x → ∃ t, exec (.mmaRowCommit k 0) s = .next t ∧ (t.teamOf k).seq = { t0.seq with rows := rest, gens := vset t0.seq.gens r.row x })

/-- R173, R184, R185, R189 to R191: MFENCE closes the members issued since the last one into a batch and raises `mat` of the live groups that it selects; MBARA.i arrives at once, and MBARA.c once the open batches have closed; MBARW goes on when the phase that it waits for is over, else it stalls; BATCH_CLOSE closes the oldest batch once its rows are done, and its groups' `mat` falls; ADPLD begins the fetches of segments that are not there; ADPINV waits for the members that refer to its adapter and drops the adapter's entries; an add-on-store updates its element at once, when no earlier row is left. -/
def Obligations.BatchesAndStreamBarriers : Prop :=
  ∀ (s : State) (c : Clause) (a b : Src) (n : BitVec 4) (d : BitVec 6) (al : AdpLit) (f : BitVec 2) (ml : MemM), s.seq.clause = some c →
    let q := s.seq
    let x := streamValue s a
    let k := s.cur.team
    let bar := vget s.team.bars n.toNat ⟨0, 0, 0⟩
    let X := (bar.cfg.extractLsb' 0 6).toNat + (bar.cfg.extractLsb' 6 1).toNat + (bar.cfg.extractLsb' 8 8).toNat
    let arrived : Barrier := if bar.a + 1 = X then { bar with a := 0, ph := bar.ph + 1 } else { bar with a := bar.a + 1 }
    let goes := fun (e : Instr) (u : State) (q' : Seq) (w : Nat) => ∃ t, exec e s = .next t ∧ StreamPassed u t q' w
    s.team.formatsOk = true →
    ((∀ o ∈ q.batches, o.n ≠ n.toNat) → q.evictAsked = false → q.stopAsked = false → (s.liveGids k).Nodup →
      (∀ g ∈ s.liveGids k, x.getLsbD g = true → (s.hartOf (.group k g)).counter kMat < 65535) →
      ∃ t gs, exec (.mfence a n) s = .next t
        ∧ t.seq.batches = q.batches ++ [⟨q.nextBatch, n.toNat, gs, q.members⟩] ∧ t.seq.nextBatch = q.nextBatch + 1 ∧ t.seq.members = []
        ∧ t.seq.rows = q.rows.map (fun r => match r.op, r.batch with | .seed _, _ => r | _, some _ => r | _, none => { r with batch := some q.nextBatch })
        ∧ (∀ g < 32, gs.getLsbD g = true ↔ g ∈ s.liveGids k ∧ x.getLsbD g = true)
        ∧ (∀ g ∈ s.liveGids k, ∀ j < 8, (t.hartOf (.group k g)).counter j = (s.hartOf (.group k g)).counter j
            + if j = kMat ∧ x.getLsbD g = true then 1 else 0)
        ∧ t.mem = s.mem ∧ t.cores = s.cores ∧ (∀ j, j ≠ k → t.teamOf j = s.teamOf j))
    ∧ ((∃ o ∈ q.batches, o.n = n.toNat) → ∃ t, exec (.mfence a n) s = .next t ∧ StreamStalls s t)
    ∧ (bar.cfg.getLsbD 6 = true → q.arrivals = [] →
        (goes (.mbara false n) (s.setTeam { s.team with bars := vset s.team.bars n.toNat arrived })
          { q with joined := vset q.joined n.toNat (some bar.ph), arrivals := [] } 1)
        ∧ (q.batches = [] → goes (.mbara true n) (s.setTeam { s.team with bars := vset s.team.bars n.toNat arrived })
            { q with joined := vset q.joined n.toNat (some bar.ph), arrivals := [] } 1)
        ∧ (q.batches ≠ [] → goes (.mbara true n) s { q with arrivals := [⟨n.toNat, q.batches.map (·.uid)⟩] } 1))
    ∧ ((∀ o ∈ q.arrivals, o.barrier ≠ n.toNat) → ∀ p : BitVec 32, vget q.joined n.toNat none = some p →
        (p ≠ bar.ph → goes (.mbarw n) s { q with awaits := none } 1)
        ∧ (p = bar.ph → ∃ t, exec (.mbarw n) s = .next t ∧ t.seq = { q with stalled := true, awaits := some p } ∧ OnlyStream s t))
    ∧ (∀ o os, q.batches = o :: os → q.arrivals = [] → (∀ r ∈ q.rows, r.batch ≠ some o.uid) → (∀ p ∈ s.team.sent, p.2.2 ≠ 0) →
        ∃ t, exec (.batchClose k) s = .next t ∧ (t.teamOf k).seq = { q with batches := os, arrivals := [] }
          ∧ ∀ g < 32, o.groups.getLsbD g = true → (s.hartOf (.group k g)).live = true →
              vget (s.hartOf (.group k g)).ledger kMat [] = [(o.uid, false)] → (t.hartOf (.group k g)).counter kMat = 0)
    ∧ (1 ≤ al.count.toNat → al.count.toNat ≤ 64 → ∃ t, exec (.adpld a al) s = .next t ∧ StreamIssued s t [] 2
        ∧ (x.toNat % 4096 = 0 → OnlyStream s t)
        ∧ (x.toNat % 4096 ≠ 0 → (s.coreOf s.team.core).segs.length + (s.coreOf s.team.core).fetches.length + al.count.toNat ≤ 128 → ∀ e : AdpFetch, e ∈ (t.coreOf s.team.core).fetches ↔ e ∈ (s.coreOf s.team.core).fetches
            ∨ (e.team = k ∧ e.adapter = x.toNat % 4096 ∧ e.up = al.up ∧ al.seg.toNat ≤ e.seg ∧ e.seg < al.seg.toNat + al.count.toNat
                ∧ e.room = true ∧ (s.coreOf s.team.core).fetching k e.adapter e.up e.seg = false ∧ (s.coreOf s.team.core).seg k e.adapter e.up e.seg = none)))
    ∧ (x.toNat = 0 → goes (.adpinv a) s q 1)
    ∧ (x.toNat ≠ 0 → x.toNat < 4096 → x.toNat ∉ q.members → (∀ o ∈ q.batches, x.toNat ∉ o.adapters) → ∃ t, exec (.adpinv a) s = .next t
        ∧ t = { s with teams := t.teams, cores := t.cores } ∧ (∀ o, o ≠ s.team.core → t.coreOf o = s.coreOf o)
        ∧ (let u := s.coreOf s.team.core
           let v := t.coreOf s.team.core
           (∀ g, g ∈ v.segs ↔ g ∈ u.segs ∧ ¬ (g.team = k ∧ g.adapter = x.toNat)) ∧ (∀ g, g ∈ v.dirs ↔ g ∈ u.dirs ∧ ¬ (g.team = k ∧ g.adapter = x.toNat))
           ∧ ∀ g, g ∈ v.fetches ↔ g ∈ u.fetches ∧ ¬ (g.team = k ∧ g.adapter = x.toNat)))
    ∧ (x.toNat ≠ 0 → x.toNat < 4096 → (x.toNat ∈ q.members ∨ ∃ o ∈ q.batches, x.toNat ∈ o.adapters) → ∃ t, exec (.adpinv a) s = .next t ∧ StreamStalls s t)
    ∧ (f.toNat ≤ 2 → ml.space ≠ .p → (f.toNat = 0 ∨ fmtAcc q.sfmt ≠ 3) → d.toNat < s.team.accs → (s.team.tile d.toNat).token = none →
        ∀ i j o va v, s.tilePlaces a b f ml .write = .ok [(i, j, ⟨.spad k o, false⟩, va)] →
        (q.rows ≠ [] → ∃ t, exec (.mdrain d a b f true ml) s = .next t ∧ StreamStalls s t)
        ∧ (q.rows = [] → s.tileRead (if f.toNat = 0 then 4 else 2) [(i, j, ⟨.spad k o, false⟩, va)] = .ok [(i, j, v)] →
            s.away k = false → s.team.absent = false → s.inFold s.team.core k o (if f.toNat = 0 then 4 else 2) = false → s.team.syncs = [] → s.team.mem.wf = true →
            let w := if f.toNat = 0 then 4 else 2
            let sum := sumF (modesOf q.sfmt).rm [memVal f (fmtAcc q.sfmt) (s.team.mem.nat o w), accVal (fmtAcc q.sfmt) ((s.team.tile d.toNat).at i j)]
            ∃ t, exec (.mdrain d a b f true ml) s = .next t
              ∧ ∀ e, t.team.mem.byte e = if o ≤ e ∧ e < o + w then (leBytes w (q.out q.sfmt (elemFF f (fmtAcc q.sfmt)) i sum).1).getD (e - o) 0 else s.team.mem.byte e))

namespace Sys2Proof.Claims
open Sys2Proof.Machine

/-- The focus's core without L1 lines, as an acquire of scope `.die` or wider leaves it (R226). -/
def withoutL1 (s : State) : State := s.setCoreOf s.team.core { s.coreOf s.team.core with l1 := [] }
/-- One more arrival at a barrier; a full count completes the phase (R274). -/
def arrivedAt (b : Barrier) : Barrier :=
  if b.a + 1 = (b.cfg.extractLsb' 0 6).toNat + (b.cfg.extractLsb' 6 1).toNat + (b.cfg.extractLsb' 8 8).toNat
  then { b with a := 0, ph := b.ph + 1 } else { b with a := b.a + 1 }
/-- The team with a barrier replaced. -/
def withBar (s : State) (n : Nat) (b : Barrier) : State := s.setTeam { s.team with bars := vset s.team.bars n b }
/-- The focus's path is suspended at its word, which it will execute again; nothing else of the group has changed (R98). -/
structure Waits (s t : State) (w : Wait) : Prop where
  path : t.path = { s.path with susp := some w, since := s.tick, stalled := false, issuing := false }
  other : t.hart.path (!s.cur.path) = s.hart.path (!s.cur.path)
  hart : t.hart = { s.hart with p0 := t.hart.p0, p1 := t.hart.p1 }
  others : ∀ i, i ≠ s.hid → t.hartOf i = s.hartOf i
  rest : t = { s with harts := t.harts, tick := s.tick + 1 }

end Sys2Proof.Claims

/-! ## Class 6: tokens and barriers; class 4: waits and counters -/

/-- R194, R172: MACQ waits for the token and for the stream's rows of the tile, takes the token, and with a destination copies the tile's sixteen rows into four registers, four rows to a register; MREL gives the token back, and with a source writes all 256 elements, FP16 and BF16 ones from bits [15:0]. A group that holds the token already, or does not hold it, traps. -/
def Obligations.TokenInstructionResults : Prop :=
  ∀ (s : State) (d : BitVec 6) (a : Src) (r : BitVec 6) (x : Word64), s.cur.unit = .group → s.opnd a = .ok x → x.toNat < s.team.accs →
    let n := x.toNat
    let T := s.team.tile n
    let me := s.cur.gid
    let narrow := (s.team.seq.sfmt.extractLsb' 10 3).toNat = 1 ∨ (s.team.seq.sfmt.extractLsb' 10 3).toNat = 2
    let took := fun (t : State) (tok : Option Nat) =>
      ((t.team.tile n).token = tok ∧ (t.team.tile n).rank = T.rank ∧ (t.team.tile n).rid = T.rid ∧ (∀ k, k ≠ n → t.team.tile k = s.team.tile k))
      ∧ t.team = { s.team with acc := t.team.acc } ∧ (∀ j, j ≠ s.cur.team → t.teamOf j = s.teamOf j) ∧ PathDone s t 1 Latch.none
      ∧ t.hart.s = s.hart.s ∧ t.hart.m = s.hart.m ∧ SameRegs s t ∧ t = { s with teams := t.teams, harts := t.harts }
      ∧ ∀ i, i ≠ s.hid → t.hartOf i = s.hartOf i
    (T.token = none → (∀ q ∈ s.team.seq.rows, n ∉ q.tiles) →
      (∃ t, exec (.macqNc a) s = .next t ∧ took t (some me) ∧ t.hart.v = s.hart.v ∧ ∀ i j, (t.team.tile n).at i j = T.at i j)
      ∧ (d.toNat + 4 ≤ 32 → s.heldRegs d.toNat 4 = .ok () →
        ∃ t, exec (.macq d a) s = .next t ∧ took t (some me) ∧ (∀ i j, (t.team.tile n).at i j = T.at i j)
          ∧ (∀ i < 16, ∀ j < 16, (vget t.hart.v (d.toNat + i / 4) 0).extractLsb' (32 * (16 * (i % 4) + j)) 32 = T.at i j)
          ∧ ∀ k < 32, k < d.toNat ∨ d.toNat + 4 ≤ k → vget t.hart.v k 0 = vget s.hart.v k 0))
    ∧ ((T.token ≠ none ∧ T.token ≠ some me) ∨ (T.token = none ∧ ∃ q ∈ s.team.seq.rows, n ∈ q.tiles) →
        ∃ t, exec (.macqNc a) s = .next t ∧ Waits s t (.token n))
    ∧ (T.token = some me →
        exec (.macqNc a) s = .next (s.stopped (trapOf .accToken x))
        ∧ (∃ t, exec (.mrel a) s = .next t ∧ took t none ∧ t.hart.v = s.hart.v ∧ ∀ i j, (t.team.tile n).at i j = T.at i j)
        ∧ (r.toNat + 4 ≤ 32 → s.heldRegs r.toNat 4 = .ok () → ∃ t, exec (.mrelW a (.reg r)) s = .next t ∧ took t none ∧ t.hart.v = s.hart.v
            ∧ ∀ i < 16, ∀ j < 16, (t.team.tile n).at i j =
                let y := (vget s.hart.v (r.toNat + i / 4) 0).extractLsb' (32 * (16 * (i % 4) + j)) 32
                if narrow then y &&& 0xFFFF else y))
    ∧ (T.token ≠ some me → exec (.mrel a) s = .next (s.stopped (trapOf .accToken x)))

/-- R274 to R276: BARI configures a barrier with no arrival and no waiter; BARA arrives, and keeps the phase as pending; BARW waits for the end of its pending phase, or of the one at hand, and goes on where that phase is over; BARAW does both, and goes on where its own arrival completes the phase. A barrier whose expected count is 0 traps. -/
def Obligations.BarrierInstructionResults : Prop :=
  ∀ (s : State) (a : Src) (n : BitVec 4) (cfg : Word64), s.cur.unit = .group → s.opnd a = .ok cfg →
    let b := vget s.team.bars n.toNat ⟨0, 0, 0⟩
    let X := (b.cfg.extractLsb' 0 6).toNat + (b.cfg.extractLsb' 6 1).toNat + (b.cfg.extractLsb' 8 8).toNat
    let pend := vget s.hart.pend n.toNat none
    let p := pend.getD b.ph
    let pending := fun (u : State) (v : Option (BitVec 32)) => u.setHart { u.hart with pend := vset u.hart.pend n.toNat v }
    let arrived := withBar s n.toNat (arrivedAt b)
    (cfg.toNat < 2 ^ 16 → cfg.getLsbD 7 = false → (cfg.extractLsb' 0 6).toNat ≤ 32 →
      (b.a = 0 → s.barWaiter n.toNat = false → ∃ t, exec (.bari a n) s = .next t ∧ Passed (withBar s n.toNat { b with cfg := cfg }) t 1)
      ∧ (b.a ≠ 0 ∨ s.barWaiter n.toNat = true → exec (.bari a n) s = .next (s.stopped (trapOf .barrierMisuse (BitVec.ofNat 64 n.toNat)))))
    ∧ (X = 0 → s.path.grant = none → ∀ i ∈ [Instr.bara n, .barw n, .baraw n],
        exec i s = .next (s.stopped (trapOf .barrierMisuse (BitVec.ofNat 64 n.toNat))))
    ∧ (X ≠ 0 → s.drained .team = .ok () → ∃ t, exec (.bara n) s = .next t ∧ Passed (pending arrived (some b.ph)) t 1)
    ∧ (X ≠ 0 → s.path.grant = none →
        (p ≠ b.ph → ∃ t, exec (.barw n) s = .next t ∧ Passed (pending (withoutL1 s) none) t 1)
        ∧ (p = b.ph → ∃ t, exec (.barw n) s = .next t ∧ Waits (pending s none) t (.barrier n.toNat p pend.isSome false)))
    ∧ (X ≠ 0 → s.path.grant = none → s.path.arrived = false → s.drained .team = .ok () →
        (b.a + 1 = X → ∃ t, exec (.baraw n) s = .next t ∧ Passed (pending (withoutL1 arrived) none) t 1)
        ∧ (b.a + 1 ≠ X → ∃ t, exec (.baraw n) s = .next t ∧ Waits (pending arrived none) t (.barrier n.toNat b.ph true true)))

/-- R277, R278, R281, R282, R304: SYNCW returns the word's generation where it has reached the value asked for, and suspends else; WAITC goes on where its counter is at most n, and suspends else; ASTAT reads a counter, the copies of the team on a channel, or the fault record, which it clears; NMSYNC waits for the group's stores and near-memory commands and leaves no modified line in a die cache. -/
def Obligations.WaitAndStatusResults : Prop :=
  ∀ (s : State) (d : Dst) (a b : Src) (x y : Word64) (n : BitVec 7) (k : BitVec 3), s.cur.unit = .group → s.opnd a = .ok x → s.opnd b = .ok y →
    let m := s.team.mem
    let w := x.toNat
    let total := m.nat w 4
    let gen : BitVec 32 := BitVec.ofNat 32 (if total = 0 then m.nat (w + 8) 4 else m.nat (w + 8) 4 + m.nat (w + 4) 4 / total)
    (s.hart.counter k.toNat ≤ n.toNat → ∃ t, exec (.waitc n k) s = .next t ∧ Passed (withoutL1 s) t 1)
    ∧ (n.toNat < s.hart.counter k.toNat → ∃ t, exec (.waitc n k) s = .next t ∧ Waits s t (.counter k.toNat n.toNat))
    ∧ (let seen := if x.toNat % 8 = 2 ∧ vget s.hart.credited 2 0 ≠ 0 then withoutL1 s else s
      ∃ t, exec (.astatCnt d a) s = .next t ∧ ScalarDone seen t d 1 (BitVec.ofNat 64 (s.hart.counter (x.toNat % 8))))
    ∧ (∃ t, exec (.astatChan d a) s = .next t ∧ ScalarDone s t d 1 (BitVec.ofNat 64
        (sumNat (s.cores.map fun c => ((mget [] (x.toNat % 32) c.2.chans).filter fun (z : Copy) => z.team == s.cur.team).length))))
    ∧ (∃ t, exec (.astatFault d) s = .next t ∧ ScalarDone (s.setHart { s.hart with efr := 0 }) t d 1 s.hart.efr)
    ∧ (s.drained .dev = .ok () → ∃ t, exec .nmsync s = .next t ∧ Passed { s with dirty := [] } t 1)
    ∧ (w % 16 ≠ 0 → exec (.syncw d a b) s = .next (s.stopped (trapOf .misaligned (0x00D0000000000000 + x))))
    ∧ (w % 16 = 0 → w + 16 ≤ s.team.spadBytes → s.hart.spadPending = false → m.wf = true →
        ∃ t, exec (.syncw d a b) s = .next t ∧ w ∈ t.team.syncs
          ∧ (total = 0 → t.team.mem = m) ∧ t.team.mem.nat (w + 8) 4 = gen.toNat
          ∧ (total ≠ 0 → t.team.mem.nat (w + 4) 4 = m.nat (w + 4) 4 % total)
          ∧ (∀ e, e < w + 4 ∨ w + 12 ≤ e → t.team.mem.byte e = m.byte e)
          ∧ ((gen - y.setWidth 32).toNat < 2 ^ 31 → ScalarWritten s t d (gen.setWidth 64) ∧ PathDone s t 1 (Latch.scalar (gen.setWidth 64)))
          ∧ (2 ^ 31 ≤ (gen - y.setWidth 32).toNat → t.path.susp = some (.sync w (y.setWidth 32)) ∧ t.path.clause = s.path.clause
              ∧ t.hart.s = s.hart.s))

/-- R279, R280, R415: GATH and SCAT with every taking-part row in place hand the gather engine their rows in increasing element order, and raise `gath`; COLL with a descriptor and a peer list that keep their limits starts a collective with its input, each byte with its mark of poison, where no abort for it has come before, and raises `coll`. Neither writes a register. -/
def Obligations.GatherAndCollectiveStart : Prop :=
  ∀ (s : State) (d : BitVec 6) (a b : Src) (k : MSel) (l : GathLit) (ml : MemM) (g0 l0 : Word64),
    s.cur.unit = .group → s.hart.region = none → s.opnd a = .ok g0 → s.opnd b = .ok l0 →
    let R := 4 * l.words.toNat
    let job := s.team.nextJob
    let agt : Agt := ⟨s.cur.team, 33 + 2 * job, some s.cur.gid, s.hart.sys⟩
    let g := fun (i : Nat) => g0 + BitVec.ofNat 64 (s.hart.elem s.vc.vlen d.toNat 32 i * l.pitch.toNat)
    let o := fun (i : Nat) => (l0 + BitVec.ofNat 64 (i * R)).toNat
    let one := fun (e : Instr) (scat : Bool) => ∃ t, exec e s = .next t ∧ PathDone s t 2 Latch.none
      ∧ t.team.gathers = s.team.gathers ++ [{ job := job, id := s.hart.nextOp, gid := s.cur.gid, sys := s.hart.sys, scat := scat, size := R, rows := (actives s k).map fun i => (i, g i, o i), last := 0 }]
      ∧ t.team.nextJob = job + 1 ∧ (∀ j < 8, t.hart.counter j = s.hart.counter j + if j = kGath then 1 else 0)
      ∧ t.hart.s = s.hart.s ∧ t.hart.v = s.hart.v ∧ t.hart.m = s.hart.m ∧ t.mem = s.mem ∧ t.team.mem = s.team.mem
      ∧ ∀ j, j ≠ s.cur.team → t.teamOf j = s.teamOf j
    (s.vc.sew = 32 → s.vc.selOk k = true → s.vc.regOk d.toNat s.vc.lmul = true → s.heldRegs d.toNat s.vc.lmul = .ok () →
      s.hart.counter kGath < 65535 → (∀ i ∈ actives s k, o i % 4 = 0 ∧ o i + R ≤ s.team.spadBytes) →
      ((∀ i ∈ actives s k, ∃ ps, s.engRow agt .read 12 (g i) R = .ok ps) → one (.gath d a b k l) false)
      ∧ ((∀ i ∈ actives s k, ∃ ps, s.engRow agt .write 12 (g i) R = .ok ps) → one (.scat d a b k l) true))
    ∧ ∀ (bs ps : List Byte) (input : Option (List (Byte × Bool))),
        let va := g0 + ml.off.signExtend 64
        let desc := collDesc (bytesToBits 512 bs)
        ml.space = .g → s.drained .sys = .ok () → va.toNat % 64 = 0 → s.readSpan va 64 = .ok bs → desc.ok false = true →
        s.readSpan (BitVec.ofNat 64 desc.peers) (2 * desc.n) = .ok ps → peersOk s.fabric.device.toNat desc (peersOf ps) = true →
        s.collInput desc = .ok input → s.hart.counter kColl < 65535 → (∀ c ∈ s.fabric.colls, c.op ≠ s.hart.nextOp) →
        (∀ x ∈ s.fabric.aborts, x.2 ≠ (s.hart.asid.toNat, desc.id)) →
        ∃ t c, exec (.coll a ml) s = .next t ∧ t.fabric.colls = s.fabric.colls ++ [c] ∧ c.id = desc.id ∧ c.op = s.hart.nextOp
          ∧ c.team = s.cur.team ∧ c.gid = s.cur.gid ∧ c.asid = s.hart.asid.toNat ∧ c.launch = none ∧ c.desc = bytesToBits 512 bs
          ∧ c.peers = peersOf ps ∧ c.input = input.getD [] ∧ (input = none → c.status = some (3, 0))
          ∧ (∀ j < 8, t.hart.counter j = s.hart.counter j + if j = kColl then 1 else 0)
          ∧ PathDone s t 2 Latch.none ∧ t.hart.s = s.hart.s ∧ t.hart.v = s.hart.v

namespace Sys2Proof.Claims
open Sys2Proof.Machine

/-- A message of a fold engine from one core to another. -/
def foldMsg (src core : Nat) (b : MsgBody) : Msg := ⟨.fold src, core, b, false⟩

/-- The markers of node i, and slot x of it, of a fold (R308). -/
def markersOf (s : State) (f : Fold) (i : Nat) : Word64 := BitVec.ofNat 64 ((s.teamOf f.team).mem.nat (f.nbase + 64 * i) 8)
def slotOf (s : State) (f : Fold) (i : Nat) (x : Bool) : List Byte := (s.teamOf f.team).mem.read (f.sbase + 64 * i + if x then 32 else 0) 32

/-- A fold's node and slot areas lie apart, its team's memory is in canonical form, and no synchronisation word lies there to change. -/
def FoldPlain (s : State) (f : Fold) : Prop :=
  (f.nbase + 64 * f.ncount ≤ f.sbase ∨ f.sbase + 64 * f.ncount ≤ f.nbase) ∧ (s.teamOf f.team).mem.wf = true ∧ (s.teamOf f.team).syncs = []

/-- The focus's group and path after an instruction with a scalar result, wherever else it acts. -/
def ScalarRetired (s t : State) (d : Dst) (n : Nat) (x : Word64) : Prop :=
  ScalarWritten s t d x ∧ PathDone s t n (Latch.scalar x) ∧ t.hart.v = s.hart.v ∧ t.hart.m = s.hart.m ∧ t.mem = s.mem
    ∧ ∀ i, i ≠ s.hid → t.hartOf i = s.hartOf i

/-- The marker messages that a node sends along its followed edges (R321, R323). -/
def markersSent (s : State) (core : Nat) (f : Fold) (root entry : Nat) (serial : BitVec 32) (l : GpLit) (v : Nat → List Byte) (hops i : Nat) : List Msg :=
  let n := s.gnode f i
  (((List.range n.ecount).map fun j => f.edge (s.teamOf f.team).mem (n.eoff + j)).filter fun e =>
      e.rev == l.dir && (e.etype ^^^ l.etval) &&& l.etmask == 0).map fun e =>
    foldMsg core e.tcore (.marker root entry serial f.name (bytesToBits 256 (weighted l e (v i))) hops e.tindex e.gate core)

end Sys2Proof.Claims

/-! ## Class 5: the fold engine -/

/-- R325 to R330: GCFG binds the fold that its descriptor describes and adds the core to the member set; GCFG.un unbinds it. GMATCH and GPROP put their wave into the lowest free entry of the root's table with the next serial, return its handle, and raise `graph`; a wave that no earlier live one conflicts with starts. GWAIT waits for a live wave, GSTAT returns the status at once, GABORT tells every member of a live wave, once. GCOLLECT stores the identifiers of the nodes that hold every bit of its mask, and counts them, and GCLR clears marker bits and slots of every node, where each takes all its nodes in one step, and else it goes on in its next steps; GVLD and GVST move one slot. -/
def Obligations.GraphInstructionResults : Prop :=
  ∀ (s : State) (d : Dst) (vd : BitVec 6) (a b : Src) (gm : GmLit) (gp : GpLit) (y : Bool) (x z : Word64) (f r : Fold),
    s.cur.unit = .group → s.opnd a = .ok x → s.opnd b = .ok z →
    let core := s.team.core
    let bound := (s.coreOf core).fold = some f ∧ f.asid = s.hart.asid.toNat
    let rooted := s.rootOf f = some r ∧ r.root = f.root
    (s.drained .team = .ok () → x.toNat % 32 = 0 → x.toNat + 32 ≤ s.team.spadBytes → s.team.markedAt x.toNat 32 = false →
      (s.coreOf core).fold = none →
      let desc : BitVec 256 := bytesToBits 256 (s.team.mem.read x.toNat 32)
      foldOf s.cur.team s.hart.asid.toNat s.team.spadBytes desc = some f → s.mayJoin core f = true →
      (∀ i < f.ncount, (s.gnode f i).valid = true → (s.gnode f i).eoff + (s.gnode f i).ecount ≤ f.ecount) →
      ∃ t g, exec (.gcfg a) s = .next t ∧ PathDone s t 1 Latch.none ∧ (t.coreOf core).fold = some g
        ∧ g.team = s.cur.team ∧ g.asid = s.hart.asid.toNat ∧ g.graph = (desc.extractLsb' 0 4).toNat ∧ g.root = (desc.extractLsb' 160 9).toNat
        ∧ g.nbase = (desc.extractLsb' 32 32).toNat ∧ g.sbase = (desc.extractLsb' 64 32).toNat ∧ g.ebase = (desc.extractLsb' 96 32).toNat
        ∧ g.ncount = (desc.extractLsb' 128 16).toNat ∧ g.ecount = (desc.extractLsb' 144 16).toNat
        ∧ (∀ q, (t.coreOf g.root).fold = some q → core ∈ q.members) ∧ t.hart.s = s.hart.s ∧ t.teams = s.teams ∧ t.mem = s.mem)
    ∧ (bound → rooted → f.team = s.cur.team → r.liveWaves = [] → (core ≠ f.root ∨ ∀ c ∈ f.members, c = core) →
      ∃ t, exec .gcfgUn s = .next t ∧ PathDone s t 1 Latch.none ∧ (t.coreOf core).fold = none
        ∧ (core ≠ f.root → ∀ q, (t.coreOf f.root).fold = some q → q.asid = f.asid → q.graph = f.graph → core ∉ q.members) ∧ t.teams = s.teams ∧ t.mem = s.mem)
    ∧ (bound → rooted → s.hart.region = none → s.rootHere r = true → s.hart.counter kGraph < 65535 → ∀ e, r.freeEntry = some e →
      let serial := r.nextSerial
      let handle : Word64 := BitVec.ofNat 64 (serial.toNat * 4096 + f.root % 512 * 8 + e % 8)
      let wave := fun (i : Instr) (spec : WaveSpec) =>
        let held := r.liveWaves.any fun o => earlier o.serial serial && spec.conflicts o.spec
        ∃ t q w, exec i s = .next t ∧ ScalarRetired s t d 2 handle ∧ (t.coreOf f.root).fold = some q ∧ q.nextSerial = serial + 1
          ∧ q.members = r.members ∧ q.waveAt e = some w ∧ w.serial = serial ∧ w.spec = spec ∧ w.team = s.cur.team ∧ w.gid = s.cur.gid
          ∧ w.drop = none ∧ w.aborting = false ∧ (∀ n, n ≠ e → q.waveAt n = r.waveAt n)
          ∧ w.status = (if held then .held else .running)
          ∧ t.net = s.net ++ (if held then [] else r.members.map fun c => foldMsg f.root c (.start f.root e serial r.name))
          ∧ (∀ j < 8, t.hart.counter j = s.hart.counter j + if j = kGraph then 1 else 0) ∧ t.teams = s.teams
      let ctl : BitVec 21 := z.extractLsb' 0 21
      (z.toNat < 2 ^ 21 → (if (z.extractLsb' 18 2).toNat < 2 then z.getLsbD 20 = false else z.extractLsb' 12 6 = 0) →
        wave (.gmatch d a b gm) (.gmatch gm.tval gm.tmask (x.extractLsb' 0 32) (x.extractLsb' 32 32) ctl))
      ∧ (x &&& 0xFFFFFFFFFCC0C0C0 = 0 → gp.comb.toNat ≤ 4 → gp.gmode.toNat ≠ 3 →
          (gp.comb.toNat = 0 → gp.w = false ∧ gp.ef = false ∧ x.getLsbD 24 = false ∧ x.getLsbD 25 = false) →
          (gp.gmode.toNat = 0 → x.extractLsb' 16 6 = 0) → (gp.comb.toNat = 1 → gp.h.toNat ≠ 0) →
        wave (.gprop d a gp) (.gprop gp (x.extractLsb' 0 6) (x.extractLsb' 8 6) (x.extractLsb' 16 6) (x.getLsbD 24) (x.getLsbD 25))))
    ∧ (bound → rooted → x.toNat < 2 ^ 44 → (x.extractLsb' 3 9).toNat = f.root →
      let e := (x.extractLsb' 0 3).toNat
      let serial := x.extractLsb' 12 32
      s.foldIn f.root f.name = some r → s.path.grant = none →
      let live := r.liveWaves.length
      let word := fun (bad code : Nat) => BitVec.ofNat 64 (bad * 2 ^ 32 + live * 256 + code)
      ((∀ w, r.waveAt e = some w → w.serial ≠ serial) →
        (∃ t, exec (.gwait d a) s = .next t ∧ ScalarDone s t d 1 (word 0 7)) ∧ (∃ t, exec (.gstat d a) s = .next t ∧ ScalarDone s t d 1 (word 0 7))
          ∧ ∃ t, exec (.gabort a) s = .next t ∧ Passed s t 1)
      ∧ ∀ w, r.waveAt e = some w → w.serial = serial →
        let code := match w.status with | .held => 0 | .running => 1 | .ended => 2 | .aborted => 3 | .faulted => 4
        let v := word (if w.status = .faulted then w.drop.getD 0 else 0) code
        (∃ t, exec (.gstat d a) s = .next t ∧ ScalarDone s t d 1 v)
        ∧ (2 ≤ code → (∃ t, exec (.gwait d a) s = .next t ∧ ScalarDone (withoutL1 s) t d 1 v) ∧ ∃ t, exec (.gabort a) s = .next t ∧ Passed s t 1)
        ∧ (code < 2 → (∃ t, exec (.gwait d a) s = .next t ∧ Waits s t (.wave r.name f.root e serial))
          ∧ (w.aborting = true → ∃ t, exec (.gabort a) s = .next t ∧ Passed s t 1)
          ∧ (w.aborting = false → ∃ t q, exec (.gabort a) s = .next t ∧ PathDone s t 1 Latch.none ∧ (t.coreOf f.root).fold = some q
              ∧ q.waveAt e = some { w with aborting := true } ∧ t.teams = s.teams ∧ t.hart.s = s.hart.s
              ∧ t.net = s.net ++ r.members.map fun c => foldMsg f.root c (.abort f.root e serial r.name))))
    ∧ (bound → s.hart.region = none → s.hart.counter kSt < 65535 → x.toNat % 4 = 0 →
      let L := (List.range f.ncount).filter fun i => (s.gnode f i).valid && markersOf s f i &&& z == z
      let n := 4 * L.length
      x.toNat + n ≤ s.team.spadBytes → s.inFold core s.cur.team x.toNat n = false → s.path.part = [] → s.choice = 0 →
      ∃ t, exec (.gcollect d a b) s = .next t ∧ ScalarRetired s t d 1 (BitVec.ofNat 64 L.length) ∧ t.teams = s.teams
        ∧ (L = [] → t.hart.sq = s.hart.sq)
        ∧ (L ≠ [] → ∃ q, t.hart.sq = s.hart.sq ++ [q] ∧ q.st = true ∧ q.release = false
            ∧ q.op = .bytes (cellsAt (.spad s.cur.team x.toNat) (L.flatMap fun i => leBytes 4 (core * 4096 + i))) (0x00D0000000000000 + x) n))
    ∧ (bound → z.toNat < 4 → FoldPlain s f → s.path.part = [] → s.choice = 0 →
      ∃ t, exec (.gclr a b) s = .next t ∧ PathDone s t 1 Latch.none ∧ t.hart.s = s.hart.s
        ∧ (∀ i < f.ncount, markersOf t f i = markersOf s f i &&& ~~~x
            ∧ (slotOf t f i false = if z.getLsbD 0 then List.replicate 32 0 else slotOf s f i false)
            ∧ slotOf t f i true = if z.getLsbD 1 then List.replicate 32 0 else slotOf s f i true)
        ∧ (∀ k, k ≠ f.team → t.teamOf k = s.teamOf k) ∧ t.mem = s.mem)
    ∧ (bound → s.path.lanes = BitVec.allOnes 64 → s.path.emask = BitVec.allOnes 64 →
      let i := x.toNat % 4096
      (x.toNat / 4096 = core ∧ i < f.ncount ∧ (s.gnode f i).valid = true →
        (s.heldDst d 1 = .ok () → (s.teamOf f.team).markedAt (f.slotAt i y) 32 = false →
          let v : VWord := bytesToBits 2048 (slotOf s f i y)
          ∃ t, exec (.gvld d a y) s = .next t ∧ PathDone s t 1 (Latch.vector v) ∧ t.hart.s = s.hart.s ∧ t.hart.m = s.hart.m
            ∧ (∀ k < 32, vget t.hart.v k 0 = if k = d.reg.toNat ∧ d.nw = false then v else vget s.hart.v k 0) ∧ SameRegs s t ∧ OnlyHart s t)
        ∧ (s.heldRegs vd.toNat 1 = .ok () → FoldPlain s f →
          ∃ t, exec (.gvst vd a y) s = .next t ∧ PathDone s t 1 Latch.none ∧ t.hart.s = s.hart.s ∧ t.hart.v = s.hart.v
            ∧ slotOf t f i y = (leBytes 256 (vget s.hart.v vd.toNat 0).toNat).take 32
            ∧ (∀ j < f.ncount, markersOf t f j = markersOf s f j ∧ ∀ u, (j ≠ i ∨ u ≠ y) → slotOf t f j u = slotOf s f j u)
            ∧ ∀ k, k ≠ f.team → t.teamOf k = s.teamOf k))
      ∧ (x.toNat / 4096 ≠ core ∨ f.ncount ≤ i → s.heldDst d 1 = .ok () → exec (.gvld d a y) s = .next (s.stopped (trapOf .graphBound x))))

/-- R312 to R324: a held wave that nothing holds back starts: one start message to each member, and its first sweep. A start message applies a GMATCH to every matching node of the fold, or sends a GPROP's markers from every seed; a marker message that meets no valid node is dropped, and one that passes its gate sets its node's bit or combines into its slot, and goes on while hops are left; a drop notice and an abort reach the count of their wave, and a message that finds no fold comes back as a notice. A member answers a sweep once and clears its activity; two equal quiet sweeps in turn end the wave. -/
def Obligations.WaveEventResults : Prop :=
  ∀ (s : State) (i core root entry : Nat) (serial : BitVec 32) (f r : Fold) (w : Wave) (m : Msg),
    let key : WaveKey := (root, entry, serial)
    let count := fun (u : State) (c : Nat) => ((u.coreOf c).fold.map fun q => q.count key).getD ⟨root, entry, serial, 0, 0, false, none, false⟩
    let old := f.count key
    let came := { old with recv := old.recv + 1, active := true }
    let arrives := s.net[i]? = some m ∧ (∀ k < i, ∀ q, s.net[k]? = some q → ¬ (q.src = m.src ∧ q.core = m.core)) ∧ m.core = core
      ∧ (s.coreOf core).fold = some f ∧ f.root = root ∧ s.away f.team = false ∧ old.aborted = false
      ∧ s.foldIn root f.name = some r ∧ r.waveAt entry = some w ∧ w.serial = serial
    let left := removeAt i s.net
    ((s.coreOf root).fold = some r → r.waveAt entry = some w → w.serial = serial → (s.teamOf r.team).absent = false →
      (w.status = .held → r.heldBack w = false → ∃ t q, exec (.waveStart root entry) s = .next t ∧ (t.coreOf root).fold = some q
        ∧ q.waveAt entry = some { w with status := .running, sweep := 1, asked := r.members, sumS := 0, sumR := 0, sumA := false }
        ∧ (q.count key).sent = (r.count key).sent + BitVec.ofNat 48 r.members.length ∧ (q.count key).recv = (r.count key).recv
        ∧ t.net = s.net ++ r.members.map (fun c => foldMsg root c (.start root entry serial r.name)) ∧ t.teams = s.teams)
      ∧ (w.status = .running → core ∈ w.asked → s.foldIn core r.name = some f → s.sweepBehind root core = false →
          ∃ t q, exec (.sweepAnswer core root entry) s = .next t ∧ (t.coreOf root).fold = some q
            ∧ q.waveAt entry = some { w with
                asked := w.asked.filter (· != core), sumS := w.sumS + old.sent.toNat, sumR := w.sumR + old.recv.toNat,
                sumA := w.sumA || (old.active || (s.teamOf f.team).ringHolds key), drop := minDrop w.drop old.drop }
            ∧ (count t core).active = false ∧ (count t core).sent = old.sent ∧ (count t core).recv = old.recv ∧ t.net = s.net)
      ∧ (w.status = .running → w.asked = [] →
          let quiet := 2 ≤ w.sweep ∧ w.sumS = w.sumR ∧ w.sumA = false ∧ w.sumS = w.lastS ∧ w.sumR = w.lastR
          (¬ quiet → ∃ t q, exec (.sweepResult root entry) s = .next t ∧ (t.coreOf root).fold = some q
            ∧ q.waveAt entry = some { w with
                sweep := w.sweep + 1, lastS := w.sumS, lastR := w.sumR, sumS := 0, sumR := 0, sumA := false, asked := r.members })
          ∧ (quiet → vget (s.hartOf (.group w.team w.gid)).ledger kGraph [] = [(waveOp key, false)] →
            ∃ t q, exec (.sweepResult root entry) s = .next t ∧ (t.coreOf root).fold = some q
              ∧ q.waveAt entry = some { w with status := if w.drop.isSome then .faulted else if w.aborting then .aborted else .ended }
              ∧ (t.hartOf (.group w.team w.gid)).counter kGraph = 0)))
    ∧ (arrives → m.body = .start root entry serial f.name →
      (∀ tval tmask v1 v2 ctl, w.spec = .gmatch tval tmask v1 v2 ctl → FoldPlain s f →
        let hit := fun (n : Nat) => (s.gnode f n).matched tval tmask v1 v2 ctl
        let bit : Word64 := (1 : Word64) <<< (ctlBit ctl).toNat
        ∃ t, exec (.startMessageArrive i) s = .next t ∧ t.net = left ∧ count t core = came
          ∧ ∀ n < f.ncount,
              (markersOf t f n = if hit n ∧ (ctlAct ctl).toNat = 0 then markersOf s f n ||| bit
                else if hit n ∧ (ctlAct ctl).toNat = 1 then markersOf s f n &&& ~~~bit else markersOf s f n)
              ∧ ∀ u, slotOf t f n u = if hit n ∧ u = ctlY ctl ∧ (ctlAct ctl).toNat = 2 then (s.gnode f n).attr
                else if hit n ∧ u = ctlY ctl ∧ (ctlAct ctl).toNat = 3 then List.replicate 32 0 else slotOf s f n u)
      ∧ (∀ l a b g x y, w.spec = .gprop l a b g x y →
        let seed := fun (n : Nat) => (s.gnode f n).valid && (markersOf s f n).getLsbD a.toNat
        let sent := ((List.range f.ncount).filter seed).flatMap
          (markersSent s core f root entry serial l (fun n => if l.comb = 0 then List.replicate 32 0 else slotOf s f n x) l.h.toNat)
        ∃ t, exec (.startMessageArrive i) s = .next t ∧ t.net = left ++ sent ∧ t.teams = s.teams
          ∧ count t core = { came with sent := old.sent + BitVec.ofNat 48 sent.length }))
    ∧ (∀ v hops n gate sender, arrives → m.body = .marker root entry serial f.name v hops n gate sender →
      (f.ncount ≤ n ∨ (s.gnode f n).valid = false →
        ∃ t, exec (.markerMessageArrive i) s = .next t ∧ t.net = left ∧ t.teams = s.teams
          ∧ count t core = { came with drop := minDrop old.drop (some (core * 4096 + n)) })
      ∧ (∀ l a b g x y, w.spec = .gprop l a b g x y → n < f.ncount → (s.gnode f n).valid = true → FoldPlain s f → f.nbase % 64 = 0 →
        let open_ := l.gmode = 0 ∨ (l.gmode ≠ 1 ∧ gate = false) ∨ (markersOf s f n).getLsbD g.toNat = true
        let marked := (markersOf s f n).getLsbD b.toNat = true
        (¬ open_ ∨ (l.comb.toNat ∈ [0, 4] ∧ marked) → ∃ t, exec (.markerMessageArrive i) s = .next t ∧ t.net = left ∧ t.teams = s.teams ∧ count t core = came)
        ∧ (open_ → l.comb.toNat = 0 → ¬ marked →
          let on := markersSent s core f root entry serial l (fun _ => List.replicate 32 0) (hops - 1) n
          ∃ t, exec (.markerMessageArrive i) s = .next t ∧ markersOf t f n = markersOf s f n ||| ((1 : Word64) <<< b.toNat)
            ∧ (∀ k < f.ncount, k ≠ n → markersOf t f k = markersOf s f k) ∧ (hops = 1 → t.net = left ∧ count t core = came)
            ∧ (hops ≠ 1 → (∀ k < (s.gnode f n).ecount, f.nbase + 64 * f.ncount ≤ f.ebase) → t.net = left ++ on))
        ∧ (open_ → 1 ≤ l.comb.toNat → l.comb.toNat ≤ 3 → ∃ t, exec (.markerMessageArrive i) s = .next t
            ∧ slotOf t f n y = combined l (slotOf s f n y) (leBytes 32 v.toNat)
            ∧ markersOf t f n = markersOf s f n ||| ((1 : Word64) <<< b.toNat)
            ∧ (hops = 1 → t.net = left))))
    ∧ (∀ target, arrives → m.body = .notice root entry serial f.name target →
        ∃ t, exec (.dropNoticeArrive i) s = .next t ∧ t.net = left ∧ count t core = { came with drop := minDrop old.drop target } ∧ t.teams = s.teams)
    ∧ (arrives → m.body = .abort root entry serial f.name →
        ∃ t, exec (.abortNoticeArrive i) s = .next t ∧ t.net = left ∧ count t core = { old with aborted := true } ∧ t.teams = s.teams)
    ∧ ∀ graph v hops n gate sender, s.net[i]? = some m → (∀ k < i, ∀ q, s.net[k]? = some q → ¬ (q.src = m.src ∧ q.core = m.core)) →
        s.foldIn m.core graph = none →
        (m.body = .start root entry serial graph → ∃ t, exec (.startMessageArrive i) s = .next t
          ∧ t.net = left ++ [foldMsg m.core root (.notice root entry serial graph none)])
        ∧ (m.body = .marker root entry serial graph v hops n gate sender → ∃ t, exec (.markerMessageArrive i) s = .next t
          ∧ t.net = left ++ [foldMsg m.core sender (.notice root entry serial graph (some (m.core * 4096 + n)))])

/-! ## Class 6: messages, items, tasks, blocks and regions -/

/-- R353, R354, R99: MQW puts its value into a free send register and queues the flit as a release; a flit that arrives joins its receive register while there is room, frees its send register and credits `st`, stays with its port while there is none, and is refused where no entry has its base. MQR takes the oldest value, and suspends while there is none. REFILL gives the queued items to the lanes that are off, in increasing lane order; ITEMPUSH appends an item, unless the queue is closed or full, and ITEMPUSH.close closes it. -/
def Obligations.MessageAndItemResults : Prop :=
  ∀ (s : State) (d : Dst) (vd : BitVec 6) (a b : Src) (sc : Scope) (k : BitVec 2) (x y : Word64) (i : Nat),
    s.cur.unit = .group → s.opnd a = .ok x → s.opnd b = .ok y →
    let j := vd.toNat
    let core := (y.extractLsb' 0 9).toNat
    let queue := vget s.team.rx k.toNat []
    let op := SQOp.flit core (y.extractLsb' 9 8).toNat (y.extractLsb' 17 2).toNat x j
    (j ≤ 3 → y.toNat < 2 ^ 19 → core < 288 →
      (vget s.hart.send j none = none → Room s op true false true → ∃ t, exec (.mqw vd a b sc) s = .next t
        ∧ Enters (s.setHart { s.hart with send := vset s.hart.send j (some x) }) t op true false true sc 1)
      ∧ (vget s.hart.send j none ≠ none → exec (.mqw vd a b sc) s = .next (s.setPath { s.path with stalled := true })))
    ∧ (j ≤ 3 → 2 ^ 19 ≤ y.toNat ∨ 288 ≤ core → exec (.mqw vd a b sc) s = .next (s.stopped (trapOf .accessViolation y)))
    ∧ (∀ v q, queue = v :: q → ∃ t, exec (.mqr d k) s = .next t
        ∧ ScalarDone (withoutL1 (s.setTeam { s.team with rx := vset s.team.rx k.toNat q })) t d 1 v)
    ∧ (queue = [] → ∃ t, exec (.mqr d k) s = .next t ∧ Waits s t (.message k.toNat))
    ∧ (∀ g tm wbase rx asid v id control m, s.net[i]? = some m → m.src = .group tm g → m.body = .flit wbase rx asid v j id control → rx < 4 → j < 4 →
        (∀ n < i, ∀ q, s.net[n]? = some q → ¬ (q.src = m.src ∧ q.core = m.core)) →
        let h := s.hartOf (.group tm g)
        let credited := fun (t : State) => vget (t.hartOf (.group tm g)).send j none = none
          ∧ (vget h.ledger kSt [] = [(id, false)] → (t.hartOf (.group tm g)).counter kSt = 0)
        (∀ e, s.entryAtBase m.core wbase asid = some e → e.absent = false →
          let q := vget (s.teamOf e.team).rx rx []
          (q.length < 16 → ∃ t, exec (.messageFlitArrive i) s = .next t ∧ vget (t.teamOf e.team).rx rx [] = q ++ [v] ∧ credited t ∧ t.net = removeAt i s.net)
          ∧ (16 ≤ q.length → ∃ t, exec (.messageFlitArrive i) s = .next t ∧ t.teams = s.teams ∧ t.harts = s.harts ∧ t.net.length = s.net.length))
        ∧ (s.entryAtBase m.core wbase asid = none → ∃ t r, exec (.messageFlitArrive i) s = .next t ∧ credited t ∧ t.teams = s.teams
            ∧ t.net = removeAt i s.net ++ [r] ∧ r.core = (s.teamOf tm).core ∧ ∃ va, r.body = .refusal .accessViolation va))
    ∧ (s.path.lanes = BitVec.allOnes 64 → s.hart.recs = [] → s.hart.loopHead = some s.path.header → j < 32 → s.heldRegs j 1 = .ok () →
      let items := s.team.items
      (s.team.items = [] ∧ s.path.emask = 0 ∧ s.team.itemsClosed = false → ∃ t, exec (.refill vd) s = .next t ∧ Waits s t .item)
      ∧ (¬ (s.team.items = [] ∧ s.path.emask = 0 ∧ s.team.itemsClosed = false) →
        let off := fun (l : Nat) => !s.path.emask.getLsbD l
        let place := fun (l : Nat) => ((List.range l).filter off).length
        let fed := fun (l : Nat) => off l = true ∧ place l < items.length
        ∃ t em, exec (.refill vd) s = .next t ∧ PathDone (s.setPath { s.path with emask := em }) t 1 Latch.none
          ∧ (∀ l < 64, (em.getLsbD l = true ↔ s.path.emask.getLsbD l = true ∨ fed l))
          ∧ (∀ l < 64, (vget t.hart.v j 0).extractLsb' (32 * l) 32
              = if off l = true ∧ place l < items.length then items.getD (place l) 0 else (vget s.hart.v j 0).extractLsb' (32 * l) 32)
          ∧ t.team.items = items.drop (((List.range 64).filter off).length)
          ∧ (∀ r < 32, r ≠ j → vget t.hart.v r 0 = vget s.hart.v r 0) ∧ t.hart.s = s.hart.s ∧ t.hart.m = s.hart.m))
    ∧ (s.drained .team = .ok () →
      (s.team.itemsClosed = true → ∃ t, exec (.itempush d a) s = .next t ∧ ScalarDone s t d 1 (BitVec.allOnes 64))
      ∧ (s.team.itemsClosed = false → 4096 ≤ s.itemsOn s.team.core → ∃ t, exec (.itempush d a) s = .next t ∧ ScalarDone s t d 1 0)
      ∧ (s.team.itemsClosed = false → s.itemsOn s.team.core < 4096 → ∃ t, exec (.itempush d a) s = .next t
          ∧ ScalarDone (s.setTeam { s.team with items := s.team.items ++ [x.setWidth 32] }) t d 1 1)
      ∧ ∃ t, exec (.itempushClose d) s = .next t ∧ ScalarDone (s.setTeam { s.team with itemsClosed := true }) t d 1 0)

/-- R87 to R89, R355: TENDER with a record that passes its checks queues its tasks and returns the first serial; WITHDRAW takes the tasks of a record that have not started out of every queue, and counts them; DONE adds its result to the team's and ends the group. BLKACQ binds the slots that it lacks while its role's budget holds them, their registers zero, else returns or suspends; BLKREL gives slots back; the core lends its spare block to a waiter when every group of its role waits. -/
def Obligations.TaskAndBlockResults : Prop :=
  ∀ (s : State) (d : Dst) (a : Src) (l : BitVec 4) (y : Bool) (x : Word64), s.cur.unit = .group → s.opnd a = .ok x →
    let h := s.hart
    (∀ bs hb, x.toNat % 256 = 0 → s.readSpan x 256 = .ok bs → (parseNode bs).kind = 0 → s.readSpan (parseNode bs).code 128 = .ok hb →
      let c : Checked := { node := { parseNode bs with formula := l.toNat }, bad := nodeBad bs 1, header := some (.ok (parseHeader hb)) }
      s.taskOk h.asid.toNat c bs = true → s.drained .dev = .ok () → s.openTasks < 256 →
      let grid := (parseHeader hb).header.grid
      ∃ t e rec, exec (.tender d a l) s = .next t ∧ ScalarRetired s t d 2 (s.bell.serial.setWidth 64)
        ∧ t.bell.serial = s.bell.serial + BitVec.ofNat 32 grid ∧ e ∈ t.bell.queue ∧ (∀ q ∈ s.bell.queue, q ∈ t.bell.queue)
        ∧ t.bell.queue.length = s.bell.queue.length + 1
        ∧ e.launch = s.nextLaunch ∧ e.node = 0 ∧ e.tid = 0 ∧ e.left = grid ∧ e.prio = (parseNode bs).prio ∧ e.serial = s.bell.serial
        ∧ mfind s.nextLaunch t.launches = some rec ∧ rec.tenderer = some (s.cur.team, s.cur.gid) ∧ rec.asid = h.asid.toNat
        ∧ rec.serial = s.bell.serial ∧ rec.queue = none ∧ t.nextLaunch = s.nextLaunch + 1 ∧ t.teams = s.teams)
    ∧ (let mine := fun (q : Launch) => q.queue = none ∧ q.serial = x.setWidth 32 ∧ ∃ g, q.tenderer = some (s.cur.team, g)
      ((∀ q ∈ s.launches, ¬ mine q.2) → ∃ t, exec (.withdraw d a) s = .next t ∧ ScalarDone s t d 1 0)
      ∧ ∀ q ∈ s.launches, mine q.2 → (∀ o ∈ s.launches, mine o.2 → o = q) →
        let gone := fun (e : ReadyTeam) => e.launch == q.1
        let n := sumNat ((s.bell.queue.filter gone).map ReadyTeam.left) + sumNat ((s.bell.head.toList.filter gone).map ReadyTeam.left)
          + sumNat ((s.bell.window.toList.filter fun w => gone w.task).map fun w => w.task.left) + sumNat ((s.ready.filter gone).map ReadyTeam.left)
        ∃ t, exec (.withdraw d a) s = .next t ∧ ScalarRetired s t d 1 (BitVec.ofNat 64 n) ∧ t.teams = s.teams
          ∧ (∀ e, e ∈ t.bell.queue ↔ e ∈ s.bell.queue ∧ e.launch ≠ q.1) ∧ (∀ e, e ∈ t.ready ↔ e ∈ s.ready ∧ e.launch ≠ q.1)
          ∧ (∀ e, t.bell.head = some e ↔ s.bell.head = some e ∧ e.launch ≠ q.1)
          ∧ ∀ w, t.bell.window = some w ↔ s.bell.window = some w ∧ w.task.launch ≠ q.1)
    ∧ (h.recs = [] → (∀ k < 8, h.counter k = 0) → ∃ t, exec (.doneTask a) s = .next t ∧ (t.hartOf s.hid).live = false
        ∧ (t.teamOf s.cur.team).result = s.team.result ||| x.setWidth 32
        ∧ (t.liveGids s.cur.team ≠ [] → ∀ i, i ≠ s.hid → t.hartOf i = s.hartOf i))
    ∧ (s.path.grant = none →
      let req := x.setWidth 4 &&& ~~~h.held
      let n := popcount req.toNat 4
      let budget := s.team.budgetOf h.role
      let word := fun (m : BitVec 4) => (m.setWidth 64 : Word64)
      (req = 0 → ∃ t, exec (.blkacq d a y) s = .next t ∧ ScalarDone s t d 1 (word h.held))
      ∧ (req ≠ 0 → budget < popcount h.held.toNat 4 + n → exec (.blkacq d a y) s = .next (s.stopped (trapOf .blockDenied x)))
      ∧ (req ≠ 0 → popcount h.held.toNat 4 + n ≤ budget → s.blockWaiters s.cur.team h.role = [] →
        (s.roleHeld s.cur.team h.role + n ≤ budget → ∃ t v, exec (.blkacq d a y) s = .next t
          ∧ ScalarDone (s.setHart { h with held := h.held ||| req, v := v }) t d 1 (word (h.held ||| req))
          ∧ ∀ r < 32, vget v r 0 = if req.getLsbD (r / 8) then 0 else vget h.v r 0)
        ∧ (budget < s.roleHeld s.cur.team h.role + n →
          (y = true → ∃ t, exec (.blkacq d a y) s = .next t ∧ ScalarDone s t d 1 (word h.held))
          ∧ (y = false → ∃ t, exec (.blkacq d a y) s = .next t ∧ Waits s t (.blocks x)))))
    ∧ (let kept := h.held &&& ~~~(x.setWidth 4)
      (s.coreOf s.team.core).spare ≠ some (s.cur.team, s.cur.gid) ∨ x.setWidth 4 &&& h.held = 0 →
        ∃ t, exec (.blkrel d a) s = .next t ∧ ScalarDone (s.setHart { h with held := kept }) t d 1 (kept.setWidth 64))
    ∧ ∀ k role w, let t0 := s.teamOf k
      t0.live = true → t0.absent = false → (s.coreOf t0.core).spare = none →
      (∀ g ∈ s.liveGids k, (s.hartOf (.group k g)).role = role → (s.hartOf (.group k g)).evicted = false ∧ (s.hartOf (.group k g)).inBlkacq = true) →
      (∀ q ∈ s.blockWaiters k role, s.requestFits k role (t0.budgetOf role) q = false) →
      (s.blockWaiters k role).find? (s.requestFits k role (t0.budgetOf role + 1)) = some w →
      ∃ t, exec (.spareBlockLend k role) s = .next t ∧ (t.coreOf t0.core).spare = some (k, w.gid)
        ∧ (t.hartOf (.group k w.gid)).held = (s.hartOf (.group k w.gid)).held ||| w.a.setWidth 4
        ∧ ((t.hartOf (.group k w.gid)).path w.path).susp = none ∧ ((t.hartOf (.group k w.gid)).path w.path).grant = some .go

namespace Sys2Proof.Claims
open Sys2Proof.Machine

/-- A region has failed: its checkpoint is back, the path that opened it begins the clause at the handler with every lane, and the other path is gone (R410). -/
structure RegionFailed (h h' : Hart) (r : Region) : Prop where
  region : h'.region = none
  scalars : h'.s = r.cs
  saved : (r.cv.map (·.1)).Nodup → ∀ e ∈ r.cv, e.1 < 32 → vget h'.v e.1 0 = e.2
  kept : ∀ j < 32, (∀ e ∈ r.cv, e.1 ≠ j) → vget h'.v j 0 = vget h.v j 0
  vl : h'.vl = r.cvl
  vtype : h'.vtype = r.cvtype
  pc : (h'.path r.path).pc = r.handler
  clause : (h'.path r.path).clause = none
  lanes : (h'.path r.path).lanes = BitVec.allOnes 64
  emask : (h'.path r.path).emask = r.cemask
  fmt : (h'.path r.path).fmt = r.cfmt
  latches : ∀ k < 4, (vget (h'.path r.path).latches k default).kind = .invalid
  other : (h'.path (!r.path)).active = false
  sq : h'.sq = h.sq
  masks : h'.m = h.m

end Sys2Proof.Claims

/-- R407 to R412: FBEGIN takes the checkpoint and opens a region; FCOMMIT with nothing held closes it at once with the result 0; with nothing held for another device, the older accesses performed, its held releases join the store queue, and the lines held are the result; with something held for another device its stage packets leave and the path stalls, and once each is acknowledged the commit point closes the region with the same result. FABORT, and a failure from outside that a boundary takes, bring the checkpoint back at the handler, with the reason in `fcause`. -/
def Obligations.RegionResults : Prop :=
  ∀ (s : State) (d : Dst) (a : Src) (l : Word32) (x : Word64) (c : Clause) (r : Region) (k g : Nat) (why : RegionFailure),
    let lines := fun (r : Region) => BitVec.ofNat 64 (heldLines r.items)
    let legal := fun (r : Region) => r.handler.toNat % 4 = 0 ∧ r.handler.toNat < 12 * 2 ^ 52
    (s.cur.unit = .group → s.opnd a = .ok x → s.path.clause = some c → s.hart.region = none → s.hart.recs = [] →
      x.toNat < 2 ^ 32 → popcount x.toNat 32 ≤ 8 → (∀ j < 32, x.getLsbD j = true → s.hart.held.getLsbD (j / 8) = true) →
      let vs := (List.range 32).filter fun j => x.getLsbD j
      let opened : Region := { serial := s.fabric.nextRegion, cs := s.hart.s, cv := vs.map fun j => (j, vget s.hart.v j 0), cvl := s.hart.vl, cvtype := s.hart.vtype, cemask := s.path.emask, cfmt := s.path.fmt, path := s.cur.path, depth := 0, handler := c.hdr + 4 * l.signExtend 64, hdr := c.hdr, items := [], staged := false, awaiting := [], doomed := none, phases := [] }
      ∃ t, exec (.fbegin a l) s = .next t
        ∧ Passed ({ s with fabric := { s.fabric with nextRegion := s.fabric.nextRegion + 1 } }.setHart { s.hart with region := some opened }) t 2)
    ∧ (s.cur.unit = .group → s.hart.region = some r → r.items = [] → ∃ t, exec (.fcommit d) s = .next t ∧ ScalarRetired s t d 1 0
        ∧ t.hart.region = none ∧ t.hart.sq = s.hart.sq ∧ t.fabric = s.fabric ∧ t.teams = s.teams)
    ∧ (s.cur.unit = .group → s.hart.region = some r → s.quiet .sys = true → r.staged = false →
      ((∀ e ∈ r.items, e.fab = false) → ∃ t, exec (.fcommit d) s = .next t ∧ ScalarRetired s t d 1 (lines r) ∧ t.hart.region = none
          ∧ t.hart.sq = r.items ∧ t.fabric = s.fabric ∧ t.teams = s.teams)
      ∧ ((∃ e ∈ r.items, e.fab = true) → (∀ e ∈ r.items, ∀ u ∈ e.targets, ∀ n o i, u ≠ .remote n o i true) → ∃ t r', exec (.fcommit d) s = .next t ∧ t.hart.region = some r'
          ∧ r'.staged = true ∧ r'.items = r.items ∧ r'.cs = r.cs ∧ r'.handler = r.handler
          ∧ t.path.stalled = true ∧ t.path.clause = s.path.clause ∧ t.hart.s = s.hart.s ∧ t.mem = s.mem
          ∧ t.fabric.wire.length = s.fabric.wire.length + r'.awaiting.length ∧ r'.phases.map (·.2) = phasesOf r.items
          ∧ r'.awaiting.length = sumNat (r'.phases.map fun x => (stageItems x.2).length)))
    ∧ (s.cur.unit = .group → s.hart.region = some r → legal r → ∃ t, exec .fabort s = .next t ∧ RegionFailed s.hart t.hart r ∧ t.hart.fcause = 1
        ∧ t.mem = s.mem ∧ t.teams = s.teams)
    ∧ ((s.hartOf (.group k g)).region = some r →
      (∀ q, r.staged = true → r.awaiting = [] → r.doomed = none → (s.hartOf (.group k g)).p0.fcommit = some q →
        ∃ t, exec (.commitPoint k g) s = .next t ∧ (t.hartOf (.group k g)).region = none
          ∧ (∀ n, (t.hartOf (.group k g)).sreg n = if n = q.reg ∧ q.nw = false ∧ n ≠ 0 then lines r else (s.hartOf (.group k g)).sreg n)
          ∧ vget (t.hartOf (.group k g)).p0.latches 0 default = Latch.scalar (lines r) ∧ t.mem = s.mem)
      ∧ ((s.hartOf (.group k g)).live = true → (s.hartOf (.group k g)).evicted = false → (s.hartOf (.group k g)).between = true → s.doomedBy r why = true → legal r →
        ∃ t, exec (.regionFail k g why) s = .next t ∧ RegionFailed (s.hartOf (.group k g)) (t.hartOf (.group k g)) r
          ∧ (t.hartOf (.group k g)).fcause = match why with
              | .unreachable n => 0x04 + n.setWidth 64 * 65536
              | .refused n => 0x05 + n.setWidth 64 * 65536
              | .evicted => 0x06))

/-! ## Bank cores and the Shepherd -/

/-- R291 to R299, R371: a job that starts has its registers at their reset values with the six arguments, its region, an empty mailbox and EMPTY result rows; a store to the mailbox of the owner's job writes its word. NZSKIP finds the next set bit of its bitmap, ROWF marks its row FULL, MBXR reads a mailbox word, HALTB halts with its value. At a chunk boundary a job of lower prio gives way to an urgent one, and is kept whole. -/
def Obligations.BankCoreResults : Prop :=
  ∀ (s : State) (d : BitVec 6) (a b : Src) (l : MemM) (x y : Word64), s.cur.unit = .bank → s.opnd a = .ok x → s.opnd b = .ok y →
    let me := s.cur.bank
    let B := s.bankOf me
    let base := me * bankSize + B.region.b0
    let chunk := fun (u : State) => u.setBankOf me { u.bankOf me with chunk := true }
    (let va := x + l.off.signExtend 64
      let n := y.toNat
      let bit := fun (j : Nat) => (s.bankByte (base + (va.toNat + j / 8))).getLsbD (j % 8)
      l.space = .g → n ≤ 2 ^ 32 → va.toNat % 8 = 0 → va.toNat + (n + 7) / 8 ≤ 65536 * B.region.pages → va.toNat + 2 ^ 29 < 2 ^ 64 → s.poisoned = [] →
      ∃ t j, exec (.nzskip d a b l) s = .next t
        ∧ ((s.hart.sreg d).toNat < n ∧ (∃ i, (s.hart.sreg d).toNat ≤ i ∧ i < n ∧ bit i = true) →
            (s.hart.sreg d).toNat ≤ j ∧ j < n ∧ bit j = true ∧ ∀ i, (s.hart.sreg d).toNat ≤ i → i < j → bit i = false)
        ∧ (¬ ((s.hart.sreg d).toNat < n ∧ (∃ i, (s.hart.sreg d).toNat ≤ i ∧ i < n ∧ bit i = true)) → j = n)
        ∧ ScalarDone (chunk s) t ⟨d, false⟩ 2 (BitVec.ofNat 64 j))
    ∧ (x.toNat % 1024 = 0 → x.toNat + 1024 ≤ 65536 * B.region.pages → x.toNat / 65536 ∈ B.region.fe →
      ∃ t, exec (.rowf a) s = .next t ∧ (∀ row, row ∈ t.fullRows ↔ row ∈ s.fullRows ∨ row = (base + x.toNat) / 1024)
        ∧ (t.bankOf me).chunk = true ∧ PathDone s t 1 Latch.none ∧ t.hart.s = s.hart.s ∧ t.mem = s.mem)
    ∧ (∃ t, exec (.mbxr d a) s = .next t ∧ ScalarDone s t ⟨d, false⟩ 1 (vget B.mail (x.toNat % 32) 0))
    ∧ (B.job = none → B.suspended = none → ∃ t, exec (.haltb a) s = .next t ∧ (t.bankOf me).running = false ∧ (t.bankOf me).cause = 0
        ∧ (t.bankOf me).value = x.setWidth 32 ∧ (t.bankOf me).owner = B.owner ∧ (t.hartOf (.bank me)).p0.active = false ∧ t.mem = s.mem ∧ ∀ n, n ≠ me → t.bankOf n = s.bankOf n)
    ∧ (∀ k g e q rec ap, s.headEntry k g (fun o => match o with | .bankStart _ _ _ => true | _ => false) = some e → e.op = .bankStart q rec ap →
        e.st = true → e.fab = false →
        let h := s.hartOf (.group k g)
        let u : State := { (s.popSq k g).landWhere (fun p => p.team == k && p.gid == g) with dirty := [] }
        (s.bankOf q).running = false → ∀ sr, u.startRecord (bankKey q) q h.asid.toNat h.sys rec = .ok sr →
        ∃ t, exec (.bankStart k g) s = .next t ∧ (t.bankOf q).running = true ∧ (t.bankOf q).owner = h.asid.toNat ∧ (t.bankOf q).prio = h.prio.toNat
          ∧ (t.bankOf q).region = sr.region ∧ (∀ w < 32, vget (t.bankOf q).mail w 0 = 0)
          ∧ (t.hartOf (.bank q)).p0.pc = sr.entry ∧ (t.hartOf (.bank q)).p0.clause = none ∧ (t.hartOf (.bank q)).vl = 0 ∧ (t.hartOf (.bank q)).vtype = 0
          ∧ (∀ i < 6, i < sr.args.length → vget (t.hartOf (.bank q)).s (i + 1) 0 = sr.args.getD i 0)
          ∧ (∀ row ∈ t.fullRows, ¬ ((q * bankSize + sr.region.b0) / 1024 ≤ row ∧ row < (q * bankSize + sr.region.b0) / 1024 + 64 * sr.region.pages))
          ∧ (t.hartOf (.group k g)).sq = h.sq.tail)
    ∧ (∀ k g e q w v ap, s.headEntry k g (fun o => match o with | .mailbox _ _ _ _ => true | _ => false) = some e → e.op = .mailbox q w v ap →
        w < 32 → (s.bankOf q).owner = (s.hartOf (.group k g)).asid.toNat →
        ∃ t, exec (.mailboxWrite k g) s = .next t ∧ vget (t.bankOf q).mail w 0 = v ∧ (∀ i < 32, i ≠ w → vget (t.bankOf q).mail i 0 = vget (s.bankOf q).mail i 0)
          ∧ (∀ n, n ≠ q → t.bankOf n = s.bankOf n) ∧ (t.hartOf (.group k g)).sq = (s.hartOf (.group k g)).sq.tail ∧ t.mem = s.mem)
    ∧ ∀ lc nd n L sr, s.nodeRun lc nd = some n → mfind lc s.launches = some L → n.node.kind = 1 → n.status = .ready → s.displaces n = true →
        (s.bankOf (kind1Parms n.node.kparm).2).chunk = true →
        s.startRecord (nodeKey lc nd) (kind1Parms n.node.kparm).2 L.asid false (kind1Parms n.node.kparm).1 = .ok sr →
        let q := (kind1Parms n.node.kparm).2
        ∃ t j, exec (.bankJobSuspend lc nd) s = .next t ∧ (t.bankOf q).suspended = some j ∧ j.hart = s.hartOf (.bank q)
          ∧ j.region = (s.bankOf q).region ∧ j.owner = (s.bankOf q).owner ∧ j.mail = (s.bankOf q).mail ∧ j.prio = (s.bankOf q).prio ∧ j.job = (s.bankOf q).job
          ∧ (t.bankOf q).running = true ∧ (t.bankOf q).prio = n.node.prio ∧ (t.bankOf q).job = some (lc, nd) ∧ (t.hartOf (.bank q)).p0.pc = sr.entry

/-- R336, R337: SUBMIT answers 1 where the handle names no mapped queue, 2 where the queue is another context's, 3 where the index goes back or past the ring; else it moves the write index, sends a wait packet and answers 0. The status goes to rd, and x0 keeps 0. While a store of the hart is still to be performed, SUBMIT waits as the hart's next word. Another function code is an illegal instruction, taken as RISC-V does (PRESUMED, log 46); CSR 0xCC0 reads `shasid`. -/
def Obligations.SubmitResults : Prop :=
  ∀ (s : State) (rs2 rs1 rd : BitVec 5),
    let hart := s.cur.hart
    let reg := fun (u : State) (r : BitVec 5) => if r = 0 then (0 : Word64) else mget 0 (hart * 32 + r.toNat) u.xregs
    let q := (reg s rs1).toNat
    let w : Word32 := (reg s rs2).setWidth 32
    let Q := mget default q s.queues
    let H := fun (u : State) => mget Shepherd.reset hart u.shepherds
    let rest := fun (u t : State) => t = { u with xregs := t.xregs, shepherds := t.shepherds } ∧ ∀ i, i ≠ hart → mget Shepherd.reset i t.shepherds = mget Shepherd.reset i u.shepherds
    let answers := fun (u : State) (st : Word64) => ∃ t, exec (.submit rs2 rs1 rd) s = .next t
      ∧ (∀ r, reg t r = if r = rd ∧ rd ≠ 0 then st else reg s r) ∧ rest u t ∧ H t = { H s with pc := (H s).pc + 4 }
    let mapped := q < 32 ∧ Q.lsize ≠ 0
    let mine := Q.asid = (mget 0 hart s.shasid).toNat
    let ahead := (w - Q.windex).toNat < 2 ^ 31 ∧ (w - Q.rindex).toNat ≤ 2 ^ Q.lsize
    hart < 16 →
    ((H s).stores = [] →
      (¬ mapped → answers s 1)
      ∧ (mapped → ¬ mine → answers s 2)
      ∧ (mapped → mine → ¬ ahead → answers s 3)
      ∧ (mapped → mine → ahead → answers { s with queues := mset q { Q with windex := w } s.queues, waits := s.waits ++ [(q, w)] } 0))
    ∧ ((H s).stores ≠ [] → ∃ t, exec (.submit rs2 rs1 rd) s = .next t ∧ rest s t ∧ t.xregs = s.xregs
        ∧ H t = { H s with words := encodeSubmit rs2 rs1 rd :: (H s).words })
    ∧ ∀ (word : Word32) (ws : List Word32) (csr : BitVec 5), (H s).words = word :: ws →
        let trapped := ∃ t, s.hartTurn hart = .next t ∧ rest s t ∧ t.xregs = s.xregs ∧ (H t).machine = true ∧ (H t).mepc = (H s).pc
          ∧ (H t).mcause = 2 ∧ (H t).pc = (H s).mtvec &&& ~~~3 ∧ (H t).words = ws
        (word.extractLsb' 0 7 = 0b0001011#7 → word.extractLsb' 12 3 ≠ 0 ∨ word.extractLsb' 25 7 ≠ 0 → trapped)
        ∧ (word = (0xCC0#12 ++ 0#5 ++ 2#3 ++ csr ++ 0b1110011#7) → ∃ t, s.hartTurn hart = .next t ∧ rest s t
            ∧ ∀ r, reg t r = if r = csr ∧ csr ≠ 0 then mget 0 hart s.shasid else reg s r)


namespace Sys2Proof.Claims
open Sys2Proof.Machine

/-- The state in which a suspended path has become ready, with what its waking event hands to it; nothing else has changed (R98, R100). -/
def woken (s : State) (k g : Nat) (p : Bool) (gr : Option Grant) : State :=
  let h := s.hartOf (.group k g)
  { s.setHartOf (.group k g) (h.setPath p { h.path p with susp := none, grant := gr, stalled := false, since := s.tick }) with tick := s.tick + 1 }

/-- One more boundary cause waits for a group, and nothing else of its registers has changed (R361). -/
def Pends (s t : State) (k g : Nat) (c : Cause) (tval : Word64) : Prop :=
  t.hartOf (.group k g) = { s.hartOf (.group k g) with causes := (s.hartOf (.group k g)).causes ++ [⟨c, tval, none⟩] }

end Sys2Proof.Claims

/-! ## Events of groups, streams and bank cores -/

/-- R23, R31, R32, R33, R163, R286: a ready path whose quadrant issues nothing else fetches its clause and begins it with invalid latches; a header wait that holds suspends it, and a malformed header traps. A stream and a bank core begin theirs in the same way. R361, R362: the first pending boundary cause of a path at a boundary enters the handler, with bit 7 of `tcause` set and `epc` at the path's word. R98: a path wakes when what it waits for has come, and only then. R367 to R369: a parked fault joins the fault ring, its path executes again or its group ends. R375, R427: a register error pends a MACHINE_CHECK, and the debug port resumes a DBG. -/
def Obligations.AgentEventResults : Prop :=
  ∀ (s v : State) (k g b : Nat) (p : Bool) (w : Word32) (c : Clause) (e : BCause) (rest : List BCause) (y : Wait) (asid : Nat) (serial : BitVec 32),
    let i := HartId.group k g
    let h := s.hartOf i
    let x := h.path p
    let team := s.teamOf k
    let f : Focus := ⟨.group, k, g, p, 0, 0⟩
    let u := { s with cur := f }
    let mask := w.extractLsb' 8 8
    let thr := (w.extractLsb' 16 4).toNat
    let header := c.hdr = x.pc ∧ c.cls = w.extractLsb' 4 3 ∧ c.count = (w.extractLsb' 0 4).toNat ∧ c.idx = 1
    let invalid := fun (q : Path) => ∀ n < 4, (vget q.latches n default).kind = .invalid
    (h.ready p = true → x.clause = none → (∀ q ∈ s.quadPaths team.core h.quad, (s.pathAt q).issuing = false) →
      (fetchClause u.fetchWord false x.pc = .ok (c, w) →
        ((∀ j < 8, mask.getLsbD j = true → h.counter j ≤ thr) → ∃ t, exec (.clauseExecute f) s = .next t ∧ t.cur = f ∧ header
          ∧ t.path.clause = some c ∧ invalid t.path ∧ t.path.issuing = true ∧ t.path.emask = x.emask ∧ t.path.pc = x.pc
          ∧ (mask ≠ 0 → (t.coreOf team.core).l1 = []) ∧ t.teams = s.teams ∧ t.mem = s.mem
          ∧ ∀ j, (t.hartOf j).s = (s.hartOf j).s ∧ (t.hartOf j).v = (s.hartOf j).v)
        ∧ ((∃ j < 8, mask.getLsbD j = true ∧ thr < h.counter j) →
          ∃ t, exec (.clauseExecute f) s = .next t ∧ t.path.susp = some (.header mask thr) ∧ t.path.clause = none ∧ t.teams = s.teams ∧ t.mem = s.mem))
      ∧ (u.fetchWord x.pc = .ok w → (w.extractLsb' 0 4 = 0 ∨ w.getLsbD 20 = true ∨ w.extractLsb' 21 11 ≠ 0 ∨ w.extractLsb' 4 3 = 3) →
          exec (.clauseExecute f) s = .next (u.stopped (trapOf .illegalClause 0))))
    ∧ (team.seq.st = .running → team.seq.fault = none → team.seq.stopAsked = false → team.seq.clause = none →
        fetchClause (s.fetchStream k) true team.seq.spc = .ok (c, w) →
        ∃ t, exec (.clauseExecute ⟨.stream, k, 0, false, 0, 0⟩) s = .next t ∧ (t.teamOf k).seq = { team.seq with clause := some c, stalled := false }
          ∧ (∀ j, j ≠ k → t.teamOf j = s.teamOf j) ∧ t.harts = s.harts ∧ t.mem = s.mem)
    ∧ (let z : State := { s with cur := ⟨.bank, 0, 0, false, b, 0⟩ }
       let q := (s.hartOf (.bank b)).p0
       (s.bankOf b).running = true → q.active = true → q.clause = none → fetchClause z.fetchWord false q.pc = .ok (c, w) →
        c.cls ∈ [0, 1, 2, 7] → ∃ t, exec (.clauseExecute ⟨.bank, 0, 0, false, b, 0⟩) s = .next t ∧ t.path.clause = some c ∧ invalid t.path
          ∧ t.path.pc = q.pc ∧ t.mem = s.mem ∧ t.teams = s.teams ∧ ∀ j, j ≠ .bank b → t.hartOf j = s.hartOf j)
    ∧ (h.live = true → h.evicted = false → h.p0.issuing = false → h.p1.issuing = false → h.region = none → h.sys = false →
        h.causes = e :: rest → e.path.getD false = p → (p = true → ∀ q ∈ h.causes, q.path = some true) → x.active = true →
        h.stopOther ≠ some p → (x.clause = none ∨ x.susp ≠ none) →
        (s.setHartOf i { h with causes := rest }).saveTrap i p x.wordAddr 0 e.tval 0 = .ok v → (v.ctx h.asid.toNat).handler ≠ 0 →
        ∃ t, exec (.boundaryCauseTaken k g) s = .next t
          ∧ (let r := t.hartOf i
             r.tcause.toNat = 128 + e.cause.code.toNat ∧ r.tval = e.tval ∧ r.epc = x.wordAddr ∧ r.sys = true ∧ r.stopOther = (if (h.path (!p)).active then some (!p) else none)
              ∧ r.causes = rest ∧ (r.path p).pc = (v.ctx h.asid.toNat).handler ∧ (r.path p).clause = none ∧ (r.path p).susp = none
              ∧ invalid (r.path p) ∧ r.s = h.s ∧ r.v = h.v ∧ r.m = h.m)
          ∧ ∀ j, j ≠ i → t.hartOf j = s.hartOf j)
    ∧ (h.live = true → h.evicted = false → h.causes = [] → x.susp = some y →
        let wakes := fun (cond : Prop) (gr : Option Grant) =>
          (cond → exec (.pathWake k g p) s = .next (woken s k g p gr)) ∧ (¬ cond → exec (.pathWake k g p) s = .next s)
        (∀ n, y = .token n → wakes ((team.tile n).token = none ∧ ∀ r ∈ team.seq.rows, n ∉ r.tiles) none)
        ∧ (∀ n ph q m, y = .barrier n ph q m → wakes ((team.bar n).ph ≠ ph) (some .go))
        ∧ (∀ o gen, y = .sync o gen → wakes ((BitVec.ofNat 32 (team.mem.nat (o + 8) 4) - gen).toNat < 2 ^ 31) none)
        ∧ (∀ r, y = .message r → wakes (vget team.rx r [] ≠ []) none)
        ∧ (y = .item → wakes (team.items ≠ [] ∨ team.itemsClosed = true) none)
        ∧ (∀ n m, y = .counter n m → wakes (h.counter n ≤ m) none)
        ∧ (∀ n q r a, y = .tile n q r a → wakes (team.tag n ≠ .empty) none)
        ∧ (∀ m n, y = .header m n → wakes (∀ j < 8, m.getLsbD j = true → h.counter j ≤ n) none)
        ∧ (y = .drain → wakes (∀ n < 8, h.counter n = 0) none)
        ∧ (∀ gr ro en n, y = .wave gr ro en n → wakes (∀ wv, s.waveOf gr (ro, en, n) = some wv → wv.live = false) none)
        ∧ (∀ a, y = .blocks a → (s.blockTurn k g p = none → exec (.pathWake k g p) s = .next s)
            ∧ ∀ bw, s.blockTurn k g p = some bw → exec (.pathWake k g p) s = .next (s.giveBlocks k bw))
        ∧ (y = .debug → exec (.debugResume k g p) s = .next (woken s k g p (some .go)) ∧ exec (.pathWake k g p) s = .next s)
        ∧ (∀ kind tval epc lanes, y = .ringRoom kind tval epc lanes →
            let id := h.asid.toNat
            let n := mget 0 id s.service.faultSerial
            let push := s.ringPush id (s.ctx id).fring.toNat (faultRecord n team.core g tval lanes epc kind)
            (push = none → ∃ t, exec (.faultRingAppend k g p) s = .next t ∧ ((t.hartOf i).path p).susp = some y)
            ∧ (push = some v → ∃ t, exec (.faultRingAppend k g p) s = .next t
                ∧ (t.hartOf i).path p = { x with susp := some (.parked n), stalled := false, issuing := false }
                ∧ mget 0 id t.service.faultSerial = n + 1)))
    ∧ (s.parkedAt asid serial = some (k, g, p) →
        exec (.parkedResume asid serial) s = .next (woken s k g p none)
        ∧ ∃ t, exec (.parkedKill asid serial) s = .next t ∧ (t.hartOf i).live = false ∧ (t.hartOf i).p0.active = false
          ∧ (t.hartOf i).p1.active = false ∧ (s.liveGids k ≠ [g] → ∀ j, j ≠ i → t.hartOf j = s.hartOf j)
          ∧ ∀ r, s.nodeRun team.launch team.node = some r →
              ∃ q, t.nodeRun team.launch team.node = some q ∧ q.trapped = true ∧ q.cause.toNat = 5)
    ∧ (h.live = true → h.causes.length < 8 → ∃ t, exec (.registerUncorrectable k g) s = .next t ∧ Pends s t k g .machineCheck s.service.logHead
        ∧ t.service.logHead = s.service.logHead + 1
        ∧ t.service.log = s.service.log ++ [(5, 0x14, BitVec.ofNat 16 team.core, BitVec.ofNat 32 (h.asid.toNat + g * 65536), 0, 1)]
        ∧ t.teams = s.teams)

namespace Sys2Proof.Claims
open Sys2Proof.Machine

/-- The oldest entry of a group's store queue: an entry without release that `st` covers, with no older put of the group before it and the operations of `st` after it still under way (R224, R250). -/
def HeadStore (s : State) (k g : Nat) (e : SQEntry) (es : List SQEntry) : Prop :=
  let h := s.hartOf (.group k g)
  h.sq = e :: es ∧ e.release = false ∧ e.st = true ∧ e.fab = false ∧ h.near = [] ∧ s.putFirst k g e = false
    ∧ ∃ rest, vget h.ledger kSt [] = (e.id, false) :: rest ∧ ∀ x ∈ rest, x.1 ≠ e.id ∧ x.2 = false
/-- The entry has left the queue and `st` has fallen by one; the group's registers are as they were. -/
def LeftQueue (s t : State) (k g : Nat) (es : List SQEntry) : Prop :=
  let h := s.hartOf (.group k g)
  let r := t.hartOf (.group k g)
  r.sq = es ∧ r.counter kSt + 1 = h.counter kSt ∧ r.s = h.s ∧ r.v = h.v ∧ r.m = h.m ∧ ∀ j, j ≠ .group k g → t.hartOf j = s.hartOf j
/-- Message i is in flight, and the oldest of its source port to its core, of either class (R210, R386). -/
def Front (s : State) (i : Nat) (m : Msg) : Prop :=
  s.net[i]? = some m ∧ ∀ k < i, ∀ q, s.net[k]? = some q → ¬ (q.src = m.src ∧ q.core = m.core)
/-- The log has one more entry, of a kind and cause. -/
def Logged (s t : State) (kind : Byte) (cause : Byte) (unit : Nat) (addr : Word64) : Prop :=
  t.service.logHead = s.service.logHead + 1 ∧ ∃ who, t.service.log = s.service.log ++ [(kind, cause, BitVec.ofNat 16 unit, who, addr, 1)]

end Sys2Proof.Claims

/-! ## Events of ports, near memory and errors -/

/-- R208 to R211, R205, R437: a put that arrives, or is sent again, writes an EMPTY tile, which becomes FULL, is held for a FULL one while the core holds fewer than sixteen, and stays with its sender else; on a POISON tile it is discarded and logged; with no entry it is refused, and for an absent team it joins the ring; refused, held in the ring, written and discarded puts let `st` of their sender fall (R205, R210, R381). A replay that has paused goes on with the ring's next packet. A refusal becomes a boundary cause of its sender. R303, R256: a near-memory command is applied to its bytes at the bank, and its acknowledgement lets `near` fall. R255: an L1 line goes. R203, R214, R375, R425: uncorrectable data is poisoned and logged, and a corrected error is logged or counted. -/
def Obligations.PortAndMemoryEventResults : Prop :=
  ∀ (s : State) (i k g j key off asid addr ctl : Nat) (m : Msg) (va : Word64) (data : List Byte) (marks : List Nat) (st : Option Nat) (remote : Option FabPkt)
    (e : PortEntry) (a : AtomArg) (nat : Bool) (c : Cause) (b : Bounced),
    let h := s.hartOf (.group k g)
    let o := off - e.wbase * 4096
    let n := o / 256
    let team := s.teamOf e.team
    let hold := (s.coreOf m.core).hold
    let gone := removeAt i s.net
    let filled := fun (t : State) (q n : Nat) (bs : List Byte) =>
      (t.teamOf q).tag n = .full ∧ (∀ x, x ≠ n → (t.teamOf q).tag x = (s.teamOf q).tag x)
        ∧ (∀ x, (t.teamOf q).mem.byte x = if 256 * n ≤ x ∧ x < 256 * n + 256 then bs.getD (x - 256 * n) 0 else (s.teamOf q).mem.byte x)
        ∧ ∀ x, x ≠ q → t.teamOf x = s.teamOf x
    let fallen := fun (t : State) (q r : Nat) => ∀ id rest, st = some id → vget (s.hartOf (.group q r)).ledger kSt [] = (id, false) :: rest →
      (∀ x ∈ rest, x.1 ≠ id ∧ x.2 = false) → (t.hartOf (.group q r)).counter kSt + 1 = (s.hartOf (.group q r)).counter kSt
    (∀ ev ∈ [(Instr.putArrive i, false), (.putResend i, true)],
      Front s i m → m.body = .put off asid ctl data marks st remote → m.refused = ev.2 →
      (s.portEntry m.core off asid = none →
        (∀ q r, m.src = .group q r → ∃ t, exec ev.1 s = .next t ∧ t.teams = s.teams
          ∧ t.net = gone ++ [⟨.group q r, (s.teamOf q).core, .refusal .accessViolation (BitVec.ofNat 64 (0xE * 2 ^ 52 + m.core * 2 ^ 20 + off)), false⟩]
          ∧ fallen t q r)
        ∧ ∀ p, remote = some p → (∀ q r, m.src ≠ .group q r) → exec ev.1 s = .next ({ s with net := gone }.refusePkt p))
      ∧ (s.portEntry m.core off asid = some e → e.absent = true →
          let z : Bounced := { pos := 0, off := o, src := m.src, remote := none, op := .put data marks }
          let r := s.bounceTo e z 0 1 ctl [] data
          (r.2 = false → ∃ t, exec ev.1 s = .next t ∧ t.net = modifyAt (fun m => { m with refused := true }) i s.net
              ∧ (t.teamOf e.team).bounced = team.bounced ∧ (t.teamOf e.team).mem = team.mem ∧ (t.teamOf e.team).tags = team.tags)
          ∧ (r.2 = true → exec ev.1 s = .next (({ r.1 with net := removeAt i r.1.net }.putDone m.src st remote).noteProduced m.src e.team (o / 256))
              ∧ ∃ q before, (r.1.teamOf e.team).bounced = before ++ [q] ∧ q.op = .put data marks ∧ q.off = o ∧ q.src = m.src))
      ∧ (s.portEntry m.core off asid = some e → e.absent = false → s.inFold m.core e.team o 256 = false → team.core = m.core →
          (team.tag n = .empty → marks = [] → data.length = 256 → s.tileWaiters e.team n = [] → team.syncs = [] → team.mem.wf = true →
            ∃ t, exec ev.1 s = .next t ∧ t.net = gone ∧ filled t e.team n data ∧ (t.coreOf m.core).hold = hold
              ∧ ∀ q r, m.src = .group q r → fallen t q r)
          ∧ (team.tag n = .full → hold.length < 16 → ∃ t, exec ev.1 s = .next t ∧ t.net = gone ∧ t.teams = s.teams
              ∧ (t.coreOf m.core).hold = hold ++ [⟨e.team, n, m.src, data, marks, st, remote, ctl⟩] ∧ t.harts = s.harts)
          ∧ (team.tag n = .full → 16 ≤ hold.length →
              exec ev.1 s = .next { s with net := modifyAt (fun m => { m with refused := true }) i s.net })
          ∧ (team.tag n = .poison → ∃ t, exec ev.1 s = .next t ∧ t.net = gone ∧ t.teams = s.teams
              ∧ Logged s t 3 0 m.core (BitVec.ofNat 64 (256 * n)) ∧ ∀ q r, m.src = .group q r → fallen t q r)))
    ∧ (let own := s.teamOf k
       let tile := b.off / 256
       own.live = true → own.absent = false → own.bounced = [b] → b.op = .put data marks → s.entryOf k = some e → s.inFold own.core k b.off 256 = false →
        ∀ size head tail, s.ringBlock e.asid e.ring.toNat = some (size, head, tail) → s.flitsReadable e size b.pos head = true →
        (own.tag tile = .full → 16 ≤ (s.coreOf own.core).hold.length →
          ∃ t, exec (.pausedPutRetry k) s = .next t ∧ (t.teamOf k).bounced = [b] ∧ (t.teamOf k).ringPaused = true ∧ (t.teamOf k).mem = own.mem)
        ∧ (∀ v w, (s.setTeamOf k { own with bounced := [] }).replayOne k b = some v → v.vwrite e.asid true (e.ring.toNat + 16) (leBytes 8 head) = .ok w →
            own.tag tile = .empty → marks = [] → data.length = 256 → s.tileWaiters k tile = [] → own.syncs = [] → own.mem.wf = true →
            ∃ t, exec (.pausedPutRetry k) s = .next t ∧ (t.teamOf k).bounced = [] ∧ (t.teamOf k).ringPaused = false ∧ filled v k tile data
              ∧ (t.teamOf k).mem = (w.teamOf k).mem ∧ (t.teamOf k).tags = (w.teamOf k).tags
              ∧ ∀ q ∈ (t.coreOf own.core).ports, q.valid = true → q.team = k → q.absent = false))
    ∧ (∀ r, s.net[i]? = some ⟨.group k g, j, .refusal c va, r⟩ → h.live = true → h.causes.length < 8 →
        ∃ t, exec (.asyncRefusalArrive i) s = .next t ∧ t.net = gone ∧ Pends s t k g c (va ||| 0x8000000000000000) ∧ t.teams = s.teams ∧ t.mem = s.mem)
    ∧ (∃ t, exec (.l1LineExpire j key) s = .next t ∧ (∀ x, x ∈ (t.coreOf j).l1 ↔ x ∈ (s.coreOf j).l1 ∧ x.1 ≠ key) ∧ t = { s with cores := t.cores }
        ∧ ∀ x, t.coreOf x = { s.coreOf x with l1 := (t.coreOf x).l1 })
    ∧ (∀ x < 4, ∀ id r rest, a.ty = .int (8 * 2 ^ x) nat → a.expect = none → h.near = ⟨id, (.home key, a) :: r⟩ :: rest → h.sq = [] → s.oracle = [] → s.posted = [] →
        let w := 8 * 2 ^ x
        (s.poisonedAt key (w / 8) = false → s.mem.wf = true → ∃ t, exec (.nearCommandApply k g) s = .next t
          ∧ (t.hartOf (.group k g)).near = ⟨id, r⟩ :: rest
          ∧ (let new := atomNew nat a.op (BitVec.ofNat w (s.mem.nat key (w / 8))) (BitVec.ofNat w a.x)
             ∀ y, t.mem.byte y = if key ≤ y ∧ y < key + w / 8 then (leBytes (w / 8) new.toNat).getD (y - key) 0 else s.mem.byte y)
          ∧ t.teams = s.teams)
        ∧ (s.poisonedAt key (w / 8) = true → ∃ t, exec (.nearCommandApply k g) s = .next t ∧ (t.hartOf (.group k g)).near = ⟨id, r⟩ :: rest
            ∧ Logged s t 3 0x0B (key / bankSize) (BitVec.ofNat 64 key)))
    ∧ (∀ id cs rest, h.near = ⟨id, []⟩ :: cs → h.awaitsRemote id = false → vget h.ledger kNear [] = (id, false) :: rest →
        (∀ x ∈ rest, x.1 ≠ id ∧ x.2 = false) → (∀ x ∈ cs, x.id ≠ id) →
        ∃ t, exec (.nearAckCredit k g) s = .next t ∧ (t.hartOf (.group k g)).near = cs
          ∧ (∀ x < 8, (t.hartOf (.group k g)).counter x + (if x = kNear then 1 else 0) = h.counter x) ∧ t = { s with harts := t.harts })
    ∧ (∃ t, exec (.uncorrectableError none addr) s = .next t ∧ addr / 64 ∈ t.poisoned ∧ (∀ x ∈ s.poisoned, x ∈ t.poisoned)
        ∧ Logged s t 2 0x0B (addr / bankSize) (BitVec.ofNat 64 addr) ∧ t.teams = s.teams ∧ t.harts = s.harts)
    ∧ (∃ t, exec (.uncorrectableError (some k) addr) s = .next t ∧ addr / 8 ∈ (t.teamOf k).marks ∧ (t.teamOf k).tag (addr / 256) = .poison
        ∧ (t.teamOf k).mem = (s.teamOf k).mem ∧ t.tileWaiters k (addr / 256) = []
        ∧ (∀ x ∈ (t.coreOf (s.teamOf k).core).hold, ¬ (x.team = k ∧ x.tile = addr / 256)) ∧ ∀ x, x ≠ k → t.teamOf x = s.teamOf x)
    ∧ ((s.correctedEntry j = none ∨ s.oracle = []) → ∃ t, exec (.correctedError j addr) s = .next t ∧ Logged s t 1 0 j (BitVec.ofNat 64 addr)
        ∧ t.teams = s.teams ∧ t.harts = s.harts)
    ∧ ∀ n x rest, s.correctedEntry j = some n → s.oracle = (x + 1) :: rest → ∃ t, exec (.correctedError j addr) s = .next t
        ∧ t.service.logHead = s.service.logHead ∧ t.service.log.length = s.service.log.length
        ∧ (∀ y, s.service.log[n]? = some y → t.service.log[n]? = some (y.1, y.2.1, y.2.2.1, y.2.2.2.1, y.2.2.2.2.1, y.2.2.2.2.2 + 1))
        ∧ ∀ q, q ≠ n → t.service.log[q]? = s.service.log[q]?

/-! ## Events of the copy and gather engines -/

/-- R261 to R273: a copy start that reaches its channel takes its descriptor and its template, or waits while 64 copies stand there; the leading copy begins, or stops where they break a limit; each row goes from its source address to its destination address, or is filled with zeros where its coordinates fall outside; when every row is performed, `copy` falls and then the barrier has its arrival; a stopped copy ends in the same way with its fault recorded and pending. R264: a template store changes its slot. R277: a raise adds to its word's count, and each whole total to the generation. R279, R280: a gather or scatter moves its rows one by one in order, reports a row that is not FULL, and `gath` falls behind the last. -/
def Obligations.CopyAndGatherEventResults : Prop :=
  ∀ (s : State) (k g chan core off job : Nat) (e : SQEntry) (es : List SQEntry) (data : Word64) (x : Copy) (q : List Copy) (o key : Nat) (fe : Bool)
    (c : Cause) (tval : Word64) (step : Nat) (r : Raise) (rs : List Raise) (y : Gather) (i : Nat) (ga : Word64) (lo : Nat) (rows : List (Nat × Word64 × Nat)),
    let team := s.teamOf k
    let there := fun (t : State) (core : Nat) => mget [] chan (t.coreOf core).chans
    let bytes := fun (m m' : Mem) (a n : Nat) (f : Nat → Byte) => ∀ z, m'.byte z = if a ≤ z ∧ z < a + n then f (z - a) else m.byte z
    let D := fun (lo n : Nat) => (x.desc.extractLsb' lo n).toNat
    let T := fun (lo n : Nat) => (x.tmpl.extractLsb' lo n).toNat
    let T32 := fun (lo : Nat) => (x.tmpl.extractLsb' lo 32).toInt
    let E := T 16 16
    let N := T 32 16 * T 48 16 * T 64 16 * T 80 16
    let i0 := x.next % T 32 16
    let u := x.next / T 32 16
    let dst := BitVec.ofInt 64 (D 64 64 + i0 * T32 96 + u * T32 128)
    let linear := BitVec.ofInt 64 (D 0 64 + (D 128 32 + i0 : Nat) * T32 320 + (u % T 48 16 : Nat) * T32 352
      + (u / T 48 16 % T 64 16 : Nat) * T32 384 + (u / (T 48 16 * T 64 16) : Nat) * T32 416)
    let me : Agt := ⟨k, 1 + chan, some x.gid, x.sys⟩
    let leads := s.leading k chan = [(core, x)] ∧ there s core = x :: q ∧ x.team = k
    let plain := s.away k = false ∧ team.syncs = [] ∧ team.mem.wf = true ∧ s.mem.wf = true ∧ s.posted = [] ∧ s.reads = []
    let h := s.hartOf (.group k x.gid)
    let falls := fun (t : State) (gid n id : Nat) => ∀ rest, vget (s.hartOf (.group k gid)).ledger n [] = (id, false) :: rest →
      (∀ z ∈ rest, z.1 ≠ id ∧ z.2 = false) → (t.hartOf (.group k gid)).counter n + 1 = (s.hartOf (.group k gid)).counter n
    let arrives := fun (t : State) => ∀ rest, team.owed = [] → vget h.ledger kCopy [] = (x.id, false) :: rest → (∀ z ∈ rest, z.1 ≠ x.id ∧ z.2 = false) →
      let b := D 168 4
      (t.teamOf k).bar b = (if x.desc.getLsbD 175 = true ∧ (team.bar b).expected ≠ 0 then arrivedAt (team.bar b) else team.bar b)
        ∧ ∀ n < 16, n ≠ b → (t.teamOf k).bar n = team.bar n
    let looped := fun (m m' : Mem) (off count : Nat) =>
      let total := m.nat off 4
      m'.nat off 4 = total ∧ m'.nat (off + 4) 4 = (if total = 0 then count else count % total)
        ∧ m'.nat (off + 8) 4 = (if total = 0 then m.nat (off + 8) 4 else (m.nat (off + 8) 4 + count / total) % 2 ^ 32)
        ∧ ∀ z, z < off + 4 ∨ off + 12 ≤ z → m'.byte z = m.byte z
    let word := fun (tslot engine step : Nat) =>
      BitVec.ofNat 64 (2 ^ 63 + c.code.toNat * 2 ^ 56 + tslot % 256 * 2 ^ 48 + (if engine = 0 then chan % 32 * 2 ^ 43 else 0) + engine * 2 ^ 40 + step % 2 ^ 24)
    (HeadStore s k g e es → e.op = .copyStart chan data → (
      ((there s team.core).length < 64 → ∃ t z, exec (.copyStartAccept k g) s = .next t ∧ LeftQueue s t k g es
        ∧ there t team.core = there s team.core ++ [z] ∧ z.team = k ∧ z.gid = g ∧ z.id = e.id ∧ z.tslot = (data.extractLsb' 0 8).toNat
        ∧ z.desc.toNat = leNat (team.mem.read (data.extractLsb' 8 20).toNat 32) ∧ z.tmpl.toNat = leNat (team.tmpl.read (64 * z.tslot) 64)
        ∧ z.st = .queued ∧ z.next = 0 ∧ t.teams = s.teams ∧ t.mem = s.mem)
      ∧ (64 ≤ (there s team.core).length → exec (.copyStartAccept k g) s = .next s)))
    ∧ (HeadStore s k g e es → e.op = .template off data → team.tmpl.wf = true → ∃ t, exec (.templateSlotWrite k g) s = .next t ∧ LeftQueue s t k g es
        ∧ bytes team.tmpl (t.teamOf k).tmpl off 8 (fun z => (leBytes 8 data.toNat).getD z 0) ∧ (t.teamOf k).mem = team.mem ∧ t.mem = s.mem)
    ∧ (leads → x.st = .queued →
        let sync := D 192 32
        (copyOk x.d x.t = false → ∃ t, exec (.copyBegin k chan) s = .next t ∧ there t core = { x with st := .failed .dataCheck x.aperture x.next } :: q
          ∧ t.teams = s.teams)
        ∧ (copyOk x.d x.t = true → (x.desc.getLsbD 175 = true → (team.bar (D 168 4)).cfg.extractLsb' 8 8 ≠ 0) →
            (x.desc.getLsbD 176 = true → sync % 16 = 0 ∧ sync + 16 ≤ team.spadBytes) →
            ∃ t, exec (.copyBegin k chan) s = .next t ∧ there t core = { x with st := .running } :: q
              ∧ (x.desc.getLsbD 176 = false → (t.teamOf k).mem = team.mem)
              ∧ (x.desc.getLsbD 176 = true → team.mem.wf = true → looped team.mem (t.teamOf k).mem sync (team.mem.nat (sync + 4) 4))
              ∧ (∀ z, z ∈ (t.teamOf k).syncs ↔ z ∈ team.syncs ∨ (x.desc.getLsbD 176 = true ∧ z = sync)))
        ∧ (copyOk x.d x.t = true → x.desc.getLsbD 175 = true → (team.bar (D 168 4)).cfg.extractLsb' 8 8 = 0 →
            ∃ t, exec (.copyBegin k chan) s = .next t ∧ there t core = { x with st := .failed .barrierMisuse x.aperture x.next } :: q)
        ∧ (copyOk x.d x.t = true → (x.desc.getLsbD 175 = true → (team.bar (D 168 4)).cfg.extractLsb' 8 8 ≠ 0) →
            x.desc.getLsbD 176 = true → (sync % 16 ≠ 0 ∨ team.spadBytes < sync + 16) →
            ∃ t, exec (.copyBegin k chan) s = .next t ∧ there t core = { x with st := .failed .accessViolation x.aperture x.next } :: q))
    ∧ (leads → x.st = .running → copyOk x.d x.t = true → plain → x.next < N → x.desc.getLsbD 176 = false → team.settled (1 + chan) = true →
        s.engRow me .write 15 dst E = .ok [(⟨.spad k o, fe⟩, E)] → s.inFold team.core k o E = false →
        (T 0 8 = 0 → T 256 8 = 0 → s.engRow me .read 15 linear E = .ok [(⟨.home key, false⟩, E)] → s.poisonedAt key E = false →
          ∃ t, exec (.copyRowWrite k chan) s = .next t ∧ there t core = { x with next := x.next + 1 } :: q
            ∧ bytes team.mem (t.teamOf k).mem o E (fun z => s.mem.byte (key + z)) ∧ t.mem = s.mem ∧ t.harts = s.harts)
        ∧ (T 0 8 = 1 →
            let m := D 128 32 + i0
            let c0 : Int := (m % T 160 16 * T 200 8 + u % T 48 16 : Nat) - (T 216 8 : Int)
            let c1 : Int := (m / T 160 16 * T 192 8 + u / T 48 16 % T 64 16 : Nat) - (T 208 8 : Int)
            (T 176 16 ≤ m ∨ c0 < 0 ∨ (T 240 16 : Int) ≤ c0 ∨ c1 < 0 ∨ (T 224 16 : Int) ≤ c1) →
            ∃ t, exec (.copyRowWrite k chan) s = .next t ∧ there t core = { x with next := x.next + 1 } :: q
              ∧ bytes team.mem (t.teamOf k).mem o E (fun _ => 0) ∧ t.mem = s.mem ∧ t.harts = s.harts))
    ∧ (leads → x.st = .running → x.next = N →
        (s.engineQuiet k (1 + chan) = false → exec (.copyComplete k chan) s = .next s)
        ∧ (s.engineQuiet k (1 + chan) = true → ∃ t, exec (.copyComplete k chan) s = .next t ∧ there t core = q ∧ falls t x.gid kCopy x.id ∧ arrives t
            ∧ (t.teamOf k).mem = team.mem ∧ t.mem = s.mem))
    ∧ (leads → x.st = .failed c tval step → c ≠ .machineCheck → s.engineQuiet k (1 + chan) = true → h.live = true → h.causes.length < 8 →
        ∃ t, exec (.copyFault k chan) s = .next t ∧ there t core = q ∧ falls t x.gid kCopy x.id ∧ arrives t
          ∧ (t.hartOf (.group k x.gid)).efr = word x.tslot 0 step
          ∧ (t.hartOf (.group k x.gid)).causes = h.causes ++ [⟨c, tval ||| 0x8000000000000000, none⟩])
    ∧ (team.raises = r :: rs → r.pkts = [] → s.away k = false → team.mem.wf = true → s.inFold team.core k r.off 16 = false →
        ∃ t, exec (.syncWordRaise k) s = .next t ∧ (t.teamOf k).raises = rs
          ∧ looped team.mem (t.teamOf k).mem r.off ((team.mem.nat (r.off + 4) 4 + r.n) % 2 ^ 32) ∧ t.mem = s.mem)
    ∧ (team.gathers = [y] → y.job = job → y.rows = (i, ga, lo) :: rows → plain → team.settled (33 + 2 * job) = true →
        let a : Agt := ⟨k, 33 + 2 * job, some y.gid, y.sys⟩
        let la := BitVec.ofNat 64 (0xD * 2 ^ 52 + lo)
        let at_ := fun (acc : Access) (va : Word64) (p : Tgt) => s.engRow a acc 15 va y.size = .ok [(⟨p, false⟩, y.size)]
        let moved := fun (t : State) => exec (.gatherRowTransfer k job) s = .next t ∧ (t.teamOf k).gathers = [{ y with rows := rows, last := if y.scat then ga else la }]
        (y.scat = false → at_ .read ga (.home key) → at_ .write la (.spad k lo) → s.poisonedAt key y.size = false → s.inFold team.core k lo y.size = false →
          ∃ t, moved t ∧ bytes team.mem (t.teamOf k).mem lo y.size (fun z => s.mem.byte (key + z)) ∧ t.mem = s.mem ∧ t.harts = s.harts)
        ∧ (y.scat = true → at_ .read la (.spad k lo) → at_ .write ga (.home key) → team.absent = false → team.markedAt lo y.size = false →
            ∃ t, moved t ∧ bytes s.mem t.mem key y.size (fun z => team.mem.byte (lo + z)) ∧ (t.teamOf k).mem = team.mem ∧ t.harts = s.harts)
        ∧ (let z := s.hartOf (.group k y.gid)
           c = .rowNotFull → y.scat = false → s.readRow a 15 ga y.size = .fail c ga → z.live = true → z.causes.length < 8 →
            ∃ t, moved t ∧ (t.hartOf (.group k y.gid)).efr = word 0 1 i
              ∧ (t.hartOf (.group k y.gid)).causes = z.causes ++ [⟨c, ga ||| 0x8000000000000000, none⟩] ∧ (t.teamOf k).mem = team.mem ∧ t.mem = s.mem))
    ∧ (team.gathers = [y] → y.job = job → y.rows = [] →
        (team.settled (33 + 2 * job) = false → exec (.gatherComplete k job) s = .next s)
        ∧ (team.settled (33 + 2 * job) = true → ∃ t, exec (.gatherComplete k job) s = .next t ∧ (t.teamOf k).gathers = [] ∧ falls t y.gid kGath y.id
              ∧ (t.teamOf k).mem = team.mem ∧ t.mem = s.mem))

/-! ## Events of the matrix stream -/

/-- R164, R192, R371: a faulted stream whose issued work has completed gives its cause to the lowest live group, or to the log where none lives; a stream whose team has no group left stops, and the team's resources are released; that of an evicted team is saved. R176 to R178, R181: an adapter fetch takes an entry of the cache, reads its directory entry and then its segment into the cache; a queued row replays once what it needs is there, and adds its products to its elements and its rank values; rows whose directory is missing are not written and fault the stream. -/
def Obligations.StreamEventResults : Prop :=
  ∀ (s : State) (k g core : Nat) (gs : List Nat) (c : Cause) (addr : Word64) (f : AdpFetch) (d : AdpDir) (bs : List Byte) (r : IssuedRow) (rows : List IssuedRow),
    let team := s.teamOf k
    let q := team.seq
    let idle := q.rows = [] ∧ q.batches = [] ∧ q.arrivals = [] ∧ ∀ p ∈ team.sent, p.2.2 ≠ 0
    let x := s.coreOf core
    (q.fault = some (c, addr) → q.st = .running →
      (¬ idle → exec (.streamFault k) s = .next s)
      ∧ (idle → s.liveGids k = g :: gs → (s.hartOf (.group k g)).live = true → (s.hartOf (.group k g)).causes.length < 8 → ∃ t, exec (.streamFault k) s = .next t
          ∧ (t.teamOf k).seq = { q with st := .faulted, fault := none, clause := none } ∧ Pends s t k g c (addr ||| 0x8000000000000000)
          ∧ (∀ j, j ≠ .group k g → t.hartOf j = s.hartOf j) ∧ t.mem = s.mem)
      ∧ (idle → s.liveGids k = [] → team.live = true → ∃ t, exec (.streamFault k) s = .next t ∧ (t.teamOf k).live = false
          ∧ t.service.log[s.service.log.length]? = some (4, c.code.setWidth 8, BitVec.ofNat 16 team.core, BitVec.ofNat 32 team.asid, addr, 1)))
    ∧ (team.live = true → q.st = .running → q.fault = none → s.liveGids k = [] →
      (¬ idle → exec (.streamStop k) s = .next s)
      ∧ (idle → ∃ t, exec (.streamStop k) s = .next t ∧ (t.teamOf k).live = false
          ∧ (∀ o e, e ∈ (t.coreOf o).ports → e.valid = true → e.team ≠ k) ∧ (∀ o h, h ∈ (t.coreOf o).hold → h.team ≠ k)
          ∧ ∀ n, s.nodeRun team.launch team.node = some n → t.nodeRun team.launch team.node = some { n with ended := n.ended + 1, result := n.result ||| team.result }))
    ∧ (q.evictAsked = true → q.st = .running → q.fault = none → idle →
      (q.stopAsked = false → s.streamHeld k = false → exec (.streamEvictStop k) s = .next s)
      ∧ (q.stopAsked = true ∨ s.streamHeld k = true → ∃ t, exec (.streamEvictStop k) s = .next t
          ∧ (t.teamOf k).seq = { q with st := .saved, stalled := false, stopAsked := false, evictAsked := false }
          ∧ (team.absent = false → s.allEvicted k = true → (∀ h ∈ (s.coreOf team.core).hold, h.team ≠ k) → (t.teamOf k).absent = true
              ∧ ∀ o, ∀ e ∈ (t.coreOf o).ports, e.valid = true → e.team = k → e.absent = true)))
    ∧ (x.fetches = [f] → f.room = false → x.segs.length < 128 → s.oracle = [] → ∃ t, exec (.adapterSegmentFill core) s = .next t
        ∧ (t.coreOf core).fetches = [{ f with room := true }] ∧ (t.coreOf core).segs = x.segs)
    ∧ (x.fetches = [f] → f.room = true → s.oracle = [] →
        let t0 := s.teamOf f.team
        let hit := fun (r : IssuedRow) => r.queued = true ∧ r.needs.1 = f.adapter
        let row := t0.seq.adir + BitVec.ofNat 64 (32 * f.adapter)
        (x.dir f.team f.adapter = none → t0.seq.adir = 0 → ∃ t, exec (.adapterSegmentFill core) s = .next t ∧ (t.coreOf core).fetches = []
          ∧ (∀ r, r ∈ (t.teamOf f.team).seq.rows ↔ r ∈ t0.seq.rows ∧ ¬ hit r)
          ∧ (∀ r rest, t0.seq.rows = r :: rest → hit r → t0.seq.fault = none → (t.teamOf f.team).seq.fault = some (.dataCheck, r.addr)))
        ∧ (x.dir f.team f.adapter = none → t0.seq.adir ≠ 0 → s.adapterRead f row 32 = .data bs false →
            let n := fun (i w : Nat) => leNat ((bs.drop i).take w)
            1 ≤ n 20 1 → n 20 1 ≤ 64 → n 21 1 = 1 → n 0 8 % 64 = 0 → n 8 8 % 64 = 0 →
            ∃ t, exec (.adapterSegmentFill core) s = .next t ∧ (t.coreOf core).fetches = [f] ∧ (t.coreOf core).dirs = x.dirs ++
              [⟨f.team, f.adapter, BitVec.ofNat 64 (n 0 8), BitVec.ofNat 64 (n 8 8), BitVec.ofNat 32 (n 16 4), n 20 1⟩])
        ∧ (x.dir f.team f.adapter = some d →
            s.adapterRead f ((if f.up then d.up else d.down) + BitVec.ofNat 64 (1024 * f.seg)) 1024 = .data bs false →
            ∃ t, exec (.adapterSegmentFill core) s = .next t ∧ (t.coreOf core).fetches = []
              ∧ (t.coreOf core).segs = x.segs ++ [⟨f.team, f.adapter, f.up, f.seg, bs⟩]))
    ∧ (q.rows = r :: rows → r.queued = true → s.oracle = [] →
        let u := s.coreOf team.core
        let tile := team.tile r.tile
        let m := modesOf r.sfmt
        let acc := (r.sfmt.extractLsb' 10 3).toNat
        let rounded := fun (v : FVal) => if acc = 3 then BitVec.ofInt 32 (if m.sm = 1 then max (-2147483648) (min 2147483647 v.toInt) else v.toInt)
          else BitVec.ofNat 32 (fOf m.rm m.sm (if acc = 0 then .f32 else if acc = 1 then .f16 else .bf16) 0 v)
        (u.holds k r = false → exec (.adapterRowReplay k) s = .next s)
        ∧ ∀ z a b ad seg K, r.op = .mma z a b ad seg K → 1 ≤ ad → ad < 4096 → r.row < 16 → acc ≤ 3 → m.rm ≠ 5 → (b.map (·.1)).Nodup → (∀ e ∈ b, e.1 < 16) →
            u.holds k r = true →
            let rank := ((u.dir k ad).map AdpDir.rank).getD 0
            let down := fun (i n : Nat) => if n < rank then FF.e4m3.dec ((((u.seg k ad false (seg + i / 16)).map AdpSeg.bytes).getD []).getD (64 * (i % 16) + n) 0).toNat else .fin false 0 0 false
            (∀ e ∈ a, e.1 < K) → K % 16 = 0 →
            ∃ t, exec (.adapterRowReplay k) s = .next t ∧ (t.teamOf k).seq.rows = rows ∧ ((t.teamOf k).tile r.tile).rid = mset r.row (BitVec.ofNat 12 ad) tile.rid
              ∧ (∀ i < 16, ∀ j < 16, ((t.teamOf k).tile r.tile).at i j = if i = r.row then
                  (match b.find? (fun e => e.1 == j) with
                    | none => tile.at i j
                    | some e => rounded (sumF m.rm ((if z then .fin false 0 0 false else accVal acc (tile.at i j)) :: ((a.map (·.2)).zip e.2).map fun p => p.1.mul p.2)))
                  else tile.at i j)
              ∧ (∀ i < 16, ∀ n < 64, ((t.teamOf k).tile r.tile).rankAt i n = if i = r.row then
                  BitVec.ofNat 32 (fOf 0 0 .f32 0 (sumF 0 (FF.f32.dec (tile.rankAt i n).toNat :: a.map fun e => e.2.mul (down e.1 n))))
                  else tile.rankAt i n)
              ∧ ∀ n, n ≠ r.tile → (t.teamOf k).tile n = team.tile n)

namespace Sys2Proof.Claims
open Sys2Proof.Machine

/-- A packet of a kind has come to this device, and its number has not been applied (R398). -/
def Comes (s : State) (p : FabPkt) (kind : Nat) : Prop :=
  p.dst = s.fabric.device ∧ p.kind.toNat = kind ∧ (p.src.toNat, p.seq) ∉ s.fabric.applied
/-- One answer goes out on the packet's path, to its source and by the route of that path's record, of a kind; it names the number that it answers, and tells how the packet went (R397, R401, R404; the addr field is log 12). -/
def Answers (s t : State) (p : FabPkt) (kind tell : Nat) (data : List Byte) (psn : BitVec 4) : Prop :=
  ∃ q, t.fabric.wire = s.fabric.wire ++ [q] ∧ q.kind.toNat = kind ∧ q.dst = p.src ∧ q.src = s.fabric.device ∧ q.path = p.path
    ∧ q.addr.toNat = p.seq.toNat + tell * 2 ^ 32 ∧ q.control = 0 ∧ q.data = data ∧ q.psn = psn ∧ q.asid = p.asid ∧ q.core = p.core ∧ q.gid = p.gid
    ∧ (let rec_ := mget 0 (p.src.toNat * 4 + p.path.toNat) s.fabric.routes
       q.route = rec_.extractLsb' 0 30 ∧ q.len = rec_.extractLsb' 60 3 ∧ q.hop = 1)
/-- The packet's number has been applied. -/
def NowSeen (t : State) (p : FabPkt) : Prop := (p.src.toNat, p.seq) ∈ t.fabric.applied
/-- The packet that an answer names is not kept any longer, and no other is dropped (R401). -/
def Settled (s t : State) (q : FabPkt) : Prop :=
  ∀ u, u ∈ t.fabric.unacked ↔ u ∈ s.fabric.unacked ∧ ¬ (u.dst = q.dst ∧ u.seq = q.seq)

end Sys2Proof.Claims

/-! ## Events of the fabric -/

/-- R397 to R405: a packet for another device goes on by the link that its header names, its hop field raised; one that has to wait for a line, a row, a commit or an older packet of its group is kept; a read is answered with its 256 bytes and marks for poisoned granules; a write changes exactly its enabled bytes, at its home or in the allocation that the scratchpad view names, and is acknowledged; a put is delivered as one of this device, and acknowledged; an atomic changes its location once by its operands in order, and is answered with the old value or acknowledged, and one on poisoned data is answered so, or logged; a packet whose address lies nowhere is answered with a refusal, one applied before has no second effect, and one of an unknown kind is logged. A reply reaches the group that asked; an acknowledgement lets `pathack` rise and `fab` fall, one that refuses gives the group its cause, and one that asks for it has the packet sent again. What an answer tells, and the word before an atomic's operands, are the model's layout (log 12). -/
def Obligations.FabricPacketResults : Prop :=
  ∀ (s : State) (p q : FabPkt) (key k g core o off : Nat) (va : Word64) (nat : Bool),
    let i := HartId.group k g
    let h := s.hartOf i
    let home := p.enc = false ∧ homeKey p.addr.toNat = some key
    let spad := p.addr.toNat = spadView + core * 2 ^ 20 + o ∧ core < 288 ∧ o < 2 ^ 20 ∧ s.winPlace core o p.asid.toNat = .here k off
      ∧ (s.coreOf core).fold = none
    let nowhere := homeKey p.addr.toNat = none ∧ ¬ (spadView ≤ p.addr.toNat ∧ p.addr.toNat < spadView + 288 * 2 ^ 20)
    let enabled := fun (m m' : Mem) (a : Nat) => ∀ y, m'.byte y = if a ≤ y ∧ y < a + 256 ∧ p.bmask.getLsbD (y - a) = true then p.data.getD (y - a) 0 else m.byte y
    let same := fun (t : State) => t.teams = s.teams ∧ t.mem = s.mem ∧ t.harts = s.harts
    let free := s.mustWait p s.fabric.parked = false
    (p.dst ≠ s.fabric.device → ∀ e ∈ [Instr.fabricRead p, .fabricWrite p, .fabricPut p, .fabricAtomic p, .combinedAtomic p, .readReply p, .atomicReply p,
        .acknowledgement p, .stage p, .commit p, .regionAbort p, .collectiveData p, .collectiveAbort p, .unknownPacketKind p],
      p.hop.toNat < p.len.toNat → p.route.toNat / 2 ^ (5 * p.hop.toNat) % 32 < 18 →
        exec e s = .next { s with fabric := { s.fabric with wire := s.fabric.wire ++ [{ p with hop := p.hop + 1 }] } })
    ∧ (s.mustWait p s.fabric.parked = true → p.dst = s.fabric.device →
      ∀ e ∈ [(Instr.fabricRead p, 0x01), (.fabricWrite p, 0x02), (.fabricPut p, 0x03), (.fabricAtomic p, 0x04), (.combinedAtomic p, 0x05)], p.kind.toNat = e.2 →
        (∀ u ∈ s.fabric.parked, ¬ (u.src = p.src ∧ u.seq = p.seq)) →
        exec e.1 s = .next { s with fabric := { s.fabric with parked := s.fabric.parked ++ [p] } })
    ∧ (Comes s p 0x01 → free →
      (home → readsRow p = false → ∃ t psn, exec (.fabricRead p) s = .next t ∧ Answers s t p 0x10 0 (s.mem.read key 256) psn ∧ same t
        ∧ ∀ n < 4, psn.getLsbD n = s.poisonedAt (key + 64 * n) 64)
      ∧ (home → readsRow p = true → ∀ c, s.rowCheck key 256 0 = .error c → ∃ t, exec (.fabricRead p) s = .next t ∧ Answers s t p 0x10 8 [] 0 ∧ same t)
      ∧ (spad → ∃ t psn, exec (.fabricRead p) s = .next t ∧ Answers s t p 0x10 0 ((s.teamOf k).mem.read off 256) psn ∧ same t
        ∧ ∀ n < 4, psn.getLsbD n = (s.teamOf k).markedAt (off + 64 * n) 64)
      ∧ (nowhere → ∃ t, exec (.fabricRead p) s = .next t ∧ Answers s t p 0x10 1 [] 0 ∧ same t))
    ∧ (Comes s p 0x02 → free → p.psn = 0 →
      (home → s.mem.wf = true → ∃ t, exec (.fabricWrite p) s = .next t ∧ Answers s t p 0x11 0 [] 0 ∧ NowSeen t p ∧ enabled s.mem t.mem key
        ∧ t.teams = s.teams ∧ t.harts = s.harts)
      ∧ (spad → (s.teamOf k).syncs = [] → (s.teamOf k).mem.wf = true → ∃ t, exec (.fabricWrite p) s = .next t ∧ Answers s t p 0x11 0 [] 0 ∧ NowSeen t p
          ∧ enabled (s.teamOf k).mem (t.teamOf k).mem off ∧ (∀ j, j ≠ k → t.teamOf j = s.teamOf j) ∧ t.mem = s.mem)
      ∧ (nowhere → ∃ t, exec (.fabricWrite p) s = .next t ∧ Answers s t p 0x11 1 [] 0 ∧ NowSeen t p ∧ same t))
    ∧ (Comes s p 0x03 → free →
      (spad → p.psn = 0 → p.data.length = 256 → s.net = [] → (s.teamOf k).core = core → (s.teamOf k).syncs = [] → (s.teamOf k).mem.wf = true →
        (∃ e, s.portEntry core o p.asid.toNat = some e ∧ e.team = k ∧ e.absent = false ∧ off = o - e.wbase * 4096) →
        ((s.teamOf k).tag (off / 256) = .empty → s.tileWaiters k (off / 256) = [] → ∃ t, exec (.fabricPut p) s = .next t ∧ Answers s t p 0x11 0 [] 0
          ∧ NowSeen t p ∧ t.net = [] ∧ (t.teamOf k).tag (off / 256) = .full
          ∧ ∀ y, (t.teamOf k).mem.byte y = if off / 256 * 256 ≤ y ∧ y < off / 256 * 256 + 256 then p.data.getD (y - off / 256 * 256) 0 else (s.teamOf k).mem.byte y)
        ∧ ((s.teamOf k).tag (off / 256) = .full → 16 ≤ (s.coreOf core).hold.length → ∃ t m, exec (.fabricPut p) s = .next t ∧ NowSeen t p ∧ t.net = [m]
            ∧ m.refused = true ∧ t.teams = s.teams ∧ t.fabric.wire = s.fabric.wire))
      ∧ (home ∨ nowhere → ∃ t, exec (.fabricPut p) s = .next t ∧ Answers s t p 0x11 1 [] 0 ∧ NowSeen t p ∧ same t))
    ∧ (∀ (op : AtomOp) (x : Nat) (xs : List Nat) (e : Instr) (old? : Bool), free →
      let c := p.control.toNat
      let w := 8 * 2 ^ x
      let n := 2 ^ x
      let old := s.mem.nat key n
      let new := xs.foldl (fun v y => (atomNew nat op (BitVec.ofNat w v) (BitVec.ofNat w y)).toNat) old
      ((Comes s p 0x04 ∧ e = .fabricAtomic p ∧ xs.length = 1) ∨ (Comes s p 0x05 ∧ e = .combinedAtomic p ∧ op ≠ .add)) →
      op ∉ [AtomOp.fadd, .fmin, .fmax] → x < 4 → c / 4096 = opCode op → c / 1024 % 4 = x → c / 512 % 2 = (if nat then 1 else 0) →
      p.data = leBytes 8 (2 ^ 16 + if old? then 1 else 0) ++ xs.flatMap (leBytes n) → (∀ y ∈ xs, y < 2 ^ w) → homeKey p.addr.toNat = some key → s.mem.wf = true →
      (s.poisonedAt key n = false → ∃ t, exec e s = .next t ∧ NowSeen t p ∧ t.teams = s.teams ∧ t.harts = s.harts
        ∧ (∀ y, t.mem.byte y = if xs ≠ [] ∧ key ≤ y ∧ y < key + n then (leBytes n new).getD (y - key) 0 else s.mem.byte y)
        ∧ (old? = false → Answers s t p 0x11 0 [] 0) ∧ (old? = true → xs.length = 1 → Answers s t p 0x12 0 (leBytes n old) 0))
      ∧ (s.poisonedAt key n = true → ∃ t, exec e s = .next t ∧ NowSeen t p ∧ t.teams = s.teams ∧ t.harts = s.harts
        ∧ (old? = true → t.mem = s.mem ∧ Answers s t p 0x12 4 [] 0)
        ∧ (old? = false → Logged s t 3 0x0B p.core.toNat (p.addr.setWidth 64) ∧ Answers s t p 0x11 0 [] 0)))
    ∧ (p.dst = s.fabric.device → (p.src.toNat, p.seq) ∈ s.fabric.applied → ∀ e ∈ [(Instr.fabricWrite p, 0x02), (.fabricPut p, 0x03), (.stage p, 0x20),
        (.commit p, 0x21), (.regionAbort p, 0x22), (.collectiveData p, 0x30), (.collectiveAbort p, 0x31)],
        p.kind.toNat = e.2 → ∃ t, exec e.1 s = .next t ∧ Answers s t p 0x11 0 [] 0 ∧ same t)
    ∧ (p.dst = s.fabric.device → p.kind.toNat ∉ [0x01, 0x02, 0x03, 0x04, 0x05, 0x10, 0x11, 0x12, 0x20, 0x21, 0x22, 0x30, 0x31] →
        ∃ t, exec (.unknownPacketKind p) s = .next t ∧ Logged s t 6 0 p.src.toNat (p.addr.setWidth 64) ∧ t.teams = s.teams ∧ t.harts = s.harts ∧ t.fabric = s.fabric)
    ∧ (p.dst = s.fabric.device → s.answered p = some q → let tells := p.addr.toNat / 2 ^ 32
      (p.kind.toNat = 0x10 → s.askerOf q = some (.group k g) → s.away k = false → (q.dst.toNat, readKey q) ∈ h.asked →
        (tells = 0 → p.psn = 0 → ∃ t, exec (.readReply p) s = .next t ∧ Settled s t q
          ∧ (∀ n < if q.enc then 144 else 256, mfind (q.dst.toNat, readKey q + n) (t.hartOf i).arrived = some (p.data.getD n 0))
          ∧ (t.hartOf i).bad = h.bad ∧ (t.hartOf i).s = h.s ∧ t.teams = s.teams ∧ t.mem = s.mem)
        ∧ (∀ told ∈ [(1, Cause.accessViolation), (4, .poison), (8, .rowNotFull)], tells = told.1 →
            ∃ t, exec (.readReply p) s = .next t ∧ Settled s t q ∧ (t.hartOf i).arrived = h.arrived
              ∧ ∀ n < 4, mfind (q.dst.toNat, readKey q / 64 + n) (t.hartOf i).bad = some told.2))
      ∧ (p.kind.toNat = 0x12 → s.askerOf q = some (.group k g) → (q.dst.toNat + 1024, q.addr.toNat) ∈ h.asked → tells = 0 → p.psn = 0 →
          s.away k = false → pktIndex q = 0 → p.data.length = 2 ^ (q.control.toNat / 1024 % 4) →
          ∃ t, exec (.atomicReply p) s = .next t ∧ Settled s t q ∧ t.teams = s.teams ∧ t.mem = s.mem
            ∧ ∀ n < p.data.length, mfind (q.dst.toNat + 1024, q.addr.toNat + n) (t.hartOf i).arrived = some (p.data.getD n 0))
      ∧ (p.kind.toNat = 0x11 → ∀ r : RemoteOp, h.remote = [r] → r.dst = q.dst.toNat → r.seq = q.seq → r.path < 4 → h.region = none → h.evicted = false →
          s.sendersOf q.dst.toNat q.seq = [(k, g, va)] → s.enginesOf q.dst.toNat q.seq = [] →
          (tells = 0 → ∃ t, exec (.acknowledgement p) s = .next t ∧ Settled s t q ∧ (t.hartOf i).remote = []
            ∧ (∀ n < 4, vget (t.hartOf i).pathack n 0 = vget h.pathack n 0 + if r.pathack ∧ n = r.path then 1 else 0)
            ∧ (∀ rest, r.near = false → vget h.ledger kFab [] = (r.id, false) :: rest → (∀ z ∈ rest, z.1 ≠ r.id ∧ z.2 = false) →
                (t.hartOf i).counter kFab + 1 = h.counter kFab)
            ∧ (t.hartOf i).s = h.s ∧ (t.hartOf i).causes = h.causes ∧ t.mem = s.mem)
          ∧ (tells = 1 → h.live = true → h.causes.length < 8 →
              ∃ t, exec (.acknowledgement p) s = .next t ∧ Settled s t q
                ∧ (t.hartOf i).causes = h.causes ++ [⟨.accessViolation, va ||| 0x8000000000000000, none⟩]))
      ∧ (p.kind.toNat = 0x11 → tells = 2 → exec (.acknowledgement p) s = .next (s.resend q)))

/-- R406, R402, R396, R395, R375: a path down is noted, and its packet goes on another usable path with its number, or, with none, is lost and its group takes PEER_KILLED; a flag leaves the store queue for its port, and goes once what was sent before it to its device is acknowledged; a route and a device number are written. R409, R410: a stage packet is checked, kept and acknowledged while its I/O die's 4096 lines have room, and sent again where they have none; a commit applies what its region staged, an abort drops it. R415 to R417: a collective ends once the streams of its ranks have come, with the ranks' inputs in order for an all-gather, or FAILED where they disagree; an abort ends it ABORTED, its tiles POISON, and one that comes before the collective is kept for its start; its status word is written and `coll` falls, at a word on another device once that is acknowledged; a killed context tells the other ranks and has no collective left. -/
def Obligations.FabricControlResults : Prop :=
  ∀ (s v : State) (p q : FabPkt) (dst path k g key id peer st : Nat) (va rec : Word64) (num : BitVec 10) (e : SQEntry) (es : List SQEntry) (bs : List Byte)
    (c : Coll) (x : Staged) (b : Nat),
    let i := HartId.group k g
    let h := s.hartOf i
    let f := s.fabric
    let at_ := dst * 4 + path
    let d := collDesc c.desc
    let falls := fun (t : State) => ∀ rest, vget h.ledger kColl [] = (c.op, false) :: rest → (∀ z ∈ rest, z.1 ≠ c.op ∧ z.2 = false) →
      (t.hartOf i).counter kColl + 1 = h.counter kColl
    let home := p.enc = false ∧ homeKey p.addr.toNat = some key
    let mine := x.src = p.src.toNat ∧ x.core = p.core.toNat ∧ x.gid = p.gid.toNat ∧ x.region = p.region
    let coll := f.colls = [c] ∧ c.team = k ∧ c.gid = g ∧ c.launch = none
    let pid := leNat (p.data.take 8)
    let goesOn := fun (m : Nat) => { q with path := BitVec.ofNat 2 m, route := (mget 0 (dst * 4 + m) f.routes).extractLsb' 0 30,
                                            len := (mget 0 (dst * 4 + m) f.routes).extractLsb' 60 3, hop := 1 }
    let used := (f.staging.filter (·.die == 0)).foldl (fun n y => n + if y.pkt.bmask = 0 then 2 else 1) 0
    let size := if p.bmask = 0 then 2 else 1
    exec (.linkRetry dst) s = .next s
    ∧ (let t := { s with fabric := { f with device := num, numbered := true } }; exec (.deviceNumberAssign num) s = .next t)
    ∧ (dst < 1024 → path < 4 → ∃ t, exec (.routeTableWrite dst path rec) s = .next t ∧ mget 0 at_ t.fabric.routes = rec ∧ at_ ∉ t.fabric.down
        ∧ (∀ n, n ≠ at_ → mget 0 n t.fabric.routes = mget 0 n f.routes ∧ (n ∈ t.fabric.down ↔ n ∈ f.down))
        ∧ t = { s with fabric := { f with routes := t.fabric.routes, down := t.fabric.down } })
    ∧ ((∀ u ∈ f.unacked, ¬ (u.dst.toNat = dst ∧ u.path.toNat = path)) → exec (.pathDown dst path) s = .next s)
    ∧ (f.unacked = [q] → q.dst.toNat = dst → q.path.toNat = path → at_ ∉ f.down → s.oracle = [] → path < 4 →
        (∀ n < 4, n ≠ path → f.usable dst n = true → ∃ t m, exec (.pathDown dst path) s = .next t ∧ m < 4 ∧ m ≠ path ∧ f.usable dst m = true
          ∧ at_ ∈ t.fabric.down ∧ t.fabric.unacked = [goesOn m] ∧ t.fabric.wire = f.wire ++ [goesOn m]
          ∧ t.teams = s.teams ∧ t.mem = s.mem)
        ∧ ((∀ n < 4, n ≠ path → f.usable dst n = false) → f.fsJobs = [] → q.kind.toNat ∈ [0x01, 0x02, 0x03, 0x04, 0x05] → s.sendersOf dst q.seq = [(k, g, va)] →
            s.enginesOf dst q.seq = [] → h.live = true → h.causes = [] → ∃ t, exec (.pathDown dst path) s = .next t ∧ t.fabric.unacked = []
              ∧ at_ ∈ t.fabric.down ∧ (t.hartOf i).causes = [⟨.peerKilled, BitVec.ofNat 64 dst ||| 0x8000000000000000, none⟩]))
    ∧ (h.sq = e :: es → e.op = .flag (cellsAt (.remote dst key id false) bs) va → s.entryDue k g e = true →
        exec (.orderedFlagSend k g) s = .next (s.setHartOf i { h with sq := es, flags := h.flags ++ [e] }))
    ∧ (h.sq = [] → h.flags = [e] → e.op = .flag (cellsAt (.remote dst key id false) bs) va → bs ≠ [] →
        dst < 1024 → key < 2 ^ 42 → key % 256 + bs.length ≤ 256 → f.reachable dst = true →
        ((∃ r ∈ h.remote, r.dst = dst ∧ r.pathack = true ∧ r.id < e.id) → exec (.orderedFlagSend k g) s = .next s)
        ∧ ((∀ r ∈ h.remote, r.dst = dst → r.id < e.id → r.pathack = false) → ∃ t q, exec (.orderedFlagSend k g) s = .next t ∧ (t.hartOf i).flags = []
            ∧ t.fabric.wire = f.wire ++ [q] ∧ q.kind = 0x02 ∧ q.ofl = true ∧ q.dst.toNat = dst ∧ q.addr.toNat = key / 256 * 256 ∧ q.seq = mget 0 dst f.seqOut
            ∧ (∀ n < 256, q.bmask.getLsbD n = decide (key % 256 ≤ n ∧ n < key % 256 + bs.length))
            ∧ (∀ n < bs.length, q.data.getD (key % 256 + n) 0 = bs.getD n 0) ∧ t.mem = s.mem ∧ t.teams = s.teams))
    ∧ (Comes s p 0x20 →
        (s.stageRefused p = true → ∃ t, exec (.stage p) s = .next t ∧ Answers s t p 0x11 1 [] 0 ∧ NowSeen t p ∧ t.fabric.staging = f.staging ∧ t.mem = s.mem)
        ∧ (s.stageRefused p = false → s.oracle = [] → 4096 < used + size →
          ∃ t, exec (.stage p) s = .next t ∧ Answers s t p 0x11 2 [] 0 ∧ t.fabric.staging = f.staging ∧ t.fabric.applied = f.applied ∧ t.mem = s.mem ∧ t.teams = s.teams)
        ∧ (s.stageRefused p = false → s.oracle = [] → used + size ≤ 4096 → ∃ t, exec (.stage p) s = .next t ∧ Answers s t p 0x11 0 [] 0 ∧ NowSeen t p
            ∧ t.fabric.staging = f.staging ++ [⟨p.src.toNat, p.core.toNat, p.gid.toNat, p.region, 0, p⟩] ∧ t.mem = s.mem ∧ t.teams = s.teams)
        ∧ (home → (s.stageRefused p = true ↔ p.bmask = 0)))
    ∧ (Comes s p 0x21 → f.staging = [x] → s.putsOut p = false →
        (¬ mine → ∃ t, exec (.commit p) s = .next t ∧ Answers s t p 0x11 0 [] 0 ∧ t.fabric.staging = [x] ∧ t.mem = s.mem ∧ t.teams = s.teams)
        ∧ (mine → x.pkt.bmask ≠ 0 → x.pkt.enc = false → homeKey x.pkt.addr.toNat = some b → x.pkt.psn = 0 → s.mem.wf = true →
            ∃ t, exec (.commit p) s = .next t ∧ Answers s t p 0x11 0 [] 0 ∧ NowSeen t p ∧ t.fabric.staging = [] ∧ t.teams = s.teams
              ∧ ∀ y, t.mem.byte y = if b ≤ y ∧ y < b + 256 ∧ x.pkt.bmask.getLsbD (y - b) = true then x.pkt.data.getD (y - b) 0 else s.mem.byte y))
    ∧ (Comes s p 0x22 → ∃ t, exec (.regionAbort p) s = .next t ∧ Answers s t p 0x11 0 [] 0 ∧ NowSeen t p
        ∧ (∀ y, y ∈ t.fabric.staging ↔ y ∈ f.staging ∧ ¬ (y.src = p.src.toNat ∧ y.core = p.core.toNat ∧ y.gid = p.gid.toNat ∧ y.region = p.region))
        ∧ t.mem = s.mem ∧ t.teams = s.teams)
    ∧ (Comes s p 0x30 →
        let body := p.data.drop 16
        let z : CollPiece := ⟨p.src.toNat, p.asid.toNat, pid, leNat ((p.data.drop 8).take 8),
          (List.range (p.data.length - 16)).map fun i => (p.data.getD (16 + i) 0, p.psn.getLsbD ((16 + i) / 64))⟩
        ((∀ y ∈ f.colls, y.status ≠ none) → ∃ t, exec (.collectiveData p) s = .next t ∧ Answers s t p 0x11 0 [] 0 ∧ NowSeen t p
          ∧ t.fabric.pieces = f.pieces ++ [z] ∧ t.fabric.colls = f.colls ∧ t.mem = s.mem)
        ∧ (coll → c.status = none → c.asid = p.asid.toNat → c.id = pid → c.peers = [f.device.toNat, p.src.toNat] → f.device ≠ p.src → f.pieces = [] →
            z.off = 0 → 16 ≤ body.length → streamLen body = body.length →
            (body.take 16 ≠ d.head → ∃ t, exec (.collectiveData p) s = .next t ∧ t.fabric.colls = [{ c with status := some (3, 0) }])
            ∧ (body.take 16 = d.head → d.kind = 1 → d.tiles = 0 → p.psn = 0 → c.input = bs.map (·, false) →
                (({ s with tick := s.tick + 1, fabric := { f with pieces := [] } }.markSeen p).ack p).vwrite c.asid c.sys d.dst (bs ++ body.drop 16) = .ok v →
                ∃ t, exec (.collectiveData p) s = .next t ∧ t.mem = v.mem ∧ t.fabric.colls = [{ c with status := some (1, 0) }])))
    ∧ (Comes s p 0x31 → coll → c.status = none → c.asid = p.asid.toNat → c.id = pid → p.src.toNat ∈ c.peers → h.live = true → h.causes.length < 8 →
        ∃ t, exec (.collectiveAbort p) s = .next t ∧ NowSeen t p ∧ t.fabric.colls = [{ c with status := some (2, p.src.toNat) }]
          ∧ (d.tiles = 0 → Answers s t p 0x11 0 [] 0 ∧ (t.hartOf i).causes = h.causes ++ [⟨.peerKilled, p.src.setWidth 64 ||| 0x8000000000000000, none⟩])
          ∧ ∀ n < d.tiles, (t.teamOf k).tag (d.first + n) = .poison)
    ∧ (Comes s p 0x31 → (∀ y ∈ f.colls, ¬ (y.asid = p.asid.toNat ∧ y.id = pid ∧ p.src.toNat ∈ y.peers)) → (p.asid.toNat, pid) ∉ f.ended →
        ∃ t, exec (.collectiveAbort p) s = .next t ∧ NowSeen t p ∧ Answers s t p 0x11 0 [] 0 ∧ (p.src.toNat, p.asid.toNat, pid) ∈ t.fabric.aborts
          ∧ t.fabric.colls = f.colls ∧ t.mem = s.mem ∧ t.harts = s.harts)
    ∧ (coll → c.status = some (st, peer) → c.wrote = false → s.collBusy c = false →
        s.vwrite c.asid c.sys d.status (leBytes 8 (peer * 256 + st)) = .ok v →
        (v.collBusy c = false → ∃ t, exec (.collectiveStatusWrite 0) s = .next t ∧ t.fabric.colls = [] ∧ (c.asid, c.id) ∈ t.fabric.ended ∧ falls t
          ∧ t.mem = v.mem ∧ t.teams = v.teams)
        ∧ (v.collBusy c = true → ∃ t, exec (.collectiveStatusWrite 0) s = .next t ∧ (∀ y ∈ t.fabric.colls, y.wrote = true) ∧ t.mem = v.mem ∧ t.harts = v.harts))
    ∧ (coll → c.asid = id → ∃ t, exec (.contextKill id) s = .next t ∧ t.fabric.colls = [] ∧ falls t ∧ (∀ y ∈ t.fabric.pieces, y.asid ≠ id)
        ∧ t.mem = s.mem ∧ t.teams = s.teams
        ∧ (c.status = none → c.peers = [f.device.toNat, dst] → dst < 1024 → dst ≠ f.device.toNat → f.reachable dst = true → id < 4096 → c.id < 2 ^ 32 → ∃ q,
            t.fabric.wire = f.wire ++ [q] ∧ q.kind.toNat = 0x31 ∧ q.dst.toNat = dst ∧ q.asid.toNat = id ∧ leNat (q.data.take 8) = c.id))

namespace Sys2Proof.Claims
open Sys2Proof.Machine

/-- n bytes of a command from byte i (R335). -/
def commandField (c : BitVec 512) (i n : Nat) : Nat := c.toNat / 2 ^ (8 * i) % 2 ^ (8 * n)

/-- A thread has gone on to its next entry: the read index has risen by 1 and its word has been written (R338). -/
structure NextEntry (s t : State) (q : Nat) : Prop where
  index : t.queueOf q = { s.queueOf q with rindex := (s.queueOf q).rindex + 1 }
  thread : (t.drover q).st = .fetch
  word : ∀ v, (s.setQueue q (t.queueOf q)).vwrite (s.queueOf q).asid true (s.queueOf q).ridx.toNat (leBytes 8 ((s.queueOf q).rindex + 1).toNat) = .ok v →
    t.mem = v.mem

/-- A launch has begun: its nodes wait for their predecessors, but for those that have none and no input records, which are in the ready pool (R338, R344). -/
structure Started (s t : State) (q : Nat) (cmd : BitVec 512) (nodes : List NodeRun) : Prop where
  record : ∃ x : Launch, mfind s.nextLaunch t.launches = some x ∧ x.queue = some q ∧ x.asid = (s.queueOf q).asid ∧ x.tag.toNat = commandField cmd 4 4
    ∧ x.status.toNat = commandField cmd 24 8 ∧ x.doneAddr.toNat = commandField cmd 32 8 ∧ x.nodes.length = nodes.length
    ∧ ∀ (n : Nat) (r : NodeRun), nodes[n]? = some r → r.status = .waiting → ∃ p : NodeRun, x.nodes[n]? = some p ∧ p.node = r.node ∧ p.header = r.header ∧ p.counter = r.counter
        ∧ ((r.counter = 0 ∧ ∀ z ∈ r.node.tiles, z.out = true) → p.status = .ready) ∧ (r.counter ≠ 0 → p.status = .waiting)
  index : (t.queueOf q).rindex = (s.queueOf q).rindex + 1
  thread : (t.drover q).st = .fetch
  others : ∀ l, l ≠ s.nextLaunch → mfind l t.launches = mfind l s.launches

/-- R335, R337, R338, R342, R344, R348: a wait packet wakes an idle thread; the thread reads the entry at its read index, asks another device for it where it lies there, or goes idle where there is none or where it cannot be read; a NOP passes, and a LAUNCH is refused with the lowest code of its failures, started, or held while four launches of the thread are live. Each entry that is done with advances the read index and its word. -/
def LaunchCommandResults : Prop :=
  ∀ (s v : State) (q key mp asid : Nat) (w : Word32) (bs : List Byte) (e : Cause) (cmd : BitVec 512) (code : Nat) (nodes : List NodeRun) (cs : List Checked)
    (reqs : List (Nat × Nat)),
    let d := s.queueOf q
    let t := s.drover q
    let fld := commandField cmd
    let entry := d.ring.toNat + 64 * (d.rindex.toNat % 2 ^ d.lsize)
    let checked := s.checkLaunch (tableKey q) d.asid d.maxprio t.cmd
    let s' := s.forgetDevice (tableKey q)
    let broken := cs.any Checked.bad = true ∨ (∃ c ∈ cs, ∃ h, c.header = some (.ok h) ∧ h.bad = true) ∨ recordsBad cs = true
    let wrongPred := ∃ (n : Nat) (c : Checked), cs[n]? = some c ∧ c.node.pred ≠ (cs.flatMap fun x => x.node.succ).count n
    ((q, w) ∈ s.waits →
      let u := { s with waits := s.waits.erase (q, w) }
      (t.st = .idle → d.lsize ≠ 0 → exec (.waitPacket q w) s = .next (u.setDrover q { t with st := .fetch }))
      ∧ (t.st ≠ .idle → exec (.waitPacket q w) s = .next u))
    ∧ (t.st = .fetch →
      (d.rindex = d.windex → exec (.droverFetch q) s = .next (s.setDrover q { t with st := .idle }))
      ∧ (d.rindex ≠ d.windex → d.lsize ≠ 0 → s.vfetch q d.asid true entry 64 = .ok bs →
          exec (.droverFetch q) s = .next ((s.forgetDevice q).setDrover q { t with st := .check, cmd := bytesToBits 512 bs }))
      ∧ (d.rindex ≠ d.windex → d.lsize ≠ 0 → s.vfetch q d.asid true entry 64 = .error (.ask reqs) → exec (.droverFetch q) s = .next (s.askDevice q d.asid reqs))
      ∧ (d.rindex ≠ d.windex → d.lsize ≠ 0 → s.vfetch q d.asid true entry 64 = .error (.fault e) →
          ∃ u, exec (.droverFetch q) s = .next u ∧ u.drover q = { t with st := .idle } ∧ u.queues = s.queues ∧ u.launches = s.launches
            ∧ Logged s u 4 (e.code.setWidth 8) q (BitVec.ofNat 64 entry)))
    ∧ (t.st = .check → commandField t.cmd 0 4 = 0 → ∃ u, exec (.commandNop q) s = .next u ∧ NextEntry s u q ∧ u.launches = s.launches)
    ∧ (t.st = .check → commandField t.cmd 0 4 ≠ 0 →
      (checked = .error reqs → exec (.launch q) s = .next (s.askDevice (tableKey q) d.asid reqs))
      ∧ (checked = .ok (code, nodes) → code ≠ 0 →
        let done := commandField t.cmd 32 8
        (done = 0 → ∃ u, exec (.launch q) s = .next u ∧ NextEntry s' u q ∧ u.launches = s.launches)
        ∧ (done ≠ 0 → done % 8 = 0 → s'.vwrite d.asid true done (leBytes 8 (commandField t.cmd 4 4 * 2 ^ 32 + code * 2 ^ 8 + 3)) = .ok v →
            ∃ u, exec (.launch q) s = .next u ∧ NextEntry v u q ∧ u.launches = s.launches))
      ∧ (checked = .ok (0, nodes) → (∀ r ∈ nodes, r.status = .waiting ∧ r.counter = r.node.pred ∧ r.result = 0 ∧ r.cause = 0)
          ∧ (s.liveOf q < 4 → ∃ u, exec (.launch q) s = .next u ∧ Started s u q t.cmd nodes)
          ∧ (4 ≤ s.liveOf q → exec (.launch q) s = .next (s'.setDrover q { t with st := .full, held := nodes }))))
    ∧ (t.st = .full →
      (s.liveOf q < 4 → ∃ u, exec (.launch q) s = .next u ∧ Started s u q t.cmd t.held)
      ∧ (4 ≤ s.liveOf q → exec (.launch q) s = .next s))
    ∧ ((∃ ns, s.checkLaunch key asid mp cmd = .ok (1, ns)) ↔ fld 0 4 ≠ 1 ∨ fld 18 6 ≠ 0 ∨ fld 40 24 ≠ 0 ∨ fld 8 8 % 256 ≠ 0 ∨ fld 24 8 % 8 ≠ 0 ∨ fld 32 8 % 8 ≠ 0
        ∨ fld 16 2 = 0 ∨ 4096 < fld 16 2)
    ∧ ((∀ ns, s.checkLaunch key asid mp cmd ≠ .ok (1, ns)) → (s.ctx asid).valid = false ∨ s.vfetch key asid true (fld 8 8) (256 * fld 16 2) = .error (.fault e) →
        s.checkLaunch key asid mp cmd = .ok (9, []))
    ∧ ((∀ ns, s.checkLaunch key asid mp cmd ≠ .ok (1, ns)) → (s.ctx asid).valid = true → s.vfetch key asid true (fld 8 8) (256 * fld 16 2) = .ok bs →
        s.readTable key asid bs (fld 16 2) = .ok cs → s.checkLaunch key asid mp cmd = .ok (code, nodes) →
        (code = 2 ↔ broken) ∧ (code = 3 ↔ ¬ broken ∧ wrongPred)
        ∧ (¬ broken → ¬ wrongPred → (∃ (n : Nat) (c : Checked), cs[n]? = some c ∧ n ∈ c.node.succ) → code = 4)
        ∧ ((∃ c ∈ cs, mp < c.node.prio) → 2 ≤ code ∧ code ≤ 8)
        ∧ ((∃ c ∈ cs, ∃ x, c.header = some (.error x)) → 2 ≤ code ∧ code ≤ 9))

/-- A team of a grid has been placed on a core (R17, R203, R345): its key, its place and its tid, its entry in the core's port translation table, and each group at the entry address of its role with the launch arguments in its registers. -/
structure Placed (s t : State) (e : ReadyTeam) (r : NodeRun) (asid c b : Nat) : Prop where
  key : t.nextTeam = s.nextTeam + 1
  team : let k := t.teamOf s.nextTeam
    k.live = true ∧ k.absent = false ∧ k.core = c ∧ k.pbase = b ∧ k.wbase = b ∧ k.asid = asid ∧ k.tid = e.tid ∧ k.launch = e.launch ∧ k.node = e.node
      ∧ k.prio = r.node.prio ∧ k.spad = r.header.spad ∧ k.accs = r.header.accs ∧ k.feat = r.header.feat ∧ k.roles = r.header.roles ∧ k.groups = groupsOf r.header.roles
  port : ∃ p ∈ (t.coreOf c).ports, p.valid = true ∧ p.absent = false ∧ p.team = s.nextTeam ∧ p.asid = asid ∧ p.wbase = b ∧ p.pbase = b ∧ p.size = r.header.spad / 4
  groups : ∀ g n role, (rolesByGid r.header.roles)[g]? = some (n, role) →
    let h := t.hartOf (.group s.nextTeam g)
    h.live = true ∧ h.role = n ∧ h.held = BitVec.ofNat 4 (2 ^ role.slots - 1) ∧ h.p0.active = true ∧ h.p0.pc = role.entry ∧ h.p1.active = false ∧ h.sys = false
      ∧ h.asid = BitVec.ofNat 64 asid ∧ h.prio = BitVec.ofNat 64 r.node.prio ∧ h.sbase = BitVec.ofNat 64 (r.header.priv * 65536)
      ∧ h.slimit = BitVec.ofNat 64 ((r.header.priv - r.header.stack) * 65536)
      ∧ (∀ i < 15, h.sreg (BitVec.ofNat 6 (i + 1)) = vget r.node.args i 0) ∧ (∀ i < 64, i = 0 ∨ 16 ≤ i → h.sreg (BitVec.ofNat 6 i) = 0)
      ∧ (∀ i < 32, vget h.v i 0 = 0) ∧ (∀ i < 8, vget h.m i 0 = 0) ∧ h.p0.lanes = BitVec.allOnes 64 ∧ h.p0.emask = BitVec.allOnes 64 ∧ h.p0.fmt = 0
      ∧ (∀ i < 4, (vget h.p0.latches i default).kind = .invalid) ∧ (∀ i < 4, vget h.pathack i 0 = 0)
      ∧ h.vl = 0 ∧ h.vtype = 0 ∧ h.seed = 0 ∧ h.tcause = 0 ∧ h.tval = 0 ∧ h.epc = 0 ∧ h.fcause = 0
      ∧ ∃ runs, s.spillFor asid r.header = some runs ∧ h.spbase = BitVec.ofNat 64 (runs.getD g 0)
  others : ∀ k, k ≠ s.nextTeam → (t.teamOf k).live = (s.teamOf k).live ∧ (t.teamOf k).core = (s.teamOf k).core

/-- R344 to R350, R17, R203: a node of the pool runs by its kind; a team goes to the core with the most free blocks among those where it fits, the lowest of equals, and its report word is written; a node whose parts have ended is DONE or FAILED, counts its successors down or skips them, and the last one ends its launch. A gang is placed whole or not at all, and under an invalid context record nothing is placed (log 74). A bid window announces the first task, every core where it fits samples in its cycle and bids its cost if that reaches the root in time, the lowest cost wins, and the winner accepts or declines. -/
def PlacementAndBidResults : Prop :=
  ∀ (s v : State) (l n i c b : Nat) (x : Launch) (r : NodeRun) (e : ReadyTeam) (ce : Cause) (bw : Bellwether) (z : Window),
    mfind l s.launches = some x → x.nodes[n]? = some r →
    let kind := r.node.kind
    let status := fun (t : State) => (t.nodeRun l n).map fun p => p.status
    let ready : ReadyTeam := { launch := l, node := n, tid := 0, left := r.header.grid, prio := r.node.prio, order := r.entered, serial := 0, withdrawals := 0, awarded := none }
    let fits := fun (c : Nat) (p : Nat) => s.roomOn c x.asid e.prio r.header Less.none = some p
    let failed := r.trapped = true ∨ r.result ≠ 0
    let firstIn := s.poolPending = false ∧ s.firstOfPrio e = true ∧ s.higherFirst e.prio = false ∧ s.backFirst e.prio = false
    (r.status = .ready → (∀ z ∈ s.ready, ¬ (z.launch = l ∧ z.node = n)) →
      (kind = 0 → r.node.tendered = false → exec (.nodeDispatch l n) s = .next { s with ready := s.ready ++ [ready] })
      ∧ (kind = 0 → r.node.tendered = true → ∃ t, exec (.nodeDispatch l n) s = .next t ∧ status t = some .tendered
          ∧ t.bell = { s.bell with queue := t.bell.queue, serial := s.bell.serial + BitVec.ofNat 32 r.header.grid }
          ∧ { ready with serial := s.bell.serial } ∈ t.bell.queue ∧ (∀ z ∈ s.bell.queue, z ∈ t.bell.queue) ∧ t.bell.queue.length = s.bell.queue.length + 1)
      ∧ (kind = 1 → s.displaces r = false → let at_ := r.node.kparm.extractLsb' 0 64; let bank := (r.node.kparm.extractLsb' 64 16).toNat
          (∀ u, s.startBank (nodeKey l n) bank x.asid false r.node.prio (some (l, n)) at_ = .ok u → ∃ t, exec (.nodeDispatch l n) s = .next t ∧ status t = some .running ∧ t.banks = u.banks)
          ∧ (∀ reqs, s.startBank (nodeKey l n) bank x.asid false r.node.prio (some (l, n)) at_ = .error (.ask reqs) →
              exec (.nodeDispatch l n) s = .next (s.askDevice (nodeKey l n) x.asid reqs))
          ∧ (s.startBank (nodeKey l n) bank x.asid false r.node.prio (some (l, n)) at_ = .error (.fault ce) → ∃ t, exec (.nodeDispatch l n) s = .next t ∧ t.banks = s.banks
              ∧ t.nodeRun l n = some { r with status := .running, ended := 1, trapped := true, cause := ce.code }))
      ∧ (kind = 2 → (r.node.kparm.extractLsb' 0 64).toNat % 64 ≠ 0 → ∃ t, exec (.nodeDispatch l n) s = .next t ∧ t.fabric.colls = s.fabric.colls
          ∧ t.nodeRun l n = some { r with status := .running, ended := 1, trapped := true, cause := Cause.dataCheck.code })
      ∧ (kind = 2 → s.collNode l n x.asid r = .ok v → exec (.nodeDispatch l n) s = .next (v.forgetDevice (nodeKey l n)))
      ∧ (kind = 2 → ∀ reqs, s.collNode l n x.asid r = .error (.ask reqs) → exec (.nodeDispatch l n) s = .next (s.askDevice (nodeKey l n) x.asid reqs))
      ∧ (kind = 3 → s.vwrite x.asid true (r.node.kparm.extractLsb' 0 64).toNat (leBytes 8 (r.node.kparm.extractLsb' 64 64).toNat) = .ok v →
          exec (.nodeDispatch l n) s = .next (v.changeNode l n fun p => { p with status := .running, ended := 1 })))
    ∧ (s.ready[i]? = some e → e.launch = l → e.node = n → (e.awarded ≠ none ∨ (e.prio < 10 ∧ firstIn)) → (s.ctx x.asid).valid = false →
        exec (.teamPlace i) s = .next (s.refusePlace l n))
    ∧ (s.ready[i]? = some e → e.launch = l → e.node = n → (s.ctx x.asid).valid = true → r.header.gang = true → (e.awarded ≠ none ∨ (e.prio < 10 ∧ firstIn)) →
        ((s.placeGang e).2 = false → exec (.teamPlace i) s = .next s)
        ∧ ((s.placeGang e).2 = true → s.imagesAsk (nodeKey l n) x.asid r.header = [] →
            exec (.teamPlace i) s = .next ((s.placeGang e).1.forgetDevice (nodeKey l n))))
    ∧ (s.ready[i]? = some e → e.launch = l → e.node = n → s.spillRoom x.asid r.header = true → c < 288 → r.header.gang = false →
      s.imagesAsk (nodeKey l n) x.asid r.header = [] →
      (e.awarded = none → e.prio < 10 → s.poolPending = false →
        (∀ z ∈ s.ready, z.awarded = none → z.prio = e.prio → e.order ≤ z.order) → s.higherFirst e.prio = false → s.backFirst e.prio = false → fits c b →
        (∀ d < 288, ∀ p, fits d p → s.freeBlocks d ≤ s.freeBlocks c ∧ (d < c → s.freeBlocks d < s.freeBlocks c)) →
        ∃ t, exec (.teamPlace i) s = .next t ∧ Placed s t e r x.asid c b
          ∧ t.ready = if e.left ≤ 1 then removeAt i s.ready else modifyAt (fun z => { z with tid := z.tid + 1, left := z.left - 1, serial := z.serial + 1 }) i s.ready)
      ∧ (e.awarded = some (c, b) → (s.coreOf c).portRoom = true → ∃ t, exec (.teamPlace i) s = .next t ∧ Placed s t e r x.asid c b
          ∧ (x.nodes = [r] → r.status = .running → r.node.report ≠ 0 →
              let serial := if r.node.tendered = true then some e.serial else none
              (s.placeTeam c b x.asid r.node r.header l n e.tid serial).1.vwrite x.asid true (r.node.report.toNat + 8 * e.tid) (leBytes 8 (2 ^ 63 + b * 2 ^ 32 + c)) = .ok v →
                t.mem = v.mem)))
    ∧ (r.over = true → s.nodeQuiet l n = true →
      let st : NodeStatus := if r.trapped || r.result != 0 then .failed else .done
      (∃ t, exec (.nodeComplete l n) s = .next t
        ∧ (∀ w : Launch, mfind l t.launches = some w →
            (∃ p : NodeRun, w.nodes[n]? = some p ∧ p.status = st)
            ∧ (¬ failed → ∀ (m : Nat) (p : NodeRun), x.nodes[m]? = some p → ∃ p' : NodeRun, w.nodes[m]? = some p' ∧ p'.counter = p.counter - r.node.succ.count m)
            ∧ (failed → ∀ (m : Nat) (p : NodeRun), x.nodes[m]? = some p → m ∈ r.node.succ → p.status = .waiting → ∃ p' : NodeRun, w.nodes[m]? = some p' ∧ p'.status = .skipped)
            ∧ (failed → ∀ (m : Nat) (p : NodeRun) (m' : Nat) (p' : NodeRun), w.nodes[m]? = some p → (p.status = .failed ∨ p.status = .skipped) → m' ∈ p.node.succ → w.nodes[m']? = some p' → p'.status ≠ .waiting))
        ∧ ((∀ (m : Nat) (p : NodeRun), m ≠ n → x.nodes[m]? = some p → p.status ∈ [.done, .failed, .skipped]) → mfind l t.launches = none)
        ∧ ∀ m, m ≠ l → mfind m t.launches = mfind m s.launches)
      ∧ (x.nodes = [r] → r.node.succ = [] → r.node.tiles = [] →
          let code := fun (done : Nat) => if r.trapped || r.result != 0 then 2 else if kind = 0 ∧ r.ended = 0 then 4 else done
          let f := if r.trapped || r.result != 0 then 1 else 0
          let put := fun (s : State) (a : Word64) (w : Nat) => if a = 0 then s else s.putWord x.asid a.toNat w
          let u := put (s.changeNode l n fun p => { p with status := st }) r.node.ndone
            (x.tag.toNat * 2 ^ 32 + (if code 1 = 1 then 0 else 1) * 2 ^ 19 + (if r.refused then 9 else 0) * 2 ^ 8 + code 1)
          exec (.nodeComplete l n) s = .next (put { u with launches := u.launches.filter fun p => p.1 != l } x.doneAddr (x.tag.toNat * 2 ^ 32 + f * 2 ^ 19 + (if f = 0 then 1 else 2)))))
    ∧ (s.bell.window = none → s.bell.stalled = false → s.bell.take = some (e, bw) → e.launch = l → e.node = n →
        ((∀ h, s.bell.head = some h → e = h) ∧ (s.bell.head = none → ∃ q qs, s.bell.queue = q :: qs ∧ e = { q with left := 1 }))
        ∧ (let t : State := { s with bell := { bw with window := some ⟨e, [], 6, s.bell.length, none⟩ } }
           exec .bidWindowOpen s = .next (if (s.ctx x.asid).valid then t else t.refusePlace l n)))
    ∧ (s.bell.window = some z → z.winner = none → z.cycle < 17 → z.task = e → e.launch = l → e.node = n →
        ∃ bids, exec .bidWindowClose s = .next { s with bell := { s.bell with window := some { z with bids := z.bids ++ bids, cycle := z.cycle + 1 } } }
          ∧ ∀ c cost, (c, cost) ∈ bids ↔ c < 288 ∧ 6 + 5 * (c / 36 / 4) + c % 36 / 6 = z.cycle ∧ 9 + 10 * (c / 36 / 4) + c % 36 / 6 ≤ z.length
              ∧ s.spillRoom x.asid r.header = true ∧ (∃ p, s.roomOn c x.asid e.prio r.header Less.none = some p)
              ∧ (let f := s.features e r x.asid c
                 let weight := fun (k : Nat) => ((mget 0 r.node.formula s.bell.tables).extractLsb' (8 * k) 8).toInt
                 let sum := ((List.range 8).map fun k => weight k * (f.getD k 0 : Int)).sum
                 (cost : Int) = max 0 (min 65535 sum) ∧ f.getD 1 0 = min 255 (s.awardsOn c).length
                  ∧ f.getD 3 0 = 255 - ((s.teamsOn c).map fun t => budgetOf t.2.roles).sum
                  ∧ f.getD 5 0 = (if c % 36 ∈ [0, 5, 30, 35] then 1 else 0) ∧ f.getD 7 0 = 1))
    ∧ (s.bell.window = some z → z.winner = none → 17 ≤ z.cycle →
        (z.bids = [] → exec .bidWindowClose s = .next { s with bell := { s.bell with window := none, head := some z.task, stalled := true } })
        ∧ (z.bids ≠ [] → ∃ k, exec .bidWindowClose s = .next { s with bell := { s.bell with window := some { z with winner := some k } } }
            ∧ ∃ cost, (k, cost) ∈ z.bids ∧ ∀ p ∈ z.bids, cost < p.2 ∨ (cost = p.2 ∧ ((k : Int) - z.task.serial.toNat) % 288 ≤ ((p.1 : Int) - z.task.serial.toNat) % 288)))
    ∧ (s.bell.window = some z → z.winner = some c → z.task.launch = l → z.task.node = n →
        (s.fitsOn c x.asid z.task.prio r.header Less.none = some b →
          exec .awardAccept s = .next { s with ready := s.ready ++ [{ z.task with awarded := some (c, b) }], bell := { s.bell with window := none } })
        ∧ (s.fitsOn c x.asid z.task.prio r.header Less.none = none →
          exec .awardAccept s = .next { s with bell := { s.bell with window := none, head := some z.task } }))

end Sys2Proof.Claims

/-! ## Events of the Drover and of the Bellwether -/

/-- R335 to R350: what each event of a Drover thread, of the placement of teams and of a bid window does. -/
def Obligations.LaunchAndPlacementResults : Prop := Sys2Proof.Claims.LaunchCommandResults ∧ Sys2Proof.Claims.PlacementAndBidResults

/-! ## Events of pre-emption -/

/-- R345, R351, R366, R370 to R373: an urgent team goes to the reserve core with the most free blocks where it fits, else to the lowest core where it fits, else an accepted award is undone for it, else the least eviction is asked for, which takes no group of prio 10 or 11; a gang is placed whole or not at all; under an invalid context record none is placed (log 74). A group that is to be evicted is saved at its boundary, and what its paths executed executes again; the last one takes its team with it, whose entries become absent once its stream has stopped. A restored team has its place on its core again and its groups and stream go on; a group returns to its own core, on the quadrant with the fewest groups, where its role's budget holds its blocks, and the core's L1 lines go (R216). -/
def Obligations.PreemptionEventResults : Prop :=
  ∀ (s u : State) (k g i c b tk tg : Nat) (e a : ReadyTeam) (x y : Launch) (r : NodeRun) (p : Sys2Proof.Machine.EvictPlan) (z : Hart),
    let id := HartId.group k g
    let h := s.hartOf id
    let team := s.teamOf k
    let fits := fun (d q : Nat) => s.roomOn d x.asid e.prio r.header Less.evicted = some q
    let nowhere := ∀ d < 288, s.roomOn d x.asid e.prio r.header Less.evicted = none
    let first := fun (prio : Nat) => s.higherFirst prio = false ∧ s.higherBack prio = false
    let saved := fun (q q' : Path) => q'.replay = (q.replay || (q.active && (q.susp.isSome || q.stalled))) ∧ q'.susp = none ∧ q'.issuing = false ∧ q'.pc = q.pc ∧ q'.lanes = q.lanes ∧ q'.emask = q.emask ∧ q'.clause = q.clause
    let others := ∃ j ∈ s.liveGids k, j ≠ g ∧ (s.hartOf (.group k j)).evicted = false
    let last := ∀ j ∈ s.liveGids k, j ≠ g → (s.hartOf (.group k j)).evicted = true
    let leaving := s.setHartOf id { h with p0 := { h.p0 with replay := h.p0.replay || (h.p0.active && (h.p0.susp.isSome || h.p0.stalled)) },
                                           p1 := { h.p1 with replay := h.p1.replay || (h.p1.active && (h.p1.susp.isSome || h.p1.stalled)) } }
    let roleBlocks := fun (n : Nat) => (((s.liveGids k).filter fun j => (s.hartOf (.group k j)).role == n).map
      fun j => popcount (s.hartOf (.group k j)).held.toNat 4).sum
    let goneWhole := fun (t : State) => (t.teamOf k).absent = true ∧ ∀ c, ∀ q ∈ (t.coreOf c).ports, q.valid = true → q.team = k → q.absent = true
    (s.ready[i]? = some e → e.awarded = none → mfind e.launch s.launches = some x → x.nodes[e.node]? = some r → s.poolPending = false →
      (∀ z ∈ s.ready, z.awarded = none → z.prio = e.prio → e.order ≤ z.order) → s.higherFirst e.prio = false →
      (10 ≤ e.prio → (s.ctx x.asid).valid = false → exec (.urgentPlace i) s = .next (s.refusePlace e.launch e.node))
      ∧ (10 ≤ e.prio → r.header.gang = false → s.spillRoom x.asid r.header = true → s.imagesAsk (nodeKey e.launch e.node) x.asid r.header = [] →
        (c < 288 → fits c b →
          ((c % 36 ∈ [0, 5, 30, 35] ∧ ∀ d < 288, d % 36 ∈ [0, 5, 30, 35] → ∀ q, fits d q → s.freeBlocks d ≤ s.freeBlocks c ∧ (d < c → s.freeBlocks d < s.freeBlocks c))
            ∨ ((∀ d < 288, d % 36 ∈ [0, 5, 30, 35] → s.roomOn d x.asid e.prio r.header Less.evicted = none)
                ∧ ∀ d < c, s.roomOn d x.asid e.prio r.header Less.evicted = none)) →
          ∃ t, exec (.urgentPlace i) s = .next t ∧ Sys2Proof.Claims.Placed s t e r x.asid c b
            ∧ t.ready = if e.left ≤ 1 then removeAt i s.ready else modifyAt (fun z => { z with tid := z.tid + 1, left := z.left - 1, serial := z.serial + 1 }) i s.ready)
        ∧ (nowhere → s.ready = [e, a] → i = 0 → a.awarded ≠ none → a.prio < 10 → a.launch ≠ e.launch → (s.undoAward 1).spot e = some (c, b) →
            ∃ t, exec (.urgentPlace i) s = .next t ∧ (t.teamOf s.nextTeam).core = c ∧ (t.teamOf s.nextTeam).pbase = b ∧ (t.teamOf s.nextTeam).live = true
              ∧ (a.withdrawals = 0 → { a with awarded := none, withdrawals := 1 } ∈ t.bell.queue)
              ∧ (a.withdrawals = 1 → mfind a.launch s.launches = some y → y.tenderer = some (tk, tg) → (s.hartOf (.group tk tg)).live = true → tk ≠ s.nextTeam →
                  (s.hartOf (.group tk tg)).causes.length < 8 → { a with awarded := none, withdrawals := 2 } ∈ t.ready ∧ t.bell.queue = s.bell.queue
                    ∧ (t.hartOf (.group tk tg)).causes = (s.hartOf (.group tk tg)).causes ++ [⟨.bidWithdrawn, a.serial.setWidth 64 ||| 0x8000000000000000, none⟩]))
        ∧ (nowhere → (∀ z ∈ s.ready, z.awarded = none) → s.evicting = false → c < 288 → s.planOn c x.asid r.header = some p →
            (∀ d < 288, ∀ q, s.planOn d x.asid r.header = some q → p.cost ≤ q.cost ∧ (d < c → p.cost < q.cost)) →
            exec (.urgentPlace i) s = .next (s.askEviction p) ∧ p.core = c
              ∧ s.groupRoom c r.header.need p.less = true ∧ s.teamRoom c r.header.need p.less = true ∧ (s.freeUnits c x.asid r.header.units p.less).isSome = true
              ∧ (∀ z ∈ p.less.groups, ∃ m, (z.1, m) ∈ s.teams ∧ m.prio < 10 ∧ m.core = c)
              ∧ (∀ z ∈ p.less.teams, ∃ m, (z, m) ∈ s.teams ∧ m.prio < 10 ∧ m.core = c)
              ∧ (p.less.teams = [] → ∃ t, exec (.urgentPlace i) s = .next t ∧ t = { s with harts := t.harts }
                  ∧ ∀ k g, t.hartOf (.group k g) = { s.hartOf (.group k g) with evictAsked := (s.hartOf (.group k g)).evictAsked || decide ((k, g) ∈ p.less.groups) })))
      ∧ (10 ≤ e.prio → r.header.gang = true → (s.ctx x.asid).valid = true → s.imagesAsk (nodeKey e.launch e.node) x.asid r.header = [] →
          ((s.placeGang e).2 = true → exec (.urgentPlace i) s = .next ((s.placeGang e).1.forgetDevice (nodeKey e.launch e.node)))
          ∧ ((s.placeGang e).2 = false → (∀ z ∈ s.ready, z.awarded = none) → s.evicting = false → (s.placeGang e).1.planFor e = some p →
              exec (.urgentPlace i) s = .next (s.askEviction p))))
    ∧ (h.live = true → h.evicted = false → (h.evictAsked = false ∨ h.evictable = false) → exec (.groupEvict k g) s = .next s)
    ∧ (h.live = true → h.evicted = false → h.evictAsked = true → h.evictable = true → h.region = none → g < 32 → team.absent = false → s.posted = [] →
      (leaving.saveGroup k g = .ok u →
        ∃ t, exec (.groupEvict k g) s = .next t
          ∧ (let q := t.hartOf id
             q.evicted = true ∧ q.evictAsked = false ∧ q.live = true ∧ q.s = h.s ∧ q.v = h.v ∧ q.m = h.m ∧ q.held = h.held ∧ saved h.p0 q.p0 ∧ saved h.p1 q.p1)
          ∧ ((∀ q ∈ (s.coreOf team.core).hold, q.team ≠ k) → ∀ j, j ≠ id → t.hartOf j = s.hartOf j)
          ∧ ((s.coreOf team.core).spare = some (k, g) → (t.coreOf team.core).spare = none)
          ∧ (others → t.mem = u.mem ∧ (t.teamOf k).absent = false)
          ∧ (last → team.seq.st = .running → (t.teamOf k).absent = false ∧ (t.teamOf k).seq = { team.seq with evictAsked := true })
          ∧ (last → team.seq.st ≠ .running → (∀ q ∈ (s.coreOf team.core).hold, q.team ≠ k) → goneWhole t
              ∧ (∀ q ∈ (t.coreOf team.core).segs, q.team ≠ k) ∧ (∀ q ∈ (t.coreOf team.core).dirs, q.team ≠ k)))
      ∧ (∀ ce, leaving.saveGroup k g = .error ce → ∃ t, exec (.groupEvict k g) s = .next t ∧ (t.hartOf id).live = false))
    ∧ (s.takesBack k c = some b → first team.prio → team.bounced = [] → s.ringReady k = true →
        (∀ j ∈ s.liveGids k, roleBlocks (s.hartOf (.group k j)).role ≤ team.budgetOf (s.hartOf (.group k j)).role) → ∃ t, exec (.teamRestore k c) s = .next t
        ∧ (∀ j ∈ s.liveGids k, (t.hartOf (.group k j)).evicted = false ∨ (t.hartOf (.group k j)).live = false)
        ∧ ((t.teamOf k).live = true → (t.teamOf k).absent = false ∧ (t.teamOf k).core = c ∧ (t.teamOf k).pbase = b ∧ (t.teamOf k).wbase = team.wbase
            ∧ (team.seq.st = .saved → (t.teamOf k).seq.st = .running)
            ∧ (s.entryOf k ≠ none → ∃ q ∈ (t.coreOf c).ports, q.team = k ∧ q.pbase = b)))
    ∧ (team.live = true → team.absent = false → (s.ctx team.asid).valid = true → g ∈ s.liveGids k → h.evicted = true →
        s.groupRoom team.core ⟨1, popcount h.held.toNat 4, 0⟩ Less.evicted = true → s.blocksBack k g = true →
        (∀ j ∈ s.liveGids k, j < g → (s.hartOf (.group k j)).evicted = true →
          s.groupRoom team.core ⟨1, popcount (s.hartOf (.group k j)).held.toNat 4, 0⟩ Less.evicted = false ∨ s.blocksBack k j = false) →
        first team.prio → s.loadGroup k g = .ok z → z.region = none →
        ∃ q < 4, exec (.groupRestore k) s = .next ((s.setHartOf id { z with quad := q, evicted := false }).setCoreOf team.core { s.coreOf team.core with l1 := [] })
          ∧ ∀ n < 4, let load := s.quadLoad team.core Less.evicted
              load.getD q 0 ≤ load.getD n 0 ∧ (n < q → load.getD q 0 < load.getD n 0))

/-! ## Events of the service -/

/-- R333, R336, R419 to R428: writing a descriptor maps an unmapped queue or unmaps a mapped one without live work; the other registers of the control space take their values; `shasid` is set. The boot ROM verifies each image by the rows of R420, stops at the first that fails with a BOOT entry and FAULT low, starts the resident service at its entry address, and opens the ports at the end; a device that is not the manager waits for a device number and a route. An incoming RMA or send of a mapped queue acts under the queue's ASID and is answered, at once or when what it sends to other devices is acknowledged, an unsupported packet is counted. A quote takes the next one-time key. A Muster writes its summary and changes nothing else; a second request is refused. The Stopwatch freezes and resumes; heat lowers the clock or freezes the device. The reason's code in an entry is log 40, where an image lies is log 41, an RMA's answer log 43, the places in a record of a summary log 44. -/
def Obligations.ServiceEventResults : Prop :=
  ∀ (s v : State) (q hart core i k asid : Nat) (desc : BitVec 256) (reg : BitVec 512) (x : BitVec 64) (images : List Sys2Proof.BootImage) (f : Sys2Proof.Machine.ImageFault)
    (data bs : List Byte) (addr a : BitVec 64) (ce : Cause) (us : UeService) (nonce : BitVec 256) (celsius : Nat) (reqs : List (Nat × Nat)),
    let d := s.queueOf q
    let w := s.service
    let im := fun (k : Nat) => images.getD k default
    let image := im k
    let fld := fun (p n : Nat) => leNat ((image.header.drop p).take n)
    let isOpen := w.boot = .open ∧ q < 32 ∧ d.lsize ≠ 0
    let replied := fun (t : State) (bs : List Byte) => exec (.ueRmaWrite q addr data) s = .next { t with service := { t.service with ueReply := bs } }
    let at_ := d.ring.toNat + 64 * (d.windex.toNat % 2 ^ d.lsize)
    (q < 32 →
      let lsize := (desc.extractLsb' 0 4).toNat
      (d.lsize = 0 → lsize ≠ 0 → ∃ t, exec (.queueDescriptorWrite q desc) s = .next t ∧ (t.drover q).st = .idle
          ∧ t.queueOf q = { windex := desc.extractLsb' 224 32, rindex := desc.extractLsb' 192 32, asid := (desc.extractLsb' 128 12).toNat, ridx := desc.extractLsb' 64 64,
                            ring := desc.extractLsb' 0 64 &&& ~~~0xFF, maxprio := (desc.extractLsb' 4 4).toNat, lsize := lsize }
          ∧ ∀ n, n ≠ q → t.queueOf n = s.queueOf n ∧ t.drover n = s.drover n)
      ∧ (d.lsize ≠ 0 → lsize = 0 → s.liveOf q = 0 → (s.drover q).st ≠ .full → exec (.queueDescriptorWrite q desc) s = .next (s.setQueue q { d with lsize := 0 }))
      ∧ (d.lsize ≠ 0 → (lsize ≠ 0 ∨ s.liveOf q ≠ 0 ∨ (s.drover q).st = .full) → exec (.queueDescriptorWrite q desc) s = .next s))
    ∧ exec (.controlSpaceWrite .contextBase reg) s = .next { s with service := { w with ctxBase := reg.extractLsb' 0 64 } }
    ∧ exec (.controlSpaceWrite .sidecarBase reg) s = .next { s with service := { w with sidecar := reg.extractLsb' 0 64 } }
    ∧ exec (.controlSpaceWrite .errorLog reg) s = .next { s with service := { w with logBase := reg.extractLsb' 0 64, logSize := reg.extractLsb' 64 64 } }
    ∧ (∃ t, exec (.controlSpaceWrite (.key asid) reg) s = .next t ∧ mget 0 asid t.service.keys = reg ∧ ∀ n, n ≠ asid → mget 0 n t.service.keys = mget 0 n w.keys)
    ∧ (∃ t, exec (.controlSpaceWrite (.haltOnDbg asid) reg) s = .next t
        ∧ ∀ n, n ∈ t.service.haltDbg ↔ if n = asid then reg.getLsbD 0 = true else n ∈ w.haltDbg)
    ∧ (core < 288 → i < 16 → ∃ t e, exec (.controlSpaceWrite (.portEntry core i) reg) s = .next t ∧ (t.coreOf core).ports[i]? = some e
        ∧ e.valid = reg.getLsbD 0 ∧ e.absent = reg.getLsbD 1 ∧ e.pbase = (reg.extractLsb' 27 8).toNat ∧ e.size = (reg.extractLsb' 35 9).toNat
        ∧ e.wbase = (reg.extractLsb' 44 8).toNat ∧ e.asid = (reg.extractLsb' 52 12).toNat ∧ e.ring.toNat = (reg.extractLsb' 72 50).toNat * 64
        ∧ ∀ n, n ≠ core → t.coreOf n = s.coreOf n)
    ∧ (hart < 16 → ∃ t, exec (.shasidWrite hart x) s = .next t ∧ mget 0 hart t.shasid = x ∧ ∀ n, n ≠ hart → mget 0 n t.shasid = mget 0 n s.shasid)
    ∧ (16 ≤ hart → exec (.shasidWrite hart x) s = .next s)
    ∧ (let rows := image.header.length = 128 ∧ fld 0 4 = 0x53485246 ∧ fld 4 1 = k ∧ fld 5 3 = 0 ∧ (Config.fusedVersion k).toNat ≤ fld 8 4
          ∧ fld 12 4 = image.body.length ∧ fld 12 4 % 64 = 0 ∧ fld 12 4 ≤ 2 ^ 28 ∧ fld 16 8 ≤ fld 24 8 ∧ fld 24 8 < fld 16 8 + fld 12 4 ∧ fld 64 32 = 0
          ∧ BitVec.ofNat 256 (fld 96 32) = Config.fusedKey k
       let digest := BitVec.ofNat 256 (fld 32 32) = Config.sha256 image.body
       let signed := image.signature.length = 2668 ∧ Config.lmsVerifies k (image.header.take 96 ++ image.body) image.signature = true
       (imageFault k image = some .header ↔ ¬ rows) ∧ (imageFault k image = some .digest ↔ rows ∧ ¬ digest)
        ∧ (imageFault k image = some .signature ↔ rows ∧ digest ∧ ¬ signed) ∧ (imageFault k image = none ↔ rows ∧ digest ∧ signed))
    ∧ (w.boot = .reset → w.digests.length = 3 →
      let clean := fun (t : State) => t.harts = [] ∧ t.teams = [] ∧ t.cores = [] ∧ t.banks = [] ∧ t.queues = s.queues ∧ t.launches = s.launches
      let kept := fun (t : State) (n : Nat) => ∀ j < 3, t.service.digests.getD j 0 = if j < n then BitVec.ofNat 256 (leNat (((im j).header.drop 32).take 32)) else w.digests.getD j 0
      (k < 2 → (∀ j < k, imageFault j (im j) = none) → imageFault k image = some f → ∀ m, ∃ t, exec (.boot images m) s = .next t ∧ t.service.boot = .failed k
          ∧ t.service.faultPin = true ∧ Sys2Proof.Claims.Logged s t 0 (f.code.setWidth 8) k 0 ∧ clean t ∧ kept t k)
      ∧ ((∀ j < 2, imageFault j (im j) = none) →
          (∃ t, exec (.boot images false) s = .next t ∧ t.service.boot = .awaitManager ∧ clean t ∧ kept t 2
              ∧ (t.shepherd 0).pc = BitVec.ofNat 64 (leNat (((im 1).header.drop 24).take 8)))
          ∧ (imageFault 2 (im 2) = some f → ∃ t, exec (.boot images true) s = .next t ∧ t.service.boot = .failed 2 ∧ t.service.faultPin = true
              ∧ Sys2Proof.Claims.Logged s t 0 (f.code.setWidth 8) 2 0 ∧ clean t ∧ kept t 2)
          ∧ (imageFault 2 (im 2) = none → ∃ t, exec (.boot images true) s = .next t ∧ t.service.boot = .open ∧ clean t ∧ kept t 3)))
    ∧ (w.boot = .awaitManager → ∀ m, (s.fabric.routes = [] ∨ s.fabric.numbered = false → exec (.boot images m) s = .next s)
        ∧ (s.fabric.routes ≠ [] → s.fabric.numbered = true → exec (.boot images m) s = .next { s with service := { w with boot := .open } }))
    ∧ (¬ isOpen → exec (.ueRmaWrite q addr data) s = .next s ∧ exec (.ueRmaRead q addr k) s = .next s ∧ exec (.ueSend q reg) s = .next s)
    ∧ (isOpen →
      (s.spanOk d.asid .write addr.toNat data.length = true → s.vwrite d.asid false addr.toNat data = .ok v →
          if s.sentSince v = [] then replied v [0]
          else exec (.ueRmaWrite q addr data) s = .next { v with service := { v.service with ueWorks := v.service.ueWorks ++ [.write (s.sentSince v)] } })
      ∧ ((s.spanOk d.asid .write addr.toNat data.length = false ∨ s.vwrite d.asid false addr.toNat data = .error ce) → replied s [1])
      ∧ (s.vfetch s.ueKey d.asid false addr.toNat k = .ok bs → exec (.ueRmaRead q addr k) s = .next (({ s with service := { w with ueReply := 0 :: bs } } : State).forgetDevice s.ueKey))
      ∧ (s.vfetch s.ueKey d.asid false addr.toNat k = .error (.fault ce) → exec (.ueRmaRead q addr k) s = .next (({ s with service := { w with ueReply := [1] } } : State).forgetDevice s.ueKey))
      ∧ (s.vfetch s.ueKey d.asid false addr.toNat k = .error (.ask reqs) →
          exec (.ueRmaRead q addr k) s = .next (({ s with service := { w with ueWorks := w.ueWorks ++ [.read s.ueKey q addr.toNat k] } } : State).askDevice s.ueKey d.asid reqs))
      ∧ ((∃ e ∈ w.ueWorks, e.sendsTo q = true) → exec (.ueSend q reg) s = .next { s with service := { w with ueWorks := w.ueWorks ++ [.send q reg none] } })
      ∧ ((∀ e ∈ w.ueWorks, e.sendsTo q = false) → 2 ^ d.lsize < (d.windex + 1 - d.rindex).toNat →
          exec (.ueSend q reg) s = .next { s with service := { w with ueReply := [1] } })
      ∧ ((∀ e ∈ w.ueWorks, e.sendsTo q = false) → (d.windex + 1 - d.rindex).toNat ≤ 2 ^ d.lsize →
          s.vwrite d.asid false at_ (leBytes 64 reg.toNat) = .ok v → s.sentSince v = [] →
          ∃ t, exec (.ueSend q reg) s = .next t ∧ t.queueOf q = { d with windex := d.windex + 1 } ∧ t.waits = s.waits ++ [(q, d.windex + 1)]
            ∧ t.mem = v.mem ∧ t.service.ueReply = [0])
      ∧ ((∀ e ∈ w.ueWorks, e.sendsTo q = false) → (d.windex + 1 - d.rindex).toNat ≤ 2 ^ d.lsize →
          (s.vwrite d.asid false at_ (leBytes 64 reg.toNat) = .ok v → s.sentSince v ≠ [] →
            exec (.ueSend q reg) s = .next { v with service := { v.service with
              ueWorks := v.service.ueWorks ++ [.send q reg (some (d.windex + 1, s.sentSince v))] } })
          ∧ (s.vwrite d.asid false at_ (leBytes 64 reg.toNat) = .error ce → exec (.ueSend q reg) s = .next { s with service := { w with ueReply := [1] } })))
    ∧ exec (.ueUnsupportedPacket us) s = .next { s with service := { w with ueDropped := w.ueDropped + 1 } }
    ∧ (let n := w.oneTime
       (32768 ≤ n → exec (.attestationQuote nonce) s = .next s)
       ∧ (n < 32768 → ∃ (t : State) (m : List Byte), exec (.attestationQuote nonce) s = .next t ∧ t = { s with service := { w with oneTime := n + 1, quote := m ++ Config.lmsSign n m } }
          ∧ m.length = 148 ∧ m.take 4 = leBytes 4 0x51534B39 ∧ (m.drop 4).take 4 = leBytes 4 n ∧ (m.drop 8).take 4 = leBytes 4 (32767 - n)
          ∧ (m.drop 12).take 4 = leBytes 4 s.fabric.device.toNat ∧ (m.drop 16).take 32 = leBytes 32 nonce.toNat
          ∧ ∀ j < 3, (m.drop (48 + 32 * j)).take 32 = leBytes 32 (w.digests.getD j 0).toNat ∧ (m.drop (144 + j)).take 1 = leBytes 1 (Config.fusedVersion j).toNat))
    ∧ (w.mustering = none → exec (.musterRequest addr) s = .next { s with service := { w with muster := addr, mustering := some addr } })
    ∧ (w.mustering = some a → exec (.musterRequest addr) s = .next { s with service := { w with muster := 1 } }
      ∧ ∃ (t : State) (m : List Byte), exec .musterComplete s = .next t
        ∧ t = { s with mem := t.mem, dirty := t.dirty, poisoned := t.poisoned, service := { w with mustering := none } }
        ∧ t.mem = ((s.physPoke (a.toNat + 8) (m.drop 8)).physPoke a.toNat (m.take 8)).mem ∧ 1048 ≤ m.length ∧ m.take 8 = leBytes 8 (2 ^ 63 + m.length)
        ∧ ∀ q < 32, let r := (m.drop (16 + 32 * q)).take 32
            r.take 4 = leBytes 4 (s.queueOf q).rindex.toNat ∧ (r.drop 4).take 4 = leBytes 4 (s.queueOf q).windex.toNat
              ∧ (r.drop 8).take 4 = leBytes 4 (s.queueOf q).asid ∧ (r.drop 12).take 4 = leBytes 4 (s.queueOf q).lsize)
    ∧ exec (.stopwatchWrite 1) s = .next { s with service := { w with frozen := true } }
    ∧ (x ≠ 1 → exec (.stopwatchWrite x) s = .next s)
    ∧ exec .stopwNFall s = .next { s with service := { w with frozen := true } }
    ∧ exec .stopwatchResume s = .next { s with service := { w with frozen := false } }
    ∧ ((105 ≤ celsius ∨ (w.throttling = true ∧ 100 ≤ celsius)) → exec (.thermalThrottle celsius) s = .next { s with service := { w with throttling := true, clock := w.clock - 100 } })
    ∧ (celsius < 100 → exec (.thermalThrottle celsius) s = .next { s with service := { w with throttling := false } })
    ∧ (100 ≤ celsius → celsius < 105 → w.throttling = false → exec (.thermalThrottle celsius) s = .next s)
    ∧ (115 ≤ celsius → exec (.thermalTrip celsius) s = .next { s with service := { w with frozen := true, faultPin := true } })
    ∧ (celsius < 115 → exec (.thermalTrip celsius) s = .next s)

namespace Sys2Proof.Claims
open Sys2Proof.Machine

/-- Nothing stands before the next word: the boot ROM has not stopped, the Stopwatch has not frozen the device, the agenda is empty. -/
def NextWord (s : State) : Prop := (∀ k, s.service.boot ≠ .failed k) ∧ s.service.frozen = false ∧ s.agenda = []

/-- The canonical form of every memory: of the device's, and of each team's allocation and template slots. -/
def MemoryCanonical (s : State) : Prop := s.mem.wf = true ∧ ∀ k t, (k, t) ∈ s.teams → t.mem.wf = true ∧ t.tmpl.wf = true

end Sys2Proof.Claims

/-! ## The decoder, the step, reset, and an invariant -/

/-- R49, R150, R170, R287, R163: the next word of a clause under way, in a group, a bank core or a stream, is checked in the order of R49, traps at the first check that fails, and else is executed as the instruction that it decodes to (a stream's once its formats are features of the grid, and where it lets no other stream's product go first); an instruction or event of the agenda is executed. A frozen device does nothing but resume (R426), and nothing runs once the boot ROM has stopped (R419). The agenda is the model's own (log 45). -/
def Obligations.StepRunsDecodedInstruction : Prop :=
  ∀ (s : State) (c : Clause) (o : OpInfo) (i : Instr) (rest : List Instr) (k : Nat),
    let w : Word32 := c.words.getD (c.idx - 1) 0
    let op := (w.extractLsb' 24 8).toNat
    let final := if o.lit then c.idx + 1 else c.idx
    let placed := final ≤ c.count ∧ (o.transfer = true → final = c.count) ∧ (o.blocking = true → c.idx = 1)
    let l : Word32 := if o.lit then c.words.getD c.idx 0 else 0
    let x := s.path
    let q := s.team.seq
    (Sys2Proof.Claims.NextWord s →
      (s.cur.unit = .group → s.hart.live = true → s.hart.evicted = false → x.active = true → x.issuing = true → x.susp = none → x.stalled = false →
        x.clause = some c →
        ((opInfo c.cls.toNat op = none ∨ (opInfo c.cls.toNat op = some o ∧ c.cls = 7 ∧ 0xF0 ≤ op)) → step s = .next (s.stopped (trapOf .illegalOp 0)))
        ∧ (opInfo c.cls.toNat op = some o → ¬ (c.cls = 7 ∧ 0xF0 ≤ op) →
          (s.team.feat.getLsbD o.feat = false → step s = .next (s.stopped (trapOf .featureAbsent 0)))
          ∧ (s.team.feat.getLsbD o.feat = true → ¬ placed → step s = .next (s.stopped (trapOf .illegalClause 0)))
          ∧ (s.team.feat.getLsbD o.feat = true → placed → decodeWord false c.cls w l = none → step s = .next (s.stopped (trapOf .illegalOp 0)))
          ∧ (s.team.feat.getLsbD o.feat = true → placed → decodeWord false c.cls w l = some i → step s = exec i s)))
      ∧ (s.cur.unit = .bank → (s.bankOf s.cur.bank).running = true → x.active = true → x.stalled = false → x.clause = some c →
          opInfo c.cls.toNat op = some o → bankAccepts c.cls.toNat op = true → placed → decodeWord true c.cls w l = some i →
          step s = exec i (s.setBankOf s.cur.bank { s.bankOf s.cur.bank with chunk := false }))
      ∧ (s.cur.unit = .stream → q.st = .running → q.fault = none → q.stopAsked = false → q.stalled = false → q.clause = some c →
          s.streamYields = false → opInfo c.cls.toNat op = some o → ¬ (c.cls = 7 ∧ 0xF0 ≤ op) →
          ((s.team.feat.getLsbD o.feat = false ∨ s.team.formatsOk = false) → step s = .next (s.seqStopped s.cur.team (trapOf .featureAbsent 0)))
          ∧ (s.team.feat.getLsbD o.feat = true → s.team.formatsOk = true → placed → decodeWord false c.cls w l = some i → step s = exec i s)))
    ∧ ((∀ k, s.service.boot ≠ .failed k) → s.agenda = i :: rest →
        (s.service.frozen = false → step s = exec i { s with agenda := rest })
        ∧ (s.service.frozen = true → i ≠ .stopwatchResume → step s = .next { s with agenda := rest })
        ∧ (s.service.frozen = true → i = .stopwatchResume → step s = exec i { s with agenda := rest }))
    ∧ ((∀ k, s.service.boot ≠ .failed k) → s.agenda = [] → s.service.frozen = true → step s = .next s)
    ∧ (s.service.boot = .failed k → step s = .fault .bootStopped)

/-- R44, R45: the codes of integer types and of scopes; and words that the spec writes out (spec/02, 03, 04, 05, 06, 07, 10, 12, 18, 19) decode to the instructions that it gives for them. -/
def Obligations.DecodingReadsTheSpecsWords : Prop :=
  let w := decodeWord false
  let off : MemM := ⟨.l, 0⟩
  (∀ m : BitVec 3, ((IntTy.ofBits m).nat = true ↔ 4 ≤ m.toNat) ∧ (IntTy.ofBits m).width.toNat = m.toNat % 4)
  ∧ [0, 1, 2, 3, 4, 5, 6, 7].map Scope.ofBits = [some .grp, some .team, some .die, some .dev, some .sys, none, none, none]
  ∧ w 0 0x17080004 0 = some (.li ⟨2, false⟩ 4)
  ∧ w 0 0x00040413 0 = some (.add ⟨1, false⟩ (.reg 1) (.reg 2) ⟨false, 3⟩)
  ∧ w 0 0x01080B8B 0 = some (.sub ⟨2, false⟩ (.reg 2) (.const 0x11) ⟨false, 3⟩)
  ∧ w 0 0x23010000 0 = some (.brnz (.latch 0) 0)
  ∧ w 0 0x2B000000 0 = some .exit
  ∧ w 0 0x25FC0000 13 = some (.call ⟨63, false⟩ 13)
  ∧ w 2 0x01000C0F 0x40000000 = some (.st (.reg 3) (.reg 1) ⟨true, 3⟩ off)
  ∧ w 1 0x41100C02 0 = some (.setvli ⟨4, false⟩ (.reg 3) 2)
  ∧ w 2 0x04000400 0x40000000 = some (.vld ⟨0, false⟩ (.reg 1) .none off)
  ∧ w 1 0x14200390 0 = some (.vfma ⟨8, false⟩ (.reg 0) (.const 0x12) false .none)
  ∧ w 2 0x02141807 0x18000008 = some (.ldaq ⟨5, false⟩ (.reg 6) ⟨true, 3⟩ ⟨.g, .dev, 8⟩)
  ∧ w 2 0x13101B8B 0x18000000 = some (.amo ⟨4, false⟩ (.reg 6) (.const 0x11) ⟨false, 3⟩ ⟨.g, .dev, .add, 0⟩)
  ∧ w 2 0x1B000003 0 = some (.fence .dev)
  ∧ w 3 0x00000818 0x00000048 = some (.mma 0 (.reg 2) (.reg 3) ⟨0, 0, true, false, 8⟩)
  ∧ w 3 0x05001029 0x40000000 = some (.mdrain 0 (.reg 4) (.reg 5) 1 false off)
  ∧ w 4 0x03000011 0 = some (.waitc 2 1)
  ∧ w 6 0x04241B88 0 = some (.syncw ⟨9, false⟩ (.reg 6) (.const 0x11))
  ∧ w 6 0x0C11F000 0 = some (.blkacq ⟨4, false⟩ (.const 0x1C) false)
  ∧ w 7 0x07001398 0 = some (.cbld (.reg 4) (.const 0x13))
  ∧ w 7 0x06001028 0 = some (.tlbinv (.reg 4) (.reg 5))
  ∧ decodeSubmit 0x00C5850B = some (.submit 12 11 10)

/-- R36 to R46, R50, R51, R218, R336: every well-formed instruction is the one that its words decode to, whatever stands after a word that takes no literal; the opcode map says of its opcode whether a literal follows; an instruction that a bank core accepts decodes there as well, and those of class 7 from 0xF0 on only there. -/
def Obligations.DecodeInvertsEncode : Prop :=
  (∀ (i : Instr) (e : Enc) (x : Word32), encodeFields i = some e → i.wf = true →
    let l := e.lit.getD x
    let own := e.cls = 7 ∧ 0xF0 ≤ e.raw.op.toNat
    (¬ own → decodeWord false e.cls e.raw.toWord l = some i) ∧ (own → decodeWord false e.cls e.raw.toWord l = none)
      ∧ (i.bankOk = true → decodeWord true e.cls e.raw.toWord l = some i)
      ∧ (opInfo e.cls.toNat e.raw.op.toNat).map OpInfo.lit = some e.lit.isSome
      ∧ encode i = e.raw.toWord :: e.lit.toList)
  ∧ ∀ a b d : BitVec 5, encode (.submit a b d) = [encodeSubmit a b d] ∧ decodeSubmit (encodeSubmit a b d) = some (.submit a b d)

/-- Every step keeps the canonical form of every memory: addresses rise and no entry holds the value that an unlisted address reads as (the model's own form of R4's memories, log 1). -/
def Obligations.StepKeepsMemoryCanonical : Prop :=
  ∀ s t : State, Sys2Proof.Claims.MemoryCanonical s → step s = .next t → Sys2Proof.Claims.MemoryCanonical t

/-- R7, R204, R285, R333, R356, R360, R396, R419, R428: after reset no queue is mapped and every field of its descriptor is 0, no path of the fabric is usable, no port translation entry is valid, W is 96 and every bid weight is 0, the boot ROM has not begun, and nothing is resident. Memory is in its canonical form and reads as 0, and the registers that the spec gives no reset value read as 0 (the model's choice, logs 1 and 2). -/
def Obligations.ResetLeavesTheSpecifiedState : Prop :=
  let s := State.reset
  (∀ q, s.queueOf q = ⟨0, 0, 0, 0, 0, 0, 0⟩ ∧ (s.drover q).st = .idle)
    ∧ (∀ d p, mget 0 (d * 4 + p) s.fabric.routes = 0 ∧ s.fabric.usable d p = false)
    ∧ (∀ c, (s.coreOf c).ports = [] ∧ (s.coreOf c).hold = [] ∧ (s.coreOf c).fold = none ∧ (s.coreOf c).l1 = [] ∧ (s.coreOf c).tlb = [])
    ∧ s.bell.length = 96 ∧ (∀ n, mget 0 n s.bell.tables = 0) ∧ s.bell.serial = 0
    ∧ s.service.boot = .reset ∧ s.service.frozen = false ∧ s.service.faultPin = false ∧ s.service.clock = 2500
    ∧ (∀ k, (s.teamOf k).live = false ∧ s.liveGids k = []) ∧ (∀ i, (s.hartOf i).live = false) ∧ (∀ b, (s.bankOf b).running = false)
    ∧ s.fullRows = [] ∧ s.launches = [] ∧ s.ready = [] ∧ s.waits = [] ∧ s.net = [] ∧ s.posted = [] ∧ s.reads = [] ∧ s.shepherds = []
    ∧ s.fabric.wire = [] ∧ s.fabric.unacked = [] ∧ s.fabric.asks = [] ∧ s.fabric.runs = [] ∧ s.fabric.parked = [] ∧ s.fabric.arrived = [] ∧ s.fabric.colls = [] ∧ s.fabric.fsJobs = [] ∧ s.fabric.fsHeld = []
    ∧ Sys2Proof.Claims.MemoryCanonical s ∧ (∀ a, s.mem.byte a = 0) ∧ (∀ h, mget 0 h s.shasid = 0 ∧ mget 0 h s.xregs = 0)
end

