-- ==== Sys2Proof/Laws/Encode.lean ====
section
/-! SUPPORT. Reading a field of concatenated bits, and that every operand field and every literal layout is read back as it was written (R40, R44, R45, R218 and the literals of the entries). -/

set_option linter.unusedSimpArgs false

namespace Sys2Proof.Laws

theorem extract_low {a b n s : Nat} (x : BitVec a) (y : BitVec b) (h : s + n ≤ b) : (x ++ y).extractLsb' s n = y.extractLsb' s n := by
  apply BitVec.eq_of_getLsbD_eq; intro i hi
  simp only [BitVec.getLsbD_extractLsb', BitVec.getLsbD_append]
  simp [hi, show s + i < b by omega]
theorem extract_high {a b n s : Nat} (x : BitVec a) (y : BitVec b) (h : b ≤ s) : (x ++ y).extractLsb' s n = x.extractLsb' (s - b) n := by
  apply BitVec.eq_of_getLsbD_eq; intro i hi
  simp only [BitVec.getLsbD_extractLsb', BitVec.getLsbD_append]
  simp [hi, show ¬ (s + i < b) by omega, show s + i - b = s - b + i by omega]
theorem extract_all {a : Nat} (x : BitVec a) : x.extractLsb' 0 a = x := by
  apply BitVec.eq_of_getLsbD_eq; intro i hi; simp [hi]
theorem bit_low {a b s : Nat} (x : BitVec a) (y : BitVec b) (h : s < b) : (x ++ y).getLsbD s = y.getLsbD s := by simp [BitVec.getLsbD_append, h]
theorem bit_high {a b s : Nat} (x : BitVec a) (y : BitVec b) (h : b ≤ s) : (x ++ y).getLsbD s = x.getLsbD (s - b) := by
  simp [BitVec.getLsbD_append, show ¬ (s < b) by omega]
theorem bit_one (b : Bool) : (BitVec.ofBool b).getLsbD 0 = b := by cases b <;> rfl

/-! ## Operand fields -/

@[simp] theorem src_read_back (a : Src) : Src.ofBits a.toBits = some a := by
  cases a with
  | reg n => revert n; decide
  | latch k => revert k; decide
  | const c => revert c; decide
@[simp] theorem intTy_read_back (t : IntTy) : IntTy.ofBits t.toBits = t := by rcases t with ⟨n, w⟩; revert n w; decide
@[simp] theorem space_read_back (s : Space) : Space.ofBits s.toBits = some s := by cases s <;> rfl
@[simp] theorem scope_read_back (s : Scope) : Scope.ofBits s.toBits = some s := by cases s <;> rfl
@[simp] theorem atomOp_read_back (o : AtomOp) : AtomOp.ofBits o.toBits = some o := by cases o <;> rfl
@[simp] theorem msel_read_back (k : MSel) : MSel.ofBits k.toBits = k := by cases k <;> rfl
@[simp] theorem brCond_read_back (c : BrCond) : BrCond.ofBits c.toBits = some c := by cases c <;> rfl

/-! ## Literals and words -/

@[simp] theorem memM_read_back (x : MemM) : MemM.ofBits x.toBits = some x := by
  simp (disch := decide) only [MemM.ofBits, MemM.toBits, @extract_low 2 30, @extract_high 2 30]
  simp [extract_all]
@[simp] theorem memS_read_back (x : MemS) : MemS.ofBits x.toBits = some x := by
  simp (disch := decide) only [MemS.ofBits, MemS.toBits, @extract_low 5 27, @extract_high 5 27, @extract_low 2 3, @extract_high 2 3]
  simp [extract_all]
@[simp] theorem memA_read_back (x : MemA) : MemA.ofBits x.toBits = some x := by
  simp (disch := decide) only [MemA.ofBits, MemA.toBits, @extract_low 9 23, @extract_high 9 23, @extract_low 5 4, @extract_high 5 4, @extract_low 2 3, @extract_high 2 3]
  simp [extract_all]
@[simp] theorem memX_read_back (x : MemX) : MemX.ofBits x.toBits = some x := by
  simp (disch := decide) only [MemX.ofBits, MemX.toBits, @extract_low 7 25, @extract_high 7 25, @bit_low 7 25, @bit_high 7 25, @extract_low 5 2, @extract_high 5 2, @bit_low 5 2, @bit_high 5 2, @extract_low 4 1, @extract_high 4 1, @bit_low 4 1, @bit_high 4 1, @extract_low 2 2, @extract_high 2 2, @bit_low 2 2, @bit_high 2 2]
  simp [extract_all, bit_one]
@[simp] theorem memVA_read_back (x : MemVA) : MemVA.ofBits x.toBits = some x := by
  simp (disch := decide) only [MemVA.ofBits, MemVA.toBits, @extract_low 14 18, @extract_high 14 18, @bit_low 14 18, @bit_high 14 18, @extract_low 12 2, @extract_high 12 2, @bit_low 12 2, @bit_high 12 2, @extract_low 11 1, @extract_high 11 1, @bit_low 11 1, @bit_high 11 1, @extract_low 9 2, @extract_high 9 2, @bit_low 9 2, @bit_high 9 2, @extract_low 5 4, @extract_high 5 4, @bit_low 5 4, @bit_high 5 4, @extract_low 2 3, @extract_high 2 3, @bit_low 2 3, @bit_high 2 3]
  simp [extract_all, bit_one]
@[simp] theorem bfLit_read_back (x : BfLit) : BfLit.ofBits x.toBits = some x := by
  simp (disch := decide) only [BfLit.ofBits, BfLit.toBits, @extract_low 26 6, @extract_high 26 6, @bit_low 26 6, @bit_high 26 6, @extract_low 19 7, @extract_high 19 7, @bit_low 19 7, @bit_high 19 7, @extract_low 18 1, @extract_high 18 1, @bit_low 18 1, @bit_high 18 1]
  simp [extract_all, bit_one]
@[simp] theorem mmaLit_read_back (x : MmaLit) : MmaLit.ofBits x.toBits = some x := by
  simp (disch := decide) only [MmaLit.ofBits, MmaLit.toBits, @extract_low 27 5, @extract_high 27 5, @bit_low 27 5, @bit_high 27 5, @extract_low 26 1, @extract_high 26 1, @bit_low 26 1, @bit_high 26 1, @extract_low 25 1, @extract_high 25 1, @bit_low 25 1, @bit_high 25 1, @extract_low 20 5, @extract_high 20 5, @bit_low 20 5, @bit_high 20 5, @extract_low 19 1, @extract_high 19 1, @bit_low 19 1, @bit_high 19 1, @extract_low 5 14, @extract_high 5 14, @bit_low 5 14, @bit_high 5 14]
  simp [extract_all, bit_one]
@[simp] theorem finLit_read_back (x : FinLit) : FinLit.ofBits x.toBits = some x := by
  simp (disch := decide) only [FinLit.ofBits, FinLit.toBits, @extract_low 18 14, @extract_high 18 14, @bit_low 18 14, @bit_high 18 14, @extract_low 14 4, @extract_high 14 4, @bit_low 14 4, @bit_high 14 4, @extract_low 13 1, @extract_high 13 1, @bit_low 13 1, @bit_high 13 1]
  simp [extract_all, bit_one]
@[simp] theorem adpLit_read_back (x : AdpLit) : AdpLit.ofBits x.toBits = some x := by
  simp (disch := decide) only [AdpLit.ofBits, AdpLit.toBits, @extract_low 18 14, @extract_high 18 14, @bit_low 18 14, @bit_high 18 14, @extract_low 8 10, @extract_high 8 10, @bit_low 8 10, @bit_high 8 10, @extract_low 1 7, @extract_high 1 7, @bit_low 1 7, @bit_high 1 7]
  simp [extract_all, bit_one]
@[simp] theorem gathLit_read_back (x : GathLit) : GathLit.ofBits x.toBits = some x := by
  simp (disch := decide) only [GathLit.ofBits, GathLit.toBits, @extract_low 28 4, @extract_high 28 4, @extract_low 16 12, @extract_high 16 12]
  simp [extract_all]
@[simp] theorem gmLit_read_back (x : GmLit) : GmLit.ofBits x.toBits = x := by
  simp (disch := decide) only [GmLit.ofBits, GmLit.toBits, @extract_low 16 16, @extract_high 16 16]
  simp [extract_all]
@[simp] theorem gpLit_read_back (x : GpLit) : GpLit.ofBits x.toBits = x := by
  simp (disch := decide) only [GpLit.ofBits, GpLit.toBits, @extract_low 24 8, @extract_high 24 8, @bit_low 24 8, @bit_high 24 8, @extract_low 16 8, @extract_high 16 8, @bit_low 16 8, @bit_high 16 8, @extract_low 8 8, @extract_high 8 8, @bit_low 8 8, @bit_high 8 8, @extract_low 6 2, @extract_high 6 2, @bit_low 6 2, @bit_high 6 2, @extract_low 5 1, @extract_high 5 1, @bit_low 5 1, @bit_high 5 1, @extract_low 4 1, @extract_high 4 1, @bit_low 4 1, @bit_high 4 1, @extract_low 1 3, @extract_high 1 3, @bit_low 1 3, @bit_high 1 3]
  simp [extract_all, bit_one]
@[simp] theorem tender_read_back (x : BitVec 4) : tenderOfBits (tenderToBits x) = some x := by
  simp (disch := decide) only [tenderOfBits, tenderToBits, @extract_low 16 16, @extract_high 16 16, @extract_low 12 4, @extract_high 12 4]
  simp [extract_all]
/-- The fields of a word are those that it was written from (R36). -/
@[simp] theorem raw_read_back (r : Raw) : Raw.ofWord r.toWord = r := by
  simp (disch := decide) only [Raw.ofWord, Raw.toWord, @extract_low 29 3, @extract_high 29 3, @bit_low 29 3, @bit_high 29 3, @extract_low 22 7, @extract_high 22 7, @bit_low 22 7, @bit_high 22 7, @extract_low 15 7, @extract_high 15 7, @bit_low 15 7, @bit_high 15 7, @extract_low 14 1, @extract_high 14 1, @bit_low 14 1, @bit_high 14 1, @extract_low 8 6, @extract_high 8 6, @bit_low 8 6, @bit_high 8 6]
  simp [extract_all, bit_one]
@[simp] theorem ofImm_op (op : BitVec 8) (d : BitVec 6) (nw : Bool) (a : BitVec 7) (i : BitVec 10) : (Raw.ofImm op d nw a i).op = op := rfl
@[simp] theorem ofImm_d (op : BitVec 8) (d : BitVec 6) (nw : Bool) (a : BitVec 7) (i : BitVec 10) : (Raw.ofImm op d nw a i).d = d := rfl
@[simp] theorem ofImm_nw (op : BitVec 8) (d : BitVec 6) (nw : Bool) (a : BitVec 7) (i : BitVec 10) : (Raw.ofImm op d nw a i).nw = nw := rfl
@[simp] theorem ofImm_a (op : BitVec 8) (d : BitVec 6) (nw : Bool) (a : BitVec 7) (i : BitVec 10) : (Raw.ofImm op d nw a i).a = a := rfl
/-- The immediate of a word is the one that it was written from (R37). -/
@[simp] theorem imm_read_back (op : BitVec 8) (d : BitVec 6) (nw : Bool) (a : BitVec 7) (i : BitVec 10) : (Raw.ofImm op d nw a i).imm = i := by
  show (i.extractLsb' 3 7 ++ i.extractLsb' 0 3 : BitVec 10) = i
  revert i; decide

end Sys2Proof.Laws
end

