-- ==== Sys2Proof/Laws/Mem.lean ====
section
/-! SUPPORT. Memory: reading after writing, and that every memory operation keeps the canonical form. -/

namespace Sys2Proof.Machine

/-! ## The canonical form -/

theorem Mem.above_mono {lo hi : Nat} {m : Mem} (h : lo ≤ hi) (hm : Mem.above hi m = true) : Mem.above lo m = true := by
  cases m with
  | nil => rfl
  | cons c m =>
    simp only [Mem.above, Bool.and_eq_true, decide_eq_true_eq] at hm ⊢
    exact ⟨⟨by omega, hm.1.2⟩, hm.2⟩

theorem Mem.above_put {lo x : Nat} {m : Mem} {v : Byte} (hx : lo ≤ x) (hm : Mem.above lo m = true) : Mem.above lo (m.put x v) = true := by
  induction m generalizing lo with
  | nil =>
    simp only [Mem.put]
    split
    · rfl
    · simp_all [Mem.above]
  | cons c m ih =>
    obtain ⟨a, b⟩ := c
    simp only [Mem.above, Bool.and_eq_true, decide_eq_true_eq, bne_iff_ne, ne_eq] at hm
    simp only [Mem.put]
    split
    · simp only [Mem.above, Bool.and_eq_true, decide_eq_true_eq, bne_iff_ne, ne_eq]
      exact ⟨hm.1, ih (by omega) hm.2⟩
    · split
      · split
        · exact Mem.above_mono (by omega) hm.2
        · subst_vars; simp_all [Mem.above]
      · split
        · simp_all [Mem.above]
        · simp only [Mem.above, Bool.and_eq_true, decide_eq_true_eq, bne_iff_ne, ne_eq]
          exact ⟨⟨hx, by assumption⟩, ⟨by omega, hm.1.2⟩, hm.2⟩

theorem Mem.above_puts {lo x : Nat} {m : Mem} {bs : List Byte} (hx : lo ≤ x) (hm : Mem.above lo m = true) : Mem.above lo (m.puts x bs) = true := by
  induction bs generalizing m x with
  | nil => exact hm
  | cons b bs ih => exact ih (by omega) (Mem.above_put hx hm)

theorem Mem.above_write {lo x : Nat} {m : Mem} {bs : List Byte} (hx : lo ≤ x) (hm : Mem.above lo m = true) : Mem.above lo (m.write x bs) = true := by
  induction m generalizing lo with
  | nil => exact Mem.above_puts hx hm
  | cons c m ih =>
    obtain ⟨a, b⟩ := c
    simp only [Mem.write]
    split
    · simp only [Mem.above, Bool.and_eq_true, decide_eq_true_eq, bne_iff_ne, ne_eq] at hm ⊢
      exact ⟨hm.1, ih (by omega) hm.2⟩
    · exact Mem.above_puts hx hm

/-- A write of one byte keeps the canonical form. -/
theorem Mem.wf_put {m : Mem} {x : Nat} {v : Byte} (hm : m.wf = true) : (m.put x v).wf = true := Mem.above_put (Nat.zero_le _) hm
/-- A write of bytes keeps the canonical form. -/
theorem Mem.wf_puts {m : Mem} {x : Nat} {bs : List Byte} (hm : m.wf = true) : (m.puts x bs).wf = true := Mem.above_puts (Nat.zero_le _) hm
/-- A write of bytes keeps the canonical form. -/
theorem Mem.wf_write {m : Mem} {x : Nat} {bs : List Byte} (hm : m.wf = true) : (m.write x bs).wf = true := Mem.above_write (Nat.zero_le _) hm
@[simp] theorem Mem.wf_nil : Mem.wf [] = true := rfl
/-- The memory of the reset state is in its canonical form. -/
theorem State.reset_mem_wf : State.reset.mem.wf = true := rfl

/-! ## Reading after writing -/

theorem Mem.byte_of_above {lo x : Nat} {m : Mem} (hm : Mem.above lo m = true) (h : x < lo) : m.byte x = unlistedByte := by
  cases m with
  | nil => rfl
  | cons c m =>
    simp only [Mem.above, Bool.and_eq_true, decide_eq_true_eq] at hm
    simp only [Mem.byte]
    rw [if_neg (by omega), if_pos (by omega)]

theorem Mem.byte_put_above {lo x y : Nat} {m : Mem} {v : Byte} (hm : Mem.above lo m = true) :
    (m.put x v).byte y = if y = x then v else m.byte y := by
  induction m generalizing lo with
  | nil =>
    simp only [Mem.put]
    split <;> simp only [Mem.byte] <;> split <;> simp_all <;> (intros; omega)
  | cons c m ih =>
    obtain ⟨a, b⟩ := c
    simp only [Mem.above, Bool.and_eq_true, decide_eq_true_eq, bne_iff_ne, ne_eq] at hm
    have hi := ih hm.2
    have hb := @Mem.byte_of_above (a + 1) y m hm.2
    simp only [Mem.put]
    split
    · simp only [Mem.byte, hi]
      by_cases h1 : a = y
      · simp [h1]; omega
      · by_cases h2 : y < a
        · simp [h1, h2]; omega
        · simp [h1, h2]
    · split
      · subst_vars
        split
        · subst_vars
          by_cases h1 : y = a
          · subst_vars; simp [hb]
          · by_cases h2 : y < a
            · rw [hb (by omega)]; simp [Mem.byte, h1, h2]; omega
            · simp [Mem.byte, h1, h2, Ne.symm h1]
        · by_cases h1 : y = a
          · simp [Mem.byte, h1]
          · simp [Mem.byte, h1, Ne.symm h1]
      · have h3 : x < a := by omega
        split
        · subst_vars
          by_cases h1 : y = x
          · subst_vars; simp [Mem.byte, show ¬ (a = y) by omega, h3]
          · simp [h1]
        · by_cases h1 : y = x
          · simp [Mem.byte, h1]
          · by_cases h2 : y < x
            · simp [Mem.byte, h1, h2, Ne.symm h1, show ¬ (a = y) by omega, show y < a by omega]
            · simp [Mem.byte, h1, h2, Ne.symm h1]

/-- The byte written is read, and every other byte is as it was. -/
theorem Mem.byte_put {x y : Nat} {m : Mem} {v : Byte} (hm : m.wf = true) : (m.put x v).byte y = if y = x then v else m.byte y := Mem.byte_put_above hm

theorem Mem.byte_puts {x y : Nat} {m : Mem} {bs : List Byte} (hm : m.wf = true) :
    (m.puts x bs).byte y = if x ≤ y ∧ y < x + bs.length then bs.getD (y - x) 0 else m.byte y := by
  induction bs generalizing m x with
  | nil => simp [Mem.puts]
  | cons b bs ih =>
    simp only [Mem.puts, ih (Mem.wf_put hm), Mem.byte_put hm, List.length_cons]
    by_cases h1 : y = x
    · subst h1; simp
    · by_cases h2 : x + 1 ≤ y ∧ y < x + 1 + bs.length
      · rw [if_pos h2, if_pos (by omega), show y - x = (y - (x + 1)) + 1 by omega]; simp
      · rw [if_neg h2, if_neg h1, if_neg (by omega)]

theorem Mem.byte_write_above {lo x y : Nat} {m : Mem} {bs : List Byte} (hm : Mem.above lo m = true) :
    (m.write x bs).byte y = if x ≤ y ∧ y < x + bs.length then bs.getD (y - x) 0 else m.byte y := by
  induction m generalizing lo with
  | nil => exact Mem.byte_puts rfl
  | cons c m ih =>
    obtain ⟨a, b⟩ := c
    simp only [Mem.write]
    split
    · simp only [Mem.above, Bool.and_eq_true, decide_eq_true_eq] at hm
      have hi := ih hm.2
      simp only [Mem.byte, hi]
      by_cases h1 : a = y
      · simp [h1]; omega
      · by_cases h2 : y < a
        · simp [h1, h2]; omega
        · simp [h1, h2]
    · exact Mem.byte_puts (Mem.above_mono (Nat.zero_le _) hm)

/-- The bytes written are read, and every other byte is as it was. -/
theorem Mem.byte_write {x y : Nat} {m : Mem} {bs : List Byte} (hm : m.wf = true) :
    (m.write x bs).byte y = if x ≤ y ∧ y < x + bs.length then bs.getD (y - x) 0 else m.byte y := Mem.byte_write_above hm

theorem Mem.byte_from {x y : Nat} {m : Mem} (h : x ≤ y) : (m.from x).byte y = m.byte y := by
  induction m with
  | nil => rfl
  | cons c m ih =>
    obtain ⟨a, b⟩ := c
    simp only [Mem.from]
    split
    · rw [ih]; simp only [Mem.byte]; rw [if_neg (by omega), if_neg (by omega)]
    · rfl

/-- A read gives the byte of each address. -/
theorem Mem.read_eq {a n : Nat} {m : Mem} : m.read a n = (List.range n).map fun i => m.byte (a + i) := by
  induction n generalizing a m with
  | zero => rfl
  | succ n ih =>
    simp only [Mem.read, ih, List.range_succ_eq_map, List.map_cons, List.map_map, Nat.add_zero]
    rw [Mem.byte_from (Nat.le_refl a)]
    congr 1
    apply List.map_congr_left
    intro i _
    simp only [Function.comp]
    rw [Mem.byte_from (by omega), show a + 1 + i = a + (i + 1) by omega]
@[simp] theorem Mem.read_length {a n : Nat} {m : Mem} : (m.read a n).length = n := by simp [Mem.read_eq]

/-! ## Maps -/

@[simp] theorem mfind_mset_same {κ α : Type} [DecidableEq κ] (k : κ) (v : α) (m : List (κ × α)) : mfind k (mset k v m) = some v := by
  induction m with
  | nil => simp [mset, mfind]
  | cons c m ih =>
    obtain ⟨k', v'⟩ := c
    simp only [mset]
    split
    · simp [mfind]
    · simp [mfind, *]
theorem mfind_mset_ne {κ α : Type} [DecidableEq κ] {k j : κ} (v : α) (m : List (κ × α)) (h : j ≠ k) : mfind j (mset k v m) = mfind j m := by
  induction m with
  | nil => simp [mset, mfind, Ne.symm h]
  | cons c m ih =>
    obtain ⟨k', v'⟩ := c
    simp only [mset]
    split
    · subst_vars; simp [mfind, Ne.symm h]
    · simp only [mfind, ih]

end Sys2Proof.Machine
end

