-- ==== Sys2Proof/Laws/State.lean ====
section
/-! SUPPORT. What each update of the state leaves alone, one lemma for a field and an update, and what reading after an update gives. -/

namespace Sys2Proof.Machine

/-! ## Tables and vectors -/

@[simp] theorem mget_mset_self {κ α : Type} [DecidableEq κ] (d : α) (k : κ) (v : α) (m : List (κ × α)) : mget d k (mset k v m) = v := by
  induction m with
  | nil => simp [mset, mget]
  | cons e m ih =>
    obtain ⟨k', v'⟩ := e
    by_cases h : k' = k <;> simp [mset, mget, h, ih]

theorem mget_mset_ne {κ α : Type} [DecidableEq κ] (d : α) {k j : κ} (h : j ≠ k) (v : α) (m : List (κ × α)) :
    mget d j (mset k v m) = mget d j m := by
  induction m with
  | nil => simp [mset, mget, h.symm]
  | cons e m ih =>
    obtain ⟨k', v'⟩ := e
    by_cases h1 : k' = k
    · subst h1; simp [mset, mget, h.symm]
    · by_cases h2 : k' = j
      · subst h2; simp [mset, mget, h]
      · simp [mset, mget, h1, h2, ih]

@[simp] theorem mset_mset {κ α : Type} [DecidableEq κ] (k : κ) (v w : α) (m : List (κ × α)) : mset k w (mset k v m) = mset k w m := by
  induction m with
  | nil => simp [mset]
  | cons e m ih =>
    obtain ⟨k', v'⟩ := e
    by_cases h : k' = k <;> simp [mset, h, ih]

theorem vget_vset {α : Type} {n : Nat} (v : Vector α n) (i j : Nat) (x d : α) :
    vget (vset v i x) j d = if i = j ∧ i < n then x else vget v j d := by
  unfold vget vset
  simp only [Vector.getElem?_setIfInBounds]
  split <;> rename_i h
  · subst h
    split <;> rename_i h2 <;> simp [h2]
  · simp [h]

/-! ## Updates of the state -/

@[simp] theorem State.setHartOf_cur (s : State) (i : HartId) (h : Hart) : (s.setHartOf i h).cur = s.cur := rfl
@[simp] theorem State.setHartOf_agenda (s : State) (i : HartId) (h : Hart) : (s.setHartOf i h).agenda = s.agenda := rfl
@[simp] theorem State.setHartOf_oracle (s : State) (i : HartId) (h : Hart) : (s.setHartOf i h).oracle = s.oracle := rfl
@[simp] theorem State.setHartOf_tick (s : State) (i : HartId) (h : Hart) : (s.setHartOf i h).tick = s.tick := rfl
@[simp] theorem State.setHartOf_teams (s : State) (i : HartId) (h : Hart) : (s.setHartOf i h).teams = s.teams := rfl
@[simp] theorem State.setHartOf_nextTeam (s : State) (i : HartId) (h : Hart) : (s.setHartOf i h).nextTeam = s.nextTeam := rfl
@[simp] theorem State.setHartOf_cores (s : State) (i : HartId) (h : Hart) : (s.setHartOf i h).cores = s.cores := rfl
@[simp] theorem State.setHartOf_banks (s : State) (i : HartId) (h : Hart) : (s.setHartOf i h).banks = s.banks := rfl
@[simp] theorem State.setHartOf_mem (s : State) (i : HartId) (h : Hart) : (s.setHartOf i h).mem = s.mem := rfl
@[simp] theorem State.setHartOf_dirty (s : State) (i : HartId) (h : Hart) : (s.setHartOf i h).dirty = s.dirty := rfl
@[simp] theorem State.setHartOf_poisoned (s : State) (i : HartId) (h : Hart) : (s.setHartOf i h).poisoned = s.poisoned := rfl
@[simp] theorem State.setHartOf_fullRows (s : State) (i : HartId) (h : Hart) : (s.setHartOf i h).fullRows = s.fullRows := rfl
@[simp] theorem State.setHartOf_posted (s : State) (i : HartId) (h : Hart) : (s.setHartOf i h).posted = s.posted := rfl
@[simp] theorem State.setHartOf_reads (s : State) (i : HartId) (h : Hart) : (s.setHartOf i h).reads = s.reads := rfl
@[simp] theorem State.setHartOf_net (s : State) (i : HartId) (h : Hart) : (s.setHartOf i h).net = s.net := rfl
@[simp] theorem State.setHartOf_queues (s : State) (i : HartId) (h : Hart) : (s.setHartOf i h).queues = s.queues := rfl
@[simp] theorem State.setHartOf_drovers (s : State) (i : HartId) (h : Hart) : (s.setHartOf i h).drovers = s.drovers := rfl
@[simp] theorem State.setHartOf_launches (s : State) (i : HartId) (h : Hart) : (s.setHartOf i h).launches = s.launches := rfl
@[simp] theorem State.setHartOf_nextLaunch (s : State) (i : HartId) (h : Hart) : (s.setHartOf i h).nextLaunch = s.nextLaunch := rfl
@[simp] theorem State.setHartOf_ready (s : State) (i : HartId) (h : Hart) : (s.setHartOf i h).ready = s.ready := rfl
@[simp] theorem State.setHartOf_waits (s : State) (i : HartId) (h : Hart) : (s.setHartOf i h).waits = s.waits := rfl
@[simp] theorem State.setHartOf_bell (s : State) (i : HartId) (h : Hart) : (s.setHartOf i h).bell = s.bell := rfl
@[simp] theorem State.setHartOf_fabric (s : State) (i : HartId) (h : Hart) : (s.setHartOf i h).fabric = s.fabric := rfl
@[simp] theorem State.setHartOf_service (s : State) (i : HartId) (h : Hart) : (s.setHartOf i h).service = s.service := rfl
@[simp] theorem State.setHartOf_shasid (s : State) (i : HartId) (h : Hart) : (s.setHartOf i h).shasid = s.shasid := rfl
@[simp] theorem State.setHartOf_xregs (s : State) (i : HartId) (h : Hart) : (s.setHartOf i h).xregs = s.xregs := rfl
@[simp] theorem State.setHartOf_shepherds (s : State) (i : HartId) (h : Hart) : (s.setHartOf i h).shepherds = s.shepherds := rfl

@[simp] theorem State.setHart_cur (s : State) (h : Hart) : (s.setHart h).cur = s.cur := rfl
@[simp] theorem State.setHart_agenda (s : State) (h : Hart) : (s.setHart h).agenda = s.agenda := rfl
@[simp] theorem State.setHart_oracle (s : State) (h : Hart) : (s.setHart h).oracle = s.oracle := rfl
@[simp] theorem State.setHart_tick (s : State) (h : Hart) : (s.setHart h).tick = s.tick := rfl
@[simp] theorem State.setHart_teams (s : State) (h : Hart) : (s.setHart h).teams = s.teams := rfl
@[simp] theorem State.setHart_nextTeam (s : State) (h : Hart) : (s.setHart h).nextTeam = s.nextTeam := rfl
@[simp] theorem State.setHart_cores (s : State) (h : Hart) : (s.setHart h).cores = s.cores := rfl
@[simp] theorem State.setHart_banks (s : State) (h : Hart) : (s.setHart h).banks = s.banks := rfl
@[simp] theorem State.setHart_mem (s : State) (h : Hart) : (s.setHart h).mem = s.mem := rfl
@[simp] theorem State.setHart_dirty (s : State) (h : Hart) : (s.setHart h).dirty = s.dirty := rfl
@[simp] theorem State.setHart_poisoned (s : State) (h : Hart) : (s.setHart h).poisoned = s.poisoned := rfl
@[simp] theorem State.setHart_fullRows (s : State) (h : Hart) : (s.setHart h).fullRows = s.fullRows := rfl
@[simp] theorem State.setHart_posted (s : State) (h : Hart) : (s.setHart h).posted = s.posted := rfl
@[simp] theorem State.setHart_reads (s : State) (h : Hart) : (s.setHart h).reads = s.reads := rfl
@[simp] theorem State.setHart_net (s : State) (h : Hart) : (s.setHart h).net = s.net := rfl
@[simp] theorem State.setHart_queues (s : State) (h : Hart) : (s.setHart h).queues = s.queues := rfl
@[simp] theorem State.setHart_drovers (s : State) (h : Hart) : (s.setHart h).drovers = s.drovers := rfl
@[simp] theorem State.setHart_launches (s : State) (h : Hart) : (s.setHart h).launches = s.launches := rfl
@[simp] theorem State.setHart_nextLaunch (s : State) (h : Hart) : (s.setHart h).nextLaunch = s.nextLaunch := rfl
@[simp] theorem State.setHart_ready (s : State) (h : Hart) : (s.setHart h).ready = s.ready := rfl
@[simp] theorem State.setHart_waits (s : State) (h : Hart) : (s.setHart h).waits = s.waits := rfl
@[simp] theorem State.setHart_bell (s : State) (h : Hart) : (s.setHart h).bell = s.bell := rfl
@[simp] theorem State.setHart_fabric (s : State) (h : Hart) : (s.setHart h).fabric = s.fabric := rfl
@[simp] theorem State.setHart_service (s : State) (h : Hart) : (s.setHart h).service = s.service := rfl
@[simp] theorem State.setHart_shasid (s : State) (h : Hart) : (s.setHart h).shasid = s.shasid := rfl
@[simp] theorem State.setHart_xregs (s : State) (h : Hart) : (s.setHart h).xregs = s.xregs := rfl
@[simp] theorem State.setHart_shepherds (s : State) (h : Hart) : (s.setHart h).shepherds = s.shepherds := rfl

@[simp] theorem State.setPath_cur (s : State) (x : Path) : (s.setPath x).cur = s.cur := rfl
@[simp] theorem State.setPath_agenda (s : State) (x : Path) : (s.setPath x).agenda = s.agenda := rfl
@[simp] theorem State.setPath_oracle (s : State) (x : Path) : (s.setPath x).oracle = s.oracle := rfl
@[simp] theorem State.setPath_tick (s : State) (x : Path) : (s.setPath x).tick = s.tick := rfl
@[simp] theorem State.setPath_teams (s : State) (x : Path) : (s.setPath x).teams = s.teams := rfl
@[simp] theorem State.setPath_nextTeam (s : State) (x : Path) : (s.setPath x).nextTeam = s.nextTeam := rfl
@[simp] theorem State.setPath_cores (s : State) (x : Path) : (s.setPath x).cores = s.cores := rfl
@[simp] theorem State.setPath_banks (s : State) (x : Path) : (s.setPath x).banks = s.banks := rfl
@[simp] theorem State.setPath_mem (s : State) (x : Path) : (s.setPath x).mem = s.mem := rfl
@[simp] theorem State.setPath_dirty (s : State) (x : Path) : (s.setPath x).dirty = s.dirty := rfl
@[simp] theorem State.setPath_poisoned (s : State) (x : Path) : (s.setPath x).poisoned = s.poisoned := rfl
@[simp] theorem State.setPath_fullRows (s : State) (x : Path) : (s.setPath x).fullRows = s.fullRows := rfl
@[simp] theorem State.setPath_posted (s : State) (x : Path) : (s.setPath x).posted = s.posted := rfl
@[simp] theorem State.setPath_reads (s : State) (x : Path) : (s.setPath x).reads = s.reads := rfl
@[simp] theorem State.setPath_net (s : State) (x : Path) : (s.setPath x).net = s.net := rfl
@[simp] theorem State.setPath_queues (s : State) (x : Path) : (s.setPath x).queues = s.queues := rfl
@[simp] theorem State.setPath_drovers (s : State) (x : Path) : (s.setPath x).drovers = s.drovers := rfl
@[simp] theorem State.setPath_launches (s : State) (x : Path) : (s.setPath x).launches = s.launches := rfl
@[simp] theorem State.setPath_nextLaunch (s : State) (x : Path) : (s.setPath x).nextLaunch = s.nextLaunch := rfl
@[simp] theorem State.setPath_ready (s : State) (x : Path) : (s.setPath x).ready = s.ready := rfl
@[simp] theorem State.setPath_waits (s : State) (x : Path) : (s.setPath x).waits = s.waits := rfl
@[simp] theorem State.setPath_bell (s : State) (x : Path) : (s.setPath x).bell = s.bell := rfl
@[simp] theorem State.setPath_fabric (s : State) (x : Path) : (s.setPath x).fabric = s.fabric := rfl
@[simp] theorem State.setPath_service (s : State) (x : Path) : (s.setPath x).service = s.service := rfl
@[simp] theorem State.setPath_shasid (s : State) (x : Path) : (s.setPath x).shasid = s.shasid := rfl
@[simp] theorem State.setPath_xregs (s : State) (x : Path) : (s.setPath x).xregs = s.xregs := rfl
@[simp] theorem State.setPath_shepherds (s : State) (x : Path) : (s.setPath x).shepherds = s.shepherds := rfl

@[simp] theorem State.setTeamOf_cur (s : State) (k : Nat) (t : Team) : (s.setTeamOf k t).cur = s.cur := rfl
@[simp] theorem State.setTeamOf_agenda (s : State) (k : Nat) (t : Team) : (s.setTeamOf k t).agenda = s.agenda := rfl
@[simp] theorem State.setTeamOf_oracle (s : State) (k : Nat) (t : Team) : (s.setTeamOf k t).oracle = s.oracle := rfl
@[simp] theorem State.setTeamOf_tick (s : State) (k : Nat) (t : Team) : (s.setTeamOf k t).tick = s.tick := rfl
@[simp] theorem State.setTeamOf_harts (s : State) (k : Nat) (t : Team) : (s.setTeamOf k t).harts = s.harts := rfl
@[simp] theorem State.setTeamOf_nextTeam (s : State) (k : Nat) (t : Team) : (s.setTeamOf k t).nextTeam = s.nextTeam := rfl
@[simp] theorem State.setTeamOf_cores (s : State) (k : Nat) (t : Team) : (s.setTeamOf k t).cores = s.cores := rfl
@[simp] theorem State.setTeamOf_banks (s : State) (k : Nat) (t : Team) : (s.setTeamOf k t).banks = s.banks := rfl
@[simp] theorem State.setTeamOf_mem (s : State) (k : Nat) (t : Team) : (s.setTeamOf k t).mem = s.mem := rfl
@[simp] theorem State.setTeamOf_dirty (s : State) (k : Nat) (t : Team) : (s.setTeamOf k t).dirty = s.dirty := rfl
@[simp] theorem State.setTeamOf_poisoned (s : State) (k : Nat) (t : Team) : (s.setTeamOf k t).poisoned = s.poisoned := rfl
@[simp] theorem State.setTeamOf_fullRows (s : State) (k : Nat) (t : Team) : (s.setTeamOf k t).fullRows = s.fullRows := rfl
@[simp] theorem State.setTeamOf_posted (s : State) (k : Nat) (t : Team) : (s.setTeamOf k t).posted = s.posted := rfl
@[simp] theorem State.setTeamOf_reads (s : State) (k : Nat) (t : Team) : (s.setTeamOf k t).reads = s.reads := rfl
@[simp] theorem State.setTeamOf_net (s : State) (k : Nat) (t : Team) : (s.setTeamOf k t).net = s.net := rfl
@[simp] theorem State.setTeamOf_queues (s : State) (k : Nat) (t : Team) : (s.setTeamOf k t).queues = s.queues := rfl
@[simp] theorem State.setTeamOf_drovers (s : State) (k : Nat) (t : Team) : (s.setTeamOf k t).drovers = s.drovers := rfl
@[simp] theorem State.setTeamOf_launches (s : State) (k : Nat) (t : Team) : (s.setTeamOf k t).launches = s.launches := rfl
@[simp] theorem State.setTeamOf_nextLaunch (s : State) (k : Nat) (t : Team) : (s.setTeamOf k t).nextLaunch = s.nextLaunch := rfl
@[simp] theorem State.setTeamOf_ready (s : State) (k : Nat) (t : Team) : (s.setTeamOf k t).ready = s.ready := rfl
@[simp] theorem State.setTeamOf_waits (s : State) (k : Nat) (t : Team) : (s.setTeamOf k t).waits = s.waits := rfl
@[simp] theorem State.setTeamOf_bell (s : State) (k : Nat) (t : Team) : (s.setTeamOf k t).bell = s.bell := rfl
@[simp] theorem State.setTeamOf_fabric (s : State) (k : Nat) (t : Team) : (s.setTeamOf k t).fabric = s.fabric := rfl
@[simp] theorem State.setTeamOf_service (s : State) (k : Nat) (t : Team) : (s.setTeamOf k t).service = s.service := rfl
@[simp] theorem State.setTeamOf_shasid (s : State) (k : Nat) (t : Team) : (s.setTeamOf k t).shasid = s.shasid := rfl
@[simp] theorem State.setTeamOf_xregs (s : State) (k : Nat) (t : Team) : (s.setTeamOf k t).xregs = s.xregs := rfl
@[simp] theorem State.setTeamOf_shepherds (s : State) (k : Nat) (t : Team) : (s.setTeamOf k t).shepherds = s.shepherds := rfl

@[simp] theorem State.setTeam_cur (s : State) (t : Team) : (s.setTeam t).cur = s.cur := rfl
@[simp] theorem State.setTeam_agenda (s : State) (t : Team) : (s.setTeam t).agenda = s.agenda := rfl
@[simp] theorem State.setTeam_oracle (s : State) (t : Team) : (s.setTeam t).oracle = s.oracle := rfl
@[simp] theorem State.setTeam_tick (s : State) (t : Team) : (s.setTeam t).tick = s.tick := rfl
@[simp] theorem State.setTeam_harts (s : State) (t : Team) : (s.setTeam t).harts = s.harts := rfl
@[simp] theorem State.setTeam_nextTeam (s : State) (t : Team) : (s.setTeam t).nextTeam = s.nextTeam := rfl
@[simp] theorem State.setTeam_cores (s : State) (t : Team) : (s.setTeam t).cores = s.cores := rfl
@[simp] theorem State.setTeam_banks (s : State) (t : Team) : (s.setTeam t).banks = s.banks := rfl
@[simp] theorem State.setTeam_mem (s : State) (t : Team) : (s.setTeam t).mem = s.mem := rfl
@[simp] theorem State.setTeam_dirty (s : State) (t : Team) : (s.setTeam t).dirty = s.dirty := rfl
@[simp] theorem State.setTeam_poisoned (s : State) (t : Team) : (s.setTeam t).poisoned = s.poisoned := rfl
@[simp] theorem State.setTeam_fullRows (s : State) (t : Team) : (s.setTeam t).fullRows = s.fullRows := rfl
@[simp] theorem State.setTeam_posted (s : State) (t : Team) : (s.setTeam t).posted = s.posted := rfl
@[simp] theorem State.setTeam_reads (s : State) (t : Team) : (s.setTeam t).reads = s.reads := rfl
@[simp] theorem State.setTeam_net (s : State) (t : Team) : (s.setTeam t).net = s.net := rfl
@[simp] theorem State.setTeam_queues (s : State) (t : Team) : (s.setTeam t).queues = s.queues := rfl
@[simp] theorem State.setTeam_drovers (s : State) (t : Team) : (s.setTeam t).drovers = s.drovers := rfl
@[simp] theorem State.setTeam_launches (s : State) (t : Team) : (s.setTeam t).launches = s.launches := rfl
@[simp] theorem State.setTeam_nextLaunch (s : State) (t : Team) : (s.setTeam t).nextLaunch = s.nextLaunch := rfl
@[simp] theorem State.setTeam_ready (s : State) (t : Team) : (s.setTeam t).ready = s.ready := rfl
@[simp] theorem State.setTeam_waits (s : State) (t : Team) : (s.setTeam t).waits = s.waits := rfl
@[simp] theorem State.setTeam_bell (s : State) (t : Team) : (s.setTeam t).bell = s.bell := rfl
@[simp] theorem State.setTeam_fabric (s : State) (t : Team) : (s.setTeam t).fabric = s.fabric := rfl
@[simp] theorem State.setTeam_service (s : State) (t : Team) : (s.setTeam t).service = s.service := rfl
@[simp] theorem State.setTeam_shasid (s : State) (t : Team) : (s.setTeam t).shasid = s.shasid := rfl
@[simp] theorem State.setTeam_xregs (s : State) (t : Team) : (s.setTeam t).xregs = s.xregs := rfl
@[simp] theorem State.setTeam_shepherds (s : State) (t : Team) : (s.setTeam t).shepherds = s.shepherds := rfl

@[simp] theorem State.setCoreOf_cur (s : State) (k : Nat) (c : Core) : (s.setCoreOf k c).cur = s.cur := rfl
@[simp] theorem State.setCoreOf_agenda (s : State) (k : Nat) (c : Core) : (s.setCoreOf k c).agenda = s.agenda := rfl
@[simp] theorem State.setCoreOf_oracle (s : State) (k : Nat) (c : Core) : (s.setCoreOf k c).oracle = s.oracle := rfl
@[simp] theorem State.setCoreOf_tick (s : State) (k : Nat) (c : Core) : (s.setCoreOf k c).tick = s.tick := rfl
@[simp] theorem State.setCoreOf_harts (s : State) (k : Nat) (c : Core) : (s.setCoreOf k c).harts = s.harts := rfl
@[simp] theorem State.setCoreOf_teams (s : State) (k : Nat) (c : Core) : (s.setCoreOf k c).teams = s.teams := rfl
@[simp] theorem State.setCoreOf_nextTeam (s : State) (k : Nat) (c : Core) : (s.setCoreOf k c).nextTeam = s.nextTeam := rfl
@[simp] theorem State.setCoreOf_banks (s : State) (k : Nat) (c : Core) : (s.setCoreOf k c).banks = s.banks := rfl
@[simp] theorem State.setCoreOf_mem (s : State) (k : Nat) (c : Core) : (s.setCoreOf k c).mem = s.mem := rfl
@[simp] theorem State.setCoreOf_dirty (s : State) (k : Nat) (c : Core) : (s.setCoreOf k c).dirty = s.dirty := rfl
@[simp] theorem State.setCoreOf_poisoned (s : State) (k : Nat) (c : Core) : (s.setCoreOf k c).poisoned = s.poisoned := rfl
@[simp] theorem State.setCoreOf_fullRows (s : State) (k : Nat) (c : Core) : (s.setCoreOf k c).fullRows = s.fullRows := rfl
@[simp] theorem State.setCoreOf_posted (s : State) (k : Nat) (c : Core) : (s.setCoreOf k c).posted = s.posted := rfl
@[simp] theorem State.setCoreOf_reads (s : State) (k : Nat) (c : Core) : (s.setCoreOf k c).reads = s.reads := rfl
@[simp] theorem State.setCoreOf_net (s : State) (k : Nat) (c : Core) : (s.setCoreOf k c).net = s.net := rfl
@[simp] theorem State.setCoreOf_queues (s : State) (k : Nat) (c : Core) : (s.setCoreOf k c).queues = s.queues := rfl
@[simp] theorem State.setCoreOf_drovers (s : State) (k : Nat) (c : Core) : (s.setCoreOf k c).drovers = s.drovers := rfl
@[simp] theorem State.setCoreOf_launches (s : State) (k : Nat) (c : Core) : (s.setCoreOf k c).launches = s.launches := rfl
@[simp] theorem State.setCoreOf_nextLaunch (s : State) (k : Nat) (c : Core) : (s.setCoreOf k c).nextLaunch = s.nextLaunch := rfl
@[simp] theorem State.setCoreOf_ready (s : State) (k : Nat) (c : Core) : (s.setCoreOf k c).ready = s.ready := rfl
@[simp] theorem State.setCoreOf_waits (s : State) (k : Nat) (c : Core) : (s.setCoreOf k c).waits = s.waits := rfl
@[simp] theorem State.setCoreOf_bell (s : State) (k : Nat) (c : Core) : (s.setCoreOf k c).bell = s.bell := rfl
@[simp] theorem State.setCoreOf_fabric (s : State) (k : Nat) (c : Core) : (s.setCoreOf k c).fabric = s.fabric := rfl
@[simp] theorem State.setCoreOf_service (s : State) (k : Nat) (c : Core) : (s.setCoreOf k c).service = s.service := rfl
@[simp] theorem State.setCoreOf_shasid (s : State) (k : Nat) (c : Core) : (s.setCoreOf k c).shasid = s.shasid := rfl
@[simp] theorem State.setCoreOf_xregs (s : State) (k : Nat) (c : Core) : (s.setCoreOf k c).xregs = s.xregs := rfl
@[simp] theorem State.setCoreOf_shepherds (s : State) (k : Nat) (c : Core) : (s.setCoreOf k c).shepherds = s.shepherds := rfl

@[simp] theorem State.setBankOf_cur (s : State) (k : Nat) (b : Bank) : (s.setBankOf k b).cur = s.cur := rfl
@[simp] theorem State.setBankOf_agenda (s : State) (k : Nat) (b : Bank) : (s.setBankOf k b).agenda = s.agenda := rfl
@[simp] theorem State.setBankOf_oracle (s : State) (k : Nat) (b : Bank) : (s.setBankOf k b).oracle = s.oracle := rfl
@[simp] theorem State.setBankOf_tick (s : State) (k : Nat) (b : Bank) : (s.setBankOf k b).tick = s.tick := rfl
@[simp] theorem State.setBankOf_harts (s : State) (k : Nat) (b : Bank) : (s.setBankOf k b).harts = s.harts := rfl
@[simp] theorem State.setBankOf_teams (s : State) (k : Nat) (b : Bank) : (s.setBankOf k b).teams = s.teams := rfl
@[simp] theorem State.setBankOf_nextTeam (s : State) (k : Nat) (b : Bank) : (s.setBankOf k b).nextTeam = s.nextTeam := rfl
@[simp] theorem State.setBankOf_cores (s : State) (k : Nat) (b : Bank) : (s.setBankOf k b).cores = s.cores := rfl
@[simp] theorem State.setBankOf_mem (s : State) (k : Nat) (b : Bank) : (s.setBankOf k b).mem = s.mem := rfl
@[simp] theorem State.setBankOf_dirty (s : State) (k : Nat) (b : Bank) : (s.setBankOf k b).dirty = s.dirty := rfl
@[simp] theorem State.setBankOf_poisoned (s : State) (k : Nat) (b : Bank) : (s.setBankOf k b).poisoned = s.poisoned := rfl
@[simp] theorem State.setBankOf_fullRows (s : State) (k : Nat) (b : Bank) : (s.setBankOf k b).fullRows = s.fullRows := rfl
@[simp] theorem State.setBankOf_posted (s : State) (k : Nat) (b : Bank) : (s.setBankOf k b).posted = s.posted := rfl
@[simp] theorem State.setBankOf_reads (s : State) (k : Nat) (b : Bank) : (s.setBankOf k b).reads = s.reads := rfl
@[simp] theorem State.setBankOf_net (s : State) (k : Nat) (b : Bank) : (s.setBankOf k b).net = s.net := rfl
@[simp] theorem State.setBankOf_queues (s : State) (k : Nat) (b : Bank) : (s.setBankOf k b).queues = s.queues := rfl
@[simp] theorem State.setBankOf_drovers (s : State) (k : Nat) (b : Bank) : (s.setBankOf k b).drovers = s.drovers := rfl
@[simp] theorem State.setBankOf_launches (s : State) (k : Nat) (b : Bank) : (s.setBankOf k b).launches = s.launches := rfl
@[simp] theorem State.setBankOf_nextLaunch (s : State) (k : Nat) (b : Bank) : (s.setBankOf k b).nextLaunch = s.nextLaunch := rfl
@[simp] theorem State.setBankOf_ready (s : State) (k : Nat) (b : Bank) : (s.setBankOf k b).ready = s.ready := rfl
@[simp] theorem State.setBankOf_waits (s : State) (k : Nat) (b : Bank) : (s.setBankOf k b).waits = s.waits := rfl
@[simp] theorem State.setBankOf_bell (s : State) (k : Nat) (b : Bank) : (s.setBankOf k b).bell = s.bell := rfl
@[simp] theorem State.setBankOf_fabric (s : State) (k : Nat) (b : Bank) : (s.setBankOf k b).fabric = s.fabric := rfl
@[simp] theorem State.setBankOf_service (s : State) (k : Nat) (b : Bank) : (s.setBankOf k b).service = s.service := rfl
@[simp] theorem State.setBankOf_shasid (s : State) (k : Nat) (b : Bank) : (s.setBankOf k b).shasid = s.shasid := rfl
@[simp] theorem State.setBankOf_xregs (s : State) (k : Nat) (b : Bank) : (s.setBankOf k b).xregs = s.xregs := rfl
@[simp] theorem State.setBankOf_shepherds (s : State) (k : Nat) (b : Bank) : (s.setBankOf k b).shepherds = s.shepherds := rfl

@[simp] theorem State.chosen_cur (s : State) : (s.chosen).cur = s.cur := rfl
@[simp] theorem State.chosen_agenda (s : State) : (s.chosen).agenda = s.agenda := rfl
@[simp] theorem State.chosen_tick (s : State) : (s.chosen).tick = s.tick := rfl
@[simp] theorem State.chosen_harts (s : State) : (s.chosen).harts = s.harts := rfl
@[simp] theorem State.chosen_teams (s : State) : (s.chosen).teams = s.teams := rfl
@[simp] theorem State.chosen_nextTeam (s : State) : (s.chosen).nextTeam = s.nextTeam := rfl
@[simp] theorem State.chosen_cores (s : State) : (s.chosen).cores = s.cores := rfl
@[simp] theorem State.chosen_banks (s : State) : (s.chosen).banks = s.banks := rfl
@[simp] theorem State.chosen_mem (s : State) : (s.chosen).mem = s.mem := rfl
@[simp] theorem State.chosen_dirty (s : State) : (s.chosen).dirty = s.dirty := rfl
@[simp] theorem State.chosen_poisoned (s : State) : (s.chosen).poisoned = s.poisoned := rfl
@[simp] theorem State.chosen_fullRows (s : State) : (s.chosen).fullRows = s.fullRows := rfl
@[simp] theorem State.chosen_posted (s : State) : (s.chosen).posted = s.posted := rfl
@[simp] theorem State.chosen_reads (s : State) : (s.chosen).reads = s.reads := rfl
@[simp] theorem State.chosen_net (s : State) : (s.chosen).net = s.net := rfl
@[simp] theorem State.chosen_queues (s : State) : (s.chosen).queues = s.queues := rfl
@[simp] theorem State.chosen_drovers (s : State) : (s.chosen).drovers = s.drovers := rfl
@[simp] theorem State.chosen_launches (s : State) : (s.chosen).launches = s.launches := rfl
@[simp] theorem State.chosen_nextLaunch (s : State) : (s.chosen).nextLaunch = s.nextLaunch := rfl
@[simp] theorem State.chosen_ready (s : State) : (s.chosen).ready = s.ready := rfl
@[simp] theorem State.chosen_waits (s : State) : (s.chosen).waits = s.waits := rfl
@[simp] theorem State.chosen_bell (s : State) : (s.chosen).bell = s.bell := rfl
@[simp] theorem State.chosen_fabric (s : State) : (s.chosen).fabric = s.fabric := rfl
@[simp] theorem State.chosen_service (s : State) : (s.chosen).service = s.service := rfl
@[simp] theorem State.chosen_shasid (s : State) : (s.chosen).shasid = s.shasid := rfl
@[simp] theorem State.chosen_xregs (s : State) : (s.chosen).xregs = s.xregs := rfl
@[simp] theorem State.chosen_shepherds (s : State) : (s.chosen).shepherds = s.shepherds := rfl

@[simp] theorem State.modSeq_cur (s : State) (k : Nat) (f : Seq → Seq) : (s.modSeq k f).cur = s.cur := rfl
@[simp] theorem State.modSeq_agenda (s : State) (k : Nat) (f : Seq → Seq) : (s.modSeq k f).agenda = s.agenda := rfl
@[simp] theorem State.modSeq_oracle (s : State) (k : Nat) (f : Seq → Seq) : (s.modSeq k f).oracle = s.oracle := rfl
@[simp] theorem State.modSeq_tick (s : State) (k : Nat) (f : Seq → Seq) : (s.modSeq k f).tick = s.tick := rfl
@[simp] theorem State.modSeq_harts (s : State) (k : Nat) (f : Seq → Seq) : (s.modSeq k f).harts = s.harts := rfl
@[simp] theorem State.modSeq_nextTeam (s : State) (k : Nat) (f : Seq → Seq) : (s.modSeq k f).nextTeam = s.nextTeam := rfl
@[simp] theorem State.modSeq_cores (s : State) (k : Nat) (f : Seq → Seq) : (s.modSeq k f).cores = s.cores := rfl
@[simp] theorem State.modSeq_banks (s : State) (k : Nat) (f : Seq → Seq) : (s.modSeq k f).banks = s.banks := rfl
@[simp] theorem State.modSeq_mem (s : State) (k : Nat) (f : Seq → Seq) : (s.modSeq k f).mem = s.mem := rfl
@[simp] theorem State.modSeq_dirty (s : State) (k : Nat) (f : Seq → Seq) : (s.modSeq k f).dirty = s.dirty := rfl
@[simp] theorem State.modSeq_poisoned (s : State) (k : Nat) (f : Seq → Seq) : (s.modSeq k f).poisoned = s.poisoned := rfl
@[simp] theorem State.modSeq_fullRows (s : State) (k : Nat) (f : Seq → Seq) : (s.modSeq k f).fullRows = s.fullRows := rfl
@[simp] theorem State.modSeq_posted (s : State) (k : Nat) (f : Seq → Seq) : (s.modSeq k f).posted = s.posted := rfl
@[simp] theorem State.modSeq_reads (s : State) (k : Nat) (f : Seq → Seq) : (s.modSeq k f).reads = s.reads := rfl
@[simp] theorem State.modSeq_net (s : State) (k : Nat) (f : Seq → Seq) : (s.modSeq k f).net = s.net := rfl
@[simp] theorem State.modSeq_queues (s : State) (k : Nat) (f : Seq → Seq) : (s.modSeq k f).queues = s.queues := rfl
@[simp] theorem State.modSeq_drovers (s : State) (k : Nat) (f : Seq → Seq) : (s.modSeq k f).drovers = s.drovers := rfl
@[simp] theorem State.modSeq_launches (s : State) (k : Nat) (f : Seq → Seq) : (s.modSeq k f).launches = s.launches := rfl
@[simp] theorem State.modSeq_nextLaunch (s : State) (k : Nat) (f : Seq → Seq) : (s.modSeq k f).nextLaunch = s.nextLaunch := rfl
@[simp] theorem State.modSeq_ready (s : State) (k : Nat) (f : Seq → Seq) : (s.modSeq k f).ready = s.ready := rfl
@[simp] theorem State.modSeq_waits (s : State) (k : Nat) (f : Seq → Seq) : (s.modSeq k f).waits = s.waits := rfl
@[simp] theorem State.modSeq_bell (s : State) (k : Nat) (f : Seq → Seq) : (s.modSeq k f).bell = s.bell := rfl
@[simp] theorem State.modSeq_fabric (s : State) (k : Nat) (f : Seq → Seq) : (s.modSeq k f).fabric = s.fabric := rfl
@[simp] theorem State.modSeq_service (s : State) (k : Nat) (f : Seq → Seq) : (s.modSeq k f).service = s.service := rfl
@[simp] theorem State.modSeq_shasid (s : State) (k : Nat) (f : Seq → Seq) : (s.modSeq k f).shasid = s.shasid := rfl
@[simp] theorem State.modSeq_xregs (s : State) (k : Nat) (f : Seq → Seq) : (s.modSeq k f).xregs = s.xregs := rfl
@[simp] theorem State.modSeq_shepherds (s : State) (k : Nat) (f : Seq → Seq) : (s.modSeq k f).shepherds = s.shepherds := rfl

@[simp] theorem State.setHartOf_teamOf (s : State) (i : HartId) (h : Hart) (j : Nat) : (s.setHartOf i h).teamOf j = s.teamOf j := rfl
@[simp] theorem State.setHartOf_coreOf (s : State) (i : HartId) (h : Hart) (j : Nat) : (s.setHartOf i h).coreOf j = s.coreOf j := rfl
@[simp] theorem State.setHartOf_bankOf (s : State) (i : HartId) (h : Hart) (j : Nat) : (s.setHartOf i h).bankOf j = s.bankOf j := rfl
@[simp] theorem State.setHartOf_hid (s : State) (i : HartId) (h : Hart) : (s.setHartOf i h).hid = s.hid := rfl
@[simp] theorem State.setHartOf_onBank (s : State) (i : HartId) (h : Hart) : (s.setHartOf i h).onBank = s.onBank := rfl
@[simp] theorem State.setHartOf_team (s : State) (i : HartId) (h : Hart) : (s.setHartOf i h).team = s.team := rfl

@[simp] theorem State.setHart_teamOf (s : State) (h : Hart) (j : Nat) : (s.setHart h).teamOf j = s.teamOf j := rfl
@[simp] theorem State.setHart_coreOf (s : State) (h : Hart) (j : Nat) : (s.setHart h).coreOf j = s.coreOf j := rfl
@[simp] theorem State.setHart_bankOf (s : State) (h : Hart) (j : Nat) : (s.setHart h).bankOf j = s.bankOf j := rfl
@[simp] theorem State.setHart_hid (s : State) (h : Hart) : (s.setHart h).hid = s.hid := rfl
@[simp] theorem State.setHart_onBank (s : State) (h : Hart) : (s.setHart h).onBank = s.onBank := rfl
@[simp] theorem State.setHart_team (s : State) (h : Hart) : (s.setHart h).team = s.team := rfl

@[simp] theorem State.setPath_teamOf (s : State) (x : Path) (j : Nat) : (s.setPath x).teamOf j = s.teamOf j := rfl
@[simp] theorem State.setPath_coreOf (s : State) (x : Path) (j : Nat) : (s.setPath x).coreOf j = s.coreOf j := rfl
@[simp] theorem State.setPath_bankOf (s : State) (x : Path) (j : Nat) : (s.setPath x).bankOf j = s.bankOf j := rfl
@[simp] theorem State.setPath_hid (s : State) (x : Path) : (s.setPath x).hid = s.hid := rfl
@[simp] theorem State.setPath_onBank (s : State) (x : Path) : (s.setPath x).onBank = s.onBank := rfl
@[simp] theorem State.setPath_team (s : State) (x : Path) : (s.setPath x).team = s.team := rfl

@[simp] theorem State.setTeamOf_hartOf (s : State) (k : Nat) (t : Team) (j : HartId) : (s.setTeamOf k t).hartOf j = s.hartOf j := rfl
@[simp] theorem State.setTeamOf_coreOf (s : State) (k : Nat) (t : Team) (j : Nat) : (s.setTeamOf k t).coreOf j = s.coreOf j := rfl
@[simp] theorem State.setTeamOf_bankOf (s : State) (k : Nat) (t : Team) (j : Nat) : (s.setTeamOf k t).bankOf j = s.bankOf j := rfl
@[simp] theorem State.setTeamOf_hid (s : State) (k : Nat) (t : Team) : (s.setTeamOf k t).hid = s.hid := rfl
@[simp] theorem State.setTeamOf_onBank (s : State) (k : Nat) (t : Team) : (s.setTeamOf k t).onBank = s.onBank := rfl
@[simp] theorem State.setTeamOf_hart (s : State) (k : Nat) (t : Team) : (s.setTeamOf k t).hart = s.hart := rfl
@[simp] theorem State.setTeamOf_path (s : State) (k : Nat) (t : Team) : (s.setTeamOf k t).path = s.path := rfl

@[simp] theorem State.setTeam_hartOf (s : State) (t : Team) (j : HartId) : (s.setTeam t).hartOf j = s.hartOf j := rfl
@[simp] theorem State.setTeam_coreOf (s : State) (t : Team) (j : Nat) : (s.setTeam t).coreOf j = s.coreOf j := rfl
@[simp] theorem State.setTeam_bankOf (s : State) (t : Team) (j : Nat) : (s.setTeam t).bankOf j = s.bankOf j := rfl
@[simp] theorem State.setTeam_hid (s : State) (t : Team) : (s.setTeam t).hid = s.hid := rfl
@[simp] theorem State.setTeam_onBank (s : State) (t : Team) : (s.setTeam t).onBank = s.onBank := rfl
@[simp] theorem State.setTeam_hart (s : State) (t : Team) : (s.setTeam t).hart = s.hart := rfl
@[simp] theorem State.setTeam_path (s : State) (t : Team) : (s.setTeam t).path = s.path := rfl

@[simp] theorem State.setCoreOf_hartOf (s : State) (k : Nat) (c : Core) (j : HartId) : (s.setCoreOf k c).hartOf j = s.hartOf j := rfl
@[simp] theorem State.setCoreOf_teamOf (s : State) (k : Nat) (c : Core) (j : Nat) : (s.setCoreOf k c).teamOf j = s.teamOf j := rfl
@[simp] theorem State.setCoreOf_bankOf (s : State) (k : Nat) (c : Core) (j : Nat) : (s.setCoreOf k c).bankOf j = s.bankOf j := rfl
@[simp] theorem State.setCoreOf_hid (s : State) (k : Nat) (c : Core) : (s.setCoreOf k c).hid = s.hid := rfl
@[simp] theorem State.setCoreOf_onBank (s : State) (k : Nat) (c : Core) : (s.setCoreOf k c).onBank = s.onBank := rfl
@[simp] theorem State.setCoreOf_hart (s : State) (k : Nat) (c : Core) : (s.setCoreOf k c).hart = s.hart := rfl
@[simp] theorem State.setCoreOf_path (s : State) (k : Nat) (c : Core) : (s.setCoreOf k c).path = s.path := rfl
@[simp] theorem State.setCoreOf_team (s : State) (k : Nat) (c : Core) : (s.setCoreOf k c).team = s.team := rfl

@[simp] theorem State.setBankOf_hartOf (s : State) (k : Nat) (b : Bank) (j : HartId) : (s.setBankOf k b).hartOf j = s.hartOf j := rfl
@[simp] theorem State.setBankOf_teamOf (s : State) (k : Nat) (b : Bank) (j : Nat) : (s.setBankOf k b).teamOf j = s.teamOf j := rfl
@[simp] theorem State.setBankOf_coreOf (s : State) (k : Nat) (b : Bank) (j : Nat) : (s.setBankOf k b).coreOf j = s.coreOf j := rfl
@[simp] theorem State.setBankOf_hid (s : State) (k : Nat) (b : Bank) : (s.setBankOf k b).hid = s.hid := rfl
@[simp] theorem State.setBankOf_onBank (s : State) (k : Nat) (b : Bank) : (s.setBankOf k b).onBank = s.onBank := rfl
@[simp] theorem State.setBankOf_hart (s : State) (k : Nat) (b : Bank) : (s.setBankOf k b).hart = s.hart := rfl
@[simp] theorem State.setBankOf_path (s : State) (k : Nat) (b : Bank) : (s.setBankOf k b).path = s.path := rfl
@[simp] theorem State.setBankOf_team (s : State) (k : Nat) (b : Bank) : (s.setBankOf k b).team = s.team := rfl

@[simp] theorem State.chosen_hartOf (s : State) (j : HartId) : (s.chosen).hartOf j = s.hartOf j := rfl
@[simp] theorem State.chosen_teamOf (s : State) (j : Nat) : (s.chosen).teamOf j = s.teamOf j := rfl
@[simp] theorem State.chosen_coreOf (s : State) (j : Nat) : (s.chosen).coreOf j = s.coreOf j := rfl
@[simp] theorem State.chosen_bankOf (s : State) (j : Nat) : (s.chosen).bankOf j = s.bankOf j := rfl
@[simp] theorem State.chosen_hid (s : State)  : (s.chosen).hid = s.hid := rfl
@[simp] theorem State.chosen_onBank (s : State)  : (s.chosen).onBank = s.onBank := rfl
@[simp] theorem State.chosen_hart (s : State) : (s.chosen).hart = s.hart := rfl
@[simp] theorem State.chosen_path (s : State) : (s.chosen).path = s.path := rfl
@[simp] theorem State.chosen_team (s : State) : (s.chosen).team = s.team := rfl

@[simp] theorem State.modSeq_hartOf (s : State) (k : Nat) (f : Seq → Seq) (j : HartId) : (s.modSeq k f).hartOf j = s.hartOf j := rfl
@[simp] theorem State.modSeq_coreOf (s : State) (k : Nat) (f : Seq → Seq) (j : Nat) : (s.modSeq k f).coreOf j = s.coreOf j := rfl
@[simp] theorem State.modSeq_bankOf (s : State) (k : Nat) (f : Seq → Seq) (j : Nat) : (s.modSeq k f).bankOf j = s.bankOf j := rfl
@[simp] theorem State.modSeq_hid (s : State) (k : Nat) (f : Seq → Seq) : (s.modSeq k f).hid = s.hid := rfl
@[simp] theorem State.modSeq_onBank (s : State) (k : Nat) (f : Seq → Seq) : (s.modSeq k f).onBank = s.onBank := rfl
@[simp] theorem State.modSeq_hart (s : State) (k : Nat) (f : Seq → Seq) : (s.modSeq k f).hart = s.hart := rfl
@[simp] theorem State.modSeq_path (s : State) (k : Nat) (f : Seq → Seq) : (s.modSeq k f).path = s.path := rfl

@[simp] theorem State.hartOf_setHartOf (s : State) (i : HartId) (h : Hart) : (s.setHartOf i h).hartOf i = h := by
  simp [State.hartOf, State.setHartOf]
theorem State.hartOf_setHartOf_ne (s : State) {i j : HartId} (n : j ≠ i) (h : Hart) : (s.setHartOf i h).hartOf j = s.hartOf j := by
  simp [State.hartOf, State.setHartOf, mget_mset_ne _ n]
@[simp] theorem State.setHartOf_setHartOf (s : State) (i : HartId) (h g : Hart) : (s.setHartOf i h).setHartOf i g = s.setHartOf i g := by
  simp [State.setHartOf]
@[simp] theorem State.hart_setHart (s : State) (h : Hart) : (s.setHart h).hart = h := by
  simp [State.hart, State.setHart]
@[simp] theorem State.setHart_setHart (s : State) (h g : Hart) : (s.setHart h).setHart g = s.setHart g := by
  simp [State.setHart]
@[simp] theorem State.teamOf_setTeamOf (s : State) (k : Nat) (t : Team) : (s.setTeamOf k t).teamOf k = t := by
  simp [State.teamOf, State.setTeamOf]
theorem State.teamOf_setTeamOf_ne (s : State) {k j : Nat} (n : j ≠ k) (t : Team) : (s.setTeamOf k t).teamOf j = s.teamOf j := by
  simp [State.teamOf, State.setTeamOf, mget_mset_ne _ n]
@[simp] theorem State.team_setTeam (s : State) (t : Team) : (s.setTeam t).team = t := by
  simp [State.team, State.setTeam]
@[simp] theorem State.setTeamOf_setTeamOf (s : State) (k : Nat) (t u : Team) : (s.setTeamOf k t).setTeamOf k u = s.setTeamOf k u := by
  simp [State.setTeamOf]
@[simp] theorem State.setTeam_setTeam (s : State) (t u : Team) : (s.setTeam t).setTeam u = s.setTeam u := by
  simp [State.setTeam]
@[simp] theorem State.coreOf_setCoreOf (s : State) (k : Nat) (c : Core) : (s.setCoreOf k c).coreOf k = c := by
  simp [State.coreOf, State.setCoreOf]
theorem State.coreOf_setCoreOf_ne (s : State) {k j : Nat} (n : j ≠ k) (c : Core) : (s.setCoreOf k c).coreOf j = s.coreOf j := by
  simp [State.coreOf, State.setCoreOf, mget_mset_ne _ n]
@[simp] theorem State.bankOf_setBankOf (s : State) (k : Nat) (b : Bank) : (s.setBankOf k b).bankOf k = b := by
  simp [State.bankOf, State.setBankOf]
theorem State.bankOf_setBankOf_ne (s : State) {k j : Nat} (n : j ≠ k) (b : Bank) : (s.setBankOf k b).bankOf j = s.bankOf j := by
  simp [State.bankOf, State.setBankOf, mget_mset_ne _ n]

/-! ## Registers and paths of a hart -/

@[simp] theorem Hart.setPath_s (h : Hart) (p : Bool) (x : Path) : (h.setPath p x).s = h.s := by cases p <;> rfl
@[simp] theorem Hart.setPath_v (h : Hart) (p : Bool) (x : Path) : (h.setPath p x).v = h.v := by cases p <;> rfl
@[simp] theorem Hart.setPath_m (h : Hart) (p : Bool) (x : Path) : (h.setPath p x).m = h.m := by cases p <;> rfl
@[simp] theorem Hart.setPath_held (h : Hart) (p : Bool) (x : Path) : (h.setPath p x).held = h.held := by cases p <;> rfl
@[simp] theorem Hart.setPath_vl (h : Hart) (p : Bool) (x : Path) : (h.setPath p x).vl = h.vl := by cases p <;> rfl
@[simp] theorem Hart.setPath_vtype (h : Hart) (p : Bool) (x : Path) : (h.setPath p x).vtype = h.vtype := by cases p <;> rfl
@[simp] theorem Hart.setPath_slimit (h : Hart) (p : Bool) (x : Path) : (h.setPath p x).slimit = h.slimit := by cases p <;> rfl
@[simp] theorem Hart.setPath_sbase (h : Hart) (p : Bool) (x : Path) : (h.setPath p x).sbase = h.sbase := by cases p <;> rfl
@[simp] theorem Hart.setPath_seed (h : Hart) (p : Bool) (x : Path) : (h.setPath p x).seed = h.seed := by cases p <;> rfl
@[simp] theorem Hart.setPath_spbase (h : Hart) (p : Bool) (x : Path) : (h.setPath p x).spbase = h.spbase := by cases p <;> rfl
@[simp] theorem Hart.setPath_tcause (h : Hart) (p : Bool) (x : Path) : (h.setPath p x).tcause = h.tcause := by cases p <;> rfl
@[simp] theorem Hart.setPath_tval (h : Hart) (p : Bool) (x : Path) : (h.setPath p x).tval = h.tval := by cases p <;> rfl
@[simp] theorem Hart.setPath_epc (h : Hart) (p : Bool) (x : Path) : (h.setPath p x).epc = h.epc := by cases p <;> rfl
@[simp] theorem Hart.setPath_fcause (h : Hart) (p : Bool) (x : Path) : (h.setPath p x).fcause = h.fcause := by cases p <;> rfl
@[simp] theorem Hart.setPath_asid (h : Hart) (p : Bool) (x : Path) : (h.setPath p x).asid = h.asid := by cases p <;> rfl
@[simp] theorem Hart.setPath_prio (h : Hart) (p : Bool) (x : Path) : (h.setPath p x).prio = h.prio := by cases p <;> rfl
@[simp] theorem Hart.setPath_pathack (h : Hart) (p : Bool) (x : Path) : (h.setPath p x).pathack = h.pathack := by cases p <;> rfl
@[simp] theorem Hart.setPath_gens (h : Hart) (p : Bool) (x : Path) : (h.setPath p x).gens = h.gens := by cases p <;> rfl
@[simp] theorem Hart.setPath_sys (h : Hart) (p : Bool) (x : Path) : (h.setPath p x).sys = h.sys := by cases p <;> rfl
@[simp] theorem Hart.setPath_ledger (h : Hart) (p : Bool) (x : Path) : (h.setPath p x).ledger = h.ledger := by cases p <;> rfl
@[simp] theorem Hart.setPath_credited (h : Hart) (p : Bool) (x : Path) : (h.setPath p x).credited = h.credited := by cases p <;> rfl
@[simp] theorem Hart.setPath_nextOp (h : Hart) (p : Bool) (x : Path) : (h.setPath p x).nextOp = h.nextOp := by cases p <;> rfl
@[simp] theorem Hart.setPath_recs (h : Hart) (p : Bool) (x : Path) : (h.setPath p x).recs = h.recs := by cases p <;> rfl
@[simp] theorem Hart.setPath_loopHead (h : Hart) (p : Bool) (x : Path) : (h.setPath p x).loopHead = h.loopHead := by cases p <;> rfl
@[simp] theorem Hart.setPath_pend (h : Hart) (p : Bool) (x : Path) : (h.setPath p x).pend = h.pend := by cases p <;> rfl
@[simp] theorem Hart.setPath_causes (h : Hart) (p : Bool) (x : Path) : (h.setPath p x).causes = h.causes := by cases p <;> rfl
@[simp] theorem Hart.setPath_lost (h : Hart) (p : Bool) (x : Path) : (h.setPath p x).lost = h.lost := by cases p <;> rfl
@[simp] theorem Hart.setPath_sq (h : Hart) (p : Bool) (x : Path) : (h.setPath p x).sq = h.sq := by cases p <;> rfl
@[simp] theorem Hart.setPath_flags (h : Hart) (p : Bool) (x : Path) : (h.setPath p x).flags = h.flags := by cases p <;> rfl
@[simp] theorem Hart.setPath_commits (h : Hart) (p : Bool) (x : Path) : (h.setPath p x).commits = h.commits := by cases p <;> rfl
@[simp] theorem Hart.setPath_near (h : Hart) (p : Bool) (x : Path) : (h.setPath p x).near = h.near := by cases p <;> rfl
@[simp] theorem Hart.setPath_efr (h : Hart) (p : Bool) (x : Path) : (h.setPath p x).efr = h.efr := by cases p <;> rfl
@[simp] theorem Hart.setPath_send (h : Hart) (p : Bool) (x : Path) : (h.setPath p x).send = h.send := by cases p <;> rfl
@[simp] theorem Hart.setPath_region (h : Hart) (p : Bool) (x : Path) : (h.setPath p x).region = h.region := by cases p <;> rfl
@[simp] theorem Hart.setPath_remote (h : Hart) (p : Bool) (x : Path) : (h.setPath p x).remote = h.remote := by cases p <;> rfl
@[simp] theorem Hart.setPath_arrived (h : Hart) (p : Bool) (x : Path) : (h.setPath p x).arrived = h.arrived := by cases p <;> rfl
@[simp] theorem Hart.setPath_asked (h : Hart) (p : Bool) (x : Path) : (h.setPath p x).asked = h.asked := by cases p <;> rfl
@[simp] theorem Hart.setPath_bad (h : Hart) (p : Bool) (x : Path) : (h.setPath p x).bad = h.bad := by cases p <;> rfl
@[simp] theorem Hart.setPath_role (h : Hart) (p : Bool) (x : Path) : (h.setPath p x).role = h.role := by cases p <;> rfl
@[simp] theorem Hart.setPath_stopOther (h : Hart) (p : Bool) (x : Path) : (h.setPath p x).stopOther = h.stopOther := by cases p <;> rfl
@[simp] theorem Hart.setPath_quad (h : Hart) (p : Bool) (x : Path) : (h.setPath p x).quad = h.quad := by cases p <;> rfl
@[simp] theorem Hart.setPath_live (h : Hart) (p : Bool) (x : Path) : (h.setPath p x).live = h.live := by cases p <;> rfl
@[simp] theorem Hart.setPath_evicted (h : Hart) (p : Bool) (x : Path) : (h.setPath p x).evicted = h.evicted := by cases p <;> rfl
@[simp] theorem Hart.setPath_evictAsked (h : Hart) (p : Bool) (x : Path) : (h.setPath p x).evictAsked = h.evictAsked := by cases p <;> rfl

@[simp] theorem Hart.path_setPath (h : Hart) (p : Bool) (x : Path) : (h.setPath p x).path p = x := by cases p <;> rfl
@[simp] theorem Hart.path_setPath_not (h : Hart) (p : Bool) (x : Path) : (h.setPath p x).path (!p) = h.path (!p) := by cases p <;> rfl
@[simp] theorem Hart.setPath_setPath (h : Hart) (p : Bool) (x y : Path) : (h.setPath p x).setPath p y = h.setPath p y := by cases p <;> rfl
@[simp] theorem State.path_setPath (s : State) (x : Path) : (s.setPath x).path = x := by
  simp [State.path, State.setPath]

@[simp] theorem Hart.forget_s (h : Hart) : h.forget.s = h.s := rfl
@[simp] theorem Hart.forget_v (h : Hart) : h.forget.v = h.v := rfl
@[simp] theorem Hart.forget_m (h : Hart) : h.forget.m = h.m := rfl
@[simp] theorem Hart.forget_held (h : Hart) : h.forget.held = h.held := rfl
@[simp] theorem Hart.forget_vl (h : Hart) : h.forget.vl = h.vl := rfl
@[simp] theorem Hart.forget_vtype (h : Hart) : h.forget.vtype = h.vtype := rfl
@[simp] theorem Hart.forget_slimit (h : Hart) : h.forget.slimit = h.slimit := rfl
@[simp] theorem Hart.forget_sbase (h : Hart) : h.forget.sbase = h.sbase := rfl
@[simp] theorem Hart.forget_seed (h : Hart) : h.forget.seed = h.seed := rfl
@[simp] theorem Hart.forget_spbase (h : Hart) : h.forget.spbase = h.spbase := rfl
@[simp] theorem Hart.forget_tcause (h : Hart) : h.forget.tcause = h.tcause := rfl
@[simp] theorem Hart.forget_tval (h : Hart) : h.forget.tval = h.tval := rfl
@[simp] theorem Hart.forget_epc (h : Hart) : h.forget.epc = h.epc := rfl
@[simp] theorem Hart.forget_fcause (h : Hart) : h.forget.fcause = h.fcause := rfl
@[simp] theorem Hart.forget_asid (h : Hart) : h.forget.asid = h.asid := rfl
@[simp] theorem Hart.forget_prio (h : Hart) : h.forget.prio = h.prio := rfl
@[simp] theorem Hart.forget_pathack (h : Hart) : h.forget.pathack = h.pathack := rfl
@[simp] theorem Hart.forget_gens (h : Hart) : h.forget.gens = h.gens := rfl
@[simp] theorem Hart.forget_sys (h : Hart) : h.forget.sys = h.sys := rfl
@[simp] theorem Hart.forget_ledger (h : Hart) : h.forget.ledger = h.ledger := rfl
@[simp] theorem Hart.forget_credited (h : Hart) : h.forget.credited = h.credited := rfl
@[simp] theorem Hart.forget_nextOp (h : Hart) : h.forget.nextOp = h.nextOp := rfl
@[simp] theorem Hart.forget_p0 (h : Hart) : h.forget.p0 = h.p0 := rfl
@[simp] theorem Hart.forget_p1 (h : Hart) : h.forget.p1 = h.p1 := rfl
@[simp] theorem Hart.forget_recs (h : Hart) : h.forget.recs = h.recs := rfl
@[simp] theorem Hart.forget_loopHead (h : Hart) : h.forget.loopHead = h.loopHead := rfl
@[simp] theorem Hart.forget_pend (h : Hart) : h.forget.pend = h.pend := rfl
@[simp] theorem Hart.forget_causes (h : Hart) : h.forget.causes = h.causes := rfl
@[simp] theorem Hart.forget_lost (h : Hart) : h.forget.lost = h.lost := rfl
@[simp] theorem Hart.forget_sq (h : Hart) : h.forget.sq = h.sq := rfl
@[simp] theorem Hart.forget_flags (h : Hart) : h.forget.flags = h.flags := rfl
@[simp] theorem Hart.forget_commits (h : Hart) : h.forget.commits = h.commits := rfl
@[simp] theorem Hart.forget_near (h : Hart) : h.forget.near = h.near := rfl
@[simp] theorem Hart.forget_efr (h : Hart) : h.forget.efr = h.efr := rfl
@[simp] theorem Hart.forget_send (h : Hart) : h.forget.send = h.send := rfl
@[simp] theorem Hart.forget_region (h : Hart) : h.forget.region = h.region := rfl
@[simp] theorem Hart.forget_remote (h : Hart) : h.forget.remote = h.remote := rfl
@[simp] theorem Hart.forget_role (h : Hart) : h.forget.role = h.role := rfl
@[simp] theorem Hart.forget_stopOther (h : Hart) : h.forget.stopOther = h.stopOther := rfl
@[simp] theorem Hart.forget_quad (h : Hart) : h.forget.quad = h.quad := rfl
@[simp] theorem Hart.forget_live (h : Hart) : h.forget.live = h.live := rfl
@[simp] theorem Hart.forget_evicted (h : Hart) : h.forget.evicted = h.evicted := rfl
@[simp] theorem Hart.forget_evictAsked (h : Hart) : h.forget.evictAsked = h.evictAsked := rfl
@[simp] theorem Hart.forget_path (h : Hart) (p : Bool) : h.forget.path p = h.path p := rfl

@[simp] theorem Hart.setS_v (h : Hart) (n : BitVec 6) (x : Word64) : (h.setS n x).v = h.v := by unfold Hart.setS; split <;> rfl
@[simp] theorem Hart.setS_m (h : Hart) (n : BitVec 6) (x : Word64) : (h.setS n x).m = h.m := by unfold Hart.setS; split <;> rfl
@[simp] theorem Hart.setS_held (h : Hart) (n : BitVec 6) (x : Word64) : (h.setS n x).held = h.held := by unfold Hart.setS; split <;> rfl
@[simp] theorem Hart.setS_vl (h : Hart) (n : BitVec 6) (x : Word64) : (h.setS n x).vl = h.vl := by unfold Hart.setS; split <;> rfl
@[simp] theorem Hart.setS_vtype (h : Hart) (n : BitVec 6) (x : Word64) : (h.setS n x).vtype = h.vtype := by unfold Hart.setS; split <;> rfl
@[simp] theorem Hart.setS_slimit (h : Hart) (n : BitVec 6) (x : Word64) : (h.setS n x).slimit = h.slimit := by unfold Hart.setS; split <;> rfl
@[simp] theorem Hart.setS_sbase (h : Hart) (n : BitVec 6) (x : Word64) : (h.setS n x).sbase = h.sbase := by unfold Hart.setS; split <;> rfl
@[simp] theorem Hart.setS_seed (h : Hart) (n : BitVec 6) (x : Word64) : (h.setS n x).seed = h.seed := by unfold Hart.setS; split <;> rfl
@[simp] theorem Hart.setS_spbase (h : Hart) (n : BitVec 6) (x : Word64) : (h.setS n x).spbase = h.spbase := by unfold Hart.setS; split <;> rfl
@[simp] theorem Hart.setS_tcause (h : Hart) (n : BitVec 6) (x : Word64) : (h.setS n x).tcause = h.tcause := by unfold Hart.setS; split <;> rfl
@[simp] theorem Hart.setS_tval (h : Hart) (n : BitVec 6) (x : Word64) : (h.setS n x).tval = h.tval := by unfold Hart.setS; split <;> rfl
@[simp] theorem Hart.setS_epc (h : Hart) (n : BitVec 6) (x : Word64) : (h.setS n x).epc = h.epc := by unfold Hart.setS; split <;> rfl
@[simp] theorem Hart.setS_fcause (h : Hart) (n : BitVec 6) (x : Word64) : (h.setS n x).fcause = h.fcause := by unfold Hart.setS; split <;> rfl
@[simp] theorem Hart.setS_asid (h : Hart) (n : BitVec 6) (x : Word64) : (h.setS n x).asid = h.asid := by unfold Hart.setS; split <;> rfl
@[simp] theorem Hart.setS_prio (h : Hart) (n : BitVec 6) (x : Word64) : (h.setS n x).prio = h.prio := by unfold Hart.setS; split <;> rfl
@[simp] theorem Hart.setS_pathack (h : Hart) (n : BitVec 6) (x : Word64) : (h.setS n x).pathack = h.pathack := by unfold Hart.setS; split <;> rfl
@[simp] theorem Hart.setS_gens (h : Hart) (n : BitVec 6) (x : Word64) : (h.setS n x).gens = h.gens := by unfold Hart.setS; split <;> rfl
@[simp] theorem Hart.setS_sys (h : Hart) (n : BitVec 6) (x : Word64) : (h.setS n x).sys = h.sys := by unfold Hart.setS; split <;> rfl
@[simp] theorem Hart.setS_ledger (h : Hart) (n : BitVec 6) (x : Word64) : (h.setS n x).ledger = h.ledger := by unfold Hart.setS; split <;> rfl
@[simp] theorem Hart.setS_credited (h : Hart) (n : BitVec 6) (x : Word64) : (h.setS n x).credited = h.credited := by unfold Hart.setS; split <;> rfl
@[simp] theorem Hart.setS_nextOp (h : Hart) (n : BitVec 6) (x : Word64) : (h.setS n x).nextOp = h.nextOp := by unfold Hart.setS; split <;> rfl
@[simp] theorem Hart.setS_p0 (h : Hart) (n : BitVec 6) (x : Word64) : (h.setS n x).p0 = h.p0 := by unfold Hart.setS; split <;> rfl
@[simp] theorem Hart.setS_p1 (h : Hart) (n : BitVec 6) (x : Word64) : (h.setS n x).p1 = h.p1 := by unfold Hart.setS; split <;> rfl
@[simp] theorem Hart.setS_recs (h : Hart) (n : BitVec 6) (x : Word64) : (h.setS n x).recs = h.recs := by unfold Hart.setS; split <;> rfl
@[simp] theorem Hart.setS_loopHead (h : Hart) (n : BitVec 6) (x : Word64) : (h.setS n x).loopHead = h.loopHead := by unfold Hart.setS; split <;> rfl
@[simp] theorem Hart.setS_pend (h : Hart) (n : BitVec 6) (x : Word64) : (h.setS n x).pend = h.pend := by unfold Hart.setS; split <;> rfl
@[simp] theorem Hart.setS_causes (h : Hart) (n : BitVec 6) (x : Word64) : (h.setS n x).causes = h.causes := by unfold Hart.setS; split <;> rfl
@[simp] theorem Hart.setS_lost (h : Hart) (n : BitVec 6) (x : Word64) : (h.setS n x).lost = h.lost := by unfold Hart.setS; split <;> rfl
@[simp] theorem Hart.setS_sq (h : Hart) (n : BitVec 6) (x : Word64) : (h.setS n x).sq = h.sq := by unfold Hart.setS; split <;> rfl
@[simp] theorem Hart.setS_flags (h : Hart) (n : BitVec 6) (x : Word64) : (h.setS n x).flags = h.flags := by unfold Hart.setS; split <;> rfl
@[simp] theorem Hart.setS_commits (h : Hart) (n : BitVec 6) (x : Word64) : (h.setS n x).commits = h.commits := by unfold Hart.setS; split <;> rfl
@[simp] theorem Hart.setS_near (h : Hart) (n : BitVec 6) (x : Word64) : (h.setS n x).near = h.near := by unfold Hart.setS; split <;> rfl
@[simp] theorem Hart.setS_efr (h : Hart) (n : BitVec 6) (x : Word64) : (h.setS n x).efr = h.efr := by unfold Hart.setS; split <;> rfl
@[simp] theorem Hart.setS_send (h : Hart) (n : BitVec 6) (x : Word64) : (h.setS n x).send = h.send := by unfold Hart.setS; split <;> rfl
@[simp] theorem Hart.setS_region (h : Hart) (n : BitVec 6) (x : Word64) : (h.setS n x).region = h.region := by unfold Hart.setS; split <;> rfl
@[simp] theorem Hart.setS_remote (h : Hart) (n : BitVec 6) (x : Word64) : (h.setS n x).remote = h.remote := by unfold Hart.setS; split <;> rfl
@[simp] theorem Hart.setS_arrived (h : Hart) (n : BitVec 6) (x : Word64) : (h.setS n x).arrived = h.arrived := by unfold Hart.setS; split <;> rfl
@[simp] theorem Hart.setS_asked (h : Hart) (n : BitVec 6) (x : Word64) : (h.setS n x).asked = h.asked := by unfold Hart.setS; split <;> rfl
@[simp] theorem Hart.setS_bad (h : Hart) (n : BitVec 6) (x : Word64) : (h.setS n x).bad = h.bad := by unfold Hart.setS; split <;> rfl
@[simp] theorem Hart.setS_role (h : Hart) (n : BitVec 6) (x : Word64) : (h.setS n x).role = h.role := by unfold Hart.setS; split <;> rfl
@[simp] theorem Hart.setS_stopOther (h : Hart) (n : BitVec 6) (x : Word64) : (h.setS n x).stopOther = h.stopOther := by unfold Hart.setS; split <;> rfl
@[simp] theorem Hart.setS_quad (h : Hart) (n : BitVec 6) (x : Word64) : (h.setS n x).quad = h.quad := by unfold Hart.setS; split <;> rfl
@[simp] theorem Hart.setS_live (h : Hart) (n : BitVec 6) (x : Word64) : (h.setS n x).live = h.live := by unfold Hart.setS; split <;> rfl
@[simp] theorem Hart.setS_evicted (h : Hart) (n : BitVec 6) (x : Word64) : (h.setS n x).evicted = h.evicted := by unfold Hart.setS; split <;> rfl
@[simp] theorem Hart.setS_evictAsked (h : Hart) (n : BitVec 6) (x : Word64) : (h.setS n x).evictAsked = h.evictAsked := by unfold Hart.setS; split <;> rfl
@[simp] theorem Hart.setS_path (h : Hart) (n : BitVec 6) (x : Word64) (p : Bool) : (h.setS n x).path p = h.path p := by cases p <;> simp [Hart.path]

@[simp] theorem Path.shift_active (x : Path) (tick : Nat) (b : Latch) : (x.shift tick b).active = x.active := rfl
@[simp] theorem Path.shift_lanes (x : Path) (tick : Nat) (b : Latch) : (x.shift tick b).lanes = x.lanes := rfl
@[simp] theorem Path.shift_pc (x : Path) (tick : Nat) (b : Latch) : (x.shift tick b).pc = x.pc := rfl
@[simp] theorem Path.shift_emask (x : Path) (tick : Nat) (b : Latch) : (x.shift tick b).emask = x.emask := rfl
@[simp] theorem Path.shift_fmt (x : Path) (tick : Nat) (b : Latch) : (x.shift tick b).fmt = x.fmt := rfl
@[simp] theorem Path.shift_clause (x : Path) (tick : Nat) (b : Latch) : (x.shift tick b).clause = x.clause := rfl
@[simp] theorem Path.shift_susp (x : Path) (tick : Nat) (b : Latch) : (x.shift tick b).susp = x.susp := rfl
@[simp] theorem Path.shift_aging (x : Path) (tick : Nat) (b : Latch) : (x.shift tick b).aging = x.aging := rfl
@[simp] theorem Path.shift_yielded (x : Path) (tick : Nat) (b : Latch) : (x.shift tick b).yielded = x.yielded := rfl
@[simp] theorem Path.shift_issuing (x : Path) (tick : Nat) (b : Latch) : (x.shift tick b).issuing = x.issuing := rfl

@[simp] theorem Path.goto_active (x : Path) (pc : Word64) : (x.goto pc).active = x.active := rfl
@[simp] theorem Path.goto_lanes (x : Path) (pc : Word64) : (x.goto pc).lanes = x.lanes := rfl
@[simp] theorem Path.goto_emask (x : Path) (pc : Word64) : (x.goto pc).emask = x.emask := rfl
@[simp] theorem Path.goto_fmt (x : Path) (pc : Word64) : (x.goto pc).fmt = x.fmt := rfl
@[simp] theorem Path.goto_latches (x : Path) (pc : Word64) : (x.goto pc).latches = x.latches := rfl
@[simp] theorem Path.goto_susp (x : Path) (pc : Word64) : (x.goto pc).susp = x.susp := rfl
@[simp] theorem Path.goto_since (x : Path) (pc : Word64) : (x.goto pc).since = x.since := rfl
@[simp] theorem Path.goto_grant (x : Path) (pc : Word64) : (x.goto pc).grant = x.grant := rfl
@[simp] theorem Path.goto_stalled (x : Path) (pc : Word64) : (x.goto pc).stalled = x.stalled := rfl
@[simp] theorem Path.goto_arrived (x : Path) (pc : Word64) : (x.goto pc).arrived = x.arrived := rfl
@[simp] theorem Path.goto_replay (x : Path) (pc : Word64) : (x.goto pc).replay = x.replay := rfl
@[simp] theorem Path.goto_part (x : Path) (pc : Word64) : (x.goto pc).part = x.part := rfl
@[simp] theorem Path.goto_pc (x : Path) (pc : Word64) : (x.goto pc).pc = pc := rfl
@[simp] theorem Path.goto_clause (x : Path) (pc : Word64) : (x.goto pc).clause = none := rfl
@[simp] theorem Path.goto_issuing (x : Path) (pc : Word64) : (x.goto pc).issuing = false := rfl

@[simp] theorem Path.advance_active (x : Path) (n : Nat) : (x.advance n).active = x.active := by unfold Path.advance; split; rfl; split <;> rfl
@[simp] theorem Path.advance_lanes (x : Path) (n : Nat) : (x.advance n).lanes = x.lanes := by unfold Path.advance; split; rfl; split <;> rfl
@[simp] theorem Path.advance_emask (x : Path) (n : Nat) : (x.advance n).emask = x.emask := by unfold Path.advance; split; rfl; split <;> rfl
@[simp] theorem Path.advance_fmt (x : Path) (n : Nat) : (x.advance n).fmt = x.fmt := by unfold Path.advance; split; rfl; split <;> rfl
@[simp] theorem Path.advance_latches (x : Path) (n : Nat) : (x.advance n).latches = x.latches := by unfold Path.advance; split; rfl; split <;> rfl
@[simp] theorem Path.advance_susp (x : Path) (n : Nat) : (x.advance n).susp = x.susp := by unfold Path.advance; split; rfl; split <;> rfl
@[simp] theorem Path.advance_since (x : Path) (n : Nat) : (x.advance n).since = x.since := by unfold Path.advance; split; rfl; split <;> rfl
@[simp] theorem Path.advance_grant (x : Path) (n : Nat) : (x.advance n).grant = x.grant := by unfold Path.advance; split; rfl; split <;> rfl
@[simp] theorem Path.advance_stalled (x : Path) (n : Nat) : (x.advance n).stalled = x.stalled := by unfold Path.advance; split; rfl; split <;> rfl
@[simp] theorem Path.advance_arrived (x : Path) (n : Nat) : (x.advance n).arrived = x.arrived := by unfold Path.advance; split; rfl; split <;> rfl
@[simp] theorem Path.advance_replay (x : Path) (n : Nat) : (x.advance n).replay = x.replay := by unfold Path.advance; split; rfl; split <;> rfl
@[simp] theorem Path.advance_part (x : Path) (n : Nat) : (x.advance n).part = x.part := by unfold Path.advance; split; rfl; split <;> rfl

/-- A scalar register after a write (R14). -/
theorem Hart.sreg_setS (h : Hart) (n r : BitVec 6) (x : Word64) :
    (h.setS n x).sreg r = if r = n ∧ r ≠ 0 then x else h.sreg r := by
  by_cases hn : n = 0
  · subst hn
    by_cases hr : r = 0 <;> simp [Hart.setS, Hart.sreg, hr]
  · by_cases hr : r = 0
    · subst hr; simp [Hart.sreg]
    · have e : (n.toNat = r.toNat) ↔ r = n := by rw [← BitVec.toNat_inj]; omega
      have l : n.toNat < 64 := n.isLt
      simp only [Hart.setS, Hart.sreg, hn, hr, if_false, vget_vset, e, l, and_true]
      have hz : ¬ r = 0#6 := hr
      simp [hz]

/-- Scalar register s0 reads as zero whatever the register file holds (R14). -/
@[simp] theorem Hart.sreg_zero (h : Hart) : h.sreg 0 = 0 := by simp [Hart.sreg]

@[simp] theorem Hart.sreg_setPath (h : Hart) (p : Bool) (x : Path) (r : BitVec 6) : (h.setPath p x).sreg r = h.sreg r := by
  simp [Hart.sreg]
@[simp] theorem Hart.sreg_forget (h : Hart) (r : BitVec 6) : h.forget.sreg r = h.sreg r := rfl

end Sys2Proof.Machine
end

