-- ==== Sys2Proof/Laws/Ops.lean ====
section
/-! SUPPORT. The shared operations of the meanings: what each can do, once. -/

namespace Sys2Proof.Machine

/-! ## Ending an instruction -/

@[simp] theorem State.finish_ok (s t : State) : s.finish (.ok t) = .next t := rfl
@[simp] theorem State.finish_error (s : State) (h : Halt) : s.finish (.error h) = .next (s.stopped h) := rfl
/-- A meaning that ends in `finish` always gives a next state: its result, or the state in which it stops. -/
theorem State.finish_next (s : State) (r : Res State) : ∃ t, s.finish r = .next t := by cases r <;> exact ⟨_, rfl⟩
theorem State.finish_eq {s t : State} {r : Res State} (h : s.finish r = .next t) : r = .ok t ∨ ∃ e, r = .error e ∧ t = s.stopped e := by
  cases r with
  | ok u => cases h; exact .inl rfl
  | error e => cases h; exact .inr ⟨e, rfl, rfl⟩
theorem State.finishSeq_ok (s t : State) (hf : s.team.formatsOk = true) : s.finishSeq (.ok t) = .next t := by simp [State.finishSeq, hf]
theorem State.finishSeq_error (s : State) (h : Halt) (hf : s.team.formatsOk = true) :
    s.finishSeq (.error h) = .next (s.seqStopped s.cur.team h) := by simp [State.finishSeq, hf]

@[simp] theorem need_ok {b : Bool} (h : b = true) (c : Cause) (v : Word64) : need b c v = .ok () := by subst h; rfl
@[simp] theorem need_error {b : Bool} (h : b = false) (c : Cause) (v : Word64) : need b c v = .error (trapOf c v) := by subst h; rfl
@[simp] theorem await_ok {b : Bool} (h : b = true) : await b = .ok () := by subst h; rfl
@[simp] theorem await_error {b : Bool} (h : b = false) : await b = .error .stall := by subst h; rfl

/-! ## Operands -/

@[simp] theorem State.opnd_reg (s : State) (n : BitVec 6) : s.opnd (.reg n) = .ok (s.hart.sreg n) := rfl
@[simp] theorem State.opnd_const (s : State) (c : BitVec 5) : s.opnd (.const c) = .ok (constS c) := rfl
/-- A latch operand: the scalar that the latch holds, or LATCH_INVALID (R42). -/
theorem State.opnd_latch (s : State) (k : BitVec 2) :
    s.opnd (.latch k) = if (vget s.path.latches k.toNat default).kind = .scalar then .ok ((vget s.path.latches k.toNat default).bits.setWidth 64)
      else .error (trapOf .latchInvalid 0) := by
  simp only [State.opnd, Path.latch]
  split <;> rfl

/-! ## Retiring and transferring -/

/-- Retiring changes nothing but the focus's own registers and path. -/
theorem State.retire_rest (s : State) (n : Nat) (b : Latch) : s.retire n b = { s with harts := (s.retire n b).harts } := rfl
theorem State.jump_rest (s : State) (b : Latch) (a : Word64) : s.jump b a = { s with harts := (s.jump b a).harts } := rfl
@[simp] theorem State.retire_cur (s : State) (n : Nat) (b : Latch) : (s.retire n b).cur = s.cur := rfl
@[simp] theorem State.jump_cur (s : State) (b : Latch) (a : Word64) : (s.jump b a).cur = s.cur := rfl
theorem State.retire_hart (s : State) (n : Nat) (b : Latch) :
    (s.retire n b).hart = (s.hart.setPath s.cur.path ((s.path.shift s.tick b).advance n)).forget := by
  simp [State.retire, State.hart, State.setHart, State.hartOf, State.setHartOf, State.hid]
theorem State.jump_hart (s : State) (b : Latch) (a : Word64) : (s.jump b a).hart = (s.hart.setPath s.cur.path ((s.path.shift s.tick b).goto a)).forget := by
  simp [State.jump, State.hart, State.setHart, State.hartOf, State.setHartOf, State.hid]
theorem State.retire_others (s : State) (n : Nat) (b : Latch) {i : HartId} (h : i ≠ s.hid) : (s.retire n b).hartOf i = s.hartOf i :=
  mget_mset_ne _ h _ _
theorem State.jump_others (s : State) (b : Latch) (a : Word64) {i : HartId} (h : i ≠ s.hid) : (s.jump b a).hartOf i = s.hartOf i :=
  mget_mset_ne _ h _ _

theorem State.retire_path (s : State) (n : Nat) (b : Latch) : (s.retire n b).path = (s.path.shift s.tick b).advance n := by
  simp only [State.path, State.retire_hart, State.retire_cur]
  exact Hart.path_setPath _ _ _
theorem State.jump_path (s : State) (b : Latch) (a : Word64) : (s.jump b a).path = (s.path.shift s.tick b).goto a := by
  simp only [State.path, State.jump_hart, State.jump_cur]
  exact Hart.path_setPath _ _ _

/-- Writing a scalar destination: the register, unless it is s0 or nw is set (R14, R43). -/
theorem State.sreg_setDst (s : State) (d : Dst) (x : Word64) (r : BitVec 6) :
    (s.setDst d x).hart.sreg r = if r = d.reg ∧ d.nw = false ∧ r ≠ 0 then x else s.hart.sreg r := by
  unfold State.setDst
  cases hn : d.nw
  · simp [State.hart, State.setHart, State.hartOf, State.setHartOf, State.hid, Hart.sreg_setS]
  · simp
theorem State.setDst_rest (s : State) (d : Dst) (x : Word64) : s.setDst d x = { s with harts := (s.setDst d x).harts } := by
  unfold State.setDst; split <;> rfl
@[simp] theorem State.setDst_cur (s : State) (d : Dst) (x : Word64) : (s.setDst d x).cur = s.cur := by unfold State.setDst; split <;> rfl
theorem State.setDst_others (s : State) (d : Dst) (x : Word64) {i : HartId} (h : i ≠ s.hid) : (s.setDst d x).hartOf i = s.hartOf i := by
  unfold State.setDst; split
  · rfl
  · exact mget_mset_ne _ h _ _

/-- A scalar result: the registers afterwards. -/
theorem State.sreg_retireS (s : State) (n : Nat) (d : Dst) (x : Word64) (r : BitVec 6) :
    (s.retireS n d x).hart.sreg r = if r = d.reg ∧ d.nw = false ∧ r ≠ 0 then x else s.hart.sreg r := by
  simp [State.retireS, State.retire_hart, State.sreg_setDst]
theorem State.retireS_rest (s : State) (n : Nat) (d : Dst) (x : Word64) : s.retireS n d x = { s with harts := (s.retireS n d x).harts } := by
  unfold State.retireS State.setDst; split <;> rfl
theorem State.retireS_others (s : State) (n : Nat) (d : Dst) (x : Word64) {i : HartId} (h : i ≠ s.hid) : (s.retireS n d x).hartOf i = s.hartOf i := by
  unfold State.retireS
  rw [State.retire_others, State.setDst_others _ _ _ h]
  simpa [State.hid] using h

/-! ## Causes, waking and traps -/

/-- A pending cause of a live group with room joins its list, and nothing else changes (R361). -/
theorem State.addCause_live (s : State) (k g : Nat) (c : BCause) (hl : (s.hartOf (.group k g)).live = true) (hr : (s.hartOf (.group k g)).causes.length < 8) :
    s.addCause k g c = s.setHartOf (.group k g) { s.hartOf (.group k g) with causes := (s.hartOf (.group k g)).causes ++ [c] } := by
  simp [State.addCause, hl, Nat.not_le.mpr hr]

/-- A trap of a group in user mode, whose saved state can be written and whose context has a handler: its registers are those of `Hart.enter`, in the state with the frame written (R362). -/
theorem State.enterTrap_handled (s u : State) (k g : Nat) (p : Bool) (t : TrapRec) (b : Bool) (epc : Word64) (hs : (s.hartOf (.group k g)).sys = false)
    (hu : s.saveTrap (.group k g) p epc t.lanes t.addr2 0 = .ok u) (hh : (u.ctx (s.hartOf (.group k g)).asid.toNat).handler ≠ 0) :
    s.enterTrap k g p t b epc
      = u.setHartOf (.group k g) ((u.hartOf (.group k g)).enter p t b epc (u.ctx (s.hartOf (.group k g)).asid.toNat).handler) := by
  unfold State.enterTrap
  simp only [hs, hu, hh, Bool.false_eq_true, if_false]

/-! ## The device's own writes -/

theorem State.chosen_rest (s : State) : s.chosen = { s with oracle := s.chosen.oracle } := rfl
theorem State.maybeEvict_rest (s : State) (k n : Nat) : s.maybeEvict k n = { s with oracle := (s.maybeEvict k n).oracle, dirty := (s.maybeEvict k n).dirty } := by
  unfold State.maybeEvict; split <;> rfl
theorem State.physPoke_rest (s : State) (a : Nat) (bs : List Byte) :
    s.physPoke a bs = { s with mem := (s.physPoke a bs).mem, dirty := (s.physPoke a bs).dirty, poisoned := (s.physPoke a bs).poisoned } := by
  unfold State.physPoke State.physWrite
  refine List.foldlRecOn (motive := fun u : State => u = { s with mem := u.mem, dirty := u.dirty, poisoned := u.poisoned }) _ _ rfl ?_
  intro u hu p _
  split
  · rw [hu]; rfl
  · exact hu
theorem State.physPoke_wf (s : State) (a : Nat) (bs : List Byte) (h : s.mem.wf = true) : (s.physPoke a bs).mem.wf = true := by
  unfold State.physPoke State.physWrite
  refine List.foldlRecOn (motive := fun u : State => u.mem.wf = true) _ _ h ?_
  intro u hu p _
  split
  · exact Mem.wf_write hu
  · exact hu

/-- An error-log entry joins the log, its place in memory is written, and nothing else changes (R425). -/
theorem State.logError_log (s : State) (k : LogKind) (c : BitVec 7) (u a g : Nat) (x : Word64) :
    (s.logError k c u a g x).service
      = { s.service with log := s.service.log ++ [(k.code, c.setWidth 8, BitVec.ofNat 16 u, BitVec.ofNat 32 (a + g * 65536), x, 1)],
                         logHead := s.service.logHead + 1 } := by
  unfold State.logError
  simp only
  split
  · rfl
  · rw [State.physPoke_rest]
theorem State.logError_rest (s : State) (k : LogKind) (c : BitVec 7) (u a g : Nat) (x : Word64) :
    s.logError k c u a g x = { s with service := (s.logError k c u a g x).service, mem := (s.logError k c u a g x).mem,
                                      dirty := (s.logError k c u a g x).dirty, poisoned := (s.logError k c u a g x).poisoned } := by
  unfold State.logError
  simp only
  split
  · rfl
  · rw [State.physPoke_rest]
theorem State.logError_wf (s : State) (k : LogKind) (c : BitVec 7) (u a g : Nat) (x : Word64) (h : s.mem.wf = true) : (s.logError k c u a g x).mem.wf = true := by
  unfold State.logError
  simp only
  split
  · exact h
  · exact State.physPoke_wf _ _ _ h

theorem syncLoop_wf {m : Mem} (w : Nat) (h : m.wf = true) : (syncLoop m w).wf = true := by
  unfold syncLoop
  simp only
  split
  · exact h
  · exact Mem.wf_write (Mem.wf_write h)
theorem syncPorts_wf {m : Mem} (l : List Nat) (a n : Nat) (h : m.wf = true) : (syncPorts l m a n).wf = true := by
  unfold syncPorts
  induction l generalizing m with
  | nil => exact h
  | cons w l ih =>
    apply ih
    dsimp only
    split
    · exact syncLoop_wf w h
    · exact h
/-- A write to an allocation keeps its memory's canonical form. -/
theorem Team.poke_wf {t : Team} (off : Nat) (bs : List Byte) (bad : Bool) (h : t.mem.wf = true) : (t.poke off bs bad).mem.wf = true :=
  syncPorts_wf _ _ _ (Mem.wf_write h)

end Sys2Proof.Machine
end

