-- ==== Sys2Proof/Laws/PerInstr.lean ====
section
/-! SUPPORT. Per instruction: its encoding is read back, within the class and by the readers that R35, R50 and R287 give it, and the opcode map says whether a literal follows. -/

set_option Elab.async false -- one case at a time: each holds a thread
set_option linter.unusedSimpArgs false
set_option linter.unusedVariables false

namespace Sys2Proof.Laws.RoundTrip

/-- Does only a bank core accept the word (R287, R295)? -/
def own (e : Enc) : Prop := e.cls = 7 ∧ 0xF0 ≤ e.raw.op.toNat

/-- The words of an instruction stand for it, whatever follows a word that takes no literal. -/
def Statement (i : Instr) : Prop :=
  ∀ (e : Enc) (x : Word32), encodeFields i = some e → i.wf = true →
    (¬ own e → decodeWord false e.cls e.raw.toWord (e.lit.getD x) = some i) ∧ (own e → decodeWord false e.cls e.raw.toWord (e.lit.getD x) = none)
      ∧ (i.bankOk = true → decodeWord true e.cls e.raw.toWord (e.lit.getD x) = some i)
      ∧ (opInfo e.cls.toNat e.raw.op.toNat).map OpInfo.lit = some e.lit.isSome ∧ encode i = e.raw.toWord :: e.lit.toList

/-- An instruction that every reader decodes from its fields. -/
theorem of_fields {i : Instr} (e : Enc) (h : encodeFields i = some e) (ho : ¬ own e)
    (hd : ∀ (t : Bool) (x : Word32), decodeFields t e.cls e.raw (e.lit.getD x) = some i)
    (hl : (opInfo e.cls.toNat e.raw.op.toNat).map OpInfo.lit = some e.lit.isSome) (he : encode i = e.raw.toWord :: e.lit.toList) : Statement i := by
  intro e' x h' hw
  obtain rfl : e = e' := by rw [h] at h'; exact Option.some.inj h'
  refine ⟨fun _ => ?_, fun h => absurd h ho, fun hb => ?_, hl, he⟩
  · simp [decodeWord, raw_read_back, hd, hw]
  · simp [decodeWord, raw_read_back, hd, hw, hb]

/-- An instruction that only a bank core decodes from its fields. -/
theorem of_bank_fields {i : Instr} (e : Enc) (h : encodeFields i = some e) (ho : own e)
    (hd : ∀ x : Word32, decodeFields true e.cls e.raw (e.lit.getD x) = some i) (hn : ∀ x : Word32, decodeFields false e.cls e.raw x = none)
    (hl : (opInfo e.cls.toNat e.raw.op.toNat).map OpInfo.lit = some e.lit.isSome) (he : encode i = e.raw.toWord :: e.lit.toList) : Statement i := by
  intro e' x h' hw
  obtain rfl : e = e' := by rw [h] at h'; exact Option.some.inj h'
  refine ⟨fun h => absurd ho h, fun _ => ?_, fun hb => ?_, hl, he⟩
  · simp [decodeWord, raw_read_back, hn]
  · simp [decodeWord, raw_read_back, hd, hw, hb]

/-- An event, or an instruction of another encoding, has no Thazen word. -/
theorem of_none {i : Instr} (h : encodeFields i = none) : Statement i := by intro e x h'; rw [h] at h'; cases h'

theorem add (d : Dst) (a : Src) (b : Src) (t : IntTy) : Statement (.add d a b t) := by
  refine of_fields ⟨0, ⟨0x00, d.reg, d.nw, a.toBits, b.toBits, t.toBits⟩, none⟩ rfl ?_ (fun t x => ?_) rfl rfl
  · exact fun h => absurd (show (0 : BitVec 3) = 7 from h.1) (by decide)
  · simp [decodeFields, decodeClass0]
theorem sub (d : Dst) (a : Src) (b : Src) (t : IntTy) : Statement (.sub d a b t) := by
  refine of_fields ⟨0, ⟨0x01, d.reg, d.nw, a.toBits, b.toBits, t.toBits⟩, none⟩ rfl ?_ (fun t x => ?_) rfl rfl
  · exact fun h => absurd (show (0 : BitVec 3) = 7 from h.1) (by decide)
  · simp [decodeFields, decodeClass0]
theorem mul (d : Dst) (a : Src) (b : Src) (t : IntTy) : Statement (.mul d a b t) := by
  refine of_fields ⟨0, ⟨0x02, d.reg, d.nw, a.toBits, b.toBits, t.toBits⟩, none⟩ rfl ?_ (fun t x => ?_) rfl rfl
  · exact fun h => absurd (show (0 : BitVec 3) = 7 from h.1) (by decide)
  · simp [decodeFields, decodeClass0]
theorem mulh (d : Dst) (a : Src) (b : Src) (t : IntTy) : Statement (.mulh d a b t) := by
  refine of_fields ⟨0, ⟨0x03, d.reg, d.nw, a.toBits, b.toBits, t.toBits⟩, none⟩ rfl ?_ (fun t x => ?_) rfl rfl
  · exact fun h => absurd (show (0 : BitVec 3) = 7 from h.1) (by decide)
  · simp [decodeFields, decodeClass0]
theorem div (d : Dst) (a : Src) (b : Src) (t : IntTy) : Statement (.div d a b t) := by
  refine of_fields ⟨0, ⟨0x04, d.reg, d.nw, a.toBits, b.toBits, t.toBits⟩, none⟩ rfl ?_ (fun t x => ?_) rfl rfl
  · exact fun h => absurd (show (0 : BitVec 3) = 7 from h.1) (by decide)
  · simp [decodeFields, decodeClass0]
theorem rem (d : Dst) (a : Src) (b : Src) (t : IntTy) : Statement (.rem d a b t) := by
  refine of_fields ⟨0, ⟨0x05, d.reg, d.nw, a.toBits, b.toBits, t.toBits⟩, none⟩ rfl ?_ (fun t x => ?_) rfl rfl
  · exact fun h => absurd (show (0 : BitVec 3) = 7 from h.1) (by decide)
  · simp [decodeFields, decodeClass0]
theorem and (d : Dst) (a : Src) (b : Src) (t : IntTy) : Statement (.and d a b t) := by
  refine of_fields ⟨0, ⟨0x06, d.reg, d.nw, a.toBits, b.toBits, t.toBits⟩, none⟩ rfl ?_ (fun t x => ?_) rfl rfl
  · exact fun h => absurd (show (0 : BitVec 3) = 7 from h.1) (by decide)
  · simp [decodeFields, decodeClass0]
theorem or (d : Dst) (a : Src) (b : Src) (t : IntTy) : Statement (.or d a b t) := by
  refine of_fields ⟨0, ⟨0x07, d.reg, d.nw, a.toBits, b.toBits, t.toBits⟩, none⟩ rfl ?_ (fun t x => ?_) rfl rfl
  · exact fun h => absurd (show (0 : BitVec 3) = 7 from h.1) (by decide)
  · simp [decodeFields, decodeClass0]
theorem xor (d : Dst) (a : Src) (b : Src) (t : IntTy) : Statement (.xor d a b t) := by
  refine of_fields ⟨0, ⟨0x08, d.reg, d.nw, a.toBits, b.toBits, t.toBits⟩, none⟩ rfl ?_ (fun t x => ?_) rfl rfl
  · exact fun h => absurd (show (0 : BitVec 3) = 7 from h.1) (by decide)
  · simp [decodeFields, decodeClass0]
theorem andn (d : Dst) (a : Src) (b : Src) (t : IntTy) : Statement (.andn d a b t) := by
  refine of_fields ⟨0, ⟨0x09, d.reg, d.nw, a.toBits, b.toBits, t.toBits⟩, none⟩ rfl ?_ (fun t x => ?_) rfl rfl
  · exact fun h => absurd (show (0 : BitVec 3) = 7 from h.1) (by decide)
  · simp [decodeFields, decodeClass0]
theorem shl (d : Dst) (a : Src) (b : Src) (t : IntTy) : Statement (.shl d a b t) := by
  refine of_fields ⟨0, ⟨0x0A, d.reg, d.nw, a.toBits, b.toBits, t.toBits⟩, none⟩ rfl ?_ (fun t x => ?_) rfl rfl
  · exact fun h => absurd (show (0 : BitVec 3) = 7 from h.1) (by decide)
  · simp [decodeFields, decodeClass0]
theorem shr (d : Dst) (a : Src) (b : Src) (t : IntTy) : Statement (.shr d a b t) := by
  refine of_fields ⟨0, ⟨0x0B, d.reg, d.nw, a.toBits, b.toBits, t.toBits⟩, none⟩ rfl ?_ (fun t x => ?_) rfl rfl
  · exact fun h => absurd (show (0 : BitVec 3) = 7 from h.1) (by decide)
  · simp [decodeFields, decodeClass0]
theorem rol (d : Dst) (a : Src) (b : Src) (t : IntTy) : Statement (.rol d a b t) := by
  refine of_fields ⟨0, ⟨0x0C, d.reg, d.nw, a.toBits, b.toBits, t.toBits⟩, none⟩ rfl ?_ (fun t x => ?_) rfl rfl
  · exact fun h => absurd (show (0 : BitVec 3) = 7 from h.1) (by decide)
  · simp [decodeFields, decodeClass0]
theorem min (d : Dst) (a : Src) (b : Src) (t : IntTy) : Statement (.min d a b t) := by
  refine of_fields ⟨0, ⟨0x0D, d.reg, d.nw, a.toBits, b.toBits, t.toBits⟩, none⟩ rfl ?_ (fun t x => ?_) rfl rfl
  · exact fun h => absurd (show (0 : BitVec 3) = 7 from h.1) (by decide)
  · simp [decodeFields, decodeClass0]
theorem max (d : Dst) (a : Src) (b : Src) (t : IntTy) : Statement (.max d a b t) := by
  refine of_fields ⟨0, ⟨0x0E, d.reg, d.nw, a.toBits, b.toBits, t.toBits⟩, none⟩ rfl ?_ (fun t x => ?_) rfl rfl
  · exact fun h => absurd (show (0 : BitVec 3) = 7 from h.1) (by decide)
  · simp [decodeFields, decodeClass0]
theorem sel (d : Dst) (a : Src) (b : Src) : Statement (.sel d a b) := by
  refine of_fields ⟨0, ⟨0x0F, d.reg, d.nw, a.toBits, b.toBits, 0⟩, none⟩ rfl ?_ (fun t x => ?_) rfl rfl
  · exact fun h => absurd (show (0 : BitVec 3) = 7 from h.1) (by decide)
  · simp [decodeFields, decodeClass0]
theorem addi (d : Dst) (a : Src) (i : BitVec 10) : Statement (.addi d a i) := by
  refine of_fields ⟨0, Raw.ofImm 0x10 d.reg d.nw a.toBits i, none⟩ rfl ?_ (fun t x => ?_) rfl rfl
  · exact fun h => absurd (show (0 : BitVec 3) = 7 from h.1) (by decide)
  · simp [decodeFields, decodeClass0]
theorem muli (d : Dst) (a : Src) (i : BitVec 10) : Statement (.muli d a i) := by
  refine of_fields ⟨0, Raw.ofImm 0x11 d.reg d.nw a.toBits i, none⟩ rfl ?_ (fun t x => ?_) rfl rfl
  · exact fun h => absurd (show (0 : BitVec 3) = 7 from h.1) (by decide)
  · simp [decodeFields, decodeClass0]
theorem andi (d : Dst) (a : Src) (i : BitVec 10) : Statement (.andi d a i) := by
  refine of_fields ⟨0, Raw.ofImm 0x12 d.reg d.nw a.toBits i, none⟩ rfl ?_ (fun t x => ?_) rfl rfl
  · exact fun h => absurd (show (0 : BitVec 3) = 7 from h.1) (by decide)
  · simp [decodeFields, decodeClass0]
theorem ori (d : Dst) (a : Src) (i : BitVec 10) : Statement (.ori d a i) := by
  refine of_fields ⟨0, Raw.ofImm 0x13 d.reg d.nw a.toBits i, none⟩ rfl ?_ (fun t x => ?_) rfl rfl
  · exact fun h => absurd (show (0 : BitVec 3) = 7 from h.1) (by decide)
  · simp [decodeFields, decodeClass0]
theorem xori (d : Dst) (a : Src) (i : BitVec 10) : Statement (.xori d a i) := by
  refine of_fields ⟨0, Raw.ofImm 0x14 d.reg d.nw a.toBits i, none⟩ rfl ?_ (fun t x => ?_) rfl rfl
  · exact fun h => absurd (show (0 : BitVec 3) = 7 from h.1) (by decide)
  · simp [decodeFields, decodeClass0]
theorem shli (d : Dst) (a : Src) (c : BitVec 6) : Statement (.shli d a c) := by
  refine of_fields ⟨0, Raw.ofImm 0x15 d.reg d.nw a.toBits (0#4 ++ c), none⟩ rfl ?_ (fun t x => ?_) rfl rfl
  · exact fun h => absurd (show (0 : BitVec 3) = 7 from h.1) (by decide)
  · simp [decodeFields, decodeClass0] <;> (revert c; decide)
theorem shri (d : Dst) (a : Src) (h : Bool) (c : BitVec 6) : Statement (.shri d a h c) := by
  refine of_fields ⟨0, Raw.ofImm 0x16 d.reg d.nw a.toBits (0#3 ++ BitVec.ofBool h ++ c), none⟩ rfl ?_ (fun t x => ?_) rfl rfl
  · exact fun h => absurd (show (0 : BitVec 3) = 7 from h.1) (by decide)
  · cases h <;> simp [decodeFields, decodeClass0] <;> (revert c; decide)
theorem li (d : Dst) (i : BitVec 10) : Statement (.li d i) := by
  refine of_fields ⟨0, Raw.ofImm 0x17 d.reg d.nw 0 i, none⟩ rfl ?_ (fun t x => ?_) rfl rfl
  · exact fun h => absurd (show (0 : BitVec 3) = 7 from h.1) (by decide)
  · simp [decodeFields, decodeClass0]
theorem liw (d : Dst) (l : Word32) : Statement (.liw d l) := by
  refine of_fields ⟨0, ⟨0x18, d.reg, d.nw, 0, 0, 0⟩, some l⟩ rfl ?_ (fun t x => ?_) rfl rfl
  · exact fun h => absurd (show (0 : BitVec 3) = 7 from h.1) (by decide)
  · simp [decodeFields, decodeClass0]
theorem liwZ (d : Dst) (l : Word32) : Statement (.liwZ d l) := by
  refine of_fields ⟨0, ⟨0x18, d.reg, d.nw, 0, 0, 1⟩, some l⟩ rfl ?_ (fun t x => ?_) rfl rfl
  · exact fun h => absurd (show (0 : BitVec 3) = 7 from h.1) (by decide)
  · simp [decodeFields, decodeClass0]
theorem liwH (d : Dst) (a : Src) (l : Word32) : Statement (.liwH d a l) := by
  refine of_fields ⟨0, ⟨0x18, d.reg, d.nw, a.toBits, 0, 2⟩, some l⟩ rfl ?_ (fun t x => ?_) rfl rfl
  · exact fun h => absurd (show (0 : BitVec 3) = 7 from h.1) (by decide)
  · simp [decodeFields, decodeClass0]
theorem bfx (d : Dst) (a : Src) (l : BfLit) : Statement (.bfx d a l) := by
  refine of_fields ⟨0, ⟨0x19, d.reg, d.nw, a.toBits, 0, 0⟩, some l.toBits⟩ rfl ?_ (fun t x => ?_) rfl rfl
  · exact fun h => absurd (show (0 : BitVec 3) = 7 from h.1) (by decide)
  · simp [decodeFields, decodeClass0]
theorem bfi (d : Dst) (a : Src) (b : Src) (l : BfLit) : Statement (.bfi d a b l) := by
  refine of_fields ⟨0, ⟨0x1A, d.reg, d.nw, a.toBits, b.toBits, 0⟩, some l.toBits⟩ rfl ?_ (fun t x => ?_) rfl rfl
  · exact fun h => absurd (show (0 : BitVec 3) = 7 from h.1) (by decide)
  · simp [decodeFields, decodeClass0]
theorem clz (d : Dst) (a : Src) (w : BitVec 2) : Statement (.clz d a w) := by
  refine of_fields ⟨0, ⟨0x1B, d.reg, d.nw, a.toBits, 0, (1#1 ++ w)⟩, none⟩ rfl ?_ (fun t x => ?_) rfl rfl
  · exact fun h => absurd (show (0 : BitVec 3) = 7 from h.1) (by decide)
  · simp [decodeFields, decodeClass0] <;> (revert w; decide)
theorem ctz (d : Dst) (a : Src) (w : BitVec 2) : Statement (.ctz d a w) := by
  refine of_fields ⟨0, ⟨0x1C, d.reg, d.nw, a.toBits, 0, (1#1 ++ w)⟩, none⟩ rfl ?_ (fun t x => ?_) rfl rfl
  · exact fun h => absurd (show (0 : BitVec 3) = 7 from h.1) (by decide)
  · simp [decodeFields, decodeClass0] <;> (revert w; decide)
theorem popc (d : Dst) (a : Src) (w : BitVec 2) : Statement (.popc d a w) := by
  refine of_fields ⟨0, ⟨0x1D, d.reg, d.nw, a.toBits, 0, (1#1 ++ w)⟩, none⟩ rfl ?_ (fun t x => ?_) rfl rfl
  · exact fun h => absurd (show (0 : BitVec 3) = 7 from h.1) (by decide)
  · simp [decodeFields, decodeClass0] <;> (revert w; decide)
theorem cmp (d : Dst) (a : Src) (b : Src) (t : IntTy) : Statement (.cmp d a b t) := by
  refine of_fields ⟨0, ⟨0x1E, d.reg, d.nw, a.toBits, b.toBits, t.toBits⟩, none⟩ rfl ?_ (fun t x => ?_) rfl rfl
  · exact fun h => absurd (show (0 : BitVec 3) = 7 from h.1) (by decide)
  · simp [decodeFields, decodeClass0]
theorem cmpi (d : Dst) (a : Src) (i : BitVec 10) : Statement (.cmpi d a i) := by
  refine of_fields ⟨0, Raw.ofImm 0x1F d.reg d.nw a.toBits i, none⟩ rfl ?_ (fun t x => ?_) rfl rfl
  · exact fun h => absurd (show (0 : BitVec 3) = 7 from h.1) (by decide)
  · simp [decodeFields, decodeClass0]
theorem bra (i : BitVec 10) : Statement (.bra i) := by
  refine of_fields ⟨0, Raw.ofImm 0x20 0 false 0 i, none⟩ rfl ?_ (fun t x => ?_) rfl rfl
  · exact fun h => absurd (show (0 : BitVec 3) = 7 from h.1) (by decide)
  · simp [decodeFields, decodeClass0]
theorem brc (a : Src) (b : Src) (cc : BrCond) (l : Word32) : Statement (.brc a b cc l) := by
  refine of_fields ⟨0, ⟨0x21, 0, false, a.toBits, b.toBits, cc.toBits⟩, some l⟩ rfl ?_ (fun t x => ?_) rfl rfl
  · exact fun h => absurd (show (0 : BitVec 3) = 7 from h.1) (by decide)
  · simp [decodeFields, decodeClass0]
theorem brz (a : Src) (i : BitVec 10) : Statement (.brz a i) := by
  refine of_fields ⟨0, Raw.ofImm 0x22 0 false a.toBits i, none⟩ rfl ?_ (fun t x => ?_) rfl rfl
  · exact fun h => absurd (show (0 : BitVec 3) = 7 from h.1) (by decide)
  · simp [decodeFields, decodeClass0]
theorem brnz (a : Src) (i : BitVec 10) : Statement (.brnz a i) := by
  refine of_fields ⟨0, Raw.ofImm 0x23 0 false a.toBits i, none⟩ rfl ?_ (fun t x => ?_) rfl rfl
  · exact fun h => absurd (show (0 : BitVec 3) = 7 from h.1) (by decide)
  · simp [decodeFields, decodeClass0]
theorem jmp (l : Word32) : Statement (.jmp l) := by
  refine of_fields ⟨0, ⟨0x24, 0, false, 0, 0, 0⟩, some l⟩ rfl ?_ (fun t x => ?_) rfl rfl
  · exact fun h => absurd (show (0 : BitVec 3) = 7 from h.1) (by decide)
  · simp [decodeFields, decodeClass0]
theorem jmpReg (a : Src) (l : Word32) : Statement (.jmpReg a l) := by
  refine of_fields ⟨0, ⟨0x24, 0, false, a.toBits, 0, 1⟩, some l⟩ rfl ?_ (fun t x => ?_) rfl rfl
  · exact fun h => absurd (show (0 : BitVec 3) = 7 from h.1) (by decide)
  · simp [decodeFields, decodeClass0]
theorem call (d : Dst) (l : Word32) : Statement (.call d l) := by
  refine of_fields ⟨0, ⟨0x25, d.reg, d.nw, 0, 0, 0⟩, some l⟩ rfl ?_ (fun t x => ?_) rfl rfl
  · exact fun h => absurd (show (0 : BitVec 3) = 7 from h.1) (by decide)
  · simp [decodeFields, decodeClass0]
theorem callr (d : Dst) (a : Src) : Statement (.callr d a) := by
  refine of_fields ⟨0, ⟨0x26, d.reg, d.nw, a.toBits, 0, 0⟩, none⟩ rfl ?_ (fun t x => ?_) rfl rfl
  · exact fun h => absurd (show (0 : BitVec 3) = 7 from h.1) (by decide)
  · simp [decodeFields, decodeClass0]
theorem ret (a : Src) : Statement (.ret a) := by
  refine of_fields ⟨0, ⟨0x27, 0, false, a.toBits, 0, 0⟩, none⟩ rfl ?_ (fun t x => ?_) rfl rfl
  · exact fun h => absurd (show (0 : BitVec 3) = 7 from h.1) (by decide)
  · simp [decodeFields, decodeClass0]
theorem brm (a : Src) (i : BitVec 10) : Statement (.brm a i) := by
  refine of_fields ⟨0, Raw.ofImm 0x28 0 false a.toBits i, none⟩ rfl ?_ (fun t x => ?_) rfl rfl
  · exact fun h => absurd (show (0 : BitVec 3) = 7 from h.1) (by decide)
  · simp [decodeFields, decodeClass0]
theorem join : Statement .join := by
  refine of_fields ⟨0, ⟨0x29, 0, false, 0, 0, 0⟩, none⟩ rfl ?_ (fun t x => ?_) rfl rfl
  · exact fun h => absurd (show (0 : BitVec 3) = 7 from h.1) (by decide)
  · simp [decodeFields, decodeClass0]
theorem looph : Statement .looph := by
  refine of_fields ⟨0, ⟨0x2A, 0, false, 0, 0, 0⟩, none⟩ rfl ?_ (fun t x => ?_) rfl rfl
  · exact fun h => absurd (show (0 : BitVec 3) = 7 from h.1) (by decide)
  · simp [decodeFields, decodeClass0]
theorem exit : Statement .exit := by
  refine of_fields ⟨0, ⟨0x2B, 0, false, 0, 0, 0⟩, none⟩ rfl ?_ (fun t x => ?_) rfl rfl
  · exact fun h => absurd (show (0 : BitVec 3) = 7 from h.1) (by decide)
  · simp [decodeFields, decodeClass0]
theorem nop : Statement .nop := by
  refine of_fields ⟨0, ⟨0x2C, 0, false, 0, 0, 0⟩, none⟩ rfl ?_ (fun t x => ?_) rfl rfl
  · exact fun h => absurd (show (0 : BitVec 3) = 7 from h.1) (by decide)
  · simp [decodeFields, decodeClass0]
theorem yield : Statement .yield := by
  refine of_fields ⟨0, ⟨0x2D, 0, false, 0, 0, 0⟩, none⟩ rfl ?_ (fun t x => ?_) rfl rfl
  · exact fun h => absurd (show (0 : BitVec 3) = 7 from h.1) (by decide)
  · simp [decodeFields, decodeClass0]
theorem ld (d : Dst) (a : Src) (t : IntTy) (l : MemM) : Statement (.ld d a t l) := by
  refine of_fields ⟨2, ⟨0x00, d.reg, d.nw, a.toBits, 0, t.toBits⟩, some l.toBits⟩ rfl ?_ (fun t x => ?_) rfl rfl
  · exact fun h => absurd (show (2 : BitVec 3) = 7 from h.1) (by decide)
  · simp [decodeFields, decodeClass2]
theorem st (a : Src) (b : Src) (t : IntTy) (l : MemM) : Statement (.st a b t l) := by
  refine of_fields ⟨2, ⟨0x01, 0, false, a.toBits, b.toBits, t.toBits⟩, some l.toBits⟩ rfl ?_ (fun t x => ?_) rfl rfl
  · exact fun h => absurd (show (2 : BitVec 3) = 7 from h.1) (by decide)
  · simp [decodeFields, decodeClass2]
theorem ldaq (d : Dst) (a : Src) (t : IntTy) (l : MemS) : Statement (.ldaq d a t l) := by
  refine of_fields ⟨2, ⟨0x02, d.reg, d.nw, a.toBits, 0, t.toBits⟩, some l.toBits⟩ rfl ?_ (fun t x => ?_) rfl rfl
  · exact fun h => absurd (show (2 : BitVec 3) = 7 from h.1) (by decide)
  · simp [decodeFields, decodeClass2]
theorem strl (a : Src) (b : Src) (t : IntTy) (l : MemS) : Statement (.strl a b t l) := by
  refine of_fields ⟨2, ⟨0x03, 0, false, a.toBits, b.toBits, t.toBits⟩, some l.toBits⟩ rfl ?_ (fun t x => ?_) rfl rfl
  · exact fun h => absurd (show (2 : BitVec 3) = 7 from h.1) (by decide)
  · simp [decodeFields, decodeClass2]
theorem vld (d : Dst) (a : Src) (k : MSel) (l : MemM) : Statement (.vld d a k l) := by
  refine of_fields ⟨2, ⟨0x04, d.reg, d.nw, a.toBits, 0, (0#1 ++ k.toBits)⟩, some l.toBits⟩ rfl ?_ (fun t x => ?_) rfl rfl
  · exact fun h => absurd (show (2 : BitVec 3) = 7 from h.1) (by decide)
  · cases k <;> simp [decodeFields, decodeClass2, MSel.toBits, MSel.ofBits]
theorem vst (d : BitVec 6) (a : Src) (k : MSel) (l : MemM) : Statement (.vst d a k l) := by
  refine of_fields ⟨2, ⟨0x05, d, false, a.toBits, 0, (0#1 ++ k.toBits)⟩, some l.toBits⟩ rfl ?_ (fun t x => ?_) rfl rfl
  · exact fun h => absurd (show (2 : BitVec 3) = 7 from h.1) (by decide)
  · cases k <;> simp [decodeFields, decodeClass2, MSel.toBits, MSel.ofBits]
theorem vlds (d : Dst) (a : Src) (b : Src) (k : MSel) (l : MemM) : Statement (.vlds d a b k l) := by
  refine of_fields ⟨2, ⟨0x06, d.reg, d.nw, a.toBits, b.toBits, (0#1 ++ k.toBits)⟩, some l.toBits⟩ rfl ?_ (fun t x => ?_) rfl rfl
  · exact fun h => absurd (show (2 : BitVec 3) = 7 from h.1) (by decide)
  · cases k <;> simp [decodeFields, decodeClass2, MSel.toBits, MSel.ofBits]
theorem vsts (d : BitVec 6) (a : Src) (b : Src) (k : MSel) (l : MemM) : Statement (.vsts d a b k l) := by
  refine of_fields ⟨2, ⟨0x07, d, false, a.toBits, b.toBits, (0#1 ++ k.toBits)⟩, some l.toBits⟩ rfl ?_ (fun t x => ?_) rfl rfl
  · exact fun h => absurd (show (2 : BitVec 3) = 7 from h.1) (by decide)
  · cases k <;> simp [decodeFields, decodeClass2, MSel.toBits, MSel.ofBits]
theorem vldff (d : Dst) (a : Src) (k : MSel) (l : MemM) : Statement (.vldff d a k l) := by
  refine of_fields ⟨2, ⟨0x08, d.reg, d.nw, a.toBits, 0, (0#1 ++ k.toBits)⟩, some l.toBits⟩ rfl ?_ (fun t x => ?_) rfl rfl
  · exact fun h => absurd (show (2 : BitVec 3) = 7 from h.1) (by decide)
  · cases k <;> simp [decodeFields, decodeClass2, MSel.toBits, MSel.ofBits]
theorem vldx (d : Dst) (a : Src) (b : Src) (k : MSel) (l : MemX) : Statement (.vldx d a b k l) := by
  refine of_fields ⟨2, ⟨0x09, d.reg, d.nw, a.toBits, b.toBits, (0#1 ++ k.toBits)⟩, some l.toBits⟩ rfl ?_ (fun t x => ?_) rfl rfl
  · exact fun h => absurd (show (2 : BitVec 3) = 7 from h.1) (by decide)
  · cases k <;> simp [decodeFields, decodeClass2, MSel.toBits, MSel.ofBits]
theorem vstx (d : BitVec 6) (a : Src) (b : Src) (k : MSel) (l : MemX) : Statement (.vstx d a b k l) := by
  refine of_fields ⟨2, ⟨0x0A, d, false, a.toBits, b.toBits, (0#1 ++ k.toBits)⟩, some l.toBits⟩ rfl ?_ (fun t x => ?_) rfl rfl
  · exact fun h => absurd (show (2 : BitVec 3) = 7 from h.1) (by decide)
  · cases k <;> simp [decodeFields, decodeClass2, MSel.toBits, MSel.ofBits]
theorem tld (d : Dst) (a : Src) (chk : Bool) (l : MemM) : Statement (.tld d a chk l) := by
  refine of_fields ⟨2, ⟨0x0B, d.reg, d.nw, a.toBits, 0, (0#2 ++ BitVec.ofBool chk)⟩, some l.toBits⟩ rfl ?_ (fun t x => ?_) rfl rfl
  · exact fun h => absurd (show (2 : BitVec 3) = 7 from h.1) (by decide)
  · cases chk <;> simp [decodeFields, decodeClass2]
theorem tst (d : BitVec 6) (a : Src) (l : MemM) : Statement (.tst d a l) := by
  refine of_fields ⟨2, ⟨0x0C, d, false, a.toBits, 0, 0⟩, some l.toBits⟩ rfl ?_ (fun t x => ?_) rfl rfl
  · exact fun h => absurd (show (2 : BitVec 3) = 7 from h.1) (by decide)
  · simp [decodeFields, decodeClass2]
theorem putt (d : BitVec 6) (a : Src) (l : MemS) : Statement (.putt d a l) := by
  refine of_fields ⟨2, ⟨0x0D, d, false, a.toBits, 0, 0⟩, some l.toBits⟩ rfl ?_ (fun t x => ?_) rfl rfl
  · exact fun h => absurd (show (2 : BitVec 3) = 7 from h.1) (by decide)
  · simp [decodeFields, decodeClass2]
theorem ldc (d : Dst) (a : Src) (chk : Bool) (l : MemS) : Statement (.ldc d a chk l) := by
  refine of_fields ⟨2, ⟨0x0E, d.reg, d.nw, a.toBits, 0, (0#2 ++ BitVec.ofBool chk)⟩, some l.toBits⟩ rfl ?_ (fun t x => ?_) rfl rfl
  · exact fun h => absurd (show (2 : BitVec 3) = 7 from h.1) (by decide)
  · cases chk <;> simp [decodeFields, decodeClass2]
theorem ldp (d : Dst) (a : Src) (chk : Bool) (l : MemS) : Statement (.ldp d a chk l) := by
  refine of_fields ⟨2, ⟨0x0F, d.reg, d.nw, a.toBits, 0, (0#2 ++ BitVec.ofBool chk)⟩, some l.toBits⟩ rfl ?_ (fun t x => ?_) rfl rfl
  · exact fun h => absurd (show (2 : BitVec 3) = 7 from h.1) (by decide)
  · cases chk <;> simp [decodeFields, decodeClass2]
theorem taglk (d : Dst) (a : Src) : Statement (.taglk d a) := by
  refine of_fields ⟨2, ⟨0x10, d.reg, d.nw, a.toBits, 0, 0⟩, none⟩ rfl ?_ (fun t x => ?_) rfl rfl
  · exact fun h => absurd (show (2 : BitVec 3) = 7 from h.1) (by decide)
  · simp [decodeFields, decodeClass2]
theorem tagins (d : Dst) (a : Src) (b : Src) : Statement (.tagins d a b) := by
  refine of_fields ⟨2, ⟨0x11, d.reg, d.nw, a.toBits, b.toBits, 0⟩, none⟩ rfl ?_ (fun t x => ?_) rfl rfl
  · exact fun h => absurd (show (2 : BitVec 3) = 7 from h.1) (by decide)
  · simp [decodeFields, decodeClass2]
theorem tagdel (d : Dst) (a : Src) : Statement (.tagdel d a) := by
  refine of_fields ⟨2, ⟨0x12, d.reg, d.nw, a.toBits, 0, 0⟩, none⟩ rfl ?_ (fun t x => ?_) rfl rfl
  · exact fun h => absurd (show (2 : BitVec 3) = 7 from h.1) (by decide)
  · simp [decodeFields, decodeClass2]
theorem amo (d : Dst) (a : Src) (b : Src) (t : IntTy) (l : MemA) : Statement (.amo d a b t l) := by
  refine of_fields ⟨2, ⟨0x13, d.reg, d.nw, a.toBits, b.toBits, t.toBits⟩, some l.toBits⟩ rfl ?_ (fun t x => ?_) rfl rfl
  · exact fun h => absurd (show (2 : BitVec 3) = 7 from h.1) (by decide)
  · simp [decodeFields, decodeClass2]
theorem amon (a : Src) (b : Src) (t : IntTy) (l : MemA) : Statement (.amon a b t l) := by
  refine of_fields ⟨2, ⟨0x14, 0, false, a.toBits, b.toBits, t.toBits⟩, some l.toBits⟩ rfl ?_ (fun t x => ?_) rfl rfl
  · exact fun h => absurd (show (2 : BitVec 3) = 7 from h.1) (by decide)
  · simp [decodeFields, decodeClass2]
theorem vamo (d : Dst) (a : Src) (b : Src) (u : Bool) (k : MSel) (l : MemVA) : Statement (.vamo d a b u k l) := by
  refine of_fields ⟨2, ⟨0x15, d.reg, d.nw, a.toBits, b.toBits, (BitVec.ofBool u ++ k.toBits)⟩, some l.toBits⟩ rfl ?_ (fun t x => ?_) rfl rfl
  · exact fun h => absurd (show (2 : BitVec 3) = 7 from h.1) (by decide)
  · cases u <;> cases k <;> simp [decodeFields, decodeClass2, MSel.toBits, MSel.ofBits]
theorem vamon (d : BitVec 6) (a : Src) (b : Src) (u : Bool) (k : MSel) (l : MemVA) : Statement (.vamon d a b u k l) := by
  refine of_fields ⟨2, ⟨0x16, d, false, a.toBits, b.toBits, (BitVec.ofBool u ++ k.toBits)⟩, some l.toBits⟩ rfl ?_ (fun t x => ?_) rfl rfl
  · exact fun h => absurd (show (2 : BitVec 3) = 7 from h.1) (by decide)
  · cases u <;> cases k <;> simp [decodeFields, decodeClass2, MSel.toBits, MSel.ofBits]
theorem cas (d : Dst) (a : Src) (b : Src) (t : IntTy) (l : MemA) : Statement (.cas d a b t l) := by
  refine of_fields ⟨2, ⟨0x17, d.reg, d.nw, a.toBits, b.toBits, t.toBits⟩, some l.toBits⟩ rfl ?_ (fun t x => ?_) rfl rfl
  · exact fun h => absurd (show (2 : BitVec 3) = 7 from h.1) (by decide)
  · simp [decodeFields, decodeClass2]
theorem vcas (d : BitVec 6) (a : Src) (b : Src) (u : Bool) (k : MSel) (l : MemVA) : Statement (.vcas d a b u k l) := by
  refine of_fields ⟨2, ⟨0x18, d, false, a.toBits, b.toBits, (BitVec.ofBool u ++ k.toBits)⟩, some l.toBits⟩ rfl ?_ (fun t x => ?_) rfl rfl
  · exact fun h => absurd (show (2 : BitVec 3) = 7 from h.1) (by decide)
  · cases u <;> cases k <;> simp [decodeFields, decodeClass2, MSel.toBits, MSel.ofBits]
theorem nma (a : Src) (b : Src) (t : IntTy) (l : MemA) : Statement (.nma a b t l) := by
  refine of_fields ⟨2, ⟨0x19, 0, false, a.toBits, b.toBits, t.toBits⟩, some l.toBits⟩ rfl ?_ (fun t x => ?_) rfl rfl
  · exact fun h => absurd (show (2 : BitVec 3) = 7 from h.1) (by decide)
  · simp [decodeFields, decodeClass2]
theorem vnma (d : BitVec 6) (a : Src) (b : Src) (u : Bool) (k : MSel) (l : MemVA) : Statement (.vnma d a b u k l) := by
  refine of_fields ⟨2, ⟨0x1A, d, false, a.toBits, b.toBits, (BitVec.ofBool u ++ k.toBits)⟩, some l.toBits⟩ rfl ?_ (fun t x => ?_) rfl rfl
  · exact fun h => absurd (show (2 : BitVec 3) = 7 from h.1) (by decide)
  · cases u <;> cases k <;> simp [decodeFields, decodeClass2, MSel.toBits, MSel.ofBits]
theorem fence (s : Scope) : Statement (.fence s) := by
  refine of_fields ⟨2, ⟨0x1B, 0, false, 0, 0, s.toBits⟩, none⟩ rfl ?_ (fun t x => ?_) rfl rfl
  · exact fun h => absurd (show (2 : BitVec 3) = 7 from h.1) (by decide)
  · simp [decodeFields, decodeClass2]
theorem pref (a : Src) (dc : Bool) (l : MemM) : Statement (.pref a dc l) := by
  refine of_fields ⟨2, ⟨0x1C, 0, false, a.toBits, 0, (0#2 ++ BitVec.ofBool dc)⟩, some l.toBits⟩ rfl ?_ (fun t x => ?_) rfl rfl
  · exact fun h => absurd (show (2 : BitVec 3) = 7 from h.1) (by decide)
  · cases dc <;> simp [decodeFields, decodeClass2]
theorem cclean (a : Src) (l : MemM) : Statement (.cclean a l) := by
  refine of_fields ⟨2, ⟨0x1D, 0, false, a.toBits, 0, 0⟩, some l.toBits⟩ rfl ?_ (fun t x => ?_) rfl rfl
  · exact fun h => absurd (show (2 : BitVec 3) = 7 from h.1) (by decide)
  · simp [decodeFields, decodeClass2]
theorem cinv (a : Src) (all : Bool) (l : MemM) : Statement (.cinv a all l) := by
  refine of_fields ⟨2, ⟨0x1E, 0, false, a.toBits, 0, (0#2 ++ BitVec.ofBool all)⟩, some l.toBits⟩ rfl ?_ (fun t x => ?_) rfl rfl
  · exact fun h => absurd (show (2 : BitVec 3) = 7 from h.1) (by decide)
  · cases all <;> simp [decodeFields, decodeClass2]
theorem tfill (a : Src) (b : Src) (l : MemM) : Statement (.tfill a b l) := by
  refine of_fields ⟨2, ⟨0x1F, 0, false, a.toBits, b.toBits, 0⟩, some l.toBits⟩ rfl ?_ (fun t x => ?_) rfl rfl
  · exact fun h => absurd (show (2 : BitVec 3) = 7 from h.1) (by decide)
  · simp [decodeFields, decodeClass2]
theorem tempty (a : Src) (b : Src) (l : MemM) : Statement (.tempty a b l) := by
  refine of_fields ⟨2, ⟨0x20, 0, false, a.toBits, b.toBits, 0⟩, some l.toBits⟩ rfl ?_ (fun t x => ?_) rfl rfl
  · exact fun h => absurd (show (2 : BitVec 3) = 7 from h.1) (by decide)
  · simp [decodeFields, decodeClass2]
theorem ttag (d : Dst) (a : Src) (l : MemM) : Statement (.ttag d a l) := by
  refine of_fields ⟨2, ⟨0x21, d.reg, d.nw, a.toBits, 0, 0⟩, some l.toBits⟩ rfl ?_ (fun t x => ?_) rfl rfl
  · exact fun h => absurd (show (2 : BitVec 3) = 7 from h.1) (by decide)
  · simp [decodeFields, decodeClass2]
theorem cflush (a : Src) (l : MemM) : Statement (.cflush a l) := by
  refine of_fields ⟨2, ⟨0x22, 0, false, a.toBits, 0, 0⟩, some l.toBits⟩ rfl ?_ (fun t x => ?_) rfl rfl
  · exact fun h => absurd (show (2 : BitVec 3) = 7 from h.1) (by decide)
  · simp [decodeFields, decodeClass2]
theorem vadd (d : Dst) (a : Src) (b : Src) (u : Bool) (k : MSel) : Statement (.vadd d a b u k) := by
  refine of_fields ⟨1, ⟨0x00, d.reg, d.nw, a.toBits, b.toBits, (BitVec.ofBool u ++ k.toBits)⟩, none⟩ rfl ?_ (fun t x => ?_) rfl rfl
  · exact fun h => absurd (show (1 : BitVec 3) = 7 from h.1) (by decide)
  · cases u <;> cases k <;> simp [decodeFields, decodeClass1, MSel.toBits, MSel.ofBits]
theorem vsub (d : Dst) (a : Src) (b : Src) (u : Bool) (k : MSel) : Statement (.vsub d a b u k) := by
  refine of_fields ⟨1, ⟨0x01, d.reg, d.nw, a.toBits, b.toBits, (BitVec.ofBool u ++ k.toBits)⟩, none⟩ rfl ?_ (fun t x => ?_) rfl rfl
  · exact fun h => absurd (show (1 : BitVec 3) = 7 from h.1) (by decide)
  · cases u <;> cases k <;> simp [decodeFields, decodeClass1, MSel.toBits, MSel.ofBits]
theorem vmul (d : Dst) (a : Src) (b : Src) (u : Bool) (k : MSel) : Statement (.vmul d a b u k) := by
  refine of_fields ⟨1, ⟨0x02, d.reg, d.nw, a.toBits, b.toBits, (BitVec.ofBool u ++ k.toBits)⟩, none⟩ rfl ?_ (fun t x => ?_) rfl rfl
  · exact fun h => absurd (show (1 : BitVec 3) = 7 from h.1) (by decide)
  · cases u <;> cases k <;> simp [decodeFields, decodeClass1, MSel.toBits, MSel.ofBits]
theorem vmulh (d : Dst) (a : Src) (b : Src) (u : Bool) (k : MSel) : Statement (.vmulh d a b u k) := by
  refine of_fields ⟨1, ⟨0x03, d.reg, d.nw, a.toBits, b.toBits, (BitVec.ofBool u ++ k.toBits)⟩, none⟩ rfl ?_ (fun t x => ?_) rfl rfl
  · exact fun h => absurd (show (1 : BitVec 3) = 7 from h.1) (by decide)
  · cases u <;> cases k <;> simp [decodeFields, decodeClass1, MSel.toBits, MSel.ofBits]
theorem vdiv (d : Dst) (a : Src) (b : Src) (u : Bool) (k : MSel) : Statement (.vdiv d a b u k) := by
  refine of_fields ⟨1, ⟨0x04, d.reg, d.nw, a.toBits, b.toBits, (BitVec.ofBool u ++ k.toBits)⟩, none⟩ rfl ?_ (fun t x => ?_) rfl rfl
  · exact fun h => absurd (show (1 : BitVec 3) = 7 from h.1) (by decide)
  · cases u <;> cases k <;> simp [decodeFields, decodeClass1, MSel.toBits, MSel.ofBits]
theorem vrem (d : Dst) (a : Src) (b : Src) (u : Bool) (k : MSel) : Statement (.vrem d a b u k) := by
  refine of_fields ⟨1, ⟨0x05, d.reg, d.nw, a.toBits, b.toBits, (BitVec.ofBool u ++ k.toBits)⟩, none⟩ rfl ?_ (fun t x => ?_) rfl rfl
  · exact fun h => absurd (show (1 : BitVec 3) = 7 from h.1) (by decide)
  · cases u <;> cases k <;> simp [decodeFields, decodeClass1, MSel.toBits, MSel.ofBits]
theorem vand (d : Dst) (a : Src) (b : Src) (u : Bool) (k : MSel) : Statement (.vand d a b u k) := by
  refine of_fields ⟨1, ⟨0x06, d.reg, d.nw, a.toBits, b.toBits, (BitVec.ofBool u ++ k.toBits)⟩, none⟩ rfl ?_ (fun t x => ?_) rfl rfl
  · exact fun h => absurd (show (1 : BitVec 3) = 7 from h.1) (by decide)
  · cases u <;> cases k <;> simp [decodeFields, decodeClass1, MSel.toBits, MSel.ofBits]
theorem vor (d : Dst) (a : Src) (b : Src) (u : Bool) (k : MSel) : Statement (.vor d a b u k) := by
  refine of_fields ⟨1, ⟨0x07, d.reg, d.nw, a.toBits, b.toBits, (BitVec.ofBool u ++ k.toBits)⟩, none⟩ rfl ?_ (fun t x => ?_) rfl rfl
  · exact fun h => absurd (show (1 : BitVec 3) = 7 from h.1) (by decide)
  · cases u <;> cases k <;> simp [decodeFields, decodeClass1, MSel.toBits, MSel.ofBits]
theorem vxor (d : Dst) (a : Src) (b : Src) (u : Bool) (k : MSel) : Statement (.vxor d a b u k) := by
  refine of_fields ⟨1, ⟨0x08, d.reg, d.nw, a.toBits, b.toBits, (BitVec.ofBool u ++ k.toBits)⟩, none⟩ rfl ?_ (fun t x => ?_) rfl rfl
  · exact fun h => absurd (show (1 : BitVec 3) = 7 from h.1) (by decide)
  · cases u <;> cases k <;> simp [decodeFields, decodeClass1, MSel.toBits, MSel.ofBits]
theorem vshl (d : Dst) (a : Src) (b : Src) (u : Bool) (k : MSel) : Statement (.vshl d a b u k) := by
  refine of_fields ⟨1, ⟨0x09, d.reg, d.nw, a.toBits, b.toBits, (BitVec.ofBool u ++ k.toBits)⟩, none⟩ rfl ?_ (fun t x => ?_) rfl rfl
  · exact fun h => absurd (show (1 : BitVec 3) = 7 from h.1) (by decide)
  · cases u <;> cases k <;> simp [decodeFields, decodeClass1, MSel.toBits, MSel.ofBits]
theorem vshr (d : Dst) (a : Src) (b : Src) (u : Bool) (k : MSel) : Statement (.vshr d a b u k) := by
  refine of_fields ⟨1, ⟨0x0A, d.reg, d.nw, a.toBits, b.toBits, (BitVec.ofBool u ++ k.toBits)⟩, none⟩ rfl ?_ (fun t x => ?_) rfl rfl
  · exact fun h => absurd (show (1 : BitVec 3) = 7 from h.1) (by decide)
  · cases u <;> cases k <;> simp [decodeFields, decodeClass1, MSel.toBits, MSel.ofBits]
theorem vmin (d : Dst) (a : Src) (b : Src) (u : Bool) (k : MSel) : Statement (.vmin d a b u k) := by
  refine of_fields ⟨1, ⟨0x0B, d.reg, d.nw, a.toBits, b.toBits, (BitVec.ofBool u ++ k.toBits)⟩, none⟩ rfl ?_ (fun t x => ?_) rfl rfl
  · exact fun h => absurd (show (1 : BitVec 3) = 7 from h.1) (by decide)
  · cases u <;> cases k <;> simp [decodeFields, decodeClass1, MSel.toBits, MSel.ofBits]
theorem vmax (d : Dst) (a : Src) (b : Src) (u : Bool) (k : MSel) : Statement (.vmax d a b u k) := by
  refine of_fields ⟨1, ⟨0x0C, d.reg, d.nw, a.toBits, b.toBits, (BitVec.ofBool u ++ k.toBits)⟩, none⟩ rfl ?_ (fun t x => ?_) rfl rfl
  · exact fun h => absurd (show (1 : BitVec 3) = 7 from h.1) (by decide)
  · cases u <;> cases k <;> simp [decodeFields, decodeClass1, MSel.toBits, MSel.ofBits]
theorem vabs (d : Dst) (a : Src) (k : MSel) : Statement (.vabs d a k) := by
  refine of_fields ⟨1, ⟨0x0D, d.reg, d.nw, a.toBits, 0, (0#1 ++ k.toBits)⟩, none⟩ rfl ?_ (fun t x => ?_) rfl rfl
  · exact fun h => absurd (show (1 : BitVec 3) = 7 from h.1) (by decide)
  · cases k <;> simp [decodeFields, decodeClass1, MSel.toBits, MSel.ofBits]
theorem vneg (d : Dst) (a : Src) (k : MSel) : Statement (.vneg d a k) := by
  refine of_fields ⟨1, ⟨0x0E, d.reg, d.nw, a.toBits, 0, (0#1 ++ k.toBits)⟩, none⟩ rfl ?_ (fun t x => ?_) rfl rfl
  · exact fun h => absurd (show (1 : BitVec 3) = 7 from h.1) (by decide)
  · cases k <;> simp [decodeFields, decodeClass1, MSel.toBits, MSel.ofBits]
theorem vmerge (d : Dst) (a : Src) (b : Src) (k : MSel) : Statement (.vmerge d a b k) := by
  refine of_fields ⟨1, ⟨0x0F, d.reg, d.nw, a.toBits, b.toBits, (0#1 ++ k.toBits)⟩, none⟩ rfl ?_ (fun t x => ?_) rfl rfl
  · exact fun h => absurd (show (1 : BitVec 3) = 7 from h.1) (by decide)
  · cases k <;> simp [decodeFields, decodeClass1, MSel.toBits, MSel.ofBits]
theorem vfadd (d : Dst) (a : Src) (b : Src) (u : Bool) (k : MSel) : Statement (.vfadd d a b u k) := by
  refine of_fields ⟨1, ⟨0x10, d.reg, d.nw, a.toBits, b.toBits, (BitVec.ofBool u ++ k.toBits)⟩, none⟩ rfl ?_ (fun t x => ?_) rfl rfl
  · exact fun h => absurd (show (1 : BitVec 3) = 7 from h.1) (by decide)
  · cases u <;> cases k <;> simp [decodeFields, decodeClass1, MSel.toBits, MSel.ofBits]
theorem vfsub (d : Dst) (a : Src) (b : Src) (u : Bool) (k : MSel) : Statement (.vfsub d a b u k) := by
  refine of_fields ⟨1, ⟨0x11, d.reg, d.nw, a.toBits, b.toBits, (BitVec.ofBool u ++ k.toBits)⟩, none⟩ rfl ?_ (fun t x => ?_) rfl rfl
  · exact fun h => absurd (show (1 : BitVec 3) = 7 from h.1) (by decide)
  · cases u <;> cases k <;> simp [decodeFields, decodeClass1, MSel.toBits, MSel.ofBits]
theorem vfmul (d : Dst) (a : Src) (b : Src) (u : Bool) (k : MSel) : Statement (.vfmul d a b u k) := by
  refine of_fields ⟨1, ⟨0x12, d.reg, d.nw, a.toBits, b.toBits, (BitVec.ofBool u ++ k.toBits)⟩, none⟩ rfl ?_ (fun t x => ?_) rfl rfl
  · exact fun h => absurd (show (1 : BitVec 3) = 7 from h.1) (by decide)
  · cases u <;> cases k <;> simp [decodeFields, decodeClass1, MSel.toBits, MSel.ofBits]
theorem vfdiv (d : Dst) (a : Src) (b : Src) (u : Bool) (k : MSel) : Statement (.vfdiv d a b u k) := by
  refine of_fields ⟨1, ⟨0x13, d.reg, d.nw, a.toBits, b.toBits, (BitVec.ofBool u ++ k.toBits)⟩, none⟩ rfl ?_ (fun t x => ?_) rfl rfl
  · exact fun h => absurd (show (1 : BitVec 3) = 7 from h.1) (by decide)
  · cases u <;> cases k <;> simp [decodeFields, decodeClass1, MSel.toBits, MSel.ofBits]
theorem vfma (d : Dst) (a : Src) (b : Src) (u : Bool) (k : MSel) : Statement (.vfma d a b u k) := by
  refine of_fields ⟨1, ⟨0x14, d.reg, d.nw, a.toBits, b.toBits, (BitVec.ofBool u ++ k.toBits)⟩, none⟩ rfl ?_ (fun t x => ?_) rfl rfl
  · exact fun h => absurd (show (1 : BitVec 3) = 7 from h.1) (by decide)
  · cases u <;> cases k <;> simp [decodeFields, decodeClass1, MSel.toBits, MSel.ofBits]
theorem vfms (d : Dst) (a : Src) (b : Src) (u : Bool) (k : MSel) : Statement (.vfms d a b u k) := by
  refine of_fields ⟨1, ⟨0x15, d.reg, d.nw, a.toBits, b.toBits, (BitVec.ofBool u ++ k.toBits)⟩, none⟩ rfl ?_ (fun t x => ?_) rfl rfl
  · exact fun h => absurd (show (1 : BitVec 3) = 7 from h.1) (by decide)
  · cases u <;> cases k <;> simp [decodeFields, decodeClass1, MSel.toBits, MSel.ofBits]
theorem vfnma (d : Dst) (a : Src) (b : Src) (u : Bool) (k : MSel) : Statement (.vfnma d a b u k) := by
  refine of_fields ⟨1, ⟨0x16, d.reg, d.nw, a.toBits, b.toBits, (BitVec.ofBool u ++ k.toBits)⟩, none⟩ rfl ?_ (fun t x => ?_) rfl rfl
  · exact fun h => absurd (show (1 : BitVec 3) = 7 from h.1) (by decide)
  · cases u <;> cases k <;> simp [decodeFields, decodeClass1, MSel.toBits, MSel.ofBits]
theorem vfmin (d : Dst) (a : Src) (b : Src) (u : Bool) (k : MSel) : Statement (.vfmin d a b u k) := by
  refine of_fields ⟨1, ⟨0x17, d.reg, d.nw, a.toBits, b.toBits, (BitVec.ofBool u ++ k.toBits)⟩, none⟩ rfl ?_ (fun t x => ?_) rfl rfl
  · exact fun h => absurd (show (1 : BitVec 3) = 7 from h.1) (by decide)
  · cases u <;> cases k <;> simp [decodeFields, decodeClass1, MSel.toBits, MSel.ofBits]
theorem vfmax (d : Dst) (a : Src) (b : Src) (u : Bool) (k : MSel) : Statement (.vfmax d a b u k) := by
  refine of_fields ⟨1, ⟨0x18, d.reg, d.nw, a.toBits, b.toBits, (BitVec.ofBool u ++ k.toBits)⟩, none⟩ rfl ?_ (fun t x => ?_) rfl rfl
  · exact fun h => absurd (show (1 : BitVec 3) = 7 from h.1) (by decide)
  · cases u <;> cases k <;> simp [decodeFields, decodeClass1, MSel.toBits, MSel.ofBits]
theorem vfabs (d : Dst) (a : Src) (u : Bool) (k : MSel) : Statement (.vfabs d a u k) := by
  refine of_fields ⟨1, ⟨0x19, d.reg, d.nw, a.toBits, 0, (BitVec.ofBool u ++ k.toBits)⟩, none⟩ rfl ?_ (fun t x => ?_) rfl rfl
  · exact fun h => absurd (show (1 : BitVec 3) = 7 from h.1) (by decide)
  · cases u <;> cases k <;> simp [decodeFields, decodeClass1, MSel.toBits, MSel.ofBits]
theorem vfneg (d : Dst) (a : Src) (u : Bool) (k : MSel) : Statement (.vfneg d a u k) := by
  refine of_fields ⟨1, ⟨0x1A, d.reg, d.nw, a.toBits, 0, (BitVec.ofBool u ++ k.toBits)⟩, none⟩ rfl ?_ (fun t x => ?_) rfl rfl
  · exact fun h => absurd (show (1 : BitVec 3) = 7 from h.1) (by decide)
  · cases u <;> cases k <;> simp [decodeFields, decodeClass1, MSel.toBits, MSel.ofBits]
theorem vfsqrt (d : Dst) (a : Src) (u : Bool) (k : MSel) : Statement (.vfsqrt d a u k) := by
  refine of_fields ⟨1, ⟨0x1B, d.reg, d.nw, a.toBits, 0, (BitVec.ofBool u ++ k.toBits)⟩, none⟩ rfl ?_ (fun t x => ?_) rfl rfl
  · exact fun h => absurd (show (1 : BitVec 3) = 7 from h.1) (by decide)
  · cases u <;> cases k <;> simp [decodeFields, decodeClass1, MSel.toBits, MSel.ofBits]
theorem vfrsq (d : Dst) (a : Src) (u : Bool) (k : MSel) : Statement (.vfrsq d a u k) := by
  refine of_fields ⟨1, ⟨0x1C, d.reg, d.nw, a.toBits, 0, (BitVec.ofBool u ++ k.toBits)⟩, none⟩ rfl ?_ (fun t x => ?_) rfl rfl
  · exact fun h => absurd (show (1 : BitVec 3) = 7 from h.1) (by decide)
  · cases u <;> cases k <;> simp [decodeFields, decodeClass1, MSel.toBits, MSel.ofBits]
theorem vfrcp (d : Dst) (a : Src) (u : Bool) (k : MSel) : Statement (.vfrcp d a u k) := by
  refine of_fields ⟨1, ⟨0x1D, d.reg, d.nw, a.toBits, 0, (BitVec.ofBool u ++ k.toBits)⟩, none⟩ rfl ?_ (fun t x => ?_) rfl rfl
  · exact fun h => absurd (show (1 : BitVec 3) = 7 from h.1) (by decide)
  · cases u <;> cases k <;> simp [decodeFields, decodeClass1, MSel.toBits, MSel.ofBits]
theorem vfexp (d : Dst) (a : Src) (u : Bool) (k : MSel) : Statement (.vfexp d a u k) := by
  refine of_fields ⟨1, ⟨0x1E, d.reg, d.nw, a.toBits, 0, (BitVec.ofBool u ++ k.toBits)⟩, none⟩ rfl ?_ (fun t x => ?_) rfl rfl
  · exact fun h => absurd (show (1 : BitVec 3) = 7 from h.1) (by decide)
  · cases u <;> cases k <;> simp [decodeFields, decodeClass1, MSel.toBits, MSel.ofBits]
theorem vflog (d : Dst) (a : Src) (u : Bool) (k : MSel) : Statement (.vflog d a u k) := by
  refine of_fields ⟨1, ⟨0x1F, d.reg, d.nw, a.toBits, 0, (BitVec.ofBool u ++ k.toBits)⟩, none⟩ rfl ?_ (fun t x => ?_) rfl rfl
  · exact fun h => absurd (show (1 : BitVec 3) = 7 from h.1) (by decide)
  · cases u <;> cases k <;> simp [decodeFields, decodeClass1, MSel.toBits, MSel.ofBits]
theorem vftanh (d : Dst) (a : Src) (u : Bool) (k : MSel) : Statement (.vftanh d a u k) := by
  refine of_fields ⟨1, ⟨0x20, d.reg, d.nw, a.toBits, 0, (BitVec.ofBool u ++ k.toBits)⟩, none⟩ rfl ?_ (fun t x => ?_) rfl rfl
  · exact fun h => absurd (show (1 : BitVec 3) = 7 from h.1) (by decide)
  · cases u <;> cases k <;> simp [decodeFields, decodeClass1, MSel.toBits, MSel.ofBits]
theorem vfsin (d : Dst) (a : Src) (u : Bool) (k : MSel) : Statement (.vfsin d a u k) := by
  refine of_fields ⟨1, ⟨0x21, d.reg, d.nw, a.toBits, 0, (BitVec.ofBool u ++ k.toBits)⟩, none⟩ rfl ?_ (fun t x => ?_) rfl rfl
  · exact fun h => absurd (show (1 : BitVec 3) = 7 from h.1) (by decide)
  · cases u <;> cases k <;> simp [decodeFields, decodeClass1, MSel.toBits, MSel.ofBits]
theorem vfcos (d : Dst) (a : Src) (u : Bool) (k : MSel) : Statement (.vfcos d a u k) := by
  refine of_fields ⟨1, ⟨0x22, d.reg, d.nw, a.toBits, 0, (BitVec.ofBool u ++ k.toBits)⟩, none⟩ rfl ?_ (fun t x => ?_) rfl rfl
  · exact fun h => absurd (show (1 : BitVec 3) = 7 from h.1) (by decide)
  · cases u <;> cases k <;> simp [decodeFields, decodeClass1, MSel.toBits, MSel.ofBits]
theorem vfclass (d : Dst) (a : Src) (u : Bool) (k : MSel) : Statement (.vfclass d a u k) := by
  refine of_fields ⟨1, ⟨0x23, d.reg, d.nw, a.toBits, 0, (BitVec.ofBool u ++ k.toBits)⟩, none⟩ rfl ?_ (fun t x => ?_) rfl rfl
  · exact fun h => absurd (show (1 : BitVec 3) = 7 from h.1) (by decide)
  · cases u <;> cases k <;> simp [decodeFields, decodeClass1, MSel.toBits, MSel.ofBits]
theorem vcmpeq (d : Dst) (a : Src) (b : Src) (u : Bool) (k : MSel) : Statement (.vcmpeq d a b u k) := by
  refine of_fields ⟨1, ⟨0x24, d.reg, d.nw, a.toBits, b.toBits, (BitVec.ofBool u ++ k.toBits)⟩, none⟩ rfl ?_ (fun t x => ?_) rfl rfl
  · exact fun h => absurd (show (1 : BitVec 3) = 7 from h.1) (by decide)
  · cases u <;> cases k <;> simp [decodeFields, decodeClass1, MSel.toBits, MSel.ofBits]
theorem vcmpne (d : Dst) (a : Src) (b : Src) (u : Bool) (k : MSel) : Statement (.vcmpne d a b u k) := by
  refine of_fields ⟨1, ⟨0x25, d.reg, d.nw, a.toBits, b.toBits, (BitVec.ofBool u ++ k.toBits)⟩, none⟩ rfl ?_ (fun t x => ?_) rfl rfl
  · exact fun h => absurd (show (1 : BitVec 3) = 7 from h.1) (by decide)
  · cases u <;> cases k <;> simp [decodeFields, decodeClass1, MSel.toBits, MSel.ofBits]
theorem vcmplt (d : Dst) (a : Src) (b : Src) (u : Bool) (k : MSel) : Statement (.vcmplt d a b u k) := by
  refine of_fields ⟨1, ⟨0x26, d.reg, d.nw, a.toBits, b.toBits, (BitVec.ofBool u ++ k.toBits)⟩, none⟩ rfl ?_ (fun t x => ?_) rfl rfl
  · exact fun h => absurd (show (1 : BitVec 3) = 7 from h.1) (by decide)
  · cases u <;> cases k <;> simp [decodeFields, decodeClass1, MSel.toBits, MSel.ofBits]
theorem vcmple (d : Dst) (a : Src) (b : Src) (u : Bool) (k : MSel) : Statement (.vcmple d a b u k) := by
  refine of_fields ⟨1, ⟨0x27, d.reg, d.nw, a.toBits, b.toBits, (BitVec.ofBool u ++ k.toBits)⟩, none⟩ rfl ?_ (fun t x => ?_) rfl rfl
  · exact fun h => absurd (show (1 : BitVec 3) = 7 from h.1) (by decide)
  · cases u <;> cases k <;> simp [decodeFields, decodeClass1, MSel.toBits, MSel.ofBits]
theorem vfcmpeq (d : Dst) (a : Src) (b : Src) (u : Bool) (k : MSel) : Statement (.vfcmpeq d a b u k) := by
  refine of_fields ⟨1, ⟨0x28, d.reg, d.nw, a.toBits, b.toBits, (BitVec.ofBool u ++ k.toBits)⟩, none⟩ rfl ?_ (fun t x => ?_) rfl rfl
  · exact fun h => absurd (show (1 : BitVec 3) = 7 from h.1) (by decide)
  · cases u <;> cases k <;> simp [decodeFields, decodeClass1, MSel.toBits, MSel.ofBits]
theorem vfcmplt (d : Dst) (a : Src) (b : Src) (u : Bool) (k : MSel) : Statement (.vfcmplt d a b u k) := by
  refine of_fields ⟨1, ⟨0x29, d.reg, d.nw, a.toBits, b.toBits, (BitVec.ofBool u ++ k.toBits)⟩, none⟩ rfl ?_ (fun t x => ?_) rfl rfl
  · exact fun h => absurd (show (1 : BitVec 3) = 7 from h.1) (by decide)
  · cases u <;> cases k <;> simp [decodeFields, decodeClass1, MSel.toBits, MSel.ofBits]
theorem vfcmple (d : Dst) (a : Src) (b : Src) (u : Bool) (k : MSel) : Statement (.vfcmple d a b u k) := by
  refine of_fields ⟨1, ⟨0x2A, d.reg, d.nw, a.toBits, b.toBits, (BitVec.ofBool u ++ k.toBits)⟩, none⟩ rfl ?_ (fun t x => ?_) rfl rfl
  · exact fun h => absurd (show (1 : BitVec 3) = 7 from h.1) (by decide)
  · cases u <;> cases k <;> simp [decodeFields, decodeClass1, MSel.toBits, MSel.ofBits]
theorem vfcmpun (d : Dst) (a : Src) (b : Src) (u : Bool) (k : MSel) : Statement (.vfcmpun d a b u k) := by
  refine of_fields ⟨1, ⟨0x2B, d.reg, d.nw, a.toBits, b.toBits, (BitVec.ofBool u ++ k.toBits)⟩, none⟩ rfl ?_ (fun t x => ?_) rfl rfl
  · exact fun h => absurd (show (1 : BitVec 3) = 7 from h.1) (by decide)
  · cases u <;> cases k <;> simp [decodeFields, decodeClass1, MSel.toBits, MSel.ofBits]
theorem vcvt (d : Dst) (a : Src) (c : BitVec 4) (e : BitVec 3) (k : MSel) : Statement (.vcvt d a c e k) := by
  refine of_fields ⟨1, ⟨0x2C, d.reg, d.nw, a.toBits, (c ++ e), (0#1 ++ k.toBits)⟩, none⟩ rfl ?_ (fun t x => ?_) rfl rfl
  · exact fun h => absurd (show (1 : BitVec 3) = 7 from h.1) (by decide)
  · cases k <;> simp [decodeFields, decodeClass1, MSel.toBits, MSel.ofBits] <;> (revert c e; decide)
theorem vquant (d : Dst) (a : Src) (q : BitVec 3) (u : Bool) : Statement (.vquant d a q u) := by
  refine of_fields ⟨1, ⟨0x2D, d.reg, d.nw, a.toBits, (0#4 ++ q), (BitVec.ofBool u ++ 0#2)⟩, none⟩ rfl ?_ (fun t x => ?_) rfl rfl
  · exact fun h => absurd (show (1 : BitVec 3) = 7 from h.1) (by decide)
  · cases u <;> simp [decodeFields, decodeClass1] <;> (revert q; decide)
theorem vdeq (d : Dst) (a : Src) (u : Bool) (k : MSel) : Statement (.vdeq d a u k) := by
  refine of_fields ⟨1, ⟨0x2E, d.reg, d.nw, a.toBits, 0, (BitVec.ofBool u ++ k.toBits)⟩, none⟩ rfl ?_ (fun t x => ?_) rfl rfl
  · exact fun h => absurd (show (1 : BitVec 3) = 7 from h.1) (by decide)
  · cases u <;> cases k <;> simp [decodeFields, decodeClass1, MSel.toBits, MSel.ofBits]
theorem vmv (d : Dst) (a : Src) (k : MSel) : Statement (.vmv d a k) := by
  refine of_fields ⟨1, ⟨0x2F, d.reg, d.nw, a.toBits, 0, (0#1 ++ k.toBits)⟩, none⟩ rfl ?_ (fun t x => ?_) rfl rfl
  · exact fun h => absurd (show (1 : BitVec 3) = 7 from h.1) (by decide)
  · cases k <;> simp [decodeFields, decodeClass1, MSel.toBits, MSel.ofBits]
theorem vredsum (d : Dst) (a : Src) (b : Src) (u : Bool) (k : MSel) : Statement (.vredsum d a b u k) := by
  refine of_fields ⟨1, ⟨0x30, d.reg, d.nw, a.toBits, b.toBits, (BitVec.ofBool u ++ k.toBits)⟩, none⟩ rfl ?_ (fun t x => ?_) rfl rfl
  · exact fun h => absurd (show (1 : BitVec 3) = 7 from h.1) (by decide)
  · cases u <;> cases k <;> simp [decodeFields, decodeClass1, MSel.toBits, MSel.ofBits]
theorem vredmax (d : Dst) (a : Src) (b : Src) (u : Bool) (k : MSel) : Statement (.vredmax d a b u k) := by
  refine of_fields ⟨1, ⟨0x31, d.reg, d.nw, a.toBits, b.toBits, (BitVec.ofBool u ++ k.toBits)⟩, none⟩ rfl ?_ (fun t x => ?_) rfl rfl
  · exact fun h => absurd (show (1 : BitVec 3) = 7 from h.1) (by decide)
  · cases u <;> cases k <;> simp [decodeFields, decodeClass1, MSel.toBits, MSel.ofBits]
theorem vredmin (d : Dst) (a : Src) (b : Src) (u : Bool) (k : MSel) : Statement (.vredmin d a b u k) := by
  refine of_fields ⟨1, ⟨0x32, d.reg, d.nw, a.toBits, b.toBits, (BitVec.ofBool u ++ k.toBits)⟩, none⟩ rfl ?_ (fun t x => ?_) rfl rfl
  · exact fun h => absurd (show (1 : BitVec 3) = 7 from h.1) (by decide)
  · cases u <;> cases k <;> simp [decodeFields, decodeClass1, MSel.toBits, MSel.ofBits]
theorem vfredsum (d : Dst) (a : Src) (b : Src) (u : Bool) (k : MSel) : Statement (.vfredsum d a b u k) := by
  refine of_fields ⟨1, ⟨0x33, d.reg, d.nw, a.toBits, b.toBits, (BitVec.ofBool u ++ k.toBits)⟩, none⟩ rfl ?_ (fun t x => ?_) rfl rfl
  · exact fun h => absurd (show (1 : BitVec 3) = 7 from h.1) (by decide)
  · cases u <;> cases k <;> simp [decodeFields, decodeClass1, MSel.toBits, MSel.ofBits]
theorem vfredmax (d : Dst) (a : Src) (b : Src) (u : Bool) (k : MSel) : Statement (.vfredmax d a b u k) := by
  refine of_fields ⟨1, ⟨0x34, d.reg, d.nw, a.toBits, b.toBits, (BitVec.ofBool u ++ k.toBits)⟩, none⟩ rfl ?_ (fun t x => ?_) rfl rfl
  · exact fun h => absurd (show (1 : BitVec 3) = 7 from h.1) (by decide)
  · cases u <;> cases k <;> simp [decodeFields, decodeClass1, MSel.toBits, MSel.ofBits]
theorem vfredmin (d : Dst) (a : Src) (b : Src) (u : Bool) (k : MSel) : Statement (.vfredmin d a b u k) := by
  refine of_fields ⟨1, ⟨0x35, d.reg, d.nw, a.toBits, b.toBits, (BitVec.ofBool u ++ k.toBits)⟩, none⟩ rfl ?_ (fun t x => ?_) rfl rfl
  · exact fun h => absurd (show (1 : BitVec 3) = 7 from h.1) (by decide)
  · cases u <;> cases k <;> simp [decodeFields, decodeClass1, MSel.toBits, MSel.ofBits]
theorem vscan (d : Dst) (a : Src) (b : Src) (k : MSel) : Statement (.vscan d a b k) := by
  refine of_fields ⟨1, ⟨0x36, d.reg, d.nw, a.toBits, b.toBits, (0#1 ++ k.toBits)⟩, none⟩ rfl ?_ (fun t x => ?_) rfl rfl
  · exact fun h => absurd (show (1 : BitVec 3) = 7 from h.1) (by decide)
  · cases k <;> simp [decodeFields, decodeClass1, MSel.toBits, MSel.ofBits]
theorem vfscan (d : Dst) (a : Src) (b : Src) (u : Bool) (k : MSel) : Statement (.vfscan d a b u k) := by
  refine of_fields ⟨1, ⟨0x37, d.reg, d.nw, a.toBits, b.toBits, (BitVec.ofBool u ++ k.toBits)⟩, none⟩ rfl ?_ (fun t x => ?_) rfl rfl
  · exact fun h => absurd (show (1 : BitVec 3) = 7 from h.1) (by decide)
  · cases u <;> cases k <;> simp [decodeFields, decodeClass1, MSel.toBits, MSel.ofBits]
theorem vslideup (d : Dst) (a : Src) (b : Src) (k : MSel) : Statement (.vslideup d a b k) := by
  refine of_fields ⟨1, ⟨0x38, d.reg, d.nw, a.toBits, b.toBits, (0#1 ++ k.toBits)⟩, none⟩ rfl ?_ (fun t x => ?_) rfl rfl
  · exact fun h => absurd (show (1 : BitVec 3) = 7 from h.1) (by decide)
  · cases k <;> simp [decodeFields, decodeClass1, MSel.toBits, MSel.ofBits]
theorem vslidedn (d : Dst) (a : Src) (b : Src) (k : MSel) : Statement (.vslidedn d a b k) := by
  refine of_fields ⟨1, ⟨0x39, d.reg, d.nw, a.toBits, b.toBits, (0#1 ++ k.toBits)⟩, none⟩ rfl ?_ (fun t x => ?_) rfl rfl
  · exact fun h => absurd (show (1 : BitVec 3) = 7 from h.1) (by decide)
  · cases k <;> simp [decodeFields, decodeClass1, MSel.toBits, MSel.ofBits]
theorem vrgather (d : Dst) (a : Src) (b : Src) (k : MSel) : Statement (.vrgather d a b k) := by
  refine of_fields ⟨1, ⟨0x3A, d.reg, d.nw, a.toBits, b.toBits, (0#1 ++ k.toBits)⟩, none⟩ rfl ?_ (fun t x => ?_) rfl rfl
  · exact fun h => absurd (show (1 : BitVec 3) = 7 from h.1) (by decide)
  · cases k <;> simp [decodeFields, decodeClass1, MSel.toBits, MSel.ofBits]
theorem vcompress (d : Dst) (a : Src) (k : MSel) : Statement (.vcompress d a k) := by
  refine of_fields ⟨1, ⟨0x3B, d.reg, d.nw, a.toBits, 0, (0#1 ++ k.toBits)⟩, none⟩ rfl ?_ (fun t x => ?_) rfl rfl
  · exact fun h => absurd (show (1 : BitVec 3) = 7 from h.1) (by decide)
  · cases k <;> simp [decodeFields, decodeClass1, MSel.toBits, MSel.ofBits]
theorem vid (d : Dst) (k : MSel) : Statement (.vid d k) := by
  refine of_fields ⟨1, ⟨0x3C, d.reg, d.nw, 0, 0, (0#1 ++ k.toBits)⟩, none⟩ rfl ?_ (fun t x => ?_) rfl rfl
  · exact fun h => absurd (show (1 : BitVec 3) = 7 from h.1) (by decide)
  · cases k <;> simp [decodeFields, decodeClass1, MSel.toBits, MSel.ofBits]
theorem viota (d : Dst) (a : Src) (k : MSel) : Statement (.viota d a k) := by
  refine of_fields ⟨1, ⟨0x3D, d.reg, d.nw, a.toBits, 0, (0#1 ++ k.toBits)⟩, none⟩ rfl ?_ (fun t x => ?_) rfl rfl
  · exact fun h => absurd (show (1 : BitVec 3) = 7 from h.1) (by decide)
  · cases k <;> simp [decodeFields, decodeClass1, MSel.toBits, MSel.ofBits]
theorem vsortk (d : BitVec 6) (a : Src) (b : Src) (u : Bool) (e : Bool) : Statement (.vsortk d a b u e) := by
  refine of_fields ⟨1, ⟨0x3E, d, false, a.toBits, b.toBits, (BitVec.ofBool u ++ BitVec.ofBool e ++ 0#1)⟩, none⟩ rfl ?_ (fun t x => ?_) rfl rfl
  · exact fun h => absurd (show (1 : BitVec 3) = 7 from h.1) (by decide)
  · cases u <;> cases e <;> simp [decodeFields, decodeClass1]
theorem vbcast (d : Dst) (a : Src) (k : MSel) : Statement (.vbcast d a k) := by
  refine of_fields ⟨1, ⟨0x3F, d.reg, d.nw, a.toBits, 0, (0#1 ++ k.toBits)⟩, none⟩ rfl ?_ (fun t x => ?_) rfl rfl
  · exact fun h => absurd (show (1 : BitVec 3) = 7 from h.1) (by decide)
  · cases k <;> simp [decodeFields, decodeClass1, MSel.toBits, MSel.ofBits]
theorem setvl (d : Dst) (a : Src) (b : Src) : Statement (.setvl d a b) := by
  refine of_fields ⟨1, ⟨0x40, d.reg, d.nw, a.toBits, b.toBits, 0⟩, none⟩ rfl ?_ (fun t x => ?_) rfl rfl
  · exact fun h => absurd (show (1 : BitVec 3) = 7 from h.1) (by decide)
  · simp [decodeFields, decodeClass1]
theorem setvli (d : Dst) (a : Src) (c : BitVec 6) : Statement (.setvli d a c) := by
  refine of_fields ⟨1, Raw.ofImm 0x41 d.reg d.nw a.toBits (0#4 ++ c), none⟩ rfl ?_ (fun t x => ?_) rfl rfl
  · exact fun h => absurd (show (1 : BitVec 3) = 7 from h.1) (by decide)
  · simp [decodeFields, decodeClass1] <;> (revert c; decide)
theorem mand (d : Dst) (a : Src) (b : Src) : Statement (.mand d a b) := by
  refine of_fields ⟨1, ⟨0x42, d.reg, d.nw, a.toBits, b.toBits, 0⟩, none⟩ rfl ?_ (fun t x => ?_) rfl rfl
  · exact fun h => absurd (show (1 : BitVec 3) = 7 from h.1) (by decide)
  · simp [decodeFields, decodeClass1]
theorem mor (d : Dst) (a : Src) (b : Src) : Statement (.mor d a b) := by
  refine of_fields ⟨1, ⟨0x43, d.reg, d.nw, a.toBits, b.toBits, 0⟩, none⟩ rfl ?_ (fun t x => ?_) rfl rfl
  · exact fun h => absurd (show (1 : BitVec 3) = 7 from h.1) (by decide)
  · simp [decodeFields, decodeClass1]
theorem mxor (d : Dst) (a : Src) (b : Src) : Statement (.mxor d a b) := by
  refine of_fields ⟨1, ⟨0x44, d.reg, d.nw, a.toBits, b.toBits, 0⟩, none⟩ rfl ?_ (fun t x => ?_) rfl rfl
  · exact fun h => absurd (show (1 : BitVec 3) = 7 from h.1) (by decide)
  · simp [decodeFields, decodeClass1]
theorem mandn (d : Dst) (a : Src) (b : Src) : Statement (.mandn d a b) := by
  refine of_fields ⟨1, ⟨0x45, d.reg, d.nw, a.toBits, b.toBits, 0⟩, none⟩ rfl ?_ (fun t x => ?_) rfl rfl
  · exact fun h => absurd (show (1 : BitVec 3) = 7 from h.1) (by decide)
  · simp [decodeFields, decodeClass1]
theorem mnot (d : Dst) (a : Src) : Statement (.mnot d a) := by
  refine of_fields ⟨1, ⟨0x46, d.reg, d.nw, a.toBits, 0, 0⟩, none⟩ rfl ?_ (fun t x => ?_) rfl rfl
  · exact fun h => absurd (show (1 : BitVec 3) = 7 from h.1) (by decide)
  · simp [decodeFields, decodeClass1]
theorem mpop (d : Dst) (a : Src) (k : MSel) : Statement (.mpop d a k) := by
  refine of_fields ⟨1, ⟨0x47, d.reg, d.nw, a.toBits, 0, (0#1 ++ k.toBits)⟩, none⟩ rfl ?_ (fun t x => ?_) rfl rfl
  · exact fun h => absurd (show (1 : BitVec 3) = 7 from h.1) (by decide)
  · cases k <;> simp [decodeFields, decodeClass1, MSel.toBits, MSel.ofBits]
theorem mfirst (d : Dst) (a : Src) (k : MSel) : Statement (.mfirst d a k) := by
  refine of_fields ⟨1, ⟨0x48, d.reg, d.nw, a.toBits, 0, (0#1 ++ k.toBits)⟩, none⟩ rfl ?_ (fun t x => ?_) rfl rfl
  · exact fun h => absurd (show (1 : BitVec 3) = 7 from h.1) (by decide)
  · cases k <;> simp [decodeFields, decodeClass1, MSel.toBits, MSel.ofBits]
theorem emget (d : Dst) (g : Bool) : Statement (.emget d g) := by
  refine of_fields ⟨1, ⟨0x49, d.reg, d.nw, 0, 0, (0#2 ++ BitVec.ofBool g)⟩, none⟩ rfl ?_ (fun t x => ?_) rfl rfl
  · exact fun h => absurd (show (1 : BitVec 3) = 7 from h.1) (by decide)
  · cases g <;> simp [decodeFields, decodeClass1]
theorem emset (a : Src) (g : Bool) : Statement (.emset a g) := by
  refine of_fields ⟨1, ⟨0x4A, 0, false, a.toBits, 0, (0#2 ++ BitVec.ofBool g)⟩, none⟩ rfl ?_ (fun t x => ?_) rfl rfl
  · exact fun h => absurd (show (1 : BitVec 3) = 7 from h.1) (by decide)
  · cases g <;> simp [decodeFields, decodeClass1]
theorem mma (d : BitVec 6) (a : Src) (b : Src) (l : MmaLit) : Statement (.mma d a b l) := by
  refine of_fields ⟨3, ⟨0x00, d, false, a.toBits, b.toBits, 0⟩, some l.toBits⟩ rfl ?_ (fun t x => ?_) rfl rfl
  · exact fun h => absurd (show (3 : BitVec 3) = 7 from h.1) (by decide)
  · simp [decodeFields, decodeClass3]
theorem mmaAdp (d : BitVec 6) (a : Src) (b : Src) (l : MmaLit) : Statement (.mmaAdp d a b l) := by
  refine of_fields ⟨3, ⟨0x01, d, false, a.toBits, b.toBits, 0⟩, some l.toBits⟩ rfl ?_ (fun t x => ?_) rfl rfl
  · exact fun h => absurd (show (3 : BitVec 3) = 7 from h.1) (by decide)
  · simp [decodeFields, decodeClass3]
theorem adpfin (d : BitVec 6) (b : Src) (l : FinLit) : Statement (.adpfin d b l) := by
  refine of_fields ⟨3, ⟨0x02, d, false, 0, b.toBits, 0⟩, some l.toBits⟩ rfl ?_ (fun t x => ?_) rfl rfl
  · exact fun h => absurd (show (3 : BitVec 3) = 7 from h.1) (by decide)
  · simp [decodeFields, decodeClass3]
theorem mzero (d : BitVec 6) : Statement (.mzero d) := by
  refine of_fields ⟨3, ⟨0x03, d, false, 0, 0, 0⟩, none⟩ rfl ?_ (fun t x => ?_) rfl rfl
  · exact fun h => absurd (show (3 : BitVec 3) = 7 from h.1) (by decide)
  · simp [decodeFields, decodeClass3]
theorem mldacc (d : BitVec 6) (a : Src) (b : Src) (f : BitVec 2) (l : MemM) : Statement (.mldacc d a b f l) := by
  refine of_fields ⟨3, ⟨0x04, d, false, a.toBits, b.toBits, (0#1 ++ f)⟩, some l.toBits⟩ rfl ?_ (fun t x => ?_) rfl rfl
  · exact fun h => absurd (show (3 : BitVec 3) = 7 from h.1) (by decide)
  · simp [decodeFields, decodeClass3] <;> (revert f; decide)
theorem mdrain (d : BitVec 6) (a : Src) (b : Src) (f : BitVec 2) (add : Bool) (l : MemM) : Statement (.mdrain d a b f add l) := by
  refine of_fields ⟨3, ⟨0x05, d, false, a.toBits, b.toBits, (BitVec.ofBool add ++ f)⟩, some l.toBits⟩ rfl ?_ (fun t x => ?_) rfl rfl
  · exact fun h => absurd (show (3 : BitVec 3) = 7 from h.1) (by decide)
  · cases add <;> simp [decodeFields, decodeClass3] <;> (revert f; decide)
theorem mfence (a : Src) (n : BitVec 4) : Statement (.mfence a n) := by
  refine of_fields ⟨3, Raw.ofImm 0x06 0 false a.toBits (0#6 ++ n), none⟩ rfl ?_ (fun t x => ?_) rfl rfl
  · exact fun h => absurd (show (3 : BitVec 3) = 7 from h.1) (by decide)
  · simp [decodeFields, decodeClass3] <;> (revert n; decide)
theorem mbara (j : Bool) (n : BitVec 4) : Statement (.mbara j n) := by
  refine of_fields ⟨3, Raw.ofImm 0x07 0 false 0 (0#5 ++ BitVec.ofBool j ++ n), none⟩ rfl ?_ (fun t x => ?_) rfl rfl
  · exact fun h => absurd (show (3 : BitVec 3) = 7 from h.1) (by decide)
  · cases j <;> simp [decodeFields, decodeClass3] <;> (revert n; decide)
theorem mbarw (n : BitVec 4) : Statement (.mbarw n) := by
  refine of_fields ⟨3, Raw.ofImm 0x08 0 false 0 (0#6 ++ n), none⟩ rfl ?_ (fun t x => ?_) rfl rfl
  · exact fun h => absurd (show (3 : BitVec 3) = 7 from h.1) (by decide)
  · simp [decodeFields, decodeClass3] <;> (revert n; decide)
theorem mloop (d : BitVec 6) (l : Word32) : Statement (.mloop d l) := by
  refine of_fields ⟨3, ⟨0x09, d, false, 0, 0, 0⟩, some l⟩ rfl ?_ (fun t x => ?_) rfl rfl
  · exact fun h => absurd (show (3 : BitVec 3) = 7 from h.1) (by decide)
  · simp [decodeFields, decodeClass3]
theorem mjmp (l : Word32) : Statement (.mjmp l) := by
  refine of_fields ⟨3, ⟨0x0A, 0, false, 0, 0, 0⟩, some l⟩ rfl ?_ (fun t x => ?_) rfl rfl
  · exact fun h => absurd (show (3 : BitVec 3) = 7 from h.1) (by decide)
  · simp [decodeFields, decodeClass3]
theorem mend : Statement .mend := by
  refine of_fields ⟨3, ⟨0x0B, 0, false, 0, 0, 0⟩, none⟩ rfl ?_ (fun t x => ?_) rfl rfl
  · exact fun h => absurd (show (3 : BitVec 3) = 7 from h.1) (by decide)
  · simp [decodeFields, decodeClass3]
theorem adpld (a : Src) (l : AdpLit) : Statement (.adpld a l) := by
  refine of_fields ⟨3, ⟨0x0C, 0, false, a.toBits, 0, 0⟩, some l.toBits⟩ rfl ?_ (fun t x => ?_) rfl rfl
  · exact fun h => absurd (show (3 : BitVec 3) = 7 from h.1) (by decide)
  · simp [decodeFields, decodeClass3]
theorem adpinv (a : Src) : Statement (.adpinv a) := by
  refine of_fields ⟨3, ⟨0x0D, 0, false, a.toBits, 0, 0⟩, none⟩ rfl ?_ (fun t x => ?_) rfl rfl
  · exact fun h => absurd (show (3 : BitVec 3) = 7 from h.1) (by decide)
  · simp [decodeFields, decodeClass3]
theorem msetbAdd (d : BitVec 6) (a : Src) (b : Src) : Statement (.msetbAdd d a b) := by
  refine of_fields ⟨3, ⟨0x0E, d, false, a.toBits, b.toBits, 0⟩, none⟩ rfl ?_ (fun t x => ?_) rfl rfl
  · exact fun h => absurd (show (3 : BitVec 3) = 7 from h.1) (by decide)
  · simp [decodeFields, decodeClass3]
theorem msetbLd (d : BitVec 6) (a : Src) (b : Src) : Statement (.msetbLd d a b) := by
  refine of_fields ⟨3, ⟨0x0E, d, false, a.toBits, b.toBits, 1⟩, none⟩ rfl ?_ (fun t x => ?_) rfl rfl
  · exact fun h => absurd (show (3 : BitVec 3) = 7 from h.1) (by decide)
  · simp [decodeFields, decodeClass3]
theorem msetbFmt (a : Src) : Statement (.msetbFmt a) := by
  refine of_fields ⟨3, ⟨0x0E, 0, false, a.toBits, 0, 2⟩, none⟩ rfl ?_ (fun t x => ?_) rfl rfl
  · exact fun h => absurd (show (3 : BitVec 3) = 7 from h.1) (by decide)
  · simp [decodeFields, decodeClass3]
theorem msetbSeed (a : Src) : Statement (.msetbSeed a) := by
  refine of_fields ⟨3, ⟨0x0E, 0, false, a.toBits, 0, 3⟩, none⟩ rfl ?_ (fun t x => ?_) rfl rfl
  · exact fun h => absurd (show (3 : BitVec 3) = 7 from h.1) (by decide)
  · simp [decodeFields, decodeClass3]
theorem msetbBind (a : Src) : Statement (.msetbBind a) := by
  refine of_fields ⟨3, ⟨0x0E, 0, false, a.toBits, 0, 4⟩, none⟩ rfl ?_ (fun t x => ?_) rfl rfl
  · exact fun h => absurd (show (3 : BitVec 3) = 7 from h.1) (by decide)
  · simp [decodeFields, decodeClass3]
theorem msetbAdir (a : Src) : Statement (.msetbAdir a) := by
  refine of_fields ⟨3, ⟨0x0E, 0, false, a.toBits, 0, 5⟩, none⟩ rfl ?_ (fun t x => ?_) rfl rfl
  · exact fun h => absurd (show (3 : BitVec 3) = 7 from h.1) (by decide)
  · simp [decodeFields, decodeClass3]
theorem mnop : Statement .mnop := by
  refine of_fields ⟨3, ⟨0x0F, 0, false, 0, 0, 0⟩, none⟩ rfl ?_ (fun t x => ?_) rfl rfl
  · exact fun h => absurd (show (3 : BitVec 3) = 7 from h.1) (by decide)
  · simp [decodeFields, decodeClass3]
theorem macq (d : BitVec 6) (a : Src) : Statement (.macq d a) := by
  refine of_fields ⟨6, ⟨0x0E, d, false, a.toBits, 0, 1⟩, none⟩ rfl ?_ (fun t x => ?_) rfl rfl
  · exact fun h => absurd (show (6 : BitVec 3) = 7 from h.1) (by decide)
  · simp [decodeFields, decodeClass6]
theorem macqNc (a : Src) : Statement (.macqNc a) := by
  refine of_fields ⟨6, ⟨0x0E, 0, false, a.toBits, 0, 0⟩, none⟩ rfl ?_ (fun t x => ?_) rfl rfl
  · exact fun h => absurd (show (6 : BitVec 3) = 7 from h.1) (by decide)
  · simp [decodeFields, decodeClass6]
theorem mrel (a : Src) : Statement (.mrel a) := by
  refine of_fields ⟨6, ⟨0x0F, 0, false, a.toBits, 0, 0⟩, none⟩ rfl ?_ (fun t x => ?_) rfl rfl
  · exact fun h => absurd (show (6 : BitVec 3) = 7 from h.1) (by decide)
  · simp [decodeFields, decodeClass6]
theorem mrelW (a : Src) (b : Src) : Statement (.mrelW a b) := by
  refine of_fields ⟨6, ⟨0x0F, 0, false, a.toBits, b.toBits, 1⟩, none⟩ rfl ?_ (fun t x => ?_) rfl rfl
  · exact fun h => absurd (show (6 : BitVec 3) = 7 from h.1) (by decide)
  · simp [decodeFields, decodeClass6]
theorem gath (d : BitVec 6) (a : Src) (b : Src) (k : MSel) (l : GathLit) : Statement (.gath d a b k l) := by
  refine of_fields ⟨4, ⟨0x00, d, false, a.toBits, b.toBits, (0#1 ++ k.toBits)⟩, some l.toBits⟩ rfl ?_ (fun t x => ?_) rfl rfl
  · exact fun h => absurd (show (4 : BitVec 3) = 7 from h.1) (by decide)
  · cases k <;> simp [decodeFields, decodeClass4, MSel.toBits, MSel.ofBits]
theorem scat (d : BitVec 6) (a : Src) (b : Src) (k : MSel) (l : GathLit) : Statement (.scat d a b k l) := by
  refine of_fields ⟨4, ⟨0x01, d, false, a.toBits, b.toBits, (0#1 ++ k.toBits)⟩, some l.toBits⟩ rfl ?_ (fun t x => ?_) rfl rfl
  · exact fun h => absurd (show (4 : BitVec 3) = 7 from h.1) (by decide)
  · cases k <;> simp [decodeFields, decodeClass4, MSel.toBits, MSel.ofBits]
theorem coll (a : Src) (l : MemM) : Statement (.coll a l) := by
  refine of_fields ⟨4, ⟨0x02, 0, false, a.toBits, 0, 0⟩, some l.toBits⟩ rfl ?_ (fun t x => ?_) rfl rfl
  · exact fun h => absurd (show (4 : BitVec 3) = 7 from h.1) (by decide)
  · simp [decodeFields, decodeClass4]
theorem waitc (n : BitVec 7) (k : BitVec 3) : Statement (.waitc n k) := by
  refine of_fields ⟨4, Raw.ofImm 0x03 0 false 0 (n ++ k), none⟩ rfl ?_ (fun t x => ?_) rfl rfl
  · exact fun h => absurd (show (4 : BitVec 3) = 7 from h.1) (by decide)
  · simp [decodeFields, decodeClass4] <;> (revert n k; decide)
theorem astatCnt (d : Dst) (a : Src) : Statement (.astatCnt d a) := by
  refine of_fields ⟨4, ⟨0x04, d.reg, d.nw, a.toBits, 0, 0⟩, none⟩ rfl ?_ (fun t x => ?_) rfl rfl
  · exact fun h => absurd (show (4 : BitVec 3) = 7 from h.1) (by decide)
  · simp [decodeFields, decodeClass4]
theorem astatChan (d : Dst) (a : Src) : Statement (.astatChan d a) := by
  refine of_fields ⟨4, ⟨0x04, d.reg, d.nw, a.toBits, 0, 1⟩, none⟩ rfl ?_ (fun t x => ?_) rfl rfl
  · exact fun h => absurd (show (4 : BitVec 3) = 7 from h.1) (by decide)
  · simp [decodeFields, decodeClass4]
theorem astatFault (d : Dst) : Statement (.astatFault d) := by
  refine of_fields ⟨4, ⟨0x04, d.reg, d.nw, 0, 0, 2⟩, none⟩ rfl ?_ (fun t x => ?_) rfl rfl
  · exact fun h => absurd (show (4 : BitVec 3) = 7 from h.1) (by decide)
  · simp [decodeFields, decodeClass4]
theorem nmsync : Statement .nmsync := by
  refine of_fields ⟨4, ⟨0x05, 0, false, 0, 0, 0⟩, none⟩ rfl ?_ (fun t x => ?_) rfl rfl
  · exact fun h => absurd (show (4 : BitVec 3) = 7 from h.1) (by decide)
  · simp [decodeFields, decodeClass4]
theorem gcfg (a : Src) : Statement (.gcfg a) := by
  refine of_fields ⟨5, ⟨0x00, 0, false, a.toBits, 0, 0⟩, none⟩ rfl ?_ (fun t x => ?_) rfl rfl
  · exact fun h => absurd (show (5 : BitVec 3) = 7 from h.1) (by decide)
  · simp [decodeFields, decodeClass5]
theorem gcfgUn : Statement .gcfgUn := by
  refine of_fields ⟨5, ⟨0x00, 0, false, 0, 0, 1⟩, none⟩ rfl ?_ (fun t x => ?_) rfl rfl
  · exact fun h => absurd (show (5 : BitVec 3) = 7 from h.1) (by decide)
  · simp [decodeFields, decodeClass5]
theorem gmatch (d : Dst) (a : Src) (b : Src) (l : GmLit) : Statement (.gmatch d a b l) := by
  refine of_fields ⟨5, ⟨0x01, d.reg, d.nw, a.toBits, b.toBits, 0⟩, some l.toBits⟩ rfl ?_ (fun t x => ?_) rfl rfl
  · exact fun h => absurd (show (5 : BitVec 3) = 7 from h.1) (by decide)
  · simp [decodeFields, decodeClass5]
theorem gprop (d : Dst) (a : Src) (l : GpLit) : Statement (.gprop d a l) := by
  refine of_fields ⟨5, ⟨0x02, d.reg, d.nw, a.toBits, 0, 0⟩, some l.toBits⟩ rfl ?_ (fun t x => ?_) rfl rfl
  · exact fun h => absurd (show (5 : BitVec 3) = 7 from h.1) (by decide)
  · simp [decodeFields, decodeClass5]
theorem gwait (d : Dst) (a : Src) : Statement (.gwait d a) := by
  refine of_fields ⟨5, ⟨0x03, d.reg, d.nw, a.toBits, 0, 0⟩, none⟩ rfl ?_ (fun t x => ?_) rfl rfl
  · exact fun h => absurd (show (5 : BitVec 3) = 7 from h.1) (by decide)
  · simp [decodeFields, decodeClass5]
theorem gcollect (d : Dst) (a : Src) (b : Src) : Statement (.gcollect d a b) := by
  refine of_fields ⟨5, ⟨0x04, d.reg, d.nw, a.toBits, b.toBits, 0⟩, none⟩ rfl ?_ (fun t x => ?_) rfl rfl
  · exact fun h => absurd (show (5 : BitVec 3) = 7 from h.1) (by decide)
  · simp [decodeFields, decodeClass5]
theorem gclr (a : Src) (b : Src) : Statement (.gclr a b) := by
  refine of_fields ⟨5, ⟨0x05, 0, false, a.toBits, b.toBits, 0⟩, none⟩ rfl ?_ (fun t x => ?_) rfl rfl
  · exact fun h => absurd (show (5 : BitVec 3) = 7 from h.1) (by decide)
  · simp [decodeFields, decodeClass5]
theorem gvld (d : Dst) (a : Src) (y : Bool) : Statement (.gvld d a y) := by
  refine of_fields ⟨5, ⟨0x06, d.reg, d.nw, a.toBits, 0, (0#2 ++ BitVec.ofBool y)⟩, none⟩ rfl ?_ (fun t x => ?_) rfl rfl
  · exact fun h => absurd (show (5 : BitVec 3) = 7 from h.1) (by decide)
  · cases y <;> simp [decodeFields, decodeClass5]
theorem gvst (d : BitVec 6) (a : Src) (y : Bool) : Statement (.gvst d a y) := by
  refine of_fields ⟨5, ⟨0x07, d, false, a.toBits, 0, (0#2 ++ BitVec.ofBool y)⟩, none⟩ rfl ?_ (fun t x => ?_) rfl rfl
  · exact fun h => absurd (show (5 : BitVec 3) = 7 from h.1) (by decide)
  · cases y <;> simp [decodeFields, decodeClass5]
theorem gstat (d : Dst) (a : Src) : Statement (.gstat d a) := by
  refine of_fields ⟨5, ⟨0x08, d.reg, d.nw, a.toBits, 0, 0⟩, none⟩ rfl ?_ (fun t x => ?_) rfl rfl
  · exact fun h => absurd (show (5 : BitVec 3) = 7 from h.1) (by decide)
  · simp [decodeFields, decodeClass5]
theorem gabort (a : Src) : Statement (.gabort a) := by
  refine of_fields ⟨5, ⟨0x09, 0, false, a.toBits, 0, 0⟩, none⟩ rfl ?_ (fun t x => ?_) rfl rfl
  · exact fun h => absurd (show (5 : BitVec 3) = 7 from h.1) (by decide)
  · simp [decodeFields, decodeClass5]
theorem bari (a : Src) (n : BitVec 4) : Statement (.bari a n) := by
  refine of_fields ⟨6, Raw.ofImm 0x00 0 false a.toBits (0#6 ++ n), none⟩ rfl ?_ (fun t x => ?_) rfl rfl
  · exact fun h => absurd (show (6 : BitVec 3) = 7 from h.1) (by decide)
  · simp [decodeFields, decodeClass6] <;> (revert n; decide)
theorem bara (n : BitVec 4) : Statement (.bara n) := by
  refine of_fields ⟨6, Raw.ofImm 0x01 0 false 0 (0#6 ++ n), none⟩ rfl ?_ (fun t x => ?_) rfl rfl
  · exact fun h => absurd (show (6 : BitVec 3) = 7 from h.1) (by decide)
  · simp [decodeFields, decodeClass6] <;> (revert n; decide)
theorem barw (n : BitVec 4) : Statement (.barw n) := by
  refine of_fields ⟨6, Raw.ofImm 0x02 0 false 0 (0#6 ++ n), none⟩ rfl ?_ (fun t x => ?_) rfl rfl
  · exact fun h => absurd (show (6 : BitVec 3) = 7 from h.1) (by decide)
  · simp [decodeFields, decodeClass6] <;> (revert n; decide)
theorem baraw (n : BitVec 4) : Statement (.baraw n) := by
  refine of_fields ⟨6, Raw.ofImm 0x03 0 false 0 (0#6 ++ n), none⟩ rfl ?_ (fun t x => ?_) rfl rfl
  · exact fun h => absurd (show (6 : BitVec 3) = 7 from h.1) (by decide)
  · simp [decodeFields, decodeClass6] <;> (revert n; decide)
theorem syncw (d : Dst) (a : Src) (b : Src) : Statement (.syncw d a b) := by
  refine of_fields ⟨6, ⟨0x04, d.reg, d.nw, a.toBits, b.toBits, 0⟩, none⟩ rfl ?_ (fun t x => ?_) rfl rfl
  · exact fun h => absurd (show (6 : BitVec 3) = 7 from h.1) (by decide)
  · simp [decodeFields, decodeClass6]
theorem mqw (d : BitVec 6) (a : Src) (b : Src) (s : Scope) : Statement (.mqw d a b s) := by
  refine of_fields ⟨6, ⟨0x05, d, false, a.toBits, b.toBits, s.toBits⟩, none⟩ rfl ?_ (fun t x => ?_) rfl rfl
  · exact fun h => absurd (show (6 : BitVec 3) = 7 from h.1) (by decide)
  · simp [decodeFields, decodeClass6]
theorem mqr (d : Dst) (k : BitVec 2) : Statement (.mqr d k) := by
  refine of_fields ⟨6, ⟨0x06, d.reg, d.nw, 0, 0, (0#1 ++ k)⟩, none⟩ rfl ?_ (fun t x => ?_) rfl rfl
  · exact fun h => absurd (show (6 : BitVec 3) = 7 from h.1) (by decide)
  · simp [decodeFields, decodeClass6] <;> (revert k; decide)
theorem refill (d : BitVec 6) : Statement (.refill d) := by
  refine of_fields ⟨6, ⟨0x07, d, false, 0, 0, 0⟩, none⟩ rfl ?_ (fun t x => ?_) rfl rfl
  · exact fun h => absurd (show (6 : BitVec 3) = 7 from h.1) (by decide)
  · simp [decodeFields, decodeClass6]
theorem itempush (d : Dst) (a : Src) : Statement (.itempush d a) := by
  refine of_fields ⟨6, ⟨0x08, d.reg, d.nw, a.toBits, 0, 0⟩, none⟩ rfl ?_ (fun t x => ?_) rfl rfl
  · exact fun h => absurd (show (6 : BitVec 3) = 7 from h.1) (by decide)
  · simp [decodeFields, decodeClass6]
theorem itempushClose (d : Dst) : Statement (.itempushClose d) := by
  refine of_fields ⟨6, ⟨0x08, d.reg, d.nw, 0, 0, 1⟩, none⟩ rfl ?_ (fun t x => ?_) rfl rfl
  · exact fun h => absurd (show (6 : BitVec 3) = 7 from h.1) (by decide)
  · simp [decodeFields, decodeClass6]
theorem tender (d : Dst) (a : Src) (l : BitVec 4) : Statement (.tender d a l) := by
  refine of_fields ⟨6, ⟨0x09, d.reg, d.nw, a.toBits, 0, 0⟩, some (tenderToBits l)⟩ rfl ?_ (fun t x => ?_) rfl rfl
  · exact fun h => absurd (show (6 : BitVec 3) = 7 from h.1) (by decide)
  · simp [decodeFields, decodeClass6]
theorem withdraw (d : Dst) (a : Src) : Statement (.withdraw d a) := by
  refine of_fields ⟨6, ⟨0x0A, d.reg, d.nw, a.toBits, 0, 0⟩, none⟩ rfl ?_ (fun t x => ?_) rfl rfl
  · exact fun h => absurd (show (6 : BitVec 3) = 7 from h.1) (by decide)
  · simp [decodeFields, decodeClass6]
theorem doneTask (a : Src) : Statement (.doneTask a) := by
  refine of_fields ⟨6, ⟨0x0B, 0, false, a.toBits, 0, 0⟩, none⟩ rfl ?_ (fun t x => ?_) rfl rfl
  · exact fun h => absurd (show (6 : BitVec 3) = 7 from h.1) (by decide)
  · simp [decodeFields, decodeClass6]
theorem blkacq (d : Dst) (a : Src) (y : Bool) : Statement (.blkacq d a y) := by
  refine of_fields ⟨6, ⟨0x0C, d.reg, d.nw, a.toBits, 0, (0#2 ++ BitVec.ofBool y)⟩, none⟩ rfl ?_ (fun t x => ?_) rfl rfl
  · exact fun h => absurd (show (6 : BitVec 3) = 7 from h.1) (by decide)
  · cases y <;> simp [decodeFields, decodeClass6]
theorem blkrel (d : Dst) (a : Src) : Statement (.blkrel d a) := by
  refine of_fields ⟨6, ⟨0x0D, d.reg, d.nw, a.toBits, 0, 0⟩, none⟩ rfl ?_ (fun t x => ?_) rfl rfl
  · exact fun h => absurd (show (6 : BitVec 3) = 7 from h.1) (by decide)
  · simp [decodeFields, decodeClass6]
theorem fbegin (a : Src) (l : Word32) : Statement (.fbegin a l) := by
  refine of_fields ⟨6, ⟨0x10, 0, false, a.toBits, 0, 0⟩, some l⟩ rfl ?_ (fun t x => ?_) rfl rfl
  · exact fun h => absurd (show (6 : BitVec 3) = 7 from h.1) (by decide)
  · simp [decodeFields, decodeClass6]
theorem fcommit (d : Dst) : Statement (.fcommit d) := by
  refine of_fields ⟨6, ⟨0x11, d.reg, d.nw, 0, 0, 0⟩, none⟩ rfl ?_ (fun t x => ?_) rfl rfl
  · exact fun h => absurd (show (6 : BitVec 3) = 7 from h.1) (by decide)
  · simp [decodeFields, decodeClass6]
theorem fabort : Statement .fabort := by
  refine of_fields ⟨6, ⟨0x12, 0, false, 0, 0, 0⟩, none⟩ rfl ?_ (fun t x => ?_) rfl rfl
  · exact fun h => absurd (show (6 : BitVec 3) = 7 from h.1) (by decide)
  · simp [decodeFields, decodeClass6]
theorem csrr (d : Dst) (c : BitVec 10) : Statement (.csrr d c) := by
  refine of_fields ⟨7, Raw.ofImm 0x00 d.reg d.nw 0 c, none⟩ rfl ?_ (fun t x => ?_) rfl rfl
  · exact fun h => absurd (show 0xF0 ≤ (0x00#8).toNat from h.2) (by decide)
  · cases t <;> simp [decodeFields, decodeClass7, decodeTzn]
theorem csrw (d : Dst) (a : Src) (c : BitVec 10) : Statement (.csrw d a c) := by
  refine of_fields ⟨7, Raw.ofImm 0x01 d.reg d.nw a.toBits c, none⟩ rfl ?_ (fun t x => ?_) rfl rfl
  · exact fun h => absurd (show 0xF0 ≤ (0x01#8).toNat from h.2) (by decide)
  · cases t <;> simp [decodeFields, decodeClass7, decodeTzn]
theorem csrs (d : Dst) (a : Src) (c : BitVec 10) : Statement (.csrs d a c) := by
  refine of_fields ⟨7, Raw.ofImm 0x02 d.reg d.nw a.toBits c, none⟩ rfl ?_ (fun t x => ?_) rfl rfl
  · exact fun h => absurd (show 0xF0 ≤ (0x02#8).toNat from h.2) (by decide)
  · cases t <;> simp [decodeFields, decodeClass7, decodeTzn]
theorem csrc (d : Dst) (a : Src) (c : BitVec 10) : Statement (.csrc d a c) := by
  refine of_fields ⟨7, Raw.ofImm 0x03 d.reg d.nw a.toBits c, none⟩ rfl ?_ (fun t x => ?_) rfl rfl
  · exact fun h => absurd (show 0xF0 ≤ (0x03#8).toNat from h.2) (by decide)
  · cases t <;> simp [decodeFields, decodeClass7, decodeTzn]
theorem trap (c : BitVec 6) : Statement (.trap c) := by
  refine of_fields ⟨7, Raw.ofImm 0x04 0 false 0 (0#4 ++ c), none⟩ rfl ?_ (fun t x => ?_) rfl rfl
  · exact fun h => absurd (show 0xF0 ≤ (0x04#8).toNat from h.2) (by decide)
  · cases t <;> simp [decodeFields, decodeClass7, decodeTzn] <;> (revert c; decide)
theorem eret : Statement .eret := by
  refine of_fields ⟨7, ⟨0x05, 0, false, 0, 0, 0⟩, none⟩ rfl ?_ (fun t x => ?_) rfl rfl
  · exact fun h => absurd (show 0xF0 ≤ (0x05#8).toNat from h.2) (by decide)
  · cases t <;> simp [decodeFields, decodeClass7, decodeTzn]
theorem tlbinv (a : Src) (b : Src) : Statement (.tlbinv a b) := by
  refine of_fields ⟨7, ⟨0x06, 0, false, a.toBits, b.toBits, 0⟩, none⟩ rfl ?_ (fun t x => ?_) rfl rfl
  · exact fun h => absurd (show 0xF0 ≤ (0x06#8).toNat from h.2) (by decide)
  · cases t <;> simp [decodeFields, decodeClass7, decodeTzn]
theorem tlbinvAsid (b : Src) : Statement (.tlbinvAsid b) := by
  refine of_fields ⟨7, ⟨0x06, 0, false, 0, b.toBits, 1⟩, none⟩ rfl ?_ (fun t x => ?_) rfl rfl
  · exact fun h => absurd (show 0xF0 ≤ (0x06#8).toNat from h.2) (by decide)
  · cases t <;> simp [decodeFields, decodeClass7, decodeTzn]
theorem tlbinvAll : Statement .tlbinvAll := by
  refine of_fields ⟨7, ⟨0x06, 0, false, 0, 0, 2⟩, none⟩ rfl ?_ (fun t x => ?_) rfl rfl
  · exact fun h => absurd (show 0xF0 ≤ (0x06#8).toNat from h.2) (by decide)
  · cases t <;> simp [decodeFields, decodeClass7, decodeTzn]
theorem cbld (a : Src) (b : Src) : Statement (.cbld a b) := by
  refine of_fields ⟨7, ⟨0x07, 0, false, a.toBits, b.toBits, 0⟩, none⟩ rfl ?_ (fun t x => ?_) rfl rfl
  · exact fun h => absurd (show 0xF0 ≤ (0x07#8).toNat from h.2) (by decide)
  · cases t <;> simp [decodeFields, decodeClass7, decodeTzn]
theorem cbswap (a : Src) : Statement (.cbswap a) := by
  refine of_fields ⟨7, ⟨0x08, 0, false, a.toBits, 0, 0⟩, none⟩ rfl ?_ (fun t x => ?_) rfl rfl
  · exact fun h => absurd (show 0xF0 ≤ (0x08#8).toNat from h.2) (by decide)
  · cases t <;> simp [decodeFields, decodeClass7, decodeTzn]
theorem bidld (a : Src) (b : Src) : Statement (.bidld a b) := by
  refine of_fields ⟨7, ⟨0x09, 0, false, a.toBits, b.toBits, 0⟩, none⟩ rfl ?_ (fun t x => ?_) rfl rfl
  · exact fun h => absurd (show 0xF0 ≤ (0x09#8).toNat from h.2) (by decide)
  · cases t <;> simp [decodeFields, decodeClass7, decodeTzn]
theorem bidldWindow (a : Src) : Statement (.bidldWindow a) := by
  refine of_fields ⟨7, ⟨0x09, 0, false, a.toBits, 0, 1⟩, none⟩ rfl ?_ (fun t x => ?_) rfl rfl
  · exact fun h => absurd (show 0xF0 ≤ (0x09#8).toNat from h.2) (by decide)
  · cases t <;> simp [decodeFields, decodeClass7, decodeTzn]
theorem dbg (a : Src) : Statement (.dbg a) := by
  refine of_fields ⟨7, ⟨0x0A, 0, false, a.toBits, 0, 0⟩, none⟩ rfl ?_ (fun t x => ?_) rfl rfl
  · exact fun h => absurd (show 0xF0 ≤ (0x0A#8).toNat from h.2) (by decide)
  · cases t <;> simp [decodeFields, decodeClass7, decodeTzn]
theorem feat (d : Dst) : Statement (.feat d) := by
  refine of_fields ⟨7, ⟨0x0B, d.reg, d.nw, 0, 0, 0⟩, none⟩ rfl ?_ (fun t x => ?_) rfl rfl
  · exact fun h => absurd (show 0xF0 ≤ (0x0B#8).toNat from h.2) (by decide)
  · cases t <;> simp [decodeFields, decodeClass7, decodeTzn]
theorem nzskip (d : BitVec 6) (a : Src) (b : Src) (l : MemM) : Statement (.nzskip d a b l) := by
  refine of_bank_fields ⟨7, ⟨0xF0, d, false, a.toBits, b.toBits, 0⟩, some l.toBits⟩ rfl ?_ (fun x => ?_) (fun x => ?_) rfl rfl
  · exact ⟨rfl, show 0xF0 ≤ (0xF0#8).toNat by decide⟩
  · simp [decodeFields, decodeTzn]
  · simp [decodeFields, decodeClass7]
theorem rowf (a : Src) : Statement (.rowf a) := by
  refine of_bank_fields ⟨7, ⟨0xF1, 0, false, a.toBits, 0, 0⟩, none⟩ rfl ?_ (fun x => ?_) (fun x => ?_) rfl rfl
  · exact ⟨rfl, show 0xF0 ≤ (0xF1#8).toNat by decide⟩
  · simp [decodeFields, decodeTzn]
  · simp [decodeFields, decodeClass7]
theorem mbxr (d : BitVec 6) (a : Src) : Statement (.mbxr d a) := by
  refine of_bank_fields ⟨7, ⟨0xF2, d, false, a.toBits, 0, 0⟩, none⟩ rfl ?_ (fun x => ?_) (fun x => ?_) rfl rfl
  · exact ⟨rfl, show 0xF0 ≤ (0xF2#8).toNat by decide⟩
  · simp [decodeFields, decodeTzn]
  · simp [decodeFields, decodeClass7]
theorem haltb (a : Src) : Statement (.haltb a) := by
  refine of_bank_fields ⟨7, ⟨0xF3, 0, false, a.toBits, 0, 0⟩, none⟩ rfl ?_ (fun x => ?_) (fun x => ?_) rfl rfl
  · exact ⟨rfl, show 0xF0 ≤ (0xF3#8).toNat by decide⟩
  · simp [decodeFields, decodeTzn]
  · simp [decodeFields, decodeClass7]
theorem submit (rs2 : BitVec 5) (rs1 : BitVec 5) (rd : BitVec 5) : Statement (.submit rs2 rs1 rd) := of_none rfl
theorem clauseExecute (f : Focus) : Statement (.clauseExecute f) := of_none rfl
theorem boundaryCauseTaken (team : Nat) (gid : Nat) : Statement (.boundaryCauseTaken team gid) := of_none rfl
theorem pathWake (team : Nat) (gid : Nat) (path : Bool) : Statement (.pathWake team gid path) := of_none rfl
theorem spareBlockLend (team : Nat) (role : Nat) : Statement (.spareBlockLend team role) := of_none rfl
theorem streamFault (team : Nat) : Statement (.streamFault team) := of_none rfl
theorem mmaRowCommit (team : Nat) (mismatches : Nat) : Statement (.mmaRowCommit team mismatches) := of_none rfl
theorem adapterSegmentFill (core : Nat) : Statement (.adapterSegmentFill core) := of_none rfl
theorem adapterRowReplay (team : Nat) : Statement (.adapterRowReplay team) := of_none rfl
theorem batchClose (team : Nat) : Statement (.batchClose team) := of_none rfl
theorem streamStop (team : Nat) : Statement (.streamStop team) := of_none rfl
theorem putArrive (i : Nat) : Statement (.putArrive i) := of_none rfl
theorem putResend (i : Nat) : Statement (.putResend i) := of_none rfl
theorem pausedPutRetry (team : Nat) : Statement (.pausedPutRetry team) := of_none rfl
theorem uncorrectableError (team : Option Nat) (addr : Nat) : Statement (.uncorrectableError team addr) := of_none rfl
theorem correctedError (unit : Nat) (addr : Nat) : Statement (.correctedError unit addr) := of_none rfl
theorem registerUncorrectable (team : Nat) (gid : Nat) : Statement (.registerUncorrectable team gid) := of_none rfl
theorem asyncRefusalArrive (i : Nat) : Statement (.asyncRefusalArrive i) := of_none rfl
theorem storePerform (team : Nat) (gid : Nat) : Statement (.storePerform team gid) := of_none rfl
theorem l1LineExpire (core : Nat) (line : Nat) : Statement (.l1LineExpire core line) := of_none rfl
theorem nearCommandApply (team : Nat) (gid : Nat) : Statement (.nearCommandApply team gid) := of_none rfl
theorem nearAckCredit (team : Nat) (gid : Nat) : Statement (.nearAckCredit team gid) := of_none rfl
theorem copyStartAccept (team : Nat) (gid : Nat) : Statement (.copyStartAccept team gid) := of_none rfl
theorem copyBegin (team : Nat) (chan : Nat) : Statement (.copyBegin team chan) := of_none rfl
theorem copyRowWrite (team : Nat) (chan : Nat) : Statement (.copyRowWrite team chan) := of_none rfl
theorem copyComplete (team : Nat) (chan : Nat) : Statement (.copyComplete team chan) := of_none rfl
theorem copyFault (team : Nat) (chan : Nat) : Statement (.copyFault team chan) := of_none rfl
theorem templateSlotWrite (team : Nat) (gid : Nat) : Statement (.templateSlotWrite team gid) := of_none rfl
theorem syncWordRaise (team : Nat) : Statement (.syncWordRaise team) := of_none rfl
theorem gatherRowTransfer (team : Nat) (job : Nat) : Statement (.gatherRowTransfer team job) := of_none rfl
theorem gatherComplete (team : Nat) (job : Nat) : Statement (.gatherComplete team job) := of_none rfl
theorem bankStart (team : Nat) (gid : Nat) : Statement (.bankStart team gid) := of_none rfl
theorem mailboxWrite (team : Nat) (gid : Nat) : Statement (.mailboxWrite team gid) := of_none rfl
theorem bankJobSuspend (launch : Nat) (node : Nat) : Statement (.bankJobSuspend launch node) := of_none rfl
theorem waveStart (core : Nat) (entry : Nat) : Statement (.waveStart core entry) := of_none rfl
theorem startMessageArrive (i : Nat) : Statement (.startMessageArrive i) := of_none rfl
theorem markerMessageArrive (i : Nat) : Statement (.markerMessageArrive i) := of_none rfl
theorem dropNoticeArrive (i : Nat) : Statement (.dropNoticeArrive i) := of_none rfl
theorem sweepAnswer (core : Nat) (root : Nat) (entry : Nat) : Statement (.sweepAnswer core root entry) := of_none rfl
theorem sweepResult (root : Nat) (entry : Nat) : Statement (.sweepResult root entry) := of_none rfl
theorem abortNoticeArrive (i : Nat) : Statement (.abortNoticeArrive i) := of_none rfl
theorem waitPacket (q : Nat) (w : BitVec 32) : Statement (.waitPacket q w) := of_none rfl
theorem droverFetch (q : Nat) : Statement (.droverFetch q) := of_none rfl
theorem commandNop (q : Nat) : Statement (.commandNop q) := of_none rfl
theorem launch (q : Nat) : Statement (.launch q) := of_none rfl
theorem nodeDispatch (launch : Nat) (node : Nat) : Statement (.nodeDispatch launch node) := of_none rfl
theorem teamPlace (entry : Nat) : Statement (.teamPlace entry) := of_none rfl
theorem nodeComplete (launch : Nat) (node : Nat) : Statement (.nodeComplete launch node) := of_none rfl
theorem bidWindowOpen : Statement .bidWindowOpen := of_none rfl
theorem bidWindowClose : Statement .bidWindowClose := of_none rfl
theorem awardAccept : Statement .awardAccept := of_none rfl
theorem urgentPlace (entry : Nat) : Statement (.urgentPlace entry) := of_none rfl
theorem groupEvict (team : Nat) (gid : Nat) : Statement (.groupEvict team gid) := of_none rfl
theorem streamEvictStop (team : Nat) : Statement (.streamEvictStop team) := of_none rfl
theorem teamRestore (team : Nat) (core : Nat) : Statement (.teamRestore team core) := of_none rfl
theorem groupRestore (team : Nat) : Statement (.groupRestore team) := of_none rfl
theorem faultRingAppend (team : Nat) (gid : Nat) (path : Bool) : Statement (.faultRingAppend team gid path) := of_none rfl
theorem parkedResume (asid : Nat) (serial : BitVec 32) : Statement (.parkedResume asid serial) := of_none rfl
theorem parkedKill (asid : Nat) (serial : BitVec 32) : Statement (.parkedKill asid serial) := of_none rfl
theorem queueDescriptorWrite (q : Nat) (desc : BitVec 256) : Statement (.queueDescriptorWrite q desc) := of_none rfl
theorem controlSpaceWrite (reg : CtlReg) (v : BitVec 512) : Statement (.controlSpaceWrite reg v) := of_none rfl
theorem shasidWrite (hart : Nat) (v : BitVec 64) : Statement (.shasidWrite hart v) := of_none rfl
theorem messageFlitArrive (i : Nat) : Statement (.messageFlitArrive i) := of_none rfl
theorem fabricRead (p : FabPkt) : Statement (.fabricRead p) := of_none rfl
theorem fabricWrite (p : FabPkt) : Statement (.fabricWrite p) := of_none rfl
theorem fabricPut (p : FabPkt) : Statement (.fabricPut p) := of_none rfl
theorem fabricAtomic (p : FabPkt) : Statement (.fabricAtomic p) := of_none rfl
theorem combinedAtomic (p : FabPkt) : Statement (.combinedAtomic p) := of_none rfl
theorem readReply (p : FabPkt) : Statement (.readReply p) := of_none rfl
theorem acknowledgement (p : FabPkt) : Statement (.acknowledgement p) := of_none rfl
theorem atomicReply (p : FabPkt) : Statement (.atomicReply p) := of_none rfl
theorem stage (p : FabPkt) : Statement (.stage p) := of_none rfl
theorem commit (p : FabPkt) : Statement (.commit p) := of_none rfl
theorem regionAbort (p : FabPkt) : Statement (.regionAbort p) := of_none rfl
theorem collectiveData (p : FabPkt) : Statement (.collectiveData p) := of_none rfl
theorem collectiveAbort (p : FabPkt) : Statement (.collectiveAbort p) := of_none rfl
theorem unknownPacketKind (p : FabPkt) : Statement (.unknownPacketKind p) := of_none rfl
theorem pathDown (dst : Nat) (path : Nat) : Statement (.pathDown dst path) := of_none rfl
theorem orderedFlagSend (team : Nat) (gid : Nat) : Statement (.orderedFlagSend team gid) := of_none rfl
theorem commitPoint (team : Nat) (gid : Nat) : Statement (.commitPoint team gid) := of_none rfl
theorem regionFail (team : Nat) (gid : Nat) (why : RegionFailure) : Statement (.regionFail team gid why) := of_none rfl
theorem collectiveStatusWrite (i : Nat) : Statement (.collectiveStatusWrite i) := of_none rfl
theorem contextKill (asid : Nat) : Statement (.contextKill asid) := of_none rfl
theorem linkRetry (link : Nat) : Statement (.linkRetry link) := of_none rfl
theorem routeTableWrite (dst : Nat) (path : Nat) (rec : BitVec 64) : Statement (.routeTableWrite dst path rec) := of_none rfl
theorem deviceNumberAssign (n : BitVec 10) : Statement (.deviceNumberAssign n) := of_none rfl
theorem boot (images : List BootImage) (manager : Bool) : Statement (.boot images manager) := of_none rfl
theorem ueRmaWrite (q : Nat) (addr : BitVec 64) (data : List Byte) : Statement (.ueRmaWrite q addr data) := of_none rfl
theorem ueRmaRead (q : Nat) (addr : BitVec 64) (len : Nat) : Statement (.ueRmaRead q addr len) := of_none rfl
theorem ueSend (q : Nat) (cmd : BitVec 512) : Statement (.ueSend q cmd) := of_none rfl
theorem ueUnsupportedPacket (service : UeService) : Statement (.ueUnsupportedPacket service) := of_none rfl
theorem attestationQuote (nonce : BitVec 256) : Statement (.attestationQuote nonce) := of_none rfl
theorem musterRequest (addr : BitVec 64) : Statement (.musterRequest addr) := of_none rfl
theorem musterComplete : Statement .musterComplete := of_none rfl
theorem stopwatchWrite (v : BitVec 64) : Statement (.stopwatchWrite v) := of_none rfl
theorem stopwNFall : Statement .stopwNFall := of_none rfl
theorem stopwatchResume : Statement .stopwatchResume := of_none rfl
theorem debugResume (team : Nat) (gid : Nat) (path : Bool) : Statement (.debugResume team gid path) := of_none rfl
theorem thermalThrottle (celsius : Nat) : Statement (.thermalThrottle celsius) := of_none rfl
theorem thermalTrip (celsius : Nat) : Statement (.thermalTrip celsius) := of_none rfl

end Sys2Proof.Laws.RoundTrip
end

