-- ==== Sys2Proof/Laws/Vector.lean ====
section
/-! SUPPORT. What the operations on vector operands do: packing elements into registers, the rule of writing, and running over elements. -/

namespace Sys2Proof.Machine

/-- Element j of a register after its elements were replaced from the bottom. -/
theorem packCells_elem (w : Nat) : ∀ (cells : List (Option Nat)) (old j : Nat),
    packCells w old cells / 2 ^ (w * j) % 2 ^ w
      = if j < cells.length then ((cells[j]?.getD none).getD (old / 2 ^ (w * j))) % 2 ^ w else old / 2 ^ (w * j) % 2 ^ w := by
  intro cells
  induction cells with
  | nil => intro old j; simp [packCells]
  | cons c cs ih =>
    intro old j
    have hp : 0 < 2 ^ w := Nat.pow_pos (by decide)
    cases j with
    | zero =>
      simp [packCells, Nat.add_mod]
    | succ j =>
      have e : 2 ^ (w * (j + 1)) = 2 ^ w * 2 ^ (w * j) := by rw [Nat.mul_succ, Nat.pow_add, Nat.mul_comm]
      have h1 : (c.getD old % 2 ^ w + 2 ^ w * packCells w (old / 2 ^ w) cs) / 2 ^ (w * (j + 1))
          = packCells w (old / 2 ^ w) cs / 2 ^ (w * j) := by
        rw [e, ← Nat.div_div_eq_div_mul, Nat.add_mul_div_left _ _ hp, Nat.div_eq_of_lt (Nat.mod_lt _ hp), Nat.zero_add]
      have h2 : old / 2 ^ (w * (j + 1)) = old / 2 ^ w / 2 ^ (w * j) := by rw [e, Nat.div_div_eq_div_mul]
      simp only [packCells, h1, h2, ih, List.length_cons, Nat.add_lt_add_iff_right, List.getElem?_cons_succ]

/-- A register keeps its width when its elements are replaced. -/
theorem packCells_lt (w n : Nat) : ∀ (cells : List (Option Nat)) (old : Nat), w * cells.length ≤ n → old < 2 ^ n →
    packCells w old cells < 2 ^ n := by
  intro cells
  induction cells generalizing n with
  | nil => intro old _ h; simpa [packCells] using h
  | cons c cs ih =>
    intro old hl h
    simp only [List.length_cons, Nat.mul_succ] at hl
    have e : 2 ^ n = 2 ^ w * 2 ^ (n - w) := by rw [← Nat.pow_add]; congr 1; omega
    have hp : 0 < 2 ^ w := Nat.pow_pos (by decide)
    have h3 : old / 2 ^ w < 2 ^ (n - w) := by rw [Nat.div_lt_iff_lt_mul hp, Nat.mul_comm, ← e]; exact h
    have h4 := ih (n - w) (old / 2 ^ w) (by omega) h3
    have h5 := Nat.mod_lt (c.getD old) hp
    simp only [packCells]
    rw [e]
    calc c.getD old % 2 ^ w + 2 ^ w * packCells w (old / 2 ^ w) cs
        < 2 ^ w + 2 ^ w * packCells w (old / 2 ^ w) cs := by omega
      _ = 2 ^ w * (packCells w (old / 2 ^ w) cs + 1) := by rw [Nat.mul_succ, Nat.add_comm]
      _ ≤ 2 ^ w * 2 ^ (n - w) := Nat.mul_le_mul_left _ h4

/-- The rule of R110 gives a cell for each value. -/
@[simp] theorem writeRule_length (c : VC) (em : Word64) (sel : Nat → Bool) (w ones : Nat) :
    ∀ (xs : List (Option Nat)) (i : Nat), (writeRule c em sel w ones i xs).length = xs.length := by
  intro xs; induction xs with
  | nil => intro i; rfl
  | cons x xs ih => intro i; simp [writeRule, ih]

/-- The cell of R110 for element i + j. -/
theorem writeRule_get (c : VC) (em : Word64) (sel : Nat → Bool) (w ones : Nat) :
    ∀ (xs : List (Option Nat)) (i j : Nat), (writeRule c em sel w ones i xs)[j]? = xs[j]?.map fun x =>
      if !laneOn c.vlen em (i + j) w then none
      else if c.vl ≤ i + j then (if c.ta then some ones else none)
      else if !sel (i + j) then (if c.ma then some ones else none)
      else x := by
  intro xs
  induction xs with
  | nil => intro i j; simp [writeRule]
  | cons x xs ih =>
    intro i j
    cases j with
    | zero => simp [writeRule]
    | succ j =>
      simp only [writeRule, List.getElem?_cons_succ, ih]
      rw [Nat.add_right_comm i 1 j, Nat.add_assoc i j 1]

/-- A run over elements answers a cell for each, whatever is drawn. -/
theorem runElems_length (act : Nat → Bool) (f : Nat → Gens → Nat × Gens) :
    ∀ (is : List Nat) (g : Gens), (runElems act f is g).1.length = is.length := by
  intro is; induction is with
  | nil => intro g; rfl
  | cons i is ih => intro g; simp only [runElems]; split <;> simp [ih]

/-- A run whose function draws nothing leaves the generators, and its cells are the values of the active elements. -/
theorem runElems_pure (act : Nat → Bool) (f : Nat → Nat) :
    ∀ (is : List Nat) (g : Gens), runElems act (fun i g => (f i, g)) is g = (is.map fun i => if act i then some (f i) else none, g) := by
  intro is; induction is with
  | nil => intro g; rfl
  | cons i is ih => intro g; simp only [runElems, ih]; split <;> simp [*]

/-- The cells of a register group after its elements were written, register by register. -/
theorem vget_putCells (h : Hart) (vlen r w : Nat) (cells : List (Option Nat)) (L q : Nat) (hr : r + L ≤ 32) :
    vget (h.putCells vlen r w cells L).v q 0 =
      if r ≤ q ∧ q < r + L then
        BitVec.ofNat 2048 (packCells w (vget h.v q 0).toNat ((cells.drop ((q - r) * (vlen / w))).take (vlen / w)))
      else vget h.v q 0 := by
  have key : ∀ (n : Nat), r + n ≤ 32 → vget ((List.range n).foldl (fun v k => vset v (r + k)
      (BitVec.ofNat 2048 (packCells w (vget h.v (r + k) 0).toNat ((cells.drop (k * (vlen / w))).take (vlen / w))))) h.v) q 0 =
      if r ≤ q ∧ q < r + n then
        BitVec.ofNat 2048 (packCells w (vget h.v q 0).toNat ((cells.drop ((q - r) * (vlen / w))).take (vlen / w)))
      else vget h.v q 0 := by
    intro n
    induction n with
    | zero => intro _; simp
    | succ n ih =>
      intro hn
      rw [List.range_succ, List.foldl_append]
      simp only [List.foldl_cons, List.foldl_nil]
      rw [vget_vset, ih (by omega)]
      by_cases hq : r + n = q
      · subst hq
        have e : r + n - r = n := by omega
        have h1 : r + n < 32 := by omega
        simp [h1, e]
      · by_cases h2 : r ≤ q ∧ q < r + n
        · have h3 : r ≤ q ∧ q < r + (n + 1) := by omega
          rw [if_neg (fun h => hq h.1), if_pos h2, if_pos h3]
        · have h3 : ¬ (r ≤ q ∧ q < r + (n + 1)) := by omega
          rw [if_neg (fun h => hq h.1), if_neg h2, if_neg h3]
  exact key L hr

/-- Element i of a register group after its cells were written: the cell's value, or what it held. -/
theorem elem_putCells (h : Hart) (vlen r w : Nat) (cells : List (Option Nat)) (L i : Nat) (hr : r + L ≤ 32)
    (hw : 0 < w) (hv : vlen ≤ 2048) (hi : i < L * (vlen / w)) :
    (h.putCells vlen r w cells L).elem vlen r w i = match cells[i]? with
      | some (some x) => x % 2 ^ w
      | _ => h.elem vlen r w i := by
  have hE : 0 < vlen / w := by
    rcases Nat.eq_zero_or_pos (vlen / w) with h0 | h0
    · rw [h0] at hi; omega
    · exact h0
  have hq : i / (vlen / w) < L := by rw [Nat.div_lt_iff_lt_mul hE]; exact hi
  have hj : i % (vlen / w) < vlen / w := Nat.mod_lt _ hE
  have hx : i / (vlen / w) * (vlen / w) + i % (vlen / w) = i := by rw [Nat.mul_comm]; exact Nat.div_add_mod i _
  unfold Hart.elem
  rw [vget_putCells _ _ _ _ _ _ _ hr]
  rw [if_pos ⟨Nat.le_add_right _ _, Nat.add_lt_add_left hq r⟩]
  have e : r + i / (vlen / w) - r = i / (vlen / w) := Nat.add_sub_cancel_left _ _
  rw [e]
  generalize hold : vget h.v (r + i / (vlen / w)) 0 = old
  generalize hcs : (List.drop (i / (vlen / w) * (vlen / w)) cells).take (vlen / w) = cs
  have hlen : cs.length ≤ vlen / w := by rw [← hcs]; simp
  have hlt : packCells w old.toNat cs < 2 ^ 2048 := by
    apply packCells_lt w 2048 cs old.toNat
    · calc w * cs.length ≤ w * (vlen / w) := Nat.mul_le_mul_left _ hlen
        _ ≤ vlen := Nat.mul_div_le vlen w
        _ ≤ 2048 := hv
    · exact old.isLt
  unfold vpat
  rw [BitVec.toNat_ofNat, Nat.mod_eq_of_lt hlt, packCells_elem]
  have hget : cs[i % (vlen / w)]? = cells[i]? := by
    rw [← hcs, List.getElem?_take, if_pos hj, List.getElem?_drop, hx]
  by_cases hlen2 : i % (vlen / w) < cs.length
  · rw [if_pos hlen2, hget]
    have : cells[i]? ≠ none := by rw [← hget]; simp; exact hlen2
    cases hc : cells[i]? with
    | none => exact absurd hc this
    | some c => cases c <;> simp
  · rw [if_neg hlen2]
    have : cells[i]? = none := by rw [← hget]; simp; omega
    rw [this]

end Sys2Proof.Machine
end

