-- ==== Sys2Proof/Safety.lean ====
section
/-! DEFINITION. What a safe run is: no step of it faults or is refused. -/

namespace Sys2Proof.Machine

/-- A state from which the next k steps all give a next state. -/
def State.safe (s : State) : Nat → Prop
  | 0 => True
  | k + 1 => ∃ t, step s = .next t ∧ t.safe k

end Sys2Proof.Machine
end

