-- ==== Sys2Proof/Tests/Small.lean ====
section
/-! SUPPORT. Small states that the tests and the witnesses of the statements start from, and how a decided check becomes a fact about a result. -/

namespace Sys2Proof.Tests
open Sys2Proof.Machine

/-- A clause of a class that stands at its first word, with room for any literal. -/
def clauseOf (cls : BitVec 3) : Clause := { hdr := 0x1000, cls := cls, count := 15, words := List.replicate 15 0, idx := 1, yield := false }

/-- A group in user mode that runs a clause, with s1 = 7, s2 = −2, s3 = 0x40 and v1 full of ones. -/
def hart0 : Hart :=
  let h := Hart.reset
  { h with live := true, asid := 1, prio := 5, sbase := 65536, spbase := 0x110000,
           s := vset (vset (vset h.s 1 7) 2 (BitVec.ofInt 64 (-2))) 3 0x40, v := vset h.v 1 (BitVec.allOnes 2048),
           p0 := { Path.first with clause := some (clauseOf 0), pc := 0x1000, issuing := true } }

/-- Its team: 64 KiB, four accumulator tiles, every feature. -/
def team0 : Team :=
  { Team.vacant with live := true, asid := 1, prio := 5, tid := 0, launch := 1, feat := 0x3FFF, priv := 1, spad := 64, accs := 4,
                     roles := [⟨true, 1, 4, 4, 0x1000, false⟩], groups := 1 }

def port0 : PortEntry := { ring := 0, asid := 1, wbase := 0, size := 16, pbase := 0, absent := false, valid := true, team := 1 }

/-- Eight bytes at a local physical address. -/
def poke8 (s : State) (a x : Nat) : State := s.physPoke a (leBytes 8 x)
/-- The context record and the page tables: the first GiB of ASID 1 lies at 0x40000000, for every access. -/
def withTables (s : State) : State :=
  let s := poke8 (poke8 (poke8 s 64 0x10000) 72 0x2000) 88 1
  let s := poke8 (poke8 s 96 0x100000) 104 64
  poke8 (poke8 s 0x10000 (2 ^ 63 + 0x20000)) 0x20000 (2 ^ 63 + 2 ^ 62 + 0x40000000 + 0x3C)

/-- One group of one team on core 0. -/
def base : State :=
  withTables { State.reset with
    cur := ⟨.group, 1, 0, false, 0, 0⟩, harts := [(.group 1 0, hart0)], teams := [(1, team0)], cores := [(0, { Core.reset with ports := [port0] })],
    nextTeam := 2, service := { Service.reset with boot := .open } }

/-- A change of the focus's registers. -/
def onHart (s : State) (f : Hart → Hart) : State := s.setHart (f s.hart)
/-- A change of the focus's path. -/
def onPath (s : State) (f : Path → Path) : State := s.setPath (f s.path)
/-- A change of the focus's team. -/
def onTeam (s : State) (f : Team → Team) : State := s.setTeam (f s.team)
/-- The focus with a vector type and a length. -/
def typed (vtype vl : Word64) : State := onHart base fun h => { h with vtype := vtype, vl := vl }

/-- A bank core that runs a job of ASID 1 in a region of one page. -/
def onBank : State :=
  { base with cur := ⟨.bank, 0, 0, false, 3, 0⟩, harts := [(.bank 3, { hart0 with p0 := { hart0.p0 with clause := some { clauseOf 0 with hdr := 0x100 } } })],
              banks := [(3, { Bank.reset with running := true, owner := 1, region := ⟨0, 1, 0, []⟩ })] }

/-- Does an outcome go on to a state of a kind? -/
def nextIs (o : Host.Outcome State Fault Refusal) (f : State → Bool) : Bool := match o with | .next t => f t | _ => false
/-- Is there a result? -/
def isOk {ε α : Type} (r : Except ε α) : Bool := match r with | .ok _ => true | .error _ => false
theorem ok_of_isOk {ε α : Type} {r : Except ε α} (h : isOk r = true) : ∃ x, r = .ok x := by
  cases r with
  | ok x => exact ⟨x, rfl⟩
  | error e => cases h
/-- The value of a result, or another where there is none. -/
def okGet {ε α : Type} (d : α) (r : Except ε α) : α := match r with | .ok x => x | .error _ => d
theorem ok_get {ε α : Type} {r : Except ε α} (d : α) (h : isOk r = true) : r = .ok (okGet d r) := by
  cases r with
  | ok x => rfl
  | error e => cases h

end Sys2Proof.Tests
end

