-- ==== Sys2Proof/Tests/Slice0.lean ====
section
/-! SUPPORT. The model's own tests: ill-formed terms that the checks refuse, a word of every instruction as spec/02 to spec/19 lay it out, words that the decoder refuses, and single steps. -/

set_option Elab.async false -- one evaluation at a time: each holds a thread

namespace Sys2Proof.Tests
open Sys2Proof.Machine

/-! ## Ill-formed terms -/

/-- Dst.okS (R43), BfLit.ok (R64), and a mask source that is a constant or lies beyond m7 (R39, R41). -/
theorem test_wf_class0 : ([.add ⟨1, true⟩ (.reg 1) (.reg 2) ⟨true, 3⟩, .bfx ⟨1, false⟩ (.reg 1) ⟨false, 0, 0⟩, .bfx ⟨1, false⟩ (.reg 1) ⟨false, 2, 63⟩,
    .bfi ⟨1, false⟩ (.reg 1) (.reg 2) ⟨true, 1, 0⟩, .brm (.const 0) 0, .brm (.reg 8) 0].map Instr.wf) = List.replicate 6 false := by decide +kernel
/-- Dst.okV, okV6, Dst.okM and Src.okV beyond the files (R39), VMERGE without a mask (R126), VSORTK on an odd register (R133). -/
theorem test_wf_class1 : ([.vadd ⟨32, false⟩ (.reg 1) (.reg 2) false .none, .vadd ⟨1, true⟩ (.reg 1) (.reg 2) false .none, .vadd ⟨1, false⟩ (.reg 32) (.reg 2) false .none,
    .vcmpeq ⟨8, false⟩ (.reg 1) (.reg 2) false .none, .mand ⟨1, true⟩ (.reg 1) (.reg 2), .vmerge ⟨1, false⟩ (.reg 1) (.reg 2) .none, .vcompress ⟨1, false⟩ (.reg 1) .none,
    .vsortk 5 (.reg 1) (.reg 2) false false, .vsortk 32 (.reg 1) (.reg 2) false false].map Instr.wf) = List.replicate 9 false := by decide +kernel
/-- atomTyOk (R240), the space p where a port is needed, the literals of CAS, NMA and CINV with all. -/
theorem test_wf_class2 : ([.amo ⟨1, false⟩ (.reg 1) (.reg 2) ⟨true, 0⟩ ⟨.g, .dev, .add, 0⟩, .amo ⟨1, false⟩ (.reg 1) (.reg 2) ⟨true, 3⟩ ⟨.g, .dev, .fadd, 0⟩,
    .putt 4 (.reg 1) ⟨.p, .grp, 0⟩, .ldc ⟨4, false⟩ (.reg 1) false ⟨.p, .grp, 0⟩, .tfill (.reg 1) (.reg 2) ⟨.p, 0⟩, .ttag ⟨1, false⟩ (.reg 1) ⟨.p, 0⟩,
    .cas ⟨1, false⟩ (.reg 1) (.reg 2) ⟨true, 3⟩ ⟨.g, .dev, .max, 0⟩, .vcas 1 (.reg 1) (.reg 2) false .none ⟨.g, .dev, .max, 0, false, 0, 0⟩,
    .nma (.reg 1) (.reg 2) ⟨true, 3⟩ ⟨.g, .dev, .add, 0⟩, .vnma 1 (.reg 1) (.reg 2) false .none ⟨.g, .dev, .add, 0, false, 0, 0⟩,
    .cinv (.reg 1) true ⟨.g, 0⟩, .vst 32 (.reg 1) .none ⟨.l, 0⟩, .vldx ⟨1, false⟩ (.reg 1) (.reg 32) .none ⟨.l, 0, false, 0, 0⟩].map Instr.wf) = List.replicate 13 false := by decide +kernel
/-- okT6, okQ6 and Src.okQ (R163, R180), the literals of MMA and ADPLD, the format and the space of MLDACC and MDRAIN. -/
theorem test_wf_class3 : ([.mzero 16, .mloop 0 0, .mloop 16 0, .mfence (.latch 0) 0, .mfence (.reg 16) 0, .mma 0 (.reg 1) (.reg 2) ⟨1, 0, false, false, 0⟩,
    .mma 0 (.reg 1) (.reg 2) ⟨0, 1, false, false, 0⟩, .mldacc 0 (.reg 1) (.reg 2) 3 ⟨.l, 0⟩, .mdrain 0 (.reg 1) (.reg 2) 0 false ⟨.p, 0⟩,
    .adpld (.reg 1) ⟨false, 0, 0⟩, .adpld (.reg 1) ⟨false, 65, 0⟩].map Instr.wf) = List.replicate 11 false := by decide +kernel
/-- GathLit.ok, COLL's space, GpLit.ok, EMGET of a mask register, MACQ's and MREL.w's groups of four, MQW's register. -/
theorem test_wf_others : ([.gath 4 (.reg 1) (.reg 2) .none ⟨2, 1⟩, .gath 4 (.reg 1) (.reg 2) .none ⟨4, 0⟩, .coll (.reg 1) ⟨.l, 0⟩,
    .gprop ⟨1, false⟩ (.reg 1) ⟨false, 5, false, false, 0, 1, 0, 0⟩, .gprop ⟨1, false⟩ (.reg 1) ⟨false, 2, false, false, 3, 1, 0, 0⟩,
    .gprop ⟨1, false⟩ (.reg 1) ⟨false, 0, true, false, 0, 1, 0, 0⟩, .gprop ⟨1, false⟩ (.reg 1) ⟨false, 1, false, false, 0, 0, 0, 0⟩,
    .gvld ⟨32, false⟩ (.reg 1) false, .emget ⟨8, false⟩ true, .emset (.const 0) true, .macq 5 (.reg 1), .mrelW (.reg 1) (.reg 5), .mqw 4 (.reg 1) (.reg 2) .grp,
    .csrr ⟨1, true⟩ 0, .refill 32].map Instr.wf) = List.replicate 15 false := by decide +kernel

/-! ## A word of every instruction

Each word has its fields at the places of R36 and R37 and of the instruction's own entry: destination 5 (or 2, 4, 6 where the entry narrows it), first source register 3, second 6, type .n32, mask m2. -/

theorem test_decode_class0_1 :
    decodeWord false 0 0x00140C36 0x0 = some (.add ⟨5, false⟩ (.reg 3) (.reg 6) ⟨true, 2⟩)
    ∧ decodeWord false 0 0x01140C36 0x0 = some (.sub ⟨5, false⟩ (.reg 3) (.reg 6) ⟨true, 2⟩)
    ∧ decodeWord false 0 0x02140C36 0x0 = some (.mul ⟨5, false⟩ (.reg 3) (.reg 6) ⟨true, 2⟩)
    ∧ decodeWord false 0 0x03140C36 0x0 = some (.mulh ⟨5, false⟩ (.reg 3) (.reg 6) ⟨true, 2⟩)
    ∧ decodeWord false 0 0x04140C36 0x0 = some (.div ⟨5, false⟩ (.reg 3) (.reg 6) ⟨true, 2⟩)
    ∧ decodeWord false 0 0x05140C36 0x0 = some (.rem ⟨5, false⟩ (.reg 3) (.reg 6) ⟨true, 2⟩)
    ∧ decodeWord false 0 0x06140C36 0x0 = some (.and ⟨5, false⟩ (.reg 3) (.reg 6) ⟨true, 2⟩)
    ∧ decodeWord false 0 0x07140C36 0x0 = some (.or ⟨5, false⟩ (.reg 3) (.reg 6) ⟨true, 2⟩)
    ∧ decodeWord false 0 0x08140C36 0x0 = some (.xor ⟨5, false⟩ (.reg 3) (.reg 6) ⟨true, 2⟩)
    ∧ decodeWord false 0 0x09140C36 0x0 = some (.andn ⟨5, false⟩ (.reg 3) (.reg 6) ⟨true, 2⟩)
    ∧ decodeWord false 0 0x0A140C36 0x0 = some (.shl ⟨5, false⟩ (.reg 3) (.reg 6) ⟨true, 2⟩)
    ∧ decodeWord false 0 0x0B140C36 0x0 = some (.shr ⟨5, false⟩ (.reg 3) (.reg 6) ⟨true, 2⟩)
    ∧ decodeWord false 0 0x0C140C36 0x0 = some (.rol ⟨5, false⟩ (.reg 3) (.reg 6) ⟨true, 2⟩)
    ∧ decodeWord false 0 0x0D140C36 0x0 = some (.min ⟨5, false⟩ (.reg 3) (.reg 6) ⟨true, 2⟩)
    ∧ decodeWord false 0 0x0E140C36 0x0 = some (.max ⟨5, false⟩ (.reg 3) (.reg 6) ⟨true, 2⟩)
    ∧ decodeWord false 0 0x0F140C30 0x0 = some (.sel ⟨5, false⟩ (.reg 3) (.reg 6)) := by decide +kernel
theorem test_decode_class0_2 :
    decodeWord false 0 0x10140FFE 0x0 = some (.addi ⟨5, false⟩ (.reg 3) 1022)
    ∧ decodeWord false 0 0x11140FFE 0x0 = some (.muli ⟨5, false⟩ (.reg 3) 1022)
    ∧ decodeWord false 0 0x12140FFE 0x0 = some (.andi ⟨5, false⟩ (.reg 3) 1022)
    ∧ decodeWord false 0 0x13140FFE 0x0 = some (.ori ⟨5, false⟩ (.reg 3) 1022)
    ∧ decodeWord false 0 0x14140FFE 0x0 = some (.xori ⟨5, false⟩ (.reg 3) 1022)
    ∧ decodeWord false 0 0x15140C2A 0x0 = some (.shli ⟨5, false⟩ (.reg 3) 42)
    ∧ decodeWord false 0 0x16140C6A 0x0 = some (.shri ⟨5, false⟩ (.reg 3) true 42)
    ∧ decodeWord false 0 0x171403FE 0x0 = some (.li ⟨5, false⟩ 1022)
    ∧ decodeWord false 0 0x18140000 0xFFFFFFF0 = some (.liw ⟨5, false⟩ 0xFFFFFFF0)
    ∧ decodeWord false 0 0x18140001 0xFFFFFFF0 = some (.liwZ ⟨5, false⟩ 0xFFFFFFF0)
    ∧ decodeWord false 0 0x18140C02 0xFFFFFFF0 = some (.liwH ⟨5, false⟩ (.reg 3) 0xFFFFFFF0)
    ∧ decodeWord false 0 0x19140C00 0x2149 = some (.bfx ⟨5, false⟩ (.reg 3) ⟨true, 5, 9⟩)
    ∧ decodeWord false 0 0x1A140C30 0x1000 = some (.bfi ⟨5, false⟩ (.reg 3) (.reg 6) ⟨false, 64, 0⟩)
    ∧ decodeWord false 0 0x1B140C06 0x0 = some (.clz ⟨5, false⟩ (.reg 3) 2)
    ∧ decodeWord false 0 0x1C140C06 0x0 = some (.ctz ⟨5, false⟩ (.reg 3) 2)
    ∧ decodeWord false 0 0x1D140C06 0x0 = some (.popc ⟨5, false⟩ (.reg 3) 2) := by decide +kernel
theorem test_decode_class0_3 :
    decodeWord false 0 0x1E140C36 0x0 = some (.cmp ⟨5, false⟩ (.reg 3) (.reg 6) ⟨true, 2⟩)
    ∧ decodeWord false 0 0x1F140FFE 0x0 = some (.cmpi ⟨5, false⟩ (.reg 3) 1022)
    ∧ decodeWord false 0 0x200003FE 0x0 = some (.bra 1022)
    ∧ decodeWord false 0 0x21000C34 0xFFFFFFF0 = some (.brc (.reg 3) (.reg 6) .ltn 0xFFFFFFF0)
    ∧ decodeWord false 0 0x22000FFE 0x0 = some (.brz (.reg 3) 1022)
    ∧ decodeWord false 0 0x23000FFE 0x0 = some (.brnz (.reg 3) 1022)
    ∧ decodeWord false 0 0x24000000 0xFFFFFFF0 = some (.jmp 0xFFFFFFF0)
    ∧ decodeWord false 0 0x24000C01 0xFFFFFFF0 = some (.jmpReg (.reg 3) 0xFFFFFFF0)
    ∧ decodeWord false 0 0x25140000 0xFFFFFFF0 = some (.call ⟨5, false⟩ 0xFFFFFFF0)
    ∧ decodeWord false 0 0x26140C00 0x0 = some (.callr ⟨5, false⟩ (.reg 3))
    ∧ decodeWord false 0 0x27000C00 0x0 = some (.ret (.reg 3))
    ∧ decodeWord false 0 0x28000FFE 0x0 = some (.brm (.reg 3) 1022)
    ∧ decodeWord false 0 0x29000000 0x0 = some .join
    ∧ decodeWord false 0 0x2A000000 0x0 = some .looph
    ∧ decodeWord false 0 0x2B000000 0x0 = some .exit
    ∧ decodeWord false 0 0x2C000000 0x0 = some .nop := by decide +kernel
theorem test_decode_class0_4 :
    decodeWord false 0 0x2D000000 0x0 = some .yield := by decide +kernel
theorem test_decode_class1_1 :
    decodeWord false 1 0x00140C36 0x0 = some (.vadd ⟨5, false⟩ (.reg 3) (.reg 6) true .m2)
    ∧ decodeWord false 1 0x01140C36 0x0 = some (.vsub ⟨5, false⟩ (.reg 3) (.reg 6) true .m2)
    ∧ decodeWord false 1 0x02140C36 0x0 = some (.vmul ⟨5, false⟩ (.reg 3) (.reg 6) true .m2)
    ∧ decodeWord false 1 0x03140C36 0x0 = some (.vmulh ⟨5, false⟩ (.reg 3) (.reg 6) true .m2)
    ∧ decodeWord false 1 0x04140C36 0x0 = some (.vdiv ⟨5, false⟩ (.reg 3) (.reg 6) true .m2)
    ∧ decodeWord false 1 0x05140C36 0x0 = some (.vrem ⟨5, false⟩ (.reg 3) (.reg 6) true .m2)
    ∧ decodeWord false 1 0x06140C36 0x0 = some (.vand ⟨5, false⟩ (.reg 3) (.reg 6) true .m2)
    ∧ decodeWord false 1 0x07140C36 0x0 = some (.vor ⟨5, false⟩ (.reg 3) (.reg 6) true .m2)
    ∧ decodeWord false 1 0x08140C36 0x0 = some (.vxor ⟨5, false⟩ (.reg 3) (.reg 6) true .m2)
    ∧ decodeWord false 1 0x09140C36 0x0 = some (.vshl ⟨5, false⟩ (.reg 3) (.reg 6) true .m2)
    ∧ decodeWord false 1 0x0A140C36 0x0 = some (.vshr ⟨5, false⟩ (.reg 3) (.reg 6) true .m2)
    ∧ decodeWord false 1 0x0B140C36 0x0 = some (.vmin ⟨5, false⟩ (.reg 3) (.reg 6) true .m2)
    ∧ decodeWord false 1 0x0C140C36 0x0 = some (.vmax ⟨5, false⟩ (.reg 3) (.reg 6) true .m2)
    ∧ decodeWord false 1 0x0D140C02 0x0 = some (.vabs ⟨5, false⟩ (.reg 3) .m2)
    ∧ decodeWord false 1 0x0E140C02 0x0 = some (.vneg ⟨5, false⟩ (.reg 3) .m2)
    ∧ decodeWord false 1 0x0F140C32 0x0 = some (.vmerge ⟨5, false⟩ (.reg 3) (.reg 6) .m2) := by decide +kernel
theorem test_decode_class1_2 :
    decodeWord false 1 0x10140C36 0x0 = some (.vfadd ⟨5, false⟩ (.reg 3) (.reg 6) true .m2)
    ∧ decodeWord false 1 0x11140C36 0x0 = some (.vfsub ⟨5, false⟩ (.reg 3) (.reg 6) true .m2)
    ∧ decodeWord false 1 0x12140C36 0x0 = some (.vfmul ⟨5, false⟩ (.reg 3) (.reg 6) true .m2)
    ∧ decodeWord false 1 0x13140C36 0x0 = some (.vfdiv ⟨5, false⟩ (.reg 3) (.reg 6) true .m2)
    ∧ decodeWord false 1 0x14140C36 0x0 = some (.vfma ⟨5, false⟩ (.reg 3) (.reg 6) true .m2)
    ∧ decodeWord false 1 0x15140C36 0x0 = some (.vfms ⟨5, false⟩ (.reg 3) (.reg 6) true .m2)
    ∧ decodeWord false 1 0x16140C36 0x0 = some (.vfnma ⟨5, false⟩ (.reg 3) (.reg 6) true .m2)
    ∧ decodeWord false 1 0x17140C36 0x0 = some (.vfmin ⟨5, false⟩ (.reg 3) (.reg 6) true .m2)
    ∧ decodeWord false 1 0x18140C36 0x0 = some (.vfmax ⟨5, false⟩ (.reg 3) (.reg 6) true .m2)
    ∧ decodeWord false 1 0x19140C06 0x0 = some (.vfabs ⟨5, false⟩ (.reg 3) true .m2)
    ∧ decodeWord false 1 0x1A140C06 0x0 = some (.vfneg ⟨5, false⟩ (.reg 3) true .m2)
    ∧ decodeWord false 1 0x1B140C06 0x0 = some (.vfsqrt ⟨5, false⟩ (.reg 3) true .m2)
    ∧ decodeWord false 1 0x1C140C06 0x0 = some (.vfrsq ⟨5, false⟩ (.reg 3) true .m2)
    ∧ decodeWord false 1 0x1D140C06 0x0 = some (.vfrcp ⟨5, false⟩ (.reg 3) true .m2)
    ∧ decodeWord false 1 0x1E140C06 0x0 = some (.vfexp ⟨5, false⟩ (.reg 3) true .m2)
    ∧ decodeWord false 1 0x1F140C06 0x0 = some (.vflog ⟨5, false⟩ (.reg 3) true .m2) := by decide +kernel
theorem test_decode_class1_3 :
    decodeWord false 1 0x20140C06 0x0 = some (.vftanh ⟨5, false⟩ (.reg 3) true .m2)
    ∧ decodeWord false 1 0x21140C06 0x0 = some (.vfsin ⟨5, false⟩ (.reg 3) true .m2)
    ∧ decodeWord false 1 0x22140C06 0x0 = some (.vfcos ⟨5, false⟩ (.reg 3) true .m2)
    ∧ decodeWord false 1 0x23140C06 0x0 = some (.vfclass ⟨5, false⟩ (.reg 3) true .m2)
    ∧ decodeWord false 1 0x24140C36 0x0 = some (.vcmpeq ⟨5, false⟩ (.reg 3) (.reg 6) true .m2)
    ∧ decodeWord false 1 0x25140C36 0x0 = some (.vcmpne ⟨5, false⟩ (.reg 3) (.reg 6) true .m2)
    ∧ decodeWord false 1 0x26140C36 0x0 = some (.vcmplt ⟨5, false⟩ (.reg 3) (.reg 6) true .m2)
    ∧ decodeWord false 1 0x27140C36 0x0 = some (.vcmple ⟨5, false⟩ (.reg 3) (.reg 6) true .m2)
    ∧ decodeWord false 1 0x28140C36 0x0 = some (.vfcmpeq ⟨5, false⟩ (.reg 3) (.reg 6) true .m2)
    ∧ decodeWord false 1 0x29140C36 0x0 = some (.vfcmplt ⟨5, false⟩ (.reg 3) (.reg 6) true .m2)
    ∧ decodeWord false 1 0x2A140C36 0x0 = some (.vfcmple ⟨5, false⟩ (.reg 3) (.reg 6) true .m2)
    ∧ decodeWord false 1 0x2B140C36 0x0 = some (.vfcmpun ⟨5, false⟩ (.reg 3) (.reg 6) true .m2)
    ∧ decodeWord false 1 0x2C140E6A 0x0 = some (.vcvt ⟨5, false⟩ (.reg 3) 9 5 .m2)
    ∧ decodeWord false 1 0x2D140C24 0x0 = some (.vquant ⟨5, false⟩ (.reg 3) 4 true)
    ∧ decodeWord false 1 0x2E140C06 0x0 = some (.vdeq ⟨5, false⟩ (.reg 3) true .m2)
    ∧ decodeWord false 1 0x2F140C02 0x0 = some (.vmv ⟨5, false⟩ (.reg 3) .m2) := by decide +kernel
theorem test_decode_class1_4 :
    decodeWord false 1 0x30140C36 0x0 = some (.vredsum ⟨5, false⟩ (.reg 3) (.reg 6) true .m2)
    ∧ decodeWord false 1 0x31140C36 0x0 = some (.vredmax ⟨5, false⟩ (.reg 3) (.reg 6) true .m2)
    ∧ decodeWord false 1 0x32140C36 0x0 = some (.vredmin ⟨5, false⟩ (.reg 3) (.reg 6) true .m2)
    ∧ decodeWord false 1 0x33140C36 0x0 = some (.vfredsum ⟨5, false⟩ (.reg 3) (.reg 6) true .m2)
    ∧ decodeWord false 1 0x34140C36 0x0 = some (.vfredmax ⟨5, false⟩ (.reg 3) (.reg 6) true .m2)
    ∧ decodeWord false 1 0x35140C36 0x0 = some (.vfredmin ⟨5, false⟩ (.reg 3) (.reg 6) true .m2)
    ∧ decodeWord false 1 0x36140C32 0x0 = some (.vscan ⟨5, false⟩ (.reg 3) (.reg 6) .m2)
    ∧ decodeWord false 1 0x37140C36 0x0 = some (.vfscan ⟨5, false⟩ (.reg 3) (.reg 6) true .m2)
    ∧ decodeWord false 1 0x38140C32 0x0 = some (.vslideup ⟨5, false⟩ (.reg 3) (.reg 6) .m2)
    ∧ decodeWord false 1 0x39140C32 0x0 = some (.vslidedn ⟨5, false⟩ (.reg 3) (.reg 6) .m2)
    ∧ decodeWord false 1 0x3A140C32 0x0 = some (.vrgather ⟨5, false⟩ (.reg 3) (.reg 6) .m2)
    ∧ decodeWord false 1 0x3B140C02 0x0 = some (.vcompress ⟨5, false⟩ (.reg 3) .m2)
    ∧ decodeWord false 1 0x3C140002 0x0 = some (.vid ⟨5, false⟩ .m2)
    ∧ decodeWord false 1 0x3D140C02 0x0 = some (.viota ⟨5, false⟩ (.reg 3) .m2)
    ∧ decodeWord false 1 0x3E180C36 0x0 = some (.vsortk 6 (.reg 3) (.reg 6) true true)
    ∧ decodeWord false 1 0x3F140C02 0x0 = some (.vbcast ⟨5, false⟩ (.reg 3) .m2) := by decide +kernel
theorem test_decode_class1_5 :
    decodeWord false 1 0x40140C30 0x0 = some (.setvl ⟨5, false⟩ (.reg 3) (.reg 6))
    ∧ decodeWord false 1 0x41140C2A 0x0 = some (.setvli ⟨5, false⟩ (.reg 3) 42)
    ∧ decodeWord false 1 0x42140C30 0x0 = some (.mand ⟨5, false⟩ (.reg 3) (.reg 6))
    ∧ decodeWord false 1 0x43140C30 0x0 = some (.mor ⟨5, false⟩ (.reg 3) (.reg 6))
    ∧ decodeWord false 1 0x44140C30 0x0 = some (.mxor ⟨5, false⟩ (.reg 3) (.reg 6))
    ∧ decodeWord false 1 0x45140C30 0x0 = some (.mandn ⟨5, false⟩ (.reg 3) (.reg 6))
    ∧ decodeWord false 1 0x46140C00 0x0 = some (.mnot ⟨5, false⟩ (.reg 3))
    ∧ decodeWord false 1 0x47140C02 0x0 = some (.mpop ⟨5, false⟩ (.reg 3) .m2)
    ∧ decodeWord false 1 0x48140C02 0x0 = some (.mfirst ⟨5, false⟩ (.reg 3) .m2)
    ∧ decodeWord false 1 0x49140001 0x0 = some (.emget ⟨5, false⟩ true)
    ∧ decodeWord false 1 0x4A000C01 0x0 = some (.emset (.reg 3) true) := by decide +kernel
theorem test_decode_class2_1 :
    decodeWord false 2 0x00140C06 0x7FFFFFF8 = some (.ld ⟨5, false⟩ (.reg 3) ⟨true, 2⟩ ⟨.l, 0x3FFFFFF8⟩)
    ∧ decodeWord false 2 0x01000C36 0x12345678 = some (.st (.reg 3) (.reg 6) ⟨true, 2⟩ ⟨.g, 0x12345678⟩)
    ∧ decodeWord false 2 0x02140C06 0x5FFFFFF8 = some (.ldaq ⟨5, false⟩ (.reg 3) ⟨true, 2⟩ ⟨.l, .dev, 0x7FFFFF8⟩)
    ∧ decodeWord false 2 0x03000C36 0x5FFFFFF8 = some (.strl (.reg 3) (.reg 6) ⟨true, 2⟩ ⟨.l, .dev, 0x7FFFFF8⟩)
    ∧ decodeWord false 2 0x04140C02 0x7FFFFFF8 = some (.vld ⟨5, false⟩ (.reg 3) .m2 ⟨.l, 0x3FFFFFF8⟩)
    ∧ decodeWord false 2 0x05140C02 0x7FFFFFF8 = some (.vst 5 (.reg 3) .m2 ⟨.l, 0x3FFFFFF8⟩)
    ∧ decodeWord false 2 0x06140C32 0x7FFFFFF8 = some (.vlds ⟨5, false⟩ (.reg 3) (.reg 6) .m2 ⟨.l, 0x3FFFFFF8⟩)
    ∧ decodeWord false 2 0x07140C32 0x7FFFFFF8 = some (.vsts 5 (.reg 3) (.reg 6) .m2 ⟨.l, 0x3FFFFFF8⟩)
    ∧ decodeWord false 2 0x08140C02 0x7FFFFFF8 = some (.vldff ⟨5, false⟩ (.reg 3) .m2 ⟨.l, 0x3FFFFFF8⟩)
    ∧ decodeWord false 2 0x09140C32 0x6FFFFFF8 = some (.vldx ⟨5, false⟩ (.reg 3) (.reg 6) .m2 ⟨.l, 2, true, 3, 0x1FFFFF8⟩)
    ∧ decodeWord false 2 0x0A140C32 0x6FFFFFF8 = some (.vstx 5 (.reg 3) (.reg 6) .m2 ⟨.l, 2, true, 3, 0x1FFFFF8⟩)
    ∧ decodeWord false 2 0x0B140C01 0x7FFFFFF8 = some (.tld ⟨5, false⟩ (.reg 3) true ⟨.l, 0x3FFFFFF8⟩)
    ∧ decodeWord false 2 0x0C140C00 0x7FFFFFF8 = some (.tst 5 (.reg 3) ⟨.l, 0x3FFFFFF8⟩)
    ∧ decodeWord false 2 0x0D140C00 0x5FFFFFF8 = some (.putt 5 (.reg 3) ⟨.l, .dev, 0x7FFFFF8⟩)
    ∧ decodeWord false 2 0x0E140C01 0x5FFFFFF8 = some (.ldc ⟨5, false⟩ (.reg 3) true ⟨.l, .dev, 0x7FFFFF8⟩)
    ∧ decodeWord false 2 0x0F140C01 0x5FFFFFF8 = some (.ldp ⟨5, false⟩ (.reg 3) true ⟨.l, .dev, 0x7FFFFF8⟩) := by decide +kernel
theorem test_decode_class2_2 :
    decodeWord false 2 0x10140C00 0x0 = some (.taglk ⟨5, false⟩ (.reg 3))
    ∧ decodeWord false 2 0x11140C30 0x0 = some (.tagins ⟨5, false⟩ (.reg 3) (.reg 6))
    ∧ decodeWord false 2 0x12140C00 0x0 = some (.tagdel ⟨5, false⟩ (.reg 3))
    ∧ decodeWord false 2 0x13140C36 0x1AFFFFF8 = some (.amo ⟨5, false⟩ (.reg 3) (.reg 6) ⟨true, 2⟩ ⟨.g, .dev, .max, 0x7FFFF8⟩)
    ∧ decodeWord false 2 0x14000C36 0x1AFFFFF8 = some (.amon (.reg 3) (.reg 6) ⟨true, 2⟩ ⟨.g, .dev, .max, 0x7FFFF8⟩)
    ∧ decodeWord false 2 0x15140C36 0x1ADFFFF8 = some (.vamo ⟨5, false⟩ (.reg 3) (.reg 6) true .m2 ⟨.g, .dev, .max, 2, true, 3, 0x3FFF8⟩)
    ∧ decodeWord false 2 0x16140C36 0x1ADFFFF8 = some (.vamon 5 (.reg 3) (.reg 6) true .m2 ⟨.g, .dev, .max, 2, true, 3, 0x3FFF8⟩)
    ∧ decodeWord false 2 0x17140C36 0x187FFFF8 = some (.cas ⟨5, false⟩ (.reg 3) (.reg 6) ⟨true, 2⟩ ⟨.g, .dev, .add, 0x7FFFF8⟩)
    ∧ decodeWord false 2 0x18140C36 0x185FFFF8 = some (.vcas 5 (.reg 3) (.reg 6) true .m2 ⟨.g, .dev, .add, 2, true, 3, 0x3FFF8⟩)
    ∧ decodeWord false 2 0x19000C36 0x2FFFFF8 = some (.nma (.reg 3) (.reg 6) ⟨true, 2⟩ ⟨.g, .grp, .max, 0x7FFFF8⟩)
    ∧ decodeWord false 2 0x1A140C36 0x2DFFFF8 = some (.vnma 5 (.reg 3) (.reg 6) true .m2 ⟨.g, .grp, .max, 2, true, 3, 0x3FFF8⟩)
    ∧ decodeWord false 2 0x1B000003 0x0 = some (.fence .dev)
    ∧ decodeWord false 2 0x1C000C01 0x7FFFFFF8 = some (.pref (.reg 3) true ⟨.l, 0x3FFFFFF8⟩)
    ∧ decodeWord false 2 0x1D000C00 0x7FFFFFF8 = some (.cclean (.reg 3) ⟨.l, 0x3FFFFFF8⟩)
    ∧ decodeWord false 2 0x1E000C00 0x7FFFFFF8 = some (.cinv (.reg 3) false ⟨.l, 0x3FFFFFF8⟩)
    ∧ decodeWord false 2 0x22000C00 0x12345678 = some (.cflush (.reg 3) ⟨.g, 0x12345678⟩) := by decide +kernel
theorem test_decode_class2_3 :
    decodeWord false 2 0x1F000C30 0x7FFFFFF8 = some (.tfill (.reg 3) (.reg 6) ⟨.l, 0x3FFFFFF8⟩)
    ∧ decodeWord false 2 0x20000C30 0x7FFFFFF8 = some (.tempty (.reg 3) (.reg 6) ⟨.l, 0x3FFFFFF8⟩)
    ∧ decodeWord false 2 0x21140C00 0x7FFFFFF8 = some (.ttag ⟨5, false⟩ (.reg 3) ⟨.l, 0x3FFFFFF8⟩) := by decide +kernel
theorem test_decode_class3_1 :
    decodeWord false 3 0x00140C30 0x5F = some (.mma 5 (.reg 3) (.reg 6) ⟨0, 0, true, false, 31⟩)
    ∧ decodeWord false 3 0x01140C30 0x55548BE = some (.mmaAdp 5 (.reg 3) (.reg 6) ⟨0x2AAA, 17, false, true, 30⟩)
    ∧ decodeWord false 3 0x02140030 0x66AAA = some (.adpfin 5 (.reg 6) ⟨true, 9, 0x2AAA⟩)
    ∧ decodeWord false 3 0x03140000 0x0 = some (.mzero 5)
    ∧ decodeWord false 3 0x04140C32 0x7FFFFFF8 = some (.mldacc 5 (.reg 3) (.reg 6) 2 ⟨.l, 0x3FFFFFF8⟩)
    ∧ decodeWord false 3 0x05140C35 0x7FFFFFF8 = some (.mdrain 5 (.reg 3) (.reg 6) 1 true ⟨.l, 0x3FFFFFF8⟩)
    ∧ decodeWord false 3 0x06000C09 0x0 = some (.mfence (.reg 3) 9)
    ∧ decodeWord false 3 0x07000019 0x0 = some (.mbara true 9)
    ∧ decodeWord false 3 0x08000009 0x0 = some (.mbarw 9)
    ∧ decodeWord false 3 0x09140000 0xFFFFFFF0 = some (.mloop 5 0xFFFFFFF0)
    ∧ decodeWord false 3 0x0A000000 0xFFFFFFF0 = some (.mjmp 0xFFFFFFF0)
    ∧ decodeWord false 3 0x0B000000 0x0 = some .mend
    ∧ decodeWord false 3 0x0C000C00 0xC0002AAA = some (.adpld (.reg 3) ⟨true, 64, 0x2AAA⟩)
    ∧ decodeWord false 3 0x0D000C00 0x0 = some (.adpinv (.reg 3))
    ∧ decodeWord false 3 0x0E140C30 0x0 = some (.msetbAdd 5 (.reg 3) (.reg 6))
    ∧ decodeWord false 3 0x0E140C31 0x0 = some (.msetbLd 5 (.reg 3) (.reg 6)) := by decide +kernel
theorem test_decode_class3_2 :
    decodeWord false 3 0x0E000C02 0x0 = some (.msetbFmt (.reg 3))
    ∧ decodeWord false 3 0x0E000C03 0x0 = some (.msetbSeed (.reg 3))
    ∧ decodeWord false 3 0x0E000C04 0x0 = some (.msetbBind (.reg 3))
    ∧ decodeWord false 3 0x0E000C05 0x0 = some (.msetbAdir (.reg 3))
    ∧ decodeWord false 3 0x0F000000 0x0 = some .mnop := by decide +kernel
theorem test_decode_class4_1 :
    decodeWord false 4 0x00140C32 0xFFFCFFF0 = some (.gath 5 (.reg 3) (.reg 6) .m2 ⟨0xFFFC, 4095⟩)
    ∧ decodeWord false 4 0x01140C32 0x40010 = some (.scat 5 (.reg 3) (.reg 6) .m2 ⟨4, 1⟩)
    ∧ decodeWord false 4 0x02000C00 0x12345678 = some (.coll (.reg 3) ⟨.g, 0x12345678⟩)
    ∧ decodeWord false 4 0x030002AD 0x0 = some (.waitc 85 5)
    ∧ decodeWord false 4 0x04140C00 0x0 = some (.astatCnt ⟨5, false⟩ (.reg 3))
    ∧ decodeWord false 4 0x04140C01 0x0 = some (.astatChan ⟨5, false⟩ (.reg 3))
    ∧ decodeWord false 4 0x04140002 0x0 = some (.astatFault ⟨5, false⟩)
    ∧ decodeWord false 4 0x05000000 0x0 = some .nmsync := by decide +kernel
theorem test_decode_class5_1 :
    decodeWord false 5 0x00000C00 0x0 = some (.gcfg (.reg 3))
    ∧ decodeWord false 5 0x00000001 0x0 = some .gcfgUn
    ∧ decodeWord false 5 0x01140C30 0x120034 = some (.gmatch ⟨5, false⟩ (.reg 3) (.reg 6) ⟨0x12, 0x34⟩)
    ∧ decodeWord false 5 0x02140C00 0x9E123456 = some (.gprop ⟨5, false⟩ (.reg 3) ⟨true, 1, true, true, 2, 0x12, 0x34, 0x56⟩)
    ∧ decodeWord false 5 0x03140C00 0x0 = some (.gwait ⟨5, false⟩ (.reg 3))
    ∧ decodeWord false 5 0x04140C30 0x0 = some (.gcollect ⟨5, false⟩ (.reg 3) (.reg 6))
    ∧ decodeWord false 5 0x05000C30 0x0 = some (.gclr (.reg 3) (.reg 6))
    ∧ decodeWord false 5 0x06140C01 0x0 = some (.gvld ⟨5, false⟩ (.reg 3) true)
    ∧ decodeWord false 5 0x07140C01 0x0 = some (.gvst 5 (.reg 3) true)
    ∧ decodeWord false 5 0x08140C00 0x0 = some (.gstat ⟨5, false⟩ (.reg 3))
    ∧ decodeWord false 5 0x09000C00 0x0 = some (.gabort (.reg 3)) := by decide +kernel
theorem test_decode_class6_1 :
    decodeWord false 6 0x0E100C01 0x0 = some (.macq 4 (.reg 3))
    ∧ decodeWord false 6 0x0E000C00 0x0 = some (.macqNc (.reg 3))
    ∧ decodeWord false 6 0x0F000C00 0x0 = some (.mrel (.reg 3))
    ∧ decodeWord false 6 0x0F000C21 0x0 = some (.mrelW (.reg 3) (.reg 4))
    ∧ decodeWord false 6 0x00000C09 0x0 = some (.bari (.reg 3) 9)
    ∧ decodeWord false 6 0x01000009 0x0 = some (.bara 9)
    ∧ decodeWord false 6 0x02000009 0x0 = some (.barw 9)
    ∧ decodeWord false 6 0x03000009 0x0 = some (.baraw 9)
    ∧ decodeWord false 6 0x04140C30 0x0 = some (.syncw ⟨5, false⟩ (.reg 3) (.reg 6))
    ∧ decodeWord false 6 0x05080C33 0x0 = some (.mqw 2 (.reg 3) (.reg 6) .dev)
    ∧ decodeWord false 6 0x06140002 0x0 = some (.mqr ⟨5, false⟩ 2)
    ∧ decodeWord false 6 0x07140000 0x0 = some (.refill 5)
    ∧ decodeWord false 6 0x08140C00 0x0 = some (.itempush ⟨5, false⟩ (.reg 3))
    ∧ decodeWord false 6 0x08140001 0x0 = some (.itempushClose ⟨5, false⟩)
    ∧ decodeWord false 6 0x09140C00 0xB0000 = some (.tender ⟨5, false⟩ (.reg 3) 11)
    ∧ decodeWord false 6 0x0A140C00 0x0 = some (.withdraw ⟨5, false⟩ (.reg 3)) := by decide +kernel
theorem test_decode_class6_2 :
    decodeWord false 6 0x0B000C00 0x0 = some (.doneTask (.reg 3))
    ∧ decodeWord false 6 0x0C140C01 0x0 = some (.blkacq ⟨5, false⟩ (.reg 3) true)
    ∧ decodeWord false 6 0x0D140C00 0x0 = some (.blkrel ⟨5, false⟩ (.reg 3))
    ∧ decodeWord false 6 0x10000C00 0xFFFFFFF0 = some (.fbegin (.reg 3) 0xFFFFFFF0)
    ∧ decodeWord false 6 0x11140000 0x0 = some (.fcommit ⟨5, false⟩)
    ∧ decodeWord false 6 0x12000000 0x0 = some .fabort := by decide +kernel
theorem test_decode_class7_1 :
    decodeWord false 7 0x001403FE 0x0 = some (.csrr ⟨5, false⟩ 1022)
    ∧ decodeWord false 7 0x01140FFE 0x0 = some (.csrw ⟨5, false⟩ (.reg 3) 1022)
    ∧ decodeWord false 7 0x02140FFE 0x0 = some (.csrs ⟨5, false⟩ (.reg 3) 1022)
    ∧ decodeWord false 7 0x03140FFE 0x0 = some (.csrc ⟨5, false⟩ (.reg 3) 1022)
    ∧ decodeWord false 7 0x0400002A 0x0 = some (.trap 42)
    ∧ decodeWord false 7 0x05000000 0x0 = some .eret
    ∧ decodeWord false 7 0x06000C30 0x0 = some (.tlbinv (.reg 3) (.reg 6))
    ∧ decodeWord false 7 0x06000031 0x0 = some (.tlbinvAsid (.reg 6))
    ∧ decodeWord false 7 0x06000002 0x0 = some .tlbinvAll
    ∧ decodeWord false 7 0x07000C30 0x0 = some (.cbld (.reg 3) (.reg 6))
    ∧ decodeWord false 7 0x08000C00 0x0 = some (.cbswap (.reg 3))
    ∧ decodeWord false 7 0x09000C30 0x0 = some (.bidld (.reg 3) (.reg 6))
    ∧ decodeWord false 7 0x09000C01 0x0 = some (.bidldWindow (.reg 3))
    ∧ decodeWord false 7 0x0A000C00 0x0 = some (.dbg (.reg 3))
    ∧ decodeWord false 7 0x0B140000 0x0 = some (.feat ⟨5, false⟩)
    ∧ decodeWord true 7 0xF0140C30 0x12345678 = some (.nzskip 5 (.reg 3) (.reg 6) ⟨.g, 0x12345678⟩) := by decide +kernel
theorem test_decode_class7_2 :
    decodeWord true 7 0xF1000C00 0x0 = some (.rowf (.reg 3))
    ∧ decodeWord true 7 0xF2140C00 0x0 = some (.mbxr 5 (.reg 3))
    ∧ decodeWord true 7 0xF3000C00 0x0 = some (.haltb (.reg 3)) := by decide +kernel
/-- SUBMIT x12, x11, x10 (R336). -/
theorem test_decode_submit : decodeSubmit 0x00C5850B = some (.submit 12 11 10) ∧ decodeSubmit 0x00C5950B = none ∧ decodeSubmit 0x02C5850B = none := by decide +kernel

/-! ## Words that the decoder refuses (R38 to R45, R49) -/

/-- A field that is not used, a source 0x44, a scope 5, an unassigned opcode, nw with a destination, a space 3, a set reserved bit of a literal, an opcode of the bank cores in a group. -/
theorem test_decode_refuses : [decodeWord false 0 0x2B000001 0, decodeWord false 0 0x00051013 0, decodeWord false 2 0x1B000005 0,
    decodeWord false 0 0x2E000000 0, decodeWord false 0 0x00060413 0, decodeWord false 2 0x01000C0F 0xC0000000, decodeWord false 0 0x19140C00 0x80002149,
    decodeWord false 7 0xF3002000 0] = List.replicate 8 none := by decide +kernel
/-- A bank core has LD and not the tile loads (R295). -/
theorem test_bank_accepts : bankAccepts 2 0x00 = true ∧ bankAccepts 2 0x0B = false ∧ bankAccepts 7 0xF3 = true ∧ bankAccepts 0 0x28 = false := by decide +kernel
/-- A header of class 0 with count 3 that waits on counter 0, and malformed ones (R31, R32). -/
theorem test_headers : hdrBad false 0x103 = false ∧ hdrBad false 0x100 = true ∧ hdrBad false 0x100003 = true ∧ hdrBad false 0x200003 = true
    ∧ hdrBad false 0x33 = true ∧ hdrBad true 0x33 = false ∧ hdrBad true 0x3 = true ∧ hdrBad true 0x133 = true := by decide +kernel

/-! ## Single steps -/

/-- Stored where step fetches, from reset, an instruction is the one that runs: ADD.i64 s5, −5, 1 (R60, R41). -/
theorem test_step_add : nextIs (step (State.reset.withFetchWord 32 0x0015AF8B)) (fun t => t.hart.sreg 5 == BitVec.ofInt 64 (-4)) = true := by decide +kernel
/-- DIV of the most negative .i64 by −1 and by 0 (R60): no trap; the quotient wraps, and all ones. -/
def divide (a : Word64) : State := onHart base fun h => { h with s := vset h.s 4 a }
theorem test_div : nextIs (exec (.div ⟨5, false⟩ (.reg 4) (.const 0x0F) ⟨false, 3⟩) (divide (1 <<< 63))) (fun t => t.hart.sreg 5 == 1 <<< 63) = true
    ∧ nextIs (exec (.div ⟨5, false⟩ (.reg 4) (.const 0x10) ⟨false, 3⟩) (divide 9)) (fun t => t.hart.sreg 5 == BitVec.allOnes 64) = true := by decide +kernel
/-- LIW.z s7, 0x89ABCDEF and LIW.h s7, s7, 0x01234567 (spec/03, R63); REM.n64 of 84 and 36 (spec/03, euclid). -/
theorem test_wide_constant : nextIs (exec (.liwH ⟨7, false⟩ (.reg 7) 0x01234567) (onHart base fun h => { h with s := vset h.s 7 0x89ABCDEF })) (fun t => t.hart.sreg 7 == 0x0123456789ABCDEF) = true
    ∧ nextIs (exec (.liwZ ⟨7, false⟩ 0x89ABCDEF) base) (fun t => t.hart.sreg 7 == 0x89ABCDEF) = true := by decide +kernel
theorem test_rem : nextIs (exec (.rem ⟨5, false⟩ (.reg 1) (.reg 2) ⟨true, 3⟩) (onHart base fun h => { h with s := vset (vset h.s 1 84) 2 36 })) (fun t => t.hart.sreg 5 == 12) = true := by
  decide +kernel
/-- SETVLI s4, s3, e32 of 70 elements takes 64 (spec/05). -/
theorem test_setvli : nextIs (exec (.setvli ⟨4, false⟩ (.reg 3) 2) (onHart base fun h => { h with s := vset h.s 3 70 })) (fun t => t.hart.sreg 4 == 64 && t.hart.vl == 64 && t.hart.vtype.toNat % 4 == 2) = true := by
  decide +kernel
/-- VFMA.f v8, v0, 2 adds 2 × 1.5 to 1.0 (spec/05, R117). -/
theorem test_vfma : nextIs (exec (.vfma ⟨8, false⟩ (.reg 0) (.const 0x12) false .none)
    (onHart (typed 2 2) fun h => { h with v := vset (vset h.v 0 0x3FC000003FC00000) 8 0x3F8000003F800000 })) (fun t => (vget t.hart.v 8 0).setWidth 64 == (0x4080000040800000 : Word64)) = true := by
  decide +kernel
/-- TRAP 5 enters the handler with cause 0x45 and tval 5; epc is the next header (R377). -/
theorem test_trap : nextIs (exec (.trap 5) base) (fun t => t.hart.sys && t.path.pc == 0x2000 && t.hart.tcause == 0x45 && t.hart.tval == 5 && t.hart.epc == 0x1040) = true := by decide +kernel
/-- A source that is also the destination (R49), and b0 after it (R24). -/
theorem test_latch : nextIs (exec (.sub ⟨1, false⟩ (.const 0x11) (.reg 1) ⟨false, 3⟩) base) (fun t => t.hart.sreg 1 == BitVec.ofInt 64 (-6)
    && (vget t.path.latches 0 default).kind == .scalar) = true := by decide +kernel
/-- A taken BRNZ goes to its displacement from the header (R48, R70). -/
theorem test_branch : nextIs (exec (.brnz (.reg 1) 0x3FE) base) (fun t => t.path.pc == 0xFF8 && t.path.clause.isNone) = true := by decide +kernel
/-- A load of the scratchpad is little-endian and sign-extends (R6, R77). -/
theorem test_load : nextIs (exec (.ld ⟨4, false⟩ (.reg 3) ⟨false, 1⟩ ⟨.l, 0⟩) (onTeam base fun t => { t with mem := [(0x40, 0x34), (0x41, 0x92)] }))
    (fun t => t.hart.sreg 4 == BitVec.ofInt 64 (0x9234 - 0x10000)) = true := by decide +kernel
/-- A misaligned load traps with MISALIGNED (R79, R359): the handler's address, the cause, the word's address in epc, and in tval the address in window 0xD. -/
theorem test_misaligned : nextIs (exec (.ld ⟨4, false⟩ (.reg 1) ⟨true, 3⟩ ⟨.l, 0⟩) base) (fun t => t.hart.sys && t.hart.fcause == 0
    && t.path.pc == 0x2000 && t.hart.tcause.toNat % 128 == Cause.misaligned.code.toNat && t.hart.tval == 0x00D0000000000007 && t.hart.epc == 0x1004) = true := by decide +kernel
/-- TLBINV in user mode traps, in system mode it goes on (R19, R365). -/
theorem test_privilege : nextIs (exec .tlbinvAll base) (fun t => t.hart.sys && t.path.pc == 0x2000) = true
    ∧ nextIs (exec .tlbinvAll (onHart base fun h => { h with sys := true })) (fun t => t.path.pc == 0x1000 && t.path.clause != base.path.clause) = true := by decide +kernel
/-- Nothing runs once the boot ROM has stopped (R419). -/
theorem test_boot_stopped : (match step { base with service := { base.service with boot := .failed 2 } } with | .fault .bootStopped => true | _ => false) = true := by decide +kernel

end Sys2Proof.Tests
end

