-- ==== Sys2Proof/Tests/WitnessAlu.lean ====
section
/-! SUPPORT. Witnesses for the statements about classes 0 and 1: a concrete state and operands that meet the hypotheses of each clause. -/

set_option Elab.async false -- one evaluation at a time: each holds a thread

namespace Sys2Proof.Tests
open Sys2Proof.Machine Sys2Proof.Claims

/-! ## Class 0 -/

theorem witness_RegisterFormArithmeticResults : base.opnd (.reg 1) = .ok 7 ∧ base.opnd (.const 14) = .ok (BitVec.ofInt 64 (-2)) := by
  decide +kernel
theorem witness_ImmediateCompareAndSelectResults :
    base.opnd (.reg 1) = .ok 7 ∧ base.opnd (.reg 2) = .ok (BitVec.ofInt 64 (-2)) := by decide +kernel
theorem witness_LiteralAndBitFieldResults : base.opnd (.reg 1) = .ok 7 ∧ base.opnd (.reg 2) = .ok (BitVec.ofInt 64 (-2))
    ∧ ∀ f ∈ [(⟨true, 64, 0⟩ : BfLit), ⟨false, 1, 63⟩], 1 ≤ f.width.toNat ∧ f.lo.toNat + f.width.toNat ≤ 64 := by decide +kernel
theorem witness_BitCountResults : base.opnd (.reg 0) = .ok 0 ∧ base.opnd (.reg 2) = .ok (BitVec.ofInt 64 (-2)) := by decide +kernel

theorem witness_TransfersGoToTheirTargets : base.path.clause = some (clauseOf 0) ∧ base.opnd (.reg 1) = .ok 7
    ∧ base.opnd (.reg 3) = .ok 0x40 ∧ TargetOk base ((clauseOf 0).hdr + 4 * (BitVec.signExtend 64 (511 : BitVec 10)))
    ∧ TargetOk base 0x40 := by
  unfold TargetOk; decide +kernel
theorem witness_CallsWriteTheirLinkAndJump : base.path.clause = some (clauseOf 0) ∧ base.opnd (.reg 3) = .ok 0x40
    ∧ TargetOk base ((clauseOf 0).hdr + 4 * BitVec.signExtend 64 (BitVec.ofInt 32 (-4) : Word32)) ∧ TargetOk base 0x40 := by
  unfold TargetOk; decide +kernel

/-- The focus with a mask in m1. -/
def masked (m : MWord) : State := onHart base fun h => { h with m := vset h.m 1 m }
/-- The hypotheses that the three clauses share. -/
def brmReady (m : MWord) : Prop := (masked m).path.active = true ∧ (masked m).path.susp = none ∧ (masked m).path.clause = some (clauseOf 0)
  ∧ (masked m).opndM (.reg 1) = .ok m
theorem witness_BrmBranchesOrDivides_taken : let m : MWord := BitVec.allOnes 256
    brmReady m ∧ m.setWidth 64 &&& (masked m).path.emask = (masked m).path.emask := by unfold brmReady; decide +kernel
theorem witness_BrmBranchesOrDivides_not_taken : let m : MWord := 0
    brmReady m ∧ m.setWidth 64 &&& (masked m).path.emask = 0 ∧ (masked m).path.emask ≠ 0 := by unfold brmReady; decide +kernel
theorem witness_BrmBranchesOrDivides_divides : let m : MWord := 1
    brmReady m ∧ m.setWidth 64 &&& (masked m).path.emask ≠ 0 ∧ m.setWidth 64 &&& (masked m).path.emask ≠ (masked m).path.emask
    ∧ (masked m).hart.recs.length < 32 := by unfold brmReady; decide +kernel
theorem witness_BrmBranchesOrDivides_target : TargetOk base ((clauseOf 0).hdr + 4 * (BitVec.signExtend 64 (4 : BitVec 10))) := by
  unfold TargetOk; decide +kernel

/-- A record whose taken child the focus's path is. -/
def rec0 : DivRec := { lanes := BitVec.allOnes 64, fmt := 0, taken := 1, fall := BitVec.allOnes 64 ^^^ 1, takenOpen := true, fallOpen := true,
                       takenMask := 0, fallMask := 0, takenPc := none, fallPc := none, pending := none }
def divided (r : DivRec) (lanes : Word64) : State :=
  onPath (onHart base fun h => { h with recs := [r] }) fun p => { p with lanes := lanes, emask := lanes }
/-- Open records to the hardware depth, which the next record takes to the spill store. -/
theorem witness_BrmBranchesOrDivides_spills : let s := onHart (masked 1) fun h => { h with recs := List.replicate 32 rec0 }
    (s.path.active = true ∧ s.path.susp = none ∧ s.path.clause = some (clauseOf 0) ∧ s.opndM (.reg 1) = .ok 1)
    ∧ 32 ≤ s.hart.recs.length ∧ s.hart.recs.length < 1024 ∧ 1 &&& s.path.emask = 1 ∧ 1 ≠ s.path.emask
    ∧ isOk (s.divide 1 ((clauseOf 0).hdr + 4 * (BitVec.signExtend 64 (4 : BitVec 10)))) = true := by decide +kernel
theorem witness_JoinClosesAChildAndRestoresTheParent : base.path.clause = some (clauseOf 0) ∧ base.hart.recs = []
    ∧ (∀ s ∈ [divided rec0 1, divided { rec0 with fallOpen := false } 1], s.path.clause = some (clauseOf 0)
        ∧ ∃ r, s.hart.recs = [r] ∧ r.taken ≠ r.fall ∧ r.taken = s.path.lanes ∧ r.takenOpen = true)
    ∧ (divided rec0 rec0.fall).hart.recs = [rec0] ∧ rec0.fall = (divided rec0 rec0.fall).path.lanes ∧ rec0.fallOpen = true := by
  refine ⟨by decide +kernel, by decide +kernel, ?_, by decide +kernel⟩
  intro s h
  rcases List.mem_pair.mp h with rfl | rfl
  · exact ⟨by decide +kernel, rec0, by decide +kernel⟩
  · exact ⟨by decide +kernel, { rec0 with fallOpen := false }, by decide +kernel⟩
theorem witness_ExitEndsTheGroup : base.cur.unit = .group ∧ base.hart.recs = [] ∧ (∀ k < 8, base.hart.counter k = 0)
    ∧ (let s := onHart base fun h => { h with ledger := vset h.ledger 0 [(0, false)] }
       s.cur.unit = .group ∧ s.hart.recs = [] ∧ ∃ k < 8, s.hart.counter k ≠ 0)
    ∧ (let s := divided rec0 1
       s.cur.unit = .group ∧ s.hart.recs = rec0 :: [] ∧ rec0.takenOpen = true ∧ rec0.taken = s.path.lanes ∧ rec0.fallOpen = true) := by
  decide +kernel
theorem witness_HintsOnlyGoOn : base.path.clause = some (clauseOf 0) := by decide +kernel

/-! ## Class 1 -/

theorem sourcesReady (s : State) (a b : Src) (k : MSel) (cst : Int → Nat)
    (h : (s.sewOk s.vc && s.vc.srcOk a s.vc.lmul && s.vc.srcOk b s.vc.lmul && s.vc.selOk k && isOk (s.vsrc s.vc a s.vc.sew cst)
      && isOk (s.vsrc s.vc b s.vc.sew cst) && decide (s.heldSrc a s.vc.lmul = .ok ()) && decide (s.heldSrc b s.vc.lmul = .ok ())) = true) :
    ∃ x y, SourcesReady s a b k cst x y := by
  simp only [Bool.and_eq_true, decide_eq_true_eq] at h
  obtain ⟨⟨⟨⟨⟨⟨⟨h1, h2⟩, h3⟩, h4⟩, h5⟩, h6⟩, h7⟩, h8⟩ := h
  obtain ⟨x, hx⟩ := ok_of_isOk h5
  obtain ⟨y, hy⟩ := ok_of_isOk h6
  exact ⟨x, y, h1, h2, h3, h4, hx, hy, h7, h8⟩

/-- Sixteen-bit elements with vl 4, and the greatest groups with vl 0. -/
theorem witness_VectorIntegerElementResults : ∀ s ∈ [typed 1 4, typed 0xC 0], ∀ a ∈ [Src.reg 8, .const 3],
    (∃ x y, SourcesReady s a (.reg 0) .none (cstI s.vc.sew) x y) ∧ DstReady s ⟨16, false⟩ s.vc.lmul := by
  intro s hs a ha
  rcases List.mem_pair.mp hs with rfl | rfl <;> rcases List.mem_pair.mp ha with rfl | rfl <;>
    exact ⟨sourcesReady _ _ _ _ _ (by decide +kernel), by unfold DstReady; decide +kernel⟩
theorem witness_VectorMoveAndFillResults : (∃ x y, SourcesReady (typed 1 4) (.reg 1) (.reg 2) .m2 (cstI 16) x y)
    ∧ DstReady (typed 1 4) ⟨3, false⟩ 1 ∧ (typed 1 4).opnd (.reg 1) = .ok 7 ∧ MSel.m2 ≠ .none :=
  ⟨sourcesReady _ _ _ _ _ (by decide +kernel), by unfold DstReady; decide +kernel, by decide +kernel, by decide⟩
theorem witness_VectorCompareResults : (∃ x y, SourcesReady (typed 1 4) (.reg 1) (.reg 2) .none (cstI 16) x y)
    ∧ (∃ x y, SourcesReady (typed 2 4) (.reg 1) (.const 1) .none (cstF .f32) x y) ∧ fpFormat false 32 = some .f32
    ∧ fpFormat true 16 = some .bf16 ∧ ∀ s ∈ [typed 1 4, typed 2 4], s.vc.mdstOk ⟨2, false⟩ = true :=
  ⟨sourcesReady _ _ _ _ _ (by decide +kernel), sourcesReady _ _ _ _ _ (by decide +kernel), by decide +kernel, by decide +kernel,
    by decide +kernel⟩

/-- Sixteen-bit floating-point elements, and 32-bit ones, under stochastic rounding as well. -/
theorem witness_VectorFloatArithmeticResults : ∀ c ∈ [(typed 1 4, false, FF.f16), (typed 1 4, true, .bf16), (typed 2 64, false, .f32),
      (onPath (typed 2 4) fun p => { p with fmt := BitVec.ofNat 64 rSR }, false, .f32)],
    fpFormat c.2.1 c.1.vc.sew = some c.2.2 ∧ (∃ x y, SourcesReady c.1 (.reg 1) (.const 1) .none (cstF c.2.2) x y) ∧ DstReady c.1 ⟨3, false⟩ c.1.vc.lmul
    ∧ c.1.vc.regOk 3 c.1.vc.lmul = true ∧ c.1.heldRegs 3 c.1.vc.lmul = .ok () := by
  intro c hc
  simp only [List.mem_cons, List.not_mem_nil, or_false] at hc
  unfold DstReady
  rcases hc with rfl | rfl | rfl | rfl <;>
    exact ⟨by decide +kernel, sourcesReady _ _ _ _ _ (by decide +kernel), by decide +kernel, by decide +kernel, by decide +kernel⟩
theorem witness_VectorFloatPatternResults : fpFormat false (typed 2 4).vc.sew = some .f32
    ∧ (∃ x y, SourcesReady (typed 2 4) (.reg 1) (.reg 2) .none (cstF .f32) x y) ∧ DstReady (typed 2 4) ⟨3, false⟩ 1 :=
  ⟨by decide +kernel, sourcesReady _ _ _ _ _ (by decide +kernel), by unfold DstReady; decide +kernel⟩
theorem witness_VectorApproximationResults : fpFormat true (typed 1 4).vc.sew = some .bf16
    ∧ (∃ x y, SourcesReady (typed 1 4) (.reg 1) (.reg 2) .none (cstF .bf16) x y) ∧ DstReady (typed 1 4) ⟨3, false⟩ 1 :=
  ⟨by decide +kernel, sourcesReady _ _ _ _ _ (by decide +kernel), by unfold DstReady; decide +kernel⟩

/-- A conversion of each kind: integer to integer, float to integer, integer to float, and float to float. -/
theorem witness_VectorConversionResults : ∀ c ∈ [((0 : BitVec 4), (0 : BitVec 3), CvtFmt.int 32 false), (2, 2, .fp .f32), (8, 0, .int 32 false), (8, 2, .fp .f32)],
    let s := typed 2 4
    let dw := (cvtDst c.1).width
    let L := Nat.max 1 (s.vc.lmul * dw / s.vc.sew)
    cvtSrc s.vc.sew c.2.1 = some c.2.2 ∧ s.sewOk s.vc = true ∧ s.onBank = false ∧ L ≤ 8 ∧ s.vc.regOk 3 L = true
    ∧ s.vc.srcOk (.reg 1) s.vc.lmul = true ∧ s.vc.selOk .none = true ∧ dstMeets ⟨3, false⟩ L (.reg 1) s.vc.lmul = false
    ∧ (∃ x, s.vsrc s.vc (.reg 1) s.vc.sew (fun n => (c.2.2.const (modesOf s.path.fmt) s.hart.gens n).1) = .ok x) ∧ s.heldSrc (.reg 1) s.vc.lmul = .ok ()
    ∧ s.heldDst ⟨3, false⟩ L = .ok () := by
  intro c hc
  simp only [List.mem_cons, List.not_mem_nil, or_false] at hc
  rcases hc with rfl | rfl | rfl | rfl <;>
    exact ⟨by decide +kernel, by decide +kernel, by decide +kernel, by decide +kernel, by decide +kernel, by decide +kernel,
      by decide +kernel, by decide +kernel, ok_of_isOk (by decide +kernel), by decide +kernel, by decide +kernel⟩

/-- VQUANT of four elements and of as many as the target holds, and VDEQ of an empty tile of target 0. -/
theorem witness_QuantisedTileResults_vquant : ∀ s ∈ [typed 2 4, typed 9 224],
    fpFormat false s.vc.sew ≠ none ∧ targets 0 ≠ none ∧ s.onBank = false ∧ s.vc.vl ≤ 224 ∧ s.vc.dstOk ⟨16, false⟩ 1 = true
    ∧ s.vc.srcOk (.reg 8) s.vc.lmul = true ∧ dstMeets ⟨16, false⟩ 1 (.reg 8) s.vc.lmul = false
    ∧ s.path.lanes = BitVec.allOnes 64 ∧ s.path.emask = BitVec.allOnes 64
    ∧ (∃ f x, fpFormat false s.vc.sew = some f ∧ s.vsrc s.vc (.reg 8) s.vc.sew (cstF f) = .ok x)
    ∧ s.heldSrc (.reg 8) s.vc.lmul = .ok () ∧ s.heldDst ⟨16, false⟩ 1 = .ok () := by
  intro s hs
  rcases List.mem_pair.mp hs with rfl | rfl
  · obtain ⟨x, hx⟩ := ok_of_isOk (r := (typed 2 4).vsrc (typed 2 4).vc (.reg 8) (typed 2 4).vc.sew (cstF .f32)) (by decide +kernel)
    exact ⟨by decide +kernel, by decide +kernel, by decide +kernel, by decide +kernel, by decide +kernel, by decide +kernel, by decide +kernel,
      by decide +kernel, by decide +kernel, ⟨.f32, x, by decide +kernel, hx⟩, by decide +kernel, by decide +kernel⟩
  · obtain ⟨x, hx⟩ := ok_of_isOk (r := (typed 9 224).vsrc (typed 9 224).vc (.reg 8) (typed 9 224).vc.sew (cstF .f16)) (by decide +kernel)
    exact ⟨by decide +kernel, by decide +kernel, by decide +kernel, by decide +kernel, by decide +kernel, by decide +kernel, by decide +kernel,
      by decide +kernel, by decide +kernel, ⟨.f16, x, by decide +kernel, hx⟩, by decide +kernel, by decide +kernel⟩
theorem witness_QuantisedTileResults_vdeq : let s := typed 2 4
    fpFormat false s.vc.sew = some .f32 ∧ s.onBank = false ∧ DstReady s ⟨3, false⟩ s.vc.lmul ∧ s.vc.srcOk (.reg 2) 1 = true
    ∧ s.vc.selOk .none = true ∧ dstMeets ⟨3, false⟩ s.vc.lmul (.reg 2) 1 = false ∧ s.heldSrc (.reg 2) 1 = .ok ()
    ∧ s.vreg1 (.reg 2) (fun z => BitVec.ofNat 2048 (packCells 32 0 (List.replicate 64 (some (cstI 32 z))))) = .ok (0 : VWord)
    ∧ targets ((leBytes 256 (0 : VWord).toNat).getD 236 0).toNat = some ⟨224, .fp .e4m3, false, false⟩ ∧ s.vc.vl ≤ 224 := by
  unfold DstReady; decide +kernel

theorem witness_VectorReductionResults : ∀ c ∈ [(typed 1 4, cstI 16), (typed 1 4, cstF .f16), (typed 1 0, cstI 16)],
    c.1.sewOk c.1.vc = true ∧ c.1.vc.dstOk ⟨3, false⟩ 1 = true ∧ c.1.vc.srcOk (.reg 1) c.1.vc.lmul = true
    ∧ c.1.vc.srcOk (.reg 2) 1 = true ∧ c.1.vc.selOk .none = true ∧ (∃ x, c.1.vsrc c.1.vc (.reg 1) 16 c.2 = .ok x)
    ∧ (∃ y, c.1.vsrc c.1.vc (.reg 2) 16 c.2 = .ok y) ∧ c.1.heldSrc (.reg 1) c.1.vc.lmul = .ok () ∧ c.1.heldSrc (.reg 2) 1 = .ok ()
    ∧ c.1.heldDst ⟨3, false⟩ 1 = .ok () := by
  intro c hc
  simp only [List.mem_cons, List.not_mem_nil, or_false] at hc
  rcases hc with rfl | rfl | rfl <;>
    exact ⟨by decide +kernel, by decide +kernel, by decide +kernel, by decide +kernel, by decide +kernel, ok_of_isOk (by decide +kernel), ok_of_isOk (by decide +kernel),
      by decide +kernel, by decide +kernel, by decide +kernel⟩
theorem witness_VectorScanResults : ∀ c ∈ [(typed 1 4, cstI 16), (typed 1 4, cstF .f16)],
    c.1.sewOk c.1.vc = true ∧ DstReady c.1 ⟨3, false⟩ c.1.vc.lmul ∧ c.1.vc.srcOk (.reg 1) c.1.vc.lmul = true
    ∧ c.1.vc.msrcOk (.reg 1) = true ∧ c.1.vc.selOk .none = true ∧ (∃ x, c.1.vsrc c.1.vc (.reg 1) 16 c.2 = .ok x)
    ∧ (∃ y, c.1.msrc (.reg 1) = .ok y) ∧ c.1.heldSrc (.reg 1) c.1.vc.lmul = .ok () := by
  intro c hc
  unfold DstReady
  rcases List.mem_pair.mp hc with rfl | rfl <;>
    exact ⟨by decide +kernel, by decide +kernel, by decide +kernel, by decide +kernel, by decide +kernel, ok_of_isOk (by decide +kernel), ok_of_isOk (by decide +kernel), by decide +kernel⟩

theorem witness_VectorPermutationResults : let s := typed 1 4
    (∃ x y, SourcesReady s (.reg 1) (.reg 2) .m2 (cstI 16) x y) ∧ DstReady s ⟨3, false⟩ 1 ∧ dstMeets ⟨3, false⟩ 1 (.reg 1) 1 = false
    ∧ dstMeets ⟨3, false⟩ 1 (.reg 2) 1 = false ∧ s.opnd (.reg 1) = .ok 7 ∧ s.vc.msrcOk (.reg 1) = true ∧ (∃ h, s.msrc (.reg 1) = .ok h)
    ∧ MSel.m2 ≠ .none :=
  ⟨sourcesReady _ _ _ _ _ (by decide +kernel), by unfold DstReady; decide +kernel, by decide +kernel, by decide +kernel, by decide +kernel,
    by decide +kernel, ok_of_isOk (by decide +kernel), by decide⟩
theorem witness_VectorSortResults : let s := typed 2 64
    s.onBank = false ∧ s.vc.sew = 32 ∧ s.vc.lmul = 1 ∧ (∃ x y, SourcesReady s (.reg 1) (.reg 2) .none (cstI 32) x y)
    ∧ dstMeets ⟨4, false⟩ 2 (.reg 1) 1 = false ∧ dstMeets ⟨4, false⟩ 2 (.reg 2) 1 = false ∧ s.heldRegs 4 2 = .ok () :=
  ⟨by decide +kernel, by decide +kernel, by decide +kernel, sourcesReady _ _ _ _ _ (by decide +kernel), by decide +kernel, by decide +kernel,
    by decide +kernel⟩

/-- SETVL with the type of the greatest groups of bytes in s1. -/
theorem witness_SetLengthResults : let s := onHart base fun h => { h with s := vset h.s 1 ((0xC : BitVec 6).setWidth 64) }
    s.vc.nwOk ⟨2, true⟩ = true ∧ s.opnd (.reg 2) = .ok (BitVec.ofInt 64 (-2)) ∧ s.opnd (.reg 1) = .ok ((0xC : BitVec 6).setWidth 64) := by decide +kernel
theorem witness_MaskLogicAndExecutionMaskResults : let s := typed 1 4
    s.sewOk s.vc = true ∧ s.vc.nwOk ⟨0, true⟩ = true ∧ s.vc.msrcOk (.reg 1) = true ∧ (∃ x, s.msrc (.reg 1) = .ok x) ∧ s.vc.mdstOk ⟨3, false⟩ = true
    ∧ s.vc.msrcOk (.reg 2) = true ∧ (∃ y, s.msrc (.reg 2) = .ok y) ∧ s.vc.selOk .m4 = true ∧ s.opnd (.reg 1) = .ok 7 ∧ s.opndM (.reg 1) = .ok 0 :=
  ⟨by decide +kernel, by decide +kernel, by decide +kernel, ok_of_isOk (by decide +kernel), by decide +kernel, by decide +kernel, ok_of_isOk (by decide +kernel), by decide +kernel, by decide +kernel, by decide +kernel⟩

end Sys2Proof.Tests
end

