-- ==== Sys2Proof/Tests/WitnessEvents.lean ====
section
/-! SUPPORT. Witnesses for the statements about the events of agents, ports, memory, copies, gathers, streams and packets: a concrete state and operands that meet the hypotheses of each clause. -/

set_option Elab.async false -- one evaluation at a time: each holds a thread

namespace Sys2Proof.Tests
open Sys2Proof.Machine Sys2Proof.Claims

/-! ## Agents -/

/-- The group stands before a clause at 0x1000 whose header is w. -/
def before0 (w : Nat) : State := onPath (poke8 base 0x40001000 w) fun p => { p with clause := none, issuing := false }
def focus0 : Focus := ⟨.group, 1, 0, false, 0, 0⟩
def clause1 (cls : BitVec 3) : Clause := { hdr := 0x1000, cls := cls, count := 1, words := [0], idx := 1, yield := false }
theorem witness_AgentEventResults_clause : (∀ w ∈ [1, 0x101, 0], let s := before0 w
      (s.hartOf (.group 1 0)).ready false = true ∧ (s.hartOf (.group 1 0)).p0.clause = none
      ∧ ∀ q ∈ s.quadPaths (s.teamOf 1).core (s.hartOf (.group 1 0)).quad, (s.pathAt q).issuing = false)
    ∧ fetchClause (State.fetchWord { before0 1 with cur := focus0 }) false 0x1000 = .ok (clause1 0, 1)
    ∧ (let s := onHart (before0 0x101) fun h => { h with ledger := vset h.ledger 0 [(0, false)] }
       fetchClause (State.fetchWord { s with cur := focus0 }) false 0x1000 = .ok (clause1 0, 0x101) ∧ ((0x101 : Word32).extractLsb' 8 8).getLsbD 0 = true
       ∧ ((0x101 : Word32).extractLsb' 16 4).toNat < (s.hartOf (.group 1 0)).counter 0)
    ∧ State.fetchWord { before0 0 with cur := focus0 } 0x1000 = .ok 0 := by
  refine ⟨?_, ?_, ?_, ?_⟩ <;> decide +kernel
theorem witness_AgentEventResults_stream_and_bank : (let s := onTeam (poke8 base 0x40001000 0x31) fun t => { t with seq := { t.seq with st := .running, spc := 0x1000 } }
      (s.teamOf 1).seq.st = .running ∧ (s.teamOf 1).seq.fault = none ∧ (s.teamOf 1).seq.stopAsked = false ∧ (s.teamOf 1).seq.clause = none
      ∧ fetchClause (s.fetchStream 1) true (s.teamOf 1).seq.spc = .ok (clause1 3, 0x31))
    ∧ (let s := onPath { poke8 onBank 0x28180000100 1 with dirty := [] } fun p => { p with clause := none, issuing := false, pc := 0x100 }
       (s.bankOf 3).running = true ∧ (s.hartOf (.bank 3)).p0.active = true ∧ (s.hartOf (.bank 3)).p0.clause = none
       ∧ fetchClause (State.fetchWord { s with cur := ⟨.bank, 0, 0, false, 3, 0⟩ }) false 0x100 = .ok ({ clause1 0 with hdr := 0x100 }, 1)
       ∧ (0 : BitVec 3) ∈ ([0, 1, 2, 7] : List (BitVec 3))) := by decide +kernel
/-- A pending MACHINE_CHECK at a boundary. -/
def pending0 : State := onHart (before0 1) fun h => { h with causes := [⟨.machineCheck, 5, none⟩] }
theorem witness_AgentEventResults_boundary : let s := pending0
    let h := s.hartOf (.group 1 0)
    h.live = true ∧ h.evicted = false ∧ h.p0.issuing = false ∧ h.p1.issuing = false ∧ h.region = none ∧ h.sys = false
    ∧ h.causes = ⟨.machineCheck, 5, none⟩ :: [] ∧ h.p0.active = true ∧ h.stopOther ≠ some false ∧ h.p0.clause = none
    ∧ isOk ((s.setHartOf (.group 1 0) { h with causes := [] }).saveTrap (.group 1 0) false h.p0.wordAddr 0 5 0) = true
    ∧ ((okGet s ((s.setHartOf (.group 1 0) { h with causes := [] }).saveTrap (.group 1 0) false h.p0.wordAddr 0 5 0)).ctx h.asid.toNat).handler ≠ 0 := by
  refine ⟨?_, ?_, ?_, ?_, ?_, ?_, ?_, ?_, ?_, ?_, ?_, ?_⟩ <;> decide +kernel
/-- The path suspended in a wait. -/
def waiting (y : Wait) (s : State) : State := onPath s fun p => { p with susp := some y }
theorem witness_AgentEventResults_wakes : ∀ y ∈ [Wait.token 3, .barrier 15 9 false false, .sync 16 0, .message 3, .item, .counter 7 0, .tile 1 true false 0x100,
      .header 1 0, .debug, .ringRoom 1 0 0 0, .drain, .wave 16 0 0 7, .blocks 8],
    let h := (waiting y base).hartOf (.group 1 0)
    h.live = true ∧ h.evicted = false ∧ h.causes = [] ∧ (h.path false).susp = some y := by
  intro y h
  simp only [List.mem_cons, List.not_mem_nil, or_false] at h
  rcases h with rfl | rfl | rfl | rfl | rfl | rfl | rfl | rfl | rfl | rfl | rfl | rfl | rfl <;> decide +kernel
/-- A fault ring of 64 KiB at 0x30000, and none. -/
def ringed : State := poke8 (poke8 base 80 0x30000) 0x40030000 65536
theorem witness_AgentEventResults_ring : isOk (ε := Unit) (match ringed.ringPush 1 (ringed.ctx 1).fring.toNat (faultRecord 0 0 0 0 0 0 1) with | some v => .ok v | none => .error ()) = true
    ∧ (base.ringPush 1 (base.ctx 1).fring.toNat (faultRecord 0 0 0 0 0 0 1)).isNone = true := by decide +kernel
theorem witness_AgentEventResults_parked : (waiting (.parked 9) base).parkedAt 1 9 = some (1, 0, false)
    ∧ (base.hartOf (.group 1 0)).live = true ∧ (base.hartOf (.group 1 0)).causes.length < 8 := by decide +kernel

/-! ## Ports, near memory and errors -/

/-- A put of 256 sevens by group 0 of the focus's team into tile 1, in flight, with the tag, the held puts and the ring at hand. -/
def putAt (off : Nat) (refused : Bool) (tag : Tag) (held : List Held) (absent : Bool) : State :=
  let s := onTeam (onHart ringed fun h => { h with ledger := vset h.ledger kSt [(4, false)] }) fun t => { t with tags := mset 1 tag t.tags, absent := absent }
  let s := s.setCoreOf 0 { s.coreOf 0 with hold := held, ports := [{ port0 with ring := 0x30000, absent := absent }] }
  { s with net := [⟨.group 1 0, 0, .put off 1 0 (List.replicate 256 7) [] (some 4) none, refused⟩] }
def heldPut : Held := ⟨1, 1, .group 1 0, List.replicate 256 7, [], none, none, 0⟩
theorem witness_PortAndMemoryEventResults_refused_and_ring : (putAt 0x20000 false .empty [] false).portEntry 0 0x20000 1 = none
    ∧ (putAt 0x100 false .empty [] true).portEntry 0 0x100 1 = some { port0 with ring := 0x30000, absent := true }
    ∧ (let z : Bounced := { pos := 0, off := 0x100, src := .group 1 0, remote := none, op := .put (List.replicate 256 7) [] }
       ((putAt 0x100 false .empty [] true).bounceTo { port0 with ring := 0x30000, absent := true } z 0 1 0 [] (List.replicate 256 7)).2 = true
       ∧ ((putAt 0x100 false .empty [] true).bounceTo { port0 with absent := true } z 0 1 0 [] (List.replicate 256 7)).2 = false) := by
  refine ⟨?_, ?_, ?_, ?_⟩ <;> decide +kernel
theorem witness_PortAndMemoryEventResults_put : let s := putAt 0x100 true .empty [] false
    let e := { port0 with ring := 0x30000 }
    s.net.length = 1 ∧ s.portEntry 0 0x100 1 = some e ∧ e.absent = false ∧ s.inFold 0 e.team 0x100 256 = false ∧ (s.teamOf e.team).core = 0
    ∧ (s.teamOf e.team).tag 1 = .empty ∧ s.tileWaiters e.team 1 = [] ∧ (s.teamOf e.team).syncs = [] ∧ (s.teamOf e.team).mem.wf = true
    ∧ vget (s.hartOf (.group 1 0)).ledger kSt [] = (4, false) :: []
    ∧ ((putAt 0x100 false .full [heldPut] false).teamOf 1).tag 1 = .full ∧ ((putAt 0x100 false .full [heldPut] false).coreOf 0).hold.length < 16
    ∧ 16 ≤ ((putAt 0x100 false .full (List.replicate 16 heldPut) false).coreOf 0).hold.length
    ∧ ((putAt 0x100 false .poison [] false).teamOf 1).tag 1 = .poison := by
  refine ⟨?_, ?_, ?_, ?_, ?_, ?_, ?_, ?_, ?_, ?_, ?_, ?_, ?_, ?_⟩ <;> decide +kernel
theorem witness_PortAndMemoryEventResults_put_length : (List.replicate 256 (7 : Byte)).length = 256 := List.length_replicate

/-- A team that is back, with one put of five flits in its ring. -/
def bounced0 : Bounced := { pos := 0, off := 0x100, src := .group 1 0, remote := none, op := .put (List.replicate 256 7) [] }
def backAt (tag : Tag) (held : List Held) : State :=
  let s := onTeam (poke8 ringed 0x40030008 320) fun t => { t with tags := mset 1 tag t.tags, bounced := [bounced0] }
  s.setCoreOf 0 { s.coreOf 0 with hold := held, ports := [{ port0 with ring := 0x30000, absent := true }] }
theorem witness_PortAndMemoryEventResults_replay : (∀ s ∈ [backAt .full (List.replicate 16 heldPut), backAt .empty []],
      (s.teamOf 1).live = true ∧ (s.teamOf 1).absent = false ∧ (s.teamOf 1).bounced.length = 1
      ∧ s.entryOf 1 = some { port0 with ring := 0x30000, absent := true } ∧ s.inFold 0 1 0x100 256 = false ∧ s.ringBlock 1 0x30000 = some (65536, 320, 0)
      ∧ s.flitsReadable { port0 with ring := 0x30000, absent := true } 65536 bounced0.pos 320 = true)
    ∧ ((backAt .full (List.replicate 16 heldPut)).teamOf 1).tag 1 = .full ∧ 16 ≤ ((backAt .full (List.replicate 16 heldPut)).coreOf 0).hold.length
    ∧ (let s := backAt .empty []
       ((s.setTeamOf 1 { s.teamOf 1 with bounced := [] }).replayOne 1 bounced0).isSome = true
       ∧ isOk ((((s.setTeamOf 1 { s.teamOf 1 with bounced := [] }).replayOne 1 bounced0).getD s).vwrite 1 true (0x30000 + 16) (leBytes 8 320)) = true
       ∧ (s.teamOf 1).tag 1 = .empty ∧ s.tileWaiters 1 1 = [] ∧ (s.teamOf 1).syncs = [] ∧ (s.teamOf 1).mem.wf = true) := by
  refine ⟨fun s h => ?_, ?_, ?_, ?_, ?_, ?_, ?_, ?_, ?_⟩
  · rcases List.mem_pair.mp h with rfl | rfl <;> refine ⟨?_, ?_, ?_, ?_, ?_, ?_, ?_⟩ <;> decide +kernel
  all_goals decide +kernel
/-- A command that adds 5 to a word at the home, one that has no element left, and a marked granule. -/
def nears (els : List (Tgt × AtomArg)) (poisoned : List Nat) : State :=
  { onHart base fun h => { h with near := [⟨4, els⟩], ledger := vset h.ledger kNear [(4, false)] } with poisoned := poisoned }
theorem witness_PortAndMemoryEventResults_near : (let s := nears [(.home 0x48, ⟨.add, .int (8 * 2 ^ 2) true, 5, none⟩)] []
      s.hart.near = ⟨4, (.home 0x48, ⟨.add, .int (8 * 2 ^ 2) true, 5, none⟩) :: []⟩ :: [] ∧ s.hart.sq = [] ∧ s.oracle = [] ∧ s.posted = [] ∧ s.poisonedAt 0x48 4 = false ∧ s.mem.wf = true)
    ∧ (nears [] [1]).poisonedAt 0x48 4 = true
    ∧ ((nears [] []).hartOf (.group 1 0)).near = ⟨4, []⟩ :: [] ∧ ((nears [] []).hartOf (.group 1 0)).awaitsRemote 4 = false
    ∧ vget ((nears [] []).hartOf (.group 1 0)).ledger kNear [] = (4, false) :: [] := by decide +kernel
theorem witness_PortAndMemoryEventResults_errors : (let s := { base with net := [⟨.group 1 0, 0, .refusal .accessViolation 9, false⟩] }
      (s.net.map fun m => m.body) = [.refusal .accessViolation 9] ∧ (s.hartOf (.group 1 0)).live = true ∧ (s.hartOf (.group 1 0)).causes.length < 8)
    ∧ base.correctedEntry 9 = none
    ∧ (let s := { base with oracle := [1], service := { base.service with log := [(1, 0, 9, 0, 0, 1)] } }; s.correctedEntry 9 = some 0 ∧ s.oracle = 1 :: []) := by
  decide +kernel

/-! ## Copies and gathers -/

/-- One store of the group in its queue. -/
def queued0 (op : SQOp) : State :=
  onHart base fun h => { h with sq := [⟨0, op, false, .grp, true, false, false⟩], ledger := vset h.ledger kSt [(0, false), (1, false)], nextOp := 2 }
/-- A copy of two rows of 64 bytes from 0x40 on to offset 0x80 on. -/
def copyDesc (sync rise : Nat) : BitVec 256 := BitVec.ofNat 256 (0x40 + 0x00D0000000000080 * 2 ^ 64 + rise * 2 ^ 176 + sync * 2 ^ 192)
def copyTmpl : BitVec 512 := BitVec.ofNat 512 (64 * 2 ^ 16 + 2 * 2 ^ 32 + 2 ^ 48 + 2 ^ 64 + 2 ^ 80 + 64 * 2 ^ 96 + 64 * 2 ^ 320)
def copy0 (desc : BitVec 256) (tmpl : BitVec 512) (st : CopyState) (next : Nat) : Copy := ⟨1, 4, 0, 0, 0, desc, tmpl, 0x00F00000000000F8, false, st, next⟩
def copying (x : Copy) : State :=
  let s := onHart base fun h => { h with ledger := vset h.ledger kCopy [(4, false)] }
  s.setCoreOf 0 { s.coreOf 0 with chans := [(31, [x])] }
/-- The hypotheses about the leading copy of channel 31. -/
def leadsOk (s : State) (x : Copy) : Bool :=
  decide (s.leading 1 31 = [(0, x)]) && decide (mget [] 31 (s.coreOf 0).chans = x :: []) && decide (x.team = 1)
def plainOk (s : State) : Bool := !s.away 1 && (s.teamOf 1).syncs.isEmpty && (s.teamOf 1).mem.wf && s.mem.wf && s.posted.isEmpty && s.reads.isEmpty
theorem witness_CopyAndGatherEventResults_starts : HeadStore (queued0 (.copyStart 31 0x2000)) 1 0 ⟨0, .copyStart 31 0x2000, false, .grp, true, false, false⟩ []
    ∧ HeadStore (queued0 (.template 8 7)) 1 0 ⟨0, .template 8 7, false, .grp, true, false, false⟩ []
    ∧ (mget [] 31 ((queued0 (.copyStart 31 0x2000)).coreOf 0).chans).length < 64 ∧ ((queued0 (.template 8 7)).teamOf 1).tmpl.wf = true
    ∧ (let s := queued0 (.copyStart 31 0x2000)
       let s := s.setCoreOf 0 { s.coreOf 0 with chans := [(31, List.replicate 64 (copy0 0 0 .queued 0))] }
       64 ≤ (mget [] 31 (s.coreOf (s.teamOf 1).core).chans).length) := by
  refine ⟨⟨?_, ?_, ?_, ?_, ?_, ?_, [(1, false)], ?_, ?_⟩, ⟨?_, ?_, ?_, ?_, ?_, ?_, [(1, false)], ?_, ?_⟩, ?_, ?_, ?_⟩ <;> decide +kernel
theorem witness_CopyAndGatherEventResults_begin : (∀ x ∈ [copy0 0 0 .queued 0, copy0 (copyDesc 0x30 0) copyTmpl .queued 0, copy0 (copyDesc 0x30 1) copyTmpl .queued 0,
      copy0 (copyDesc 0x34 1) copyTmpl .queued 0, copy0 (copyDesc 0 0 ||| 1 <<< 175) copyTmpl .queued 0], leadsOk (copying x) x = true ∧ x.st = .queued)
    ∧ copyOk (copy0 0 0 .queued 0).d (copy0 0 0 .queued 0).t = false
    ∧ (let x := copy0 (copyDesc 0x30 1) copyTmpl .queued 0; copyOk x.d x.t = true ∧ x.desc.getLsbD 176 = true ∧ x.desc.getLsbD 175 = false
       ∧ ((copying x).teamOf 1).mem.wf = true ∧ (x.desc.extractLsb' 192 32).toNat + 16 ≤ ((copying x).teamOf 1).spadBytes)
    ∧ (let x := copy0 (copyDesc 0x34 1) copyTmpl .queued 0; copyOk x.d x.t = true ∧ x.desc.getLsbD 176 = true ∧ (x.desc.extractLsb' 192 32).toNat % 16 ≠ 0)
    ∧ (let x := copy0 (copyDesc 0 0 ||| 1 <<< 175) copyTmpl .queued 0
       copyOk x.d x.t = true ∧ x.desc.getLsbD 175 = true ∧ ((copying x).teamOf 1 |>.bar 0).cfg.extractLsb' 8 8 = 0) := by
  refine ⟨fun x h => ?_, ?_, ?_, ?_, ?_⟩
  · simp only [List.mem_cons, List.not_mem_nil, or_false] at h
    rcases h with rfl | rfl | rfl | rfl | rfl <;> decide +kernel
  all_goals decide +kernel
/-- The second row of the plain copy, and a row of a window copy that lies outside its input. -/
theorem witness_CopyAndGatherEventResults_row : let x := copy0 (copyDesc 0 0) copyTmpl .running 1
    let s := copying x
    leadsOk s x = true ∧ x.st = .running ∧ copyOk x.d x.t = true ∧ plainOk s = true ∧ x.next < 2 ∧ x.desc.getLsbD 176 = false ∧ (s.teamOf 1).settled 32 = true
    ∧ s.engRow ⟨1, 32, some 0, false⟩ .write 15 0x00D00000000000C0 64 = .ok [(⟨.spad 1 0xC0, false⟩, 64)] ∧ s.inFold 0 1 0xC0 64 = false
    ∧ (x.tmpl.extractLsb' 0 8).toNat = 0 ∧ (x.tmpl.extractLsb' 256 8).toNat = 0
    ∧ s.engRow ⟨1, 32, some 0, false⟩ .read 15 0x80 64 = .ok [(⟨.home 1681481093248, false⟩, 64)] ∧ s.poisonedAt 1681481093248 64 = false := by
  refine ⟨?_, ?_, ?_, ?_, ?_, ?_, ?_, ?_, ?_, ?_, ?_, ?_, ?_⟩ <;> decide +kernel
/-- The template with mode WINDOW, a 1 × 1 input and no output position. -/
def windowTmpl : BitVec 512 := copyTmpl ||| BitVec.ofNat 512 (1 + 2 ^ 160 + 2 ^ 192 + 2 ^ 200 + 2 ^ 224 + 2 ^ 240)
theorem witness_CopyAndGatherEventResults_window : let x := copy0 (copyDesc 0 0) windowTmpl .running 1
    let s := copying x
    leadsOk s x = true ∧ copyOk x.d x.t = true ∧ plainOk s = true ∧ (x.tmpl.extractLsb' 0 8).toNat = 1 ∧ (x.tmpl.extractLsb' 176 16).toNat = 0 := by
  refine ⟨?_, ?_, ?_, ?_, ?_⟩ <;> decide +kernel
theorem witness_CopyAndGatherEventResults_ends : (let x := copy0 (copyDesc 0 0) copyTmpl .running 2
      leadsOk (copying x) x = true ∧ (copying x).engineQuiet 1 (1 + 31) = true ∧ vget ((copying x).hartOf (.group 1 0)).ledger kCopy [] = (4, false) :: [] ∧ ((copying x).teamOf 1).owed = []
      ∧ (onTeam (copying x) fun t => { t with raises := [⟨0, 1, 1 + 31, []⟩] }).engineQuiet 1 (1 + 31) = false)
    ∧ (let x := copy0 (copyDesc 0 0) copyTmpl (.failed .accessViolation 9 1) 1
       leadsOk (copying x) x = true ∧ x.st = .failed .accessViolation 9 1 ∧ (copying x).engineQuiet 1 (1 + 31) = true
       ∧ ((copying x).hartOf (.group 1 0)).live = true ∧ ((copying x).hartOf (.group 1 0)).causes.length < 8)
    ∧ (let s := onTeam base fun t => { t with raises := [⟨16, 3, 32, []⟩] }
       (s.teamOf 1).raises = ⟨16, 3, 32, []⟩ :: [] ∧ s.away 1 = false ∧ (s.teamOf 1).mem.wf = true ∧ s.inFold 0 1 16 16 = false) := by
  refine ⟨⟨?_, ?_, ?_, ?_, ?_⟩, ⟨?_, ?_, ?_, ?_, ?_⟩, ⟨?_, ?_, ?_, ?_⟩⟩ <;> decide +kernel
/-- A gather with one row of 16 bytes left, a scatter, one with no row left, and one whose row lies in an EMPTY result row. -/
def gathering (scat : Bool) (rows : List (Nat × Word64 × Nat)) : State :=
  onTeam base fun t => { t with gathers := [{ job := 0, id := 4, gid := 0, sys := false, scat := scat, size := 16, rows := rows, last := 0 }] }
theorem witness_CopyAndGatherEventResults_gather : (let s := gathering false [(0, 0x40, 0x80)]
      (s.teamOf 1).gathers.map (·.rows) = [[(0, 0x40, 0x80)]] ∧ plainOk s = true ∧ (s.teamOf 1).settled 33 = true
      ∧ s.engRow ⟨1, 64, some 0, false⟩ .read 15 0x40 16 = .ok [(⟨.home 1681481093184, false⟩, 16)]
      ∧ s.engRow ⟨1, 64, some 0, false⟩ .write 15 (BitVec.ofNat 64 (0xD * 2 ^ 52 + 0x80)) 16 = .ok [(⟨.spad 1 0x80, false⟩, 16)]
      ∧ s.poisonedAt 1681481093184 16 = false ∧ s.inFold 0 1 0x80 16 = false)
    ∧ (let s := gathering true [(0, 0x40, 0x80)]
       s.engRow ⟨1, 64, some 0, false⟩ .read 15 (BitVec.ofNat 64 (0xD * 2 ^ 52 + 0x80)) 16 = .ok [(⟨.spad 1 0x80, false⟩, 16)]
       ∧ s.engRow ⟨1, 64, some 0, false⟩ .write 15 0x40 16 = .ok [(⟨.home 1681481093184, false⟩, 16)]
       ∧ (s.teamOf 1).absent = false ∧ (s.teamOf 1).markedAt 0x80 16 = false)
    ∧ (let s := gathering false []
       (s.teamOf 1).settled (33 + 2 * 0) = true
       ∧ (onTeam s fun t => { t with sent := [(1, 0, 33)] }).team.settled (33 + 2 * 0) = false) := by
  refine ⟨⟨?_, ?_, ?_, ?_, ?_, ?_, ?_⟩, ⟨?_, ?_, ?_, ?_⟩, ⟨?_, ?_⟩⟩ <;> decide +kernel
/-- The bank's page carries the full/empty attribute and no job covers its rows. -/
theorem witness_CopyAndGatherEventResults_row_not_full : let s := poke8 (gathering false [(0, 0x40000000, 0x80)]) 0x20008 (2 ^ 63 + 2 ^ 62 + 0x28180000000 + 0x7C)
    (match s.readRow ⟨1, 64, some 0, false⟩ 15 0x40000000 16 with | .fail c va => c == .rowNotFull && va == 0x40000000 | _ => false) = true
    ∧ (s.hartOf (.group 1 0)).live = true ∧ (s.hartOf (.group 1 0)).causes.length < 8 := by
  refine ⟨?_, ?_, ?_⟩ <;> decide +kernel

/-! ## The matrix stream -/

/-- The team's stream in some state, with group 0 alive or no group. -/
def seqAt (alive : Bool) (f : Seq → Seq) : State :=
  let s := onTeam base fun t => { t with seq := f { t.seq with st := .running } }
  if alive then s else { s with harts := [] }
theorem witness_StreamEventResults_fault : (∀ b ∈ [true, false], let s := seqAt b fun q => { q with fault := some (.illegalOp, 9) }
      (s.teamOf 1).seq.fault = some (.illegalOp, 9) ∧ (s.teamOf 1).seq.st = .running ∧ (s.teamOf 1).seq.rows = [] ∧ (s.teamOf 1).seq.batches = []
      ∧ (s.teamOf 1).seq.arrivals = [] ∧ (∀ p ∈ (s.teamOf 1).sent, p.2.2 ≠ 0) ∧ s.liveGids 1 = (if b then [0] else []) ∧ (s.teamOf 1).live = true)
    ∧ (let s := seqAt true fun q => { q with fault := some (.illegalOp, 9), batches := [⟨0, 0, 0, []⟩] }; ¬ (s.teamOf 1).seq.batches = [])
    ∧ (base.hartOf (.group 1 0)).live = true ∧ (base.hartOf (.group 1 0)).causes.length < 8 := by decide +kernel
theorem witness_StreamEventResults_stop_and_evict : (let s := seqAt false id
      (s.teamOf 1).live = true ∧ (s.teamOf 1).seq.st = .running ∧ (s.teamOf 1).seq.fault = none ∧ s.liveGids 1 = [] ∧ (s.teamOf 1).seq.rows = [])
    ∧ (let s := seqAt true fun q => { q with evictAsked := true }
       (s.teamOf 1).seq.evictAsked = true ∧ (s.teamOf 1).seq.stopAsked = false ∧ s.streamHeld 1 = false)
    ∧ (let s := { seqAt true fun q => { q with evictAsked := true, stopAsked := true } with harts := [(.group 1 0, { hart0 with evicted := true })] }
       (s.teamOf 1).seq.stopAsked = true ∧ (s.teamOf 1).absent = false ∧ s.allEvicted 1 = true ∧ ∀ h ∈ (s.coreOf (s.teamOf 1).core).hold, h.team ≠ 1) := by
  decide +kernel
/-- A fetch of segment 2 of adapter 5, with a directory or none, and the entry that the directory in memory gives. -/
def fetching (adir : Word64) (dirs : List AdpDir) (room : Bool := true) : State :=
  let s := seqAt true fun q => { q with adir := adir, rows := [{ tile := 1, row := 0, op := .mma false [] [] 5 0 16, sfmt := 0, addr := 0x1004, batch := none, queued := true }] }
  s.setCoreOf 0 { s.coreOf 0 with fetches := [⟨1, 5, true, 2, room⟩], dirs := dirs }
theorem witness_StreamEventResults_adapter : (let s := fetching 0 []
      (s.coreOf 0).fetches = [⟨1, 5, true, 2, true⟩] ∧ s.oracle = [] ∧ (s.coreOf 0).dir 1 5 = none ∧ (s.teamOf 1).seq.adir = 0 ∧ (s.teamOf 1).seq.fault = none
      ∧ ∀ r ∈ (s.teamOf 1).seq.rows, r.queued = true ∧ r.needs.1 = 5)
    ∧ (let s := poke8 (fetching 0x1000 []) (0x40001000 + 32 * 5 + 16) (8 * 2 ^ 32 + 2 ^ 40)
       (s.coreOf 0).dir 1 5 = none ∧ (s.teamOf 1).seq.adir ≠ 0
       ∧ (match s.adapterRead ⟨1, 5, true, 2, true⟩ (0x1000 + BitVec.ofNat 64 (32 * 5)) 32 with
          | .data bs bad => !bad && leNat ((bs.drop 20).take 1) == 8 && leNat ((bs.drop 21).take 1) == 1 
              && leNat (bs.take 8) % 64 == 0 && leNat ((bs.drop 8).take 8) % 64 == 0
          | _ => false) = true)
    ∧ (let s := fetching 0x1000 [⟨1, 5, 0x2000, 0x3000, 0, 8⟩]
       (s.coreOf 0).dir 1 5 = some ⟨1, 5, 0x2000, 0x3000, 0, 8⟩ ∧ ((fetching 0 [] false).coreOf 0).segs.length < 128
       ∧ (match s.adapterRead ⟨1, 5, true, 2, true⟩ (0x3000 + BitVec.ofNat 64 (1024 * 2)) 1024 with | .data _ bad => !bad | _ => false) = true) := by
  refine ⟨⟨?_, ?_, ?_, ?_, ?_, ?_⟩, ⟨?_, ?_, ?_⟩, ⟨?_, ?_, ?_⟩⟩ <;> decide +kernel
/-- The oldest row waits for adapter 5: with nothing in the cache, and with its directory and segment there. -/
def replays (dirs : List AdpDir) (segs : List AdpSeg) : State :=
  let s := seqAt true fun q => { q with rows := [{ tile := 1, row := 15, op := .mma false [(0, .fin false 1 0 false)] [(2, [.fin false 1 0 false])] 5 0 16, sfmt := 0, addr := 0, batch := none, queued := true }] }
  s.setCoreOf 0 { s.coreOf 0 with dirs := dirs, segs := segs }
theorem witness_StreamEventResults_replay : (∀ s ∈ [replays [] [], replays [⟨1, 5, 0x2000, 0x3000, 0, 8⟩] [⟨1, 5, false, 0, List.replicate 1024 0⟩]],
      (s.teamOf 1).seq.rows.length = 1 ∧ (∀ r ∈ (s.teamOf 1).seq.rows, r.queued = true ∧ r.row < 16 ∧ (r.sfmt.extractLsb' 10 3).toNat ≤ 3 ∧ (modesOf r.sfmt).rm ≠ 5
        ∧ ((s.coreOf 0).holds 1 r = !(s.coreOf 0).segs.isEmpty)) ∧ s.oracle = [])
    ∧ 1 ≤ 5 ∧ 5 < 4096 ∧ 16 % 16 = 0 := by
  refine ⟨fun s h => ?_, by decide⟩
  rcases List.mem_pair.mp h with rfl | rfl <;> refine ⟨?_, ?_, ?_⟩ <;> decide +kernel

/-! ## The fabric -/

/-- A packet from device 1 to this device. -/
def pkt (kind : BitVec 8) (addr : BitVec 42) (control : BitVec 16) (data : List Byte) : FabPkt :=
  { kind := kind, src := 1, dst := 0, asid := 1, core := 0, gid := 0, path := 2, route := 7, len := 2, hop := 0, enc := false, rg := false, ofl := false, psn := 0, addr := addr,
    seq := 9, control := control, region := 0, bmask := BitVec.allOnes 256, data := data }
/-- A home address, an address in the scratchpad view, and one that lies nowhere. -/
theorem witness_FabricPacketResults_targets : (∀ n ∈ [1, 2, 3], Comes base (pkt (BitVec.ofNat 8 n) 0x48 0 []) n) ∧ (pkt 1 0x48 0 []).enc = false
    ∧ (homeKey (pkt 1 0x48 0 []).addr.toNat).isSome = true ∧ (pkt 2 0x24000000100 0 []).addr.toNat = spadView + 0 * 2 ^ 20 + 0x100
    ∧ base.winPlace 0 0x100 1 = .here 1 0x100 ∧ (base.coreOf 0).fold = none ∧ (base.teamOf 1).syncs = [] ∧ (base.teamOf 1).mem.wf = true
    ∧ homeKey (pkt 2 0x3FFFFFFFFFF 0 []).addr.toNat ≠ none ∧ homeKey (pkt 2 0x27FFFFFFFFF 0 []).addr.toNat = none
    ∧ ¬ (pkt 2 0x27FFFFFFFFF 0 []).addr.toNat < spadView + 288 * 2 ^ 20 ∧ (pkt 2 0 0 []).psn = 0 ∧ base.mem.wf = true := by
  refine ⟨fun n h => ?_, ?_, ?_, ?_, ?_, ?_, ?_, ?_, ?_, ?_, ?_, ?_, ?_⟩
  · simp only [List.mem_cons, List.not_mem_nil, or_false] at h
    unfold Comes
    rcases h with rfl | rfl | rfl <;> decide +kernel
  all_goals decide +kernel
theorem witness_FabricPacketResults_put : base.net = [] ∧ (base.teamOf 1).core = 0 ∧ base.portEntry 0 0x100 1 = some port0 ∧ port0.team = 1 ∧ 0x100 = 0x100 - port0.wbase * 4096
    ∧ ((onTeam base fun t => { t with tags := [(1, .empty)] }).teamOf 1).tag (0x100 / 256) = .empty ∧ base.tileWaiters 1 (0x100 / 256) = []
    ∧ (let s := putAt 0x100 false .full (List.replicate 16 heldPut) false; (s.teamOf 1).tag (0x100 / 256) = .full ∧ 16 ≤ (s.coreOf 0).hold.length) := by
  decide +kernel
/-- An exchange of 32 bits with return, a combined minimum of two operands, and poisoned data. -/
theorem witness_FabricPacketResults_atomic : Comes base (pkt 4 0x48 (BitVec.ofNat 16 (opCode .swap * 4096 + 2 * 1024 + 1)) (leBytes 4 7)) 4
    ∧ Comes base (pkt 5 0x48 (BitVec.ofNat 16 (opCode .min * 4096 + 2 * 1024 + 512)) ([7, 9].flatMap (leBytes 4))) 5
    ∧ (BitVec.ofNat 16 (opCode .swap * 4096 + 2 * 1024 + 1)).toNat / 4096 = opCode .swap ∧ (BitVec.ofNat 16 (opCode .min * 4096 + 2 * 1024 + 512)).toNat / 512 % 2 = 1
    ∧ (BitVec.ofNat 16 (opCode .min * 4096 + 2 * 1024 + 512)).toNat / 1024 % 4 = 2 ∧ (∀ y ∈ [7, 9], y < 2 ^ 32) ∧ AtomOp.min ≠ .add
    ∧ (let key := (homeKey 0x48).getD 0; base.poisonedAt key 4 = false ∧ State.poisonedAt { base with poisoned := [key / 64] } key 4 = true) := by
  unfold Comes; decide +kernel
/-- A packet for device 5 that passes through, and a read that waits behind a staged line of its group. -/
def behindStage : State := { base with fabric := { base.fabric with staging := [⟨1, 0, 0, 0, 0, pkt 0x20 0x100 0 []⟩] } }
theorem witness_FabricPacketResults_transit_and_waits : (let p := { pkt 2 0x48 0 [] with dst := 5 }
      p.dst ≠ base.fabric.device ∧ p.hop.toNat < p.len.toNat ∧ p.route.toNat / 2 ^ (5 * p.hop.toNat) % 32 < 18)
    ∧ (∀ n ∈ [1, 2, 3, 4, 5], let p := pkt (BitVec.ofNat 8 n) 0x48 0 []
        behindStage.mustWait p behindStage.fabric.parked = true ∧ base.mustWait p base.fabric.parked = false ∧ behindStage.fabric.parked = [])
    ∧ readsRow (pkt 1 0x48 0 []) = false := by decide +kernel
/-- A read that takes part in a result row finds the row EMPTY with no job over it. -/
theorem witness_FabricPacketResults_row : let p := pkt 1 0x48 0 (leBytes 8 2)
    readsRow p = true ∧ base.mustWait p [] = false ∧ (match base.rowCheck ((homeKey 0x48).getD 0) 256 0 with | .error _ => true | .ok _ => false) = true := by decide +kernel
def once (p : FabPkt) : State := { base with fabric := { base.fabric with applied := [(p.src.toNat, p.seq)] } }
theorem witness_FabricPacketResults_again : (∀ k ∈ [0x02, 0x03, 0x20, 0x21, 0x22, 0x30, 0x31], let p := pkt (BitVec.ofNat 8 k) 0 0 []
      p.dst = (once p).fabric.device ∧ (p.src.toNat, p.seq) ∈ (once p).fabric.applied ∧ p.kind.toNat = k)
    ∧ (pkt 0x7F 0 0 []).kind.toNat ∉ [0x01, 0x02, 0x03, 0x04, 0x05, 0x10, 0x11, 0x12, 0x20, 0x21, 0x22, 0x30, 0x31] := by decide +kernel
/-- A request of the focus's group to device 1 that is not yet answered, and the answer: the number is in the address field. -/
def request (kind : BitVec 8) (control : BitVec 16) : FabPkt := { pkt kind 0x100 control [] with src := 0, dst := 1, seq := 5 }
def asking (q : FabPkt) (asked : Nat × Nat) (remote : List RemoteOp) : State :=
  { onHart base fun h => { h with asked := [asked], remote := remote, ledger := vset h.ledger kFab [(4, false)] } with
    fabric := { base.fabric with unacked := [q], asks := [(1, 5, .group 1 0)] } }
theorem witness_FabricPacketResults_replies : (let s := asking (request 1 0) (1, 0x100) []
      let p := pkt 0x10 5 0 (List.replicate 256 7)
      p.dst = s.fabric.device ∧ s.answered p = some (request 1 0) ∧ s.askerOf (request 1 0) = some (.group 1 0) ∧ ((1 : Nat), (0x100 : Nat)) ∈ (s.hartOf (.group 1 0)).asked
      ∧ readKey (request 1 0) = 0x100
      ∧ p.addr.toNat / 2 ^ 32 = 0 ∧ p.psn = 0 ∧ s.away 1 = false
      ∧ ∀ n ∈ [1, 4, 8], (pkt 0x10 (5 + BitVec.ofNat 42 (n * 2 ^ 32)) 0 []).addr.toNat / 2 ^ 32 = n ∧ s.answered (pkt 0x10 (5 + BitVec.ofNat 42 (n * 2 ^ 32)) 0 []) = some (request 1 0))
    ∧ (let s := asking (request 4 (BitVec.ofNat 16 (2 * 1024 + 1))) (1 + 1024, 0x100) []
       let p := pkt 0x12 5 0 (leBytes 4 7)
       s.answered p = some (request 4 (BitVec.ofNat 16 (2 * 1024 + 1))) ∧ ((1 + 1024 : Nat), (0x100 : Nat)) ∈ (s.hartOf (.group 1 0)).asked
       ∧ pktIndex (request 4 (BitVec.ofNat 16 (2 * 1024 + 1))) = 0 ∧ p.data.length = 2 ^ ((request 4 (BitVec.ofNat 16 (2 * 1024 + 1))).control.toNat / 1024 % 4)) := by decide +kernel
theorem witness_FabricPacketResults_acknowledged : let r : RemoteOp := ⟨1, 5, 3, 4, false, true, 0x9⟩
    let s := asking (request 2 0) (7, 7) [r]
    s.answered (pkt 0x11 5 0 []) = some (request 2 0) ∧ s.answered (pkt 0x11 (5 + 2 ^ 32) 0 []) = some (request 2 0)
    ∧ s.answered (pkt 0x11 (5 + 2 ^ 33) 0 []) = some (request 2 0) ∧ (pkt 0x11 (5 + 2 ^ 33) 0 []).addr.toNat / 2 ^ 32 = 2 ∧ (s.hartOf (.group 1 0)).remote = [r]
    ∧ r.dst = (request 2 0).dst.toNat ∧ r.seq = (request 2 0).seq ∧ r.path < 4 ∧ (s.hartOf (.group 1 0)).region = none ∧ (s.hartOf (.group 1 0)).evicted = false
    ∧ vget (s.hartOf (.group 1 0)).ledger kFab [] = (r.id, false) :: [] ∧ (pkt 0x11 (5 + 2 ^ 32) 0 []).addr.toNat / 2 ^ 32 = 1
    ∧ s.sendersOf (request 2 0).dst.toNat (request 2 0).seq = [(1, 0, 0x9)] ∧ s.enginesOf (request 2 0).dst.toNat (request 2 0).seq = []
    ∧ (s.hartOf (.group 1 0)).live = true ∧ (s.hartOf (.group 1 0)).causes.length < 8 := by decide +kernel

/-- A route to device 1 over the first paths, and a packet of the focus's group that waits for its acknowledgement on path 0. -/
def routed (usable : Nat) : State :=
  let s := asking { request 2 0 with path := 0 } (7, 7) [⟨1, 5, 0, 4, false, true, 0x9⟩]
  { s with fabric := { s.fabric with routes := (List.range usable).map fun n => (4 + n, 2 ^ 63 + 2 ^ 60) } }
theorem witness_FabricControlResults_path : (∀ n ∈ [1, 2], let f := (routed n).fabric
      f.unacked = [{ request 2 0 with path := 0 }] ∧ 4 ∉ f.down ∧ (routed n).oracle = [])
    ∧ (∀ u ∈ (routed 1).fabric.unacked, ¬ (u.dst.toNat = 1 ∧ u.path.toNat = 2)) ∧ (routed 2).fabric.usable 1 1 = true
    ∧ (∀ n < 4, n ≠ 0 → (routed 1).fabric.usable 1 n = false) ∧ (routed 1).sendersOf 1 5 = [(1, 0, 0x9)] ∧ (routed 1).enginesOf 1 5 = []
    ∧ ((routed 1).hartOf (.group 1 0)).live = true ∧ ((routed 1).hartOf (.group 1 0)).causes = [] ∧ (request 2 0).kind.toNat = 2 ∧ (routed 1).fabric.fsJobs = [] := by decide +kernel
/-- An ordered flag to bank location 0x40 of device 1, at the head of the store queue or at its port, with a put to device 1 that is not acknowledged, and after that. -/
def flag0 : SQEntry := ⟨6, .flag (cellsAt (.remote 1 0x40 1 false) (leBytes 8 7)) 0x50, false, .grp, true, true, false⟩
def flagging (port : Bool) (remote : List RemoteOp) : State :=
  let s := onHart (routed 1) fun h => { h with remote := remote, sq := if port then [] else [flag0], flags := if port then [flag0] else [] }
  { s with fabric := { s.fabric with unacked := [] } }
theorem witness_FabricControlResults_flag : (let s := flagging false []
      (s.hartOf (.group 1 0)).sq = flag0 :: [] ∧ flag0.op = .flag (cellsAt (.remote 1 0x40 1 false) (leBytes 8 7)) 0x50 ∧ s.entryDue 1 0 flag0 = true)
    ∧ (∀ s ∈ [flagging true [], flagging true [⟨1, 5, 0, 4, false, true, 0x9⟩]], let h := s.hartOf (.group 1 0)
        h.sq = [] ∧ h.flags = [flag0] ∧ s.fabric.reachable 1 = true)
    ∧ leBytes 8 7 ≠ [] ∧ 0x40 % 256 + (leBytes 8 7).length ≤ 256
    ∧ (∃ r ∈ ((flagging true [⟨1, 5, 0, 4, false, true, 0x9⟩]).hartOf (.group 1 0)).remote, r.dst = 1 ∧ r.pathack = true ∧ r.id < flag0.id)
    ∧ ∀ r ∈ ((flagging true []).hartOf (.group 1 0)).remote, r.dst = 1 → r.id < flag0.id → r.pathack = false := by decide +kernel
/-- A region with one line staged, and a full buffer. -/
def staged0 : Staged := ⟨1, 0, 0, 0, 0, pkt 0x20 0x100 0 (List.replicate 256 7)⟩
def staging (n : Nat) : State := { base with fabric := { base.fabric with staging := List.replicate n staged0 } }
/-- The lines that die 0 keeps. -/
def stagedLines (s : State) : Nat := (s.fabric.staging.filter (·.die == 0)).foldl (fun n y => n + if y.pkt.bmask = 0 then 2 else 1) 0
theorem witness_FabricControlResults_stage : (∀ n ∈ [0x20, 0x21, 0x22], Comes (staging 1) (pkt (BitVec.ofNat 8 n) 0x100 0 []) n)
    ∧ homeKey (pkt 0x20 0x100 0 []).addr.toNat = some (homeKey 0x100 |>.getD 0) ∧ (staging 1).stageRefused (pkt 0x20 0x100 0 []) = false
    ∧ (staging 1).stageRefused { pkt 0x20 0x100 0 [] with bmask := 0 } = true ∧ (staging 1).oracle = [] ∧ stagedLines (staging 1) + 1 ≤ 4096
    ∧ (let x := staged0; let p := pkt 0x21 0 0 []
       x.src = p.src.toNat ∧ x.core = p.core.toNat ∧ x.gid = p.gid.toNat ∧ x.region = p.region ∧ x.pkt.bmask ≠ 0 ∧ x.pkt.enc = false
       ∧ (homeKey x.pkt.addr.toNat).isSome = true ∧ x.pkt.psn = 0 ∧ (staging 1).putsOut p = false ∧ ¬ x.region = { p with region := 2 }.region) ∧ (staging 1).mem.wf = true := by
  unfold Comes; decide +kernel
theorem witness_FabricControlResults_full : Comes (staging 4096) (pkt 0x20 0x100 0 []) 0x20 ∧ (staging 4096).stageRefused (pkt 0x20 0x100 0 []) = false
    ∧ 4096 < stagedLines (staging 4096) + 1 := by
  unfold Comes; decide +kernel
/-- An all-gather of one 32-bit element each of this device and device 1, as rank 0. -/
def collOf (status : Option (Nat × Nat)) : Coll :=
  { id := 0x20003, team := 1, gid := 0, op := 4, launch := none, asid := 1, sys := false, desc := BitVec.ofNat 512 (0x100 * 2 ^ 33 + 2 * 0x200 * 2 ^ 192 + 2 ^ 256 + 0x20003 * 2 ^ 288 + 2 * 2 ^ 320 + 2 ^ 352),
    peers := [0, 1], input := (leBytes 4 7).map (·, false), status := status, wrote := false }
def coll0 (status : Option (Nat × Nat)) : State :=
  { onHart base fun h => { h with ledger := vset h.ledger kColl [(4, false)] } with
    fabric := { base.fabric with colls := [collOf status], routes := [(4, 2 ^ 63 + 2 ^ 60)] } }
/-- A piece of device 1's contribution: its whole stream. -/
def piece (head : List Byte) : FabPkt := pkt 0x30 0 0 (leBytes 8 0x20003 ++ leBytes 8 0 ++ head ++ leBytes 4 9)
def headOf0 : List Byte := (collDesc (collOf none).desc).head
theorem witness_FabricControlResults_collective : (let s := coll0 none; let p := piece headOf0; let body := p.data.drop 16; let c := collOf none; let d := collDesc c.desc
      Comes s p 0x30 ∧ s.fabric.colls = [c] ∧ c.launch = none ∧ c.status = none ∧ c.asid = p.asid.toNat ∧ c.id = leNat (p.data.take 8)
      ∧ c.peers = [s.fabric.device.toNat, p.src.toNat] ∧ s.fabric.device ≠ p.src ∧ s.fabric.pieces = [] ∧ leNat ((p.data.drop 8).take 8) = 0 ∧ 16 ≤ body.length
      ∧ streamLen body = body.length ∧ body.take 16 = d.head ∧ d.kind = 1 ∧ d.tiles = 0 ∧ p.psn = 0 ∧ c.input = (leBytes 4 7).map (·, false)
      ∧ isOk ((({ s with tick := s.tick + 1, fabric := { s.fabric with pieces := [] } }.markSeen p).ack p).vwrite c.asid c.sys d.dst (leBytes 4 7 ++ body.drop 16)) = true)
    ∧ (let p := piece (headOf0.set 8 1 |>.set 0 2); let body := p.data.drop 16
       Comes (coll0 none) p 0x30 ∧ streamLen body = body.length ∧ body.take 16 ≠ (collDesc (collOf none).desc).head)
    ∧ (∀ y ∈ (coll0 (some (1, 0))).fabric.colls, y.status ≠ none) := by
  unfold Comes
  refine ⟨⟨?_, ?_, ?_, ?_, ?_, ?_, ?_, ?_, ?_, ?_, ?_, ?_, ?_, ?_, ?_, ?_, ?_, ?_⟩, ?_, ?_⟩ <;> decide +kernel
theorem witness_FabricControlResults_ends : (let p := pkt 0x31 0 0 (leBytes 8 0x20003); let s := coll0 none
      Comes s p 0x31 ∧ p.src.toNat ∈ (collOf none).peers ∧ leNat (p.data.take 8) = (collOf none).id ∧ (s.hartOf (.group 1 0)).live = true
      ∧ (s.hartOf (.group 1 0)).causes.length < 8 ∧ Comes base p 0x31 ∧ base.fabric.colls = [] ∧ base.fabric.ended = [])
    ∧ (let s := coll0 (some (1, 0)); let c := collOf (some (1, 0))
       s.fabric.colls = [c] ∧ c.wrote = false ∧ s.collBusy c = false ∧ vget (s.hartOf (.group 1 0)).ledger kColl [] = (c.op, false) :: []
       ∧ isOk (s.vwrite c.asid c.sys (collDesc c.desc).status (leBytes 8 (0 * 256 + 1))) = true
       ∧ (okGet s (s.vwrite c.asid c.sys (collDesc c.desc).status (leBytes 8 (0 * 256 + 1)))).collBusy c = false)
    ∧ (coll0 none).fabric.reachable 1 = true ∧ (collOf none).id < 2 ^ 32 ∧ 1 ≠ (coll0 none).fabric.device.toNat := by
  unfold Comes
  refine ⟨⟨?_, ?_, ?_, ?_, ?_, ?_, ?_, ?_⟩, ⟨?_, ?_, ?_, ?_, ?_, ?_⟩, ?_, ?_, ?_⟩ <;> decide +kernel
/-- The page of the status word lies on device 1. -/
theorem witness_FabricControlResults_status_elsewhere : let c := collOf (some (1, 0))
    let s := poke8 (coll0 (some (1, 0))) 0x20000 (2 ^ 63 + 2 ^ 62 + 2 ^ 42 + 0x3C)
    s.collBusy c = false ∧ isOk (s.vwrite c.asid c.sys (collDesc c.desc).status (leBytes 8 (0 * 256 + 1))) = true
    ∧ (okGet s (s.vwrite c.asid c.sys (collDesc c.desc).status (leBytes 8 (0 * 256 + 1)))).collBusy c = true := by
  refine ⟨?_, ?_, ?_⟩ <;> decide +kernel

end Sys2Proof.Tests
end

