-- ==== Sys2Proof/Tests/WitnessGraph.lean ====
section
/-! SUPPORT. Witnesses for the statements about class 5, messages, items, tasks, blocks, regions, bank cores and SUBMIT: a concrete state and operands that meet the hypotheses of each clause. -/

set_option Elab.async false -- one evaluation at a time: each holds a thread

namespace Sys2Proof.Tests
open Sys2Proof.Machine Sys2Proof.Claims

/-! ## Class 5 -/

/-- A fold of two nodes, of which node 0 is valid and has one edge, rooted at a core. -/
def foldAt (root : Nat) (members : List Nat) (waves : List (Option Wave)) : Fold :=
  { team := 1, asid := 1, graph := 0, root := root, nbase := 0x1000, sbase := 0x2000, ebase := 0x3000, ncount := 2, ecount := 1, counts := [],
    members := members, waves := waves, nextSerial := 5 }
def noWaves : List (Option Wave) := List.replicate 8 none
/-- The focus's team with the node record, s4 naming a value, and folds on cores. -/
def graphed (x : Word64) (folds : List (Nat × Fold)) (net : List Msg) : State :=
  let s := onTeam (onHart base fun h => { h with s := vset h.s 4 x }) fun t => { t with mem := t.mem.write 0x1008 (leBytes 8 (2 ^ 16 + 2 ^ 48)) }
  folds.foldl (fun s f => s.setCoreOf f.1 { s.coreOf f.1 with fold := some f.2 }) { s with net := net }
def rooted (x : Word64) (waves : List (Option Wave)) : State := graphed x [(0, foldAt 0 [0] waves)] []
/-- The descriptor of that fold at offset 0x40. -/
def described : State := onTeam (graphed 0 [] []) fun t => { t with
  mem := t.mem.write 0x40 (leBytes 8 (0x1000 * 2 ^ 32) ++ leBytes 8 (0x2000 + 0x3000 * 2 ^ 32) ++ leBytes 8 (2 + 2 ^ 16)) }

theorem witness_GraphInstructionResults_gcfg : let s := described
    let desc : BitVec 256 := bytesToBits 256 (s.team.mem.read 0x40 32)
    s.cur.unit = .group ∧ s.opnd (.reg 3) = .ok 0x40 ∧ s.drained .team = .ok () ∧ (0x40 : Word64).toNat % 32 = 0
    ∧ (0x40 : Word64).toNat + 32 ≤ s.team.spadBytes ∧ s.team.markedAt 0x40 32 = false ∧ (s.coreOf s.team.core).fold = none
    ∧ (∃ f, foldOf s.cur.team s.hart.asid.toNat s.team.spadBytes desc = some f ∧ s.mayJoin s.team.core f = true
        ∧ ∀ i < f.ncount, (s.gnode f i).valid = true → (s.gnode f i).eoff + (s.gnode f i).ecount ≤ f.ecount) := by
  refine ⟨?_, ?_, ?_, ?_, ?_, ?_, ?_, { foldAt 0 [] noWaves with nextSerial := 0 }, ?_⟩ <;> decide +kernel
theorem witness_GraphInstructionResults_gcfgUn : (let s := rooted 0 noWaves
      let f := foldAt 0 [0] noWaves
      (s.coreOf s.team.core).fold = some f ∧ f.asid = s.hart.asid.toNat ∧ s.rootOf f = some f ∧ f.team = s.cur.team ∧ f.liveWaves = []
      ∧ s.team.core = f.root ∧ ∀ c ∈ f.members, c = s.team.core)
    ∧ (let s := graphed 0 [(0, foldAt 5 [] noWaves), (5, foldAt 5 [5, 0] noWaves)] []
       (s.coreOf s.team.core).fold = some (foldAt 5 [] noWaves) ∧ s.rootOf (foldAt 5 [] noWaves) = some (foldAt 5 [5, 0] noWaves)
       ∧ (foldAt 5 [5, 0] noWaves).liveWaves = [] ∧ s.team.core ≠ 5) := by decide +kernel
theorem witness_GraphInstructionResults_waves : let s := rooted (2 ^ 19) noWaves
    let r := foldAt 0 [0] noWaves
    s.hart.region = none ∧ s.rootHere r = true ∧ s.hart.counter kGraph < 65535 ∧ r.freeEntry = some 0 ∧ s.opnd (.reg 4) = .ok (2 ^ 19) ∧ s.opnd (.reg 1) = .ok 7
    ∧ (2 ^ 19 : Word64).toNat < 2 ^ 21 ∧ ¬ ((2 ^ 19 : Word64).extractLsb' 18 2).toNat < 2 ∧ (2 ^ 19 : Word64).extractLsb' 12 6 = 0
    ∧ ((7 : Word64).extractLsb' 18 2).toNat < 2 ∧ (7 : Word64).getLsbD 20 = false ∧ (7 : Word64) &&& 0xFFFFFFFFFCC0C0C0 = 0
    ∧ (let gp : GpLit := ⟨false, 1, false, false, 0, 1, 0, 0⟩
       gp.comb.toNat ≤ 4 ∧ gp.gmode.toNat ≠ 3 ∧ gp.comb.toNat ≠ 0 ∧ (7 : Word64).extractLsb' 16 6 = 0 ∧ gp.h.toNat ≠ 0) := by decide +kernel
/-- Waves of every status in the entry that s0 names: serial 0. -/
def wave0 (st : WaveStatus) (ab : Bool) : Wave := ⟨0, 1, 0, .gmatch 0 0 0 0 0, st, none, ab, [], 2, 0, 0, false, 0, 0⟩
def withWave (w : Wave) : State := rooted 0 (some w :: List.replicate 7 none)
theorem witness_GraphInstructionResults_handles : (let s := rooted 0 noWaves
      (0 : Word64).toNat < 2 ^ 44 ∧ s.opnd (.reg 4) = .ok 0 ∧ ((0 : Word64).extractLsb' 3 9).toNat = (foldAt 0 [0] noWaves).root
      ∧ (foldAt 0 [0] noWaves).waveAt 0 = none ∧ s.foldIn 0 16 = some (foldAt 0 [0] noWaves) ∧ s.path.grant = none)
    ∧ ∀ w ∈ [wave0 .ended false, wave0 .faulted false, wave0 .running false, wave0 .held true],
        let f := foldAt 0 [0] (some w :: List.replicate 7 none)
        ((withWave w).coreOf 0).fold = some f ∧ (withWave w).rootOf f = some f ∧ f.waveAt 0 = some w ∧ w.serial = (0 : Word64).extractLsb' 12 32
        ∧ (withWave w).foldIn f.root f.name = some f ∧ (withWave w).path.grant = none := by
  refine ⟨by decide +kernel, fun w h => ?_⟩
  simp only [List.mem_cons, List.not_mem_nil, or_false] at h
  rcases h with rfl | rfl | rfl | rfl <;> decide +kernel
theorem witness_GraphInstructionResults_nodes : let s := rooted 0 noWaves
    let f := foldAt 0 [0] noWaves
    s.hart.counter kSt < 65535 ∧ s.opnd (.reg 3) = .ok 0x40 ∧ (0x40 : Word64).toNat % 4 = 0
    ∧ ((List.range f.ncount).filter fun i => (s.gnode f i).valid && markersOf s f i &&& 0 == 0) = [0] ∧ (0x40 : Word64).toNat + 4 ≤ s.team.spadBytes
    ∧ s.inFold 0 s.cur.team 0x40 4 = false ∧ (0 : Word64).toNat < 4 ∧ s.path.lanes = BitVec.allOnes 64 ∧ s.path.emask = BitVec.allOnes 64
    ∧ (0 : Word64).toNat / 4096 = s.team.core ∧ 0 < f.ncount ∧ (s.gnode f 0).valid = true ∧ s.heldDst ⟨4, false⟩ 1 = .ok ()
    ∧ (s.teamOf f.team).markedAt (f.slotAt 0 true) 32 = false ∧ s.heldRegs 4 1 = .ok () ∧ s.path.part = [] ∧ s.choice = 0 ∧ f.ncount ≤ (7 : Word64).toNat % 4096 ∧ s.opnd (.reg 1) = .ok 7 := by
  refine ⟨?_, ?_, ?_, ?_, ?_, ?_, ?_, ?_, ?_, ?_, ?_, ?_, ?_, ?_, ?_, ?_, ?_, ?_, ?_⟩ <;> decide +kernel
theorem witness_GraphInstructionResults_plain : FoldPlain (rooted 0 noWaves) (foldAt 0 [0] noWaves) := by
  unfold FoldPlain; decide +kernel

/-- A message of the fold of core 0 to its own core, about the wave of entry 0. -/
def sent (w : Wave) (b : MsgBody) : State := graphed 0 [(0, foldAt 0 [0] (some w :: List.replicate 7 none))] [⟨.fold 0, 0, b, false⟩]
/-- The hypotheses about a message that arrives. -/
def arrivesOk (s : State) (w : Wave) : Bool :=
  let f := foldAt 0 [0] (some w :: List.replicate 7 none)
  (s.net.map (·.core) == [0]) && decide ((s.coreOf 0).fold = some f) && !s.away f.team && !(f.count (0, 0, 0)).aborted
    && decide (s.foldIn 0 f.name = some f) && decide (f.waveAt 0 = some w) && decide (w.serial = 0)
theorem witness_WaveEventResults_root : (∀ w ∈ [wave0 .held false, { wave0 .running false with asked := [0] }, wave0 .running false],
      let f := foldAt 0 [0] (some w :: List.replicate 7 none)
      ((withWave w).coreOf 0).fold = some f ∧ f.waveAt 0 = some w ∧ w.serial = 0 ∧ ((withWave w).teamOf f.team).absent = false)
    ∧ (foldAt 0 [0] (some (wave0 .held false) :: List.replicate 7 none)).heldBack (wave0 .held false) = false
    ∧ (withWave { wave0 .running false with asked := [0] }).foldIn 0 16 = some (foldAt 0 [0] (some { wave0 .running false with asked := [0] } :: List.replicate 7 none))
    ∧ (withWave { wave0 .running false with asked := [0] }).sweepBehind 0 0 = false
    ∧ (let w := wave0 .running false; 2 ≤ w.sweep ∧ w.sumS = w.sumR ∧ w.sumA = false ∧ w.sumS = w.lastS ∧ w.sumR = w.lastR ∧ w.asked = [])
    ∧ (let w := { wave0 .running false with sumS := 1 }; ¬ (w.sumS = w.sumR))
    ∧ (let s := onHart (withWave (wave0 .running false)) fun h => { h with ledger := vset h.ledger kGraph [(waveOp (0, 0, 0), false)] }
       vget (s.hartOf (.group 1 0)).ledger kGraph [] = [(waveOp (0, 0, 0), false)]) := by
  refine ⟨fun w h => ?_, by decide +kernel, by decide +kernel, by decide +kernel, by decide +kernel, by decide +kernel, by decide +kernel⟩
  simp only [List.mem_cons, List.not_mem_nil, or_false] at h
  rcases h with rfl | rfl | rfl <;> decide +kernel
def prop0 (comb h : Nat) (gmode : BitVec 2) : Wave := { wave0 .running false with spec := .gprop ⟨false, BitVec.ofNat 3 comb, false, false, gmode, BitVec.ofNat 8 h, 0, 0⟩ 1 2 0 false true }
theorem witness_WaveEventResults_messages :
    arrivesOk (sent (wave0 .running false) (.start 0 0 0 16)) (wave0 .running false) = true ∧ arrivesOk (sent (prop0 0 1 0) (.start 0 0 0 16)) (prop0 0 1 0) = true
    ∧ arrivesOk (sent (prop0 0 1 0) (.marker 0 0 0 16 0 1 0 true 0)) (prop0 0 1 0) = true ∧ arrivesOk (sent (prop0 1 9 0) (.marker 0 0 0 16 0 9 0 true 0)) (prop0 1 9 0) = true
    ∧ arrivesOk (sent (prop0 0 1 1) (.marker 0 0 0 16 0 1 1 true 0)) (prop0 0 1 1) = true
    ∧ arrivesOk (sent (wave0 .running false) (.notice 0 0 0 16 (some 3))) (wave0 .running false) = true ∧ arrivesOk (sent (wave0 .running false) (.abort 0 0 0 16)) (wave0 .running false) = true := by
  refine ⟨?_, ?_, ?_, ?_, ?_, ?_, ?_⟩ <;> decide +kernel
theorem witness_WaveEventResults_nodes : let s := sent (prop0 0 1 0) (.marker 0 0 0 16 0 1 0 true 0)
    let f := foldAt 0 [0] (some (prop0 0 1 0) :: List.replicate 7 none)
    FoldPlain s f ∧ f.nbase % 64 = 0 ∧ 0 < f.ncount ∧ (s.gnode f 0).valid = true ∧ (s.gnode f 1).valid = false
    ∧ (markersOf s f 0).getLsbD 2 = false ∧ (∀ k < (s.gnode f 0).ecount, f.nbase + 64 * f.ncount ≤ f.ebase)
    ∧ ∀ b, (graphed 0 [] [⟨.fold 0, 0, b, false⟩]).foldIn 0 16 = none := by
  unfold FoldPlain
  refine ⟨by decide +kernel, by decide +kernel, by decide +kernel, by decide +kernel, by decide +kernel, by decide +kernel, by decide +kernel, fun b => rfl⟩

/-! ## Messages and items -/

theorem witness_MessageAndItemResults_mqw : base.cur.unit = .group ∧ base.opnd (.reg 1) = .ok 7 ∧ base.opnd (.reg 3) = .ok 0x40 ∧ (3 : BitVec 6).toNat ≤ 3
    ∧ (0x40 : Word64).toNat < 2 ^ 19 ∧ ((0x40 : Word64).extractLsb' 0 9).toNat < 288 ∧ vget base.hart.send 3 none = none
    ∧ base.hart.region = none ∧ base.hart.counter kSt < 65535
    ∧ vget (onHart base fun h => { h with send := vset h.send 3 (some 7) }).hart.send 3 none ≠ none
    ∧ 288 ≤ ((0x120 : Word64).extractLsb' 0 9).toNat ∧ 2 ^ 19 ≤ (2 ^ 19 : Word64).toNat := by decide +kernel
theorem witness_MessageAndItemResults_mqr : vget (onTeam base fun t => { t with rx := vset t.rx 3 [9] }).team.rx 3 [] = 9 :: [] ∧ vget base.team.rx 3 [] = [] := by
  decide +kernel
/-- A flit of group 0 of the focus's team to its own core, and a receive register with n values. -/
def flitted (wbase n : Nat) : State :=
  let s := onTeam (onHart base fun h => { h with send := vset h.send 3 (some 9), ledger := vset h.ledger kSt [(4, false)] }) fun t =>
    { t with rx := vset t.rx 2 (List.replicate n 0) }
  { s with net := [⟨.group 1 0, 0, .flit wbase 2 1 9 3 4 0, false⟩] }
theorem witness_MessageAndItemResults_flit : (∀ n ∈ [15, 16], let s := flitted 0 n
      s.net[0]? = some ⟨.group 1 0, 0, .flit 0 2 1 9 3 4 0, false⟩ ∧ s.entryAtBase 0 0 1 = some port0 ∧ port0.absent = false
      ∧ (vget (s.teamOf port0.team).rx 2 []).length = n ∧ vget (s.hartOf (.group 1 0)).ledger kSt [] = [(4, false)])
    ∧ (flitted 7 0).entryAtBase 0 7 1 = none := by decide +kernel
/-- A loop that refills: s1 = 7; lanes 1 to 63 are off. -/
def refills (items : List Word32) (emask : Word64) (closed : Bool) : State :=
  onTeam (onHart (onPath base fun p => { p with emask := emask }) fun h => { h with loopHead := some 0x1000 }) fun t => { t with items := items, itemsClosed := closed }
theorem witness_MessageAndItemResults_refill : (∀ s ∈ [refills [5, 6] 1 false, refills [] 0 true], s.path.lanes = BitVec.allOnes 64 ∧ s.hart.recs = []
      ∧ s.hart.loopHead = some s.path.header ∧ s.heldRegs 31 1 = .ok () ∧ ¬ (s.team.items = [] ∧ s.path.emask = 0 ∧ s.team.itemsClosed = false))
    ∧ (refills [] 0 false).team.items = [] ∧ (refills [] 0 false).path.emask = 0 ∧ (refills [] 0 false).team.itemsClosed = false := by
  refine ⟨fun s h => ?_, by decide +kernel⟩
  rcases List.mem_pair.mp h with rfl | rfl <;> decide +kernel
theorem witness_MessageAndItemResults_itempush : base.drained .team = .ok () ∧ (refills [] 0 true).team.itemsClosed = true
    ∧ base.team.itemsClosed = false ∧ base.itemsOn base.team.core < 4096
    ∧ 4096 ≤ (refills (List.replicate 4096 0) 0 false).itemsOn 0 ∧ (refills (List.replicate 4096 0) 0 false).team.itemsClosed = false := by
  refine ⟨?_, ?_, ?_, ?_, ?_, ?_⟩ <;> decide +kernel

/-! ## Tasks and blocks -/

/-- A task record at 0x100 and its header at 0x800: two teams of one group. -/
def tendered : State :=
  let s := poke8 (poke8 (onHart base fun h => { h with s := vset h.s 4 0x100 }) 0x40000100 0x0301000000) 0x40000118 0x800
  poke8 (poke8 (poke8 (poke8 (poke8 (poke8 s 0x40000800 1) 0x40000868 (2 ^ 32)) 0x40000810 (2 + 4 * 2 ^ 32)) 0x40000818 1) 0x40000820 0x04040100) 0x40000828 0x1000
def nodeBytes : List Byte := okGet [] (tendered.readSpan 0x100 256)
def headBytes : List Byte := okGet [] (tendered.readSpan 0x800 128)
def checked : Checked := { node := { parseNode nodeBytes with formula := 15 }, bad := nodeBad nodeBytes 1, header := some (.ok (parseHeader headBytes)) }
theorem witness_TaskAndBlockResults_tender : tendered.opnd (.reg 4) = .ok 0x100 ∧ (0x100 : Word64).toNat % 256 = 0 ∧ isOk (tendered.readSpan 0x100 256) = true
    ∧ (parseNode nodeBytes).kind = 0 ∧ (parseNode nodeBytes).code = 0x800 ∧ isOk (tendered.readSpan 0x800 128) = true
    ∧ tendered.taskOk tendered.hart.asid.toNat checked nodeBytes = true ∧ tendered.drained .dev = .ok () ∧ tendered.openTasks < 256 := by
  refine ⟨?_, ?_, ?_, ?_, ?_, ?_, ?_, ?_, ?_⟩ <;> decide +kernel
/-- A record of the focus's team with serial 7. -/
def record7 : Launch :=
  { id := 3, command := 0, queue := none, asid := 1, tag := 0, table := 0, status := 0, doneAddr := 0, nodes := [], tenderer := some (1, 0), serial := 7 }
theorem witness_TaskAndBlockResults_withdraw : base.launches = [] ∧ base.opnd (.reg 1) = .ok 7
    ∧ (let s := { base with launches := [(3, record7)] }
       ∀ q ∈ s.launches, q.2.queue = none ∧ q.2.serial = (7 : Word64).setWidth 32 ∧ q.2.tenderer = some (s.cur.team, 0)) := by decide +kernel
theorem witness_TaskAndBlockResults_done : base.hart.recs = [] ∧ ∀ k < 8, base.hart.counter k = 0 := by decide +kernel
/-- Role 0 with a budget, and the focus's slots. -/
def blocks (budget : Nat) (held : BitVec 4) (susp : Option Wait) : State :=
  onTeam (onPath (onHart base fun h => { h with held := held }) fun p => { p with susp := susp }) fun t => { t with roles := [⟨true, 1, 4, budget, 0x1000, false⟩] }
theorem sorted_none {α : Type} {l : List α} (le : α → α → Bool) (h : l.isEmpty = true) : l.mergeSort le = [] := by
  cases l with
  | nil => simp
  | cons a b => cases h
theorem sorted_one {α : Type} [DecidableEq α] {l : List α} (le : α → α → Bool) (x : α) (h : decide (l = [x]) = true) : l.mergeSort le = [x] := by
  rw [of_decide_eq_true h]; simp
/-- BLKACQ of slots 0 to 2: all held; beyond the budget; within it; and within it but for what the role holds. -/
theorem witness_TaskAndBlockResults_blkacq : base.path.grant = none ∧ (7 : Word64).setWidth 4 &&& ~~~(base.hart.held) = 0
    ∧ (let s := blocks 2 1 none
       (7 : Word64).setWidth 4 &&& ~~~(s.hart.held) ≠ 0 ∧ s.team.budgetOf s.hart.role < popcount s.hart.held.toNat 4 + popcount ((7 : Word64).setWidth 4 &&& ~~~(s.hart.held)).toNat 4)
    ∧ (let s := blocks 3 1 none
       popcount s.hart.held.toNat 4 + popcount ((7 : Word64).setWidth 4 &&& ~~~(s.hart.held)).toNat 4 ≤ s.team.budgetOf s.hart.role
       ∧ s.roleHeld s.cur.team s.hart.role + popcount ((7 : Word64).setWidth 4 &&& ~~~(s.hart.held)).toNat 4 ≤ s.team.budgetOf s.hart.role)
    ∧ (let s := { blocks 3 1 none with harts := mset (.group 1 1) { hart0 with held := 1 } (blocks 3 1 none).harts }
       popcount s.hart.held.toNat 4 + popcount ((7 : Word64).setWidth 4 &&& ~~~(s.hart.held)).toNat 4 ≤ s.team.budgetOf s.hart.role
       ∧ s.team.budgetOf s.hart.role < s.roleHeld s.cur.team s.hart.role + popcount ((7 : Word64).setWidth 4 &&& ~~~(s.hart.held)).toNat 4) := by decide +kernel
theorem witness_TaskAndBlockResults_no_waiter : (blocks 3 1 none).blockWaiters 1 0 = [] := by unfold State.blockWaiters; exact sorted_none _ (by decide +kernel)
theorem witness_TaskAndBlockResults_blkrel : (base.coreOf base.team.core).spare ≠ some (base.cur.team, base.cur.gid) := by decide +kernel
/-- The only group of the role waits for a fourth block where the budget is three. -/
theorem witness_TaskAndBlockResults_lend : let s := blocks 3 7 (some (.blocks 8))
    (s.teamOf 1).live = true ∧ (s.teamOf 1).absent = false ∧ (s.coreOf (s.teamOf 1).core).spare = none
    ∧ (∀ g ∈ s.liveGids 1, (s.hartOf (.group 1 g)).role = 0 → (s.hartOf (.group 1 g)).evicted = false ∧ (s.hartOf (.group 1 g)).inBlkacq = true)
    ∧ s.blockWaiters 1 0 = [⟨0, false, 0, 8⟩] ∧ s.requestFits 1 0 ((s.teamOf 1).budgetOf 0) ⟨0, false, 0, 8⟩ = false
    ∧ s.requestFits 1 0 ((s.teamOf 1).budgetOf 0 + 1) ⟨0, false, 0, 8⟩ = true := by
  refine ⟨?_, ?_, ?_, ?_, by unfold State.blockWaiters; exact sorted_one _ _ (by decide +kernel), ?_, ?_⟩ <;> decide +kernel

/-! ## Regions -/

/-- A region that path 0 opened, with s5 = 3 in its checkpoint. -/
def region0 (items : List SQEntry) (staged : Bool) (doomed : Option RegionFailure) : Region :=
  { serial := 0, cs := vset Hart.reset.s 5 3, cv := [(0, 9)], cvl := 0, cvtype := 0, cemask := 1, cfmt := 0, path := false, depth := 0, handler := 0x2000,
    hdr := 0x1000, items := items, staged := staged, awaiting := [], doomed := doomed, phases := [] }
def away0 : SQEntry := ⟨0, .bytes [(.remote 1 0x40 1 false, 9)] 0x40 1, false, .grp, false, true, true⟩
def inRegion (items : List SQEntry) (staged : Bool) (doomed : Option RegionFailure) : State := onHart base fun h => { h with region := some (region0 items staged doomed) }
theorem witness_RegionResults_fbegin : let s := onHart base fun h => { h with s := vset h.s 4 0xFF }
    s.cur.unit = .group ∧ s.opnd (.reg 4) = .ok 0xFF ∧ s.path.clause = some (clauseOf 0) ∧ s.hart.region = none ∧ s.hart.recs = []
    ∧ (0xFF : Word64).toNat < 2 ^ 32 ∧ popcount (0xFF : Word64).toNat 32 = 8 ∧ ∀ j < 32, (0xFF : Word64).getLsbD j = true → s.hart.held.getLsbD (j / 8) = true := by
  decide +kernel
theorem witness_RegionResults_fcommit : (inRegion [] false none).hart.region = some (region0 [] false none) ∧ (inRegion [] false none).cur.unit = .group ∧ (inRegion [] false none).quiet .sys = true ∧ (region0 [] false none).staged = false
    ∧ (let s := onHart (inRegion [away0] false none) fun h => { h with ledger := vset h.ledger kFab [(0, false)] }
       s.hart.region = some (region0 [away0] false none) ∧ s.quiet .sys = true ∧ (∃ e ∈ [away0], e.fab = true) ∧ (∀ e ∈ [away0], ∀ u ∈ e.targets, u = .remote 1 0x40 1 false) ∧ (region0 [away0] false none).staged = false)
    ∧ (region0 [] false none).handler.toNat % 4 = 0 ∧ (region0 [] false none).handler.toNat < 12 * 2 ^ 52 := by decide +kernel
/-- FCOMMIT to s4 is the word that path 0 has issued, its stages acknowledged; and a region that an eviction dooms at a boundary. -/
theorem witness_RegionResults_commit_and_fail : (let s := onPath (inRegion [] true none) fun p =>
        { p with clause := some { clauseOf 6 with words := [0x11100000#32] }, stalled := true }
      (s.hartOf (.group 1 0)).region = some (region0 [] true none) ∧ (s.hartOf (.group 1 0)).p0.fcommit = some ⟨4, false⟩)
    ∧ (let s := onPath (inRegion [] false (some .evicted)) fun p => { p with clause := none }
       (s.hartOf (.group 1 0)).live = true ∧ (s.hartOf (.group 1 0)).evicted = false ∧ (s.hartOf (.group 1 0)).between = true
       ∧ s.doomedBy (region0 [] false (some .evicted)) .evicted = true) := by decide +kernel

/-! ## Bank cores and SUBMIT -/

/-- The second GiB of ASID 1 lies at bank 3, with the full/empty attribute; a start record for it stands at 0x1000. -/
def nearTables (s : State) : State :=
  poke8 (poke8 (poke8 (poke8 s 0x20008 (2 ^ 63 + 2 ^ 62 + 0x28180000000 + 0x7C)) 0x40001000 0x40000000) 0x40001008 (1 + 0x100 * 2 ^ 32)) 0x40001010 11
def starts (op : SQOp) : State := nearTables (onHart base fun h => { h with sq := [⟨0, op, false, .grp, true, false, false⟩] })
theorem witness_BankCoreResults_instructions : onBank.cur.unit = .bank ∧ onBank.opnd (.reg 3) = .ok 0x40 ∧ onBank.opnd (.reg 1) = .ok 7
    ∧ (0x40 + BitVec.signExtend 64 (0 : BitVec 30) : Word64).toNat % 8 = 0
    ∧ (0x40 : Word64).toNat + (7 + 7) / 8 ≤ 65536 * (onBank.bankOf onBank.cur.bank).region.pages ∧ onBank.poisoned = [] ∧ (0x40 : Word64).toNat + 2 ^ 29 < 2 ^ 64
    ∧ (onBank.bankOf 3).job = none ∧ (onBank.bankOf 3).suspended = none
    ∧ (let s := { onBank with banks := [(3, { Bank.reset with running := true, owner := 1, region := ⟨0, 1, 0, [0]⟩ })] }
       s.opnd (.const 0x10) = .ok 0 ∧ (0 : Word64).toNat % 1024 = 0 ∧ (0 : Word64).toNat + 1024 ≤ 65536 * (s.bankOf s.cur.bank).region.pages
       ∧ (0 : Word64).toNat / 65536 ∈ (s.bankOf s.cur.bank).region.fe) := by decide +kernel
theorem witness_BankCoreResults_start : let s := starts (.bankStart 3 0x1000 0x00F0000020180000)
    ((s.headEntry 1 0 fun o => match o with | .bankStart _ _ _ => true | _ => false).map fun e => e.op) = some (.bankStart 3 0x1000 0x00F0000020180000)
    ∧ (∀ e ∈ (s.hartOf (.group 1 0)).sq, e.st = true ∧ e.fab = false) ∧ (s.bankOf 3).running = false
    ∧ isOk (State.startRecord { (s.popSq 1 0).landWhere (fun p => p.team == 1 && p.gid == 0) with dirty := [] } (bankKey 3) 3 1 false 0x1000) = true := by
  refine ⟨?_, ?_, ?_, ?_⟩ <;> decide +kernel
theorem witness_BankCoreResults_mailbox : let s := { starts (.mailbox 3 31 9 0) with banks := [(3, { Bank.reset with running := true, owner := 1 })] }
    ((s.headEntry 1 0 fun o => match o with | .mailbox _ _ _ _ => true | _ => false).map fun e => e.op) = some (.mailbox 3 31 9 0) ∧ 31 < 32
    ∧ (s.bankOf 3).owner = (s.hartOf (.group 1 0)).asid.toNat := by decide +kernel
/-- A kind-1 node of prio 10 for bank 3, whose core stands at a chunk boundary of a job of prio 5. -/
def node1 : NodeRun :=
  { node := { (parseNode []) with kind := 1, prio := 10, kparm := 0x00000000000000030000000000001000 }, header := default, status := .ready, counter := 0,
    cause := 0, result := 0, placed := 0, ended := 0, cancelled := 0, trapped := false, refused := false, produced := [], entered := 0 }
def urgentJob : State :=
  { nearTables base with launches := [(3, { record7 with queue := some 0, nodes := [node1] })],
                         banks := [(3, { Bank.reset with running := true, owner := 1, prio := 5, chunk := true })] }
theorem witness_BankCoreResults_suspend : urgentJob.nodeRun 3 0 = some node1 ∧ (mfind 3 urgentJob.launches).isSome = true ∧ node1.node.kind = 1
    ∧ node1.status = .ready ∧ urgentJob.displaces node1 = true ∧ (urgentJob.bankOf (kind1Parms node1.node.kparm).2).chunk = true
    ∧ isOk (urgentJob.startRecord (nodeKey 3 0) (kind1Parms node1.node.kparm).2 1 false (kind1Parms node1.node.kparm).1) = true := by
  refine ⟨?_, ?_, ?_, ?_, ?_, ?_, ?_⟩ <;> decide +kernel

/-- Queue 0 of ASID 1, of two entries, and the operands of SUBMIT on hart 2: x5 = 0 names it, x6 is the new index. -/
def submits (asid : Nat) (w : Word64) : State :=
  { base with cur := ⟨.shepherd, 0, 0, false, 0, 2⟩, queues := [(0, ⟨0, 0, asid, 0, 0x10000, 11, 1⟩)], shasid := [(2, 1)], xregs := [(70, w)] }
theorem witness_SubmitResults : ¬ ((0 : Nat) < 32 ∧ (mget (default : Queue) 0 base.queues).lsize ≠ 0)
    ∧ (let s := submits 2 1; (mget default 0 s.queues).lsize ≠ 0 ∧ (mget default 0 s.queues).asid ≠ (mget 0 2 s.shasid).toNat)
    ∧ (let s := submits 1 3; let Q := mget default 0 s.queues; let w : Word32 := (mget 0 (2 * 32 + 6) s.xregs).setWidth 32
       Q.asid = (mget 0 2 s.shasid).toNat ∧ ¬ (w - Q.rindex).toNat ≤ 2 ^ Q.lsize)
    ∧ (let s := submits 1 2; let Q := mget default 0 s.queues; let w : Word32 := (mget 0 (2 * 32 + 6) s.xregs).setWidth 32
       (w - Q.windex).toNat < 2 ^ 31 ∧ (w - Q.rindex).toNat ≤ 2 ^ Q.lsize ∧ (mget Shepherd.reset 2 s.shepherds).stores = [] ∧ s.cur.hart < 16) := by decide +kernel
/-- Hart 2 with a store that is still to be performed; the word of another function code, and the read of CSR 0xCC0 into x5. -/
def hartRuns (stores : List (Nat × List Byte)) (words : List Word32) : State :=
  { submits 1 2 with shepherds := [(2, { Shepherd.reset with stores := stores, words := words })] }
theorem witness_SubmitResults_waits_and_words : (mget Shepherd.reset 2 (hartRuns [(0x100, [7])] []).shepherds).stores ≠ []
    ∧ (mget Shepherd.reset 2 (hartRuns [] [0x0020100B]).shepherds).words = 0x0020100B :: []
    ∧ (mget Shepherd.reset 2 (hartRuns [] [0xCC0022F3]).shepherds).words = 0xCC0022F3 :: []
    ∧ (0x0020100B : Word32).extractLsb' 0 7 = 0b0001011#7 ∧ (0x0020100B : Word32).extractLsb' 12 3 ≠ 0
    ∧ (0xCC0022F3 : Word32) = (0xCC0#12 ++ 0#5 ++ 2#3 ++ 5#5 ++ 0b1110011#7) := by decide +kernel

end Sys2Proof.Tests
end

