-- ==== Sys2Proof/Tests/WitnessSystem.lean ====
section
/-! SUPPORT. Witnesses for the statements about classes 7, 3, 6 and 4: a concrete state and operands that meet the hypotheses of each clause. -/

set_option Elab.async false -- one evaluation at a time: each holds a thread

namespace Sys2Proof.Tests
open Sys2Proof.Machine Sys2Proof.Claims

/-! ## Class 7 -/

/-- The group in system mode. -/
def sysBase : State := onHart base fun h => { h with sys := true }
theorem witness_StatusRegisterResults : base.cur.unit = .group ∧ base.opnd (.reg 1) = .ok 7 ∧ base.hart.sys = false
    ∧ sysBase.cur.unit = .group ∧ sysBase.opnd (.reg 1) = .ok 7 ∧ sysBase.hart.sys = true
    ∧ fmtLegal 7 = true ∧ base.opnd (.const 0x11) = .ok 1 ∧ fmtLegal 1 = true ∧ fmtLegal (base.path.fmt ||| 1) = true ∧ fmtLegal (base.path.fmt &&& ~~~1) = true
    ∧ (7 : Word64).toNat ≤ 11 ∧ (sysBase.hart.asid ||| 7).toNat ≤ 4095 ∧ (sysBase.hart.prio ||| 7).toNat ≤ 11 := by decide +kernel

/-- The handler's address taken away. -/
def noHandler : State := poke8 base 72 0
theorem bind_ok {ε α β : Type} {x : Except ε α} {f : α → Except ε β} {b : β} (h : (x >>= f) = .ok b) : ∃ a, x = .ok a ∧ f a = .ok b := by
  cases x with
  | error e => cases h
  | ok a => exact ⟨a, rfl, h⟩
/-- The writes of a saving, one after the other. -/
def saving (s : State) (epc lanes addr2 : Word64) : Except Cause State := do
  let base := (s.hart.spbase - 65536).toNat
  let w ← s.vwrite s.hart.asid.toNat true base (frame s epc lanes addr2 ++ s.hart.p0.bytes ++ s.hart.p1.bytes)
  let x ← w.vwrite s.hart.asid.toNat true (base + 0x400) (s.hart.p0.latchBytes ++ s.hart.p1.latchBytes)
  x.vwrite s.hart.asid.toNat true (base + 0xE00) s.hart.recBytes
theorem saved_of (s : State) (epc lanes addr2 : Word64) (h : isOk (saving s epc lanes addr2) = true) :
    Saved s epc lanes addr2 (okGet s (saving s epc lanes addr2)) := by
  have hu := ok_get s h
  generalize okGet s (saving s epc lanes addr2) = u at hu
  obtain ⟨w, hw, hu⟩ := bind_ok hu
  obtain ⟨x, hx, hu⟩ := bind_ok hu
  exact ⟨w, x, hw, hx, hu⟩

theorem witness_PreciseTrapsEnterTheHandler_precise : base.cur.unit = .group ∧ base.path.susp = none ∧ base.hart.region = none ∧ base.hart.sys = false
    ∧ Cause.accessViolation ≠ .pageFault ∧ Cause.accessViolation ≠ .poison
    ∧ ∃ u, Saved base base.path.wordAddr 0 9 u ∧ (u.ctx base.hart.asid.toNat).handler ≠ 0 := by
  have hu := saved_of base base.path.wordAddr 0 9 (by decide +kernel)
  exact ⟨by decide +kernel, by decide +kernel, by decide +kernel, by decide +kernel, by decide, by decide, _, hu, by decide +kernel⟩
theorem witness_PreciseTrapsEnterTheHandler_no_handler : noHandler.cur.unit = .group ∧ noHandler.path.susp = none ∧ noHandler.hart.region = none
    ∧ noHandler.hart.sys = false ∧ ∃ u, Saved noHandler noHandler.path.wordAddr 0 9 u ∧ (u.ctx noHandler.hart.asid.toNat).handler = 0 := by
  have hu := saved_of noHandler noHandler.path.wordAddr 0 9 (by decide +kernel)
  exact ⟨by decide +kernel, by decide +kernel, by decide +kernel, by decide +kernel, _, hu, by decide +kernel⟩
theorem witness_PreciseTrapsEnterTheHandler_trap : ∃ u, Saved base base.path.nextHeader 0 ((63 : BitVec 6).setWidth 64) u
    ∧ (u.ctx base.hart.asid.toNat).handler ≠ 0 := by
  have hu := saved_of base base.path.nextHeader 0 ((63 : BitVec 6).setWidth 64) (by decide +kernel)
  exact ⟨_, hu, by decide +kernel⟩
theorem witness_PreciseTrapsEnterTheHandler_sys_and_latch : sysBase.hart.sys = true ∧ sysBase.path.susp = none ∧ sysBase.hart.region = none
    ∧ (vget base.path.latches (3 : BitVec 2).toNat default).kind ≠ .scalar := by decide +kernel

/-- Memory in which a clause of one word of zeros (ADD) stands at 0x1000; and the group in its handler after that word has trapped. -/
def coded : State := poke8 base 0x40001000 1
def trapped : State := coded.stopped (trapOf .accessViolation 0)
/-- What ERET finds in the saved-state area of a state. -/
def frameOf (s : State) : List Byte := okGet [] (s.vread s.hart.asid.toNat true (s.hart.spbase - 65536).toNat 256)
def latchesOf (s : State) : List Byte := okGet [] (s.vread s.hart.asid.toNat true ((s.hart.spbase - 65536).toNat + 0x400) 2048)
theorem witness_EretResumesWhatTheFrameNames_group : (coded.cur.unit = .group ∧ (coded.hart.path (!coded.cur.path)).active = false ∧ coded.hart.sq = [] ∧ coded.hart.recs = [])
    ∧ trapped.cur.unit = .group ∧ (trapped.hart.path (!trapped.cur.path)).active = false ∧ trapped.hart.sq = [] ∧ trapped.hart.recs = [] := by decide +kernel
theorem witness_EretResumesWhatTheFrameNames_reads : (isOk (coded.vread coded.hart.asid.toNat true (coded.hart.spbase - 65536).toNat 256) = true
      ∧ isOk (coded.vread coded.hart.asid.toNat true ((coded.hart.spbase - 65536).toNat + 0x400) 2048) = true)
    ∧ isOk (trapped.vread trapped.hart.asid.toNat true (trapped.hart.spbase - 65536).toNat 256) = true
    ∧ isOk (trapped.vread trapped.hart.asid.toNat true ((trapped.hart.spbase - 65536).toNat + 0x400) 2048) = true := by decide +kernel
/-- `inside` of the statement. -/
def insideOf (s : State) : Bool :=
  let bs := frameOf s
  leNat ((bs.drop 8).take 8) == s.hart.epc.toNat && decide (leNat (bs.take 8) < s.hart.epc.toNat)
/-- ERET with the frame's epc inside its clause; with an epc that is another; and with one behind the clause's last word. -/
theorem witness_EretResumesWhatTheFrameNames_inside : coded.hart.sys = false ∧ trapped.hart.sys = true ∧ insideOf trapped = true
    ∧ trapped.fetchWord 0x1000 = .ok 1 ∧ leNat ((frameOf trapped).take 8) = 0x1000 ∧ trapped.hart.epc.toNat ≤ 0x1000 + 4
    ∧ (match fetchClause trapped.fetchWord false 0x1000 with | .ok (_, w) => w == 1 | .error _ => false) = true := by decide +kernel
theorem witness_EretResumesWhatTheFrameNames_elsewhere :
    (let s := onHart trapped fun h => { h with epc := 0x40 }; s.hart.sys = true ∧ insideOf s = false ∧ (0x40 : Word64).toNat % 4 = 0)
    ∧ (let s := coded.stopped (.trap ⟨.accessViolation, 0, 0, 0, 1⟩)
       let s := poke8 (onHart s fun h => { h with epc := 0x1008 }) 0x40100008 0x1008
       s.hart.sys = true ∧ insideOf s = true ∧ s.fetchWord 0x1000 = .ok 1 ∧ 0x1000 + 4 * ((1 : Word32).extractLsb' 0 4).toNat < s.hart.epc.toNat) := by
  decide +kernel

/-- A core's cached translation of ASID 1. -/
theorem witness_ServiceInstructionResults : base.cur.unit = .group ∧ base.opnd (.reg 1) = .ok 7 ∧ base.opnd (.reg 3) = .ok 0x40 ∧ base.path.grant = none
    ∧ base.hart.asid.toNat ∉ base.service.haltDbg
    ∧ (let s := { base with service := { base.service with haltDbg := [1] } }; s.path.grant = none ∧ s.hart.asid.toNat ∈ s.service.haltDbg)
    ∧ base.heldRegs 1 1 = .ok () ∧ (7 : Word64).toNat ≤ 7 ∧ (7 : Word64).toNat < 256 ∧ sysBase.hart.sys = true ∧ (7 : Word64).toNat ≤ 15
    ∧ 16 ≤ (0x40 : Word64).toNat ∧ (0x40 : Word64).toNat ≤ 1024 ∧ sysBase.drained .dev = .ok () ∧ sysBase.asidQuiet (· == 7) = true
    ∧ sysBase.asidQuiet (fun _ => true) = true ∧ base.hart.sys = false := by
  refine ⟨?_, ?_, ?_, ?_, ?_, ?_, ?_, ?_, ?_, ?_, ?_, ?_, ?_, ?_, ?_, ?_, ?_⟩ <;> decide +kernel

/-! ## Class 3 -/

/-- The team's stream runs a clause; q1 = 16, q2 = 0x0001_0001 (row 0 and column 0). -/
def stream (f : Seq → Seq) : State :=
  let s := onTeam base fun t => { t with seq := f { Seq.reset with st := .running, q := vset (vset Seq.reset.q 1 16) 2 0x10001, clause := some (clauseOf 3) } }
  { s with cur := ⟨.stream, 1, 0, false, 0, 0⟩ }
def stream0 : State := stream id
theorem witness_StreamStateAndControlResults_setb : stream0.seq.clause = some (clauseOf 3) ∧ 1 ≤ (1 : BitVec 6).toNat ∧ (15 : BitVec 6).toNat ≤ 15
    ∧ streamValue stream0 (.reg 1) = 16 ∧ (16 + 0 : Word64).toNat % 8 = 0 ∧ (16 + 0 : Word64).toNat + 8 ≤ stream0.team.spadBytes
    ∧ stream0.team.markedAt 16 8 = false ∧ fmtLegal (streamValue stream0 (.const 0x10)) = true
    ∧ streamValue stream0 (.const 0x1F) &&& 0xFFFFFFFFE0E0E0E0 = 0 ∧ (streamValue stream0 (.const 0x10)).toNat % 32 = 0
    ∧ (stream0.seq.sfmt.extractLsb' 0 5).toNat ∉ nfmtCodes ∧ (stream0.seq.sfmt.extractLsb' 5 5).toNat ∉ nfmtCodes := by decide +kernel
theorem witness_StreamStateAndControlResults_formats : let s := onTeam (stream fun q => { q with sfmt := 0x185 }) fun t => { t with feat := 0x1FFF }
    s.seq.clause = some (clauseOf 3) ∧ s.team.feat.getLsbD 13 = false ∧ (s.seq.sfmt.extractLsb' 0 5).toNat ∈ nfmtCodes ∧ s.seq.fault = none := by decide +kernel
theorem witness_StreamStateAndControlResults_control : vget (stream fun q => { q with q := vset q.q 1 1 }).seq.q 1 0 - 1 = 0
    ∧ vget stream0.seq.q 1 0 - 1 ≠ 0 ∧ (0x1000 + 4 * BitVec.signExtend 64 (3 : Word32)).toNat % 4 = 0
    ∧ (0x1000 + 4 * BitVec.signExtend 64 (3 : Word32)).toNat < 12 * 2 ^ 52 := by decide +kernel
theorem witness_StreamStateAndControlResults_mend : stream0.seq.rows = [] ∧ stream0.seq.batches = [] ∧ stream0.seq.arrivals = []
    ∧ (∀ p ∈ stream0.team.sent, p.2.2 ≠ 0) ∧ stream0.liveGids stream0.cur.team ≠ []
    ∧ (let s := { stream0 with harts := [] }; s.liveGids s.cur.team = [] ∧ s.team.live = true)
    ∧ (stream fun q => { q with batches := [⟨0, 0, 0, []⟩] }).seq.batches ≠ [] := by decide +kernel

/-- One row and one column of tile 3, for the product and for memory; row 0's identifier in v0 is 5. -/
def streamIds : State := { stream (fun q => { q with sfmt := 0x21 }) with harts := [(.group 1 0, { hart0 with v := vset hart0.v 0 5 })] }
theorem witness_MatrixInstructionsIssueTheirRows_mma : let s := streamIds
    let m := streamValue s (.reg 2)
    let cb := s.team.codebook (fmtCb s.seq.sfmt)
    let K := okGet 0 (depthOf s.seq.sfmt)
    let A := okGet [] (s.rowsA (streamValue s (.const 0x10)) m s.seq.sfmt K cb)
    let ids := okGet 0 (s.boundReg (vget s.seq.binding 0 0) 0)
    3 < s.team.accs ∧ (s.team.tile 3).token = none ∧ s.team.formatsOk = true ∧ isOk (s.pinRoom (A.map fun r => rowOf s 3 r.1 (.mma false r.2 [] 5 0 K))) = true ∧ isOk (depthOf s.seq.sfmt) = true
    ∧ isOk (s.rowsA (streamValue s (.const 0x10)) m s.seq.sfmt K cb) = true ∧ isOk (s.colsB m ⟨0, 0, false, false, 1⟩ s.seq.sfmt K cb) = true
    ∧ (s.seq.sfmt.extractLsb' 10 3).toNat ≠ 3 ∧ (s.seq.rows.filter (·.queued)).length ≤ 8 ∧ isOk (s.boundReg (vget s.seq.binding 0 0) 0) = true
    ∧ A.map (·.1) = [0] ∧ (∀ r ∈ A, ids.toNat / 2 ^ (16 * r.1) % 4096 = 5 ∧ s.team.ridIssued 3 r.1 = 0) := by
  refine ⟨?_, ?_, ?_, ?_, ?_, ?_, ?_, ?_, ?_, ?_, ?_, ?_⟩ <;> decide +kernel
theorem witness_MatrixInstructionsIssueTheirRows_memory : let s := stream0
    let ps := okGet [] (s.tilePlaces (.const 0x10) (.reg 2) 0 ⟨.l, 0x40⟩ .read)
    (1 : BitVec 4).toNat < s.team.accs ∧ (s.team.tile 1).token = none ∧ (0 : BitVec 2).toNat ≤ 2 ∧ Space.l ≠ .p
    ∧ isOk (s.tilePlaces (.const 0x10) (.reg 2) 0 ⟨.l, 0x40⟩ .read) = true ∧ isOk (s.tileRead 4 ps) = true
    ∧ isOk (s.tilePlaces (.const 0x10) (.reg 2) 2 ⟨.g, 0x40⟩ .write) = true := by
  refine ⟨?_, ?_, ?_, ?_, ?_, ?_, ?_⟩ <;> decide +kernel

/-- The oldest row: a product 1 × 1 into element (15, 2), a cleared row, a loaded one, and a seed. -/
def issued (op : RowOp) : State := stream fun q => { q with rows := [{ tile := 1, row := 15, op := op, sfmt := 0, addr := 0, batch := none, queued := false }] }
theorem witness_RowCommitsWriteTheirTileRow : (∀ op ∈ [RowOp.mma false [(0, .fin false 1 0 false)] [(2, [.fin false 1 0 false])] 0 0 16, .zero, .load [(2, 7)] 0, .seed 3],
      ∃ r, ((issued op).teamOf 1).seq.rows = r :: [] ∧ r.op = op ∧ r.queued = false ∧ (r.sfmt.extractLsb' 10 3).toNat ≤ 3
        ∧ (modesOf r.sfmt).rm ≠ 5 ∧ r.row < 16)
    ∧ ([(2, [FVal.fin false 1 0 false])].map (·.1)).Nodup ∧ (∀ e ∈ [(2, [FVal.fin false 1 0 false])], e.1 < 16)
    ∧ ([((2 : Nat), (7 : Nat))].map (·.1)).Nodup ∧ ∀ e ∈ [((2 : Nat), (7 : Nat))], e.1 < 16 := by
  refine ⟨?_, by decide, by decide, by decide, by decide⟩
  intro op h
  simp only [List.mem_cons, List.not_mem_nil, or_false] at h
  rcases h with rfl | rfl | rfl | rfl <;> exact ⟨_, rfl, rfl, rfl, by decide, by decide, by decide⟩

/-- An open batch that counts group 0, on its ledger. -/
def batched : State :=
  { stream (fun q => { q with batches := [⟨7, 3, 1, []⟩] }) with harts := [(.group 1 0, { hart0 with ledger := vset hart0.ledger kMat [(7, false)] })] }
/-- A stream that has joined phase p of barrier 15, which is in phase 9. -/
def joined (p : BitVec 32) : State :=
  onTeam (stream fun q => { q with joined := vset q.joined 15 (some p) }) fun t => { t with bars := vset t.bars 15 ⟨0x41, 0, 9⟩ }
theorem witness_BatchesAndStreamBarriers_mfence : stream0.seq.clause = some (clauseOf 3) ∧ (∀ o ∈ stream0.seq.batches, o.n ≠ 3)
    ∧ stream0.seq.evictAsked = false ∧ stream0.seq.stopAsked = false ∧ (stream0.liveGids stream0.cur.team).Nodup
    ∧ (∀ g ∈ stream0.liveGids stream0.cur.team, (stream0.hartOf (.group stream0.cur.team g)).counter kMat < 65535)
    ∧ stream0.team.formatsOk = true ∧ stream0.liveGids stream0.cur.team = [0] ∧ ∃ o ∈ batched.seq.batches, o.n = 3 := by decide +kernel
theorem witness_BatchesAndStreamBarriers_barriers : (let s := onTeam stream0 fun t => { t with bars := vset t.bars 15 ⟨0x41, 0, 9⟩ }
      (vget s.team.bars 15 ⟨0, 0, 0⟩).cfg.getLsbD 6 = true ∧ s.seq.arrivals = [] ∧ s.seq.batches = [])
    ∧ (batched.seq.batches ≠ [] ∧ batched.seq.arrivals = [])
    ∧ (∀ o ∈ (joined 8).seq.arrivals, o.barrier ≠ 15) ∧ vget (joined 8).seq.joined 15 none = some 8 ∧ (vget (joined 8).team.bars 15 ⟨0, 0, 0⟩).ph = 9
    ∧ (∀ o ∈ (joined 9).seq.arrivals, o.barrier ≠ 15) ∧ vget (joined 9).seq.joined 15 none = some 9 ∧ (vget (joined 9).team.bars 15 ⟨0, 0, 0⟩).ph = 9 := by
  decide +kernel
theorem witness_BatchesAndStreamBarriers_close : batched.seq.batches = ⟨7, 3, 1, []⟩ :: [] ∧ batched.seq.arrivals = [] ∧ (∀ r ∈ batched.seq.rows, r.batch ≠ some 7)
    ∧ (∀ p ∈ batched.team.sent, p.2.2 ≠ 0) ∧ (1 : Word32).getLsbD 0 = true
    ∧ (batched.hartOf (.group batched.cur.team 0)).live = true ∧ vget (batched.hartOf (.group batched.cur.team 0)).ledger kMat [] = [(7, false)] := by decide +kernel
theorem witness_BatchesAndStreamBarriers_adapters : 1 ≤ (1 : BitVec 7).toNat ∧ (64 : BitVec 7).toNat ≤ 64
    ∧ (streamValue stream0 (.const 0x10)).toNat = 0 ∧ (streamValue stream0 (.reg 1)).toNat % 4096 ≠ 0 ∧ (streamValue stream0 (.reg 1)).toNat < 4096
    ∧ 16 ∉ stream0.seq.members ∧ (∀ o ∈ stream0.seq.batches, 16 ∉ o.adapters)
    ∧ (stream0.coreOf stream0.team.core).segs.length + (stream0.coreOf stream0.team.core).fetches.length + 64 ≤ 128
    ∧ 16 ∈ (stream fun q => { q with members := [16] }).seq.members := by decide +kernel
theorem witness_BatchesAndStreamBarriers_add : let s := stream0
    (1 : BitVec 6).toNat < s.team.accs ∧ (s.team.tile 1).token = none
    ∧ s.tilePlaces (.const 0x10) (.reg 2) 0 ⟨.l, 0x40⟩ .write = .ok [(0, 0, ⟨.spad s.cur.team 0x40, false⟩, 0x00D0000000000040)]
    ∧ (issued .zero).seq.rows ≠ [] ∧ s.seq.rows = []
    ∧ s.tileRead 4 [(0, 0, ⟨.spad s.cur.team 0x40, false⟩, 0x00D0000000000040)] = .ok [(0, 0, 0)] ∧ s.away s.cur.team = false ∧ s.team.absent = false
    ∧ s.inFold s.team.core s.cur.team 0x40 4 = false ∧ s.team.syncs = [] ∧ s.team.mem.wf = true := by
  refine ⟨?_, ?_, ?_, ?_, ?_, ?_, ?_, ?_, ?_, ?_, ?_⟩ <;> decide +kernel

/-! ## Classes 6 and 4 -/

/-- Tile 3's token free, with another group, with a stream that has rows of it, and the focus's own. -/
def tokened (tok : Option Nat) (rows : List IssuedRow) : State :=
  onTeam base fun t => { t with acc := mset 3 { t.tile 3 with token := tok } t.acc, seq := { t.seq with rows := rows } }
def row3 : IssuedRow := { tile := 3, row := 0, op := .zero, sfmt := 0, addr := 0, batch := none, queued := false }
theorem witness_TokenInstructionResults : (∀ s ∈ [tokened none [], tokened (some 1) [], tokened none [row3], tokened (some 0) []],
      s.cur.unit = .group ∧ s.opnd (.const 0x13) = .ok 3 ∧ (3 : Word64).toNat < s.team.accs)
    ∧ ((tokened none []).team.tile 3).token = none ∧ (∀ q ∈ (tokened none []).team.seq.rows, 3 ∉ q.tiles) ∧ (tokened none []).heldRegs 28 4 = .ok ()
    ∧ ((tokened (some 1) []).team.tile 3).token ≠ some (tokened (some 1) []).cur.gid ∧ ((tokened (some 1) []).team.tile 3).token ≠ none
    ∧ (((tokened none [row3]).team.tile 3).token = none ∧ ∃ q ∈ (tokened none [row3]).team.seq.rows, 3 ∈ q.tiles)
    ∧ ((tokened (some 0) []).team.tile 3).token = some (tokened (some 0) []).cur.gid := by decide +kernel

/-- Barrier 15 with a count of two expected. -/
def barred (bar : Barrier) (pend : Option (BitVec 32)) : State :=
  onTeam (onHart base fun h => { h with pend := vset h.pend 15 pend }) fun t => { t with bars := vset t.bars 15 bar }
theorem witness_BarrierInstructionResults_bari : base.cur.unit = .group ∧ base.opnd (.const 0x12) = .ok 2
    ∧ ((0xFF60 : Word64).toNat < 2 ^ 16 ∧ (0xFF60 : Word64).getLsbD 7 = false ∧ ((0xFF60 : Word64).extractLsb' 0 6).toNat ≤ 32)
    ∧ ((2 : Word64).toNat < 2 ^ 16 ∧ (2 : Word64).getLsbD 7 = false ∧ ((2 : Word64).extractLsb' 0 6).toNat ≤ 32)
    ∧ (let s := barred ⟨2, 0, 9⟩ none; (vget s.team.bars 15 ⟨0, 0, 0⟩).a = 0 ∧ s.barWaiter 15 = false)
    ∧ (vget (barred ⟨2, 1, 9⟩ none).team.bars 15 ⟨0, 0, 0⟩).a ≠ 0 ∧ base.path.grant = none ∧ (vget base.team.bars 0 ⟨0, 0, 0⟩).cfg = 0 := by decide +kernel
theorem witness_BarrierInstructionResults_waits : ∀ c ∈ [(barred ⟨2, 0, 9⟩ (some 8), false, false), (barred ⟨2, 0, 9⟩ none, true, false), (barred ⟨2, 1, 9⟩ none, true, true)],
    let b := vget c.1.team.bars 15 ⟨0, 0, 0⟩
    let X := (b.cfg.extractLsb' 0 6).toNat + (b.cfg.extractLsb' 6 1).toNat + (b.cfg.extractLsb' 8 8).toNat
    c.1.cur.unit = .group ∧ X ≠ 0 ∧ c.1.drained .team = .ok () ∧ c.1.path.grant = none ∧ c.1.path.arrived = false
    ∧ decide ((vget c.1.hart.pend 15 none).getD b.ph = b.ph) = c.2.1 ∧ decide (b.a + 1 = X) = c.2.2 := by
  intro c h
  simp only [List.mem_cons, List.not_mem_nil, or_false] at h
  rcases h with rfl | rfl | rfl <;> refine ⟨?_, ?_, ?_, ?_, ?_, ?_, ?_⟩ <;> decide +kernel

/-- A synchronisation word at offset 16: total 2, count 5, generation 3. -/
def synced : State := onTeam base fun t => { t with mem := t.mem.write 16 (leBytes 4 2 ++ leBytes 4 5 ++ leBytes 4 3) }
theorem witness_WaitAndStatusResults : base.cur.unit = .group ∧ base.opnd (.reg 3) = .ok 0x40 ∧ base.opnd (.reg 1) = .ok 7
    ∧ base.hart.counter 7 ≤ (0 : BitVec 7).toNat
    ∧ (0 : BitVec 7).toNat < (onHart base fun h => { h with ledger := vset h.ledger 7 [(0, false)] }).hart.counter 7 ∧ base.drained .dev = .ok ()
    ∧ (7 : Word64).toNat % 16 ≠ 0 ∧ base.hart.spadPending = false
    ∧ (let s := onHart synced fun h => { h with s := vset h.s 4 16 }
       s.opnd (.reg 4) = .ok 16 ∧ 16 + 16 ≤ s.team.spadBytes ∧ s.hart.spadPending = false ∧ s.team.mem.wf = true ∧ s.team.mem.nat 16 4 = 2
       ∧ ((5 : BitVec 32) - (5 : Word64).setWidth 32).toNat < 2 ^ 31 ∧ 2 ^ 31 ≤ ((5 : BitVec 32) - (7 : Word64).setWidth 32).toNat) := by decide +kernel

/-- Two rows of 16 bytes, from global memory to offset 0x40. -/
theorem witness_GatherAndCollectiveStart_gath : let s := typed 2 2
    let agt : Agt := ⟨s.cur.team, 33 + 2 * s.team.nextJob, some s.cur.gid, s.hart.sys⟩
    s.cur.unit = .group ∧ s.hart.region = none ∧ s.opnd (.reg 3) = .ok 0x40 ∧ s.vc.sew = 32 ∧ s.vc.selOk .none = true ∧ s.vc.regOk 3 s.vc.lmul = true
    ∧ s.heldRegs 3 s.vc.lmul = .ok () ∧ s.hart.counter kGath < 65535 ∧ actives s .none = [0, 1]
    ∧ (∀ i ∈ actives s .none, (0x40 + BitVec.ofNat 64 (i * 16) : Word64).toNat % 4 = 0 ∧ (0x40 + BitVec.ofNat 64 (i * 16) : Word64).toNat + 16 ≤ s.team.spadBytes)
    ∧ isOk (s.engRow agt .read 12 0x40 16) = true ∧ isOk (s.engRow agt .write 12 0x40 16) = true ∧ s.hart.elem s.vc.vlen 3 32 0 = 0 := by
  refine ⟨?_, ?_, ?_, ?_, ?_, ?_, ?_, ?_, ?_, ?_, ?_, ?_, ?_⟩ <;> decide +kernel

/-- A descriptor at 0x40 for a sum of one FP32 element over devices 0 and 1, and its peer list at 0x3000. -/
def collective : State :=
  let s := poke8 (poke8 (poke8 (poke8 base 0x40000040 0x1000) 0x40000048 0x2000) 0x40000050 0x3000) 0x40000058 0x4000
  poke8 (poke8 (poke8 s 0x40000060 0x100000001) 0x40000068 2) 0x40003000 0x10000
def collBytes : List Byte := okGet [] (collective.readSpan 0x40 64)
def collPeers : List Byte := okGet [] (collective.readSpan 0x3000 4)
theorem witness_GatherAndCollectiveStart_coll : let desc := collDesc (bytesToBits 512 collBytes)
    collective.opnd (.reg 3) = .ok 0x40 ∧ collective.drained .sys = .ok () ∧ (0x40 + BitVec.signExtend 64 (0 : BitVec 30) : Word64).toNat % 64 = 0
    ∧ isOk (collective.readSpan 0x40 64) = true ∧ desc.ok false = true ∧ desc.peers = 0x3000 ∧ desc.n = 2 ∧ isOk (collective.readSpan 0x3000 4) = true
    ∧ peersOk collective.fabric.device.toNat desc (peersOf collPeers) = true ∧ isOk (collective.collInput desc) = true
    ∧ collective.hart.counter kColl < 65535 ∧ collective.fabric.colls = [] ∧ collective.fabric.aborts = [] := by
  refine ⟨?_, ?_, ?_, ?_, ?_, ?_, ?_, ?_, ?_, ?_, ?_, ?_, ?_⟩ <;> decide +kernel

end Sys2Proof.Tests
end

