-- ==== Sys2Proof/Tests/WitnessLaunch.lean ====
section
/-! SUPPORT. Witnesses for the statements about the Drover, placement, the Bellwether and pre-emption: a concrete state and operands that meet the hypotheses of each clause. -/

set_option Elab.async false -- one evaluation at a time: each holds a thread

namespace Sys2Proof.Tests
open Sys2Proof.Machine Sys2Proof.Claims

/-! ## Commands -/

def queue0 : Queue := ⟨5, 4, 1, 0x4F000, 0x50000, 11, 4⟩
/-- A LAUNCH of one node at 0x60000, with its status area and its done word. -/
def cmd0 (tag done : Nat) : BitVec 512 := BitVec.ofNat 512 (1 + tag * 2 ^ 32 + 0x60000 * 2 ^ 64 + 2 ^ 128 + 0x70000 * 2 ^ 192 + done * 2 ^ 256)
/-- A launch table of one node: words 0, 8, 24 and 232 on of its record. -/
def tableAt (w0 w8 code at_ : Nat) : State :=
  let s := poke8 (poke8 (poke8 base 0x40060000 w0) 0x40060008 w8) 0x40060018 code
  poke8 s 0x400600E8 at_
/-- Thread 2 in a state. -/
def thread (st : DroverState) (cmd : BitVec 512) (held : List NodeRun) (s : State) : State := (s.setQueue 2 queue0).setDrover 2 ⟨st, cmd, held⟩
/-- Is a read of the device's own answered, refused, or still to be asked for? -/
def faults {α : Type} (r : Except DevErr α) : Bool := match r with | .error (.fault _) => true | _ => false
def asks {α : Type} (r : Except DevErr α) : Bool := match r with | .error (.ask _) => true | _ => false
/-- The third GiB of ASID 1 lies on device 1, to which there is a route. -/
def elsewhere (s : State) : State :=
  { poke8 s 0x20010 (2 ^ 63 + 2 ^ 62 + 2 ^ 42 + 0x3C) with fabric := { s.fabric with routes := [(4, 2 ^ 63 + 2 ^ 60)] } }
/-- The code of a command's check, where what it reads is at hand. -/
def codeOf (s : State) (key asid mp : Nat) (cmd : BitVec 512) : Option Nat := match s.checkLaunch key asid mp cmd with | .ok c => some c.1 | .error _ => none
def marker0 : State := tableAt 0x30000 0 0 0x4000
/-- Four live launches of queue 2. -/
def launch0 (id : Nat) (queue : Option Nat) (nodes : List NodeRun) : Launch := ⟨id, 0, queue, 1, 9, 0x60000, 0x70000, 0x71000, nodes, none, 0⟩
def four (s : State) : State := { s with launches := [1, 2, 3, 4].map fun n => (n, launch0 n (some 2) []), nextLaunch := 5 }
theorem witness_LaunchAndPlacementResults_threads : (let s := { thread .idle 0 [] base with waits := [(2, 5)] }
      (2, (5 : Word32)) ∈ s.waits ∧ (s.drover 2).st = .idle ∧ (s.queueOf 2).lsize ≠ 0)
    ∧ (let s := thread .fetch 0 [] base; (s.drover 2).st = .fetch ∧ (s.queueOf 2).rindex ≠ (s.queueOf 2).windex ∧ (s.queueOf 2).lsize ≠ 0
       ∧ isOk (s.vfetch 2 1 true (0x50000 + 64 * (4 % 2 ^ 4)) 64) = true
       ∧ faults ((s.setQueue 2 { queue0 with ring := 0x40000000 }).vfetch 2 1 true (0x40000000 + 64 * (4 % 2 ^ 4)) 64) = true
       ∧ asks (((elsewhere s).setQueue 2 { queue0 with ring := 0x80000000 }).vfetch 2 1 true (0x80000000 + 64 * (4 % 2 ^ 4)) 64) = true)
    ∧ ((thread .fetch 0 [] base).setQueue 2 { queue0 with rindex := 5 } |>.queueOf 2).rindex = ((thread .fetch 0 [] base).queueOf 2).windex
    ∧ ((thread .check 0 [] base).drover 2).st = .check ∧ commandField ((thread .check 0 [] base).drover 2).cmd 0 4 = 0 := by decide +kernel
theorem witness_LaunchAndPlacementResults_refused : (∀ done ∈ [0, 0x71000], let s := thread .check (cmd0 9 done) [] (tableAt 0x40000 0 0 0x4000)
      (s.drover 2).st = .check ∧ commandField (s.drover 2).cmd 0 4 ≠ 0 ∧ codeOf s (tableKey 2) 1 11 (s.drover 2).cmd = some 2 ∧ commandField (s.drover 2).cmd 32 8 = done)
    ∧ 0x71000 % 8 = 0 ∧ isOk (((thread .check (cmd0 9 0x71000) [] (tableAt 0x40000 0 0 0x4000)).forgetDevice (tableKey 2)).vwrite 1 true 0x71000 (leBytes 8 (9 * 2 ^ 32 + 2 * 2 ^ 8 + 3))) = true
    ∧ (match (elsewhere base).checkLaunch (tableKey 2) 1 11 (BitVec.ofNat 512 (1 + 0x80000000 * 2 ^ 64 + 2 ^ 128)) with | .error _ => true | .ok _ => false) = true := by
  decide +kernel
theorem witness_LaunchAndPlacementResults_started : (∀ s ∈ [marker0, four marker0], let t := thread .check (cmd0 9 0x71000) [] s
      (t.drover 2).st = .check ∧ commandField (t.drover 2).cmd 0 4 ≠ 0 ∧ (t.queueOf 2).asid = 1 ∧ (t.queueOf 2).maxprio = 11
      ∧ codeOf t (tableKey 2) 1 11 (t.drover 2).cmd = some 0)
    ∧ (thread .full 0 [] marker0).liveOf 2 < 4 ∧ 4 ≤ (thread .full 0 [] (four marker0)).liveOf 2 ∧ ((thread .full 0 [] base).drover 2).st = .full := by
  refine ⟨fun s h => ?_, ?_⟩
  · rcases List.mem_pair.mp h with rfl | rfl <;> decide +kernel
  · decide +kernel
/-- The checks of a table that can be read: it is broken, names a predecessor too few, a node that follows itself, a prio above the queue's, a header that cannot be read. -/
def judged (s : State) : State × List Checked := (s, okGet [] (s.readTable 8 1 (okGet [] (s.vfetch 8 1 true 0x60000 256)) 1))
theorem witness_LaunchAndPlacementResults_checks : (∀ s ∈ [marker0, tableAt 0x10000030001 0x10 0 0x4000, tableAt 0x1000000030001 0 0 0x4000, tableAt 0x500030000 0 0 0x4000, tableAt 0 0 0x40000000 0],
      codeOf s 8 1 4 (cmd0 9 0) ≠ none ∧ codeOf s 8 1 4 (cmd0 9 0) ≠ some 1 ∧ (s.ctx 1).valid = true ∧ isOk (s.vfetch 8 1 true 0x60000 256) = true
      ∧ isOk (s.readTable 8 1 (okGet [] (s.vfetch 8 1 true 0x60000 256)) 1) = true)
    ∧ (judged (tableAt 0x10000030001 0x10 0 0x4000)).2.any Checked.bad = true
    ∧ (let cs := (judged (tableAt 0x30001 0 0 0x4000)).2
       cs.any Checked.bad = false ∧ (∀ c ∈ cs, c.header = none) ∧ recordsBad cs = false ∧ (∀ c ∈ cs, c.node.pred ≠ (cs.flatMap fun x => x.node.succ).count 0))
    ∧ (let cs := (judged (tableAt 0x1000000030001 0 0 0x4000)).2
       cs.any Checked.bad = false ∧ (∀ c ∈ cs, c.header = none) ∧ recordsBad cs = false
       ∧ ∀ c ∈ cs, c.node.pred = (cs.flatMap fun x => x.node.succ).count 0 ∧ 0 ∈ c.node.succ)
    ∧ (∃ c ∈ (judged (tableAt 0x500030000 0 0 0x4000)).2, 4 < c.node.prio)
    ∧ (∀ c ∈ (judged (tableAt 0 0 0x40000000 0)).2, c.header.map (fun h => isOk h) = some false)
    ∧ (base.ctx 2).valid = false ∧ faults (base.vfetch 8 2 true 0x60000 256) = true ∧ codeOf base 8 2 4 (cmd0 9 0) = some 9 := by
  refine ⟨fun s h => ?_, ?_, ?_, ?_, ?_, ?_, ?_, ?_, ?_⟩
  · simp only [List.mem_cons, List.not_mem_nil, or_false] at h
    rcases h with rfl | rfl | rfl | rfl | rfl <;> decide +kernel
  all_goals decide +kernel

/-! ## The ready pool -/

def node0 (kind : Nat) (tendered : Bool) (prio : Nat) (kparm : BitVec 128) : Node :=
  ⟨0, kind, tendered, prio, 0, [], 0, Vector.replicate 15 0, Vector.replicate 16 0, 0x71008, 0x72000, [], kparm, [0, 0, 0, 0]⟩
def header0 (gang : Bool) : Header := ⟨1, 0, 2, 64, 4, gang, [⟨true, 1, 4, 4, 0x1000, false⟩], 0, 0, 1, 0⟩
def run0 (n : Node) (gang : Bool) (status : NodeStatus) (ended : Nat) (trapped : Bool) : NodeRun :=
  ⟨n, header0 gang, status, 0, 0, 0, 0, ended, 0, trapped, false, [], 0⟩
/-- Launch 1 with one node, and the entries of the ready pool. -/
def pooled (r : NodeRun) (ready : List ReadyTeam) : State :=
  { base with launches := [(1, launch0 1 none [r])], nextLaunch := 2, ready := ready }
def entry0 (prio : Nat) (awarded : Option (Nat × Nat)) : ReadyTeam := ⟨1, 0, 0, 2, prio, 0, 0, 0, awarded⟩
/-- Every kind of node, ready. -/
theorem witness_LaunchAndPlacementResults_dispatch : (∀ r ∈ [run0 (node0 0 false 5 0) false .ready 0 false, run0 (node0 0 true 5 0) false .ready 0 false, run0 (node0 1 false 5 0x30000000000001000) false .ready 0 false,
      run0 (node0 1 false 5 0x30000000040000000) false .ready 0 false, run0 (node0 2 false 5 8) false .ready 0 false, run0 (node0 3 false 5 0x90000000000004000) false .ready 0 false],
      let s := pooled r []
      mfind 1 s.launches = some (launch0 1 none [r]) ∧ (launch0 1 none [r]).nodes[0]? = some r ∧ r.status = .ready ∧ (∀ z ∈ s.ready, ¬ (z.launch = 1 ∧ z.node = 0)) ∧ s.displaces r = false)
    ∧ isOk ((nearTables (pooled (run0 (node0 1 false 5 0x30000000000001000) false .ready 0 false) [])).startBank (nodeKey 1 0) 3 1 false 5 (some (1, 0)) 0x1000) = true
    ∧ faults ((pooled (run0 (node0 1 false 5 0x30000000040000000) false .ready 0 false) []).startBank (nodeKey 1 0) 3 1 false 5 (some (1, 0)) 0x40000000) = true
    ∧ asks ((elsewhere (pooled (run0 (node0 1 false 5 0x30000000080000000) false .ready 0 false) [])).startBank (nodeKey 1 0) 3 1 false 5 (some (1, 0)) 0x80000000) = true
    ∧ isOk (State.collNode collective 1 0 1 (run0 (node0 2 false 5 0x40) false .ready 0 false)) = true
    ∧ asks (State.collNode (elsewhere collective) 1 0 1 (run0 (node0 2 false 5 0x80000000) false .ready 0 false)) = true
    ∧ (8 : Nat) % 64 ≠ 0 ∧ isOk ((pooled (run0 (node0 3 false 5 0x4000) false .ready 0 false) []).vwrite 1 true 0x4000 (leBytes 8 9)) = true := by
  refine ⟨fun s h => ?_, ?_, ?_, ?_, ?_, ?_, ?_, ?_⟩
  · simp only [List.mem_cons, List.not_mem_nil, or_false] at h
    rcases h with rfl | rfl | rfl | rfl | rfl | rfl <;> decide +kernel
  all_goals decide +kernel
/-- A team of prio 5 that waits: core 1 is the lowest core without a team that is no reserve core. -/
def waits0 : State := pooled (run0 (node0 0 false 5 0) false .ready 0 false) [entry0 5 none]
theorem witness_LaunchAndPlacementResults_place : waits0.ready[0]? = some (entry0 5 none) ∧ waits0.spillRoom 1 (header0 false) = true ∧ waits0.poolPending = false
    ∧ (∀ z ∈ waits0.ready, z.awarded = none → z.prio = 5 → 0 ≤ z.order) ∧ waits0.higherFirst 5 = false ∧ waits0.backFirst 5 = false
    ∧ waits0.roomOn 1 1 5 (header0 false) Less.none = some 0 ∧ waits0.imagesAsk (nodeKey 1 0) 1 (header0 false) = [] := by
  refine ⟨?_, ?_, ?_, ?_, ?_, ?_, ?_, ?_⟩ <;> decide +kernel
/-- The same of a context whose record is not valid, and a gang that fits or does not. -/
def ganged (grid : Nat) : State := pooled { run0 (node0 0 false 5 0) true .ready 0 false with header := { header0 true with grid := grid } } [{ entry0 5 none with left := grid }]
theorem witness_LaunchAndPlacementResults_invalid_and_gang : (let s := { waits0 with launches := [(1, { launch0 1 none [run0 (node0 0 false 5 0) false .ready 0 false] with asid := 2 })] }
      s.ready[0]? = some (entry0 5 none) ∧ (s.ctx 2).valid = false ∧ s.poolPending = false ∧ s.firstOfPrio (entry0 5 none) = true ∧ s.higherFirst 5 = false ∧ s.backFirst 5 = false)
    ∧ (∀ n ∈ [2, 5000], let s := ganged n; let e := { entry0 5 none with left := n }
        s.ready[0]? = some e ∧ (s.ctx 1).valid = true ∧ s.poolPending = false ∧ s.firstOfPrio e = true ∧ s.higherFirst 5 = false ∧ s.backFirst 5 = false
        ∧ (s.placeGang e).2 = decide (n = 2))
    ∧ (ganged 2).imagesAsk (nodeKey 1 0) 1 { header0 true with grid := 2 } = [] := by
  refine ⟨?_, fun n h => ?_, ?_⟩
  · decide +kernel
  · rcases List.mem_pair.mp h with rfl | rfl <;> decide +kernel
  · decide +kernel
theorem witness_LaunchAndPlacementResults_best : ∀ d < 288, ∀ p, waits0.roomOn d 1 5 (header0 false) Less.none = some p →
    waits0.freeBlocks d ≤ waits0.freeBlocks 1 ∧ (d < 1 → waits0.freeBlocks d < waits0.freeBlocks 1) := by
  have h : ∀ d < 288, waits0.freeBlocks d ≤ waits0.freeBlocks 1 := by decide +kernel
  have h0 : waits0.roomOn 0 1 5 (header0 false) Less.none = none := by decide +kernel
  intro d hd p hp
  refine ⟨h d hd, fun h1 => ?_⟩
  obtain rfl : d = 0 := by omega
  rw [h0] at hp
  cases hp
/-- An accepted award of unit 16 of core 1, and the report word. -/
def awarded0 : State := pooled (run0 (node0 0 true 5 0) false .running 0 false) [entry0 5 (some (1, 16))]
theorem witness_LaunchAndPlacementResults_award : awarded0.ready[0]? = some (entry0 5 (some (1, 16))) ∧ awarded0.spillRoom 1 (header0 false) = true
    ∧ (awarded0.coreOf 1).portRoom = true ∧ awarded0.imagesAsk (nodeKey 1 0) 1 (header0 false) = []
    ∧ isOk ((awarded0.placeTeam 1 16 1 (node0 0 true 5 0) (header0 false) 1 0 0 (some 0)).1.vwrite 1 true (0x72000 + 8 * 0) (leBytes 8 (2 ^ 63 + 16 * 2 ^ 32 + 1))) = true := by
  refine ⟨?_, ?_, ?_, ?_, ?_⟩ <;> decide +kernel
theorem witness_LaunchAndPlacementResults_complete : (∀ r ∈ [run0 (node0 0 false 5 0) false .running 2 false, run0 (node0 0 false 5 0) false .running 2 true, run0 (node0 3 false 5 0) false .running 1 false],
      let s := { pooled r [] with harts := [] }
      mfind 1 s.launches = some (launch0 1 none [r]) ∧ r.over = true ∧ s.nodeQuiet 1 0 = true ∧ r.node.succ = [] ∧ r.node.tiles = []) := by decide +kernel
/-- A tender in the queue; a window on core 1 with its bids, none yet, and the winner. -/
def belled (bids : Option (List (Nat × Nat))) (winner : Option Nat) (cycle : Nat := 17) : State :=
  { pooled (run0 (node0 0 true 5 0) false .tendered 0 false) [] with
    bell := { State.reset.bell with queue := [entry0 5 none], window := bids.map fun b => ⟨{ entry0 5 none with left := 1 }, b, cycle, 96, winner⟩ } }
theorem witness_LaunchAndPlacementResults_bids : (let s := belled none none
      s.bell.window = none ∧ s.bell.stalled = false ∧ (s.bell.take).isSome = true ∧ ∀ p ∈ s.bell.take, p.1.launch = 1 ∧ p.1.node = 0)
    ∧ (∀ bs ∈ [[], [(1, 5), (2, 5)]], ∀ z ∈ (belled (some bs) none).bell.window, z.winner = none ∧ z.bids = bs ∧ 17 ≤ z.cycle)
    ∧ (∀ z ∈ (belled (some []) none 6).bell.window, z.winner = none ∧ z.cycle < 17 ∧ z.task.launch = 1 ∧ z.task.node = 0)
    ∧ (∀ z ∈ (belled (some [(1, 5)]) (some 1)).bell.window, z.winner = some 1 ∧ z.task.launch = 1 ∧ z.task.node = 0)
    ∧ ((belled (some [(1, 5)]) (some 1)).fitsOn 1 1 5 (header0 false) Less.none).isSome = true
    ∧ (belled (some [(0, 5)]) (some 0)).fitsOn 0 1 5 (header0 false) Less.none = none := by
  refine ⟨?_, ?_, ?_, ?_, ?_, ?_⟩ <;> decide +kernel

/-! ## Urgent teams -/

/-- An urgent team or gang that waits. -/
def urgent0 (gang : Bool) (prio : Nat) : State := pooled (run0 (node0 0 false prio 0) gang .ready 0 false) [entry0 prio none]
theorem witness_PreemptionEventResults_fits : let s := urgent0 false 10
    (mfind 1 s.launches).isSome = true ∧ s.poolPending = false ∧ s.higherFirst 10 = false ∧ s.spillRoom 1 (header0 false) = true
    ∧ s.roomOn 5 1 10 (header0 false) Less.evicted = some 0 ∧ 5 % 36 ∈ [0, 5, 30, 35]
    ∧ s.imagesAsk (nodeKey 1 0) 1 (header0 false) = [] := by
  refine ⟨?_, ?_, ?_, ?_, ?_, ?_, ?_⟩ <;> decide +kernel
theorem witness_PreemptionEventResults_reserve : ∀ d < 288, d % 36 ∈ [0, 5, 30, 35] → ∀ q, (urgent0 false 10).roomOn d 1 10 (header0 false) Less.evicted = some q →
    (urgent0 false 10).freeBlocks d ≤ (urgent0 false 10).freeBlocks 5 ∧ (d < 5 → (urgent0 false 10).freeBlocks d < (urgent0 false 10).freeBlocks 5) := by
  have h : ∀ d < 288, (urgent0 false 10).freeBlocks d ≤ (urgent0 false 10).freeBlocks 5 ∧ (d = 0 → (urgent0 false 10).freeBlocks d < (urgent0 false 10).freeBlocks 5) := by
    decide +kernel
  intro d hd hm q _
  refine ⟨(h d hd).1, fun h5 => (h d hd).2 ?_⟩
  simp only [List.mem_cons, List.not_mem_nil, or_false] at hm
  omega
theorem witness_PreemptionEventResults_gang : let s := urgent0 true 10
    s.poolPending = false ∧ s.higherFirst 10 = false ∧ (s.placeGang (entry0 10 none)).2 = true ∧ (s.ctx 1).valid = true
    ∧ s.imagesAsk (nodeKey 1 0) 1 (header0 true) = [] ∧ (header0 true).gang = true := by
  refine ⟨?_, ?_, ?_, ?_, ?_, ?_⟩ <;> decide +kernel
theorem witness_PreemptionEventResults_invalid : let s := { urgent0 false 10 with launches := [(1, { launch0 1 none [run0 (node0 0 false 10 0) false .ready 0 false] with asid := 2 })] }
    (s.ctx 2).valid = false ∧ s.poolPending = false ∧ s.higherFirst 10 = false ∧ s.ready[0]? = some (entry0 10 none) := by
  refine ⟨?_, ?_, ?_, ?_⟩ <;> decide +kernel
/-- Every table of ports is full but that of core 1, where a team of prio 5 has all register blocks, or an award of launch 2 has them. -/
def crowded (s : State) : State :=
  { s with cores := (List.range 288).map fun c => (c, { Core.reset with ports := if c = 1 then [] else List.replicate 16 port0 }) }
def wide (r : NodeRun) : NodeRun := { r with header := { r.header with roles := [⟨true, 1, 4, 255, 0x1000, false⟩] } }
def evicts0 : State := crowded { urgent0 false 10 with teams := [(1, { team0 with core := 1, roles := [⟨true, 1, 4, 255, 0x1000, false⟩] })] }
theorem no_plan {s : State} {d asid : Nat} {h : Header} (hp : (s.coreOf d).portRoom = false) : s.planOn d asid h = none := by simp [State.planOn, hp]
theorem witness_PreemptionEventResults_nowhere : (∀ d < 288, evicts0.roomOn d 1 10 (header0 false) Less.evicted = none) ∧ evicts0.evicting = false
    ∧ evicts0.poolPending = false ∧ ∀ z ∈ evicts0.ready, z.awarded = none := by
  refine ⟨?_, ?_, ?_, ?_⟩ <;> decide +kernel
theorem one_low : evicts0.lowTeams 1 = [(1, { team0 with core := 1, roles := [⟨true, 1, 4, 255, 0x1000, false⟩] })] := by
  unfold State.lowTeams; exact sorted_one _ _ (by decide +kernel)
theorem witness_PreemptionEventResults_plan : evicts0.planOn 1 1 (header0 false) = some ⟨1, ⟨[], [(1, 0)], true⟩, 1⟩
    ∧ ∀ d < 288, ∀ q, evicts0.planOn d 1 (header0 false) = some q → 1 ≤ q.cost ∧ (d < 1 → 1 < q.cost) := by
  have h1 : evicts0.planOn 1 1 (header0 false) = some ⟨1, ⟨[], [(1, 0)], true⟩, 1⟩ := by
    unfold State.planOn; rw [one_low]; decide +kernel
  have h : ∀ d < 288, d ≠ 1 → (evicts0.coreOf d).portRoom = false := by decide +kernel
  refine ⟨h1, fun d hd q hq => ?_⟩
  by_cases e : d = 1
  · subst e; rw [h1] at hq; cases hq; exact ⟨Nat.le_refl _, fun h => absurd h (Nat.lt_irrefl _)⟩
  · rw [no_plan (h d hd e)] at hq; cases hq
def undoes0 (withdrawals : Nat) : State :=
  let r := wide (run0 (node0 0 true 5 0) false .tendered 0 false)
  crowded { urgent0 false 10 with
    launches := [(1, launch0 1 none [run0 (node0 0 false 10 0) false .ready 0 false]), (2, { launch0 2 none [r] with tenderer := some (1, 0) })], nextLaunch := 3,
    ready := [entry0 10 none, { entry0 5 (some (1, 16)) with launch := 2, withdrawals := withdrawals }] }
theorem witness_PreemptionEventResults_undo : ∀ w ∈ [0, 1], let s := undoes0 w
    (∀ d < 288, s.roomOn d 1 10 (header0 false) Less.evicted = none) ∧ s.poolPending = false ∧ s.higherFirst 10 = false ∧ (s.undoAward 1).spot (entry0 10 none) = some (1, 0)
    ∧ (mfind 2 s.launches).bind Launch.tenderer = some (1, 0) ∧ (s.hartOf (.group 1 0)).live = true ∧ 1 ≠ s.nextTeam ∧ (s.hartOf (.group 1 0)).causes.length < 8 := by
  intro w h
  rcases List.mem_pair.mp h with rfl | rfl <;> refine ⟨?_, ?_, ?_, ?_, ?_, ?_, ?_, ?_⟩ <;> decide +kernel

/-! ## Eviction and return -/

/-- A suspended group that is to be evicted, alone or with a second one; its spill store is mapped, or not. -/
def leaving (spbase : Word64) (others : Bool) (st : SeqState) : State :=
  let s := onTeam base fun t => { t with seq := { t.seq with st := st } }
  let h : Hart := { hart0 with held := 0, evictAsked := true, spbase := spbase, p0 := { hart0.p0 with susp := some (.token 3) } }
  { s with harts := (.group 1 0, h) :: if others then [(.group 1 1, { hart0 with spbase := 0x130000 })] else [] }
/-- What a suspended path executed is marked to execute again, as it is saved. -/
def replayed (s : State) : State := onHart s fun h => { h with p0 := { h.p0 with replay := true }, p1 := { h.p1 with replay := false } }
theorem witness_PreemptionEventResults_evict : (∀ s ∈ [leaving 0x110000 false .stopped, leaving 0x110000 false .running, leaving 0x110000 true .stopped], let h := s.hartOf (.group 1 0)
      h.live = true ∧ h.evicted = false ∧ h.evictAsked = true ∧ h.evictable = true ∧ h.region = none ∧ (s.teamOf 1).absent = false ∧ (s.coreOf 0).hold = [] ∧ s.posted = [])
    ∧ isOk ((replayed (leaving 0x110000 false .stopped)).saveGroup 1 0) = true ∧ isOk ((replayed (leaving 0x40010000 false .stopped)).saveGroup 1 0) = false
    ∧ ((leaving 0x110000 false .running).teamOf 1).seq.st = .running
    ∧ (∃ j ∈ (leaving 0x110000 true .stopped).liveGids 1, j ≠ 0 ∧ ((leaving 0x110000 true .stopped).hartOf (.group 1 j)).evicted = false)
    ∧ (∀ j ∈ (leaving 0x110000 false .stopped).liveGids 1, j ≠ 0 → ((leaving 0x110000 false .stopped).hartOf (.group 1 j)).evicted = true)
    ∧ (base.hartOf (.group 1 0)).evictAsked = false := by
  refine ⟨fun s h => ?_, ?_, ?_, ?_, ?_, ?_, ?_⟩
  · simp only [List.mem_cons, List.not_mem_nil, or_false] at h
    rcases h with rfl | rfl | rfl <;> refine ⟨?_, ?_, ?_, ?_, ?_, ?_, ?_, ?_⟩ <;> decide +kernel
  all_goals decide +kernel
/-- The group is evicted, and its team with it or not. -/
def gone0 (absent : Bool) : State :=
  let s := poke8 base 0x40030000 65536
  let s := s.setCoreOf 0 { s.coreOf 0 with ports := [{ port0 with ring := 0x30000, absent := absent }] }
  onTeam (onHart s fun h => { h with evicted := true }) fun t => { t with absent := absent, seq := { t.seq with st := if absent then .saved else .stopped } }
theorem witness_PreemptionEventResults_restore : ((gone0 true).takesBack 1 2).isSome = true ∧ (gone0 true).higherFirst 5 = false ∧ (gone0 true).higherBack 5 = false
    ∧ ((gone0 true).teamOf 1).bounced = [] ∧ ((gone0 true).teamOf 1).seq.st = .saved
    ∧ (gone0 true).ringReady 1 = true ∧ (gone0 true).entryOf 1 ≠ none ∧ (∀ j ∈ (gone0 true).liveGids 1, (((gone0 true).liveGids 1).map fun j => popcount ((gone0 true).hartOf (.group 1 j)).held.toNat 4).sum
        ≤ ((gone0 true).teamOf 1).budgetOf ((gone0 true).hartOf (.group 1 j)).role)
    ∧ (let s := gone0 false
       (s.teamOf 1).live = true ∧ (s.teamOf 1).absent = false ∧ (s.ctx 1).valid = true ∧ 0 ∈ s.liveGids 1 ∧ (s.hartOf (.group 1 0)).evicted = true
       ∧ s.groupRoom 0 ⟨1, popcount (s.hartOf (.group 1 0)).held.toNat 4, 0⟩ Less.evicted = true ∧ s.higherFirst 5 = false ∧ s.higherBack 5 = false
       ∧ s.blocksBack 1 0 = true ∧ isOk (s.loadGroup 1 0) = true ∧ (okGet hart0 (s.loadGroup 1 0)).region = none) := by
  refine ⟨?_, ?_, ?_, ?_, ?_, ?_, ?_, ?_, ?_, ?_, ?_, ?_, ?_, ?_, ?_, ?_, ?_, ?_, ?_⟩ <;> decide +kernel

end Sys2Proof.Tests
end

