-- ==== Sys2Proof/Tests/WitnessMem.lean ====
section
/-! SUPPORT. Witnesses for the statements about class 2: a concrete state and operands that meet the hypotheses of each clause. -/

set_option Elab.async false -- one evaluation at a time: each holds a thread

namespace Sys2Proof.Tests
open Sys2Proof.Machine Sys2Proof.Claims

/-- Room where the counters stand below their limits and no region is open. -/
theorem room_of (s : State) (op : SQOp) (st fab rel : Bool) (h : s.hart.region = none) (h1 : s.hart.counter kSt < 65535)
    (h2 : s.hart.counter kFab < 65535) : Room s op st fab rel :=
  ⟨fun _ => h1, fun _ => h2, fun r hr => by rw [h] at hr; cases hr⟩

theorem witness_ScalarLoadResults : base.opnd (.reg 3) = .ok 0x40
    ∧ (∃ w, base.find aLoad .all 0x48 8 8 = .ok w ∧ base.form .g 0x40 (BitVec.signExtend 64 (8 : BitVec 30)) = .ok 0x48 ∧ isOk ((base.evictFor (w.loads 0x48) 8).load w 0x48 8 false) = true
        ∧ base.form .g 0x40 (BitVec.signExtend 64 (8 : BitVec 27)) = .ok 0x48 ∧ isOk ((base.evictFor (w.loads 0x48) 8).load w 0x48 8 true) = true)
    ∧ ∃ w, base.find aLoad .all 0x00D0000000000048 8 8 = .ok w
        ∧ base.form .l 0x40 (BitVec.signExtend 64 (8 : BitVec 30)) = .ok 0x00D0000000000048 ∧ isOk ((base.evictFor (w.loads 0x00D0000000000048) 8).load w 0x00D0000000000048 8 false) = true :=
  ⟨by decide +kernel, ⟨.mem ⟨.home 1681481093192, false⟩, by decide +kernel⟩, ⟨.mem ⟨.spad 1 0x48, false⟩, by decide +kernel⟩⟩
/-- The last eight bytes of the allocation. -/
theorem witness_LoadOfTheAllocationReadsItsBytes : let e := ((0x40 : Word64) + BitVec.signExtend 64 (0xFFB8 : BitVec 30)).toNat
    base.onBank = false ∧ base.opnd (.reg 3) = .ok 0x40 ∧ e + 8 = base.team.spadBytes ∧ base.team.spadBytes ≤ 2 ^ 20 ∧ e % 8 = 0
    ∧ base.hart.sq = [] ∧ base.hart.near = [] ∧ base.hart.region = none ∧ base.team.markedAt e 8 = false
    ∧ base.putAhead base.hart (.spad base.cur.team e) 8 = false := by decide +kernel

theorem witness_ScalarStoreEffects_memory : base.opnd (.reg 3) = .ok 0x40 ∧ base.opnd (.reg 1) = .ok 7
    ∧ base.form .l 0x40 (BitVec.signExtend 64 (8 : BitVec 30)) = .ok 0x00D0000000000048
    ∧ base.form .l 0x40 (BitVec.signExtend 64 (8 : BitVec 27)) = .ok 0x00D0000000000048
    ∧ base.onBank = false ∧ base.find aStore .all 0x00D0000000000048 8 8 = .ok (.mem ⟨.spad 1 0x48, false⟩)
    ∧ ∀ op rel, Room base op true false rel :=
  ⟨by decide +kernel, by decide +kernel, by decide +kernel, by decide +kernel, by decide +kernel, by decide +kernel,
    fun op rel => room_of base op true false rel (by decide +kernel) (by decide +kernel) (by decide +kernel)⟩
/-- A template word, and a start of channel 31. -/
theorem witness_ScalarStoreEffects_aperture : let s := onHart base fun h => { h with s := vset h.s 4 0x00F0000010000008 }
    s.opnd (.reg 4) = .ok 0x00F0000010000008 ∧ s.form .g 0x00F0000010000008 0 = .ok 0x00F0000010000008
    ∧ s.find aStore .all 0x00F0000010000008 8 8 = .ok .ap ∧ s.apertureStore 0x00F0000010000008 8 7 = .ok (.template 8 7)
    ∧ s.find aStore .all 0x00F00000000000F8 8 8 = .ok .ap ∧ s.apertureStore 0x00F00000000000F8 8 0x2000 = .ok (.copyStart 31 0x2000)
    ∧ s.onBank = false ∧ s.hart.counter kCopy < 65535 ∧ s.hart.region = none ∧ s.hart.counter kSt < 65535 := by decide +kernel
theorem witness_ScalarStoreEffects_bank : onBank.onBank = true ∧ onBank.opnd (.reg 3) = .ok 0x40 ∧ onBank.opnd (.reg 1) = .ok 7
    ∧ onBank.form .g 0x40 (BitVec.signExtend 64 (8 : BitVec 30)) = .ok 0x48
    ∧ (∃ p k, onBank.find aStore .all 0x48 8 8 = .ok (.mem p) ∧ p.tgt = .home k) ∧ onBank.mem.wf = true :=
  ⟨by decide +kernel, by decide +kernel, by decide +kernel, by decide +kernel,
    ⟨⟨.home 9663676488, false⟩, 9663676488, by decide +kernel⟩, by decide +kernel⟩
theorem witness_LoadReturnsTheGroupsOwnStore : let e := (base.hart.sreg 3 + BitVec.signExtend 64 (8 : BitVec 30)).toNat
    base.cur.unit = .group ∧ base.path.clause = some (clauseOf 0) ∧ (clauseOf 0).idx + 2 ≤ (clauseOf 0).count ∧ base.opnd (.reg 1) = .ok 7
    ∧ e + 8 ≤ base.team.spadBytes ∧ base.team.spadBytes ≤ 2 ^ 20 ∧ e % 8 = 0 ∧ base.hart.counter kSt < 65535 ∧ base.hart.region = none
    ∧ base.hart.near = [] ∧ base.team.markedAt e 8 = false ∧ base.inFold base.team.core base.cur.team e 8 = false ∧ base.hart.sq = []
    ∧ base.putAhead base.hart (.spad base.cur.team e) 8 = false := by
  decide +kernel

/-- One plain store of two bytes at the end of the allocation. -/
def stored : State :=
  onHart base fun h => { h with
    sq := [⟨0, .bytes (cellsAt (.spad 1 0xFFFE) [1, 2]) 0x00D000000000FFFE 2, false, .grp, true, false, false⟩],
    ledger := vset h.ledger kSt [(0, false), (1, false)], nextOp := 2 }
theorem witness_StorePerformWritesExactlyItsBytes : (∃ e, (stored.hartOf (.group 1 0)).sq = e :: []
      ∧ e.op = .bytes (cellsAt (.spad 1 0xFFFE) [1, 2]) 0x00D000000000FFFE 2 ∧ e.id = 0 ∧ e.release = false ∧ e.st = true ∧ e.fab = false)
    ∧ (stored.hartOf (.group 1 0)).near = [] ∧ (stored.teamOf 1).syncs = [] ∧ (stored.teamOf 1).mem.wf = true ∧ stored.choice < 3
    ∧ (∀ e ∈ (stored.hartOf (.group 1 0)).sq, stored.putFirst 1 0 e = false)
    ∧ vget (stored.hartOf (.group 1 0)).ledger kSt [] = (0, false) :: [(1, false)] ∧ ∀ x ∈ [((1 : Nat), false)], x.1 ≠ 0 ∧ x.2 = false :=
  ⟨⟨⟨0, .bytes (cellsAt (.spad 1 0xFFFE) [1, 2]) 0x00D000000000FFFE 2, false, .grp, true, false, false⟩, by decide +kernel⟩, by decide +kernel, by decide +kernel, by decide +kernel, by decide +kernel,
    by decide +kernel, by decide +kernel, by decide⟩

/-! ## Vectors -/

/-- Sixteen-bit elements of the own allocation, from offset 0x40. -/
def ve (j : Nat) : Word64 := 0x40 + BitVec.signExtend 64 (0 : BitVec 30) + BitVec.ofNat 64 (j * 2)
def vva (j : Nat) : Word64 := BitVec.ofNat 64 (0x00D0000000000040 + 2 * j)
def vp (j : Nat) : Place := ⟨.spad 1 (0x40 + 2 * j), false⟩
theorem witness_VectorLoadResults_vld : let s := typed 1 4
    s.opnd (.reg 3) = .ok 0x40 ∧ s.sewOk s.vc = true ∧ DstReady s ⟨3, false⟩ 1 ∧ s.vc.selOk .none = true ∧ Elements s .none aLoad .all .l ve vva vp
    ∧ (∀ j ∈ actives s .none, (s.evictFor ((actives s .none).map fun j => (vva j, vp j)) 2).load (.mem (vp j)) (vva j) 2 false = .ok [0, 0]) ∧ actives s .none = [0, 1, 2, 3] := by
  unfold DstReady Elements; decide +kernel
theorem witness_VectorLoadResults_vlds : let s := typed 1 4
    s.opnd (.reg 3) = .ok 0x40 ∧ s.opnd (.const 18) = .ok 2
    ∧ Elements s .none aLoad .all .l (fun j => 0x40 + BitVec.signExtend 64 (0 : BitVec 30) + BitVec.ofNat 64 j * 2) vva vp := by
  unfold Elements; decide +kernel
/-- The offsets 0, as v2 holds them. -/
def xe (_ : Nat) : Word64 := 0x40
theorem witness_VectorLoadResults_vldx : let s := typed 1 4
    (∃ idx, s.vsrc s.vc (.reg 2) 16 (cstI 16) = .ok idx ∧ ∀ j < s.vc.max, idx j = 0) ∧ indexOk s.vc (.reg 2) 1 = true
    ∧ 8 * 2 ^ (1 : BitVec 2).toNat = s.vc.sew ∧ s.heldSrc (.reg 2) (indexRegs s.vc 1) = .ok ()
    ∧ Elements s .none aLoad .upToE .l xe (fun _ => 0x00D0000000000040) (fun _ => ⟨.spad 1 0x40, false⟩)
    ∧ (s.evictFor ((actives s .none).map fun _ => ((0x00D0000000000040 : Word64), (⟨.spad 1 0x40, false⟩ : Place))) 2).load (.mem ⟨.spad 1 0x40, false⟩) 0x00D0000000000040 2 false = .ok [0, 0] :=
  ⟨⟨(typed 1 4).hart.elem (typed 1 4).vc.vlen 2 16, rfl, by decide +kernel⟩, by unfold Elements; decide +kernel⟩
/-- All elements readable; and element 2 the first beyond the allocation. -/
def ff (off : BitVec 30) (j : Nat) : Res (List Byte) := do
  let s := typed 1 4
  let va ← s.form .l (0x40 + off.signExtend 64 + BitVec.ofNat 64 (j * 2)) 0
  let p ← s.find aLoad .upToE va 2 2
  s.load p va 2 false
theorem witness_FirstFaultLoadStopsAtTheFirstFailingElement : let s := typed 1 4
    s.onBank = false ∧ s.opnd (.reg 3) = .ok 0x40 ∧ DstReady s ⟨3, false⟩ s.vc.lmul ∧ s.vc.selOk .none = true ∧ 0 ∈ actives s .none
    ∧ (∀ j ∈ actives s .none, ff 0 j = .ok [0, 0]) ∧ s.vc.vl = 4
    ∧ (∀ j ∈ actives s .none, j < 2 → ff 0xFFBC j = .ok [0, 0]) ∧ 2 ∈ actives s .none
    ∧ (match ff 0xFFBC 2 with | .error (.trap tr) => decide (tr.cause ∈ [Cause.accessViolation, .pageFault, .misaligned, .stackLimit, .poison]) | _ => false) = true := by
  unfold DstReady; decide +kernel

theorem witness_VectorStoreEffects : let s := typed 1 4
    s.opnd (.reg 3) = .ok 0x40 ∧ s.opnd (.const 18) = .ok 2 ∧ s.sewOk s.vc = true ∧ s.vc.regOk 3 s.vc.lmul = true
    ∧ s.heldRegs 3 s.vc.lmul = .ok () ∧ s.vc.selOk .none = true
    ∧ Elements s .none aStore .all .l ve vva vp
    ∧ Elements s .none aStore .all .l (fun j => 0x40 + BitVec.signExtend 64 (0 : BitVec 30) + BitVec.ofNat 64 j * 2) vva vp
    ∧ Elements s .none aStore .upToE .l xe (fun _ => 0x00D0000000000040) (fun _ => ⟨.spad 1 0x40, false⟩)
    ∧ s.onBank = false ∧ actives s .none ≠ [] ∧ actives (typed 1 0) .none = [] := by
  unfold Elements
  refine ⟨?_, ?_, ?_, ?_, ?_, ?_, ?_, ?_, ?_, ?_, ?_, ?_⟩ <;> decide +kernel
/-- A bank core that stores one element of sixteen bits. -/
def bankTyped : State := onHart onBank fun h => { h with vtype := 1, vl := 1 }
theorem witness_VectorStoreEffects_bank : bankTyped.onBank = true ∧ bankTyped.opnd (.reg 3) = .ok 0x40 ∧ bankTyped.sewOk bankTyped.vc = true
    ∧ bankTyped.vc.regOk 3 bankTyped.vc.lmul = true ∧ bankTyped.heldRegs 3 bankTyped.vc.lmul = .ok ()
    ∧ Elements bankTyped .none aStore .all .g ve ve (fun _ => ⟨.home 9663676480, false⟩) ∧ actives bankTyped .none = [0] := by
  unfold Elements; decide +kernel

/-! ## Tiles, tags, atomics and caches -/

/-- Tile 1 of the own allocation. -/
theorem witness_TileTransferResults : let s := onHart base fun h => { h with s := vset h.s 4 0x100 }
    s.path.lanes = BitVec.allOnes 64 ∧ s.path.emask = BitVec.allOnes 64 ∧ s.opnd (.reg 4) = .ok 0x100 ∧ s.heldDst ⟨3, false⟩ 1 = .ok ()
    ∧ s.form .l 0x100 (BitVec.signExtend 64 (0 : BitVec 30)) = .ok 0x00D0000000000100
    ∧ s.form .l 0x100 (BitVec.signExtend 64 (0 : BitVec 27)) = .ok 0x00D0000000000100
    ∧ s.locate aLoad .upToE 0x00D0000000000100 256 256 = .ok ⟨.spad 1 0x100, false⟩
    ∧ isOk (s.readAt ⟨.spad 1 0x100, false⟩ 0x00D0000000000100 256 false) = true
    ∧ s.onBank = false ∧ s.heldRegs 3 1 = .ok () ∧ s.locate aStore .upToE 0x00D0000000000100 256 256 = .ok ⟨.spad 1 0x100, false⟩
    ∧ s.locate aStore .tiles 0x00D0000000000100 256 256 = .ok ⟨.spad 1 0x100, false⟩ ∧ (Tgt.spad 1 0x100).takesPut = true
    ∧ s.hart.region = none ∧ s.hart.counter kSt < 65535 := by decide +kernel

/-- The focus's team with tile 1 FULL, and a put held for it or none; s4 names the tile. -/
def tiled (tag : Tag) (held : List Held) : State :=
  let s := onTeam (onHart base fun h => { h with s := vset h.s 4 0x100 }) fun t => { t with tags := mset 1 tag t.tags }
  s.setCoreOf 0 { s.coreOf 0 with hold := held }
/-- A put from core 5 with 256 bytes. -/
def held0 : Held := ⟨1, 1, default, List.replicate 256 7, [], none, none, 0⟩
theorem witness_ConsumeAndPeekOfTiles : ∀ s ∈ [tiled .empty [], tiled .full [], tiled .full [held0]],
    s.path.lanes = BitVec.allOnes 64 ∧ s.path.emask = BitVec.allOnes 64 ∧ s.opnd (.reg 4) = .ok 0x100 ∧ s.heldDst ⟨3, false⟩ 1 = .ok ()
    ∧ s.form .l 0x100 (BitVec.signExtend 64 (0 : BitVec 27)) = .ok 0x00D0000000000100 ∧ s.path.grant = none ∧ s.onBank = false
    ∧ s.locate aLoad .own 0x00D0000000000100 256 256 = .ok ⟨.spad 1 0x100, false⟩ ∧ s.tilePending 0x100 = false ∧ 1 = s.cur.team
    ∧ s.team.markedAt 256 256 = false := by
  intro s hs
  simp only [List.mem_cons, List.not_mem_nil, or_false] at hs
  rcases hs with rfl | rfl | rfl <;> refine ⟨?_, ?_, ?_, ?_, ?_, ?_, ?_, ?_, ?_, ?_, ?_⟩ <;> decide +kernel
theorem witness_ConsumeAndPeekOfTiles_tags : ((tiled .empty []).teamOf 1).tag 1 = .empty ∧ ((tiled .full []).teamOf 1).tag 1 = .full
    ∧ (∀ h ∈ ((tiled .full []).coreOf 0).hold, ¬ (h.team = 1 ∧ h.tile = 1))
    ∧ (let s := tiled .full [held0]
       (s.teamOf 1).tag 1 = .full ∧ (s.coreOf s.team.core).hold = held0 :: [] ∧ held0.team = 1 ∧ held0.tile = 1 ∧ held0.marks = []
       ∧ s.tileWaiters 1 1 = [] ∧ s.team.syncs = [] ∧ s.team.mem.wf = true ∧ held0.st = none ∧ held0.remote = none)
    ∧ held0.data.length = 256 :=
  ⟨by decide +kernel, by decide +kernel, by decide +kernel, by refine ⟨?_, ?_, ?_, ?_, ?_, ?_, ?_, ?_, ?_, ?_⟩ <;> decide +kernel, List.length_replicate⟩

/-- The last tile of the allocation, and none. -/
theorem witness_TagInstructionResults : let s := onHart base fun h => { h with s := vset h.s 4 0xFF00 }
    s.onBank = false ∧ s.opnd (.reg 4) = .ok 0xFF00 ∧ s.opnd (.const 16) = .ok 0 ∧ s.opnd (.const 17) = .ok 1
    ∧ s.form .l 0xFF00 (BitVec.signExtend 64 (0 : BitVec 30)) = .ok 0x00D000000000FF00
    ∧ s.locate aLoad .own 0x00D000000000FF00 1 1 = .ok ⟨.spad 1 0xFF00, false⟩ ∧ 0xFF00 / 256 + (1 : Word64).toNat = s.team.spadBytes / 256
    ∧ s.hart.tagsPending (0xFF00 / 256) 32 = false ∧ s.path.part = [] ∧ s.choice = 0 := by decide +kernel
/-- The table of the focus's team: empty, full of key 1, or with key 7 at the last slot. -/
def tabled (t : AMap Nat (BitVec 48 × Byte)) : State := onTeam base fun x => { x with table := t }
theorem witness_TagTableResults_absent : base.opnd (.reg 1) = .ok 7 ∧ base.opnd (.reg 2) = .ok (BitVec.ofInt 64 (-2))
    ∧ base.team.spadBytes / 4096 = 16 ∧ (∀ i < 16, mfind i base.team.table = none)
    ∧ (let s := tabled ((List.range 16).map fun i => (i, (1, 0))); ∀ i < 16, mfind i s.team.table = some (1, 0)) := by decide +kernel
theorem witness_TagTableResults_present : let s := tabled [(15, (7, 3))]
    s.opnd (.reg 1) = .ok 7 ∧ mfind 15 s.team.table = some ((7 : Word64).setWidth 48, 3) ∧ (∀ j < 15, mfind j s.team.table = none)
    ∧ s.team.spadBytes / 4096 = 16 := by decide +kernel

/-- A word of the own allocation, and one of global memory. -/
theorem witness_ScalarAtomicResults : base.onBank = false ∧ base.hart.region = none ∧ base.opnd (.reg 3) = .ok 0x40 ∧ base.opnd (.reg 1) = .ok 7
    ∧ base.hart.sq = [] ∧ base.drained .die = .ok () ∧ base.posted = [] ∧ base.team.syncs = [] ∧ base.team.mem.wf = true ∧ base.mem.wf = true
    ∧ (base.form .l 0x40 (BitVec.signExtend 64 (8 : BitVec 22)) = .ok 0x00D0000000000048
        ∧ base.locate aAtomic .upToE 0x00D0000000000048 4 4 = .ok ⟨.spad 1 0x48, false⟩ ∧ base.blocked base.hart (.spad 1 0x48) 4 = false
        ∧ base.bad (.spad 1 0x48) 4 = false ∧ 1 = base.cur.team)
    ∧ base.form .g 0x40 (BitVec.signExtend 64 (8 : BitVec 22)) = .ok 0x48 ∧ base.locate aAtomic .upToE 0x48 4 4 = .ok ⟨.home 1681481093192, false⟩
    ∧ base.blocked base.hart (.home 1681481093192) 4 = false ∧ base.bad (.home 1681481093192) 4 = false := by
  refine ⟨?_, ?_, ?_, ?_, ?_, ?_, ?_, ?_, ?_, ?_, ⟨?_, ?_, ?_, ?_, ?_⟩, ?_, ?_, ?_, ?_⟩ <;> decide +kernel

def typed32 : State := typed 2 4
theorem witness_AtomicsWithoutReturnAreQueued_scalar : base.hart.region = none ∧ base.onBank = false ∧ base.opnd (.reg 3) = .ok 0x40
    ∧ base.opnd (.reg 1) = .ok 7 ∧ base.form .g 0x40 (BitVec.signExtend 64 (8 : BitVec 22)) = .ok 0x48 ∧ atomTyS .add ⟨false, 2⟩ = .int 32 false
    ∧ base.locate aAtomic .upToE 0x48 4 4 = .ok ⟨.home 1681481093192, false⟩ ∧ base.locate aAtomic .global 0x48 4 4 = .ok ⟨.home 1681481093192, false⟩
    ∧ base.hart.counter kSt < 65535 ∧ base.hart.counter kNear < 65535 := by
  refine ⟨?_, ?_, ?_, ?_, ?_, ?_, ?_, ?_, ?_, ?_⟩ <;> decide +kernel
theorem witness_AtomicsWithoutReturnAreQueued_vector : let s := typed32
    atomTyV .add false s.vc.sew = some (.int 32 false) ∧ s.vc.selOk .none = true ∧ indexOk s.vc (.reg 2) 2 = true
    ∧ s.vc.regOk 3 s.vc.lmul = true ∧ s.heldRegs 3 s.vc.lmul = .ok () ∧ actives s .none ≠ []
    ∧ (∃ idx, s.indexAddr (.reg 3) (.reg 2) 0 2 false 0 = .ok idx ∧ ∀ i < s.vc.max, idx i = 0x40)
    ∧ Elements s .none aAtomic .upToE .g xe xe (fun _ => ⟨.home 1681481093184, false⟩)
    ∧ Elements s .none aAtomic .global .g xe xe (fun _ => ⟨.home 1681481093184, false⟩) := by
  refine ⟨?_, ?_, ?_, ?_, ?_, ?_, ⟨okGet (fun _ => 0) (typed32.indexAddr (.reg 3) (.reg 2) 0 2 false 0), ok_get _ ?_, ?_⟩, ?_, ?_⟩
  all_goals first | decide +kernel | (unfold Elements; decide +kernel)
theorem witness_VectorAtomicResults : let s := typed32
    s.onBank = false ∧ s.hart.region = none ∧ s.hart.sq = [] ∧ s.hart.near = [] ∧ s.drained .grp = .ok () ∧ s.vc.dstOk ⟨4, false⟩ s.vc.lmul = true
    ∧ (∃ idx, s.indexAddr (.reg 3) (.reg 2) 0 2 false 0 = .ok idx ∧ ∀ i < s.vc.max, idx i = 0x40)
    ∧ Elements s .none aAtomic .upToE .l xe (fun _ => 0x00D0000000000040) (fun _ => ⟨.spad s.cur.team 0x40, false⟩)
    ∧ s.team.markedAt 0x40 4 = false ∧ s.blocked s.hart (.spad s.cur.team 0x40) 4 = false ∧ s.team.mem.wf = true ∧ s.choice = 0 ∧ s.path.part = [] ∧ s.team.syncs = [] ∧ s.vc.regOk 4 (2 * s.vc.lmul) = true ∧ s.heldRegs 4 (2 * s.vc.lmul) = .ok () := by
  refine ⟨?_, ?_, ?_, ?_, ?_, ?_, ⟨okGet (fun _ => 0) (typed32.indexAddr (.reg 3) (.reg 2) 0 2 false 0), ok_get _ ?_, ?_⟩, ?_, ?_, ?_, ?_, ?_, ?_, ?_, ?_, ?_⟩
  all_goals first | decide +kernel | (unfold Elements; decide +kernel)

theorem witness_FenceAndCacheInstructionResults : base.onBank = false ∧ base.opnd (.reg 3) = .ok 0x40 ∧ base.drained .sys = .ok ()
    ∧ (onHart base fun h => { h with ledger := vset h.ledger kNear [(0, false)] }).quiet .sys = false
    ∧ base.homeLine (.reg 3) ⟨.l, 8⟩ = .ok none ∧ base.homeLine (.reg 3) ⟨.g, 8⟩ = .ok (some 13136571040)
    ∧ ∀ n, Room base (.clean n) true false false ∧ Room base (.flush n) true false false := by
  refine ⟨?_, ?_, ?_, ?_, ?_, ?_, fun n => ⟨room_of _ _ _ _ _ ?_ ?_ ?_, room_of _ _ _ _ _ ?_ ?_ ?_⟩⟩ <;> decide +kernel

end Sys2Proof.Tests
end

