-- ==== Sys2Proof/Tests/WitnessService.lean ====
section
/-! SUPPORT. Witnesses for the statements about the service, the decoder, the step and the invariant: a concrete state and operands that meet the hypotheses of each clause. -/

set_option Elab.async false -- one evaluation at a time: each holds a thread

namespace Sys2Proof.Tests
open Sys2Proof.Machine Sys2Proof.Claims

/-! ## The service -/

/-- Queue 2 of two entries of ASID 1 with its ring at 0x50000, open to Ultra Ethernet. -/
def served (windex : Word32) (st : DroverState) : State := (base.setQueue 2 ⟨windex, 0, 1, 0x4F000, 0x50000, 11, 1⟩).setDrover 2 ⟨st, 0, []⟩
theorem witness_ServiceEventResults_queue : (base.queueOf 2).lsize = 0 ∧ ((4 : BitVec 256).extractLsb' 0 4).toNat ≠ 0
    ∧ ((served 0 .idle).queueOf 2).lsize ≠ 0 ∧ ((0x100 : BitVec 256).extractLsb' 0 4).toNat = 0 ∧ (served 0 .idle).liveOf 2 = 0 ∧ ((served 0 .idle).drover 2).st ≠ .full
    ∧ ((served 0 .full).drover 2).st = .full := by decide +kernel
/-- The same where the second GiB lies on device 1, to which there is a route. -/
def servedFar : State :=
  { poke8 (served 0 .idle) 0x20008 (2 ^ 63 + 2 ^ 62 + 2 ^ 42 + 0x3C) with fabric := { base.fabric with routes := [(4, 2 ^ 63 + 2 ^ 60)] } }
theorem witness_ServiceEventResults_packets : (served 0 .idle).service.boot = .open ∧ (served 0 .idle).spanOk 1 .write 0x4000 2 = true
    ∧ isOk ((served 0 .idle).vwrite 1 false 0x4000 [1, 2]) = true ∧ (served 0 .idle).spanOk 1 .write 0x40000000 2 = false
    ∧ isOk ((served 0 .idle).vfetch (served 0 .idle).ueKey 1 false 0x4000 2) = true
    ∧ (match (served 0 .idle).vfetch (served 0 .idle).ueKey 1 false 0x40000000 2 with | .error (.fault _) => true | _ => false) = true
    ∧ (match servedFar.vfetch servedFar.ueKey 1 false 0x40000000 2 with | .error (.ask _) => true | _ => false) = true
    ∧ (let d := (served 0 .idle).queueOf 2; (d.windex + 1 - d.rindex).toNat ≤ 2 ^ d.lsize ∧ isOk ((served 0 .idle).vwrite 1 false 0x50000 (leBytes 64 9)) = true)
    ∧ (let d := (served 2 .idle).queueOf 2; 2 ^ d.lsize < (d.windex + 1 - d.rindex).toNat)
    ∧ ¬ (State.reset.service.boot = .open ∧ (2 : Nat) < 32 ∧ (State.reset.queueOf 2).lsize ≠ 0) := by decide +kernel

/-- What a write at an address leaves on its way to other devices. -/
def leaves (s : State) (a : Nat) (bs : List Byte) : Option (List (Nat × Word32)) :=
  match s.vwrite 1 false a bs with | .ok v => some (s.sentSince v) | .error _ => none
theorem witness_ServiceEventResults_writes : leaves (served 0 .idle) 0x4000 [1, 2] = some [] ∧ leaves (served 0 .idle) 0x50000 (leBytes 64 9) = some []
    ∧ servedFar.spanOk 1 .write 0x40000000 2 = true ∧ leaves servedFar 0x40000000 [1, 2] = some [(1, 0)]
    ∧ (∀ e ∈ servedFar.service.ueWorks, e.sendsTo 2 = false) := by decide +kernel
/-- Queue 2 with its ring on device 1, or where nothing is mapped. -/
def servedAt (ring : Word64) : State := servedFar.setQueue 2 ⟨0, 0, 1, 0x4F000, ring, 11, 1⟩
theorem witness_ServiceEventResults_sends : leaves (servedAt 0x40000000) 0x40000000 (leBytes 64 9) = some [(1, 0)]
    ∧ leaves (servedAt 0x80000000) 0x80000000 (leBytes 64 9) = none
    ∧ ((servedAt 0x40000000).queueOf 2).lsize = 1 ∧ ((servedAt 0x80000000).queueOf 2).lsize = 1 := by decide +kernel
theorem witness_ServiceEventResults_behind : let w : Service := { Service.reset with ueWorks := [.send 2 9 none] }
    ∃ e ∈ w.ueWorks, e.sendsTo 2 = true := ⟨.send 2 9 none, List.mem_singleton.mpr rfl, rfl⟩

theorem leNat_leBytes : (n x : Nat) → x < 256 ^ n → leNat (leBytes n x) = x
  | 0, x, h => by simp only [Nat.pow_zero] at h; simp only [leBytes, leNat]; omega
  | n + 1, x, h => by
    have := leNat_leBytes n (x / 256) (by rw [Nat.pow_succ] at h; exact Nat.div_lt_of_lt_mul (by rwa [Nat.mul_comm]))
    simp only [leBytes, leNat, this, BitVec.toNat_ofNat]
    omega
/-- An image of a kind whose header keeps every row, with 64 bytes of zeros as its body: what the device is fused with and the digest are the uninterpreted constants of log 6. -/
def body0 : List Byte := List.replicate 64 0
def image0 (kind : Nat) : BootImage :=
  { header := leBytes 4 0x53485246 ++ (leBytes 1 kind ++ (leBytes 3 0 ++ (leBytes 4 (Config.fusedVersion kind).toNat ++ (leBytes 4 64 ++ (leBytes 8 0 ++ (leBytes 8 0
      ++ (leBytes 32 (Config.sha256 body0).toNat ++ (leBytes 32 0 ++ leBytes 32 (Config.fusedKey kind).toNat)))))))),
    body := body0, signature := List.replicate 2668 0 }
theorem witness_ServiceEventResults_image : ∀ k < 3, headerOk k (image0 k) = true
    ∧ BitVec.ofNat 256 (field (image0 k).header 32 32) = Config.sha256 (image0 k).body ∧ (image0 k).signature.length = 2668
    ∧ (Config.lmsVerifies k ((image0 k).header.take 96 ++ (image0 k).body) (image0 k).signature = true → imageFault k (image0 k) = none) := by
  intro k hk
  have hv : field (image0 k).header 8 4 = (Config.fusedVersion k).toNat := leNat_leBytes 4 _ (Config.fusedVersion k).isLt
  have hd : field (image0 k).header 32 32 = (Config.sha256 body0).toNat := leNat_leBytes 32 _ (Config.sha256 body0).isLt
  have hf : field (image0 k).header 96 32 = (Config.fusedKey k).toNat := leNat_leBytes 32 _ (Config.fusedKey k).isLt
  have h0 : (image0 k).header.length = 128 := rfl
  have h1 : field (image0 k).header 0 4 = 0x53485246 := leNat_leBytes 4 _ (by omega)
  have h2 : field (image0 k).header 4 1 = k := leNat_leBytes 1 _ (by omega)
  have h3 : field (image0 k).header 5 3 = 0 := leNat_leBytes 3 _ (by omega)
  have h4 : field (image0 k).header 12 4 = 64 := leNat_leBytes 4 _ (by omega)
  have h5 : field (image0 k).header 16 8 = 0 := leNat_leBytes 8 _ (by omega)
  have h6 : field (image0 k).header 24 8 = 0 := leNat_leBytes 8 _ (by omega)
  have h7 : field (image0 k).header 64 32 = 0 := leNat_leBytes 32 _ (by omega)
  have hb : (image0 k).body.length = 64 := rfl
  have hs : (image0 k).signature.length = 2668 := List.length_replicate
  have ok : headerOk k (image0 k) = true := by
    simp [headerOk, hv, hf, h0, h1, h2, h3, h4, h5, h6, h7, hb]
  have dg : BitVec.ofNat 256 (field (image0 k).header 32 32) = Config.sha256 (image0 k).body := by
    rw [hd, BitVec.ofNat_toNat, BitVec.setWidth_eq]; rfl
  refine ⟨ok, dg, hs, fun h => ?_⟩
  simp [imageFault, ok, dg, hs, h]
theorem witness_ServiceEventResults_boot : State.reset.service.boot = .reset ∧ State.reset.service.digests.length = 3
    ∧ (∀ k < 3, imageFault k default = some .header)
    ∧ (let s := { base with service := { base.service with boot := .awaitManager } }; s.service.boot = .awaitManager ∧ s.fabric.routes = [])
    ∧ (let s := { base with service := { base.service with boot := .awaitManager }, fabric := { base.fabric with routes := [(4, 2 ^ 63)], numbered := true } }
       s.service.boot = .awaitManager ∧ s.fabric.routes ≠ [] ∧ s.fabric.numbered = true) := by
  refine ⟨?_, ?_, fun k _ => ?_, ?_, ?_⟩
  · decide +kernel
  · decide +kernel
  · have : headerOk k default = false := by simp [headerOk, default, instInhabitedBootImage.default]
    simp [imageFault, this]
  all_goals decide +kernel
theorem witness_ServiceEventResults_rest : base.service.mustering = none ∧ ({ base.service with mustering := some 0x4000 } : Service).mustering = some 0x4000
    ∧ base.service.oneTime < 32768 ∧ 32768 ≤ ({ base.service with oneTime := 32768 } : Service).oneTime ∧ (0 : BitVec 64) ≠ 1
    ∧ base.service.throttling = false ∧ ({ base.service with throttling := true } : Service).throttling = true := by decide +kernel

/-! ## The step, the decoder and the invariant -/

/-- The focus's clause with one word, of a class. -/
def wordOf (cls : BitVec 3) (w l : Word32) (count : Nat) : State :=
  onPath base fun p => { p with clause := some { hdr := 0x1000, cls := cls, count := count, words := [w, l], idx := 1, yield := false } }
/-- The conditions on the focus's group, bank core or stream. -/
def groupOk (s : State) : Bool :=
  s.cur.unit == .group && s.hart.live && !s.hart.evicted && s.path.active && s.path.issuing && s.path.susp.isNone && !s.path.stalled && s.path.clause.isSome
    && !s.service.frozen && s.agenda.isEmpty && s.service.boot == .open
theorem witness_StepRunsDecodedInstruction_group : (∀ s ∈ [wordOf 0 0x17080004 0 2, wordOf 0 0xFF000000 0 2, wordOf 2 0x01000C0F 0x40000000 1, wordOf 0 0x17080004 0 0], groupOk s = true)
    ∧ opInfo 0 0xFF = none ∧ (opInfo 7 0xF0).isSome = true
    ∧ (∀ o ∈ opInfo 0 0x17, base.team.feat.getLsbD o.feat = true ∧ o.transfer = false ∧ o.blocking = false ∧ o.lit = false
        ∧ ({ team0 with feat := 0 } : Team).feat.getLsbD o.feat = false)
    ∧ (∀ o ∈ opInfo 2 0x01, o.lit = true ∧ ¬ 1 + 1 ≤ 1) ∧ (opInfo 2 0x01).isSome = true
    ∧ decodeWord false 0 0x17080004 0 = some (.li ⟨2, false⟩ 4) ∧ decodeWord false 0 0x17000FC0 0 = none := by decide +kernel
theorem witness_StepRunsDecodedInstruction_others : (let s := onBank
      s.cur.unit = .bank ∧ (s.bankOf s.cur.bank).running = true ∧ s.path.active = true ∧ s.path.stalled = false ∧ s.path.clause.isSome = true ∧ s.agenda = []
      ∧ (opInfo 0 0x17).isSome = true ∧ bankAccepts 0 0x17 = true ∧ decodeWord true 0 0x17080004 0 = some (.li ⟨2, false⟩ 4))
    ∧ (let s := onTeam { base with cur := ⟨.stream, 1, 0, false, 0, 0⟩ } fun t => { t with seq := { t.seq with st := .running, clause := some (clauseOf 3) } }
       s.cur.unit = .stream ∧ s.team.seq.st = .running ∧ s.team.seq.fault = none ∧ s.team.seq.stopAsked = false ∧ s.team.seq.stalled = false ∧ s.streamYields = false
       ∧ s.team.formatsOk = true ∧ (onTeam s fun t => { t with feat := 0x1FFF, seq := { t.seq with sfmt := 0x185 } }).team.formatsOk = false
       ∧ (opInfo 3 0).isSome = true ∧ decodeWord false 3 0x00000818 0x00000048 = some (.mma 0 (.reg 2) (.reg 3) ⟨0, 0, true, false, 8⟩)) := by decide +kernel
theorem witness_StepRunsDecodedInstruction_agenda : (∀ f ∈ [true, false], let s := { base with agenda := [.exit], service := { base.service with frozen := f } }
      s.agenda = .exit :: [] ∧ s.service.frozen = f ∧ s.service.boot = .open)
    ∧ ({ base.service with boot := .failed 1 } : Service).boot = .failed 1 := by decide +kernel
theorem witness_DecodeInvertsEncode : (encodeFields (.li ⟨2, false⟩ 4)).isSome = true ∧ Instr.wf (.li ⟨2, false⟩ 4) = true ∧ Instr.bankOk (.li ⟨2, false⟩ 4) = true
    ∧ (∀ e ∈ encodeFields (.ret (.reg 63)), ¬ (e.cls = 7 ∧ 0xF0 ≤ e.raw.op.toNat)) := by decide +kernel
theorem witness_StepKeepsMemoryCanonical : MemoryCanonical base ∧ nextIs (step base) (fun _ => true) = true := by
  refine ⟨⟨?_, fun k t h => ?_⟩, ?_⟩
  · decide +kernel
  · obtain ⟨rfl, rfl⟩ : k = 1 ∧ t = team0 := by
      have : base.teams = [(1, team0)] := by decide +kernel
      rw [this] at h; simpa using h
    decide +kernel
  · decide +kernel

end Sys2Proof.Tests
end

