-- ==== Sys2Proof/Proofs/Reset.lean ====
section
/-! PROOFS. What reset leaves: every table and queue of the reset state is empty, so each reading gives the value of a key that nothing has set. -/

namespace Sys2Proof.Machine

/-! ## Readings that an empty or zero table decides -/

/-- A key of an empty table has the default value. -/
@[simp] theorem mget_nil {κ α : Type} [DecidableEq κ] (d : α) (k : κ) : mget d k [] = d := rfl

/-- An empty memory reads as 0 at every address (log 1). -/
@[simp] theorem Mem.byte_nil (a : Nat) : Mem.byte [] a = 0 := rfl

/-- A path record whose valid bit (bit 63) is clear is not usable (R396). -/
theorem Fabric.usable_of_not_valid {f : Fabric} {dst p : Nat} (h : (mget 0 (dst * 4 + p) f.routes).getLsbD 63 = false) :
    f.usable dst p = false := by
  simp only [Fabric.usable, h, Bool.false_and]

/-- Where no group has registers, no team has a live group. -/
theorem State.liveGids_of_no_harts {s : State} (h : s.harts = []) (k : Nat) : s.liveGids k = [] := by
  simp [State.liveGids, h]

/-! ## Readings of the reset state -/

@[simp] theorem State.reset_queueOf (q : Nat) : State.reset.queueOf q = ⟨0, 0, 0, 0, 0, 0, 0⟩ := mget_nil _ q
@[simp] theorem State.reset_drover (q : Nat) : State.reset.drover q = Drover.idle := mget_nil _ q
@[simp] theorem State.reset_hartOf (i : HartId) : State.reset.hartOf i = Hart.reset := mget_nil _ i
@[simp] theorem State.reset_teamOf (k : Nat) : State.reset.teamOf k = Team.vacant := mget_nil _ k
@[simp] theorem State.reset_coreOf (c : Nat) : State.reset.coreOf c = Core.reset := mget_nil _ c
@[simp] theorem State.reset_bankOf (b : Nat) : State.reset.bankOf b = Bank.reset := mget_nil _ b
@[simp] theorem State.reset_liveGids (k : Nat) : State.reset.liveGids k = [] := State.liveGids_of_no_harts rfl k

/-- No path record has been written, so each reads 0 (R396). -/
theorem State.reset_route (n : Nat) : mget 0 n State.reset.fabric.routes = 0 := mget_nil 0 n

theorem State.reset_not_usable (d p : Nat) : State.reset.fabric.usable d p = false :=
  Fabric.usable_of_not_valid (by rw [State.reset_route]; rfl)

/-- No team is placed, so the canonical form of the device's memory is that of every memory. -/
theorem State.reset_memoryCanonical : Claims.MemoryCanonical State.reset :=
  ⟨State.reset_mem_wf, fun _ _ placed => absurd placed List.not_mem_nil⟩

/-! ## The parts of the statement -/

/-- The tables of a core are empty after reset: no port translation entry (R204), no held put, no fold, no L1 line and no TLB entry. -/
theorem State.reset_core_tables_empty (c : Nat) :
    let k := State.reset.coreOf c
    k.ports = [] ∧ k.hold = [] ∧ k.fold = none ∧ k.l1 = [] ∧ k.tlb = [] := by
  simp [Core.reset]

/-- No team, group or bank core runs after reset. -/
theorem State.reset_nothing_resident :
    (∀ k, (State.reset.teamOf k).live = false ∧ State.reset.liveGids k = [])
      ∧ (∀ i, (State.reset.hartOf i).live = false) ∧ (∀ b, (State.reset.bankOf b).running = false) := by
  simp [Team.vacant, Hart.reset, Bank.reset]

/-- Nothing of the fabric port waits, is in flight or is held after reset. -/
theorem State.reset_fabric_empty :
    let f := State.reset.fabric
    f.wire = [] ∧ f.unacked = [] ∧ f.asks = [] ∧ f.runs = [] ∧ f.parked = [] ∧ f.arrived = [] ∧ f.colls = [] ∧ f.fsJobs = [] ∧ f.fsHeld = [] :=
  ⟨rfl, rfl, rfl, rfl, rfl, rfl, rfl, rfl, rfl⟩

/-- The queues and outstanding work of the device are empty after reset. -/
theorem State.reset_work_empty :
    let s := State.reset
    s.fullRows = [] ∧ s.launches = [] ∧ s.ready = [] ∧ s.waits = [] ∧ s.net = [] ∧ s.posted = [] ∧ s.reads = [] ∧ s.shepherds = [] :=
  ⟨rfl, rfl, rfl, rfl, rfl, rfl, rfl, rfl⟩

/-- W is 96, every bid weight is 0 and no serial has been given (R356). -/
theorem State.reset_bellwether :
    State.reset.bell.length = 96 ∧ (∀ n, mget 0 n State.reset.bell.tables = 0) ∧ State.reset.bell.serial = 0 :=
  ⟨rfl, mget_nil 0, rfl⟩

/-- The boot ROM has not begun and the device is not frozen (R419, R428). -/
theorem State.reset_service :
    let w := State.reset.service
    w.boot = .reset ∧ w.frozen = false ∧ w.faultPin = false ∧ w.clock = 2500 :=
  ⟨rfl, rfl, rfl, rfl⟩

end Sys2Proof.Machine

namespace Sys2Proof.Claims
open Sys2Proof.Machine

/-- Settles O60: each table of the reset state is empty, so every reading is the value of an unset key. -/
theorem resetLeavesTheSpecifiedState : Obligations.ResetLeavesTheSpecifiedState := by
  unfold Obligations.ResetLeavesTheSpecifiedState
  obtain ⟨bellLength, bellWeights, bellSerial⟩ := State.reset_bellwether
  obtain ⟨boot, frozen, faultPin, clock⟩ := State.reset_service
  obtain ⟨noTeam, noHart, noBank⟩ := State.reset_nothing_resident
  obtain ⟨rows, launches, ready, waits, net, posted, reads, shepherds⟩ := State.reset_work_empty
  obtain ⟨wire, unacked, asks, runs, parked, arrived, colls, fsJobs, fsHeld⟩ := State.reset_fabric_empty
  have queues (q : Nat) : State.reset.queueOf q = ⟨0, 0, 0, 0, 0, 0, 0⟩ ∧ (State.reset.drover q).st = .idle := by
    simp [Drover.idle]
  have paths (d p : Nat) : mget 0 (d * 4 + p) State.reset.fabric.routes = 0 ∧ State.reset.fabric.usable d p = false :=
    ⟨State.reset_route _, State.reset_not_usable d p⟩
  have registers (h : Nat) : mget 0 h State.reset.shasid = 0 ∧ mget 0 h State.reset.xregs = 0 :=
    ⟨mget_nil 0 h, mget_nil 0 h⟩
  exact ⟨queues, paths, State.reset_core_tables_empty, bellLength, bellWeights, bellSerial, boot, frozen, faultPin, clock,
    noTeam, noHart, noBank, rows, launches, ready, waits, net, posted, reads, shepherds,
    wire, unacked, asks, runs, parked, arrived, colls, fsJobs, fsHeld,
    State.reset_memoryCanonical, Mem.byte_nil, registers⟩

end Sys2Proof.Claims
end

