-- ==== Sys2Proof/Proofs/DeviceWrites.lean ====
section
/-! PROOFS. The frame of the device's own writes: bytes of memory, packets and log entries change nothing but the memory, the oracle, the fabric port and the service. -/

namespace Sys2Proof.Machine

/-- The step from s to t is a write of the device itself: only memory and its caches, the choices taken, the fabric port and the service may differ. -/
def State.Wrote (s t : State) : Prop :=
  t = { s with mem := t.mem, dirty := t.dirty, poisoned := t.poisoned, oracle := t.oracle, fabric := t.fabric, service := t.service }

namespace State.Wrote

theorem refl (s : State) : s.Wrote s := rfl

theorem trans {s t u : State} (h : s.Wrote t) (h' : t.Wrote u) : s.Wrote u := by
  unfold Wrote at *
  rw [h', h]

theorem harts_eq {s t : State} (h : s.Wrote t) : t.harts = s.harts := by rw [h]
theorem teams_eq {s t : State} (h : s.Wrote t) : t.teams = s.teams := by rw [h]
theorem launches_eq {s t : State} (h : s.Wrote t) : t.launches = s.launches := by rw [h]
theorem hartOf_eq {s t : State} (h : s.Wrote t) (i : HartId) : t.hartOf i = s.hartOf i := by rw [h]; rfl
theorem teamOf_eq {s t : State} (h : s.Wrote t) (k : Nat) : t.teamOf k = s.teamOf k := by rw [h]; rfl

/-- A fold of writes is a write. -/
theorem foldl {α : Type} {f : State → α → State} (hf : ∀ (s : State) (a : α), s.Wrote (f s a)) (l : List α) (s : State) : s.Wrote (l.foldl f s) :=
  List.foldlRecOn (motive := s.Wrote) l f (refl s) fun u hu a _ => hu.trans (hf u a)

end State.Wrote

/-! ## Writes of this device's memory -/

theorem State.physWrite_wrote {w : State → Nat → List Byte → State} (hw : ∀ (s : State) k bs, s.Wrote (w s k bs)) (s : State) (a : Nat) (bs : List Byte) :
    s.Wrote (s.physWrite w a bs) := by
  refine .foldl (fun u p => ?_) _ s
  cases homeKey p.1 with
  | none => exact .refl u
  | some k => exact hw u k _

theorem State.logError_wrote (s : State) (k : LogKind) (c : BitVec 7) (u a g : Nat) (x : Word64) : s.Wrote (s.logError k c u a g x) := by
  unfold State.Wrote
  rw [State.logError_rest]

theorem State.fsStore_wrote (s : State) (key pa asid : Nat) (bs : List Byte) (bad : Bool) : s.Wrote (s.fsStore key pa asid bs bad) := by
  have raw (u : State) (a : Nat) (x : List Byte) : u.Wrote (u.physRaw a x) := State.physWrite_wrote (w := State.rawPoke) (fun _ _ _ => rfl) u a x
  have put (u : State) (x : List Byte) : u.Wrote (u.fsPut pa asid x) := (raw u _ _).trans (raw _ _ _)
  unfold State.fsStore
  dsimp only
  split
  · exact (put s _).trans rfl
  · rfl

/-- Bytes written at a place outside every allocation, for no core's L1. -/
theorem State.poke_wrote (s : State) {t : Tgt} (ht : ∀ k o, t ≠ .spad k o) (bs : List Byte) (bad : Bool) : s.Wrote (s.poke none t bs bad) := by
  cases t with
  | home k =>
    have evict (u : State) (n : Nat) : u.Wrote (u.maybeEvict k n) := by
      unfold State.Wrote
      rw [State.maybeEvict_rest]
    have home : s.Wrote (s.pokeHome k bs bad) := rfl
    exact home.trans (evict _ _)
  | shared k pa asid => exact .foldl (fun u p => u.fsStore_wrote _ _ _ _ _) _ s
  | spad k o => exact absurd rfl (ht k o)
  | win c o a => rfl
  | remote d a x sh => rfl

/-! ## Packets -/

theorem State.sendPkt_wrote (s : State) (p : FabPkt) : s.Wrote (s.sendPkt p).1 := by
  unfold State.Wrote State.sendPkt State.leave
  rfl

theorem State.sendOn_wrote (s : State) (p : FabPkt) (path : BitVec 2) : s.Wrote (s.sendOn p path) := rfl
theorem State.fsQueue_wrote (s : State) (p : FabPkt) (line : Nat) (cells : List (Nat × Byte)) (bad : Bool) : s.Wrote (s.fsQueue p line cells bad).1 := rfl

/-! ## Writes at virtual addresses -/

/-- A sequence that succeeds has succeeded in its first part. -/
theorem exists_ok_of_bind_eq_ok {ε α β : Type} {x : Except ε α} {f : α → Except ε β} {b : β} (h : (x >>= f) = .ok b) :
    ∃ a, x = .ok a ∧ f a = .ok b := by
  cases x with
  | error e => cases h
  | ok a => exact ⟨a, rfl, h⟩

/-- A translated byte lies in no allocation: `Translate` reaches homes and other devices only (R284, R400). -/
theorem State.vplace_not_spad {s : State} {core : Option Nat} {asid va : Nat} {sys : Bool} {acc : Access} {q : Place}
    (h : s.vplace core asid sys acc va = .ok q) (k o : Nat) : q.tgt ≠ .spad k o := by
  unfold State.vplace at h
  split at h
  · cases h
  · unfold State.placeOf at h
    dsimp only at h
    split at h
    · split at h
      · cases h
      · cases h
        dsimp only
        split <;> exact Tgt.noConfusion
    · cases h
      exact Tgt.noConfusion

theorem State.vwriteAux_wrote {asid va : Nat} {sys bad : Bool} {bs : List Byte} {ps : List (Nat × Nat)} {s t : State}
    (h : s.vwriteAux asid sys bad va bs ps = .ok t) : s.Wrote t := by
  induction ps generalizing s with
  | nil =>
    cases h
    exact .refl _
  | cons p ps ih =>
    unfold State.vwriteAux at h
    split at h
    · cases h
    · next q hq =>
      dsimp only at h
      split at h
      · split at h
        · cases h
        · split at h
          · exact (State.Wrote.foldl (fun u l => u.fsQueue_wrote _ _ _ _) _ _).trans (ih h)
          · exact (State.sendPkt_wrote _ _).trans (ih h)
      · exact (State.poke_wrote _ (State.vplace_not_spad hq) _ _).trans (ih h)

theorem State.vwrite_wrote {s t : State} {asid va : Nat} {sys : Bool} {bs : List Byte} (h : s.vwrite asid sys va bs = .ok t) : s.Wrote t :=
  State.vwriteAux_wrote h

/-- Saving a trap's frame, paths, latches and records writes memory only (R362 step 2). -/
theorem State.saveTrap_wrote {s t : State} {i : HartId} {p : Bool} {epc lanes addr2 : Word64} {serial : BitVec 32}
    (h : s.saveTrap i p epc lanes addr2 serial = .ok t) : s.Wrote t := by
  unfold State.saveTrap at h
  obtain ⟨u, frame, h⟩ := exists_ok_of_bind_eq_ok h
  obtain ⟨w, latches, records⟩ := exists_ok_of_bind_eq_ok h
  exact (State.vwrite_wrote frame).trans ((State.vwrite_wrote latches).trans (State.vwrite_wrote records))

/-! ## Status words of nodes -/

/-- A word that the Drover writes, or the log entry of one that cannot be stored (R348). -/
theorem State.putWord_wrote (s : State) (asid va x : Nat) : s.Wrote (s.putWord asid va x) := by
  unfold State.putWord
  split
  · next h => exact State.vwrite_wrote h
  · exact s.logError_wrote _ _ _ _ _ _

theorem State.mirror_wrote (s : State) (l n : Nat) : s.Wrote (s.mirror l n) := by
  unfold State.mirror
  split
  · exact .refl s
  · split
    · split
      · exact s.putWord_wrote _ _ _
      · exact .refl s
    · exact .refl s

end Sys2Proof.Machine
end

