-- ==== Sys2Proof/Proofs/GroupEnd.lean ====
section
/-! PROOFS. The end of a group (R30, R75): what it sets in the group and in its node, and what it leaves of every other group. -/

namespace Sys2Proof.Machine

/-! ## A node of a launch changes -/

theorem modifyAt_getElem? {α : Type} (f : α → α) (i j : Nat) (xs : List α) :
    (modifyAt f i xs)[j]? = if j = i then xs[j]?.map f else xs[j]? := by
  induction xs generalizing i j with
  | nil => simp [modifyAt]
  | cons x xs ih => cases i <;> cases j <;> simp [modifyAt, ih]

/-- A change of one node is seen in that node alone. -/
theorem State.nodeRun_modNode (s : State) (l n : Nat) (f : NodeRun → NodeRun) (l' n' : Nat) :
    (s.modNode l n f).nodeRun l' n' = if l' = l ∧ n' = n then (s.nodeRun l' n').map f else s.nodeRun l' n' := by
  unfold State.modNode
  split
  · next none => by_cases hl : l' = l <;> simp [State.nodeRun, hl, none]
  · next x some =>
    by_cases hl : l' = l
    · simp [State.nodeRun, hl, some, modifyAt_getElem?]
    · simp [State.nodeRun, hl, mfind_mset_ne]

theorem State.modNode_rest (s : State) (l n : Nat) (f : NodeRun → NodeRun) : s.modNode l n f = { s with launches := (s.modNode l n f).launches } := by
  unfold State.modNode
  split <;> rfl

theorem State.nodeRun_changeNode (s : State) (l n : Nat) (f : NodeRun → NodeRun) (l' n' : Nat) :
    (s.changeNode l n f).nodeRun l' n' = if l' = l ∧ n' = n then (s.nodeRun l' n').map f else s.nodeRun l' n' := by
  rw [← State.nodeRun_modNode]
  unfold State.changeNode State.nodeRun
  rw [(State.mirror_wrote _ _ _).launches_eq]

@[simp] theorem State.changeNode_harts (s : State) (l n : Nat) (f : NodeRun → NodeRun) : (s.changeNode l n f).harts = s.harts := by
  unfold State.changeNode
  rw [(State.mirror_wrote _ _ _).harts_eq, State.modNode_rest]

/-! ## The groups of a team that have not ended -/

theorem mem_mset_of_ne {κ α : Type} [DecidableEq κ] {k j : κ} {x : α} {m : List (κ × α)} (h : (j, x) ∈ m) (n : j ≠ k) (v : α) :
    (j, x) ∈ mset k v m := by
  induction m with
  | nil => cases h
  | cons e m ih =>
    obtain ⟨i, y⟩ := e
    unfold mset
    split
    · next hi =>
      rcases List.mem_cons.mp h with eq | tail
      · cases eq
        exact absurd hi n
      · exact List.mem_cons_of_mem _ tail
    · rcases List.mem_cons.mp h with eq | tail
      · exact eq ▸ List.mem_cons_self
      · exact List.mem_cons_of_mem _ (ih tail)

theorem State.mem_liveGids {s : State} {k g : Nat} : g ∈ s.liveGids k ↔ g < 32 ∧ ∃ h : Hart, (HartId.group k g, h) ∈ s.harts ∧ h.live = true := by
  unfold State.liveGids
  simp only [List.mem_filter, List.mem_range, decide_eq_true_eq, List.mem_filterMap, Prod.exists]
  refine and_congr_right fun _ => ⟨?_, ?_⟩
  · rintro ⟨i, h, hm, he⟩
    cases i with
    | bank b => cases he
    | group t g' =>
      dsimp only at he
      split at he
      · next ht =>
        cases he
        exact ⟨h, ht.1 ▸ hm, ht.2⟩
      · cases he
  · rintro ⟨h, hm, hl⟩
    exact ⟨_, h, hm, by simp [hl]⟩

theorem State.liveGids_nodup (s : State) (k : Nat) : (s.liveGids k).Nodup := List.nodup_range.filter _

/-- A group that is not the team's only one has a companion. -/
theorem State.exists_other_gid {s : State} {k g : Nat} (hg : g ∈ s.liveGids k) (h : s.liveGids k ≠ [g]) : ∃ j ∈ s.liveGids k, j ≠ g := by
  by_contra none
  push Not at none
  have nodup := s.liveGids_nodup k
  match hl : s.liveGids k with
  | [] => simp [hl] at hg
  | [a] => simp_all
  | a :: b :: l =>
    have ha := none a (by simp [hl])
    have hb := none b (by simp [hl])
    simp [hl, ha, hb] at nodup

/-- What becomes of a group's registers does not end another group. -/
theorem State.mem_liveGids_setHartOf {s : State} {k g j : Nat} (hj : j ∈ s.liveGids k) (n : j ≠ g) (h : Hart) :
    j ∈ (s.setHartOf (.group k g) h).liveGids k := by
  obtain ⟨lt, x, hm, hl⟩ := State.mem_liveGids.mp hj
  exact State.mem_liveGids.mpr ⟨lt, x, mem_mset_of_ne hm (by simp [n]) h, hl⟩

/-! ## What the end of a team keeps -/

/-- From s to t no hart starts, stops or moves, and no node loses its trap or its cause. -/
structure State.KeepsEnds (s t : State) : Prop where
  live : ∀ i, (t.hartOf i).live = (s.hartOf i).live
  p0 : ∀ i, (t.hartOf i).p0 = (s.hartOf i).p0
  p1 : ∀ i, (t.hartOf i).p1 = (s.hartOf i).p1
  node : ∀ l n r, s.nodeRun l n = some r → ∃ q, t.nodeRun l n = some q ∧ q.trapped = r.trapped ∧ q.cause = r.cause

namespace State.KeepsEnds

theorem trans {s t u : State} (h : s.KeepsEnds t) (h' : t.KeepsEnds u) : s.KeepsEnds u where
  live i := (h'.live i).trans (h.live i)
  p0 i := (h'.p0 i).trans (h.p0 i)
  p1 i := (h'.p1 i).trans (h.p1 i)
  node l n r hr := by
    obtain ⟨q, hq, trapped, cause⟩ := h.node l n r hr
    obtain ⟨q', hq', trapped', cause'⟩ := h'.node l n q hq
    exact ⟨q', hq', trapped'.trans trapped, cause'.trans cause⟩

/-- A change outside the harts and the launches. -/
theorem of_eq {s t : State} (hh : t.harts = s.harts) (hl : t.launches = s.launches) : s.KeepsEnds t where
  live i := by rw [State.hartOf, hh, State.hartOf]
  p0 i := by rw [State.hartOf, hh, State.hartOf]
  p1 i := by rw [State.hartOf, hh, State.hartOf]
  node l n r hr := ⟨r, by rw [← hr, State.nodeRun, hl, State.nodeRun], rfl, rfl⟩

theorem refl (s : State) : s.KeepsEnds s := of_eq rfl rfl

theorem foldl {α : Type} {f : State → α → State} (hf : ∀ (s : State) (a : α), s.KeepsEnds (f s a)) (l : List α) (s : State) :
    s.KeepsEnds (l.foldl f s) :=
  List.foldlRecOn (motive := s.KeepsEnds) l f (refl s) fun u hu a _ => hu.trans (hf u a)

end State.KeepsEnds

theorem State.Wrote.keepsEnds {s t : State} (h : s.Wrote t) : s.KeepsEnds t := .of_eq h.harts_eq h.launches_eq

/-- Registers of a hart change, but not whether it lives, nor its paths. -/
theorem State.setHartOf_keepsEnds (s : State) (i : HartId) {h : Hart} (live : h.live = (s.hartOf i).live) (p0 : h.p0 = (s.hartOf i).p0)
    (p1 : h.p1 = (s.hartOf i).p1) : s.KeepsEnds (s.setHartOf i h) := by
  have same {α : Type} (f : Hart → α) (hf : f h = f (s.hartOf i)) (j : HartId) : f ((s.setHartOf i h).hartOf j) = f (s.hartOf j) := by
    by_cases hj : j = i
    · subst hj
      rw [State.hartOf_setHartOf, hf]
    · rw [State.hartOf_setHartOf_ne _ hj]
  exact ⟨same Hart.live live, same Hart.p0 p0, same Hart.p1 p1, (State.KeepsEnds.refl s).node⟩

theorem State.changeNode_keepsEnds (s : State) (l n : Nat) {f : NodeRun → NodeRun} (trapped : ∀ r, (f r).trapped = r.trapped)
    (cause : ∀ r, (f r).cause = r.cause) : s.KeepsEnds (s.changeNode l n f) where
  live i := by rw [State.hartOf, State.changeNode_harts, State.hartOf]
  p0 i := by rw [State.hartOf, State.changeNode_harts, State.hartOf]
  p1 i := by rw [State.hartOf, State.changeNode_harts, State.hartOf]
  node l' n' r hr := by
    rw [State.nodeRun_changeNode, hr]
    split
    · exact ⟨f r, rfl, trapped r, cause r⟩
    · exact ⟨r, rfl, rfl, rfl⟩

theorem State.completeOp_keepsEnds (s : State) (i : HartId) (k id : Nat) : s.KeepsEnds (s.completeOp i k id) :=
  s.setHartOf_keepsEnds i rfl rfl rfl

theorem State.setTeamOf_keepsEnds (s : State) (k : Nat) (t : Team) : s.KeepsEnds (s.setTeamOf k t) := .of_eq rfl rfl

theorem State.putDone_keepsEnds (s : State) (src : Port) (st : Option Nat) (remote : Option FabPkt) : s.KeepsEnds (s.putDone src st remote) := by
  have counted : s.KeepsEnds (s.putDone src st none) := by
    unfold State.putDone
    dsimp only
    split
    · exact s.completeOp_keepsEnds _ _ _
    · exact .refl s
  cases remote with
  | none => exact counted
  | some p => exact counted.trans ((s.putDone src st none).sendOn_wrote _ _).keepsEnds

theorem State.discardHeld_keepsEnds (s : State) (k : Nat) : s.KeepsEnds (s.discardHeld k) :=
  .foldl (fun u _ => (u.logError_wrote _ _ _ _ _ _).keepsEnds.trans (State.putDone_keepsEnds _ _ _ _)) _ s

theorem State.refuseAsker_keepsEnds (s : State) (src : Port) (asked : Nat × Nat) (n : Nat) : s.KeepsEnds (s.refuseAsker src asked n) := by
  have receive (h : Hart) (bad : List ((Nat × Nat) × Cause)) :
      (h.receive asked [] bad).live = h.live ∧ (h.receive asked [] bad).p0 = h.p0 ∧ (h.receive asked [] bad).p1 = h.p1 := by
    unfold Hart.receive
    split <;> exact ⟨rfl, rfl, rfl⟩
  unfold State.refuseAsker
  dsimp only
  split
  · obtain ⟨live, p0, p1⟩ := receive _ _
    exact s.setHartOf_keepsEnds _ live p0 p1
  · exact .of_eq rfl rfl
  · exact .refl s

theorem State.discardRing_keepsEnds (s : State) (k : Nat) : s.KeepsEnds (s.discardRing k) := by
  refine .foldl (fun u b => ?_) _ s
  refine (u.logError_wrote .discarded 0 (s.teamOf k).core (s.teamOf k).asid 0 (BitVec.ofNat 64 b.off)).keepsEnds.trans ?_
  dsimp only
  split
  · exact (State.sendOn_wrote _ _ _).keepsEnds
  · exact (State.sendOn_wrote _ _ _).keepsEnds
  · exact State.refuseAsker_keepsEnds _ _ _ _
  · exact State.refuseAsker_keepsEnds _ _ _ _
  · exact .refl _

theorem State.releaseTeam_keepsEnds (s : State) (k : Nat) : s.KeepsEnds (s.releaseTeam k) := by
  have discarded := (s.discardHeld_keepsEnds k).trans (State.discardRing_keepsEnds _ k)
  unfold State.releaseTeam
  dsimp only
  split
  · exact .refl s
  · refine State.KeepsEnds.trans ?_ (State.changeNode_keepsEnds _ _ _ (fun _ => rfl) fun _ => rfl)
    exact discarded.trans (.of_eq rfl rfl)

/-! ## The parts of `State.endGroup` -/

/-- The registers of a group that has ended. -/
def Hart.ended (h : Hart) : Hart := { h with live := false, p0 := Path.idle, p1 := Path.idle, recs := [], region := none, causes := [], held := 0 }

/-- A spare block that was lent to a group of a role is its core's again (R75, R89). -/
def State.returnSpare (s : State) (k g role : Nat) : State :=
  let t := s.teamOf k
  let c := s.coreOf t.core
  if c.spare = some (k, g) then
    (s.setCoreOf t.core { c with spare := none }).setTeamOf k { t with roles := modifyAt (fun r => { r with lent := false }) role t.roles }
  else s

/-- The fold that a team has bound on its core is free (R75, R326). -/
def State.giveUpFold (s : State) (k core : Nat) : State :=
  match (s.coreOf core).fold with
  | some f => if f.team = k then s.unbindFold core else s
  | none => s

/-- A team's running stream is asked to stop, and a faulted one has stopped (R75, R164). -/
def State.endStream (s : State) (k : Nat) : State :=
  let t := s.teamOf k
  let s := s.setTeamOf k { t with seq := { t.seq with stopAsked := t.seq.stopAsked || t.seq.st == .running } }
  let t := s.teamOf k
  if t.seq.st = .faulted then s.setTeamOf k { t with seq := { t.seq with st := .stopped } } else s

/-- The group is gone, and a lent spare block is back; its tokens are still out. -/
def State.closeGroup (s : State) (k g : Nat) : State :=
  (s.setHartOf (.group k g) (s.hartOf (.group k g)).ended).returnSpare k g (s.hartOf (.group k g)).role

/-- The closed group's tokens are back, and its node has the cause of its unhandled trap (R75, R347). -/
def State.trapNode (s : State) (k g : Nat) (c : BitVec 7) : State :=
  let t := s.teamOf k
  (s.setTeamOf k { t with acc := returnTokens g t.acc }).changeNode t.launch t.node fun n => { n with trapped := true, cause := c }

/-- A group that ends by an unhandled trap: it closes, its node takes the cause, and its team ends with its last group. -/
theorem State.endGroup_trapped (s : State) (k g : Nat) (c : BitVec 7) :
    s.endGroup k g (some c) =
      let w := (s.closeGroup k g).trapNode k g c
      if (w.liveGids k).isEmpty then ((w.giveUpFold k ((s.closeGroup k g).teamOf k).core).endStream k).releaseTeam k else w := rfl

theorem State.giveUpFold_keepsEnds (s : State) (k core : Nat) : s.KeepsEnds (s.giveUpFold k core) := by
  have unbound : s.KeepsEnds (s.unbindFold core) := by
    unfold State.unbindFold
    split
    · exact .refl s
    · exact .of_eq rfl rfl
  unfold State.giveUpFold
  split
  · split
    · exact unbound
    · exact .refl s
  · exact .refl s

theorem State.endStream_keepsEnds (s : State) (k : Nat) : s.KeepsEnds (s.endStream k) := by
  unfold State.endStream
  dsimp only
  split
  · exact (s.setTeamOf_keepsEnds k _).trans (State.setTeamOf_keepsEnds _ k _)
  · exact s.setTeamOf_keepsEnds k _

/-- A team that has lost its last group changes no group any more. -/
theorem State.endGroup_keepsEnds (s : State) (k g : Nat) (c : BitVec 7) : ((s.closeGroup k g).trapNode k g c).KeepsEnds (s.endGroup k g (some c)) := by
  rw [State.endGroup_trapped]
  dsimp only
  split
  · exact (State.giveUpFold_keepsEnds _ k _).trans ((State.endStream_keepsEnds _ k).trans (State.releaseTeam_keepsEnds _ k))
  · exact .refl _

/-- Closing a group changes its own registers alone, and no launch; its team belongs to the same node. -/
theorem State.closeGroup_frame (s : State) (k g : Nat) :
    (s.closeGroup k g).harts = (s.setHartOf (.group k g) (s.hartOf (.group k g)).ended).harts ∧ (s.closeGroup k g).launches = s.launches
      ∧ ((s.closeGroup k g).teamOf k).launch = (s.teamOf k).launch ∧ ((s.closeGroup k g).teamOf k).node = (s.teamOf k).node := by
  unfold State.closeGroup State.returnSpare
  dsimp only
  split
  · simp
  · exact ⟨rfl, rfl, rfl, rfl⟩

/-! ## A group that ends by an unhandled trap -/

theorem State.trapNode_closeGroup_harts (s : State) (k g : Nat) (c : BitVec 7) :
    ((s.closeGroup k g).trapNode k g c).harts = (s.setHartOf (.group k g) (s.hartOf (.group k g)).ended).harts :=
  (State.changeNode_harts _ _ _ _).trans (s.closeGroup_frame k g).1

/-- The group has no path any more (R30). -/
theorem State.endGroup_hartOf (s : State) (k g : Nat) (c : BitVec 7) :
    let h := (s.endGroup k g (some c)).hartOf (.group k g)
    h.live = false ∧ h.p0.active = false ∧ h.p1.active = false := by
  have keeps := s.endGroup_keepsEnds k g c
  have ended : ((s.closeGroup k g).trapNode k g c).hartOf (.group k g) = (s.hartOf (.group k g)).ended := by
    rw [State.hartOf, State.trapNode_closeGroup_harts, ← State.hartOf, State.hartOf_setHartOf]
  dsimp only
  rw [keeps.live, keeps.p0, keeps.p1, ended]
  exact ⟨rfl, rfl, rfl⟩

/-- The group's node is trapped with the cause (R347). -/
theorem State.endGroup_node (s : State) (k g : Nat) (c : BitVec 7) {r : NodeRun} (hr : s.nodeRun (s.teamOf k).launch (s.teamOf k).node = some r) :
    ∃ q, (s.endGroup k g (some c)).nodeRun (s.teamOf k).launch (s.teamOf k).node = some q ∧ q.trapped = true ∧ q.cause = c := by
  obtain ⟨-, launches, launch, node⟩ := s.closeGroup_frame k g
  have closed (t : Team) : ((s.closeGroup k g).setTeamOf k t).nodeRun (s.teamOf k).launch (s.teamOf k).node = some r := by
    rw [← hr, State.nodeRun, State.setTeamOf_launches, launches, State.nodeRun]
  refine (s.endGroup_keepsEnds k g c).node _ _ { r with trapped := true, cause := c } ?_
  unfold State.trapNode
  rw [State.nodeRun_changeNode, launch, node, if_pos ⟨rfl, rfl⟩, closed]
  rfl

/-- Where another group of the team lives on, no hart but the group's own changes. -/
theorem State.endGroup_others (s : State) (k g : Nat) (c : BitVec 7) (hg : g ∈ s.liveGids k) (h : s.liveGids k ≠ [g]) {j : HartId}
    (hj : j ≠ .group k g) : (s.endGroup k g (some c)).hartOf j = s.hartOf j := by
  have harts := s.trapNode_closeGroup_harts k g c
  have stands : ¬ (((s.closeGroup k g).trapNode k g c).liveGids k).isEmpty := by
    obtain ⟨other, hm, ne⟩ := State.exists_other_gid hg h
    have still := State.mem_liveGids_setHartOf hm ne (s.hartOf (.group k g)).ended
    rw [State.liveGids, harts, ← State.liveGids, List.isEmpty_iff]
    exact List.ne_nil_of_mem still
  have eq : s.endGroup k g (some c) = (s.closeGroup k g).trapNode k g c := by
    rw [State.endGroup_trapped]
    exact if_neg stands
  rw [eq, State.hartOf, harts, ← State.hartOf, State.hartOf_setHartOf_ne _ hj]

end Sys2Proof.Machine
end

