-- ==== Sys2Proof/Proofs/AgentEvents.lean ====
section
/-! PROOFS. The events of groups, streams and bank cores: beginning a clause (R23, R31 to R33), boundary causes (R361, R362), waking (R98), parked faults (R367 to R369) and register errors (R375). -/

namespace Sys2Proof.Machine
open Sys2Proof.Claims

/-! ## Fetching a clause -/

/-- A fetched clause stands at its first word, and its header word says the rest (R23, R33). -/
theorem fetchClause_ok {f : Word64 → Res Word32} {stream : Bool} {hdr : Word64} {c : Clause} {w : Word32} (h : fetchClause f stream hdr = .ok (c, w)) :
    f hdr = .ok w ∧ c.hdr = hdr ∧ c.cls = hdrClass w ∧ c.count = hdrCount w ∧ c.idx = 1 := by
  unfold fetchClause at h
  obtain ⟨w', fetched, h⟩ := exists_ok_of_bind_eq_ok h
  obtain ⟨-, -, h⟩ := exists_ok_of_bind_eq_ok h
  obtain ⟨ws, -, h⟩ := exists_ok_of_bind_eq_ok h
  cases h
  exact ⟨fetched, rfl, rfl, rfl, rfl⟩

/-- A malformed header traps with ILLEGAL_CLAUSE before another word is fetched (R32). -/
theorem fetchClause_malformed {f : Word64 → Res Word32} {stream : Bool} {hdr : Word64} {w : Word32} (fetched : f hdr = .ok w)
    (bad : hdrBad stream w = true) : fetchClause f stream hdr = .error (trapOf .illegalClause 0) := by
  have refused : need (!hdrBad stream w) .illegalClause 0 = .error (trapOf .illegalClause 0) := need_error (by rw [bad]; rfl) _ _
  unfold fetchClause
  rw [fetched]
  simp only [bind, Except.bind, refused]

/-- The ways in which the header of a clause of a group or a bank core is malformed (R32). -/
theorem hdrBad_iff (w : Word32) :
    hdrBad false w = true ↔ w.extractLsb' 0 4 = 0 ∨ w.getLsbD 20 = true ∨ w.extractLsb' 21 11 ≠ 0 ∨ w.extractLsb' 4 3 = 3 := by
  have count : hdrCount w = 0 ↔ w.extractLsb' 0 4 = 0 := by
    rw [hdrCount, ← BitVec.toNat_inj]
    rfl
  simp [hdrBad, hdrClass, count, or_assoc]

theorem Hart.waitMet_iff (h : Hart) (mask : BitVec 8) (thr : Nat) :
    h.waitMet mask thr = true ↔ ∀ j < 8, mask.getLsbD j = true → h.counter j ≤ thr := by
  simp [Hart.waitMet, imp_iff_not_or]

/-- Latches that nothing has written since the clause began are invalid (R23, R42). -/
theorem noLatch_invalid {n : Nat} (hn : n < 4) : (vget (Vector.replicate 4 Latch.none) n default).kind = .invalid := by
  simp [vget, hn, Latch.none]

/-! ## Beginning a clause -/

/-- The focus's path begins a clause with header word w: its latches are invalid, and a wait that is met discards the L1 lines of the core (R23, R255). -/
def State.beginClause (s : State) (c : Clause) (w : Word32) : State :=
  let s := if w.extractLsb' 8 8 = 0 then s else s.setCoreOf s.team.core { s.coreOf s.team.core with l1 := [] }
  s.setPath { s.path.take with clause := some c, latches := Vector.replicate 4 Latch.none }

theorem State.openClause_met {s : State} {c : Clause} {w : Word32} (hf : fetchClause s.fetchWord false s.path.pc = .ok (c, w))
    (hm : s.hart.waitMet (w.extractLsb' 8 8) (w.extractLsb' 16 4).toNat = true) : s.openClause = .ok (s.beginClause c w) := by
  unfold State.openClause
  rw [hf]
  simp only [bind, Except.bind, hm]
  rfl
theorem State.openClause_unmet {s : State} {c : Clause} {w : Word32} (hf : fetchClause s.fetchWord false s.path.pc = .ok (c, w))
    (hm : s.hart.waitMet (w.extractLsb' 8 8) (w.extractLsb' 16 4).toNat = false) :
    s.openClause = .error (.suspend (.header (w.extractLsb' 8 8) (w.extractLsb' 16 4).toNat)) := by
  unfold State.openClause
  rw [hf]
  simp only [bind, Except.bind, hm]
  rfl
theorem State.openClause_error {s : State} {h : Halt} (hf : fetchClause s.fetchWord false s.path.pc = .error h) : s.openClause = .error h := by
  unfold State.openClause
  rw [hf]
  rfl

theorem State.beginClause_rest (s : State) (c : Clause) (w : Word32) :
    s.beginClause c w = { s with harts := (s.beginClause c w).harts, cores := (s.beginClause c w).cores } := by
  unfold State.beginClause
  dsimp only
  split <;> rfl
theorem State.beginClause_harts (s : State) (c : Clause) (w : Word32) :
    (s.beginClause c w).harts = (s.setPath { s.path.take with clause := some c, latches := Vector.replicate 4 Latch.none }).harts := by
  unfold State.beginClause
  dsimp only
  split <;> rfl
theorem State.beginClause_path (s : State) (c : Clause) (w : Word32) :
    (s.beginClause c w).path = { s.path.take with clause := some c, latches := Vector.replicate 4 Latch.none } := by
  unfold State.beginClause
  dsimp only
  rw [State.path_setPath]
  split <;> rfl
theorem State.beginClause_l1 (s : State) (c : Clause) {w : Word32} (hw : w.extractLsb' 8 8 ≠ 0) : ((s.beginClause c w).coreOf s.team.core).l1 = [] := by
  unfold State.beginClause
  dsimp only
  rw [if_neg hw]
  simp
/-- Beginning a clause writes no scalar and no vector register. -/
theorem State.beginClause_regs (s : State) (c : Clause) (w : Word32) (i : HartId) :
    ((s.beginClause c w).hartOf i).s = (s.hartOf i).s ∧ ((s.beginClause c w).hartOf i).v = (s.hartOf i).v := by
  rw [State.hartOf, State.beginClause_harts, ← State.hartOf, State.setPath, State.setHart]
  by_cases hi : i = s.hid
  · subst hi
    simp [State.hart]
  · rw [State.hartOf_setHartOf_ne _ hi]
    exact ⟨rfl, rfl⟩

/-! ## Paths that are passed over (R100) -/

/-- Two states of a hart that differ at most in how often its paths have been passed over. -/
def Hart.Aged (h h' : Hart) : Prop :=
  h' = { h with p0 := { h.p0 with aging := h'.p0.aging }, p1 := { h.p1 with aging := h'.p1.aging } }

/-- Two states that differ at most in the aging of paths other than that of f. -/
structure State.Aged (f : Focus) (s t : State) : Prop where
  rest : t = { s with harts := t.harts }
  hart : ∀ i, (s.hartOf i).Aged (t.hartOf i)
  path : t.pathAt f = s.pathAt f

/-- Being passed over ages a path and changes nothing else. -/
theorem State.passOver_aged (s : State) (f : Focus) (fs : List Focus)
    (apart : ∀ q ∈ fs, q ≠ f → (q.team, q.gid, q.path) ≠ (f.team, f.gid, f.path)) : State.Aged f s (s.passOver f fs) := by
  refine List.foldlRecOn (motive := State.Aged f s) _ _ ⟨rfl, fun _ => rfl, rfl⟩ fun u hu q hq => ?_
  split
  · exact hu
  · next ne =>
    obtain ⟨rest, hart, path⟩ := hu
    refine ⟨?_, fun i => ?_, ?_⟩
    · rw [rest]
      rfl
    · by_cases hi : i = .group q.team q.gid
      · subst hi
        rw [State.hartOf_setHartOf]
        have := hart (.group q.team q.gid)
        unfold Hart.Aged at *
        rw [this]
        cases q.path <;> rfl
      · rw [State.hartOf_setHartOf_ne _ hi]
        exact hart i
    · rw [← path]
      unfold State.pathAt
      by_cases hi : HartId.group f.team f.gid = .group q.team q.gid
      · obtain ⟨team, gid⟩ := HartId.group.inj hi
        have other : f.path = !q.path := Bool.eq_not.mpr fun hp => apart q hq ne (by rw [team, gid, hp])
        rw [hi, State.hartOf_setHartOf, other, Hart.path_setPath_not]
      · rw [State.hartOf_setHartOf_ne _ hi]

/-- A focus in the list of a quadrant is known by its team, group and path. -/
theorem State.mem_quadPaths {s : State} {core quad : Nat} {q : Focus} (h : q ∈ s.quadPaths core quad) : q = ⟨.group, q.team, q.gid, q.path, 0, 0⟩ := by
  unfold State.quadPaths at h
  obtain ⟨⟨k, t⟩, -, h⟩ := List.mem_flatMap.mp h
  dsimp only at h
  split at h
  · cases h
  · obtain ⟨g, -, h⟩ := List.mem_flatMap.mp h
    split at h
    · simp only [List.mem_cons, List.not_mem_nil, or_false] at h
      rcases h with rfl | rfl <;> rfl
    · cases h

/-- Fetching reads of the registers the context, the mode and what has come from other devices only. -/
theorem State.fetchWord_harts (s : State) (hs : AMap HartId Hart)
    (same : let h := ({ s with harts := hs } : State).hart
      h.asid = s.hart.asid ∧ h.sys = s.hart.sys ∧ h.arrived = s.hart.arrived ∧ h.bad = s.hart.bad) :
    State.fetchWord { s with harts := hs } = s.fetchWord := by
  obtain ⟨asid, sys, arrived, bad⟩ := same
  funext va
  unfold State.fetchWord
  rw [asid, sys, arrived, bad]
  rfl

/-! ## CLAUSE_EXECUTE -/

/-- The focus of a path of a group. -/
def groupFocus (k g : Nat) (p : Bool) : Focus := ⟨.group, k, g, p, 0, 0⟩

/-- The other paths of a quadrant are other paths. -/
theorem State.quadPaths_apart {s : State} {core quad k g : Nat} {p : Bool} {q : Focus} (h : q ∈ s.quadPaths core quad) (ne : q ≠ groupFocus k g p) :
    (q.team, q.gid, q.path) ≠ (k, g, p) := by
  intro eq
  rw [State.mem_quadPaths h] at ne
  cases eq
  exact ne rfl

/-- The state in which the path is the focus and the other ready paths of its quadrant have been passed over (R100). -/
def State.issuedOn (s : State) (k g : Nat) (p : Bool) : State :=
  State.passOver { s with cur := groupFocus k g p } (groupFocus k g p)
    ((s.quadPaths (s.teamOf k).core (s.hartOf (.group k g)).quad).filter s.readyAt)

theorem State.issuedOn_aged (s : State) (k g : Nat) (p : Bool) :
    State.Aged (groupFocus k g p) { s with cur := groupFocus k g p } (s.issuedOn k g p) :=
  State.passOver_aged _ _ _ fun _ hq ne => State.quadPaths_apart (List.mem_of_mem_filter hq) ne

/-- A path that has been passed over fetches as before. -/
theorem State.issuedOn_fetchWord (s : State) (k g : Nat) (p : Bool) :
    (s.issuedOn k g p).fetchWord = State.fetchWord { s with cur := groupFocus k g p } := by
  obtain ⟨rest, hart, -⟩ := s.issuedOn_aged k g p
  have aged : (State.hart { s with cur := groupFocus k g p }).Aged (State.hart { s with cur := groupFocus k g p, harts := (s.issuedOn k g p).harts }) :=
    hart (.group k g)
  rw [rest]
  refine State.fetchWord_harts _ _ ?_
  dsimp only
  rw [aged]
  exact ⟨rfl, rfl, rfl, rfl⟩

section
variable {s : State} {k g : Nat} {p : Bool} (ready : (s.hartOf (.group k g)).ready p = true) (boundary : ((s.hartOf (.group k g)).path p).clause = none)
  (free : ∀ q ∈ s.quadPaths (s.teamOf k).core (s.hartOf (.group k g)).quad, (s.pathAt q).issuing = false)
include ready boundary free

/-- A ready path whose quadrant issues nothing goes by what its header says: it stops there, or it begins the clause. -/
theorem State.issuePath_at_boundary :
    (∀ e, State.openClause { s with cur := groupFocus k g p } = .error e →
      s.issuePath (groupFocus k g p) = State.stopped { s with cur := groupFocus k g p } e)
    ∧ ∀ t t', State.openClause { s with cur := groupFocus k g p } = .ok t → (s.issuedOn k g p).openClause = .ok t' →
      s.issuePath (groupFocus k g p) = t' := by
  have idle : ((s.hartOf (.group k g)).path p).issuing = false := by
    simp only [Hart.ready, Bool.and_eq_true, Bool.not_eq_true'] at ready
    exact ready.1.1.1.2
  have none : (s.quadPaths (s.teamOf k).core (s.hartOf (.group k g)).quad).any (fun q => (s.pathAt q).issuing) = false := by
    simpa using free
  unfold State.issuePath
  dsimp only [groupFocus]
  simp only [idle, ready, none, boundary]
  refine ⟨fun e stops => ?_, fun t t' opens begins => ?_⟩
  · rw [show State.openClause { s with cur := ⟨.group, k, g, p, 0, 0⟩ } = .error e from stops]
    rfl
  · have aged : (State.passOver { s with cur := ⟨.group, k, g, p, 0, 0⟩ } ⟨.group, k, g, p, 0, 0⟩
        ((s.quadPaths (s.teamOf k).core (s.hartOf (.group k g)).quad).filter s.readyAt)).openClause = .ok t' := begins
    rw [show State.openClause { s with cur := ⟨.group, k, g, p, 0, 0⟩ } = .ok t from opens, aged]
    rfl

/-- A header that is well formed and whose wait is met: the clause begins (R23, R31). -/
theorem State.clauseExecute_begins {c : Clause} {w : Word32}
    (fetched : fetchClause (State.fetchWord { s with cur := groupFocus k g p }) false ((s.hartOf (.group k g)).path p).pc = .ok (c, w))
    (met : (s.hartOf (.group k g)).waitMet (w.extractLsb' 8 8) (w.extractLsb' 16 4).toNat = true) :
    exec (.clauseExecute (groupFocus k g p)) s = .next ((s.issuedOn k g p).beginClause c w) := by
  obtain ⟨rest, hart, path⟩ := s.issuedOn_aged k g p
  have cur : (s.issuedOn k g p).cur = groupFocus k g p := by rw [rest]
  have hid : (s.issuedOn k g p).hid = .group k g := by rw [State.hid, cur]; rfl
  have pc : (s.issuedOn k g p).path.pc = ((s.hartOf (.group k g)).path p).pc := by
    rw [State.path, State.hart, hid, cur]
    exact congrArg Path.pc path
  have met' : (s.issuedOn k g p).hart.waitMet (w.extractLsb' 8 8) (w.extractLsb' 16 4).toNat = true := by
    rw [State.hart, hid, hart (.group k g)]
    exact met
  have opens := State.openClause_met (s := { s with cur := groupFocus k g p }) fetched met
  have begins := State.openClause_met (s := s.issuedOn k g p) (by rw [State.issuedOn_fetchWord, pc]; exact fetched) met'
  exact congrArg Host.Outcome.next ((State.issuePath_at_boundary ready boundary free).2 _ _ opens begins)

/-- A header wait that is not met suspends the path (R31, R98). -/
theorem State.clauseExecute_waits {c : Clause} {w : Word32}
    (fetched : fetchClause (State.fetchWord { s with cur := groupFocus k g p }) false ((s.hartOf (.group k g)).path p).pc = .ok (c, w))
    (unmet : (s.hartOf (.group k g)).waitMet (w.extractLsb' 8 8) (w.extractLsb' 16 4).toNat = false) :
    exec (.clauseExecute (groupFocus k g p)) s = .next (State.stopped { s with cur := groupFocus k g p }
      (.suspend (.header (w.extractLsb' 8 8) (w.extractLsb' 16 4).toNat))) :=
  congrArg Host.Outcome.next ((State.issuePath_at_boundary ready boundary free).1 _
    (State.openClause_unmet (s := { s with cur := groupFocus k g p }) fetched unmet))

/-- A malformed header traps (R32). -/
theorem State.clauseExecute_malformed {w : Word32}
    (fetched : State.fetchWord { s with cur := groupFocus k g p } ((s.hartOf (.group k g)).path p).pc = .ok w) (bad : hdrBad false w = true) :
    exec (.clauseExecute (groupFocus k g p)) s = .next (State.stopped { s with cur := groupFocus k g p } (trapOf .illegalClause 0)) :=
  congrArg Host.Outcome.next ((State.issuePath_at_boundary ready boundary free).1 _
    (State.openClause_error (s := { s with cur := groupFocus k g p }) (fetchClause_malformed fetched bad)))

end

/-- What begins with a clause of a group: its latches and its issue slot; the path keeps its place and its mask, and no register changes (R23). -/
theorem State.issuedOn_beginClause (s : State) (k g : Nat) (p : Bool) (c : Clause) (w : Word32) :
    let t := (s.issuedOn k g p).beginClause c w
    let x := (s.hartOf (.group k g)).path p
    t.cur = groupFocus k g p ∧ t.path = { x.take with clause := some c, latches := Vector.replicate 4 Latch.none }
      ∧ (w.extractLsb' 8 8 ≠ 0 → (t.coreOf (s.teamOf k).core).l1 = []) ∧ t.teams = s.teams ∧ t.mem = s.mem
      ∧ ∀ j, (t.hartOf j).s = (s.hartOf j).s ∧ (t.hartOf j).v = (s.hartOf j).v := by
  obtain ⟨rest, hart, path⟩ := s.issuedOn_aged k g p
  have cur : (s.issuedOn k g p).cur = groupFocus k g p := by rw [rest]
  have teams : (s.issuedOn k g p).teams = s.teams := by rw [rest]
  have mem : (s.issuedOn k g p).mem = s.mem := by rw [rest]
  have team : (s.issuedOn k g p).team = s.teamOf k := by rw [State.team, cur, State.teamOf, teams]; rfl
  refine ⟨?_, ?_, fun hw => ?_, ?_, ?_, fun j => ?_⟩
  · rw [State.beginClause_rest]
    exact cur
  · have focus : (s.issuedOn k g p).path = (s.hartOf (.group k g)).path p := by
      rw [State.path, State.hart, State.hid, cur]
      exact path
    rw [State.beginClause_path, focus]
  · rw [← team]
    exact State.beginClause_l1 _ c hw
  · rw [State.beginClause_rest]
    exact teams
  · rw [State.beginClause_rest]
    exact mem
  · obtain ⟨scalars, vectors⟩ := (s.issuedOn k g p).beginClause_regs c w j
    have aged := hart j
    rw [scalars, vectors, aged]
    exact ⟨rfl, rfl⟩

/-- A suspended focus keeps everything but the suspension of its path. -/
theorem State.stopped_suspend (s : State) (y : Wait) :
    let t := s.stopped (.suspend y)
    t.path.susp = some y ∧ t.path.clause = s.path.clause ∧ t.teams = s.teams ∧ t.mem = s.mem := by
  have path : (s.stopped (.suspend y)).path = { s.path with susp := some y, since := s.tick, stalled := false, issuing := false } :=
    s.path_setPath _
  dsimp only
  rw [path]
  exact ⟨rfl, rfl, rfl, rfl⟩

/-! ## Streams and bank cores -/

/-- A running stream at a boundary begins its clause (R163). -/
theorem State.clauseExecute_stream {s : State} {k : Nat} {c : Clause} {w : Word32} (running : (s.teamOf k).seq.st = .running)
    (sound : (s.teamOf k).seq.fault = none) (goes : (s.teamOf k).seq.stopAsked = false) (boundary : (s.teamOf k).seq.clause = none)
    (fetched : fetchClause (s.fetchStream k) true (s.teamOf k).seq.spc = .ok (c, w)) :
    exec (.clauseExecute ⟨.stream, k, 0, false, 0, 0⟩) s = .next
      (State.modSeq { s with cur := ⟨.stream, k, 0, false, 0, 0⟩ } k fun q => { q with clause := some c, stalled := false }) := by
  have issues : (s.teamOf k).seq.issues = true := by
    simp [Seq.issues, running, sound, goes]
  show Host.Outcome.next (s.issueStream ⟨.stream, k, 0, false, 0, 0⟩) = _
  unfold State.issueStream
  simp [issues, boundary, fetched]

/-- A running bank core at a boundary begins its clause, of one of the four classes that it has (R286, R287). -/
theorem State.clauseExecute_bank {s : State} {b : Nat} {c : Clause} {w : Word32} (running : (s.bankOf b).running = true)
    (active : (s.hartOf (.bank b)).p0.active = true) (boundary : (s.hartOf (.bank b)).p0.clause = none)
    (fetched : fetchClause (State.fetchWord { s with cur := ⟨.bank, 0, 0, false, b, 0⟩ }) false (s.hartOf (.bank b)).p0.pc = .ok (c, w))
    (cls : c.cls ∈ ([0, 1, 2, 7] : List (BitVec 3))) :
    exec (.clauseExecute ⟨.bank, 0, 0, false, b, 0⟩) s = .next (State.setPath { s with cur := ⟨.bank, 0, 0, false, b, 0⟩ }
      { (s.hartOf (.bank b)).p0.take with clause := some c, latches := Vector.replicate 4 Latch.none }) := by
  obtain ⟨header, -, hcls, -, -⟩ := fetchClause_ok fetched
  have accepted : need (!decide (3 ≤ (hdrClass w).toNat) || hdrClass w == 7) .illegalClause 0 = .ok () := by
    refine need_ok ?_ _ _
    rw [← hcls]
    simp only [List.mem_cons, List.not_mem_nil, or_false] at cls
    rcases cls with h | h | h | h <;> rw [h] <;> rfl
  show Host.Outcome.next (s.issueBank ⟨.bank, 0, 0, false, b, 0⟩) = _
  unfold State.issueBank
  simp only [running, active, boundary, header, accepted, fetched, bind, Except.bind]
  rfl

/-! ## Boundary causes (R361, R362) -/

/-- The first pending cause is that of the path which it names, or of slot 0. -/
theorem Hart.causeFor_first {h : Hart} {e : BCause} {rest : List BCause} (hc : h.causes = e :: rest) : h.causeFor (e.path.getD false) = some 0 := by
  simp [Hart.causeFor, hc, List.findIdx?_cons]

/-- Slot 0 has no cause to take where every cause names slot 1 and a path is there. -/
theorem Hart.causeFor_slot0 {h : Hart} (other : ∀ q ∈ h.causes, q.path = some true) (active : h.p1.active = true) : h.causeFor false = none := by
  unfold Hart.causeFor
  rw [List.findIdx?_eq_none_iff]
  intro q hq
  simp [other q hq, Hart.path, active]

/-- Which path takes a cause first: the one that the first cause names, where it stands at a boundary. -/
theorem Hart.taker {h : Hart} {e : BCause} {rest : List BCause} (hc : h.causes = e :: rest)
    (other : e.path.getD false = true → ∀ q ∈ h.causes, q.path = some true) (active : (h.path (e.path.getD false)).active = true)
    (at_ : h.atBoundary (e.path.getD false) = true) :
    ([false, true].find? fun p => h.atBoundary p && (h.causeFor p).isSome) = some (e.path.getD false) := by
  have first := Hart.causeFor_first hc
  cases hp : e.path.getD false with
  | false =>
    rw [hp] at first at_
    simp [first, at_]
  | true =>
    rw [hp] at first at_ active
    simp [first, at_, Hart.causeFor_slot0 (other hp) active]

/-- The registers of a group that has entered its handler for a boundary cause (R362). -/
theorem Hart.enter_boundary (h : Hart) (p : Bool) (t : TrapRec) (epc handler : Word64) :
    let r := h.enter p t true epc handler
    r.tcause.toNat = 128 + t.cause.code.toNat ∧ r.tval = t.tval ∧ r.epc = epc ∧ r.sys = true
      ∧ r.stopOther = (if (h.path (!p)).active then some (!p) else none) ∧ r.causes = h.causes
      ∧ (r.path p).pc = handler ∧ (r.path p).clause = none ∧ (r.path p).susp = none
      ∧ (∀ n < 4, (vget (r.path p).latches n default).kind = .invalid) ∧ r.s = h.s ∧ r.v = h.v ∧ r.m = h.m := by
  have code : (tcauseOf t.cause true false).toNat = 128 + t.cause.code.toNat := by
    have bits : tcauseOf t.cause true false = 1#57 ++ t.cause.code := rfl
    rw [bits, BitVec.toNat_append, ← Nat.shiftLeft_add_eq_or_of_lt t.cause.code.isLt]
    rfl
  have left : (h.abandon p).path (!p) = h.path (!p) ∧ (h.abandon p).causes = h.causes ∧ (h.abandon p).s = h.s ∧ (h.abandon p).v = h.v
      ∧ (h.abandon p).m = h.m := by
    unfold Hart.abandon
    split
    · split <;> cases p <;> exact ⟨rfl, rfl, rfl, rfl, rfl⟩
    · exact ⟨rfl, rfl, rfl, rfl, rfl⟩
  obtain ⟨other, causes, scalars, vectors, masks⟩ := left
  unfold Hart.enter
  dsimp only
  rw [other]
  simp only [Hart.path_setPath, Hart.setPath_tcause, Hart.setPath_tval, Hart.setPath_epc, Hart.setPath_sys, Hart.setPath_stopOther,
    Hart.setPath_causes, Hart.setPath_s, Hart.setPath_v, Hart.setPath_m, true_and]
  exact ⟨code, causes, fun n hn => noLatch_invalid hn, scalars, vectors, masks⟩

/-- BOUNDARY_CAUSE_TAKEN: the first pending cause leaves the list and is taken as a trap of its path (R361, R362). -/
theorem State.boundaryCauseTaken_takes {s : State} {k g : Nat} {e : BCause} {rest : List BCause}
    (live : (s.hartOf (.group k g)).live = true) (here : (s.hartOf (.group k g)).evicted = false)
    (idle : (s.hartOf (.group k g)).p0.issuing = false) (idle' : (s.hartOf (.group k g)).p1.issuing = false) (hc : (s.hartOf (.group k g)).causes = e :: rest)
    (taker : ([false, true].find? fun p => (s.hartOf (.group k g)).atBoundary p && ((s.hartOf (.group k g)).causeFor p).isSome) = some (e.path.getD false)) :
    exec (.boundaryCauseTaken k g) s = .next ((s.setHartOf (.group k g) { s.hartOf (.group k g) with causes := rest }).takeTrap k g (e.path.getD false)
      ⟨e.cause, e.tval, 0, e.tval, 0⟩ true ((s.hartOf (.group k g)).path (e.path.getD false)).wordAddr) := by
  have goes : (!(s.hartOf (.group k g)).live || (s.hartOf (.group k g)).evicted || (s.hartOf (.group k g)).p0.issuing
      || (s.hartOf (.group k g)).p1.issuing) = false := by
    rw [live, here, idle, idle']
    rfl
  show execBoundaryCauseTaken k g s = _
  unfold execBoundaryCauseTaken
  dsimp only
  rw [goes, taker]
  dsimp only
  rw [Hart.causeFor_first hc, hc]
  rfl

/-- The trap of a boundary cause of a group in user mode with no region open enters the handler, in the state with the frame written (R362). -/
theorem State.takeTrap_enters {z v : State} {k g : Nat} {p : Bool} {t : TrapRec} {epc : Word64} (closed : (z.hartOf (.group k g)).region = none)
    (user : (z.hartOf (.group k g)).sys = false) (saved : z.saveTrap (.group k g) p epc t.lanes t.addr2 0 = .ok v)
    (handled : (v.ctx (z.hartOf (.group k g)).asid.toNat).handler ≠ 0) :
    z.takeTrap k g p t true epc = v.setHartOf (.group k g)
      ((z.hartOf (.group k g)).enter p t true epc (v.ctx (z.hartOf (.group k g)).asid.toNat).handler) := by
  have entered := State.enterTrap_handled z v k g p t true epc user saved handled
  rw [(State.saveTrap_wrote saved).hartOf_eq] at entered
  unfold State.takeTrap
  rw [closed]
  exact entered

/-! ## The fault ring (R367, R369) -/

/-- The record of a parked fault, with the next serial of its context. -/
def State.nextFault (s : State) (k g kind : Nat) (tval epc lanes : Word64) : List Byte :=
  faultRecord (mget 0 (s.hartOf (.group k g)).asid.toNat s.service.faultSerial) (s.teamOf k).core g tval lanes epc kind

/-- A path that has given up its issue slot and is suspended. -/
def Path.heldBy (x : Path) (y : Wait) : Path := { x with susp := some y, stalled := false, issuing := false }

/-- The next fault of a context will have serial n. -/
def State.setFaultSerial (s : State) (asid : Nat) (n : BitVec 32) : State :=
  { s with service := { s.service with faultSerial := mset asid n s.service.faultSerial } }

theorem State.pushFault_full {s : State} {k g : Nat} {p : Bool} {kind : Nat} {tval epc lanes : Word64}
    (full : s.ringPush (s.hartOf (.group k g)).asid.toNat (s.ctx (s.hartOf (.group k g)).asid.toNat).fring.toNat
      (s.nextFault k g kind tval epc lanes) = none) :
    s.pushFault k g p kind tval epc lanes = s.setHartOf (.group k g)
      ((s.hartOf (.group k g)).setPath p (((s.hartOf (.group k g)).path p).heldBy (.ringRoom kind tval epc lanes))) := by
  unfold State.pushFault
  dsimp only
  unfold State.nextFault at full
  rw [full]
  rfl
theorem State.pushFault_room {s v : State} {k g : Nat} {p : Bool} {kind : Nat} {tval epc lanes : Word64}
    (room : s.ringPush (s.hartOf (.group k g)).asid.toNat (s.ctx (s.hartOf (.group k g)).asid.toNat).fring.toNat
      (s.nextFault k g kind tval epc lanes) = some v) :
    ∃ u : State, s.pushFault k g p kind tval epc lanes = (u.setFaultSerial (s.hartOf (.group k g)).asid.toNat
        (mget 0 (s.hartOf (.group k g)).asid.toNat s.service.faultSerial + 1)).setHartOf (.group k g)
      ((s.hartOf (.group k g)).setPath p (((s.hartOf (.group k g)).path p).heldBy
        (.parked (mget 0 (s.hartOf (.group k g)).asid.toNat s.service.faultSerial)))) := by
  unfold State.pushFault
  dsimp only
  unfold State.nextFault at room
  rw [room]
  exact ⟨_, rfl⟩

/-! ## Waking (R98) -/

/-- PATH_WAKE at a suspended path of a live group without causes: it wakes where its wait is over, and else nothing happens. -/
theorem State.pathWake_eq {s : State} {k g : Nat} {p : Bool} {y : Wait} (live : (s.hartOf (.group k g)).live = true)
    (here : (s.hartOf (.group k g)).evicted = false) (quiet : (s.hartOf (.group k g)).causes = []) (hy : ((s.hartOf (.group k g)).path p).susp = some y) :
    exec (.pathWake k g p) s = .next (if s.waitOver k g p y then s.endWait k g p y else s) := by
  have none : (s.hartOf (.group k g)).causeFor p = none := by simp [Hart.causeFor, quiet]
  show execPathWake k g p s = _
  unfold execPathWake
  simp only [hy, live, here, none]
  cases s.waitOver k g p y <;> rfl

/-- A path wakes when its condition has come true, and only then. -/
def State.Wakes (s : State) (k g : Nat) (p : Bool) (cond : Prop) (gr : Option Grant) : Prop :=
  (cond → exec (.pathWake k g p) s = .next (woken s k g p gr)) ∧ (¬ cond → exec (.pathWake k g p) s = .next s)

section
variable {s : State} {k g : Nat} {p : Bool} {y : Wait} (live : (s.hartOf (.group k g)).live = true) (here : (s.hartOf (.group k g)).evicted = false)
  (quiet : (s.hartOf (.group k g)).causes = []) (hy : ((s.hartOf (.group k g)).path p).susp = some y)
include live here quiet hy

theorem State.wakes_iff {cond : Prop} {gr : Option Grant} (met : s.waitOver k g p y = true ↔ cond) (ends : s.endWait k g p y = s.wake k g p gr) :
    s.Wakes k g p cond gr := by
  have eq := State.pathWake_eq live here quiet hy
  refine ⟨fun h => ?_, fun h => ?_⟩
  · rw [eq, if_pos (met.mpr h), ends]
    rfl
  · rw [eq, if_neg fun h' => h (met.mp h')]

theorem State.wakes_token {n : Nat} (e : y = .token n) :
    s.Wakes k g p (((s.teamOf k).tile n).token = none ∧ ∀ r ∈ (s.teamOf k).seq.rows, n ∉ r.tiles) none := by
  subst e
  exact State.wakes_iff live here quiet hy (by simp [State.waitOver]) rfl
theorem State.wakes_barrier {n : Nat} {ph : BitVec 32} {q m : Bool} (e : y = .barrier n ph q m) :
    s.Wakes k g p (((s.teamOf k).bar n).ph ≠ ph) (some .go) := by
  subst e
  exact State.wakes_iff live here quiet hy (by simp [State.waitOver]) rfl
theorem State.wakes_sync {o : Nat} {gen : BitVec 32} (e : y = .sync o gen) :
    s.Wakes k g p ((BitVec.ofNat 32 ((s.teamOf k).mem.nat (o + 8) 4) - gen).toNat < 2 ^ 31) none := by
  subst e
  exact State.wakes_iff live here quiet hy (by simp only [State.waitOver, genReached, decide_eq_true_eq]) rfl
theorem State.wakes_message {r : Nat} (e : y = .message r) : s.Wakes k g p (vget (s.teamOf k).rx r [] ≠ []) none := by
  subst e
  exact State.wakes_iff live here quiet hy (by simp [State.waitOver]) rfl
theorem State.wakes_item (e : y = .item) : s.Wakes k g p ((s.teamOf k).items ≠ [] ∨ (s.teamOf k).itemsClosed = true) none := by
  subst e
  exact State.wakes_iff live here quiet hy (by simp [State.waitOver]) rfl
theorem State.wakes_counter {n m : Nat} (e : y = .counter n m) : s.Wakes k g p ((s.hartOf (.group k g)).counter n ≤ m) none := by
  subst e
  exact State.wakes_iff live here quiet hy (by simp [State.waitOver]) rfl
theorem State.wakes_tile {n : Nat} {q r : Bool} {a : Word64} (e : y = .tile n q r a) : s.Wakes k g p ((s.teamOf k).tag n ≠ .empty) none := by
  subst e
  exact State.wakes_iff live here quiet hy (by simp [State.waitOver, State.tagOf]) rfl
theorem State.wakes_header {m : BitVec 8} {n : Nat} (e : y = .header m n) :
    s.Wakes k g p (∀ j < 8, m.getLsbD j = true → (s.hartOf (.group k g)).counter j ≤ n) none := by
  subst e
  exact State.wakes_iff live here quiet hy (Hart.waitMet_iff _ _ _) rfl
theorem State.wakes_drain (e : y = .drain) : s.Wakes k g p (∀ n < 8, (s.hartOf (.group k g)).counter n = 0) none := by
  subst e
  exact State.wakes_iff live here quiet hy (by simp [State.waitOver, Hart.drainedAll]) rfl
theorem State.wakes_wave {gr ro en : Nat} {n : BitVec 32} (e : y = .wave gr ro en n) :
    s.Wakes k g p (∀ wv, s.waveOf gr (ro, en, n) = some wv → wv.live = false) none := by
  subst e
  refine State.wakes_iff live here quiet hy ?_ rfl
  unfold State.waitOver
  cases h : s.waveOf gr (ro, en, n) <;> simp [h]

/-- A path in BLKACQ wakes with its blocks when its turn has come (R88). -/
theorem State.pathWake_blocks {a : Word64} (e : y = .blocks a) :
    (s.blockTurn k g p = none → exec (.pathWake k g p) s = .next s)
      ∧ ∀ bw, s.blockTurn k g p = some bw → exec (.pathWake k g p) s = .next (s.giveBlocks k bw) := by
  subst e
  have eq := State.pathWake_eq live here quiet hy
  refine ⟨fun none => ?_, fun bw some => ?_⟩
  · simpa [State.waitOver, none] using eq
  · simpa [State.waitOver, State.endWait, some] using eq

/-- A path in DBG wakes by the debug port alone (R427). -/
theorem State.debugResume_wakes (e : y = .debug) :
    exec (.debugResume k g p) s = .next (woken s k g p (some .go)) ∧ exec (.pathWake k g p) s = .next s := by
  subst e
  refine ⟨?_, by simpa [State.waitOver] using State.pathWake_eq live here quiet hy⟩
  show execDebugResume k g p s = _
  unfold execDebugResume
  simp only [live, here, hy, Bool.not_false, Bool.and_true, beq_self_eq_true, if_true]
  rfl

omit quiet in
/-- A fault that waits for room in its ring joins it when there is room, and its path is parked under the next serial (R367 to R369). -/
theorem State.faultRingAppend_parks {v : State} {kind : Nat} {tval epc lanes : Word64} (e : y = .ringRoom kind tval epc lanes) :
    let id := (s.hartOf (.group k g)).asid.toNat
    let n := mget 0 id s.service.faultSerial
    let push := s.ringPush id (s.ctx id).fring.toNat (faultRecord n (s.teamOf k).core g tval lanes epc kind)
    (push = none → ∃ t, exec (.faultRingAppend k g p) s = .next t ∧ ((t.hartOf (.group k g)).path p).susp = some y)
    ∧ (push = some v → ∃ t, exec (.faultRingAppend k g p) s = .next t
        ∧ (t.hartOf (.group k g)).path p = { (s.hartOf (.group k g)).path p with susp := some (.parked n), stalled := false, issuing := false }
        ∧ mget 0 id t.service.faultSerial = n + 1) := by
  subst e
  have tried : exec (.faultRingAppend k g p) s = .next (s.pushFault k g p kind tval epc lanes) := by
    show execFaultRingAppend k g p s = _
    simp [execFaultRingAppend, hy, live, here]
  refine ⟨fun full => ⟨_, tried, ?_⟩, fun room => ⟨_, tried, ?_⟩⟩
  · rw [State.pushFault_full full, State.hartOf_setHartOf, Hart.path_setPath]
    rfl
  · obtain ⟨u, pushed⟩ := State.pushFault_room (p := p) room
    rw [pushed, State.hartOf_setHartOf, Hart.path_setPath]
    exact ⟨rfl, mget_mset_self _ _ _ _⟩

end

/-! ## Parked faults (R368, R369) -/

/-- The path that is parked with a serial belongs to a group of its team that has not ended. -/
theorem State.parkedAt_live {s : State} {asid k g : Nat} {serial : BitVec 32} {p : Bool} (h : s.parkedAt asid serial = some (k, g, p)) :
    g ∈ s.liveGids k := by
  unfold State.parkedAt at h
  obtain ⟨t, -, h⟩ := List.exists_of_findSome?_eq_some h
  split at h
  · cases h
  · obtain ⟨g', hg, h⟩ := List.exists_of_findSome?_eq_some h
    dsimp only at h
    split at h
    · cases h
    · obtain ⟨q, -, eq⟩ := Option.map_eq_some_iff.mp h
      cases eq
      exact hg

theorem State.parkedResume_wakes {s : State} {asid k g : Nat} {serial : BitVec 32} {p : Bool} (h : s.parkedAt asid serial = some (k, g, p)) :
    exec (.parkedResume asid serial) s = .next (woken s k g p none) := by
  show execParkedResume asid serial s = _
  simp only [execParkedResume, h]
  rfl

theorem State.parkedKill_ends {s : State} {asid k g : Nat} {serial : BitVec 32} {p : Bool} (h : s.parkedAt asid serial = some (k, g, p)) :
    exec (.parkedKill asid serial) s = .next (s.endGroup k g (some Cause.pageFault.code)) := by
  show execParkedKill asid serial s = _
  simp only [execParkedKill, h]

/-! ## Register errors (R375) -/

/-- A register error of a live group with room for a cause: it is logged, and a MACHINE_CHECK with the entry's index waits (R375, R425). -/
theorem State.registerUncorrectable_pends {s : State} {k g : Nat} (live : (s.hartOf (.group k g)).live = true)
    (room : (s.hartOf (.group k g)).causes.length < 8) :
    ∃ t, exec (.registerUncorrectable k g) s = .next t ∧ Pends s t k g .machineCheck s.service.logHead
      ∧ t.service.logHead = s.service.logHead + 1
      ∧ t.service.log = s.service.log
          ++ [(5, 0x14, BitVec.ofNat 16 (s.teamOf k).core, BitVec.ofNat 32 ((s.hartOf (.group k g)).asid.toNat + g * 65536), 0, 1)]
      ∧ t.teams = s.teams := by
  let u := s.logError .machineCheck Cause.machineCheck.code (s.teamOf k).core (s.hartOf (.group k g)).asid.toNat g 0
  have wrote : s.Wrote u := s.logError_wrote _ _ _ _ _ _
  have same : u.hartOf (.group k g) = s.hartOf (.group k g) := wrote.hartOf_eq _
  have logged : u.service = _ := s.logError_log .machineCheck Cause.machineCheck.code (s.teamOf k).core (s.hartOf (.group k g)).asid.toNat g 0
  have joined := State.addCause_live u k g ⟨.machineCheck, s.service.logHead, none⟩ (by rw [same]; exact live) (by rw [same]; exact room)
  refine ⟨u.addCause k g ⟨.machineCheck, s.service.logHead, none⟩, rfl, ?_⟩
  rw [joined, same]
  refine ⟨State.hartOf_setHartOf _ _ _, ?_, ?_, wrote.teams_eq⟩
  · rw [State.setHartOf_service, logged]
  · rw [State.setHartOf_service, logged]
    rfl

end Sys2Proof.Machine

namespace Sys2Proof.Claims
open Sys2Proof.Machine

/-- Settles O47: each clause is the rule of its event, read off the state that the event leaves. -/
theorem agentEventResults : Obligations.AgentEventResults := by
  unfold Obligations.AgentEventResults
  intro s v k g b p w c e rest y asid serial
  dsimp only
  refine ⟨fun ready boundary free => ⟨fun fetched => ⟨fun met => ?_, fun unmet => ?_⟩, fun fetched bad => ?_⟩, ?_, ?_, ?_, ?_, ?_, ?_⟩
  · have begins := State.clauseExecute_begins ready boundary free fetched ((Hart.waitMet_iff _ _ _).mpr met)
    obtain ⟨-, hdr, cls, count, idx⟩ := fetchClause_ok fetched
    obtain ⟨cur, path, l1, teams, mem, regs⟩ := s.issuedOn_beginClause k g p c w
    refine ⟨_, begins, cur, ⟨hdr, cls, count, idx⟩, ?_⟩
    rw [path]
    exact ⟨rfl, fun n hn => noLatch_invalid hn, rfl, rfl, rfl, l1, teams, mem, regs⟩
  · have failed : (s.hartOf (.group k g)).waitMet (w.extractLsb' 8 8) (w.extractLsb' 16 4).toNat = false := by
      obtain ⟨j, hj, selected, above⟩ := unmet
      refine Bool.eq_false_iff.mpr fun met => ?_
      exact absurd ((Hart.waitMet_iff _ _ _).mp met j hj selected) (Nat.not_le.mpr above)
    have waits := State.clauseExecute_waits ready boundary free fetched failed
    obtain ⟨susp, clause, teams, mem⟩ := State.stopped_suspend { s with cur := groupFocus k g p }
      (.header (w.extractLsb' 8 8) (w.extractLsb' 16 4).toNat)
    exact ⟨_, waits, susp, clause.trans boundary, teams, mem⟩
  · exact State.clauseExecute_malformed ready boundary free fetched ((hdrBad_iff w).mpr bad)
  · intro running sound goes boundary fetched
    refine ⟨_, State.clauseExecute_stream running sound goes boundary fetched, ?_, fun j hj => mget_mset_ne _ hj _ _, rfl, rfl⟩
    exact congrArg Team.seq (mget_mset_self Team.vacant k _ s.teams)
  · intro running active boundary fetched cls
    refine ⟨_, State.clauseExecute_bank running active boundary fetched cls, ?_⟩
    rw [State.path_setPath]
    exact ⟨rfl, fun n hn => noLatch_invalid hn, rfl, rfl, rfl, fun j hj => State.hartOf_setHartOf_ne _ hj _⟩
  · intro live here idle idle' closed user hc hp other active stop stands saved handled
    subst hp
    have at_ : (s.hartOf (.group k g)).atBoundary (e.path.getD false) = true := by
      simpa [Hart.atBoundary, active, stop, Option.isSome_iff_ne_none] using stands
    have takes := State.boundaryCauseTaken_takes live here idle idle' hc (Hart.taker hc other active at_)
    let z := s.setHartOf (.group k g) { s.hartOf (.group k g) with causes := rest }
    have hz : z.hartOf (.group k g) = { s.hartOf (.group k g) with causes := rest } := State.hartOf_setHartOf _ _ _
    have enters := State.takeTrap_enters (z := z) (t := ⟨e.cause, e.tval, 0, e.tval, 0⟩) (by rw [hz]; exact closed) (by rw [hz]; exact user) saved
      (by rw [hz]; exact handled)
    refine ⟨_, takes.trans (congrArg Host.Outcome.next enters), ?_, fun j hj => ?_⟩
    · rw [State.hartOf_setHartOf, hz]
      exact Hart.enter_boundary _ _ _ _ _
    · rw [State.hartOf_setHartOf_ne _ hj, (State.saveTrap_wrote saved).hartOf_eq, State.hartOf_setHartOf_ne _ hj]
  · intro live here quiet hy
    exact ⟨fun _ h => State.wakes_token live here quiet hy h, fun _ _ _ _ h => State.wakes_barrier live here quiet hy h,
      fun _ _ h => State.wakes_sync live here quiet hy h, fun _ h => State.wakes_message live here quiet hy h,
      fun h => State.wakes_item live here quiet hy h, fun _ _ h => State.wakes_counter live here quiet hy h,
      fun _ _ _ _ h => State.wakes_tile live here quiet hy h, fun _ _ h => State.wakes_header live here quiet hy h,
      fun h => State.wakes_drain live here quiet hy h, fun _ _ _ _ h => State.wakes_wave live here quiet hy h,
      fun _ h => State.pathWake_blocks live here quiet hy h, fun h => State.debugResume_wakes live here quiet hy h,
      fun _ _ _ _ h => State.faultRingAppend_parks live here hy h⟩
  · intro parked
    obtain ⟨live, slot0, slot1⟩ := s.endGroup_hartOf k g Cause.pageFault.code
    refine ⟨State.parkedResume_wakes parked, _, State.parkedKill_ends parked, live, slot0, slot1, fun more j hj => ?_, fun r hr => ?_⟩
    · exact s.endGroup_others k g _ (State.parkedAt_live parked) more hj
    · obtain ⟨q, hq, trapped, cause⟩ := s.endGroup_node k g Cause.pageFault.code hr
      exact ⟨q, hq, trapped, by rw [cause]; rfl⟩
  · exact fun live room => State.registerUncorrectable_pends live room

end Sys2Proof.Claims
end

