-- ==== Sys2Proof/Proofs/Encoding.lean ====
section
/-! PROOFS. Decoding and encoding agree (R36 to R46, R50, R51, R218, R336): the round trip of each instruction, put together, and words that the spec writes out. -/

namespace Sys2Proof.Laws.RoundTrip

/-- Every instruction is the one that its words stand for: a case for each instruction with a word of its own, and no word for an event or for SUBMIT. -/
theorem decode_encode (i : Instr) : Statement i := by
  cases i with
  | add d a b t => exact add d a b t
  | sub d a b t => exact sub d a b t
  | mul d a b t => exact mul d a b t
  | mulh d a b t => exact mulh d a b t
  | div d a b t => exact div d a b t
  | rem d a b t => exact rem d a b t
  | and d a b t => exact and d a b t
  | or d a b t => exact or d a b t
  | xor d a b t => exact xor d a b t
  | andn d a b t => exact andn d a b t
  | shl d a b t => exact shl d a b t
  | shr d a b t => exact shr d a b t
  | rol d a b t => exact rol d a b t
  | min d a b t => exact min d a b t
  | max d a b t => exact max d a b t
  | sel d a b => exact sel d a b
  | addi d a i => exact addi d a i
  | muli d a i => exact muli d a i
  | andi d a i => exact andi d a i
  | ori d a i => exact ori d a i
  | xori d a i => exact xori d a i
  | shli d a c => exact shli d a c
  | shri d a h c => exact shri d a h c
  | li d i => exact li d i
  | liw d l => exact liw d l
  | liwZ d l => exact liwZ d l
  | liwH d a l => exact liwH d a l
  | bfx d a l => exact bfx d a l
  | bfi d a b l => exact bfi d a b l
  | clz d a w => exact clz d a w
  | ctz d a w => exact ctz d a w
  | popc d a w => exact popc d a w
  | cmp d a b t => exact cmp d a b t
  | cmpi d a i => exact cmpi d a i
  | bra i => exact bra i
  | brc a b cc l => exact brc a b cc l
  | brz a i => exact brz a i
  | brnz a i => exact brnz a i
  | jmp l => exact jmp l
  | jmpReg a l => exact jmpReg a l
  | call d l => exact call d l
  | callr d a => exact callr d a
  | ret a => exact ret a
  | brm a i => exact brm a i
  | join => exact join
  | looph => exact looph
  | exit => exact exit
  | nop => exact nop
  | yield => exact yield
  | ld d a t l => exact ld d a t l
  | st a b t l => exact st a b t l
  | ldaq d a t l => exact ldaq d a t l
  | strl a b t l => exact strl a b t l
  | vld d a k l => exact vld d a k l
  | vst d a k l => exact vst d a k l
  | vlds d a b k l => exact vlds d a b k l
  | vsts d a b k l => exact vsts d a b k l
  | vldff d a k l => exact vldff d a k l
  | vldx d a b k l => exact vldx d a b k l
  | vstx d a b k l => exact vstx d a b k l
  | tld d a chk l => exact tld d a chk l
  | tst d a l => exact tst d a l
  | putt d a l => exact putt d a l
  | ldc d a chk l => exact ldc d a chk l
  | ldp d a chk l => exact ldp d a chk l
  | taglk d a => exact taglk d a
  | tagins d a b => exact tagins d a b
  | tagdel d a => exact tagdel d a
  | amo d a b t l => exact amo d a b t l
  | amon a b t l => exact amon a b t l
  | vamo d a b u k l => exact vamo d a b u k l
  | vamon d a b u k l => exact vamon d a b u k l
  | cas d a b t l => exact cas d a b t l
  | vcas d a b u k l => exact vcas d a b u k l
  | nma a b t l => exact nma a b t l
  | vnma d a b u k l => exact vnma d a b u k l
  | fence s => exact fence s
  | pref a dc l => exact pref a dc l
  | cclean a l => exact cclean a l
  | cinv a all l => exact cinv a all l
  | tfill a b l => exact tfill a b l
  | tempty a b l => exact tempty a b l
  | ttag d a l => exact ttag d a l
  | cflush a l => exact cflush a l
  | vadd d a b u k => exact vadd d a b u k
  | vsub d a b u k => exact vsub d a b u k
  | vmul d a b u k => exact vmul d a b u k
  | vmulh d a b u k => exact vmulh d a b u k
  | vdiv d a b u k => exact vdiv d a b u k
  | vrem d a b u k => exact vrem d a b u k
  | vand d a b u k => exact vand d a b u k
  | vor d a b u k => exact vor d a b u k
  | vxor d a b u k => exact vxor d a b u k
  | vshl d a b u k => exact vshl d a b u k
  | vshr d a b u k => exact vshr d a b u k
  | vmin d a b u k => exact vmin d a b u k
  | vmax d a b u k => exact vmax d a b u k
  | vabs d a k => exact vabs d a k
  | vneg d a k => exact vneg d a k
  | vmerge d a b k => exact vmerge d a b k
  | vfadd d a b u k => exact vfadd d a b u k
  | vfsub d a b u k => exact vfsub d a b u k
  | vfmul d a b u k => exact vfmul d a b u k
  | vfdiv d a b u k => exact vfdiv d a b u k
  | vfma d a b u k => exact vfma d a b u k
  | vfms d a b u k => exact vfms d a b u k
  | vfnma d a b u k => exact vfnma d a b u k
  | vfmin d a b u k => exact vfmin d a b u k
  | vfmax d a b u k => exact vfmax d a b u k
  | vfabs d a u k => exact vfabs d a u k
  | vfneg d a u k => exact vfneg d a u k
  | vfsqrt d a u k => exact vfsqrt d a u k
  | vfrsq d a u k => exact vfrsq d a u k
  | vfrcp d a u k => exact vfrcp d a u k
  | vfexp d a u k => exact vfexp d a u k
  | vflog d a u k => exact vflog d a u k
  | vftanh d a u k => exact vftanh d a u k
  | vfsin d a u k => exact vfsin d a u k
  | vfcos d a u k => exact vfcos d a u k
  | vfclass d a u k => exact vfclass d a u k
  | vcmpeq d a b u k => exact vcmpeq d a b u k
  | vcmpne d a b u k => exact vcmpne d a b u k
  | vcmplt d a b u k => exact vcmplt d a b u k
  | vcmple d a b u k => exact vcmple d a b u k
  | vfcmpeq d a b u k => exact vfcmpeq d a b u k
  | vfcmplt d a b u k => exact vfcmplt d a b u k
  | vfcmple d a b u k => exact vfcmple d a b u k
  | vfcmpun d a b u k => exact vfcmpun d a b u k
  | vcvt d a c e k => exact vcvt d a c e k
  | vquant d a q u => exact vquant d a q u
  | vdeq d a u k => exact vdeq d a u k
  | vmv d a k => exact vmv d a k
  | vredsum d a b u k => exact vredsum d a b u k
  | vredmax d a b u k => exact vredmax d a b u k
  | vredmin d a b u k => exact vredmin d a b u k
  | vfredsum d a b u k => exact vfredsum d a b u k
  | vfredmax d a b u k => exact vfredmax d a b u k
  | vfredmin d a b u k => exact vfredmin d a b u k
  | vscan d a b k => exact vscan d a b k
  | vfscan d a b u k => exact vfscan d a b u k
  | vslideup d a b k => exact vslideup d a b k
  | vslidedn d a b k => exact vslidedn d a b k
  | vrgather d a b k => exact vrgather d a b k
  | vcompress d a k => exact vcompress d a k
  | vid d k => exact vid d k
  | viota d a k => exact viota d a k
  | vsortk d a b u e => exact vsortk d a b u e
  | vbcast d a k => exact vbcast d a k
  | setvl d a b => exact setvl d a b
  | setvli d a c => exact setvli d a c
  | mand d a b => exact mand d a b
  | mor d a b => exact mor d a b
  | mxor d a b => exact mxor d a b
  | mandn d a b => exact mandn d a b
  | mnot d a => exact mnot d a
  | mpop d a k => exact mpop d a k
  | mfirst d a k => exact mfirst d a k
  | emget d g => exact emget d g
  | emset a g => exact emset a g
  | mma d a b l => exact mma d a b l
  | mmaAdp d a b l => exact mmaAdp d a b l
  | adpfin d b l => exact adpfin d b l
  | mzero d => exact mzero d
  | mldacc d a b f l => exact mldacc d a b f l
  | mdrain d a b f add l => exact mdrain d a b f add l
  | mfence a n => exact mfence a n
  | mbara j n => exact mbara j n
  | mbarw n => exact mbarw n
  | mloop d l => exact mloop d l
  | mjmp l => exact mjmp l
  | mend => exact mend
  | adpld a l => exact adpld a l
  | adpinv a => exact adpinv a
  | msetbAdd d a b => exact msetbAdd d a b
  | msetbLd d a b => exact msetbLd d a b
  | msetbFmt a => exact msetbFmt a
  | msetbSeed a => exact msetbSeed a
  | msetbBind a => exact msetbBind a
  | msetbAdir a => exact msetbAdir a
  | mnop => exact mnop
  | macq d a => exact macq d a
  | macqNc a => exact macqNc a
  | mrel a => exact mrel a
  | mrelW a b => exact mrelW a b
  | gath d a b k l => exact gath d a b k l
  | scat d a b k l => exact scat d a b k l
  | coll a l => exact coll a l
  | waitc n k => exact waitc n k
  | astatCnt d a => exact astatCnt d a
  | astatChan d a => exact astatChan d a
  | astatFault d => exact astatFault d
  | nmsync => exact nmsync
  | gcfg a => exact gcfg a
  | gcfgUn => exact gcfgUn
  | gmatch d a b l => exact gmatch d a b l
  | gprop d a l => exact gprop d a l
  | gwait d a => exact gwait d a
  | gcollect d a b => exact gcollect d a b
  | gclr a b => exact gclr a b
  | gvld d a y => exact gvld d a y
  | gvst d a y => exact gvst d a y
  | gstat d a => exact gstat d a
  | gabort a => exact gabort a
  | bari a n => exact bari a n
  | bara n => exact bara n
  | barw n => exact barw n
  | baraw n => exact baraw n
  | syncw d a b => exact syncw d a b
  | mqw d a b s => exact mqw d a b s
  | mqr d k => exact mqr d k
  | refill d => exact refill d
  | itempush d a => exact itempush d a
  | itempushClose d => exact itempushClose d
  | tender d a l => exact tender d a l
  | withdraw d a => exact withdraw d a
  | doneTask a => exact doneTask a
  | blkacq d a y => exact blkacq d a y
  | blkrel d a => exact blkrel d a
  | fbegin a l => exact fbegin a l
  | fcommit d => exact fcommit d
  | fabort => exact fabort
  | csrr d c => exact csrr d c
  | csrw d a c => exact csrw d a c
  | csrs d a c => exact csrs d a c
  | csrc d a c => exact csrc d a c
  | trap c => exact trap c
  | eret => exact eret
  | tlbinv a b => exact tlbinv a b
  | tlbinvAsid b => exact tlbinvAsid b
  | tlbinvAll => exact tlbinvAll
  | cbld a b => exact cbld a b
  | cbswap a => exact cbswap a
  | bidld a b => exact bidld a b
  | bidldWindow a => exact bidldWindow a
  | dbg a => exact dbg a
  | feat d => exact feat d
  | nzskip d a b l => exact nzskip d a b l
  | rowf a => exact rowf a
  | mbxr d a => exact mbxr d a
  | haltb a => exact haltb a
  | _ => exact of_none rfl

end Sys2Proof.Laws.RoundTrip

namespace Sys2Proof.Laws

/-- The word of SUBMIT stands for SUBMIT and its three registers (R336). -/
theorem decodeSubmit_encodeSubmit (a b d : BitVec 5) : decodeSubmit (encodeSubmit a b d) = some (.submit a b d) := by
  have opcode : (encodeSubmit a b d).extractLsb' 0 7 = 0b0001011#7 := by
    simp (disch := decide) only [encodeSubmit, extract_low, extract_all]
  have funct3 : (encodeSubmit a b d).extractLsb' 12 3 = 0 := by
    simp (disch := decide) only [encodeSubmit, extract_high, extract_low]
    rfl
  have funct7 : (encodeSubmit a b d).extractLsb' 25 7 = 0 := by
    simp (disch := decide) only [encodeSubmit, extract_high]
    rfl
  have rd : (encodeSubmit a b d).extractLsb' 7 5 = d := by
    simp (disch := decide) only [encodeSubmit, extract_high, extract_low]
    exact extract_all d
  have rs1 : (encodeSubmit a b d).extractLsb' 15 5 = b := by
    simp (disch := decide) only [encodeSubmit, extract_high, extract_low]
    exact extract_all b
  have rs2 : (encodeSubmit a b d).extractLsb' 20 5 = a := by
    simp (disch := decide) only [encodeSubmit, extract_high, extract_low]
    exact extract_all a
  simp [decodeSubmit, opcode, funct3, funct7, rd, rs1, rs2]

end Sys2Proof.Laws

namespace Sys2Proof.Claims
open Sys2Proof.Laws

/-- Settles O58: each instruction's words are read back by its own law, and SUBMIT's word field by field. -/
theorem decodeInvertsEncode : Obligations.DecodeInvertsEncode := by
  unfold Obligations.DecodeInvertsEncode
  exact ⟨RoundTrip.decode_encode, fun rs2 rs1 rd => ⟨rfl, decodeSubmit_encodeSubmit rs2 rs1 rd⟩⟩

/-- The code of an integer type: bit 2 for a natural type, the width below it (R44). -/
theorem intTy_ofBits (m : BitVec 3) : ((IntTy.ofBits m).nat = true ↔ 4 ≤ m.toNat) ∧ (IntTy.ofBits m).width.toNat = m.toNat % 4 := by
  revert m
  decide

/-- The codes of the scopes; the other three have none (R45). -/
theorem scope_ofBits :
    [0, 1, 2, 3, 4, 5, 6, 7].map Scope.ofBits = [some .grp, some .team, some .die, some .dev, some .sys, none, none, none] := rfl

/-- Settles O57: the codes by their tables, and each closed word by running the decoder on it. -/
theorem decodingReadsTheSpecsWords : Obligations.DecodingReadsTheSpecsWords := by
  unfold Obligations.DecodingReadsTheSpecsWords
  refine ⟨intTy_ofBits, scope_ofBits, ?_⟩
  decide

end Sys2Proof.Claims
end

