-- ==== Sys2Proof/Proofs/WordUnderWay.lean ====
section
/-! PROOFS. What a step does: the checks of R49 in their order, the word under way of a group, a bank core and a stream, and the agenda (R49, R150, R287, R419, R426). -/

namespace Sys2Proof.Machine
open Sys2Proof.Claims

/-! ## The checks of R49, in their order -/

/-- The opcode of the next word of a clause. -/
def Clause.opcode (c : Clause) : Nat := ((c.word c.idx).extractLsb' 24 8).toNat

/-- What stands after the next word of a clause, where its opcode takes a literal. -/
def Clause.literal (c : Clause) (o : OpInfo) : Word32 := if o.lit then c.word (c.idx + 1) else 0

/-- Step 1 of R49: do a bank core, or a group and a stream, have the opcode of the next word (R287)? -/
def Clause.accepted (c : Clause) (bank : Bool) : Bool :=
  if bank then bankAccepts c.cls.toNat c.opcode else !(c.cls == 7 && decide (0xF0 ≤ c.opcode))

/-- Step 3 of R49: the literal lies within the clause, a transfer stands last and a blocking instruction first. -/
def Clause.placed (c : Clause) (o : OpInfo) : Bool :=
  let last := if o.lit then c.idx + 1 else c.idx
  decide (last ≤ c.count) && (!o.transfer || last == c.count) && (!o.blocking || c.idx == 1)

theorem Clause.accepted_false_iff (c : Clause) : c.accepted false = true ↔ ¬ (c.cls = 7 ∧ 0xF0 ≤ c.opcode) := by
  simp [Clause.accepted, imp_iff_not_or]

theorem Clause.placed_iff (c : Clause) (o : OpInfo) :
    let last := if o.lit then c.idx + 1 else c.idx
    c.placed o = true ↔ last ≤ c.count ∧ (o.transfer = true → last = c.count) ∧ (o.blocking = true → c.idx = 1) := by
  simp [Clause.placed, imp_iff_not_or, and_assoc]

section
variable {bank formats : Bool} {feat : Option Word64} {c : Clause} {o : OpInfo} {i : Instr}

theorem checkWord_unknown (unknown : opInfo c.cls.toNat c.opcode = none) : checkWord bank feat formats c = .error (trapOf .illegalOp 0) := by
  unfold Clause.opcode at unknown
  simp only [checkWord, unknown]
  rfl

variable (known : opInfo c.cls.toNat c.opcode = some o)
include known

/-- The checks of R49 for an opcode of the map, each condition under its name. -/
theorem checkWord_known : checkWord bank feat formats c = (do
    needOp (c.accepted bank)
    need (feat.all (·.getLsbD o.feat) && formats) .featureAbsent 0
    need (c.placed o) .illegalClause 0
    match decodeWord bank c.cls (c.word c.idx) (c.literal o) with
    | none => illegal
    | some i => .ok i) := by
  have known' := known
  unfold Clause.opcode at known'
  simp only [checkWord, known'] <;> rfl

theorem checkWord_unaccepted (refused : c.accepted bank = false) : checkWord bank feat formats c = .error (trapOf .illegalOp 0) := by
  rw [checkWord_known known, needOp, need_error refused]
  rfl

variable (accepted : c.accepted bank = true)
include accepted

theorem checkWord_featureAbsent (absent : (feat.all (·.getLsbD o.feat) && formats) = false) :
    checkWord bank feat formats c = .error (trapOf .featureAbsent 0) := by
  rw [checkWord_known known, needOp, need_ok accepted, need_error absent]
  rfl

variable (present : (feat.all (·.getLsbD o.feat) && formats) = true)
include present

theorem checkWord_misplaced (misplaced : c.placed o = false) : checkWord bank feat formats c = .error (trapOf .illegalClause 0) := by
  rw [checkWord_known known, needOp, need_ok accepted, need_ok present, need_error misplaced]
  rfl

variable (placed : c.placed o = true)
include placed

theorem checkWord_undecoded (undecoded : decodeWord bank c.cls (c.word c.idx) (c.literal o) = none) :
    checkWord bank feat formats c = .error (trapOf .illegalOp 0) := by
  rw [checkWord_known known, needOp, need_ok accepted, need_ok present, need_ok placed, undecoded]
  rfl

theorem checkWord_decoded (decoded : decodeWord bank c.cls (c.word c.idx) (c.literal o) = some i) : checkWord bank feat formats c = .ok i := by
  rw [checkWord_known known, needOp, need_ok accepted, need_ok present, need_ok placed, decoded]
  rfl

end

/-! ## What a step does -/

section
variable {s : State} {c : Clause} {i : Instr} {rest : List Instr} {h : Halt}

/-- Nothing runs once the boot ROM has stopped (R419). -/
theorem step_bootStopped {k : Nat} (stopped : s.service.boot = .failed k) : step s = .fault .bootStopped := by
  simp only [step, State.plan, stopped]

/-- An instruction or event of the agenda is executed, in a frozen device the resumption alone (R426). -/
theorem step_agenda (booted : ∀ k, s.service.boot ≠ .failed k) (agenda : s.agenda = i :: rest)
    (free : s.service.frozen = false ∨ i = .stopwatchResume) : step s = exec i { s with agenda := rest } := by
  obtain thawed | rfl := free
  · simp [step, State.plan, agenda, thawed]
  · simp [step, State.plan, agenda]

/-- A frozen device drops what is not its resumption (R426). -/
theorem step_agenda_frozen (booted : ∀ k, s.service.boot ≠ .failed k) (agenda : s.agenda = i :: rest) (frozen : s.service.frozen = true)
    (other : i ≠ .stopwatchResume) : step s = .next { s with agenda := rest } := by
  simp [step, State.plan, agenda, frozen]

/-- A frozen device does nothing of its own (R426). -/
theorem step_frozen (booted : ∀ k, s.service.boot ≠ .failed k) (idle : s.agenda = []) (frozen : s.service.frozen = true) : step s = .next s := by
  simp [step, State.plan, idle, frozen]

/-- The next word is executed as the instruction that it decodes to. -/
theorem step_decoded (next : NextWord s) (under : s.underWay = some (c, false)) (first : s.streamYields = false)
    (decoded : s.decodeNext c = .ok i) : step s = exec i s.leaveChunk := by
  obtain ⟨booted, thawed, idle⟩ := next
  simp [step, State.plan, idle, thawed, under, first, decoded]

/-- A word that fails a check stops its agent. -/
theorem step_refused (next : NextWord s) (under : s.underWay = some (c, false)) (first : s.streamYields = false)
    (refused : s.decodeNext c = .error h) : step s = .next (s.decodeStopped h) := by
  obtain ⟨booted, thawed, idle⟩ := next
  simp [step, State.plan, idle, thawed, under, first, refused]

/-! ### A group's word -/

theorem State.underWay_group (unit : s.cur.unit = .group) (live : s.hart.live = true) (here : s.hart.evicted = false) (active : s.path.active = true)
    (issuing : s.path.issuing = true) (awake : s.path.susp = none) (going : s.path.stalled = false) (clause : s.path.clause = some c) :
    s.underWay = some (c, false) := by
  simp [State.underWay, unit, live, here, active, issuing, awake, going, clause]

theorem step_group_decoded (next : NextWord s) (unit : s.cur.unit = .group) (under : s.underWay = some (c, false))
    (decoded : checkWord false (some s.team.feat) true c = .ok i) : step s = exec i s := by
  have first : s.streamYields = false := by simp [State.streamYields, unit]
  have stays : s.leaveChunk = s := by simp [State.leaveChunk, State.onBank, unit]
  rw [step_decoded next under first (by rw [State.decodeNext, unit, decoded]), stays]

theorem step_group_refused (next : NextWord s) (unit : s.cur.unit = .group) (under : s.underWay = some (c, false))
    (refused : checkWord false (some s.team.feat) true c = .error h) : step s = .next (s.stopped h) := by
  have first : s.streamYields = false := by simp [State.streamYields, unit]
  rw [step_refused next under first (by rw [State.decodeNext, unit, refused]), State.decodeStopped, unit]

/-! ### A bank core's word -/

theorem State.underWay_bank (unit : s.cur.unit = .bank) (running : (s.bankOf s.cur.bank).running = true) (active : s.path.active = true)
    (going : s.path.stalled = false) (clause : s.path.clause = some c) : s.underWay = some (c, false) := by
  simp [State.underWay, unit, running, active, going, clause]

/-- A bank core that executes a word has left its chunk boundary (R289). -/
theorem step_bank_decoded (next : NextWord s) (unit : s.cur.unit = .bank) (under : s.underWay = some (c, false))
    (decoded : checkWord true none true c = .ok i) : step s = exec i (s.setBankOf s.cur.bank { s.bankOf s.cur.bank with chunk := false }) := by
  have first : s.streamYields = false := by simp [State.streamYields, unit]
  have leaves : s.leaveChunk = s.setBankOf s.cur.bank { s.bankOf s.cur.bank with chunk := false } := by
    simp [State.leaveChunk, State.onBank, unit]
  rw [step_decoded next under first (by rw [State.decodeNext, unit, decoded]), leaves]

/-! ### A stream's word -/

theorem State.underWay_stream (unit : s.cur.unit = .stream) (running : s.team.seq.st = .running) (sound : s.team.seq.fault = none)
    (stays : s.team.seq.stopAsked = false) (going : s.team.seq.stalled = false) (clause : s.team.seq.clause = some c) :
    s.underWay = some (c, false) := by
  simp [State.underWay, Seq.issues, unit, running, sound, stays, going, clause]

theorem step_stream_decoded (next : NextWord s) (unit : s.cur.unit = .stream) (under : s.underWay = some (c, false)) (first : s.streamYields = false)
    (decoded : checkWord false (some s.team.feat) s.team.formatsOk c = .ok i) : step s = exec i s := by
  have stays : s.leaveChunk = s := by simp [State.leaveChunk, State.onBank, unit]
  rw [step_decoded next under first (by rw [State.decodeNext, unit, decoded]), stays]

theorem step_stream_refused (next : NextWord s) (unit : s.cur.unit = .stream) (under : s.underWay = some (c, false)) (first : s.streamYields = false)
    (refused : checkWord false (some s.team.feat) s.team.formatsOk c = .error h) : step s = .next (s.seqStopped s.cur.team h) := by
  rw [step_refused next under first (by rw [State.decodeNext, unit, refused]), State.decodeStopped, unit]

end

end Sys2Proof.Machine

namespace Sys2Proof.Claims
open Sys2Proof.Machine

/-- Settles O56: the word under way goes through `checkWord`, whose first failing check is the trap, and everything else is a branch of the plan. -/
theorem stepRunsDecodedInstruction : Obligations.StepRunsDecodedInstruction := by
  unfold Obligations.StepRunsDecodedInstruction
  intro s c o i rest k
  dsimp only
  refine ⟨fun next => ⟨?group, ?bank, ?stream⟩, ?agenda, fun booted idle frozen => step_frozen booted idle frozen, step_bootStopped⟩
  case group =>
    intro unit live here active issuing awake going clause
    have under := State.underWay_group unit live here active issuing awake going clause
    refine ⟨?_, fun known allowed => ?_⟩
    · rintro (unknown | ⟨known, bankOnly⟩)
      · exact step_group_refused next unit under (checkWord_unknown unknown)
      · have refused : c.accepted false = false := Bool.eq_false_iff.mpr fun h => c.accepted_false_iff.mp h bankOnly
        exact step_group_refused next unit under (checkWord_unaccepted known refused)
    · have accepted := c.accepted_false_iff.mpr allowed
      have needed (b : Bool) (h : s.team.feat.getLsbD o.feat = b) : ((some s.team.feat).all (·.getLsbD o.feat) && true) = b := by simp [h]
      refine ⟨fun absent => ?_, fun present misplaced => ?_, fun present placed undecoded => ?_, fun present placed decoded => ?_⟩
      · exact step_group_refused next unit under (checkWord_featureAbsent known accepted (needed _ absent))
      · have misplaced : c.placed o = false := Bool.eq_false_iff.mpr fun h => misplaced ((c.placed_iff o).mp h)
        exact step_group_refused next unit under (checkWord_misplaced known accepted (needed _ present) misplaced)
      · exact step_group_refused next unit under (checkWord_undecoded known accepted (needed _ present) ((c.placed_iff o).mpr placed) undecoded)
      · exact step_group_decoded next unit under (checkWord_decoded known accepted (needed _ present) ((c.placed_iff o).mpr placed) decoded)
  case bank =>
    intro unit running active going clause known accepted placed decoded
    exact step_bank_decoded next unit (State.underWay_bank unit running active going clause)
      (checkWord_decoded known accepted rfl ((c.placed_iff o).mpr placed) decoded)
  case stream =>
    intro unit running sound stays going clause first known allowed
    have under := State.underWay_stream unit running sound stays going clause
    have accepted := c.accepted_false_iff.mpr allowed
    refine ⟨fun absent => ?_, fun feature formats placed decoded => ?_⟩
    · have absent : ((some s.team.feat).all (·.getLsbD o.feat) && s.team.formatsOk) = false := Bool.and_eq_false_iff.mpr absent
      exact step_stream_refused next unit under first (checkWord_featureAbsent known accepted absent)
    · have present : ((some s.team.feat).all (·.getLsbD o.feat) && s.team.formatsOk) = true := by simp [feature, formats]
      exact step_stream_decoded next unit under first (checkWord_decoded known accepted present ((c.placed_iff o).mpr placed) decoded)
  case agenda =>
    intro booted agenda
    exact ⟨fun thawed => step_agenda booted agenda (.inl thawed), fun frozen other => step_agenda_frozen booted agenda frozen other,
      fun _ resume => step_agenda booted agenda (.inr resume)⟩

end Sys2Proof.Claims
end

