-- ==== Sys2Proof/Proofs/Retire.lean ====
section
/-! PROOFS. What retiring and transferring leave of a state, as the statements about instructions say it (R14, R23, R24, R43, R72). -/

namespace Sys2Proof.Machine
open Sys2Proof.Claims

/-! ## The state around the focus's registers -/

/-- A change of the hart table alone leaves every byte as it is. -/
theorem sameBytes_of_harts {s t : State} (rest : t = { s with harts := t.harts }) : SameBytes s t := by
  rw [rest]
  exact ⟨fun _ => rfl, fun _ _ => rfl, fun _ _ => rfl⟩

theorem onlyHart_of_harts {s t : State} (rest : t = { s with harts := t.harts }) (others : ∀ i, i ≠ s.hid → t.hartOf i = s.hartOf i) : OnlyHart s t :=
  ⟨others, rest, sameBytes_of_harts rest⟩

theorem State.setHart_onlyHart (s : State) (h : Hart) : OnlyHart s (s.setHart h) :=
  onlyHart_of_harts rfl fun _ hi => State.hartOf_setHartOf_ne s hi h

theorem onlyHart_trans {s t u : State} (h : OnlyHart s t) (h' : OnlyHart t u) : OnlyHart s u := by
  have hid : t.hid = s.hid := by rw [h.rest]; rfl
  refine onlyHart_of_harts ?_ fun i hi => (h'.others i (hid ▸ hi)).trans (h.others i hi)
  rw [h'.rest, h.rest]

theorem State.retire_onlyHart (s : State) (n : Nat) (b : Latch) : OnlyHart s (s.retire n b) := s.setHart_onlyHart _
theorem State.jump_onlyHart (s : State) (b : Latch) (a : Word64) : OnlyHart s (s.jump b a) := s.setHart_onlyHart _
theorem State.setDst_onlyHart (s : State) (d : Dst) (x : Word64) : OnlyHart s (s.setDst d x) :=
  onlyHart_of_harts (s.setDst_rest d x) fun _ hi => s.setDst_others d x hi

/-! ## The focus's path and its registers -/

theorem State.hart_setDst (s : State) (d : Dst) (x : Word64) : (s.setDst d x).hart = { s.hart with s := (s.setDst d x).hart.s } := by
  unfold State.setDst
  split
  · rfl
  · rw [State.hart_setHart]
    unfold Hart.setS
    split <;> rfl

@[simp] theorem State.setDst_v (s : State) (d : Dst) (x : Word64) : (s.setDst d x).hart.v = s.hart.v := by rw [State.hart_setDst]
@[simp] theorem State.setDst_m (s : State) (d : Dst) (x : Word64) : (s.setDst d x).hart.m = s.hart.m := by rw [State.hart_setDst]
@[simp] theorem State.setDst_gens (s : State) (d : Dst) (x : Word64) : (s.setDst d x).hart.gens = s.hart.gens := by rw [State.hart_setDst]
theorem State.setDst_paths (s : State) (d : Dst) (x : Word64) (p : Bool) : (s.setDst d x).hart.path p = s.hart.path p := by
  rw [State.hart_setDst]
  rfl

theorem State.retire_pathDone (s : State) (n : Nat) (b : Latch) : PathDone s (s.retire n b) n b where
  latches := by simp [State.retire_path, Path.shift, vget]
  next c hc := by
    have hc' : (s.path.shift s.tick b).clause = some c := hc
    rw [State.retire_path]
    unfold Path.advance
    simp only [hc']
    split
    · exact ⟨rfl, rfl⟩
    · exact ⟨rfl, by simp [Path.nextHeader, hc]⟩
  lanes := by simp [State.retire_path]
  emask := by simp [State.retire_path]
  fmt := by simp [State.retire_path]
  active := by simp [State.retire_path]
  susp := by simp [State.retire_path]
  other := by simp [State.retire_hart]

theorem State.jump_pathJumped (s : State) (b : Latch) (target : Word64) : PathJumped s (s.jump b target) target b where
  latches := by simp [State.jump_path, Path.shift, vget]
  clause := by simp [State.jump_path]
  pc := by simp [State.jump_path]
  lanes := by simp [State.jump_path]
  emask := by simp [State.jump_path]
  fmt := by simp [State.jump_path]
  active := by simp [State.jump_path]
  susp := by simp [State.jump_path]
  other := by simp [State.jump_hart]

/-! ## From another state with the same paths -/

theorem path_eq_of_paths {s s' : State} (paths : ∀ p, s'.hart.path p = s.hart.path p) (cur : s'.cur = s.cur) : s'.path = s.path := by
  rw [State.path, paths, cur, State.path]

theorem pathDone_of_paths {s s' t : State} {n : Nat} {b : Latch} (h : PathDone s' t n b) (paths : ∀ p, s'.hart.path p = s.hart.path p)
    (cur : s'.cur = s.cur) : PathDone s t n b := by
  have path := path_eq_of_paths paths cur
  obtain ⟨latches, next, lanes, emask, fmt, active, susp, other⟩ := h
  rw [path] at latches lanes emask fmt active susp
  simp only [path] at next
  rw [cur, paths] at other
  exact ⟨latches, next, lanes, emask, fmt, active, susp, other⟩

theorem pathJumped_of_paths {s s' t : State} {target : Word64} {b : Latch} (h : PathJumped s' t target b)
    (paths : ∀ p, s'.hart.path p = s.hart.path p) (cur : s'.cur = s.cur) : PathJumped s t target b := by
  obtain ⟨latches, clause, pc, lanes, emask, fmt, active, susp, other⟩ := h
  rw [path_eq_of_paths paths cur] at latches lanes emask fmt active susp
  rw [cur, paths] at other
  exact ⟨latches, clause, pc, lanes, emask, fmt, active, susp, other⟩

/-! ## Instructions without a result, and transfers -/

theorem State.retire_passed (s : State) (n : Nat) : Passed s (s.retire n Latch.none) n where
  path := s.retire_pathDone n _
  scalars := by simp [State.retire_hart]
  vectors := by simp [State.retire_hart]
  masks := by simp [State.retire_hart]
  gens := by simp [State.retire_hart]
  regs := by
    unfold SameRegs
    rw [State.retire_hart]
    cases s.cur.path <;> rfl
  only := s.retire_onlyHart n _

theorem State.jump_jumped (s : State) (target : Word64) : Jumped s (s.jump Latch.none target) target where
  path := s.jump_pathJumped _ target
  scalars := by simp [State.jump_hart]
  vectors := by simp [State.jump_hart]
  masks := by simp [State.jump_hart]
  gens := by simp [State.jump_hart]
  regs := by
    unfold SameRegs
    rw [State.jump_hart]
    cases s.cur.path <;> rfl
  only := s.jump_onlyHart _ target

/-! ## Instructions with a scalar result -/

theorem State.retireS_scalarDone (s : State) (n : Nat) (d : Dst) (x : Word64) : ScalarDone s (s.retireS n d x) d n x where
  reg := s.sreg_retireS n d x
  path := pathDone_of_paths ((s.setDst d x).retire_pathDone n _) (s.setDst_paths d x) (s.setDst_cur d x)
  vectors := by simp [State.retireS, State.retire_hart]
  masks := by simp [State.retireS, State.retire_hart]
  gens := by simp [State.retireS, State.retire_hart]
  regs := by
    unfold SameRegs
    rw [State.retireS, State.retire_hart, State.hart_setDst]
    cases (s.setDst d x).cur.path <;> rfl
  only := onlyHart_trans (s.setDst_onlyHart d x) ((s.setDst d x).retire_onlyHart n _)

/-- A call: the link is written, then the path jumps (R72). -/
theorem State.setDst_jump_called (s : State) (d : Dst) (link target : Word64) :
    Called s ((s.setDst d link).jump (Latch.scalar link) target) d link target where
  reg r := by simp [State.jump_hart, State.sreg_setDst]
  path := pathJumped_of_paths ((s.setDst d link).jump_pathJumped _ target) (s.setDst_paths d link) (s.setDst_cur d link)
  vectors := by simp [State.jump_hart]
  masks := by simp [State.jump_hart]
  gens := by simp [State.jump_hart]
  regs := by
    unfold SameRegs
    rw [State.jump_hart, State.hart_setDst]
    cases (s.setDst d link).cur.path <;> rfl
  only := onlyHart_trans (s.setDst_onlyHart d link) ((s.setDst d link).jump_onlyHart _ target)

end Sys2Proof.Machine
end

