-- ==== Sys2Proof/Proofs/ScalarArithmetic.lean ====
section
/-! PROOFS. Scalar arithmetic: the model's exact integers and patterns are the bit vectors of the statements (R57 to R68), and each instruction with a scalar result writes it and nothing else. -/

namespace Sys2Proof.Machine
open Sys2Proof.Claims

/-! ## Values and extensions (R57) -/

theorem tyBits_pos (t : IntTy) : 0 < tyBits t := Nat.mul_pos (by decide) (Nat.two_pow_pos _)

/-- The value of a pattern is that of its low w bits as a bit vector. -/
theorem valOf_eq (p : Nat) {w : Nat} (hw : 0 < w) (nat : Bool) :
    valOf p w nat = if nat then ((BitVec.ofNat w p).toNat : Int) else (BitVec.ofNat w p).toInt := by
  obtain ⟨k, rfl⟩ : ∃ k, w = k + 1 := ⟨w - 1, by omega⟩
  have half : 2 ^ (k + 1) = 2 * 2 ^ k := by rw [pow_succ, mul_comm]
  cases nat with
  | true => simp [valOf]
  | false =>
    simp only [valOf, BitVec.toInt_eq_toNat_cond, BitVec.toNat_ofNat, Bool.false_or, decide_eq_true_eq, Nat.add_sub_cancel, Bool.false_eq_true, if_false]
    split <;> split <;> grind

theorem valOf_eq_value (t : IntTy) (x : Word64) : valOf x.toNat (tyBits t) t.nat = value t x := by
  rw [valOf_eq _ (tyBits_pos t), BitVec.ofNat_toNat]
  rfl

/-- A pattern extended to 64 bits by its type. -/
theorem extOf_pattern {w : Nat} (hw : 0 < w) (nat : Bool) (q : BitVec w) {v : Int} (hv : BitVec.ofInt w v = q) :
    extOf v w nat = if nat then q.setWidth 64 else q.signExtend 64 := by
  have back : BitVec.ofNat w (v % 2 ^ w).toNat = q := by
    rw [← hv]
    apply BitVec.eq_of_toNat_eq
    rw [BitVec.toNat_ofNat, BitVec.toNat_ofInt]
    exact Nat.mod_eq_of_lt (by simpa using (BitVec.ofInt w v).isLt)
  unfold extOf
  simp only [valOf_eq _ hw, back]
  cases nat with
  | true => simp
  | false => simp [BitVec.signExtend]

theorem extOf_eq_extended (t : IntTy) (v : Int) : extOf v (tyBits t) t.nat = extended t v :=
  extOf_pattern (tyBits_pos t) t.nat _ rfl

/-- A typed operation on exact integers. -/
theorem typed_eq (t : IntTy) (f : Int → Int → Int) (x y : Word64) : typed t f x y = extended t (f (value t x) (value t y)) := by
  rw [typed, extOf_eq_extended, valOf_eq_value, valOf_eq_value]

/-- A typed operation on patterns. -/
theorem typedBits_eq (t : IntTy) {f : Nat → Nat → Nat} {F : BitVec (8 * 2 ^ t.width.toNat) → BitVec (8 * 2 ^ t.width.toNat) → BitVec (8 * 2 ^ t.width.toNat)}
    (x y : Word64) (h : f (x.setWidth (tyBits t)).toNat (y.setWidth (tyBits t)).toNat = (F (x.setWidth _) (y.setWidth _)).toNat) :
    typedBits t f x y = extendedBits t F x y := by
  refine extOf_pattern (tyBits_pos t) t.nat (F (x.setWidth _) (y.setWidth _)) ?_
  rw [BitVec.toNat_setWidth, BitVec.toNat_setWidth] at h
  rw [h, BitVec.ofInt_natCast, BitVec.ofNat_toNat]
  exact BitVec.setWidth_eq _

/-! ## The operations (R60) -/

theorem tdiv_eq_truncQuot (x y : Int) : x.tdiv y = truncQuot x y := by
  rw [← Int.sign_mul_natAbs (x.tdiv y), Int.sign_tdiv, Int.natAbs_tdiv, truncQuot]
  split
  · next small => simp [Nat.div_eq_of_lt small]
  · rfl

theorem divT_eq (x y : Int) : divT x y = if y = 0 then -1 else truncQuot x y := by rw [divT, tdiv_eq_truncQuot]
theorem remT_eq (x y : Int) : remT x y = if y = 0 then x else x - y * truncQuot x y := by rw [remT, tdiv_eq_truncQuot]
theorem ediv_two_pow_eq_fdiv (x : Int) (c : Nat) : x / 2 ^ c = Int.fdiv x (2 ^ c) := (Int.fdiv_eq_ediv_of_nonneg x (by positivity)).symm

/-- A rotation moves the high bits below the others, where they are disjoint from them. -/
theorem rotl_eq {w : Nat} (p : BitVec w) {c : Nat} (hc : c < w) : rotl w p.toNat c = (p.rotateLeft c).toNat := by
  have low : p.toNat / 2 ^ (w - c) < 2 ^ c := by
    rw [Nat.div_lt_iff_lt_mul (by positivity), ← pow_add]
    exact lt_of_lt_of_eq p.isLt (by congr 1; omega)
  have high : p.toNat * 2 ^ c % 2 ^ w = (p.toNat % 2 ^ (w - c)) * 2 ^ c := by
    rw [← Nat.mul_mod_mul_right, ← pow_add, Nat.sub_add_cancel hc.le]
  have fits : (p.toNat % 2 ^ (w - c)) * 2 ^ c + p.toNat / 2 ^ (w - c) < 2 ^ w := by
    have := Nat.mod_lt p.toNat (show 0 < 2 ^ (w - c) by positivity)
    calc _ < (p.toNat % 2 ^ (w - c) + 1) * 2 ^ c := by rw [add_mul, one_mul]; omega
      _ ≤ 2 ^ (w - c) * 2 ^ c := Nat.mul_le_mul_right _ this
      _ = 2 ^ w := by rw [← pow_add, Nat.sub_add_cancel hc.le]
  rw [rotl, Nat.add_mod, Nat.mod_eq_of_lt (low.trans (Nat.pow_lt_pow_right (by decide) hc)), high, Nat.mod_eq_of_lt fits,
    BitVec.toNat_rotateLeft, Nat.mod_eq_of_lt hc, Nat.shiftLeft_eq, high, Nat.shiftRight_eq_div_pow,
    ← Nat.shiftLeft_eq, Nat.shiftLeft_add_eq_or_of_lt low]

/-- The count of a rotation reads the same from the low w bits as from the whole register. -/
theorem mod_tyBits_of_pattern (t : IntTy) (y : Word64) : (y.setWidth (tyBits t)).toNat % tyBits t = y.toNat % tyBits t := by
  rw [BitVec.toNat_setWidth]
  refine Nat.mod_mod_of_dvd _ ?_
  rw [tyBits, show 8 * 2 ^ t.width.toNat = 2 ^ (t.width.toNat + 3) by rw [pow_add]; ring]
  refine pow_dvd_pow 2 ?_
  have := Nat.lt_two_pow_self (n := t.width.toNat + 3)
  omega

/-- The order of two integers as a scalar (R66). -/
theorem cmp3_eq (x y : Int) : cmp3 x y = if x < y then BitVec.allOnes 64 else if x = y then 0 else 1 := by
  unfold cmp3
  split
  · rfl
  · split <;> rfl

/-! ## Instructions with a scalar result -/

section
variable {s : State} {i : Instr} {n : Nat} {d : Dst} {a b : Src} {x y v : Word64}

theorem exec_scalarDone_of_alu1 {f : Word64 → Word64} (arm : exec i s = s.alu1 n d a f) (ha : s.opnd a = .ok x) (value : f x = v) :
    ∃ u, exec i s = .next u ∧ ScalarDone s u d n v := by
  refine ⟨s.retireS n d v, ?_, s.retireS_scalarDone n d v⟩
  rw [arm, State.alu1, ha, ← value]
  rfl

theorem exec_scalarDone_of_alu2 {f : Word64 → Word64 → Word64} (arm : exec i s = s.alu2 n d a b f) (ha : s.opnd a = .ok x) (hb : s.opnd b = .ok y)
    (value : f x y = v) : ∃ u, exec i s = .next u ∧ ScalarDone s u d n v := by
  refine ⟨s.retireS n d v, ?_, s.retireS_scalarDone n d v⟩
  rw [arm, State.alu2, ha, hb, ← value]
  rfl

theorem exec_scalarDone_of_const (arm : exec i s = .next (s.retireS n d v)) : ∃ u, exec i s = .next u ∧ ScalarDone s u d n v :=
  ⟨_, arm, s.retireS_scalarDone n d v⟩

end

end Sys2Proof.Machine

namespace Sys2Proof.Claims
open Sys2Proof.Machine

theorem registerFormArithmeticResults : RegisterFormArithmeticResults := by
  intro s d a b t x y ha hb
  dsimp only
  have onIntegers {i : Instr} {f : Int → Int → Int} (arm : exec i s = s.alu2 1 d a b (typed t f)) :=
    exec_scalarDone_of_alu2 arm ha hb (typed_eq t f x y)
  have onPatterns {i : Instr} {f : Nat → Nat → Nat} {F} (arm : exec i s = s.alu2 1 d a b (typedBits t f)) (h) :=
    exec_scalarDone_of_alu2 arm ha hb (typedBits_eq t (F := F) x y h)
  simp only [List.forall_mem_cons, List.not_mem_nil, false_imp_iff, implies_true, and_true]
  refine ⟨onIntegers rfl, onIntegers rfl, onIntegers rfl, ?mulh, ?div, ?rem, onPatterns rfl (BitVec.toNat_and _ _).symm, onPatterns rfl (BitVec.toNat_or _ _).symm,
    onPatterns rfl (BitVec.toNat_xor _ _).symm, ?andn, ?shl, ?shr, ?rol, ?min, ?max⟩
  case mulh => exact exec_scalarDone_of_alu2 rfl ha hb (by rw [typed_eq, ediv_two_pow_eq_fdiv]; rfl)
  case div => exact exec_scalarDone_of_alu2 rfl ha hb (by rw [typed_eq, divT_eq])
  case rem => exact exec_scalarDone_of_alu2 rfl ha hb (by rw [typed_eq, remT_eq])
  case andn => exact onPatterns rfl (by rw [← BitVec.toNat_not]; exact (BitVec.toNat_and _ _).symm)
  case shl => exact exec_scalarDone_of_alu2 rfl ha hb (by rw [extOf_eq_extended, valOf_eq_value]; rfl)
  case shr => exact exec_scalarDone_of_alu2 rfl ha hb (by rw [extOf_eq_extended, valOf_eq_value, ediv_two_pow_eq_fdiv]; rfl)
  case rol =>
    refine onPatterns rfl ?_
    rw [mod_tyBits_of_pattern]
    exact rotl_eq _ (Nat.mod_lt _ (tyBits_pos t))
  case min => exact exec_scalarDone_of_alu2 rfl ha hb (by rw [typed_eq, Int.min_def])
  case max => exact exec_scalarDone_of_alu2 rfl ha hb (by rw [typed_eq, Int.max_def])

theorem immediateCompareAndSelectResults : ImmediateCompareAndSelectResults := by
  intro s d a b t i c x y ha hb
  dsimp only
  simp only [List.forall_mem_cons, List.not_mem_nil, false_imp_iff, implies_true, and_true]
  have one {e : Instr} {f : Word64 → Word64} {v : Word64} (arm : exec e s = s.alu1 1 d a f) (value : f x = v) := exec_scalarDone_of_alu1 arm ha value
  refine ⟨one rfl rfl, one rfl rfl, one rfl rfl, one rfl rfl, one rfl rfl, one rfl rfl, one rfl rfl, one rfl rfl, exec_scalarDone_of_const rfl, ?cmpi, ?cmp, ?sel⟩
  case cmpi => exact one rfl (by rw [cmp3_eq, sx64, BitVec.toInt_signExtend_of_le (by decide)])
  case cmp => exact exec_scalarDone_of_alu2 rfl ha hb (by rw [cmp3_eq, valOf_eq_value, valOf_eq_value])
  case sel => exact exec_scalarDone_of_alu2 rfl ha hb (by by_cases h : s.hart.sreg d.reg = 0 <;> simp [h])

/-- Settles O1: each instruction's arm is a shared shape on one or two operands, whose value is that of the statement by the lemma of its operation. -/
theorem scalarArithmeticResults : Obligations.ScalarArithmeticResults :=
  ⟨registerFormArithmeticResults, immediateCompareAndSelectResults⟩

end Sys2Proof.Claims
end

