-- ==== Sys2Proof/Proofs/BitFields.lean ====
section
/-! PROOFS. Literals, bit fields and bit counts (R63 to R65): the bits of each result. -/

namespace Sys2Proof.Machine
open Sys2Proof.Claims

/-! ## Bit fields (R64) -/

theorem BitField.extract_eq (f : BfLit) (x : Word64) (width : 1 ≤ f.width.toNat) :
    BitField.extract f x = let field := x.extractLsb' f.lo.toNat f.width.toNat
      if f.sx then field.signExtend 64 else field.setWidth 64 := by
  have field : BitVec.ofNat f.width.toNat (x.toNat / 2 ^ f.lo.toNat % 2 ^ f.width.toNat) = x.extractLsb' f.lo.toNat f.width.toNat := by
    apply BitVec.eq_of_toNat_eq
    simp [Nat.shiftRight_eq_div_pow]
  simp only [BitField.extract, valOf_eq _ width, field]
  cases f.sx with
  | true => simp [BitVec.signExtend]
  | false => exact (BitVec.ofInt_natCast _ _).trans (BitVec.ofNat_toNat _ _)

/-- Below, inside and above a field of w bits at place l, the bits of a number that is put together from three parts. -/
theorem testBit_threeParts (hi : Nat) {low mid l w : Nat} (hl : low < 2 ^ l) (hm : mid < 2 ^ w) (k : Nat) :
    (2 ^ l * (2 ^ w * hi + mid) + low).testBit k = if k < l then low.testBit k else if k < l + w then mid.testBit (k - l) else hi.testBit (k - l - w) := by
  rw [Nat.testBit_two_pow_mul_add _ hl, Nat.testBit_two_pow_mul_add _ hm]
  by_cases below : k < l
  · rw [if_pos below, if_pos below]
  · rw [if_neg below, if_neg below]
    simp only [show k - l < w ↔ k < l + w by omega]

theorem BitField.insert_eq (f : BfLit) (x y : Word64) :
    let l := f.lo.toNat
    let w := f.width.toNat
    BitField.insert f x y = BitVec.ofNat 64 (2 ^ l * (2 ^ w * (x.toNat / 2 ^ l / 2 ^ w) + y.toNat % 2 ^ w) + x.toNat % 2 ^ l) := by
  intro l w
  have whole : x.toNat = 2 ^ l * (2 ^ w * (x.toNat / 2 ^ l / 2 ^ w)) + x.toNat / 2 ^ l % 2 ^ w * 2 ^ l + x.toNat % 2 ^ l := by
    rw [Nat.mul_comm _ (2 ^ l), ← Nat.mul_add, Nat.div_add_mod, Nat.div_add_mod]
  refine congrArg (BitVec.ofNat 64) (?_ : x.toNat - x.toNat / 2 ^ l % 2 ^ w * 2 ^ l + y.toNat % 2 ^ w * 2 ^ l = _)
  rw [Nat.mul_add, Nat.mul_comm (2 ^ l) (y.toNat % 2 ^ w)]
  generalize x.toNat / 2 ^ l % 2 ^ w * 2 ^ l = old at *
  generalize 2 ^ l * (2 ^ w * (x.toNat / 2 ^ l / 2 ^ w)) = high at *
  generalize x.toNat % 2 ^ l = low at *
  omega

theorem BitField.getLsbD_insert (f : BfLit) (x y : Word64) {k : Nat} (hk : k < 64) :
    (BitField.insert f x y).getLsbD k
      = if f.lo.toNat ≤ k ∧ k < f.lo.toNat + f.width.toNat then y.getLsbD (k - f.lo.toNat) else x.getLsbD k := by
  rw [BitField.insert_eq, BitVec.getLsbD_ofNat, testBit_threeParts _ (Nat.mod_lt _ (Nat.two_pow_pos _)) (Nat.mod_lt _ (Nat.two_pow_pos _))]
  simp only [hk, decide_true, Bool.true_and, Nat.testBit_mod_two_pow, Nat.testBit_div_two_pow, BitVec.getLsbD]
  split
  · next below => simp [below, Nat.not_le.mpr below]
  · next above =>
    split
    · next inside =>
      have : k - f.lo.toNat < f.width.toNat := by omega
      simp [this, Nat.le_of_not_lt above, inside]
    · next outside =>
      rw [if_neg (by omega)]
      congr 1
      omega

/-! ## Counts (R65) -/

theorem getLsbD_eq_testBit_mod (x : Word64) {j w : Nat} (hj : j < w) : x.getLsbD j = (x.toNat % 2 ^ w).testBit j := by
  simp [Nat.testBit_mod_two_pow, hj, BitVec.getLsbD]

/-- The zero bits above the highest one bit of a pattern of w bits. -/
theorem clzOf_spec {w p : Nat} (hp : p < 2 ^ w) :
    clzOf w p ≤ w ∧ (∀ i < clzOf w p, p.testBit (w - 1 - i) = false) ∧ (clzOf w p < w → p.testBit (w - 1 - clzOf w p) = true) := by
  unfold clzOf
  split
  · next zero => simp [zero]
  · next nonzero =>
    have top : Nat.log2 p < w := (Nat.log2_lt nonzero).mpr hp
    refine ⟨by omega, fun i hi => ?_, fun _ => ?_⟩
    · exact Nat.testBit_lt_two_pow ((Nat.log2_lt nonzero).mp (by omega))
    · rw [show w - 1 - (w - 1 - Nat.log2 p) = Nat.log2 p by omega]
      exact Nat.testBit_log2 nonzero

/-- The zero bits below the lowest one bit of a pattern of w bits. -/
theorem ctzOf_spec (w p : Nat) :
    ctzOf w p ≤ w ∧ (∀ i < ctzOf w p, p.testBit i = false) ∧ (ctzOf w p < w → p.testBit (ctzOf w p) = true) := by
  induction w generalizing p with
  | zero => simp [ctzOf]
  | succ w ih =>
    obtain ⟨le, zeros, one⟩ := ih (p / 2)
    unfold ctzOf
    split
    · next odd => simp [Nat.testBit_zero, odd]
    · next even =>
      refine ⟨by omega, fun i hi => ?_, fun more => ?_⟩
      · cases i with
        | zero => simpa [Nat.testBit_zero] using even
        | succ i => rw [Nat.testBit_succ]; exact zeros i (by omega)
      · rw [Nat.add_comm, Nat.testBit_succ]
        exact one (by omega)

/-- The one bits among the low n. -/
theorem popcount_eq (p n : Nat) : popcount p n = ((List.range n).filter fun i => p.testBit i).length := by
  induction n generalizing p with
  | zero => rfl
  | succ n ih =>
    have rest : (fun i => p.testBit i) ∘ Nat.succ = fun i => (p / 2).testBit i := by
      funext i
      exact Nat.testBit_succ p i
    rw [popcount, ih, List.range_succ_eq_map, List.filter_cons, List.filter_map, rest]
    rcases Nat.mod_two_eq_zero_or_one p with even | odd
    · simp [Nat.testBit_zero, even]
    · simp [Nat.testBit_zero, odd, Nat.add_comm]

end Sys2Proof.Machine

namespace Sys2Proof.Claims
open Sys2Proof.Machine

theorem literalAndBitFieldResults : LiteralAndBitFieldResults := by
  intro s d a b l f x y ha hb width _ field
  refine ⟨?_, ?_⟩
  · simp only [List.forall_mem_cons, List.not_mem_nil, false_imp_iff, implies_true, and_true]
    exact ⟨exec_scalarDone_of_const rfl, exec_scalarDone_of_const rfl, exec_scalarDone_of_alu1 rfl ha rfl,
      exec_scalarDone_of_alu1 rfl ha (BitField.extract_eq f x width)⟩
  · obtain ⟨u, next, done⟩ := exec_scalarDone_of_alu2 (i := .bfi d a b f) rfl ha hb rfl
    exact ⟨u, _, next, done, fun k hk => BitField.getLsbD_insert f x y hk⟩

theorem bitCountResults : BitCountResults := by
  intro s d a k x ha w
  have low {j : Nat} (hj : j < w) : x.getLsbD j = (x.toNat % 2 ^ w).testBit j := getLsbD_eq_testBit_mod x hj
  refine ⟨?clz, ?ctz, exec_scalarDone_of_alu1 rfl ha (congrArg _ (popcount_eq x.toNat w))⟩
  case clz =>
    obtain ⟨u, next, done⟩ := exec_scalarDone_of_alu1 (i := .clz d a k) rfl ha rfl
    obtain ⟨le, zeros, one⟩ := clzOf_spec (w := w) (Nat.mod_lt x.toNat (Nat.two_pow_pos w))
    exact ⟨u, clzOf w (x.toNat % 2 ^ w), next, done, le, fun i hi => by rw [low (by omega)]; exact zeros i hi, fun more => by rw [low (by omega)]; exact one more⟩
  case ctz =>
    obtain ⟨u, next, done⟩ := exec_scalarDone_of_alu1 (i := .ctz d a k) rfl ha rfl
    obtain ⟨le, zeros, one⟩ := ctzOf_spec w (x.toNat % 2 ^ w)
    exact ⟨u, ctzOf w (x.toNat % 2 ^ w), next, done, le, fun i hi => by rw [low (by omega)]; exact zeros i hi, fun more => by rw [low more]; exact one more⟩

/-- Settles O2: a field replaced is a number put together from three parts; the counts by the highest one bit, and by induction on the width. -/
theorem literalAndBitResults : Obligations.LiteralAndBitResults := ⟨literalAndBitFieldResults, bitCountResults⟩

end Sys2Proof.Claims
end

