-- ==== Sys2Proof/Proofs/Transfers.lean ====
section
/-! PROOFS. Branches, jumps, calls and hints (R69 to R72, R76): where a taken transfer goes, and that an untaken one only goes on. -/

namespace Sys2Proof.Machine
open Sys2Proof.Claims

/-! ## Targets (R48, R69) -/

theorem highBits_of_lt_windowC {t : Word64} (h : t.toNat < 12 * 2 ^ 52) : t.extractLsb' 56 8 = 0 ∧ (t.extractLsb' 52 4).toNat < 12 := by
  constructor
  · apply BitVec.eq_of_toNat_eq
    rw [BitVec.extractLsb'_toNat, Nat.shiftRight_eq_div_pow]
    change _ = 0
    omega
  · rw [BitVec.extractLsb'_toNat, Nat.shiftRight_eq_div_pow]
    omega

/-- A target that R69 accepts passes the checks of a taken transfer. -/
theorem State.checkTarget_ok {s : State} {target : Word64} (ok : TargetOk s target) : s.checkTarget target = .ok () := by
  obtain ⟨aligned, inside⟩ := ok
  have aligned : (target.toNat % 4 == 0) = true := beq_of_eq aligned
  unfold State.checkTarget
  cases bank : s.onBank with
  | true =>
    simp only [bank, if_true] at inside
    simp only [if_true, need_ok (decide_eq_true inside), need_ok aligned]
    rfl
  | false =>
    simp only [bank, Bool.false_eq_true, if_false] at inside
    obtain ⟨top, window⟩ := highBits_of_lt_windowC inside
    have low : (target.extractLsb' 56 8 == 0 && decide ((target.extractLsb' 52 4).toNat < 12)) = true := by rw [top, decide_eq_true window]; rfl
    simp only [Bool.false_eq_true, if_false, need_ok low, need_ok aligned]
    rfl

theorem State.dispTarget_eq {s : State} {c : Clause} (clause : s.path.clause = some c) (d : Word64) : s.dispTarget d = c.hdr + 4 * d := by
  simp [State.dispTarget, Path.header, clause]

theorem Path.nextHeader_eq {p : Path} {c : Clause} (clause : p.clause = some c) : p.nextHeader = c.hdr + BitVec.ofNat 64 (4 * (c.count + 1)) := by
  simp [Path.nextHeader, clause]

/-! ## Transfers -/

theorem State.transfer_ok {s : State} {target : Word64} (ok : TargetOk s target) (b : Latch) : s.transfer b target = .ok (s.jump b target) := by
  rw [State.transfer, State.checkTarget_ok ok]
  rfl

section
variable {s : State} {i : Instr} {n : Nat} {target : Word64}

theorem exec_jumped_of_transfer (arm : exec i s = s.finish (s.transfer Latch.none target)) (ok : TargetOk s target) :
    ∃ t, exec i s = .next t ∧ Jumped s t target :=
  ⟨_, by rw [arm, State.transfer_ok ok, State.finish_ok], s.jump_jumped target⟩

/-- A branch that is taken goes to its target, where R69 accepts it, and one that is not taken goes on. -/
theorem exec_of_branch {taken : Bool} (arm : exec i s = s.finish (s.branch n taken target)) :
    if taken then TargetOk s target → ∃ t, exec i s = .next t ∧ Jumped s t target else ∃ t, exec i s = .next t ∧ Passed s t n := by
  cases taken with
  | true => exact fun ok => exec_jumped_of_transfer arm ok
  | false => exact ⟨_, arm, s.retire_passed n⟩

theorem exec_called_of_callTo {d : Dst} {c : Clause} (clause : s.path.clause = some c) (arm : exec i s = s.finish (s.callTo d target)) (ok : TargetOk s target) :
    ∃ t, exec i s = .next t ∧ Called s t d (c.hdr + BitVec.ofNat 64 (4 * (c.count + 1))) target := by
  refine ⟨_, ?_, s.setDst_jump_called d _ target⟩
  rw [arm, State.callTo, State.checkTarget_ok ok, ← Path.nextHeader_eq clause]
  rfl

end

/-! ## Conditions (R70) -/

theorem condHolds_ge (x y : Word64) : condHolds .ge x y = decide (y.toInt ≤ x.toInt) := by
  rw [← decide_eq_decide.mpr not_lt, decide_not]
  rfl

theorem condHolds_gen (x y : Word64) : condHolds .gen x y = decide (y.toNat ≤ x.toNat) := by
  rw [← decide_eq_decide.mpr not_lt, decide_not]
  rfl

end Sys2Proof.Machine

namespace Sys2Proof.Claims
open Sys2Proof.Machine

theorem transfersGoToTheirTargets : TransfersGoToTheirTargets := by
  intro s c a b x y i l clause ha hb near far
  have toNear : s.dispTarget (sx64 i) = near := State.dispTarget_eq clause _
  have toFar : s.dispTarget (sx64 l) = far := State.dispTarget_eq clause _
  have onOne {e : Instr} {taken : Bool} {f : Word64 → Bool} (arm : exec e s = s.finish do s.branch 1 (f (← s.opnd a)) (s.dispTarget (sx64 i)))
      (cond : f x = taken) := exec_of_branch (arm.trans (by rw [ha, toNear, ← cond]; rfl : _ = s.finish (s.branch 1 taken near)))
  have compared {cc : BrCond} {taken : Bool} (cond : condHolds cc x y = taken) :=
    exec_of_branch (i := .brc a b cc l) (s := s) (n := 2) (taken := taken) (target := far) (by
      change execBrc a b cc l s = _
      rw [execBrc, ha, hb, toFar, ← cond]
      rfl)
  simp only [List.forall_mem_cons, List.not_mem_nil, false_imp_iff, implies_true, and_true]
  refine ⟨?bra, onOne rfl rfl, onOne rfl (decide_not.symm), compared rfl, compared decide_not.symm, compared rfl,
    compared (condHolds_ge x y), compared rfl, compared (condHolds_gen x y), ?jmp, ?jmpReg, ?ret⟩
  case bra => exact fun ok => exec_jumped_of_transfer (by rw [← toNear]; rfl) ok
  case jmp => exact fun ok => exec_jumped_of_transfer (by rw [← toFar]; rfl) ok
  case jmpReg =>
    refine fun ok => exec_jumped_of_transfer ?_ ok
    change execJmpReg a l s = _
    rw [execJmpReg, ha]
    rfl
  case ret =>
    refine fun ok => exec_jumped_of_transfer ?_ ok
    change execRet a s = _
    rw [execRet, ha]
    rfl

theorem callsWriteTheirLinkAndJump : CallsWriteTheirLinkAndJump := by
  intro s c d a x l clause ha link
  refine ⟨exec_called_of_callTo clause ?_, exec_called_of_callTo clause ?_⟩
  · rw [← State.dispTarget_eq clause]
    rfl
  · change execCallr d a s = _
    rw [execCallr, ha]
    rfl

theorem hintsOnlyGoOn : HintsOnlyGoOn := by
  intro s c clause
  refine ⟨⟨_, rfl, s.retire_passed 1⟩, ⟨_, ?_, State.retire_passed _ 1⟩, ⟨_, ?_, State.retire_passed _ 1⟩⟩
  · change execYield s = _
    simp [execYield, Path.setYield, clause]
  · change execLooph s = _
    simp [execLooph, Path.header, clause]

/-- Settles O5: each transfer's arm is a branch, a jump or a call with its condition and its target, and each hint's arm retires. -/
theorem transferCallAndHintResults : Obligations.TransferCallAndHintResults :=
  ⟨transfersGoToTheirTargets, callsWriteTheirLinkAndJump, hintsOnlyGoOn⟩

end Sys2Proof.Claims
end

