-- ==== Sys2Proof/Proofs/Divergence.lean ====
section
/-! PROOFS. Divergence (R73, R74, R91 to R95): how a path divides, and what closing a child does to the records and the path slots. -/

namespace Sys2Proof.Machine
open Sys2Proof.Claims

theorem State.path_setHart (s : State) (h : Hart) : (s.setHart h).path = h.path s.cur.path := by
  rw [State.path, State.hart_setHart, State.setHart_cur]

/-! ## Changes of the paths and the records alone -/

/-- From h to t only the paths, the divergence records and consumed remote data may differ. -/
def Hart.PathsMoved (h t : Hart) : Prop :=
  t = { h with p0 := t.p0, p1 := t.p1, recs := t.recs, arrived := t.arrived, asked := t.asked, bad := t.bad }

namespace Hart.PathsMoved

theorem trans {h t u : Hart} (a : h.PathsMoved t) (b : t.PathsMoved u) : h.PathsMoved u := by
  unfold PathsMoved at *
  rw [b, a]

theorem setPath (h : Hart) (p : Bool) (x : Path) : h.PathsMoved (h.setPath p x) := by cases p <;> rfl
theorem forget (h : Hart) : h.PathsMoved h.forget := rfl
theorem recs (h : Hart) (rs : List DivRec) : h.PathsMoved { h with recs := rs } := rfl

end Hart.PathsMoved

theorem onlyPaths_of_pathsMoved {s t : State} (only : OnlyHart s t) (moved : s.hart.PathsMoved t.hart) : OnlyPaths s t := by
  refine ⟨only, ?_⟩
  unfold Hart.PathsMoved at moved
  rw [moved]

theorem State.setHart_onlyPaths (s : State) {h : Hart} (moved : s.hart.PathsMoved h) : OnlyPaths s (s.setHart h) :=
  onlyPaths_of_pathsMoved (s.setHart_onlyHart h) (by rwa [State.hart_setHart])

/-! ## Records in the spill store (R93, R199) -/

/-- Up to 32 records none lies in the spill store. -/
theorem State.spillFrom_few {s : State} (few : s.hart.recs.length ≤ 32) : s.spillFrom 32 = .ok s := by
  rw [State.spillFrom, Nat.sub_eq_zero_of_le few]
  rfl

theorem State.fillRecs_few {s : State} (few : s.hart.recs.length ≤ 32) : s.fillRecs = .ok s := by
  rw [State.fillRecs, Nat.sub_eq_zero_of_le few]
  rfl

/-- Spilling records writes memory only. -/
theorem State.spillFrom_wrote {s t : State} {i : Nat} (h : s.spillFrom i = .ok t) : s.Wrote t := by
  unfold State.spillFrom at h
  refine List.foldlRecOn (motive := fun r : Res State => ∀ u, r = .ok u → s.Wrote u) _ _ ?_ ?_ t h
  · rintro u ⟨⟩
    exact .refl s
  · intro r kept j _ u hu
    obtain ⟨v, rfl, hv⟩ := exists_ok_of_bind_eq_ok hu
    have step := kept v rfl
    split at hv
    · cases hv
      exact step
    · dsimp only at hv
      split at hv
      · next w =>
        cases hv
        exact step.trans (State.vwrite_wrote w)
      · cases hv

/-! ## A path divides (R92) -/

/-- The record of a division in which the lanes t take the branch. -/
def State.divRec (s : State) (t : Word64) : DivRec :=
  let p := s.path
  let f := p.emask &&& ~~~t
  { lanes := p.lanes, fmt := p.fmt, taken := t, fall := f, takenOpen := true, fallOpen := true, takenMask := 0, fallMask := 0, takenPc := none,
    fallPc := none, pending := if (s.hart.path (!s.cur.path)).active then some ⟨f, p.nextHeader, p.fmt⟩ else none }

/-- The focus's registers with the record of its division, and the fall-through child in the other slot where that is free. -/
def State.divided (s : State) (t : Word64) : Hart :=
  let h := { s.hart with recs := s.divRec t :: s.hart.recs }
  if (s.hart.path (!s.cur.path)).active then h
  else h.setPath (!s.cur.path) { childPath (s.path.emask &&& ~~~t) s.path.nextHeader s.path.fmt with since := s.tick }

/-- The focus's path as the taken child. -/
def State.asTaken (s : State) (t target : Word64) : State :=
  let u := s.jump Latch.none target
  u.setPath { u.path with lanes := t, emask := t }

theorem State.divide_eq {s : State} {t target : Word64} (ok : TargetOk s target) (room : s.hart.recs.length < 1024) :
    s.divide t target = if (s.divided t).recs.length ≤ 32 then .ok ((s.setHart (s.divided t)).asTaken t target)
      else (s.setHart (s.divided t)).spillFrom 32 >>= fun u => .ok (u.asTaken t target) := by
  rw [State.divide, State.checkTarget_ok ok, need_ok (decide_eq_true room)]
  rfl

@[simp] theorem State.divided_recs (s : State) (t : Word64) : (s.divided t).recs = s.divRec t :: s.hart.recs := by
  unfold State.divided
  dsimp only
  split <;> simp

@[simp] theorem State.divided_path (s : State) (t : Word64) : (s.divided t).path s.cur.path = s.path := by
  unfold State.divided State.path
  dsimp only
  split <;> cases s.cur.path <;> rfl

theorem State.divided_other (s : State) (t : Word64) :
    if (s.hart.path (!s.cur.path)).active then (s.divided t).path (!s.cur.path) = s.hart.path (!s.cur.path)
    else Begins ((s.divided t).path (!s.cur.path)) (s.path.emask &&& ~~~t) s.path.nextHeader s.path.fmt := by
  unfold State.divided
  dsimp only
  split
  · rfl
  · rw [Hart.path_setPath]
    exact ⟨rfl, rfl, rfl, rfl, rfl, rfl, rfl⟩

theorem State.asTaken_hart (s : State) (t target : Word64) :
    (s.asTaken t target).hart = ((s.hart.setPath s.cur.path { (s.path.shift s.tick Latch.none).goto target with lanes := t, emask := t }).forget) := by
  rw [State.asTaken, State.jump_path, State.setPath, State.hart_setHart, State.jump_hart, State.jump_cur]
  cases s.cur.path <;> rfl

theorem State.divided_pathsMoved (s : State) (t : Word64) : s.hart.PathsMoved (s.divided t) := by
  unfold State.divided
  dsimp only
  split
  · exact .recs _ _
  · exact (Hart.PathsMoved.recs _ _).trans (.setPath _ _ _)

theorem State.asTaken_onlyPaths (s : State) (h : Hart) (moved : s.hart.PathsMoved h) (t target : Word64) : OnlyPaths s ((s.setHart h).asTaken t target) := by
  refine onlyPaths_of_pathsMoved ?_ ?_
  · exact onlyHart_trans (s.setHart_onlyHart _) (onlyHart_trans (State.jump_onlyHart _ _ _) (State.setHart_onlyHart _ _))
  · rw [State.asTaken_hart, State.hart_setHart]
    exact moved.trans ((Hart.PathsMoved.setPath _ _ _).trans (.forget _))

/-- The taken child begins at the target. -/
theorem State.asTaken_begins {s : State} (t target : Word64) (active : s.path.active = true) (susp : s.path.susp = none) :
    Begins (s.asTaken t target).path t target s.path.fmt := by
  have path : (s.asTaken t target).path = { (s.path.shift s.tick Latch.none).goto target with lanes := t, emask := t } := by
    rw [State.asTaken, State.path_setPath, State.jump_path]
  rw [path]
  exact ⟨active, rfl, rfl, rfl, rfl, rfl, susp⟩

/-! ## BRM (R73) -/

section
variable {s : State} {a : Src} {i : BitVec 10} {m : MWord} {target : Word64} (operand : s.opndM a = .ok m) (goal : s.dispTarget (sx64 i) = target)
include operand goal

theorem exec_brm :
    exec (.brm a i) s = s.finish (let t := m.setWidth 64 &&& s.path.emask
      if t = s.path.emask then s.branch 1 true target else if t = 0 then s.branch 1 false target else s.divide t target) := by
  change execBrm a i s = _
  rw [execBrm, operand, goal]
  rfl

theorem exec_brm_divides (some : m.setWidth 64 &&& s.path.emask ≠ 0) (notAll : m.setWidth 64 &&& s.path.emask ≠ s.path.emask) :
    exec (.brm a i) s = s.finish (s.divide (m.setWidth 64 &&& s.path.emask) target) := by
  rw [exec_brm operand goal]
  simp only [some, notAll, if_false]

end

/-! ## A child closes (R94, R95) -/

/-- The record at the top of the stack is that of a path which has the lanes of one of its open children. -/
theorem findRec_taken {lanes : Word64} {r : DivRec} (isOpen : r.takenOpen = true) (mine : r.taken = lanes) (rs : List DivRec) :
    findRec lanes (r :: rs) = some (0, true) := by
  simp [findRec, isOpen, mine]

theorem findRec_fall {lanes : Word64} {r : DivRec} (isOpen : r.fallOpen = true) (mine : r.fall = lanes) (other : r.taken ≠ lanes) (rs : List DivRec) :
    findRec lanes (r :: rs) = some (0, false) := by
  simp [findRec, isOpen, mine, other]

theorem length_modifyAt {α : Type} (f : α → α) (i : Nat) (xs : List α) : (modifyAt f i xs).length = xs.length := by
  induction xs generalizing i with
  | nil => simp [modifyAt]
  | cons x xs ih => cases i <;> simp [modifyAt, ih]

@[simp] theorem DivRec.close_pending (r : DivRec) (taken : Bool) (mask : Word64) (pc : Option Word64) : (r.close taken mask pc).pending = r.pending := by
  cases taken <;> rfl

/-- What taking a free slot does, r being the newest record and rs the others: a pending path of r begins in the slot, and where none is pending
anywhere the slot stays free. -/
structure Hart.Refilled (h t : Hart) (slot : Bool) (r : DivRec) (rs : List DivRec) : Prop where
  moved : h.PathsMoved t
  other : t.path (!slot) = h.path (!slot)
  recs : ∃ rs', t.recs = { r with pending := none } :: rs' ∧ rs'.length = rs.length
  pending : ∀ q, r.pending = some q → Begins (t.path slot) q.lanes q.pc q.fmt
  free : r.pending = none → (∀ x ∈ rs, x.pending = none) → t.path slot = h.path slot

theorem Hart.refill_refilled {h : Hart} {r : DivRec} {rs : List DivRec} (recs : h.recs = r :: rs) (slot : Bool) (tick : Nat) :
    h.Refilled (h.refill slot tick) slot r rs := by
  have moves (rs' : List DivRec) (x : Path) : h.PathsMoved ({ h with recs := rs' }.setPath slot x) := (PathsMoved.recs h rs').trans (.setPath _ slot x)
  cases pending : r.pending with
  | some q =>
    have eq : h.refill slot tick = { h with recs := { r with pending := none } :: rs }.setPath slot { childPath q.lanes q.pc q.fmt with since := tick } := by
      simp [Hart.refill, recs, pending, List.findIdx?_cons, modifyAt]
    rw [eq]
    refine ⟨moves _ _, Hart.path_setPath_not _ _ _, ⟨rs, by simp, rfl⟩, fun q' hq => ?_, fun none => by simp [pending] at none⟩
    cases pending.symm.trans hq
    rw [Hart.path_setPath]
    exact ⟨rfl, rfl, rfl, rfl, rfl, rfl, rfl⟩
  | none =>
    have same : { r with pending := none } = r := by rw [← pending]
    have stays : h.Refilled h slot r rs := ⟨rfl, rfl, ⟨rs, by rw [recs, same], rfl⟩, fun q hq => by simp [pending] at hq, fun _ _ => rfl⟩
    unfold Hart.refill
    rw [recs, List.findIdx?_cons, if_neg (by simp [pending])]
    cases found : rs.findIdx? fun r => r.pending.isSome with
    | none => exact stays
    | some i =>
      dsimp only [Option.map_some]
      split
      · exact stays
      · next q hq =>
        refine ⟨moves _ _, Hart.path_setPath_not _ _ _, ⟨modifyAt (fun r => { r with pending := none }) i rs, by simp [modifyAt, same], ?_⟩, fun q' hq' => ?_,
          fun _ idle => ?_⟩
        · exact length_modifyAt _ _ _
        · simp [pending] at hq'
        · obtain ⟨y, hy, some⟩ := Option.bind_eq_some_iff.mp hq
          simp [idle y (List.mem_of_getElem? hy)] at some

/-- The first child of the newest record closes: the record keeps what it left, and its slot falls free. -/
theorem Hart.closeChild_first {h : Hart} {r : DivRec} {rs : List DivRec} {lanes : Word64} {taken : Bool} (recs : h.recs = r :: rs)
    (found : findRec lanes (r :: rs) = some (0, taken)) (other : (if taken then r.fallOpen else r.takenOpen) = true)
    (slot : Bool) (tick fuel : Nat) (mask : Word64) (pc : Option Word64) :
    h.closeChild slot tick (fuel + 1) lanes mask pc
      = (({ h with recs := r.close taken mask pc :: rs }.setPath slot Path.idle).refill slot tick, false) := by
  have stillOpen : ((r.close taken mask pc).takenOpen || (r.close taken mask pc).fallOpen) = true := by
    cases taken <;> simp_all [DivRec.close]
  simp only [Hart.closeChild, recs, found, modifyAt, List.getElem?_cons_zero, stillOpen, if_true]

/-- The second child of the newest record closes at a JOIN: the record is popped, and the parent resumes in the slot. -/
theorem Hart.closeChild_last {h : Hart} {r : DivRec} {rs : List DivRec} {lanes : Word64} {taken : Bool} (recs : h.recs = r :: rs)
    (found : findRec lanes (r :: rs) = some (0, taken)) (other : (if taken then r.fallOpen else r.takenOpen) = false)
    (slot : Bool) (tick fuel : Nat) (mask next : Word64) :
    h.closeChild slot tick (fuel + 1) lanes mask (some next)
      = ({ h with recs := rs }.setPath slot { childPath r.lanes (if taken then next else r.takenPc.getD next) r.fmt with
            emask := mask ||| (if taken then r.fallMask else r.takenMask), since := tick }, false) := by
  have closed : ((r.close taken mask (some next)).takenOpen || (r.close taken mask (some next)).fallOpen) = false := by
    cases taken <;> simp_all [DivRec.close]
  simp only [Hart.closeChild, recs, found, modifyAt, List.getElem?_cons_zero, closed, Bool.false_eq_true, if_false, removeAt]
  cases taken with
  | true => rfl
  | false =>
    cases first : r.takenPc <;> simp [DivRec.close, first, BitVec.or_comm] <;> rfl

/-! ## JOIN (R74) -/

theorem exec_join_undivided {s : State} (recs : s.hart.recs = []) : exec .join s = .next (s.retire 1 Latch.none) := by
  change execJoin s = _
  rw [execJoin, recs]
  rfl

theorem exec_join_closes {s : State} {r : DivRec} {rs : List DivRec} {taken : Bool} {h : Hart} (recs : s.hart.recs = r :: rs) (few : rs.length < 32)
    (found : findRec s.path.lanes (r :: rs) = some (0, taken))
    (closed : s.hart.closeChild s.cur.path s.tick 1 s.path.lanes s.path.emask (some s.path.nextHeader) = (h, false)) (left : h.recs.length ≤ 32) :
    exec .join s = .next (s.setHart h) := by
  change execJoin s = _
  have filled : s.fillRecs = .ok s := State.fillRecs_few (by rw [recs]; exact few)
  have spilled : (s.setHart h).spillFrom 32 = .ok (s.setHart h) := State.spillFrom_few (by rw [State.hart_setHart]; exact left)
  rw [execJoin]
  simp only [recs, found, filled]
  change s.finish (State.spillFrom (s.setHart (s.hart.closeChild _ _ 1 _ _ _).1) 32) = _
  rw [closed, spilled]
  rfl

end Sys2Proof.Machine

namespace Sys2Proof.Claims
open Sys2Proof.Machine

theorem brmBranchesOrDivides : BrmBranchesOrDivides := by
  intro s c a m i active susp clause operand target next T F
  have goal : s.dispTarget (sx64 i) = target := State.dispTarget_eq clause _
  have arm := exec_brm operand goal
  have falls : s.path.nextHeader = next := Path.nextHeader_eq clause
  refine ⟨fun all => ?taken, fun none some => ?notTaken, fun some notAll ok few => ?divides, fun u many room some notAll ok divide => ?spills⟩
  case taken => exact fun ok => exec_jumped_of_transfer (arm.trans (by rw [if_pos all]; rfl)) ok
  case notTaken =>
    refine ⟨_, arm.trans ?_, s.retire_passed 1⟩
    dsimp only
    rw [if_neg (by rw [show m.setWidth 64 &&& s.path.emask = 0 from none]; exact some.symm), if_pos none]
    rfl
  case divides =>
    have divide : s.divide T target = .ok ((s.setHart (s.divided T)).asTaken T target) := by
      rw [State.divide_eq ok (by omega), if_pos (by rw [State.divided_recs]; exact few)]
    have path : (s.setHart (s.divided T)).path = s.path := by
      rw [State.path, State.hart_setHart]
      exact s.divided_path T
    have begins := State.asTaken_begins (s := s.setHart (s.divided T)) T target (by rw [path]; exact active) (by rw [path]; exact susp)
    rw [path] at begins
    refine ⟨_, s.divRec T, (exec_brm_divides operand goal some notAll).trans (by rw [divide]; rfl),
      s.asTaken_onlyPaths _ (s.divided_pathsMoved T) T target, ?recs, rfl, rfl, rfl, rfl, rfl, rfl,
      begins, ?other⟩
    case recs => simp [State.asTaken_hart]
    case other =>
      have other := s.divided_other T
      have kept : ((s.setHart (s.divided T)).asTaken T target).hart.path (!s.cur.path) = (s.divided T).path (!s.cur.path) := by
        rw [State.asTaken_hart, State.hart_setHart, Hart.forget_path]
        exact Hart.path_setPath_not _ _ _
      rw [kept]
      split
      · next busy => exact ⟨by simpa [busy] using other, by simp [State.divRec, busy, falls, F, T]⟩
      · next free =>
        rw [if_neg free, falls] at other
        exact ⟨other, by simp [State.divRec, free]⟩
  case spills =>
    have divided := divide
    rw [State.divide_eq ok room, if_neg (by rw [State.divided_recs]; simp; omega)] at divided
    obtain ⟨v, spilled, done⟩ := exists_ok_of_bind_eq_ok divided
    cases done
    have wrote := State.spillFrom_wrote spilled
    have hart : v.hart = s.divided T := by
      rw [State.hart, wrote.hartOf_eq, show v.hid = s.hid by rw [wrote]; rfl]
      exact s.hart_setHart _
    have cur : v.cur = s.cur := by rw [wrote]; rfl
    have path : v.path = s.path := by rw [State.path, hart, cur, State.divided_path]
    have begins := State.asTaken_begins (s := v) T target (by rw [path]; exact active) (by rw [path]; exact susp)
    rw [path] at begins
    refine ⟨(exec_brm_divides operand goal some notAll).trans (by rw [divide]; rfl), begins, s.divRec T, ?_, rfl, rfl⟩
    rw [State.asTaken_hart, hart]
    simp

theorem joinClosesAChildAndRestoresTheParent : JoinClosesAChildAndRestoresTheParent := by
  intro s c r rs taken clause next mine
  have goes : s.path.nextHeader = next := Path.nextHeader_eq clause
  refine ⟨fun recs => ⟨_, exec_join_undivided recs, s.retire_passed 1⟩, fun recs apart lanes isOpen few => ?_⟩
  have found : findRec s.path.lanes (r :: rs) = some (0, taken) := by
    cases taken with
    | true => exact findRec_taken isOpen lanes rs
    | false => exact findRec_fall isOpen lanes (fun h => apart (h.trans lanes.symm)) rs
  cases other : (if taken then r.fallOpen else r.takenOpen) with
  | true =>
    have closed := Hart.closeChild_first recs found other s.cur.path s.tick 0 s.path.emask (some s.path.nextHeader)
    obtain ⟨moved, otherPath, ⟨rs', recs', len⟩, pending, free⟩ := Hart.refill_refilled
      (h := { s.hart with recs := r.close taken s.path.emask (some s.path.nextHeader) :: rs }.setPath s.cur.path Path.idle) (Hart.setPath_recs _ _ _) s.cur.path s.tick
    refine ⟨_, exec_join_closes recs few found closed (by rw [recs', List.length_cons, len]; exact few), s.setHart_onlyPaths ?_, ?_, ?_⟩
    · exact ((Hart.PathsMoved.recs _ _).trans (.setPath _ _ _)).trans moved
    · rw [State.hart_setHart, otherPath]
      exact Hart.path_setPath_not _ _ _
    · rw [if_pos rfl, State.path_setHart, State.hart_setHart, recs']
      refine ⟨fun q hq => pending q (by simpa using hq), fun none idle => ?_, _, rfl, ?_⟩
      · rw [free (by simpa using none) idle, Hart.path_setPath]
        rfl
      · rw [← goes]
        cases taken with
        | true => exact ⟨rfl, rfl, rfl, rfl, rfl, rfl, other⟩
        | false => exact ⟨rfl, rfl, rfl, rfl, rfl, rfl, other⟩
  | false =>
    have closed := Hart.closeChild_last recs found other s.cur.path s.tick 0 s.path.emask s.path.nextHeader
    refine ⟨_, exec_join_closes recs few found closed (by rw [Hart.setPath_recs]; exact few.le), s.setHart_onlyPaths ?_, ?_, ?_⟩
    · exact (Hart.PathsMoved.recs _ _).trans (.setPath _ _ _)
    · rw [State.hart_setHart]
      exact Hart.path_setPath_not _ _ _
    · rw [if_neg Bool.false_ne_true, State.hart_setHart, Hart.setPath_recs, State.path_setHart, Hart.path_setPath, goes]
      exact ⟨rfl, rfl, rfl, rfl, rfl, rfl, rfl⟩

/-- Settles O3: BRM by the three cases of its mask, JOIN by whether the closing child is the first or the second of its record. -/
theorem divergenceResults : Obligations.DivergenceResults := ⟨brmBranchesOrDivides, joinClosesAChildAndRestoresTheParent⟩

end Sys2Proof.Claims
end

