-- ==== Sys2Proof/Proofs/ExitGroup.lean ====
section
/-! PROOFS. EXIT (R30, R75, R95): a group that ends stays ended while its team is released, its tokens return, and a child of a division closes instead. -/

namespace Sys2Proof.Machine
open Sys2Proof.Claims

/-! ## What the end of a team starts: nothing -/

theorem mem_of_mem_mset {κ α : Type} [DecidableEq κ] {k : κ} {v : α} {e : κ × α} {m : List (κ × α)} (h : e ∈ mset k v m) : e ∈ m ∨ e = (k, v) := by
  induction m with
  | nil => exact .inr (List.mem_singleton.mp h)
  | cons a m ih =>
    unfold mset at h
    split at h
    · rcases List.mem_cons.mp h with eq | tail
      · exact .inr eq
      · exact .inl (List.mem_cons_of_mem _ tail)
    · rcases List.mem_cons.mp h with eq | tail
      · exact .inl (eq ▸ List.mem_cons_self)
      · exact (ih tail).imp_left (List.mem_cons_of_mem _)

/-- A key's value is in the table, or the key has none and takes the default. -/
theorem mget_mem_or_eq {κ α : Type} [DecidableEq κ] (d : α) (k : κ) (m : List (κ × α)) : (k, mget d k m) ∈ m ∨ mget d k m = d := by
  induction m with
  | nil => exact .inr rfl
  | cons a m ih =>
    unfold mget
    split
    · next eq => exact .inl (eq ▸ List.mem_cons_self)
    · exact ih.imp_left (List.mem_cons_of_mem _)

/-- From s to t no group has come to life. -/
def State.NoNewLife (s t : State) : Prop := ∀ i h, (i, h) ∈ t.harts → h.live = true → ∃ h', (i, h') ∈ s.harts ∧ h'.live = true

namespace State.NoNewLife

theorem of_harts_eq {s t : State} (h : t.harts = s.harts) : s.NoNewLife t := fun _ x hx live => ⟨x, h ▸ hx, live⟩

theorem refl (s : State) : s.NoNewLife s := of_harts_eq rfl

theorem trans {s t u : State} (a : s.NoNewLife t) (b : t.NoNewLife u) : s.NoNewLife u := fun i h hm live =>
  let ⟨h', hm', live'⟩ := b i h hm live
  a i h' hm' live'

theorem foldl {α : Type} {f : State → α → State} (hf : ∀ (s : State) (a : α), s.NoNewLife (f s a)) (l : List α) (s : State) : s.NoNewLife (l.foldl f s) :=
  List.foldlRecOn (motive := s.NoNewLife) l f (refl s) fun u hu a _ => hu.trans (hf u a)

/-- Registers of a hart that does not come to life change. -/
theorem setHartOf {s : State} {i : HartId} {h : Hart} (same : h.live = (s.hartOf i).live) : s.NoNewLife (s.setHartOf i h) := by
  intro j x hx live
  rcases mem_of_mem_mset hx with old | new
  · exact ⟨x, old, live⟩
  · cases new
    rw [same] at live
    rcases mget_mem_or_eq Hart.reset i s.harts with found | absent
    · exact ⟨_, found, live⟩
    · rw [State.hartOf, absent] at live
      cases live

theorem liveGids {s t : State} (a : s.NoNewLife t) {k g : Nat} (h : g ∈ t.liveGids k) : g ∈ s.liveGids k := by
  obtain ⟨lt, x, hx, live⟩ := State.mem_liveGids.mp h
  exact State.mem_liveGids.mpr ⟨lt, a _ x hx live⟩

end State.NoNewLife

theorem State.discardHeld_noNewLife (s : State) (k : Nat) : s.NoNewLife (s.discardHeld k) := by
  refine .foldl (fun u h => ?_) _ s
  refine (State.NoNewLife.of_harts_eq (u.logError_wrote .discarded 0 (s.teamOf k).core (s.teamOf k).asid 0 (BitVec.ofNat 64 (h.tile * 256))).harts_eq).trans ?_
  have counted (v : State) : v.NoNewLife (v.putDone h.src h.st none) := by
    unfold State.putDone
    dsimp only
    split
    · exact .setHartOf rfl
    · exact .refl v
  cases h.remote with
  | none => exact counted _
  | some p => exact (counted _).trans (.of_harts_eq rfl)

theorem State.refuseAsker_noNewLife (s : State) (src : Port) (asked : Nat × Nat) (n : Nat) : s.NoNewLife (s.refuseAsker src asked n) := by
  unfold State.refuseAsker
  dsimp only
  split
  · refine .setHartOf ?_
    unfold Hart.receive
    split <;> rfl
  · exact .of_harts_eq rfl
  · exact .refl s

theorem State.discardRing_noNewLife (s : State) (k : Nat) : s.NoNewLife (s.discardRing k) := by
  refine .foldl (fun u b => ?_) _ s
  refine (State.NoNewLife.of_harts_eq (u.logError_wrote .discarded 0 (s.teamOf k).core (s.teamOf k).asid 0 (BitVec.ofNat 64 b.off)).harts_eq).trans ?_
  dsimp only
  split
  · exact .of_harts_eq rfl
  · exact .of_harts_eq rfl
  · exact State.refuseAsker_noNewLife _ _ _ _
  · exact State.refuseAsker_noNewLife _ _ _ _
  · exact .refl _

theorem State.releaseTeam_noNewLife (s : State) (k : Nat) : s.NoNewLife (s.releaseTeam k) := by
  have discarded := (s.discardHeld_noNewLife k).trans (State.discardRing_noNewLife _ k)
  unfold State.releaseTeam
  dsimp only
  split
  · exact .refl s
  · exact discarded.trans (.of_harts_eq (State.changeNode_harts _ _ _ _))

theorem State.giveUpFold_harts (s : State) (k core : Nat) : (s.giveUpFold k core).harts = s.harts := by
  unfold State.giveUpFold State.unbindFold
  split
  · split
    · split <;> rfl
    · rfl
  · rfl

theorem State.endStream_harts (s : State) (k : Nat) : (s.endStream k).harts = s.harts := by
  unfold State.endStream
  dsimp only
  split <;> rfl

/-! ## A group that ends by EXIT (R75) -/

/-- The engine has the tokens of a team's group again. -/
def State.takeTokens (s : State) (k g : Nat) : State :=
  s.setTeamOf k { s.teamOf k with acc := returnTokens g (s.teamOf k).acc }

/-- The group is gone and its tokens are back; its team goes on. -/
def State.leftByExit (s : State) (k g : Nat) : State := (s.closeGroup k g).takeTokens k g

theorem State.endGroup_exit (s : State) (k g : Nat) :
    s.endGroup k g none =
      let w := s.leftByExit k g
      if (w.liveGids k).isEmpty then ((w.giveUpFold k ((s.closeGroup k g).teamOf k).core).endStream k).releaseTeam k else w := rfl

/-- Where a group of the team is alive afterwards, the team goes on. -/
theorem State.endGroup_exit_of_liveGids {s : State} {k g : Nat} (alive : (s.endGroup k g none).liveGids k ≠ []) : s.endGroup k g none = s.leftByExit k g := by
  rw [State.endGroup_exit] at alive ⊢
  dsimp only at alive ⊢
  split
  · next gone =>
    rw [if_pos gone] at alive
    obtain ⟨j, hj⟩ := List.exists_mem_of_ne_nil _ alive
    have started := (State.releaseTeam_noNewLife _ k).liveGids hj
    rw [State.liveGids, State.endStream_harts, State.giveUpFold_harts, ← State.liveGids, List.isEmpty_iff.mp gone] at started
    cases started
  · rfl

theorem State.leftByExit_harts (s : State) (k g : Nat) : (s.leftByExit k g).harts = (s.setHartOf (.group k g) (s.hartOf (.group k g)).ended).harts :=
  (s.closeGroup_frame k g).1

theorem State.endGroup_exit_keepsEnds (s : State) (k g : Nat) : (s.leftByExit k g).KeepsEnds (s.endGroup k g none) := by
  rw [State.endGroup_exit]
  dsimp only
  split
  · exact (State.giveUpFold_keepsEnds _ k _).trans ((State.endStream_keepsEnds _ k).trans (State.releaseTeam_keepsEnds _ k))
  · exact .refl _

/-- The group has no path any more (R30). -/
theorem State.endGroup_exit_hartOf (s : State) (k g : Nat) :
    let h := (s.endGroup k g none).hartOf (.group k g)
    h.live = false ∧ h.p0.active = false ∧ h.p1.active = false := by
  have keeps := s.endGroup_exit_keepsEnds k g
  have ended : (s.leftByExit k g).hartOf (.group k g) = (s.hartOf (.group k g)).ended := by
    rw [State.hartOf, State.leftByExit_harts, ← State.hartOf, State.hartOf_setHartOf]
  dsimp only
  rw [keeps.live, keeps.p0, keeps.p1, ended]
  exact ⟨rfl, rfl, rfl⟩

theorem State.leftByExit_others (s : State) {k g : Nat} {i : HartId} (hi : i ≠ .group k g) : (s.leftByExit k g).hartOf i = s.hartOf i := by
  rw [State.hartOf, State.leftByExit_harts, ← State.hartOf, State.hartOf_setHartOf_ne _ hi]

/-- No tile has a token of the group. -/
theorem returnTokens_token (g n : Nat) (acc : AMap Nat Tile) : (mget (default : Tile) n (returnTokens g acc)).token ≠ some g := by
  induction acc with
  | nil => exact nofun
  | cons e acc ih =>
    obtain ⟨i, x⟩ := e
    unfold returnTokens at ih ⊢
    rw [List.map_cons, mget]
    split
    · split
      · exact nofun
      · next other => exact other
    · exact ih

theorem State.leftByExit_token (s : State) (k g n : Nat) : (mget (default : Tile) n ((s.leftByExit k g).teamOf k).acc).token ≠ some g := by
  rw [State.leftByExit, State.takeTokens, State.teamOf_setTeamOf]
  exact returnTokens_token g n _

/-! ## The arm of EXIT -/

theorem Hart.drainedAll_iff (h : Hart) : h.drainedAll = true ↔ ∀ k < 8, h.counter k = 0 := by simp [Hart.drainedAll]

section
variable {s : State} {h : Hart} (few : s.hart.recs.length ≤ 32)
include few

/-- The path that closes holds all lanes of a group that is not divided: EXIT ends the group or waits (R75). -/
theorem exec_exit_whole (closed : s.hart.closeChild s.cur.path s.tick (s.hart.recs.length + 1) s.path.lanes 0 none = (h, true))
    (undivided : h.recs.length = s.hart.recs.length) :
    exec .exit s = if h.drainedAll then .next ((s.setHart h).endGroup s.cur.team s.cur.gid none) else .next (s.stopped (.suspend .drain)) := by
  change s.finish s.exitPath = _
  simp only [State.exitPath, State.fillRecs_few few, bind, Except.bind, closed, undivided]
  cases h.drainedAll <;> rfl

/-- The path that closes is a child: EXIT closes it (R95). -/
theorem exec_exit_child (closed : s.hart.closeChild s.cur.path s.tick (s.hart.recs.length + 1) s.path.lanes 0 none = (h, false)) (left : h.recs.length ≤ 32) :
    exec .exit s = .next (s.setHart h) := by
  have spilled : (s.setHart h).spillFrom 32 = .ok (s.setHart h) := State.spillFrom_few (by rw [State.hart_setHart]; exact left)
  change s.finish s.exitPath = _
  simp only [State.exitPath, State.fillRecs_few few, bind, Except.bind, closed, Bool.not_false, if_true, spilled]
  rfl

end

/-- EXIT of a group without records (R75). -/
theorem exec_exit_undivided {s : State} (recs : s.hart.recs = []) :
    exec .exit s = if s.hart.drainedAll then .next ((s.setHart s.hart).endGroup s.cur.team s.cur.gid none) else .next (s.stopped (.suspend .drain)) :=
  exec_exit_whole (by simp [recs]) (by simp [Hart.closeChild, recs, findRec]) rfl

end Sys2Proof.Machine

namespace Sys2Proof.Claims
open Sys2Proof.Machine

/-- Settles O4: a group without records ends or waits by its counters, and a division's taken child closes as the first of its record. -/
theorem exitEndsTheGroup : Obligations.ExitEndsTheGroup := by
  intro s unit
  have hid : s.hid = .group s.cur.team s.cur.gid := by rw [State.hid, unit]
  refine ⟨fun recs drained => ?ends, fun recs ⟨k, hk, outstanding⟩ => ?waits, fun r rs recs few isOpen mine other => ?closes⟩
  case ends =>
    have ends := (exec_exit_undivided recs).trans (if_pos ((Hart.drainedAll_iff _).mpr drained))
    have ended := (s.setHart s.hart).endGroup_exit_hartOf s.cur.team s.cur.gid
    rw [← hid] at ended
    obtain ⟨live, slot0, slot1⟩ := ended
    refine ⟨_, ends, live, slot0, slot1, fun alive i hi => ?_, fun alive n => ?_⟩
    · rw [State.endGroup_exit_of_liveGids alive, State.leftByExit_others _ (hid ▸ hi)]
      exact State.hartOf_setHartOf_ne s hi _
    · rw [State.endGroup_exit_of_liveGids alive]
      exact State.leftByExit_token _ _ _ n
  case waits =>
    have waits := (exec_exit_undivided recs).trans (if_neg fun h => outstanding ((Hart.drainedAll_iff _).mp h k hk))
    obtain ⟨susp, clause, -, -⟩ := s.stopped_suspend .drain
    refine ⟨_, waits, susp, clause, ?_⟩
    exact (congrArg Hart.live (s.hart_setHart _)).trans (Hart.setPath_live _ _ _)
  case closes =>
    have found : findRec s.path.lanes (r :: rs) = some (0, true) := findRec_taken isOpen mine rs
    have closed := Hart.closeChild_first recs found (by simpa using other) s.cur.path s.tick s.hart.recs.length 0 none
    obtain ⟨moved, -, ⟨rs', recs', len⟩, -, -⟩ := Hart.refill_refilled
      (h := { s.hart with recs := r.close true 0 none :: rs }.setPath s.cur.path Path.idle) (Hart.setPath_recs _ _ _) s.cur.path s.tick
    have goes := exec_exit_child (by rw [recs]; exact few) closed (by rw [recs', List.length_cons, len]; exact few)
    refine ⟨_, { r.close true 0 none with pending := none }, goes, s.setHart_onlyPaths ?_, ?_, rfl, rfl, rfl, other⟩
    · exact ((Hart.PathsMoved.recs _ _).trans (.setPath _ _ _)).trans moved
    · rw [State.hart_setHart, recs']
      rfl

end Sys2Proof.Claims
end

