-- ==== Sys2Proof/Proofs/ScalarLoads.lean ====
section
/-! PROOFS. Scalar loads (R77, R78, R225, R255): the result and what the caches keep; the bytes that a load of the team's own allocation finds (R79, R196, R203). -/

namespace Sys2Proof.Machine
open Sys2Proof.Claims

/-! ## What an access leaves in the caches (R255, R301, R365) -/

/-- From s to t only what the caches hold, and the choices that are taken, may differ. -/
structure State.CachesMoved (s t : State) : Prop where
  rest : t = { s with cores := t.cores, oracle := t.oracle, dirty := t.dirty }
  cores : ∀ c, t.coreOf c = { s.coreOf c with l1 := (t.coreOf c).l1, tlb := (t.coreOf c).tlb }

namespace State.CachesMoved

theorem refl (s : State) : s.CachesMoved s := ⟨rfl, fun _ => rfl⟩

theorem trans {s t u : State} (a : s.CachesMoved t) (b : t.CachesMoved u) : s.CachesMoved u where
  rest := by rw [b.rest, a.rest]
  cores c := by rw [b.cores c, a.cores c]

theorem foldl {α : Type} {f : State → α → State} (hf : ∀ (s : State) (a : α), s.CachesMoved (f s a)) (l : List α) (s : State) : s.CachesMoved (l.foldl f s) :=
  List.foldlRecOn (motive := s.CachesMoved) l f (refl s) fun u hu a _ => hu.trans (hf u a)

theorem chosen (s : State) : s.CachesMoved s.chosen := ⟨rfl, fun _ => rfl⟩
theorem writeBack (s : State) (k n : Nat) : s.CachesMoved (s.writeBack k n) := ⟨rfl, fun _ => rfl⟩

/-- A core's L1 and its translations change. -/
theorem setCoreOf (s : State) (k : Nat) (l1 : AMap Nat (List Byte)) (tlb : List TlbEntry) :
    s.CachesMoved (s.setCoreOf k { s.coreOf k with l1 := l1, tlb := tlb }) where
  rest := rfl
  cores c := by
    by_cases h : c = k
    · subst h
      rw [State.coreOf_setCoreOf]
    · rw [State.coreOf_setCoreOf_ne _ h]

section
variable {s t : State} (h : s.CachesMoved t)
include h

theorem harts_eq : t.harts = s.harts := by rw [h.rest]
theorem cur_eq : t.cur = s.cur := by rw [h.rest]
theorem team_eq : t.team = s.team := by rw [h.rest]; rfl
theorem hid_eq : t.hid = s.hid := by rw [h.rest]; rfl
theorem hart_eq : t.hart = s.hart := by rw [State.hart, State.hartOf, h.harts_eq, h.hid_eq]; rfl
theorem onBank_eq : t.onBank = s.onBank := by rw [h.rest]; rfl

end

end State.CachesMoved

theorem State.fillTlb_cachesMoved (s : State) (core asid va : Nat) : s.CachesMoved (s.fillTlb core asid va) := by
  unfold State.fillTlb
  split
  · exact .refl s
  · dsimp only
    split
    · exact .refl s
    · exact .setCoreOf s core _ _

theorem State.evictFor_cachesMoved (s : State) (loads : List (Word64 × Place)) (n : Nat) : s.CachesMoved (s.evictFor loads n) := by
  unfold State.evictFor
  split
  · exact .refl s
  · split
    · exact .chosen s
    · refine (State.CachesMoved.chosen s).trans (.foldl (fun u l => ?_) _ _)
      split
      · exact .writeBack u _ _
      · exact .refl u

theorem State.touch_cachesMoved (s : State) (loads : List (Word64 × Place)) : s.CachesMoved (s.touch loads) := by
  unfold State.touch
  split
  · exact .refl s
  · dsimp only
    split
    · exact .chosen s
    · exact (State.CachesMoved.chosen s).trans (.setCoreOf _ _ _ _)
    · exact (State.CachesMoved.chosen s).trans (.foldl (fun u l => u.fillTlb_cachesMoved _ _ _) _ _)
    · exact (State.CachesMoved.chosen s).trans (.setCoreOf _ _ _ _)
    · exact .chosen s
    · exact (State.CachesMoved.chosen s).trans (State.fillTlb_cachesMoved _ _ _ _)

theorem State.acquire_cachesMoved (s : State) (sc : Scope) : s.CachesMoved (s.acquire sc) := by
  unfold State.acquire State.dropL1
  split
  · split
    · exact .refl s
    · exact .setCoreOf s _ _ _
  · exact .refl s

/-- An acquire of scope `.die` or wider leaves the core's L1 without lines (R255). -/
theorem State.acquire_l1 {s : State} {sc : Scope} (group : s.onBank = false) (isWide : wide sc = true) : ((s.acquire sc).coreOf s.team.core).l1 = [] := by
  simp [State.acquire, State.dropL1, group, isWide]

/-! ## A scalar load (R78, R225) -/

theorem State.retireS_coreOf (s : State) (n : Nat) (d : Dst) (x : Word64) (c : Nat) : (s.retireS n d x).coreOf c = s.coreOf c := by
  rw [State.retireS_rest]
  rfl

/-- A scalar result that retires after the caches have moved. -/
theorem loadDone_of_scalarDone {s s' u : State} {d : Dst} {x : Word64} (moved : s.CachesMoved s') (done : ScalarDone s' u d 2 x) : LoadDone s u d 2 x := by
  obtain ⟨reg, path, vectors, masks, gens, regs, only⟩ := done
  have hart := moved.hart_eq
  have cores : u.cores = s'.cores := by rw [only.rest]
  unfold ScalarWritten at reg
  unfold SameRegs at regs
  rw [hart] at vectors masks gens regs
  refine ⟨fun r => by rw [reg r, hart], pathDone_of_paths path (fun p => by rw [hart]) moved.cur_eq, vectors, masks, gens, regs, fun i hi => ?_, ?_, fun c => ?_, ?_⟩
  · rw [only.others i (moved.hid_eq ▸ hi), State.hartOf, moved.harts_eq, State.hartOf]
  · rw [only.rest, moved.rest]
  · rw [State.coreOf, cores]
    exact moved.cores c
  · rw [only.rest, moved.rest]
    exact ⟨fun _ => rfl, fun _ _ => rfl, fun _ _ => rfl⟩

section
variable {s : State} {d : Dst} {a : Src} {t : IntTy} {sp : Space} {off base va : Word64} {w : Where} {bs : List Byte}

/-- The state in which a load's result retires: the caches have moved for it, and for its acquire. -/
def State.afterLoad (s : State) (w : Where) (va : Word64) (n : Nat) (acq : Option Scope) : State :=
  let u := (s.evictFor (w.loads va) n).touch (w.loads va)
  match acq with
  | some sc => u.acquire sc
  | none => u

theorem State.afterLoad_cachesMoved (s : State) (w : Where) (va : Word64) (n : Nat) (acq : Option Scope) : s.CachesMoved (s.afterLoad w va n acq) := by
  have moved := (s.evictFor_cachesMoved (w.loads va) n).trans (State.touch_cachesMoved _ (w.loads va))
  cases acq with
  | none => exact moved
  | some sc => exact moved.trans (State.acquire_cachesMoved _ sc)

theorem State.loadS_eq (acq : Option Scope) (operand : s.opnd a = .ok base) (form : s.form sp base off = .ok va)
    (find : s.find aLoad .all va (tyBytes t) (tyBytes t) = .ok w)
    (load : (s.evictFor (w.loads va) (tyBytes t)).load w va (tyBytes t) ((acq.map wide).getD false) = .ok bs) :
    s.loadS d a t sp off acq = .next ((s.afterLoad w va (tyBytes t) acq).retireS 2 d (extended t (leNat bs))) := by
  rw [State.loadS]
  simp only [operand, form, find, load, bind, Except.bind, extOf_eq_extended]
  cases acq <;> rfl

end

/-! ## A load of the own allocation (R79, R196, R203) -/

/-- The window-0xD address of an offset below 2^20: its window, and the offset that it names (R196). -/
theorem spadAddress {e : Word64} (small : e.toNat < 2 ^ 20) :
    let va : Word64 := 0x00D0000000000000 + e
    window va = some 13 ∧ va.toNat = 13 * 2 ^ 52 + e.toNat ∧ va.extractLsb' 20 32 = 0 := by
  intro va
  have toNat : va.toNat = 13 * 2 ^ 52 + e.toNat := by
    rw [BitVec.toNat_add]
    change (13 * 2 ^ 52 + e.toNat) % 2 ^ 64 = _
    omega
  have top : va.extractLsb' 56 8 = 0 := by
    apply BitVec.eq_of_toNat_eq
    rw [BitVec.extractLsb'_toNat, Nat.shiftRight_eq_div_pow, toNat]
    change _ = 0
    omega
  refine ⟨?_, toNat, ?_⟩
  · rw [window, top, BitVec.extractLsb'_toNat, Nat.shiftRight_eq_div_pow, toNat, if_pos (beq_self_eq_true _)]
    congr 1
    omega
  · apply BitVec.eq_of_toNat_eq
    rw [BitVec.extractLsb'_toNat, Nat.shiftRight_eq_div_pow, toNat]
    change _ = 0
    omega

theorem State.form_spad {s : State} {base off : Word64} (group : s.onBank = false) (small : (base + off).toNat < 2 ^ 20) :
    s.form .l base off = .ok (0x00D0000000000000 + (base + off)) := by
  simp only [State.form, group, Bool.false_eq_true, if_false, small, if_true]

/-- An aligned load at a window-0xD address inside the own allocation goes to its bytes. -/
theorem State.locate_spad {s : State} {va : Word64} {o n : Nat} (group : s.onBank = false) (win : window va = some 13) (low : va.extractLsb' 20 32 = 0)
    (offset : va.toNat % 2 ^ 20 = o) (aligned : va.toNat % n = 0) (inside : o + n ≤ s.team.spadBytes) :
    s.locate aLoad .all va n n = .ok ⟨.spad s.cur.team o, false⟩ := by
  have place : s.locSpad aLoad va (va.toNat % 2 ^ 20) n = .ok ⟨.spad s.cur.team o, false⟩ := by
    rw [State.locSpad, offset, if_neg (Nat.not_lt.mpr inside)]
    rfl
  simpa [State.locate, group, win, Wins.ok, aligned, low] using place

theorem State.find_spad {s : State} {e : Word64} {n : Nat} (group : s.onBank = false) (small : e.toNat < 2 ^ 20) (pow : n ∣ 2 ^ 52) (aligned : e.toNat % n = 0)
    (inside : e.toNat + n ≤ s.team.spadBytes) :
    s.find aLoad .all (0x00D0000000000000 + e) n n = .ok (.mem ⟨.spad s.cur.team e.toNat, false⟩) := by
  obtain ⟨win, toNat, low⟩ := spadAddress small
  have aligned : (0x00D0000000000000 + e : Word64).toNat % n = 0 := by
    rw [toNat, Nat.add_mod, aligned, Nat.add_zero, Nat.mod_mod]
    exact Nat.mod_eq_zero_of_dvd (dvd_mul_of_dvd_right pow 13)
  rw [State.find, group, win, State.locate_spad group win low (by rw [toNat]; omega) aligned inside]
  rfl

/-- Nothing to forward leaves the bytes that are read as they are. -/
theorem overlay_none {α : Type} (l : List α) (bs : List Byte) (len : l.length = bs.length) : overlay (l.map fun _ => none) bs = bs := by
  induction l generalizing bs with
  | nil => exact (List.eq_nil_of_length_eq_zero len.symm).symm
  | cons a l ih =>
    cases bs with
    | nil => cases len
    | cons b bs => simpa [overlay] using ih bs (by simpa using len)

/-- A load of bytes of an allocation that nothing of the group is on its way to, and of which no word is marked. -/
theorem State.load_spad {s : State} {k o n : Nat} {va : Word64} (group : s.onBank = false) (sq : s.hart.sq = []) (near : s.hart.near = [])
    (region : s.hart.region = none) (unmarked : (s.teamOf k).markedAt o n = false) (puts : s.putAhead s.hart (.spad k o) n = false) :
    s.load (.mem ⟨.spad k o, false⟩) va n false = .ok ((s.teamOf k).mem.read o n) := by
  have free : s.blocked s.hart (.spad k o) n = false := by simp [State.blocked, sq, near, puts, State.lineBusy]
  have waiting : s.hart.waiting = [] := by simp [Hart.waiting, Hart.heldItems, sq, region]
  have sound : ((blocksOf 8 o n).any fun w => decide (w ∈ (s.teamOf k).marks)
      && !(List.range 8).all fun i => (forward [] (.spad k (w * 8 + i))).isSome) = false := by
    rw [List.any_eq_false]
    intro w hw
    have := List.any_eq_false.mp unmarked w hw
    simp_all
  have fwd : (List.range n).map (fun i => forward [] ((Tgt.spad k o).plus i)) = (List.range n).map fun _ => none := rfl
  simp only [State.load, State.readAt, group, State.readGroup, free, waiting, sound, fwd, State.peek, Bool.false_eq_true, if_false]
  rw [overlay_none _ _ (by simp)]

/-- A little-endian number is the sum of its bytes by their places. -/
theorem leNat_map_range (f : Nat → Byte) (n : Nat) : leNat ((List.range n).map f) = sumNat ((List.range n).map fun i => (f i).toNat * 256 ^ i) := by
  rw [sumNat, ← List.sum_eq_foldl]
  induction n generalizing f with
  | zero => rfl
  | succ n ih =>
    have later : (fun i => (f i).toNat * 256 ^ i) ∘ Nat.succ = fun i => 256 * ((f (i + 1)).toNat * 256 ^ i) := by
      funext i
      simp only [Function.comp, Nat.succ_eq_add_one, pow_succ]
      ring
    rw [List.range_succ_eq_map, List.map_cons, List.map_cons, List.map_map, List.map_map, later, List.sum_cons, List.sum_map_mul_left, leNat]
    simp only [pow_zero, mul_one]
    rw [← ih]
    rfl

end Sys2Proof.Machine

namespace Sys2Proof.Claims
open Sys2Proof.Machine

theorem wide_eq (sc : Scope) : wide sc = (sc = .die || sc = .dev || sc = .sys) := by cases sc <;> rfl

theorem scalarLoadResults : ScalarLoadResults := by
  intro s d a t l q base va w bs n operand find at_
  have done (acq : Option Scope) : LoadDone s ((s.afterLoad w va n acq).retireS 2 d (extended t (leNat bs))) d 2 (extended t (leNat bs)) :=
    loadDone_of_scalarDone (s.afterLoad_cachesMoved w va n acq) (State.retireS_scalarDone _ 2 d _)
  refine ⟨fun form load => ⟨_, State.loadS_eq none operand form find load, done none⟩, fun form load => ?_⟩
  rw [← wide_eq] at load
  refine ⟨_, State.loadS_eq (some q.scope) operand form find load, done _, fun group isWide => ?_⟩
  have moved := (s.evictFor_cachesMoved (w.loads va) n).trans (State.touch_cachesMoved _ (w.loads va))
  rw [State.retireS_coreOf, ← moved.team_eq]
  exact State.acquire_l1 (moved.onBank_eq.trans group) (by rw [wide_eq]; simpa [or_assoc] using isWide)

theorem loadOfTheAllocationReadsItsBytes : LoadOfTheAllocationReadsItsBytes := by
  intro s d a t off base n e group operand inside size aligned sq near region unmarked puts
  have pos : 0 < n := Nat.two_pow_pos _
  have small : e < 2 ^ 20 := by omega
  have pow : n ∣ 2 ^ 52 := pow_dvd_pow 2 (by omega)
  have evict (loads : List (Word64 × Place)) : s.evictFor loads n = s := by simp [State.evictFor, group]
  have load := State.load_spad (va := 0x00D0000000000000 + (base + off.signExtend 64)) group sq near region unmarked puts
  obtain ⟨u, next, done⟩ := (scalarLoadResults s d a t ⟨.l, off⟩ default base _ _ _ operand (State.find_spad group small pow aligned inside)).1
    (State.form_spad group small) (by rw [evict]; exact load)
  refine ⟨u, next, ?_⟩
  rwa [Mem.read_eq, leNat_map_range] at done

/-- Settles O16: a load's result retires after the caches have moved; a load of the own allocation finds its place, forwards nothing, and reads the allocation's bytes. -/
theorem scalarLoadsReadTheirBytes : Obligations.ScalarLoadsReadTheirBytes := ⟨scalarLoadResults, loadOfTheAllocationReadsItsBytes⟩

end Sys2Proof.Claims
end

