-- ==== Sys2Proof/Proofs/Tasks.lean ====
section
/-! PROOFS. Tendered tasks (R355): TENDER records a task and queues it, WITHDRAW takes its teams out of every queue, and DONE keeps its result in the team while the group ends as by EXIT. -/

namespace Sys2Proof.Machine
open Sys2Proof.Claims

/-! ## A scalar result that retires behind changes outside the harts -/

theorem State.hart_eq_of_harts {s u : State} (harts : u.harts = s.harts) (cur : u.cur = s.cur) : u.hart = s.hart := by
  rw [State.hart, State.hid, State.hartOf, harts, cur]
  rfl

theorem State.retireS_scalarRetired {s u : State} (harts : u.harts = s.harts) (cur : u.cur = s.cur) (mem : u.mem = s.mem) (n : Nat) (d : Dst) (x : Word64) :
    ScalarRetired s (u.retireS n d x) d n x := by
  obtain ⟨reg, path, vectors, masks, -, -, only⟩ := u.retireS_scalarDone n d x
  have hart := State.hart_eq_of_harts harts cur
  have hid : u.hid = s.hid := by rw [State.hid, cur, State.hid]
  rw [hart] at vectors masks
  refine ⟨fun r => by rw [reg r, hart], pathDone_of_paths path (fun p => by rw [hart]) cur, vectors, masks, ?_, fun i hi => ?_⟩
  · rw [State.retireS_rest, ← mem]
  · rw [only.others i (hid ▸ hi), State.hartOf, harts, State.hartOf]

/-! ## The tender queue (R345, R349) -/

/-- A task joins the queue, and no other leaves it. -/
theorem queueTask_perm (e : ReadyTeam) (q : List ReadyTeam) : (queueTask e q).Perm (e :: q) := by
  induction q with
  | nil => exact .refl _
  | cons x q ih =>
    unfold queueTask
    split
    · exact .refl _
    · exact (ih.cons x).trans (.swap e x q)

/-! ## TENDER -/

/-- The task record at an address as TENDER checks it: the record's bytes, its header's bytes and the literal formula (R355). -/
def taskChecked (bs hb : List Byte) (l : BitVec 4) : Checked :=
  { node := { parseNode bs with formula := l.toNat }, bad := nodeBad bs 1, header := some (.ok (parseHeader hb)) }

/-- The node of a task record that is tendered now. -/
def State.taskRun (s : State) (c : Checked) : NodeRun := { c.run with status := .tendered, entered := s.tick }

/-- The teams of a task that has just been tendered (R349). -/
def State.taskEntry (s : State) (c : Checked) : ReadyTeam :=
  { launch := s.nextLaunch, node := 0, tid := 0, left := c.run.header.grid, prio := c.node.prio, order := s.tick, serial := s.bell.serial, withdrawals := 0,
    awarded := none }

/-- The launch record of a task that the focus tenders. -/
def State.taskRecord (s : State) (va : Word64) (c : Checked) : Launch :=
  { id := s.nextLaunch, command := 0, queue := none, asid := s.hart.asid.toNat, tag := 0, table := va, status := 0, doneAddr := 0, nodes := [s.taskRun c],
    tenderer := some (s.cur.team, s.cur.gid), serial := s.bell.serial }

/-- The device with a task recorded and its teams in the tender queue. -/
def State.tendering (s : State) (va : Word64) (c : Checked) : State :=
  { s with
      launches := mset s.nextLaunch (s.taskRecord va c) s.launches, nextLaunch := s.nextLaunch + 1, tick := s.tick + 1,
      bell := { s.bell with queue := queueTask (s.taskEntry c) s.bell.queue, serial := s.bell.serial + BitVec.ofNat 32 c.run.header.grid } }

/-- TENDER of a record that passes its checks, with older stores performed and room for a task: the task is recorded and queued, and its first serial is the result. -/
theorem exec_tender {s : State} {d : Dst} {a : Src} {l : BitVec 4} {va : Word64} {bs hb : List Byte} (operand : s.opnd a = .ok va) (aligned : va.toNat % 256 = 0)
    (record : s.readSpan va 256 = .ok bs) (kind : (parseNode bs).kind = 0) (header : s.readSpan (parseNode bs).code 128 = .ok hb)
    (sound : s.taskOk s.hart.asid.toNat (taskChecked bs hb l) bs = true) (drained : s.drained .dev = .ok ()) (room : s.openTasks < 256) :
    exec (.tender d a l) s = .next ((s.tendering va (taskChecked bs hb l)).retireS 2 d (s.bell.serial.setWidth 64)) := by
  have checks : need (va.toNat % 256 == 0) .misaligned va = .ok () := need_ok (by simpa using aligned) _ _
  have head : (s.readSpan (parseNode bs).code 128).map (some ∘ parseHeader) = .ok (some (parseHeader hb)) := by rw [header]; rfl
  have passes := need_ok sound .dataCheck va
  have waits := await_ok (decide_eq_true room)
  unfold taskChecked at passes
  change s.finish _ = _
  simp only [operand, checks, record, bind, Except.bind]
  rw [if_pos kind]
  simp only [head, Option.map_some, passes, drained, waits]
  rfl

/-! ## WITHDRAW -/

/-- Is a record one that the focus's team has tendered with this first serial? -/
def State.ownTask (s : State) (serial : Word32) (q : Launch) : Bool :=
  q.queue.isNone && q.serial == serial && (match q.tenderer with | some (k, _) => k == s.cur.team | none => false)

theorem State.ownTask_iff {s : State} {serial : Word32} {q : Launch} :
    s.ownTask serial q = true ↔ q.queue = none ∧ q.serial = serial ∧ ∃ g, q.tenderer = some (s.cur.team, g) := by
  unfold State.ownTask
  rw [Bool.and_eq_true, Bool.and_eq_true, Option.isNone_iff_eq_none, beq_iff_eq, and_assoc]
  refine and_congr_right fun _ => and_congr_right fun _ => ?_
  cases q.tenderer with
  | none => simp
  | some p => simp [Prod.ext_iff]

/-- A search finds the only element that it accepts. -/
theorem find?_eq_some_of_unique {α : Type} {p : α → Bool} {l : List α} {q : α} (mem : q ∈ l) (accepts : p q = true) (only : ∀ o ∈ l, p o = true → o = q) :
    l.find? p = some q := by
  cases found : l.find? p with
  | none => exact absurd accepts (List.find?_eq_none.mp found q mem)
  | some o => rw [only o (List.mem_of_find?_eq_some found) (List.find?_some found)]

/-- The device with the teams of a launch taken out of every queue, and counted in its node. -/
def State.withdrawing (s : State) (l : Nat) : State :=
  (s.cancelTasks l).1.modNode l 0 fun r => { r with cancelled := r.cancelled + (s.cancelTasks l).2 }

section
variable {s : State} {d : Dst} {a : Src} {x : Word64} (operand : s.opnd a = .ok x)
include operand

/-- WITHDRAW of a serial under which the team has no record answers 0. -/
theorem exec_withdraw_none (nobody : s.launches.find? (fun q => s.ownTask (x.setWidth 32) q.2) = none) :
    exec (.withdraw d a) s = .next (s.retireS 1 d 0) := by
  change s.finish _ = _
  simp only [operand, bind, Except.bind]
  split
  · rfl
  · next found => cases found.symm.trans nobody

/-- WITHDRAW takes the teams of the record that it finds, and answers with their number. -/
theorem exec_withdraw_some {q : Nat × Launch} (only : s.launches.find? (fun q => s.ownTask (x.setWidth 32) q.2) = some q) :
    exec (.withdraw d a) s = .next ((s.withdrawing q.1).retireS 1 d (BitVec.ofNat 64 (s.cancelTasks q.1).2)) := by
  change s.finish _ = _
  simp only [operand, bind, Except.bind]
  split
  · next found => cases found.symm.trans only
  · next found =>
    cases found.symm.trans only
    rfl

end

/-- Withdrawing changes the launches and the queues alone. -/
theorem State.withdrawing_rest (s : State) (l : Nat) :
    s.withdrawing l = { s with launches := (s.withdrawing l).launches, ready := s.ready.filter (fun e => !(e.launch == l)), bell := (s.cancelTasks l).1.bell } := by
  unfold State.withdrawing
  rw [State.modNode_rest]
  rfl

theorem mem_filter_launch (e : ReadyTeam) (es : List ReadyTeam) (l : Nat) : e ∈ es.filter (fun e => !(e.launch == l)) ↔ e ∈ es ∧ e.launch ≠ l := by simp

theorem filter_launch_eq_some {α : Type} (task : α → ReadyTeam) (o : Option α) (l : Nat) (w : α) :
    o.filter (fun w => !((task w).launch == l)) = some w ↔ o = some w ∧ (task w).launch ≠ l := by simp [Option.filter_eq_some_iff]

/-! ## DONE -/

/-- The team's result with that of the focus. -/
def State.withResult (s : State) (x : Word64) : State := s.setTeam { s.team with result := s.team.result ||| x.setWidth 32 }

/-- DONE is EXIT of a group whose team has the result (R355). -/
theorem exec_doneTask {s : State} {a : Src} {x : Word64} (operand : s.opnd a = .ok x) : exec (.doneTask a) s = exec .exit (s.withResult x) := by
  change execDoneTask a s = _
  unfold execDoneTask
  rw [operand]
  rfl

/-- DONE of a group without records and with nothing outstanding ends the group (R75, R355). -/
theorem exec_doneTask_undivided {s : State} {a : Src} {x : Word64} (operand : s.opnd a = .ok x) (recs : s.hart.recs = []) (drained : ∀ k < 8, s.hart.counter k = 0) :
    exec (.doneTask a) s = .next (((s.withResult x).setHart s.hart).endGroup s.cur.team s.cur.gid none) :=
  (exec_doneTask operand).trans ((exec_exit_undivided (s := s.withResult x) recs).trans (if_pos ((Hart.drainedAll_iff _).mpr drained)))

theorem State.changeNode_teamOf (s : State) (l n : Nat) (f : NodeRun → NodeRun) (k : Nat) : (s.changeNode l n f).teamOf k = s.teamOf k := by
  unfold State.changeNode
  rw [(State.mirror_wrote _ _ _).teamOf_eq, State.modNode_rest]
  rfl

theorem State.releaseTeam_result (s : State) (k : Nat) : ((s.releaseTeam k).teamOf k).result = (s.teamOf k).result := by
  unfold State.releaseTeam
  dsimp only
  split
  · rfl
  · rw [State.changeNode_teamOf]
    simp [State.teamOf, State.setTeamOf]

theorem State.endStream_result (s : State) (k : Nat) : ((s.endStream k).teamOf k).result = (s.teamOf k).result := by
  unfold State.endStream
  dsimp only
  split <;> simp

theorem State.giveUpFold_teams (s : State) (k core : Nat) : (s.giveUpFold k core).teams = s.teams := by
  unfold State.giveUpFold State.unbindFold
  split
  · split
    · split <;> rfl
    · rfl
  · rfl

theorem State.leftByExit_result (s : State) (k g : Nat) : ((s.leftByExit k g).teamOf k).result = (s.teamOf k).result := by
  unfold State.leftByExit State.takeTokens State.closeGroup State.returnSpare
  dsimp only
  split <;> simp

/-- A team keeps its result when a group of it ends, and when it ends with its last group (R355). -/
theorem State.endGroup_exit_result (s : State) (k g : Nat) : ((s.endGroup k g none).teamOf k).result = (s.teamOf k).result := by
  rw [State.endGroup_exit]
  dsimp only
  split
  · rw [State.releaseTeam_result, State.endStream_result, State.teamOf, State.giveUpFold_teams, ← State.teamOf, State.leftByExit_result]
  · exact s.leftByExit_result k g

end Sys2Proof.Machine
end

