-- ==== Sys2Proof/Proofs/RegisterBlocks.lean ====
section
/-! PROOFS. Register blocks (R87 to R89): what BLKACQ binds or waits for, what BLKREL gives back, and the spare block that the core lends. -/

namespace Sys2Proof.Machine
open Sys2Proof.Claims

/-! ## Slots and blocks (R87) -/

/-- No slot is lacking exactly where none is counted. -/
theorem popcount_eq_zero_iff (m : BitVec 4) : popcount m.toNat 4 = 0 ↔ m = 0 := by
  revert m
  decide

/-- A group that binds what a request still lacks holds what it held and what the request names. -/
theorem Hart.held_or_lacks (h : Hart) (a : Word64) : h.held ||| h.lacks a = h.held ||| a.setWidth 4 := by
  ext i
  simp only [Hart.lacks, BitVec.getElem_or, BitVec.getElem_and, BitVec.getElem_not]
  cases h.held[i] <;> simp

/-- Clearing chosen elements of a vector, one after another, clears those and no others. -/
theorem vget_foldl_clear {α : Type} {n : Nat} (p : Nat → Bool) (x dflt : α) (is : List Nat) (v : Vector α n) {j : Nat} (hj : j < n) :
    vget (is.foldl (fun v i => if p i then vset v i x else v) v) j dflt = if j ∈ is ∧ p j = true then x else vget v j dflt := by
  induction is generalizing v with
  | nil => simp
  | cons i is ih =>
    rw [List.foldl_cons, ih]
    by_cases later : j ∈ is ∧ p j = true
    · simp [later]
    · rw [if_neg later]
      by_cases hi : i = j
      · subst hi
        by_cases hp : p i = true <;> simp [hp, vget_vset, hj]
      · have other : ¬ (j ∈ i :: is ∧ p j = true) := fun ⟨hm, hp⟩ => later ⟨(List.mem_cons.mp hm).resolve_left (Ne.symm hi), hp⟩
        rw [if_neg other]
        split
        · rw [vget_vset, if_neg fun h => hi h.1]
        · rfl

/-- The registers of a block that has been bound are zero, and the others stay (R88). -/
theorem Hart.vget_bind (h : Hart) (req : BitVec 4) {r : Nat} (hr : r < 32) :
    vget (h.bind req).v r 0 = if req.getLsbD (r / 8) then 0 else vget h.v r 0 := by
  refine (vget_foldl_clear (fun r => req.getLsbD (r / 8)) 0 0 (List.range 32) h.v hr).trans ?_
  simp only [List.mem_range, hr, true_and]

/-! ## Suspending -/

/-- A path that an instruction suspends waits, and nothing else has changed (R98). -/
theorem State.stopped_suspend_waits (s : State) (w : Wait) : Waits s (s.stopped (.suspend w)) w where
  path := s.path_setPath _
  other := (congrArg (Hart.path · (!s.cur.path)) (s.hart_setHart _)).trans (Hart.path_setPath_not _ _ _)
  hart := by
    refine (s.hart_setHart _).trans ?_
    rw [show (s.stopped (.suspend w)).hart = _ from s.hart_setHart _]
    cases s.cur.path <;> rfl
  others _ hi := State.hartOf_setHartOf_ne s hi _
  rest := rfl

/-! ## BLKACQ (R88) -/

/-- Where no path waits, no blocks are owed. -/
theorem State.serveBlocks_none {s : State} {k role : Nat} (unowed : s.blockWaiters k role = []) (fuel : Nat) : s.serveBlocks k role fuel = s := by
  cases fuel with
  | zero => rfl
  | succ n => simp [State.serveBlocks, unowed]

section
variable {s : State} {d : Dst} {a : Src} {y : Bool} {x : Word64} (operand : s.opnd a = .ok x)
include operand

/-- BLKACQ of slots that the group holds answers with them. -/
theorem exec_blkacq_held (held : s.hart.lacks x = 0) : exec (.blkacq d a y) s = .next (s.retireS 1 d (heldWord s.hart)) := by
  have counted : popcount (s.hart.lacks x).toNat 4 = 0 := (popcount_eq_zero_iff _).mpr held
  change s.finish _ = _
  simp only [operand, bind, Except.bind]
  rw [if_pos (by simp [counted])]
  rfl

variable (fresh : s.path.grant = none) (lacks : s.hart.lacks x ≠ 0)
include fresh lacks

/-- BLKACQ of more blocks than the role may ever hold traps. -/
theorem exec_blkacq_denied (beyond : s.team.budgetOf s.hart.role < popcount s.hart.held.toNat 4 + popcount (s.hart.lacks x).toNat 4) :
    exec (.blkacq d a y) s = .next (s.stopped (trapOf .blockDenied x)) := by
  have counted : popcount (s.hart.lacks x).toNat 4 ≠ 0 := mt (popcount_eq_zero_iff _).mp lacks
  change s.finish _ = _
  simp only [operand, bind, Except.bind]
  rw [if_neg (by simp [fresh, counted]), need_error (decide_eq_false (Nat.not_le.mpr beyond))]
  rfl

/-- BLKACQ of a group whose role has no waiter: it binds what fits the budget, and else answers with what it holds, or waits. -/
theorem exec_blkacq_within (within : popcount s.hart.held.toNat 4 + popcount (s.hart.lacks x).toNat 4 ≤ s.team.budgetOf s.hart.role)
    (unowed : s.blockWaiters s.cur.team s.hart.role = []) :
    exec (.blkacq d a y) s =
      if s.roleHeld s.cur.team s.hart.role + popcount (s.hart.lacks x).toNat 4 ≤ s.team.budgetOf s.hart.role then
        .next ((s.setHart (s.hart.bind (s.hart.lacks x))).retireS 1 d (heldWord (s.hart.bind (s.hart.lacks x))))
      else .next (if y then s.retireS 1 d (heldWord s.hart) else s.stopped (.suspend (.blocks x))) := by
  have counted : popcount (s.hart.lacks x).toNat 4 ≠ 0 := mt (popcount_eq_zero_iff _).mp lacks
  change s.finish _ = _
  simp only [operand, bind, Except.bind]
  rw [if_neg (by simp [fresh, counted]), need_ok (decide_eq_true within)]
  simp only [State.serveBlocks_none unowed, State.hart_setHart]
  split
  · rfl
  · cases y <;> rfl

end

/-! ## BLKREL (R88, R89) -/

theorem State.spareBack_none {s : State} {k g : Nat} (kept : (s.coreOf (s.teamOf k).core).spare ≠ some (k, g)) : s.spareBack k g = s := by
  unfold State.spareBack
  exact if_neg kept

/-- The slots that stay bound are those that the request leaves out. -/
theorem held_without_released (held m : BitVec 4) : held &&& ~~~(m &&& held) = held &&& ~~~m := by
  ext i
  simp only [BitVec.getElem_and, BitVec.getElem_not]
  cases held[i] <;> simp

/-- BLKREL of a group that gives back no lent block. -/
theorem exec_blkrel {s : State} {d : Dst} {a : Src} {x : Word64} (operand : s.opnd a = .ok x)
    (own : (s.coreOf s.team.core).spare ≠ some (s.cur.team, s.cur.gid) ∨ x.setWidth 4 &&& s.hart.held = 0) :
    let kept := s.hart.held &&& ~~~(x.setWidth 4)
    exec (.blkrel d a) s = .next ((s.setHart { s.hart with held := kept }).retireS 1 d (kept.setWidth 64)) := by
  have back : (if x.setWidth 4 &&& s.hart.held = 0 then s else s.spareBack s.cur.team s.cur.gid) = s := by
    split
    · rfl
    · next released => exact State.spareBack_none (own.resolve_right released)
  change s.finish _ = _
  simp only [operand, bind, Except.bind, back, held_without_released]
  rw [State.hart_setHart]
  rfl

/-! ## The spare block (R89) -/

/-- A waiter that is served has its slots bound, and its path goes on (R88, R98). -/
theorem State.hartOf_giveBlocks (s : State) (k : Nat) (w : BlockWaiter) :
    let h := s.hartOf (.group k w.gid)
    (s.giveBlocks k w).hartOf (.group k w.gid)
      = (h.bind (h.lacks w.a)).setPath w.path { h.path w.path with susp := none, grant := some .go, stalled := false, since := s.tick } := by
  refine (State.hartOf_setHartOf _ _ _).trans ?_
  rw [State.hartOf_setHartOf]
  rfl

/-- The spare block of a team's core is lent to one of its groups: the core names it, and the role's budget has one block more. -/
def State.lending (s : State) (k role gid : Nat) : State :=
  let t := s.teamOf k
  (s.setCoreOf t.core { s.coreOf t.core with spare := some (k, gid) }).setTeamOf k
    { t with roles := modifyAt (fun r => { r with lent := true }) role t.roles }

theorem State.lending_spare (s : State) (k role gid : Nat) : ((s.lending k role gid).coreOf (s.teamOf k).core).spare = some (k, gid) :=
  congrArg Core.spare (s.coreOf_setCoreOf _ _)

/-- Where every group of a role waits and no request fits, the first that one block more would serve has the spare block lent, and is served. -/
theorem exec_spareBlockLend {s : State} {k role : Nat} {w : BlockWaiter} (live : (s.teamOf k).live = true) (here : (s.teamOf k).absent = false)
    (spare : (s.coreOf (s.teamOf k).core).spare = none)
    (waiting : ∀ g ∈ s.liveGids k, (s.hartOf (.group k g)).role = role → (s.hartOf (.group k g)).evicted = false ∧ (s.hartOf (.group k g)).inBlkacq = true)
    (short : ∀ q ∈ s.blockWaiters k role, s.requestFits k role ((s.teamOf k).budgetOf role) q = false)
    (first : (s.blockWaiters k role).find? (s.requestFits k role ((s.teamOf k).budgetOf role + 1)) = some w) :
    exec (.spareBlockLend k role) s = .next ((s.lending k role w.gid).giveBlocks k w) := by
  have all : ((s.liveGids k).filter fun g => (s.hartOf (.group k g)).role == role).all
      (fun g => !(s.hartOf (.group k g)).evicted && (s.hartOf (.group k g)).inBlkacq) = true := by
    refine List.all_eq_true.mpr fun g hg => ?_
    obtain ⟨mem, isRole⟩ := List.mem_filter.mp hg
    obtain ⟨resident, waits⟩ := waiting g mem (beq_iff_eq.mp isRole)
    simp [resident, waits]
  have unserved : (s.blockWaiters k role).any (s.requestFits k role ((s.teamOf k).budgetOf role)) = false :=
    List.any_eq_false.mpr fun q hq => Bool.eq_false_iff.mp (short q hq)
  change execSpareBlockLend k role s = _
  unfold execSpareBlockLend
  dsimp only
  rw [if_neg (by rw [live, here, all, spare, unserved]; decide), first]
  rfl

end Sys2Proof.Machine

namespace Sys2Proof.Claims
open Sys2Proof.Machine

/-- Settles O43: each instruction's outcome is the state that its own lemma names, with the result retired behind what it does to queues, teams and slots. -/
theorem taskAndBlockResults : Obligations.TaskAndBlockResults := by
  intro s d a l y x unit operand
  have hid : s.hid = .group s.cur.team s.cur.gid := by rw [State.hid, unit]
  refine ⟨?tender, ?withdraw, ?done, ?acquires, ?releases, ?lends⟩
  case tender =>
    intro bs hb aligned record kind header c sound drained room grid
    have queued := queueTask_perm (s.taskEntry c) s.bell.queue
    refine ⟨_, s.taskEntry c, s.taskRecord x c, exec_tender operand aligned record kind header sound drained room,
      State.retireS_scalarRetired (s := s) (u := s.tendering x c) rfl rfl rfl 2 d _, ?_⟩
    rw [State.retireS_rest]
    exact ⟨rfl, queued.mem_iff.mpr List.mem_cons_self, fun q hq => queued.mem_iff.mpr (List.mem_cons_of_mem _ hq), queued.length_eq,
      rfl, rfl, rfl, rfl, rfl, rfl, mfind_mset_same _ _ _, rfl, rfl, rfl, rfl, rfl, rfl⟩
  case withdraw =>
    refine ⟨fun nobody => ⟨_, exec_withdraw_none operand ?_, s.retireS_scalarDone 1 d 0⟩, fun q hq mine only => ?_⟩
    · exact List.find?_eq_none.mpr fun q hq own => nobody q hq (State.ownTask_iff.mp own)
    · have found := find?_eq_some_of_unique hq (State.ownTask_iff.mpr mine) fun o ho own => only o ho (State.ownTask_iff.mp own)
      have rest := s.withdrawing_rest q.1
      refine ⟨_, exec_withdraw_some operand found, State.retireS_scalarRetired ?_ ?_ ?_ 1 d _, ?_⟩
      · rw [rest]
      · rw [rest]
      · rw [rest]
      · rw [State.retireS_rest, rest]
        exact ⟨rfl, fun e => mem_filter_launch e _ q.1, fun e => mem_filter_launch e _ q.1, fun e => filter_launch_eq_some id _ q.1 e,
          fun w => filter_launch_eq_some Window.task _ q.1 w⟩
  case done =>
    intro recs drained
    obtain ⟨ended, -, -⟩ := ((s.withResult x).setHart s.hart).endGroup_exit_hartOf s.cur.team s.cur.gid
    refine ⟨_, exec_doneTask_undivided operand recs drained, hid ▸ ended, ?_, fun alive i hi => ?_⟩
    · exact (State.endGroup_exit_result _ _ _).trans (congrArg Team.result (s.team_setTeam _))
    · rw [State.endGroup_exit_of_liveGids alive, State.leftByExit_others _ (hid ▸ hi)]
      exact State.hartOf_setHartOf_ne s hi _
  case acquires =>
    intro fresh req n budget word
    refine ⟨fun held => ⟨_, exec_blkacq_held operand held, s.retireS_scalarDone 1 d _⟩, fun lacks beyond => exec_blkacq_denied operand fresh lacks beyond,
      fun lacks within unowed => ?within⟩
    have acquires := exec_blkacq_within (d := d) (y := y) operand fresh lacks within unowed
    refine ⟨fun fits => ⟨_, _, acquires.trans (if_pos fits), State.retireS_scalarDone _ 1 d _, fun r hr => s.hart.vget_bind _ hr⟩, fun full => ?_⟩
    replace acquires := acquires.trans (if_neg (Nat.not_le.mpr full))
    refine ⟨?answers, ?suspends⟩
    case answers =>
      rintro rfl
      exact ⟨_, acquires, s.retireS_scalarDone 1 d _⟩
    case suspends =>
      rintro rfl
      exact ⟨_, acquires, s.stopped_suspend_waits _⟩
  case releases => exact fun own => ⟨_, exec_blkrel operand own, State.retireS_scalarDone _ 1 d _⟩
  case lends =>
    intro k role w t0 live here spare waiting short first
    refine ⟨_, exec_spareBlockLend live here spare waiting short first, s.lending_spare k role w.gid, ?_⟩
    rw [State.hartOf_giveBlocks, Hart.setPath_held, Hart.path_setPath]
    exact ⟨Hart.held_or_lacks _ _, rfl, rfl⟩

end Sys2Proof.Claims
end

