-- ==== Sys2Proof/Proofs/VectorResults.lean ====
section
/-! PROOFS. Vector results (R104 to R110, R42, R43): the elements, the other registers and the latch that a written register group leaves, by the table of R110. -/

namespace Sys2Proof.Machine
open Sys2Proof.Claims

/-! ## Element widths and lanes (R104 to R106) -/

/-- The widths that an element can have. -/
def ElemWidth (w : Nat) : Prop := w = 8 ∨ w = 16 ∨ w = 32 ∨ w = 64

theorem ElemWidth.pos {w : Nat} (hw : ElemWidth w) : 0 < w := by rcases hw with rfl | rfl | rfl | rfl <;> decide

theorem State.sew_width (s : State) : ElemWidth s.vc.sew := by
  have code := (s.hart.vtype.extractLsb' 0 2).isLt
  rw [show s.vc.sew = 8 * 2 ^ (s.hart.vtype.extractLsb' 0 2).toNat from rfl, ElemWidth]
  generalize (s.hart.vtype.extractLsb' 0 2).toNat = n at code
  interval_cases n <;> decide

theorem State.vlen_cases (s : State) : s.vc.vlen = 512 ∨ s.vc.vlen = 2048 := by
  cases h : s.onBank
  · exact .inr (by simp [State.vc, VC.of, h])
  · exact .inl (by simp [State.vc, VC.of, h])

theorem State.vlen_le (s : State) : s.vc.vlen ≤ 2048 := by rcases s.vlen_cases with h | h <;> omega

theorem State.regs_le (s : State) : s.vc.regs ≤ 32 := by
  rw [show s.vc.regs = if s.onBank then 16 else 32 from rfl]
  split <;> decide

theorem State.max_eq (s : State) : s.vc.max = s.vc.lmul * (s.vc.vlen / s.vc.sew) := Nat.mul_comm _ _

theorem State.vlen_div_pos (s : State) {w : Nat} (hw : ElemWidth w) : 0 < s.vc.vlen / w := by
  rcases s.vlen_cases with h | h <;> rw [h] <;> rcases hw with rfl | rfl | rfl | rfl <;> decide

/-- The lanes that hold element i (R106): the bits that the model looks at are those of the statement's lanes. -/
theorem State.laneOn_iff (s : State) {w : Nat} (hw : ElemWidth w) (i : Nat) : laneOn s.vc.vlen s.lanesOn i w = true ↔ LanesOn s w i := by
  unfold laneOn LanesOn
  have place : i % (s.vc.vlen / w) < 2048 / w :=
    (Nat.mod_lt _ (s.vlen_div_pos hw)).trans_le (Nat.div_le_div_right s.vlen_le)
  generalize i % (s.vc.vlen / w) = j at place
  simp only [List.all_eq_true, List.mem_range]
  constructor
  · intro all l _ low high
    have := all (l - w * j / 32) (by rcases hw with rfl | rfl | rfl | rfl <;> omega)
    rwa [show w * j / 32 + (l - w * j / 32) = l by omega] at this
  · intro lanes k hk
    refine lanes _ ?_ ?_ ?_ <;> rcases hw with rfl | rfl | rfl | rfl <;> omega

theorem State.active_iff (s : State) {w : Nat} (hw : ElemWidth w) (sel : Nat → Bool) (i : Nat) :
    s.vc.active s.lanesOn sel w i = true ↔ Active s w sel i := by
  rw [VC.active, Bool.and_eq_true, Bool.and_eq_true, decide_eq_true_eq, s.laneOn_iff hw, Active]
  tauto

theorem State.active_eq (s : State) {w : Nat} (hw : ElemWidth w) (sel : Nat → Bool) :
    (fun i => s.vc.active s.lanesOn sel w i = true) = Active s w sel := funext fun i => propext (s.active_iff hw sel i)

open Classical in
theorem State.active_eq_decide (s : State) {w : Nat} (hw : ElemWidth w) (sel : Nat → Bool) :
    s.vc.active s.lanesOn sel w = fun i => decide (Active s w sel i) :=
  funext fun i => by rw [Bool.eq_iff_iff, decide_eq_true_eq, s.active_iff hw]

/-! ## Cells and the table of R110 -/

/-- What an element of width w holds after a cell was written over it. -/
def cellOver (w : Nat) (c : Option Nat) (old : Nat) : Nat :=
  match c with
  | some x => x % 2 ^ w
  | none => old

@[simp] theorem cellOver_none (w old : Nat) : cellOver w none old = old := rfl
theorem cellOver_some (w old : Nat) {x : Nat} (hx : x < 2 ^ w) : cellOver w (some x) old = x := Nat.mod_eq_of_lt hx

/-- The cell that the rule of R110 gives an element holds what the table of R110 says, where the value of each active element is that of the statement. -/
theorem State.cellOver_writeRule (s : State) {w : Nat} (hw : ElemWidth w) (v : Nat) {ones : Nat} (hones : ones < 2 ^ v) (sel : Nat → Bool)
    {vals : List (Option Nat)} {i new : Nat} (hi : i < vals.length)
    (value : Active s w sel i → vals[i]? = some (some new) ∧ new < 2 ^ v) (old : Nat) :
    cellOver v ((writeRule s.vc s.lanesOn sel w ones 0 vals)[i]?.getD none) old = afterWrite s w ones sel i old new := by
  rw [writeRule_get, List.getElem?_eq_getElem hi, Nat.zero_add, Option.map_some, Option.getD_some, afterWrite]
  simp only [← s.laneOn_iff hw, Bool.not_eq_true', Bool.not_eq_true]
  by_cases lanes : laneOn s.vc.vlen s.lanesOn i w = false
  · rw [if_pos lanes, if_pos lanes, cellOver_none]
  by_cases tail : s.vc.vl ≤ i
  · rw [if_neg lanes, if_neg lanes, if_pos tail, if_pos tail]
    split
    · exact cellOver_some _ _ hones
    · rfl
  by_cases off : sel i = false
  · rw [if_neg lanes, if_neg lanes, if_neg tail, if_neg tail, if_pos off, if_pos off]
    split
    · exact cellOver_some _ _ hones
    · rfl
  · obtain ⟨found, small⟩ := value ⟨(s.laneOn_iff hw i).mp (by simpa using lanes), Nat.lt_of_not_le tail, by simpa using off⟩
    rw [if_neg lanes, if_neg lanes, if_neg tail, if_neg tail, if_neg off, if_neg off]
    rw [List.getElem?_eq_getElem hi, Option.some.injEq] at found
    rw [found, cellOver_some _ _ small]

/-! ## A written register group -/

theorem State.hart_setGens (s : State) (g : Gens) : (s.setGens g).hart = { s.hart with gens := g } := s.hart_setHart _
theorem State.vc_setGens (s : State) (g : Gens) : (s.setGens g).vc = s.vc := by
  unfold State.vc
  rw [State.hart_setGens]
  rfl
theorem State.lanesOn_setGens (s : State) (g : Gens) : (s.setGens g).lanesOn = s.lanesOn := by
  unfold State.lanesOn State.path
  rw [State.hart_setGens]
  cases h : s.cur.path <;> simp [State.setGens, h, Hart.path, State.onBank]

/-- Writing a register group changes the vector file alone, and nothing with nw. -/
theorem State.putV_fst (s : State) (c : VC) (d : Dst) (w L : Nat) (cells : List (Option Nat)) :
    (s.putV c d w L cells).1 = if d.nw then s else s.setHart (s.hart.putCells c.vlen d.reg.toNat w cells L) := by
  unfold State.putV
  split <;> rfl

/-- Nothing of the focus differs but its vector file. -/
structure VectorsOnly (s t : State) : Prop where
  only : OnlyHart s t
  hart : t.hart = { s.hart with v := t.hart.v }

theorem VectorsOnly.refl (s : State) : VectorsOnly s s := ⟨onlyHart_of_harts rfl fun _ _ => rfl, rfl⟩

theorem VectorsOnly.trans {s t u : State} (first : VectorsOnly s t) (second : VectorsOnly t u) : VectorsOnly s u :=
  ⟨onlyHart_trans first.only second.only, by rw [second.hart, first.hart]⟩

theorem State.setHart_vectorsOnly (s : State) (v : Vector VWord 32) : VectorsOnly s (s.setHart { s.hart with v := v }) :=
  ⟨s.setHart_onlyHart _, by rw [State.hart_setHart]⟩

theorem State.putV_vectorsOnly (s : State) (c : VC) (d : Dst) (w L : Nat) (cells : List (Option Nat)) : VectorsOnly s (s.putV c d w L cells).1 := by
  rw [State.putV_fst]
  split
  · exact .refl s
  · exact s.setHart_vectorsOnly _

theorem State.retire_v (s : State) (n : Nat) (b : Latch) : (s.retire n b).hart.v = s.hart.v := by rw [State.retire_hart, Hart.forget_v, Hart.setPath_v]

section
variable {s t : State} (written : VectorsOnly s t) (n : Nat) (b : Latch)
include written

/-- What retiring after a vector write leaves: the frame of a vector instruction. -/
theorem VectorsOnly.frame : VectorFrame s (t.retire n b) where
  scalars := by rw [State.retire_hart, written.hart]; simp
  masks := by rw [State.retire_hart, written.hart]; simp
  regs := by
    unfold SameRegs
    rw [State.retire_hart, written.hart]
    cases t.cur.path <;> rfl
  only := onlyHart_trans written.only (State.retire_onlyHart _ _ _)

theorem VectorsOnly.pathDone : PathDone s (t.retire n b) n b :=
  pathDone_of_paths (State.retire_pathDone _ n _) (fun p => by rw [written.hart]; rfl) (by rw [written.only.rest])

theorem VectorsOnly.gens : (t.retire n b).hart.gens = s.hart.gens := by
  rw [State.retire_hart, written.hart]
  simp

end

theorem State.putV_v (s : State) (c : VC) {d : Dst} (write : d.nw = false) (w L : Nat) (cells : List (Option Nat)) :
    (s.putV c d w L cells).1.hart.v = (s.hart.putCells c.vlen d.reg.toNat w cells L).v := by
  rw [State.putV_fst, write, if_neg (by decide), State.hart_setHart]

theorem Hart.elem_congr {h h' : Hart} (same : h'.v = h.v) (vlen r w i : Nat) : h'.elem vlen r w i = h.elem vlen r w i := by
  unfold Hart.elem
  rw [same]

theorem vpat_ofNat_packCells {w : Nat} {cells : List (Option Nat)} (short : w * cells.length ≤ 2048) (i : Nat) :
    vpat (BitVec.ofNat 2048 (packCells w 0 cells)) w i = if i < cells.length then cellOver w (cells[i]?.getD none) 0 else 0 := by
  rw [vpat, BitVec.toNat_ofNat, Nat.mod_eq_of_lt (packCells_lt w 2048 cells 0 short (Nat.two_pow_pos 2048)), packCells_elem, Nat.zero_div, Nat.zero_mod]
  split
  · cases cells[i]?.getD none with
    | none => exact Nat.zero_mod _
    | some x => rfl
  · rfl

/-- Element i of a written register group. -/
theorem Hart.elem_putCells_eq (h : Hart) {vlen r w : Nat} (cells : List (Option Nat)) {L i : Nat} (fits : r + L ≤ 32) (hw : 0 < w) (small : vlen ≤ 2048)
    (hi : i < L * (vlen / w)) : (h.putCells vlen r w cells L).elem vlen r w i = cellOver w (cells[i]?.getD none) (h.elem vlen r w i) := by
  rw [elem_putCells h vlen r w cells L i fits hw small hi]
  match cells[i]? with
  | none => rfl
  | some none => rfl
  | some (some x) => rfl

theorem Hart.putCells_others (h : Hart) {vlen r w : Nat} (cells : List (Option Nat)) {L q : Nat} (fits : r + L ≤ 32) (other : q < r ∨ r + L ≤ q) :
    vget (h.putCells vlen r w cells L).v q 0 = vget h.v q 0 := by
  rw [vget_putCells h vlen r w cells L q fits, if_neg (by omega)]

/-- A register group written by cells, and retired. -/
theorem State.putV_retire_written (s : State) {d : Dst} {w L n : Nat} {cells : List (Option Nat)} {after : Nat → Nat → Nat} (hw : ElemWidth w)
    (fits : d.nw = false → d.reg.toNat + L ≤ 32) (short : d.nw = true → w * cells.length ≤ 2048)
    (value : ∀ i < cells.length, ∀ old, cellOver w (cells[i]?.getD none) old = after i old) :
    Written s ((s.putV s.vc d w L cells).1.retire n (s.putV s.vc d w L cells).2) d w L n cells.length after where
  elems write i hi := by
    rw [Hart.elem_congr (h := s.hart.putCells s.vc.vlen d.reg.toNat w cells L) ((State.retire_v ..).trans (State.putV_v _ _ write ..)),
      Hart.elem_putCells_eq _ _ (fits write) hw.pos s.vlen_le hi]
    split
    · next h => exact value i h _
    · next h => rw [List.getElem?_eq_none (Nat.le_of_not_lt h), Option.getD_none, cellOver_none]
  others r _ other := by
    rw [State.retire_v]
    cases write : d.nw with
    | true => rw [State.putV_fst, if_pos write]
    | false =>
      rw [State.putV_v _ _ write]
      exact s.hart.putCells_others cells (fits write) (by simpa [write] using other)
  path := by
    refine ⟨(s.putV s.vc d w L cells).2, (s.putV_vectorsOnly ..).pathDone n _, fun write => ?_, fun keep => ?_⟩
    · rw [State.retire_v, State.putV_v _ _ write]
      simp only [State.putV, write, Bool.false_eq_true, if_false]
    · simp only [State.putV, keep, if_true]
      refine ⟨rfl, fun i _ => ?_⟩
      rw [Latch.vector, vpat_ofNat_packCells (short keep)]
      split
      · next h => exact value i h 0
      · rfl
  frame := (s.putV_vectorsOnly s.vc d w L cells).frame n _

/-! ## From a state whose generators have drawn -/

theorem State.setGens_onlyHart (s : State) (g : Gens) : OnlyHart s (s.setGens g) := s.setHart_onlyHart _

theorem vectorFrame_of_setGens {s t : State} {g : Gens} (h : VectorFrame (s.setGens g) t) : VectorFrame s t := by
  obtain ⟨scalars, masks, regs, only⟩ := h
  unfold SameRegs at regs
  rw [State.hart_setGens] at scalars masks regs
  exact ⟨scalars, masks, regs, onlyHart_trans (s.setGens_onlyHart g) only⟩

theorem pathDone_of_setGens {s t : State} {g : Gens} {n : Nat} {b : Latch} (h : PathDone (s.setGens g) t n b) : PathDone s t n b :=
  pathDone_of_paths h (fun p => by rw [State.hart_setGens]; rfl) rfl

theorem written_of_setGens {s t : State} {g : Gens} {d : Dst} {w L n count : Nat} {after : Nat → Nat → Nat}
    (h : Written (s.setGens g) t d w L n count after) : Written s t d w L n count after := by
  obtain ⟨elems, others, ⟨b, path, write, keep⟩, frame⟩ := h
  simp only [State.vc_setGens, State.hart_setGens] at elems others keep
  exact ⟨elems, others, ⟨b, pathDone_of_setGens path, write, keep⟩, vectorFrame_of_setGens frame⟩

/-- A vector instruction that has drawn its words and written a register group by cells. -/
theorem State.written_of_cells (s : State) (g : Gens) {d : Dst} {w L : Nat} {cells : List (Option Nat)} {count : Nat} {after : Nat → Nat → Nat}
    (hw : ElemWidth w) (length : cells.length = count) (fits : d.nw = false → d.reg.toNat + L ≤ 32) (short : d.nw = true → w * count ≤ 2048)
    (value : ∀ i < count, ∀ old, cellOver w (cells[i]?.getD none) old = after i old) :
    Written s (retireP ((s.setGens g).putV s.vc d w L cells)) d w L 1 count after ∧ (retireP ((s.setGens g).putV s.vc d w L cells)).hart.gens = g := by
  subst length
  have written := (s.setGens g).putV_retire_written (n := 1) hw fits short value
  rw [State.vc_setGens] at written
  exact ⟨written_of_setGens written, by rw [retireP, (State.putV_vectorsOnly ..).gens, State.hart_setGens]⟩

/-- A vector result by the table of R110. -/
theorem State.vectorDone_of_writeV (s : State) (g : Gens) {d : Dst} {w L : Nat} {sel : Nat → Bool} {vals : List (Option Nat)} {new : Nat → Nat}
    (hw : ElemWidth w) (length : vals.length = s.vc.max) (fits : d.nw = false → d.reg.toNat + L ≤ 32) (short : d.nw = true → w * s.vc.max ≤ 2048)
    (value : ∀ i < s.vc.max, Active s w sel i → vals[i]? = some (some (new i)) ∧ new i < 2 ^ w) :
    VectorDone s (retireP ((s.setGens g).writeV s.vc d sel w L vals)) d w L 1 sel new ∧ (retireP ((s.setGens g).writeV s.vc d sel w L vals)).hart.gens = g := by
  unfold State.writeV VectorDone
  rw [State.lanesOn_setGens]
  exact s.written_of_cells g hw ((writeRule_length ..).trans length) fits short fun i hi old =>
    s.cellOver_writeRule hw w (Nat.sub_lt (by positivity) one_pos) sel (length ▸ hi) (value i hi) old

/-! ## Destinations (R107, R43) -/

theorem VC.fits_of_dstOk {s : State} {d : Dst} {L : Nat} (ok : s.vc.dstOk d L = true) (write : d.nw = false) : d.reg.toNat + L ≤ 32 := by
  simp only [VC.dstOk, write, Bool.false_eq_true, if_false, Bool.and_eq_true, decide_eq_true_eq] at ok
  exact ok.2.trans s.regs_le

theorem VC.lmul_of_dstOk {s : State} {d : Dst} {L : Nat} (ok : s.vc.dstOk d L = true) (keep : d.nw = true) : s.vc.lmul = 1 := by
  simp only [VC.dstOk, keep, if_true, Bool.and_eq_true, beq_iff_eq] at ok
  exact ok.2

/-- With nw all elements of a group lie in one register. -/
theorem State.short_of_lmul (s : State) (one : s.vc.lmul = 1) : s.vc.sew * s.vc.max ≤ 2048 := by
  rw [State.max_eq, one, one_mul]
  exact (Nat.mul_div_le _ _).trans s.vlen_le

/-- A vector result of the type in force. -/
theorem State.vectorDone_of_ready (s : State) (g : Gens) {d : Dst} {sel : Nat → Bool} {vals : List (Option Nat)} {new : Nat → Nat}
    (ok : s.vc.dstOk d s.vc.lmul = true) (length : vals.length = s.vc.max)
    (value : ∀ i < s.vc.max, Active s s.vc.sew sel i → vals[i]? = some (some (new i)) ∧ new i < 2 ^ s.vc.sew) :
    VectorDone s (retireP ((s.setGens g).writeV s.vc d sel s.vc.sew s.vc.lmul vals)) d s.vc.sew s.vc.lmul 1 sel new
      ∧ (retireP ((s.setGens g).writeV s.vc d sel s.vc.sew s.vc.lmul vals)).hart.gens = g :=
  s.vectorDone_of_writeV g s.sew_width length (VC.fits_of_dstOk ok) (fun keep => s.short_of_lmul (VC.lmul_of_dstOk ok keep)) value

end Sys2Proof.Machine
end

