-- ==== Sys2Proof/Proofs/VectorElements.lean ====
section
/-! PROOFS. Element-wise instructions (R110, R114, R116): what the elements of a run draw, and the result of an instruction that forms each element from those of its sources. -/

namespace Sys2Proof.Machine
open Sys2Proof.Claims

/-! ## Sources (R41, R107) -/

theorem vpat_lt (v : VWord) (w j : Nat) : vpat v w j < 2 ^ w := Nat.mod_lt _ (Nat.two_pow_pos w)
theorem Hart.elem_lt (h : Hart) (vlen r w i : Nat) : h.elem vlen r w i < 2 ^ w := vpat_lt _ w _

/-- The elements of a source keep to their width, where its constants do. -/
theorem State.vsrc_lt {s : State} {c : VC} {a : Src} {w : Nat} {cst : Int → Nat} {x : Nat → Nat} (read : s.vsrc c a w cst = .ok x)
    (small : ∀ z : BitVec 5, cst (constInt z) < 2 ^ w) (i : Nat) : x i < 2 ^ w := by
  cases a with
  | reg n =>
    obtain rfl := Except.ok.inj read
    exact Hart.elem_lt ..
  | latch k =>
    simp only [State.vsrc] at read
    cases latch : s.path.latch k .vector with
    | error e => rw [latch] at read; cases read
    | ok v =>
      rw [latch] at read
      obtain rfl := Except.ok.inj read
      exact vpat_lt v w i
  | const z =>
    obtain rfl := Except.ok.inj read
    exact small _

theorem patOf_lt (v : Int) (w : Nat) : patOf v w < 2 ^ w := by
  rw [patOf]
  have := Int.emod_lt_of_pos v (show (0 : Int) < 2 ^ w by positivity)
  have := Int.emod_nonneg v (show (2 : Int) ^ w ≠ 0 by positivity)
  zify
  omega

theorem cstI_lt (w : Nat) (z : Int) : cstI w z < 2 ^ w := patOf_lt z w

/-- An instruction without a second source reads a constant in its place. -/
theorem sourcesReady_absent {s : State} {a b : Src} {k : MSel} {cst : Int → Nat} {x y : Nat → Nat} (h : SourcesReady s a b k cst x y) :
    SourcesReady s a Src.absent k cst x (fun _ => cst 0) where
  width := h.width
  srcA := h.srcA
  srcB := rfl
  mask := h.mask
  readA := h.readA
  readB := rfl
  heldA := h.heldA
  heldB := rfl

/-- An instruction without sources reads constants. -/
theorem sourcesReady_absent_both {s : State} {a b : Src} {k : MSel} {cst : Int → Nat} {x y : Nat → Nat} (h : SourcesReady s a b k cst x y) :
    SourcesReady s Src.absent Src.absent k cst (fun _ => cst 0) (fun _ => cst 0) where
  width := h.width
  srcA := rfl
  srcB := rfl
  mask := h.mask
  readA := rfl
  readB := rfl
  heldA := rfl
  heldB := rfl

/-! ## Draws (R116, R151, R152) -/

/-- The modes of a computation that draws nothing. -/
def noDraws : Modes := ⟨rNE, 0⟩

theorem drawn_of_rm_ne {m : Modes} (h : m.rm ≠ rSR) (lane : Nat → Nat) (act : Nat → Prop) (g : Gens) (n : Nat) : drawn m lane act g n = g := by
  induction n with
  | zero => rfl
  | succ n ih => rw [drawn, if_neg fun both => h both.2, ih]

theorem drawn_noDraws (lane : Nat → Nat) (act : Nat → Prop) (g : Gens) (n : Nat) : drawn noDraws lane act g n = g := drawn_of_rm_ne (by decide) lane act g n

theorem Modes.word_drawn (m : Modes) (lane : Nat → Nat) {act : Nat → Prop} (g : Gens) {n : Nat} (h : act n) :
    m.word (lane n) (drawn m lane act g n) = (wordOf m lane act g n, drawn m lane act g (n + 1)) := by
  rw [Modes.word, wordOf, drawn]
  by_cases sr : m.rm = rSR
  · rw [if_pos sr, if_pos sr, if_pos ⟨h, sr⟩]
  · rw [if_neg sr, if_neg sr, if_neg fun both => sr both.2]

theorem drawn_succ_of_not (m : Modes) (lane : Nat → Nat) {act : Nat → Prop} (g : Gens) {n : Nat} (h : ¬ act n) :
    drawn m lane act g (n + 1) = drawn m lane act g n := if_neg fun both => h both.1

/-- A run over consecutive elements, each active one of which draws a word by its lane. -/
theorem runElems_range' {m : Modes} {lane : Nat → Nat} {f : Nat → Gens → Nat × Gens} {v : Nat → Nat → Nat} (act : Nat → Bool)
    (step : ∀ i g, f i g = (v i (m.word (lane i) g).1, (m.word (lane i) g).2)) (g : Gens) (k a : Nat) :
    runElems act f (List.range' a k) (drawn m lane (act · = true) g a)
      = ((List.range' a k).map fun i => if act i then some (v i (wordOf m lane (act · = true) g i)) else none, drawn m lane (act · = true) g (a + k)) := by
  induction k generalizing a with
  | zero => rfl
  | succ k ih =>
    rw [List.range'_succ, List.map_cons, runElems, ← Nat.add_assoc, Nat.add_right_comm]
    by_cases on : act a = true
    · rw [if_pos on, if_pos on, step, m.word_drawn lane g on]
      dsimp only
      rw [ih]
    · rw [if_neg on, if_neg on, ← drawn_succ_of_not m lane g on]
      dsimp only
      rw [ih]

theorem runElems_range {m : Modes} {lane : Nat → Nat} {f : Nat → Gens → Nat × Gens} {v : Nat → Nat → Nat} (act : Nat → Bool)
    (step : ∀ i g, f i g = (v i (m.word (lane i) g).1, (m.word (lane i) g).2)) (g : Gens) (n : Nat) :
    runElems act f (List.range n) g
      = ((List.range n).map fun i => if act i then some (v i (wordOf m lane (act · = true) g i)) else none, drawn m lane (act · = true) g n) := by
  have run := runElems_range' act step g n 0
  rwa [← List.range_eq_range', Nat.zero_add] at run

/-! ## Element-wise instructions -/

theorem getElem?_map_range {α : Type} (f : Nat → α) {n i : Nat} (hi : i < n) : ((List.range n).map f)[i]? = some (f i) := by
  rw [List.getElem?_map, List.getElem?_range hi, Option.map_some]

section
variable {s : State} {d : Dst} {a b : Src} {k : MSel} {cst : Int → Nat} {x y : Nat → Nat}

/-- The mask operand of an element-wise instruction: none for an instruction that writes every element. -/
def State.selAll (s : State) (k : MSel) (all : Bool) : Nat → Bool := if all then fun _ => true else s.sel k

/-- The elements that a run forms, each from the word that it draws, written by R110. -/
theorem State.vectorDone_of_run (s : State) (g : Gens) {d : Dst} {w L : Nat} {sel : Nat → Bool} {f : Nat → Gens → Nat × Gens} {m : Modes} {v : Nat → Nat → Nat}
    (hw : ElemWidth w) (fits : d.nw = false → d.reg.toNat + L ≤ 32) (short : d.nw = true → w * s.vc.max ≤ 2048)
    (step : ∀ i g, f i g = (v i (m.word (lowLane s s.vc.sew i) g).1, (m.word (lowLane s s.vc.sew i) g).2)) (small : ∀ i W, v i W < 2 ^ w) :
    ∃ vals g', runElems (s.vc.active s.lanesOn sel w) f (List.range s.vc.max) g = (vals, g')
      ∧ VectorDone s (retireP ((s.setGens g').writeV s.vc d sel w L vals)) d w L 1 sel (fun i => v i (wordOf m (lowLane s s.vc.sew) (Active s w sel) g i))
      ∧ (retireP ((s.setGens g').writeV s.vc d sel w L vals)).hart.gens = drawn m (lowLane s s.vc.sew) (Active s w sel) g s.vc.max := by
  have run := runElems_range (s.vc.active s.lanesOn sel w) step g s.vc.max
  rw [s.active_eq hw] at run
  exact ⟨_, _, run, s.vectorDone_of_writeV _ hw (by simp) fits short fun i hi active =>
    ⟨by rw [getElem?_map_range _ hi, if_pos ((s.active_iff hw _ i).mpr active)], small i _⟩⟩

/-- An instruction that forms each active element from its sources, its old destination and the word that it draws. -/
theorem State.elementwise_done {readD all : Bool} {f : Nat → Nat → Nat → Nat → Nat → Gens → Nat × Gens} {m : Modes} {v : Nat → Nat → Nat}
    (ready : SourcesReady s a b k cst x y) (dst : DstReady s d s.vc.lmul)
    (old : readD = true → s.vc.regOk d.reg.toNat s.vc.lmul = true ∧ s.heldRegs d.reg.toNat s.vc.lmul = .ok ())
    (step : ∀ i g, f i (x i) (y i) (s.hart.elem s.vc.vlen d.reg.toNat s.vc.sew i) (laneOf s.vc.vlen i s.vc.sew) g
      = (v i (m.word (lowLane s s.vc.sew i) g).1, (m.word (lowLane s s.vc.sew i) g).2))
    (small : ∀ i W, v i W < 2 ^ s.vc.sew) :
    ∃ t, s.elementwise d a b k readD all true cst f = .next t
      ∧ VectorDone s t d s.vc.sew s.vc.lmul 1 (s.selAll k all)
          (fun i => v i (wordOf m (lowLane s s.vc.sew) (Active s s.vc.sew (s.selAll k all)) s.hart.gens i))
      ∧ t.hart.gens = drawn m (lowLane s s.vc.sew) (Active s s.vc.sew (s.selAll k all)) s.hart.gens s.vc.max := by
  obtain ⟨width, srcA, srcB, mask, readA, readB, heldA, heldB⟩ := ready
  obtain ⟨dstOk, heldD⟩ := dst
  obtain ⟨vals, g, run, done⟩ := s.vectorDone_of_run s.hart.gens (sel := s.selAll k all) (L := s.vc.lmul) s.sew_width (VC.fits_of_dstOk dstOk)
    (fun keep => s.short_of_lmul (VC.lmul_of_dstOk dstOk keep)) step small
  refine ⟨_, ?_, done⟩
  unfold State.elementwise
  unfold State.selAll at run
  cases readD with
  | false =>
    simp only [width, dstOk, srcA, srcB, mask, Bool.not_false, Bool.true_or, Bool.and_self, needOp, need_ok, readA, readB, heldA, heldB, heldD, run, bind,
      Except.bind, Bool.false_eq_true, if_false]
    rfl
  | true =>
    obtain ⟨regOk, heldOld⟩ := old rfl
    simp only [width, dstOk, regOk, srcA, srcB, mask, Bool.or_true, Bool.and_self, needOp, need_ok, readA, readB, heldA, heldB, heldOld, run, bind,
      Except.bind, if_true]
    rfl

/-- The same for an instruction that draws nothing. -/
theorem State.elementwise_pure {all : Bool} {f : Nat → Nat → Nat → Nat → Nat → Gens → Nat × Gens} {new : Nat → Nat}
    (ready : SourcesReady s a b k cst x y) (dst : DstReady s d s.vc.lmul)
    (step : ∀ i g, f i (x i) (y i) (s.hart.elem s.vc.vlen d.reg.toNat s.vc.sew i) (laneOf s.vc.vlen i s.vc.sew) g = (new i, g))
    (small : ∀ i, new i < 2 ^ s.vc.sew) :
    ∃ t, s.elementwise d a b k false all true cst f = .next t ∧ VectorDone s t d s.vc.sew s.vc.lmul 1 (s.selAll k all) new ∧ t.hart.gens = s.hart.gens := by
  obtain ⟨t, next, done, gens⟩ := State.elementwise_done (readD := false) (all := all) (m := noDraws) (v := fun i _ => new i) ready dst (fun h => nomatch h) step fun i _ => small i
  exact ⟨t, next, done, gens.trans (drawn_noDraws ..)⟩

end

/-! ## Results without draws -/

theorem State.setHart_setGens (s : State) (g : Gens) (h : Hart) : (s.setGens g).setHart h = s.setHart h := by
  unfold State.setGens
  exact s.setHart_setHart _ h

theorem State.hart_setGens_self (s : State) : (s.setGens s.hart.gens).hart = s.hart := s.hart_setGens _

theorem State.retire_setGens_self (s : State) (n : Nat) (b : Latch) : (s.setGens s.hart.gens).retire n b = s.retire n b := by
  unfold State.retire State.path
  rw [State.setHart_setGens, State.hart_setGens_self]
  rfl

/-- A result whose computation has drawn nothing. -/
theorem State.retireP_putV_setGens_self (s : State) (c : VC) (d : Dst) (w L : Nat) (cells : List (Option Nat)) :
    retireP ((s.setGens s.hart.gens).putV c d w L cells) = retireP (s.putV c d w L cells) := by
  unfold retireP State.putV
  simp only [State.hart_setGens_self, State.setHart_setGens]
  split
  · exact s.retire_setGens_self 1 _
  · rfl

theorem State.retireP_writeV_setGens_self (s : State) (d : Dst) (sel : Nat → Bool) (w L : Nat) (vals : List (Option Nat)) :
    retireP ((s.setGens s.hart.gens).writeV s.vc d sel w L vals) = retireP (s.writeV s.vc d sel w L vals) := by
  unfold State.writeV
  rw [State.lanesOn_setGens, State.retireP_putV_setGens_self]

end Sys2Proof.Machine
end

