-- ==== Sys2Proof/Proofs/VectorIntegers.lean ====
section
/-! PROOFS. Vector integer elements (R114): the model's exact integers and patterns are the bit vectors of the statement. -/

namespace Sys2Proof.Machine
open Sys2Proof.Claims

/-! ## Elements as bit vectors (R114) -/

/-- The value of an element, natural or two's complement. -/
def elemNum (u : Bool) {w : Nat} (X : BitVec w) : Int := if u then X.toNat else X.toInt

@[simp] theorem ofInt_elemNum (u : Bool) {w : Nat} (X : BitVec w) : BitVec.ofInt w (elemNum u X) = X := by
  cases u <;> simp [elemNum]

theorem elemNum_eq_zero (u : Bool) {w : Nat} (X : BitVec w) : elemNum u X = 0 ↔ X = 0 := by
  cases u
  · exact BitVec.toInt_zero (w := w) ▸ BitVec.toInt_inj
  · simp [elemNum, ← BitVec.toNat_inj]

/-- The pattern of an exact integer is that of the bit vector that it names. -/
theorem patOf_of_ofInt {w : Nat} {v : Int} {q : BitVec w} (h : BitVec.ofInt w v = q) : patOf v w = q.toNat := by
  rw [← h, BitVec.toNat_ofInt, patOf]
  push_cast
  rfl

theorem ofInt_tdiv (u : Bool) {w : Nat} (X Y : BitVec w) :
    BitVec.ofInt w ((elemNum u X).tdiv (elemNum u Y)) = if u then X.udiv Y else X.sdiv Y := by
  cases u with
  | true =>
    rw [if_pos rfl, elemNum, elemNum, if_pos rfl, if_pos rfl, ← Int.ofNat_tdiv, BitVec.ofInt_natCast]
    apply BitVec.eq_of_toNat_eq
    rw [BitVec.toNat_ofNat, BitVec.udiv_eq, BitVec.toNat_udiv]
    exact Nat.mod_eq_of_lt ((Nat.div_le_self _ _).trans_lt X.isLt)
  | false => exact BitVec.eq_of_toInt_eq (by rw [BitVec.toInt_ofInt]; exact (BitVec.toInt_sdiv X Y).symm)

theorem ofInt_tmod (u : Bool) {w : Nat} (X Y : BitVec w) :
    BitVec.ofInt w ((elemNum u X).tmod (elemNum u Y)) = if u then X.umod Y else X.srem Y := by
  cases u with
  | true =>
    rw [if_pos rfl, elemNum, elemNum, if_pos rfl, if_pos rfl, ← Int.ofNat_tmod, BitVec.ofInt_natCast]
    apply BitVec.eq_of_toNat_eq
    rw [BitVec.toNat_ofNat, BitVec.umod_eq, BitVec.toNat_umod]
    exact Nat.mod_eq_of_lt ((Nat.mod_le _ _).trans_lt X.isLt)
  | false => exact (congrArg _ (BitVec.toInt_srem X Y).symm).trans BitVec.ofInt_toInt

theorem patOf_divT (u : Bool) {w : Nat} (X Y : BitVec w) :
    patOf (divT (elemNum u X) (elemNum u Y)) w = (if Y = 0 then BitVec.allOnes w else if u then X.udiv Y else X.sdiv Y).toNat := by
  refine patOf_of_ofInt ?_
  simp only [divT, elemNum_eq_zero]
  split
  · exact (BitVec.neg_one_eq_allOnes ▸ BitVec.ofInt_neg (n := 1)).trans (by simp)
  · exact ofInt_tdiv u X Y

theorem patOf_remT (u : Bool) {w : Nat} (X Y : BitVec w) :
    patOf (remT (elemNum u X) (elemNum u Y)) w = (if Y = 0 then X else if u then X.umod Y else X.srem Y).toNat := by
  refine patOf_of_ofInt ?_
  simp only [remT, elemNum_eq_zero]
  split
  · exact ofInt_elemNum u X
  · rw [← Int.tmod_def]
    exact ofInt_tmod u X Y

/-- The count of a shift is read from the low bits of the element, signed or not. -/
theorem elemNum_emod (u : Bool) {w : Nat} (hw : w ∣ 2 ^ w) (Y : BitVec w) : (elemNum u Y % w).toNat = Y.toNat % w := by
  have modulo : elemNum u Y % (2 ^ w : Nat) = Y.toNat := by
    rw [← congrArg BitVec.toNat (ofInt_elemNum u Y), BitVec.toNat_ofInt]
    exact (Int.toNat_of_nonneg (Int.emod_nonneg _ (by positivity))).symm
  rw [← Int.emod_emod_of_dvd _ (Int.natCast_dvd_natCast.mpr hw), modulo]
  rfl

theorem patOf_shr (u : Bool) {w : Nat} (X : BitVec w) (c : Nat) :
    patOf (elemNum u X / 2 ^ c) w = (if u then X >>> c else X.sshiftRight c).toNat := by
  refine patOf_of_ofInt ?_
  cases u with
  | true =>
    rw [if_pos rfl, elemNum, if_pos rfl, show (X.toNat : Int) / 2 ^ c = ((X.toNat / 2 ^ c : Nat) : Int) by push_cast; rfl, BitVec.ofInt_natCast]
    apply BitVec.eq_of_toNat_eq
    rw [BitVec.toNat_ofNat, BitVec.toNat_ushiftRight, Nat.shiftRight_eq_div_pow]
    exact Nat.mod_eq_of_lt ((Nat.div_le_self _ _).trans_lt X.isLt)
  | false =>
    have shifted : (X.sshiftRight c).toInt = X.toInt / 2 ^ c := by rw [BitVec.toInt_sshiftRight, Int.shiftRight_eq_div_pow]; push_cast; rfl
    exact (congrArg _ shifted.symm).trans BitVec.ofInt_toInt

theorem patOf_natAbs {w : Nat} (X : BitVec w) : patOf (elemNum false X).natAbs w = (if X.msb then -X else X).toNat := by
  refine patOf_of_ofInt ?_
  rw [elemNum, if_neg (by decide)]
  by_cases neg : X.msb
  · rw [if_pos neg, Int.ofNat_natAbs_of_nonpos (BitVec.toInt_neg_of_msb_true neg).le, BitVec.ofInt_neg, BitVec.ofInt_toInt]
  · rw [if_neg neg, Int.natAbs_of_nonneg (BitVec.toInt_nonneg_of_msb_false (by simpa using neg)), BitVec.ofInt_toInt]

theorem patOf_min (u : Bool) {w : Nat} (X Y : BitVec w) :
    patOf (if elemNum u X ≤ elemNum u Y then elemNum u X else elemNum u Y) w = (if elemNum u X ≤ elemNum u Y then X else Y).toNat := by
  refine patOf_of_ofInt ?_
  split <;> exact ofInt_elemNum u _

theorem patOf_max (u : Bool) {w : Nat} (X Y : BitVec w) :
    patOf (if elemNum u X ≤ elemNum u Y then elemNum u Y else elemNum u X) w = (if elemNum u X ≤ elemNum u Y then Y else X).toNat := by
  refine patOf_of_ofInt ?_
  split <;> exact ofInt_elemNum u _

theorem patOf_mulh (u : Bool) {w : Nat} (X Y : BitVec w) :
    patOf (elemNum u X * elemNum u Y / 2 ^ w) w = (BitVec.ofInt w (Int.fdiv (elemNum u X * elemNum u Y) (2 ^ w))).toNat :=
  patOf_of_ofInt (by rw [ediv_two_pow_eq_fdiv])

theorem ElemWidth.dvd_two_pow {w : Nat} (hw : ElemWidth w) : w ∣ 2 ^ w := by rcases hw with rfl | rfl | rfl | rfl <;> norm_num

theorem toNat_shl {w : Nat} (X : BitVec w) (c : Nat) : X.toNat * 2 ^ c % 2 ^ w = (X <<< c).toNat := by rw [BitVec.toNat_shiftLeft, Nat.shiftLeft_eq]

theorem valOf_eq_elemNum {w : Nat} (hw : 0 < w) (p : Nat) (u : Bool) : valOf p w u = elemNum u (BitVec.ofNat w p) := valOf_eq p hw u

/-! ## Integer instructions -/

section
variable {s : State} {d : Dst} {a b : Src} {u : Bool} {k : MSel} {x y : Nat → Nat}

/-- An instruction on the values of two sources: its result is the pattern of an exact integer. -/
theorem State.vint_done {f : Nat → Int → Int → Int} {q : Nat → BitVec s.vc.sew} (ready : SourcesReady s a b k (cstI s.vc.sew) x y)
    (dst : DstReady s d s.vc.lmul)
    (value : ∀ i, patOf (f s.vc.sew (elemNum u (BitVec.ofNat s.vc.sew (x i))) (elemNum u (BitVec.ofNat s.vc.sew (y i)))) s.vc.sew = (q i).toNat) :
    ∃ t, s.vint d a b u k f = .next t ∧ VectorDone s t d s.vc.sew s.vc.lmul 1 (s.sel k) (fun i => (q i).toNat) ∧ t.hart.gens = s.hart.gens := by
  unfold State.vint
  refine State.elementwise_pure (all := false) ready dst (fun i g => ?_) fun i => (q i).isLt
  rw [← value i, valOf_eq_elemNum s.sew_width.pos, valOf_eq_elemNum s.sew_width.pos]

/-- An instruction on the patterns of two sources. -/
theorem State.vbits_done {f : Nat → Nat → Nat → Nat} {q : Nat → BitVec s.vc.sew} (ready : SourcesReady s a b k (cstI s.vc.sew) x y)
    (dst : DstReady s d s.vc.lmul)
    (value : ∀ i, f s.vc.sew (BitVec.ofNat s.vc.sew (x i)).toNat (BitVec.ofNat s.vc.sew (y i)).toNat % 2 ^ s.vc.sew = (q i).toNat) :
    ∃ t, s.vbits d a b k f = .next t ∧ VectorDone s t d s.vc.sew s.vc.lmul 1 (s.sel k) (fun i => (q i).toNat) ∧ t.hart.gens = s.hart.gens := by
  unfold State.vbits
  refine State.elementwise_pure (all := false) ready dst (fun i g => ?_) fun i => (q i).isLt
  have small {a : Src} {x : Nat → Nat} (read : s.vsrc s.vc a s.vc.sew (cstI s.vc.sew) = .ok x) : (BitVec.ofNat s.vc.sew (x i)).toNat = x i :=
    (BitVec.toNat_ofNat ..).trans (Nat.mod_eq_of_lt (State.vsrc_lt read (fun _ => cstI_lt _ _) i))
  rw [← value i, small ready.readA, small ready.readB]

end

end Sys2Proof.Machine

namespace Sys2Proof.Claims
open Sys2Proof.Machine

/-- Settles O6: each instruction is a shared shape on two sources, whose pattern is that of the bit vector of the statement by the lemma of its operation. -/
theorem vectorIntegerElementResults : Obligations.VectorIntegerElementResults := by
  intro s d a b u k x y w ready dst X Y num
  simp only [List.forall_mem_cons, List.not_mem_nil, false_imp_iff, implies_true, and_true]
  have onValues {i : Instr} (f : Nat → Int → Int → Int) {q : Nat → BitVec w} (arm : exec i s = s.vint d a b u k f)
      (value : ∀ i, patOf (f w (elemNum u (X i)) (elemNum u (Y i))) w = (q i).toNat) := arm ▸ State.vint_done ready dst value
  have onPatterns {i : Instr} (f : Nat → Nat → Nat → Nat) {q : Nat → BitVec w} (arm : exec i s = s.vbits d a b k f)
      (value : ∀ i, f w (X i).toNat (Y i).toNat % 2 ^ w = (q i).toNat) := arm ▸ State.vbits_done ready dst value
  have onOne {i : Instr} (f : Nat → Int → Int → Int) {q : Nat → BitVec w} (arm : exec i s = s.vint d a Src.absent false k f)
      (value : ∀ i, patOf (f w (elemNum false (X i)) (elemNum false (BitVec.ofNat w (cstI w 0)))) w = (q i).toNat) :=
    arm ▸ State.vint_done (sourcesReady_absent ready) dst value
  have kept {n : Nat} (q : BitVec w) (h : q.toNat = n) : n % 2 ^ w = q.toNat := h ▸ Nat.mod_eq_of_lt q.isLt
  refine ⟨onValues (fun _ x y => x + y) rfl fun i => patOf_of_ofInt ?add, onValues (fun _ x y => x - y) rfl fun i => patOf_of_ofInt ?sub,
    onValues (fun _ x y => x * y) rfl fun i => patOf_of_ofInt ?mul, onValues (fun w x y => x * y / 2 ^ w) rfl fun i => patOf_mulh u _ _,
    onValues (fun _ => divT) rfl fun i => patOf_divT u _ _, onValues (fun _ => remT) rfl fun i => patOf_remT u _ _,
    onPatterns (fun _ x y => x &&& y) rfl fun i => kept _ (BitVec.toNat_and _ _), onPatterns (fun _ x y => x ||| y) rfl fun i => kept _ (BitVec.toNat_or _ _),
    onPatterns (fun _ x y => x ^^^ y) rfl fun i => kept _ (BitVec.toNat_xor _ _), onPatterns (fun w x y => x * 2 ^ (y % w)) rfl fun i => toNat_shl _ _,
    onValues (fun w x y => x / 2 ^ (y % w).toNat) rfl fun i => ?shr, onValues (fun _ x y => if x ≤ y then x else y) rfl fun i => patOf_min u _ _,
    onValues (fun _ x y => if x ≤ y then y else x) rfl fun i => patOf_max u _ _, onOne (fun _ x _ => x.natAbs) rfl fun i => patOf_natAbs _,
    onOne (fun _ x _ => -x) rfl fun i => patOf_of_ofInt ?neg⟩
  case add => rw [BitVec.ofInt_add, ofInt_elemNum, ofInt_elemNum]
  case sub => rw [sub_eq_add_neg, BitVec.ofInt_add, BitVec.ofInt_neg, ofInt_elemNum, ofInt_elemNum, ← BitVec.sub_eq_add_neg]
  case mul => rw [BitVec.ofInt_mul, ofInt_elemNum, ofInt_elemNum]
  case shr =>
    rw [elemNum_emod u s.sew_width.dvd_two_pow]
    exact patOf_shr u _ _
  case neg => rw [BitVec.ofInt_neg, ofInt_elemNum]

end Sys2Proof.Claims
end

