-- ==== Sys2Proof/Proofs/FloatValues.lean ====
section
/-! PROOFS. Floating-point values and patterns (R117, R119, R120, R140, R141, R151, R153): the order of values, the widths of the patterns that rounding and saturation give, and the patterns of values that are not rounded. -/

namespace Sys2Proof.Machine
open Sys2Proof.Claims

/-! ## The order of values (R117, R120) -/

/-- The comparison of two magnitudes is that of the rational numbers. -/
theorem cmpMag_compares (m : Nat) (e : Int) (m' : Nat) (e' : Int) : (cmpMag m e m' e').Compares ((m : ℚ) * 2 ^ e) ((m' : ℚ) * 2 ^ e') := by
  have mono (lo : Int) : StrictMono fun n : Nat => (n : ℚ) * 2 ^ lo := fun a b h => by
    have : (0 : ℚ) < 2 ^ lo := by positivity
    exact mul_lt_mul_of_pos_right (by exact_mod_cast h) this
  have scaled {m : Nat} {e lo : Int} (h : lo ≤ e) : ((m * 2 ^ (e - lo).toNat : Nat) : ℚ) * 2 ^ lo = (m : ℚ) * 2 ^ e := by
    push_cast
    rw [mul_assoc, ← zpow_natCast, ← zpow_add₀ two_ne_zero, Int.toNat_of_nonneg (by omega), Int.sub_add_cancel]
  unfold cmpMag
  extract_lets lo
  rw [← scaled (m := m) (e := e) (lo := lo) (by grind), ← scaled (m := m') (e := e') (lo := lo) (by grind)]
  exact (mono lo).compares.mpr ((compare_iff _ _).mp rfl)

/-- A finite value as a rational number. -/
def signedNum (s : Bool) (m : Nat) (e : Int) : ℚ := (if s then -1 else 1) * m * 2 ^ e

theorem number_fin (s : Bool) (m : Nat) (e : Int) (x : Bool) : number (.fin s m e x) = ((signedNum s m e : WithTop ℚ) : WithBot (WithTop ℚ)) := rfl

theorem signedNum_zero (s : Bool) (e : Int) : signedNum s 0 e = 0 := by simp [signedNum]
theorem signedNum_pos {m : Nat} (hm : m ≠ 0) (e : Int) : 0 < signedNum false m e := by
  have : (0 : ℚ) < m := by exact_mod_cast Nat.pos_of_ne_zero hm
  simp only [signedNum, Bool.false_eq_true, if_false, one_mul]
  positivity
theorem signedNum_true (m : Nat) (e : Int) : signedNum true m e = -signedNum false m e := by simp [signedNum]
theorem signedNum_neg {m : Nat} (hm : m ≠ 0) (e : Int) : signedNum true m e < 0 := by
  rw [signedNum_true]
  exact neg_neg_of_pos (signedNum_pos hm e)

theorem cmpMag_compares_signedNum (m : Nat) (e : Int) (m' : Nat) (e' : Int) : (cmpMag m e m' e').Compares (signedNum false m e) (signedNum false m' e') := by
  simpa [signedNum] using cmpMag_compares m e m' e'

theorem compares_neg {o : Ordering} {x y : ℚ} (h : o.Compares x y) : o.Compares (-y) (-x) := by
  cases o with
  | lt => exact neg_lt_neg h
  | eq => exact congrArg _ (Eq.symm h)
  | gt => exact neg_lt_neg h

/-- The order of two values that are no NaN is that of the numbers. -/
theorem FVal.cmp_compares {a b : FVal} (ha : a ≠ .nan) (hb : b ≠ .nan) : (a.cmp b).Compares (number a) (number b) := by
  have coe {o : Ordering} {x y : ℚ} (h : o.Compares x y) : o.Compares ((x : WithTop ℚ) : WithBot (WithTop ℚ)) ((y : WithTop ℚ) : WithBot (WithTop ℚ)) :=
    WithBot.coe_strictMono.compares.mpr (WithTop.coe_strictMono.compares.mpr h)
  have top (x : ℚ) : ((x : WithTop ℚ) : WithBot (WithTop ℚ)) < ((⊤ : WithTop ℚ) : WithBot (WithTop ℚ)) := WithBot.coe_lt_coe.mpr (WithTop.coe_lt_top x)
  have bot (x : WithTop ℚ) : (⊥ : WithBot (WithTop ℚ)) < (x : WithBot (WithTop ℚ)) := WithBot.bot_lt_coe x
  match a, b with
  | .nan, _ => exact absurd rfl ha
  | _, .nan => exact absurd rfl hb
  | .inf true, .inf true => exact rfl
  | .inf true, .inf false => exact bot _
  | .inf false, .inf true => exact bot _
  | .inf false, .inf false => exact rfl
  | .inf true, .fin _ _ _ _ => exact bot _
  | .inf false, .fin _ _ _ _ => exact top _
  | .fin _ _ _ _, .inf true => exact bot _
  | .fin _ _ _ _, .inf false => exact top _
  | .fin s m e _, .fin t m' e' _ =>
    rw [number_fin, number_fin]
    refine coe ?_
    unfold FVal.cmp
    by_cases hm : m = 0
    · subst hm
      by_cases hm' : m' = 0
      · subst hm'
        simp [signedNum_zero, Ordering.Compares]
      · cases t
        · simpa [hm', signedNum_zero, Ordering.Compares] using signedNum_pos hm' e'
        · simpa [hm', signedNum_zero, Ordering.Compares] using signedNum_neg hm' e'
    · by_cases hm' : m' = 0
      · subst hm'
        cases s
        · simpa [hm, signedNum_zero, Ordering.Compares] using signedNum_pos hm e
        · simpa [hm, signedNum_zero, Ordering.Compares] using signedNum_neg hm e
      · simp only [hm, hm', and_self, if_false]
        match s, t with
        | false, false => exact cmpMag_compares_signedNum m e m' e'
        | true, true =>
          rw [signedNum_true, signedNum_true]
          exact compares_neg (cmpMag_compares_signedNum m' e' m e)
        | true, false => exact (signedNum_neg hm e).trans (signedNum_pos hm' e')
        | false, true => exact (signedNum_neg hm' e').trans (signedNum_pos hm e)

theorem FVal.isNan_iff (a : FVal) : a.isNan = true ↔ a = .nan := by cases a <;> simp [FVal.isNan]

theorem FVal.lt_iff (a b : FVal) : a.lt b = true ↔ ¬ (a = .nan ∨ b = .nan) ∧ number a < number b := by
  rw [FVal.lt, Bool.and_eq_true, Bool.and_eq_true, beq_iff_eq, Bool.not_eq_true', Bool.not_eq_true', ← Bool.not_eq_true, ← Bool.not_eq_true, isNan_iff, isNan_iff, not_or]
  exact and_congr_right fun h => (FVal.cmp_compares h.1 h.2).eq_lt
theorem FVal.eq_iff (a b : FVal) : a.eq b = true ↔ ¬ (a = .nan ∨ b = .nan) ∧ number a = number b := by
  rw [FVal.eq, Bool.and_eq_true, Bool.and_eq_true, beq_iff_eq, Bool.not_eq_true', Bool.not_eq_true', ← Bool.not_eq_true, ← Bool.not_eq_true, isNan_iff, isNan_iff, not_or]
  exact and_congr_right fun h => (FVal.cmp_compares h.1 h.2).eq_eq
theorem FVal.le_iff (a b : FVal) : a.le b = true ↔ ¬ (a = .nan ∨ b = .nan) ∧ number a ≤ number b := by
  rw [FVal.le, Bool.and_eq_true, Bool.and_eq_true, bne_iff_ne, Bool.not_eq_true', Bool.not_eq_true', ← Bool.not_eq_true, ← Bool.not_eq_true, isNan_iff, isNan_iff, not_or]
  exact and_congr_right fun h => (FVal.cmp_compares h.1 h.2).ne_gt

/-! ## Ranges of patterns (R140, R151, R153) -/

theorem scale_lt {m k : Nat} {t : Int} (h : (Nat.log2 m : Int) + t < k) : scale m t < 2 ^ k := by
  have top : m < 2 ^ (Nat.log2 m + 1) := Nat.lt_log2_self
  unfold scale
  split
  · next up =>
    calc m * 2 ^ t.toNat < 2 ^ (Nat.log2 m + 1) * 2 ^ t.toNat := Nat.mul_lt_mul_of_pos_right top (by positivity)
      _ = 2 ^ (Nat.log2 m + 1 + t.toNat) := (pow_add _ _ _).symm
      _ ≤ 2 ^ k := Nat.pow_le_pow_right (by decide) (by omega)
  · next down =>
    rw [Nat.div_lt_iff_lt_mul (by positivity), ← pow_add]
    exact top.trans_le (Nat.pow_le_pow_right (by decide) (by omega))

theorem FF.bits_eq (f : FF) : 2 ^ f.bits = 2 ^ (f.eb + f.mb) + 2 ^ (f.eb + f.mb) := by
  rw [FF.bits, add_assoc, pow_add, pow_one, two_mul]

/-- A sign above a pattern of exponent and fraction keeps to the format's width. -/
theorem FF.sign_add_lt (f : FF) (s : Bool) {x : Nat} (h : x < 2 ^ (f.eb + f.mb)) : (if s then 2 ^ (f.eb + f.mb) else 0) + x < 2 ^ f.bits := by
  rw [f.bits_eq]
  split <;> omega

theorem FF.enc_inf_lt (f : FF) (s : Bool) : f.enc (.inf s) < 2 ^ f.bits := by
  refine f.sign_add_lt s ?_
  rw [pow_add]
  exact Nat.mul_lt_mul_of_pos_right (Nat.sub_lt (by positivity) one_pos) (by positivity)

/-- A finite value whose exponent the format has keeps to the format's width. -/
theorem FF.enc_fin_lt (f : FF) (s : Bool) {m : Nat} {e : Int} (x : Bool) (h : m ≠ 0 → (Nat.log2 m : Int) + e + f.bias < 2 ^ f.eb) :
    f.enc (.fin s m e x) < 2 ^ f.bits := by
  simp only [FF.enc]
  by_cases hm : m = 0
  · rw [if_pos hm]
    exact f.sign_add_lt s (x := 0) (by positivity)
  rw [if_neg hm]
  by_cases low : (Nat.log2 m : Int) + e < f.emin
  · rw [if_pos low]
    exact f.sign_add_lt s ((scale_lt (by omega)).trans_le (Nat.pow_le_pow_right (by decide) (Nat.le_add_left f.mb f.eb)))
  · rw [if_neg low]
    refine f.sign_add_lt s ?_
    have digits : scale m (f.mb - Nat.log2 m) < 2 ^ (f.mb + 1) := scale_lt (by omega)
    have lo : 1 ≤ ((Nat.log2 m : Int) + e + f.bias).toNat := by unfold FF.emin at low; omega
    have hi : ((Nat.log2 m : Int) + e + f.bias).toNat + 1 ≤ 2 ^ f.eb := by
      have := h hm
      zify
      omega
    calc _ < 2 ^ f.mb * 2 + (((Nat.log2 m : Int) + e + f.bias).toNat - 1) * 2 ^ f.mb := by rw [← pow_succ]; omega
      _ = (((Nat.log2 m : Int) + e + f.bias).toNat + 1) * 2 ^ f.mb := by
        obtain ⟨n, hn⟩ := Nat.exists_eq_add_of_le lo
        rw [hn, Nat.add_sub_cancel_left]
        ring
      _ ≤ 2 ^ f.eb * 2 ^ f.mb := Nat.mul_le_mul_right _ hi
      _ = 2 ^ (f.eb + f.mb) := (pow_add _ _ _).symm

/-- The largest finite value: positive, with an exponent that the format has. -/
theorem FF.dec_maxPat (f : FF) : ∃ m e, f.dec f.maxPat = .fin false m e false ∧ m ≠ 0 ∧ (Nat.log2 m : Int) + e + f.bias < 2 ^ f.eb := by
  cases f <;> exact ⟨_, _, rfl, by decide +kernel, by decide +kernel⟩

/-- A finite value within the largest has an exponent that the format has. -/
theorem FF.enc_within_lt (f : FF) (s : Bool) (m : Nat) (e : Int) (x : Bool) (h : (FVal.fin s m e x).within f f.maxPat = true) : f.enc (.fin s m e x) < 2 ^ f.bits := by
  refine f.enc_fin_lt s x fun hm => ?_
  obtain ⟨m', e', max, hm', top⟩ := f.dec_maxPat
  rw [FVal.within, bne_iff_ne, max] at h
  have le := (FVal.cmp_compares (by simp [FVal.abs]) (by simp)).ne_gt.mp h
  rw [FVal.abs, number_fin, number_fin, WithBot.coe_le_coe, WithTop.coe_le_coe] at le
  have le : (m : ℚ) * 2 ^ e ≤ m' * 2 ^ e' := by simpa [signedNum] using le
  have lower : (2 : ℚ) ^ ((Nat.log2 m : Int) + e) ≤ m * 2 ^ e := by
    rw [zpow_add₀ two_ne_zero, zpow_natCast]
    refine mul_le_mul_of_nonneg_right ?_ (by positivity)
    exact_mod_cast Nat.log2_self_le hm
  have upper : (m' : ℚ) * 2 ^ e' < 2 ^ ((Nat.log2 m' : Int) + 1 + e') := by
    rw [zpow_add₀ two_ne_zero]
    refine mul_lt_mul_of_pos_right ?_ (by positivity)
    exact_mod_cast Nat.lt_log2_self (n := m')
  have := (zpow_lt_zpow_iff_right₀ one_lt_two).mp ((lower.trans le).trans_lt upper)
  omega

theorem FF.nanPat_lt (f : FF) : f.nanPat < 2 ^ f.bits := by cases f <;> decide
theorem FF.maxPat_lt (f : FF) : f.maxPat < 2 ^ (f.eb + f.mb) := by cases f <;> decide

theorem satF_lt (rm sm : Nat) (f : FF) (v : FVal) : satF rm sm f v < 2 ^ f.bits := by
  have signed (s : Bool) := f.sign_add_lt s f.maxPat_lt
  unfold satF
  extract_lets sign
  cases v with
  | nan => exact f.nanPat_lt
  | inf s =>
    dsimp only
    split
    · exact f.enc_inf_lt s
    · split
      · exact signed _
      · split
        · next h => obtain rfl := beq_iff_eq.mp h; exact FF.sign_add_lt .e4m3 _ (by decide)
        · split
          · exact f.enc_inf_lt s
          · split
            · exact f.enc_inf_lt _
            · exact signed _
  | fin s m e x =>
    dsimp only
    split
    · next h => exact f.enc_within_lt s m e x (by simpa [FVal.isFin] using h)
    · split
      · exact signed _
      · split
        · next h => obtain rfl := beq_iff_eq.mp h; exact FF.sign_add_lt .e4m3 _ (by decide)
        · split
          · next h => simp [FVal.isFin] at h
          · split
            · exact f.enc_inf_lt _
            · exact signed _

/-- A rounded and saturated value keeps to the format's width. -/
theorem fOf_lt (rm sm : Nat) (f : FF) (W : Nat) (v : FVal) : fOf rm sm f W v < 2 ^ f.bits := satF_lt rm sm f _

/-! ## Patterns of the formats with infinities (R140, R141) -/

/-- The sign bit of a pattern. -/
def FF.signBit (f : FF) (x : Nat) : Bool := x / 2 ^ (f.eb + f.mb) % 2 == 1
/-- The exponent field of a pattern. -/
def FF.expField (f : FF) (x : Nat) : Nat := x / 2 ^ f.mb % 2 ^ f.eb
/-- The fraction field of a pattern. -/
def FF.fracField (f : FF) (x : Nat) : Nat := x % 2 ^ f.mb

section
variable {f : FF} (hf : f.special = true)
include hf

theorem FF.dec_of_special (x : Nat) : f.dec x =
    if f.expField x = 2 ^ f.eb - 1 then (if f.fracField x = 0 then .inf (f.signBit x) else .nan)
    else if f.expField x = 0 then .fin (f.signBit x) (f.fracField x) (f.emin - f.mb) false
    else .fin (f.signBit x) (2 ^ f.mb + f.fracField x) (f.expField x - f.bias - f.mb) false := by
  have other : (f == .e4m3) = false := by revert hf; cases f <;> decide
  simp only [FF.dec, hf, other, Bool.true_and, Bool.false_and, Bool.false_eq_true, if_false, beq_iff_eq]
  rfl

theorem FF.isNeg_dec {x : Nat} (h : f.dec x ≠ .nan) : (f.dec x).isNeg = f.signBit x := by
  rw [FF.dec_of_special hf] at h ⊢
  split
  · next top =>
    rw [if_pos top] at h
    split
    · rfl
    · next frac => exact absurd (if_neg frac) h
  · split <;> rfl

omit hf in
/-- A pattern is its three fields. -/
theorem FF.fields_eq {x : Nat} (hx : x < 2 ^ f.bits) : (if f.signBit x then 2 ^ (f.eb + f.mb) else 0) + (f.fracField x + f.expField x * 2 ^ f.mb) = x := by
  have low : x % 2 ^ (f.eb + f.mb) = f.fracField x + f.expField x * 2 ^ f.mb := by
    rw [add_comm f.eb, pow_add, Nat.mod_mul, mul_comm (2 ^ f.mb)]
    rfl
  have top : x / 2 ^ (f.eb + f.mb) < 2 := by
    rw [Nat.div_lt_iff_lt_mul (by positivity), two_mul, ← f.bits_eq]
    exact hx
  have parts := Nat.div_add_mod x (2 ^ (f.eb + f.mb))
  rw [← low, FF.signBit]
  interval_cases h : x / 2 ^ (f.eb + f.mb) <;> simp_all

/-- A pattern that is no NaN is the pattern of its value. -/
theorem FF.enc_dec {x : Nat} (hx : x < 2 ^ f.bits) (h : f.dec x ≠ .nan) : f.enc (f.dec x) = x := by
  conv_rhs => rw [← f.fields_eq hx]
  have frac : f.fracField x < 2 ^ f.mb := Nat.mod_lt _ (by positivity)
  rw [FF.dec_of_special hf] at h ⊢
  split
  · next top =>
    rw [if_pos top] at h
    split
    · next zero => rw [FF.enc, zero, zero_add, top]
    · next some => exact absurd (if_neg some) h
  split
  · next low =>
    rw [low, zero_mul, add_zero]
    by_cases zero : f.fracField x = 0
    · simp [FF.enc, zero]
    · have digits : Nat.log2 (f.fracField x) < f.mb := (Nat.log2_lt zero).mpr frac
      simp only [FF.enc, if_neg zero]
      rw [if_pos (by omega)]
      simp [scale]
  · next normal =>
    have nonzero : 2 ^ f.mb + f.fracField x ≠ 0 := by positivity
    have digits : Nat.log2 (2 ^ f.mb + f.fracField x) = f.mb := (Nat.log2_eq_iff nonzero).mpr ⟨Nat.le_add_right _ _, by rw [pow_succ]; omega⟩
    simp only [FF.enc, if_neg nonzero, digits]
    rw [if_neg (by unfold FF.emin; omega)]
    obtain ⟨n, hn⟩ := Nat.exists_eq_succ_of_ne_zero normal
    rw [show (f.mb : Int) + (f.expField x - f.bias - f.mb) + f.bias = f.expField x by ring, hn]
    simp [scale]
    ring

/-- The pattern of a value that a pattern names keeps to the format's width. -/
theorem FF.enc_dec_lt {x : Nat} (hx : x < 2 ^ f.bits) : f.enc (f.dec x) < 2 ^ f.bits := by
  by_cases nan : f.dec x = .nan
  · rw [nan]
    exact f.nanPat_lt
  · rw [FF.enc_dec hf hx nan]
    exact hx

/-! ## The smaller and the larger operand (R117) -/

/-- The pattern that VFMIN and VFMAX choose: the canonical NaN of two NaNs, the other operand of one, else by an order. -/
theorem FF.enc_pick {pick : FVal → FVal → FVal} {less : Prop} [Decidable less] {x y : Nat} (hx : x < 2 ^ f.bits) (hy : y < 2 ^ f.bits)
    (left : f.dec x = .nan → pick (f.dec x) (f.dec y) = f.dec y) (right : f.dec x ≠ .nan → f.dec y = .nan → pick (f.dec x) (f.dec y) = f.dec x)
    (both : f.dec x ≠ .nan → f.dec y ≠ .nan → pick (f.dec x) (f.dec y) = if less then f.dec x else f.dec y) :
    f.enc (pick (f.dec x) (f.dec y)) =
      if f.dec x = .nan ∧ f.dec y = .nan then f.nanPat else if f.dec x = .nan then y else if f.dec y = .nan then x else if less then x else y := by
  by_cases nx : f.dec x = .nan
  · rw [left nx]
    by_cases ny : f.dec y = .nan
    · rw [if_pos ⟨nx, ny⟩, ny]
      rfl
    · rw [if_neg fun h => ny h.2, if_pos nx, FF.enc_dec hf hy ny]
  · rw [if_neg fun h => nx h.1, if_neg nx]
    by_cases ny : f.dec y = .nan
    · rw [if_pos ny, right nx ny, FF.enc_dec hf hx nx]
    · rw [if_neg ny, both nx ny]
      split
      · exact FF.enc_dec hf hx nx
      · exact FF.enc_dec hf hy ny

omit hf in
theorem FVal.isNan_false {a : FVal} (h : a ≠ .nan) : a.isNan = false := by
  rw [← Bool.not_eq_true, FVal.isNan_iff]
  exact h

theorem FF.enc_min {less : Prop} [dec : Decidable less] {x y : Nat} (hx : x < 2 ^ f.bits) (hy : y < 2 ^ f.bits)
    (order : less ↔ number (f.dec x) < number (f.dec y) ∨ (number (f.dec x) = number (f.dec y) ∧ f.signBit x = true)) :
    f.enc ((f.dec x).min (f.dec y)) =
      if f.dec x = .nan ∧ f.dec y = .nan then f.nanPat else if f.dec x = .nan then y else if f.dec y = .nan then x
      else if less then x else y := by
  refine FF.enc_pick (pick := FVal.min) hf hx hy (fun nx => by simp [FVal.min, nx, FVal.isNan]) (fun nx ny => by simp [FVal.min, ny, FVal.isNan]) fun nx ny => ?_
  have compares := FVal.cmp_compares nx ny
  simp only [order]
  rw [FVal.min, FVal.isNan_false nx, FVal.isNan_false ny, if_neg (by decide), if_neg (by decide)]
  cases h : (f.dec x).cmp (f.dec y) with
  | lt => exact (if_pos (.inl (compares.eq_lt.mp h))).symm
  | gt =>
    have gt := compares.eq_gt.mp h
    exact (if_neg (by rintro (lt | ⟨eq, -⟩); exacts [lt_asymm gt lt, gt.ne' eq])).symm
  | eq =>
    have eq := compares.eq_eq.mp h
    simp only [FF.isNeg_dec hf nx, eq, lt_irrefl, true_and, false_or]

theorem FF.enc_max {less : Prop} [dec : Decidable less] {x y : Nat} (hx : x < 2 ^ f.bits) (hy : y < 2 ^ f.bits)
    (order : less ↔ number (f.dec y) < number (f.dec x) ∨ (number (f.dec x) = number (f.dec y) ∧ ¬ f.signBit x = true)) :
    f.enc ((f.dec x).max (f.dec y)) =
      if f.dec x = .nan ∧ f.dec y = .nan then f.nanPat else if f.dec x = .nan then y else if f.dec y = .nan then x
      else if less then x else y := by
  refine FF.enc_pick (pick := FVal.max) hf hx hy (fun nx => by simp [FVal.max, nx, FVal.isNan]) (fun nx ny => by simp [FVal.max, ny, FVal.isNan]) fun nx ny => ?_
  have compares := FVal.cmp_compares nx ny
  simp only [order]
  rw [FVal.max, FVal.isNan_false nx, FVal.isNan_false ny, if_neg (by decide), if_neg (by decide)]
  cases h : (f.dec x).cmp (f.dec y) with
  | gt => exact (if_pos (.inl (compares.eq_gt.mp h))).symm
  | lt =>
    have lt := compares.eq_lt.mp h
    exact (if_neg (by rintro (gt | ⟨eq, -⟩); exacts [lt_asymm gt lt, lt.ne eq])).symm
  | eq =>
    have eq := compares.eq_eq.mp h
    simp only [FF.isNeg_dec hf nx, eq, lt_irrefl, true_and, false_or]
    cases f.signBit x <;> rfl

/-! ## Classes (R119) -/

/-- The class of a pattern by its fields. -/
theorem FF.cls_eq (x : Nat) : f.cls x =
    if f.expField x = 2 ^ f.eb - 1 then
      (if f.fracField x = 0 then (if f.signBit x = true then 0 else 7) else if f.fracField x < 2 ^ (f.mb - 1) then 8 else 9)
    else if f.expField x = 0 then
      (if f.fracField x = 0 then (if f.signBit x = true then 3 else 4) else if f.signBit x = true then 2 else 5)
    else if f.signBit x = true then 1 else 6 := by
  have normal : (x / 2 ^ f.mb % 2 ^ f.eb != 0) = (f.expField x != 0) := rfl
  have quiet : x % 2 ^ f.mb / 2 ^ (f.mb - 1) = 0 ↔ f.fracField x < 2 ^ (f.mb - 1) := by
    rw [Nat.div_eq_zero_iff]
    simp [FF.fracField]
  unfold FF.cls
  simp only [FF.dec_of_special hf, normal, quiet]
  by_cases top : f.expField x = 2 ^ f.eb - 1
  · rw [if_pos top, if_pos top]
    by_cases zero : f.fracField x = 0
    · rw [if_pos zero, if_pos zero]
    · rw [if_neg zero, if_neg zero]
  rw [if_neg top, if_neg top]
  by_cases low : f.expField x = 0
  · rw [if_pos low, if_pos low]
    by_cases zero : f.fracField x = 0
    · cases f.signBit x <;> simp [zero]
    · have nonzero : (f.fracField x == 0) = false := by simpa using zero
      cases f.signBit x <;> simp only [zero, nonzero, low, bne_self_eq_false] <;> rfl
  · rw [if_neg low, if_neg low]
    have nonzero : (2 ^ f.mb + f.fracField x == 0) = false := by simp
    have isNormal : (f.expField x != 0) = true := by simpa using low
    cases f.signBit x <;> simp only [nonzero, isNormal] <;> rfl

theorem FF.cls_lt (x : Nat) : f.cls x < 10 := by
  rw [FF.cls_eq hf]
  repeat' split
  all_goals decide

end

/-! ## Approximations on their special inputs (R118) -/

/-- Saturation looks at its mode only for whether it is 1. -/
theorem satF_mode (rm sm : Nat) (f : FF) (v : FVal) : satF rm sm f v = satF rm (if sm = 1 then 1 else 0) f v := by
  by_cases h : sm = 1
  · rw [if_pos h, h]
  · cases v <;> simp [satF, h]

/-- A special result converts from FP32 into each format as into that format at once. -/
theorem special_result (sm : Nat) (n : Bool) : ∀ f ∈ [FF.f32, .f16, .bf16], ∀ v ∈ [FVal.nan, .inf n, .fin n 0 0 false, .fin n 1 0 false],
    (if f = .f32 then satF 0 sm .f32 v else fOf 0 sm f 0 (FF.f32.dec (satF 0 sm .f32 v))) = satF 0 sm f v := by
  simp only [fOf, satF_mode 0 sm]
  split <;> cases n <;> decide +kernel

end Sys2Proof.Machine
end

