-- ==== Sys2Proof/Proofs/MaskResults.lean ====
section
/-! PROOFS. Mask results (R108, R110, R42, R43): the bits, the other mask registers and the latch that a written mask group leaves. -/

namespace Sys2Proof.Machine
open Sys2Proof.Claims

/-! ## Bits of a mask group -/

theorem toNat_testBit (x j : Nat) : (x.testBit j).toNat = x / 2 ^ j % 2 := by
  rw [Nat.testBit_eq_decide_div_mod_eq]
  rcases Nat.mod_two_eq_zero_or_one (x / 2 ^ j) with h | h <;> rw [h] <;> rfl

/-- A bit of a mask register whose bits were replaced by cells. -/
theorem getLsbD_packCells (old : MWord) (cells : List (Option Nat)) {j : Nat} (hj : j < 256) :
    ((BitVec.ofNat 256 (packCells 1 old.toNat cells)).getLsbD j).toNat = cellOver 1 (cells[j]?.getD none) (old.getLsbD j).toNat := by
  have pack := packCells_elem 1 cells old.toNat j
  rw [one_mul, pow_one] at pack
  rw [BitVec.getLsbD_ofNat, decide_eq_true hj, Bool.true_and, toNat_testBit, pack, BitVec.getLsbD, toNat_testBit]
  split
  · cases cells[j]?.getD none <;> rfl
  · next h => rw [List.getElem?_eq_none (Nat.le_of_not_lt h)]; rfl

/-- A vector after a run of its elements was replaced. -/
theorem vget_foldl_vset {α : Type} {n : Nat} (v : Vector α n) (r : Nat) (f : Nat → α) (L q : Nat) (d : α) (fits : r + L ≤ n) :
    vget ((List.range L).foldl (fun v k => vset v (r + k) (f k)) v) q d = if r ≤ q ∧ q < r + L then f (q - r) else vget v q d := by
  induction L with
  | zero => rw [if_neg (by omega)]; rfl
  | succ L ih =>
    rw [List.range_succ, List.foldl_append, List.foldl_cons, List.foldl_nil, vget_vset, ih (by omega)]
    by_cases last : r + L = q
    · subst last
      rw [if_pos ⟨rfl, by omega⟩, if_pos (by omega), Nat.add_sub_cancel_left]
    · rw [if_neg fun h => last h.1]
      exact if_congr (by omega) rfl rfl

/-- The cells of a mask group: those of the elements, and the tail policy for the bits from VLMAX up (R110). -/
def maskCells (c : VC) (cells : List (Option Nat)) : List (Option Nat) := cells ++ List.replicate (256 * c.mg - c.max) (if c.ta then some 1 else none)

/-- What cell i of a mask group does to a bit. -/
theorem cellOver_maskCells {c : VC} {cells : List (Option Nat)} (length : cells.length = c.max) {i : Nat} (hi : i < 256 * c.mg) (old : Nat) :
    cellOver 1 ((maskCells c cells)[i]?.getD none) old
      = if i < c.max then cellOver 1 (cells[i]?.getD none) old else if c.ta then 1 else old := by
  rw [maskCells, List.getElem?_append, length]
  split
  · rfl
  · next above =>
    rw [List.getElem?_replicate, if_pos (by omega)]
    cases c.ta <;> rfl

theorem State.putM_fst (s : State) (c : VC) (d : Dst) (cells : List (Option Nat)) :
    (s.putM c d cells).1 = if d.nw then s else s.setHart { s.hart with m := (List.range c.mg).foldl (fun m k => vset m (d.reg.toNat + k)
      (BitVec.ofNat 256 (packCells 1 (vget s.hart.m (d.reg.toNat + k) 0).toNat (((maskCells c cells).drop (k * 256)).take 256)))) s.hart.m } := by
  unfold State.putM
  cases d.nw <;> rfl

theorem State.putM_onlyHart (s : State) (c : VC) (d : Dst) (cells : List (Option Nat)) : OnlyHart s (s.putM c d cells).1 := by
  rw [State.putM_fst]
  split
  · exact onlyHart_of_harts rfl fun _ _ => rfl
  · exact s.setHart_onlyHart _

theorem State.hart_putM (s : State) (c : VC) (d : Dst) (cells : List (Option Nat)) :
    (s.putM c d cells).1.hart = { s.hart with m := (s.putM c d cells).1.hart.m } := by
  rw [State.putM_fst]
  split
  · rfl
  · rw [State.hart_setHart]

/-- The mask registers after a group of them was written. -/
theorem State.vget_putM (s : State) {c : VC} {d : Dst} (write : d.nw = false) (cells : List (Option Nat)) (fits : d.reg.toNat + c.mg ≤ 8) (q : Nat) :
    vget (s.putM c d cells).1.hart.m q 0 = if d.reg.toNat ≤ q ∧ q < d.reg.toNat + c.mg then
      BitVec.ofNat 256 (packCells 1 (vget s.hart.m q 0).toNat (((maskCells c cells).drop ((q - d.reg.toNat) * 256)).take 256))
      else vget s.hart.m q 0 := by
  rw [State.putM_fst, write, if_neg (by decide), State.hart_setHart]
  dsimp only
  rw [vget_foldl_vset _ _ (fun k => BitVec.ofNat 256 (packCells 1 (vget s.hart.m (d.reg.toNat + k) 0).toNat (((maskCells c cells).drop (k * 256)).take 256)))
    _ _ _ fits]
  refine if_ctx_congr Iff.rfl (fun h => ?_) fun _ => rfl
  rw [Nat.add_sub_cancel' h.1]

theorem State.mbit_putM (s : State) {c : VC} {d : Dst} (write : d.nw = false) (cells : List (Option Nat)) (fits : d.reg.toNat + c.mg ≤ 8) {i : Nat}
    (hi : i < 256 * c.mg) :
    ((s.putM c d cells).1.hart.mbit d.reg.toNat i).toNat = cellOver 1 ((maskCells c cells)[i]?.getD none) (s.hart.mbit d.reg.toNat i).toNat := by
  have low : i % 256 < 256 := Nat.mod_lt _ (by decide)
  rw [Hart.mbit, s.vget_putM write cells fits, if_pos (by omega), Nat.add_sub_cancel_left, getLsbD_packCells _ _ low, List.getElem?_take, if_pos low,
    List.getElem?_drop, Nat.div_add_mod']
  rfl

/-- A mask group written by R110 at width SEW, and retired. -/
theorem State.maskDone_of_writeM (s : State) {d : Dst} {sel new : Nat → Bool} (ok : s.vc.mdstOk d = true) :
    MaskDone s (retireP (s.writeM s.vc d sel ((List.range s.vc.max).map fun i => some (new i).toNat))) d sel new := by
  have length : (writeRule s.vc s.lanesOn sel s.vc.sew 1 0 ((List.range s.vc.max).map fun i => some (new i).toNat)).length = s.vc.max := by simp
  have value {i : Nat} (hi : i < s.vc.max) (old : Nat) : cellOver 1
      ((writeRule s.vc s.lanesOn sel s.vc.sew 1 0 ((List.range s.vc.max).map fun i => some (new i).toNat))[i]?.getD none) old
      = afterWrite s s.vc.sew 1 sel i old (new i).toNat :=
    s.cellOver_writeRule s.sew_width 1 (by decide) sel (by simpa using hi)
      (fun _ => ⟨getElem?_map_range (fun i => some (new i).toNat) hi, (Bool.toNat_lt _)⟩) old
  unfold retireP State.writeM
  generalize writeRule s.vc s.lanesOn sel s.vc.sew 1 0 ((List.range s.vc.max).map fun i => some (new i).toNat) = cells at length value
  have bit {i : Nat} (hi : i < 256 * s.vc.mg) (old : Nat) : cellOver 1 ((maskCells s.vc cells)[i]?.getD none) old
      = if i < s.vc.max then afterWrite s s.vc.sew 1 sel i old (new i).toNat else if s.vc.ta then 1 else old := by
    rw [cellOver_maskCells length hi]
    exact if_ctx_congr Iff.rfl (fun h => value h old) fun _ => rfl
  have fits (write : d.nw = false) : d.reg.toNat + s.vc.mg ≤ 8 := by
    simp only [VC.mdstOk, write, Bool.false_eq_true, if_false, Bool.and_eq_true, decide_eq_true_eq] at ok
    exact ok.2
  have one (keep : d.nw = true) : s.vc.mg = 1 := by
    simp only [VC.mdstOk, keep, if_true, Bool.and_eq_true, beq_iff_eq] at ok
    exact ok.1
  have masks : ((s.putM s.vc d cells).1.retire 1 (s.putM s.vc d cells).2).hart.m = (s.putM s.vc d cells).1.hart.m := by rw [State.retire_hart]; simp
  refine ⟨fun write i hi => ?bits, fun r _ other => ?others, ⟨(s.putM s.vc d cells).2, ?path, fun write => ?written, fun keep => ?kept⟩, ?_, ?_, ?_, ?regs,
    onlyHart_trans (s.putM_onlyHart s.vc d cells) (State.retire_onlyHart _ _ _)⟩
  case bits =>
    rw [Hart.mbit, masks]
    exact (s.mbit_putM write cells (fits write) hi).trans (bit hi _)
  case others =>
    rw [masks]
    cases write : d.nw with
    | true => rw [State.putM_fst, if_pos write]
    | false => rw [s.vget_putM write cells (fits write), if_neg (by simp only [write, Bool.false_eq_true, false_or] at other; omega)]
  case path =>
    refine pathDone_of_paths (State.retire_pathDone _ 1 _) (fun p => ?_) ?_
    · rw [State.hart_putM]
      rfl
    · rw [(s.putM_onlyHart s.vc d cells).rest]
  case written =>
    rw [masks]
    simp only [State.putM, write, Bool.false_eq_true, if_false, State.hart_setHart]
  case kept =>
    simp only [State.putM, keep, if_true]
    refine ⟨rfl, fun i hi => ?_⟩
    rw [Latch.mask, BitVec.getLsbD_setWidth, decide_eq_true (by omega), Bool.true_and]
    have cell := getLsbD_packCells 0 (maskCells s.vc cells) hi
    rw [show ((0 : MWord).getLsbD i).toNat = 0 by simp, bit (by rw [one keep]; exact hi)] at cell
    exact cell
  case regs =>
    unfold SameRegs
    rw [State.retire_hart, State.hart_putM]
    cases (s.putM s.vc d cells).1.cur.path <;> rfl
  all_goals rw [State.retire_hart, State.hart_putM]; simp

end Sys2Proof.Machine
end

