-- ==== Sys2Proof/Proofs/VectorMoves.lean ====
section
/-! PROOFS. Vector moves, fills and compares (R115, R120). -/

namespace Sys2Proof.Machine
open Sys2Proof.Claims

/-- The formats of vector elements hold infinities and fill the element. -/
theorem fpFormat_some {u : Bool} {w : Nat} {f : FF} (h : fpFormat u w = some f) : f.special = true ∧ f.bits = w ∧ f ∈ [FF.f32, .f16, .bf16] := by
  unfold fpFormat at h
  split at h
  · next w16 =>
    subst w16
    cases u <;> cases h <;> decide
  · split at h
    · next w32 =>
      simp only [Bool.and_eq_true, decide_eq_true_eq] at w32
      obtain ⟨rfl, -⟩ := w32
      cases h
      decide
    · cases h

/-- A constant of a floating-point format keeps to the element's width. -/
theorem cstF_lt {f : FF} (hf : f ∈ [FF.f32, .f16, .bf16]) (c : BitVec 5) : cstF f (constInt c) < 2 ^ f.bits := by
  revert c
  fin_cases hf <;> decide +kernel

section
variable {s : State} {d : Dst} {a b : Src} {k : MSel} {cst : Int → Nat} {x y : Nat → Nat}

/-- A compare writes one bit for each element. -/
theorem State.vcompare_done {f : Nat → Nat → Bool} {new : Nat → Bool} (ready : SourcesReady s a b k cst x y) (ok : s.vc.mdstOk d = true)
    (value : ∀ i, f (x i) (y i) = new i) :
    ∃ t, s.vcompare d a b k true cst f = .next t ∧ MaskDone s t d (s.sel k) new := by
  obtain ⟨width, srcA, srcB, mask, readA, readB, heldA, heldB⟩ := ready
  refine ⟨_, ?_, s.maskDone_of_writeM ok⟩
  unfold State.vcompare
  simp only [width, ok, srcA, srcB, mask, Bool.and_self, needOp, need_ok, readA, readB, heldA, heldB, bind, Except.bind, value]
  simp only [Bool.toNat, Bool.cond_eq_ite]
  rfl

theorem exec_vbcast_done {c : Src} {z : Word64} (ready : SourcesReady s a b k cst x y) (dst : DstReady s d s.vc.lmul) (operand : s.opnd c = .ok z) :
    ∃ t, exec (.vbcast d c k) s = .next t ∧ VectorDone s t d s.vc.sew s.vc.lmul 1 (s.sel k) (fun _ => z.toNat % 2 ^ s.vc.sew) ∧ t.hart.gens = s.hart.gens := by
  obtain ⟨dstOk, heldD⟩ := dst
  have done := s.vectorDone_of_ready s.hart.gens (sel := s.sel k) (new := fun _ => z.toNat % 2 ^ s.vc.sew) dstOk
    (vals := (List.range s.vc.max).map fun _ => some (z.toNat % 2 ^ s.vc.sew)) (by simp)
    fun i hi _ => ⟨getElem?_map_range _ hi, Nat.mod_lt _ (Nat.two_pow_pos _)⟩
  rw [State.retireP_writeV_setGens_self] at done
  refine ⟨_, ?_, done⟩
  change execVbcast d c k s = _
  unfold execVbcast
  simp only [ready.width, dstOk, ready.mask, Bool.and_self, needOp, need_ok, operand, heldD, bind, Except.bind]
  rfl

end

/-- The integer order of two elements (R120). -/
theorem ICmp.holds_iff (c : ICmp) (x y : Int) :
    c.holds x y = true ↔ match c with | .eq => x = y | .ne => x ≠ y | .lt => x < y | .le => x ≤ y := by
  cases c <;> simp [ICmp.holds]

end Sys2Proof.Machine

namespace Sys2Proof.Claims
open Sys2Proof.Machine

theorem vectorMoveAndFillResults : VectorMoveAndFillResults := by
  intro s d a b c k x y z w ready dst operand
  have small {a : Src} {x : Nat → Nat} (read : s.vsrc s.vc a s.vc.sew (cstI w) = .ok x) := State.vsrc_lt read fun _ => cstI_lt w _
  simp only [List.forall_mem_cons, List.not_mem_nil, false_imp_iff, implies_true, and_true]
  refine ⟨fun chosen => ?merge, ?mv, ?vid, exec_vbcast_done ready dst operand⟩
  case merge =>
    have arm : exec (.vmerge d a b k) s = s.elementwise d a b k false true (k != .none) (cstI w) fun i x y _ _ g => (if s.sel k i then x else y, g) := rfl
    rw [arm, bne_iff_ne.mpr chosen]
    refine State.elementwise_pure (all := true) ready dst (fun i g => rfl) fun i => ?_
    split
    · exact small ready.readA i
    · exact small ready.readB i
  case mv =>
    have arm : exec (.vmv d a k) s = s.elementwise d a Src.absent k false false true (cstI w) fun _ x _ _ _ g => (x, g) := rfl
    rw [arm]
    exact State.elementwise_pure (all := false) (sourcesReady_absent ready) dst (fun i g => rfl) (small ready.readA)
  case vid =>
    have arm : exec (.vid d k) s = s.elementwise d Src.absent Src.absent k false false true (cstI w) fun i _ _ _ _ g => (i % 2 ^ w, g) := rfl
    rw [arm]
    exact State.elementwise_pure (all := false) (sourcesReady_absent_both ready) dst (fun i g => rfl) fun i => Nat.mod_lt _ (Nat.two_pow_pos _)

open Classical in
theorem vectorCompareResults : VectorCompareResults := by
  intro s d a b u k x y cst w num ready ok
  refine ⟨?integers, ?floats⟩
  case integers =>
    rintro rfl
    simp only [List.forall_mem_cons, List.not_mem_nil, false_imp_iff, implies_true, and_true]
    have compares (op : ICmp) {i : Instr} {holds : Nat → Prop} (arm : exec i s = s.vicmp d a b u k op)
        (value : ∀ i, op.holds (num (x i)) (num (y i)) = true ↔ holds i) :
        ∃ t, exec i s = .next t ∧ MaskDone s t d (s.sel k) fun i => decide (holds i) := by
      rw [arm, State.vicmp]
      refine State.vcompare_done ready ok fun i => ?_
      rw [valOf_eq _ s.sew_width.pos, valOf_eq _ s.sew_width.pos, Bool.eq_iff_iff, decide_eq_true_eq]
      exact value i
    exact ⟨compares .eq rfl fun i => ICmp.holds_iff .eq _ _, compares .ne rfl fun i => ICmp.holds_iff .ne _ _, compares .lt rfl fun i => ICmp.holds_iff .lt _ _,
      compares .le rfl fun i => ICmp.holds_iff .le _ _⟩
  case floats =>
    rintro f format rfl p q nan
    simp only [List.forall_mem_cons, List.not_mem_nil, false_imp_iff, implies_true, and_true]
    have compares (op : FCmp) {i : Instr} {holds : Nat → Prop} (arm : exec i s = s.vfcmp d a b u k op)
        (value : ∀ i, op.holds (p i) (q i) = true ↔ holds i) :
        ∃ t, exec i s = .next t ∧ MaskDone s t d (s.sel k) fun i => decide (holds i) := by
      rw [arm, State.vfcmp, format]
      refine State.vcompare_done ready ok fun i => ?_
      rw [Bool.eq_iff_iff, decide_eq_true_eq]
      exact value i
    exact ⟨compares .eq rfl fun i => FVal.eq_iff _ _, compares .lt rfl fun i => FVal.lt_iff _ _, compares .le rfl fun i => FVal.le_iff _ _,
      compares .un rfl fun i => by simp [FCmp.holds, FVal.isNan_iff, nan]⟩

/-- Settles O7: moves and fills are element-wise instructions that draw nothing, and a compare writes the bit of its order on integers or on the numbers that patterns stand for. -/
theorem vectorMoveAndCompareResults : Obligations.VectorMoveAndCompareResults := ⟨vectorMoveAndFillResults, vectorCompareResults⟩

end Sys2Proof.Claims
end

