-- ==== Sys2Proof/Proofs/VectorFloats.lean ====
section
/-! PROOFS. Vector floating-point elements (R116 to R119): one rounding with one draw, the operations on patterns, and the approximations. -/

namespace Sys2Proof.Machine
open Sys2Proof.Claims

theorem State.vsrc_lt_of_format {s : State} {c : VC} {a : Src} {u : Bool} {w : Nat} {f : FF} {x : Nat → Nat} (format : fpFormat u w = some f)
    (read : s.vsrc c a w (cstF f) = .ok x) (i : Nat) : x i < 2 ^ f.bits := by
  obtain ⟨-, bits, wide⟩ := fpFormat_some format
  rw [bits]
  exact State.vsrc_lt read (fun z => bits ▸ cstF_lt wide z) i

section
variable {s : State} {d : Dst} {a b : Src} {u : Bool} {k : MSel} {f : FF} {x y : Nat → Nat}

/-- What an operation that rounds once leaves, given the exact value of each element (R116). -/
def RoundedOnce (s t : State) (d : Dst) (k : MSel) (f : FF) (v : Nat → FVal) : Prop :=
  VectorDone s t d s.vc.sew s.vc.lmul 1 (s.sel k)
    (fun i => fOf (modesOf s.path.fmt).rm (modesOf s.path.fmt).sm f
      (wordOf (modesOf s.path.fmt) (lowLane s s.vc.sew) (Active s s.vc.sew (s.sel k)) s.hart.gens i) (v i))
  ∧ t.hart.gens = drawn (modesOf s.path.fmt) (lowLane s s.vc.sew) (Active s s.vc.sew (s.sel k)) s.hart.gens s.vc.max

/-- An operation on values: the exact result of each active element is rounded once, with one draw. -/
theorem State.vfp_done {readD : Bool} {v : Nat → FVal → FVal → FVal → FVal} (format : fpFormat u s.vc.sew = some f)
    (ready : SourcesReady s a b k (cstF f) x y) (dst : DstReady s d s.vc.lmul)
    (old : readD = true → s.vc.regOk d.reg.toNat s.vc.lmul = true ∧ s.heldRegs d.reg.toNat s.vc.lmul = .ok ()) :
    ∃ t, s.vfp d a b u k readD v = .next t ∧ RoundedOnce s t d k f fun i =>
      v (modesOf s.path.fmt).rm (f.dec (x i)) (f.dec (y i)) (f.dec (s.hart.elem s.vc.vlen d.reg.toNat s.vc.sew i)) := by
  obtain ⟨-, bits, -⟩ := fpFormat_some format
  rw [State.vfp, format]
  exact State.elementwise_done (all := false) (m := modesOf s.path.fmt)
    (v := fun i W => fOf (modesOf s.path.fmt).rm (modesOf s.path.fmt).sm f W
      (v (modesOf s.path.fmt).rm (f.dec (x i)) (f.dec (y i)) (f.dec (s.hart.elem s.vc.vlen d.reg.toNat s.vc.sew i))))
    ready dst old (fun i g => rfl) fun i W => bits ▸ fOf_lt ..

/-- An operation on patterns, which neither rounds nor draws. -/
theorem State.vfpat_done {v : FF → Nat → Nat → Nat} {new : Nat → Nat} (format : fpFormat u s.vc.sew = some f)
    (ready : SourcesReady s a b k (cstF f) x y) (dst : DstReady s d s.vc.lmul) (value : ∀ i, v f (x i) (y i) = new i) (small : ∀ i, new i < 2 ^ f.bits) :
    ∃ t, s.vfpat d a b u k v = .next t ∧ VectorDone s t d s.vc.sew s.vc.lmul 1 (s.sel k) new ∧ t.hart.gens = s.hart.gens := by
  obtain ⟨-, bits, -⟩ := fpFormat_some format
  rw [State.vfpat, format]
  exact State.elementwise_pure (all := false) ready dst (fun i g => congrArg (·, g) (value i)) fun i => bits ▸ small i

end

theorem FF.signBit_iff {f : FF} (x : Nat) : f.signBit x = true ↔ x / 2 ^ (f.bits - 1) % 2 = 1 := by
  rw [FF.signBit, beq_iff_eq, FF.bits, add_assoc, Nat.add_sub_cancel_left]

theorem Approx.result_lt (op : Approx) (sm : Nat) (f : FF) (v : FVal) : op.result sm f v < 2 ^ f.bits := by
  unfold Approx.result
  split
  · next h => exact h ▸ satF_lt ..
  · exact fOf_lt ..

theorem FF.ten_le_bits {f : FF} (wide : f ∈ [FF.f32, .f16, .bf16]) : 10 ≤ f.bits := by fin_cases wide <;> decide

theorem FVal.min_eq_or (a b : FVal) : a.min b = a ∨ a.min b = b := by
  unfold FVal.min
  split
  · exact .inr rfl
  · split
    · exact .inl rfl
    · split
      · exact .inl rfl
      · exact .inr rfl
      · split
        · exact .inl rfl
        · exact .inr rfl

theorem FVal.max_eq_or (a b : FVal) : a.max b = a ∨ a.max b = b := by
  unfold FVal.max
  split
  · exact .inr rfl
  · split
    · exact .inl rfl
    · split
      · exact .inr rfl
      · exact .inl rfl
      · split
        · exact .inr rfl
        · exact .inl rfl

/-- A choice among two values that patterns name has a pattern of the format. -/
theorem FF.enc_lt_of_eq_or {f : FF} (special : f.special = true) {x y : Nat} (hx : x < 2 ^ f.bits) (hy : y < 2 ^ f.bits) {v : FVal}
    (h : v = f.dec x ∨ v = f.dec y) : f.enc v < 2 ^ f.bits := by
  rcases h with rfl | rfl
  · exact FF.enc_dec_lt special hx
  · exact FF.enc_dec_lt special hy

/-- An approximation whose FP32 value is special gives that value in each format. -/
theorem Approx.result_special {op : Approx} {sm : Nat} {f : FF} {x v : FVal} {n : Bool} (hf : f ∈ [FF.f32, .f16, .bf16])
    (hv : v ∈ [FVal.nan, .inf n, .fin n 0 0 false, .fin n 1 0 false]) (value : ∀ p, op.value x p = v) : op.result sm f x = satF 0 sm f v := by
  rw [← special_result sm n f hf v hv, Approx.result, value]

end Sys2Proof.Machine

namespace Sys2Proof.Claims
open Sys2Proof.Machine

/-- Settles O8: each instruction is one shape, which rounds the exact value of an element once by the word that the element draws. -/
theorem vectorFloatArithmeticResults : Obligations.VectorFloatArithmeticResults := by
  intro s d a b u k f x y w format ready dst m act p q z F done
  simp only [List.forall_mem_cons, List.not_mem_nil, false_imp_iff, implies_true, and_true]
  have onTwo {i : Instr} (v : Nat → FVal → FVal → FVal → FVal) (arm : exec i s = s.vfp d a b u k false v) : done i fun i => v m.rm (p i) (q i) (z i) :=
    let ⟨t, next, rounded⟩ := State.vfp_done (readD := false) format ready dst fun h => nomatch h
    ⟨t, arm.trans next, rounded⟩
  refine ⟨⟨onTwo (fun rm x y _ => x.add rm y) rfl, onTwo (fun rm x y _ => x.add rm y.neg) rfl, onTwo (fun _ x y _ => x.mul y) rfl,
    onTwo (fun _ x y _ => x.div y) rfl, ?sqrt⟩, fun regOk held => ?fused⟩
  case sqrt =>
    have arm : exec (.vfsqrt d a u k) s = s.vfp d a Src.absent u k false fun _ x _ _ => x.sqrt := rfl
    obtain ⟨t, next, rounded⟩ := State.vfp_done (readD := false) format (sourcesReady_absent ready) dst fun h => nomatch h
    exact ⟨t, arm.trans next, rounded⟩
  case fused =>
    have onThree {i : Instr} (v : Nat → FVal → FVal → FVal → FVal) (arm : exec i s = s.vfp d a b u k true v) : done i fun i => v m.rm (p i) (q i) (z i) :=
      let ⟨t, next, rounded⟩ := State.vfp_done format ready dst fun _ => ⟨regOk, held⟩
      ⟨t, arm.trans next, rounded⟩
    exact ⟨onThree (fun rm x y z => (x.mul y).add rm z) rfl, onThree (fun rm x y z => (x.mul y).add rm z.neg) rfl,
      onThree (fun rm x y z => z.add rm (x.mul y).neg) rfl⟩

open Classical in
theorem vectorFloatPatternResults : VectorFloatPatternResults := by
  intro s d a b u k f x y w format ready dst p q pick sign top frac cls
  obtain ⟨special, bits, wide⟩ := fpFormat_some format
  have pos : 0 < w := s.sew_width.pos
  have smallA := State.vsrc_lt_of_format format ready.readA
  have smallB := State.vsrc_lt_of_format format ready.readB
  have sign_iff (i : Nat) : f.signBit (x i) = true ↔ sign i := by rw [FF.signBit_iff, bits]
  simp only [List.forall_mem_cons, List.not_mem_nil, false_imp_iff, implies_true, and_true]
  have onTwo {i : Instr} (v : FF → Nat → Nat → Nat) {new : Nat → Nat} (arm : exec i s = s.vfpat d a b u k v) (value : ∀ i, v f (x i) (y i) = new i)
      (small : ∀ i, v f (x i) (y i) < 2 ^ f.bits) := arm ▸ State.vfpat_done format ready dst value fun i => value i ▸ small i
  have onOne {i : Instr} (v : FF → Nat → Nat → Nat) {new : Nat → Nat} (arm : exec i s = s.vfpat d a Src.absent u k v)
      (value : ∀ i, v f (x i) (cstF f 0) = new i) (small : ∀ i, v f (x i) (cstF f 0) < 2 ^ f.bits) :=
    arm ▸ State.vfpat_done format (sourcesReady_absent ready) dst value fun i => value i ▸ small i
  refine ⟨onTwo (fun f x y => f.enc ((f.dec x).min (f.dec y))) rfl (fun i => ?min) fun i => ?minSmall,
    onTwo (fun f x y => f.enc ((f.dec x).max (f.dec y))) rfl (fun i => ?max) fun i => ?maxSmall, onOne (fun f x _ => x % 2 ^ (f.bits - 1)) rfl (fun i => ?abs) fun i => ?absSmall,
    onOne (fun f x _ => x ^^^ 2 ^ (f.bits - 1)) rfl (fun i => ?neg) fun i => ?negSmall, onOne (fun f x _ => 2 ^ f.cls x) rfl (fun i => ?cls) fun i => ?clsSmall⟩
  case min => exact FF.enc_min (dec := propDecidable _) special (smallA i) (smallB i) (by rw [sign_iff])
  case minSmall => exact FF.enc_lt_of_eq_or special (smallA i) (smallB i) (FVal.min_eq_or _ _)
  case max => exact FF.enc_max (dec := propDecidable _) special (smallA i) (smallB i) (by rw [sign_iff])
  case maxSmall => exact FF.enc_lt_of_eq_or special (smallA i) (smallB i) (FVal.max_eq_or _ _)
  case abs => exact bits ▸ rfl
  case absSmall => exact (Nat.mod_lt _ (Nat.two_pow_pos _)).trans_le (Nat.pow_le_pow_right (by decide) (by omega))
  case neg => exact bits ▸ rfl
  case negSmall => exact Nat.xor_lt_two_pow (smallA i) (Nat.pow_lt_pow_right (by decide) (by omega))
  case cls =>
    simp only [FF.cls_eq special, sign_iff]
    rfl
  case clsSmall => exact Nat.pow_lt_pow_right (by decide) ((FF.cls_lt special _).trans_le (FF.ten_le_bits wide))

open Classical in
theorem vectorApproximationResults : VectorApproximationResults := by
  refine ⟨?_, ?_⟩
  · intro s d a b u k f x y w format ready dst
    simp only [List.forall_mem_cons, List.not_mem_nil, false_imp_iff, implies_true, and_true]
    have approximates {i : Instr} (op : Approx) (arm : exec i s = s.vapprox d a u k op) :
        ∃ t, exec i s = .next t ∧ t.hart.gens = s.hart.gens
          ∧ VectorDone s t d w s.vc.lmul 1 (s.sel k) fun i => op.result (modesOf s.path.fmt).sm f (f.dec (x i)) := by
      obtain ⟨t, next, done, gens⟩ := State.vfpat_done (v := fun f x _ => op.result (modesOf s.path.fmt).sm f (f.dec x)) format (sourcesReady_absent ready) dst
        (fun i => rfl) fun i => op.result_lt ..
      exact ⟨t, arm.trans next, gens, done⟩
    exact ⟨approximates .rsq rfl, approximates .rcp rfl, approximates .exp rfl, approximates .log rfl, approximates .tanh rfl, approximates .sin rfl,
      approximates .cos rfl⟩
  · intro f sm n format zero one
    have hf : f ∈ [FF.f32, .f16, .bf16] := by simpa using format
    have table {op : Approx} {x v : FVal} (b : Bool) (hv : v ∈ [FVal.nan, .inf b, .fin b 0 0 false, .fin b 1 0 false]) (value : ∀ p, op.value x p = v) :
        op.result sm f x = satF 0 sm f v := Approx.result_special hf hv value
    have nan {op : Approx} {x : FVal} (value : ∀ p, op.value x p = .nan) := table n (by simp) value
    have inf {op : Approx} {x : FVal} (b : Bool) (value : ∀ p, op.value x p = .inf b) := table b (by simp) value
    have toZero {op : Approx} {x : FVal} (b : Bool) (value : ∀ p, op.value x p = zero b) := table b (by simp [zero]) value
    have toOne {op : Approx} {x : FVal} (b : Bool) (value : ∀ p, op.value x p = one b) := table b (by simp [one]) value
    simp only [List.forall_mem_cons, List.not_mem_nil, false_imp_iff, implies_true, and_true]
    exact ⟨nan fun _ => rfl, nan fun _ => rfl, nan fun _ => rfl, nan fun _ => rfl, nan fun _ => rfl, nan fun _ => rfl, nan fun _ => rfl,
      inf n fun _ => rfl, toZero false fun _ => rfl, nan fun _ => rfl, inf n fun _ => rfl, toZero n fun _ => rfl, toZero false fun _ => rfl, inf false fun _ => rfl,
      inf true fun _ => rfl, nan fun _ => rfl, inf false fun _ => rfl, toZero false fun _ => rfl, toOne n fun _ => rfl, toZero n fun _ => rfl, nan fun _ => rfl,
      toZero n fun _ => rfl, nan fun _ => rfl, toOne false fun _ => rfl⟩

/-- Settles O9: the operations that do not round choose, change or classify a pattern, and an approximation is a function of its operand. -/
theorem vectorFloatPatternAndApproximationResults : Obligations.VectorFloatPatternAndApproximationResults :=
  ⟨vectorFloatPatternResults, vectorApproximationResults⟩

end Sys2Proof.Claims
end

