-- ==== Sys2Proof/Proofs/LengthAndMasks.lean ====
section
/-! PROOFS. The vector length, mask logic and the execution mask (R91, R104, R105, R113, R134, R135). -/

namespace Sys2Proof.Machine
open Sys2Proof.Claims

/-! ## Setting the length (R113) -/

/-- The fields of a type lie in its low six bits (R104). -/
theorem extractLsb'_setWidth_low (ty : BitVec 6) (i n : Nat) (h : i + n ≤ 6) : (ty.setWidth 64).extractLsb' i n = ty.extractLsb' i n := by
  apply BitVec.eq_of_getLsbD_eq
  intro j hj
  simp only [BitVec.getLsbD_extractLsb', BitVec.getLsbD_setWidth]
  rw [decide_eq_true (show i + j < 64 by omega), Bool.true_and]

theorem vlmaxOf_setWidth (bank : Bool) (ty : BitVec 6) :
    vlmaxOf bank (ty.setWidth 64) = (if bank then 512 else 2048) / (8 * 2 ^ (ty.extractLsb' 0 2).toNat) * 2 ^ (ty.extractLsb' 2 2).toNat := by
  rw [← extractLsb'_setWidth_low ty 0 2 (by decide), ← extractLsb'_setWidth_low ty 2 2 (by decide)]
  rfl

/-! ## Mask logic (R134) -/

section
variable {s : State} {d : Dst} {a b : Src} {k : MSel} {x y : Nat → Bool}

theorem State.maskOp_two_done {f : Bool → Bool → Bool} (width : s.sewOk s.vc = true) (dst : s.vc.mdstOk d = true) (srcA : s.vc.msrcOk a = true)
    (srcB : s.vc.msrcOk b = true) (readA : s.msrc a = .ok x) (readB : s.msrc b = .ok y) :
    ∃ t, s.maskOp d a b true f = .next t ∧ MaskDone s t d (fun _ => true) fun i => f (x i) (y i) := by
  refine ⟨_, ?_, s.maskDone_of_writeM dst⟩
  unfold State.maskOp
  simp only [width, dst, srcA, srcB, Bool.not_true, Bool.false_or, Bool.and_self, needOp, need_ok, readA, readB, bind, Except.bind, if_true]
  simp only [Bool.toNat, Bool.cond_eq_ite]
  rfl

theorem State.maskOp_one_done {f : Bool → Bool → Bool} (width : s.sewOk s.vc = true) (dst : s.vc.mdstOk d = true) (srcA : s.vc.msrcOk a = true)
    (readA : s.msrc a = .ok x) :
    ∃ t, s.maskOp d a Src.absent false f = .next t ∧ MaskDone s t d (fun _ => true) fun i => f (x i) (x i) := by
  refine ⟨_, ?_, s.maskDone_of_writeM dst⟩
  unfold State.maskOp
  simp only [width, dst, srcA, Bool.not_false, Bool.true_or, Bool.and_self, needOp, need_ok, readA, bind, Except.bind, Bool.false_eq_true, if_false]
  simp only [Bool.toNat, Bool.cond_eq_ite]
  rfl

open Classical in
/-- The active positions whose bit is 1. -/
theorem State.maskHits_eq (width : s.sewOk s.vc = true) (dst : s.vc.nwOk d = true) (src : s.vc.msrcOk a = true) (mask : s.vc.selOk k = true)
    (read : s.msrc a = .ok x) :
    s.maskHits d a k = .ok ((List.range s.vc.max).filter fun i => decide (Active s s.vc.sew (s.sel k) i) && x i) := by
  unfold State.maskHits
  simp only [width, dst, src, mask, Bool.and_self, needOp, need_ok, read, bind, Except.bind, s.active_eq_decide s.sew_width]
  rfl

/-! ## The execution mask (R135) -/

/-- EMGET into a mask register. -/
theorem exec_emget_mask (dst : s.vc.nwOk d = true) : ∃ t, exec (.emget d true) s = .next t ∧ PathDone s t 1 (Latch.mask (s.path.emask.setWidth 256))
    ∧ (∀ r < 8, vget t.hart.m r 0 = if r = d.reg.toNat ∧ d.nw = false then s.path.emask.setWidth 256 else vget s.hart.m r 0)
    ∧ t.hart.s = s.hart.s ∧ t.hart.v = s.hart.v ∧ SameRegs s t ∧ OnlyHart s t := by
  have arm : exec (.emget d true) s = .next ((if d.nw then s else s.setHart { s.hart with m := vset s.hart.m d.reg.toNat (s.path.emask.setWidth 256) }).retire 1
      (.mask (s.path.emask.setWidth 256))) := by
    change execEmget d true s = _
    unfold execEmget
    simp only [needOp, need_ok dst, bind, Except.bind]
    rfl
  refine ⟨_, arm, ?_⟩
  cases d.nw with
  | true =>
    rw [if_pos rfl]
    refine ⟨s.retire_pathDone 1 _, fun r _ => ?_, ?_, ?_, ?_, s.retire_onlyHart 1 _⟩
    · rw [State.retire_hart, if_neg (by simp)]
      simp
    · simp [State.retire_hart]
    · simp [State.retire_hart]
    · unfold SameRegs
      rw [State.retire_hart]
      cases s.cur.path <;> rfl
  | false =>
    rw [if_neg (by decide)]
    refine ⟨pathDone_of_paths (State.retire_pathDone _ 1 _) (fun p => by rw [State.hart_setHart]; rfl) rfl, fun r hr => ?_, ?_, ?_, ?_,
      onlyHart_trans (s.setHart_onlyHart _) (State.retire_onlyHart _ 1 _)⟩
    · rw [State.retire_hart, State.hart_setHart, Hart.forget_m, Hart.setPath_m, vget_vset]
      exact if_congr (by simp only [and_true]; omega) rfl rfl
    · simp [State.retire_hart]
    · simp [State.retire_hart]
    · unfold SameRegs
      rw [State.retire_hart, State.hart_setHart, State.setHart_cur]
      cases s.cur.path <;> rfl

end

end Sys2Proof.Machine

namespace Sys2Proof.Claims
open Sys2Proof.Machine

theorem setLengthResults : SetLengthResults := by
  intro s d a b n ty operand vlen vl s' dst
  have result : s.setLength d ty n = s'.retireS 1 d vl := by
    simp only [State.setLength, vlmaxOf_setWidth]
    rfl
  refine ⟨⟨_, ?immediate, s'.retireS_scalarDone 1 d vl⟩, fun type => ⟨_, ?register, s'.retireS_scalarDone 1 d vl⟩⟩
  case immediate =>
    change execSetvli d a ty s = _
    unfold execSetvli
    simp only [needOp, need_ok dst, operand, bind, Except.bind, result]
    rfl
  case register =>
    have high : (ty.setWidth 64).extractLsb' 6 58 = 0 := by
      apply BitVec.eq_of_getLsbD_eq
      intro j hj
      simp [BitVec.getLsbD_extractLsb', BitVec.getLsbD_setWidth]
    have low : (ty.setWidth 64).setWidth 6 = ty := by simp
    change execSetvl d a b s = _
    unfold execSetvl
    simp only [needOp, need_ok dst, operand, type, high, low, beq_self_eq_true, need_ok, bind, Except.bind, result]
    rfl

open Classical in
theorem maskLogicAndExecutionMaskResults : MaskLogicAndExecutionMaskResults := by
  intro s d a b c k x y z m width srcA readA hits
  refine ⟨fun dst => ⟨?not, fun srcB readB => ?two⟩, fun mask dst => ?scalar, fun dst => ⟨_, ?emget, s.retireS_scalarDone 1 d _⟩, exec_emget_mask,
    fun operand => ⟨_, ?emset, State.retire_passed _ 1⟩, fun operand => ⟨_, ?emsetMask, State.retire_passed _ 1⟩⟩
  case not =>
    have arm : exec (.mnot d a) s = s.maskOp d a Src.absent false fun x _ => !x := rfl
    exact arm ▸ State.maskOp_one_done width dst srcA readA
  case two =>
    have logic {i : Instr} (f : Bool → Bool → Bool) (arm : exec i s = s.maskOp d a b true f) :
        ∃ t, exec i s = .next t ∧ MaskDone s t d (fun _ => true) fun i => f (x i) (y i) := arm ▸ State.maskOp_two_done width dst srcA srcB readA readB
    simp only [List.forall_mem_cons, List.not_mem_nil, false_imp_iff, implies_true, and_true]
    exact ⟨logic (fun x y => x && y) rfl, logic (fun x y => x || y) rfl, logic (fun x y => x != y) rfl, logic (fun x y => x && !y) rfl⟩
  case scalar =>
    have found := State.maskHits_eq width dst srcA mask readA
    refine ⟨⟨_, ?pop, s.retireS_scalarDone 1 d _⟩, ⟨_, ?first, s.retireS_scalarDone 1 d _⟩⟩
    case pop =>
      change execMpop d a k s = _
      unfold execMpop
      rw [found]
      rfl
    case first =>
      change execMfirst d a k s = _
      unfold execMfirst
      rw [found]
      change Host.Outcome.next (s.retireS 1 d (match hits with | [] => _ | i :: _ => _)) = _
      cases hits <;> rfl
  case emget =>
    change execEmget d false s = _
    unfold execEmget
    simp only [needOp, need_ok dst, bind, Except.bind]
    rfl
  case emset =>
    change execEmset c false s = _
    unfold execEmset
    simp only [operand, bind, Except.bind, Bool.false_eq_true, if_false]
    rfl
  case emsetMask =>
    change execEmset c true s = _
    unfold execEmset
    simp only [operand, bind, Except.bind, if_true]
    rfl

/-- Settles O15: the length instructions retire the length that they take, mask logic writes a mask group by R110, the counts are scalars of the active set bits, and EMSET keeps to the path's lanes. -/
theorem lengthAndMaskResults : Obligations.LengthAndMaskResults := ⟨setLengthResults, maskLogicAndExecutionMaskResults⟩

end Sys2Proof.Claims
end

