-- ==== Sys2Proof/Proofs/VectorReductions.lean ====
section
/-! PROOFS. Reductions and segmented scans (R127 to R129). -/

namespace Sys2Proof.Machine
open Sys2Proof.Claims

/-! ## What a reduction leaves -/

open Classical in
/-- Element i of the destination of a reduction to r, over what it held (R127). -/
noncomputable def reducedCell (s : State) (r i old : Nat) : Nat :=
  if s.vc.vl = 0 ∨ ¬ LanesOn s s.vc.sew i then old else if i = 0 then r else if s.vc.ta then 2 ^ s.vc.sew - 1 else old

theorem reduceCells_length (s : State) (r : Nat) : (reduceCells s.vc s.lanesOn r).length = s.vc.vlen / s.vc.sew := by
  have := s.vlen_div_pos s.sew_width
  unfold reduceCells
  dsimp only
  split
  · exact List.length_replicate
  · rw [writeRule_length, List.length_cons, List.length_replicate, Nat.sub_add_cancel this]

theorem cellOver_reduceCells (s : State) {r i : Nat} (small : r < 2 ^ s.vc.sew) (hi : i < s.vc.vlen / s.vc.sew) (old : Nat) :
    cellOver s.vc.sew ((reduceCells s.vc s.lanesOn r)[i]?.getD none) old = reducedCell s r i old := by
  have ones : 2 ^ s.vc.sew - 1 < 2 ^ s.vc.sew := Nat.sub_lt (Nat.two_pow_pos _) one_pos
  unfold reduceCells reducedCell
  dsimp only
  by_cases empty : s.vc.vl = 0
  · rw [if_pos empty, if_pos (.inl empty), List.getElem?_replicate, if_pos hi]
    rfl
  rw [if_neg empty, writeRule_get]
  by_cases lanes : laneOn s.vc.vlen s.lanesOn i s.vc.sew = true
  · have on : ¬ (s.vc.vl = 0 ∨ ¬ LanesOn s s.vc.sew i) := not_or.mpr ⟨empty, not_not.mpr ((s.laneOn_iff s.sew_width i).mp lanes)⟩
    rw [if_neg on]
    cases i with
    | zero => simp [lanes, cellOver_some _ _ small]
    | succ i =>
      have inside : i < s.vc.vlen / s.vc.sew - 1 := by omega
      cases s.vc.ta <;> simp [lanes, inside, cellOver_some _ _ ones]
  · have off : s.vc.vl = 0 ∨ ¬ LanesOn s s.vc.sew i := .inr fun on => lanes ((s.laneOn_iff s.sew_width i).mpr on)
    rw [if_pos off]
    cases h : (some r :: List.replicate (s.vc.vlen / s.vc.sew - 1) none)[i]? <;> simp [lanes]

section
variable {s : State} {d : Dst} {a b : Src} {k : MSel} {cst : Int → Nat} {x y : Nat → Nat}

/-- The sources and the destination of a reduction. -/
structure ReduceReady (s : State) (d : Dst) (a b : Src) (k : MSel) (cst : Int → Nat) (x y : Nat → Nat) : Prop where
  width : s.sewOk s.vc = true
  dst : s.vc.dstOk d 1 = true
  srcA : s.vc.srcOk a s.vc.lmul = true
  srcB : s.vc.srcOk b 1 = true
  mask : s.vc.selOk k = true
  readA : s.vsrc s.vc a s.vc.sew cst = .ok x
  readB : s.vsrc s.vc b s.vc.sew cst = .ok y
  heldA : s.heldSrc a s.vc.lmul = .ok ()
  heldB : s.heldSrc b 1 = .ok ()
  heldD : s.heldDst d 1 = .ok ()

open Classical in
/-- A reduction to r: element 0 of one register takes it, where `vl` is not 0. -/
theorem State.reduce_done {f : VC → Nat → List (Nat × Bool) → Gens → Nat × Gens} {r : Nat} {g : Gens} (ready : ReduceReady s d a b k cst x y)
    (value : s.vc.vl ≠ 0 → f s.vc (y 0) ((List.range s.vc.max).map fun i => (x i, decide (Active s s.vc.sew (s.sel k) i))) s.hart.gens = (r, g))
    (idle : s.vc.vl = 0 → g = s.hart.gens) (small : r < 2 ^ s.vc.sew) :
    ∃ t, s.reduce d a b k true cst f = .next t
      ∧ Written s t d s.vc.sew 1 1 (s.vc.vlen / s.vc.sew) (reducedCell s r) ∧ t.hart.gens = g := by
  obtain ⟨width, dst, srcA, srcB, mask, readA, readB, heldA, heldB, heldD⟩ := ready
  have done := s.written_of_cells g (d := d) (w := s.vc.sew) (L := 1) s.sew_width (reduceCells_length s r) (VC.fits_of_dstOk dst)
    (fun _ => (Nat.mul_div_le _ _).trans s.vlen_le) fun i hi old => cellOver_reduceCells s small hi old
  refine ⟨_, ?_, done⟩
  unfold State.reduce
  simp only [width, dst, srcA, srcB, mask, Bool.and_self, needOp, need_ok, readA, readB, heldA, heldB, heldD, bind, Except.bind, s.active_eq_decide s.sew_width]
  by_cases empty : s.vc.vl = 0
  · have any (r r' : Nat) : reduceCells s.vc s.lanesOn r = reduceCells s.vc s.lanesOn r' := by
      unfold reduceCells
      rw [if_pos empty, if_pos empty]
    rw [if_pos empty, idle empty, any r 0]
    rfl
  · rw [if_neg empty, value empty]
    rfl

end

/-- A fold over the elements that take part is a fold over their values. -/
theorem foldl_taking {β : Type} (f : β → Nat → β) (x : Nat → Nat) (act : Nat → Bool) (z : β) (l : List Nat) :
    ((l.map fun i => (x i, act i)).filter (·.2)).foldl (fun r p => f r p.1) z = ((l.filter act).map x).foldl f z := by
  rw [List.filter_map, List.foldl_map, List.foldl_map]
  rfl

/-! ## Integer reductions -/

theorem valOf_modEq (p w : Nat) (u : Bool) : valOf p w u ≡ p [ZMOD 2 ^ w] := by
  have low : ((p % 2 ^ w : Nat) : Int) ≡ p [ZMOD 2 ^ w] := by push_cast; exact Int.mod_modEq _ _
  unfold valOf
  dsimp only
  split
  · exact low
  · exact (Int.sub_modulus_modEq_iff.mpr rfl).trans low

theorem patOf_of_modEq {v : Int} {n w : Nat} (h : v ≡ n [ZMOD 2 ^ w]) : patOf v w = n % 2 ^ w := by
  rw [patOf, h.eq]
  exact_mod_cast Int.toNat_natCast (n % 2 ^ w)

theorem foldl_add_modEq (w : Nat) (u : Bool) (l : List Nat) {v : Int} {n : Nat} (h : v ≡ n [ZMOD 2 ^ w]) :
    l.foldl (fun r x => r + valOf x w u) v ≡ (l.foldl (· + ·) n : Nat) [ZMOD 2 ^ w] := by
  induction l generalizing v n with
  | nil => exact h
  | cons x l ih =>
    refine ih ?_
    push_cast
    exact h.add (valOf_modEq x w u)

theorem patOf_elemNum (u : Bool) {w p : Nat} (hp : p < 2 ^ w) : patOf (elemNum u (BitVec.ofNat w p)) w = p := by
  rw [patOf_of_ofInt (ofInt_elemNum u (BitVec.ofNat w p)), BitVec.toNat_ofNat, Nat.mod_eq_of_lt hp]

/-- A fold of a choice between two keys reaches a key of the list that is extreme in an order. -/
theorem foldl_choice {le : Int → Int → Prop} (refl : ∀ a, le a a) (trans : ∀ a b c, le a b → le b c → le a c) {f : Int → Int → Int}
    (choice : ∀ a b, (f a b = a ∧ le b a) ∨ (f a b = b ∧ le a b)) (key : Nat → Int) (l : List Nat) (z : Nat) :
    ∃ top ∈ z :: l, l.foldl (fun r x => f r (key x)) (key z) = key top ∧ ∀ p ∈ z :: l, le (key p) (key top) := by
  induction l generalizing z with
  | nil => exact ⟨z, List.mem_cons_self, rfl, fun p hp => by rw [List.mem_singleton.mp hp]; exact refl _⟩
  | cons x l ih =>
    rw [List.foldl_cons]
    rcases choice (key z) (key x) with ⟨eq, below⟩ | ⟨eq, below⟩ <;> rw [eq]
    · obtain ⟨top, mem, fold, most⟩ := ih z
      have first := most z List.mem_cons_self
      refine ⟨top, ?_, fold, fun p hp => ?_⟩
      · rcases List.mem_cons.mp mem with rfl | mem
        · exact List.mem_cons_self
        · exact List.mem_cons_of_mem _ (List.mem_cons_of_mem _ mem)
      · rcases List.mem_cons.mp hp with rfl | hp
        · exact first
        · rcases List.mem_cons.mp hp with rfl | hp
          · exact trans _ _ _ below first
          · exact most p (List.mem_cons_of_mem _ hp)
    · obtain ⟨top, mem, fold, most⟩ := ih x
      refine ⟨top, List.mem_cons_of_mem _ mem, fold, fun p hp => ?_⟩
      rcases List.mem_cons.mp hp with rfl | hp
      · exact trans _ _ _ below (most x List.mem_cons_self)
      · exact most p hp

/-! ## Floating-point reductions -/

/-- A fold of a choice between two values reaches a value that a pattern of the format names. -/
theorem foldl_pick_dec {f : FF} {pick : FVal → FVal → FVal} (choice : ∀ a b, pick a b = a ∨ pick a b = b) (l : List Nat) (small : ∀ p ∈ l, p < 2 ^ f.bits)
    {z : Nat} (hz : z < 2 ^ f.bits) : ∃ p < 2 ^ f.bits, (l.map f.dec).foldl pick (f.dec z) = f.dec p := by
  induction l generalizing z with
  | nil => exact ⟨z, hz, rfl⟩
  | cons x l ih =>
    have rest := fun p hp => small p (List.mem_cons_of_mem _ hp)
    rw [List.map_cons, List.foldl_cons]
    rcases choice (f.dec z) (f.dec x) with eq | eq <;> rw [eq]
    · exact ih rest hz
    · exact ih rest (small x List.mem_cons_self)

/-! ## Scans (R129) -/

/-- The running value of a scan at an element, from the value that each active element makes of the one before it. -/
def scanVal (head act : Nat → Bool) (v : Nat → Nat → Nat) : Nat → Nat
  | 0 => if act 0 then v 0 0 else 0
  | i + 1 => if act (i + 1) then v (i + 1) (if head (i + 1) then 0 else scanVal head act v i) else if head (i + 1) then 0 else scanVal head act v i

/-- The running value before an element: 0 at a head and at the first element. -/
def scanBefore (head act : Nat → Bool) (v : Nat → Nat → Nat) (i : Nat) : Nat := if head i = true ∨ i = 0 then 0 else scanVal head act v (i - 1)

theorem scanVal_eq (head act : Nat → Bool) (v : Nat → Nat → Nat) (i : Nat) :
    scanVal head act v i = if act i then v i (scanBefore head act v i) else scanBefore head act v i := by
  cases i <;> simp [scanVal, scanBefore]

/-- A scan over consecutive elements, each active one of which draws a word by its lane. -/
theorem scanFrom_range' {m : Modes} {lane : Nat → Nat} {step : Nat → Nat → Nat → Gens → Nat × Gens} {x : Nat → Nat} {v : Nat → Nat → Nat → Nat}
    (head act : Nat → Bool) (hstep : ∀ i acc g, step i acc (x i) g = (v i acc (m.word (lane i) g).1, (m.word (lane i) g).2)) (g : Gens) (k a : Nat) {acc : Nat}
    (before : (if head a then 0 else acc) = scanBefore head act (fun i acc => v i acc (wordOf m lane (act · = true) g i)) a) :
    scanFrom head act step x (List.range' a k) acc (drawn m lane (act · = true) g a)
      = ((List.range' a k).map fun i => some (scanVal head act (fun i acc => v i acc (wordOf m lane (act · = true) g i)) i),
          drawn m lane (act · = true) g (a + k)) := by
  induction k generalizing a acc with
  | zero => rfl
  | succ k ih =>
    have next : (if head (a + 1) then 0 else scanVal head act (fun i acc => v i acc (wordOf m lane (act · = true) g i)) a)
        = scanBefore head act (fun i acc => v i acc (wordOf m lane (act · = true) g i)) (a + 1) := by
      unfold scanBefore
      cases head (a + 1) <;> simp
    have rest := ih (a + 1) next
    rw [List.range'_succ, List.map_cons, scanFrom, before, ← Nat.add_assoc, Nat.add_right_comm]
    rw [scanVal_eq] at rest ⊢
    by_cases on : act a = true
    · rw [if_pos on] at rest ⊢
      rw [if_pos on, hstep, m.word_drawn lane g on]
      dsimp only
      rw [rest]
    · rw [if_neg on] at rest ⊢
      rw [if_neg on, ← drawn_succ_of_not m lane g on]
      dsimp only
      rw [rest]

theorem scanFrom_range {m : Modes} {lane : Nat → Nat} {step : Nat → Nat → Nat → Gens → Nat × Gens} {x : Nat → Nat} {v : Nat → Nat → Nat → Nat}
    (head act : Nat → Bool) (hstep : ∀ i acc g, step i acc (x i) g = (v i acc (m.word (lane i) g).1, (m.word (lane i) g).2)) (g : Gens) (n : Nat) :
    scanFrom head act step x (List.range n) 0 g
      = ((List.range n).map fun i => some (scanVal head act (fun i acc => v i acc (wordOf m lane (act · = true) g i)) i), drawn m lane (act · = true) g n) := by
  have run := scanFrom_range' head act hstep g n 0 (acc := 0) (by simp [scanBefore])
  rwa [← List.range_eq_range', Nat.zero_add] at run

section
variable {s : State} {d : Dst} {a b : Src} {k : MSel} {cst : Int → Nat} {x : Nat → Nat} {h : Nat → Bool}

/-- A scan: the running values are written by R110. -/
theorem State.scan_done {step : Nat → Nat → Nat → Gens → Nat × Gens} {m : Modes} {v : Nat → Nat → Nat → Nat} (width : s.sewOk s.vc = true)
    (dst : DstReady s d s.vc.lmul) (srcA : s.vc.srcOk a s.vc.lmul = true) (srcB : s.vc.msrcOk b = true) (mask : s.vc.selOk k = true)
    (readA : s.vsrc s.vc a s.vc.sew cst = .ok x) (readB : s.msrc b = .ok h) (heldA : s.heldSrc a s.vc.lmul = .ok ())
    (hstep : ∀ i acc g, step i acc (x i) g = (v i acc (m.word (lowLane s s.vc.sew i) g).1, (m.word (lowLane s s.vc.sew i) g).2))
    (small : ∀ i acc W, v i acc W < 2 ^ s.vc.sew) :
    ∃ t new, s.scan d a b k true cst step = .next t ∧ VectorDone s t d s.vc.sew s.vc.lmul 1 (s.sel k) new
      ∧ t.hart.gens = drawn m (lowLane s s.vc.sew) (Active s s.vc.sew (s.sel k)) s.hart.gens s.vc.max
      ∧ ∀ i, (Active s s.vc.sew (s.sel k) i → new i = v i (if h i = true ∨ i = 0 then 0 else new (i - 1))
            (wordOf m (lowLane s s.vc.sew) (Active s s.vc.sew (s.sel k)) s.hart.gens i))
          ∧ (¬ Active s s.vc.sew (s.sel k) i → new i = if h i = true ∨ i = 0 then 0 else new (i - 1)) := by
  obtain ⟨dstOk, heldD⟩ := dst
  have run := scanFrom_range h (s.vc.active s.lanesOn (s.sel k) s.vc.sew) hstep s.hart.gens s.vc.max
  rw [s.active_eq s.sew_width] at run
  generalize newEq : scanVal h (s.vc.active s.lanesOn (s.sel k) s.vc.sew)
    (fun i acc => v i acc (wordOf m (lowLane s s.vc.sew) (Active s s.vc.sew (s.sel k)) s.hart.gens i)) = new at run
  have active {i : Nat} (on : Active s s.vc.sew (s.sel k) i) : new i = v i (if h i = true ∨ i = 0 then 0 else new (i - 1))
      (wordOf m (lowLane s s.vc.sew) (Active s s.vc.sew (s.sel k)) s.hart.gens i) := by
    rw [← newEq, scanVal_eq, if_pos ((s.active_iff s.sew_width _ i).mpr on)]
    rfl
  have idle {i : Nat} (off : ¬ Active s s.vc.sew (s.sel k) i) : new i = if h i = true ∨ i = 0 then 0 else new (i - 1) := by
    rw [← newEq, scanVal_eq, if_neg fun on => off ((s.active_iff s.sew_width _ i).mp on)]
    rfl
  have done := s.vectorDone_of_ready (drawn m (lowLane s s.vc.sew) (Active s s.vc.sew (s.sel k)) s.hart.gens s.vc.max) (sel := s.sel k) (new := new) dstOk
    (vals := (List.range s.vc.max).map fun i => some (new i)) (by simp) fun i hi on => ⟨getElem?_map_range _ hi, active on ▸ small i _ _⟩
  refine ⟨_, new, ?_, done.1, done.2, fun i => ⟨active, idle⟩⟩
  unfold State.scan
  simp only [width, dstOk, srcA, srcB, mask, Bool.and_self, needOp, need_ok, readA, readB, heldA, heldD, bind, Except.bind, run]
  rfl

end

end Sys2Proof.Machine

namespace Sys2Proof.Claims
open Sys2Proof.Machine

open Classical in
theorem vectorReductionResults : VectorReductionResults := by
  intro s d a b u k cst x y w E width dst srcA srcB mask readA readB heldA heldB heldD takes parts cell num done
  have ready : ReduceReady s d a b k cst x y := ⟨width, dst, srcA, srcB, mask, readA, readB, heldA, heldB, heldD⟩
  refine ⟨?integers, ?floats⟩
  case integers =>
    rintro rfl
    have pos : 0 < w := s.sew_width.pos
    have smallA := State.vsrc_lt readA fun _ => cstI_lt w _
    have smallB := State.vsrc_lt readB fun _ => cstI_lt w _
    have reduces {i : Instr} (f : Int → Int → Int) {r : Nat} (arm : exec i s = s.vred d a b u k f)
        (value : patOf (parts.foldl (fun r x => f r (valOf x w u)) (valOf (y 0) w u)) w = r) (small : r < 2 ^ w) : done i r := by
      obtain ⟨t, next, written, gens⟩ := State.reduce_done (f := fun _ y xs g => (patOf ((xs.filter (·.2)).foldl (fun r x => f r (valOf x.1 w u)) (valOf y w u)) w, g))
        ready (r := r) (g := s.hart.gens) (fun _ => by rw [foldl_taking (fun r x => f r (valOf x w u)), ← value]) (fun _ => rfl) small
      exact ⟨t, arm.trans next, written, gens⟩
    have partsSmall : ∀ p ∈ y 0 :: parts, p < 2 ^ w := by
      simp only [List.forall_mem_cons, List.mem_map, parts]
      exact ⟨smallB 0, fun p ⟨i, _, hp⟩ => hp ▸ smallA i⟩
    have extreme {le : Int → Int → Prop} (refl : ∀ a, le a a) (trans : ∀ a b c, le a b → le b c → le a c) {i : Instr} (f : Int → Int → Int)
        (choice : ∀ a b, (f a b = a ∧ le b a) ∨ (f a b = b ∧ le a b)) (arm : exec i s = s.vred d a b u k f) :
        ∃ top ∈ y 0 :: parts, (∀ z ∈ y 0 :: parts, le (num z) (num top)) ∧ done i top := by
      obtain ⟨top, mem, fold, most⟩ := foldl_choice refl trans choice (fun p => valOf p w u) parts (y 0)
      refine ⟨top, mem, fun z hz => ?_, reduces f arm ?_ (partsSmall top mem)⟩
      · have le := most z hz
        rwa [valOf_eq_elemNum pos, valOf_eq_elemNum pos] at le
      · rw [fold, valOf_eq_elemNum pos, patOf_elemNum u (partsSmall top mem)]
    have sum := patOf_of_modEq (foldl_add_modEq w u parts (valOf_modEq (y 0) w u))
    refine ⟨List.forall_mem_singleton.mpr (reduces (fun x y => x + y) rfl sum (Nat.mod_lt _ (Nat.two_pow_pos _))), ?_⟩
    obtain ⟨hi, memHi, most, doneHi⟩ := extreme (le := (· ≤ ·)) le_refl (fun _ _ _ => le_trans) (fun x y => if x ≤ y then y else x)
      (fun a b => by grind) (rfl : exec (.vredmax d a b u k) s = _)
    obtain ⟨lo, memLo, least, doneLo⟩ := extreme (le := (· ≥ ·)) (fun a => le_refl a) (fun _ _ _ => ge_trans) (fun x y => if x ≤ y then x else y)
      (fun a b => by grind) (rfl : exec (.vredmin d a b u k) s = _)
    exact ⟨hi, memHi, lo, memLo, fun z hz => ⟨most z hz, least z hz⟩, doneHi, doneLo⟩
  case floats =>
    rintro f format rfl m rm leaves add lane0 sum draws
    obtain ⟨special, (bits : f.bits = s.vc.sew), -⟩ := fpFormat_some format
    have smallA := State.vsrc_lt_of_format format readA
    have smallB := State.vsrc_lt_of_format format readB
    refine ⟨?sum, ?picks⟩
    case sum =>
      have arm : exec (.vfredsum d a b u k) s = execVfredsum d a b u k s := rfl
      rw [arm, execVfredsum, format]
      refine State.reduce_done ready (fun full => ?_) (fun empty => if_neg fun h => h.2 empty) (bits ▸ fOf_lt ..)
      have word : m.word 0 s.hart.gens = (if draws then lane0.1 else 0, if draws then lane0.2 else s.hart.gens) := by
        by_cases sr : m.rm = rSR
        · rw [if_pos ⟨sr, full⟩, if_pos ⟨sr, full⟩, Modes.word, if_pos sr]
        · rw [if_neg fun h => sr h.1, if_neg fun h => sr h.1, Modes.word, if_neg sr]
      have formed : m.F f 0 sum s.hart.gens = (fOf m.rm m.sm f (if draws then lane0.1 else 0) sum, if draws then lane0.2 else s.hart.gens) := by
        rw [Modes.F, word]
      rw [List.map_map]
      exact formed
    case picks =>
      have picks {i : Instr} (pick : FVal → FVal → FVal) (choice : ∀ a b, pick a b = a ∨ pick a b = b) (arm : exec i s = s.vfpick d a b u k pick) :
          done i (f.enc ((parts.map f.dec).foldl pick (f.dec (y 0)))) := by
        have partsSmall : ∀ p ∈ parts, p < 2 ^ f.bits := by
          simp only [List.mem_map, parts]
          exact fun p ⟨i, _, hp⟩ => hp ▸ smallA i
        obtain ⟨p, small, fold⟩ := foldl_pick_dec choice parts partsSmall (smallB 0)
        obtain ⟨t, next, written, gens⟩ := State.reduce_done (f := fun _ y xs g =>
            (f.enc ((xs.filter (·.2)).foldl (fun r x => pick r (f.dec x.1)) (f.dec y)), g))
          ready (r := f.enc ((parts.map f.dec).foldl pick (f.dec (y 0)))) (g := s.hart.gens)
          (fun _ => by rw [foldl_taking (fun r x => pick r (f.dec x)), List.foldl_map (f := f.dec)]) (fun _ => rfl) (by rw [fold]; exact bits ▸ FF.enc_dec_lt special small)
        rw [State.vfpick, format] at arm
        exact ⟨t, arm.trans next, written, gens⟩
      simp only [List.forall_mem_cons, List.not_mem_nil, false_imp_iff, implies_true, and_true]
      exact ⟨picks FVal.max FVal.max_eq_or rfl, picks FVal.min FVal.min_eq_or rfl⟩

open Classical in
theorem vectorScanResults : VectorScanResults := by
  intro s d a b u k cst x h w width dst srcA srcB mask readA readB heldA act
  refine ⟨?integers, ?floats⟩
  case integers =>
    rintro rfl
    obtain ⟨t, new, next, done, gens, value⟩ := State.scan_done (m := noDraws) (v := fun i acc _ => (acc + x i) % 2 ^ w) width dst srcA srcB mask readA readB heldA
      (step := fun _ acc x g => ((acc + x) % 2 ^ w, g)) (fun i acc g => rfl) fun i acc W => Nat.mod_lt _ (Nat.two_pow_pos _)
    exact ⟨t, new, next, done, gens.trans (drawn_noDraws ..), fun i _ => value i⟩
  case floats =>
    rintro f format rfl m
    obtain ⟨-, (bits : f.bits = s.vc.sew), -⟩ := fpFormat_some format
    obtain ⟨t, new, next, done, gens, value⟩ := State.scan_done (m := m) (v := fun i acc W => fOf m.rm m.sm f W ((f.dec acc).add m.rm (f.dec (x i))))
      width dst srcA srcB mask readA readB heldA (step := fun i acc x g => m.F f (laneOf s.vc.vlen i s.vc.sew) ((f.dec acc).add m.rm (f.dec x)) g)
      (fun i acc g => rfl) fun i acc W => bits ▸ fOf_lt ..
    have arm : exec (.vfscan d a b u k) s = execVfscan d a b u k s := rfl
    rw [execVfscan, format] at arm
    exact ⟨t, new, arm.trans next, done, gens, fun i _ => value i⟩

/-- Settles O12: a reduction writes the value of its fold into element 0, and a scan writes its running values by R110. -/
theorem vectorReductionAndScanResults : Obligations.VectorReductionAndScanResults := ⟨vectorReductionResults, vectorScanResults⟩

end Sys2Proof.Claims
end

