-- ==== Sys2Proof/Proofs/VectorPermutations.lean ====
section
/-! PROOFS. Permutations (R130 to R132): slides, gather, compress and iota. -/

namespace Sys2Proof.Machine
open Sys2Proof.Claims

/-! ## Results that draw nothing -/

/-- A register group of the type in force written by cells. -/
theorem State.written_of_ready (s : State) {d : Dst} {cells : List (Option Nat)} {after : Nat → Nat → Nat} (ok : s.vc.dstOk d s.vc.lmul = true)
    (length : cells.length = s.vc.max) (value : ∀ i < s.vc.max, ∀ old, cellOver s.vc.sew (cells[i]?.getD none) old = after i old) :
    (retireP (s.putV s.vc d s.vc.sew s.vc.lmul cells)).hart.gens = s.hart.gens
      ∧ Written s (retireP (s.putV s.vc d s.vc.sew s.vc.lmul cells)) d s.vc.sew s.vc.lmul 1 s.vc.max after := by
  have done := s.written_of_cells s.hart.gens s.sew_width length (VC.fits_of_dstOk ok) (fun keep => s.short_of_lmul (VC.lmul_of_dstOk ok keep)) value
  rw [State.retireP_putV_setGens_self] at done
  exact done.symm

/-- A result of the type in force by the table of R110. -/
theorem State.vectorDone_of_ready_pure (s : State) {d : Dst} {sel : Nat → Bool} {new : Nat → Nat} (ok : s.vc.dstOk d s.vc.lmul = true)
    (small : ∀ i, new i < 2 ^ s.vc.sew) :
    VectorDone s (retireP (s.writeV s.vc d sel s.vc.sew s.vc.lmul ((List.range s.vc.max).map fun i => some (new i)))) d s.vc.sew s.vc.lmul 1 sel new
      ∧ (retireP (s.writeV s.vc d sel s.vc.sew s.vc.lmul ((List.range s.vc.max).map fun i => some (new i)))).hart.gens = s.hart.gens := by
  have done := s.vectorDone_of_ready s.hart.gens (sel := sel) (new := new) ok (vals := (List.range s.vc.max).map fun i => some (new i)) (by simp)
    fun i hi _ => ⟨getElem?_map_range _ hi, small i⟩
  rw [State.retireP_writeV_setGens_self] at done
  exact done

/-! ## Slides (R130) -/

/-- The cells of a slide: those of R110, but none where an element has no value, whatever the policies. -/
def State.slideCells (s : State) (k : MSel) (vals : List (Option Nat)) : List (Option Nat) :=
  ((writeRule s.vc s.lanesOn (s.sel k) s.vc.sew (2 ^ s.vc.sew - 1) 0 vals).zip vals).map fun p => if p.2.isNone then none else p.1

open Classical in
/-- What a slide leaves in element i. -/
noncomputable def slidAfter (s : State) (k : MSel) (val : Nat → Option Nat) (i old : Nat) : Nat :=
  match val i with
  | none => old
  | some new => afterWrite s s.vc.sew (2 ^ s.vc.sew - 1) (s.sel k) i old new

theorem slidAfter_none (s : State) (k : MSel) {val : Nat → Option Nat} {i : Nat} (h : val i = none) (old : Nat) : slidAfter s k val i old = old := by
  rw [slidAfter, h]

theorem slidAfter_some (s : State) (k : MSel) {val : Nat → Option Nat} {i new : Nat} (h : val i = some new) (old : Nat) :
    slidAfter s k val i old = afterWrite s s.vc.sew (2 ^ s.vc.sew - 1) (s.sel k) i old new := by
  rw [slidAfter, h]

theorem State.slideCells_length (s : State) (k : MSel) (vals : List (Option Nat)) : (s.slideCells k vals).length = vals.length := by
  simp [State.slideCells]

theorem State.cellOver_slideCells (s : State) (k : MSel) (val : Nat → Option Nat) (small : ∀ i v, val i = some v → v < 2 ^ s.vc.sew) {n i : Nat} (hi : i < n)
    (old : Nat) : cellOver s.vc.sew ((s.slideCells k ((List.range n).map val))[i]?.getD none) old = slidAfter s k val i old := by
  have length : i < (writeRule s.vc s.lanesOn (s.sel k) s.vc.sew (2 ^ s.vc.sew - 1) 0 ((List.range n).map val)).length := by simpa using hi
  rw [State.slideCells, List.getElem?_map, List.zip, List.getElem?_zipWith, getElem?_map_range val hi, List.getElem?_eq_getElem length]
  cases value : val i with
  | none => rw [slidAfter_none s k value]; rfl
  | some new =>
    have rule := s.cellOver_writeRule s.sew_width s.vc.sew (Nat.sub_lt (Nat.two_pow_pos _) one_pos) (s.sel k) (vals := (List.range n).map val) (by simpa using hi)
      (fun _ => ⟨by rw [getElem?_map_range _ hi, value], small i new value⟩) old
    rw [List.getElem?_eq_getElem length] at rule
    rw [slidAfter_some s k value]
    exact rule

section
variable {s : State} {d : Dst} {a b c : Src} {k : MSel} {x y : Nat → Nat} {n : Word64}

theorem State.slide_done {f : Nat → (Nat → Nat) → Nat → Nat → Option Nat} (ready : SourcesReady s a b k (cstI s.vc.sew) x y)
    (dst : DstReady s d s.vc.lmul) (apart : dstMeets d s.vc.lmul a s.vc.lmul = false) (count : s.opnd c = .ok n)
    (small : ∀ i v, f s.vc.max x n.toNat i = some v → v < 2 ^ s.vc.sew) :
    ∃ t, s.slide d a c k f = .next t ∧ t.hart.gens = s.hart.gens
      ∧ Written s t d s.vc.sew s.vc.lmul 1 s.vc.max (slidAfter s k (f s.vc.max x n.toNat)) := by
  obtain ⟨dstOk, heldD⟩ := dst
  refine ⟨_, ?_, s.written_of_ready dstOk (by rw [State.slideCells_length, List.length_map, List.length_range])
    fun i hi old => s.cellOver_slideCells k _ small hi old⟩
  unfold State.slide
  simp only [ready.width, dstOk, ready.srcA, ready.mask, apart, Bool.not_false, Bool.and_self, needOp, need_ok, ready.readA, count, ready.heldA, heldD, bind,
    Except.bind]
  rfl

end

/-! ## Places (R131, R133) -/

/-- What each position of a list gets when values are placed in order at the positions that hold. -/
theorem placeAt_eq_map (pos : Nat → Bool) (fill : Option Nat) (off : Nat → Option Nat) {is : List Nat} (distinct : is.Nodup) (xs : List Nat) :
    placeAt pos fill off is xs = is.map fun i => if pos i then (xs[(is.filter pos).idxOf i]?).elim fill some else off i := by
  induction is generalizing xs with
  | nil => rfl
  | cons i is ih =>
    obtain ⟨new, distinct⟩ := List.nodup_cons.mp distinct
    have rest (xs' : List Nat) (at_ : ∀ j ∈ is, pos j = true → xs'[(is.filter pos).idxOf j]? = xs[((i :: is).filter pos).idxOf j]?) :
        placeAt pos fill off is xs' = is.map fun j => if pos j then (xs[((i :: is).filter pos).idxOf j]?).elim fill some else off j := by
      rw [ih distinct]
      refine List.map_congr_left fun j hj => ?_
      split
      · next here => rw [at_ j hj here]
      · rfl
    rw [List.map_cons]
    unfold placeAt
    by_cases here : pos i = true
    · have later : ∀ j ∈ is, ((i :: is).filter pos).idxOf j = (is.filter pos).idxOf j + 1 := fun j hj => by
        rw [List.filter_cons_of_pos here, List.idxOf_cons_ne _ (ne_of_mem_of_not_mem hj new).symm]
      rw [if_pos here, if_pos here, List.filter_cons_of_pos here, List.idxOf_cons_self, ← List.filter_cons_of_pos here]
      cases xs with
      | nil => exact congrArg _ (rest [] fun j _ _ => rfl)
      | cons x xs => exact congrArg _ (rest xs fun j hj _ => by rw [later j hj, List.getElem?_cons_succ])
    · rw [if_neg here, if_neg here]
      exact congrArg _ (rest xs fun j _ _ => by rw [List.filter_cons_of_neg here])

theorem placeAt_range (pos : Nat → Bool) (fill : Option Nat) (off : Nat → Option Nat) (xs : List Nat) {n i : Nat} (hi : i < n) :
    (placeAt pos fill off (List.range n) xs)[i]?.getD none
      = if pos i then (xs[((List.range n).filter pos).idxOf i]?).elim fill some else off i := by
  rw [placeAt_eq_map pos fill off List.nodup_range xs, getElem?_map_range _ hi, Option.getD_some]

theorem placeAt_length (pos : Nat → Bool) (fill : Option Nat) (off : Nat → Option Nat) (n : Nat) (xs : List Nat) :
    (placeAt pos fill off (List.range n) xs).length = n := by
  rw [placeAt_eq_map pos fill off List.nodup_range xs, List.length_map, List.length_range]

open Classical in
/-- What R110 leaves at a position that is not active. -/
theorem State.cellOver_tailCell (s : State) {w i : Nat} (hw : ElemWidth w) (old : Nat) :
    cellOver w (s.vc.tailCell s.lanesOn w i) old = if LanesOn s w i ∧ s.vc.vl ≤ i ∧ s.vc.ta = true then 2 ^ w - 1 else old := by
  unfold VC.tailCell
  simp only [Bool.and_eq_true, decide_eq_true_eq, s.laneOn_iff hw, and_assoc]
  split
  · exact cellOver_some _ _ (Nat.sub_lt (Nat.two_pow_pos _) one_pos)
  · rfl

/-! ## Iota (R132) -/

/-- The number of positions below i that count. -/
def countBelow (counts : Nat → Bool) (i : Nat) : Nat := ((List.range i).filter counts).length

theorem countBelow_succ (counts : Nat → Bool) (i : Nat) : countBelow counts (i + 1) = if counts i then countBelow counts i + 1 else countBelow counts i := by
  unfold countBelow
  rw [List.range_succ, List.filter_append, List.length_append]
  cases h : counts i <;> simp [h]

theorem iotaFrom_range' (bit act : Nat → Bool) (k a : Nat) :
    iotaFrom bit act (List.range' a k) (countBelow (fun j => bit j && act j) a) = (List.range' a k).map (countBelow fun j => bit j && act j) := by
  induction k generalizing a with
  | zero => rfl
  | succ k ih => rw [List.range'_succ, List.map_cons, iotaFrom, ← countBelow_succ (fun j => bit j && act j), ih]

theorem iotaFrom_range (bit act : Nat → Bool) (n : Nat) :
    iotaFrom bit act (List.range n) 0 = (List.range n).map (countBelow fun j => bit j && act j) := by
  rw [List.range_eq_range']
  exact iotaFrom_range' bit act n 0

end Sys2Proof.Machine

namespace Sys2Proof.Claims
open Sys2Proof.Machine

open Classical in
/-- Settles O13: a slide or a gather chooses each element's source, VCOMPRESS places the chosen elements in order, and VIOTA counts below each position. -/
theorem vectorPermutationResults : Obligations.VectorPermutationResults := by
  intro s d a b c mk k x y n h w max L ready dst apart count done
  obtain ⟨width, srcA, srcB, mask, (readA : s.vsrc s.vc a s.vc.sew (cstI s.vc.sew) = .ok x), (readB : s.vsrc s.vc b s.vc.sew (cstI s.vc.sew) = .ok y), heldA,
    heldB⟩ := id ready
  obtain ⟨(dstOk : s.vc.dstOk d s.vc.lmul = true), (heldD : s.heldDst d s.vc.lmul = .ok ())⟩ := id dst
  have smallA := State.vsrc_lt readA fun _ => cstI_lt w _
  have zero : 0 < 2 ^ w := Nat.two_pow_pos w
  refine ⟨?up, ?down, ?gather, ?compress, ?iota⟩
  case up =>
    obtain ⟨t, next, gens, written⟩ := State.slide_done (f := fun _ x n i => if n ≤ i then some (x (i - n)) else none) ready dst apart count
      fun i v value => by
        split at value
        · exact Option.some.inj value ▸ smallA _
        · cases value
    refine ⟨t, next, gens, ?_⟩
    convert written using 3 with i old
    by_cases below : i < n.toNat
    · rw [if_pos below, slidAfter_none s k (if_neg (Nat.not_le_of_lt below))]
    · rw [if_neg below, slidAfter_some s k (if_pos (Nat.le_of_not_lt below))]
  case down =>
    obtain ⟨t, next, gens, written⟩ := State.slide_done (f := fun m x n i => some (if i + n < m then x (i + n) else 0)) ready dst apart count
      fun i v value => by
        rw [← Option.some.inj value]
        split
        · exact smallA _
        · exact zero
    exact ⟨t, next, written, gens⟩
  case gather =>
    intro apartB
    have small (i : Nat) : (if y i < max then x (y i) else 0) < 2 ^ w := by
      split
      · exact smallA _
      · exact zero
    refine ⟨_, ?_, s.vectorDone_of_ready_pure dstOk small⟩
    have arm : exec (.vrgather d a b k) s = execVrgather d a b k s := rfl
    rw [arm, execVrgather]
    simp only [width, dstOk, srcA, srcB, mask, show dstMeets d s.vc.lmul a s.vc.lmul = false from apart, show dstMeets d s.vc.lmul b s.vc.lmul = false from apartB,
      Bool.not_false, Bool.and_self, needOp, need_ok, readA, readB, heldA, heldB, heldD, bind, Except.bind]
    rfl
  case compress =>
    intro masked places chosen
    have cell : ∀ i < max, ∀ old, cellOver w ((placeAt (s.vc.active s.lanesOn (fun _ => true) w) (if s.vc.ta then some (2 ^ w - 1) else none)
        (s.vc.tailCell s.lanesOn w) (List.range max) (((List.range max).filter (s.vc.active s.lanesOn (s.sel k) w)).map x))[i]?.getD none) old
        = if i ∈ places then (match chosen[places.idxOf i]? with | some j => x j | none => if s.vc.ta then 2 ^ w - 1 else old)
          else if LanesOn s w i ∧ s.vc.ta = true then 2 ^ w - 1 else old := by
      intro i hi old
      have inPlaces : i ∈ places ↔ Active s w (fun _ => true) i := by simp [places, hi]
      rw [placeAt_range _ _ _ _ hi, s.active_eq_decide s.sew_width, s.active_eq_decide s.sew_width, List.getElem?_map]
      by_cases on : Active s w (fun _ => true) i
      · rw [if_pos (decide_eq_true on), if_pos (inPlaces.mpr on)]
        show cellOver w ((chosen[places.idxOf i]?.map x).elim _ some) old = _
        cases chosen[places.idxOf i]? with
        | some j => exact cellOver_some _ _ (smallA j)
        | none =>
          cases s.vc.ta
          · rfl
          · exact cellOver_some _ _ (Nat.sub_lt zero one_pos)
      · have tail : LanesOn s w i → s.vc.vl ≤ i := fun lanes => Nat.le_of_not_lt fun below => on ⟨lanes, below, rfl⟩
        rw [if_neg fun h => on (of_decide_eq_true h), if_neg fun h => on (inPlaces.mp h), s.cellOver_tailCell s.sew_width]
        exact if_congr ⟨fun ⟨lanes, _, ta⟩ => ⟨lanes, ta⟩, fun ⟨lanes, ta⟩ => ⟨lanes, tail lanes, ta⟩⟩ rfl rfl
    refine ⟨_, ?_, s.written_of_ready dstOk (placeAt_length ..) cell⟩
    have arm : exec (.vcompress d a k) s = execVcompress d a k s := rfl
    rw [arm, execVcompress]
    simp only [bne_iff_ne.mpr masked, width, dstOk, srcA, mask, show dstMeets d s.vc.lmul a s.vc.lmul = false from apart, Bool.not_false, Bool.and_self, needOp,
      need_ok, readA, heldA, heldD, bind, Except.bind]
    rfl
  case iota =>
    intro maskSrc readM
    have counts (i : Nat) : countBelow (fun j => h j && s.vc.active s.lanesOn (s.sel k) w j) i
        = ((List.range i).filter fun j => decide (Active s w (s.sel k) j) && h j).length := by
      have act : s.vc.active s.lanesOn (s.sel k) w = fun j => decide (Active s w (s.sel k) j) := s.active_eq_decide s.sew_width _
      simp only [countBelow, act, Bool.and_comm]
    refine ⟨_, ?_, s.vectorDone_of_ready_pure dstOk fun i => Nat.mod_lt _ zero⟩
    have arm : exec (.viota d mk k) s = execViota d mk k s := rfl
    rw [arm, execViota]
    simp only [width, dstOk, maskSrc, mask, Bool.and_self, needOp, need_ok, readM, heldD, bind, Except.bind, iotaFrom_range, List.map_map]
    simp only [← counts]
    rfl

end Sys2Proof.Claims
end

