-- ==== Sys2Proof/Proofs/VectorSort.lean ====
section
/-! PROOFS. Sorting (R133): the stable sort of the active positions, and the two registers that VSORTK writes. -/

namespace Sys2Proof.Machine
open Sys2Proof.Claims

/-! ## The sort on positions -/

/-- Inserts a position behind every position that is not to come after it. -/
def insertPosition (before : Nat → Nat → Bool) (i : Nat) : List Nat → List Nat
  | [] => [i]
  | j :: js => if before i j then i :: j :: js else j :: insertPosition before i js

/-- The stable sort of positions that `sortPairs` carries out on their keys and payloads. -/
def sortPositions (before : Nat → Nat → Bool) (is : List Nat) : List Nat := is.foldl (fun acc i => insertPosition before i acc) []

theorem insertPair_map (before : Nat → Nat → Bool) (x y : Nat → Nat) (i : Nat) (js : List Nat) :
    insertPair before (x i, y i) (js.map fun j => (x j, y j)) = (insertPosition (fun i j => before (x i) (x j)) i js).map fun j => (x j, y j) := by
  induction js with
  | nil => rfl
  | cons j js ih =>
    rw [List.map_cons, insertPair, insertPosition, ih]
    split <;> rfl

theorem sortPairs_map (before : Nat → Nat → Bool) (x y : Nat → Nat) (is : List Nat) :
    sortPairs before (is.map fun i => (x i, y i)) = (sortPositions (fun i j => before (x i) (x j)) is).map fun i => (x i, y i) := by
  rw [sortPairs, sortPositions, List.foldl_map]
  exact List.foldl_hom (List.map fun i => (x i, y i)) (l := is) (init := []) fun acc i => insertPair_map before x y i acc

theorem insertPosition_perm (before : Nat → Nat → Bool) (i : Nat) (js : List Nat) : (insertPosition before i js).Perm (i :: js) := by
  induction js with
  | nil => exact .refl _
  | cons j js ih =>
    rw [insertPosition]
    split
    · exact .refl _
    · exact (ih.cons j).trans (.swap i j js)

theorem sortPositions_append (before : Nat → Nat → Bool) (is : List Nat) (i : Nat) :
    sortPositions before (is ++ [i]) = insertPosition before i (sortPositions before is) := by
  rw [sortPositions, List.foldl_append]
  rfl

theorem sortPositions_perm (before : Nat → Nat → Bool) (is : List Nat) : (sortPositions before is).Perm is := by
  induction is using List.reverseRecOn with
  | nil => exact .refl _
  | append_singleton is i ih =>
    rw [sortPositions_append]
    exact (insertPosition_perm before i _).trans ((ih.cons i).trans (List.perm_append_singleton i is).symm)

/-- The order of a stable sort: by the key, and equal keys by position. -/
def StableBy (key : Nat → Int) (i j : Nat) : Prop := key i < key j ∨ (key i = key j ∧ i < j)

section
variable {before : Nat → Nat → Bool} {key : Nat → Int}

theorem insertPosition_stable (compares : ∀ i j, before i j = true ↔ key i < key j) {i : Nat} {js : List Nat} (sorted : js.Pairwise (StableBy key))
    (last : ∀ j ∈ js, j < i) : (insertPosition before i js).Pairwise (StableBy key) := by
  induction js with
  | nil => exact List.pairwise_singleton _ _
  | cons j js ih =>
    obtain ⟨first, rest⟩ := List.pairwise_cons.mp sorted
    rw [insertPosition]
    split
    · next less =>
      have less := (compares i j).mp less
      refine List.pairwise_cons.mpr ⟨fun q hq => .inl ?_, sorted⟩
      rcases List.mem_cons.mp hq with rfl | hq
      · exact less
      · rcases first q hq with below | ⟨equal, _⟩
        · exact less.trans below
        · exact equal ▸ less
    · next notLess =>
      refine List.pairwise_cons.mpr ⟨fun q hq => ?_, ih rest fun j hj => last j (List.mem_cons_of_mem _ hj)⟩
      rcases List.mem_cons.mp ((insertPosition_perm before i js).mem_iff.mp hq) with rfl | hq
      · rcases lt_or_eq_of_le (not_lt.mp (mt (compares q j).mpr notLess)) with below | equal
        · exact .inl below
        · exact .inr ⟨equal, last j List.mem_cons_self⟩
      · exact first q hq

theorem sortPositions_stable (compares : ∀ i j, before i j = true ↔ key i < key j) {is : List Nat} (increasing : is.Pairwise (· < ·)) :
    (sortPositions before is).Pairwise (StableBy key) := by
  induction is using List.reverseRecOn with
  | nil => exact .nil
  | append_singleton is i ih =>
    obtain ⟨front, -, last⟩ := List.pairwise_append.mp increasing
    rw [sortPositions_append]
    exact insertPosition_stable compares (ih front) fun j hj => last j ((sortPositions_perm before is).mem_iff.mp hj) i (List.mem_singleton.mpr rfl)

end

/-! ## The registers of VSORTK -/

open Classical in
/-- Element i of a register that takes the values of an order at the active positions, over what it held. -/
noncomputable def sortedCell (s : State) (order : List Nat) (g : Nat → Nat) (i old : Nat) : Nat :=
  match (if i ∈ (List.range s.vc.max).filter (fun i => decide (Active s 32 (fun _ => true) i))
    then order[((List.range s.vc.max).filter fun i => decide (Active s 32 (fun _ => true) i)).idxOf i]? else none) with
  | some j => g j
  | none => if LanesOn s 32 i ∧ s.vc.vl ≤ i ∧ s.vc.ta = true then 2 ^ 32 - 1 else old

/-- The cells that VSORTK writes into one register. -/
def State.sortCells (s : State) (values : List Nat) : List (Option Nat) :=
  placeAt (s.vc.active s.lanesOn (fun _ => true) 32) none (s.vc.tailCell s.lanesOn 32) (List.range s.vc.max) values

theorem State.cellOver_sortCells (s : State) (order : List Nat) {g : Nat → Nat} (small : ∀ i, g i < 2 ^ 32) {i : Nat} (hi : i < s.vc.max) (old : Nat) :
    cellOver 32 ((s.sortCells (order.map g))[i]?.getD none) old = sortedCell s order g i old := by
  have hw : ElemWidth 32 := .inr (.inr (.inl rfl))
  classical
  rw [State.sortCells, placeAt_range _ _ _ _ hi, s.active_eq_decide hw, List.getElem?_map, sortedCell]
  by_cases on : Active s 32 (fun _ => true) i
  · have inside : ¬ (LanesOn s 32 i ∧ s.vc.vl ≤ i ∧ s.vc.ta = true) := fun tail => Nat.not_le_of_lt on.2.1 tail.2.1
    rw [if_pos (decide_eq_true on), if_pos (by simp [hi, on]), if_neg inside]
    cases order[((List.range s.vc.max).filter fun i => decide (Active s 32 (fun _ => true) i)).idxOf i]? with
    | some j => exact cellOver_some _ _ (small j)
    | none => rfl
  · rw [if_neg fun h => on (of_decide_eq_true h), if_neg (by simp [on]), s.cellOver_tailCell hw]

/-- An element of the first register of a group lies in it alone. -/
theorem Hart.elem_congr_reg {h h' : Hart} {vlen r w i : Nat} (hi : i < vlen / w) (same : vget h'.v r 0 = vget h.v r 0) : h'.elem vlen r w i = h.elem vlen r w i := by
  unfold Hart.elem
  rw [Nat.div_eq_of_lt hi, Nat.add_zero, same]

/-- The state after VSORTK has written the registers d and d + 1 by cells. -/
def State.putPair (s : State) (d : BitVec 6) (first second : List (Option Nat)) : State :=
  ((s.putV s.vc ⟨d, false⟩ 32 1 first).1.putV s.vc ⟨d + 1, false⟩ 32 1 second).1

section
variable (s : State) {d : BitVec 6} (first second : List (Option Nat))

theorem State.putPair_vectorsOnly : VectorsOnly s (s.putPair d first second) := (State.putV_vectorsOnly ..).trans (State.putV_vectorsOnly ..)

theorem toNat_add_one_of_lt (below : d.toNat + 1 < 32) : (d + 1).toNat = d.toNat + 1 := by bv_omega

theorem State.putPair_v : (s.putPair d first second).hart.v
    = ((s.putV s.vc ⟨d, false⟩ 32 1 first).1.hart.putCells s.vc.vlen (d + 1).toNat 32 second 1).v := State.putV_v _ _ rfl ..

theorem State.putFirst_v : (s.putV s.vc ⟨d, false⟩ 32 1 first).1.hart.v = (s.hart.putCells s.vc.vlen d.toNat 32 first 1).v := State.putV_v _ _ rfl ..

theorem State.vget_putPair_others (below : d.toNat + 1 < 32) {r : Nat} (notFirst : r ≠ d.toNat) (notSecond : r ≠ d.toNat + 1) :
    vget (s.putPair d first second).hart.v r 0 = vget s.hart.v r 0 := by
  have next := toNat_add_one_of_lt below
  rw [State.putPair_v, Hart.putCells_others _ _ (by omega) (by omega), State.putFirst_v, Hart.putCells_others _ _ (by omega) (by omega)]

theorem State.elem_putPair_first (below : d.toNat + 1 < 32) {i : Nat} (hi : i < s.vc.vlen / 32) :
    (s.putPair d first second).hart.elem s.vc.vlen d.toNat 32 i = cellOver 32 (first[i]?.getD none) (s.hart.elem s.vc.vlen d.toNat 32 i) := by
  have next := toNat_add_one_of_lt below
  have kept : vget (s.putPair d first second).hart.v d.toNat 0 = vget (s.hart.putCells s.vc.vlen d.toNat 32 first 1).v d.toNat 0 := by
    rw [State.putPair_v, Hart.putCells_others _ _ (by omega) (by omega), State.putFirst_v]
  rw [Hart.elem_congr_reg hi kept, Hart.elem_putCells_eq _ _ (by omega) (by decide) s.vlen_le (by omega)]

theorem State.elem_putPair_second (below : d.toNat + 1 < 32) {i : Nat} (hi : i < s.vc.vlen / 32) :
    (s.putPair d first second).hart.elem s.vc.vlen (d.toNat + 1) 32 i = cellOver 32 (second[i]?.getD none) (s.hart.elem s.vc.vlen (d.toNat + 1) 32 i) := by
  have kept : vget (s.putV s.vc ⟨d, false⟩ 32 1 first).1.hart.v (d.toNat + 1) 0 = vget s.hart.v (d.toNat + 1) 0 := by
    rw [State.putFirst_v, Hart.putCells_others _ _ (by omega) (by omega)]
  rw [Hart.elem_congr (s.putPair_v first second), toNat_add_one_of_lt below, Hart.elem_putCells_eq _ _ (by omega) (by decide) s.vlen_le (by omega),
    Hart.elem_congr_reg hi kept]

end

end Sys2Proof.Machine

namespace Sys2Proof.Claims
open Sys2Proof.Machine

open Classical in
/-- Settles O14: the keys with their payloads are placed by the stable sort of the active positions. -/
theorem vectorSortResults : Obligations.VectorSortResults := by
  intro s d a b u e x y group sew lmul even below ready apartA apartB held num places
  obtain ⟨width, srcA, srcB, mask, readA, readB, heldA, heldB⟩ := ready
  rw [sew] at readA readB
  rw [lmul] at heldA heldB
  have hw : ElemWidth 32 := .inr (.inr (.inl rfl))
  have max : s.vc.max = s.vc.vlen / 32 := by rw [s.max_eq, lmul, sew, one_mul]
  let key := fun i => if e then - valOf (x i) 32 u else valOf (x i) 32 u
  let before := fun p q => if e then decide (valOf q 32 u < valOf p 32 u) else decide (valOf p 32 u < valOf q 32 u)
  have compares : ∀ i j, before (x i) (x j) = true ↔ key i < key j := by cases e <;> simp [before, key]
  let order := sortPositions (fun i j => before (x i) (x j)) places
  let t := (s.putPair d (s.sortCells (order.map x)) (s.sortCells (order.map y))).retire 1 Latch.none
  have run : exec (.vsortk d a b u e) s = .next t := by
    have arm : exec (.vsortk d a b u e) s = execVsortk d a b u e s := rfl
    have places : (List.range s.vc.max).filter (s.vc.active s.lanesOn (fun _ => true) 32) = places := by rw [s.active_eq_decide hw]
    rw [arm, execVsortk]
    simp only [group, sew, lmul, even, apartA, apartB, Bool.not_false, beq_self_eq_true, Bool.and_self, needOp, need_ok, readA, readB, heldA, heldB, held, bind,
      Except.bind, places, sortPairs_map, List.map_map]
    rfl
  have written := s.putPair_vectorsOnly (d := d) (s.sortCells (order.map x)) (s.sortCells (order.map y))
  refine ⟨t, order, run, written.pathDone 1 _, written.frame 1 _, written.gens 1 _, sortPositions_perm .., ?sorted, ?others, ?elems⟩
  case sorted =>
    refine (sortPositions_stable compares (List.pairwise_lt_range.filter _)).imp fun {i j} stable => ?_
    have number (i : Nat) : valOf (x i) 32 u = num i := valOf_eq_elemNum (by decide) ..
    simp only [StableBy, key, number] at stable
    cases e <;> simpa using stable
  case others =>
    intro r _ notFirst notSecond
    rw [State.retire_v]
    exact s.vget_putPair_others _ _ (by omega) notFirst notSecond
  case elems =>
    intro i hi
    have inside : i < s.vc.vlen / 32 := max ▸ hi
    have kept (r : Nat) : t.hart.elem s.vc.vlen r 32 i = (s.putPair d (s.sortCells (order.map x)) (s.sortCells (order.map y))).hart.elem s.vc.vlen r 32 i :=
      Hart.elem_congr (State.retire_v ..) ..
    have smallA := State.vsrc_lt readA fun _ => cstI_lt 32 _
    have smallB := State.vsrc_lt readB fun _ => cstI_lt 32 _
    simp only [List.forall_mem_cons, List.not_mem_nil, false_imp_iff, implies_true, and_true, kept]
    constructor
    · rw [s.elem_putPair_first _ _ (by omega) inside, s.cellOver_sortCells order smallA hi]
      rfl
    · rw [s.elem_putPair_second _ _ (by omega) inside, s.cellOver_sortCells order smallB hi]
      rfl

end Sys2Proof.Claims
end

