-- ==== Sys2Proof/Proofs/VectorConversions.lean ====
section
/-! PROOFS. VCVT (R121, R122): what each pair of formats makes of an element, and which pairs draw. -/

namespace Sys2Proof.Machine
open Sys2Proof.Claims

/-- The element that VCVT makes of a pattern with the word W (R122). -/
def converted (m : Modes) (src dst : CvtFmt) (W p : Nat) : Nat :=
  match src, dst with
  | .int w nat, .int w' nat' => patOf (clampInt (intMin w' nat') (intMax w' nat') (valOf p w nat)) w'
  | .fp f, .int w' nat' => patOf (satI w' nat' (roundI m.rm W (f.dec (p % 2 ^ f.bits)))) w'
  | .int w nat, .fp g => fOf m.rm m.sm g W (.ofInt (valOf p w nat))
  | .fp f, .fp g => fOf m.rm m.sm g W (f.dec (p % 2 ^ f.bits))

/-- The modes by which a conversion draws: none between two integer formats. -/
def CvtFmt.drawModes (m : Modes) : CvtFmt → CvtFmt → Modes
  | .int _ _, .int _ _ => noDraws
  | _, _ => m

theorem convert_eq (m : Modes) (src dst : CvtFmt) (lane p : Nat) (g : Gens) :
    convert m src dst lane p g = (converted m src dst ((src.drawModes m dst).word lane g).1 p, ((src.drawModes m dst).word lane g).2) := by
  cases src <;> cases dst <;> rfl

theorem CvtFmt.width_elem (cd : BitVec 4) : ElemWidth (cvtDst cd).width := by
  revert cd
  unfold ElemWidth
  decide

theorem FF.bits_le_width (f : FF) : f.bits ≤ (CvtFmt.fp f).width := by cases f <;> decide

theorem converted_lt (m : Modes) (src dst : CvtFmt) (W p : Nat) : converted m src dst W p < 2 ^ dst.width := by
  have float (f : FF) (v : FVal) : fOf m.rm m.sm f W v < 2 ^ (CvtFmt.fp f).width :=
    (fOf_lt ..).trans_le (Nat.pow_le_pow_right two_pos f.bits_le_width)
  cases src <;> cases dst
  · exact patOf_lt ..
  · exact float ..
  · exact patOf_lt ..
  · exact float ..

theorem intMin_le_intMax (w : Nat) (nat : Bool) : intMin w nat ≤ intMax w nat := by
  have half : (0 : Int) < 2 ^ (w - 1) := by positivity
  have full : (0 : Int) < 2 ^ w := by positivity
  cases nat <;> simp only [intMin, intMax, Bool.false_eq_true, if_true, if_false] <;> omega

theorem clampInt_eq {lo hi : Int} (ordered : lo ≤ hi) (v : Int) : clampInt lo hi v = max lo (min hi v) := by
  unfold clampInt
  grind

/-- With nw the result lies in one register. -/
theorem State.short_of_emul (s : State) {dw : Nat} (hw : ElemWidth dw) (one : s.vc.lmul = 1) (narrow : emul s.vc.lmul dw s.vc.sew = 1) :
    dw * s.vc.max ≤ 2048 := by
  have le : dw ≤ s.vc.sew := by
    have quotient : s.vc.lmul * dw / s.vc.sew ≤ 1 := narrow ▸ Nat.le_max_right ..
    rw [one, one_mul] at quotient
    rcases hw with rfl | rfl | rfl | rfl <;> rcases s.sew_width with h | h | h | h <;> rw [h] at quotient ⊢ <;> omega
  exact (Nat.mul_le_mul_right _ le).trans (s.short_of_lmul one)

section
variable {s : State} {d : Dst} {a : Src} {cd : BitVec 4} {ce : BitVec 3} {k : MSel} {src : CvtFmt} {x : Nat → Nat}

theorem State.vcvt_done (format : cvtSrc s.vc.sew ce = some src) (width : s.sewOk s.vc = true)
    (bank : s.onBank = true → (cvtDst cd).width = 16 ∨ (cvtDst cd).width = 32) (group : emul s.vc.lmul (cvtDst cd).width s.vc.sew ≤ 8)
    (dstOk : if d.nw then s.vc.lmul = 1 ∧ emul s.vc.lmul (cvtDst cd).width s.vc.sew = 1 else s.vc.regOk d.reg.toNat (emul s.vc.lmul (cvtDst cd).width s.vc.sew) = true)
    (srcA : s.vc.srcOk a s.vc.lmul = true) (mask : s.vc.selOk k = true)
    (apart : (cvtDst cd).width = s.vc.sew ∨ dstMeets d (emul s.vc.lmul (cvtDst cd).width s.vc.sew) a s.vc.lmul = false)
    (readA : s.vsrc s.vc a s.vc.sew (fun n => (src.const s.modes s.hart.gens n).1) = .ok x)
    (heldA : s.heldSrc a s.vc.lmul = .ok ()) (heldD : s.heldDst d (emul s.vc.lmul (cvtDst cd).width s.vc.sew) = .ok ()) :
    ∃ t, exec (.vcvt d a cd ce k) s = .next t
      ∧ VectorDone s t d (cvtDst cd).width (emul s.vc.lmul (cvtDst cd).width s.vc.sew) 1 (s.sel k) (fun i =>
          converted s.modes src (cvtDst cd) (wordOf (src.drawModes s.modes (cvtDst cd)) (lowLane s s.vc.sew) (Active s (cvtDst cd).width (s.sel k))
            (src.constGens s.modes s.hart.gens a) i) (x i))
      ∧ t.hart.gens = drawn (src.drawModes s.modes (cvtDst cd)) (lowLane s s.vc.sew) (Active s (cvtDst cd).width (s.sel k))
          (src.constGens s.modes s.hart.gens a) s.vc.max := by
  have hw := CvtFmt.width_elem cd
  have arm : exec (.vcvt d a cd ce k) s = execVcvt d a cd ce k s := rfl
  rw [arm, execVcvt]
  simp only [format, Option.isSome_some, Option.getD_some]
  generalize cvtDst cd = dst at *
  have fits (write : d.nw = false) : d.reg.toNat + emul s.vc.lmul dst.width s.vc.sew ≤ 32 := by
    simp only [write, Bool.false_eq_true, if_false, VC.regOk, Bool.and_eq_true, decide_eq_true_eq] at dstOk
    exact dstOk.2.trans s.regs_le
  have short (keep : d.nw = true) : dst.width * s.vc.max ≤ 2048 := by
    rw [if_pos keep] at dstOk
    exact s.short_of_emul hw dstOk.1 dstOk.2
  obtain ⟨vals, g, run, done⟩ := s.vectorDone_of_run (src.constGens s.modes s.hart.gens a) (sel := s.sel k)
    (f := fun i g => convert s.modes src dst (laneOf s.vc.vlen i s.vc.sew) (x i) g) (m := src.drawModes s.modes dst)
    (v := fun i W => converted s.modes src dst W (x i)) hw fits short (fun i g => convert_eq ..) fun i W => converted_lt ..
  refine ⟨_, ?_, done⟩
  have check : (true && s.sewOk s.vc && (!s.onBank || dst.width == 16 || dst.width == 32) && decide (emul s.vc.lmul dst.width s.vc.sew ≤ 8)
      && (if d.nw then s.vc.lmul == 1 && emul s.vc.lmul dst.width s.vc.sew == 1 else s.vc.regOk d.reg.toNat (emul s.vc.lmul dst.width s.vc.sew))
      && s.vc.srcOk a s.vc.lmul && s.vc.selOk k && (dst.width == s.vc.sew || !dstMeets d (emul s.vc.lmul dst.width s.vc.sew) a s.vc.lmul)) = true := by
    simp only [width, group, srcA, mask, decide_true, Bool.true_and, Bool.and_true, Bool.and_eq_true, Bool.or_eq_true, beq_iff_eq, Bool.not_eq_true', or_assoc]
    refine ⟨⟨?_, ?_⟩, apart⟩
    · cases place : s.onBank
      · exact .inl rfl
      · exact .inr (bank place)
    · cases nw : d.nw <;> simpa [nw] using dstOk
  simp only [check, needOp, need_ok, readA, heldA, heldD, bind, Except.bind, run]
  rfl

end

end Sys2Proof.Machine

namespace Sys2Proof.Claims
open Sys2Proof.Machine

/-- Settles O10: VCVT writes the converted elements at the width of the destination's format. -/
theorem vectorConversionResults : Obligations.VectorConversionResults := by
  intro s d a cd ce k src x w dst dw L m format width bank group dstOk srcA mask apart readA heldA heldD act gens W new
  obtain ⟨t, next, done, drew⟩ := State.vcvt_done format width bank group dstOk srcA mask apart readA heldA heldD
  have value : new = fun i => converted m src dst (wordOf (src.drawModes m dst) (lowLane s w) act gens i) (x i) := by
    funext i
    unfold new W act dw dst
    generalize cvtDst cd = target
    cases src <;> cases target
    · exact congrArg (patOf · _) (clampInt_eq (intMin_le_intMax ..) _).symm
    · rfl
    · rfl
    · rfl
  refine ⟨t, next, value ▸ done, drew.trans ?_⟩
  unfold act dw dst
  generalize cvtDst cd = target
  cases src <;> cases target
  · exact drawn_noDraws ..
  · rfl
  · rfl
  · rfl

end Sys2Proof.Claims
end

