-- ==== Sys2Proof/Proofs/QuantisedTiles.lean ====
section
/-! PROOFS. Quantised tiles (R123, R125, R126, R158): the layout of the 256 bytes, the register that VQUANT writes, and the elements that VDEQ decodes. -/

namespace Sys2Proof.Machine
open Sys2Proof.Claims

/-! ## Bytes -/

@[simp] theorem leBytes_length (n v : Nat) : (leBytes n v).length = n := by
  induction n generalizing v with
  | zero => rfl
  | succ n ih => rw [leBytes, List.length_cons, ih]

theorem leNat_lt (bs : List Byte) : leNat bs < 256 ^ bs.length := by
  induction bs with
  | nil => exact one_pos
  | cons b bs ih =>
    rw [leNat, List.length_cons, pow_succ]
    have := b.isLt
    omega

theorem leBytes_leNat (bs : List Byte) : leBytes bs.length (leNat bs) = bs := by
  induction bs with
  | nil => rfl
  | cons b bs ih =>
    have small := b.isLt
    have low : BitVec.ofNat 8 (leNat (b :: bs)) = b := BitVec.eq_of_toNat_eq (by rw [leNat, BitVec.toNat_ofNat]; omega)
    have high : leNat (b :: bs) / 256 = leNat bs := by rw [leNat]; omega
    rw [List.length_cons, leBytes, low, high, ih]

theorem leNat_leBytes_of_lt (n : Nat) {v : Nat} (small : v < 256 ^ n) : leNat (leBytes n v) = v := by
  induction n generalizing v with
  | zero => rw [pow_zero] at small; exact (Nat.lt_one_iff.mp small).symm
  | succ n ih =>
    rw [leBytes, leNat, ih (Nat.div_lt_of_lt_mul (by rwa [pow_succ'] at small)), BitVec.toNat_ofNat]
    omega

/-- The bytes of a whole register. -/
theorem leBytes_bytesToBits {bs : List Byte} (length : bs.length = 256) : leBytes 256 (bytesToBits 2048 bs).toNat = bs := by
  have small : leNat bs < 2 ^ 2048 := by
    have := leNat_lt bs
    rwa [length, show (256 : Nat) = 2 ^ 8 from rfl, ← pow_mul] at this
  rw [bytesToBits, BitVec.toNat_ofNat, Nat.mod_eq_of_lt small]
  conv_lhs => rw [← length]
  exact leBytes_leNat bs

/-! ## The layout of a tile -/

theorem padTo_length (n : Nat) (bs : List Byte) : (padTo n bs).length = n := by
  rw [padTo, List.length_append, List.length_take, List.length_replicate]
  omega

/-- The 256 bytes of a tile from its payload and the fields of its trailer (R125). -/
def tileOf (payload : List Byte) (amax count crc q vl : Nat) : List Byte :=
  payload ++ leBytes 4 amax ++ leBytes 4 count ++ leBytes 4 crc ++ [BitVec.ofNat 8 q, 0] ++ leBytes 2 vl ++ List.replicate 16 0

/-- The payload of a tile. -/
def tilePayload (t : Target) (qs : List (Nat × Bool)) (e : Nat → Int) : List Byte :=
  if t.mx then padTo 224 (padTo 192 (packElems t.half (qs.map (·.1))) ++ (List.range (t.cap / 32)).map fun b => BitVec.ofInt 8 (e b + 127))
  else padTo 224 (packElems t.half (qs.map (·.1)))

theorem tilePayload_length (t : Target) (qs : List (Nat × Bool)) (e : Nat → Int) : (tilePayload t qs e).length = 224 := by
  unfold tilePayload
  split <;> exact padTo_length ..

theorem tileBytes_eq (q : Nat) (t : Target) (vl : Nat) (xs : List FVal) (qs : List (Nat × Bool)) (e : Nat → Int) :
    tileBytes q t vl xs qs e
      = tileOf (tilePayload t qs e) (FF.f32.enc (amaxOf xs)) (qs.filter (·.2)).length (crc32c (tilePayload t qs e)).toNat q vl := rfl

theorem getD_of_drop {bs tail : List Byte} {n : Nat} (drop : bs.drop n = tail) (i : Nat) : bs.getD (n + i) 0 = tail.getD i 0 := by
  rw [← drop, List.getD_eq_getElem?_getD, List.getD_eq_getElem?_getD, List.getElem?_drop]

section
variable {payload : List Byte} (length : payload.length = 224) (amax count crc q vl : Nat)
include length

theorem tileOf_length : (tileOf payload amax count crc q vl).length = 256 := by simp [tileOf, length]

theorem tileOf_payload : (tileOf payload amax count crc q vl).take 224 = payload := by
  simp only [tileOf, List.append_assoc]
  exact List.take_left' length

theorem tileOf_drop_crc : (tileOf payload amax count crc q vl).drop 232 = leBytes 4 crc ++ ([BitVec.ofNat 8 q, 0] ++ (leBytes 2 vl ++ List.replicate 16 0)) := by
  have parts : tileOf payload amax count crc q vl = (payload ++ leBytes 4 amax ++ leBytes 4 count)
      ++ (leBytes 4 crc ++ ([BitVec.ofNat 8 q, 0] ++ (leBytes 2 vl ++ List.replicate 16 0))) := by simp only [tileOf, List.append_assoc]
  rw [parts]
  exact List.drop_left' (by simp [length])

theorem tileOf_drop_code : (tileOf payload amax count crc q vl).drop 236 = [BitVec.ofNat 8 q, 0] ++ (leBytes 2 vl ++ List.replicate 16 0) := by
  rw [show 236 = 232 + 4 from rfl, ← List.drop_drop, tileOf_drop_crc length]
  exact List.drop_left' (leBytes_length ..)

theorem tileOf_drop_vl : (tileOf payload amax count crc q vl).drop 238 = leBytes 2 vl ++ List.replicate 16 0 := by
  rw [show 238 = 236 + 2 from rfl, ← List.drop_drop, tileOf_drop_code length]
  rfl

theorem tileOf_drop_reserved : (tileOf payload amax count crc q vl).drop 240 = List.replicate 16 0 := by
  rw [show 240 = 238 + 2 from rfl, ← List.drop_drop, tileOf_drop_vl length]
  exact List.drop_left' (leBytes_length ..)

theorem tileOf_code : (tileOf payload amax count crc q vl).getD 236 0 = BitVec.ofNat 8 q := getD_of_drop (tileOf_drop_code length ..) 0

theorem tileOf_zero : (tileOf payload amax count crc q vl).getD 237 0 = 0 := getD_of_drop (tileOf_drop_code length ..) 1

theorem tileOf_crc (small : crc < 2 ^ 32) : leNat (((tileOf payload amax count crc q vl).drop 232).take 4) = crc := by
  rw [tileOf_drop_crc length, List.take_left' (leBytes_length ..), leNat_leBytes_of_lt 4 small]

theorem tileOf_vl (small : vl < 65536) : leNat (((tileOf payload amax count crc q vl).drop 238).take 2) = vl := by
  rw [tileOf_drop_vl length, List.take_left' (leBytes_length ..), leNat_leBytes_of_lt 2 small]

theorem tileOf_reserved {i : Nat} (low : 240 ≤ i) (high : i < 256) : (tileOf payload amax count crc q vl).getD i 0 = 0 := by
  have zero := getD_of_drop (tileOf_drop_reserved length amax count crc q vl) (i - 240)
  rwa [Nat.add_sub_cancel' low, List.getD_replicate 0 (by omega)] at zero

end

/-! ## One whole register -/

theorem State.putReg_fst (s : State) (d : Dst) (v : VWord) :
    (s.putReg d v).1 = if d.nw then s else s.setHart { s.hart with v := vset s.hart.v d.reg.toNat v } := rfl

theorem State.putReg_vectorsOnly (s : State) (d : Dst) (v : VWord) : VectorsOnly s (s.putReg d v).1 := by
  rw [State.putReg_fst]
  split
  · exact .refl s
  · exact s.setHart_vectorsOnly _

theorem State.vget_putReg (s : State) {d : Dst} (fits : d.nw = false → d.reg.toNat < 32) (v : VWord) (r : Nat) :
    vget (s.putReg d v).1.hart.v r 0 = if d.nw = false ∧ r = d.reg.toNat then v else vget s.hart.v r 0 := by
  rw [State.putReg_fst]
  cases write : d.nw with
  | true => simp
  | false =>
    rw [if_neg (by decide), State.hart_setHart, vget_vset]
    exact if_congr ⟨fun h => ⟨rfl, h.1.symm⟩, fun h => ⟨h.2.symm, h.2 ▸ fits write⟩⟩ rfl rfl

/-! ## Consistency (R158) -/

theorem targets_bound {q : Nat} {tg : Target} (h : targets q = some tg) : q < 8 ∧ tg.cap ≤ 448 := by
  unfold targets at h
  split at h <;> cases h <;> exact ⟨by decide, by decide⟩

/-- A tile with its own code, count and check sum is consistent. -/
theorem tileConsistent_tileOf {payload : List Byte} (length : payload.length = 224) (amax count : Nat) {q vl : Nat} {tg : Target}
    (target : targets q = some tg) (fits : vl ≤ tg.cap) : tileConsistent (tileOf payload amax count (crc32c payload).toNat q vl) = true := by
  obtain ⟨code, cap⟩ := targets_bound target
  have named : targets (BitVec.ofNat 8 q).toNat = some tg := by rw [BitVec.toNat_ofNat, Nat.mod_eq_of_lt (by omega), target]
  unfold tileConsistent
  rw [tileOf_code length, named]
  dsimp only
  rw [tileOf_vl length _ _ _ _ _ (by omega), tileOf_zero length, tileOf_drop_reserved length, tileOf_crc length _ _ _ _ _ (BitVec.isLt _), tileOf_payload length,
    decide_eq_true fits]
  simp

end Sys2Proof.Machine

namespace Sys2Proof.Claims
open Sys2Proof.Machine

/-- VQUANT writes a register of tile bytes. -/
theorem vquant_done {s : State} {d : Dst} {a : Src} {q : BitVec 3} {u : Bool} {f : FF} {tg : Target} {x : Nat → Nat}
    (format : fpFormat u s.vc.sew = some f) (target : targets q.toNat = some tg) (group : s.onBank = false) (fits : s.vc.vl ≤ tg.cap)
    (dstOk : s.vc.dstOk d 1 = true) (srcA : s.vc.srcOk a s.vc.lmul = true) (apart : dstMeets d 1 a s.vc.lmul = false)
    (lanes : s.path.lanes = BitVec.allOnes 64) (emask : s.path.emask = BitVec.allOnes 64) (readA : s.vsrc s.vc a s.vc.sew (cstF f) = .ok x)
    (heldA : s.heldSrc a s.vc.lmul = .ok ()) (heldD : s.heldDst d 1 = .ok ()) :
    let xs := (List.range s.vc.vl).map fun i => f.dec (x i)
    let e := fun b => scaleExp tg ((xs.drop (32 * b)).take 32)
    let run := quantiseAll s.modes tg (fun i => e (i / 32)) (fun i => laneOf s.vc.vlen i s.vc.sew) 0 xs s.hart.gens
    exec (.vquant d a q u) s = .next (retireP ((s.setGens run.2).putReg d (bytesToBits 2048 (tileBytes q.toNat tg s.vc.vl xs run.1 e)))) := by
  intro xs e run
  have arm : exec (.vquant d a q u) s = execVquant d a q u s := rfl
  rw [arm, execVquant]
  simp only [format, target, group, fits, dstOk, srcA, apart, lanes, emask, readA, heldA, heldD, Option.isSome_some, Option.getD_some, decide_true, Bool.not_false,
    beq_self_eq_true, Bool.and_self, needOp, need_ok, bind, Except.bind]
  rfl

/-- VDEQ decodes the elements of a tile. -/
theorem vdeq_done {s : State} {d : Dst} {a : Src} {u : Bool} {k : MSel} {f : FF} {tg : Target} {v : VWord} (format : fpFormat u s.vc.sew = some f)
    (group : s.onBank = false) (dst : DstReady s d s.vc.lmul) (srcA : s.vc.srcOk a 1 = true) (mask : s.vc.selOk k = true)
    (apart : dstMeets d s.vc.lmul a 1 = false)
    (readA : s.vreg1 a (fun z => BitVec.ofNat 2048 (packCells s.vc.sew 0 (List.replicate (s.vc.vlen / s.vc.sew) (some (cstI s.vc.sew z))))) = .ok v)
    (heldA : s.heldSrc a 1 = .ok ()) (target : targets ((leBytes 256 v.toNat).getD 236 0).toNat = some tg) (fits : s.vc.vl ≤ tg.cap) :
    ∃ t, exec (.vdeq d a u k) s = .next t
      ∧ VectorDone s t d s.vc.sew s.vc.lmul 1 (s.sel k) (fun i => fOf s.modes.rm s.modes.sm f
          (wordOf s.modes (lowLane s s.vc.sew) (Active s s.vc.sew (s.sel k)) s.hart.gens i) (tileElem tg (leBytes 256 v.toNat) i))
      ∧ t.hart.gens = drawn s.modes (lowLane s s.vc.sew) (Active s s.vc.sew (s.sel k)) s.hart.gens s.vc.max := by
  obtain ⟨dstOk, heldD⟩ := dst
  obtain ⟨-, (bits : f.bits = s.vc.sew), -⟩ := fpFormat_some format
  obtain ⟨vals, g, run, done⟩ := s.vectorDone_of_run s.hart.gens (sel := s.sel k) (L := s.vc.lmul) (m := s.modes)
    (f := fun i g => s.modes.F f (laneOf s.vc.vlen i s.vc.sew) (tileElem tg (leBytes 256 v.toNat) i) g)
    (v := fun i W => fOf s.modes.rm s.modes.sm f W (tileElem tg (leBytes 256 v.toNat) i)) s.sew_width (VC.fits_of_dstOk dstOk)
    (fun keep => s.short_of_lmul (VC.lmul_of_dstOk dstOk keep)) (fun i g => rfl) fun i W => bits ▸ fOf_lt ..
  refine ⟨_, ?_, done⟩
  have arm : exec (.vdeq d a u k) s = execVdeq d a u k s := rfl
  rw [arm, execVdeq]
  simp only [format, target, group, fits, dstOk, srcA, mask, apart, readA, heldA, heldD, Option.isSome_some, Option.getD_some, decide_true, Bool.not_false,
    Bool.and_self, needOp, need_ok, bind, Except.bind, run]
  rfl

/-- Settles O11: the bytes that VQUANT writes carry their own check sum and count, and VDEQ rounds the value of each element of a tile. -/
theorem quantisedTileResults : Obligations.QuantisedTileResults := by
  refine ⟨?quantise, ?dequantise⟩
  case quantise =>
    intro s d a q u f tg x format target group fits dstOk srcA apart lanes emask readA heldA heldD
    have next := vquant_done format target group fits dstOk srcA apart lanes emask readA heldA heldD
    dsimp only at next
    generalize (List.range s.vc.vl).map (fun i => f.dec (x i)) = xs at next
    generalize quantiseAll s.modes tg _ _ 0 xs s.hart.gens = run at next
    obtain ⟨qs, g⟩ := run
    rw [tileBytes_eq] at next
    generalize (fun b => scaleExp tg ((xs.drop (32 * b)).take 32)) = e at next
    have length := tilePayload_length tg qs e
    generalize tilePayload tg qs e = payload at next length
    have written := (s.setGens g).putReg_vectorsOnly d
      (bytesToBits 2048 (tileOf payload (FF.f32.enc (amaxOf xs)) (qs.filter (·.2)).length (crc32c payload).toNat q.toNat s.vc.vl))
    have cap := (targets_bound target).2
    refine ⟨_, _, next, pathDone_of_setGens (written.pathDone 1 _), vectorFrame_of_setGens (written.frame 1 _), fun r _ => ?_, ?_⟩
    · rw [retireP, State.retire_v, State.vget_putReg _ fun write => VC.fits_of_dstOk dstOk write, State.hart_setGens]
    · rw [leBytes_bytesToBits (tileOf_length length ..)]
      refine ⟨?_, tileOf_zero length .., tileOf_vl length _ _ _ _ _ (by omega), fun i low high => tileOf_reserved length _ _ _ _ _ low high, ?_,
        tileConsistent_tileOf length _ _ target fits⟩
      · rw [tileOf_code length, BitVec.toNat_ofNat, Nat.mod_eq_of_lt (by omega)]
      · rw [tileOf_crc length _ _ _ _ _ (BitVec.isLt _), tileOf_payload length]
  case dequantise =>
    intro s d a u k f tg v w bs m act format group dst srcA mask apart readA heldA target fits
    exact vdeq_done format group dst srcA mask apart readA heldA target fits

end Sys2Proof.Claims
end

