-- ==== Sys2Proof/Proofs/VectorAddresses.lean ====
section
/-! PROOFS. The elements of a vector access (R136 to R138, R228): their addresses, and what the checks find where every element lies in memory. -/

namespace Sys2Proof.Machine
open Sys2Proof.Claims

/-! ## Addresses (R137, R228) -/

section
variable {s : State} {a b : Src} {base step off : Word64}

theorem State.unitAddr_eq (operand : s.opnd a = .ok base) : s.unitAddr a off = .ok fun i => base + off + BitVec.ofNat 64 (i * (s.vc.sew / 8)) := by
  rw [State.unitAddr, operand]
  rfl

theorem State.strideAddr_eq (operand : s.opnd a = .ok base) (stride : s.opnd b = .ok step) :
    s.strideAddr a b off = .ok fun i => base + off + BitVec.ofNat 64 i * step := by
  rw [State.strideAddr, operand, stride]
  rfl

/-- The offset that an index element names, from its pattern (R228). -/
def indexOffset (x : MemX) (p : Nat) : Int :=
  (if x.xs then (BitVec.ofNat (8 * 2 ^ x.xw.toNat) p).toInt else ((BitVec.ofNat (8 * 2 ^ x.xw.toNat) p).toNat : Int)) * 2 ^ x.scale.toNat

theorem State.indexAddr_eq {x : MemX} {idx : Nat → Nat} (operand : s.opnd a = .ok base)
    (index : s.vsrc s.vc b (8 * 2 ^ x.xw.toNat) (cstI (8 * 2 ^ x.xw.toNat)) = .ok idx) (held : s.heldSrc b (indexRegs s.vc x.xw) = .ok ()) :
    s.indexAddr a b off x.xw x.xs x.scale = .ok fun i => base + off + BitVec.ofInt 64 (indexOffset x (idx i)) := by
  have value (p : Nat) : valOf p (8 * 2 ^ x.xw.toNat) (!x.xs) * 2 ^ x.scale.toNat = indexOffset x p := by
    rw [valOf_eq_elemNum (by positivity), elemNum, indexOffset]
    cases x.xs <;> rfl
  simp only [State.indexAddr, operand, index, held, bind, Except.bind, value]
  rfl

end

/-! ## Results of all elements (R138) -/

theorem joinElems_ok {α β : Type} (vlen w : Nat) (l : List α) (num : α → Nat) (f : α → β) :
    joinElems vlen w (l.map fun a => (num a, (.ok (f a) : Res β))) = .ok (l.map fun a => (num a, f a)) := by
  have stop : l.findSome? (fun _ => (none : Option Halt)) = none := List.findSome?_eq_none_iff.mpr fun _ _ => rfl
  have asks : l.flatMap (fun _ => ([] : List (Nat × Nat))) = [] := List.flatMap_eq_nil_iff.mpr fun _ _ => rfl
  simp [joinElems, List.findSome?_map, List.flatMap_map, List.filterMap_map, Function.comp_def, stop, asks]

/-- A place in memory is found whatever the data are. -/
theorem State.find_of_mem {s : State} {k : AccKind} {wins : Wins} {va : Word64} {n align : Nat} {place : Place}
    (find : s.find k wins va n align = .ok (.mem place)) (data : Word64) : s.find k wins va n align data = .ok (.mem place) := by
  unfold State.find at find ⊢
  split at find
  · split at find
    · cases op : s.apertureStore va n 0 <;> rw [op] at find <;> cases find
    · cases op : s.apertureLoads va n <;> rw [op] at find <;> cases find
  · next memory => rwa [if_neg memory]

section
variable {s : State} {k : MSel} {acc : AccKind} {wins : Wins} {sp : Space} {e va : Nat → Word64} {p : Nat → Place}

/-- The elements that take part, each in memory. -/
def elemsAt (s : State) (k : MSel) (va : Nat → Word64) (p : Nat → Place) : List Elem := (actives s k).map fun i => ⟨i, va i, .mem (p i)⟩

theorem mem_actives {i : Nat} : i ∈ actives s k ↔ i < s.vc.max ∧ s.vc.active s.lanesOn (s.sel k) s.vc.sew i = true := by
  rw [actives, List.mem_filter, List.mem_range]

theorem mem_actives_iff {i : Nat} : i ∈ actives s k ↔ i < s.vc.max ∧ Active s s.vc.sew (s.sel k) i := by
  rw [mem_actives, s.active_iff s.sew_width]

theorem State.findElems_eq (elements : Elements s k acc wins sp e va p) (data : Nat → Nat) :
    s.findElems s.vc (s.sel k) acc wins sp e data = .ok (elemsAt s k va p) := by
  have each : (actives s k).map (fun i => (i, do
      let va ← s.form sp (e i) 0
      let w ← s.find acc wins va (s.vc.sew / 8) (s.vc.sew / 8) (BitVec.ofNat 64 (data i))
      pure (Elem.mk i va w))) = (actives s k).map fun i => (i, (.ok ⟨i, va i, .mem (p i)⟩ : Res Elem)) := by
    refine List.map_congr_left fun i hi => ?_
    obtain ⟨low, active⟩ := mem_actives.mp hi
    obtain ⟨form, find⟩ := elements i low active
    simp only [form, State.find_of_mem find, bind, Except.bind]
    rfl
  unfold State.findElems
  dsimp only
  rw [show (List.range s.vc.max).filter (s.vc.active s.lanesOn (s.sel k) s.vc.sew) = actives s k from rfl, each, joinElems_ok _ _ _ fun i => i]
  simp [bind, Except.bind, pure, Except.pure, elemsAt, Function.comp_def]

theorem flatMap_loads_elemsAt : (elemsAt s k va p).flatMap (fun x => x.w.loads x.va) = (actives s k).map fun i => (va i, p i) := by
  rw [elemsAt, List.flatMap_map]
  exact List.map_eq_flatMap.symm

end

end Sys2Proof.Machine
end

