-- ==== Sys2Proof/Proofs/VectorLoads.lean ====
section
/-! PROOFS. Vector loads (R136 to R139, R227, R228): the elements that are read, and where a first-fault load stops. -/

namespace Sys2Proof.Machine
open Sys2Proof.Claims

/-! ## A vector written after the caches have moved -/

section
variable {s u t : State} (moved : s.CachesMoved u)
include moved

theorem State.CachesMoved.vc_eq : u.vc = s.vc := by rw [State.vc, moved.onBank_eq, moved.hart_eq]; rfl

theorem State.CachesMoved.path_eq : u.path = s.path := by rw [State.path, moved.hart_eq, moved.cur_eq]; rfl

theorem State.CachesMoved.lanesOn_eq : u.lanesOn = s.lanesOn := by rw [State.lanesOn, moved.onBank_eq, moved.path_eq]; rfl

/-- The focus's own registers and paths change after the caches have moved. -/
theorem State.CachesMoved.onlyHartAndCaches (only : OnlyHart u t) : OnlyHartAndCaches s t where
  others i hi := by rw [only.others i (moved.hid_eq ▸ hi), State.hartOf, moved.harts_eq, State.hartOf]
  rest := by rw [only.rest, moved.rest]
  cores c := by
    rw [State.coreOf, show t.cores = u.cores by rw [only.rest]]
    exact moved.cores c
  bytes := by
    rw [only.rest, moved.rest]
    exact ⟨fun _ => rfl, fun _ _ => rfl, fun _ _ => rfl⟩

end

/-! ## Results that retire after several words -/

/-- A vector result after an instruction of n words. -/
def retireAfter (n : Nat) (r : State × Latch) : State := r.1.retire n r.2

/-- A vector result by the table of R110. -/
theorem State.vectorDone_retireAfter (s : State) {d : Dst} {w L n : Nat} {sel : Nat → Bool} {vals : List (Option Nat)} {new : Nat → Nat} (hw : ElemWidth w)
    (length : vals.length = s.vc.max) (fits : d.nw = false → d.reg.toNat + L ≤ 32) (short : d.nw = true → w * s.vc.max ≤ 2048)
    (value : ∀ i < s.vc.max, Active s w sel i → vals[i]? = some (some (new i)) ∧ new i < 2 ^ w) :
    VectorDone s (retireAfter n (s.writeV s.vc d sel w L vals)) d w L n sel new := by
  have cells := (writeRule_length s.vc s.lanesOn sel w (2 ^ w - 1) vals 0).trans length
  have written := s.putV_retire_written (n := n) (after := fun i old => afterWrite s w (2 ^ w - 1) sel i old (new i)) hw fits (cells.symm ▸ short) fun i hi old =>
    s.cellOver_writeRule hw w (Nat.sub_lt (by positivity) one_pos) sel (by rwa [length, ← cells]) (value i (cells ▸ hi)) old
  rw [cells] at written
  exact written

/-- The table of R110 reads the type, the execution mask and, of the length, only on which side of it an element lies. -/
theorem afterWrite_congr {s u : State} {m : Nat} (vc : u.vc = { s.vc with vl := m }) (lanes : u.lanesOn = s.lanesOn) {i : Nat} (side : m ≤ i ↔ s.vc.vl ≤ i)
    (w ones : Nat) (sel : Nat → Bool) (old new : Nat) : afterWrite u w ones sel i old new = afterWrite s w ones sel i old new := by
  have on : LanesOn u w i = LanesOn s w i := by simp only [LanesOn, vc, lanes]
  unfold afterWrite
  rw [on, vc]
  simp only [side]

theorem vl_of_sameRegs {s t : State} (regs : SameRegs s t) : t.hart.vl = s.hart.vl := by
  have vl := congrArg Hart.vl regs
  exact vl

/-! ## The values of a load -/

theorem mfind_map (l : List Nat) (f : Nat → Nat) (i : Nat) : mfind i (l.map fun j => (j, f j)) = if i ∈ l then some (f i) else none := by
  induction l with
  | nil => rfl
  | cons j l ih =>
    rw [List.map_cons, mfind, ih]
    by_cases same : j = i
    · subst same
      simp
    · rw [if_neg same]
      exact if_congr (by simp [Ne.symm same]) rfl rfl

theorem placeVals_get (l : List Nat) (f : Nat → Nat) {max i : Nat} (hi : i < max) (mem : i ∈ l) :
    (placeVals max (l.map fun j => (j, f j)))[i]? = some (some (f i)) := by
  rw [placeVals, getElem?_map_range _ hi, mfind_map, if_pos mem]

theorem placeVals_length (max : Nat) (vals : List (Nat × Nat)) : (placeVals max vals).length = max := by simp [placeVals]

/-- The number in the bytes of one element. -/
theorem leNat_lt_of_width {w : Nat} (hw : ElemWidth w) {bs : List Byte} (length : bs.length = w / 8) : leNat bs < 2 ^ w := by
  have small := leNat_lt bs
  rw [length] at small
  rcases hw with rfl | rfl | rfl | rfl <;> exact small

section
variable {s : State} {d : Dst} {k : MSel} {wins : Wins} {sp : Space} {e va : Nat → Word64} {p : Nat → Place} {bs : Nat → List Byte}

/-- The state in which the elements of a vector load are written. -/
def State.afterElems (s : State) (k : MSel) (va : Nat → Word64) (p : Nat → Place) : State :=
  (s.evictFor ((actives s k).map fun j => (va j, p j)) (s.vc.sew / 8)).touch ((actives s k).map fun j => (va j, p j))

theorem State.afterElems_cachesMoved (s : State) (k : MSel) (va : Nat → Word64) (p : Nat → Place) : s.CachesMoved (s.afterElems k va p) :=
  (s.evictFor_cachesMoved _ _).trans (State.touch_cachesMoved _ _)

theorem State.loadElems_eq (loads : ∀ j ∈ actives s k, (s.evictFor ((actives s k).map fun j => (va j, p j)) (s.vc.sew / 8)).load (.mem (p j)) (va j)
      (s.vc.sew / 8) false = .ok (bs j)) (words : Nat) :
    s.loadElems s.vc d (s.sel k) (elemsAt s k va p) words
      = .ok (retireAfter words
          ((s.afterElems k va p).writeV s.vc d (s.sel k) s.vc.sew s.vc.lmul (placeVals s.vc.max ((actives s k).map fun j => (j, leNat (bs j)))))) := by
  have each : (elemsAt s k va p).map (fun x => (x.i, (s.evictFor ((actives s k).map fun j => (va j, p j)) (s.vc.sew / 8)).load x.w x.va (s.vc.sew / 8) false))
      = (actives s k).map fun j => (j, (.ok (bs j) : Res (List Byte))) := by
    rw [elemsAt, List.map_map]
    exact List.map_congr_left fun j hj => congrArg _ (loads j hj)
  unfold State.loadElems
  simp only [flatMap_loads_elemsAt, each, joinElems_ok _ _ _ fun j => j, bind, Except.bind, List.map_map]
  rfl

theorem State.vload_eq {ok : VC → Bool} {addr : Res (Nat → Word64)} (width : s.sewOk s.vc = true) (dst : DstReady s d s.vc.lmul) (mask : s.vc.selOk k = true)
    (admits : ok s.vc = true) (address : addr = .ok e) (elements : Elements s k aLoad wins sp e va p)
    (loads : ∀ j ∈ actives s k, (s.evictFor ((actives s k).map fun j => (va j, p j)) (s.vc.sew / 8)).load (.mem (p j)) (va j) (s.vc.sew / 8) false = .ok (bs j)) :
    s.vload d k ok wins sp addr = .next (retireAfter 2 ((s.afterElems k va p).writeV s.vc d (s.sel k) s.vc.sew s.vc.lmul
      (placeVals s.vc.max ((actives s k).map fun j => (j, leNat (bs j)))))) := by
  obtain ⟨dstOk, heldD⟩ := dst
  unfold State.vload
  simp only [width, dstOk, mask, admits, Bool.and_self, needOp, need_ok, address, heldD, bind, Except.bind, State.findElems_eq elements, State.loadElems_eq loads]
  rfl

/-- Elements that were loaded are written by R110, under a length m up to which every active element was. -/
theorem State.vectorDone_of_loads {u : State} {m : Nat} {is : List Nat} (vc : u.vc = { s.vc with vl := m }) (le : m ≤ s.vc.vl) (lanes : u.lanesOn = s.lanesOn)
    (dstOk : s.vc.dstOk d s.vc.lmul = true) (all : ∀ j ∈ actives s k, j < m → j ∈ is) (length : ∀ j ∈ is, (bs j).length = s.vc.sew / 8) :
    VectorDone u (retireAfter 2 (u.writeV { s.vc with vl := m } d (s.sel k) s.vc.sew s.vc.lmul (placeVals s.vc.max (is.map fun j => (j, leNat (bs j))))))
      d s.vc.sew s.vc.lmul 2 (s.sel k) fun j => leNat (bs j) := by
  have max : u.vc.max = s.vc.max := by rw [vc]; rfl
  rw [← vc]
  refine u.vectorDone_retireAfter s.sew_width (by rw [placeVals_length, max]) (VC.fits_of_dstOk dstOk)
    (fun keep => max ▸ s.short_of_lmul (VC.lmul_of_dstOk dstOk keep)) fun i hi active => ?_
  simp only [Active, LanesOn, vc, lanes] at active
  obtain ⟨on, below, selected⟩ := active
  have mem := all i (mem_actives_iff.mpr ⟨max ▸ hi, on, below.trans_le le, selected⟩) below
  exact ⟨placeVals_get _ _ (max ▸ hi) mem, leNat_lt_of_width s.sew_width (length i mem)⟩

end

/-! ## First fault (R227) -/

section
variable {read : Nat → Res (Elem × List Byte)} {el : Nat → Elem} {bs : Nat → List Byte}

theorem firstFault_front {front : List Nat} (reads : ∀ j ∈ front, read j = .ok (el j, bs j)) {rest : List Nat} {f : Option (Nat × TrapRec)}
    (ends : firstFault read rest = .ok ([], f)) :
    firstFault read (front ++ rest) = .ok (front.map fun j => (el j, leNat (bs j)), f) := by
  induction front with
  | nil => exact ends
  | cons j front ih =>
    rw [List.cons_append, firstFault, reads j List.mem_cons_self]
    dsimp only
    rw [ih fun i hi => reads i (List.mem_cons_of_mem _ hi)]
    rfl

theorem firstFault_fails {m : Nat} {rest : List Nat} {tr : TrapRec} (fails : read m = .error (.trap tr)) (ends : endsLoad tr.cause = true) :
    firstFault read (m :: rest) = .ok ([], some (m, tr)) := by
  rw [firstFault, fails]
  exact if_pos ends

end

theorem endsLoad_of_mem {c : Cause} (h : c ∈ [Cause.accessViolation, .pageFault, .misaligned, .stackLimit, .poison]) : endsLoad c = true := by
  simp only [List.mem_cons, List.not_mem_nil, or_false] at h
  rcases h with rfl | rfl | rfl | rfl | rfl <;> rfl

/-- An increasing list around one of its members. -/
theorem split_at_mem {l : List Nat} (increasing : l.Pairwise (· < ·)) {m : Nat} (mem : m ∈ l) :
    ∃ front rest, l = front ++ m :: rest ∧ (∀ j, j ∈ front ↔ j ∈ l ∧ j < m) := by
  obtain ⟨front, rest, rfl⟩ := List.append_of_mem mem
  obtain ⟨-, later, before⟩ := List.pairwise_append.mp increasing
  refine ⟨front, rest, rfl, fun j => ⟨fun hj => ⟨List.mem_append_left _ hj, before j hj m List.mem_cons_self⟩, fun ⟨hj, below⟩ => ?_⟩⟩
  rcases List.mem_append.mp hj with hj | hj
  · exact hj
  · rcases List.mem_cons.mp hj with rfl | hj
    · exact absurd below (lt_irrefl _)
    · exact absurd below (not_lt_of_gt ((List.pairwise_cons.mp later).1 j hj))

theorem actives_increasing (s : State) (k : MSel) : (actives s k).Pairwise (· < ·) := List.pairwise_lt_range.filter _

section
variable {s : State} {d : Dst} {a : Src} {k : MSel} {l : MemM} {base : Word64}

/-- What a first-fault load reads for element i. -/
def State.readElem (s : State) (l : MemM) (base : Word64) (i : Nat) : Res (Elem × List Byte) := do
  let va ← s.form l.space (base + sx64 l.off + BitVec.ofNat 64 (i * (s.vc.sew / 8))) 0
  let w ← s.find aLoad .upToE va (s.vc.sew / 8) (s.vc.sew / 8)
  let bs ← s.load w va (s.vc.sew / 8) false
  pure (Elem.mk i va w, bs)

/-- The state in which the elements of a first-fault load are written: its length is how far the load came. -/
def State.afterFirstFault (s : State) (m : Nat) (loads : List (Word64 × Place)) : State :=
  let u := s.touch loads
  u.setHart { u.hart with vl := BitVec.ofNat 64 m }

theorem State.vldff_eq (group : s.onBank = false) (operand : s.opnd a = .ok base) (dst : DstReady s d s.vc.lmul) (mask : s.vc.selOk k = true)
    {xs : List (Elem × Nat)} {f : Option (Nat × TrapRec)} (some_ : xs ≠ []) (run : firstFault (s.readElem l base) (actives s k) = .ok (xs, f)) {m : Nat}
    (reaches : f.elim s.vc.vl (·.1) = m) :
    exec (.vldff d a k l) s = .next (retireAfter 2 ((s.afterFirstFault m (xs.flatMap fun x => x.1.w.loads x.1.va)).writeV { s.vc with vl := m } d (s.sel k)
      s.vc.sew s.vc.lmul (placeVals s.vc.max (xs.map fun x => (x.1.i, x.2))))) := by
  obtain ⟨dstOk, heldD⟩ := dst
  obtain ⟨x, xs, rfl⟩ := List.exists_cons_of_ne_nil some_
  subst reaches
  unfold State.readElem actives at run
  simp only [bind, Except.bind] at run
  have arm : exec (.vldff d a k l) s = execVldff d a k l s := rfl
  rw [arm, execVldff]
  cases f <;> simp only [group, dstOk, mask, Bool.not_false, Bool.and_self, needOp, need_ok, State.unitAddr_eq operand, heldD, bind, Except.bind, run] <;> rfl

theorem State.hart_afterFirstFault (s : State) (m : Nat) (loads : List (Word64 × Place)) : (s.afterFirstFault m loads).hart = { s.hart with vl := BitVec.ofNat 64 m } := by
  rw [State.afterFirstFault, State.hart_setHart, (s.touch_cachesMoved loads).hart_eq]

theorem State.afterFirstFault_cur (s : State) (m : Nat) (loads : List (Word64 × Place)) : (s.afterFirstFault m loads).cur = s.cur := by
  rw [State.afterFirstFault, State.setHart_cur, (s.touch_cachesMoved loads).cur_eq]

theorem State.afterFirstFault_onBank (s : State) (m : Nat) (loads : List (Word64 × Place)) : (s.afterFirstFault m loads).onBank = s.onBank := by
  rw [State.onBank, State.afterFirstFault_cur]
  rfl

theorem State.afterFirstFault_vc (s : State) {m : Nat} (le : m ≤ s.vc.vl) (loads : List (Word64 × Place)) :
    (s.afterFirstFault m loads).vc = { s.vc with vl := m } := by
  have small : m < 2 ^ 64 := le.trans_lt s.hart.vl.isLt
  rw [State.vc, State.afterFirstFault_onBank, State.hart_afterFirstFault, VC.of, BitVec.toNat_ofNat, Nat.mod_eq_of_lt small]
  rfl

theorem State.afterFirstFault_lanesOn (s : State) (m : Nat) (loads : List (Word64 × Place)) : (s.afterFirstFault m loads).lanesOn = s.lanesOn := by
  rw [State.lanesOn, State.path, State.afterFirstFault_onBank, State.hart_afterFirstFault, State.afterFirstFault_cur]
  rfl

theorem State.readElem_bytes (s : State) (l : MemM) (base : Word64) (i : Nat) : (s.readElem l base i).map (·.2) = (do
    let va ← s.form l.space (base + sx64 l.off + BitVec.ofNat 64 (i * (s.vc.sew / 8))) 0
    let w ← s.find aLoad .upToE va (s.vc.sew / 8) (s.vc.sew / 8)
    s.load w va (s.vc.sew / 8) false) := by
  simp only [State.readElem, bind, Except.bind]
  cases s.form l.space (base + sx64 l.off + BitVec.ofNat 64 (i * (s.vc.sew / 8))) 0 with
  | error h => rfl
  | ok va =>
    dsimp only
    cases s.find aLoad .upToE va (s.vc.sew / 8) (s.vc.sew / 8) with
    | error h => rfl
    | ok w =>
      dsimp only
      cases s.load w va (s.vc.sew / 8) false <;> rfl

theorem error_of_map {α β : Type} {f : α → β} {r : Res α} {h : Halt} (fails : r.map f = .error h) : r = .error h := by
  cases r with
  | error h' => exact congrArg _ (Except.error.inj fails)
  | ok a => cases fails

/-- An element whose bytes are read. -/
theorem State.readElem_of_bytes {j : Nat} {bytes : List Byte} (reads : (s.readElem l base j).map (·.2) = .ok bytes) :
    ∃ x : Elem, x.i = j ∧ s.readElem l base j = .ok (x, bytes) := by
  cases run : s.readElem l base j with
  | error h => rw [run] at reads; cases reads
  | ok r =>
    obtain ⟨x, bytes'⟩ := r
    rw [run] at reads
    obtain rfl := Except.ok.inj reads
    refine ⟨x, ?_, rfl⟩
    simp only [State.readElem, bind, Except.bind] at run
    split at run
    · cases run
    · split at run
      · cases run
      · split at run
        · cases run
        · cases run
          rfl

/-- How far a first-fault load comes: to its length, or to the first active element that fails. -/
theorem State.firstFault_run {bs : Nat → List Byte} {m : Nat} {tr : TrapRec}
    (reads : ∀ j ∈ actives s k, j < m → (s.readElem l base j).map (·.2) = .ok (bs j))
    (stops : m = s.vc.vl ∨ (m ∈ actives s k ∧ s.readElem l base m = .error (.trap tr) ∧ endsLoad tr.cause = true)) :
    ∃ (front : List Nat) (el : Nat → Elem) (f : Option (Nat × TrapRec)), firstFault (s.readElem l base) (actives s k) = .ok (front.map (fun j => (el j, leNat (bs j))), f) ∧ (∀ j, (el j).i = j)
      ∧ f.elim s.vc.vl (·.1) = m ∧ (∀ j, j ∈ front ↔ j ∈ actives s k ∧ j < m) ∧ m ≤ s.vc.vl := by
  have each (j : Nat) : ∃ x : Elem, x.i = j ∧ (j ∈ actives s k → j < m → s.readElem l base j = .ok (x, bs j)) := by
    by_cases h : j ∈ actives s k ∧ j < m
    · obtain ⟨x, number, read⟩ := State.readElem_of_bytes (reads j h.1 h.2)
      exact ⟨x, number, fun _ _ => read⟩
    · exact ⟨⟨j, 0, .ap⟩, rfl, fun mem below => absurd ⟨mem, below⟩ h⟩
  choose el number read using each
  rcases stops with rfl | ⟨mem, fails, ends⟩
  · have below : ∀ j ∈ actives s k, j < s.vc.vl := fun j hj => (mem_actives_iff.mp hj).2.2.1
    have run := firstFault_front (front := actives s k) (rest := []) (f := none) (fun j hj => read j hj (below j hj)) rfl
    rw [List.append_nil] at run
    exact ⟨_, el, none, run, number, rfl, fun j => ⟨fun hj => ⟨hj, below j hj⟩, And.left⟩, le_rfl⟩
  · obtain ⟨front, rest, split, before⟩ := split_at_mem (actives_increasing s k) mem
    have run := firstFault_front (front := front) (fun j hj => read j ((before j).mp hj).1 ((before j).mp hj).2)
      (firstFault_fails (rest := rest) fails ends)
    rw [← split] at run
    exact ⟨front, el, some (m, tr), run, number, rfl, before, (mem_actives_iff.mp mem).2.2.1.le⟩

end

end Sys2Proof.Machine

namespace Sys2Proof.Claims
open Sys2Proof.Machine

theorem vectorLoadResults : VectorLoadResults := by
  intro s d a b k l x base step idx i sp wins e va p bs w L xw offset operand form width dst mask elements at_ loads
  have loaded (ok : VC → Bool) {addr : Res (Nat → Word64)} (admits : ok s.vc = true) (address : addr = .ok e) (arm : exec i s = s.vload d k ok wins sp addr) :
      ∃ t b, exec i s = .next t ∧ PathDone s t 2 b ∧ OnlyHartAndCaches s t ∧ t.hart.s = s.hart.s ∧ t.hart.m = s.hart.m
        ∧ t.hart.gens = s.hart.gens ∧ SameRegs s t
        ∧ (d.nw = false → ∀ j < s.vc.max, t.hart.elem s.vc.vlen d.reg.toNat w j
            = afterWrite s w (2 ^ w - 1) (s.sel k) j (s.hart.elem s.vc.vlen d.reg.toNat w j) (leNat (bs j)))
        ∧ (∀ r < 32, d.nw = true ∨ r < d.reg.toNat ∨ d.reg.toNat + L ≤ r → vget t.hart.v r 0 = vget s.hart.v r 0) := by
    have moved := s.afterElems_cachesMoved k va p
    obtain ⟨elems, others, ⟨b, path, -⟩, ⟨scalars, masks, regs, only⟩⟩ := State.vectorDone_of_loads (m := s.vc.vl) moved.vc_eq le_rfl moved.lanesOn_eq dst.1
      (fun j hj _ => hj) fun j hj => (loads j hj).2
    rw [moved.vc_eq, moved.hart_eq] at elems
    rw [moved.hart_eq] at others scalars masks
    unfold SameRegs at regs
    rw [moved.hart_eq] at regs
    refine ⟨_, b, arm.trans (State.vload_eq width dst mask admits address elements fun j hj => (loads j hj).1),
      pathDone_of_paths path (fun p => by rw [moved.hart_eq]) moved.cur_eq, moved.onlyHartAndCaches only, scalars, masks, ?gens, regs, fun write j hj => ?elems, others⟩
    case gens => rw [retireAfter, State.writeV, (State.putV_vectorsOnly ..).gens, moved.hart_eq]
    case elems =>
      have inside : j < s.vc.lmul * (s.vc.vlen / s.vc.sew) := s.max_eq ▸ hj
      rw [elems write j inside, if_pos hj, afterWrite_congr (m := s.vc.vl) moved.vc_eq moved.lanesOn_eq Iff.rfl]
  rcases form with ⟨rfl, rfl, rfl, rfl⟩ | ⟨rfl, stride, rfl, rfl, rfl⟩ | ⟨rfl, index, fits, apart, heldB, rfl, rfl, rfl⟩
  · exact loaded (fun _ => true) rfl (State.unitAddr_eq operand) rfl
  · exact loaded (fun _ => true) rfl (State.strideAddr_eq operand stride) rfl
  · exact loaded (fun c => indexOk c b x.xw && (8 * 2 ^ x.xw.toNat == c.sew || !dstMeets d c.lmul b (indexRegs c x.xw))) (by simpa [fits] using apart) (State.indexAddr_eq operand index heldB) rfl

theorem firstFaultLoadStopsAtTheFirstFailingElement : FirstFaultLoadStopsAtTheFirstFailingElement := by
  intro s d a k l base bs m tr first w read group operand dst mask firstMem firstBelow reads stops
  have readEq (j : Nat) : read j = (s.readElem l base j).map (·.2) := (s.readElem_bytes l base j).symm
  obtain ⟨front, el, f, run, number, reaches, before, le⟩ := State.firstFault_run (fun j hj below => (readEq j).symm.trans (reads j hj below).1)
    (stops.imp_right fun ⟨mem, fails, cause⟩ => ⟨mem, error_of_map ((readEq m).symm.trans fails), endsLoad_of_mem cause⟩)
  have nonempty : front.map (fun j => (el j, leNat (bs j))) ≠ [] := fun empty =>
    List.ne_nil_of_mem ((before first).mpr ⟨firstMem, firstBelow⟩) (List.map_eq_nil_iff.mp empty)
  have next := State.vldff_eq group operand dst mask nonempty run reaches
  rw [List.map_map] at next
  simp only [Function.comp_def, number] at next
  generalize (front.map fun j => (el j, leNat (bs j))).flatMap (fun x => x.1.w.loads x.1.va) = loads at next
  have vc := s.afterFirstFault_vc le loads
  have lanes := s.afterFirstFault_lanesOn m loads
  obtain ⟨elems, others, ⟨b, path, -⟩, ⟨scalars, masks, regs, only⟩⟩ := State.vectorDone_of_loads vc le lanes dst.1
    (fun j hj below => (before j).mpr ⟨hj, below⟩) fun j hj => (reads j ((before j).mp hj).1 ((before j).mp hj).2).2
  have hart := s.hart_afterFirstFault m loads
  refine ⟨_, b, next, pathDone_of_paths path (fun p => by rw [hart]; rfl) (s.afterFirstFault_cur m loads), ?length, fun write j below hj => ?elems, ?others, ?_, ?_,
    (s.touch_cachesMoved loads).onlyHartAndCaches (onlyHart_trans (State.setHart_onlyHart _ _) only)⟩
  case length =>
    rw [vl_of_sameRegs regs, hart]
  case elems =>
    have inside : j < s.vc.lmul * (s.vc.vlen / s.vc.sew) := s.max_eq ▸ hj
    have held : (s.afterFirstFault m loads).hart.elem s.vc.vlen d.reg.toNat s.vc.sew j = s.hart.elem s.vc.vlen d.reg.toNat s.vc.sew j :=
      Hart.elem_congr (by rw [hart]) ..
    have vlen : (s.afterFirstFault m loads).vc.vlen = s.vc.vlen := by rw [vc]
    have max : (s.afterFirstFault m loads).vc.max = s.vc.max := by rw [vc]; rfl
    have found := elems write j (vlen ▸ inside)
    rw [vlen, max] at found
    have side : m ≤ j ↔ s.vc.vl ≤ j := iff_of_false (by omega) (by omega)
    rw [found, if_pos hj, held, afterWrite_congr vc lanes side]
  case others =>
    intro r low other
    rw [others r low other, hart]
  · rw [scalars, hart]
  · rw [masks, hart]

/-- Settles O19: the elements that are read are written by R110, up to the element at which a first-fault load stops. -/
theorem vectorLoadAndFirstFaultResults : Obligations.VectorLoadAndFirstFaultResults := ⟨vectorLoadResults, firstFaultLoadStopsAtTheFirstFailingElement⟩

end Sys2Proof.Claims
end

