-- ==== Sys2Proof/Proofs/StoreQueue.lean ====
section
/-! PROOFS. Entering the store queue (R224, R250, R408): the entry, the counters that rise, and what stays. -/

namespace Sys2Proof.Machine
open Sys2Proof.Claims

/-! ## Counters -/

theorem Hart.counter_raiseCtr (h : Hart) {i : Nat} (hi : i < 8) (id k : Nat) : (h.raiseCtr i id).counter k = h.counter k + if k = i then 1 else 0 := by
  rw [Hart.raiseCtr, Hart.counter, vget_vset, Hart.counter]
  by_cases same : i = k
  · subst same
    rw [if_pos ⟨rfl, hi⟩, if_pos rfl, List.length_append, List.length_singleton]
  · rw [if_neg fun h => same h.1, if_neg (Ne.symm same), Nat.add_zero]

/-- The registers once an operation has its number and has raised `st` for a local target and `fab` for a remote one. -/
def Hart.raised (h : Hart) (loc rem : Bool) : Hart :=
  let h₀ := { h with nextOp := h.nextOp + 1 }
  let h₁ := if loc then h₀.raiseCtr kSt h.nextOp else h₀
  if rem then h₁.raiseCtr kFab h.nextOp else h₁

theorem Hart.raised_fields (h : Hart) (loc rem : Bool) :
    h.raised loc rem = { h with ledger := (h.raised loc rem).ledger, nextOp := (h.raised loc rem).nextOp } := by
  cases loc <;> cases rem <;> rfl

theorem Hart.raised_sq (h : Hart) (loc rem : Bool) : (h.raised loc rem).sq = h.sq := by rw [h.raised_fields]
theorem Hart.raised_region (h : Hart) (loc rem : Bool) : (h.raised loc rem).region = h.region := by rw [h.raised_fields]

theorem Hart.counter_raised (h : Hart) (loc rem : Bool) (k : Nat) :
    (h.raised loc rem).counter k = h.counter k + if (k = kSt ∧ loc = true) ∨ (k = kFab ∧ rem = true) then 1 else 0 := by
  have st (g : Hart) := g.counter_raiseCtr (show kSt < 8 by decide) h.nextOp k
  have fab (g : Hart) := g.counter_raiseCtr (show kFab < 8 by decide) h.nextOp k
  have same : ({ h with nextOp := h.nextOp + 1 } : Hart).counter k = h.counter k := rfl
  have apart : k = kSt → k ≠ kFab := by rintro rfl; decide
  unfold Hart.raised
  cases loc <;> cases rem <;> simp [st, fab, same]
  grind

/-! ## Entering the queue -/

section
variable {s : State} {op : SQOp} {st fab release : Bool} {sc : Scope} {n : Nat}

/-- The entry of an operation that is issued now. -/
def State.entry (s : State) (op : SQOp) (st fab release : Bool) (sc : Scope) (inRegion : Bool) : SQEntry :=
  ⟨s.hart.nextOp, op, release, sc, st, fab, inRegion⟩

/-- An entry that stands in the queue or the region, with the counters raised, has entered. -/
theorem State.enters_of_hart {sq : List SQEntry} {region : Option Region} {inRegion : Bool}
    (queued : match s.hart.region with
      | some r => if fab = true ∨ release = true then sq = s.hart.sq ∧ region = some { r with items := r.items ++ [s.entry op st fab release sc inRegion] }
                  else sq = s.hart.sq ++ [s.entry op st fab release sc inRegion]
                    ∧ region = some { r with items := r.items.map (·.without (s.entry op st fab release sc inRegion).targets) }
      | none => sq = s.hart.sq ++ [s.entry op st fab release sc inRegion] ∧ region = none) :
    Enters s ((s.setHart { s.hart.raised st fab with sq := sq, region := region }).retire n Latch.none) op st fab release sc n := by
  have hart : (s.setHart { s.hart.raised st fab with sq := sq, region := region }).hart
      = { s.hart with ledger := (s.hart.raised st fab).ledger, nextOp := (s.hart.raised st fab).nextOp, sq := sq, region := region } := by
    rw [State.hart_setHart, s.hart.raised_fields]
  refine ⟨s.entry op st fab release sc inRegion, rfl, rfl, rfl, rfl, rfl, rfl, ?queued, ?counters, ?near, ?path, ?only, ?fields⟩
  case queued =>
    have held : ((s.setHart { s.hart.raised st fab with sq := sq, region := region }).retire n Latch.none).hart.sq = sq
        ∧ ((s.setHart { s.hart.raised st fab with sq := sq, region := region }).retire n Latch.none).hart.region = region := by
      rw [State.retire_hart, hart]
      simp
    rw [held.1, held.2]
    exact queued
  case counters =>
    intro k _
    have ledger : ((s.setHart { s.hart.raised st fab with sq := sq, region := region }).retire n Latch.none).hart.counter k = (s.hart.raised st fab).counter k := by
      rw [State.retire_hart, hart]
      simp [Hart.counter]
    rw [ledger, Hart.counter_raised]
    simp
  case near =>
    rw [State.retire_hart, hart]
    simp
  case path => exact pathDone_of_paths (State.retire_pathDone _ n _) (fun p => by rw [hart]; rfl) (by rw [State.setHart_cur])
  case only => exact onlyHart_trans (s.setHart_onlyHart _) (State.retire_onlyHart _ _ _)
  case fields =>
    rw [State.retire_hart, hart]
    cases (s.setHart { s.hart.raised st fab with sq := sq, region := region }).cur.path <;> rfl

/-- An operation for which there is room enters the queue, or the open region (R224, R408). -/
theorem State.issue_enters (room : Room s op st fab release) :
    ∃ u, s.issue op st fab release sc = .ok u ∧ Enters s (u.retire n Latch.none) op st fab release sc n := by
  obtain ⟨stRoom, fabRoom, lines⟩ := room
  have below : ((st && decide (65535 ≤ s.hart.counter kSt)) || (fab && decide (65535 ≤ s.hart.counter kFab))) = false := by
    simp only [Bool.or_eq_false_iff, Bool.and_eq_false_imp, decide_eq_false_iff_not, not_le]
    exact ⟨stRoom, fabRoom⟩
  have run : s.issue op st fab release sc = match (s.hart.raised st fab).region with
      | some r =>
        if fab || release then
          if 64 < heldLines (r.items ++ [s.entry op st fab release sc true]) then .error .full
          else .ok (s.setHart { s.hart.raised st fab with region := some { r with items := r.items ++ [s.entry op st fab release sc true] } })
        else .ok (s.setHart { s.hart.raised st fab with
          sq := (s.hart.raised st fab).sq ++ [s.entry op st fab release sc false],
          region := some { r with items := r.items.map (·.without (s.entry op st fab release sc false).targets) } })
      | none => .ok (s.setHart { s.hart.raised st fab with sq := (s.hart.raised st fab).sq ++ [s.entry op st fab release sc false] }) := by
    exact if_neg (Bool.eq_false_iff.mp below)
  rw [run, Hart.raised_region, Hart.raised_sq]
  cases region : s.hart.region with
  | none =>
    refine ⟨_, rfl, ?_⟩
    have same : { s.hart.raised st fab with sq := s.hart.sq ++ [s.entry op st fab release sc false] }
        = { s.hart.raised st fab with sq := s.hart.sq ++ [s.entry op st fab release sc false], region := none } := by
      rw [← region, ← s.hart.raised_region st fab]
    rw [same]
    exact s.enters_of_hart (inRegion := false) (by rw [region]; exact ⟨rfl, rfl⟩)
  | some r =>
    dsimp only
    by_cases held : fab = true ∨ release = true
    · have fits := lines r region held (s.entry op st fab release sc true) rfl
      rw [if_pos (by simpa using held), if_neg (Nat.not_lt.mpr fits)]
      refine ⟨_, rfl, ?_⟩
      have same : { s.hart.raised st fab with region := some { r with items := r.items ++ [s.entry op st fab release sc true] } }
          = { s.hart.raised st fab with sq := s.hart.sq, region := some { r with items := r.items ++ [s.entry op st fab release sc true] } } := by
        rw [← s.hart.raised_sq st fab]
      rw [same]
      exact s.enters_of_hart (inRegion := true) (by rw [region]; exact (if_pos held).mpr ⟨rfl, rfl⟩)
    · rw [if_neg (by simpa using held)]
      exact ⟨_, rfl, s.enters_of_hart (inRegion := false) (by rw [region]; exact (if_neg held).mpr ⟨rfl, rfl⟩)⟩

end

end Sys2Proof.Machine
end

