-- ==== Sys2Proof/Proofs/VectorStores.lean ====
section
/-! PROOFS. Vector stores (R136 to R139, R224, R229): the bytes of the active elements in one entry of the store queue, or in the bank. -/

namespace Sys2Proof.Machine
open Sys2Proof.Claims

/-! ## Bytes at places -/

theorem Tgt.device_plus (t : Tgt) (i : Nat) : (t.plus i).device = t.device := by cases t <;> rfl

theorem cellsAt_device {t : Tgt} {bs : List Byte} {c : Tgt × Byte} (mem : c ∈ cellsAt t bs) : c.1.device = t.device := by
  obtain ⟨i, -, rfl⟩ := List.mem_map.mp mem
  exact t.device_plus i

/-- The bytes of a list of parts, each at its place. -/
def cellsOf (parts : List (Place × List Byte)) : List (Tgt × Byte) := parts.flatMap fun p => cellsAt p.1.tgt p.2

section
variable {s : State} {va : Word64} {size : Nat} {parts : List (Place × List Byte)}

theorem cellsOf_isRemote (near : ∀ p ∈ parts, p.1.tgt.device = none) {c : Tgt × Byte} (mem : c ∈ cellsOf parts) : c.1.isRemote = false := by
  obtain ⟨p, hp, hc⟩ := List.mem_flatMap.mp mem
  rw [Tgt.isRemote, cellsAt_device hc, near p hp]
  rfl

/-- A plain store of bytes in this device's memory is one operation, where there is a byte. -/
theorem State.storeBytes_near (group : s.onBank = false) (near : ∀ p ∈ parts, p.1.tgt.device = none) :
    s.storeBytes va size parts false .grp
      = if (cellsOf parts).isEmpty then .ok s else s.issue (.bytes (cellsOf parts) va size) true false false .grp := by
  have local_ : (cellsOf parts).filter (fun c => !c.1.isRemote) = cellsOf parts :=
    List.filter_eq_self.mpr fun c hc => by rw [cellsOf_isRemote near hc]; rfl
  have away : (cellsOf parts).filter (fun c => c.1.isRemote) = [] :=
    List.filter_eq_nil_iff.mpr fun c hc => by rw [cellsOf_isRemote near hc]; decide
  have run : s.storeBytes va size parts false .grp = (do
      let s ← if ((cellsOf parts).filter fun c => !c.1.isRemote).isEmpty then .ok s
        else s.issue (.bytes ((cellsOf parts).filter fun c => !c.1.isRemote) va size) true false false .grp
      if ((cellsOf parts).filter fun c => c.1.isRemote).isEmpty then .ok s
      else s.issue (.bytes ((cellsOf parts).filter fun c => c.1.isRemote) va size) false true false .grp) := by
    rw [State.storeBytes, group]
    rfl
  rw [run, local_, away]
  cases (cellsOf parts).isEmpty with
  | true => rfl
  | false =>
    simp only [Bool.false_eq_true, if_false]
    cases s.issue (.bytes (cellsOf parts) va size) true false false .grp <;> rfl

/-- What a store leaves of a state in a bank. -/
def State.bankStored (s : State) (parts : List (Place × List Byte)) : State :=
  parts.foldl (fun s p => match p.1.tgt with | .home k => s.pokeBank k p.2 | _ => s) s

theorem State.storeBytes_bank (bank : s.onBank = true) : s.storeBytes va size parts false .grp = .ok (s.bankStored parts) := by
  rw [State.storeBytes, if_pos bank]
  rfl

theorem State.bankStored_rest (s : State) (parts : List (Place × List Byte)) :
    s.bankStored parts = { s with mem := (s.bankStored parts).mem, poisoned := (s.bankStored parts).poisoned, dirty := (s.bankStored parts).dirty } := by
  refine List.foldlRecOn (motive := fun u : State => u = { s with mem := u.mem, poisoned := u.poisoned, dirty := u.dirty }) parts _ rfl fun u rest p _ => ?_
  split
  · rw [State.pokeBank, rest]
    rfl
  · exact rest

theorem State.bankStored_mem (s : State) (parts : List (Place × List Byte)) :
    (s.bankStored parts).mem = parts.foldl (fun m p => match p.1.tgt with | .home k => m.write k p.2 | _ => m) s.mem := by
  refine (List.foldl_hom State.mem fun u p => ?_).symm
  split <;> rfl

end

/-! ## The elements of a store -/

section
variable {s : State} {d : BitVec 6} {k : MSel} {wins : Wins} {sp : Space} {e va : Nat → Word64} {p : Nat → Place}

/-- The bytes of the elements that take part, at their places. -/
def partsAt (s : State) (k : MSel) (p : Nat → Place) (val : Nat → Nat) : List (Place × List Byte) :=
  (actives s k).map fun j => (p j, leBytes (s.vc.sew / 8) (val j))

theorem State.storeElems_eq (val : Nat → Nat) : s.storeElems s.vc ((elemsAt s k va p).map fun x => (x, val x.i))
    = s.storeBytes (((actives s k).head?.map va).getD 0) (s.vc.sew / 8) (partsAt s k p val) false .grp := by
  have memory : ((elemsAt s k va p).map fun x => (x, val x.i)).all (fun x => x.1.w != .ap) = true := by
    simp only [elemsAt, List.map_map, List.all_map, List.all_eq_true]
    exact fun j _ => bne_iff_ne.mpr nofun
  have first : (((elemsAt s k va p).map fun x => (x, val x.i)).head?.map (·.1.va)).getD 0 = ((actives s k).head?.map va).getD 0 := by
    rw [elemsAt, List.map_map, List.head?_map, Option.map_map]
    rfl
  have parts : ((elemsAt s k va p).map fun x => (x, val x.i)).filterMap (fun x => match x.1.w with
      | .mem p => some (p, leBytes (s.vc.sew / 8) x.2)
      | .ap => none) = partsAt s k p val := by
    rw [elemsAt, List.map_map, List.filterMap_map, partsAt]
    exact congrFun List.filterMap_eq_map _
  rw [← first, ← parts]
  exact if_pos memory

theorem State.vstore_eq {ok : VC → Bool} {addr : Res (Nat → Word64)} {u : State} (width : s.sewOk s.vc = true) (regs : s.vc.regOk d.toNat s.vc.lmul = true)
    (held : s.heldRegs d.toNat s.vc.lmul = .ok ()) (mask : s.vc.selOk k = true) (admits : ok s.vc = true) (address : addr = .ok e)
    (elements : Elements s k aStore wins sp e va p)
    (stored : s.storeBytes (((actives s k).head?.map va).getD 0) (s.vc.sew / 8) (partsAt s k p fun j => s.hart.elem s.vc.vlen d.toNat s.vc.sew j) false .grp = .ok u) :
    s.vstore d k ok wins sp addr = .next (u.retire 2 Latch.none) := by
  unfold State.vstore
  simp only [width, regs, mask, admits, Bool.and_self, needOp, need_ok, address, held, bind, Except.bind, State.findElems_eq elements, State.storeElems_eq, stored]
  rfl

/-- Each element that takes part has a byte. -/
theorem flatMap_cells_isEmpty {w : Nat} (hw : ElemWidth w) {is : List Nat} (some_ : is ≠ []) (tgt : Nat → Tgt) (val : Nat → Nat) :
    (is.flatMap fun j => cellsAt (tgt j) (leBytes (w / 8) (val j))).isEmpty = false := by
  obtain ⟨i, is, rfl⟩ := List.exists_cons_of_ne_nil some_
  rcases hw with rfl | rfl | rfl | rfl <;> rfl

end

end Sys2Proof.Machine

namespace Sys2Proof.Claims
open Sys2Proof.Machine

/-- Settles O20: the active elements' bytes are one entry of the store queue, or in a bank one write after another. -/
theorem vectorStoreEffects : Obligations.VectorStoreEffects := by
  intro s d a b k l x base step idx i sp wins e va p w L xw offset operand form width regs held mask elements near data op
  have stored {u : State} (run : s.storeBytes (((actives s k).head?.map va).getD 0) (s.vc.sew / 8)
      (partsAt s k p fun j => s.hart.elem s.vc.vlen d.toNat s.vc.sew j) false .grp = .ok u) : exec i s = .next (u.retire 2 Latch.none) := by
    rcases form with ⟨rfl, rfl, rfl, rfl⟩ | ⟨rfl, stride, rfl, rfl, rfl⟩ | ⟨rfl, index, fits, heldB, rfl, rfl, rfl⟩
    · exact State.vstore_eq (ok := fun _ => true) width regs held mask rfl (State.unitAddr_eq operand) elements run
    · exact State.vstore_eq (ok := fun _ => true) width regs held mask rfl (State.strideAddr_eq operand stride) elements run
    · exact State.vstore_eq (ok := fun c => indexOk c b x.xw) width regs held mask fits (State.indexAddr_eq operand index heldB) elements run
  have nearParts : ∀ q ∈ partsAt s k p (fun j => s.hart.elem s.vc.vlen d.toNat s.vc.sew j), q.1.tgt.device = none := by
    intro q hq
    obtain ⟨j, hj, rfl⟩ := List.mem_map.mp hq
    exact near j hj
  have cells : cellsOf (partsAt s k p fun j => s.hart.elem s.vc.vlen d.toNat s.vc.sew j) = (actives s k).flatMap fun j => cellsAt (p j).tgt (data j) := by
    rw [cellsOf, partsAt, List.flatMap_map]
  refine ⟨fun group none_ => ?_, fun group some_ room => ?_, fun bank => ?_⟩
  · have run := State.storeBytes_near (va := ((actives s k).head?.map va).getD 0) (size := s.vc.sew / 8) group nearParts
    rw [cells, none_] at run
    exact ⟨_, stored (by rw [none_]; exact run), s.retire_passed 2⟩
  · have run := State.storeBytes_near (va := ((actives s k).head?.map va).getD 0) (size := s.vc.sew / 8) group nearParts
    obtain ⟨u, issued, enters⟩ := State.issue_enters (sc := .grp) (n := 2) room
    rw [cells, if_neg (by rw [flatMap_cells_isEmpty s.sew_width some_]; decide)] at run
    exact ⟨_, stored (run.trans issued), enters⟩
  · have rest := s.bankStored_rest (partsAt s k p fun j => s.hart.elem s.vc.vlen d.toNat s.vc.sew j)
    have memory := s.bankStored_mem (partsAt s k p fun j => s.hart.elem s.vc.vlen d.toNat s.vc.sew j)
    have hart : (s.bankStored (partsAt s k p fun j => s.hart.elem s.vc.vlen d.toNat s.vc.sew j)).hart = s.hart := by rw [rest]; rfl
    rw [partsAt, List.foldl_map] at memory
    refine ⟨_, stored (State.storeBytes_bank bank), pathDone_of_paths (State.retire_pathDone _ 2 _) (fun q => by rw [hart]) (by rw [rest]), ?_, ?_, memory, ?_⟩
    · rw [State.retire_hart, hart]
      simp
    · rw [State.retire_v, hart]
    · show (s.bankStored _).teams = s.teams
      rw [rest]

end Sys2Proof.Claims
end

