-- ==== Sys2Proof/Proofs/StreamRules.lean ====
section
/-! PROOFS. The sequencer of a team as a part of the state (R162, R163): what its updates leave, how a stream instruction goes on, stalls and faults. -/

namespace Sys2Proof.Machine
open Sys2Proof.Claims

/-! ## The sequencer within the state -/

theorem State.teamOf_modSeq (s : State) (k : Nat) (f : Seq → Seq) : (s.modSeq k f).teamOf k = { s.teamOf k with seq := f (s.teamOf k).seq } :=
  s.teamOf_setTeamOf k _
theorem State.teamOf_modSeq_ne (s : State) {k j : Nat} (n : j ≠ k) (f : Seq → Seq) : (s.modSeq k f).teamOf j = s.teamOf j :=
  s.teamOf_setTeamOf_ne n _
theorem State.modSeq_liveGids (s : State) (k : Nat) (f : Seq → Seq) (j : Nat) : (s.modSeq k f).liveGids j = s.liveGids j := rfl

theorem State.team_mapSeq (s : State) (f : Seq → Seq) : (s.mapSeq f).team = { s.team with seq := f s.seq } := s.teamOf_modSeq _ f
@[simp] theorem State.seq_mapSeq (s : State) (f : Seq → Seq) : (s.mapSeq f).seq = f s.seq := by rw [State.seq, State.team_mapSeq]
@[simp] theorem State.seq_setTeam (s : State) (t : Team) : (s.setTeam t).seq = t.seq := by rw [State.seq, State.team_setTeam]
@[simp] theorem State.seq_nextWord (s : State) (n : Nat) : (s.nextWord n).seq = s.seq.retire n := s.seq_setTeam _
theorem State.team_nextWord (s : State) (n : Nat) : (s.nextWord n).team = { s.team.forget 0 with seq := s.seq.retire n } := s.team_setTeam _

theorem Seq.src_eq (s : State) (a : Src) : s.seq.src a = streamValue s a := by cases a <;> rfl

/-- The sequencer past an instruction of n words of its clause (R23 step 6). -/
theorem Seq.retire_eq {q : Seq} {c : Clause} (clause : q.clause = some c) (n : Nat) :
    q.retire n = if c.idx + n ≤ c.count then { q with clause := some { c with idx := c.idx + n }, stalled := false }
      else { q with clause := none, spc := c.hdr + BitVec.ofNat 64 (4 * (c.count + 1)), stalled := false } := by
  unfold Seq.retire
  rw [clause]

/-! ## Only the stream changes -/

/-- A team that differs in its sequencer and in received data alone is a change of the stream. -/
theorem State.setTeam_onlyStream (s : State) {t : Team} (same : t = { s.team with seq := t.seq, arrived := t.arrived, asked := t.asked, bad := t.bad }) :
    OnlyStream s (s.setTeam t) where
  team := by rwa [State.team_setTeam]
  others _ other := s.teamOf_setTeamOf_ne other t
  cores _ := rfl
  harts _ := rfl
  rest := rfl

theorem State.mapSeq_onlyStream (s : State) (f : Seq → Seq) : OnlyStream s (s.mapSeq f) := s.setTeam_onlyStream rfl
theorem State.nextWord_onlyStream (s : State) (n : Nat) : OnlyStream s (s.nextWord n) := s.setTeam_onlyStream rfl

theorem onlyStream_trans {s t u : State} (a : OnlyStream s t) (b : OnlyStream t u) : OnlyStream s u where
  team := by
    have cur : t.cur = s.cur := by rw [a.rest]
    rw [b.team, a.team]
  others j other := by
    have cur : t.cur = s.cur := by rw [a.rest]
    rw [b.others j (cur ▸ other), a.others j other]
  cores c := (b.cores c).trans (a.cores c)
  harts i := (b.harts i).trans (a.harts i)
  rest := by rw [b.rest, a.rest]

/-! ## Going on, stalling, faulting -/

theorem needOp_ok {b : Bool} (h : b = true) : needOp b = .ok () := need_ok h _ _

/-- A stream instruction that leaves a sequencer at the same clause, and then goes on, has passed. -/
theorem State.nextWord_passed_of_seq {s u : State} {q : Seq} (result : u.seq = q) (kept : q.clause = s.seq.clause) (only : OnlyStream s u) (n : Nat) :
    StreamPassed s (u.nextWord n) q n where
  seq c clause := by rw [State.seq_nextWord, result, Seq.retire_eq (kept.trans clause)]
  only := onlyStream_trans only (u.nextWord_onlyStream n)

theorem State.mapSeq_passed (s : State) {f : Seq → Seq} {q : Seq} (result : f s.seq = q) (kept : q.clause = s.seq.clause) (n : Nat) :
    StreamPassed s ((s.mapSeq f).nextWord n) q n :=
  State.nextWord_passed_of_seq ((s.seq_mapSeq f).trans result) kept (s.mapSeq_onlyStream f) n

theorem State.nextWord_passed (s : State) (n : Nat) : StreamPassed s (s.nextWord n) s.seq n where
  seq c clause := by rw [State.seq_nextWord, Seq.retire_eq clause]
  only := s.nextWord_onlyStream n

theorem State.seqStopped_stalls (s : State) : StreamStalls s (s.seqStopped s.cur.team .stall) := ⟨s.seq_mapSeq _, s.mapSeq_onlyStream _⟩

/-- A formats check that fails faults the stream at its word, whatever the instruction (R53, R54, R150). -/
theorem State.finishSeq_formats {s : State} (bad : s.team.formatsOk = false) (r : Res State) :
    s.finishSeq r = .next (s.mapSeq fun q => { q with fault := q.fault <|> some (.featureAbsent, q.wordAddr), stalled := false }) := by
  unfold State.finishSeq
  rw [bad]
  rfl

end Sys2Proof.Machine
end

