-- ==== Sys2Proof/Proofs/RowIssue.lean ====
section
/-! PROOFS. Issuing rows (R170, R172, R177, R178): what joins the rows of the stream, what the adapter cache may do meanwhile, and what stays. -/

namespace Sys2Proof.Machine
open Sys2Proof.Claims

/-! ## The adapter cache -/

/-- From s to t only the segments and the fetches of adapter caches differ, and no segment is new. -/
structure State.AdapterCacheMoved (s t : State) : Prop where
  rest : t = { s with cores := t.cores }
  core : ∀ c, t.coreOf c = { s.coreOf c with segs := (t.coreOf c).segs, fetches := (t.coreOf c).fetches }
  segs : ∀ c g, g ∈ (t.coreOf c).segs → g ∈ (s.coreOf c).segs

namespace State.AdapterCacheMoved

theorem refl (s : State) : s.AdapterCacheMoved s := ⟨rfl, fun _ => rfl, fun _ _ h => h⟩

theorem trans {s t u : State} (a : s.AdapterCacheMoved t) (b : t.AdapterCacheMoved u) : s.AdapterCacheMoved u where
  rest := by rw [b.rest, a.rest]
  core c := by rw [b.core, a.core]
  segs c g h := a.segs c g (b.segs c g h)

theorem foldl {α : Type} {f : State → α → State} (hf : ∀ (s : State) (a : α), s.AdapterCacheMoved (f s a)) (l : List α) (s : State) :
    s.AdapterCacheMoved (l.foldl f s) :=
  List.foldlRecOn (motive := s.AdapterCacheMoved) l f (refl s) fun u hu a _ => hu.trans (hf u a)

theorem setCoreOf {s : State} {k : Nat} {x : Core} (same : x = { s.coreOf k with segs := x.segs, fetches := x.fetches })
    (old : ∀ g ∈ x.segs, g ∈ (s.coreOf k).segs) : s.AdapterCacheMoved (s.setCoreOf k x) where
  rest := rfl
  core c := by
    by_cases here : c = k
    · subst here
      rwa [State.coreOf_setCoreOf]
    · rw [State.coreOf_setCoreOf_ne _ here]
  segs c g h := by
    by_cases here : c = k
    · subst here
      rw [State.coreOf_setCoreOf] at h
      exact old g h
    · rwa [State.coreOf_setCoreOf_ne _ here] at h

end State.AdapterCacheMoved

/-- Making room in the cache drops at most a segment (R177). -/
theorem State.segRoom_some {s : State} {c x : Core} (room : s.segRoom c = some x) : x = { c with segs := x.segs } ∧ ∀ g ∈ x.segs, g ∈ c.segs := by
  unfold State.segRoom at room
  split at room
  · cases room
    exact ⟨rfl, fun _ h => h⟩
  · obtain ⟨g, -, rfl⟩ := Option.map_eq_some_iff.mp room
    exact ⟨rfl, fun _ h => List.mem_of_mem_erase h⟩

theorem State.fetchSegs_moved (s : State) (core k a : Nat) (up : Bool) (ns : List Nat) (row : Bool) :
    s.AdapterCacheMoved (s.fetchSegs core k a up ns row) := by
  refine .foldl (fun u n => ?_) ns s
  dsimp only
  split
  · next g present =>
    refine .setCoreOf rfl fun e he => ?_
    rcases List.mem_append.mp he with old | new
    · exact List.mem_of_mem_erase old
    · rw [List.mem_singleton.mp new]
      exact List.mem_of_find?_eq_some present
  · split
    · exact .refl u
    · split
      · next x room =>
        obtain ⟨same, old⟩ := State.segRoom_some room
        exact .setCoreOf (by rw [same]) old
      · split
        · exact .setCoreOf rfl fun _ h => h
        · exact .refl u

/-! ## Rows join the stream -/

/-- Rows have joined those of the focus's stream, with the members that they make; each may have joined the replay queue. -/
structure State.RowsIssued (s t : State) (rows : List IssuedRow) : Prop where
  seq : ∃ rs, issuedAs rs = issuedAs rows ∧ ((∀ r ∈ rows, r.needs.1 = 0) → rs = rows)
    ∧ t.seq = { s.seq with rows := s.seq.rows ++ rs, members := s.seq.members ++ (rows.map fun r => r.needs.1).filter (· ≠ 0) }
  team : t.team = { s.team with seq := t.team.seq }
  others : ∀ j, j ≠ s.cur.team → t.teamOf j = s.teamOf j
  core : ∀ c, t.coreOf c = { s.coreOf c with segs := (t.coreOf c).segs, fetches := (t.coreOf c).fetches }
  segs : ∀ c g, g ∈ (t.coreOf c).segs → g ∈ (s.coreOf c).segs
  plain : (∀ r ∈ rows, r.needs.1 = 0) → t.cores = s.cores
  rest : t = { s with teams := t.teams, cores := t.cores }

theorem issuedAs_append (xs ys : List IssuedRow) : issuedAs (xs ++ ys) = issuedAs xs ++ issuedAs ys := List.map_append

namespace State.RowsIssued

theorem refl (s : State) : s.RowsIssued s [] where
  seq := ⟨[], rfl, fun _ => rfl, by simp⟩
  team := rfl
  others _ _ := rfl
  core _ := rfl
  segs _ _ h := h
  plain _ := rfl
  rest := rfl

theorem trans {s t u : State} {xs ys : List IssuedRow} (a : s.RowsIssued t xs) (b : t.RowsIssued u ys) : s.RowsIssued u (xs ++ ys) where
  seq := by
    obtain ⟨rs, same, plain, seq⟩ := a.seq
    obtain ⟨rs', same', plain', seq'⟩ := b.seq
    refine ⟨rs ++ rs', ?_, fun none_ => ?_, ?_⟩
    · rw [issuedAs_append, issuedAs_append, same, same']
    · obtain ⟨first, second⟩ := List.forall_mem_append.mp none_
      rw [plain first, plain' second]
    · rw [seq', seq]
      simp
  team := by rw [b.team, a.team]
  others j other := by
    have cur : t.cur = s.cur := by rw [a.rest]
    rw [b.others j (cur ▸ other), a.others j other]
  core c := by rw [b.core, a.core]
  segs c g h := a.segs c g (b.segs c g h)
  plain none_ := by
    obtain ⟨first, second⟩ := List.forall_mem_append.mp none_
    rw [b.plain second, a.plain first]
  rest := by rw [b.rest, a.rest]

/-- The adapter cache may fetch once a row that needs it has joined. -/
theorem cached {s t u : State} {r : IssuedRow} (a : s.RowsIssued t [r]) (adapter : r.needs.1 ≠ 0) (b : t.AdapterCacheMoved u) : s.RowsIssued u [r] := by
  obtain ⟨rest, core, segs⟩ := b
  have teams : u.teams = t.teams := by rw [rest]
  have cur : u.cur = t.cur := by rw [rest]
  have teamOf (j : Nat) : u.teamOf j = t.teamOf j := by rw [State.teamOf, teams, State.teamOf]
  have team : u.team = t.team := by rw [State.team, cur, teamOf, State.team]
  constructor
  · rw [State.seq, team]
    exact a.seq
  · rw [team]
    exact a.team
  · intro j other
    rw [teamOf, a.others j other]
  · intro c
    rw [core, a.core]
  · exact fun c g h => a.segs c g (segs c g h)
  · exact fun none_ => absurd (none_ r (List.mem_singleton.mpr rfl)) adapter
  · rw [rest, a.rest]

end State.RowsIssued

/-- A row as it joins the stream: queued where a segment that it needs is missing, or behind a queued row of its tiles and row index (R178). -/
def State.queuedRow (s : State) (r : IssuedRow) : IssuedRow :=
  let behind := s.seq.rows.any fun q => q.queued && q.row == r.row && q.tiles.any fun x => decide (x ∈ r.tiles)
  { r with queued := r.needs.1 != 0 && (!(s.coreOf s.team.core).holds s.cur.team r || behind) }

/-- One row joins the stream. -/
def State.joinRow (s : State) (r : IssuedRow) : State :=
  s.mapSeq fun q => { q with rows := q.rows ++ [s.queuedRow r], members := if r.needs.1 = 0 then q.members else q.members ++ [r.needs.1] }

theorem State.queuedRow_plain (s : State) {r : IssuedRow} (none_ : r.needs.1 = 0) (fresh : r.queued = false) : s.queuedRow r = r := by
  unfold State.queuedRow
  dsimp only
  rw [none_, bne_self_eq_false, Bool.false_and, ← fresh]

theorem State.joinRow_issued (s : State) {r : IssuedRow} (fresh : r.queued = false) : s.RowsIssued (s.joinRow r) [r] where
  seq := by
    refine ⟨[s.queuedRow r], rfl, fun none_ => ?_, ?_⟩
    · rw [s.queuedRow_plain (none_ r (List.mem_singleton.mpr rfl)) fresh]
    · rw [State.joinRow, State.seq_mapSeq]
      by_cases adapter : r.needs.1 = 0 <;> simp [adapter]
  team := by
    rw [State.joinRow, State.team_mapSeq]
  others j other := s.teamOf_modSeq_ne other _
  core _ := rfl
  segs _ _ h := h
  plain _ := rfl
  rest := rfl

theorem State.issueRows_cons (s : State) (r : IssuedRow) (rows : List IssuedRow) :
    s.issueRows (r :: rows) = (if r.needs.1 = 0 then s.joinRow r
      else (s.joinRow r).fetchSegs s.team.core s.cur.team r.needs.1 r.needs.2.1 r.needs.2.2 true).issueRows rows := rfl

/-- Issuing rows is all that `issueRows` does. -/
theorem State.issueRows_issued (s : State) {rows : List IssuedRow} (fresh : ∀ r ∈ rows, r.queued = false) : s.RowsIssued (s.issueRows rows) rows := by
  induction rows generalizing s with
  | nil => exact .refl s
  | cons r rows ih =>
    obtain ⟨first, others⟩ := List.forall_mem_cons.mp fresh
    have joined := s.joinRow_issued first
    rw [State.issueRows_cons]
    refine State.RowsIssued.trans (xs := [r]) ?_ (ih _ others)
    split
    · exact joined
    · next adapter => exact joined.cached adapter (State.fetchSegs_moved _ _ _ _ _ _ _)

/-- An instruction of n words that has issued its rows, and may have noted its product, goes on. -/
theorem State.RowsIssued.streamIssued {s u v : State} {rows : List IssuedRow} (a : s.RowsIssued u rows) (rest : v = { u with cores := v.cores })
    (noted : ∀ c, v.coreOf c = { u.coreOf c with lastSeq := (v.coreOf c).lastSeq }) (n : Nat) : StreamIssued s (v.nextWord n) rows n := by
  obtain ⟨⟨rs, same, plainRows, seq⟩, team, others, core, segs, plain, restU⟩ := a
  have vteam : v.team = u.team := by rw [rest]; rfl
  have vseq : v.seq = u.seq := by rw [State.seq, vteam, State.seq]
  have retired : (v.nextWord n).seq = u.seq.retire n := by rw [State.seq_nextWord, vseq]
  have rows_ : (v.nextWord n).seq.rows = s.seq.rows ++ rs := by
    rw [retired, seq]
    unfold Seq.retire
    split
    · rfl
    · split <;> rfl
  have members_ : (v.nextWord n).seq.members = s.seq.members ++ (rows.map fun r => r.needs.1).filter (· ≠ 0) := by
    rw [retired, seq]
    unfold Seq.retire
    split
    · rfl
    · split <;> rfl
  have vcore (c : Nat) : (v.nextWord n).coreOf c = { s.coreOf c with
      segs := (v.coreOf c).segs, fetches := (v.coreOf c).fetches, lastSeq := (v.coreOf c).lastSeq } := by
    show v.coreOf c = _
    rw [noted, core]
  have vsegs (c : Nat) : (v.coreOf c).segs = (u.coreOf c).segs := by rw [noted]
  have vfetches (c : Nat) : (v.coreOf c).fetches = (u.coreOf c).fetches := by rw [noted]
  have cur : v.cur = s.cur := by rw [rest, restU]
  constructor
  · rw [rows_, issuedAs_append, issuedAs_append, same]
  · intro k below
    rw [rows_, List.getElem?_append_left below]
  · intro none_
    rw [rows_, plainRows none_]
  · exact members_
  · intro c clause
    rw [rows_, members_, retired, Seq.retire_eq (by rw [seq]; exact clause), seq]
  · rw [State.team_nextWord, vteam, team]
    rfl
  · intro j other
    rw [← others j other, State.nextWord, State.setTeam, State.teamOf_setTeamOf_ne _ (cur ▸ other), rest]
    rfl
  · exact vcore
  · intro c g present
    exact segs c g (vsegs c ▸ present)
  · intro none_ c
    have cores : u.coreOf c = s.coreOf c := by rw [State.coreOf, plain none_, State.coreOf]
    exact ⟨(vsegs c).trans (by rw [cores]), (vfetches c).trans (by rw [cores])⟩
  · show v.setTeam _ = _
    rw [rest, restU]
    rfl

end Sys2Proof.Machine
end

