-- ==== Sys2Proof/Proofs/TeamRelease.lean ====
section
/-! PROOFS. The release of a team (R203, R210, R347, R437): what the discarding of its packets leaves of the rest, that no log entry is lost, and what is free afterwards. -/

namespace Sys2Proof.Machine

/-! ## The log only grows -/

theorem State.physWrite_service {w : State → Nat → List Byte → State} (hw : ∀ (s : State) k bs, (w s k bs).service = s.service)
    (s : State) (a : Nat) (bs : List Byte) : (s.physWrite w a bs).service = s.service := by
  refine List.foldlRecOn (motive := fun u : State => u.service = s.service) _ _ rfl fun u hu p _ => ?_
  cases homeKey p.1 with
  | none => exact hu
  | some k => exact (hw u k _).trans hu

theorem State.fsStore_service (s : State) (key pa asid : Nat) (bs : List Byte) (bad : Bool) : (s.fsStore key pa asid bs bad).service = s.service := by
  have raw (u : State) (a : Nat) (x : List Byte) : (u.physRaw a x).service = u.service :=
    State.physWrite_service (w := State.rawPoke) (fun _ _ _ => rfl) u a x
  have put (u : State) (x : List Byte) : (u.fsPut pa asid x).service = u.service := by
    unfold State.fsPut State.fsWriteRaw
    rw [raw, raw]
  unfold State.fsStore
  dsimp only
  split
  · dsimp only
    rw [put]
  · rfl

theorem State.poke_service (s : State) (t : Tgt) (bs : List Byte) (bad : Bool) : (s.poke none t bs bad).service = s.service := by
  cases t with
  | home k =>
    show ((s.pokeHome k bs bad).maybeEvict k bs.length).service = s.service
    rw [State.maybeEvict_rest]
    rfl
  | shared k pa asid =>
    exact List.foldlRecOn (motive := fun u : State => u.service = s.service) _ _ rfl fun u hu p _ => (State.fsStore_service u _ _ _ _ _).trans hu
  | spad k o => rfl
  | win c o a => rfl
  | remote d a x sh => rfl

theorem State.vwriteAux_service {asid va : Nat} {sys bad : Bool} {bs : List Byte} {ps : List (Nat × Nat)} {s t : State}
    (h : s.vwriteAux asid sys bad va bs ps = .ok t) : t.service = s.service := by
  induction ps generalizing s with
  | nil =>
    cases h
    rfl
  | cons p ps ih =>
    unfold State.vwriteAux at h
    split at h
    · cases h
    · dsimp only at h
      split at h
      · split at h
        · cases h
        · split at h
          · exact (ih h).trans (List.foldlRecOn (motive := fun u : State => u.service = s.service) _ _ rfl fun u hu _ _ => hu)
          · exact (ih (s := (s.sendPkt _).1) h).trans rfl
      · exact (ih h).trans (State.poke_service _ _ _ _)

theorem State.vwrite_service {s t : State} {asid va : Nat} {sys : Bool} {bs : List Byte} (h : s.vwrite asid sys va bs = .ok t) : t.service = s.service :=
  State.vwriteAux_service h

/-! ## What the discarding and the bouncing of packets may change -/

/-- From s to t packets have been discarded, refused, answered or kept in rings: counters fall, answers are received, memory is written, the log grows; teams keep everything but received data and their rings, and cores, launches and the place of the agents stay. -/
structure State.PacketsMoved (s t : State) : Prop where
  rest : t = { s with harts := t.harts, teams := t.teams, mem := t.mem, dirty := t.dirty, poisoned := t.poisoned, oracle := t.oracle,
                      fabric := t.fabric, service := t.service }
  team : ∀ j, t.teamOf j = { s.teamOf j with arrived := (t.teamOf j).arrived, asked := (t.teamOf j).asked, bad := (t.teamOf j).bad,
                                             bounced := (t.teamOf j).bounced, ringLogged := (t.teamOf j).ringLogged }
  log : s.service.log <+: t.service.log

namespace State.PacketsMoved

theorem refl (s : State) : s.PacketsMoved s := ⟨rfl, fun _ => rfl, List.prefix_rfl⟩

theorem trans {s t u : State} (a : s.PacketsMoved t) (b : t.PacketsMoved u) : s.PacketsMoved u where
  rest := by rw [b.rest, a.rest]
  team j := by rw [b.team, a.team]
  log := a.log.trans b.log

theorem foldl {α : Type} {f : State → α → State} (hf : ∀ (s : State) (a : α), s.PacketsMoved (f s a)) (l : List α) (s : State) :
    s.PacketsMoved (l.foldl f s) :=
  List.foldlRecOn (motive := s.PacketsMoved) l f (refl s) fun u hu a _ => hu.trans (hf u a)

theorem of_wrote {s t : State} (wrote : s.Wrote t) (log : s.service.log <+: t.service.log) : s.PacketsMoved t where
  rest := by rw [wrote]
  team j := by rw [wrote.teamOf_eq]
  log := log

theorem setHartOf (s : State) (i : HartId) (h : Hart) : s.PacketsMoved (s.setHartOf i h) := ⟨rfl, fun _ => rfl, List.prefix_rfl⟩

theorem setTeamOf {s : State} {k : Nat} {t : Team} (same : t = { s.teamOf k with
    arrived := t.arrived, asked := t.asked, bad := t.bad, bounced := t.bounced, ringLogged := t.ringLogged }) : s.PacketsMoved (s.setTeamOf k t) where
  rest := rfl
  team j := by
    by_cases here : j = k
    · subst here
      rwa [State.teamOf_setTeamOf]
    · rw [State.teamOf_setTeamOf_ne _ here]
  log := List.prefix_rfl

variable {s t : State} (h : s.PacketsMoved t)
include h

theorem cur_eq : t.cur = s.cur := by rw [h.rest]
theorem cores_eq : t.cores = s.cores := by rw [h.rest]
theorem coreOf_eq (c : Nat) : t.coreOf c = s.coreOf c := by rw [State.coreOf, h.cores_eq, State.coreOf]
theorem launches_eq : t.launches = s.launches := by rw [h.rest]
theorem seq_eq (j : Nat) : (t.teamOf j).seq = (s.teamOf j).seq := by rw [h.team]

end State.PacketsMoved

theorem State.logError_moved (s : State) (k : LogKind) (c : BitVec 7) (u a g : Nat) (x : Word64) : s.PacketsMoved (s.logError k c u a g x) :=
  .of_wrote (s.logError_wrote _ _ _ _ _ _) (by rw [State.logError_log]; exact List.prefix_append _ _)

theorem State.vwrite_moved {s t : State} {asid va : Nat} {sys : Bool} {bs : List Byte} (h : s.vwrite asid sys va bs = .ok t) : s.PacketsMoved t :=
  .of_wrote (State.vwrite_wrote h) (by rw [State.vwrite_service h])

theorem State.sendOn_moved (s : State) (p : FabPkt) (path : BitVec 2) : s.PacketsMoved (s.sendOn p path) :=
  .of_wrote (s.sendOn_wrote p path) List.prefix_rfl

theorem State.putDone_moved (s : State) (src : Port) (st : Option Nat) (remote : Option FabPkt) : s.PacketsMoved (s.putDone src st remote) := by
  have counted : s.PacketsMoved (s.putDone src st none) := by
    unfold State.putDone
    dsimp only
    split
    · exact .setHartOf s _ _
    · exact .refl s
  cases remote with
  | none => exact counted
  | some p => exact counted.trans ((s.putDone src st none).sendOn_moved _ _)

theorem State.refuseAsker_moved (s : State) (src : Port) (asked : Nat × Nat) (n : Nat) : s.PacketsMoved (s.refuseAsker src asked n) := by
  unfold State.refuseAsker
  dsimp only
  split
  · exact .setHartOf s _ _
  · refine .setTeamOf ?_
    unfold Team.receive
    split <;> rfl
  · exact .refl s

theorem State.discardHeld_moved (s : State) (k : Nat) : s.PacketsMoved (s.discardHeld k) :=
  .foldl (fun u _ => (u.logError_moved _ _ _ _ _ _).trans (State.putDone_moved _ _ _ _)) _ s

theorem State.discardRing_moved (s : State) (k : Nat) : s.PacketsMoved (s.discardRing k) := by
  refine .foldl (fun u b => ?_) _ s
  refine (u.logError_moved .discarded 0 (s.teamOf k).core (s.teamOf k).asid 0 (BitVec.ofNat 64 b.off)).trans ?_
  dsimp only
  split
  · exact State.sendOn_moved _ _ _
  · exact State.sendOn_moved _ _ _
  · exact State.refuseAsker_moved _ _ _ _
  · exact State.refuseAsker_moved _ _ _ _
  · exact .refl _

theorem State.putWord_moved (s : State) (asid va x : Nat) : s.PacketsMoved (s.putWord asid va x) := by
  unfold State.putWord
  split
  · next h => exact State.vwrite_moved h
  · exact s.logError_moved _ _ _ _ _ _

theorem State.mirror_moved (s : State) (l n : Nat) : s.PacketsMoved (s.mirror l n) := by
  unfold State.mirror
  split
  · exact .refl s
  · split
    · split
      · exact s.putWord_moved _ _ _
      · exact .refl s
    · exact .refl s

/-! ## The parts of a release -/

/-- What a released team keeps for its node and its groups' records. -/
def Team.vacated (t : Team) : Team :=
  { Team.vacant with result := t.result, launch := t.launch, node := t.node, tid := t.tid, groups := t.groups, asid := t.asid, roles := t.roles,
                     feat := t.feat, core := t.core, serial := t.serial }

/-- The device once a team's allocation and resources are free, before its node hears of it. -/
def State.vacated (s : State) (k : Nat) : State :=
  let u := (((s.discardHeld k).discardRing k).dropPorts k).setTeamOf k (s.teamOf k).vacated
  { u with bell := { u.bell with stalled := false } }

theorem State.releaseTeam_of_not_over {s : State} {k : Nat} (stays : s.teamOver k = false) : s.releaseTeam k = s := by
  unfold State.releaseTeam
  rw [stays]
  rfl

theorem State.releaseTeam_of_over {s : State} {k : Nat} (ended : s.teamOver k = true) :
    s.releaseTeam k = (s.vacated k).changeNode (s.teamOf k).launch (s.teamOf k).node fun n =>
      { n with ended := n.ended + 1, result := n.result ||| (s.teamOf k).result } := by
  unfold State.releaseTeam
  rw [ended]
  rfl

theorem State.teamOver_iff (s : State) (k : Nat) : s.teamOver k = true ↔
    (s.teamOf k).live = true ∧ s.liveGids k = [] ∧ ((s.teamOf k).seq.st = .absent ∨ (s.teamOf k).seq.st = .stopped) := by
  unfold State.teamOver
  simp only [Bool.and_eq_true, List.isEmpty_iff, Bool.or_eq_true, beq_iff_eq, and_assoc]

theorem State.discarded_moved (s : State) (k : Nat) : s.PacketsMoved ((s.discardHeld k).discardRing k) :=
  (s.discardHeld_moved k).trans (State.discardRing_moved _ k)

theorem mget_map_values {κ α : Type} [DecidableEq κ] {d : α} {f : α → α} (fixed : f d = d) (k : κ) (m : List (κ × α)) :
    mget d k (m.map fun e => (e.1, f e.2)) = f (mget d k m) := by
  induction m with
  | nil => exact fixed.symm
  | cons e m ih =>
    by_cases here : e.1 = k <;> simp [mget, here, ih]

/-- A core without the entries and the held puts of a team. -/
def Core.without (c : Core) (k : Nat) : Core :=
  { c with ports := c.ports.map fun e => if e.team = k then default else e, hold := c.hold.filter (·.team != k) }

theorem State.dropPorts_coreOf (s : State) (k c : Nat) : (s.dropPorts k).coreOf c = (s.coreOf c).without k :=
  mget_map_values (d := Core.reset) (f := fun x => x.without k) rfl c s.cores

theorem Core.without_ports {c : Core} {k : Nat} {e : PortEntry} (mem : e ∈ (c.without k).ports) (valid : e.valid = true) : e.team ≠ k := by
  obtain ⟨old, -, rfl⟩ := List.mem_map.mp mem
  by_cases his : old.team = k
  · rw [if_pos his] at valid
    exact absurd valid (by decide)
  · rwa [if_neg his]

theorem Core.without_hold {c : Core} {k : Nat} {h : Held} (mem : h ∈ (c.without k).hold) : h.team ≠ k :=
  bne_iff_ne.mp (List.mem_filter.mp mem).2

/-! ## What a release leaves -/

theorem State.changeNode_moved (s : State) (l n : Nat) (f : NodeRun → NodeRun) : (s.modNode l n f).PacketsMoved (s.changeNode l n f) := State.mirror_moved _ l n

section
variable {s : State} {k : Nat}

theorem State.releaseTeam_cur (s : State) (k : Nat) : (s.releaseTeam k).cur = s.cur := by
  cases ended : s.teamOver k with
  | false => rw [State.releaseTeam_of_not_over ended]
  | true =>
    rw [State.releaseTeam_of_over ended, (State.changeNode_moved _ _ _ _).cur_eq, State.modNode_rest]
    exact (s.discarded_moved k).cur_eq

theorem State.releaseTeam_log (s : State) (k : Nat) : s.service.log <+: (s.releaseTeam k).service.log := by
  cases ended : s.teamOver k with
  | false => rw [State.releaseTeam_of_not_over ended]
  | true =>
    rw [State.releaseTeam_of_over ended]
    refine List.IsPrefix.trans ?_ (State.changeNode_moved _ _ _ _).log
    rw [State.modNode_rest]
    exact (s.discarded_moved k).log

/-- A released team holds nothing any more (R203). -/
theorem State.releaseTeam_live (ended : s.teamOver k = true) : ((s.releaseTeam k).teamOf k).live = false := by
  rw [State.releaseTeam_of_over ended, State.changeNode_teamOf]
  exact congrArg Team.live (State.teamOf_setTeamOf _ k _)

theorem State.releaseTeam_coreOf (ended : s.teamOver k = true) (c : Nat) : (s.releaseTeam k).coreOf c = (s.coreOf c).without k := by
  rw [State.releaseTeam_of_over ended, (State.changeNode_moved _ _ _ _).coreOf_eq, State.modNode_rest, ← (s.discarded_moved k).coreOf_eq]
  exact State.dropPorts_coreOf _ k c

/-- The team's node counts its end and takes its result (R347). -/
theorem State.releaseTeam_node (ended : s.teamOver k = true) {n : NodeRun} (node : s.nodeRun (s.teamOf k).launch (s.teamOf k).node = some n) :
    (s.releaseTeam k).nodeRun (s.teamOf k).launch (s.teamOf k).node
      = some { n with ended := n.ended + 1, result := n.result ||| (s.teamOf k).result } := by
  have launches : (s.vacated k).launches = s.launches := (s.discarded_moved k).launches_eq
  have before : (s.vacated k).nodeRun (s.teamOf k).launch (s.teamOf k).node = some n := by
    rw [State.nodeRun, launches]
    exact node
  rw [State.releaseTeam_of_over ended, State.nodeRun_changeNode, if_pos ⟨rfl, rfl⟩, before]
  rfl

end

end Sys2Proof.Machine
end

