-- ==== Sys2Proof/Proofs/StreamControl.lean ====
section
/-! PROOFS. Stream state and stream control (R53, R54, R150, R192, R193): MSETB, MLOOP, MJMP, MEND, and the check of the formats in force. -/

namespace Sys2Proof.Machine
open Sys2Proof.Claims

/-! ## The formats in force -/

theorem codeNfmt_iff (c : Nat) : codeNfmt c = true ↔ c ∈ nfmtCodes := by
  simp only [codeNfmt, nfmtCodes, Bool.or_eq_true, Bool.and_eq_true, decide_eq_true_eq, List.mem_append, List.mem_cons, List.mem_map, List.mem_range,
    List.not_mem_nil, or_false]
  constructor
  · rintro (h | h)
    · omega
    · exact .inr ⟨c - 0x0A, by omega, by omega⟩
  · rintro (h | ⟨i, hi, rfl⟩) <;> omega

theorem State.formatsOk_iff (s : State) : s.team.formatsOk = true ↔
    s.team.feat.getLsbD 13 = true ∨ (s.seq.sfmt.extractLsb' 0 5).toNat ∉ nfmtCodes ∧ (s.seq.sfmt.extractLsb' 5 5).toNat ∉ nfmtCodes := by
  rw [← codeNfmt_iff, ← codeNfmt_iff, Team.formatsOk, fmtNfmt]
  simp [State.seq]

/-- Every instruction of class 3 ends in the check of its formats (R150). -/
theorem exec_finishSeq (s : State) (d : BitVec 6) (a b : Src) (l : Word32) (ml : MmaLit) (fl : FinLit) (mm : MemM) (al : AdpLit) (f : BitVec 2)
    (n : BitVec 4) (j : Bool) :
    ∀ i ∈ [Instr.mma d a b ml, .mmaAdp d a b ml, .adpfin d b fl, .adpld a al, .adpinv a, .mzero d, .mldacc d a b f mm, .mdrain d a b f j mm,
      .mfence a n, .mbara j n, .mbarw n, .mloop d l, .mjmp l, .mend, .mnop,
      .msetbAdd d a b, .msetbLd d a b, .msetbFmt a, .msetbSeed a, .msetbBind a, .msetbAdir a], ∃ r, exec i s = s.finishSeq r := by
  have mbarw : ∃ r, exec (.mbarw n) s = s.finishSeq r := by
    show ∃ r, execMbarw n s = s.finishSeq r
    unfold execMbarw
    dsimp only
    split
    · exact ⟨_, rfl⟩
    · split <;> exact ⟨_, rfl⟩
  simp only [List.forall_mem_cons, List.not_mem_nil, false_imp_iff, implies_true, and_true]
  exact ⟨⟨_, rfl⟩, ⟨_, rfl⟩, ⟨_, rfl⟩, ⟨_, rfl⟩, ⟨_, rfl⟩, ⟨_, rfl⟩, ⟨_, rfl⟩, ⟨_, rfl⟩, ⟨_, rfl⟩, ⟨_, rfl⟩, mbarw, ⟨_, rfl⟩, ⟨_, rfl⟩, ⟨_, rfl⟩, ⟨.ok _, rfl⟩,
    ⟨.ok _, rfl⟩, ⟨_, rfl⟩, ⟨_, rfl⟩, ⟨.ok _, rfl⟩, ⟨_, rfl⟩, ⟨_, rfl⟩⟩

theorem State.formatsNeedTheirFeature (s : State) : FormatsNeedTheirFeature s := by
  intro d a b l ml fl mm al f n j q feature formats running i listed
  have bad : s.team.formatsOk = false := by
    rw [← Bool.not_eq_true, State.formatsOk_iff]
    rintro (has | none_)
    · exact Bool.false_ne_true (feature.symm.trans has)
    · exact formats.elim none_.1 none_.2
  obtain ⟨r, arm⟩ := exec_finishSeq s d a b l ml fl mm al f n j i listed
  refine ⟨_, arm.trans (State.finishSeq_formats bad r), ?_, s.mapSeq_onlyStream _⟩
  rw [State.seq_mapSeq, running]
  rfl

/-! ## Transfers of the stream -/

theorem Seq.target_ok {q : Seq} {c : Clause} (clause : q.clause = some c) (l : Word32) (aligned : (c.hdr + 4 * l.signExtend 64).toNat % 4 = 0)
    (below : (c.hdr + 4 * l.signExtend 64).toNat < 12 * 2 ^ 52) : q.target l = .ok (c.hdr + 4 * l.signExtend 64) := by
  obtain ⟨high, window⟩ := highBits_of_lt_windowC below
  have start : q.target l = (do
      let t := c.hdr + 4 * l.signExtend 64
      need (t.extractLsb' 56 8 == 0 && decide ((t.extractLsb' 52 4).toNat < 12)) .accessViolation t
      need (t.toNat % 4 == 0) .misaligned t
      return t) := by
    unfold Seq.target
    rw [clause]
    rfl
  rw [start]
  dsimp only
  rw [need_ok (by rw [high, decide_eq_true window]; rfl), need_ok (beq_of_eq aligned)]
  rfl

/-! ## Generators, bindings and loads -/

theorem vget_seeded (x : Word64) {i : Nat} (small : i < 16) :
    vget (seeded x) i 1 = if x.setWidth 32 ^^^ BitVec.ofNat 32 ((i + 1) * 0x9E3779B9) = 0 then 1
      else x.setWidth 32 ^^^ BitVec.ofNat 32 ((i + 1) * 0x9E3779B9) := by
  have lane : i < 64 := by omega
  simp only [vget, seeded, Vector.getElem?_ofFn, lane, dite_true, Option.getD_some, beq_iff_eq]

theorem streamBinding_eq (x : Word64) : (Vector.ofFn fun p : Fin 4 => x.extractLsb' (8 * p.val) 5)
    = #v[x.extractLsb' 0 5, x.extractLsb' 8 5, x.extractLsb' 16 5, x.extractLsb' 24 5] := rfl

theorem highByte_eq_zero {x : Word64} (small : x.toNat < 2 ^ 56) : x.extractLsb' 56 8 = 0 := by
  apply BitVec.eq_of_toNat_eq
  rw [BitVec.extractLsb'_toNat, Nat.shiftRight_eq_div_pow, Nat.div_eq_of_lt small]
  rfl

theorem State.streamSpad_ok {s : State} {off n : Nat} (inside : off + n ≤ s.team.spadBytes) (clean : s.team.markedAt off n = false) :
    s.streamSpad off n = .ok (s.team.mem.read off n) := by
  unfold State.streamSpad
  dsimp only
  rw [need_ok (by simpa using inside), clean]
  rfl

/-! ## The end of the stream -/

theorem Team.settled_iff (t : Team) (key : Nat) : t.settled key = true ↔ ∀ p ∈ t.sent, p.2.2 ≠ key := by
  simp [Team.settled]

theorem Team.streamIdle_iff (t : Team) :
    t.streamIdle = true ↔ t.seq.rows = [] ∧ t.seq.batches = [] ∧ t.seq.arrivals = [] ∧ ∀ p ∈ t.sent, p.2.2 ≠ 0 := by
  rw [← Team.settled_iff, Team.streamIdle]
  simp only [Bool.and_eq_true, List.isEmpty_iff, and_assoc]

/-! ## Rows that set generators -/

/-- The rows of MSETB.seed: each sets the generator of its row index (R193; log 27). -/
def State.seedRows (s : State) (x : Word64) : List IssuedRow :=
  (List.range 16).map fun i => s.seq.rowAt 0 i (.seed (vget (seeded x) i 1))

theorem State.seedRows_plain {s : State} {x : Word64} : ∀ r ∈ s.seedRows x, r.needs.1 = 0 ∧ r.queued = false := by
  intro r mem
  obtain ⟨i, -, rfl⟩ := List.mem_map.mp mem
  exact ⟨rfl, rfl⟩

theorem State.seedRows_eq (s : State) (x : Word64) : s.seedRows x = (List.range 16).map fun i => rowOf s 0 i (.seed
    (if x.setWidth 32 ^^^ BitVec.ofNat 32 ((i + 1) * 0x9E3779B9) = 0 then 1 else x.setWidth 32 ^^^ BitVec.ofNat 32 ((i + 1) * 0x9E3779B9))) := by
  refine List.map_congr_left fun i small => ?_
  rw [vget_seeded x (List.mem_range.mp small)]
  rfl

/-- Rows that need no adapter only join the stream's rows (R172). -/
theorem State.issueRows_plain (s : State) {rows : List IssuedRow} (plain : ∀ r ∈ rows, r.needs.1 = 0 ∧ r.queued = false) :
    (s.issueRows rows).seq = { s.seq with rows := s.seq.rows ++ rows } ∧ OnlyStream s (s.issueRows rows) := by
  have none_ : ∀ r ∈ rows, r.needs.1 = 0 := fun r mem => (plain r mem).1
  obtain ⟨⟨rs, -, same, seq⟩, team, others, -, -, cores, rest⟩ := s.issueRows_issued fun r mem => (plain r mem).2
  have members : (rows.map fun r => r.needs.1).filter (· ≠ 0) = [] := by
    refine List.filter_eq_nil_iff.mpr fun a mem => ?_
    obtain ⟨r, hr, rfl⟩ := List.mem_map.mp mem
    simp [none_ r hr]
  rw [same none_, members, List.append_nil] at seq
  refine ⟨seq, ⟨by rw [team], others, fun c => by rw [State.coreOf, cores none_, State.coreOf], fun i => ?_, ?_⟩⟩
  · rw [rest]
    rfl
  · rw [rest]

/-! ## What each instruction leaves, once its formats are covered -/

section
variable {s : State} (formats : s.team.formatsOk = true)
include formats

theorem exec_msetbAdd (d : BitVec 6) (a b : Src) :
    exec (.msetbAdd d a b) s = .next ((s.mapSeq fun q => q.setQ d (streamValue s a + streamValue s b)).nextWord 1) := by
  rw [← Seq.src_eq, ← Seq.src_eq]
  exact s.finishSeq_ok _ formats

theorem exec_msetbLd (d : BitVec 6) {a b : Src} (aligned : (streamValue s a + streamValue s b).toNat % 8 = 0)
    (inside : (streamValue s a + streamValue s b).toNat + 8 ≤ s.team.spadBytes)
    (clean : s.team.markedAt (streamValue s a + streamValue s b).toNat 8 = false) : exec (.msetbLd d a b) s
      = .next ((s.mapSeq fun q => q.setQ d (bytesToBits 64 (s.team.mem.read (streamValue s a + streamValue s b).toNat 8))).nextWord 1) := by
  show execMsetbLd d a b s = _
  unfold execMsetbLd
  dsimp only
  rw [Seq.src_eq, Seq.src_eq, need_ok (beq_of_eq aligned), State.streamSpad_ok inside clean]
  exact s.finishSeq_ok _ formats

theorem exec_msetbFmt {a : Src} (legal : fmtLegal (streamValue s a) = true) :
    exec (.msetbFmt a) s = .next ((s.mapSeq fun q => { q with sfmt := fmtKept (streamValue s a) }).nextWord 1) := by
  rw [← Seq.src_eq] at legal ⊢
  show execMsetbFmt a s = _
  unfold execMsetbFmt
  rw [needOp_ok legal]
  exact s.finishSeq_ok _ formats

theorem exec_msetbSeed (a : Src) : exec (.msetbSeed a) s = .next ((s.issueRows (s.seedRows (streamValue s a))).nextWord 1) := by
  rw [← Seq.src_eq]
  exact s.finishSeq_ok _ formats

theorem exec_msetbBind {a : Src} (low : streamValue s a &&& 0xFFFFFFFFE0E0E0E0 = 0) : exec (.msetbBind a) s = .next ((s.mapSeq fun q =>
    { q with binding := Vector.ofFn fun p : Fin 4 => (streamValue s a).extractLsb' (8 * p.val) 5 }).nextWord 1) := by
  show execMsetbBind a s = _
  unfold execMsetbBind
  dsimp only
  rw [Seq.src_eq, needOp_ok (beq_of_eq low)]
  exact s.finishSeq_ok _ formats

theorem exec_msetbAdir {a : Src} (aligned : (streamValue s a).toNat % 32 = 0) (small : (streamValue s a).toNat < 2 ^ 56) :
    exec (.msetbAdir a) s = .next ((s.mapSeq fun q => { q with adir := streamValue s a }).nextWord 1) := by
  show execMsetbAdir a s = _
  unfold execMsetbAdir
  dsimp only
  rw [Seq.src_eq, needOp_ok (by rw [aligned, highByte_eq_zero small]; rfl)]
  exact s.finishSeq_ok _ formats

theorem exec_mloop_ends {d : BitVec 6} {l : Word32} (zero : vget s.seq.q d.toNat 0 - 1 = 0) :
    exec (.mloop d l) s = .next ((s.mapSeq fun q => { q with q := vset q.q d.toNat (vget s.seq.q d.toNat 0 - 1) }).nextWord 2) := by
  show execMloop d l s = _
  unfold execMloop
  dsimp only
  rw [if_pos zero]
  exact s.finishSeq_ok _ formats

theorem exec_mloop_goes {d : BitVec 6} {l : Word32} {target : Word64} (more : vget s.seq.q d.toNat 0 - 1 ≠ 0) (ok : s.seq.target l = .ok target) :
    exec (.mloop d l) s = .next (s.mapSeq fun q => Seq.goto { q with q := vset q.q d.toNat (vget s.seq.q d.toNat 0 - 1) } target) := by
  show execMloop d l s = _
  unfold execMloop
  dsimp only
  rw [if_neg more, ok]
  exact s.finishSeq_ok _ formats

theorem exec_mjmp {l : Word32} {target : Word64} (ok : s.seq.target l = .ok target) : exec (.mjmp l) s = .next (s.mapSeq fun q => q.goto target) := by
  show execMjmp l s = _
  unfold execMjmp
  rw [ok]
  exact s.finishSeq_ok _ formats

theorem exec_mend (idle : s.team.streamIdle = true) :
    exec .mend s = .next ((s.mapSeq fun q => { q with st := .stopped, clause := none }).releaseTeam s.cur.team) := by
  show execMend s = _
  unfold execMend
  rw [await_ok idle]
  exact s.finishSeq_ok _ formats

theorem exec_mend_busy (busy : s.team.streamIdle = false) : exec .mend s = .next (s.seqStopped s.cur.team .stall) := by
  show execMend s = _
  unfold execMend
  rw [await_error busy]
  exact s.finishSeq_error .stall formats

end

/-- MEND of a team with a live group stops its stream alone. -/
theorem State.mend_alive {s : State} (alive : s.liveGids s.cur.team ≠ []) :
    (s.mapSeq fun q => { q with st := .stopped, clause := none }).releaseTeam s.cur.team = s.mapSeq fun q => { q with st := .stopped, clause := none } := by
  refine State.releaseTeam_of_not_over ?_
  rw [← Bool.not_eq_true, State.teamOver_iff]
  exact fun ended => alive ended.2.1

/-- MEND of a team without a live group releases it (R192). -/
theorem State.mend_releases {s : State} (none_ : s.liveGids s.cur.team = []) (live : s.team.live = true) :
    ((s.mapSeq fun q => { q with st := .stopped, clause := none }).releaseTeam s.cur.team).team.live = false := by
  rw [State.team, State.releaseTeam_cur]
  refine State.releaseTeam_live ((State.teamOver_iff _ _).mpr ?_)
  rw [State.mapSeq, State.teamOf_modSeq]
  exact ⟨live, none_, .inr rfl⟩

end Sys2Proof.Machine

namespace Sys2Proof.Claims
open Sys2Proof.Machine

/-- Settles O32: the formats are checked first; then each instruction changes what its mode names and goes on. -/
theorem streamStateAndControlResults : Obligations.StreamStateAndControlResults := by
  intro s c d a b l clause first last
  dsimp only
  refine ⟨s.formatsNeedTheirFeature, fun covered => ?_⟩
  have formats : s.team.formatsOk = true := s.formatsOk_iff.mpr covered
  refine ⟨?add, ?load, ?format, ?seed, ?bind, ?directory, ?nop, ?loopEnds, ?loopGoes, ?jump, ?finish, ?holds⟩
  case add => exact ⟨_, exec_msetbAdd formats d a b, s.mapSeq_passed rfl rfl 1⟩
  case load => exact fun aligned inside clean => ⟨_, exec_msetbLd formats d aligned inside clean, s.mapSeq_passed rfl rfl 1⟩
  case format => exact fun legal => ⟨_, exec_msetbFmt formats legal, s.mapSeq_passed rfl rfl 1⟩
  case seed =>
    obtain ⟨seq, only⟩ := s.issueRows_plain (s.seedRows_plain (x := streamValue s a))
    refine ⟨_, exec_msetbSeed formats a, State.nextWord_passed_of_seq (seq.trans ?_) ?_ only 1⟩
    · rw [s.seedRows_eq]
    · rfl
  case bind =>
    intro low
    have run := exec_msetbBind formats low
    rw [streamBinding_eq] at run
    exact ⟨_, run, s.mapSeq_passed rfl rfl 1⟩
  case directory => exact fun aligned small => ⟨_, exec_msetbAdir formats aligned small, s.mapSeq_passed rfl rfl 1⟩
  case nop => exact ⟨_, s.finishSeq_ok _ formats, s.nextWord_passed 1⟩
  case loopEnds => exact fun zero => ⟨_, exec_mloop_ends formats zero, s.mapSeq_passed rfl rfl 2⟩
  case loopGoes =>
    rintro more ⟨aligned, below⟩
    exact ⟨_, exec_mloop_goes formats more (Seq.target_ok clause l aligned below), s.seq_mapSeq _, s.mapSeq_onlyStream _⟩
  case jump =>
    rintro ⟨aligned, below⟩
    exact ⟨_, exec_mjmp formats (Seq.target_ok clause l aligned below), s.seq_mapSeq _, s.mapSeq_onlyStream _⟩
  case finish =>
    intro rows batches arrivals settled
    have run := exec_mend formats (s.team.streamIdle_iff.mpr ⟨rows, batches, arrivals, settled⟩)
    refine ⟨fun alive => ?_, fun none_ live => ⟨_, run, State.mend_releases none_ live⟩⟩
    rw [State.mend_alive alive] at run
    exact ⟨_, run, s.seq_mapSeq _, s.mapSeq_onlyStream _⟩
  case holds =>
    intro left
    have busy : s.team.streamIdle = false := by
      rw [← Bool.not_eq_true, Team.streamIdle_iff]
      rintro ⟨rows, batches, -⟩
      exact left.elim (· rows) (· batches)
    exact ⟨_, exec_mend_busy formats busy, s.seqStopped_stalls⟩

end Sys2Proof.Claims
end

