-- ==== Sys2Proof/Proofs/RowOperands.lean ====
section
/-! PROOFS. The rows that the matrix instructions issue (R170 to R172, R178, R181, R182, R187, R188): their operands at issue, and that every instruction whose checks pass issues them. -/

namespace Sys2Proof.Machine
open Sys2Proof.Claims

/-! ## Selections, rows and tiles -/

theorem maskRows_eq (m : Word64) : maskRows m = rowsOf m := rfl

theorem maskCols_eq (m : Word64) : maskCols m = colsOf m := by
  refine List.filter_congr fun j _ => ?_
  rw [Nat.testBit_div_two_pow, BitVec.testBit_toNat, Nat.add_comm]

theorem State.tileFree_ok {s : State} {n : Nat} (own : n < s.team.accs) (free : (s.team.tile n).token = none) : s.tileFree n = .ok () := by
  unfold State.tileFree
  rw [needOp_ok (decide_eq_true own), free]
  rfl

theorem Seq.roomFor_ok {q : Seq} (few : (q.rows.filter (·.queued)).length ≤ 8) : q.roomFor = .ok () := await_ok (decide_eq_true few)

/-! ## What issuing leaves -/

section
variable {s : State} {rows : List IssuedRow} (fresh : ∀ r ∈ rows, r.queued = false)
include fresh

theorem State.issueRows_streamIssued (n : Nat) : StreamIssued s ((s.issueRows rows).nextWord n) rows n :=
  (s.issueRows_issued fresh).streamIssued rfl (fun _ => rfl) n

/-- A product is also noted as the last of its core (R170). -/
theorem State.issueProduct_streamIssued (n : Nat) : StreamIssued s ((s.issueRows rows).tookProduct.nextWord n) rows n := by
  refine (s.issueRows_issued fresh).streamIssued rfl (fun c => ?_) n
  unfold State.tookProduct
  by_cases here : c = (s.issueRows rows).team.core
  · rw [here, State.coreOf_setCoreOf]
  · rw [State.coreOf_setCoreOf_ne _ here]

end

/-! ## Each instruction whose checks pass issues its rows -/

/-- The rows of a product: one for each A row, with its identifier (R181). -/
def State.productRows (s : State) (T : Nat) (l : MmaLit) (K : Nat) (A : List (Nat × List (Nat × FVal))) (B : List (Nat × List FVal))
    (id : Nat → Nat) : List IssuedRow :=
  A.map fun r => rowOf s T r.1 (.mma l.z r.2 B (id r.1) l.seg.toNat K)

/-- The adapter that an identifier register names for a row (R181). -/
def rowId (ids : VWord) (i : Nat) : Nat := ids.toNat / 2 ^ (16 * i) % 4096

theorem rowId_zero : rowId 0 = fun _ => 0 := by
  funext i
  rw [rowId, BitVec.ofNat_eq_ofNat, BitVec.toNat_zero, Nat.zero_div]

theorem State.productRows_queued {s : State} {T : Nat} {l : MmaLit} {K : Nat} {A : List (Nat × List (Nat × FVal))} {B : List (Nat × List FVal)}
    {id : Nat → Nat} : ∀ r ∈ s.productRows T l K A B id, r.queued = false := by
  intro r mem
  obtain ⟨e, -, rfl⟩ := List.mem_map.mp mem
  rfl

section
variable {s : State} (formats : s.team.formatsOk = true) {d : BitVec 6} (own : d.toNat < s.team.accs) (free : (s.team.tile d.toNat).token = none)
include formats own free

/-- A product whose operands can be read and whose segments find room issues its rows (R170, R177, R181). -/
theorem State.issueMma_ok {a b : Src} {l : MmaLit} {adp : Bool} {K : Nat} {A : List (Nat × List (Nat × FVal))} {B : List (Nat × List FVal)} {ids : VWord}
    (depth : depthOf s.seq.sfmt = .ok K) (float : (adp && fmtAcc s.seq.sfmt == 3) = false) (few : adp = true → s.seq.roomFor = .ok ())
    (readA : s.rowsA (streamValue s a) (streamValue s b) s.seq.sfmt K (s.team.codebook (fmtCb s.seq.sfmt)) = .ok A)
    (readB : s.colsB (streamValue s b) l s.seq.sfmt K (s.team.codebook (fmtCb s.seq.sfmt)) = .ok B)
    (readIds : (if adp then s.boundReg (vget s.seq.binding 0 0) l.idreg.toNat else .ok 0) = .ok ids)
    (agree : ∀ r ∈ A, rowId ids r.1 = 0 ∨ s.team.ridIssued d.toNat r.1 = 0 ∨ s.team.ridIssued d.toNat r.1 = rowId ids r.1)
    (room : s.pinRoom (s.productRows d.toNat l K A B (rowId ids)) = .ok ()) :
    s.issueMma d a b l adp = .next ((s.issueRows (s.productRows d.toNat l K A B (rowId ids))).tookProduct.nextWord 2) := by
  have same : (A.all fun r => ids.toNat / 2 ^ (16 * r.1) % 4096 == 0 || s.team.ridIssued d.toNat r.1 == 0
      || s.team.ridIssued d.toNat r.1 == ids.toNat / 2 ^ (16 * r.1) % 4096) = true := by
    simpa only [rowId, List.all_eq_true, Bool.or_eq_true, beq_iff_eq, or_assoc] using agree
  have fits : s.pinRoom (A.map fun r => s.seq.rowAt d.toNat r.1 (.mma l.z r.2 B (ids.toNat / 2 ^ (16 * r.1) % 4096) l.seg.toNat K)) = .ok () := room
  have kind : needOp (!(adp && fmtAcc s.seq.sfmt == 3)) = .ok () := needOp_ok (by rw [float]; rfl)
  unfold State.issueMma
  simp only [Seq.src_eq, needOp_ok (decide_eq_true own), depth, kind, State.tileFree_ok own free, readA, readB, bind, Except.bind, pure, Except.pure]
  cases adp with
  | false =>
    cases readIds
    simp only [Bool.false_eq_true, if_false, needOp_ok same, fits]
    exact s.finishSeq_ok _ formats
  | true =>
    rw [if_pos rfl] at readIds
    simp only [if_true, few rfl, readIds, needOp_ok same, fits]
    exact s.finishSeq_ok _ formats

/-- ADPFIN's rows: those of the source tile that name an adapter (R182). -/
def State.finRows (s : State) (T : Nat) (m : Word64) (l : FinLit) : List IssuedRow :=
  (rowsOf m).filterMap fun i =>
    if s.team.ridIssued l.src.toNat i = 0 then none
    else some (rowOf s T i (.fin l.src.toNat (colsOf m) (s.team.ridIssued l.src.toNat i) l.seg.toNat l.clr))

omit formats own free in
theorem State.finRows_queued {T : Nat} {m : Word64} {l : FinLit} : ∀ r ∈ s.finRows T m l, r.queued = false := by
  intro r mem
  obtain ⟨i, -, some_⟩ := List.mem_filterMap.mp mem
  split at some_
  · cases some_
  · cases some_
    rfl

theorem exec_adpfin {b : Src} {l : FinLit} (ownSrc : l.src.toNat < s.team.accs) (freeSrc : (s.team.tile l.src.toNat).token = none)
    (float : fmtAcc s.seq.sfmt ≠ 3) (few : (s.seq.rows.filter (·.queued)).length ≤ 8)
    (room : s.pinRoom (s.finRows d.toNat (streamValue s b) l) = .ok ()) :
    exec (.adpfin d b l) s = .next ((s.issueRows (s.finRows d.toNat (streamValue s b) l)).nextWord 2) := by
  have fits : s.pinRoom ((rowsOf (streamValue s b)).filterMap fun i =>
      if s.team.ridIssued l.src.toNat i = 0 then none
      else some (s.seq.rowAt d.toNat i (.fin l.src.toNat (colsOf (streamValue s b)) (s.team.ridIssued l.src.toNat i) l.seg.toNat l.clr))) = .ok () := room
  have tiles : needOp (decide (d.toNat < s.team.accs) && decide (l.src.toNat < s.team.accs)) = .ok () := needOp_ok (by simp [own, ownSrc])
  show execAdpfin d b l s = _
  unfold execAdpfin
  simp only [Seq.src_eq, maskRows_eq, maskCols_eq, tiles, needOp_ok (bne_iff_ne.mpr float), State.tileFree_ok own free, State.tileFree_ok ownSrc freeSrc,
    Seq.roomFor_ok few, fits, bind, Except.bind, pure, Except.pure]
  exact s.finishSeq_ok _ formats

theorem exec_mzero : exec (.mzero d) s = .next ((s.issueRows ((List.range 16).map fun i => rowOf s d.toNat i .zero)).nextWord 1) := by
  show execMzero d s = _
  unfold execMzero
  rw [State.tileFree_ok own free]
  exact s.finishSeq_ok _ formats

section
variable {a b : Src} {f : BitVec 2} {ml : MemM} (known : f.toNat ≤ 2) (space : ml.space ≠ .p) (plain : f.toNat = 0 ∨ fmtAcc s.seq.sfmt ≠ 3)
  {ps : List (Nat × Nat × Place × Word64)}
include known space plain

omit formats own free in
theorem tileForm_ok : needOp (f != 3 && ml.space != .p && !(f != 0 && fmtAcc s.seq.sfmt == 3)) = .ok () := by
  refine needOp_ok ?_
  have three : f ≠ 3 := fun is => by rw [is] at known; exact absurd known (by decide)
  have held : (f != 0 && fmtAcc s.seq.sfmt == 3) = false := by
    rcases plain with zero | float
    · rw [BitVec.eq_of_toNat_eq (y := 0) zero]
      rfl
    · rw [beq_false_of_ne float, Bool.and_false]
  rw [bne_iff_ne.mpr three, bne_iff_ne.mpr space, held]
  rfl

theorem exec_mldacc {xs : List (Nat × Nat × Nat)} (places : s.tilePlaces a b f ml .read = .ok ps) (read : s.tileRead (if f.toNat = 0 then 4 else 2) ps = .ok xs) :
    exec (.mldacc d a b f ml) s = .next ((s.issueRows ((rowsOf (streamValue s b)).map fun i =>
      rowOf s d.toNat i (.load ((xs.filter fun x => x.1 == i).map fun x => (x.2.1, x.2.2)) f))).nextWord 2) := by
  have read : s.tileRead (if f = 0 then 4 else 2) ps = .ok xs := by
    rw [← read]
    congr 1
    simp only [BitVec.toNat_eq]
    rfl
  show execMldacc d a b f ml s = _
  unfold execMldacc
  simp only [Seq.src_eq, maskRows_eq, needOp_ok (decide_eq_true own), tileForm_ok known space plain, State.tileFree_ok own free, places, read, bind,
    Except.bind, pure, Except.pure]
  exact s.finishSeq_ok _ formats

theorem exec_mdrain (places : s.tilePlaces a b f ml .write = .ok ps) :
    exec (.mdrain d a b f false ml) s = .next ((s.issueRows ((rowsOf (streamValue s b)).map fun i =>
      rowOf s d.toNat i (.drain ((ps.filter fun p => p.1 == i).map fun p => (p.2.1, p.2.2.1.tgt)) f))).nextWord 2) := by
  show execMdrain d a b f false ml s = _
  unfold execMdrain
  simp only [Seq.src_eq, maskRows_eq, needOp_ok (decide_eq_true own), tileForm_ok known space plain, State.tileFree_ok own free, places, bind,
    Except.bind, pure, Except.pure, Bool.false_eq_true, if_false]
  exact s.finishSeq_ok _ formats

end

end

end Sys2Proof.Machine

namespace Sys2Proof.Claims
open Sys2Proof.Machine

/-- Settles O33: an instruction whose checks pass issues one fresh row for each selected index, and issuing is all that it does. -/
theorem matrixInstructionsIssueTheirRows : Obligations.MatrixInstructionsIssueTheirRows := by
  intro s d a b l fl ml f K A B ids ps xs
  dsimp only
  intro own free formats
  have fresh {α : Type} (is : List α) (row : α → IssuedRow) (new : ∀ i, (row i).queued = false) : ∀ r ∈ is.map row, r.queued = false := by
    intro r mem
    obtain ⟨i, -, rfl⟩ := List.mem_map.mp mem
    exact new i
  refine ⟨fun depth readA readB => ⟨fun room => ?product, fun float few readIds agree room => ?adapter⟩, ?finish, ?zero, fun known space plain => ⟨?load, ?drain⟩⟩
  case product =>
    have run := State.issueMma_ok formats own free (adp := false) depth rfl nofun readA readB rfl (fun _ _ => .inl (congrFun rowId_zero _))
      (by rw [rowId_zero]; exact room)
    rw [rowId_zero] at run
    exact ⟨_, run, State.issueProduct_streamIssued State.productRows_queued 2⟩
  case adapter =>
    have agree : ∀ r ∈ A, rowId ids r.1 = 0 ∨ s.team.ridIssued d.toNat r.1 = 0 ∨ s.team.ridIssued d.toNat r.1 = rowId ids r.1 :=
      fun r mem => or_iff_not_imp_left.mpr (agree r mem)
    exact ⟨_, State.issueMma_ok formats own free (adp := true) depth (beq_false_of_ne float) (fun _ => Seq.roomFor_ok few) readA readB readIds agree room,
      State.issueProduct_streamIssued State.productRows_queued 2⟩
  case finish =>
    exact fun ownSrc freeSrc float few room => ⟨_, exec_adpfin formats own free ownSrc freeSrc float few room, State.issueRows_streamIssued State.finRows_queued 2⟩
  case zero => exact ⟨_, exec_mzero formats own free, State.issueRows_streamIssued (fresh _ _ fun _ => rfl) 1⟩
  case load => exact fun places read => ⟨_, exec_mldacc formats own free known space plain places read, State.issueRows_streamIssued (fresh _ _ fun _ => rfl) 2⟩
  case drain => exact fun places => ⟨_, exec_mdrain formats own free known space plain places, State.issueRows_streamIssued (fresh _ _ fun _ => rfl) 2⟩

end Sys2Proof.Claims
end

