-- ==== Sys2Proof/Proofs/RowCommit.lean ====
section
/-! PROOFS. Committing a row (R172, R181, R187, R188, R193): the cells that a row writes, how its values are rounded, and what stays. -/

namespace Sys2Proof.Machine
open Sys2Proof.Claims

/-! ## Cells written one after another -/

/-- Entries of a table that are each replaced once, from what they held. -/
theorem mget_foldl_replace {κ α β : Type} [DecidableEq κ] {d : α} {key : β → κ} {g : α → β → α} {cells : List β}
    (apart : cells.Pairwise fun a b => key a ≠ key b) (m : List (κ × α)) (k : κ) :
    mget d k (cells.foldl (fun m e => mset (key e) (g (mget d (key e) m) e) m) m)
      = (cells.find? fun e => key e = k).elim (mget d k m) (g (mget d k m)) := by
  induction cells generalizing m with
  | nil => rfl
  | cons e cells ih =>
    obtain ⟨first, rest⟩ := List.pairwise_cons.mp apart
    rw [List.foldl_cons, ih rest]
    by_cases here : key e = k
    · have later : cells.find? (fun b => key b = k) = none := List.find?_eq_none.mpr fun b mem same =>
        first b mem (here.trans (of_decide_eq_true same).symm)
      rw [later, List.find?_cons_of_pos (by simpa using here), ← here]
      exact mget_mset_self _ _ _ _
    · rw [List.find?_cons_of_neg (by simpa using here), mget_mset_ne _ (Ne.symm here)]

/-- A pair whose second part no step changes. -/
theorem foldl_pair_fixed {σ τ β : Type} {f : σ × τ → β → σ × τ} {g : σ → β → σ} {y : τ} (step : ∀ x e, f (x, y) e = (g x e, y)) (l : List β) (x : σ) :
    l.foldl f (x, y) = (l.foldl g x, y) := by
  induction l generalizing x with
  | nil => rfl
  | cons e l ih => rw [List.foldl_cons, step, ih, List.foldl_cons]

/-- A row of a tile after some of its cells were each replaced once, from what they held. -/
def Tile.putRow {β : Type} (t : Tile) (i : Nat) (g : Word32 → β → Word32) (cells : List (Nat × β)) : Tile :=
  cells.foldl (fun t e => { t with el := mset (16 * i + e.1) (g (t.at i e.1) e.2) t.el }) t

theorem Tile.putRow_eq {β : Type} (t : Tile) (i : Nat) (g : Word32 → β → Word32) (cells : List (Nat × β)) :
    t.putRow i g cells = { t with el := cells.foldl (fun m e => mset (16 * i + e.1) (g (mget 0 (16 * i + e.1) m) e.2) m) t.el } := by
  unfold Tile.putRow
  induction cells generalizing t with
  | nil => rfl
  | cons e cells ih =>
    rw [List.foldl_cons, ih]
    rfl

/-- A cell of such a row holds its new value, and every other cell of the tile what it held (R181, R188). -/
theorem Tile.at_putRow {β : Type} {t : Tile} {i : Nat} {g : Word32 → β → Word32} {cells : List (Nat × β)} (apart : (cells.map (·.1)).Nodup)
    (inside : ∀ e ∈ cells, e.1 < 16) {i' j : Nat} (hj : j < 16) :
    (t.putRow i g cells).at i' j = if i' = i then (cells.find? fun e => e.1 == j).elim (t.at i j) fun e => g (t.at i j) e.2 else t.at i' j := by
  have keys : cells.Pairwise fun a b => 16 * i + a.1 ≠ 16 * i + b.1 := by
    refine (List.pairwise_map.mp apart).imp fun ne same => ne ?_
    omega
  rw [Tile.putRow_eq]
  refine (mget_foldl_replace (d := 0) (g := fun x e => g x e.2) keys t.el (16 * i' + j)).trans ?_
  split
  · next here =>
    have same : (fun e : Nat × β => decide (16 * i + e.1 = 16 * i' + j)) = fun e => e.1 == j := by
      funext e
      rw [here, Bool.eq_iff_iff, decide_eq_true_iff, beq_iff_eq]
      omega
    rw [same, here]
    rfl
  · next other =>
    have none_ : cells.find? (fun e => decide (16 * i + e.1 = 16 * i' + j)) = none := by
      refine List.find?_eq_none.mpr fun e mem same => ?_
      have := inside e mem
      have := of_decide_eq_true same
      omega
    rw [none_]
    rfl

theorem Tile.putRow_rank {β : Type} (t : Tile) (i : Nat) (g : Word32 → β → Word32) (cells : List (Nat × β)) : (t.putRow i g cells).rank = t.rank := by
  rw [Tile.putRow_eq]
theorem Tile.putRow_rid {β : Type} (t : Tile) (i : Nat) (g : Word32 → β → Word32) (cells : List (Nat × β)) : (t.putRow i g cells).rid = t.rid := by
  rw [Tile.putRow_eq]

/-! ## Rounding into an accumulator (R181) -/

/-- A value rounded and saturated into an element of the accumulate format, under a mode that draws no word. -/
def rounded (sfmt : Word64) (v : FVal) : Word32 :=
  if fmtAcc sfmt = 3 then BitVec.ofInt 32 (if (modesOf sfmt).sm = 1 then max (-2147483648) (min 2147483647 v.toInt) else v.toInt)
  else BitVec.ofNat 32 (fOf (modesOf sfmt).rm (modesOf sfmt).sm (if fmtAcc sfmt = 0 then .f32 else if fmtAcc sfmt = 1 then .f16 else .bf16) 0 v)

theorem ofNat_patOf (v : Int) (w : Nat) : BitVec.ofNat w (patOf v w) = BitVec.ofInt w v := by
  apply BitVec.eq_of_toNat_eq
  rw [BitVec.toNat_ofNat, BitVec.toNat_ofInt, patOf]
  refine Nat.mod_eq_of_lt ?_
  have positive : (0 : Int) < 2 ^ w := by positivity
  have below := Int.emod_lt_of_pos v positive
  have nonneg := Int.emod_nonneg v positive.ne'
  zify
  rwa [Int.toNat_of_nonneg nonneg]

section
variable {sfmt : Word64} (plain : (modesOf sfmt).rm ≠ 5)
include plain

theorem Seq.word_plain (q : Seq) (i : Nat) : q.word (modesOf sfmt).rm i = (0, q) := if_neg plain

theorem Seq.out_float (q : Seq) (f : FF) (i : Nat) (v : FVal) : q.out sfmt (some f) i v = (fOf (modesOf sfmt).rm (modesOf sfmt).sm f 0 v, q) := by
  unfold Seq.out
  dsimp only
  rw [Seq.word_plain plain]

theorem Seq.out_int (q : Seq) (i : Nat) (v : FVal) : q.out sfmt none i v
    = (patOf (if (modesOf sfmt).sm = 1 then clampInt (intMin 32 false) (intMax 32 false) v.toInt else v.toInt) 32, q) := by
  unfold Seq.out
  dsimp only
  rw [Seq.word_plain plain]

theorem Seq.out_rounded (float : fmtAcc sfmt ≤ 3) (q : Seq) (i : Nat) (v : FVal) :
    ∃ y, q.out sfmt (accFF (fmtAcc sfmt)) i v = (y, q) ∧ BitVec.ofNat 32 y = rounded sfmt v := by
  unfold rounded
  obtain acc | acc | acc | acc : fmtAcc sfmt = 0 ∨ fmtAcc sfmt = 1 ∨ fmtAcc sfmt = 2 ∨ fmtAcc sfmt = 3 := by omega
  · exact ⟨_, by rw [acc]; exact Seq.out_float plain q _ i v, by rw [acc]; rfl⟩
  · exact ⟨_, by rw [acc]; exact Seq.out_float plain q _ i v, by rw [acc]; rfl⟩
  · exact ⟨_, by rw [acc]; exact Seq.out_float plain q _ i v, by rw [acc]; rfl⟩
  · refine ⟨_, by rw [acc]; exact Seq.out_int plain q i v, ?_⟩
    rw [acc, if_pos rfl, ofNat_patOf, clampInt_eq (by decide)]
    rfl

end

/-! ## Rows of products and loaded rows -/

section
variable {sfmt : Word64} (float : fmtAcc sfmt ≤ 3) (plain : (modesOf sfmt).rm ≠ 5)

/-- The sum of an element's products and its old value, which counts only where z is clear (R181). -/
def productSum (sfmt : Word64) (z : Bool) (a : List (Nat × FVal)) (old : Word32) (b : List FVal) : FVal :=
  sumF (modesOf sfmt).rm ((if z then .fin false 0 0 false else accVal (fmtAcc sfmt) old) :: ((a.map (·.2)).zip b).map fun p => p.1.mul p.2)

include float plain

theorem foldl_mmaElem (z : Bool) (a : List (Nat × FVal)) (i : Nat) (b : List (Nat × List FVal)) (t : Tile) (q : Seq) :
    b.foldl (fun x j => mmaElem sfmt z a i j.1 j.2 x) (t, q) = (t.putRow i (fun old e => rounded sfmt (productSum sfmt z a old e)) b, q) := by
  refine foldl_pair_fixed (fun t e => ?_) b t
  obtain ⟨y, out, value⟩ := Seq.out_rounded plain float q i (productSum sfmt z a (t.at i e.1) e.2)
  have run : mmaElem sfmt z a i e.1 e.2 (t, q) =
      let o := q.out sfmt (accFF (fmtAcc sfmt)) i (productSum sfmt z a (t.at i e.1) e.2)
      ({ t with el := mset (16 * i + e.1) (BitVec.ofNat 32 o.1) t.el }, o.2) := rfl
  rw [run, out]
  dsimp only
  rw [value]

theorem foldl_loadElem (f : BitVec 2) (i : Nat) (cells : List (Nat × Nat)) (t : Tile) (q : Seq) :
    cells.foldl (fun x e =>
      let o := x.2.out sfmt (accFF (fmtAcc sfmt)) i (memVal f (fmtAcc sfmt) e.2)
      ({ x.1 with el := mset (16 * i + e.1) (BitVec.ofNat 32 o.1) x.1.el }, o.2)) (t, q)
      = (t.putRow i (fun _ e => rounded sfmt (memVal f (fmtAcc sfmt) e)) cells, q) := by
  refine foldl_pair_fixed (fun t e => ?_) cells t
  obtain ⟨y, out, value⟩ := Seq.out_rounded plain float q i (memVal f (fmtAcc sfmt) e.2)
  dsimp only
  rw [out, value]

end

/-! ## A committed row -/

/-- The team whose oldest row has left the stream. -/
def Team.popped (t : Team) (rest : List IssuedRow) : Team := { t with seq := { t.seq with rows := rest } }

/-- The state in which the oldest row has taken its effect: a tile replaced, and the generators. -/
def State.committed (s : State) (k : Nat) (rest : List IssuedRow) (n : Nat) (x : Tile) (gens : Vector Word32 16) : State :=
  s.setTeamOf k { (s.teamOf k).setTile n x with seq := { (s.teamOf k).seq with rows := rest, gens := gens } }

theorem Team.tile_setTile (t : Team) (n : Nat) (x : Tile) : (t.setTile n x).tile n = x := mget_mset_self _ _ _ _
theorem Team.tile_setTile_ne (t : Team) {n m : Nat} (ne : m ≠ n) (x : Tile) : (t.setTile n x).tile m = t.tile m := mget_mset_ne _ ne _ _

section
variable (s : State) (k : Nat) (rest : List IssuedRow) (n : Nat) (x : Tile) (gens : Vector Word32 16)

theorem State.committed_teamOf : (s.committed k rest n x gens).teamOf k
    = { (s.teamOf k).setTile n x with seq := { (s.teamOf k).seq with rows := rest, gens := gens } } := s.teamOf_setTeamOf k _
theorem State.committed_tile : ((s.committed k rest n x gens).teamOf k).tile n = x := by
  rw [State.committed_teamOf]
  exact Team.tile_setTile _ n x
theorem State.committed_tile_ne {m : Nat} (ne : m ≠ n) : ((s.committed k rest n x gens).teamOf k).tile m = (s.teamOf k).tile m := by
  rw [State.committed_teamOf]
  exact Team.tile_setTile_ne _ ne x
theorem State.committed_rows : ((s.committed k rest n x gens).teamOf k).seq.rows = rest := by rw [State.committed_teamOf]

end

section
variable {s : State} {k : Nat} {r : IssuedRow} {rest : List IssuedRow} (rows : (s.teamOf k).seq.rows = r :: rest)
include rows

theorem State.takeRow_first : s.takeRow k 0 = s.setTeamOf k ((s.teamOf k).popped rest) := by
  have popped : removeAt 0 (s.teamOf k).seq.rows = rest := by rw [rows]; rfl
  rw [State.takeRow, State.modSeq, popped]
  rfl

/-- What the effect of the oldest row is computed from: the team without that row, and its core. -/
theorem State.takeRow_teamOf : (s.takeRow k 0).teamOf k = (s.teamOf k).popped rest := by
  rw [State.takeRow_first rows, State.teamOf_setTeamOf]

/-- The oldest row is the first that may be committed, where it is not queued (R172). -/
theorem Seq.firstFree_of_cons (free : r.queued = false) : (s.teamOf k).seq.firstFree = some 0 := by
  rw [Seq.firstFree, rows, List.length_cons, List.range_succ_eq_map, List.find?_cons_of_pos]
  simp [free]

theorem exec_mmaRowCommit {u : State} (free : r.queued = false) (commit : (s.takeRow k 0).commitRow k r = .ok u) : exec (.mmaRowCommit k 0) s = .next u := by
  have clean : s.checkedCommit k 0 0 r = u := by
    unfold State.checkedCommit
    simp only [commit]
    simp
  show execMmaRowCommit k 0 s = _
  unfold execMmaRowCommit
  simp only [Seq.firstFree_of_cons rows free, rows, List.getElem?_cons_zero, clean]

/-- A row that puts a tile and a sequencer with other generators in their places. -/
theorem State.put_committed (x : Tile) (gens : Vector Word32 16) :
    (s.takeRow k 0).setTeamOf k { ((s.takeRow k 0).teamOf k).setTile r.tile x with seq := { ((s.takeRow k 0).teamOf k).seq with gens := gens } }
      = s.committed k rest r.tile x gens := by
  rw [State.takeRow_teamOf rows, State.takeRow_first rows, State.setTeamOf_setTeamOf]
  rfl

theorem State.put_committed_tile (x : Tile) :
    (s.takeRow k 0).setTeamOf k { ((s.takeRow k 0).teamOf k).setTile r.tile x with seq := ((s.takeRow k 0).teamOf k).seq }
      = s.committed k rest r.tile x (s.teamOf k).seq.gens := by
  rw [← State.put_committed rows x, State.takeRow_teamOf rows]
  rfl

theorem State.takeRow_tile (n : Nat) : ((s.takeRow k 0).teamOf k).tile n = (s.teamOf k).tile n := by
  rw [State.takeRow_teamOf rows]
  rfl

/-- A row of products without an adapter (R181). -/
theorem State.commitRow_mma {z : Bool} {a : List (Nat × FVal)} {b : List (Nat × List FVal)} {seg K : Nat} (op : r.op = .mma z a b 0 seg K)
    (float : fmtAcc r.sfmt ≤ 3) (plain : (modesOf r.sfmt).rm ≠ 5) : (s.takeRow k 0).commitRow k r
      = .ok (s.committed k rest r.tile (((s.teamOf k).tile r.tile).putRow r.row (fun old e => rounded r.sfmt (productSum r.sfmt z a old e)) b) (s.teamOf k).seq.gens) := by
  unfold State.commitRow
  rw [op]
  dsimp only
  rw [if_pos rfl, foldl_mmaElem float plain, State.put_committed_tile rows, State.takeRow_tile rows]

/-- A loaded row (R188). -/
theorem State.commitRow_load {cells : List (Nat × Nat)} {f : BitVec 2} (op : r.op = .load cells f)
    (float : fmtAcc r.sfmt ≤ 3) (plain : (modesOf r.sfmt).rm ≠ 5) : (s.takeRow k 0).commitRow k r
      = .ok (s.committed k rest r.tile (((s.teamOf k).tile r.tile).putRow r.row (fun _ e => rounded r.sfmt (memVal f (fmtAcc r.sfmt) e)) cells) (s.teamOf k).seq.gens) := by
  unfold State.commitRow
  rw [op]
  have fold := foldl_loadElem float plain f r.row cells (((s.takeRow k 0).teamOf k).tile r.tile) ((s.takeRow k 0).teamOf k).seq
  dsimp only at fold ⊢
  rw [fold, State.put_committed_tile rows, State.takeRow_tile rows]

/-- The tile after MZERO's row (R187). -/
def Tile.zeroRow (t : Tile) (i : Nat) : Tile :=
  { t.clearRank i with el := (List.range 16).foldl (fun m j => mset (16 * i + j) 0 m) t.el }

theorem State.commitRow_zero (op : r.op = .zero) : (s.takeRow k 0).commitRow k r
    = .ok (s.committed k rest r.tile (((s.teamOf k).tile r.tile).zeroRow r.row) (s.teamOf k).seq.gens) := by
  unfold State.commitRow
  rw [op]
  dsimp only
  rw [State.put_committed_tile rows, State.takeRow_tile rows]
  rfl

/-- A seed (R193). -/
theorem State.commitRow_seed {x : Word32} (op : r.op = .seed x) : (s.takeRow k 0).commitRow k r
    = .ok (s.committed k rest r.tile ((s.teamOf k).tile r.tile) (vset (s.teamOf k).seq.gens r.row x)) := by
  unfold State.commitRow
  rw [op]
  dsimp only
  rw [← State.put_committed rows, State.takeRow_tile rows, State.takeRow_teamOf rows]
  rfl

end

theorem Tile.at_zeroRow (t : Tile) (i : Nat) {i' j : Nat} (hj : j < 16) : (t.zeroRow i).at i' j = if i' = i then 0 else t.at i' j := by
  have keys : (List.range 16).Pairwise fun a b => 16 * i + a ≠ 16 * i + b := List.nodup_range.imp fun ne same => ne (by omega)
  have fold := mget_foldl_replace (d := (0 : Word32)) (key := fun j => 16 * i + j) (g := fun _ _ => 0) keys t.el (16 * i' + j)
  unfold Tile.at Tile.zeroRow
  dsimp only
  rw [fold]
  cases found : (List.range 16).find? fun e => decide (16 * i + e = 16 * i' + j) with
  | none =>
    have other : i' ≠ i := fun here => absurd (decide_eq_true (by rw [here])) (List.find?_eq_none.mp found j (List.mem_range.mpr hj))
    rw [if_neg other]
    rfl
  | some e =>
    have small := List.mem_range.mp (List.mem_of_find?_eq_some found)
    have same : 16 * i + e = 16 * i' + j := by simpa using List.find?_some found
    rw [if_pos (by omega)]
    rfl

end Sys2Proof.Machine

namespace Sys2Proof.Claims
open Sys2Proof.Machine

/-- Settles O34: the oldest row leaves the stream, and what it writes are cells of its own row of its tile. -/
theorem rowCommitsWriteTheirTileRow : Obligations.RowCommitsWriteTheirTileRow := by
  intro s k r rest rows free
  dsimp only
  have others (x : Tile) (gens : Vector Word32 16) {m : Nat} (ne : m ≠ k) : (s.committed k rest r.tile x gens).teamOf m = s.teamOf m :=
    s.teamOf_setTeamOf_ne ne _
  have mem (x : Tile) (gens : Vector Word32 16) : ((s.committed k rest r.tile x gens).teamOf k).mem = (s.teamOf k).mem := by
    rw [State.committed_teamOf]
    rfl
  refine ⟨fun float plain _ => ⟨fun z a b seg K op apart inside => ?product, fun op => ?zero, fun cells f op apart inside => ?load⟩, fun x op => ?seed⟩
  case product =>
    refine ⟨_, exec_mmaRowCommit rows free (State.commitRow_mma rows op float plain), State.committed_rows .., fun i _ j hj => ?_,
      fun m ne => State.committed_tile_ne _ _ _ _ _ _ ne, fun m ne => others _ _ ne, rfl, mem _ _⟩
    rw [State.committed_tile, Tile.at_putRow apart inside hj]
    split
    · cases b.find? fun e => e.1 == j <;> rfl
    · rfl
  case zero =>
    refine ⟨_, exec_mmaRowCommit rows free (State.commitRow_zero rows op), State.committed_rows .., fun i _ j hj => ?_,
      fun m ne => State.committed_tile_ne _ _ _ _ _ _ ne, fun m ne => others _ _ ne, rfl, mem _ _⟩
    rw [State.committed_tile, Tile.at_zeroRow _ _ hj]
  case load =>
    refine ⟨_, exec_mmaRowCommit rows free (State.commitRow_load rows op float plain), State.committed_rows .., fun i _ j hj => ?_,
      fun m ne => State.committed_tile_ne _ _ _ _ _ _ ne, fun m ne => others _ _ ne, rfl, mem _ _⟩
    rw [State.committed_tile, Tile.at_putRow apart inside hj]
    split
    · cases cells.find? fun e => e.1 == j <;> rfl
    · rfl
  case seed =>
    refine ⟨_, exec_mmaRowCommit rows free (State.commitRow_seed rows op), ?_⟩
    rw [State.committed_teamOf]

end Sys2Proof.Claims
end

