-- ==== Sys2Proof/Proofs/StreamBarriers.lean ====
section
/-! PROOFS. Why the statement of the batches and stream barriers fails: ADPLD (R178, R185) is claimed to be an instruction that issues no row, which leaves the fetches of every core alone, and also to begin the fetches of the segments that miss. -/

namespace Sys2Proof.Machine
open Sys2Proof.Claims

/-- The stream of team 1 runs a clause under the formats of its reset, and the adapter cache of its core is empty. -/
def State.emptyCache : State :=
  { State.reset with
    cur := ⟨.stream, 1, 0, false, 0, 0⟩
    teams := [(1, { Team.vacant with live := true, seq := { Seq.reset with st := .running, clause := some ⟨0x1000, 3, 3, [0, 0, 0], 0, false⟩ } })] }

/-- The fetch of segment 0 of adapter 1's A part. -/
def AdpFetch.firstSegment : AdpFetch := ⟨1, 1, false, 0, true⟩

/-- ADPLD of the first segment of adapter 1 (R185). -/
def adpldFirst : Instr := .adpld (.const 17) ⟨false, 1, 0⟩

theorem exec_adpldFirst : ∃ t, exec adpldFirst State.emptyCache = .next t ∧ (t.coreOf 0).fetches = [.firstSegment] := ⟨_, rfl, rfl⟩

/-- An instruction that issues no row leaves the fetches of every core alone, so one that begins a fetch has not done that only. -/
theorem streamIssued_no_fetch {s t : State} {n : Nat} (issued : StreamIssued s t [] n) (c : Nat) : (t.coreOf c).fetches = (s.coreOf c).fetches :=
  (issued.kept (fun _ none_ => absurd none_ List.not_mem_nil) c).2

theorem adpldFirst_not_issued {t : State} (done : exec adpldFirst State.emptyCache = .next t) {n : Nat} : ¬ StreamIssued State.emptyCache t [] n := by
  intro issued
  obtain ⟨u, run, fetch⟩ := exec_adpldFirst
  obtain rfl : t = u := Host.Outcome.next.inj (done.symm.trans run)
  have unchanged : [AdpFetch.firstSegment] = [] := fetch.symm.trans (streamIssued_no_fetch issued 0)
  cases unchanged

end Sys2Proof.Machine

namespace Sys2Proof.Claims
open Sys2Proof.Machine

/-- Refutes O35: ADPLD of a segment that is not there begins its fetch, which the clause's `StreamIssued` with no rows rules out. -/
theorem not_batchesAndStreamBarriers : ¬ Obligations.BatchesAndStreamBarriers := by
  intro h
  obtain ⟨-, -, -, -, -, adpld, -⟩ := h State.emptyCache _ (.const 17) (.const 17) 0 0 ⟨false, 1, 0⟩ 0 default rfl (by decide)
  obtain ⟨t, done, issued, -⟩ := adpld (by decide) (by decide)
  exact adpldFirst_not_issued done issued

end Sys2Proof.Claims
end

