-- ==== Sys2Proof/Proofs/Tokens.lean ====
section
/-! PROOFS. MACQ and MREL (R172, R175, R194): the token of a tile, the tile's rows in four registers and back, and what waits and traps. -/

namespace Sys2Proof.Machine
open Sys2Proof.Claims

/-! ## Elements within a register -/

theorem sumNat_range_succ (f : Nat → Nat) (n : Nat) : sumNat ((List.range (n + 1)).map f) = sumNat ((List.range n).map f) + f n := by
  simp [sumNat, List.range_succ]

section
variable {f : Nat → Nat} {w : Nat} (small : ∀ e, f e < 2 ^ w)
include small

theorem sumNat_digits_lt (n : Nat) : sumNat ((List.range n).map fun e => f e * 2 ^ (w * e)) < 2 ^ (w * n) := by
  induction n with
  | zero => exact Nat.two_pow_pos _
  | succ n ih =>
    rw [sumNat_range_succ, Nat.mul_succ, Nat.pow_add, Nat.mul_comm (2 ^ (w * n))]
    calc _ < 2 ^ (w * n) + f n * 2 ^ (w * n) := by omega
      _ = (f n + 1) * 2 ^ (w * n) := by ring
      _ ≤ 2 ^ w * 2 ^ (w * n) := Nat.mul_le_mul_right _ (small n)

/-- A digit of a number that is written by its digits. -/
theorem digit_sumNat {i n : Nat} (hi : i < n) : sumNat ((List.range n).map fun e => f e * 2 ^ (w * e)) / 2 ^ (w * i) % 2 ^ w = f i := by
  induction n with
  | zero => omega
  | succ n ih =>
    rw [sumNat_range_succ]
    by_cases last : i = n
    · rw [last, Nat.add_mul_div_right _ _ (Nat.two_pow_pos _), Nat.div_eq_of_lt (sumNat_digits_lt small n), Nat.zero_add, Nat.mod_eq_of_lt (small n)]
    · obtain ⟨d, rfl⟩ : ∃ d, n = i + 1 + d := ⟨n - (i + 1), by omega⟩
      have split : f (i + 1 + d) * 2 ^ (w * (i + 1 + d)) = 2 ^ (w * i) * (2 ^ w * (f (i + 1 + d) * 2 ^ (w * d))) := by ring
      rw [split, Nat.add_mul_div_left _ _ (Nat.two_pow_pos _), Nat.add_mul_mod_self_left]
      exact ih (by omega)

theorem toNat_extract_digits {i n : Nat} (hi : i < n) :
    ((BitVec.ofNat (w * n) (sumNat ((List.range n).map fun e => f e * 2 ^ (w * e)))).extractLsb' (w * i) w).toNat = f i := by
  rw [BitVec.extractLsb'_toNat, Nat.shiftRight_eq_div_pow, BitVec.toNat_ofNat, Nat.mod_eq_of_lt (sumNat_digits_lt small n), digit_sumNat small hi]

end

/-- Element m of a register is its bits. -/
theorem ofNat_vpat (v : VWord) (w m : Nat) : BitVec.ofNat w (vpat v w m) = v.extractLsb' (w * m) w := by
  apply BitVec.eq_of_toNat_eq
  rw [BitVec.toNat_ofNat, vpat, Nat.mod_mod, BitVec.extractLsb'_toNat, Nat.shiftRight_eq_div_pow]

/-- The four rows that a register of a copied tile holds (R194). -/
theorem Tile.extract_regs (t : Tile) {i j : Nat} (hj : j < 16) : (t.regs (i / 4)).extractLsb' (32 * (16 * (i % 4) + j)) 32 = t.at i j := by
  have small (e : Nat) : (t.at (4 * (i / 4) + e / 16) (e % 16)).toNat < 2 ^ 32 := BitVec.isLt _
  have digit := toNat_extract_digits small (i := 16 * (i % 4) + j) (n := 64) (by omega)
  have row : 4 * (i / 4) + (16 * (i % 4) + j) / 16 = i := by omega
  have col : (16 * (i % 4) + j) % 16 = j := by omega
  rw [row, col] at digit
  exact BitVec.eq_of_toNat_eq digit

/-! ## The group and its tile -/

section
variable {s : State} {a : Src} {x : Word64} (operand : s.opnd a = .ok x) (own : x.toNat < s.team.accs)
include operand own

theorem State.tokenTile_ok : s.tokenTile a = .ok x.toNat := by
  unfold State.tokenTile
  rw [operand]
  simp only [bind, Except.bind, needOp_ok (decide_eq_true own)]
  rfl

end

/-- From s to t a group has changed the token, and perhaps the elements, of a tile and has gone on; of its registers only vectors may have changed (R194). -/
def TileTook (s t : State) (n : Nat) (token : Option Nat) : Prop :=
  ((t.team.tile n).token = token ∧ (t.team.tile n).rank = (s.team.tile n).rank ∧ (t.team.tile n).rid = (s.team.tile n).rid
    ∧ ∀ k, k ≠ n → t.team.tile k = s.team.tile k)
  ∧ t.team = { s.team with acc := t.team.acc } ∧ (∀ j, j ≠ s.cur.team → t.teamOf j = s.teamOf j) ∧ PathDone s t 1 Latch.none
  ∧ t.hart.s = s.hart.s ∧ t.hart.m = s.hart.m ∧ SameRegs s t ∧ t = { s with teams := t.teams, harts := t.harts }
  ∧ ∀ i, i ≠ s.hid → t.hartOf i = s.hartOf i

/-- The state once a tile has its new token and the instruction is complete. -/
def State.tookTile (s : State) (n : Nat) (y : Tile) (v : Vector VWord 32) : State :=
  ((s.setTeam (s.team.setTile n y)).setHart { s.hart with v := v }).retire 1 Latch.none

section
variable (s : State) (n : Nat) (y : Tile) (v : Vector VWord 32)

theorem State.path_setVectors (u : State) : (u.setHart { u.hart with v := v }).path = u.path := (State.path_setHart _ _).trans rfl

theorem State.tookTile_hart : (s.tookTile n y v).hart = (({ s.hart with v := v } : Hart).setPath s.cur.path ((s.path.shift s.tick Latch.none).advance 1)).forget := by
  unfold State.tookTile
  rw [State.retire_hart, State.hart_setHart]
  exact congrArg (fun p : Path => (Hart.setPath { s.hart with v := v } s.cur.path ((p.shift s.tick Latch.none).advance 1)).forget)
    (State.path_setVectors v (s.setTeam (s.team.setTile n y)))
theorem State.tookTile_team : (s.tookTile n y v).team = s.team.setTile n y := s.team_setTeam _
theorem State.tookTile_v : (s.tookTile n y v).hart.v = v := by
  rw [State.tookTile_hart]
  simp
theorem State.tookTile_tile : (s.tookTile n y v).team.tile n = y := by
  rw [State.tookTile_team]
  exact Team.tile_setTile _ n y

theorem State.tookTile_at (i j : Nat) : ((s.tookTile n y v).team.tile n).at i j = y.at i j := by rw [State.tookTile_tile]

theorem State.tookTile_ne {k : Nat} (ne : k ≠ n) : (s.tookTile n y v).team.tile k = s.team.tile k := by
  rw [State.tookTile_team]
  exact Team.tile_setTile_ne _ ne y

theorem State.tookTile_pathDone : PathDone s (s.tookTile n y v) 1 Latch.none := by
  refine pathDone_of_paths (State.retire_pathDone _ 1 Latch.none) (fun p => ?_) rfl
  rw [State.hart_setHart]
  rfl

theorem State.tookTile_others {i : HartId} (ne : i ≠ s.hid) : (s.tookTile n y v).hartOf i = s.hartOf i :=
  (State.retire_others ((s.setTeam (s.team.setTile n y)).setHart { s.hart with v := v }) 1 Latch.none ne).trans
    ((s.setTeam (s.team.setTile n y)).hartOf_setHartOf_ne ne { s.hart with v := v })

theorem State.tookTile_sameRegs : SameRegs s (s.tookTile n y v) := by
  unfold SameRegs
  rw [State.tookTile_hart]
  cases s.cur.path <;> rfl

theorem State.took_tookTile (rank : y.rank = (s.team.tile n).rank) (rid : y.rid = (s.team.tile n).rid) : TileTook s (s.tookTile n y v) n y.token := by
  refine ⟨⟨?token, ?rank, ?rid, fun k ne => s.tookTile_ne n y v ne⟩, ?team, fun j ne => s.teamOf_setTeamOf_ne ne _, s.tookTile_pathDone n y v, ?s, ?m,
    s.tookTile_sameRegs n y v, rfl, fun i ne => s.tookTile_others n y v ne⟩
  case token => rw [State.tookTile_tile]
  case rank => rw [State.tookTile_tile, rank]
  case rid => rw [State.tookTile_tile, rid]
  case team =>
    rw [State.tookTile_team]
    rfl
  case s =>
    rw [State.tookTile_hart]
    cases s.cur.path <;> rfl
  case m =>
    rw [State.tookTile_hart]
    cases s.cur.path <;> rfl

/-- An instruction that writes no vector register. -/
theorem State.tookTile_same : (s.setTeam (s.team.setTile n y)).retire 1 Latch.none = s.tookTile n y s.hart.v := by
  unfold State.tookTile State.retire
  rw [State.setHart_setHart, State.hart_setHart]
  exact congrArg (fun p : Path => (s.setTeam (s.team.setTile n y)).setHart (s.hart.setPath s.cur.path ((p.shift s.tick Latch.none).advance 1)).forget)
    (State.path_setVectors s.hart.v (s.setTeam (s.team.setTile n y))).symm

end

/-- A word that the focus's path waits at (R98). -/
theorem State.stopped_waits (s : State) (w : Wait) : Waits s (s.stopped (.suspend w)) w := by
  have hart : (s.stopped (.suspend w)).hart = s.hart.setPath s.cur.path { s.path with susp := some w, since := s.tick, stalled := false, issuing := false } :=
    s.hart_setHart _
  constructor
  · exact s.path_setPath _
  · rw [hart, Hart.path_setPath_not]
  · rw [hart]
    cases s.cur.path <;> rfl
  · exact fun i ne => s.hartOf_setHartOf_ne ne _
  · rfl

/-! ## MACQ -/

section
variable {s : State} {a : Src} {x : Word64} (operand : s.opnd a = .ok x) (own : x.toNat < s.team.accs)

/-- The tile with its token at a group. -/
def Tile.held (t : Tile) (g : Nat) : Tile := { t with token := some g }
/-- The vector registers with a tile copied into four of them (R194). -/
def Hart.copied (h : Hart) (r : Nat) (t : Tile) : Vector VWord 32 := (List.range 4).foldl (fun v k => vset v (r + k) (t.regs k)) h.v

theorem rows_any_tile_iff (rows : List IssuedRow) (n : Nat) : (rows.any fun r => decide (n ∈ r.tiles)) = true ↔ ∃ r ∈ rows, n ∈ r.tiles := by
  simp

include operand own

theorem exec_macqNc_free (free : (s.team.tile x.toNat).token = none) (idle : ∀ q ∈ s.team.seq.rows, x.toNat ∉ q.tiles) :
    exec (.macqNc a) s = .next (s.tookTile x.toNat ((s.team.tile x.toNat).held s.cur.gid) s.hart.v) := by
  have still : (s.team.seq.rows.any fun r => decide (x.toNat ∈ r.tiles)) = false := by simpa using idle
  show s.takeToken none a = _
  unfold State.takeToken
  simp only [State.tokenTile_ok operand own, bind, Except.bind, free, still]
  rw [← State.tookTile_same]
  rfl

theorem exec_macq_free {d : BitVec 6} (held : s.heldRegs d.toNat 4 = .ok ()) (free : (s.team.tile x.toNat).token = none)
    (idle : ∀ q ∈ s.team.seq.rows, x.toNat ∉ q.tiles) :
    exec (.macq d a) s = .next (s.tookTile x.toNat ((s.team.tile x.toNat).held s.cur.gid) (s.hart.copied d.toNat (s.team.tile x.toNat))) := by
  have still : (s.team.seq.rows.any fun r => decide (x.toNat ∈ r.tiles)) = false := by simpa using idle
  show s.takeToken (some d) a = _
  unfold State.takeToken
  simp only [State.tokenTile_ok operand own, bind, Except.bind, held, free, still]
  rfl

theorem exec_macqNc_waits (taken : ((s.team.tile x.toNat).token ≠ none ∧ (s.team.tile x.toNat).token ≠ some s.cur.gid)
      ∨ ((s.team.tile x.toNat).token = none ∧ ∃ q ∈ s.team.seq.rows, x.toNat ∈ q.tiles)) :
    exec (.macqNc a) s = .next (s.stopped (.suspend (.token x.toNat))) := by
  have other : ((s.team.tile x.toNat).token != some s.cur.gid) = true := by
    rcases taken with ⟨-, ne⟩ | ⟨none_, -⟩
    · exact bne_iff_ne.mpr ne
    · rw [none_]
      rfl
  have busy : ((s.team.tile x.toNat).token.isSome || s.team.seq.rows.any fun r => decide (x.toNat ∈ r.tiles)) = true := by
    rcases taken with ⟨ne, -⟩ | ⟨-, rows⟩
    · rw [Option.isSome_iff_ne_none.mpr ne, Bool.true_or]
    · rw [(rows_any_tile_iff _ _).mpr rows, Bool.or_true]
  show s.takeToken none a = _
  unfold State.takeToken
  simp only [State.tokenTile_ok operand own, bind, Except.bind, need_ok other, busy]
  rfl

theorem exec_macqNc_mine (mine : (s.team.tile x.toNat).token = some s.cur.gid) : exec (.macqNc a) s = .next (s.stopped (trapOf .accToken x)) := by
  have same : ((s.team.tile x.toNat).token != some s.cur.gid) = false := by rw [mine, bne_self_eq_false]
  show s.takeToken none a = _
  unfold State.takeToken
  simp only [State.tokenTile_ok operand own, bind, Except.bind, need_error same, BitVec.ofNat_toNat, BitVec.setWidth_eq]
  rfl

/-! ## MREL -/

theorem exec_mrel_trap (other : (s.team.tile x.toNat).token ≠ some s.cur.gid) : exec (.mrel a) s = .next (s.stopped (trapOf .accToken x)) := by
  show s.giveToken a none = _
  unfold State.giveToken
  simp only [State.tokenTile_ok operand own, bind, Except.bind, need_error (beq_false_of_ne other), BitVec.ofNat_toNat, BitVec.setWidth_eq]
  rfl

theorem exec_mrel (mine : (s.team.tile x.toNat).token = some s.cur.gid) :
    exec (.mrel a) s = .next (s.tookTile x.toNat { s.team.tile x.toNat with token := none } s.hart.v) := by
  show s.giveToken a none = _
  unfold State.giveToken
  simp only [State.tokenTile_ok operand own, bind, Except.bind, need_ok (beq_of_eq mine)]
  rw [← State.tookTile_same]
  rfl

omit operand own in
/-- The elements that MREL takes from four registers (R194). -/
def Hart.tileCells (h : Hart) (r : Nat) (narrow : Bool) : List (Nat × Word32) :=
  (List.range 256).map fun e =>
    let x := vpat (vget h.v (r + e / 64) 0) 32 (e % 64)
    (e, BitVec.ofNat 32 (if narrow then x % 65536 else x))

theorem exec_mrelW {r : BitVec 6} (held : s.heldRegs r.toNat 4 = .ok ()) (mine : (s.team.tile x.toNat).token = some s.cur.gid) :
    exec (.mrelW a (.reg r)) s = .next (s.tookTile x.toNat { s.team.tile x.toNat with
      token := none, el := s.hart.tileCells r.toNat (fmtAcc s.team.seq.sfmt == 1 || fmtAcc s.team.seq.sfmt == 2) } s.hart.v) := by
  have source : s.heldSrc (.reg r) 4 = .ok () := held
  show s.giveToken a (some (.reg r)) = _
  unfold State.giveToken
  simp only [State.tokenTile_ok operand own, bind, Except.bind, need_ok (beq_of_eq mine), source]
  rw [← State.tookTile_same]
  rfl

end

section
variable {h : Hart} {r : Nat} {t : Tile} (fits : r + 4 ≤ 32)
include fits

theorem Hart.copied_row {i : Nat} (hi : i < 16) : vget (h.copied r t) (r + i / 4) 0 = t.regs (i / 4) := by
  rw [Hart.copied, vget_foldl_vset _ _ _ _ _ _ fits, if_pos (by omega), Nat.add_sub_cancel_left]

theorem Hart.copied_kept {k : Nat} (out : k < r ∨ r + 4 ≤ k) : vget (h.copied r t) k 0 = vget h.v k 0 := by
  rw [Hart.copied, vget_foldl_vset _ _ _ _ _ _ fits, if_neg (by omega)]

end

theorem mget_map_keys {κ α : Type} [DecidableEq κ] (d : α) (f : κ → α) (ks : List κ) (k : κ) :
    mget d k (ks.map fun e => (e, f e)) = if k ∈ ks then f k else d := by
  induction ks with
  | nil => rfl
  | cons e ks ih =>
    by_cases here : e = k
    · simp [mget, here]
    · simp [mget, here, Ne.symm here, ih]

theorem ofNat_mod_halfword (x : Nat) : BitVec.ofNat 32 (x % 65536) = BitVec.ofNat 32 x &&& 0xFFFF := by
  apply BitVec.eq_of_toNat_eq
  rw [BitVec.toNat_and, BitVec.toNat_ofNat, BitVec.toNat_ofNat]
  show x % 65536 % 2 ^ 32 = x % 2 ^ 32 &&& 2 ^ 16 - 1
  rw [Nat.and_two_pow_sub_one_eq_mod]
  omega

/-- An element of a tile as its group gives it back. -/
theorem Hart.at_tileCells (h : Hart) (r : Nat) (narrow : Bool) {i j : Nat} (hi : i < 16) (hj : j < 16) :
    mget 0 (16 * i + j) (h.tileCells r narrow)
      = if narrow = true then (vget h.v (r + i / 4) 0).extractLsb' (32 * (16 * (i % 4) + j)) 32 &&& 0xFFFF
        else (vget h.v (r + i / 4) 0).extractLsb' (32 * (16 * (i % 4) + j)) 32 := by
  have register : (16 * i + j) / 64 = i / 4 := by omega
  have element : (16 * i + j) % 64 = 16 * (i % 4) + j := by omega
  refine (mget_map_keys 0 _ (List.range 256) (16 * i + j)).trans ?_
  rw [if_pos (List.mem_range.mpr (by omega)), register, element, ← ofNat_vpat]
  cases narrow
  · rfl
  · exact ofNat_mod_halfword _

end Sys2Proof.Machine

namespace Sys2Proof.Claims
open Sys2Proof.Machine

/-- Settles O36: who holds the token decides; MACQ and MREL change the tile, and the copy is element by element. -/
theorem tokenInstructionResults : Obligations.TokenInstructionResults := by
  intro s d a r x group operand own
  dsimp only
  refine ⟨fun free idle => ⟨?plain, fun fits held => ?copy⟩, fun taken => ?waits, fun mine => ⟨?twice, ?gives, fun fits held => ?writes⟩, fun other => ?stranger⟩
  case plain => exact ⟨_, exec_macqNc_free operand own free idle, s.took_tookTile _ _ _ rfl rfl, s.tookTile_v _ _ _, s.tookTile_at _ _ _⟩
  case copy =>
    refine ⟨_, exec_macq_free operand own held free idle, s.took_tookTile _ _ _ rfl rfl, s.tookTile_at _ _ _, fun i hi j hj => ?_, fun k _ out => ?_⟩
    · rw [State.tookTile_v, Hart.copied_row fits hi, Tile.extract_regs _ hj]
    · rw [State.tookTile_v, Hart.copied_kept fits out]
  case waits => exact ⟨_, exec_macqNc_waits operand own taken, s.stopped_waits _⟩
  case twice => exact exec_macqNc_mine operand own mine
  case gives => exact ⟨_, exec_mrel operand own mine, s.took_tookTile _ _ _ rfl rfl, s.tookTile_v _ _ _, s.tookTile_at _ _ _⟩
  case writes =>
    refine ⟨_, exec_mrelW operand own held mine, s.took_tookTile _ _ _ rfl rfl, s.tookTile_v _ _ _, fun i hi j hj => ?_⟩
    have narrow (f : Word64) : (fmtAcc f == 1 || fmtAcc f == 2) = true ↔ (f.extractLsb' 10 3).toNat = 1 ∨ (f.extractLsb' 10 3).toNat = 2 := by
      simp [fmtAcc]
    rw [State.tookTile_tile]
    refine (s.hart.at_tileCells _ _ hi hj).trans ?_
    simp only [narrow]
  case stranger => exact exec_mrel_trap operand own other

end Sys2Proof.Claims
end

