-- ==== Sys2Proof/Proofs/StreamEnds.lean ====
section
/-! PROOFS. How a stream ends: by a fault (R164), with its team's last group (R192), or saved with a team that is evicted whole (R371, R372). -/

namespace Sys2Proof.Machine
open Sys2Proof.Claims

/-! ## Rings that a team's packets go to -/

theorem State.logRing_moved (s : State) (k asid : Nat) (ring : Word64) : s.PacketsMoved (s.logRing k asid ring) := by
  unfold State.logRing
  dsimp only
  split
  · exact .refl s
  · have logged := s.logError_moved .machineCheck Cause.machineCheck.code (s.teamOf k).core asid 0 ring
    refine logged.trans (.setTeamOf ?_)
    rw [(s.logError_wrote _ _ _ _ _ _).teamOf_eq]

theorem State.keepRingLogs_moved (s r : State) : s.PacketsMoved (s.keepRingLogs r) :=
  .foldl (fun u (t : Nat × Team) => .foldl (fun v ring => v.logRing_moved t.1 t.2.asid ring) _ u) _ s

theorem ok_of_toOption {ε α : Type} {r : Except ε α} {x : α} (h : r.toOption = some x) : r = .ok x := by
  cases r with
  | error e => cases h
  | ok y => exact congrArg Except.ok (Option.some.inj h)

theorem State.ringPush_moved {s t : State} {asid ring : Nat} {bs : List Byte} (pushed : s.ringPush asid ring bs = some t) : s.PacketsMoved t := by
  unfold State.ringPush at pushed
  split at pushed
  · cases pushed
  · split at pushed
    · cases pushed
    · dsimp only at pushed
      split at pushed
      · cases pushed
      · next u flits =>
        have head := ok_of_toOption pushed
        refine State.PacketsMoved.trans (t := u) ?_ (State.vwrite_moved head)
        refine List.foldlRecOn (motive := fun r : Except Cause State => ∀ v, r = .ok v → s.PacketsMoved v) _ _ ?_ (fun r moved i _ v step => ?_) u flits
        · rintro v ⟨⟩
          exact .refl s
        · cases r with
          | error c => cases step
          | ok w => exact (moved w rfl).trans (State.vwrite_moved step)

theorem State.bounceTo_moved (s : State) (e : PortEntry) (b : Bounced) (path kind control : Nat) (operand data : List Byte) :
    s.PacketsMoved (s.bounceTo e b path kind control operand data).1 := by
  unfold State.bounceTo
  dsimp only
  split
  · next pushed => exact (State.ringPush_moved pushed).trans (.setTeamOf rfl)
  · split
    · exact .refl s
    · exact s.logRing_moved _ _ _
  · exact s.logRing_moved _ _ _

theorem State.checkRing_moved (s : State) (k : Nat) : s.PacketsMoved (s.checkRing k) := by
  unfold State.checkRing
  split
  · exact .refl s
  · split
    · exact .refl s
    · exact s.logRing_moved _ _ _

/-! ## The held puts of a team -/

/-- One held put joins the ring, where the ones before it have. -/
def State.heldStep (e : PortEntry) (r : State × Bool) (h : Held) : State × Bool :=
  let b : Bounced := { pos := 0, off := 256 * h.tile, src := h.src, remote := none, op := .put h.data h.marks }
  if r.2 then let (s, ok) := r.1.bounceTo e b 0 1 h.control [] h.data; (s.putDone h.src h.st h.remote, ok) else r

theorem State.heldStep_moved (e : PortEntry) (r : State × Bool) (h : Held) : r.1.PacketsMoved (State.heldStep e r h).1 := by
  unfold State.heldStep
  dsimp only
  split
  · exact (State.bounceTo_moved _ _ _ _ _ _ _ _).trans (State.putDone_moved _ _ _ _)
  · exact .refl _

/-- The held puts of a team, in the ring of its entry, and whether all had room. -/
def State.heldInRing (s : State) (k : Nat) (e : PortEntry) : State × Bool :=
  ((s.coreOf (s.teamOf k).core).hold.filter (·.team == k)).foldl (State.heldStep e) (s, true)

theorem State.heldInRing_moved (s : State) (k : Nat) (e : PortEntry) : s.PacketsMoved (s.heldInRing k e).1 :=
  List.foldlRecOn (motive := fun r : State × Bool => s.PacketsMoved r.1) _ _ (.refl s) fun r moved h _ => moved.trans (State.heldStep_moved e r h)

/-- The device once a core no longer holds puts of a team. -/
def State.withoutHeld (s : State) (k core : Nat) : State :=
  s.setCoreOf core { s.coreOf core with hold := (s.coreOf core).hold.filter (·.team != k) }

section
variable {s u : State} {k : Nat} {e : PortEntry}

theorem State.holdToRing_none (entry : s.entryOf k = none) : s.holdToRing k = .ok s := by
  unfold State.holdToRing
  rw [entry]

theorem State.holdToRing_some (entry : s.entryOf k = some e) : s.holdToRing k
    = if (s.heldInRing k e).2 then .ok ((s.heldInRing k e).1.withoutHeld k (s.teamOf k).core) else .error (s.keepRingLogs (s.heldInRing k e).1) := by
  unfold State.holdToRing
  rw [entry]
  rfl

theorem State.holdToRing_error_moved (full : s.holdToRing k = .error u) : s.PacketsMoved u := by
  cases entry : s.entryOf k with
  | none => rw [State.holdToRing_none entry] at full; cases full
  | some e =>
    rw [State.holdToRing_some entry] at full
    split at full
    · cases full
    · cases full
      exact s.keepRingLogs_moved _

theorem State.holdToRing_ok_seq (room : s.holdToRing k = .ok u) (j : Nat) : (u.teamOf j).seq = (s.teamOf j).seq := by
  cases entry : s.entryOf k with
  | none => rw [State.holdToRing_none entry] at room; cases room; rfl
  | some e =>
    rw [State.holdToRing_some entry] at room
    split at room
    · cases room
      exact (s.heldInRing_moved k e).seq_eq j
    · cases room

/-- A team without held puts needs no room in its ring. -/
theorem State.holdToRing_of_none_held (none_ : ∀ h ∈ (s.coreOf (s.teamOf k).core).hold, h.team ≠ k) : ∃ u, s.holdToRing k = .ok u := by
  cases entry : s.entryOf k with
  | none => exact ⟨s, State.holdToRing_none entry⟩
  | some e =>
    have empty : (s.coreOf (s.teamOf k).core).hold.filter (·.team == k) = [] :=
      List.filter_eq_nil_iff.mpr fun h mem same => none_ h mem (beq_iff_eq.mp same)
    have room : (s.heldInRing k e).2 = true := by rw [State.heldInRing, empty, List.foldl_nil]
    exact ⟨_, (State.holdToRing_some entry).trans (if_pos room)⟩

end

/-! ## The eviction of a team -/

/-- A core whose entry of a team is absent. -/
def Core.absentTo (c : Core) (k : Nat) : Core :=
  { c with ports := c.ports.map fun e => if e.valid && e.team == k then { e with absent := true } else e }

theorem Core.absentTo_ports {c : Core} {k : Nat} {e : PortEntry} (mem : e ∈ (c.absentTo k).ports) (valid : e.valid = true) (his : e.team = k) :
    e.absent = true := by
  obtain ⟨old, -, rfl⟩ := List.mem_map.mp mem
  by_cases hit : (old.valid && old.team == k) = true
  · rw [if_pos hit]
  · rw [if_neg hit] at valid his
    rw [valid, his] at hit
    simp at hit

/-- The device without a team that is evicted: its entries are absent, and the adapter cache of its core has nothing of it (R372). -/
def State.evicted (s : State) (k core : Nat) : State :=
  let u := s.mapEntries k fun _ e => { e with absent := true }
  let c := u.coreOf core
  let u := u.setCoreOf core
    { c with segs := c.segs.filter (·.team != k), dirs := c.dirs.filter (·.team != k), fetches := c.fetches.filter (·.team != k) }
  u.setTeamOf k { u.teamOf k with absent := true }

section
variable (s : State) (k core : Nat)

theorem State.absentEntries_coreOf (c : Nat) : (s.mapEntries k fun _ e => { e with absent := true }).coreOf c = (s.coreOf c).absentTo k :=
  mget_map_values (d := Core.reset) (f := fun x => x.absentTo k) rfl c s.cores

theorem State.evicted_ports (c : Nat) : ((s.evicted k core).coreOf c).ports = ((s.coreOf c).absentTo k).ports := by
  rw [← State.absentEntries_coreOf s k c]
  by_cases here : c = core
  · subst here
    exact (congrArg Core.ports ((s.mapEntries k fun _ e => { e with absent := true }).coreOf_setCoreOf c _)).trans rfl
  · exact congrArg Core.ports ((s.mapEntries k fun _ e => { e with absent := true }).coreOf_setCoreOf_ne here _)

theorem State.evicted_teamOf : (s.evicted k core).teamOf k = { s.teamOf k with absent := true } := State.teamOf_setTeamOf _ k _

end

section
variable {s u : State} {k : Nat} (stopped : (s.teamOf k).seq.st ≠ .running)
include stopped

omit stopped in
theorem State.evictTeam_stays (stays : ((s.teamOf k).absent || !s.allEvicted k) = true) : s.evictTeam k = s := by
  unfold State.evictTeam
  simp only [stays, if_true]

theorem State.evictTeam_full (goes : ((s.teamOf k).absent || !s.allEvicted k) = false) (full : (s.checkRing k).holdToRing k = .error u) :
    s.evictTeam k = u := by
  unfold State.evictTeam
  simp [goes, stopped, full]

theorem State.evictTeam_room (goes : ((s.teamOf k).absent || !s.allEvicted k) = false) (room : (s.checkRing k).holdToRing k = .ok u) :
    s.evictTeam k = u.evicted k (s.teamOf k).core := by
  unfold State.evictTeam
  simp only [goes, beq_false_of_ne stopped, room]
  rfl

/-- A stream that has stopped stays as it was saved. -/
theorem State.evictTeam_seq : ((s.evictTeam k).teamOf k).seq = (s.teamOf k).seq := by
  have checked := (s.checkRing_moved k).seq_eq k
  cases goes : (s.teamOf k).absent || !s.allEvicted k with
  | true => rw [State.evictTeam_stays goes]
  | false =>
    cases ring : (s.checkRing k).holdToRing k with
    | error u => rw [State.evictTeam_full stopped goes ring, (State.holdToRing_error_moved ring).seq_eq, checked]
    | ok u => rw [State.evictTeam_room stopped goes ring, State.evicted_teamOf, State.holdToRing_ok_seq ring, checked]

theorem State.evictTeam_absent (present : (s.teamOf k).absent = false) (all : s.allEvicted k = true)
    (none_ : ∀ h ∈ (s.coreOf (s.teamOf k).core).hold, h.team ≠ k) : ((s.evictTeam k).teamOf k).absent = true
      ∧ ∀ o, ∀ e ∈ ((s.evictTeam k).coreOf o).ports, e.valid = true → e.team = k → e.absent = true := by
  have goes : ((s.teamOf k).absent || !s.allEvicted k) = false := by rw [present, all]; rfl
  have checked := s.checkRing_moved k
  obtain ⟨u, room⟩ : ∃ u, (s.checkRing k).holdToRing k = .ok u := by
    refine State.holdToRing_of_none_held ?_
    rwa [checked.team, checked.coreOf_eq]
  rw [State.evictTeam_room stopped goes room]
  refine ⟨by rw [State.evicted_teamOf], fun o e mem valid his => ?_⟩
  rw [State.evicted_ports] at mem
  exact Core.absentTo_ports mem valid his

end

/-! ## Faults, stops and evictions of a stream -/

section
variable {s : State} {k : Nat}

/-- Everything that a team's stream has issued is complete (R163, R164). -/
def Team.Idle (t : Team) : Prop := t.seq.rows = [] ∧ t.seq.batches = [] ∧ t.seq.arrivals = [] ∧ ∀ p ∈ t.sent, p.2.2 ≠ 0

theorem Team.busy_of_not_idle {t : Team} (busy : ¬ t.Idle) : t.streamIdle = false := Bool.eq_false_iff.mpr fun idle => busy (t.streamIdle_iff.mp idle)

section
variable {c : Cause} {addr : Word64} (fault : (s.teamOf k).seq.fault = some (c, addr))
include fault

theorem exec_streamFault_busy (busy : ¬ (s.teamOf k).Idle) : exec (.streamFault k) s = .next s := by
  show execStreamFault k s = _
  unfold execStreamFault
  simp only [fault, Team.busy_of_not_idle busy, Bool.not_false, or_true, if_true]

/-- The stream whose fault is being reported. -/
def State.faulted (s : State) (k : Nat) : State := s.modSeq k fun q => { q with st := .faulted, fault := none, clause := none }

variable (running : (s.teamOf k).seq.st = .running) (idle : (s.teamOf k).Idle)
include running idle

theorem exec_streamFault_alive {g : Nat} {gs : List Nat} (alive : s.liveGids k = g :: gs) :
    exec (.streamFault k) s = .next ((s.faulted k).addCause k g ⟨c, mark63 addr, none⟩) := by
  show execStreamFault k s = _
  unfold execStreamFault
  simp only [fault, running, (s.teamOf k).streamIdle_iff.mpr idle, State.modSeq_liveGids, alive]
  rfl

/-- The stream without groups, whose fault is in the log (R164). -/
def State.faultLogged (s : State) (k : Nat) (c : Cause) (addr : Word64) : State :=
  ((s.faulted k).logError .engine c.code (s.teamOf k).core (s.teamOf k).asid 0 addr).modSeq k fun q => { q with st := .stopped }

theorem exec_streamFault_dead (dead : s.liveGids k = []) : exec (.streamFault k) s = .next ((s.faultLogged k c addr).releaseTeam k) := by
  show execStreamFault k s = _
  unfold execStreamFault
  simp only [fault, running, (s.teamOf k).streamIdle_iff.mpr idle, State.modSeq_liveGids, dead]
  rfl

end

theorem State.faultLogged_over {c : Cause} {addr : Word64} (live : (s.teamOf k).live = true) (dead : s.liveGids k = []) :
    (s.faultLogged k c addr).teamOver k = true := by
  have logged := (s.faulted k).logError_wrote .engine c.code (s.teamOf k).core (s.teamOf k).asid 0 addr
  have team : (s.faultLogged k c addr).teamOf k = { s.teamOf k with seq := { (s.teamOf k).seq with st := .stopped, fault := none, clause := none } } := by
    unfold State.faultLogged
    rw [State.teamOf_modSeq, logged.teamOf_eq, State.faulted, State.teamOf_modSeq]
  rw [State.teamOver_iff, team]
  refine ⟨live, ?_, .inr rfl⟩
  unfold State.faultLogged
  rw [State.modSeq_liveGids, State.liveGids, logged.harts_eq]
  exact dead

/-- The entry of a fault that finds no group is behind those of before (R164). -/
theorem State.faultLogged_log (s : State) (k : Nat) (c : Cause) (addr : Word64) : ((s.faultLogged k c addr).releaseTeam k).service.log[s.service.log.length]?
    = some (4, c.code.setWidth 8, BitVec.ofNat 16 (s.teamOf k).core, BitVec.ofNat 32 (s.teamOf k).asid, addr, 1) := by
  have log : (s.faultLogged k c addr).service.log
      = s.service.log ++ [(4, c.code.setWidth 8, BitVec.ofNat 16 (s.teamOf k).core, BitVec.ofNat 32 (s.teamOf k).asid, addr, 1)] := by
    unfold State.faultLogged
    rw [State.modSeq_service, State.logError_log, Nat.zero_mul, Nat.add_zero]
    rfl
  obtain ⟨later, released⟩ := (s.faultLogged k c addr).releaseTeam_log k
  rw [← released, log, List.append_assoc, List.getElem?_append_right (Nat.le_refl _), Nat.sub_self]
  rfl

/-- The stream that stops with its team's last group. -/
def State.streamStopped (s : State) (k : Nat) : State := s.modSeq k fun q => { q with st := .stopped, clause := none }

theorem exec_streamStop_busy (busy : ¬ (s.teamOf k).Idle) : exec (.streamStop k) s = .next s := by
  show execStreamStop k s = _
  unfold execStreamStop
  simp only [Team.busy_of_not_idle busy, Bool.and_false, Bool.false_eq_true, if_false]

theorem exec_streamStop (live : (s.teamOf k).live = true) (running : (s.teamOf k).seq.st = .running) (none_ : (s.teamOf k).seq.fault = none)
    (dead : s.liveGids k = []) (idle : (s.teamOf k).Idle) : exec (.streamStop k) s = .next ((s.streamStopped k).releaseTeam k) := by
  show execStreamStop k s = _
  unfold execStreamStop
  simp only [live, running, none_, dead, (s.teamOf k).streamIdle_iff.mpr idle]
  rfl

theorem State.streamStopped_over (live : (s.teamOf k).live = true) (dead : s.liveGids k = []) : (s.streamStopped k).teamOver k = true := by
  rw [State.teamOver_iff, State.streamStopped, State.teamOf_modSeq]
  exact ⟨live, dead, .inr rfl⟩

theorem State.streamStopped_node (live : (s.teamOf k).live = true) (dead : s.liveGids k = []) {n : NodeRun}
    (node : s.nodeRun (s.teamOf k).launch (s.teamOf k).node = some n) :
    ((s.streamStopped k).releaseTeam k).nodeRun (s.teamOf k).launch (s.teamOf k).node
      = some { n with ended := n.ended + 1, result := n.result ||| (s.teamOf k).result } := by
  have released := State.releaseTeam_node (State.streamStopped_over live dead) (n := n)
  rw [State.streamStopped, State.teamOf_modSeq] at released
  exact released node

/-- The stream of a team that is evicted whole, saved (R371). -/
def State.streamSaved (s : State) (k : Nat) : State :=
  s.modSeq k fun q => { q with st := .saved, stalled := false, stopAsked := false, evictAsked := false }

theorem exec_streamEvictStop_waits (going : (s.teamOf k).seq.stopAsked = false) (free : s.streamHeld k = false) :
    exec (.streamEvictStop k) s = .next s := by
  show execStreamEvictStop k s = _
  unfold execStreamEvictStop
  simp [going, free]

theorem exec_streamEvictStop (asked : (s.teamOf k).seq.evictAsked = true) (running : (s.teamOf k).seq.st = .running)
    (none_ : (s.teamOf k).seq.fault = none) (idle : (s.teamOf k).Idle) (holds : (s.teamOf k).seq.stopAsked = true ∨ s.streamHeld k = true) :
    exec (.streamEvictStop k) s = .next ((s.streamSaved k).evictTeam k) := by
  have held : ((s.teamOf k).seq.stopAsked || s.streamHeld k) = true := by simpa using holds
  show execStreamEvictStop k s = _
  unfold execStreamEvictStop
  simp only [asked, running, none_, held, (s.teamOf k).streamIdle_iff.mpr idle]
  rfl

theorem State.streamSaved_seq (s : State) (k : Nat) :
    ((s.streamSaved k).teamOf k).seq = { (s.teamOf k).seq with st := .saved, stalled := false, stopAsked := false, evictAsked := false } := by
  rw [State.streamSaved, State.teamOf_modSeq]

theorem State.streamSaved_not_running (s : State) (k : Nat) : ((s.streamSaved k).teamOf k).seq.st ≠ .running := by
  rw [State.streamSaved_seq]
  exact nofun

end

end Sys2Proof.Machine
end

