-- ==== Sys2Proof/Proofs/AdapterFills.lean ====
section
/-! PROOFS. The adapter cache and its queue: the steps of a fetch (R176, R177), and a queued row that has what it needs (R178, R181). -/

namespace Sys2Proof.Machine
open Sys2Proof.Claims

theorem State.chosen_of_no_choices {s : State} (none_ : s.oracle = []) : s.chosen = s := by
  rw [State.chosen_rest, State.chosen, none_, List.tail_nil, ← none_]

theorem State.choice_of_no_choices {s : State} (none_ : s.oracle = []) : s.choice = 0 := by rw [State.choice, none_, List.headD_nil]

/-! ## The fetch that goes on -/

section
variable {s : State} {core : Nat} {f : AdpFetch} (only : (s.coreOf core).fetches = [f])
include only

/-- Where a queued row waits for a core's one fetch, the first queued row does. -/
theorem State.firstFetch_of_only (waits : s.rowWaits f = true) : s.firstFetch core f.team = some f := by
  have found_is {ns : List Nat} {a : Nat} {up : Bool} {g : AdpFetch}
      (h : (ns.findSome? fun n => (s.coreOf core).fetches.find? fun f' => f'.team == f.team && f'.adapter == a && f'.up == up && f'.seg == n) = some g) : g = f := by
    obtain ⟨n, -, hit⟩ := List.exists_of_findSome?_eq_some h
    rw [only] at hit
    exact List.mem_singleton.mp (List.mem_of_find?_eq_some hit)
  unfold State.firstFetch
  cases first : ((s.teamOf f.team).seq.rows.filter (·.queued)).findSome? fun r =>
      r.needs.2.2.findSome? fun n => (s.coreOf core).fetches.find? fun f' => f'.team == f.team && f'.adapter == r.needs.1 && f'.up == r.needs.2.1 && f'.seg == n with
  | some g =>
    obtain ⟨r, -, hit⟩ := List.exists_of_findSome?_eq_some first
    rw [found_is hit]
  | none =>
    exfalso
    obtain ⟨r, mem, hit⟩ := List.any_eq_true.mp waits
    simp only [Bool.and_eq_true, beq_iff_eq, decide_eq_true_eq] at hit
    obtain ⟨⟨⟨queued, adapter⟩, up⟩, seg⟩ := hit
    have missed := List.findSome?_eq_none_iff.mp first r (List.mem_filter.mpr ⟨mem, queued⟩)
    have missed := List.findSome?_eq_none_iff.mp missed f.seg seg
    rw [only, List.find?_singleton] at missed
    simp [adapter, up] at missed

theorem exec_adapterSegmentFill_only (choices : s.oracle = []) : exec (.adapterSegmentFill core) s = .next (s.fetchStep core f) := by
  have goes : (!s.rowWaits f || s.firstFetch core f.team == some f) = true := by
    cases waits : s.rowWaits f with
    | false => rfl
    | true => rw [State.firstFetch_of_only only waits]; simp
  have fetches : ((s.coreOf core).fetches.filter fun f => !s.rowWaits f || s.firstFetch core f.team == some f) = [f] := by
    simp only [only, List.filter_cons, goes, if_true, List.filter_nil]
  show execAdapterSegmentFill core s = _
  unfold execAdapterSegmentFill
  simp only [fetches, State.choice_of_no_choices choices, Nat.zero_mod, List.getElem?_cons_zero, State.chosen_of_no_choices choices]

/-! ## Its steps -/

/-- The first step: an entry of the cache (R177). -/
theorem State.fetchStep_room (waiting : f.room = false) (free : (s.coreOf core).segs.length < 128) :
    s.fetchStep core f = s.setCoreOf core { s.coreOf core with fetches := [{ f with room := true }] } := by
  have room : s.segRoom (s.coreOf core) = some (s.coreOf core) := by
    unfold State.segRoom
    rw [only, List.filter_cons_of_neg (by simp [waiting])]
    exact if_pos free
  unfold State.fetchStep State.takeRoom
  simp only [waiting, Bool.not_false, if_true, room, only, List.map_cons, List.map_nil]

variable (room : f.room = true)

theorem State.fetchFails_fetches (c : Cause) : ((s.fetchFails core f true c).coreOf core).fetches = [] := by
  have gone : ((s.setCoreOf core { s.coreOf core with fetches := (s.coreOf core).fetches.filter fun g => !(g.team == f.team && g.adapter == f.adapter) }).coreOf core).fetches = [] := by
    rw [State.coreOf_setCoreOf, only]
    simp
  unfold State.fetchFails
  dsimp only
  split
  · exact gone
  · exact gone

include room

omit only in
theorem State.fetchStep_noDirectory (missing : (s.coreOf core).dir f.team f.adapter = none) (unset : (s.teamOf f.team).seq.adir = 0) :
    s.fetchStep core f = s.fetchFails core f true .dataCheck := by
  unfold State.fetchStep
  simp [room, missing, unset]

/-- The device once a fetch's data have come. -/
def State.fetched (s : State) (f : AdpFetch) : State := s.setTeamOf f.team ((s.teamOf f.team).forget f.key)

omit only in
theorem State.fetchStep_directory {bs : List Byte} {d : AdpDir} (missing : (s.coreOf core).dir f.team f.adapter = none)
    (set : (s.teamOf f.team).seq.adir ≠ 0)
    (data : s.adapterRead f ((s.teamOf f.team).seq.adir + BitVec.ofNat 64 (32 * f.adapter)) 32 = .data bs false) (valid : dirOf f.team f.adapter bs = some d) :
    s.fetchStep core f = (s.fetched f).setCoreOf core { s.coreOf core with dirs := (s.coreOf core).dirs ++ [d] } := by
  unfold State.fetchStep
  simp only [room, missing, if_neg set, data, valid]
  rfl

theorem State.fetchStep_segment {bs : List Byte} {d : AdpDir} (present : (s.coreOf core).dir f.team f.adapter = some d)
    (data : s.adapterRead f ((if f.up then d.up else d.down) + BitVec.ofNat 64 (1024 * f.seg)) 1024 = .data bs false) :
    s.fetchStep core f = (s.fetched f).setCoreOf core
      { s.coreOf core with fetches := [], segs := (s.coreOf core).segs ++ [⟨f.team, f.adapter, f.up, f.seg, bs⟩] } := by
  have gone : [f].erase f = [] := by simp
  unfold State.fetchStep
  simp only [room, present, data, only, gone]
  rfl

end

theorem dirOf_valid {team adapter : Nat} {bs : List Byte} (low : 1 ≤ leNat ((bs.drop 20).take 1)) (high : leNat ((bs.drop 20).take 1) ≤ 64)
    (version : leNat ((bs.drop 21).take 1) = 1) (down : leNat ((bs.drop 0).take 8) % 64 = 0) (up : leNat ((bs.drop 8).take 8) % 64 = 0) :
    dirOf team adapter bs = some ⟨team, adapter, BitVec.ofNat 64 (leNat ((bs.drop 0).take 8)), BitVec.ofNat 64 (leNat ((bs.drop 8).take 8)),
      BitVec.ofNat 32 (leNat ((bs.drop 16).take 4)), leNat ((bs.drop 20).take 1)⟩ := by
  unfold dirOf
  dsimp only
  refine if_neg ?_
  omega

/-! ## Rows whose directory is missing (R178) -/

/-- The queued rows that refer to the adapter of a fetch. -/
def IssuedRow.hitBy (r : IssuedRow) (f : AdpFetch) : Bool := r.queued && r.needs.1 == f.adapter

theorem IssuedRow.hitBy_iff (r : IssuedRow) (f : AdpFetch) : r.hitBy f = true ↔ r.queued = true ∧ r.needs.1 = f.adapter := by
  rw [IssuedRow.hitBy, Bool.and_eq_true, beq_iff_eq]

section
variable (s : State) (core : Nat) (f : AdpFetch) (c : Cause)

/-- The core of a failed fetch without the fetches of its adapter. -/
def State.withoutFetches (s : State) (core : Nat) (f : AdpFetch) : State :=
  s.setCoreOf core { s.coreOf core with fetches := (s.coreOf core).fetches.filter fun g => !(g.team == f.team && g.adapter == f.adapter) }

theorem State.fetchFails_whole : s.fetchFails core f true c = ((s.teamOf f.team).seq.rows.find? (·.hitBy f)).elim (s.withoutFetches core f) fun r =>
    ((s.withoutFetches core f).modSeq f.team fun q => { q with rows := q.rows.filter fun r => !r.hitBy f }).lateFault f.team c r.addr := by
  unfold State.fetchFails
  simp only [Bool.true_or, Bool.and_true, if_true]
  split
  · next found =>
    have found : (s.teamOf f.team).seq.rows.find? (·.hitBy f) = none := found
    rw [found]
    rfl
  · next r found =>
    have found : (s.teamOf f.team).seq.rows.find? (·.hitBy f) = some r := found
    rw [found]
    rfl

theorem State.fetchFails_rows : ((s.fetchFails core f true c).teamOf f.team).seq.rows = (s.teamOf f.team).seq.rows.filter fun r => !r.hitBy f := by
  rw [State.fetchFails_whole]
  cases found : (s.teamOf f.team).seq.rows.find? (·.hitBy f) with
  | none =>
    refine (List.filter_eq_self.mpr fun r mem => ?_).symm
    simpa using List.find?_eq_none.mp found r mem
  | some r =>
    show ((State.lateFault _ f.team c r.addr).teamOf f.team).seq.rows = _
    rw [State.lateFault, State.teamOf_modSeq, State.teamOf_modSeq]
    rfl

theorem State.fetchFails_fault {r : IssuedRow} {rest : List IssuedRow} (rows : (s.teamOf f.team).seq.rows = r :: rest) (hit : r.hitBy f = true)
    (none_ : (s.teamOf f.team).seq.fault = none) : ((s.fetchFails core f true c).teamOf f.team).seq.fault = some (c, r.addr) := by
  have first : (r :: rest).find? (·.hitBy f) = some r := List.find?_cons_of_pos hit
  rw [State.fetchFails_whole, rows, first]
  show ((State.lateFault _ f.team c r.addr).teamOf f.team).seq.fault = _
  rw [State.lateFault, State.teamOf_modSeq, State.teamOf_modSeq]
  show ((s.teamOf f.team).seq.fault <|> some (c, r.addr)) = _
  rw [none_]
  rfl

end

/-! ## A queued row -/

section
variable {s : State} {k : Nat} {r : IssuedRow} {rest : List IssuedRow} (rows : (s.teamOf k).seq.rows = r :: rest) (queued : r.queued = true)
include rows queued

theorem State.firstQueued : (List.range (s.teamOf k).seq.rows.length).find? (fun n => (((s.teamOf k).seq.rows[n]?).map IssuedRow.queued).getD false) = some 0 := by
  rw [rows, List.length_cons, List.range_succ_eq_map, List.find?_cons_of_pos]
  simpa using queued

theorem exec_adapterRowReplay_waits (missing : (s.coreOf (s.teamOf k).core).holds k r = false) : exec (.adapterRowReplay k) s = .next s := by
  show execAdapterRowReplay k s = _
  unfold execAdapterRowReplay
  dsimp only
  rw [State.firstQueued rows queued]
  simp only [rows, List.getElem?_cons_zero, missing, Bool.not_false, Bool.true_or, if_true]

theorem exec_adapterRowReplay {u : State} (choices : s.oracle = []) (present : (s.coreOf (s.teamOf k).core).holds k r = true)
    (commit : (s.takeRow k 0).commitRow k r = .ok u) : exec (.adapterRowReplay k) s = .next u := by
  have clean : s.checkedCommit k 0 0 r = u := by
    unfold State.checkedCommit
    simp only [commit]
    simp
  show execAdapterRowReplay k s = _
  unfold execAdapterRowReplay
  dsimp only
  rw [State.firstQueued rows queued]
  simp only [rows, List.getElem?_cons_zero, present, State.choice_of_no_choices choices, State.chosen_of_no_choices choices, clean]
  simp

end

/-! ## Rank values (R181) -/

/-- The rank value that the products of a row are added to. -/
def rankSum (rank : Nat) (segs : List (List Byte)) (a : List (Nat × FVal)) (old : Word32) (m : Nat) : Word32 :=
  BitVec.ofNat 32 (fOf rNE 0 .f32 0 (sumF rNE (FF.f32.dec old.toNat :: a.map fun x => x.2.mul (segVal (segs.getD (x.1 / 16) []) rank m (64 * (x.1 % 16) + m)))))

theorem rankRow_eq (t : Tile) (i rank : Nat) (segs : List (List Byte)) (a : List (Nat × FVal)) : rankRow t i rank segs a
    = { t with rank := (List.range 64).foldl (fun v m => mset (64 * i + m) (rankSum rank segs a (mget 0 (64 * i + m) v) m) v) t.rank } := by
  unfold rankRow
  generalize List.range 64 = ms
  induction ms generalizing t with
  | nil => rfl
  | cons m ms ih =>
    rw [List.foldl_cons, ih]
    rfl

theorem Tile.rankAt_rankRow (t : Tile) (i rank : Nat) (segs : List (List Byte)) (a : List (Nat × FVal)) {i' n : Nat} (hn : n < 64) :
    (rankRow t i rank segs a).rankAt i' n = if i' = i then rankSum rank segs a (t.rankAt i n) n else t.rankAt i' n := by
  have keys : (List.range 64).Pairwise fun x y => 64 * i + x ≠ 64 * i + y := List.nodup_range.imp fun ne same => ne (by omega)
  rw [rankRow_eq]
  unfold Tile.rankAt
  dsimp only
  rw [mget_foldl_replace (d := (0 : Word32)) (key := fun m => 64 * i + m) (g := rankSum rank segs a) keys t.rank (64 * i' + n)]
  cases found : (List.range 64).find? fun e => decide (64 * i + e = 64 * i' + n) with
  | none =>
    have other : i' ≠ i := fun here => absurd (decide_eq_true (by rw [here])) (List.find?_eq_none.mp found n (List.mem_range.mpr hn))
    rw [if_neg other]
    rfl
  | some e =>
    have small := List.mem_range.mp (List.mem_of_find?_eq_some found)
    have same : 64 * i + e = 64 * i' + n := by simpa using List.find?_some found
    obtain rfl : i' = i := by omega
    obtain rfl : e = n := by omega
    rw [if_pos rfl]
    rfl

/-! ## A row of products with an adapter (R178, R181) -/

theorem Tile.rankAt_rid (t : Tile) (ids : List (Nat × BitVec 12)) (i n : Nat) : ({ t with rid := ids } : Tile).rankAt i n = t.rankAt i n := rfl

/-- The tile after a row of products with an adapter. -/
def Tile.adapterRow (t : Tile) (r : IssuedRow) (z : Bool) (a : List (Nat × FVal)) (b : List (Nat × List FVal)) (ad rank : Nat) (segs : List (List Byte)) : Tile :=
  { rankRow (t.putRow r.row (fun old e => rounded r.sfmt (productSum r.sfmt z a old e)) b) r.row rank segs a with rid := mset r.row (BitVec.ofNat 12 ad) t.rid }

/-- The bytes of a core's down segments from one on, and the rank in its directory entry. -/
def Core.downSegs (c : Core) (k ad seg K : Nat) : List (List Byte) :=
  (List.range (K / 16)).map fun n => ((c.seg k ad false (seg + n)).map AdpSeg.bytes).getD []
def Core.rankOf (c : Core) (k ad : Nat) : Nat := ((c.dir k ad).map AdpDir.rank).getD 0

theorem Core.downSegs_getD (c : Core) (k ad seg : Nat) {K n : Nat} (hn : n < K / 16) :
    (c.downSegs k ad seg K).getD n [] = ((c.seg k ad false (seg + n)).map AdpSeg.bytes).getD [] := by
  simp [Core.downSegs, List.getD_eq_getElem?_getD, List.getElem?_range hn]

section
variable {s : State} {k : Nat} {r : IssuedRow} {rest : List IssuedRow} (rows : (s.teamOf k).seq.rows = r :: rest)
include rows

theorem State.takeRow_core : (s.takeRow k 0).coreOf ((s.takeRow k 0).teamOf k).core = s.coreOf (s.teamOf k).core := by
  rw [State.takeRow_teamOf rows]
  rfl

theorem State.commitRow_adapter {z : Bool} {a : List (Nat × FVal)} {b : List (Nat × List FVal)} {ad seg K : Nat} (op : r.op = .mma z a b ad seg K)
    (adapter : ad ≠ 0) (float : fmtAcc r.sfmt ≤ 3) (plain : (modesOf r.sfmt).rm ≠ 5) : (s.takeRow k 0).commitRow k r
      = .ok (s.committed k rest r.tile (((s.teamOf k).tile r.tile).adapterRow r z a b ad ((s.coreOf (s.teamOf k).core).rankOf k ad)
          ((s.coreOf (s.teamOf k).core).downSegs k ad seg K)) (s.teamOf k).seq.gens) := by
  unfold State.commitRow
  rw [op]
  dsimp only
  rw [if_neg adapter, foldl_mmaElem float plain, State.put_committed_tile rows, State.takeRow_tile rows, State.takeRow_core rows, Tile.putRow_rid]
  rfl

end

section
variable (t : Tile) (r : IssuedRow) (z : Bool) (a : List (Nat × FVal)) (b : List (Nat × List FVal)) (ad rank : Nat) (segs : List (List Byte))

theorem Tile.at_adapterRow (i j : Nat) : (t.adapterRow r z a b ad rank segs).at i j
    = (t.putRow r.row (fun old e => rounded r.sfmt (productSum r.sfmt z a old e)) b).at i j := by
  unfold Tile.adapterRow
  rw [rankRow_eq]
  rfl

theorem Tile.rankAt_adapterRow (i : Nat) {n : Nat} (hn : n < 64) : (t.adapterRow r z a b ad rank segs).rankAt i n
    = if i = r.row then rankSum rank segs a (t.rankAt i n) n else t.rankAt i n := by
  have kept (i : Nat) : (t.putRow r.row (fun old e => rounded r.sfmt (productSum r.sfmt z a old e)) b).rankAt i n = t.rankAt i n :=
    congrArg (mget 0 (64 * i + n)) (t.putRow_rank _ _ _)
  rw [Tile.adapterRow, Tile.rankAt_rid, Tile.rankAt_rankRow _ _ _ _ _ hn, kept, kept]
  split
  · next here => rw [here]
  · rfl

end

/-- The sum of a row's products with the bytes of the segments that hold them. -/
theorem rankSum_downSegs (c : Core) (k ad seg rank : Nat) {K : Nat} {a : List (Nat × FVal)} (inside : ∀ e ∈ a, e.1 < K) (whole : K % 16 = 0)
    (old : Word32) (n : Nat) : rankSum rank (c.downSegs k ad seg K) a old n
      = BitVec.ofNat 32 (fOf 0 0 .f32 0 (sumF 0 (FF.f32.dec old.toNat :: a.map fun e =>
          e.2.mul (segVal (((c.seg k ad false (seg + e.1 / 16)).map AdpSeg.bytes).getD []) rank n (64 * (e.1 % 16) + n))))) := by
  have bytes : (a.map fun e => e.2.mul (segVal ((c.downSegs k ad seg K).getD (e.1 / 16) []) rank n (64 * (e.1 % 16) + n)))
      = a.map fun e => e.2.mul (segVal (((c.seg k ad false (seg + e.1 / 16)).map AdpSeg.bytes).getD []) rank n (64 * (e.1 % 16) + n)) := by
    refine List.map_congr_left fun e mem => ?_
    have := inside e mem
    rw [c.downSegs_getD k ad seg (by omega)]
  unfold rankSum
  rw [bytes]
  rfl

end Sys2Proof.Machine
end

