-- ==== Sys2Proof/Proofs/StreamEvents.lean ====
section
/-! PROOFS. The events of the matrix stream, assembled: faults, stops and evictions; fetches of the adapter cache; replays. -/

namespace Sys2Proof.Claims
open Sys2Proof.Machine

/-- Settles O50: a stream's ends go through the release or the eviction of its team, a core's one fetch goes its steps, and a queued row that is first commits. -/
theorem streamEventResults : Obligations.StreamEventResults := by
  intro s k g core gs c addr f d bs r rows
  dsimp only
  refine ⟨fun fault running => ⟨fun busy => exec_streamFault_busy fault busy, fun idle alive live space => ?alive, fun idle dead live => ?dead⟩,
    fun live running none_ dead => ⟨fun busy => exec_streamStop_busy busy, fun idle => ?stop⟩,
    fun asked running none_ idle => ⟨fun going free => exec_streamEvictStop_waits going free, fun holds => ?evict⟩,
    fun only waiting free choices => ?room,
    fun only room choices => ⟨fun missing unset => ?noDirectory, fun missing set data low high version down up => ?directory, fun present data => ?segment⟩,
    fun first queued choices => ⟨fun missing => exec_adapterRowReplay_waits first queued missing,
      fun z a b ad seg K op adapter _ _ float plain apart inside present within whole => ?replay⟩⟩
  case alive =>
    refine ⟨_, exec_streamFault_alive fault running idle alive, ?_⟩
    rw [State.addCause_live (s.faulted k) k g ⟨c, mark63 addr, none⟩ live space]
    refine ⟨?_, (s.faulted k).hartOf_setHartOf _ _, fun j ne => (s.faulted k).hartOf_setHartOf_ne ne _, rfl⟩
    show ((s.faulted k).teamOf k).seq = _
    rw [State.faulted, State.teamOf_modSeq]
  case dead =>
    exact ⟨_, exec_streamFault_dead fault running idle dead, State.releaseTeam_live (State.faultLogged_over live dead), s.faultLogged_log k c addr⟩
  case stop =>
    have ended := State.streamStopped_over live dead
    refine ⟨_, exec_streamStop live running none_ dead idle, State.releaseTeam_live ended, fun o e mem valid => ?_, fun o h mem => ?_,
      fun n node => State.streamStopped_node live dead node⟩
    · rw [State.releaseTeam_coreOf ended] at mem
      exact Core.without_ports mem valid
    · rw [State.releaseTeam_coreOf ended] at mem
      exact Core.without_hold mem
  case evict =>
    have saved := s.streamSaved_not_running k
    refine ⟨_, exec_streamEvictStop asked running none_ idle holds, by rw [State.evictTeam_seq saved, State.streamSaved_seq], fun present all noneHeld => ?_⟩
    have team : (s.streamSaved k).teamOf k = { s.teamOf k with seq := ((s.streamSaved k).teamOf k).seq } := by
      rw [State.streamSaved, State.teamOf_modSeq]
    refine State.evictTeam_absent saved (by rw [team]; exact present) all ?_
    rw [team]
    exact noneHeld
  case room =>
    refine ⟨_, exec_adapterSegmentFill_only only choices, ?_⟩
    rw [State.fetchStep_room only waiting free, State.coreOf_setCoreOf]
    exact ⟨rfl, rfl⟩
  case noDirectory =>
    refine ⟨_, exec_adapterSegmentFill_only only choices, ?_⟩
    rw [State.fetchStep_noDirectory room missing unset]
    refine ⟨State.fetchFails_fetches only _, fun r => ?_, fun r rest first hit none_ => State.fetchFails_fault s core f _ first ((r.hitBy_iff f).mpr hit) none_⟩
    rw [State.fetchFails_rows, List.mem_filter, ← r.hitBy_iff f, Bool.not_eq_true, Bool.not_eq_true']
  case directory =>
    refine ⟨_, exec_adapterSegmentFill_only only choices, ?_⟩
    rw [State.fetchStep_directory room missing set data (dirOf_valid low high version down up), State.coreOf_setCoreOf]
    exact ⟨only, rfl⟩
  case segment =>
    refine ⟨_, exec_adapterSegmentFill_only only choices, ?_⟩
    rw [State.fetchStep_segment only room present data, State.coreOf_setCoreOf]
    exact ⟨rfl, rfl⟩
  case replay =>
    have commit := State.commitRow_adapter first op (Nat.one_le_iff_ne_zero.mp adapter) float plain
    refine ⟨_, exec_adapterRowReplay first queued choices present commit, State.committed_rows .., ?_, fun i _ j hj => ?_, fun i _ n hn => ?_,
      fun n ne => State.committed_tile_ne _ _ _ _ _ _ ne⟩
    · rw [State.committed_tile]
      rfl
    · rw [State.committed_tile, Tile.at_adapterRow, Tile.at_putRow apart inside hj]
      split
      · next here =>
        rw [here]
        cases b.find? fun e => e.1 == j <;> rfl
      · rfl
    · rw [State.committed_tile, Tile.rankAt_adapterRow _ _ _ _ _ _ _ _ _ hn, rankSum_downSegs _ _ _ _ _ within whole]
      rfl

end Sys2Proof.Claims
end

