-- ==== Sys2Proof/Proofs/PutDelivery.lean ====
section
/-! PROOFS. How a put is delivered: counters fall (R256), senders are told of their puts (R210, R381), waiters of a tile (R208, R209), a put at its tile, and a put at its port (R205, R211). -/

namespace Sys2Proof.Machine
open Sys2Proof.Claims

/-! ## A counter falls (R256) -/

theorem creditHead_of_open {l : List (Nat × Bool)} (open_ : ∀ e ∈ l, e.2 = false) : creditHead l = (l, 0) := by
  cases l with
  | nil => rfl
  | cons e l =>
    obtain ⟨i, done⟩ := e
    obtain rfl : done = false := open_ _ List.mem_cons_self
    rfl

theorem map_mark_of_ne {l : List (Nat × Bool)} {id : Nat} (ne : ∀ e ∈ l, e.1 ≠ id) : (l.map fun e => if e.1 = id then (e.1, true) else e) = l :=
  (List.map_congr_left fun e mem => if_neg (ne e mem)).trans l.map_id'

section
variable {h : Hart} {c id : Nat} {rest : List (Nat × Bool)} (bound : c < 8) (first : vget h.ledger c [] = (id, false) :: rest)
  (later : ∀ e ∈ rest, e.1 ≠ id ∧ e.2 = false)
include bound first later

/-- The oldest operation of a counter completes, with the younger ones still under way. -/
theorem Hart.ledger_complete_oldest (k : Nat) : vget (h.complete c id).ledger k [] = if c = k then rest else vget h.ledger k [] := by
  have credited : creditHead ((vget h.ledger c []).map fun e => if e.1 = id then (e.1, true) else e) = (rest, 1) := by
    rw [first, List.map_cons, if_pos rfl, map_mark_of_ne fun e mem => (later e mem).1]
    simp [creditHead, creditHead_of_open fun e mem => (later e mem).2]
  show vget (vset h.ledger c _) k [] = _
  rw [credited, vget_vset]
  simp only [bound, and_true]

theorem Hart.counter_complete_oldest (k : Nat) : (h.complete c id).counter k + (if k = c then 1 else 0) = h.counter k := by
  unfold Hart.counter
  rw [Hart.ledger_complete_oldest bound first later]
  by_cases same : c = k
  · subst same
    rw [if_pos rfl, if_pos rfl, first, List.length_cons]
  · rw [if_neg same, if_neg (Ne.symm same), Nat.add_zero]

end

/-- `st` of a group falls from s to t, where the operation that a put counts on is its oldest. -/
def State.Falls (s t : State) (q r : Nat) (st : Option Nat) : Prop :=
  ∀ id rest, st = some id → vget (s.hartOf (.group q r)).ledger kSt [] = (id, false) :: rest → (∀ x ∈ rest, x.1 ≠ id ∧ x.2 = false) →
    (t.hartOf (.group q r)).counter kSt + 1 = (s.hartOf (.group q r)).counter kSt

/-- From s to t senders are told of their puts and failures are logged: harts, the device's own memory and port, and the service may differ. -/
def State.Told (s t : State) : Prop :=
  t = { s with harts := t.harts, mem := t.mem, dirty := t.dirty, poisoned := t.poisoned, oracle := t.oracle, tick := t.tick, fabric := t.fabric,
               service := t.service }

theorem State.Wrote.told {s t : State} (h : s.Wrote t) : s.Told t := by
  unfold Told
  rw [h]

namespace State.Told

theorem refl (s : State) : s.Told s := rfl

theorem trans {s t u : State} (h : s.Told t) (h' : t.Told u) : s.Told u := by
  unfold Told at *
  rw [h', h]

theorem foldl {α : Type} {f : State → α → State} (hf : ∀ (s : State) (a : α), s.Told (f s a)) (l : List α) (s : State) : s.Told (l.foldl f s) :=
  List.foldlRecOn (motive := s.Told) l f (refl s) fun u hu a _ => hu.trans (hf u a)

theorem teams_eq {s t : State} (h : s.Told t) : t.teams = s.teams := by rw [h]
theorem net_eq {s t : State} (h : s.Told t) : t.net = s.net := by rw [h]
theorem teamOf_eq {s t : State} (h : s.Told t) (k : Nat) : t.teamOf k = s.teamOf k := by rw [h]; rfl
theorem coreOf_eq {s t : State} (h : s.Told t) (c : Nat) : t.coreOf c = s.coreOf c := by rw [h]; rfl

end State.Told

/-! ## A sender is told of its put (R210, R381, R401) -/

theorem State.putDone_none_told (s : State) (src : Port) (st : Option Nat) : s.Told (s.putDone src st none) := by
  unfold State.putDone
  dsimp only
  split
  · rfl
  · exact .refl s

theorem State.putDone_told (s : State) (src : Port) (st : Option Nat) (remote : Option FabPkt) : s.Told (s.putDone src st remote) := by
  cases remote with
  | none => exact s.putDone_none_told src st
  | some p => exact (s.putDone_none_told src st).trans (State.sendOn_wrote _ _ _).told

theorem State.putDone_harts (s : State) (src : Port) (st : Option Nat) (remote : Option FabPkt) :
    (s.putDone src st remote).harts = (s.putDone src st none).harts := by cases remote <;> rfl

theorem State.putDone_noNewLife (s : State) (src : Port) (st : Option Nat) (remote : Option FabPkt) : s.NoNewLife (s.putDone src st remote) := by
  refine State.NoNewLife.trans (t := s.putDone src st none) ?_ (.of_harts_eq (s.putDone_harts src st remote))
  unfold State.putDone
  dsimp only
  split
  · exact .setHartOf rfl
  · exact .refl s

/-- A sender that no group is has no counter: its put changes no hart. -/
theorem State.putDone_of_not_group (s : State) {src : Port} (other : ∀ q r, src ≠ .group q r) (st : Option Nat) : s.putDone src st none = s := by
  cases src with
  | group q r => exact absurd rfl (other q r)
  | engine k => rfl
  | fold c => rfl
  | device d => rfl

theorem State.putDone_service (s : State) (src : Port) (st : Option Nat) (remote : Option FabPkt) :
    (s.putDone src st remote).service = s.service := by
  have counted : (s.putDone src st none).service = s.service := by
    unfold State.putDone
    dsimp only
    split <;> rfl
  cases remote with
  | none => exact counted
  | some p => exact counted

theorem State.putDone_falls (s : State) {src : Port} {q r : Nat} (sender : src = .group q r) (st : Option Nat) (remote : Option FabPkt) :
    s.Falls (s.putDone src st remote) q r st := by
  rintro id rest rfl first later
  have hart : (s.putDone src (some id) remote).hartOf (.group q r) = (s.hartOf (.group q r)).complete kSt id := by
    rw [State.hartOf, s.putDone_harts, sender]
    exact s.hartOf_setHartOf _ _
  rw [hart]
  exact Hart.counter_complete_oldest (by decide) first later kSt

/-- What leaves the sender's registers alone, before and after, leaves the fall. -/
theorem State.Falls.of_harts_eq {s u v t : State} {q r : Nat} {st : Option Nat} (before : u.harts = s.harts) (h : u.Falls v q r st)
    (after : t.harts = v.harts) : s.Falls t q r st := by
  unfold State.Falls State.hartOf at *
  rwa [after, ← before]

/-! ## The waiters of a tile (R208, R209) -/

theorem State.mem_tileWaiters {s : State} {k n : Nat} {w : Waiter} : w ∈ s.tileWaiters k n ↔ w.gid ∈ s.liveGids k
    ∧ ((s.hartOf (.group k w.gid)).path w.path).susp = some (.tile n w.consume w.chk w.addr)
    ∧ ((s.hartOf (.group k w.gid)).path w.path).since = w.since := by
  unfold State.tileWaiters
  simp only [List.mem_flatMap, List.mem_filterMap]
  refine ⟨?_, fun ⟨alive, waits, since⟩ => ⟨w.gid, alive, w.path, by cases w.path <;> simp, ?_⟩⟩
  · rintro ⟨g, alive, p, -, found⟩
    split at found
    · next waits =>
      split at found
      · next same =>
        cases found
        exact ⟨alive, same ▸ waits, rfl⟩
      · cases found
    · cases found
  · rw [waits]
    simp [since]

theorem State.tileWaiters_of_harts_eq {s t : State} (same : t.harts = s.harts) (k n : Nat) : t.tileWaiters k n = s.tileWaiters k n := by
  unfold State.tileWaiters State.liveGids State.hartOf
  rw [same]

/-- No path waits for a tile that nobody waited for, where no group comes to life and no path begins to wait. -/
theorem State.tileWaiters_nil {s t : State} {k n : Nat} (none_ : s.tileWaiters k n = []) (lives : s.NoNewLife t)
    (paths : ∀ i p, ((t.hartOf i).path p).susp = none ∨ (t.hartOf i).path p = (s.hartOf i).path p) : t.tileWaiters k n = [] := by
  refine List.eq_nil_iff_forall_not_mem.mpr fun w mem => ?_
  obtain ⟨alive, waits, since⟩ := State.mem_tileWaiters.mp mem
  rcases paths (.group k w.gid) w.path with woken | same
  · rw [woken] at waits
    cases waits
  · rw [same] at waits since
    have there : w ∈ s.tileWaiters k n := State.mem_tileWaiters.mpr ⟨lives.liveGids alive, waits, since⟩
    rw [none_] at there
    cases there

theorem State.KeepsEnds.path_eq {s t : State} (h : s.KeepsEnds t) (i : HartId) (p : Bool) : (t.hartOf i).path p = (s.hartOf i).path p := by
  cases p
  · exact h.p0 i
  · exact h.p1 i

theorem State.putDone_tileWaiters_nil {s : State} {k n : Nat} (none_ : s.tileWaiters k n = []) (src : Port) (st : Option Nat) (remote : Option FabPkt) :
    (s.putDone src st remote).tileWaiters k n = [] :=
  State.tileWaiters_nil none_ (s.putDone_noNewLife src st remote) fun i p => .inr ((s.putDone_keepsEnds src st remote).path_eq i p)

section
variable (s : State) (k g : Nat) (p : Bool) (gr : Option Grant)

theorem State.wake_told : s.Told (s.wake k g p gr) := rfl

theorem State.wake_noNewLife : s.NoNewLife (s.wake k g p gr) :=
  (State.NoNewLife.setHartOf (by cases p <;> rfl)).trans (.of_harts_eq rfl)

theorem State.wake_path_self : (((s.wake k g p gr).hartOf (.group k g)).path p).susp = none := by
  show (((s.setHartOf (.group k g) _).hartOf (.group k g)).path p).susp = none
  rw [State.hartOf_setHartOf, Hart.path_setPath]

theorem State.wake_path (i : HartId) (o : Bool) :
    (((s.wake k g p gr).hartOf i).path o).susp = none ∨ ((s.wake k g p gr).hartOf i).path o = (s.hartOf i).path o := by
  by_cases here : i = .group k g ∧ o = p
  · obtain ⟨rfl, rfl⟩ := here
    exact .inl (s.wake_path_self k g o gr)
  · refine .inr ?_
    show ((s.setHartOf (.group k g) _).hartOf i).path o = _
    by_cases own : i = .group k g
    · subst own
      have other : o = !p := Bool.eq_not.mpr fun same => here ⟨rfl, same⟩
      rw [State.hartOf_setHartOf, other, Hart.path_setPath_not]
    · rw [State.hartOf_setHartOf_ne _ own]

end

section
variable (k : Nat) (gr : Waiter → Option Grant)

/-- Waiters wake one after another. -/
def State.wakeAll (s : State) (ws : List Waiter) : State := ws.foldl (fun s w => s.wake k w.gid w.path (gr w)) s

theorem State.wakeAll_told (s : State) (ws : List Waiter) : s.Told (s.wakeAll k gr ws) :=
  .foldl (fun u (w : Waiter) => u.wake_told k w.gid w.path (gr w)) ws s

theorem State.wakeAll_noNewLife (s : State) (ws : List Waiter) : s.NoNewLife (s.wakeAll k gr ws) :=
  .foldl (fun u (w : Waiter) => u.wake_noNewLife k w.gid w.path (gr w)) ws s

theorem State.wakeAll_path (s : State) (ws : List Waiter) (i : HartId) (o : Bool) :
    (((s.wakeAll k gr ws).hartOf i).path o).susp = none ∨ ((s.wakeAll k gr ws).hartOf i).path o = (s.hartOf i).path o := by
  induction ws generalizing s with
  | nil => exact .inr rfl
  | cons w ws ih =>
    rcases ih (s.wake k w.gid w.path (gr w)) with woken | same
    · exact .inl woken
    · exact (s.wake_path k w.gid w.path (gr w) i o).imp (fun woken => (congrArg Path.susp same).trans woken) same.trans

/-- Every waiter has woken. -/
theorem State.wakeAll_woken (s : State) {ws : List Waiter} {w : Waiter} (mem : w ∈ ws) :
    (((s.wakeAll k gr ws).hartOf (.group k w.gid)).path w.path).susp = none := by
  induction ws generalizing s with
  | nil => cases mem
  | cons v ws ih =>
    rcases List.mem_cons.mp mem with rfl | later
    · rcases State.wakeAll_path k gr (s.wake k w.gid w.path (gr w)) ws (.group k w.gid) w.path with woken | same
      · exact woken
      · exact (congrArg Path.susp same).trans (s.wake_path_self k w.gid w.path (gr w))
    · exact ih (s.wake k v.gid v.path (gr v)) later

/-- Where all waiters of a tile wake, none is left. -/
theorem State.wakeAll_tileWaiters (s : State) (n : Nat) : (s.wakeAll k gr (s.tileWaiters k n)).tileWaiters k n = [] := by
  refine List.eq_nil_iff_forall_not_mem.mpr fun w mem => ?_
  obtain ⟨alive, waits, since⟩ := State.mem_tileWaiters.mp mem
  rcases State.wakeAll_path k gr s (s.tileWaiters k n) (.group k w.gid) w.path with woken | same
  · rw [woken] at waits
    cases waits
  · rw [same] at waits since
    have there : w ∈ s.tileWaiters k n := State.mem_tileWaiters.mpr ⟨(s.wakeAll_noNewLife k gr _).liveGids alive, waits, since⟩
    have woken := s.wakeAll_woken k gr there
    rw [same, waits] at woken
    cases woken

end

/-! ## A put at its tile (R208, R210) -/

/-- A tile of a team holds 256 bytes and is FULL; the team's other tags and bytes, and the other teams, are as they were. -/
def State.Filled (s t : State) (q n : Nat) (bs : List Byte) : Prop :=
  (t.teamOf q).tag n = .full ∧ (∀ x, x ≠ n → (t.teamOf q).tag x = (s.teamOf q).tag x)
    ∧ (∀ x, (t.teamOf q).mem.byte x = if 256 * n ≤ x ∧ x < 256 * n + 256 then bs.getD (x - 256 * n) 0 else (s.teamOf q).mem.byte x)
    ∧ ∀ x, x ≠ q → t.teamOf x = s.teamOf x

theorem State.Filled.of_teams_eq {s u t : State} {q n : Nat} {bs : List Byte} (h : s.Filled u q n bs) (same : t.teams = u.teams) : s.Filled t q n bs := by
  unfold State.Filled State.teamOf at *
  rwa [same]

theorem Team.tag_setTag (t : Team) (n : Nat) (x : Tag) : (t.setTag n x).tag n = x := mget_mset_self _ _ _ _
theorem Team.tag_setTag_ne (t : Team) {n m : Nat} (ne : m ≠ n) (x : Tag) : (t.setTag n x).tag m = t.tag m := mget_mset_ne _ ne _ _

/-- What the team was before matters only by its tags and bytes. -/
theorem State.Filled.of_setTeamOf {s t : State} {q n : Nat} {bs : List Byte} {z : Team} (h : (s.setTeamOf q z).Filled t q n bs)
    (tags : z.tags = (s.teamOf q).tags) (mem : z.mem = (s.teamOf q).mem) : s.Filled t q n bs := by
  obtain ⟨full, others, bytes, teams⟩ := h
  rw [State.teamOf_setTeamOf] at others bytes
  refine ⟨full, fun x ne => (others x ne).trans ?_, fun x => mem ▸ bytes x, fun x ne => (teams x ne).trans (s.teamOf_setTeamOf_ne ne _)⟩
  rw [Team.tag, tags, Team.tag]

/-- A tile that nobody waits for becomes FULL, and nothing else happens (R209). -/
theorem State.fillTile_of_no_waiters {s : State} {k n : Nat} (none_ : s.tileWaiters k n = []) (test : List Byte → Bool) :
    s.fillTile test k n = s.setTagOf k n .full := by
  have still : (s.setTagOf k n .full).tileWaiters k n = [] := (State.tileWaiters_of_harts_eq rfl k n).trans none_
  unfold State.fillTile State.tileFuel
  dsimp only
  rw [State.serveTile]
  simp only [still, List.filter_nil, List.foldl_nil, oldest]

/-- The state once a put without poisoned words has been written and its tile is FULL. -/
def State.putWritten (s : State) (k n : Nat) (h : Held) : State :=
  ((s.setTeamOf k ((s.teamOf k).poke (256 * n) h.data false)).putDone h.src h.st h.remote).setTagOf k n .full

section
variable {s : State} {k n : Nat} {h : Held} (test : List Byte → Bool)

theorem State.writeTile_clean (s : State) (k n : Nat) (data : List Byte) :
    s.writeTile k n data [] = (s.setTeamOf k ((s.teamOf k).poke (256 * n) data false), .full) := rfl

theorem State.applyPut_empty (empty : s.tagOf k n = .empty) (clean : h.marks = []) (none_ : s.tileWaiters k n = []) :
    s.applyPut test k n h = some (s.putWritten k n h) := by
  have told := State.putDone_tileWaiters_nil (s := s.setTeamOf k ((s.teamOf k).poke (256 * n) h.data false))
    ((State.tileWaiters_of_harts_eq rfl k n).trans none_) h.src h.st h.remote
  unfold State.applyPut
  rw [empty]
  dsimp only
  rw [clean, State.writeTile_clean]
  dsimp only
  rw [if_neg (by decide), State.fillTile_of_no_waiters told]
  rfl

theorem State.applyPut_room (full : s.tagOf k n = .full) (room : (s.coreOf (s.teamOf k).core).hold.length < 16) : s.applyPut test k n h
    = some (s.setCoreOf (s.teamOf k).core { s.coreOf (s.teamOf k).core with hold := (s.coreOf (s.teamOf k).core).hold ++ [h] }) := by
  unfold State.applyPut
  rw [full]
  exact if_neg (Nat.not_le.mpr room)

theorem State.applyPut_no_room (full : s.tagOf k n = .full) (held : 16 ≤ (s.coreOf (s.teamOf k).core).hold.length) : s.applyPut test k n h = none := by
  unfold State.applyPut
  rw [full]
  exact if_pos held

/-- The state once a put has been discarded at a POISON tile, and logged. -/
def State.putDiscarded (s : State) (k n : Nat) (h : Held) : State :=
  (s.logError .discarded 0 (s.teamOf k).core (s.teamOf k).asid 0 (BitVec.ofNat 64 (256 * n))).putDone h.src h.st h.remote

theorem State.applyPut_poison (poison : s.tagOf k n = .poison) : s.applyPut test k n h = some (s.putDiscarded k n h) := by
  unfold State.applyPut
  rw [poison]
  rfl

end

section
variable (s : State) (k n : Nat) (h : Held)

theorem State.putDone_written_told : (s.setTeamOf k ((s.teamOf k).poke (256 * n) h.data false)).Told
    ((s.setTeamOf k ((s.teamOf k).poke (256 * n) h.data false)).putDone h.src h.st h.remote) := State.putDone_told _ _ _ _

theorem State.putWritten_teamOf : (s.putWritten k n h).teamOf k = ((s.teamOf k).poke (256 * n) h.data false).setTag n .full := by
  unfold State.putWritten State.setTagOf
  rw [State.teamOf_setTeamOf, (s.putDone_written_told k n h).teamOf_eq, State.teamOf_setTeamOf]

theorem State.putWritten_teamOf_ne {x : Nat} (ne : x ≠ k) : (s.putWritten k n h).teamOf x = s.teamOf x := by
  unfold State.putWritten State.setTagOf
  rw [State.teamOf_setTeamOf_ne _ ne, (s.putDone_written_told k n h).teamOf_eq, State.teamOf_setTeamOf_ne _ ne]

theorem State.putWritten_coreOf (c : Nat) : (s.putWritten k n h).coreOf c = s.coreOf c := (s.putDone_written_told k n h).coreOf_eq c
theorem State.putWritten_net : (s.putWritten k n h).net = s.net := (s.putDone_written_told k n h).net_eq

theorem State.putWritten_falls {q r : Nat} (sender : h.src = .group q r) : s.Falls (s.putWritten k n h) q r h.st :=
  State.Falls.of_harts_eq rfl (State.putDone_falls (s.setTeamOf k ((s.teamOf k).poke (256 * n) h.data false)) sender h.st h.remote) rfl

/-- A written put fills its tile, where no synchronisation word has a loop to make (R208, R277). -/
theorem State.putWritten_filled (length : h.data.length = 256) (quiet : (s.teamOf k).syncs = []) (wf : (s.teamOf k).mem.wf = true) :
    s.Filled (s.putWritten k n h) k n h.data := by
  refine ⟨?_, fun x ne => ?_, fun x => ?_, fun x ne => s.putWritten_teamOf_ne k n h ne⟩
  · rw [State.putWritten_teamOf, Team.tag_setTag]
  · rw [State.putWritten_teamOf, Team.tag_setTag_ne _ ne]
    rfl
  · rw [State.putWritten_teamOf]
    show (syncPorts (s.teamOf k).syncs _ _ _).byte x = _
    rw [quiet, ← length]
    exact Mem.byte_write wf

theorem State.putDiscarded_told : s.Told (s.putDiscarded k n h) := (s.logError_wrote _ _ _ _ _ _).told.trans (State.putDone_told _ _ _ _)

theorem State.putDiscarded_falls {q r : Nat} (sender : h.src = .group q r) : s.Falls (s.putDiscarded k n h) q r h.st :=
  State.Falls.of_harts_eq (s.logError_wrote _ _ _ _ _ _).harts_eq (State.putDone_falls _ sender h.st h.remote) rfl

theorem State.logError_logged (kind : LogKind) (c : BitVec 7) (u a g : Nat) (x : Word64) :
    Logged s (s.logError kind c u a g x) kind.code (c.setWidth 8) u x := by
  unfold Logged
  rw [State.logError_log]
  exact ⟨rfl, _, rfl⟩

theorem logged_of_service_eq {s u t : State} {kind cause : Byte} {unit : Nat} {addr : Word64} (logged : Logged s u kind cause unit addr)
    (same : t.service = u.service) : Logged s t kind cause unit addr := by
  unfold Logged at *
  rwa [same]

theorem State.putDiscarded_logged : Logged s (s.putDiscarded k n h) 3 0 (s.teamOf k).core (BitVec.ofNat 64 (256 * n)) :=
  logged_of_service_eq (s.logError_logged .discarded 0 _ _ 0 _) (State.putDone_service _ _ _ _)

end

/-! ## A put at its port (R205, R210, R211) -/

theorem State.noteProduced_rest (s : State) (src : Port) (k n : Nat) : s.noteProduced src k n = { s with launches := (s.noteProduced src k n).launches } := by
  unfold State.noteProduced
  split
  · exact s.modNode_rest _ _ _
  · rfl

section
variable (s : State) (i : Nat) (src : Port) (k n : Nat)

/-- A packet leaves its port, and the Drover notes what it produced. -/
theorem State.left_coreOf (x : Nat) : ((s.dropMsg i).noteProduced src k n).coreOf x = s.coreOf x := by rw [State.noteProduced_rest]; rfl
theorem State.left_harts : ((s.dropMsg i).noteProduced src k n).harts = s.harts := by rw [State.noteProduced_rest]; rfl
theorem State.left_teams : ((s.dropMsg i).noteProduced src k n).teams = s.teams := by rw [State.noteProduced_rest]; rfl
theorem State.left_service : ((s.dropMsg i).noteProduced src k n).service = s.service := by rw [State.noteProduced_rest]; rfl
theorem State.left_net : ((s.dropMsg i).noteProduced src k n).net = removeAt i s.net := by rw [State.noteProduced_rest]; rfl

end

/-- The oldest message of its port to its core is the oldest of its class. -/
theorem msgFirst_of_front {s : State} {i : Nat} {m : Msg} (front : Front s i m) : s.msgFirst i m = true := by
  obtain ⟨-, oldest⟩ := front
  unfold State.msgFirst
  rw [Bool.not_eq_true', List.any_eq_false]
  intro q mem same
  obtain ⟨k, found⟩ := List.mem_iff_getElem?.mp mem
  rw [List.getElem?_take] at found
  split at found
  · next lt =>
    simp only [Bool.and_eq_true, beq_iff_eq] at same
    exact oldest k lt q found same.1
  · cases found

/-- A put of a group that no entry takes (R205). -/
theorem State.putRefused_group (s : State) {m : Msg} {q r : Nat} (sender : m.src = .group q r) (off : Nat) (st : Option Nat) (remote : Option FabPkt) :
    s.putRefused m off st remote = (s.putDone m.src st none).refuse q r m.core off := by
  unfold State.putRefused
  rw [sender]

/-- A put of another device that no entry takes (R205). -/
theorem State.putRefused_remote (s : State) {m : Msg} (other : ∀ q r, m.src ≠ .group q r) (off : Nat) (st : Option Nat) (p : FabPkt) :
    s.putRefused m off st (some p) = s.refusePkt p := by
  unfold State.putRefused
  rw [s.putDone_of_not_group other]
  split
  · next sender => exact absurd sender (other _ _)
  · next same _ => cases same; rfl
  · next same _ => cases same

/-- What a put becomes in a bounce ring. -/
def bouncedPut (m : Msg) (o : Nat) (data : List Byte) (marks : List Nat) : Bounced :=
  { pos := 0, off := o, src := m.src, remote := none, op := .put data marks }

/-- A put as its core holds it for a tile. -/
def putFor (m : Msg) (team tile ctl : Nat) (data : List Byte) (marks : List Nat) (st : Option Nat) (remote : Option FabPkt) : Held :=
  { team := team, tile := tile, src := m.src, data := data, marks := marks, st := st, remote := remote, control := ctl }

/-- A put that a ring takes is the ring's youngest packet. -/
theorem State.bounceTo_taken {s : State} {e : PortEntry} {b : Bounced} {path kind control : Nat} {operand data : List Byte}
    (taken : (s.bounceTo e b path kind control operand data).2 = true) :
    ∃ before pos, ((s.bounceTo e b path kind control operand data).1.teamOf e.team).bounced = before ++ [{ b with pos := pos }] := by
  unfold State.bounceTo at *
  dsimp only at *
  split at taken
  · next head _ u _ _ =>
    refine ⟨(u.teamOf e.team).bounced, head, ?_⟩
    exact congrArg Team.bounced (u.teamOf_setTeamOf e.team _)
  · split at taken <;> cases taken
  · cases taken

/-- From s to t no packet in flight has moved, and a team keeps its bytes, its tags and the packets of its ring. -/
def State.KeepsRing (s t : State) (k : Nat) : Prop :=
  t.net = s.net ∧ (t.teamOf k).bounced = (s.teamOf k).bounced ∧ (t.teamOf k).mem = (s.teamOf k).mem ∧ (t.teamOf k).tags = (s.teamOf k).tags

theorem State.KeepsRing.refl (s : State) (k : Nat) : s.KeepsRing s k := ⟨rfl, rfl, rfl, rfl⟩

/-- A put that goes back to its sender takes no part in this (R210). -/
theorem State.KeepsRing.keepPut {s t : State} {k : Nat} (h : s.KeepsRing t k) (i : Nat) :
    (t.keepPut i).net = modifyAt (fun m => { m with refused := true }) i s.net ∧ ((t.keepPut i).teamOf k).bounced = (s.teamOf k).bounced
      ∧ ((t.keepPut i).teamOf k).mem = (s.teamOf k).mem ∧ ((t.keepPut i).teamOf k).tags = (s.teamOf k).tags :=
  ⟨congrArg (modifyAt _ i) h.1, h.2⟩

theorem State.logRing_keepsRing (s : State) (k asid : Nat) (ring : Word64) : s.KeepsRing (s.logRing k asid ring) k := by
  have wrote := s.logError_wrote .machineCheck Cause.machineCheck.code (s.teamOf k).core asid 0 ring
  unfold State.logRing
  dsimp only
  split
  · exact .refl s k
  · refine ⟨wrote.told.net_eq, ?_, ?_, ?_⟩ <;> rw [State.teamOf_setTeamOf]

/-- An attempt that finds no room leaves everything but the log of its ring's failure (R438). -/
theorem State.bounceTo_full {s : State} {e : PortEntry} {b : Bounced} {path kind control : Nat} {operand data : List Byte}
    (full : (s.bounceTo e b path kind control operand data).2 = false) : s.KeepsRing (s.bounceTo e b path kind control operand data).1 e.team := by
  unfold State.bounceTo at *
  dsimp only at *
  split at full
  · cases full
  · split
    · exact .refl s _
    · exact s.logRing_keepsRing _ _ _
  · exact s.logRing_keepsRing _ _ _

section
variable {s : State} {i off asid ctl : Nat} {m : Msg} {data : List Byte} {marks : List Nat} {st : Option Nat} {remote : Option FabPkt} {e : PortEntry}
  {ev : Instr × Bool} (mem : ev ∈ [(Instr.putArrive i, false), (.putResend i, true)]) (front : Front s i m)
  (body : m.body = .put off asid ctl data marks st remote) (refused : m.refused = ev.2)
include mem front body refused

/-- A put at the front of its port is delivered, by its arrival or by a new attempt. -/
theorem exec_putEvent : exec ev.1 s = .next (s.deliverPut i m off asid ctl data marks st remote) := by
  have event : exec ev.1 s = .next (s.putEvent i ev.2) := by
    rcases List.mem_pair.mp mem with rfl | rfl <;> rfl
  rw [event]
  unfold State.putEvent
  rw [front.1]
  simp only [body, refused, BEq.rfl, msgFirst_of_front front, Bool.and_self, if_true]

section
variable (stray : s.portEntry m.core off asid = none)
include stray

theorem exec_put_stray : exec ev.1 s = .next ((s.dropMsg i).putRefused m off st remote) := by
  rw [exec_putEvent mem front body refused, State.deliverPut, stray]

/-- A put of a group that no entry takes is refused, and counts as delivered (R205). -/
theorem exec_put_stray_group {q r : Nat} (sender : m.src = .group q r) : ∃ t, exec ev.1 s = .next t ∧ t.teams = s.teams
    ∧ t.net = removeAt i s.net ++ [⟨.group q r, (s.teamOf q).core, .refusal .accessViolation (winAddr m.core off), false⟩] ∧ s.Falls t q r st := by
  have told := (s.dropMsg i).putDone_told m.src st none
  refine ⟨_, exec_put_stray mem front body refused stray, ?_⟩
  rw [State.putRefused_group _ sender]
  refine ⟨told.teams_eq, ?_, State.Falls.of_harts_eq rfl (State.putDone_falls (s.dropMsg i) sender st none) rfl⟩
  show ((s.dropMsg i).putDone m.src st none).net ++ [⟨.group q r, (((s.dropMsg i).putDone m.src st none).teamOf q).core, _, _⟩] = _
  rw [told.net_eq, told.teamOf_eq]
  rfl

/-- A put of another device that no entry takes is answered as refused (R205). -/
theorem exec_put_stray_remote {p : FabPkt} (there : remote = some p) (other : ∀ q r, m.src ≠ .group q r) :
    exec ev.1 s = .next ((s.dropMsg i).refusePkt p) := by
  rw [exec_put_stray mem front body refused stray, there, State.putRefused_remote _ other]

end

variable (entry : s.portEntry m.core off asid = some e) {o n : Nat} (place : off - e.wbase * 4096 = o) (tile : o / 256 = n)
include entry place tile

section
variable (absent : e.absent = true) {z : Bounced} (packet : bouncedPut m o data marks = z)
include absent packet

theorem exec_put_absent : exec ev.1 s = .next (
    let r := s.bounceTo e z 0 1 ctl [] data
    if r.2 then ((r.1.dropMsg i).putDone m.src st remote).noteProduced m.src e.team n else r.1.keepPut i) := by
  rw [exec_putEvent mem front body refused, State.deliverPut, entry]
  dsimp only
  rw [place, tile, if_pos absent, ← packet]
  rfl

/-- A put that finds no room in the ring stays with its sender (R210, R211). -/
theorem exec_put_ring_full (full : (s.bounceTo e z 0 1 ctl [] data).2 = false) :
    ∃ t, exec ev.1 s = .next t ∧ t.net = modifyAt (fun m => { m with refused := true }) i s.net
      ∧ (t.teamOf e.team).bounced = (s.teamOf e.team).bounced ∧ (t.teamOf e.team).mem = (s.teamOf e.team).mem
      ∧ (t.teamOf e.team).tags = (s.teamOf e.team).tags := by
  refine ⟨_, exec_put_absent mem front body refused entry place tile absent packet, ?_⟩
  dsimp only
  rw [if_neg (Bool.eq_false_iff.mp full)]
  exact (State.bounceTo_full full).keepPut i

/-- A put that joins the ring counts as delivered (R381). -/
theorem exec_put_ring_taken {u : State} (taken : s.bounceTo e z 0 1 ctl [] data = (u, true)) :
    exec ev.1 s = .next (((u.dropMsg i).putDone m.src st remote).noteProduced m.src e.team n)
    ∧ ∃ q before, (u.teamOf e.team).bounced = before ++ [q] ∧ q.op = .put data marks ∧ q.off = o ∧ q.src = m.src := by
  obtain ⟨before, pos, bounced⟩ := State.bounceTo_taken (congrArg Prod.snd taken)
  rw [taken] at bounced
  refine ⟨?_, _, before, bounced, by rw [← packet]; rfl, by rw [← packet]; rfl, by rw [← packet]; rfl⟩
  rw [exec_put_absent mem front body refused entry place tile absent packet, taken]
  rfl

end

section
variable (present : e.absent = false) (free : s.inFold m.core e.team o 256 = false)
include present free

theorem exec_put_applied {t : State} (applies : s.applyPut tileConsistent e.team n (putFor m e.team n ctl data marks st remote) = some t) :
    exec ev.1 s = .next ((t.dropMsg i).noteProduced m.src e.team n) := by
  rw [exec_putEvent mem front body refused, State.deliverPut, entry]
  dsimp only
  rw [place, tile, free, present, ← putFor, applies]
  rfl

theorem exec_put_no_room (stays : s.applyPut tileConsistent e.team n (putFor m e.team n ctl data marks st remote) = none) :
    exec ev.1 s = .next (s.keepPut i) := by
  rw [exec_putEvent mem front body refused, State.deliverPut, entry]
  dsimp only
  rw [place, tile, free, present, ← putFor, stays]
  rfl

/-- A put without poisoned words is written to its EMPTY tile, which nobody waits for (R208). -/
theorem exec_put_written (empty : (s.teamOf e.team).tag n = .empty) (clean : marks = []) (length : data.length = 256)
    (none_ : s.tileWaiters e.team n = []) (quiet : (s.teamOf e.team).syncs = []) (wf : (s.teamOf e.team).mem.wf = true) :
    ∃ t, exec ev.1 s = .next t ∧ t.net = removeAt i s.net ∧ s.Filled t e.team n data
      ∧ (t.coreOf m.core).hold = (s.coreOf m.core).hold ∧ ∀ q r, m.src = .group q r → s.Falls t q r st := by
  have filled := s.putWritten_filled e.team n (putFor m e.team n ctl data marks st remote) length quiet wf
  refine ⟨_, exec_put_applied mem front body refused entry place tile present free (State.applyPut_empty _ empty clean none_), ?_, ?_, ?_,
    fun q r sender => ?_⟩
  · rw [State.left_net, State.putWritten_net]
  · exact filled.of_teams_eq (State.left_teams ..)
  · rw [State.left_coreOf, State.putWritten_coreOf]
  · exact State.Falls.of_harts_eq rfl (State.putWritten_falls s _ _ _ sender) (State.left_harts ..)

/-- A put for a FULL tile is held, while its core holds fewer than sixteen (R210). -/
theorem exec_put_held (own : (s.teamOf e.team).core = m.core) (full : (s.teamOf e.team).tag n = .full) (room : (s.coreOf m.core).hold.length < 16) :
    ∃ t, exec ev.1 s = .next t ∧ t.net = removeAt i s.net ∧ t.teams = s.teams
      ∧ (t.coreOf m.core).hold = (s.coreOf m.core).hold ++ [putFor m e.team n ctl data marks st remote] ∧ t.harts = s.harts := by
  rw [← own] at room ⊢
  refine ⟨_, exec_put_applied mem front body refused entry place tile present free (State.applyPut_room _ full room), ?_, ?_, ?_, ?_⟩
  · exact State.left_net ..
  · exact State.left_teams ..
  · rw [State.left_coreOf, State.coreOf_setCoreOf]
  · exact State.left_harts ..

/-- A put for a FULL tile stays with its sender, where its core holds sixteen (R210). -/
theorem exec_put_kept (own : (s.teamOf e.team).core = m.core) (full : (s.teamOf e.team).tag n = .full) (held : 16 ≤ (s.coreOf m.core).hold.length) :
    exec ev.1 s = .next (s.keepPut i) := by
  rw [← own] at held
  exact exec_put_no_room mem front body refused entry place tile present free (State.applyPut_no_room _ full held)

/-- A put for a POISON tile is discarded and logged (R208). -/
theorem exec_put_discarded (poison : (s.teamOf e.team).tag n = .poison) : ∃ t, exec ev.1 s = .next t ∧ t.net = removeAt i s.net ∧ t.teams = s.teams
    ∧ Logged s t 3 0 (s.teamOf e.team).core (BitVec.ofNat 64 (256 * n)) ∧ ∀ q r, m.src = .group q r → s.Falls t q r st := by
  have told := s.putDiscarded_told e.team n (putFor m e.team n ctl data marks st remote)
  refine ⟨_, exec_put_applied mem front body refused entry place tile present free (State.applyPut_poison _ poison), ?_, ?_, ?_, fun q r sender => ?_⟩
  · rw [State.left_net, told.net_eq]
  · rw [State.left_teams, told.teams_eq]
  · exact logged_of_service_eq (s.putDiscarded_logged _ _ _) (State.left_service ..)
  · exact State.Falls.of_harts_eq rfl (State.putDiscarded_falls s _ _ _ sender) (State.left_harts ..)

end

end

end Sys2Proof.Machine
end

