-- ==== Sys2Proof/Proofs/NearMemory.lean ====
section
/-! PROOFS. Near-memory commands at their bank (R303) and their acknowledgements (R256), and what memory errors leave: poison (R203, R214), the error log and its counts (R375, R425). -/

namespace Sys2Proof.Machine
open Sys2Proof.Claims

/-! ## The value that an integer atomic leaves (R239) -/

/-- The comparison of an integer atomic is that of the patterns' values. -/
theorem le_iff_valOf {w : Nat} (pos : 0 < w) (nat : Bool) (p q : Nat) :
    (if nat then (BitVec.ofNat w p).ule (BitVec.ofNat w q) else (BitVec.ofNat w p).sle (BitVec.ofNat w q)) = true ↔ valOf p w nat ≤ valOf q w nat := by
  rw [valOf_eq p pos, valOf_eq q pos]
  cases nat with
  | true => simp only [if_true, BitVec.ule_iff_toNat_le, Nat.cast_le]
  | false => simp [BitVec.sle_iff_toInt_le]

/-- The pattern's value as `AtomArg.next` compares it. -/
theorem valOf_of_lt {w p : Nat} (small : p < 2 ^ w) (nat : Bool) :
    (if nat || decide (p < 2 ^ (w - 1)) then (p : Int) else (p : Int) - 2 ^ w) = valOf p w nat := by
  unfold valOf
  rw [Nat.mod_eq_of_lt small]

/-- On patterns of w bits an integer atomic is the operation on bit vectors. -/
theorem AtomArg.next_int {a : AtomArg} {w : Nat} {nat : Bool} (ty : a.ty = .int w nat) (plain : a.expect = none) (pos : 0 < w) {old : Nat}
    (small : old < 2 ^ w) : a.next old = (atomNew nat a.op (BitVec.ofNat w old) (BitVec.ofNat w a.x)).toNat := by
  obtain ⟨op, _, x, _⟩ := a
  dsimp only at ty plain
  subst ty plain
  have same : old % 2 ^ w = old := Nat.mod_eq_of_lt small
  have pattern : BitVec.ofNat w (x % 2 ^ w) = BitVec.ofNat w x := BitVec.eq_of_toNat_eq (by simp)
  have le := le_iff_valOf pos nat old (x % 2 ^ w)
  rw [← valOf_of_lt small, ← valOf_of_lt (Nat.mod_lt x (Nat.two_pow_pos w)), pattern] at le
  cases op with
  | min =>
    simp only [AtomArg.next, AtomTy.ff, AtomTy.bits, atomNew]
    rw [apply_ite BitVec.toNat, BitVec.toNat_ofNat, BitVec.toNat_ofNat, same]
    exact if_congr le.symm rfl rfl
  | max =>
    simp only [AtomArg.next, AtomTy.ff, AtomTy.bits, atomNew]
    rw [apply_ite BitVec.toNat, BitVec.toNat_ofNat, BitVec.toNat_ofNat, same]
    exact if_congr le.symm rfl rfl
  | _ => simp [AtomArg.next, AtomTy.ff, AtomTy.bits, atomNew, same]

/-! ## A near-memory command is applied (R245, R303) -/

/-- The state in which a group has other near-memory commands in flight. -/
def State.withNear (s : State) (k g : Nat) (cmds : List NearCmd) : State :=
  s.setHartOf (.group k g) { s.hartOf (.group k g) with near := cmds }

theorem State.withNear_near (s : State) (k g : Nat) (cmds : List NearCmd) : ((s.withNear k g cmds).hartOf (.group k g)).near = cmds :=
  congrArg Hart.near (s.hartOf_setHartOf _ _)

section
variable {s : State} {k g id key : Nat} {a : AtomArg} {r : List (Tgt × AtomArg)} {rest : List NearCmd}
  (first : (s.hartOf (.group k g)).near = ⟨id, (.home key, a) :: r⟩ :: rest) (stored : (s.hartOf (.group k g)).sq = []) (choices : s.oracle = [])
include first stored choices

/-- The oldest element of the oldest command leaves its command, and is applied. -/
theorem exec_nearCommandApply_first : exec (.nearCommandApply k g) s = .next ((s.withNear k g (⟨id, r⟩ :: rest)).applyNear k g id (.home key) a) := by
  have elems : ∃ es, (s.hartOf (.group k g)).nearElems = (id, .home key, a) :: es := by
    unfold Hart.nearElems
    rw [first]
    exact ⟨_, rfl⟩
  obtain ⟨es, elems⟩ := elems
  have drop : (s.hartOf (.group k g)).dropNear 0 = { s.hartOf (.group k g) with near := ⟨id, r⟩ :: rest } := by
    unfold Hart.dropNear
    rw [first]
    rfl
  show execNearCommandApply k g s = _
  unfold execNearCommandApply
  simp only [State.choice_of_no_choices choices, State.chosen_of_no_choices choices, Nat.zero_mod, ite_self, elems, List.getElem?_cons_zero,
    List.take_zero, drop]
  simp [Hart.nearWaits, stored, Hart.flagFirst, Tgt.isRemote, Tgt.device, State.wireBusy, State.withNear]

end

section
variable {s : State} {k g id key n : Nat} {a : AtomArg} (bytes : a.ty.bits / 8 = n)
include bytes

/-- A poisoned granule discards the element, and it is logged (R214). -/
theorem State.applyNear_poisoned (poisoned : s.poisonedAt key n = true) : s.applyNear k g id (.home key) a
    = s.logError .discarded Cause.poison.code (key / bankSize) (s.hartOf (.group k g)).asid.toNat g (BitVec.ofNat 64 key) := by
  unfold State.applyNear
  simp only [bytes, poisoned, if_true]

/-- The element's bytes change at the bank, and the L1 of its core follows (R303). -/
theorem State.applyNear_clean (clean : s.poisonedAt key n = false) (landed : s.posted = []) : s.applyNear k g id (.home key) a
    = (s.pokeBank key (leBytes n (a.next (s.mem.nat key n)))).l1Store (some (s.teamOf k).core) key (leBytes n (a.next (s.mem.nat key n))) := by
  unfold State.applyNear
  simp only [bytes, clean, Bool.false_eq_true, if_false]
  simp only [State.landOver, landed, List.isEmpty_nil, if_true, Mem.nat]

end

/-- A write at a bank changes the bytes written, in memory. -/
theorem State.pokeBank_l1Store_byte {s : State} (wf : s.mem.wf = true) (core : Option Nat) (key : Nat) (bs : List Byte) (y : Nat) :
    ((s.pokeBank key bs).l1Store core key bs).mem.byte y = if key ≤ y ∧ y < key + bs.length then bs.getD (y - key) 0 else s.mem.byte y := by
  cases core <;> exact Mem.byte_write wf

theorem State.pokeBank_l1Store_rest (s : State) (core : Option Nat) (key : Nat) (bs : List Byte) :
    ((s.pokeBank key bs).l1Store core key bs).harts = s.harts ∧ ((s.pokeBank key bs).l1Store core key bs).teams = s.teams := by
  cases core <;> exact ⟨rfl, rfl⟩

/-- The bytes of an integer of 8, 16, 32 or 64 bits hold a pattern of its width. -/
theorem Mem.nat_lt_of_bytes (m : Mem) (key x : Nat) : m.nat key (2 ^ x) < 2 ^ (8 * 2 ^ x) := by
  have := leNat_lt (m.read key (2 ^ x))
  rwa [Mem.read_length, show (256 : Nat) = 2 ^ 8 from rfl, ← pow_mul] at this

section
variable {s : State} {k g id key x : Nat} {nat : Bool} {a : AtomArg} {r : List (Tgt × AtomArg)} {rest : List NearCmd}
  (first : (s.hartOf (.group k g)).near = ⟨id, (.home key, a) :: r⟩ :: rest) (stored : (s.hartOf (.group k g)).sq = []) (choices : s.oracle = [])
  (ty : a.ty = .int (8 * 2 ^ x) nat)
include first stored choices ty

/-- An integer element is applied to its bytes at the bank. -/
theorem exec_nearCommandApply_applied (landed : s.posted = []) (plain : a.expect = none) (clean : s.poisonedAt key (8 * 2 ^ x / 8) = false)
    (wf : s.mem.wf = true) : ∃ t, exec (.nearCommandApply k g) s = .next t ∧ (t.hartOf (.group k g)).near = ⟨id, r⟩ :: rest
      ∧ (let new := atomNew nat a.op (BitVec.ofNat (8 * 2 ^ x) (s.mem.nat key (8 * 2 ^ x / 8))) (BitVec.ofNat (8 * 2 ^ x) a.x)
         ∀ y, t.mem.byte y = if key ≤ y ∧ y < key + 8 * 2 ^ x / 8 then (leBytes (8 * 2 ^ x / 8) new.toNat).getD (y - key) 0 else s.mem.byte y)
      ∧ t.teams = s.teams := by
  have width : 8 * 2 ^ x / 8 = 2 ^ x := Nat.mul_div_cancel_left _ (by decide)
  have bytes : a.ty.bits / 8 = 2 ^ x := by rw [ty]; exact width
  have next := AtomArg.next_int ty plain (Nat.mul_pos (by decide) (Nat.two_pow_pos x)) (s.mem.nat_lt_of_bytes key x)
  rw [width] at clean ⊢
  refine ⟨_, exec_nearCommandApply_first first stored choices, ?_⟩
  rw [State.applyNear_clean (s := s.withNear k g (⟨id, r⟩ :: rest)) bytes clean landed]
  refine ⟨?_, fun y => ?_, ?_⟩
  · rw [State.hartOf, (State.pokeBank_l1Store_rest _ _ _ _).1, ← State.hartOf, State.withNear_near]
  · rw [State.pokeBank_l1Store_byte (s := s.withNear k g (⟨id, r⟩ :: rest)) wf, leBytes_length]
    exact congrArg (fun v => if key ≤ y ∧ y < key + 2 ^ x then (leBytes (2 ^ x) v).getD (y - key) 0 else s.mem.byte y) next
  · exact (State.pokeBank_l1Store_rest _ _ _ _).2

/-- An element whose granule is poisoned is gone, and logged (R214). -/
theorem exec_nearCommandApply_lost (poisoned : s.poisonedAt key (8 * 2 ^ x / 8) = true) : ∃ t, exec (.nearCommandApply k g) s = .next t
    ∧ (t.hartOf (.group k g)).near = ⟨id, r⟩ :: rest ∧ Logged s t 3 0x0B (key / bankSize) (BitVec.ofNat 64 key) := by
  have bytes : a.ty.bits / 8 = 8 * 2 ^ x / 8 := by rw [ty]; rfl
  refine ⟨_, exec_nearCommandApply_first first stored choices, ?_⟩
  rw [State.applyNear_poisoned (s := s.withNear k g (⟨id, r⟩ :: rest)) bytes poisoned]
  refine ⟨?_, State.logError_logged _ .discarded _ _ _ _ _⟩
  rw [(State.logError_wrote _ _ _ _ _ _ _).hartOf_eq, State.withNear_near]

end

/-! ## A command is acknowledged (R256) -/

section
variable {s : State} {k g id : Nat} {cs : List NearCmd} (first : (s.hartOf (.group k g)).near = ⟨id, []⟩ :: cs)
  (answered : (s.hartOf (.group k g)).awaitsRemote id = false) (apart : ∀ x ∈ cs, x.id ≠ id)
include first answered apart

theorem exec_nearAckCredit_first : exec (.nearAckCredit k g) s
    = .next (s.setHartOf (.group k g) (({ s.hartOf (.group k g) with near := cs } : Hart).complete kNear id)) := by
  have others : cs.filter (fun d => d.id != id) = cs := List.filter_eq_self.mpr fun d mem => bne_iff_ne.mpr (apart d mem)
  show execNearAckCredit k g s = _
  unfold execNearAckCredit
  simp only [first, List.find?_cons, List.isEmpty_nil, answered, Bool.not_false, Bool.and_self, List.filter_cons, bne_self_eq_false, Bool.false_eq_true,
    if_false, others]

/-- The oldest command of the group has been acknowledged: `near` falls by one, and no other counter. -/
theorem exec_nearAckCredit_credits {rest : List (Nat × Bool)} (oldest : vget (s.hartOf (.group k g)).ledger kNear [] = (id, false) :: rest)
    (later : ∀ e ∈ rest, e.1 ≠ id ∧ e.2 = false) : ∃ t, exec (.nearAckCredit k g) s = .next t ∧ (t.hartOf (.group k g)).near = cs
      ∧ (∀ c < 8, (t.hartOf (.group k g)).counter c + (if c = kNear then 1 else 0) = (s.hartOf (.group k g)).counter c) ∧ t = { s with harts := t.harts } := by
  refine ⟨_, exec_nearAckCredit_first first answered apart, ?_, fun c _ => ?_, rfl⟩
  · rw [State.hartOf_setHartOf]
    rfl
  · rw [State.hartOf_setHartOf]
    exact Hart.counter_complete_oldest (h := { s.hartOf (.group k g) with near := cs }) (by decide) oldest later c

end

/-! ## Poison and the error log (R214, R425) -/

theorem blocksIn_of_lt {size a n : Nat} (small : n < size) : blocksIn size a n = [] := by
  unfold blocksIn
  refine List.filter_eq_nil_iff.mpr fun g _ => ?_
  simp only [Bool.and_eq_true, decide_eq_true_eq, not_and, Nat.add_mul, Nat.one_mul]
  omega

/-- A write that covers no granule whole leaves the poison as it is (R214). -/
theorem State.physPoke_poisoned (s : State) (a : Nat) {bs : List Byte} (small : bs.length < 64) : (s.physPoke a bs).poisoned = s.poisoned := by
  unfold State.physPoke State.physWrite
  refine List.foldlRecOn (motive := fun u : State => u.poisoned = s.poisoned) _ _ rfl fun u same p _ => ?_
  cases homeKey p.1 with
  | none => exact same
  | some key =>
    have less : ((bs.drop (p.1 - a)).take p.2).length < 64 := by
      rw [List.length_take, List.length_drop]
      omega
    show poisonAfter u.poisoned 64 key _ false = _
    unfold poisonAfter
    rw [blocksIn_of_lt less, same]
    simp

theorem State.logError_poisoned (s : State) (kind : LogKind) (c : BitVec 7) (u a g : Nat) (x : Word64) :
    (s.logError kind c u a g x).poisoned = s.poisoned := by
  unfold State.logError
  dsimp only
  split
  · rfl
  · exact State.physPoke_poisoned _ _ (by simp [logBytes])

theorem mem_insertNew {α : Type} [DecidableEq α] {x y : α} {xs : List α} : y ∈ insertNew x xs ↔ y = x ∨ y ∈ xs := by
  unfold insertNew
  split
  · next there => exact ⟨.inr, fun h => h.elim (fun same => same ▸ there) id⟩
  · exact List.mem_cons

/-- The state in which a granule of the banks is poisoned. -/
def State.withPoison (s : State) (n : Nat) : State := { s with poisoned := insertNew n s.poisoned }

/-- A granule whose data is lost is poisoned, and logged; no other loses its poison (R214). -/
theorem State.exec_uncorrectableError_granule (s : State) (addr : Nat) : ∃ t, exec (.uncorrectableError none addr) s = .next t
    ∧ addr / 64 ∈ t.poisoned ∧ (∀ x ∈ s.poisoned, x ∈ t.poisoned) ∧ Logged s t 2 0x0B (addr / bankSize) (BitVec.ofNat 64 addr)
    ∧ t.teams = s.teams ∧ t.harts = s.harts := by
  have event : exec (.uncorrectableError none addr) s
      = .next ((s.withPoison (addr / 64)).logError .poison Cause.poison.code (addr / bankSize) 0 0 (BitVec.ofNat 64 addr)) := rfl
  generalize addr / 64 = n at *
  generalize addr / bankSize = u at *
  have wrote := (s.withPoison n).logError_wrote .poison Cause.poison.code u 0 0 (BitVec.ofNat 64 addr)
  refine ⟨_, event, ?_, fun x mem => ?_, (s.withPoison n).logError_logged .poison Cause.poison.code u 0 0 (BitVec.ofNat 64 addr), wrote.teams_eq,
    wrote.harts_eq⟩
  · rw [State.logError_poisoned]
    exact mem_insertNew.mpr (.inl rfl)
  · rw [State.logError_poisoned]
    exact mem_insertNew.mpr (.inr mem)

/-! ## Bad data in an allocation (R203, R208) -/

/-- A core without the puts that it holds for a tile. -/
def Core.withoutPuts (c : Core) (k n : Nat) : Core := { c with hold := c.hold.filter fun h => !(h.team == k && h.tile == n) }

section
variable (s : State) (k n : Nat)

theorem State.discardTile_told : (s.setCoreOf (s.teamOf k).core ((s.coreOf (s.teamOf k).core).withoutPuts k n)).Told (s.discardTile k n) :=
  .foldl (fun _ _ => (State.logError_wrote _ _ _ _ _ _ _).told.trans (State.putDone_told _ _ _ _)) _ _

/-- The state in which a tile is POISON and its held puts are discarded; its waiters are still to wake. -/
theorem State.poisonTile_told : ((s.setTagOf k n .poison).setCoreOf (s.teamOf k).core ((s.coreOf (s.teamOf k).core).withoutPuts k n)).Told
    (s.poisonTile k n) := by
  have discarded := (s.setTagOf k n .poison).discardTile_told k n
  have core : ((s.setTagOf k n .poison).teamOf k).core = (s.teamOf k).core := by
    rw [State.setTagOf, State.teamOf_setTeamOf]
    rfl
  rw [core] at discarded
  exact discarded.trans (State.wakeAll_told k _ _ _)

theorem State.poisonTile_tileWaiters : (s.poisonTile k n).tileWaiters k n = [] := State.wakeAll_tileWaiters k _ _ n

theorem State.poisonTile_teamOf : (s.poisonTile k n).teamOf k = (s.teamOf k).setTag n .poison :=
  ((s.poisonTile_told k n).teamOf_eq k).trans (s.teamOf_setTeamOf k _)

theorem State.poisonTile_teamOf_ne {j : Nat} (ne : j ≠ k) : (s.poisonTile k n).teamOf j = s.teamOf j :=
  ((s.poisonTile_told k n).teamOf_eq j).trans (s.teamOf_setTeamOf_ne ne _)

theorem State.poisonTile_coreOf : (s.poisonTile k n).coreOf (s.teamOf k).core = (s.coreOf (s.teamOf k).core).withoutPuts k n :=
  ((s.poisonTile_told k n).coreOf_eq _).trans (State.coreOf_setCoreOf _ _ _)

end

theorem Core.withoutPuts_hold {c : Core} {k n : Nat} {h : Held} (mem : h ∈ (c.withoutPuts k n).hold) : ¬ (h.team = k ∧ h.tile = n) := by
  have stays := (List.mem_filter.mp mem).2
  rintro ⟨team, tile⟩
  simp [team, tile] at stays

/-- The state in which a word of an allocation is marked. -/
def State.withMark (s : State) (k w : Nat) : State := s.setTeamOf k { s.teamOf k with marks := insertNew w (s.teamOf k).marks }

theorem State.withMark_teamOf (s : State) (k w : Nat) : (s.withMark k w).teamOf k = { s.teamOf k with marks := insertNew w (s.teamOf k).marks } :=
  s.teamOf_setTeamOf k _

/-- A word of an allocation that is lost is marked, and its tile is POISON: nobody waits for it, and no put is held for it (R203, R208). -/
theorem State.exec_uncorrectableError_word (s : State) (k addr : Nat) : ∃ t, exec (.uncorrectableError (some k) addr) s = .next t
    ∧ addr / 8 ∈ (t.teamOf k).marks ∧ (t.teamOf k).tag (addr / 256) = .poison ∧ (t.teamOf k).mem = (s.teamOf k).mem ∧ t.tileWaiters k (addr / 256) = []
    ∧ (∀ x ∈ (t.coreOf (s.teamOf k).core).hold, ¬ (x.team = k ∧ x.tile = addr / 256)) ∧ ∀ x, x ≠ k → t.teamOf x = s.teamOf x := by
  have event : exec (.uncorrectableError (some k) addr) s = .next (((s.withMark k (addr / 8)).poisonTile k (addr / 256)).logError .poison
      Cause.poison.code (s.teamOf k).core (s.teamOf k).asid 0 (BitVec.ofNat 64 addr)) := rfl
  generalize addr / 8 = w at *
  generalize addr / 256 = n at *
  have team := (s.withMark k w).poisonTile_teamOf k n
  have core := (s.withMark k w).poisonTile_coreOf k n
  rw [State.withMark_teamOf] at team core
  have wrote := ((s.withMark k w).poisonTile k n).logError_wrote .poison Cause.poison.code (s.teamOf k).core (s.teamOf k).asid 0 (BitVec.ofNat 64 addr)
  refine ⟨_, event, ?_, ?_, ?_, ?_, fun x mem => ?_, fun x ne => ?_⟩
  · rw [wrote.teamOf_eq, team]
    exact mem_insertNew.mpr (.inl rfl)
  · rw [wrote.teamOf_eq, team, Team.tag_setTag]
  · rw [wrote.teamOf_eq, team]
    rfl
  · rw [State.tileWaiters_of_harts_eq wrote.harts_eq, State.poisonTile_tileWaiters]
  · rw [wrote.told.coreOf_eq, core] at mem
    exact Core.withoutPuts_hold mem
  · rw [wrote.teamOf_eq, State.poisonTile_teamOf_ne _ _ _ ne]
    exact s.teamOf_setTeamOf_ne ne _

/-! ## Corrected errors (R375, R425) -/

section
variable {s : State} {unit : Nat} (addr : Nat)

/-- A corrected error that is the first of its unit, or that comes late, has an entry of its own. -/
theorem exec_correctedError_new (alone : s.correctedEntry unit = none ∨ s.oracle = []) :
    exec (.correctedError unit addr) s = .next (s.logError .corrected 0 unit 0 0 (BitVec.ofNat 64 addr)) := by
  show execCorrectedError unit addr s = _
  unfold execCorrectedError
  dsimp only
  cases entry : s.correctedEntry unit with
  | none => rfl
  | some n =>
    have none_ : s.oracle = [] := alone.resolve_left (by rw [entry]; exact Option.some_ne_none n)
    rw [State.choice_of_no_choices none_, State.chosen_of_no_choices none_]

/-- A corrected error soon after another of its unit counts in that one's entry. -/
theorem exec_correctedError_again {n x : Nat} {rest : List Nat} (entry : s.correctedEntry unit = some n) (soon : s.oracle = (x + 1) :: rest) :
    ∃ t, exec (.correctedError unit addr) s = .next t ∧ t.service = { s.service with log := modifyAt raiseCount n s.service.log } := by
  have choice : s.choice = x + 1 := by rw [State.choice, soon, List.headD_cons]
  show ∃ t, execCorrectedError unit addr s = .next t ∧ _
  unfold execCorrectedError
  simp only [entry, choice]
  split
  · exact ⟨_, rfl, rfl⟩
  · refine ⟨_, rfl, ?_⟩
    rw [State.physPoke_rest]
    rfl

end

end Sys2Proof.Machine
end

