-- ==== Sys2Proof/Proofs/PortEvents.lean ====
section
/-! PROOFS. The events of ports and memory, assembled: puts, the replay of a ring that has paused (R437), refusals (R205, R361), L1 lines (R255), near-memory commands and memory errors. -/

namespace Sys2Proof.Machine
open Sys2Proof.Claims

/-! ## A replay goes on (R437) -/

section
variable {s : State} {k : Nat}

theorem exec_pausedPutRetry {b : Bounced} (live : (s.teamOf k).live = true) (present : (s.teamOf k).absent = false)
    (one : (s.teamOf k).bounced = [b]) : exec (.pausedPutRetry k) s = .next (s.replayRing k) := by
  show execPausedPutRetry k s = _
  unfold execPausedPutRetry
  simp [live, present, one]

/-- The state once a replay has gone as far as it goes: the team's entry at its own core stays absent while packets are left. -/
def State.replayed (s : State) (k : Nat) : State :=
  (s.setTeamOf k { s.teamOf k with ringPaused := !(s.teamOf k).bounced.isEmpty }).mapEntries k fun c e =>
    if c = (s.teamOf k).core then { e with absent := e.absent && !(s.teamOf k).bounced.isEmpty } else e

theorem State.replayRing_eq (s : State) (k : Nat) : s.replayRing k = (s.drainRing k (s.teamOf k).bounced.length).replayed k := rfl

theorem State.replayed_teamOf (s : State) (k : Nat) :
    (s.replayed k).teamOf k = { s.teamOf k with ringPaused := !(s.teamOf k).bounced.isEmpty } := s.teamOf_setTeamOf k _

theorem mget_map_entries {κ α : Type} [DecidableEq κ] {d : α} {f : κ → α → α} {k : κ} (fixed : f k d = d) (m : List (κ × α)) :
    mget d k (m.map fun e => (e.1, f e.1 e.2)) = f k (mget d k m) := by
  induction m with
  | nil => exact fixed.symm
  | cons e m ih =>
    by_cases here : e.1 = k
    · subst here
      simp [mget]
    · simp [mget, here, ih]

/-- A core after a team's replay at its own core, where packets are left or not: only there the team's entries may stop being absent. -/
def Core.replayed (k own : Nat) (left : Bool) (core : Nat) (c : Core) : Core :=
  { c with ports := c.ports.map fun e => if e.valid && e.team == k then (if core = own then { e with absent := e.absent && left } else e) else e }

theorem State.replayed_coreOf (s : State) (k core : Nat) :
    (s.replayed k).coreOf core = (s.coreOf core).replayed k (s.teamOf k).core (!(s.teamOf k).bounced.isEmpty) core :=
  mget_map_entries (d := Core.reset) (f := Core.replayed k (s.teamOf k).core (!(s.teamOf k).bounced.isEmpty)) rfl s.cores

theorem Core.replayed_ports {c : Core} {own : Nat} {q : PortEntry} (mem : q ∈ (c.replayed k own false own).ports) (valid : q.valid = true)
    (his : q.team = k) : q.absent = false := by
  obtain ⟨old, -, rfl⟩ := List.mem_map.mp mem
  by_cases hit : (old.valid && old.team == k) = true
  · simp [hit]
  · rw [if_neg hit] at valid his
    simp [valid, his] at hit

/-- The put of a ring as its tile takes it; it has no sender to tell (R372). -/
def ringPut (b : Bounced) (k n : Nat) (data : List Byte) (marks : List Nat) : Held :=
  { team := k, tile := n, src := b.src, data := data, marks := marks, st := none, remote := none, control := 0 }

theorem State.replayOne_put {b : Bounced} {data : List Byte} {marks : List Nat} (put : b.op = .put data marks)
    (free : s.inFold (s.teamOf k).core k b.off 256 = false) :
    s.replayOne k b = s.applyPut tileConsistent k (b.off / 256) (ringPut b k (b.off / 256) data marks) := by
  unfold State.replayOne ringPut
  simp only [put, free, Bool.false_eq_true, if_false]

end

/-- One packet of a replay, from which the replay goes on as given (R437). -/
def State.drainStep (s : State) (k : Nat) (goOn : State → State) : State :=
  match (s.teamOf k).bounced, s.entryOf k with
  | b :: bs, some e =>
    match s.ringBlock e.asid e.ring.toNat with
    | none => s.checkRing k
    | some (size, head, _) =>
      let tail := match bs with | c :: _ => c.pos | [] => head
      if !s.flitsReadable e size b.pos tail then s.logRing k e.asid e.ring
      else match (s.setTeamOf k { s.teamOf k with bounced := bs }).replayOne k b with
      | none => s
      | some u => match u.vwrite e.asid true (e.ring.toNat + 16) (leBytes 8 tail) with
        | .ok v => goOn v
        | .error _ => s.logRing k e.asid e.ring
  | _, _ => s

theorem State.drainRing_succ (s : State) (k fuel : Nat) : s.drainRing k (fuel + 1) = s.drainStep k fun v => v.drainRing k fuel := by
  rfl

section
variable {s : State} {k : Nat} {b : Bounced} {e : PortEntry} {size head tail : Nat} (one : (s.teamOf k).bounced = [b])
  (entry : s.entryOf k = some e) (ring : s.ringBlock e.asid e.ring.toNat = some (size, head, tail)) (readable : s.flitsReadable e size b.pos head = true)
include one entry ring readable

/-- The ring's one packet finds no room: the replay pauses again. -/
theorem State.replayRing_pauses (full : (s.setTeamOf k { s.teamOf k with bounced := [] }).replayOne k b = none) : s.replayRing k = s.replayed k := by
  rw [State.replayRing_eq, one, List.length_singleton, State.drainRing_succ, State.drainStep, one, entry]
  dsimp only
  rw [ring]
  dsimp only
  rw [readable, full]
  rfl

/-- The ring's one packet takes its effect, and the ring's tail moves to its head. -/
theorem State.replayRing_empties {v w : State} (goes : (s.setTeamOf k { s.teamOf k with bounced := [] }).replayOne k b = some v)
    (written : v.vwrite e.asid true (e.ring.toNat + 16) (leBytes 8 head) = .ok w) : s.replayRing k = w.replayed k := by
  rw [State.replayRing_eq, one, List.length_singleton, State.drainRing_succ, State.drainStep, one, entry]
  dsimp only
  rw [ring]
  dsimp only
  rw [readable, goes]
  dsimp only
  rw [written]
  rfl

end

section
variable {s : State} {k n : Nat} {b : Bounced} {e : PortEntry} {size head tail : Nat} {data : List Byte} {marks : List Nat}
  (live : (s.teamOf k).live = true) (present : (s.teamOf k).absent = false) (one : (s.teamOf k).bounced = [b]) (put : b.op = .put data marks)
  (entry : s.entryOf k = some e) (free : s.inFold (s.teamOf k).core k b.off 256 = false) (tile : b.off / 256 = n)
  (ring : s.ringBlock e.asid e.ring.toNat = some (size, head, tail)) (readable : s.flitsReadable e size b.pos head = true)

include put free tile in
/-- The team's replay of a put, once the put has left the ring. -/
theorem State.replayOne_ringPut : (s.setTeamOf k { s.teamOf k with bounced := [] }).replayOne k b
    = (s.setTeamOf k { s.teamOf k with bounced := [] }).applyPut tileConsistent k n (ringPut b k n data marks) := by
  subst tile
  exact State.replayOne_put put (by rw [State.teamOf_setTeamOf]; exact free)

include live present one put entry free tile ring readable

/-- A put whose tile is FULL, with the core's hold buffer full, makes the replay pause again. -/
theorem exec_pausedPutRetry_pauses (full : (s.teamOf k).tag n = .full) (held : 16 ≤ (s.coreOf (s.teamOf k).core).hold.length) :
    ∃ t, exec (.pausedPutRetry k) s = .next t ∧ (t.teamOf k).bounced = [b] ∧ (t.teamOf k).ringPaused = true ∧ (t.teamOf k).mem = (s.teamOf k).mem := by
  have stays := (State.replayOne_ringPut put free tile).trans (State.applyPut_no_room tileConsistent
    (by rw [State.tagOf, State.teamOf_setTeamOf]; exact full) (by rw [State.teamOf_setTeamOf]; exact held))
  refine ⟨_, exec_pausedPutRetry live present one, ?_⟩
  rw [State.replayRing_pauses one entry ring readable stays, State.replayed_teamOf]
  dsimp only
  rw [one]
  exact ⟨rfl, rfl, rfl⟩

/-- A put whose tile is EMPTY is written, and the team's ring, now empty, is at an end. -/
theorem exec_pausedPutRetry_empties {v w : State} (goes : (s.setTeamOf k { s.teamOf k with bounced := [] }).replayOne k b = some v)
    (written : v.vwrite e.asid true (e.ring.toNat + 16) (leBytes 8 head) = .ok w) (empty : (s.teamOf k).tag n = .empty) (clean : marks = [])
    (length : data.length = 256) (none_ : s.tileWaiters k n = []) (quiet : (s.teamOf k).syncs = []) (wf : (s.teamOf k).mem.wf = true) :
    ∃ t, exec (.pausedPutRetry k) s = .next t ∧ (t.teamOf k).bounced = [] ∧ (t.teamOf k).ringPaused = false ∧ s.Filled v k n data
      ∧ (t.teamOf k).mem = (w.teamOf k).mem ∧ (t.teamOf k).tags = (w.teamOf k).tags
      ∧ ∀ q ∈ (t.coreOf (s.teamOf k).core).ports, q.valid = true → q.team = k → q.absent = false := by
  have applies := (State.replayOne_ringPut put free tile).trans (State.applyPut_empty tileConsistent
    (by rw [State.tagOf, State.teamOf_setTeamOf]; exact empty) clean ((State.tileWaiters_of_harts_eq rfl k n).trans none_))
  obtain rfl := Option.some.inj (goes.symm.trans applies)
  have filled := (s.setTeamOf k { s.teamOf k with bounced := [] }).putWritten_filled k n (ringPut b k n data marks) length
    (by rw [State.teamOf_setTeamOf]; exact quiet) (by rw [State.teamOf_setTeamOf]; exact wf)
  have team := (State.vwrite_wrote written).teamOf_eq k
  rw [State.putWritten_teamOf, State.teamOf_setTeamOf] at team
  have none_left : (w.teamOf k).bounced = [] := by rw [team]; rfl
  have core : (w.teamOf k).core = (s.teamOf k).core := by rw [team]; rfl
  refine ⟨_, exec_pausedPutRetry live present one, ?_⟩
  rw [State.replayRing_empties one entry ring readable goes written, State.replayed_teamOf, ← core]
  refine ⟨none_left, ?_, filled.of_setTeamOf rfl rfl, rfl, rfl, fun q mem => ?_⟩
  · dsimp only
    rw [none_left]
    rfl
  · rw [State.replayed_coreOf, none_left] at mem
    exact Core.replayed_ports mem

end

/-! ## Refusals and L1 lines (R205, R255, R361) -/

theorem exec_asyncRefusalArrive {s : State} {i k g j : Nat} {c : Cause} {va : Word64} {r : Bool}
    (found : s.net[i]? = some ⟨.group k g, j, .refusal c va, r⟩) :
    exec (.asyncRefusalArrive i) s = .next ((s.dropMsg i).addCause k g ⟨c, mark63 va, none⟩) := by
  show execAsyncRefusalArrive i s = _
  unfold execAsyncRefusalArrive
  rw [found]

theorem State.dropLine_coreOf (s : State) (j key x : Nat) : (s.dropLine j key).coreOf x
    = { s.coreOf x with l1 := if x = j then (s.coreOf j).l1.filter (fun e => e.1 != key) else (s.coreOf x).l1 } := by
  by_cases here : x = j
  · subst here
    rw [if_pos rfl]
    exact s.coreOf_setCoreOf x _
  · rw [if_neg here]
    exact s.coreOf_setCoreOf_ne here _

end Sys2Proof.Machine

namespace Sys2Proof.Claims
open Sys2Proof.Machine

/-- Settles O48: a delivered put goes one of the ways that its entry and its tile give it, a ring of one packet replays or pauses, and each event of
near memory and of errors has its own lemma. -/
theorem portAndMemoryEventResults : Obligations.PortAndMemoryEventResults := by
  intro s i k g j key off asid addr ctl m va data marks st remote e a nat c b
  dsimp only
  refine ⟨fun ev mem front body refused => ⟨fun stray => ⟨fun q r sender => ?strayGroup, fun p there other => ?strayRemote⟩,
      fun entry absent => ⟨fun full => ?ringFull, fun taken => ?ringTaken⟩,
      fun entry present free own => ⟨fun empty clean length none_ quiet wf => ?written, fun full room => ?held, fun full held => ?kept,
        fun poison => ?discarded⟩⟩,
    fun live present one put entry free size head tail ring readable => ⟨fun full held => ?pauses,
      fun v w goes written empty clean length none_ quiet wf => ?empties⟩,
    fun r found live space => ?refusal, ?line,
    fun x bound id r rest ty plain first stored choices landed => ⟨fun clean wf => ?applied, fun poisoned => ?lost⟩,
    fun id cs rest first answered oldest later apart => ?credit, ?granule, ?word, fun alone => ?single, fun n x rest entry soon => ?counted⟩
  case strayGroup => exact exec_put_stray_group mem front body refused stray sender
  case strayRemote => exact exec_put_stray_remote mem front body refused stray there other
  case ringFull => exact exec_put_ring_full mem front body refused entry rfl rfl absent rfl full
  case ringTaken => exact exec_put_ring_taken mem front body refused entry rfl rfl absent rfl (Prod.ext rfl taken)
  case written => exact exec_put_written mem front body refused entry rfl rfl present free empty clean length none_ quiet wf
  case held => exact exec_put_held mem front body refused entry rfl rfl present free own full room
  case kept => exact exec_put_kept mem front body refused entry rfl rfl present free own full held
  case discarded => exact own ▸ exec_put_discarded mem front body refused entry rfl rfl present free poison
  case pauses => exact exec_pausedPutRetry_pauses live present one put entry free rfl ring readable full held
  case empties =>
    exact exec_pausedPutRetry_empties live present one put entry free rfl ring readable goes written empty clean length none_ quiet wf
  case refusal =>
    refine ⟨_, exec_asyncRefusalArrive found, ?_⟩
    rw [State.addCause_live (s.dropMsg i) k g ⟨c, mark63 va, none⟩ live space]
    exact ⟨rfl, (s.dropMsg i).hartOf_setHartOf _ _, rfl, rfl⟩
  case line =>
    refine ⟨s.dropLine j key, rfl, fun x => ?_, rfl, fun x => ?_⟩
    · rw [State.dropLine_coreOf, if_pos rfl, List.mem_filter, bne_iff_ne]
    · rw [State.dropLine_coreOf]
  case applied => exact exec_nearCommandApply_applied first stored choices ty landed plain clean wf
  case lost => exact exec_nearCommandApply_lost first stored choices ty poisoned
  case credit => exact exec_nearAckCredit_credits first answered apart oldest later
  case granule => exact s.exec_uncorrectableError_granule addr
  case word => exact s.exec_uncorrectableError_word k addr
  case single =>
    exact ⟨_, exec_correctedError_new addr alone, s.logError_logged .corrected 0 j 0 0 _, (s.logError_wrote _ _ _ _ _ _).teams_eq,
      (s.logError_wrote _ _ _ _ _ _).harts_eq⟩
  case counted =>
    obtain ⟨t, next, service⟩ := exec_correctedError_again addr entry soon
    refine ⟨t, next, ?_⟩
    rw [service]
    refine ⟨rfl, length_modifyAt _ _ _, fun y there => ?_, fun q ne => ?_⟩
    · rw [modifyAt_getElem?, if_pos rfl, there]
      rfl
    · rw [modifyAt_getElem?, if_neg ne]

end Sys2Proof.Claims
end

