-- ==== Sys2Proof/Proofs/Fences.lean ====
section
/-! PROOFS. FENCE (R226) and the cache instructions (R247 to R249): what the core's L1 keeps, and the lines that a maintenance instruction sends to the store queue. -/

namespace Sys2Proof.Machine
open Sys2Proof.Claims

/-- A core whose L1 keeps the lines that a test keeps. -/
def State.keepL1 (s : State) (core : Nat) (keep : Nat × List Byte → Bool) : State :=
  s.setCoreOf core { s.coreOf core with l1 := (s.coreOf core).l1.filter keep }

theorem State.dropL1_eq {s : State} (group : s.onBank = false) : s.dropL1 = s.keepL1 s.team.core fun _ => false := by
  rw [State.dropL1, group, State.keepL1, List.filter_false]
  rfl

/-- An acquire empties the core's L1 from `.die` outward (R255). -/
theorem State.acquire_eq {s : State} (group : s.onBank = false) (sc : Scope) :
    s.acquire sc = if sc = .die ∨ sc = .dev ∨ sc = .sys then s.keepL1 s.team.core fun _ => false else s := by
  rw [State.acquire, State.dropL1_eq group]
  exact if_congr (by rw [wide_eq]; simp [or_assoc]) rfl rfl

/-- A state whose caches have moved retires an instruction without a result. -/
theorem State.CachesMoved.retire {s u : State} (moved : s.CachesMoved u) (n : Nat) : PathDone s (u.retire n Latch.none) n Latch.none
    ∧ (u.retire n Latch.none).hart.s = s.hart.s ∧ (u.retire n Latch.none).hart.v = s.hart.v ∧ SameRegs s (u.retire n Latch.none)
    ∧ OnlyHartAndCaches s (u.retire n Latch.none) := by
  obtain ⟨path, scalars, vectors, -, -, regs, only⟩ := u.retire_passed n
  unfold SameRegs at *
  rw [moved.hart_eq] at scalars vectors regs
  exact ⟨pathDone_of_paths path (fun p => by rw [moved.hart_eq]) moved.cur_eq, scalars, vectors, regs, moved.onlyHartAndCaches only⟩

section
variable {s : State} {a : Src} {dc : Bool} {l : MemM} {base : Word64}

theorem exec_fence_drained {sc : Scope} (drained : s.drained sc = .ok ()) : exec (.fence sc) s = .next ((s.acquire sc).retire 1 Latch.none) := by
  have arm : exec (.fence sc) s = execFence sc s := rfl
  rw [arm, execFence, drained]
  rfl

theorem exec_fence_stalls {sc : Scope} (group : s.onBank = false) (busy : s.quiet sc = false) : exec (.fence sc) s = .next s.stallPath := by
  have arm : exec (.fence sc) s = execFence sc s := rfl
  rw [arm, execFence, State.drained, group, busy]
  rfl

/-- PREF moves nothing but caches (R248). -/
theorem exec_pref (operand : s.opnd a = .ok base) : ∃ u, exec (.pref a dc l) s = .next (u.retire 2 Latch.none) ∧ s.CachesMoved u := by
  have arm : exec (.pref a dc l) s = execPref a dc l s := rfl
  rw [arm, execPref, operand]
  refine ⟨_, rfl, ?_⟩
  split
  · exact .refl s
  · split
    · exact s.touch_cachesMoved _
    · exact .refl s

theorem exec_cinv_none (home : s.homeLine a l = .ok none) : exec (.cinv a false l) s = .next (s.retire 2 Latch.none) := by
  have arm : exec (.cinv a false l) s = execCinv a false l s := rfl
  rw [arm, execCinv, home]
  rfl

theorem exec_cinv_line {n : Nat} (home : s.homeLine a l = .ok (some n)) :
    exec (.cinv a false l) s = .next ((s.keepL1 s.team.core fun e => e.1 != n).retire 2 Latch.none) := by
  have arm : exec (.cinv a false l) s = execCinv a false l s := rfl
  rw [arm, execCinv, home]
  rfl

theorem State.maintain_none (op : Nat → SQOp) (home : s.homeLine a l = .ok none) : s.maintain a l op = .next (s.retire 2 Latch.none) := by
  rw [State.maintain, home]
  rfl

/-- A line at home enters the store queue (R249). -/
theorem State.maintain_enters {op : Nat → SQOp} {n : Nat} (home : s.homeLine a l = .ok (some n)) (room : Room s (op n) true false false) :
    ∃ t, s.maintain a l op = .next t ∧ Enters s t (op n) true false false .grp 2 := by
  obtain ⟨u, issued, enters⟩ := State.issue_enters (sc := .grp) (n := 2) room
  refine ⟨_, ?_, enters⟩
  rw [State.maintain, home]
  simp only [bind, Except.bind, issued]
  rfl

end

end Sys2Proof.Machine

namespace Sys2Proof.Claims
open Sys2Proof.Machine

/-- Settles O27: a fence is an acquire once its scope is drained, and a maintenance instruction drops the core's line or issues the line at home. -/
theorem fenceAndCacheInstructionResults : Obligations.FenceAndCacheInstructionResults := by
  intro s sc a dc l base group operand core without
  refine ⟨fun drained => ⟨_, exec_fence_drained drained, ?_⟩, fun busy => ⟨_, exec_fence_stalls group busy, rfl⟩, ?_, ?_, fun home i mem => ?_, fun n home => ?_⟩
  · rw [State.acquire_eq group]
    exact State.retire_passed _ 1
  · obtain ⟨u, next, moved⟩ := exec_pref (dc := dc) (l := l) operand
    exact ⟨_, next, moved.retire 2⟩
  · exact ⟨_, rfl, State.dropL1_eq group ▸ State.retire_passed _ 2⟩
  · refine ⟨_, ?_, s.retire_passed 2⟩
    simp only [List.mem_cons, List.not_mem_nil, or_false] at mem
    rcases mem with rfl | rfl | rfl
    · exact exec_cinv_none home
    · exact State.maintain_none _ home
    · exact State.maintain_none _ home
  · exact ⟨⟨_, exec_cinv_line home, State.retire_passed _ 2⟩, State.maintain_enters home, State.maintain_enters home⟩

end Sys2Proof.Claims
end

