-- ==== Sys2Proof/Proofs/ScalarStores.lean ====
section
/-! PROOFS. Scalar stores (R197, R224, R250, R261, R300): the operation that enters the store queue, what a start adds to it, the bytes that reach a bank, and what a load of the group finds before its store is performed (R22). -/

namespace Sys2Proof.Machine
open Sys2Proof.Claims

/-! ## A store of bytes at one place -/

/-- The operation of a store of bytes at one place: a release at `.grp` that leaves the device is an ordered flag (R402). -/
def storeOp (t : Tgt) (va : Word64) (size : Nat) (bs : List Byte) (release : Bool) (sc : Scope) : SQOp :=
  if t.isRemote && (release && sc == .grp) then .flag (cellsAt t bs) va else .bytes (cellsAt t bs) va size

theorem cellsAt_isEmpty {t : Tgt} {bs : List Byte} (some_ : bs ≠ []) : (cellsAt t bs).isEmpty = false := by
  obtain ⟨b, bs, rfl⟩ := List.exists_cons_of_ne_nil some_
  rw [cellsAt, List.length_cons, List.range_succ_eq_map]
  rfl

section
variable {s : State} {va : Word64} {size : Nat} {p : Place} {bs : List Byte} {release : Bool} {sc : Scope}

/-- Bytes at one place are one operation: all of them lie on this device, or none does. -/
theorem State.storeBytes_one (group : s.onBank = false) (some_ : bs ≠ []) : s.storeBytes va size [(p, bs)] release sc
    = s.issue (storeOp p.tgt va size bs release sc) (!p.tgt.isRemote) p.tgt.isRemote release sc := by
  have side {c : Tgt × Byte} (mem : c ∈ cellsAt p.tgt bs) : c.1.isRemote = p.tgt.isRemote := congrArg Option.isSome (cellsAt_device mem)
  have run : s.storeBytes va size [(p, bs)] release sc = (do
      let s ← if ((cellsAt p.tgt bs).filter fun c => !c.1.isRemote).isEmpty then .ok s
        else s.issue (.bytes ((cellsAt p.tgt bs).filter fun c => !c.1.isRemote) va size) true false release sc
      if ((cellsAt p.tgt bs).filter fun c => c.1.isRemote).isEmpty then .ok s
      else s.issue (if release && sc == .grp then .flag ((cellsAt p.tgt bs).filter fun c => c.1.isRemote) va
        else .bytes ((cellsAt p.tgt bs).filter fun c => c.1.isRemote) va size) false true release sc) := by
    rw [State.storeBytes, group, List.flatMap_cons, List.flatMap_nil, List.append_nil]
    rfl
  rw [run, storeOp]
  cases remote : p.tgt.isRemote with
  | false =>
    have near : (cellsAt p.tgt bs).filter (fun c => !c.1.isRemote) = cellsAt p.tgt bs :=
      List.filter_eq_self.mpr fun c mem => by rw [side mem, remote]; rfl
    have away : (cellsAt p.tgt bs).filter (fun c => c.1.isRemote) = [] :=
      List.filter_eq_nil_iff.mpr fun c mem => by rw [side mem, remote]; decide
    rw [near, away, cellsAt_isEmpty some_]
    simp only [Bool.false_eq_true, if_false, Bool.false_and, Bool.not_false]
    cases s.issue (.bytes (cellsAt p.tgt bs) va size) true false release sc <;> rfl
  | true =>
    have near : (cellsAt p.tgt bs).filter (fun c => !c.1.isRemote) = [] :=
      List.filter_eq_nil_iff.mpr fun c mem => by rw [side mem, remote]; decide
    have away : (cellsAt p.tgt bs).filter (fun c => c.1.isRemote) = cellsAt p.tgt bs :=
      List.filter_eq_self.mpr fun c mem => (side mem).trans remote
    rw [near, away, cellsAt_isEmpty some_]
    rfl

/-- A store of bytes at one place for which there is room enters the queue. -/
theorem State.storeBytes_enters (group : s.onBank = false) (some_ : bs ≠ [])
    (room : Room s (storeOp p.tgt va size bs release sc) (!p.tgt.isRemote) p.tgt.isRemote release) {n : Nat} :
    ∃ u, s.storeBytes va size [(p, bs)] release sc = .ok u
      ∧ Enters s (u.retire n Latch.none) (storeOp p.tgt va size bs release sc) (!p.tgt.isRemote) p.tgt.isRemote release sc n := by
  rw [State.storeBytes_one group some_]
  exact State.issue_enters room

end

/-! ## A scalar store (R78, R224) -/

/-- A start counts on `copy` too (R261). -/
def SQOp.starts : SQOp → Bool
  | .copyStart _ _ => true
  | _ => false

/-- An entry whose operation counts on `copy` as well. -/
theorem enters_raise_copy {s t : State} {op : SQOp} {st fab release : Bool} {sc : Scope} {n : Nat} (h : Enters s t op st fab release sc n) (id : Nat) :
    Enters s (t.setHart (t.hart.raiseCtr kCopy id)) op st fab release sc n true := by
  obtain ⟨e, hop, number, hrelease, scope, hst, hfab, queued, counters, near, path, only, fields⟩ := h
  refine ⟨e, hop, number, hrelease, scope, hst, hfab, ?queued, fun k hk => ?counters, ?near, ?path, ?only, ?fields⟩
  case queued =>
    rw [State.hart_setHart]
    exact queued
  case counters =>
    rw [State.hart_setHart, Hart.counter_raiseCtr _ (by decide), counters k hk]
    have apart : kCopy ≠ kSt ∧ kCopy ≠ kFab := by decide
    by_cases copy : k = kCopy
    · subst copy
      simp [apart.1, apart.2]
    · simp [copy]
  case near =>
    rw [State.hart_setHart]
    exact near
  case path =>
    have paths : (t.setHart (t.hart.raiseCtr kCopy id)).path = t.path := by
      rw [State.path, State.hart_setHart]
      rfl
    obtain ⟨latches, next, lanes, emask, fmt, active, susp, other⟩ := path
    rw [← paths] at latches lanes emask fmt active susp
    refine ⟨latches, ?_, lanes, emask, fmt, active, susp, ?_⟩
    · rw [paths]
      exact next
    · rw [State.hart_setHart]
      exact other
  case only => exact onlyHart_trans only (t.setHart_onlyHart _)
  case fields =>
    rw [State.hart_setHart]
    generalize t.hart = h at fields ⊢
    rw [fields]
    rfl

section
variable {s : State} {va x : Word64} {n : Nat} {op : SQOp} {release : Bool} {sc : Scope}

/-- An aperture store enters the queue, and a start raises `copy` (R261). -/
theorem State.store_aperture_enters (checks : s.apertureStore va n x = .ok op) (below : s.hart.counter kCopy < 65535)
    (room : Room s op true false release) :
    ∃ u, s.store .ap va n x release sc true = .ok u ∧ Enters s (u.retire 2 Latch.none) op true false release sc 2 op.starts := by
  obtain ⟨u, issued, enters⟩ := State.issue_enters (sc := sc) (n := 2) room
  have run : s.store .ap va n x release sc true = (do
      let u ← s.issue op true false release sc
      match op with
      | .copyStart _ _ => if 65535 ≤ u.hart.counter kCopy then .error .stall else return u.setHart (u.hart.raiseCtr kCopy s.hart.nextOp)
      | _ => return u) := by
    rw [State.store, checks]
    rfl
  rw [run, issued]
  cases op with
  | copyStart chan data =>
    have copy : u.hart.counter kCopy = s.hart.counter kCopy := by
      obtain ⟨-, -, -, -, -, -, -, -, counters, -⟩ := enters
      have counted := counters kCopy (by decide)
      rw [if_neg (by decide), State.retire_hart] at counted
      cases slot : u.cur.path <;> rw [slot] at counted <;> exact counted
    refine ⟨u.setHart (u.hart.raiseCtr kCopy s.hart.nextOp), if_neg (by rw [copy]; omega), ?_⟩
    have same : (u.setHart (u.hart.raiseCtr kCopy s.hart.nextOp)).retire 2 Latch.none
        = (u.retire 2 Latch.none).setHart ((u.retire 2 Latch.none).hart.raiseCtr kCopy s.hart.nextOp) := by
      rw [State.retire_hart]
      rw [State.retire, State.path, State.hart_setHart, State.setHart_setHart, State.retire, State.setHart_setHart]
      cases slot : u.cur.path <;> simp only [State.setHart_cur, slot, State.path] <;> rfl
    rw [same]
    exact enters_raise_copy enters _
  | _ => exact ⟨u, rfl, enters⟩

end

theorem leBytes_tyBytes_ne_nil (t : IntTy) (x : Nat) : leBytes (tyBytes t) x ≠ [] :=
  List.ne_nil_of_length_pos (by rw [leBytes_length]; exact Nat.two_pow_pos _)

section
variable {s u : State} {a b : Src} {t : IntTy} {sp : Space} {off base x va : Word64} {rel : Option Scope} {w : Where}

theorem State.storeS_eq (ha : s.opnd a = .ok base) (hb : s.opnd b = .ok x) (form : s.form sp base off = .ok va)
    (find : s.find aStore .all va (tyBytes t) (tyBytes t) x = .ok w)
    (store : s.store w va (tyBytes t) x rel.isSome (rel.getD .grp) true = .ok u) : s.storeS a b t sp off rel = .next (u.retire 2 Latch.none) := by
  rw [State.storeS]
  simp only [ha, hb, form, find, store, bind, Except.bind]
  rfl

end

/-! ## What the group reads of its own store (R22, R250) -/

/-- The cell that an entry writes last at a target. -/
def SQEntry.cellAt (e : SQEntry) (t : Tgt) : Option (Tgt × Byte) :=
  (match e.op with | .bytes cs _ _ => cs | .flag cs _ => cs | _ => []).reverse.find? fun c => c.1 == t

/-- The youngest of two writes of a byte. -/
def SQEntry.younger (t : Tgt) (best : Option (Nat × Byte)) (e : SQEntry) : Option (Nat × Byte) :=
  match e.cellAt t with
  | none => best
  | some c => match best with
    | some (i, b) => if i ≤ e.id then some (e.id, c.2) else some (i, b)
    | none => some (e.id, c.2)

theorem forward_eq_foldl (es : List SQEntry) (t : Tgt) : forward es t = (es.foldl (SQEntry.younger t) none).map (·.2) := rfl

theorem SQEntry.younger_le {t : Tgt} {best : Option (Nat × Byte)} {e : SQEntry} {n : Nat} (before : ∀ y, best = some y → y.1 ≤ n) (le : e.id ≤ n) :
    ∀ y, e.younger t best = some y → y.1 ≤ n := by
  unfold SQEntry.younger
  intro y
  split
  · exact before y
  · split
    · split
      · rintro ⟨⟩
        exact le
      · exact before y
    · rintro ⟨⟩
      exact le

/-- The youngest entry decides where it writes the byte. -/
theorem forward_append_youngest {es : List SQEntry} {e : SQEntry} {t : Tgt} {c : Tgt × Byte} (older : ∀ q ∈ es, q.id < e.id) (writes : e.cellAt t = some c) :
    forward (es ++ [e]) t = some c.2 := by
  have best : ∀ y, es.foldl (SQEntry.younger t) none = some y → y.1 ≤ e.id :=
    List.foldlRecOn (motive := fun best : Option (Nat × Byte) => ∀ y, best = some y → y.1 ≤ e.id) es _ nofun fun _ before q mem =>
      SQEntry.younger_le before (older q mem).le
  rw [forward_eq_foldl, List.foldl_append, List.foldl_cons, List.foldl_nil, SQEntry.younger, writes]
  cases first : es.foldl (SQEntry.younger t) none with
  | none => rfl
  | some y => exact congrArg (Option.map Prod.snd) (if_pos (best y first))

/-- The cell of a byte of an allocation among those of a store there. -/
theorem find_cellsAt_spad {k o i : Nat} {bs : List Byte} (hi : i < bs.length) :
    ∃ c, (cellsAt (.spad k o) bs).reverse.find? (fun c => c.1 == .spad k (o + i)) = some c ∧ c.2 = bs.getD i 0 := by
  cases found : (cellsAt (.spad k o) bs).reverse.find? (fun c => c.1 == .spad k (o + i)) with
  | none =>
    have there : (Tgt.spad k (o + i), bs.getD i 0) ∈ cellsAt (.spad k o) bs := List.mem_map.mpr ⟨i, List.mem_range.mpr hi, rfl⟩
    exact absurd (beq_self_eq_true _) (List.find?_eq_none.mp found _ (List.mem_reverse.mpr there))
  | some c =>
    refine ⟨c, rfl, ?_⟩
    obtain ⟨j, -, rfl⟩ := List.mem_map.mp (List.mem_reverse.mp (List.mem_of_find?_eq_some found))
    have hit := List.find?_some (p := fun c : Tgt × Byte => c.1 == .spad k (o + i)) found
    have same : Tgt.spad k (o + j) = .spad k (o + i) := eq_of_beq hit
    obtain rfl : j = i := Nat.add_left_cancel (Tgt.spad.inj same).2
    rfl

/-- Where every byte is forwarded, what is read does not matter. -/
theorem overlay_some {f : Nat → Option Byte} {bs old : List Byte} {n : Nat} (length : bs.length = n) (oldLength : old.length = n)
    (forwards : ∀ i < n, f i = some (bs.getD i 0)) : overlay ((List.range n).map f) old = bs := by
  refine List.ext_getElem (by simp [overlay, oldLength, length]) fun i hi hb => ?_
  have low : i < n := length ▸ hb
  simp [overlay, forwards i low, List.getElem?_eq_getElem hb]

section
variable {s : State} {k o n : Nat} {va : Word64} {bs : List Byte}

/-- A load of bytes of an allocation that the group's own stores forward. -/
theorem State.load_forwarded (group : s.onBank = false) (free : s.blocked s.hart (.spad k o) n = false) (unmarked : (s.teamOf k).markedAt o n = false)
    (length : bs.length = n) (forwards : ∀ i < n, forward s.hart.waiting (.spad k (o + i)) = some (bs.getD i 0)) :
    s.load (.mem ⟨.spad k o, false⟩) va n false = .ok bs := by
  have sound : ((blocksOf 8 o n).any fun w => decide (w ∈ (s.teamOf k).marks)
      && !(List.range 8).all fun i => (forward s.hart.waiting (.spad k (w * 8 + i))).isSome) = false := by
    rw [List.any_eq_false]
    intro w hw
    have := List.any_eq_false.mp unmarked w hw
    simp_all
  simp only [State.load, State.readAt, group, State.readGroup, free, sound, State.peek, Bool.false_eq_true, if_false]
  exact congrArg Except.ok (overlay_some length Mem.read_length forwards)

end

/-- An aligned access at a window-0xD address inside the own allocation goes where the allocation's rules say (R196). -/
theorem State.find_spad_of_locSpad {s : State} {k : AccKind} {e : Word64} {n : Nat} {p : Place} (group : s.onBank = false) (small : e.toNat < 2 ^ 20)
    (pow : n ∣ 2 ^ 52) (aligned : e.toNat % n = 0) (place : s.locSpad k (0x00D0000000000000 + e) e.toNat n = .ok p) :
    s.find k .all (0x00D0000000000000 + e) n n = .ok (.mem p) := by
  obtain ⟨win, toNat, low⟩ := spadAddress small
  have offset : (0x00D0000000000000 + e : Word64).toNat % 2 ^ 20 = e.toNat := by
    rw [toNat]
    omega
  have aligned : (0x00D0000000000000 + e : Word64).toNat % n = 0 := by
    rw [toNat, Nat.add_mod, aligned, Nat.add_zero, Nat.mod_mod]
    exact Nat.mod_eq_zero_of_dvd (dvd_mul_of_dvd_right pow 13)
  have located : s.locate k .all (0x00D0000000000000 + e) n n = .ok p := by
    simp only [State.locate, group, Bool.false_eq_true, if_false, win, Wins.ok, Bool.not_true, aligned, ne_eq, not_true_eq_false, low, bne_self_eq_false, offset]
    exact place
  rw [State.find, group, win, located]
  rfl

/-- The number in n bytes of a number is its remainder. -/
theorem leNat_leBytes_mod (n v : Nat) : leNat (leBytes n v) = v % 256 ^ n := by
  induction n generalizing v with
  | zero => rw [pow_zero, Nat.mod_one]; rfl
  | succ n ih =>
    rw [leBytes, leNat, ih, BitVec.toNat_ofNat, pow_succ' 256 n]
    exact (Nat.mod_mul (x := v) (a := 256) (b := 256 ^ n)).symm

/-- The number in the stored bytes, extended, is the operand's value by its type. -/
theorem extended_leNat_leBytes (t : IntTy) (x : Word64) : extended t (leNat (leBytes (tyBytes t) x.toNat)) = extended t (value t x) := by
  have width : 256 ^ tyBytes t = 2 ^ (8 * 2 ^ t.width.toNat) := by rw [show (256 : Nat) = 2 ^ 8 from rfl, ← pow_mul]; rfl
  have pattern : BitVec.ofInt (8 * 2 ^ t.width.toNat) (leNat (leBytes (tyBytes t) x.toNat)) = x.setWidth (8 * 2 ^ t.width.toNat) := by
    rw [leNat_leBytes_mod, width, BitVec.ofInt_natCast]
    exact BitVec.eq_of_toNat_eq (by simp)
  have value : BitVec.ofInt (8 * 2 ^ t.width.toNat) (value t x) = x.setWidth (8 * 2 ^ t.width.toNat) := by
    unfold Claims.value
    split
    · rw [BitVec.ofInt_natCast, BitVec.ofNat_toNat, BitVec.setWidth_eq]
    · exact BitVec.ofInt_toInt
  rw [extended, extended, pattern, value]

/-! ## What makes a load wait (R22) -/

/-- Does an entry hold an atomic to some of n bytes? -/
def SQEntry.atomicMeets (e : SQEntry) (t : Tgt) (n : Nat) : Bool :=
  match e.op with
  | .atomic es _ => es.any fun u => overlaps t n u.1 8
  | _ => false

/-- Does an entry hold a put to some of n bytes? -/
def SQEntry.putMeets (e : SQEntry) (t : Tgt) (n : Nat) : Bool :=
  match e.op with
  | .put u _ _ => overlaps t n u 256
  | _ => false

/-- A put is ahead in the group's queue, or on its way whatever the group is. -/
theorem State.putAhead_eq (s : State) (h : Hart) (t : Tgt) (n : Nat) :
    s.putAhead h t n = (h.sq.any (fun e => e.putMeets t n) || s.putAhead Hart.reset t n) := rfl

theorem State.blocked_spad (s : State) (h : Hart) (k o n : Nat) : s.blocked h (.spad k o) n
    = (h.sq.any (fun e => e.atomicMeets (.spad k o) n) || s.putAhead h (.spad k o) n
        || h.near.any fun c => c.elems.any fun u => overlaps (.spad k o) n u.1 8) := by
  have run : s.blocked h (.spad k o) n = (h.sq.any (fun e => e.atomicMeets (.spad k o) n) || s.putAhead h (.spad k o) n || false
      || (h.near.any fun c => c.elems.any fun u => overlaps (.spad k o) n u.1 8) || false) := rfl
  rw [run, Bool.or_false, Bool.or_false]

section
variable {s u : State} {x : Word64} {t : IntTy} {va : Word64} {o : Nat}

/-- A load behind a store that has just entered the queue: the store's own bytes are forwarded. -/
theorem State.load_behind_own_store (group : s.onBank = false) (region : s.hart.region = none) (near : s.hart.near = [])
    (unmarked : s.team.markedAt o (tyBytes t) = false) (numbered : ∀ q ∈ s.hart.sq, q.id < s.hart.nextOp)
    (noAtomic : ∀ q ∈ s.hart.sq, ∀ es va, q.op ≠ .atomic es va) (puts : s.putAhead s.hart (.spad s.cur.team o) (tyBytes t) = false)
    (enters : Enters s u (.bytes (cellsAt (.spad s.cur.team o) (leBytes (tyBytes t) x.toNat)) va (tyBytes t)) true false false .grp 2) :
    u.load (.mem ⟨.spad s.cur.team o, false⟩) va (tyBytes t) false = .ok (leBytes (tyBytes t) x.toNat) := by
  obtain ⟨e, op, id, -, -, -, -, queued, -, nearKept, -, only, fields⟩ := enters
  rw [region] at queued
  obtain ⟨sq, region'⟩ := queued
  have rest := only.rest
  have group' : u.onBank = false := by rw [rest]; exact group
  have team : u.teams = s.teams := by rw [rest]
  have waiting : u.hart.waiting = s.hart.sq ++ [e] := by
    rw [Hart.waiting, Hart.heldItems, sq, region', List.append_nil]
  have atomics : u.hart.sq.any (fun q => q.atomicMeets (.spad s.cur.team o) (tyBytes t)) = false := by
    rw [sq, List.any_append, Bool.or_eq_false_iff, List.any_eq_false]
    refine ⟨fun q mem => ?_, by simp [SQEntry.atomicMeets, op]⟩
    unfold SQEntry.atomicMeets
    split
    · next h => exact absurd h (noAtomic q mem _ _)
    · exact Bool.false_ne_true
  have putsAhead : u.putAhead u.hart (.spad s.cur.team o) (tyBytes t) = false := by
    rw [State.putAhead_eq, Bool.or_eq_false_iff] at puts ⊢
    refine ⟨?_, ?_⟩
    · rw [sq, List.any_append, puts.1]
      simp [SQEntry.putMeets, op]
    · rw [rest]
      exact puts.2
  have free : u.blocked u.hart (.spad s.cur.team o) (tyBytes t) = false := by
    rw [State.blocked_spad, atomics, putsAhead, nearKept, near]
    rfl
  refine State.load_forwarded group' free ?_ (leBytes_length _ _) fun i hi => ?_
  · rw [State.teamOf, team]
    exact unmarked
  · obtain ⟨c, found, byte⟩ := find_cellsAt_spad (k := s.cur.team) (o := o) (bs := leBytes (tyBytes t) x.toNat) (i := i) (by rwa [leBytes_length])
    rw [waiting, forward_append_youngest (c := c) (by rw [id]; exact numbered) (by rw [SQEntry.cellAt, op]; exact found), byte]

end

end Sys2Proof.Machine

namespace Sys2Proof.Claims
open Sys2Proof.Machine

theorem scalarStoreEffects : ScalarStoreEffects := by
  intro s a b t i sp off rel base x va n form ha hb address
  have arm : exec i s = s.storeS a b t sp off rel := by
    rcases form with ⟨l, rfl, rfl, rfl, rfl⟩ | ⟨l, rfl, rfl, rfl, rfl⟩ <;> rfl
  refine ⟨fun p group find => ?memory, fun op group find checks below room => ?aperture, fun p k bank find home wf => ?bank⟩
  case memory =>
    intro far cells op room
    have same : storeOp p.tgt va n (leBytes n x.toNat) rel.isSome (rel.getD .grp) = op := by
      refine if_congr ?_ rfl rfl
      cases rel <;> simp [far, Tgt.isRemote, and_comm]
    obtain ⟨u, stored, enters⟩ := State.storeBytes_enters (n := 2) group (leBytes_tyBytes_ne_nil t x.toNat) (same ▸ room)
    exact ⟨_, arm.trans (State.storeS_eq ha hb address (State.find_of_mem find x) stored), same ▸ enters⟩
  case aperture =>
    obtain ⟨u, stored, enters⟩ := State.store_aperture_enters (sc := rel.getD .grp) checks below room
    exact ⟨_, arm.trans (State.storeS_eq ha hb address find stored), enters⟩
  case bank =>
    have stored : s.store (.mem p) va n x rel.isSome (rel.getD .grp) true = .ok (s.pokeBank k (leBytes n x.toNat)) := by
      rw [State.store, State.storeBytes, if_pos bank, List.foldl_cons, home]
      rfl
    refine ⟨_, arm.trans (State.storeS_eq ha hb address (State.find_of_mem find x) stored), 
      pathDone_of_paths (State.retire_pathDone (s.pokeBank k _) 2 _) (fun _ => rfl) rfl, ?_, ?_,
      fun j other => State.retire_others (s.pokeBank k _) 2 _ other, rfl, fun j => ?_⟩
    · exact (s.pokeBank k (leBytes n x.toNat)).retire_passed 2 |>.scalars
    · exact (s.pokeBank k (leBytes n x.toNat)).retire_passed 2 |>.vectors
    · have written := Mem.byte_write (x := k) (y := j) (bs := leBytes n x.toNat) wf
      rwa [leBytes_length] at written

theorem loadReturnsTheGroupsOwnStore : LoadReturnsTheGroupsOwnStore := by
  intro s c d a b t off n x w e group _ _ operand hb inside size aligned below region near unmarked outside numbered noAtomic puts
  subst operand
  have onGroup : s.onBank = false := by rw [State.onBank, group]; rfl
  have small : e < 2 ^ 20 := (Nat.lt_of_lt_of_le (Nat.lt_add_of_pos_right (Nat.two_pow_pos _)) inside).trans_le size
  have pow : w ∣ 2 ^ 52 := pow_dvd_pow 2 (by omega)
  have place : s.locSpad aStore (0x00D0000000000000 + (s.hart.sreg n + off.signExtend 64)) e w = .ok ⟨.spad s.cur.team e, false⟩ := by
    rw [State.locSpad, if_neg (Nat.not_lt.mpr inside), outside, Bool.and_false]
    rfl
  have room : Room s (.bytes (cellsAt (.spad s.cur.team e) (leBytes w x.toNat)) (0x00D0000000000000 + (s.hart.sreg n + off.signExtend 64)) w) true false false :=
    ⟨fun _ => below, nofun, fun r open_ => nomatch region.symm.trans open_⟩
  obtain ⟨u, store, enters⟩ := (scalarStoreEffects s (.reg n) b t (.st (.reg n) b t ⟨.l, off⟩) .l (off.signExtend 64) none _ x _
    (.inl ⟨⟨.l, off⟩, rfl, rfl, rfl, rfl⟩) rfl hb (State.form_spad onGroup small)).1 _ onGroup
    (State.find_spad_of_locSpad onGroup small pow aligned place) room
  have load := State.load_behind_own_store onGroup region near unmarked numbered noAtomic puts enters
  obtain ⟨-, -, -, -, -, -, -, -, -, -, -, only, fields⟩ := enters
  have rest := only.rest
  have onGroup' : u.onBank = false := by rw [rest]; exact onGroup
  have base : u.hart.sreg n = s.hart.sreg n := by rw [fields]; rfl
  have team : u.team = s.team := by rw [rest]; rfl
  have evict (loads : List (Word64 × Place)) : u.evictFor loads w = u := by simp [State.evictFor, onGroup']
  have cur : u.cur.team = s.cur.team := by rw [rest]
  obtain ⟨v, next, done⟩ := (scalarLoadResults u d (.reg n) t ⟨.l, off⟩ default _ _ _ _ (congrArg Except.ok base)
    (State.find_spad onGroup' small pow aligned (by rw [team]; exact inside))).1 (State.form_spad onGroup' small)
    (by rw [evict, cur]; exact load)
  exact ⟨u, v, store, next, extended_leNat_leBytes t x ▸ done⟩

/-- Settles O17: the bytes at one place are one operation of the queue; the youngest entry forwards its own bytes to a load behind it. -/
theorem scalarStoresAreQueuedAndForwarded : Obligations.ScalarStoresAreQueuedAndForwarded := ⟨scalarStoreEffects, loadReturnsTheGroupsOwnStore⟩

end Sys2Proof.Claims
end

