-- ==== Sys2Proof/Proofs/TileTransfers.lean ====
section
/-! PROOFS. Tile transfers (R230 to R233): one whole register from the 256 bytes of a tile, and its bytes into the store queue. -/

namespace Sys2Proof.Machine
open Sys2Proof.Claims

/-! ## One whole register (R42, R43) -/

theorem State.putReg_snd (s : State) (d : Dst) (v : VWord) : (s.putReg d v).2 = .vector v := rfl

theorem State.putReg_onlyHart (s : State) (d : Dst) (v : VWord) : OnlyHart s (s.putReg d v).1 := by
  unfold State.putReg
  cases d.nw
  · exact s.setHart_onlyHart _
  · exact onlyHart_of_harts rfl fun _ _ => rfl

theorem State.putReg_hart (s : State) (d : Dst) (v : VWord) :
    (s.putReg d v).1.hart = { s.hart with v := if d.nw then s.hart.v else vset s.hart.v d.reg.toNat v } := by
  unfold State.putReg
  cases d.nw
  · exact s.hart_setHart _
  · rfl

theorem State.putReg_cur (s : State) (d : Dst) (v : VWord) : (s.putReg d v).1.cur = s.cur := by
  rw [(s.putReg_onlyHart d v).rest]

section
variable {s u : State}

/-- One whole register is written where the focus's own registers are still as they were. -/
theorem tileLoaded_of_hart_eq (hart : u.hart = s.hart) (cur : u.cur = s.cur) (d : Dst) (v : VWord) : TileLoaded s (retireAfter 2 (u.putReg d v)) d v := by
  have written := u.putReg_hart d v
  rw [hart] at written
  have retired := State.retire_hart (u.putReg d v).1 2 (.vector v)
  refine ⟨fun r low => ?reg, ?path, ?_, ?_, ?_, ?regs⟩
  case reg =>
    rw [retireAfter, State.retire_v, written]
    cases d.nw with
    | true => simp
    | false =>
      rw [if_neg Bool.false_ne_true, vget_vset]
      exact if_congr ⟨fun h => ⟨h.1.symm, rfl⟩, fun h => ⟨h.1.symm, h.1 ▸ low⟩⟩ rfl rfl
  case path =>
    exact pathDone_of_paths (State.retire_pathDone _ 2 _) (fun p => by rw [written]; rfl) ((u.putReg_cur d v).trans cur)
  case regs =>
    unfold SameRegs
    rw [retireAfter, State.putReg_snd, retired, written]
    cases (u.putReg d v).1.cur.path <;> rfl
  all_goals
    rw [retireAfter, State.putReg_snd, retired, written]
    simp

end

/-- A register that is written after the caches have moved leaves everything else. -/
theorem State.CachesMoved.retire_putReg {s u : State} (moved : s.CachesMoved u) (d : Dst) (v : VWord) :
    TileLoaded s (retireAfter 2 (u.putReg d v)) d v ∧ OnlyHartAndCaches s (retireAfter 2 (u.putReg d v)) :=
  ⟨tileLoaded_of_hart_eq moved.hart_eq moved.cur_eq d v, moved.onlyHartAndCaches (onlyHart_trans (u.putReg_onlyHart d v) (State.retire_onlyHart _ 2 _))⟩

/-! ## The instructions -/

section
variable {s : State} {d : Dst} {r : BitVec 6} {a : Src} {chk : Bool} {l : MemM} {q : MemS} {base va : Word64} {p : Place}
  (whole : s.wholePath = true) (operand : s.opnd a = .ok base)
include whole operand

theorem exec_tld_eq {bs : List Byte} (held : s.heldDst d 1 = .ok ()) (form : s.form l.space base (sx64 l.off) = .ok va)
    (place : s.locate aLoad .upToE va 256 256 = .ok p) (read : s.readAt p va 256 false = .ok bs) (sound : (!chk || tileConsistent bs) = true) :
    exec (.tld d a chk l) s = .next (retireAfter 2 ((s.touch [(va, p)]).putReg d (bytesToBits 2048 bs))) := by
  have arm : exec (.tld d a chk l) s = execTld d a chk l s := rfl
  rw [arm, execTld]
  simp only [operand, whole, needOp, need_ok, held, form, place, read, sound, bind, Except.bind]
  rfl

variable (held : s.heldRegs r.toNat 1 = .ok ())
include held

theorem exec_tst_eq {u : State} (form : s.form l.space base (sx64 l.off) = .ok va) (place : s.locate aStore .upToE va 256 256 = .ok p)
    (stored : s.storeBytes va 256 [(p, s.tileReg r)] false .grp = .ok u) : exec (.tst r a l) s = .next (u.retire 2 Latch.none) := by
  have arm : exec (.tst r a l) s = execTst r a l s := rfl
  rw [arm, execTst]
  simp only [operand, whole, needOp, need_ok, held, form, place, stored, bind, Except.bind]
  rfl

theorem exec_putt_eq {u : State} (form : s.form q.space base (sx64 q.off) = .ok va) (place : s.locate aStore .tiles va 256 256 = .ok p)
    (takes : p.tgt.takesPut = true) (issued : s.issue (.put p.tgt va (s.tileReg r)) (!p.tgt.isRemote) p.tgt.isRemote true q.scope = .ok u) :
    exec (.putt r a q) s = .next (u.retire 2 Latch.none) := by
  have arm : exec (.putt r a q) s = execPutt r a q s := rfl
  rw [arm, execPutt]
  simp only [operand, whole, needOp, need_ok, held, form, place, takes, issued, bind, Except.bind]
  rfl

end

/-- A group with every lane in its path and on (R230). -/
theorem State.wholePath_of_lanes {s : State} (lanes : s.path.lanes = BitVec.allOnes 64) (emask : s.path.emask = BitVec.allOnes 64) : s.wholePath = true := by
  rw [State.wholePath, lanes, emask]
  rfl

theorem storeOp_plain (t : Tgt) (va : Word64) (size : Nat) (bs : List Byte) (sc : Scope) : storeOp t va size bs false sc = .bytes (cellsAt t bs) va size := by
  rw [storeOp, Bool.false_and, Bool.and_false]
  rfl

end Sys2Proof.Machine

namespace Sys2Proof.Claims
open Sys2Proof.Machine

/-- Settles O21: the register is written after the caches have moved, or its bytes are one entry of the queue. -/
theorem tileTransferResults : Obligations.TileTransferResults := by
  intro s d r a chk l q base va p lanes emask operand
  have whole := State.wholePath_of_lanes lanes emask
  refine ⟨fun bs held form place read sound => ⟨_, exec_tld_eq whole operand held form place read ?_, (s.touch_cachesMoved _).retire_putReg d _⟩,
    fun group held => ⟨fun form place => ?tst, fun form place takes => ?putt⟩⟩
  · cases chk
    · rfl
    · exact sound rfl
  case tst =>
    intro op room
    have some_ : s.tileReg r ≠ [] := List.ne_nil_of_length_pos (by rw [State.tileReg, leBytes_length]; decide)
    have entered := State.storeBytes_enters (p := p) (va := va) (size := 256) (release := false) (sc := .grp) (n := 2) group some_
      (by rw [storeOp_plain]; exact room)
    rw [storeOp_plain] at entered
    obtain ⟨u, stored, enters⟩ := entered
    exact ⟨_, exec_tst_eq whole operand held form place stored, enters⟩
  case putt =>
    intro op room
    obtain ⟨u, issued, enters⟩ := State.issue_enters (sc := q.scope) (n := 2) room
    exact ⟨_, exec_putt_eq whole operand held form place takes issued, enters⟩

end Sys2Proof.Claims
end

