-- ==== Sys2Proof/Proofs/TileConsumption.lean ====
section
/-! PROOFS. LDC and LDP (R209, R234): the tile that they take, the put that follows into it, and the wait for an EMPTY one. -/

namespace Sys2Proof.Machine
open Sys2Proof.Claims

/-! ## A tile becomes EMPTY (R209) -/

/-- The state in which a core holds other puts. -/
def State.withHold (s : State) (c : Nat) (hs : List Held) : State := s.setCoreOf c { s.coreOf c with hold := hs }

theorem State.withHold_hold (s : State) (c : Nat) (hs : List Held) : ((s.withHold c hs).coreOf c).hold = hs := by
  rw [State.withHold, State.coreOf_setCoreOf]

section
variable {s : State} {k n : Nat} (test : List Byte → Bool)

theorem State.setTagOf_core (s : State) (k n : Nat) (x : Tag) : ((s.setTagOf k n x).teamOf k).core = (s.teamOf k).core := by
  rw [State.setTagOf, State.teamOf_setTeamOf]
  rfl

/-- With no put held for it the tile only becomes EMPTY. -/
theorem State.emptyTile_of_none_held (none_ : ∀ h ∈ (s.coreOf (s.teamOf k).core).hold, ¬ (h.team = k ∧ h.tile = n)) :
    s.emptyTile test k n = s.setTagOf k n .empty := by
  have free : (s.coreOf (s.teamOf k).core).hold.find? (fun h => h.team == k && h.tile == n) = none :=
    List.find?_eq_none.mpr fun h mem => by simpa using none_ h mem
  unfold State.emptyTile
  simp only [State.setTagOf_core]
  rw [State.setTagOf, State.setTeamOf_coreOf, free]

/-- The put that a core has held longest is written, where it is for the tile and nobody waits. -/
theorem State.emptyTile_of_held {h : Held} {hs : List Held} (hold : (s.coreOf (s.teamOf k).core).hold = h :: hs) (team : h.team = k) (tile : h.tile = n)
    (clean : h.marks = []) (none_ : s.tileWaiters k n = []) :
    s.emptyTile test k n = ((s.setTagOf k n .empty).withHold (s.teamOf k).core hs).putWritten k n h := by
  have found : (h :: hs).find? (fun h => h.team == k && h.tile == n) = some h := List.find?_cons_of_pos (by simp [team, tile])
  have told := State.putDone_tileWaiters_nil
    (s := ((s.setTagOf k n .empty).withHold (s.teamOf k).core hs).setTeamOf k
      ((((s.setTagOf k n .empty).withHold (s.teamOf k).core hs).teamOf k).poke (256 * n) h.data false))
    ((State.tileWaiters_of_harts_eq rfl k n).trans none_) h.src h.st h.remote
  unfold State.emptyTile
  simp only [State.setTagOf_core]
  rw [show (s.setTagOf k n .empty).coreOf (s.teamOf k).core = s.coreOf (s.teamOf k).core from rfl, hold, found]
  dsimp only
  rw [List.erase_cons_head, clean, State.writeTile_clean]
  dsimp only
  rw [if_neg (by decide)]
  exact State.fillTile_of_no_waiters told test

/-- A put that counts nowhere leaves every hart as it is. -/
theorem State.putWritten_harts {h : Held} (st : h.st = none) (remote : h.remote = none) : (s.putWritten k n h).harts = s.harts := by
  rw [State.putWritten, st, remote]
  unfold State.putDone
  dsimp only
  split
  · next impossible => cases impossible
  · rfl

theorem State.Told.cur_eq {t : State} (told : s.Told t) : t.cur = s.cur := by rw [told]

theorem State.putWritten_cur {h : Held} : (s.putWritten k n h).cur = s.cur := (s.putDone_written_told k n h).cur_eq

end

/-! ## The instructions (R234) -/

section
variable {s : State} {d : Dst} {a : Src} {chk take : Bool} {l : MemS} {base va : Word64} {k o : Nat} {fe : Bool}
  (whole : s.wholePath = true) (operand : s.opnd a = .ok base) (held : s.heldDst d 1 = .ok ())
  (form : s.form l.space base (sx64 l.off) = .ok va) (noGrant : s.path.grant = none)
  (place : s.locate aLoad .own va 256 256 = .ok ⟨.spad k o, fe⟩) (settled : s.tilePending o = false)
include whole operand held form noGrant place settled

theorem State.consume_empty (empty : s.tagOf s.cur.team (o / 256) = .empty) :
    s.consume d a chk take l = .next (s.stopped (.suspend (.tile (o / 256) take chk va))) := by
  rw [State.consume]
  simp only [operand, whole, needOp, need_ok, held, form, noGrant, State.ownTile, place, settled, Bool.not_false, await_ok, empty, bind, Except.bind]
  rfl

/-- The state in which the register of a tile that was FULL is written. -/
def State.consumed (s : State) (take : Bool) (n : Nat) (sc : Scope) : State :=
  (if take then s.emptyTile tileConsistent s.cur.team n else s).acquire sc

theorem State.consume_full (full : s.tagOf s.cur.team (o / 256) = .full) (unmarked : s.team.markedAt (256 * (o / 256)) 256 = false)
    (sound : chk = true → tileConsistent (s.team.mem.read (256 * (o / 256)) 256) = true) :
    s.consume d a chk take l = .next (retireAfter 2 ((s.consumed take (o / 256) l.scope).putReg d
      (bytesToBits 2048 (s.team.mem.read (256 * (o / 256)) 256)))) := by
  have checked : (!chk || tileConsistent (s.team.mem.read (256 * (o / 256)) 256)) = true := by
    cases chk
    · rfl
    · rw [sound rfl]
      rfl
  rw [State.consume]
  simp only [operand, whole, needOp, need_ok, held, form, noGrant, State.ownTile, place, settled, Bool.not_false, await_ok, full, unmarked, checked, bind,
    Except.bind]
  rfl

end

theorem onlyHartAndCaches_teamOf {s t : State} (only : OnlyHartAndCaches s t) (k : Nat) : t.teamOf k = s.teamOf k := by
  rw [only.rest]
  rfl

/-- A tile's tag is no byte of the allocation. -/
theorem State.setTagOf_bytes (s : State) (k n : Nat) (x : Tag) (j : Nat) :
    ((s.setTagOf k n x).teamOf j).mem = (s.teamOf j).mem ∧ ((s.setTagOf k n x).teamOf j).tmpl = (s.teamOf j).tmpl := by
  unfold State.setTagOf
  by_cases own : j = k
  · rw [own, State.teamOf_setTeamOf]
    exact ⟨rfl, rfl⟩
  · rw [State.teamOf_setTeamOf_ne s own]
    exact ⟨rfl, rfl⟩

/-- A register that is written once a tile has been consumed, where the focus's own registers are still as they were. -/
theorem State.retire_putReg_of_hart_eq {s v : State} (harts : v.harts = s.harts) (cur : v.cur = s.cur) (sc : Scope) (d : Dst) (x : VWord) :
    TileLoaded s (retireAfter 2 ((v.acquire sc).putReg d x)) d x ∧ OnlyHartAndCaches v (retireAfter 2 ((v.acquire sc).putReg d x)) := by
  have moved := State.acquire_cachesMoved v sc
  exact ⟨tileLoaded_of_hart_eq (moved.hart_eq.trans (State.hart_eq_of_harts harts cur)) (moved.cur_eq.trans cur) d x, (moved.retire_putReg d x).2⟩

end Sys2Proof.Machine

namespace Sys2Proof.Claims
open Sys2Proof.Machine

/-- Settles O22: the tile becomes EMPTY or takes the put that was held, and then the register is written. -/
theorem consumeAndPeekOfTiles : Obligations.ConsumeAndPeekOfTiles := by
  intro s d a chk l base va k o fe lanes emask operand held form noGrant group place settled tile bs own
  subst own
  have whole := State.wholePath_of_lanes lanes emask
  refine ⟨fun empty => ?empty, fun full sound unmarked => ⟨?peek, fun noneHeld => ?emptied, fun h hs hold team atTile clean length noWaiters quiet wf st remote => ?followed⟩⟩
  case empty =>
    have waits (take : Bool) := s.stopped_suspend (.tile tile take chk va)
    exact ⟨⟨_, State.consume_empty (take := true) whole operand held form noGrant place settled empty, (waits true).1, (waits true).2.2.1⟩,
      _, State.consume_empty (take := false) whole operand held form noGrant place settled empty, (waits false).1, (waits false).2.2.1⟩
  all_goals
    have runs (take : Bool) := State.consume_full (take := take) whole operand held form noGrant place settled full unmarked sound
  case peek =>
    obtain ⟨loaded, only⟩ := State.retire_putReg_of_hart_eq (s := s) rfl rfl l.scope d (bytesToBits 2048 bs)
    exact ⟨_, runs false, loaded, only⟩
  case emptied =>
    have step := State.emptyTile_of_none_held tileConsistent noneHeld
    obtain ⟨loaded, only⟩ := State.retire_putReg_of_hart_eq (s := s) (v := s.setTagOf s.cur.team tile .empty) rfl rfl l.scope d (bytesToBits 2048 bs)
    have teams (j : Nat) := onlyHartAndCaches_teamOf only j
    have ofTag := s.teamOf_setTeamOf s.cur.team ((s.teamOf s.cur.team).setTag tile .empty)
    refine ⟨_, runs true, ?_⟩
    rw [State.consumed, if_pos rfl, step]
    refine ⟨loaded, ?_, fun j ne => ?_, ⟨fun i => only.bytes.1 i, fun j i => ?_, fun j i => ?_⟩, fun j ne => (teams j).trans (s.teamOf_setTeamOf_ne ne _)⟩
    · rw [teams, State.setTagOf, ofTag, Team.tag_setTag]
    · rw [teams, State.setTagOf, ofTag, Team.tag_setTag_ne _ ne]
    · rw [teams, (s.setTagOf_bytes _ _ _ j).1]
    · rw [teams, (s.setTagOf_bytes _ _ _ j).2]
  case followed =>
    have step := State.emptyTile_of_held tileConsistent hold team atTile clean noWaiters
    obtain ⟨loaded, only⟩ := State.retire_putReg_of_hart_eq (s := s)
      (v := ((s.setTagOf s.cur.team tile .empty).withHold (s.teamOf s.cur.team).core hs).putWritten s.cur.team tile h)
      (State.putWritten_harts st remote) State.putWritten_cur l.scope d (bytesToBits 2048 bs)
    have ofTag := s.teamOf_setTeamOf s.cur.team ((s.teamOf s.cur.team).setTag tile .empty)
    have emptied : ((s.setTagOf s.cur.team tile .empty).withHold (s.teamOf s.cur.team).core hs).teamOf s.cur.team = s.team.setTag tile .empty := ofTag
    obtain ⟨full, others, bytes, rest⟩ := State.putWritten_filled ((s.setTagOf s.cur.team tile .empty).withHold (s.teamOf s.cur.team).core hs) s.cur.team tile h length
      (by rw [emptied]; exact quiet) (by rw [emptied]; exact wf)
    refine ⟨_, runs true, ?_⟩
    rw [State.consumed, if_pos rfl, step]
    refine ⟨loaded, ?_, fun i => ?_, ?_⟩
    · rw [onlyHartAndCaches_teamOf only]
      exact full
    · rw [onlyHartAndCaches_teamOf only, bytes, emptied]
      rfl
    · have core := only.cores s.team.core
      rw [State.putWritten_coreOf] at core
      exact (congrArg Core.hold core).trans (State.withHold_hold _ _ _)

end Sys2Proof.Claims
end

