-- ==== Sys2Proof/Proofs/TagInstructions.lean ====
section
/-! PROOFS. Tile tags and the tag table (R207, R235 to R237): runs of tags through the store queue, 32 tags in a scalar, and the entries of the team's table. -/

namespace Sys2Proof.Machine
open Sys2Proof.Claims

/-! ## TFILL and TEMPTY (R235) -/

/-- An operation that counts nowhere and is no release always has room (R224, R408). -/
theorem room_of_uncounted (s : State) (op : SQOp) : Room s op false false false :=
  ⟨fun st => absurd st Bool.false_ne_true, fun fab => absurd fab Bool.false_ne_true, fun _ _ held => absurd held (by simp)⟩

section
variable {s : State} {a b : Src} {l : MemM} {base n va : Word64} {k o : Nat} {fe : Bool} (op : Nat → Nat → SQOp)
  (operand : s.opnd a = .ok base) (form : s.form l.space base (sx64 l.off) = .ok va)
include operand form

theorem State.tagRun_none (length : s.opnd b = .ok 0) : s.tagRun a b l op = .next (s.retire 2 Latch.none) := by
  rw [State.tagRun]
  simp only [operand, length, form, bind, Except.bind, if_true]
  rfl

variable (place : s.locate aLoad .own va 1 1 = .ok ⟨.spad k o, fe⟩)
include place

theorem State.tagRun_enters (length : s.opnd b = .ok n) (some_ : n ≠ 0) (inside : o / 256 + n.toNat ≤ s.team.spadBytes / 256) :
    ∃ t, s.tagRun a b l op = .next t ∧ Enters s t (op (o / 256) n.toNat) false false false .grp 2 := by
  obtain ⟨u, issued, enters⟩ := State.issue_enters (sc := .grp) (n := 2) (room_of_uncounted s (op (o / 256) n.toNat))
  refine ⟨_, ?_, enters⟩
  rw [State.tagRun]
  simp only [operand, length, form, State.ownTile, place, some_, inside, decide_true, need_ok, issued, bind, Except.bind, if_false]
  rfl

/-! ## TTAG (R236) -/

/-- What TTAG reads of a tile: its tag's code, and zero beyond the allocation. -/
def Team.tagCode (t : Team) (n : Nat) : Nat := if n < t.spadBytes / 256 then (t.tag n).code else 0

/-- The scalar with the codes of 32 tiles. -/
def Team.tagWord (t : Team) (first : Nat) : Word64 := BitVec.ofNat 64 (sumNat ((List.range 32).map fun j => t.tagCode (first + j) * 2 ^ (2 * j)))

omit operand form place in
theorem Team.tagCode_lt (t : Team) (n : Nat) : t.tagCode n < 2 ^ 2 := by
  rw [Team.tagCode]
  split
  · cases t.tag n <;> decide
  · decide

omit operand form place in
theorem Team.tagWord_extract (t : Team) (first : Nat) {j : Nat} (hj : j < 32) : ((t.tagWord first).extractLsb' (2 * j) 2).toNat = t.tagCode (first + j) :=
  toNat_extract_digits (w := 2) (n := 32) (f := fun j => t.tagCode (first + j)) (fun _ => t.tagCode_lt _) hj

/-- With no tag read before, and no choice of the device, all 32 are read at once. -/
theorem exec_ttag_whole {d : Dst} (settled : s.hart.tagsPending (o / 256) 32 = false) (fresh : s.path.part = []) (all : s.choice = 0) :
    exec (.ttag d a l) s = .next (s.chosen.retireS 2 d (s.team.tagWord (o / 256))) := by
  have arm : exec (.ttag d a l) s = execTtag d a l s := rfl
  have word : ((List.range 32).map fun j => (j, s.team.tagCode (o / 256 + j))).foldl (fun x p => x + p.2 * 4 ^ p.1) 0
      = sumNat ((List.range 32).map fun j => s.team.tagCode (o / 256 + j) * 2 ^ (2 * j)) := by
    simp only [sumNat, List.foldl_map, Nat.pow_mul]
  rw [arm, execTtag, Team.tagWord, ← word]
  simp only [operand, form, State.ownTile, place, settled, Bool.not_false, await_ok, fresh, all, bind, Except.bind, if_true]
  rfl

end

/-! ## The entries of the tag table (R237) -/

/-- The entry of a slot holds a key. -/
def Team.slotOf (t : Team) (key : BitVec 48) (i : Nat) : Option (Nat × Byte) :=
  match mfind i t.table with
  | some (k, x) => if k = key then some (i, x) else none
  | none => none

section
variable {t : Team} {key : BitVec 48} {i : Nat}

theorem Team.slotOf_of_entry {v : Byte} (entry : mfind i t.table = some (key, v)) : t.slotOf key i = some (i, v) := by
  rw [Team.slotOf, entry]
  exact if_pos rfl

theorem Team.slotOf_eq_none (other : ∀ v, mfind i t.table ≠ some (key, v)) : t.slotOf key i = none := by
  unfold Team.slotOf
  split
  · next k x entry => exact if_neg fun (same : k = key) => other x (same ▸ entry)
  · rfl

theorem Team.keyEntry_eq_findSome (t : Team) (key : BitVec 48) : t.keyEntry key = (List.range (t.spadBytes / 4096)).findSome? (t.slotOf key) := rfl

theorem Team.keyEntry_absent (absent : ∀ i < t.spadBytes / 4096, ∀ v, mfind i t.table ≠ some (key, v)) : t.keyEntry key = none := by
  rw [Team.keyEntry_eq_findSome, List.findSome?_eq_none_iff]
  exact fun i mem => Team.slotOf_eq_none (absent i (List.mem_range.mp mem))

/-- The first index at which a function of the range answers. -/
theorem findSome?_range_eq {α : Type} {f : Nat → Option α} {n i : Nat} {b : α} (hi : i < n) (here : f i = some b) (first : ∀ j < i, f j = none) :
    (List.range n).findSome? f = some b := by
  obtain ⟨m, rfl⟩ : ∃ m, n = i + (m + 1) := ⟨n - i - 1, by omega⟩
  have before : (List.range i).findSome? f = none := List.findSome?_eq_none_iff.mpr fun j mem => first j (List.mem_range.mp mem)
  rw [List.range_add, List.findSome?_append, before, List.range_succ_eq_map, List.map_cons, Nat.add_zero, Option.none_or]
  exact List.findSome?_cons_of_isSome (by rw [here]; rfl) |>.trans here

theorem Team.keyEntry_first {v : Byte} (hi : i < t.spadBytes / 4096) (entry : mfind i t.table = some (key, v))
    (first : ∀ j < i, ∀ z, mfind j t.table ≠ some (key, z)) : t.keyEntry key = some (i, v) :=
  findSome?_range_eq hi (Team.slotOf_of_entry entry) fun j hj => Team.slotOf_eq_none (first j hj)

theorem Team.freeEntry_none (taken : ∀ i < t.spadBytes / 4096, mfind i t.table ≠ none) : t.freeEntry = none := by
  rw [Team.freeEntry, List.find?_range_eq_none]
  exact fun i hi => by simpa [Option.isSome_iff_ne_none] using taken i hi

theorem Team.freeEntry_first (hi : i < t.spadBytes / 4096) (free : mfind i t.table = none) (first : ∀ j < i, mfind j t.table ≠ none) : t.freeEntry = some i := by
  rw [Team.freeEntry, List.find?_range_eq_some]
  exact ⟨by rw [free]; rfl, List.mem_range.mpr hi, fun j hj => by simpa [Option.isSome_iff_ne_none] using first j hj⟩

end

theorem mfind_filter_ne {κ α : Type} [DecidableEq κ] (i j : κ) (m : List (κ × α)) :
    mfind j (m.filter fun e => e.1 != i) = if j = i then none else mfind j m := by
  induction m with
  | nil => simp [mfind]
  | cons e m ih =>
    obtain ⟨k, v⟩ := e
    by_cases dropped : k = i
    · rw [List.filter_cons_of_neg (by simpa using dropped), ih]
      split
      · rfl
      · next ne => rw [mfind, if_neg fun same => ne (same.symm.trans dropped)]
    · rw [List.filter_cons_of_pos (by simpa using dropped), mfind, ih, mfind]
      split
      · next same => rw [if_neg (same ▸ dropped)]
      · rfl

theorem mfind_mset {κ α : Type} [DecidableEq κ] (i j : κ) (v : α) (m : List (κ × α)) : mfind j (mset i v m) = if j = i then some v else mfind j m := by
  split
  · next same => rw [same, mfind_mset_same]
  · next ne => exact mfind_mset_ne v m ne

/-! ## The table's instructions -/

section
variable {s : State} {d : Dst} {a b : Src} {x y : Word64} (operand : s.opnd a = .ok x)
include operand

theorem exec_taglk_absent (absent : s.team.keyEntry (x.setWidth 48) = none) : exec (.taglk d a) s = .next (s.retireS 1 d (BitVec.allOnes 64)) := by
  have arm : exec (.taglk d a) s = execTaglk d a s := rfl
  rw [arm, execTaglk, operand]
  simp only [absent, bind, Except.bind]
  rfl

theorem exec_taglk_found {i : Nat} {v : Byte} (found : s.team.keyEntry (x.setWidth 48) = some (i, v)) :
    exec (.taglk d a) s = .next (s.retireS 1 d (v.setWidth 64)) := by
  have arm : exec (.taglk d a) s = execTaglk d a s := rfl
  rw [arm, execTaglk, operand]
  simp only [found, bind, Except.bind]
  rfl

/-- The state in which the table of the focus's team is another one. -/
def State.withTable (s : State) (m : List (Nat × (BitVec 48 × Byte))) : State := s.setTeam { s.team with table := m }

theorem exec_tagdel_absent (absent : s.team.keyEntry (x.setWidth 48) = none) : exec (.tagdel d a) s = .next (s.retireS 1 d (BitVec.allOnes 64)) := by
  have arm : exec (.tagdel d a) s = execTagdel d a s := rfl
  rw [arm, execTagdel, operand]
  simp only [absent, bind, Except.bind]
  rfl

theorem exec_tagdel_found {i : Nat} {v : Byte} (found : s.team.keyEntry (x.setWidth 48) = some (i, v)) :
    exec (.tagdel d a) s = .next ((s.withTable (s.team.table.filter fun e => e.1 != i)).retireS 1 d (v.setWidth 64)) := by
  have arm : exec (.tagdel d a) s = execTagdel d a s := rfl
  rw [arm, execTagdel, operand]
  simp only [found, bind, Except.bind]
  rfl

variable (slot : s.opnd b = .ok y)
include slot

theorem exec_tagins_full (absent : s.team.keyEntry (x.setWidth 48) = none) (full : s.team.freeEntry = none) :
    exec (.tagins d a b) s = .next (s.retireS 1 d (BitVec.allOnes 64)) := by
  have arm : exec (.tagins d a b) s = execTagins d a b s := rfl
  rw [arm, execTagins, operand, slot]
  simp only [absent, full, bind, Except.bind]
  rfl

theorem exec_tagins_at {i : Nat} {v : Byte} (entry : (s.team.keyEntry (x.setWidth 48) <|> s.team.freeEntry.map fun i => (i, 0)) = some (i, v)) :
    exec (.tagins d a b) s = .next ((s.withTable (mset i (x.setWidth 48, y.setWidth 8) s.team.table)).retireS 1 d (BitVec.ofNat 64 i)) := by
  have arm : exec (.tagins d a b) s = execTagins d a b s := rfl
  rw [arm, execTagins, operand, slot]
  simp only [entry, bind, Except.bind]
  rfl

end

/-- A result that retires behind a change of the team's table leaves everything else. -/
theorem State.retireS_withTable (s : State) (m : List (Nat × (BitVec 48 × Byte))) (n : Nat) (d : Dst) (r : Word64) :
    let u := (s.withTable m).retireS n d r
    ScalarWritten s u d r ∧ PathDone s u n (Latch.scalar r) ∧ u.hart.v = s.hart.v ∧ u.hart.m = s.hart.m ∧ SameRegs s u
      ∧ u.mem = s.mem ∧ (∀ j, j ≠ s.cur.team → u.teamOf j = s.teamOf j) ∧ u.team = { s.team with table := m } := by
  intro u
  obtain ⟨reg, path, vectors, masks, mem, -⟩ := State.retireS_scalarRetired (s := s) (u := s.withTable m) rfl rfl rfl n d r
  have teams (j : Nat) : u.teamOf j = (s.withTable m).teamOf j := by
    rw [show u = _ from State.retireS_rest _ n d r]
    rfl
  have cur : u.cur = s.cur := by
    rw [show u = _ from State.retireS_rest _ n d r]
    rfl
  refine ⟨reg, path, vectors, masks, (State.retireS_scalarDone (s.withTable m) n d r).regs, mem, fun j ne => ?_, ?_⟩
  · exact (teams j).trans (s.teamOf_setTeamOf_ne ne _)
  · rw [State.team, cur]
    exact (teams s.cur.team).trans (s.teamOf_setTeamOf _ _)

end Sys2Proof.Machine

namespace Sys2Proof.Claims
open Sys2Proof.Machine

theorem tagInstructionResults : TagInstructionResults := by
  intro s d a b l base n va k o fe group operand length form
  refine ⟨fun none_ => ?none, fun place => ⟨fun some_ inside =>
    ⟨State.tagRun_enters .tfill operand form place length some_ inside, State.tagRun_enters .tempty operand form place length some_ inside⟩,
    fun settled fresh all => ⟨_, _, exec_ttag_whole operand form place settled fresh all, s.chosen.retireS_scalarDone 2 d _, fun j hj => ?tags⟩⟩⟩
  case none =>
    subst none_
    exact ⟨⟨_, State.tagRun_none .tfill operand form length, s.retire_passed 2⟩, _, State.tagRun_none .tempty operand form length, s.retire_passed 2⟩
  case tags =>
    rw [Team.tagWord_extract _ _ hj, Team.tagCode]
    cases s.team.tag (o / 256 + j) <;> rfl

theorem tagTableResults : TagTableResults := by
  intro s d a b x y operand slot key n entry absent change
  have replaced (i : Nat) : change ((s.withTable (mset i (key, y.setWidth 8) s.team.table)).retireS 1 d (BitVec.ofNat 64 i)) i
      (some (key, y.setWidth 8)) (BitVec.ofNat 64 i) := by
    obtain ⟨reg, path, vectors, masks, regs, mem, others, team⟩ := s.retireS_withTable (mset i (key, y.setWidth 8) s.team.table) 1 d (BitVec.ofNat 64 i)
    exact ⟨reg, path, vectors, masks, regs, mem, others, by rw [team], fun j => by rw [team]; exact mfind_mset i j _ _⟩
  have deleted (i : Nat) (r : Word64) : change ((s.withTable (s.team.table.filter fun e => e.1 != i)).retireS 1 d r) i none r := by
    obtain ⟨reg, path, vectors, masks, regs, mem, others, team⟩ := s.retireS_withTable (s.team.table.filter fun e => e.1 != i) 1 d r
    exact ⟨reg, path, vectors, masks, regs, mem, others, by rw [team], fun j => by rw [team]; exact mfind_filter_ne i j _⟩
  refine ⟨fun noEntry => ?absent, fun i hi v here first => ?present⟩
  case absent =>
    have missing := Team.keyEntry_absent noEntry
    refine ⟨⟨_, exec_taglk_absent operand missing, s.retireS_scalarDone 1 d _⟩, ⟨_, exec_tagdel_absent operand missing, s.retireS_scalarDone 1 d _⟩,
      fun taken => ⟨_, exec_tagins_full operand slot missing (Team.freeEntry_none taken), s.retireS_scalarDone 1 d _⟩, fun i hi free first => ⟨_, ?_, replaced i⟩⟩
    refine exec_tagins_at (v := 0) operand slot ?_
    rw [missing, Team.freeEntry_first hi free first]
    rfl
  case present =>
    have found := Team.keyEntry_first hi here first
    refine ⟨⟨_, exec_taglk_found operand found, s.retireS_scalarDone 1 d _⟩, ⟨_, ?_, replaced i⟩, _, exec_tagdel_found operand found, deleted i _⟩
    refine exec_tagins_at (v := v) operand slot ?_
    rw [found]
    rfl

/-- Settles O23: runs of tags are entries of the queue, TTAG's scalar has the codes as its digits, and the table is searched from its lowest entry. -/
theorem tagAndTagTableResults : Obligations.TagAndTagTableResults := ⟨tagInstructionResults, tagTableResults⟩

end Sys2Proof.Claims
end

