-- ==== Sys2Proof/Proofs/AtomicsQueued.lean ====
section
/-! PROOFS. Atomics without return (R223, R241, R245): their elements in one entry of the store queue, and near-memory commands that leave for the home. -/

namespace Sys2Proof.Machine
open Sys2Proof.Claims

theorem State.notInRegion_ok {s : State} (closed : s.hart.region = none) : s.notInRegion = .ok () := by
  rw [State.notInRegion, closed]
  rfl

/-! ## Near-memory commands (R245) -/

/-- The registers of the focus once a near-memory command has been issued. -/
def State.nearHart (s : State) (es : List (Tgt × AtomArg)) : Hart :=
  ({ s.hart with nextOp := s.hart.nextOp + 1, near := s.hart.near ++ [⟨s.hart.nextOp, es⟩] } : Hart).raiseCtr kNear s.hart.nextOp

section
variable {s : State}

theorem State.issueNear_eq (room : s.hart.counter kNear < 65535) (es : List AtomElem) :
    s.issueNear es = .ok (s.setHart (s.nearHart (es.map fun e => (e.tgt, e.arg)))) := by
  rw [State.issueNear]
  exact if_neg (Nat.not_le.mpr room)

/-- A command has its number, stands last, and has raised `near`. -/
theorem State.near_issued (closed : s.hart.region = none) (es : List (Tgt × AtomArg)) (n : Nat) :
    let v := (s.setHart (s.nearHart es)).retire n Latch.none
    v.hart.near = s.hart.near ++ [⟨s.hart.nextOp, es⟩] ∧ v.hart.sq = s.hart.sq ∧ v.hart.region = none ∧ PathDone s v n Latch.none ∧ OnlyQueues s v
      ∧ ∀ j < 8, v.hart.counter j = s.hart.counter j + if j = kNear then 1 else 0 := by
  have hart : (s.setHart (s.nearHart es)).hart = s.nearHart es := s.hart_setHart _
  have retired := State.retire_hart (s.setHart (s.nearHart es)) n Latch.none
  rw [hart] at retired
  dsimp only
  refine ⟨?near, ?sq, ?region, ?path, ⟨onlyHart_trans (s.setHart_onlyHart _) (State.retire_onlyHart _ _ _), ?fields⟩, fun j _ => ?counters⟩
  case path => exact pathDone_of_paths (State.retire_pathDone _ n _) (fun p => by rw [hart]; rfl) (by rw [State.setHart_cur])
  case region =>
    rw [retired, ← closed]
    simp [State.nearHart, Hart.raiseCtr]
  case counters =>
    have ledger : ((s.setHart (s.nearHart es)).retire n Latch.none).hart.counter j = (s.nearHart es).counter j := by
      rw [retired]
      simp [Hart.counter]
    rw [ledger, State.nearHart, Hart.counter_raiseCtr _ (by decide)]
    rfl
  case fields =>
    rw [retired]
    cases (s.setHart (s.nearHart es)).cur.path <;> rfl
  all_goals
    rw [retired]
    simp [State.nearHart, Hart.raiseCtr]

end

/-! ## One element (R241) -/

section
variable {s : State} {a b : Src} {t : IntTy} {l : MemA} {base x va : Word64} {p : Place} {wins : Wins} {ty : AtomTy}
  (operand : s.opnd a = .ok base) (form : s.form l.space base (sx64 l.off) = .ok va) (place : s.locate aAtomic wins va (ty.bits / 8) (ty.bits / 8) = .ok p)
include operand form place

theorem State.atomScalar_eq (op : AtomOp) (x : Word64) (e : Option Nat) :
    s.atomScalar a wins ty op l.space (sx64 l.off) x e = .ok ⟨0, va, p.tgt, ⟨op, ty, x.toNat % 2 ^ ty.bits, e⟩⟩ := by
  rw [State.atomScalar]
  simp only [operand, form, place, bind, Except.bind]
  rfl

omit operand form place in
theorem State.issueAtoms_one (s : State) (e : AtomElem) (sc : Scope) :
    s.issueAtoms [e] sc = s.issue (.atomic [(e.tgt, e.arg)] e.va) (!e.tgt.isRemote) e.tgt.isRemote true sc := by
  rw [State.issueAtoms]
  simp only [List.any_cons, List.any_nil, Bool.or_false]
  rfl

variable (second : s.opnd b = .ok x) (closed : s.hart.region = none)
include second closed

theorem exec_amon_eq {u : State} (type : ty = atomTyS l.op t) (upToE : wins = .upToE)
    (issued : s.issue (.atomic [(p.tgt, ⟨l.op, ty, x.toNat % 2 ^ ty.bits, none⟩)] va) (!p.tgt.isRemote) p.tgt.isRemote true l.scope = .ok u) :
    exec (.amon a b t l) s = .next (u.retire 2 Latch.none) := by
  have arm : exec (.amon a b t l) s = execAmon a b t l s := rfl
  subst type upToE
  rw [arm, execAmon]
  simp only [second, operand, State.notInRegion_ok closed, State.atomScalar_eq operand form place, State.issueAtoms_one, issued, bind, Except.bind]
  rfl

theorem exec_nma_eq (type : ty = atomTyS l.op t) (global : wins = .global) (room : s.hart.counter kNear < 65535) :
    exec (.nma a b t l) s = .next ((s.setHart (s.nearHart [(p.tgt, ⟨l.op, ty, x.toNat % 2 ^ ty.bits, none⟩)])).retire 2 Latch.none) := by
  have arm : exec (.nma a b t l) s = execNma a b t l s := rfl
  subst type global
  rw [arm, execNma]
  simp only [second, operand, State.notInRegion_ok closed, State.atomScalar_eq operand form place, State.issueNear_eq room, bind, Except.bind]
  rfl

end

/-! ## The elements of a vector atomic (R242) -/

/-- The elements of a vector atomic that take part, each with its address, place and operands. -/
def atomElems (s : State) (k : MSel) (va : Nat → Word64) (p : Nat → Place) (arg : Nat → AtomArg) : List AtomElem :=
  (actives s k).map fun i => ⟨i, va i, (p i).tgt, arg i⟩

/-- The operands of element i of a vector atomic (R242). -/
def State.atomArg (s : State) (d : Nat) (op : AtomOp) (ty : AtomTy) (cas : Bool) (i : Nat) : AtomArg :=
  if cas then ⟨op, ty, s.hart.elem s.vc.vlen (d + s.vc.lmul) s.vc.sew i, some (s.hart.elem s.vc.vlen d s.vc.sew i)⟩
  else ⟨op, ty, s.hart.elem s.vc.vlen d s.vc.sew i, none⟩

section
variable {s : State} {d : Nat} {a b : Src} {k : MSel} {l : MemVA} {wins : Wins} {ty : AtomTy} {idx vas : Nat → Word64} {ps : Nat → Place} {cas : Bool}
  (address : s.indexAddr a b (sx64 l.off) l.xw l.xs l.scale = .ok idx) (elements : Elements s k aAtomic wins l.space idx vas ps)
include address elements

theorem State.atomVector_eq (held : s.heldRegs d (if cas then 2 * s.vc.lmul else s.vc.lmul) = .ok ()) :
    s.atomVector d a b k wins ty l cas = .ok (atomElems s k vas ps (s.atomArg d l.op ty cas)) := by
  rw [State.atomVector]
  simp only [address, held, State.findElems_eq elements, bind, Except.bind, elemsAt, List.filterMap_map, atomElems]
  exact congrArg Except.ok (congrFun List.filterMap_eq_map _)

variable {r : BitVec 6} {u : Bool} (held : s.heldRegs r.toNat s.vc.lmul = .ok ()) (group : s.onBank = false) (type : atomTyV l.op u s.vc.sew = some ty)
  (mask : s.vc.selOk k = true) (index : indexOk s.vc b l.xw = true) (regs : s.vc.regOk r.toNat s.vc.lmul = true) (closed : s.hart.region = none)
include held group type mask index regs closed

theorem State.vatomSend_eq {send : State → List AtomElem → Res State} {v : State}
    (sent : send s (atomElems s k vas ps (s.atomArg r.toNat l.op ty false)) = .ok v) :
    s.vatomSend r a b u k l wins send = .next (v.retire 2 Latch.none) := by
  rw [State.vatomSend]
  simp only [group, type, vatomOk, mask, index, regs, Option.isSome_some, Bool.not_false, Bool.and_self, needOp, need_ok, address, State.notInRegion_ok closed,
    Option.getD_some, State.atomVector_eq address elements (cas := false) held, sent, bind, Except.bind]
  rfl

end

section
variable {s : State} {k : MSel} {va : Nat → Word64} {p : Nat → Place} {arg : Nat → AtomArg}

theorem atomElems_isEmpty (some_ : actives s k ≠ []) : (atomElems s k va p arg).isEmpty = false := by
  rw [atomElems, List.isEmpty_map]
  exact List.isEmpty_eq_false_iff.mpr some_

/-- Elements that lie on this device are one entry that counts in `st` alone. -/
theorem State.issueAtoms_near (some_ : actives s k ≠ []) (near : ∀ i ∈ actives s k, (p i).tgt.device = none) (sc : Scope) :
    s.issueAtoms (atomElems s k va p arg) sc
      = s.issue (.atomic ((actives s k).map fun i => ((p i).tgt, arg i)) (((actives s k).head?.map va).getD 0)) true false true sc := by
  have local_ (i : Nat) (hi : i ∈ actives s k) : (p i).tgt.isRemote = false := by
    rw [Tgt.isRemote, near i hi]
    rfl
  have remote : ((atomElems s k va p arg).any fun e => e.tgt.isRemote) = false := by
    rw [atomElems, List.any_map, List.any_eq_false]
    exact fun i hi => by simp [local_ i hi]
  have here : ((atomElems s k va p arg).any fun e => !e.tgt.isRemote) = true := by
    obtain ⟨i, hi⟩ := List.exists_mem_of_ne_nil _ some_
    rw [atomElems, List.any_map, List.any_eq_true]
    exact ⟨i, hi, by simp [local_ i hi]⟩
  rw [State.issueAtoms]
  simp only [remote, here]
  rw [atomElems, List.map_map, List.head?_map, Option.map_map]
  rfl

theorem atomElems_pairs : (atomElems s k va p arg).map (fun e => (e.tgt, e.arg)) = (actives s k).map fun i => ((p i).tgt, arg i) := by
  rw [atomElems, List.map_map]
  rfl

end

end Sys2Proof.Machine

namespace Sys2Proof.Claims
open Sys2Proof.Machine

/-- Settles O25: the elements are one entry of the queue, or one command that stands last and has raised `near`. -/
theorem atomicsWithoutReturnAreQueued : Obligations.AtomicsWithoutReturnAreQueued := by
  intro s a b r t u k l q base x va p ty idx vas ps closed group operand second sty arg varg near
  refine ⟨fun form => ⟨fun place => ?amon, fun place room => ⟨_, exec_nma_eq operand form place second closed rfl rfl room, s.near_issued closed _ 2⟩⟩,
    fun type mask index regs held address some_ => ?vectors⟩
  case amon =>
    intro far op room
    obtain ⟨v, issued, enters⟩ := State.issue_enters (sc := l.scope) (n := 2) room
    exact ⟨_, exec_amon_eq operand form place second closed rfl rfl issued, enters⟩
  case vectors =>
    intro es
    refine ⟨fun elements here => ?vamon, fun elements room => ?vnma⟩
    case vamon =>
      intro op room
      obtain ⟨v, issued, enters⟩ := State.issue_enters (sc := q.scope) (n := 2) room
      have arm : exec (.vamon r a b u k q) s = execVamon r a b u k q s := rfl
      refine ⟨_, arm.trans (State.vatomSend_eq address elements held group type mask index regs closed ?_), enters⟩
      rw [atomElems_isEmpty some_, if_neg Bool.false_ne_true, State.issueAtoms_near some_ here]
      exact issued
    case vnma =>
      have arm : exec (.vnma r a b u k q) s = execVnma r a b u k q s := rfl
      refine ⟨_, arm.trans (State.vatomSend_eq address elements held group type mask index regs closed ?_), s.near_issued closed es 2⟩
      rw [State.issueNear_eq room, atomElems_pairs]
      rfl

end Sys2Proof.Claims
end

