-- ==== Sys2Proof/Proofs/ScalarAtomics.lean ====
section
/-! PROOFS. Why the statement of the scalar atomics fails: it does not ask that the path has no element of the instruction applied yet (R243), and one that is applied is not applied again. -/

namespace Sys2Proof.Machine
open Sys2Proof.Claims

/-- The one group of team 1, which has an allocation of 1 KiB, with the old value of element 0 kept in its path. -/
def State.atomApplied : State :=
  { State.reset with
    cur := ⟨.group, 1, 0, false, 0, 0⟩
    harts := [(.group 1 0, { Hart.reset with p0 := { Path.idle with part := [(0, 5)] } })]
    teams := [(1, { Team.vacant with live := true, spad := 1 })] }

/-! ## An element that has been applied (R243) -/

theorem joinElems_nil {α : Type} (vlen w : Nat) : joinElems vlen w ([] : List (Nat × Res α)) = .ok [] := rfl

theorem State.awayOlds_nil (s : State) : s.awayOlds [] = .ok [] := rfl

section
variable {s : State}

theorem State.runAtoms_applied {e : AtomElem} (applied : (mfind e.i s.path.part).isSome = true) : s.runAtoms 0 [e] = .ok (s, s.path.part, true) := by
  have left : ([e].filter fun e => (mfind e.i s.path.part).isNone) = [] :=
    List.filter_cons_of_neg (by simpa [Option.isSome_iff_ne_none] using applied)
  rw [State.runAtoms]
  simp only [left, List.map_nil, joinElems_nil, State.awayOlds_nil, beq_self_eq_true, Bool.or_true, if_true, List.filterMap_nil, bind, Except.bind]
  exact congrArg (fun olds => Except.ok (s, olds, true)) (List.append_nil _)

/-- AMO of an element that the path has applied only answers. -/
theorem exec_amo_applied {d : Dst} {a b : Src} {t : IntTy} {l : MemA} {base x va : Word64} {p : Place} (group : s.onBank = false)
    (closed : s.hart.region = none) (operand : s.opnd a = .ok base) (second : s.opnd b = .ok x) (form : s.form l.space base (sx64 l.off) = .ok va)
    (place : s.locate aAtomic .upToE va ((atomTyS l.op t).bits / 8) ((atomTyS l.op t).bits / 8) = .ok p) (sq : s.hart.sq = [])
    (free : s.blocked s.hart p.tgt ((atomTyS l.op t).bits / 8) = false) (drained : s.drained l.scope = .ok ()) (applied : (mfind 0 s.path.part).isSome = true) :
    exec (.amo d a b t l) s = .next ((s.acquire l.scope).retireS 2 d (atomResult (atomTyS l.op t) (mget 0 0 s.path.part))) := by
  have arm : exec (.amo d a b t l) s = s.atomReturn d a b t l none := rfl
  rw [arm, State.atomReturn]
  simp only [second, operand, State.notInRegion_ok closed, State.atomScalar_eq operand form place, group, Bool.not_false, if_true, sq, List.isEmpty_nil, free,
    Bool.and_self, await_ok, drained, State.runAtoms_applied (e := ⟨0, _, _, _⟩) applied, bind, Except.bind]
  rfl

/-- An answer that retires after an acquire leaves the team. -/
theorem State.acquire_retireS_team (s : State) (sc : Scope) (n : Nat) (d : Dst) (x : Word64) : ((s.acquire sc).retireS n d x).team = s.team := by
  have only := (State.acquire_cachesMoved s sc).onlyHartAndCaches ((s.acquire sc).retireS_scalarDone n d x).only
  have cur : ((s.acquire sc).retireS n d x).cur = s.cur := by rw [only.rest]
  rw [State.team, cur]
  exact onlyHartAndCaches_teamOf only _

end

/-- AMO.add of 1 to the first word of the allocation (R239) changes no byte of it. -/
theorem exec_amo_atomApplied : ∃ t, exec (.amo ⟨1, false⟩ (.const 0x10) (.const 0x11) ⟨true, 2⟩ ⟨.l, .grp, .add, 0⟩) State.atomApplied = .next t
    ∧ t.team.mem.byte 0 = 0 := by
  refine ⟨_, exec_amo_applied (base := 0) (x := 1) (va := 0x00D0000000000000) (p := ⟨.spad 1 0, false⟩) rfl rfl rfl rfl rfl (by decide) rfl (by decide) (by decide) rfl, ?_⟩
  rw [State.acquire_retireS_team]
  rfl

end Sys2Proof.Machine

namespace Sys2Proof.Claims
open Sys2Proof.Machine

/-- Refutes O24: with the old value of its element kept in the path, as after a part of its elements was applied, AMO changes no byte. -/
theorem not_scalarAtomicResults : ¬ Obligations.ScalarAtomicResults := by
  intro h
  obtain ⟨amo, -⟩ := (h State.atomApplied ⟨1, false⟩ (.const 0x10) (.const 0x11) ⟨true, 2⟩ ⟨.l, .grp, .add, 0⟩ 0 1 0x00D0000000000000 ⟨.spad 1 0, false⟩
    rfl rfl rfl rfl rfl (by decide) rfl (by decide) (by decide) (by decide) rfl rfl rfl rfl (fun u i => u.team.mem.byte i) 0 (.inl ⟨0, rfl, rfl, rfl⟩)).1 (by decide)
  obtain ⟨u, done, -, -, -, -, -, -, bytes⟩ := amo
  obtain ⟨t, run, unchanged⟩ := exec_amo_atomApplied
  obtain rfl : u = t := Host.Outcome.next.inj (done.symm.trans run)
  have changed := bytes 0
  rw [unchanged] at changed
  exact absurd changed (by decide)

end Sys2Proof.Claims
end

