-- ==== Sys2Proof/Proofs/AtomOrder.lean ====
section
/-! PROOFS. The order of the passes of a vector atomic (R243): whatever the order among locations, the elements of each location keep theirs, and so the memory and the old values are those of the increasing order. -/

namespace Sys2Proof.Machine
open Sys2Proof.Claims

/-! ## The passes keep the order at each location -/

section
variable {α β : Type} (loc : α → Tgt)

/-- An element that is the first at its location belongs to this pass, any other to the later ones. -/
def passStep (r : List α × List α) (e : α) : List α × List α :=
  if r.1.any fun x => loc x == loc e then (r.1, r.2 ++ [e]) else (r.1 ++ [e], r.2)

/-- The elements of this pass, and those of the later ones. -/
def passSplit (es : List α) : List α × List α := es.foldl (passStep loc) ([], [])

theorem passOrder_succ (fuel : Nat) (es : List α) : passOrder loc (fuel + 1) es
    = if (passSplit loc es).2.isEmpty then (passSplit loc es).1 else (passSplit loc es).1 ++ passOrder loc fuel (passSplit loc es).2 := rfl

variable {loc}

theorem passSplit_map (f : β → α) (es : List β) : passSplit loc (es.map f) = ((passSplit (loc ∘ f) es).1.map f, (passSplit (loc ∘ f) es).2.map f) := by
  have step (r : List β × List β) (e : β) :
      passStep loc (r.1.map f, r.2.map f) (f e) = ((passStep (loc ∘ f) r e).1.map f, (passStep (loc ∘ f) r e).2.map f) := by
    simp only [passStep, List.any_map, Function.comp_def]
    split <;> simp
  have folds (r : List β × List β) : (es.map f).foldl (passStep loc) (r.1.map f, r.2.map f)
      = ((es.foldl (passStep (loc ∘ f)) r).1.map f, (es.foldl (passStep (loc ∘ f)) r).2.map f) := by
    induction es generalizing r with
    | nil => rfl
    | cons e es ih => rw [List.map_cons, List.foldl_cons, List.foldl_cons, step, ih]
  exact folds ([], [])

theorem passOrder_map (f : β → α) (fuel : Nat) (es : List β) : passOrder loc fuel (es.map f) = (passOrder (loc ∘ f) fuel es).map f := by
  induction fuel generalizing es with
  | zero => rfl
  | succ fuel ih =>
    rw [passOrder_succ, passOrder_succ, passSplit_map, List.isEmpty_map]
    split
    · rfl
    · rw [ih, List.map_append]


theorem passStep_filter {r : List α × List α} (later : ∀ y ∈ r.2, ∃ x ∈ r.1, loc x = loc y) (e : α) (t : Tgt) :
    ((passStep loc r e).1 ++ (passStep loc r e).2).filter (loc · = t) = (r.1 ++ r.2).filter (loc · = t) ++ [e].filter (loc · = t) := by
  unfold passStep
  split
  · rw [← List.append_assoc, List.filter_append]
  · next first =>
    by_cases here : loc e = t
    · have none_ : r.2.filter (loc · = t) = [] := List.filter_eq_nil_iff.mpr fun y hy at_ => by
        obtain ⟨x, hx, same⟩ := later y hy
        exact first (List.any_eq_true.mpr ⟨x, hx, by simpa [same, here] using at_⟩)
      simp [List.filter_append, List.filter_cons, none_]
    · simp [List.filter_append, here]

theorem passStep_later {r : List α × List α} (later : ∀ y ∈ r.2, ∃ x ∈ r.1, loc x = loc y) (e : α) :
    ∀ y ∈ (passStep loc r e).2, ∃ x ∈ (passStep loc r e).1, loc x = loc y := by
  unfold passStep
  split
  · next found =>
    intro y hy
    rcases List.mem_append.mp hy with old | new
    · exact later y old
    · obtain ⟨x, hx, same⟩ := List.any_eq_true.mp found
      exact ⟨x, hx, by rw [List.mem_singleton.mp new]; exact eq_of_beq same⟩
  · intro y hy
    obtain ⟨x, hx, same⟩ := later y hy
    exact ⟨x, List.mem_append_left _ hx, same⟩

theorem passSplit_filter (es : List α) (t : Tgt) : ((passSplit loc es).1 ++ (passSplit loc es).2).filter (loc · = t) = es.filter (loc · = t) := by
  have folds (r : List α × List α) (later : ∀ y ∈ r.2, ∃ x ∈ r.1, loc x = loc y) :
      ((es.foldl (passStep loc) r).1 ++ (es.foldl (passStep loc) r).2).filter (loc · = t) = (r.1 ++ r.2).filter (loc · = t) ++ es.filter (loc · = t) := by
    induction es generalizing r with
    | nil => rw [List.filter_nil, List.append_nil]; rfl
    | cons e es ih =>
      rw [List.foldl_cons, ih _ (passStep_later later e), passStep_filter later, List.append_assoc, ← List.filter_append]
      rfl
  exact folds ([], []) fun y hy => absurd hy List.not_mem_nil

/-- The passes keep the order of the elements of each location (R243). -/
theorem passOrder_filter (fuel : Nat) (es : List α) (t : Tgt) : (passOrder loc fuel es).filter (loc · = t) = es.filter (loc · = t) := by
  induction fuel generalizing es with
  | zero => rfl
  | succ fuel ih =>
    have split_ := passSplit_filter (loc := loc) es t
    rw [passOrder_succ]
    split
    · next last => rwa [List.isEmpty_iff.mp last, List.append_nil] at split_
    · rwa [List.filter_append, ih, ← List.filter_append]

theorem passOrder_perm [DecidableEq α] (fuel : Nat) (es : List α) : (passOrder loc fuel es).Perm es :=
  List.perm_iff_count.mpr fun x => by
    have here (l : List α) : (l.filter (loc · = loc x)).count x = l.count x := List.count_filter (decide_eq_true rfl)
    rw [← here, passOrder_filter, here]

end

/-! ## Memories by their aligned blocks -/

theorem Mem.ext_above {lo : Nat} {m u : Mem} (hm : Mem.above lo m = true) (hu : Mem.above lo u = true) (same : ∀ x, m.byte x = u.byte x) : m = u := by
  induction m generalizing lo u with
  | nil =>
    cases u with
    | nil => rfl
    | cons c u =>
      obtain ⟨a, b⟩ := c
      have first := same a
      simp_all [Mem.byte, Mem.above]
  | cons c m ih =>
    obtain ⟨a, b⟩ := c
    cases u with
    | nil =>
      have first := same a
      simp_all [Mem.byte, Mem.above]
    | cons c' u =>
      obtain ⟨a', b'⟩ := c'
      simp only [Mem.above, Bool.and_eq_true, decide_eq_true_eq, bne_iff_ne, ne_eq] at hm hu
      obtain ⟨⟨-, listed⟩, tail⟩ := hm
      obtain ⟨⟨-, listed'⟩, tail'⟩ := hu
      have addr : a = a' := by
        by_contra ne
        rcases Nat.lt_or_gt_of_ne ne with lt | gt
        · exact listed (by simpa [Mem.byte, lt, Ne.symm ne] using same a)
        · exact listed' (by simpa [Mem.byte, gt, ne] using (same a').symm)
      subst addr
      have value : b = b' := by simpa [Mem.byte] using same a
      subst value
      rw [ih tail tail' fun x => ?_]
      by_cases below : x < a + 1
      · rw [Mem.byte_of_above tail below, Mem.byte_of_above tail' below]
      · have at_ := same x
        simp only [Mem.byte, show a ≠ x by omega, show ¬ x < a by omega, if_false] at at_
        exact at_

section
variable {m u : Mem} {n : Nat}

/-- A read gives the bytes of its number. -/
theorem Mem.byte_of_nat (m : Mem) (o : Nat) {i : Nat} (hi : i < n) : m.byte (o + i) = (leBytes n (m.nat o n)).getD i 0 := by
  have bytes := leBytes_leNat (m.read o n)
  rw [Mem.read_length] at bytes
  rw [Mem.nat, bytes, Mem.read_eq]
  simp [hi]

theorem Mem.ext_blocks (hm : m.wf = true) (hu : u.wf = true) (pos : 0 < n) (same : ∀ o, n ∣ o → m.nat o n = u.nat o n) : m = u :=
  Mem.ext_above hm hu fun x => by
    have block := same (n * (x / n)) ⟨_, rfl⟩
    have at_ (v : Mem) := v.byte_of_nat (n * (x / n)) (Nat.mod_lt x pos)
    rw [← Nat.div_add_mod x n, at_, at_, block]

/-- A write to one aligned block leaves the others (R137). -/
theorem Mem.nat_write (hm : m.wf = true) {o b : Nat} (read : n ∣ o) (written : n ∣ b) (x : Nat) :
    (m.write b (leBytes n x)).nat o n = if b = o then x % 256 ^ n else m.nat o n := by
  rw [Mem.nat, Mem.read_eq]
  simp only [Mem.byte_write hm, leBytes_length]
  split
  · next same =>
    subst same
    have bytes : ((List.range n).map fun i => if b ≤ b + i ∧ b + i < b + n then (leBytes n x).getD (b + i - b) 0 else m.byte (b + i)) = leBytes n x := by
      refine List.ext_getElem (by simp) fun i hi _ => ?_
      have low : i < n := by simpa using hi
      simp [low]
    rw [bytes, leNat_leBytes_mod]
  · next ne =>
    obtain ⟨p, rfl⟩ := read
    obtain ⟨q, rfl⟩ := written
    rw [Mem.nat, Mem.read_eq]
    refine congrArg leNat (List.map_congr_left fun i hi => if_neg fun ⟨start, stop⟩ => ?_)
    have low := List.mem_range.mp hi
    rcases Nat.lt_trichotomy p q with lt | rfl | gt
    · have apart := Nat.mul_le_mul_left n lt
      rw [Nat.mul_succ] at apart
      omega
    · exact ne rfl
    · have apart := Nat.mul_le_mul_left n gt
      rw [Nat.mul_succ] at apart
      omega

theorem Mem.nat_lt_pow (m : Mem) (o : Nat) : m.nat o n < 256 ^ n := by
  have small := leNat_lt (m.read o n)
  rwa [Mem.read_length] at small

end

/-! ## Elements in any order that keeps each location's (R243) -/

/-- The value that an element leaves at its location. -/
def AtomArg.leaves (n : Nat) (a : AtomArg) (v : Nat) : Nat := a.next v % 256 ^ n

/-- The value that element j meets at a location with value v, of the elements there. -/
def metBy (n : Nat) (arg : Nat → AtomArg) (j v : Nat) : List Nat → Nat
  | [] => 0
  | i :: is => if i = j then v else metBy n arg j ((arg i).leaves n v) is

section
variable {m : Mem} {n : Nat} {off : Nat → Nat} {arg : Nat → AtomArg} {is js : List Nat}

theorem atomRun_wf (wf : m.wf = true) : (atomRun m n off arg is).wf = true := by
  induction is generalizing m with
  | nil => exact wf
  | cons i is ih => exact ih (Mem.wf_write wf)

/-- A location's value after a run is what its own elements leave. -/
theorem atomRun_nat (wf : m.wf = true) (aligned : ∀ i ∈ is, n ∣ off i) {o : Nat} (location : n ∣ o) :
    (atomRun m n off arg is).nat o n = (is.filter (off · = o)).foldl (fun v i => (arg i).leaves n v) (m.nat o n) := by
  induction is generalizing m with
  | nil => rfl
  | cons i is ih =>
    rw [atomRun, ih (Mem.wf_write wf) fun j hj => aligned j (List.mem_cons_of_mem _ hj), Mem.nat_write wf location (aligned i List.mem_cons_self)]
    by_cases here : off i = o
    · rw [if_pos here, List.filter_cons_of_pos (by simpa using here), List.foldl_cons, ← here]
      rfl
    · rw [if_neg here, List.filter_cons_of_neg (by simpa using here)]

/-- What an element meets is left by the elements of its location before it. -/
theorem atomOld_eq_metBy (wf : m.wf = true) (aligned : ∀ i ∈ is, n ∣ off i) {j : Nat} (location : n ∣ off j) :
    atomOld m n off arg j is = metBy n arg j (m.nat (off j) n) (is.filter (off · = off j)) := by
  induction is generalizing m with
  | nil => rfl
  | cons i is ih =>
    rw [atomOld]
    by_cases same : i = j
    · subst same
      rw [if_pos rfl, List.filter_cons_of_pos (by simp), metBy, if_pos rfl]
    · rw [if_neg same, ih (Mem.wf_write wf) fun j hj => aligned j (List.mem_cons_of_mem _ hj), Mem.nat_write wf location (aligned i List.mem_cons_self)]
      by_cases here : off i = off j
      · rw [if_pos here, List.filter_cons_of_pos (by simpa using here), metBy, if_neg same, here]
        rfl
      · rw [if_neg here, List.filter_cons_of_neg (by simpa using here)]

theorem atomOld_lt (j : Nat) : atomOld m n off arg j is < 256 ^ n := by
  induction is generalizing m with
  | nil => exact Nat.pow_pos (by decide)
  | cons i is ih =>
    rw [atomOld]
    split
    · exact m.nat_lt_pow _
    · exact ih

variable (wf : m.wf = true) (pos : 0 < n) (aligned : ∀ i ∈ is, n ∣ off i) (members : js.Perm is) (order : ∀ o, js.filter (off · = o) = is.filter (off · = o))
include wf pos aligned members order

theorem atomRun_congr : atomRun m n off arg js = atomRun m n off arg is :=
  Mem.ext_blocks (atomRun_wf wf) (atomRun_wf wf) pos fun o location => by
    rw [atomRun_nat wf (fun i hi => aligned i (members.subset hi)) location, atomRun_nat wf aligned location, order]

omit pos in
theorem atomOld_congr {j : Nat} (mem : j ∈ is) : atomOld m n off arg j js = atomOld m n off arg j is := by
  rw [atomOld_eq_metBy wf (fun i hi => aligned i (members.subset hi)) (aligned j mem), atomOld_eq_metBy wf aligned (aligned j mem), order]

end

end Sys2Proof.Machine
end

