-- ==== Sys2Proof/Proofs/VectorAtomics.lean ====
section
/-! PROOFS. Vector atomics on the own allocation (R242, R243): the elements that are applied, what each meets and leaves, and the old values by R110. -/

namespace Sys2Proof.Machine
open Sys2Proof.Claims

/-! ## Offsets of elements in an allocation are aligned (R137) -/

theorem State.locSpad_offset {s : State} {k : AccKind} {va : Word64} {off n tm o : Nat} {p : Place} (place : s.locSpad k va off n = .ok p)
    (tgt : p.tgt = .spad tm o) : o = off := by
  unfold State.locSpad at place
  split at place
  · cases place
  · split at place
    · cases place
    · cases place
      cases tgt
      rfl

/-- Global memory is no allocation. -/
theorem State.locGlobal_not_spad {s : State} {k : AccKind} {va : Word64} {p : Place} (place : s.locGlobal k va = .ok p) (tm o : Nat) : p.tgt ≠ .spad tm o := by
  unfold State.locGlobal at place
  dsimp only at place
  split at place
  · cases place
  next q found =>
  suffices same : p = q from same ▸ State.vplace_not_spad found tm o
  split at place
  · split at place
    · cases place
    · split at place
      · cases place
      · exact (Except.ok.inj place).symm
  · split at place
    · cases place
    · exact (Except.ok.inj place).symm
  · exact (Except.ok.inj place).symm

/-- Private memory is no allocation. -/
theorem State.locPrivate_not_spad {s : State} {k : AccKind} {va : Word64} {n : Nat} {p : Place} (place : s.locPrivate k va n = .ok p) (tm o : Nat) :
    p.tgt ≠ .spad tm o := by
  unfold State.locPrivate at place
  dsimp only at place
  split at place
  · cases place
  · split at place
    · cases place
    · split at place
      · cases place
      · next q found =>
        cases place
        exact State.vplace_not_spad found tm o

theorem State.locWindow_aligned {s : State} {k : AccKind} {va : Word64} {n tm o : Nat} {p : Place} (small : n ∣ 4096) (aligned : n ∣ va.toNat)
    (place : s.locWindow k va n = .ok p) (tgt : p.tgt = .spad tm o) : n ∣ o := by
  have inWindow : n ∣ va.toNat % 2 ^ 20 := (Nat.dvd_mod_iff (small.trans (by decide))).mpr aligned
  unfold State.locWindow at place
  dsimp only at place
  split at place
  · cases place
  · split at place
    · cases place
      cases tgt
    · next e found =>
      split at place
      · rw [State.locSpad_offset place tgt]
        exact Nat.dvd_sub inWindow (small.trans (Dvd.intro_left _ rfl))
      · split at place
        · cases place
        · cases place
          cases tgt

/-- What is aligned in its window is aligned in the allocation. -/
theorem State.locate_aligned {s : State} {k : AccKind} {wins : Wins} {va : Word64} {n tm o : Nat} {p : Place} (group : s.onBank = false) (small : n ∣ 4096)
    (place : s.locate k wins va n n = .ok p) (tgt : p.tgt = .spad tm o) : n ∣ o := by
  unfold State.locate at place
  rw [group, if_neg Bool.false_ne_true] at place
  split at place
  · cases place
  next w window =>
  split at place
  · cases place
  split at place
  · cases place
  next aligned =>
  have aligned : n ∣ va.toNat := Nat.dvd_of_mod_eq_zero (not_not.mp aligned)
  split at place
  · exact absurd tgt (State.locGlobal_not_spad place tm o)
  split at place
  · exact absurd tgt (State.locPrivate_not_spad place tm o)
  split at place
  · split at place
    · cases place
    · rw [State.locSpad_offset place tgt]
      exact (Nat.dvd_mod_iff (small.trans (by decide))).mpr aligned
  split at place
  · exact State.locWindow_aligned small aligned place tgt
  · cases place

theorem State.find_aligned {s : State} {k : AccKind} {wins : Wins} {va : Word64} {n tm o : Nat} {p : Place} (group : s.onBank = false) (small : n ∣ 4096)
    (found : s.find k wins va n n = .ok (.mem p)) (tgt : p.tgt = .spad tm o) : n ∣ o := by
  unfold State.find at found
  split at found
  · split at found
    · cases op : s.apertureStore va n 0 <;> rw [op] at found <;> cases found
    · cases op : s.apertureLoads va n <;> rw [op] at found <;> cases found
  · cases place : s.locate k wins va n n with
    | error h => rw [place] at found; cases found
    | ok q =>
      rw [place] at found
      cases found
      exact State.locate_aligned group small place tgt

/-! ## Applying elements of an allocation -/

/-- Elements of team k's allocation have been applied, and its memory is m. -/
structure State.AtomsApplied (s u : State) (k : Nat) (m : Mem) : Prop where
  rest : u = { s with teams := u.teams }
  others : ∀ j, j ≠ k → u.teamOf j = s.teamOf j
  team : u.teamOf k = { s.teamOf k with mem := m, marks := (u.teamOf k).marks }

theorem State.AtomsApplied.refl (s : State) (k : Nat) : s.AtomsApplied s k (s.teamOf k).mem := ⟨rfl, fun _ _ => rfl, rfl⟩

theorem Team.poke_quiet {t : Team} (quiet : t.syncs = []) (off : Nat) (bs : List Byte) :
    t.poke off bs false = { t with mem := t.mem.write off bs, marks := (t.poke off bs false).marks } := by
  unfold Team.poke
  rw [quiet]
  rfl

/-- The fold's step: one element is applied, and its old value is kept (R243). -/
def State.applyNext (core : Option Nat) (r : State × List (Nat × Nat)) (x : Nat × Tgt × AtomArg) : State × List (Nat × Nat) :=
  ((r.1.applyAtom core x.2.1 x.2.2).1, (x.1, (r.1.applyAtom core x.2.1 x.2.2).2) :: r.2)

section
variable {s u : State} {k : Nat} {m : Mem} (group : s.onBank = false) (quiet : (s.teamOf k).syncs = [])
include group quiet

theorem State.AtomsApplied.applyAtom (applied : s.AtomsApplied u k m) (core : Option Nat) (o : Nat) (a : AtomArg) :
    (u.applyAtom core (.spad k o) a).2 = m.nat o (a.ty.bits / 8)
      ∧ s.AtomsApplied (u.applyAtom core (.spad k o) a).1 k (m.write o (leBytes (a.ty.bits / 8) (a.next (m.nat o (a.ty.bits / 8))))) := by
  obtain ⟨rest, others, team⟩ := applied
  have mem : (u.teamOf k).mem = m := congrArg Team.mem team
  have still : (u.teamOf k).syncs = [] := (congrArg Team.syncs team).trans quiet
  have bank : u.onBank = false := by
    rw [rest]
    exact group
  have run : u.applyAtom core (.spad k o) a
      = (u.setTeamOf k ((u.teamOf k).poke o (leBytes (a.ty.bits / 8) (a.next (m.nat o (a.ty.bits / 8)))) false), m.nat o (a.ty.bits / 8)) := by
    rw [← mem]
    unfold State.applyAtom
    simp only [bank, Bool.false_eq_true, if_false]
    rfl
  rw [run]
  refine ⟨rfl, ?_, fun j ne => (u.teamOf_setTeamOf_ne ne _).trans (others j ne), ?_⟩
  · dsimp only
    rw [State.setTeamOf, rest]
  · dsimp only
    rw [State.teamOf_setTeamOf, Team.poke_quiet still, mem, team]

/-- The elements in order: the memory is that of the run, and each old value is kept. -/
theorem State.AtomsApplied.foldl {n : Nat} {off : Nat → Nat} {arg : Nat → AtomArg} (width : ∀ i, (arg i).ty.bits / 8 = n) (core : Option Nat) {is : List Nat}
    (distinct : is.Nodup) (applied : s.AtomsApplied u k m) (kept : List (Nat × Nat)) :
    let r := (is.map fun i => (i, Tgt.spad k (off i), arg i)).foldl (State.applyNext core) (u, kept)
    s.AtomsApplied r.1 k (atomRun m n off arg is) ∧ ∀ j, mfind j r.2 = if j ∈ is then some (atomOld m n off arg j is) else mfind j kept := by
  induction is generalizing u m kept with
  | nil => exact ⟨applied, fun j => by simp⟩
  | cons i is ih =>
    obtain ⟨fresh, distinct⟩ := List.nodup_cons.mp distinct
    obtain ⟨old, next⟩ := applied.applyAtom group quiet core (off i) (arg i)
    rw [width i] at old next
    obtain ⟨run, found⟩ := ih distinct next ((i, m.nat (off i) n) :: kept)
    have step : State.applyNext core (u, kept) (i, Tgt.spad k (off i), arg i) = ((u.applyAtom core (.spad k (off i)) (arg i)).1, (i, m.nat (off i) n) :: kept) := by
      rw [State.applyNext, old]
    rw [List.map_cons, List.foldl_cons, step]
    refine ⟨run, fun j => ?_⟩
    rw [found j, atomOld, mfind]
    by_cases same : i = j
    · subst same
      rw [if_neg fresh, if_pos rfl, if_pos List.mem_cons_self, if_pos rfl]
    · simp [same, Ne.symm same]

end

/-! ## The instruction (R242) -/

/-- The active elements in the order of their passes. -/
def State.inPasses (s : State) (k : MSel) (off : Nat → Nat) : List Nat :=
  passOrder (fun i => Tgt.spad s.cur.team (off i)) (actives s k).length (actives s k)

/-- The state and the old values once every active element has been applied. -/
def State.allApplied (s : State) (k : MSel) (off : Nat → Nat) (arg : Nat → AtomArg) : State × List (Nat × Nat) :=
  ((s.inPasses k off).map fun i => (i, Tgt.spad s.cur.team (off i), arg i)).foldl (State.applyNext (some s.team.core)) (s.chosen, [])

theorem State.atomPlace_spad {s : State} {e : AtomElem} {tm o : Nat} (tgt : e.tgt = .spad tm o) (clean : (s.teamOf tm).markedAt o (e.arg.ty.bits / 8) = false) :
    s.atomPlace e = .ok (.here (.spad tm o)) := by
  unfold State.atomPlace
  rw [tgt]
  exact if_neg (Bool.eq_false_iff.mp clean)

section
variable {s : State} {k : MSel} {vas : Nat → Word64} {ps : Nat → Place} {off : Nat → Nat} {arg : Nat → AtomArg} {n : Nat} (group : s.onBank = false)
  (width : ∀ i, (arg i).ty.bits / 8 = n)
include group width

section
variable (fresh : s.path.part = []) (all : s.choice = 0) (here : ∀ i ∈ actives s k, (ps i).tgt = .spad s.cur.team (off i))
  (clean : ∀ i ∈ actives s k, s.team.markedAt (off i) n = false)
include fresh all here clean

theorem State.runAtoms_here {w : Nat} (pos : w ≠ 0) :
    s.runAtoms w (atomElems s k vas ps arg) = .ok ((s.allApplied k off arg).1, (s.allApplied k off arg).2, true) := by
  have left : (atomElems s k vas ps arg).filter (fun e => (mfind e.i ([] : List (Nat × Nat))).isNone) = atomElems s k vas ps arg :=
    List.filter_eq_self.mpr fun _ _ => rfl
  have places : (atomElems s k vas ps arg).map (fun e => (e.i, (s.atomPlace e).map fun p => (e, p)))
      = (actives s k).map fun i => (i, (.ok (⟨i, vas i, (ps i).tgt, arg i⟩, .here (.spad s.cur.team (off i))) : Res (AtomElem × AtomPlace))) := by
    rw [atomElems, List.map_map]
    refine List.map_congr_left fun i hi => ?_
    have place := State.atomPlace_spad (e := ⟨i, vas i, (ps i).tgt, arg i⟩) (here i hi) (by rw [width i]; exact clean i hi)
    simp only [Function.comp_apply, place]
    rfl
  have order : passOrder (fun x : Nat × Tgt × AtomArg => x.2.1) (actives s k).length ((actives s k).map fun i => (i, Tgt.spad s.cur.team (off i), arg i))
      = (s.inPasses k off).map fun i => (i, Tgt.spad s.cur.team (off i), arg i) := passOrder_map _ _ _
  have noneAway {α : Type} : (actives s k).filterMap (fun _ => (none : Option α)) = [] := List.filterMap_eq_nil_iff.mpr fun _ _ => rfl
  have allHere {α : Type} (f : Nat → α) : (actives s k).filterMap (fun i => some (f i)) = (actives s k).map f := congrFun List.filterMap_eq_map _
  have whole {α : Type} (f : Nat → α) : ((s.inPasses k off).map f).take (s.inPasses k off).length = (s.inPasses k off).map f :=
    List.take_of_length_le (List.length_map f).le
  rw [State.runAtoms]
  simp only [fresh, left, places, joinElems_ok _ _ _ fun i => i, bind, Except.bind, List.filterMap_map, Function.comp_def, List.length_map, noneAway, allHere,
    State.awayOlds_nil, order, all, decide_true, Bool.true_or, if_true, whole, List.append_nil, group, Bool.false_eq_true, if_false, pos]
  rfl

theorem State.vatomReturn_eq {d : Dst} {a b : Src} {u cas : Bool} {l : MemVA} {ty : AtomTy} {idx : Nat → Word64} (closed : s.hart.region = none)
    (sq : s.hart.sq = []) (drained : s.drained l.scope = .ok ()) (type : atomTyV l.op u s.vc.sew = some ty) (mask : s.vc.selOk k = true)
    (index : indexOk s.vc b l.xw = true) (dst : s.vc.dstOk d s.vc.lmul = true) (regs : s.vc.regOk d.reg.toNat (if cas then 2 * s.vc.lmul else s.vc.lmul) = true)
    (held : s.heldRegs d.reg.toNat (if cas then 2 * s.vc.lmul else s.vc.lmul) = .ok ()) (address : s.indexAddr a b (sx64 l.off) l.xw l.xs l.scale = .ok idx)
    (elements : Elements s k aAtomic .upToE l.space idx vas ps) (operands : s.atomArg d.reg.toNat l.op ty cas = arg) (bits : ty.bits / 8 = n)
    (free : ∀ i ∈ actives s k, s.blocked s.hart (.spad s.cur.team (off i)) n = false) :
    s.vatomReturn d a b u k l cas = .next (retireAfter 2 (((s.allApplied k off arg).1.acquire l.scope).writeV s.vc d ((s.allApplied k off arg).1.sel k) s.vc.sew s.vc.lmul
      (placeVals s.vc.max (s.allApplied k off arg).2))) := by
  have unblocked : (atomElems s k vas ps arg).all (fun e => !s.blocked s.hart e.tgt (ty.bits / 8)) = true := by
    rw [atomElems, List.all_map, List.all_eq_true, bits]
    intro i hi
    rw [Function.comp_apply, here i hi, free i hi]
    rfl
  rw [State.vatomReturn]
  simp only [group, type, vatomOk, mask, index, dst, regs, Option.isSome_some, Bool.not_false, Bool.and_self, needOp, need_ok, address,
    State.notInRegion_ok closed, Option.getD_some, State.atomVector_eq address elements held, operands, sq, List.isEmpty_nil, unblocked, await_ok, drained,
    State.runAtoms_here group width fresh all here clean s.sew_width.pos.ne', Bool.not_true, Bool.false_eq_true, if_false, bind, Except.bind]
  rfl

end

section
variable (quiet : s.team.syncs = []) (wf : s.team.mem.wf = true) (pos : 0 < n) (aligned : ∀ i ∈ actives s k, n ∣ off i)
include quiet wf pos aligned

/-- The passes leave the memory of the increasing order, and each element's old value (R243). -/
theorem State.allApplied_run : s.chosen.AtomsApplied (s.allApplied k off arg).1 s.cur.team (atomRun s.team.mem n off arg (actives s k))
    ∧ ∀ i ∈ actives s k, mfind i (s.allApplied k off arg).2 = some (atomOld s.team.mem n off arg i (actives s k)) := by
  have members : (s.inPasses k off).Perm (actives s k) := passOrder_perm _ _
  have order (o : Nat) : (s.inPasses k off).filter (off · = o) = (actives s k).filter (off · = o) := by
    have kept := passOrder_filter (loc := fun i => Tgt.spad s.cur.team (off i)) (actives s k).length (actives s k) (.spad s.cur.team o)
    simp only [Tgt.spad.injEq, true_and] at kept
    exact kept
  have distinct : (s.inPasses k off).Nodup := members.nodup_iff.mpr (List.nodup_range.filter _)
  obtain ⟨run, found⟩ := (State.AtomsApplied.refl s.chosen s.cur.team).foldl (s := s.chosen) group quiet width (some s.team.core) distinct (off := off) []
  refine ⟨?_, fun i hi => ?_⟩
  · rw [← atomRun_congr wf pos aligned members order]
    exact run
  · rw [← atomOld_congr wf aligned members order hi]
    exact (found i).trans (if_pos (members.mem_iff.mpr hi))

end

end

/-- Once the elements have been applied, the old values are written by R110. -/
theorem State.AtomsApplied.written {s v : State} {d : Dst} {k : MSel} {m : Mem} {olds : List (Nat × Nat)} {old : Nat → Nat}
    (applied : s.chosen.AtomsApplied v s.cur.team m) (dst : s.vc.dstOk d s.vc.lmul = true) (found : ∀ i ∈ actives s k, mfind i olds = some (old i))
    (small : ∀ i, old i < 2 ^ s.vc.sew) (sc : Scope) :
    let t := retireAfter 2 ((v.acquire sc).writeV s.vc d (v.sel k) s.vc.sew s.vc.lmul (placeVals s.vc.max olds))
    ∃ b, PathDone s t 2 b ∧ t.team.mem = m
      ∧ (d.nw = false → ∀ i < s.vc.max, t.hart.elem s.vc.vlen d.reg.toNat s.vc.sew i
          = afterWrite s s.vc.sew (2 ^ s.vc.sew - 1) (s.sel k) i (s.hart.elem s.vc.vlen d.reg.toNat s.vc.sew i) (old i))
      ∧ (∀ r < 32, d.nw = true ∨ r < d.reg.toNat ∨ d.reg.toNat + s.vc.lmul ≤ r → vget t.hart.v r 0 = vget s.hart.v r 0)
      ∧ t.hart.s = s.hart.s ∧ t.hart.m = s.hart.m ∧ t.mem = s.mem ∧ ∀ j, j ≠ s.cur.team → t.teamOf j = s.teamOf j := by
  have moved := State.acquire_cachesMoved v sc
  obtain ⟨rest, others_, team⟩ := applied
  have cur : (v.acquire sc).cur = s.cur := moved.cur_eq.trans (by rw [rest]; rfl)
  have hartV : v.hart = s.hart := State.hart_eq_of_harts (by rw [rest]; rfl) (by rw [rest]; rfl)
  have hart : (v.acquire sc).hart = s.hart := moved.hart_eq.trans hartV
  have sel : v.sel k = s.sel k := by
    unfold State.sel
    rw [hartV]
  have vc : (v.acquire sc).vc = s.vc := by
    rw [State.vc, State.onBank, cur, hart]
    rfl
  have lanes : (v.acquire sc).lanesOn = s.lanesOn := by
    rw [State.lanesOn, State.onBank, State.path, cur, hart]
    rfl
  have done := (v.acquire sc).vectorDone_retireAfter (d := d) (L := s.vc.lmul) (n := 2) (sel := s.sel k) (vals := placeVals s.vc.max olds) (new := old) s.sew_width
    (by rw [placeVals_length, vc]) (VC.fits_of_dstOk dst) (fun keep => vc ▸ s.short_of_lmul (VC.lmul_of_dstOk dst keep)) fun i hi active => by
      simp only [Active, LanesOn, vc, lanes] at hi active
      refine ⟨?_, small i⟩
      rw [placeVals, getElem?_map_range _ hi, found i (mem_actives_iff.mpr ⟨hi, active⟩)]
  rw [vc] at done
  rw [sel]
  intro t
  obtain ⟨elems, others, ⟨b, path, -⟩, ⟨scalars, masks, -, only⟩⟩ := done
  rw [vc, hart] at elems
  rw [hart] at others scalars masks
  have onlyV := moved.onlyHartAndCaches only
  have curT : t.cur = s.cur := (show t.cur = v.cur by rw [show t = _ from onlyV.rest]).trans (by rw [rest]; rfl)
  refine ⟨b, pathDone_of_paths path (fun p => by rw [hart]) cur, ?_, fun write i hi => ?_, others, scalars, masks, ?_, fun j ne =>
    (onlyHartAndCaches_teamOf onlyV j).trans (others_ j ne)⟩
  · rw [State.team, curT]
    exact congrArg Team.mem ((onlyHartAndCaches_teamOf onlyV _).trans team)
  · have inside : i < s.vc.lmul * (s.vc.vlen / s.vc.sew) := s.max_eq ▸ hi
    rw [elems write i inside, if_pos hi, afterWrite_congr (m := s.vc.vl) vc lanes Iff.rfl]
  · rw [show t = _ from onlyV.rest, rest]
    rfl

end Sys2Proof.Machine

namespace Sys2Proof.Claims
open Sys2Proof.Machine

theorem atomTyV_bits {op : AtomOp} {u : Bool} {w : Nat} {ty : AtomTy} (type : atomTyV op u w = some ty) : ty.bits = w := by
  have integer (n : Nat) (u : Bool) (sized : (if n = 32 || n = 64 then some (AtomTy.int n u) else none) = some ty) : ty.bits = n := by
    split at sized
    · cases sized
      rfl
    · cases sized
  have float (found : atomTyV .fadd u w = some ty) : ty.bits = w := by
    unfold atomTyV fpFormat at found
    dsimp only at found
    by_cases half : w = 16
    · rw [if_pos half] at found
      cases u <;> cases found <;> exact half.symm
    · rw [if_neg half] at found
      by_cases single : (w = 32 && !u) = true
      · rw [if_pos single] at found
        cases found
        simp only [Bool.and_eq_true, decide_eq_true_eq] at single
        exact single.1.symm
      · rw [if_neg single] at found
        cases found
  cases op
  case fadd | fmin | fmax => exact float type
  all_goals exact integer w u type

/-- Settles O26: the passes leave what the increasing order leaves, since elements at different locations do not meet, and the old values are written by R110. -/
theorem vectorAtomicResults : Obligations.VectorAtomicResults := by
  intro s d a b u k l ty idx vas ps off c w n group closed sq near drained type mask index dst address elements places quiet wf all fresh value done
  have bits : ty.bits / 8 = n := by rw [atomTyV_bits type]
  have size : n ∣ 4096 ∧ 0 < n ∧ 256 ^ n = 2 ^ w := by
    rcases s.sew_width with h | h | h | h <;> simp only [n, w, c, h] <;> decide
  obtain ⟨small, pos, full⟩ := size
  have aligned : ∀ i ∈ actives s k, n ∣ off i := fun i hi =>
    State.find_aligned group small (elements i (mem_actives.mp hi).1 (mem_actives.mp hi).2).2 (places i hi).1
  have runs {i : Instr} {cas : Bool} (arm : exec i s = s.vatomReturn d a b u k l cas) (regs : s.vc.regOk d.reg.toNat (if cas then 2 * s.vc.lmul else s.vc.lmul) = true)
      (held : s.heldRegs d.reg.toNat (if cas then 2 * s.vc.lmul else s.vc.lmul) = .ok ()) : done i (s.atomArg d.reg.toNat l.op ty cas) := by
    have width (i : Nat) : (s.atomArg d.reg.toNat l.op ty cas i).ty.bits / 8 = n := by
      rw [← bits]
      cases cas <;> rfl
    obtain ⟨applied, found⟩ := State.allApplied_run (arg := s.atomArg d.reg.toNat l.op ty cas) group width quiet wf pos aligned
    obtain ⟨latch, results⟩ := applied.written dst found (fun i => full ▸ atomOld_lt i) l.scope
    exact ⟨_, latch, arm.trans (State.vatomReturn_eq group width fresh all (fun i hi => (places i hi).1) (fun i hi => (places i hi).2.1) closed sq drained type mask
      index dst regs held address elements rfl bits fun i hi => (places i hi).2.2), results⟩
  refine ⟨fun regs held => runs (cas := false) rfl regs held, fun write regs held => ?vcas⟩
  case vcas =>
    obtain ⟨reg, nw⟩ := d
    subst write
    exact runs (cas := true) rfl regs held

end Sys2Proof.Claims
end

