-- ==== Sys2Proof/Proofs/StorePerform.lean ====
section
/-! PROOFS. The oldest entry of a store queue is performed (R203, R224, R250): the runs of bytes into which a store to an allocation falls, what they leave there, and the entry that goes with its counter. -/

namespace Sys2Proof.Machine
open Sys2Proof.Claims

/-! ## The runs of a store -/

theorem cellsAt_spad_cons (k off : Nat) (b : Byte) (bs : List Byte) :
    cellsAt (.spad k off) (b :: bs) = (.spad k off, b) :: cellsAt (.spad k (off + 1)) bs := by
  unfold cellsAt
  rw [List.length_cons, List.range_succ_eq_map, List.map_cons, List.map_map]
  refine congrArg (List.cons _) (List.map_congr_left fun i _ => ?_)
  show (Tgt.spad k (off + (i + 1)), _) = (Tgt.spad k (off + 1 + i), _)
  rw [Nat.add_right_comm]
  rfl

theorem cellsAt_spad_target {k off : Nat} {bs : List Byte} {c : Tgt × Byte} (mem : c ∈ cellsAt (.spad k off) bs) : ∃ o, c.1 = .spad k o := by
  obtain ⟨i, -, rfl⟩ := List.mem_map.mp mem
  exact ⟨off + i, rfl⟩

/-- Runs that lie one behind another in team k's allocation from an offset on, and their bytes together. -/
inductive RunsFrom (k : Nat) : Nat → List Byte → List (Tgt × List Byte) → Prop
  | nil (off : Nat) : RunsFrom k off [] []
  | cons (off : Nat) (xs : List Byte) {ys : List Byte} {rs : List (Tgt × List Byte)} (rest : RunsFrom k (off + xs.length) ys rs) :
      RunsFrom k off (xs ++ ys) ((.spad k off, xs) :: rs)

/-- A byte joins the run behind it, or is a run of its own. -/
theorem runsFrom_cons {k off : Nat} {b : Byte} {bs : List Byte} {cs : List (Tgt × Byte)} (runs : RunsFrom k (off + 1) bs (runsOf cs)) :
    RunsFrom k off (b :: bs) (runsOf ((.spad k off, b) :: cs)) := by
  rw [runsOf]
  generalize runsOf cs = later at runs
  cases runs with
  | nil => exact .cons off [b] (.nil _)
  | cons _ xs rest =>
    dsimp only
    split
    · exact .cons off (b :: xs) (by rwa [List.length_cons, Nat.add_comm xs.length, ← Nat.add_assoc])
    · exact .cons off [b] (.cons _ xs rest)

theorem runsFrom_runsOf (k off : Nat) (bs : List Byte) : RunsFrom k off bs (runsOf (cellsAt (.spad k off) bs)) := by
  induction bs generalizing off with
  | nil => exact .nil off
  | cons b bs ih =>
    rw [cellsAt_spad_cons]
    exact runsFrom_cons (ih (off + 1))

/-! ## The runs are performed -/

/-- The memory m' is m with bytes written from an offset on. -/
def Mem.Written (m m' : Mem) (off : Nat) (bs : List Byte) : Prop :=
  ∀ a, m'.byte a = if off ≤ a ∧ a < off + bs.length then bs.getD (a - off) 0 else m.byte a

theorem Mem.Written.append {m m₁ m₂ : Mem} {off : Nat} {xs ys : List Byte} (first : m.Written m₁ off xs) (second : m₁.Written m₂ (off + xs.length) ys) :
    m.Written m₂ off (xs ++ ys) := by
  intro a
  rw [second a, first a, List.length_append]
  by_cases inFirst : off ≤ a ∧ a < off + xs.length
  · rw [if_neg (by omega), if_pos inFirst, if_pos (by omega), List.getD_append _ _ _ _ (by omega)]
  · by_cases inSecond : off + xs.length ≤ a ∧ a < off + xs.length + ys.length
    · rw [if_pos inSecond, if_pos (by omega), List.getD_append_right _ _ _ _ (by omega), Nat.sub_sub]
    · rw [if_neg inSecond, if_neg inFirst, if_neg (by omega)]

theorem Performed.run_spad (r : Performed) (k g j o : Nat) (bs : List Byte) :
    r.run k g (.spad j o) bs = { r with s := r.s.setTeamOf j ((r.s.teamOf j).poke o bs false) } := rfl

/-- Bytes are written into team k's allocation, where no synchronisation word has a loop to make (R277). -/
theorem State.AtomsApplied.poke {s u : State} {k : Nat} {m : Mem} (quiet : (s.teamOf k).syncs = []) (applied : s.AtomsApplied u k m) (o : Nat) (bs : List Byte) :
    s.AtomsApplied (u.setTeamOf k ((u.teamOf k).poke o bs false)) k (m.write o bs) := by
  obtain ⟨rest, others, team⟩ := applied
  have still : (u.teamOf k).syncs = [] := (congrArg Team.syncs team).trans quiet
  refine ⟨?_, fun j ne => (u.teamOf_setTeamOf_ne ne _).trans (others j ne), ?_⟩
  · rw [State.setTeamOf, rest]
  · rw [State.teamOf_setTeamOf, Team.poke_quiet still, team]

/-- The runs of a store leave its bytes in the allocation, and no bounce ring is asked. -/
theorem State.AtomsApplied.runs {s : State} {k off : Nat} {bs : List Byte} {rs : List (Tgt × List Byte)} (quiet : (s.teamOf k).syncs = [])
    (runs : RunsFrom k off bs rs) {r : Performed} {m : Mem} (applied : s.AtomsApplied r.s k m) (wf : m.wf = true) (g : Nat) :
    ∃ u m', rs.foldl (fun (r : Performed) x => r.run k g x.1 x.2) r = { r with s := u } ∧ s.AtomsApplied u k m' ∧ m.Written m' off bs := by
  induction runs generalizing r m with
  | nil off => exact ⟨r.s, m, rfl, applied, fun a => (if_neg (by simp)).symm⟩
  | cons off xs rest ih =>
    rw [List.foldl_cons, Performed.run_spad]
    obtain ⟨u, m', folded, done, written⟩ := ih (r := { r with s := r.s.setTeamOf k ((r.s.teamOf k).poke off xs false) }) (applied.poke quiet off xs) (Mem.wf_write wf)
    have first : m.Written (m.write off xs) off xs := fun a => Mem.byte_write wf
    exact ⟨u, m', folded, done, first.append written⟩

/-! ## Marks of words that a store covers (R203) -/

/-- The place of this device on which a cell acts. -/
def State.cellPlace (s : State) (c : Tgt × Byte) : Tgt :=
  match c.1 with
  | .win c o asid => (match s.winPlace c o asid with | .here k off => .spad k off | _ => .win c o asid)
  | .shared k _ _ => .home k
  | t => t

/-- Do the targets hold every byte of block b, of a given size? -/
def covers (ts : List Tgt) (place : Nat → Tgt) (size b : Nat) : Bool := (List.range size).all fun i => decide (place (b * size + i) ∈ ts)

/-- Team k's part once the words that the targets cover are no longer marked. -/
def Team.uncovered (ts : List Tgt) (k : Nat) (t : Team) : Team := { t with marks := t.marks.filter fun w => !covers ts (.spad k) 8 w }

theorem State.clearCovered_eq (s : State) (cells : List (Tgt × Byte)) : s.clearCovered cells =
    { s with poisoned := s.poisoned.filter fun b => !covers (cells.map s.cellPlace) .home 64 b,
             teams := s.teams.map fun e => (e.1, Team.uncovered (cells.map s.cellPlace) e.1 e.2) } := rfl

theorem State.teamOf_clearCovered (s : State) (cells : List (Tgt × Byte)) (j : Nat) :
    (s.clearCovered cells).teamOf j = (s.teamOf j).uncovered (cells.map s.cellPlace) j :=
  mget_map_entries (f := Team.uncovered (cells.map s.cellPlace)) rfl s.teams

theorem covers_of_not_mem {ts : List Tgt} {place : Nat → Tgt} (out : ∀ x, place x ∉ ts) {size : Nat} (pos : 0 < size) (b : Nat) :
    covers ts place size b = false :=
  List.all_eq_false.mpr ⟨0, List.mem_range.mpr pos, by simpa using out (b * size)⟩

theorem Team.uncovered_of_not_mem {ts : List Tgt} {k : Nat} (out : ∀ x, Tgt.spad k x ∉ ts) (t : Team) : t.uncovered ts k = t := by
  have kept : (t.marks.filter fun w => !covers ts (.spad k) 8 w) = t.marks :=
    List.filter_eq_self.mpr fun w _ => by rw [covers_of_not_mem out (by decide)]; rfl
  rw [Team.uncovered, kept]

/-- A store to team k's allocation clears marks there, and nothing else. -/
theorem State.AtomsApplied.clearCovered {s u : State} {k : Nat} {m : Mem} (applied : s.AtomsApplied u k m) {cells : List (Tgt × Byte)}
    (here : ∀ c ∈ cells, ∃ o, c.1 = .spad k o) : s.AtomsApplied (u.clearCovered cells) k m := by
  obtain ⟨rest, others, team⟩ := applied
  have place {t : Tgt} (mem : t ∈ cells.map u.cellPlace) : ∃ o, t = .spad k o := by
    obtain ⟨⟨_, b⟩, there, rfl⟩ := List.mem_map.mp mem
    obtain ⟨o, rfl⟩ := here _ there
    exact ⟨o, rfl⟩
  refine ⟨?rest, fun j ne => ?others, ?team⟩
  case rest =>
    have home (x : Nat) : Tgt.home x ∉ cells.map u.cellPlace := fun mem => by
      obtain ⟨o, same⟩ := place mem
      cases same
    have poisoned : (u.poisoned.filter fun b => !covers (cells.map u.cellPlace) .home 64 b) = u.poisoned :=
      List.filter_eq_self.mpr fun b _ => by rw [covers_of_not_mem home (by decide)]; rfl
    rw [State.clearCovered_eq, poisoned, rest]
  case others =>
    have away (x : Nat) : Tgt.spad j x ∉ cells.map u.cellPlace := fun mem => by
      obtain ⟨o, same⟩ := place mem
      exact ne (Tgt.spad.inj same).1
    rw [State.teamOf_clearCovered, Team.uncovered_of_not_mem away, others j ne]
  case team => rw [State.teamOf_clearCovered, Team.uncovered, team]

/-! ## The oldest entry is performed (R224, R250) -/

theorem remoteBlocks_of_near {cells : List (Tgt × Byte)} (near : ∀ c ∈ cells, ∃ k o, c.1 = .spad k o) : remoteBlocks cells = [] := by
  unfold remoteBlocks
  rw [List.filterMap_eq_nil_iff.mpr ?none_]
  · rfl
  case none_ =>
    rintro ⟨_, b⟩ mem
    obtain ⟨k, o, rfl⟩ := near _ mem
    rfl

theorem State.sendCells_near (s : State) (k g id : Nat) (flag : Bool) (va : Word64) {cells : List (Tgt × Byte)} (near : ∀ c ∈ cells, ∃ k o, c.1 = .spad k o) :
    s.sendCells k g id flag va cells = s := by
  unfold State.sendCells
  rw [remoteBlocks_of_near near]
  rfl

section
variable {s : State} {k g off size : Nat} {va : Word64} {bs : List Byte} {e : SQEntry} {es : List SQEntry}
  (op : e.op = .bytes (cellsAt (.spad k off) bs) va size)
include op

/-- A store to team k's allocation is performed whole: its bytes are there, and `st` has its completion (R250). -/
theorem State.performHead_spad (counted : e.st = true) (local_ : e.fab = false) (quiet : (s.teamOf k).syncs = []) (wf : (s.teamOf k).mem.wf = true) :
    ∃ u m, s.performHead k g e = u.completeOp (.group k g) kSt e.id ∧ (s.popSq k g).AtomsApplied u k m ∧ (s.teamOf k).mem.Written m off bs := by
  obtain ⟨u, m, folded, applied, written⟩ := State.AtomsApplied.runs (s := s.popSq k g) (r := ⟨s.popSq k g, false, false, e.scope⟩) quiet
    (runsFrom_runsOf k off bs) (.refl _ k) wf g
  refine ⟨u.clearCovered (cellsAt (.spad k off) bs), m, ?_, applied.clearCovered fun c mem => cellsAt_spad_target mem, written⟩
  have near : ∀ c ∈ cellsAt (.spad k off) bs, ∃ k o, c.1 = .spad k o := fun c mem => ⟨k, cellsAt_spad_target mem⟩
  unfold State.performHead State.perform
  simp only [op, folded, Bool.false_eq_true, if_false, State.sendCells_near _ _ _ _ _ _ near, State.credit, counted, local_, Bool.and_self, Bool.false_and, if_true]

theorem SQEntry.targets_spad {t : Tgt} (mem : t ∈ e.targets) : ∃ o, t = .spad k o := by
  rw [SQEntry.targets, op] at mem
  obtain ⟨c, there, rfl⟩ := List.mem_map.mp mem
  exact cellsAt_spad_target there

/-- Nothing holds the oldest entry of a queue back where it is a plain store to an allocation, with no command of near memory and no put before it (R222, R246, R250). -/
theorem State.entryDue_spad (plain : e.release = false) (free : (s.hartOf (.group k g)).near = []) (first : s.putFirst k g e = false) : s.entryDue k g e = true := by
  have none_ {p : Tgt → Bool} (no : ∀ o, p (.spad k o) = false) : e.targets.any p = false :=
    List.any_eq_false.mpr fun t mem => by
      obtain ⟨o, rfl⟩ := SQEntry.targets_spad op mem
      rw [no]
      exact Bool.false_ne_true
  have release : s.releaseDue k g e = true := by rw [State.releaseDue, plain]; rfl
  have near : (s.hartOf (.group k g)).nearFirst e = false := by rw [Hart.nearFirst, free]; rfl
  have flags : (s.hartOf (.group k g)).flagFirst e.targets = false := List.any_eq_false.mpr fun f _ => by
    rw [Bool.not_eq_true]
    exact List.any_eq_false.mpr fun u _ => by rw [none_ fun o => rfl]; exact Bool.false_ne_true
  have wire : s.wireBusy k g e.targets = false := none_ fun o => rfl
  unfold State.entryDue
  simp only [release, first, near, flags, wire]
  rw [none_ fun o => rfl]
  rfl

theorem SQEntry.postable_spad (some_ : bs ≠ []) : e.postable = false := by
  obtain ⟨b, bs, rfl⟩ := List.exists_cons_of_ne_nil some_
  unfold SQEntry.postable
  simp only [op, cellsAt_spad_cons, List.all_cons, Bool.false_and, Bool.and_false]

/-- With a choice below three the oldest entry, which no agent may observe before its home, is performed (R251). -/
theorem exec_storePerform_spad (some_ : bs ≠ []) (head : (s.hartOf (.group k g)).sq = e :: es) (due : s.entryDue k g e = true) (choice : s.choice < 3) :
    exec (.storePerform k g) s = .next (s.chosen.performHead k g e) := by
  show execStorePerform k g s = _
  unfold execStorePerform State.headEntry
  simp only [head, op, due, Bool.and_self, if_true, SQEntry.postable_spad op some_, Bool.false_eq_true, if_false, if_neg (Nat.not_le.mpr choice), ite_self]

end

end Sys2Proof.Machine

namespace Sys2Proof.Claims
open Sys2Proof.Machine

/-- Settles O18: the runs of the store lie one behind another in the allocation, and the operation that completes is the oldest of `st`. -/
theorem storePerformWritesExactlyItsBytes : Obligations.StorePerformWritesExactlyItsBytes := by
  intro s k g id off va bs es rest e h head op number plain counted local_ some_ small free quiet wf choice first oldest later
  subst number
  obtain ⟨u, m, performed, applied, written⟩ := State.performHead_spad (s := s.chosen) (g := g) op counted local_ quiet wf
  have popped : u.hartOf (.group k g) = { h with sq := es } := by
    rw [applied.rest]
    show (s.setHartOf _ { h with sq := h.sq.tail }).hartOf _ = _
    rw [State.hartOf_setHartOf, head]
    rfl
  have hart : (u.completeOp (.group k g) kSt e.id).hartOf (.group k g) = ({ h with sq := es } : Hart).complete kSt e.id :=
    (State.hartOf_setHartOf ..).trans (congrArg (Hart.complete · kSt e.id) popped)
  refine ⟨_, (exec_storePerform_spad op some_ head (State.entryDue_spad op plain free first) choice).trans (congrArg _ performed), ?queue, ?counter, ?bytes,
    applied.others, ?mem, ?harts, ?scalars, ?vectors⟩
  case queue => rw [hart]; rfl
  case counter =>
    rw [hart]
    exact Nat.eq_sub_of_add_eq (Hart.counter_complete_oldest (h := { h with sq := es }) (by decide) oldest later kSt)
  case bytes =>
    intro a
    show (u.teamOf k).mem.byte a = _
    rw [applied.team]
    exact written a
  case mem =>
    show u.mem = _
    rw [applied.rest]
    rfl
  case harts =>
    intro i other
    rw [State.completeOp, State.hartOf_setHartOf_ne _ other, applied.rest]
    exact State.hartOf_setHartOf_ne _ other _
  case scalars => rw [hart]; rfl
  case vectors => rw [hart]; rfl

end Sys2Proof.Claims
end

