-- ==== Sys2Proof/Proofs/Barriers.lean ====
section
/-! PROOFS. Named barriers (R274 to R276): what BARI, BARA, BARW and BARAW leave of the barrier and of the group's pending phases, and which wait. -/

namespace Sys2Proof.Machine
open Sys2Proof.Claims

/-! ## The focus of a group -/

theorem State.onBank_of_group {s : State} (group : s.cur.unit = .group) : s.onBank = false := by
  rw [State.onBank, group]
  rfl

/-- The end of a wait of scope `.die` or wider on a compute core (R226, R255). -/
theorem State.dropL1_of_group {s : State} (group : s.cur.unit = .group) : s.dropL1 = withoutL1 s := by
  rw [State.dropL1, State.onBank_of_group group]
  rfl

/-! ## Barriers of the team (R274) -/

/-- The expected count of a barrier is the sum of its three fields. -/
theorem Barrier.expected_eq (b : Barrier) :
    b.expected = (b.cfg.extractLsb' 0 6).toNat + (b.cfg.extractLsb' 6 1).toNat + (b.cfg.extractLsb' 8 8).toNat := rfl

theorem State.arriveBar_eq (s : State) (n : Nat) : s.arriveBar s.cur.team n = withBar s n (arrivedAt (s.team.bar n)) := rfl

/-- The arrival that fills a barrier begins its next phase, and no other does. -/
theorem arrivedAt_ph (b : Barrier) : (arrivedAt b).ph = b.ph ↔ b.a + 1 ≠ b.expected := by
  unfold arrivedAt
  rw [← Barrier.expected_eq]
  by_cases full : b.a + 1 = b.expected
  · rw [if_pos full]
    simp [full]
  · rw [if_neg full]
    simp [full]

theorem State.bar_withBar (s : State) {n : Nat} (bound : n < 16) (b : Barrier) : (withBar s n b).team.bar n = b := by
  unfold withBar
  rw [State.team_setTeam, Team.bar, vget_vset, if_pos ⟨rfl, bound⟩]

section
variable {s : State} {n : BitVec 4}

theorem State.barReady_ok (ready : (s.team.bar n.toNat).expected ≠ 0) : s.barReady n = .ok () := need_ok (bne_iff_ne.mpr ready) _ _

theorem State.barReady_error (unset : (s.team.bar n.toNat).expected = 0) :
    s.barReady n = .error (trapOf .barrierMisuse (BitVec.ofNat 64 n.toNat)) :=
  need_error (by rw [unset, bne_self_eq_false]) _ _

/-! ## BARI (R275) -/

/-- A configuration that keeps its limits reaches the check that the barrier is at rest. -/
theorem exec_bari {a : Src} {cfg : Word64} (operand : s.opnd a = .ok cfg) (small : cfg.toNat < 2 ^ 16) (reserved : cfg.getLsbD 7 = false)
    (groups : (cfg.extractLsb' 0 6).toNat ≤ 32) : exec (.bari a n) s
      = if (s.team.bar n.toNat).a = 0 ∧ s.barWaiter n.toNat = false
        then .next ((withBar s n.toNat { s.team.bar n.toNat with cfg := cfg }).retire 1 Latch.none)
        else .next (s.stopped (trapOf .barrierMisuse (BitVec.ofNat 64 n.toNat))) := by
  have high : cfg.extractLsb' 16 48 = 0 := by
    apply BitVec.eq_of_toNat_eq
    rw [BitVec.extractLsb'_toNat, Nat.shiftRight_eq_div_pow, Nat.div_eq_of_lt small]
    rfl
  show execBari a n s = _
  unfold execBari
  simp only [operand, bind, Except.bind, high, reserved, decide_eq_true groups, needOp_ok, BEq.rfl, Bool.not_false, Bool.and_true]
  by_cases rest : (s.team.bar n.toNat).a = 0 ∧ s.barWaiter n.toNat = false
  · rw [if_pos rest, need_ok (by rw [rest.1, rest.2]; rfl)]
    rfl
  · rw [if_neg rest, need_error (by simpa using rest)]
    rfl

/-! ## A barrier that is not initialised (R274) -/

theorem exec_bar_unset (unset : (s.team.bar n.toNat).expected = 0) (awake : s.path.grant = none) {i : Instr}
    (mem : i ∈ [Instr.bara n, .barw n, .baraw n]) : exec i s = .next (s.stopped (trapOf .barrierMisuse (BitVec.ofNat 64 n.toNat))) := by
  simp only [List.mem_cons, List.not_mem_nil, or_false] at mem
  rcases mem with rfl | rfl | rfl
  · show execBara n s = _
    unfold execBara
    rw [State.barReady_error unset]
    rfl
  · show execBarw n s = _
    unfold execBarw
    rw [awake, State.barReady_error unset]
    rfl
  · show execBaraw n s = _
    unfold execBaraw
    rw [awake, State.barReady_error unset]
    rfl

/-! ## BARA, BARW and BARAW (R275, R276) -/

/-- The group with another pending phase at a barrier. -/
def State.withPending (s : State) (n : Nat) (ph : Option (BitVec 32)) : State := s.setHart { s.hart with pend := vset s.hart.pend n ph }

theorem State.passBar_of_group (group : s.cur.unit = .group) (n : BitVec 4) :
    s.passBar n = ((withoutL1 s).withPending n.toNat none).retire 1 Latch.none := by
  show State.retire (State.dropL1 (s.withPending n.toNat none)) 1 Latch.none = _
  rw [State.dropL1_of_group (s := s.withPending n.toNat none) group]
  rfl

theorem exec_bara (ready : (s.team.bar n.toNat).expected ≠ 0) (drained : s.drained .team = .ok ()) : exec (.bara n) s
    = .next (((withBar s n.toNat (arrivedAt (s.team.bar n.toNat))).withPending n.toNat (some (s.team.bar n.toNat).ph)).retire 1 Latch.none) := by
  show execBara n s = _
  unfold execBara
  rw [State.barReady_ok ready, drained]
  rfl

theorem exec_barw (ready : (s.team.bar n.toNat).expected ≠ 0) (awake : s.path.grant = none) :
    exec (.barw n) s = .next (
      if (vget s.hart.pend n.toNat none).getD (s.team.bar n.toNat).ph = (s.team.bar n.toNat).ph
      then s.waitBar n ((vget s.hart.pend n.toNat none).getD (s.team.bar n.toNat).ph) (vget s.hart.pend n.toNat none).isSome false
      else s.passBar n) := by
  show execBarw n s = _
  unfold execBarw
  rw [awake, State.barReady_ok ready]
  rfl

/-- BARAW waits unless its own arrival has filled the barrier. -/
theorem exec_baraw (ready : (s.team.bar n.toNat).expected ≠ 0) (awake : s.path.grant = none) (first : s.path.arrived = false)
    (drained : s.drained .team = .ok ()) :
    let u := withBar s n.toNat (arrivedAt (s.team.bar n.toNat))
    exec (.baraw n) s = .next (if (s.team.bar n.toNat).a + 1 = (s.team.bar n.toNat).expected then u.passBar n
      else u.waitBar n (s.team.bar n.toNat).ph true true) := by
  intro u
  have phase : (u.team.bar n.toNat).ph = (s.team.bar n.toNat).ph ↔ (s.team.bar n.toNat).a + 1 ≠ (s.team.bar n.toNat).expected := by
    rw [State.bar_withBar s n.isLt]
    exact arrivedAt_ph _
  show execBaraw n s = _
  unfold execBaraw
  simp only [awake, State.barReady_ok ready, drained, bind, Except.bind, first, State.arriveBar_eq, Bool.false_eq_true, if_false]
  refine congrArg Host.Outcome.next ((if_congr phase rfl rfl).trans (ite_not ..))

end

end Sys2Proof.Machine

namespace Sys2Proof.Claims
open Sys2Proof.Machine

/-- Settles O37: a barrier at rest takes its configuration, an arrival that fills it begins the next phase, and a wait goes on where its phase is not the one at hand. -/
theorem barrierInstructionResults : Obligations.BarrierInstructionResults := by
  intro s a n cfg group operand
  dsimp only
  refine ⟨fun small reserved groups => ⟨fun rest free => ?configures, fun busy => ?misused⟩, fun unset awake i mem => ?unset, fun ready drained => ?arrives,
    fun ready awake => ⟨fun past => ?passes, fun same => ?waits⟩, fun ready awake first drained => ⟨fun full => ?completes, fun short => ?suspends⟩⟩
  case configures => exact ⟨_, (exec_bari operand small reserved groups).trans (if_pos ⟨rest, free⟩), State.retire_passed _ 1⟩
  case misused =>
    refine (exec_bari operand small reserved groups).trans (if_neg fun ⟨rest, free⟩ => ?_)
    rcases busy with begun | waiter
    · exact begun rest
    · exact Bool.false_ne_true (free.symm.trans waiter)
  case unset => exact exec_bar_unset unset awake mem
  case arrives => exact ⟨_, exec_bara ready drained, State.retire_passed _ 1⟩
  case passes => exact ⟨_, (exec_barw ready awake).trans (congrArg _ ((if_neg past).trans (State.passBar_of_group group n))), State.retire_passed _ 1⟩
  case waits => exact ⟨_, (exec_barw ready awake).trans (congrArg _ (if_pos same)), State.stopped_waits _ _⟩
  case completes =>
    exact ⟨_, (exec_baraw ready awake first drained).trans (congrArg _ ((if_pos full).trans (State.passBar_of_group (s := withBar s n.toNat _) group n))),
      State.retire_passed _ 1⟩
  case suspends => exact ⟨_, (exec_baraw ready awake first drained).trans (congrArg _ (if_neg short)), State.stopped_waits _ _⟩

end Sys2Proof.Claims
end

