-- ==== Sys2Proof/Proofs/SyncWords.lean ====
section
/-! PROOFS. Synchronisation words (R277): what the loop of a word's port leaves of its count, of its generation and of the other bytes. -/

namespace Sys2Proof.Machine
open Sys2Proof.Claims

/-! ## Numbers in a memory that a write has changed -/

theorem Mem.nat_congr {m m' : Mem} {a n : Nat} (same : ∀ z, a ≤ z → z < a + n → m'.byte z = m.byte z) : m'.nat a n = m.nat a n := by
  unfold Mem.nat
  rw [Mem.read_eq, Mem.read_eq]
  refine congrArg leNat (List.map_congr_left fun i mem => same _ (Nat.le_add_right ..) ?_)
  exact Nat.add_lt_add_left (List.mem_range.mp mem) a

section
variable {m : Mem} (wf : m.wf = true) {o n : Nat}
include wf

theorem Mem.byte_write_apart (v : Nat) {z : Nat} (apart : z < o ∨ o + n ≤ z) : (m.write o (leBytes n v)).byte z = m.byte z := by
  rw [Mem.byte_write wf, leBytes_length, if_neg (by omega)]

theorem Mem.nat_write_apart (v : Nat) {a k : Nat} (apart : a + k ≤ o ∨ o + n ≤ a) : (m.write o (leBytes n v)).nat a k = m.nat a k :=
  Mem.nat_congr fun z low high => Mem.byte_write_apart wf v (by omega)

theorem Mem.nat_write_there {v : Nat} (small : v < 256 ^ n) : (m.write o (leBytes n v)).nat o n = v := by
  have bytes : (m.write o (leBytes n v)).read o n = leBytes n v := by
    rw [Mem.read_eq]
    refine List.ext_getElem (by simp) fun i left right => ?_
    rw [List.length_map, List.length_range] at left
    rw [List.getElem_map, List.getElem_range, Mem.byte_write wf, leBytes_length, if_pos (by omega), Nat.add_sub_cancel_left, List.getD_eq_getElem]
  rw [Mem.nat, bytes, leNat_leBytes_of_lt n small]

end

/-! ## The loop -/

/-- The memory m' is m after the port of the word at an offset has made its loop with a count (R277): each whole total goes to the generation. -/
def Mem.Looped (m m' : Mem) (off count : Nat) : Prop :=
  m'.nat off 4 = m.nat off 4 ∧ m'.nat (off + 4) 4 = (if m.nat off 4 = 0 then count else count % m.nat off 4)
    ∧ m'.nat (off + 8) 4 = (if m.nat off 4 = 0 then m.nat (off + 8) 4 else (m.nat (off + 8) 4 + count / m.nat off 4) % 2 ^ 32)
    ∧ ∀ z, z < off + 4 ∨ off + 12 ≤ z → m'.byte z = m.byte z

theorem syncLoop_of_zero {m : Mem} {w : Nat} (none_ : m.nat w 4 = 0) : syncLoop m w = m := by
  rw [syncLoop, none_]
  rfl

theorem syncLoop_of_total {m : Mem} {w : Nat} (some_ : m.nat w 4 ≠ 0) : syncLoop m w
    = (m.write (w + 4) (leBytes 4 (m.nat (w + 4) 4 % m.nat w 4))).write (w + 8)
        (leBytes 4 ((m.nat (w + 8) 4 + m.nat (w + 4) 4 / m.nat w 4) % 2 ^ 32)) :=
  if_neg some_

theorem Mem.nat_four_lt (m : Mem) (o : Nat) : m.nat o 4 < 2 ^ 32 := m.nat_lt_pow (n := 4) o

theorem syncLoop_looped {m : Mem} (wf : m.wf = true) (w : Nat) : m.Looped (syncLoop m w) w (m.nat (w + 4) 4) := by
  unfold Mem.Looped
  by_cases total : m.nat w 4 = 0
  · simp only [syncLoop_of_zero total, total, if_true, implies_true, and_self]
  · have count : m.nat (w + 4) 4 % m.nat w 4 < 256 ^ 4 := (Nat.mod_le ..).trans_lt (m.nat_four_lt _)
    have wf' := Mem.wf_write (x := w + 4) (bs := leBytes 4 (m.nat (w + 4) 4 % m.nat w 4)) wf
    simp only [syncLoop_of_total total, if_neg total]
    refine ⟨?_, ?_, Mem.nat_write_there wf' (Nat.mod_lt _ (by decide)), fun z apart => ?_⟩
    · rw [Mem.nat_write_apart wf' _ (by omega), Mem.nat_write_apart wf _ (by omega)]
    · rw [Mem.nat_write_apart wf' _ (by omega), Mem.nat_write_there wf count]
    · rw [Mem.byte_write_apart wf' _ (by omega), Mem.byte_write_apart wf _ (by omega)]

/-- A count that is written makes the port's loop (R277). -/
theorem syncLoop_write_looped {m : Mem} (wf : m.wf = true) (off : Nat) {count : Nat} (small : count < 256 ^ 4) :
    m.Looped (syncLoop (m.write (off + 4) (leBytes 4 count)) off) off count := by
  have looped := syncLoop_looped (Mem.wf_write (x := off + 4) (bs := leBytes 4 count) wf) off
  unfold Mem.Looped at looped ⊢
  rw [Mem.nat_write_apart wf _ (by omega), Mem.nat_write_there wf small, Mem.nat_write_apart wf _ (by omega)] at looped
  obtain ⟨total, left, gen, rest⟩ := looped
  exact ⟨total, left, gen, fun z apart => (rest z apart).trans (Mem.byte_write_apart wf _ (by omega))⟩

/-- A raise adds to the count before the loop (R277). -/
theorem Team.raiseWord_looped {t : Team} (wf : t.mem.wf = true) (off n : Nat) :
    t.mem.Looped (t.raiseWord off n).mem off ((t.mem.nat (off + 4) 4 + n) % 2 ^ 32) := by
  unfold Team.raiseWord
  dsimp only
  exact syncLoop_write_looped wf off (Nat.mod_lt _ (by decide))

end Sys2Proof.Machine
end

