-- ==== Sys2Proof/Proofs/WaitsAndStatus.lean ====
section
/-! PROOFS. SYNCW, WAITC, ASTAT and NMSYNC (R277, R278, R281, R282, R304). -/

namespace Sys2Proof.Machine
open Sys2Proof.Claims

/-! ## WAITC, ASTAT and NMSYNC -/

section
variable {s : State}

theorem exec_waitc (group : s.cur.unit = .group) (n : BitVec 7) (k : BitVec 3) : exec (.waitc n k) s
    = .next (if s.hart.counter k.toNat ≤ n.toNat then (withoutL1 s).retire 1 Latch.none else s.stopped (.suspend (.counter k.toNat n.toNat))) := by
  show execWaitc n k s = _
  unfold execWaitc
  rw [State.dropL1_of_group group]
  split <;> rfl

/-- A count of `mat` that a batch has lowered is read as an acquire (R174). -/
theorem exec_astatCnt (group : s.cur.unit = .group) {d : Dst} {a : Src} {x : Word64} (operand : s.opnd a = .ok x) : exec (.astatCnt d a) s
    = .next ((if x.toNat % 8 = 2 ∧ vget s.hart.credited 2 0 ≠ 0 then withoutL1 s else s).retireS 1 d (BitVec.ofNat 64 (s.hart.counter (x.toNat % 8)))) := by
  show execAstatCnt d a s = _
  unfold execAstatCnt
  rw [operand, State.dropL1_of_group group]
  rfl

theorem exec_astatChan {d : Dst} {a : Src} {x : Word64} (operand : s.opnd a = .ok x) : exec (.astatChan d a) s
    = .next (s.retireS 1 d (BitVec.ofNat 64 (s.copiesOn s.cur.team (x.toNat % 32)))) := by
  show execAstatChan d a s = _
  unfold execAstatChan
  rw [operand]
  rfl

theorem exec_nmsync (drained : s.drained .dev = .ok ()) : exec .nmsync s = .next ({ s with dirty := [] }.retire 1 Latch.none) := by
  show execNmsync s = _
  unfold execNmsync
  rw [drained]
  rfl

end

/-! ## SYNCW (R278) -/

section
variable {s : State} {d : Dst} {a b : Src} {x y : Word64} (word : s.opnd a = .ok x) (asked : s.opnd b = .ok y)

/-- The state in which the focus's team has a synchronisation word at an offset. -/
def State.synced (s : State) (w : Nat) : State := s.nameSync s.cur.team w

/-- The generation of the word at an offset. -/
def State.generation (s : State) (w : Nat) : BitVec 32 := BitVec.ofNat 32 (s.team.mem.nat (w + 8) 4)

include word asked

theorem exec_syncw_misaligned (off : x.toNat % 16 ≠ 0) : exec (.syncw d a b) s = .next (s.stopped (trapOf .misaligned (0x00D0000000000000 + x))) := by
  show execSyncw d a b s = _
  unfold execSyncw
  simp only [word, asked, bind, Except.bind, need_error (beq_false_of_ne off)]
  rfl

theorem exec_syncw (aligned : x.toNat % 16 = 0) (inside : x.toNat + 16 ≤ s.team.spadBytes) (free : s.hart.spadPending = false) :
    exec (.syncw d a b) s = .next (
      if ((s.synced x.toNat).generation x.toNat - y.setWidth 32).toNat < 2 ^ 31
      then (s.synced x.toNat).dropL1.retireS 1 d (((s.synced x.toNat).generation x.toNat).setWidth 64)
      else (s.synced x.toNat).stopped (.suspend (.sync x.toNat (y.setWidth 32)))) := by
  have reached (gen g : BitVec 32) : genReached gen g = true ↔ (gen - g).toNat < 2 ^ 31 := decide_eq_true_iff
  show execSyncw d a b s = _
  unfold execSyncw
  simp only [word, asked, bind, Except.bind, need_ok (beq_of_eq aligned), need_ok (decide_eq_true inside), free, Bool.not_false, await_ok]
  by_cases past : ((s.synced x.toNat).generation x.toNat - y.setWidth 32).toNat < 2 ^ 31
  · rw [if_pos past]
    exact if_pos ((reached _ _).mpr past)
  · rw [if_neg past]
    exact if_neg fun yes => past ((reached _ _).mp yes)

end

section
variable (s : State) (w : Nat)

theorem State.synced_team : (s.synced w).team = { s.team with syncs := insertNew w s.team.syncs, mem := syncLoop s.team.mem w } := s.team_setTeam _

theorem State.synced_mem : (s.synced w).team.mem = syncLoop s.team.mem w := by rw [State.synced_team]

theorem State.mem_synced_syncs : w ∈ (s.synced w).team.syncs := by
  rw [State.synced_team]
  exact mem_insertNew.mpr (.inl rfl)

/-- The generation after the word's loop has been made. -/
theorem State.synced_generation (wf : s.team.mem.wf = true) : (s.synced w).generation w
    = BitVec.ofNat 32 (if s.team.mem.nat w 4 = 0 then s.team.mem.nat (w + 8) 4 else s.team.mem.nat (w + 8) 4 + s.team.mem.nat (w + 4) 4 / s.team.mem.nat w 4) := by
  obtain ⟨-, -, gen, -⟩ := syncLoop_looped wf w
  rw [State.generation, State.synced_mem, gen]
  split
  · rfl
  · exact BitVec.eq_of_toNat_eq (by simp)

theorem State.synced_generation_toNat : ((s.synced w).generation w).toNat = (syncLoop s.team.mem w).nat (w + 8) 4 := by
  rw [State.generation, State.synced_mem, BitVec.toNat_ofNat]
  exact Nat.mod_eq_of_lt (Mem.nat_four_lt _ _)

end

end Sys2Proof.Machine

namespace Sys2Proof.Claims
open Sys2Proof.Machine

/-- Settles O38: each instruction is its one result; SYNCW first makes the word's loop, and compares the generation that it leaves. -/
theorem waitAndStatusResults : Obligations.WaitAndStatusResults := by
  intro s d a b x y n k group word asked
  dsimp only
  refine ⟨fun met => ?goesOn, fun above => ?waits, ?count, ?chan, ?fault, fun drained => ?nmsync, fun off => exec_syncw_misaligned word asked off,
    fun aligned inside free wf => ?syncw⟩
  case goesOn => exact ⟨_, (exec_waitc group n k).trans (congrArg _ (if_pos met)), State.retire_passed _ 1⟩
  case waits => exact ⟨_, (exec_waitc group n k).trans (congrArg _ (if_neg (Nat.not_le.mpr above))), State.stopped_waits _ _⟩
  case count => exact ⟨_, exec_astatCnt group word, State.retireS_scalarDone _ 1 d _⟩
  case chan => exact ⟨_, exec_astatChan word, State.retireS_scalarDone _ 1 d _⟩
  case fault => exact ⟨_, rfl, State.retireS_scalarDone _ 1 d _⟩
  case nmsync => exact ⟨_, exec_nmsync drained, State.retire_passed _ 1⟩
  case syncw =>
    have event := exec_syncw (d := d) word asked aligned inside free
    obtain ⟨-, count, -, rest⟩ := syncLoop_looped wf x.toNat
    rw [← s.synced_generation x.toNat wf, s.synced_generation_toNat]
    generalize gen : (s.synced x.toNat).generation x.toNat = g at event ⊢
    by_cases past : (g - y.setWidth 32).toNat < 2 ^ 31
    · rw [if_pos past] at event
      have team : ((s.synced x.toNat).dropL1.retireS 1 d (g.setWidth 64)).team = (s.synced x.toNat).team := by
        rw [State.retireS_rest, State.dropL1_of_group (s := s.synced x.toNat) group]
        rfl
      refine ⟨_, event, ?_⟩
      rw [team, State.synced_mem]
      refine ⟨s.mem_synced_syncs x.toNat, syncLoop_of_zero, rfl, fun total => count.trans (if_neg total), rest, fun _ => ⟨fun r => ?_, ?_⟩,
        fun not => absurd past (Nat.not_lt.mpr not)⟩
      all_goals rw [State.dropL1_of_group (s := s.synced x.toNat) group]
      · exact State.sreg_retireS _ 1 d _ r
      · exact pathDone_of_paths (State.retireS_scalarDone _ 1 d _).path (fun p => rfl) rfl
    · rw [if_neg past] at event
      refine ⟨_, event, ?_⟩
      have waits := (s.synced x.toNat).stopped_waits (.sync x.toNat (y.setWidth 32))
      generalize (s.synced x.toNat).stopped (.suspend (.sync x.toNat (y.setWidth 32))) = t at waits ⊢
      have team : t.team = (s.synced x.toNat).team := by
        rw [waits.rest]
        rfl
      rw [team, State.synced_mem, waits.path]
      refine ⟨s.mem_synced_syncs x.toNat, syncLoop_of_zero, rfl, fun total => count.trans (if_neg total), rest,
        fun yes => absurd yes past, fun _ => ⟨rfl, rfl, ?_⟩⟩
      rw [waits.hart]
      rfl

end Sys2Proof.Claims
end

