-- ==== Sys2Proof/Proofs/GatherStart.lean ====
section
/-! PROOFS. GATH and SCAT (R279, R280): the transfer that they hand to the gather engine. -/

namespace Sys2Proof.Machine
open Sys2Proof.Claims

/-! ## What retiring leaves of a group -/

theorem State.retire_counter (s : State) (n : Nat) (b : Latch) (j : Nat) : (s.retire n b).hart.counter j = s.hart.counter j := by
  unfold Hart.counter
  rw [State.retire_hart, Hart.forget_ledger, Hart.setPath_ledger]

theorem State.retire_s (s : State) (n : Nat) (b : Latch) : (s.retire n b).hart.s = s.hart.s := by rw [State.retire_hart, Hart.forget_s, Hart.setPath_s]
theorem State.retire_m (s : State) (n : Nat) (b : Latch) : (s.retire n b).hart.m = s.hart.m := by rw [State.retire_hart, Hart.forget_m, Hart.setPath_m]

/-- The registers of a group once an operation of one counter has its number and has raised it. -/
def Hart.starts (h : Hart) (c : Nat) : Hart := { h with nextOp := h.nextOp + 1 }.raiseCtr c h.nextOp

theorem Hart.counter_starts (h : Hart) {c : Nat} (bound : c < 8) (j : Nat) : (h.starts c).counter j = h.counter j + if j = c then 1 else 0 :=
  Hart.counter_raiseCtr { h with nextOp := h.nextOp + 1 } bound h.nextOp j

/-! ## GATH and SCAT -/

section
variable (s : State) (d : BitVec 6) (k : MSel) (l : GathLit) (g0 l0 : Word64) (scat : Bool)

/-- The global address of a row (R279). -/
def State.gathFrom (i : Nat) : Word64 := g0 + BitVec.ofNat 64 (s.hart.elem s.vc.vlen d.toNat 32 i * l.pitch.toNat)
/-- The offset of a row in the allocation (R279). -/
def gathTo (i : Nat) : Nat := (l0 + BitVec.ofNat 64 (i * (4 * l.words.toNat))).toNat
/-- The agent of the team's next transfer. -/
def State.gathAgt : Agt := ⟨s.cur.team, 33 + 2 * s.team.nextJob, some s.cur.gid, s.hart.sys⟩

/-- The transfer that GATH or SCAT hands to the gather engine: its rows in increasing element order (R280). -/
def State.gathJob : Gather :=
  { job := s.team.nextJob, id := s.hart.nextOp, gid := s.cur.gid, sys := s.hart.sys, scat := scat, size := 4 * l.words.toNat,
    rows := (actives s k).map fun i => (i, s.gathFrom d l g0 i, gathTo l l0 i), last := 0 }

/-- The state in which the team's gather engine has the transfer and `gath` has risen. -/
def State.gathering (x : Gather) : State :=
  (s.setTeam { s.team with gathers := s.team.gathers ++ [x], nextJob := s.team.nextJob + 1 }).setHart (s.hart.starts kGath)

variable {s d k l g0 l0 scat}

theorem State.gathRow_ok {a : Agt} {acc : Access} {g o : Word64} {n : Nat} (row : ∃ ps, s.engRow a acc 12 g n = .ok ps) (aligned : o.toNat % 4 = 0)
    (inside : o.toNat + n ≤ s.team.spadBytes) : s.gathRow a acc g o n = .ok (g, o.toNat) := by
  obtain ⟨ps, row⟩ := row
  unfold State.gathRow
  rw [row]
  simp only [need_ok (beq_of_eq aligned), need_ok (decide_eq_true inside)]
  rfl

/-- Where every row that takes part is in place the transfer starts (R279). -/
theorem State.startGather_eq {a b : Src} (from_ : s.opnd a = .ok g0) (onto : s.opnd b = .ok l0) (closed : s.hart.region = none) (width : s.vc.sew = 32)
    (mask : s.vc.selOk k = true) (regs : s.vc.regOk d.toNat s.vc.lmul = true) (held : s.heldRegs d.toNat s.vc.lmul = .ok ())
    (room : s.hart.counter kGath < 65535)
    (rows : ∀ i ∈ actives s k, ∃ ps, s.engRow s.gathAgt (if scat then .write else .read) 12 (s.gathFrom d l g0 i) (4 * l.words.toNat) = .ok ps)
    (places : ∀ i ∈ actives s k, gathTo l l0 i % 4 = 0 ∧ gathTo l l0 i + 4 * l.words.toNat ≤ s.team.spadBytes) :
    s.startGather d a b k l scat = .next ((s.gathering (s.gathJob d k l g0 l0 scat)).retire 2 Latch.none) := by
  have each : ((List.range s.vc.max).filter (s.vc.active s.lanesOn (s.sel k) 32)).map (fun i => (i, s.gathRow s.gathAgt (if scat then .write else .read)
      (g0 + BitVec.ofNat 64 (s.hart.elem s.vc.vlen d.toNat 32 i * l.pitch.toNat)) (l0 + BitVec.ofNat 64 (i * (4 * l.words.toNat))) (4 * l.words.toNat)))
      = (actives s k).map fun i => (i, (.ok (s.gathFrom d l g0 i, gathTo l l0 i) : Res (Word64 × Nat))) := by
    have picked : (List.range s.vc.max).filter (s.vc.active s.lanesOn (s.sel k) 32) = actives s k := by rw [actives, width]
    rw [picked]
    refine List.map_congr_left fun i mem => ?_
    obtain ⟨aligned, inside⟩ := places i mem
    exact congrArg (Prod.mk i) (State.gathRow_ok (rows i mem) aligned inside)
  have needed : (s.vc.sew == 32 && s.vc.selOk k && s.vc.regOk d.toNat s.vc.lmul) = true := by rw [width, mask, regs]; rfl
  unfold State.gathAgt at each
  unfold State.startGather
  simp only [needOp_ok needed, from_, onto, State.notInRegion_ok closed, held, bind, Except.bind, each, joinElems_ok _ _ _ fun i => i,
    await_ok (decide_eq_true room)]
  rw [List.map_map]
  rfl

/-- What handing over a transfer leaves (R280). -/
theorem State.gathering_done (x : Gather) :
    let t := (s.gathering x).retire 2 Latch.none
    PathDone s t 2 Latch.none ∧ t.team.gathers = s.team.gathers ++ [x] ∧ t.team.nextJob = s.team.nextJob + 1
      ∧ (∀ j < 8, t.hart.counter j = s.hart.counter j + if j = kGath then 1 else 0) ∧ t.hart.s = s.hart.s ∧ t.hart.v = s.hart.v ∧ t.hart.m = s.hart.m
      ∧ t.mem = s.mem ∧ t.team.mem = s.team.mem ∧ ∀ j, j ≠ s.cur.team → t.teamOf j = s.teamOf j := by
  intro t
  have hart : (s.gathering x).hart = s.hart.starts kGath := State.hart_setHart _ _
  have team : t.team = { s.team with gathers := s.team.gathers ++ [x], nextJob := s.team.nextJob + 1 } := s.team_setTeam _
  refine ⟨?path, by rw [team], by rw [team], fun j _ => ?counter, ?s, ?v, ?m, rfl, by rw [team],
    fun j ne => s.teamOf_setTeamOf_ne ne _⟩
  case path =>
    refine pathDone_of_paths (State.retire_pathDone _ 2 Latch.none) (fun p => ?_) rfl
    rw [hart]
    rfl
  case counter => rw [State.retire_counter, hart, Hart.counter_starts _ (by decide)]
  case s => rw [State.retire_s, hart]; rfl
  case v => rw [State.retire_v, hart]; rfl
  case m => rw [State.retire_m, hart]; rfl

end

end Sys2Proof.Machine
end

