-- ==== Sys2Proof/Proofs/CollectiveStart.lean ====
section
/-! PROOFS. COLL (R415 to R417): what sending the input, and where every stream has come the result, leave of the group and of the collectives under way. -/

namespace Sys2Proof.Machine
open Sys2Proof.Claims

/-! ## Writes that leave the collectives alone -/

theorem State.physWrite_fabric {w : State → Nat → List Byte → State} (keeps : ∀ (s : State) k bs, (w s k bs).fabric = s.fabric) (s : State) (a : Nat)
    (bs : List Byte) : (s.physWrite w a bs).fabric = s.fabric := by
  refine List.foldlRecOn (motive := fun u : State => u.fabric = s.fabric) _ _ rfl fun u same p _ => ?_
  cases homeKey p.1 with
  | none => exact same
  | some k => exact (keeps u k _).trans same

theorem State.fsStore_fabric (s : State) (key pa asid : Nat) (bs : List Byte) (bad : Bool) : (s.fsStore key pa asid bs bad).fabric = s.fabric := by
  have raw (u : State) (a : Nat) (x : List Byte) : (u.physRaw a x).fabric = u.fabric := State.physWrite_fabric (w := State.rawPoke) (fun _ _ _ => rfl) u a x
  have put (u : State) (x : List Byte) : (u.fsPut pa asid x).fabric = u.fabric := by
    unfold State.fsPut State.fsWriteRaw
    rw [raw, raw]
  unfold State.fsStore
  dsimp only
  split
  · dsimp only
    rw [put]
  · rfl

theorem State.poke_fabric (s : State) (t : Tgt) (bs : List Byte) (bad : Bool) : (s.poke none t bs bad).fabric = s.fabric := by
  cases t with
  | home k =>
    show ((s.pokeHome k bs bad).maybeEvict k bs.length).fabric = s.fabric
    rw [State.maybeEvict_rest]
    rfl
  | shared k pa asid =>
    exact List.foldlRecOn (motive := fun u : State => u.fabric = s.fabric) _ _ rfl fun u same p _ => (State.fsStore_fabric u _ _ _ _ _).trans same
  | spad | win | remote => rfl

theorem State.sendPkt_colls (s : State) (p : FabPkt) : (s.sendPkt p).1.fabric.colls = s.fabric.colls := rfl

theorem State.vwriteAux_colls {asid va : Nat} {sys bad : Bool} {bs : List Byte} {ps : List (Nat × Nat)} {s t : State}
    (wrote : s.vwriteAux asid sys bad va bs ps = .ok t) : t.fabric.colls = s.fabric.colls := by
  induction ps generalizing s with
  | nil =>
    cases wrote
    rfl
  | cons p ps ih =>
    unfold State.vwriteAux at wrote
    split at wrote
    · cases wrote
    · dsimp only at wrote
      split at wrote
      · split at wrote
        · cases wrote
        · split at wrote
          · exact (ih wrote).trans (List.foldlRecOn (motive := fun u : State => u.fabric.colls = s.fabric.colls) _ _ rfl fun u same _ _ => same)
          · exact (ih (s := (s.sendPkt _).1) wrote).trans rfl
      · exact (ih wrote).trans (congrArg Fabric.colls (State.poke_fabric _ _ _ _))

/-- From s to t packets have left and bytes have been written: the groups and the collectives under way are as they were. -/
structure State.Sends (s t : State) : Prop where
  harts : t.harts = s.harts
  cur : t.cur = s.cur
  colls : t.fabric.colls = s.fabric.colls

namespace State.Sends

theorem refl (s : State) : s.Sends s := ⟨rfl, rfl, rfl⟩

theorem trans {s t u : State} (a : s.Sends t) (b : t.Sends u) : s.Sends u := ⟨b.harts.trans a.harts, b.cur.trans a.cur, b.colls.trans a.colls⟩

theorem foldl {α : Type} {f : State → α → State} (each : ∀ (s : State) (a : α), s.Sends (f s a)) (l : List α) (s : State) : s.Sends (l.foldl f s) :=
  List.foldlRecOn (motive := s.Sends) l f (refl s) fun u sends a _ => sends.trans (each u a)

theorem of_wrote {s t : State} (wrote : s.Wrote t) (colls : t.fabric.colls = s.fabric.colls) : s.Sends t := ⟨wrote.harts_eq, by rw [wrote], colls⟩

end State.Sends

theorem State.sendPkt_sends (s : State) (p : FabPkt) : s.Sends (s.sendPkt p).1 := .of_wrote (s.sendPkt_wrote p) (s.sendPkt_colls p)

theorem State.sendStream_sends (s : State) (c : Coll) (core gid dst : Nat) : s.Sends (s.sendStream c core gid dst) := .foldl (fun u _ => u.sendPkt_sends _) _ s

theorem State.writeRuns_sends {asid va : Nat} {sys : Bool} {rs : List (List Byte × Bool)} {s t : State} (wrote : s.writeRuns asid sys va rs = .ok t) :
    s.Sends t := by
  induction rs generalizing s va with
  | nil =>
    cases wrote
    exact .refl _
  | cons r rs ih =>
    unfold State.writeRuns at wrote
    split at wrote
    · cases wrote
    · next u first =>
      refine .trans ?_ (ih wrote)
      split at first <;> exact .of_wrote (State.vwriteAux_wrote first) (State.vwriteAux_colls first)

theorem State.writeResult_sends (s : State) (c : Coll) (bs : List (Byte × Bool)) : s.Sends (s.writeResult c bs).1 := by
  unfold State.writeResult
  dsimp only
  split
  · exact ⟨rfl, rfl, rfl⟩
  · split
    · next wrote => exact State.writeRuns_sends wrote
    · exact .refl s

/-! ## The collective that starts -/

/-- From s to t, collective c, the last of those under way, may have had its status set. -/
structure State.CollMoved (s t : State) (c : Coll) (old : List Coll) : Prop where
  harts : t.harts = s.harts
  cur : t.cur = s.cur
  colls : ∃ st, t.fabric.colls = old ++ [{ c with status := st }]

theorem State.CollMoved.of_sends {s t : State} {c : Coll} {old : List Coll} (sends : s.Sends t) (last : s.fabric.colls = old ++ [c]) :
    s.CollMoved t c old := ⟨sends.harts, sends.cur, c.status, sends.colls.trans last⟩

/-- A collective that none under way equals is the only one whose status is set. -/
theorem State.setColl_last {s : State} {c d : Coll} {old : List Coll} (last : s.fabric.colls = old ++ [c]) (fresh : c ∉ old) :
    (s.setColl c d).fabric.colls = old ++ [d] := by
  show s.fabric.colls.map _ = _
  rw [last, List.map_append, List.map_singleton, if_pos rfl]
  refine congrArg (· ++ [d]) ((List.map_congr_left fun x mem => if_neg ?_).trans (List.map_id _))
  rintro rfl
  exact fresh mem

section
variable {s : State} {c : Coll} {old : List Coll} (last : s.fabric.colls = old ++ [c]) (fresh : c ∉ old)
include last fresh

theorem State.failColl_colls : (s.failColl c).fabric.colls = old ++ [{ c with status := some (3, 0) }] :=
  State.setColl_last ((State.Sends.foldl (fun u _ => u.sendPkt_sends _) (s.otherRanks c) s).colls.trans last) fresh

theorem State.failColl_moved : s.CollMoved (s.failColl c) c old where
  harts := (State.Sends.foldl (fun u _ => u.sendPkt_sends _) (s.otherRanks c) s).harts
  cur := (State.Sends.foldl (fun u _ => u.sendPkt_sends _) (s.otherRanks c) s).cur
  colls := ⟨_, State.failColl_colls last fresh⟩

/-- A collective that is tried ends or goes on; nothing else of the groups and the collectives changes. -/
theorem State.tryColl_moved : s.CollMoved (s.tryColl c) c old := by
  unfold State.tryColl
  dsimp only
  split
  · exact .of_sends (.refl s) last
  · split
    · obtain ⟨harts, cur, colls⟩ := State.failColl_moved (s := { s with fabric := { s.fabric with pieces := usePieces c s.fabric.pieces } }) last fresh
      exact ⟨harts, cur, colls⟩
    · split
      · exact .of_sends (.refl s) last
      · next ss _ =>
        have sends := State.writeResult_sends { s with fabric := { s.fabric with pieces := usePieces c s.fabric.pieces }, tick := s.tick + 1 } c
          ((collDesc c.desc).result (Sys2Proof.Machine.planFor (collDesc c.desc).n s.tick) (ss.map fun x => x.drop 16))
        exact ⟨sends.harts, sends.cur, _, State.setColl_last (sends.colls.trans last) fresh⟩

end

/-- The state in which a collective is under way, and no abort has come for it. -/
def State.withColl (s : State) (c : Coll) : State :=
  { s with fabric := { s.fabric with colls := s.fabric.colls ++ [c], ended := s.fabric.ended.filter (· != (c.asid, c.id)),
                                     aborts := s.fabric.aborts.filter fun a => some a != none } }

section
variable {s : State} {c : Coll} (early : ∀ x ∈ s.fabric.aborts, x.2 ≠ (c.asid, c.id)) (fresh : c ∉ s.fabric.colls)
include early

theorem State.startColl_eq (read : Bool) (core gid : Nat) : s.startColl c read core gid
    = if read then (((s.withColl c).otherRanks c).foldl (fun u p => u.sendStream c core gid p) (s.withColl c)).tryColl c else (s.withColl c).failColl c := by
  have none_ : (s.fabric.aborts.find? fun a => a.2 == (c.asid, c.id) && decide (a.1 ∈ c.peers)) = none :=
    List.find?_eq_none.mpr fun x mem => by simp [early x mem]
  unfold State.startColl
  simp only [none_]
  cases read <;> rfl

include fresh

theorem State.startColl_moved (read : Bool) (core gid : Nat) : s.CollMoved (s.startColl c read core gid) c s.fabric.colls := by
  rw [State.startColl_eq early]
  cases read with
  | false =>
    obtain ⟨harts, cur, colls⟩ := State.failColl_moved (s := s.withColl c) rfl fresh
    exact ⟨harts, cur, colls⟩
  | true =>
    have sends := State.Sends.foldl (fun u p => u.sendStream_sends c core gid p) ((s.withColl c).otherRanks c) (s.withColl c)
    obtain ⟨harts, cur, colls⟩ := State.tryColl_moved (sends.colls.trans rfl) fresh
    exact ⟨harts.trans sends.harts, cur.trans sends.cur, colls⟩

theorem State.startColl_unread (core gid : Nat) : (s.startColl c false core gid).fabric.colls = s.fabric.colls ++ [{ c with status := some (3, 0) }] := by
  rw [State.startColl_eq early]
  exact State.failColl_colls rfl fresh

end

/-! ## COLL (R415) -/

section
variable {s : State} {a : Src} {ml : MemM} {g0 : Word64} {bs ps : List Byte} {input : Option (List (Byte × Bool))}

/-- The collective that COLL starts. -/
def State.collOf (s : State) (bs ps : List Byte) (input : Option (List (Byte × Bool))) : Coll :=
  { id := (collDesc (bytesToBits 512 bs)).id, team := s.cur.team, gid := s.cur.gid, op := s.hart.nextOp, launch := none, asid := s.hart.asid.toNat, sys := s.hart.sys,
    desc := bytesToBits 512 bs, peers := peersOf ps, input := input.getD [], status := none, wrote := false }

theorem exec_coll (base : s.opnd a = .ok g0) (closed : s.hart.region = none) (space : ml.space = .g) (drained : s.drained .sys = .ok ())
    (aligned : (g0 + ml.off.signExtend 64).toNat % 64 = 0) (read : s.readSpan (g0 + ml.off.signExtend 64) 64 = .ok bs)
    (limits : (collDesc (bytesToBits 512 bs)).ok false = true)
    (list : s.readSpan (BitVec.ofNat 64 (collDesc (bytesToBits 512 bs)).peers) (2 * (collDesc (bytesToBits 512 bs)).n) = .ok ps)
    (peers : peersOk s.fabric.device.toNat (collDesc (bytesToBits 512 bs)) (peersOf ps) = true)
    (data : s.collInput (collDesc (bytesToBits 512 bs)) = .ok input) (room : s.hart.counter kColl < 65535) : exec (.coll a ml) s
      = .next (((s.setHart (s.hart.starts kColl)).startColl (s.collOf bs ps input) input.isSome s.team.core s.cur.gid).retire 2 Latch.none) := by
  have off : sx64 ml.off = ml.off.signExtend 64 := rfl
  show execColl a ml s = _
  unfold execColl
  simp only [needOp_ok (beq_of_eq space), base, State.notInRegion_ok closed, drained, off, need_ok (beq_of_eq aligned), read, need_ok limits, list, need_ok peers,
    data, await_ok (decide_eq_true room), bind, Except.bind]
  rfl

end

end Sys2Proof.Machine

namespace Sys2Proof.Claims
open Sys2Proof.Machine

/-- Settles O39: a gather or scatter whose rows are all in place is handed over as one transfer; a collective keeps all but its status through its own start. -/
theorem gatherAndCollectiveStart : Obligations.GatherAndCollectiveStart := by
  intro s d a b k l ml g0 l0 group closed from_ onto
  dsimp only
  refine ⟨fun width mask regs held room places => ⟨fun rows => ?gath, fun rows => ?scat⟩,
    fun bs ps input space drained aligned read limits list peers data room fresh early => ?coll⟩
  case gath => exact ⟨_, State.startGather_eq (scat := false) from_ onto closed width mask regs held room rows places, State.gathering_done _⟩
  case scat => exact ⟨_, State.startGather_eq (scat := true) from_ onto closed width mask regs held room rows places, State.gathering_done _⟩
  case coll =>
    have event := exec_coll from_ closed space drained aligned read limits list peers data room
    have unlike : s.collOf bs ps input ∉ (s.setHart (s.hart.starts kColl)).fabric.colls := fun mem => fresh _ mem rfl
    have unread : input = none → ((s.setHart (s.hart.starts kColl)).startColl (s.collOf bs ps input) input.isSome s.team.core s.cur.gid).fabric.colls
        = s.fabric.colls ++ [{ s.collOf bs ps input with status := some (3, 0) }] := by
      rintro rfl
      exact State.startColl_unread early unlike _ _
    obtain ⟨harts, cur, st, colls⟩ := State.startColl_moved early unlike input.isSome s.team.core s.cur.gid
    generalize (s.setHart (s.hart.starts kColl)).startColl (s.collOf bs ps input) input.isSome s.team.core s.cur.gid = u at event harts cur colls unread
    have hart : u.hart = s.hart.starts kColl := (State.hart_eq_of_harts harts cur).trans (s.hart_setHart _)
    refine ⟨_, { s.collOf bs ps input with status := st }, event, colls, rfl, rfl, rfl, rfl, rfl, rfl, rfl, rfl, rfl, fun none_ => ?status, fun j _ => ?counter,
      ?path, ?s, ?v⟩
    case status =>
      have same := List.append_cancel_left (colls.symm.trans (unread none_))
      exact congrArg Coll.status (List.singleton_inj.mp same)
    case counter => rw [State.retire_counter, hart, Hart.counter_starts _ (by decide)]
    case path =>
      refine pathDone_of_paths (State.retire_pathDone u 2 Latch.none) (fun p => ?_) cur
      rw [hart]
      rfl
    case s => rw [State.retire_s, hart]; rfl
    case v => rw [State.retire_v, hart]; rfl

end Sys2Proof.Claims
end

