-- ==== Sys2Proof/Proofs/EngineRows.lean ====
section
/-! PROOFS. Rows of the engines (R267, R273): reading and writing a row of one piece, and what the writes leave of the rest. -/

namespace Sys2Proof.Machine
open Sys2Proof.Claims

/-! ## Bytes that a write leaves -/

section
variable {m : Mem} (wf : m.wf = true) (a n : Nat)
include wf

theorem Mem.byte_write_read (m₂ : Mem) (b z : Nat) :
    (m.write a (m₂.read b n)).byte z = if a ≤ z ∧ z < a + n then m₂.byte (b + (z - a)) else m.byte z := by
  rw [Mem.byte_write wf, Mem.read_length, Mem.read_eq]
  refine ite_congr rfl (fun inside => ?_) fun _ => rfl
  rw [List.getD_eq_getElem _ _ (by rw [List.length_map, List.length_range]; omega), List.getElem_map, List.getElem_range]

theorem Mem.byte_write_zeros (z : Nat) : (m.write a (List.replicate n 0)).byte z = if a ≤ z ∧ z < a + n then 0 else m.byte z := by
  rw [Mem.byte_write wf, List.length_replicate]
  refine ite_congr rfl (fun inside => ?_) fun _ => rfl
  rw [List.getD_eq_getElem _ _ (by rw [List.length_replicate]; omega), List.getElem_replicate]

end

/-! ## Reading a row of one piece -/

section
variable {s : State} {a : Agt} {p : Place} {n : Nat} {bs : List Byte} {bad : Bool}

theorem State.engReadRow_one (read : s.engRead a p n = .data bs bad) : s.engReadRow a [(p, n)] = .data bs bad := by
  simp only [State.engReadRow, read, List.append_nil, Bool.or_false]

theorem State.readRow_one {wins : Nat} {va : Word64} (row : s.engRow a .read wins va n = .ok [(p, n)]) (read : s.engRead a p n = .data bs bad) :
    s.readRow a wins va n = .data bs bad := by
  simp only [State.readRow, row, State.engReadRow_one read]

/-- With no store and no read on its way, memory is read at its home (R221, R389). -/
theorem State.engRead_home (landed : s.posted = []) (idle : s.reads = []) (key : Nat) :
    s.engRead a ⟨.home key, false⟩ n = .data (s.mem.read key n) (s.poisonedAt key n) := by
  have join (core : Nat) : (blocksOf 128 key n).any (s.wouldJoin core) = false := List.any_eq_false.mpr fun line _ => by
    rw [State.wouldJoin, idle]
    exact Bool.false_ne_true
  simp only [State.engRead, State.visible, landed, join, List.filter_nil, List.any_nil, Bool.and_false, Bool.or_false, Bool.false_eq_true, if_false]

theorem State.engRead_spad {k o : Nat} {fe : Bool} (present : (s.teamOf k).absent = false) :
    s.engRead a ⟨.spad k o, fe⟩ n = .data ((s.teamOf k).mem.read o n) ((s.teamOf k).markedAt o n) := by
  simp only [State.engRead, present, Bool.false_eq_true, if_false]

end

/-! ## Writing a row of one piece -/

section
variable {s : State} {a : Agt} {bs : List Byte}

/-- A row of one piece that its place takes is written whole. -/
theorem State.engWriteRow_one {p : Place} {u : State} (done : (⟨s, false, false, false⟩ : EngWrite).piece a p.tgt bs false = ⟨u, false, false, false⟩) :
    s.engWriteRow a [(p, bs.length)] bs false = ⟨u, false, false, false⟩ := by
  simp only [State.engWriteRow, List.foldl_cons, List.foldl_nil, List.take_length, done, Bool.false_eq_true, if_false]

theorem EngWrite.piece_spad {k o : Nat} (here : s.away k = false) (plain : s.inFold (s.teamOf k).core k o bs.length = false) :
    (⟨s, false, false, false⟩ : EngWrite).piece a (.spad k o) bs false = ⟨s.setTeamOf k ((s.teamOf k).poke o bs false), false, false, false⟩ := by
  simp only [EngWrite.piece, here, plain, Bool.false_eq_true, if_false]
  rfl

theorem EngWrite.piece_home (key : Nat) : (⟨s, false, false, false⟩ : EngWrite).piece a (.home key) bs false
    = ⟨(s.pokeHome key bs false).maybeEvict key bs.length, false, false, false⟩ := rfl

/-- A row written into an allocation changes its bytes and the marks of its words alone, where no synchronisation word has a loop to make. -/
theorem State.spadRow_applied {k o : Nat} (quiet : (s.teamOf k).syncs = []) : s.AtomsApplied (s.setTeamOf k ((s.teamOf k).poke o bs false)) k
    ((s.teamOf k).mem.write o bs) := State.AtomsApplied.poke quiet (.refl s k) o bs

theorem State.homeRow_rest (s : State) (key : Nat) (bs : List Byte) :
    ((s.pokeHome key bs false).maybeEvict key bs.length).teams = s.teams ∧ ((s.pokeHome key bs false).maybeEvict key bs.length).harts = s.harts
      ∧ ((s.pokeHome key bs false).maybeEvict key bs.length).mem = s.mem.write key bs := by
  rw [State.maybeEvict_rest]
  exact ⟨rfl, rfl, rfl⟩

end

/-! ## What an engine has received -/

theorem State.teamOf_forgetting (s : State) (k key : Nat) : (s.setTeamOf k ((s.teamOf k).forget key)).teamOf k = (s.teamOf k).forget key :=
  s.teamOf_setTeamOf k _

end Sys2Proof.Machine
end

