-- ==== Sys2Proof/Proofs/CopyFields.lean ====
section
/-! PROOFS. The fields of descriptors and templates (R263, R265, R266), and the rows of a copy (R267), as bits of the two records. -/

namespace Sys2Proof.Machine
open Sys2Proof.Claims

theorem bitsOf_toNat {w : Nat} (v : BitVec w) (hi lo : Nat) : bitsOf v.toNat hi lo = (v.extractLsb' lo (hi + 1 - lo)).toNat := by
  rw [bitsOf, BitVec.extractLsb'_toNat, Nat.shiftRight_eq_div_pow]

/-- A field of the source record, which lies behind the walk record (R265, R266). -/
theorem bitsOf_div (x hi lo : Nat) : bitsOf (x / 2 ^ 256) hi lo = bitsOf x (256 + hi) (256 + lo) := by
  rw [bitsOf, bitsOf, Nat.div_div_eq_div_mul, ← pow_add]
  congr 2
  omega

theorem signed32_toNat (v : BitVec 32) : signed32 v.toNat = v.toInt := by
  rw [signed32, valOf_eq _ (by decide), BitVec.ofNat_toNat, BitVec.setWidth_eq]
  rfl

section
variable (x : Copy)

/-- Bits of the descriptor and of the template. -/
def Copy.descBits (lo n : Nat) : Nat := (x.desc.extractLsb' lo n).toNat
def Copy.tmplBits (lo n : Nat) : Nat := (x.tmpl.extractLsb' lo n).toNat
def Copy.tmplInt (lo : Nat) : Int := (x.tmpl.extractLsb' lo 32).toInt

theorem Copy.d_eq : x.d =
    { src := x.descBits 0 64, dst := x.descBits 64 64, origin := x.descBits 128 32, barrier := x.descBits 168 4,
      arrive := x.desc.getLsbD 175, rise := x.desc.getLsbD 176, sync := x.descBits 192 32, clean := x.d.clean } := by
  unfold Copy.d
  simp only [bitsOf_toNat]
  rfl

theorem Copy.t_eq : x.t =
    { mode := x.tmplBits 0 8, E := x.tmplBits 16 16, n0 := x.tmplBits 32 16, n1 := x.tmplBits 48 16, n2 := x.tmplBits 64 16, n3 := x.tmplBits 80 16,
      dp0 := x.tmplInt 96, dp1 := x.tmplInt 128, OW := x.tmplBits 160 16, M := x.tmplBits 176 16, sh := x.tmplBits 192 8, sw := x.tmplBits 200 8,
      ph := x.tmplBits 208 8, pw := x.tmplBits 216 8, H := x.tmplBits 224 16, W := x.tmplBits 240 16, kind := x.tmplBits 256 8, p0 := x.tmplInt 320,
      p1 := x.tmplInt 352, p2 := x.tmplInt 384, p3 := x.tmplInt 416, table := x.tmplBits 448 64, clean := x.t.clean } := by
  unfold Copy.t Copy.tmplInt
  simp only [bitsOf_div, bitsOf_toNat, ← signed32_toNat]
  rfl

theorem Copy.rows_eq : x.t.rows = x.tmplBits 32 16 * x.tmplBits 48 16 * x.tmplBits 64 16 * x.tmplBits 80 16 := by
  rw [Copy.t_eq]
  rfl

theorem Copy.E_eq : x.t.E = x.tmplBits 16 16 := by rw [Copy.t_eq]

/-! ## Rows (R267) -/

/-- The row's place in the first extent, and the number of its run of rows. -/
def Copy.inner : Nat := x.next % x.tmplBits 32 16
def Copy.outer : Nat := x.next / x.tmplBits 32 16

/-- The destination of the next row. -/
def Copy.rowDst : Word64 := BitVec.ofInt 64 (x.descBits 64 64 + x.inner * x.tmplInt 96 + x.outer * x.tmplInt 128)

/-- The source of the next row in mode LINEAR, where no table names it. -/
def Copy.rowSrc : Word64 :=
  BitVec.ofInt 64 (x.descBits 0 64 + (x.descBits 128 32 + x.inner : Nat) * x.tmplInt 320 + (x.outer % x.tmplBits 48 16 : Nat) * x.tmplInt 352
    + (x.outer / x.tmplBits 48 16 % x.tmplBits 64 16 : Nat) * x.tmplInt 384
    + (x.outer / (x.tmplBits 48 16 * x.tmplBits 64 16) : Nat) * x.tmplInt 416)

/-- The coordinates of the next row in mode LINEAR. -/
def Copy.coords : Int × Int × Int × Int :=
  ((x.descBits 128 32 + x.inner : Nat), (x.outer % x.tmplBits 48 16 : Nat), (x.outer / x.tmplBits 48 16 % x.tmplBits 64 16 : Nat),
    (x.outer / (x.tmplBits 48 16 * x.tmplBits 64 16) : Nat))

theorem Copy.row_linear (linear : x.tmplBits 0 8 = 0) : copyRow x.d x.t x.next = (x.rowDst, some x.coords) := by
  rw [Copy.d_eq, Copy.t_eq]
  exact if_pos linear

/-- The window coordinates of the next row in mode WINDOW. -/
def Copy.col : Int :=
  ((x.descBits 128 32 + x.inner) % x.tmplBits 160 16 * x.tmplBits 200 8 + x.outer % x.tmplBits 48 16 : Nat) - (x.tmplBits 216 8 : Int)
def Copy.line : Int :=
  ((x.descBits 128 32 + x.inner) / x.tmplBits 160 16 * x.tmplBits 192 8 + x.outer / x.tmplBits 48 16 % x.tmplBits 64 16 : Nat) - (x.tmplBits 208 8 : Int)

/-- A row of a window copy beyond the output positions, or whose coordinates fall outside the input, is no valid row. -/
theorem Copy.row_outside (window : x.tmplBits 0 8 = 1) (outside : x.tmplBits 176 16 ≤ x.descBits 128 32 + x.inner ∨ x.col < 0
    ∨ (x.tmplBits 240 16 : Int) ≤ x.col ∨ x.line < 0 ∨ (x.tmplBits 224 16 : Int) ≤ x.line) : copyRow x.d x.t x.next = (x.rowDst, none) := by
  have invalid : ¬ (x.descBits 128 32 + x.inner < x.tmplBits 176 16 ∧ 0 ≤ x.col ∧ x.col < (x.tmplBits 240 16 : Int) ∧ 0 ≤ x.line
      ∧ x.line < (x.tmplBits 224 16 : Int)) := by omega
  rw [Copy.d_eq, Copy.t_eq]
  refine (if_neg ?_).trans (congrArg (Prod.mk x.rowDst) (if_neg invalid))
  show x.tmplBits 0 8 ≠ 0
  rw [window]
  decide

/-- The source of a linear row that no table names is read at its address. -/
theorem State.copySource_linear {s : State} {a : Agt} (direct : x.tmplBits 256 8 = 0) :
    s.copySource a x.d x.t x.coords = s.readRow a 15 x.rowSrc (x.tmplBits 16 16) := by
  rw [Copy.d_eq, Copy.t_eq]
  exact if_pos direct

end

end Sys2Proof.Machine
end

