-- ==== Sys2Proof/Proofs/CopyStart.lean ====
section
/-! PROOFS. A copy starts (R261 to R264, R268, R269): its start store reaches the channel, a template store changes its slot, and the leading copy begins or stops at a limit. -/

namespace Sys2Proof.Machine
open Sys2Proof.Claims

/-! ## The oldest entry of a store queue (R224, R250) -/

section
variable {s : State} {k g : Nat} {e : SQEntry} {es : List SQEntry} (head : HeadStore s k g e es)
include head

/-- A store to an aperture names no byte of memory, and so nothing but older releases and puts could hold it back. -/
theorem State.headEntry_of_headStore (aperture : e.targets = []) {kind : SQOp → Bool} (its : kind e.op = true) : s.headEntry k g kind = some e := by
  obtain ⟨first, plain, -, -, near, put, -⟩ := head
  have release : s.releaseDue k g e = true := by rw [State.releaseDue, plain]; rfl
  have command : (s.hartOf (.group k g)).nearFirst e = false := by rw [Hart.nearFirst, near]; rfl
  have flag : (s.hartOf (.group k g)).flagFirst [] = false := by simp [Hart.flagFirst]
  have due : s.entryDue k g e = true := by
    unfold State.entryDue
    simp only [release, put, command, aperture, flag]
    rfl
  simp only [State.headEntry, first, its, due, Bool.and_self, if_true]

/-- The operation of a store that `st` alone covers completes. -/
theorem State.credit_of_headStore (u : State) : u.credit k g e true = u.completeOp (.group k g) kSt e.id := by
  obtain ⟨-, -, counted, local_, -⟩ := head
  simp only [State.credit, counted, local_, Bool.and_self, Bool.false_and, if_true, Bool.false_eq_true, if_false]

/-- What the entry's leaving and the fall of `st` are to the harts, whatever else has changed. -/
theorem State.leftQueue_of_headStore {u : State} (harts : u.harts = (s.popSq k g).harts) : LeftQueue s (u.completeOp (.group k g) kSt e.id) k g es := by
  obtain ⟨first, -, -, -, -, -, rest, oldest, later⟩ := head
  have popped : u.hartOf (.group k g) = { s.hartOf (.group k g) with sq := es } := by
    rw [State.hartOf, harts]
    refine (s.hartOf_setHartOf (.group k g) _).trans ?_
    rw [first]
    rfl
  have hart : (u.completeOp (.group k g) kSt e.id).hartOf (.group k g) = ({ s.hartOf (.group k g) with sq := es } : Hart).complete kSt e.id := by
    rw [State.completeOp, State.hartOf_setHartOf, popped]
  unfold LeftQueue
  dsimp only
  rw [hart]
  refine ⟨rfl, ?_, rfl, rfl, rfl, fun j other => ?_⟩
  · exact Hart.counter_complete_oldest (h := { s.hartOf (.group k g) with sq := es }) (by decide) oldest later kSt
  · rw [State.completeOp, State.hartOf_setHartOf_ne _ other, State.hartOf, harts]
    exact s.hartOf_setHartOf_ne other _

end

/-! ## A start reaches its channel (R261, R263, R269) -/

/-- The copies of a channel of a core. -/
def State.chan (s : State) (core chan : Nat) : List Copy := mget [] chan (s.coreOf core).chans

/-- A channel with other copies. -/
def State.setChan (s : State) (core chan : Nat) (q : List Copy) : State :=
  s.setCoreOf core { s.coreOf core with chans := mset chan q (s.coreOf core).chans }

theorem State.chan_setChan (s : State) (core chan : Nat) (q : List Copy) : (s.setChan core chan q).chan core chan = q := by
  rw [State.chan, State.setChan, State.coreOf_setCoreOf]
  exact mget_mset_self ..

/-- The copy of a start store, with its descriptor and template as they stand (R263, R264). -/
def State.startedCopy (s : State) (k g chan : Nat) (e : SQEntry) (data : Word64) : Copy :=
  { team := k, id := e.id, gid := g, tslot := (data.extractLsb' 0 8).toNat, doff := (data.extractLsb' 8 20).toNat,
    desc := bytesToBits 256 ((s.teamOf k).mem.read (data.extractLsb' 8 20).toNat 32),
    tmpl := bytesToBits 512 ((s.teamOf k).tmpl.read (64 * (data.extractLsb' 0 8).toNat) 64),
    aperture := BitVec.ofNat 64 (0xF * 2 ^ 52 + 8 * chan), sys := (s.hartOf (.group k g)).sys, st := .queued, next := 0 }

theorem bytesToBits_toNat {n : Nat} {bs : List Byte} (fits : 8 * bs.length = n) : (bytesToBits n bs).toNat = leNat bs := by
  rw [bytesToBits, BitVec.toNat_ofNat]
  refine Nat.mod_eq_of_lt ((leNat_lt bs).trans_eq ?_)
  rw [← fits, pow_mul]
  rfl

section
variable {s : State} {k g chan off : Nat} {e : SQEntry} {es : List SQEntry} {data : Word64} (head : HeadStore s k g e es)
include head

theorem exec_copyStartAccept (op : e.op = .copyStart chan data) : exec (.copyStartAccept k g) s = .next (
    if 64 ≤ (s.chan (s.teamOf k).core chan).length then s
    else ((s.popSq k g).setChan (s.teamOf k).core chan (s.chan (s.teamOf k).core chan ++ [s.startedCopy k g chan e data])).completeOp (.group k g) kSt e.id) := by
  have aperture : e.targets = [] := by rw [SQEntry.targets, op]
  show execCopyStartAccept k g s = _
  unfold execCopyStartAccept
  rw [State.headEntry_of_headStore head aperture]
  · simp only [op, State.credit_of_headStore head]
    by_cases full : 64 ≤ (s.chan (s.teamOf k).core chan).length
    · rw [if_pos full]
      exact if_pos full
    · rw [if_neg full]
      exact if_neg full
  · rw [op]

/-! ## Template slots (R264) -/

theorem exec_templateSlotWrite (op : e.op = .template off data) : exec (.templateSlotWrite k g) s
    = .next (((s.popSq k g).setTeamOf k { s.teamOf k with tmpl := (s.teamOf k).tmpl.write off (leBytes 8 data.toNat) }).completeOp (.group k g) kSt e.id) := by
  have aperture : e.targets = [] := by rw [SQEntry.targets, op]
  show execTemplateSlotWrite k g s = _
  unfold execTemplateSlotWrite
  rw [State.headEntry_of_headStore head aperture]
  · simp only [op, State.credit_of_headStore head]
    rfl
  · rw [op]

/-- A template store changes its bytes of the slots and nothing else of the team (R264). -/
theorem exec_templateSlotWrite_slot (op : e.op = .template off data) : ∃ t, exec (.templateSlotWrite k g) s = .next t ∧ LeftQueue s t k g es
    ∧ (t.teamOf k).tmpl = (s.teamOf k).tmpl.write off (leBytes 8 data.toNat) ∧ (t.teamOf k).mem = (s.teamOf k).mem ∧ t.mem = s.mem := by
  have event := exec_templateSlotWrite head op
  have team (t : Team) : (((s.popSq k g).setTeamOf k t).completeOp (.group k g) kSt e.id).teamOf k = t := (s.popSq k g).teamOf_setTeamOf k t
  refine ⟨_, event, State.leftQueue_of_headStore head rfl, ?_, ?_, rfl⟩
  all_goals rw [team]

end

/-! ## The leading copy begins (R268, R269) -/

/-- The limit that a copy breaks where it begins. -/
def State.copyBreach (s : State) (k : Nat) (x : Copy) : Option Cause :=
  if !copyOk x.d x.t then some .dataCheck
  else if x.d.arrive ∧ ((s.teamOf k).bar x.d.barrier).cfg.extractLsb' 8 8 = 0 then some .barrierMisuse
  else if x.d.rise ∧ (x.d.sync % 16 ≠ 0 ∨ (s.teamOf k).spadBytes < x.d.sync + 16) then some .accessViolation
  else none

section
variable {s : State} {k chan core : Nat} {x : Copy} {q : List Copy}

theorem State.setLeading_eq (s : State) (y : Option Copy) (queue : s.chan core chan = x :: q) :
    s.setLeading core chan y = s.setChan core chan (y.toList ++ q) := by
  unfold State.chan at queue
  unfold State.setLeading State.setChan
  dsimp only
  rw [queue]
  rfl

/-- The leading copy is found wherever it is in the state that an event asks for. -/
theorem State.find_leading (leads : s.leading k chan = [(core, x)]) {p : Nat × Copy → Bool} (ready : p (core, x) = true) :
    (s.leading k chan).find? p = some (core, x) := by
  rw [leads, List.find?_cons_of_pos ready]

section
variable (leads : s.leading k chan = [(core, x)]) (queue : s.chan core chan = x :: q) (queued : x.st = .queued)
include leads queue queued

/-- A copy that breaks a limit stops. -/
theorem exec_copyBegin_breach {c : Cause} (breach : s.copyBreach k x = some c) :
    exec (.copyBegin k chan) s = .next (s.setChan core chan ({ x with st := .failed c x.aperture x.next } :: q)) := by
  have found := State.find_leading leads (p := fun x => x.2.st == .queued) (beq_of_eq queued)
  have set (y : Copy) : s.setLeading core chan (some y) = s.setChan core chan (y :: q) := s.setLeading_eq (some y) queue
  show execCopyBegin k chan s = _
  unfold execCopyBegin
  simp only [found, set]
  split
  · next other =>
    cases Option.some.inj (breach.symm.trans other)
    rfl
  · next other => cases breach.symm.trans other

/-- A copy that breaks none runs, and names its synchronisation word. -/
theorem exec_copyBegin_sound (sound : s.copyBreach k x = none) : exec (.copyBegin k chan) s = .next (
    if x.d.rise then (s.setChan core chan ({ x with st := .running } :: q)).nameSync k x.d.sync
    else s.setChan core chan ({ x with st := .running } :: q)) := by
  have found := State.find_leading leads (p := fun x => x.2.st == .queued) (beq_of_eq queued)
  have set (y : Copy) : s.setLeading core chan (some y) = s.setChan core chan (y :: q) := s.setLeading_eq (some y) queue
  show execCopyBegin k chan s = _
  unfold execCopyBegin
  simp only [found, set]
  split
  · next other => cases sound.symm.trans other
  · rfl

end

end

end Sys2Proof.Machine
end

