-- ==== Sys2Proof/Proofs/CopyRows.lean ====
section
/-! PROOFS. A copy's rows and its end (R267, R269, R272, R273): a row is written, the copy leaves its channel, its counter falls and then its barrier has the arrival, and a fault is
recorded and pending. -/

namespace Sys2Proof.Machine
open Sys2Proof.Claims

/-! ## A row is written (R267) -/

/-- What a copy's row holds: zeros where it is no valid row, else its source. -/
def State.rowSource (s : State) (a : Agt) (x : Copy) : Option (Int × Int × Int × Int) → RowSrc
  | none => .data (List.replicate x.t.E 0) false
  | some c => s.copySource a x.d x.t c

/-- The copy goes on to its next row, and what its engine has received is forgotten. -/
def State.rowWritten (s : State) (k core chan : Nat) (x : Copy) (q : List Copy) : State :=
  (s.setChan core chan ({ x with next := x.next + 1 } :: q)).setTeamOf k ((s.teamOf k).forget (1 + chan))

section
variable {s u : State} {k chan core : Nat} {x : Copy} {q : List Copy} {bs : List Byte} {ps : List (Place × Nat)} {coords : Option (Int × Int × Int × Int)}

/-- A row whose bytes have come and whose place takes them is written. -/
theorem exec_copyRowWrite (leads : s.leading k chan = [(core, x)]) (queue : s.chan core chan = x :: q) (running : x.st = .running) (more : x.next < x.t.rows)
    (settled : (s.teamOf k).settled (1 + chan) = true) (silent : x.d.rise = false) (row : copyRow x.d x.t x.next = (x.rowDst, coords))
    (source : s.rowSource (x.agt chan) x coords = .data bs false) (place : s.engRow (x.agt chan) .write 15 x.rowDst x.t.E = .ok ps)
    (write : s.engWriteRow (x.agt chan) ps bs false = ⟨u, false, false, false⟩) (cores : u.cores = s.cores) :
    exec (.copyRowWrite k chan) s = .next (u.rowWritten k core chan x q) := by
  have found := State.find_leading leads
    (p := fun y => y.2.st == .running && decide (y.2.next < y.2.t.rows) && (s.teamOf k).settled (1 + chan))
    (by rw [beq_of_eq running, decide_eq_true more, settled]; rfl)
  have queue' : u.chan core chan = x :: q := by
    rw [State.chan, State.coreOf, cores]
    exact queue
  have set (y : Copy) : u.setLeading core chan (some y) = u.setChan core chan (y :: q) := u.setLeading_eq (some y) queue'
  show execCopyRowWrite k chan s = _
  unfold execCopyRowWrite
  cases coords with
  | none =>
    obtain ⟨rfl, -⟩ := RowSrc.data.inj source
    simp only [found, row, place, silent, State.writeRowRaise, write, Bool.false_eq_true, if_false, set]
    rfl
  | some c =>
    have read : s.copySource (x.agt chan) x.d x.t c = .data bs false := source
    simp only [found, row, read, place, silent, State.writeRowRaise, write, Bool.false_eq_true, if_false, set]
    rfl

/-- A row of one piece in the team's own allocation: what it leaves (R267, R269). -/
theorem State.rowWritten_spad (quiet : (s.teamOf k).syncs = []) (o : Nat) :
    let t := (s.setTeamOf k ((s.teamOf k).poke o bs false)).rowWritten k core chan x q
    t.chan core chan = { x with next := x.next + 1 } :: q ∧ (t.teamOf k).mem = (s.teamOf k).mem.write o bs ∧ t.mem = s.mem ∧ t.harts = s.harts := by
  have team := (State.spadRow_applied (bs := bs) quiet (o := o)).team
  refine ⟨State.chan_setChan _ core chan _, ?_, rfl, rfl⟩
  rw [State.rowWritten, State.teamOf_setTeamOf, team]
  rfl

end

/-! ## Owed arrivals (R273) -/

/-- From s to t arrivals at team k's barriers have been made. -/
structure State.Pays (s t : State) (k : Nat) : Prop where
  rest : t = { s with teams := t.teams }
  team : t.teamOf k = { s.teamOf k with bars := (t.teamOf k).bars, owed := (t.teamOf k).owed }

theorem State.Pays.setTeamOf {s u : State} {k : Nat} (pays : s.Pays u k) {t : Team} (same : t = { u.teamOf k with bars := t.bars, owed := t.owed }) :
    s.Pays (u.setTeamOf k t) k where
  rest := by
    rw [State.setTeamOf, pays.rest]
  team := by
    rw [State.teamOf_setTeamOf, same, pays.team]

theorem State.payOwed_pays (s : State) (k : Nat) : s.Pays (s.payOwed k) k := by
  unfold State.payOwed
  refine List.foldlRecOn (motive := fun u => s.Pays u k) _ _ (.setTeamOf ⟨rfl, rfl⟩ rfl) fun u pays o _ => ?_
  split
  · exact pays
  · exact pays.setTeamOf rfl

section
variable {s : State} {k : Nat}

theorem State.payOwed_bars_none (owed : (s.teamOf k).owed = []) : ((s.payOwed k).teamOf k).bars = (s.teamOf k).bars := by
  simp only [State.payOwed, owed, List.filter_nil, List.foldl_nil, State.teamOf_setTeamOf]

/-- An owed arrival whose copy has left the counter is made where its barrier is initialised (R273; log 73). -/
theorem State.payOwed_bars_one {g id b : Nat} (owed : (s.teamOf k).owed = [(g, id, b)])
    (fallen : ∀ e ∈ vget (s.hartOf (.group k g)).ledger kCopy [], e.1 ≠ id) :
    ((s.payOwed k).teamOf k).bars = if ((s.teamOf k).bar b).expected = 0 then (s.teamOf k).bars else vset (s.teamOf k).bars b (arrivedAt ((s.teamOf k).bar b)) := by
  have due : (!(vget (s.hartOf (.group k g)).ledger kCopy []).any fun e => e.1 == id) = true := by
    rw [Bool.not_eq_true', List.any_eq_false]
    exact fun e mem => by simpa using fallen e mem
  have bar (os : List (Nat × Nat × Nat)) : ({ s.teamOf k with owed := os } : Team).bar b = (s.teamOf k).bar b := rfl
  simp only [State.payOwed, owed, List.filter_cons, due, List.filter_nil, List.foldl_cons, List.foldl_nil, Bool.not_true, Bool.false_eq_true, if_true, if_false,
    State.teamOf_setTeamOf, bar]
  split
  · rw [State.teamOf_setTeamOf]
  · simp only [State.arriveBar, State.teamOf_setTeamOf]
    rfl

end

/-! ## A copy leaves its channel (R272, R273) -/

/-- The state in which a copy has left its channel and its counter, and its arrival is owed. -/
def State.copyLeft (s : State) (k core chan : Nat) (x : Copy) (q : List Copy) : State :=
  let u := (s.setChan core chan q).completeOp (.group k x.gid) kCopy x.id
  if x.d.arrive then u.setTeamOf k { s.teamOf k with owed := (s.teamOf k).owed ++ [(x.gid, x.id, x.d.barrier)] } else u

section
variable {s : State} {k chan core : Nat} {x : Copy} {q : List Copy}

theorem State.endCopy_eq (queue : s.chan core chan = x :: q) (mine : x.team = k) : s.endCopy core chan x = (s.copyLeft k core chan x q).payOwed k := by
  subst mine
  unfold State.endCopy
  dsimp only
  rw [s.setLeading_eq none queue]
  rfl

/-- What has changed and what has not where a copy has left and its owed arrival has been made. -/
theorem State.copyLeft_payOwed_parts (s : State) (k core chan : Nat) (x : Copy) (q : List Copy) : let t := (s.copyLeft k core chan x q).payOwed k
    t.chan core chan = q ∧ t.hartOf (.group k x.gid) = (s.hartOf (.group k x.gid)).complete kCopy x.id ∧ (t.teamOf k).mem = (s.teamOf k).mem ∧ t.mem = s.mem := by
  intro t
  obtain ⟨rest, team⟩ : (s.copyLeft k core chan x q).Pays t k := State.payOwed_pays _ k
  have left : (s.copyLeft k core chan x q).cores = (s.setChan core chan q).cores ∧ (s.copyLeft k core chan x q).mem = s.mem
      ∧ (s.copyLeft k core chan x q).harts = (s.completeOp (.group k x.gid) kCopy x.id).harts := by
    unfold State.copyLeft
    split <;> exact ⟨rfl, rfl, rfl⟩
  have allocation : ((s.copyLeft k core chan x q).teamOf k).mem = (s.teamOf k).mem := by
    unfold State.copyLeft
    dsimp only
    split
    · rw [State.teamOf_setTeamOf]
    · rfl
  obtain ⟨cores, mem, harts⟩ := left
  refine ⟨?channel, ?hart, (congrArg Team.mem team).trans allocation, (congrArg State.mem rest).trans mem⟩
  case channel =>
    rw [State.chan, State.coreOf, rest]
    dsimp only
    rw [cores]
    exact s.chan_setChan core chan q
  case hart =>
    rw [State.hartOf, rest]
    dsimp only
    rw [harts]
    exact s.hartOf_setHartOf _ _

/-- The barrier that a copy names has its arrival, and no other (R273). -/
theorem State.copyLeft_payOwed_bars (unowed : (s.teamOf k).owed = []) {rest : List (Nat × Bool)}
    (oldest : vget (s.hartOf (.group k x.gid)).ledger kCopy [] = (x.id, false) :: rest) (later : ∀ z ∈ rest, z.1 ≠ x.id ∧ z.2 = false) :
    (((s.copyLeft k core chan x q).payOwed k).teamOf k).bars = if x.d.arrive = true ∧ ((s.teamOf k).bar x.d.barrier).expected ≠ 0
      then vset (s.teamOf k).bars x.d.barrier (arrivedAt ((s.teamOf k).bar x.d.barrier)) else (s.teamOf k).bars := by
  have ledger : vget ((s.hartOf (.group k x.gid)).complete kCopy x.id).ledger kCopy [] = rest := by
    rw [Hart.ledger_complete_oldest (by decide) oldest later, if_pos rfl]
  by_cases arrive : x.d.arrive = true
  · have left : s.copyLeft k core chan x q = ((s.setChan core chan q).completeOp (.group k x.gid) kCopy x.id).setTeamOf k
        { s.teamOf k with owed := [(x.gid, x.id, x.d.barrier)] } := by
      rw [State.copyLeft, if_pos arrive, unowed]
      rfl
    have team : (s.copyLeft k core chan x q).teamOf k = { s.teamOf k with owed := [(x.gid, x.id, x.d.barrier)] } := by rw [left, State.teamOf_setTeamOf]
    have hart : (s.copyLeft k core chan x q).hartOf (.group k x.gid) = (s.hartOf (.group k x.gid)).complete kCopy x.id := by
      rw [left]
      exact (s.setChan core chan q).hartOf_setHartOf _ _
    rw [State.payOwed_bars_one (congrArg Team.owed team) (by rw [hart, ledger]; exact fun e mem => (later e mem).1), team]
    show (if ((s.teamOf k).bar x.d.barrier).expected = 0 then _ else _) = _
    by_cases unset : ((s.teamOf k).bar x.d.barrier).expected = 0
    · rw [if_pos unset, if_neg fun both => both.2 unset]
    · rw [if_neg unset, if_pos ⟨arrive, unset⟩]
      rfl
  · have left : s.copyLeft k core chan x q = (s.setChan core chan q).completeOp (.group k x.gid) kCopy x.id := by rw [State.copyLeft, if_neg arrive]
    have team : (s.copyLeft k core chan x q).teamOf k = s.teamOf k := by rw [left]; rfl
    rw [State.payOwed_bars_none ((congrArg Team.owed team).trans unowed), team, if_neg fun both => arrive both.1]

/-- What a group's barriers hold once a copy has ended: the one that it names has its arrival (R273). -/
theorem State.copyLeft_payOwed_bar (unowed : (s.teamOf k).owed = []) {rest : List (Nat × Bool)}
    (oldest : vget (s.hartOf (.group k x.gid)).ledger kCopy [] = (x.id, false) :: rest) (later : ∀ z ∈ rest, z.1 ≠ x.id ∧ z.2 = false) :
    let b := x.descBits 168 4
    let t := (s.copyLeft k core chan x q).payOwed k
    (t.teamOf k).bar b = (if x.desc.getLsbD 175 = true ∧ ((s.teamOf k).bar b).expected ≠ 0 then arrivedAt ((s.teamOf k).bar b) else (s.teamOf k).bar b)
      ∧ ∀ n < 16, n ≠ b → (t.teamOf k).bar n = (s.teamOf k).bar n := by
  intro b t
  have low : b < 16 := BitVec.isLt _
  have bars : (t.teamOf k).bars = if x.desc.getLsbD 175 = true ∧ ((s.teamOf k).bar b).expected ≠ 0
      then vset (s.teamOf k).bars b (arrivedAt ((s.teamOf k).bar b)) else (s.teamOf k).bars := by
    refine (State.copyLeft_payOwed_bars unowed oldest later).trans ?_
    rw [Copy.d_eq]
  unfold Team.bar at bars ⊢
  rw [bars]
  refine ⟨?_, fun n _ ne => ?_⟩
  · split
    · rw [vget_vset, if_pos ⟨rfl, low⟩]
    · rfl
  · split
    · rw [vget_vset, if_neg fun both => ne both.1.symm]
    · rfl

/-- From s to t a copy has ended (R272, R273): the copies behind it are left in its channel, its counter falls, and its barrier has its arrival. -/
structure CopyEnded (s t : State) (k core chan : Nat) (x : Copy) (q : List Copy) : Prop where
  channel : t.chan core chan = q
  falls : ∀ rest, vget (s.hartOf (.group k x.gid)).ledger kCopy [] = (x.id, false) :: rest → (∀ z ∈ rest, z.1 ≠ x.id ∧ z.2 = false) →
    (t.hartOf (.group k x.gid)).counter kCopy + 1 = (s.hartOf (.group k x.gid)).counter kCopy
  arrives : ∀ rest, (s.teamOf k).owed = [] → vget (s.hartOf (.group k x.gid)).ledger kCopy [] = (x.id, false) :: rest →
    (∀ z ∈ rest, z.1 ≠ x.id ∧ z.2 = false) → let b := x.descBits 168 4
    (t.teamOf k).bar b = (if x.desc.getLsbD 175 = true ∧ ((s.teamOf k).bar b).expected ≠ 0 then arrivedAt ((s.teamOf k).bar b) else (s.teamOf k).bar b)
      ∧ ∀ n < 16, n ≠ b → (t.teamOf k).bar n = (s.teamOf k).bar n
  allocation : (t.teamOf k).mem = (s.teamOf k).mem
  mem : t.mem = s.mem

theorem State.copyLeft_payOwed_ended (s : State) (k core chan : Nat) (x : Copy) (q : List Copy) :
    CopyEnded s ((s.copyLeft k core chan x q).payOwed k) k core chan x q := by
  obtain ⟨channel, hart, allocation, mem⟩ := s.copyLeft_payOwed_parts k core chan x q
  refine ⟨channel, fun rest oldest later => ?_, fun rest unowed oldest later => State.copyLeft_payOwed_bar unowed oldest later, allocation, mem⟩
  rw [hart]
  exact Hart.counter_complete_oldest (by decide) oldest later kCopy

/-- What else its group is told leaves it so. -/
theorem CopyEnded.setHartOf {t : State} (ended : CopyEnded s t k core chan x q) {h : Hart} (ledger : h.ledger = (t.hartOf (.group k x.gid)).ledger) :
    CopyEnded s (t.setHartOf (.group k x.gid) h) k core chan x q := by
  obtain ⟨channel, falls, arrives, allocation, mem⟩ := ended
  refine ⟨channel, fun rest oldest later => ?_, arrives, allocation, mem⟩
  rw [State.hartOf_setHartOf, Hart.counter, ledger]
  exact falls rest oldest later

variable (leads : s.leading k chan = [(core, x)]) (queue : s.chan core chan = x :: q) (mine : x.team = k)
include leads queue mine

theorem exec_copyComplete (running : x.st = .running) (whole : x.next = x.t.rows) : exec (.copyComplete k chan) s
    = .next (if s.engineQuiet k (1 + chan) then (s.copyLeft k core chan x q).payOwed k else s) := by
  have found := State.find_leading leads (p := fun y => y.2.st == .running && y.2.next == y.2.t.rows) (by rw [beq_of_eq running, beq_of_eq whole]; rfl)
  show execCopyComplete k chan s = _
  unfold execCopyComplete
  simp only [found, State.endCopy_eq queue mine]
  split <;> rfl

theorem exec_copyFault {c : Cause} {tval : Word64} {step : Nat} (failed : x.st = .failed c tval step) (quiet : s.engineQuiet k (1 + chan) = true) :
    exec (.copyFault k chan) s
      = .next (((s.copyLeft k core chan x q).payOwed k).engineFault k x.gid c (faultWord c x.tslot chan 0 step) tval) := by
  show execCopyFault k chan s = _
  unfold execCopyFault
  rw [State.find_leading leads (by rw [failed])]
  simp only [failed, quiet, State.endCopy_eq queue mine, Bool.not_true, Bool.false_eq_true, if_false]

end

/-- A fault of an engine is recorded and pending at its group (R272, R282). -/
theorem State.engineFault_eq {s : State} {k g : Nat} {c : Cause} (kept : c ≠ .machineCheck) (live : (s.hartOf (.group k g)).live = true)
    (room : (s.hartOf (.group k g)).causes.length < 8) (rec addr : Word64) : s.engineFault k g c rec addr
      = s.setHartOf (.group k g) { s.hartOf (.group k g) with
          efr := rec, causes := (s.hartOf (.group k g)).causes ++ [⟨c, addr ||| 0x8000000000000000, none⟩] } := by
  unfold State.engineFault
  dsimp only
  rw [if_neg fun both => kept both.1, State.addCause_live _ k g _ (by rw [State.hartOf_setHartOf]; exact live) (by rw [State.hartOf_setHartOf]; exact room),
    State.hartOf_setHartOf, State.setHartOf_setHartOf]
  rfl

/-! ## Raises of synchronisation words (R277) -/

theorem Team.raiseWord_raises (t : Team) (off n : Nat) : (t.raiseWord off n).raises = t.raises := by rw [Team.raiseWord]

/-- A raise that no packet holds back is applied at its word's port. -/
theorem exec_syncWordRaise {s : State} {k : Nat} {r : Raise} {rs : List Raise} (oldest : (s.teamOf k).raises = r :: rs) (free : r.pkts = [])
    (here : s.away k = false) (plain : s.inFold (s.teamOf k).core k r.off 16 = false) :
    exec (.syncWordRaise k) s = .next (s.setTeamOf k { (s.teamOf k).raiseWord r.off r.n with raises := rs }) := by
  have found : (s.teamOf k).raises.find? (fun r => r.pkts.all fun p => !(s.teamOf k).sent.any fun q => q.1 == p.1 && q.2.1 == p.2) = some r := by
    rw [oldest, List.find?_cons_of_pos (by rw [free]; rfl)]
  have raised : s.raiseSync k r.off r.n = (s.setTeamOf k ((s.teamOf k).raiseWord r.off r.n), true) := by
    simp only [State.raiseSync, State.raiseHere, here, plain, Bool.not_false, Bool.false_eq_true, if_true, if_false]
  have rest : ((s.teamOf k).raiseWord r.off r.n).raises.erase r = rs := by
    rw [Team.raiseWord_raises, oldest, List.erase_cons_head]
  show execSyncWordRaise k s = _
  unfold execSyncWordRaise
  simp only [found, raised, if_true, State.teamOf_setTeamOf, rest, State.setTeamOf_setTeamOf]

/-- What it leaves: the word's loop. -/
theorem exec_syncWordRaise_looped {s : State} {k : Nat} {r : Raise} {rs : List Raise} (oldest : (s.teamOf k).raises = r :: rs) (free : r.pkts = [])
    (here : s.away k = false) (plain : s.inFold (s.teamOf k).core k r.off 16 = false) (wf : (s.teamOf k).mem.wf = true) :
    ∃ t, exec (.syncWordRaise k) s = .next t ∧ (t.teamOf k).raises = rs
      ∧ (s.teamOf k).mem.Looped (t.teamOf k).mem r.off (((s.teamOf k).mem.nat (r.off + 4) 4 + r.n) % 2 ^ 32) ∧ t.mem = s.mem := by
  refine ⟨_, exec_syncWordRaise oldest free here plain, ?_, ?_, rfl⟩
  · rw [State.teamOf_setTeamOf]
  · rw [State.teamOf_setTeamOf]
    dsimp only
    exact Team.raiseWord_looped wf r.off r.n

end Sys2Proof.Machine
end

