-- ==== Sys2Proof/Proofs/GatherRows.lean ====
section
/-! PROOFS. Gathers and scatters (R279, R280): a row is moved, or reported where it is not FULL, and the transfer ends. -/

namespace Sys2Proof.Machine
open Sys2Proof.Claims

/-! ## The transfers of a team -/

/-- The state in which a team has other transfers. -/
def State.withGathers (s : State) (k : Nat) (gs : List Gather) : State := s.setTeamOf k { s.teamOf k with gathers := gs }

section
variable (s : State) (k : Nat) (gs : List Gather)

theorem State.teamOf_withGathers : (s.withGathers k gs).teamOf k = { s.teamOf k with gathers := gs } := s.teamOf_setTeamOf k _

/-- Translation reads no part of a team. -/
theorem State.vplace_withGathers : (s.withGathers k gs).vplace = s.vplace := rfl

/-! Where a row lies does not depend on the transfers. -/

theorem State.engSpad_withGathers (a : Agt) : (s.withGathers a.team gs).engSpad a = s.engSpad a := by
  have fold (core o n : Nat) : (s.withGathers a.team gs).inFold core a.team o n = s.inFold core a.team o n := rfl
  unfold State.engSpad
  rw [State.teamOf_withGathers]
  simp only [fold]
  rfl

theorem State.engPrivate_withGathers (a : Agt) : (s.withGathers a.team gs).engPrivate a = s.engPrivate a := by
  have hart (g : Nat) : (s.withGathers a.team gs).hartOf (.group a.team g) = s.hartOf (.group a.team g) := rfl
  unfold State.engPrivate
  simp only [State.teamOf_withGathers, State.vplace_withGathers, hart]
  rfl

theorem State.engWindow_withGathers (a : Agt) : (s.withGathers a.team gs).engWindow a = s.engWindow a := by
  have port (core o asid : Nat) : (s.withGathers a.team gs).portEntry core o asid = s.portEntry core o asid := rfl
  unfold State.engWindow
  simp only [State.teamOf_withGathers, State.engSpad_withGathers, port]

theorem State.engPlace_withGathers {a : Agt} (own : a.team = k) (acc : Access) (va : Word64) (n : Nat) (low : Word64) :
    (s.withGathers k gs).engPlace a acc va n low = s.engPlace a acc va n low := by
  subst own
  unfold State.engPlace
  simp only [State.teamOf_withGathers, State.vplace_withGathers, State.engPrivate_withGathers, State.engSpad_withGathers, State.engWindow_withGathers]

theorem State.engRow_withGathers {a : Agt} (own : a.team = k) : (s.withGathers k gs).engRow a = s.engRow a := by
  funext acc wins va n
  unfold State.engRow
  simp only [State.engPlace_withGathers s k gs own]

theorem State.away_withGathers : (s.withGathers k gs).away k = s.away k := by
  unfold State.away State.entryOf
  rw [State.teamOf_withGathers]
  rfl

variable {s k} {y : Gather} {job : Nat}

theorem State.setGather_one (only : (s.teamOf k).gathers = [y]) {z : Gather} (same : z.job = y.job) : s.setGather k z = s.withGathers k [z] := by
  unfold State.setGather State.withGathers
  dsimp only
  rw [only, List.map_singleton, if_pos same.symm]

theorem State.find_gather (only : (s.teamOf k).gathers = [y]) {p : Gather → Bool} (ready : p y = true) : (s.teamOf k).gathers.find? p = some y := by
  rw [only, List.find?_cons_of_pos ready]

end

/-! ## A row is moved (R280) -/

/-- The agent of a transfer. -/
def Gather.agt (y : Gather) (k job : Nat) : Agt := ⟨k, 33 + 2 * job, some y.gid, y.sys⟩
/-- The address of a row's place in the allocation. -/
def allocAddr (lo : Nat) : Word64 := BitVec.ofNat 64 (0xD * 2 ^ 52 + lo)
def Gather.rowFrom (y : Gather) (ga : Word64) (lo : Nat) : Word64 := if y.scat then allocAddr lo else ga
def Gather.rowTo (y : Gather) (ga : Word64) (lo : Nat) : Word64 := if y.scat then ga else allocAddr lo
/-- The transfer once its first row has been sent. -/
def Gather.sent (y : Gather) (rows : List (Nat × Word64 × Nat)) (ga : Word64) (lo : Nat) : Gather := { y with rows := rows, last := y.rowTo ga lo }

section
variable {s u : State} {k job i lo : Nat} {ga : Word64} {y : Gather} {rows : List (Nat × Word64 × Nat)} (only : (s.teamOf k).gathers = [y])
  (number : y.job = job) (first : y.rows = (i, ga, lo) :: rows)
include only number

theorem exec_gatherComplete (empty : y.rows = []) : exec (.gatherComplete k job) s
    = .next (if (s.teamOf k).settled (33 + 2 * job) then (s.withGathers k []).completeOp (.group k y.gid) kGath y.id else s) := by
  have found := State.find_gather only (p := fun x => x.job == job && x.rows.isEmpty) (by rw [beq_of_eq number, empty]; rfl)
  have gone : (s.teamOf k).gathers.filter (fun x => x.job != job) = [] := by
    rw [only, List.filter_cons_of_neg (by simp [number]), List.filter_nil]
  show execGatherComplete k job s = _
  unfold execGatherComplete
  simp only [found, gone]
  cases (s.teamOf k).settled (33 + 2 * job) <;> rfl

variable (settled : (s.teamOf k).settled (33 + 2 * job) = true)
include first settled

theorem exec_gatherRowTransfer_moves {bs : List Byte} {ps : List (Place × Nat)}
    (read : s.readRow (y.agt k job) 15 (y.rowFrom ga lo) y.size = .data bs false) (place : s.engRow (y.agt k job) .write 15 (y.rowTo ga lo) y.size = .ok ps)
    (write : (s.withGathers k [y.sent rows ga lo]).engWriteRow (y.agt k job) ps bs false = ⟨u, false, false, false⟩) :
    exec (.gatherRowTransfer k job) s = .next (u.setTeamOf k ((u.teamOf k).forget (33 + 2 * job))) := by
  have found := State.find_gather only (p := fun x => x.job == job && (s.teamOf k).settled (33 + 2 * job)) (by rw [beq_of_eq number, settled]; rfl)
  have set : s.setGather k { y with rows := rows, last := if y.scat = true then ga else BitVec.ofNat 64 (0xD * 2 ^ 52 + lo) } = s.withGathers k [y.sent rows ga lo] :=
    State.setGather_one only rfl
  unfold Gather.rowFrom allocAddr Gather.agt at read
  unfold Gather.rowTo allocAddr Gather.agt at place
  unfold Gather.agt at write
  show execGatherRowTransfer k job s = _
  unfold execGatherRowTransfer
  simp only [found, first, set, read, State.engRow_withGathers s k _ (a := ⟨k, 33 + 2 * job, some y.gid, y.sys⟩) rfl, place, write, Bool.false_eq_true, if_false]

/-- A gather's row that is not FULL is reported and not written (R280). -/
theorem exec_gatherRowTransfer_notFull (gather : y.scat = false) (empty : s.readRow (y.agt k job) 15 ga y.size = .fail .rowNotFull ga) :
    exec (.gatherRowTransfer k job) s
      = .next ((s.withGathers k [y.sent rows ga lo]).engineFault k y.gid .rowNotFull (faultWord .rowNotFull 0 0 1 i) ga) := by
  have found := State.find_gather only (p := fun x => x.job == job && (s.teamOf k).settled (33 + 2 * job)) (by rw [beq_of_eq number, settled]; rfl)
  have set : s.setGather k { y with rows := rows, last := if y.scat = true then ga else BitVec.ofNat 64 (0xD * 2 ^ 52 + lo) } = s.withGathers k [y.sent rows ga lo] :=
    State.setGather_one only rfl
  have from_ : (if y.scat = true then BitVec.ofNat 64 (0xD * 2 ^ 52 + lo) else ga) = ga := by rw [gather]; rfl
  unfold Gather.agt at empty
  show execGatherRowTransfer k job s = _
  unfold execGatherRowTransfer
  simp only [found, first, set, from_, empty]
  simp only [gather, Bool.not_false, and_self, if_true]

end

end Sys2Proof.Machine
end

