-- ==== Sys2Proof/Proofs/CopyEvents.lean ====
section
/-! PROOFS. The events of the copy and gather engines, assembled (R261 to R273, R277, R279, R280). -/

namespace Sys2Proof.Machine
open Sys2Proof.Claims

/-! ## Limits that a copy breaks where it begins (R263, R268, R274, R277) -/

section
variable {s : State} {k : Nat} {x : Copy}

theorem State.copyBreach_limits (bad : copyOk x.d x.t = false) : s.copyBreach k x = some .dataCheck := by
  rw [State.copyBreach, bad]
  rfl

variable (good : copyOk x.d x.t = true)
include good

theorem State.copyBreach_good : s.copyBreach k x =
    if x.desc.getLsbD 175 = true ∧ ((s.teamOf k).bar (x.descBits 168 4)).cfg.extractLsb' 8 8 = 0 then some .barrierMisuse
    else if x.desc.getLsbD 176 = true ∧ (x.descBits 192 32 % 16 ≠ 0 ∨ (s.teamOf k).spadBytes < x.descBits 192 32 + 16) then some .accessViolation
    else none := by
  rw [State.copyBreach, good, Copy.d_eq]
  rfl

theorem State.copyBreach_barrier (arrive : x.desc.getLsbD 175 = true) (unset : ((s.teamOf k).bar (x.descBits 168 4)).cfg.extractLsb' 8 8 = 0) :
    s.copyBreach k x = some .barrierMisuse := by
  rw [State.copyBreach_good good, if_pos ⟨arrive, unset⟩]

variable (ready : x.desc.getLsbD 175 = true → ((s.teamOf k).bar (x.descBits 168 4)).cfg.extractLsb' 8 8 ≠ 0)
include ready

theorem State.copyBreach_sync (rise : x.desc.getLsbD 176 = true) (outside : x.descBits 192 32 % 16 ≠ 0 ∨ (s.teamOf k).spadBytes < x.descBits 192 32 + 16) :
    s.copyBreach k x = some .accessViolation := by
  rw [State.copyBreach_good good, if_neg fun both => ready both.1 both.2, if_pos ⟨rise, outside⟩]

theorem State.copyBreach_none (inside : x.desc.getLsbD 176 = true → x.descBits 192 32 % 16 = 0 ∧ x.descBits 192 32 + 16 ≤ (s.teamOf k).spadBytes) :
    s.copyBreach k x = none := by
  have within : ¬ (x.desc.getLsbD 176 = true ∧ (x.descBits 192 32 % 16 ≠ 0 ∨ (s.teamOf k).spadBytes < x.descBits 192 32 + 16)) := fun ⟨rise, outside⟩ => by
    obtain ⟨aligned, fits⟩ := inside rise
    omega
  rw [State.copyBreach_good good, if_neg fun both => ready both.1 both.2, if_neg within]

end

/-- A copy that breaks a limit stops where it would begin (R268). -/
theorem exec_copyBegin_stops {s : State} {k chan core : Nat} {x : Copy} {q : List Copy} {c : Cause} (leads : s.leading k chan = [(core, x)])
    (queue : s.chan core chan = x :: q) (queued : x.st = .queued) (breach : s.copyBreach k x = some c) :
    ∃ t, exec (.copyBegin k chan) s = .next t ∧ t.chan core chan = { x with st := .failed c x.aperture x.next } :: q ∧ t.teams = s.teams :=
  ⟨_, exec_copyBegin_breach leads queue queued breach, s.chan_setChan core chan _, rfl⟩

/-- A copy that breaks no limit runs; the synchronisation word that it names has its port's loop (R268, R277). -/
theorem exec_copyBegin_runs {s : State} {k chan core : Nat} {x : Copy} {q : List Copy} (leads : s.leading k chan = [(core, x)])
    (queue : s.chan core chan = x :: q) (queued : x.st = .queued) (sound : s.copyBreach k x = none) :
    ∃ t, exec (.copyBegin k chan) s = .next t ∧ t.chan core chan = { x with st := .running } :: q
      ∧ (x.desc.getLsbD 176 = false → (t.teamOf k).mem = (s.teamOf k).mem)
      ∧ (x.desc.getLsbD 176 = true → (s.teamOf k).mem.wf = true →
          Mem.Looped (s.teamOf k).mem (t.teamOf k).mem (x.descBits 192 32) ((s.teamOf k).mem.nat (x.descBits 192 32 + 4) 4))
      ∧ ∀ z, z ∈ (t.teamOf k).syncs ↔ z ∈ (s.teamOf k).syncs ∨ (x.desc.getLsbD 176 = true ∧ z = x.descBits 192 32) := by
  have event := exec_copyBegin_sound leads queue queued sound
  rw [Copy.d_eq] at event
  generalize running : ({ x with st := .running } : Copy) = y at event ⊢
  refine ⟨_, event, ?_⟩
  by_cases rise : x.desc.getLsbD 176 = true
  · have named : ((s.setChan core chan (y :: q)).nameSync k (x.descBits 192 32)).teamOf k = { s.teamOf k with
        syncs := insertNew (x.descBits 192 32) (s.teamOf k).syncs
        mem := syncLoop (s.teamOf k).mem (x.descBits 192 32) } := State.teamOf_setTeamOf _ k _
    simp only [rise, if_true]
    rw [named]
    dsimp only
    refine ⟨State.chan_setChan s core chan _, fun silent => absurd silent (by decide), fun _ wf => syncLoop_looped wf _, fun z => ?_⟩
    rw [mem_insertNew, or_comm]
    exact or_congr_right (true_and _).symm.to_iff
  · simp only [rise]
    exact ⟨State.chan_setChan s core chan _, fun _ => rfl, fun yes => absurd yes (by decide), fun z =>
      ⟨.inl, fun either => either.elim id fun both => absurd both.1 (by decide)⟩⟩

/-! ## A row of one piece in the team's own allocation -/

section
variable {s : State} {k chan core o : Nat} {fe : Bool} {x : Copy} {q : List Copy} {bs : List Byte} {coords : Option (Int × Int × Int × Int)}

theorem exec_copyRowWrite_spad (leads : s.leading k chan = [(core, x)]) (queue : s.chan core chan = x :: q) (running : x.st = .running)
    (more : x.next < x.t.rows) (settled : (s.teamOf k).settled (1 + chan) = true) (silent : x.desc.getLsbD 176 = false)
    (row : copyRow x.d x.t x.next = (x.rowDst, coords)) (source : s.rowSource (x.agt chan) x coords = .data bs false) (length : bs.length = x.t.E)
    (place : s.engRow (x.agt chan) .write 15 x.rowDst x.t.E = .ok [(⟨.spad k o, fe⟩, x.t.E)]) (here : s.away k = false)
    (plain : s.inFold (s.teamOf k).core k o x.t.E = false) (quiet : (s.teamOf k).syncs = []) :
    ∃ t, exec (.copyRowWrite k chan) s = .next t ∧ t.chan core chan = { x with next := x.next + 1 } :: q ∧ (t.teamOf k).mem = (s.teamOf k).mem.write o bs
      ∧ t.mem = s.mem ∧ t.harts = s.harts := by
  have quietly : x.d.rise = false := (congrArg Desc.rise x.d_eq).trans silent
  rw [← length] at plain
  rw [← length] at place
  have write := State.engWriteRow_one (a := x.agt chan) (p := ⟨.spad k o, fe⟩) (EngWrite.piece_spad here plain)
  exact ⟨_, exec_copyRowWrite leads queue running more settled quietly row source (by rw [← length]; exact place) write rfl, State.rowWritten_spad quiet o⟩

variable (leads : s.leading k chan = [(core, x)]) (queue : s.chan core chan = x :: q) (mine : x.team = k) (running : x.st = .running)
  (more : x.next < x.tmplBits 32 16 * x.tmplBits 48 16 * x.tmplBits 64 16 * x.tmplBits 80 16) (settled : (s.teamOf k).settled (1 + chan) = true)
  (silent : x.desc.getLsbD 176 = false)
  (place : s.engRow ⟨k, 1 + chan, some x.gid, x.sys⟩ .write 15 x.rowDst (x.tmplBits 16 16) = .ok [(⟨.spad k o, fe⟩, x.tmplBits 16 16)])
  (here : s.away k = false) (plain : s.inFold (s.teamOf k).core k o (x.tmplBits 16 16) = false) (quiet : (s.teamOf k).syncs = []) (wf : (s.teamOf k).mem.wf = true)
include leads queue mine running more settled silent place here plain quiet wf

/-- A linear row goes from its source address to its destination address. -/
theorem exec_copyRowWrite_linear {key : Nat} (linear : x.tmplBits 0 8 = 0) (direct : x.tmplBits 256 8 = 0) (landed : s.posted = []) (idle : s.reads = [])
    (source : s.engRow ⟨k, 1 + chan, some x.gid, x.sys⟩ .read 15 x.rowSrc (x.tmplBits 16 16) = .ok [(⟨.home key, false⟩, x.tmplBits 16 16)])
    (clean : s.poisonedAt key (x.tmplBits 16 16) = false) :
    ∃ t, exec (.copyRowWrite k chan) s = .next t ∧ t.chan core chan = { x with next := x.next + 1 } :: q
      ∧ (∀ z, (t.teamOf k).mem.byte z = if o ≤ z ∧ z < o + x.tmplBits 16 16 then s.mem.byte (key + (z - o)) else (s.teamOf k).mem.byte z)
      ∧ t.mem = s.mem ∧ t.harts = s.harts := by
  have agent : x.agt chan = ⟨k, 1 + chan, some x.gid, x.sys⟩ := by rw [Copy.agt, mine]
  rw [← agent, ← Copy.E_eq] at place source
  rw [← Copy.E_eq] at plain clean
  have read : s.rowSource (x.agt chan) x (some x.coords) = .data (s.mem.read key x.t.E) false :=
    (State.copySource_linear x direct).trans ((congrArg _ x.E_eq.symm).trans ((State.readRow_one source (State.engRead_home landed idle key)).trans (congrArg _ clean)))
  obtain ⟨t, event, channel, memory, rest⟩ := exec_copyRowWrite_spad leads queue running (x.rows_eq ▸ more) settled silent (x.row_linear linear) read
    (Mem.read_length ..) place here plain quiet
  refine ⟨t, event, channel, fun z => ?_, rest⟩
  rw [memory, ← Copy.E_eq]
  exact Mem.byte_write_read wf o x.t.E s.mem key z

/-- A row of a window copy that is no valid row is filled with zeros. -/
theorem exec_copyRowWrite_outside (window : x.tmplBits 0 8 = 1) (outside : x.tmplBits 176 16 ≤ x.descBits 128 32 + x.inner ∨ x.col < 0
      ∨ (x.tmplBits 240 16 : Int) ≤ x.col ∨ x.line < 0 ∨ (x.tmplBits 224 16 : Int) ≤ x.line) :
    ∃ t, exec (.copyRowWrite k chan) s = .next t ∧ t.chan core chan = { x with next := x.next + 1 } :: q
      ∧ (∀ z, (t.teamOf k).mem.byte z = if o ≤ z ∧ z < o + x.tmplBits 16 16 then 0 else (s.teamOf k).mem.byte z) ∧ t.mem = s.mem ∧ t.harts = s.harts := by
  have agent : x.agt chan = ⟨k, 1 + chan, some x.gid, x.sys⟩ := by rw [Copy.agt, mine]
  rw [← agent, ← Copy.E_eq] at place
  rw [← Copy.E_eq] at plain
  obtain ⟨t, event, channel, memory, rest⟩ := exec_copyRowWrite_spad leads queue running (x.rows_eq ▸ more) settled silent (x.row_outside window outside) rfl
    List.length_replicate place here plain quiet
  refine ⟨t, event, channel, fun z => ?_, rest⟩
  rw [memory, ← Copy.E_eq]
  exact Mem.byte_write_zeros wf o x.t.E z

end

/-! ## Fault records (R282) -/

theorem faultWord_copy (c : Cause) (tslot chan step : Nat) : faultWord c tslot chan 0 step
    = BitVec.ofNat 64 (2 ^ 63 + c.code.toNat * 2 ^ 56 + tslot % 256 * 2 ^ 48 + chan % 32 * 2 ^ 43 + 0 * 2 ^ 40 + step % 2 ^ 24) := rfl

theorem faultWord_gather (c : Cause) (step : Nat) : faultWord c 0 0 1 step
    = BitVec.ofNat 64 (2 ^ 63 + c.code.toNat * 2 ^ 56 + 0 % 256 * 2 ^ 48 + 0 + 1 * 2 ^ 40 + step % 2 ^ 24) := rfl

/-! ## The last row and the fault of a copy (R272, R273) -/

section
variable {s : State} {k chan core : Nat} {x : Copy} {q : List Copy} (leads : s.leading k chan = [(core, x)]) (queue : s.chan core chan = x :: q)
  (mine : x.team = k)
include leads queue mine

/-- A stopped copy ends like a whole one, with its fault recorded and pending. -/
theorem exec_copyFault_ends {c : Cause} {tval : Word64} {step : Nat} (failed : x.st = .failed c tval step) (kept : c ≠ .machineCheck)
    (quiet : s.engineQuiet k (1 + chan) = true) (live : (s.hartOf (.group k x.gid)).live = true) (room : (s.hartOf (.group k x.gid)).causes.length < 8) :
    ∃ t, exec (.copyFault k chan) s = .next t ∧ CopyEnded s t k core chan x q ∧ (t.hartOf (.group k x.gid)).efr = faultWord c x.tslot chan 0 step
      ∧ (t.hartOf (.group k x.gid)).causes = (s.hartOf (.group k x.gid)).causes ++ [⟨c, tval ||| 0x8000000000000000, none⟩] := by
  obtain ⟨-, hart, -, -⟩ := s.copyLeft_payOwed_parts k core chan x q
  have event := exec_copyFault leads queue mine failed quiet
  rw [State.engineFault_eq kept (by rw [hart]; exact live) (by rw [hart]; exact room)] at event
  refine ⟨_, event, (s.copyLeft_payOwed_ended k core chan x q).setHartOf rfl, ?_, ?_⟩
  all_goals rw [State.hartOf_setHartOf]
  rw [hart]
  rfl

end

/-! ## Moved rows of a transfer (R280) -/

section
variable {s : State} {k job i lo key : Nat} {ga : Word64} {y : Gather} {rows : List (Nat × Word64 × Nat)}
  (only : (s.teamOf k).gathers = [y]) (number : y.job = job) (first : y.rows = (i, ga, lo) :: rows) (settled : (s.teamOf k).settled (33 + 2 * job) = true)
include only number first settled

/-- A gather's row goes from its bank to the allocation. -/
theorem exec_gatherRowTransfer_gather (gather : y.scat = false) (landed : s.posted = []) (idle : s.reads = [])
    (from_ : s.engRow (y.agt k job) .read 15 ga y.size = .ok [(⟨.home key, false⟩, y.size)])
    (onto : s.engRow (y.agt k job) .write 15 (allocAddr lo) y.size = .ok [(⟨.spad k lo, false⟩, y.size)]) (clean : s.poisonedAt key y.size = false)
    (here : s.away k = false) (plain : s.inFold (s.teamOf k).core k lo y.size = false) (quiet : (s.teamOf k).syncs = [])
    (wf : (s.teamOf k).mem.wf = true) :
    ∃ t, (exec (.gatherRowTransfer k job) s = .next t ∧ (t.teamOf k).gathers = [y.sent rows ga lo])
      ∧ (∀ z, (t.teamOf k).mem.byte z = if lo ≤ z ∧ z < lo + y.size then s.mem.byte (key + (z - lo)) else (s.teamOf k).mem.byte z)
      ∧ t.mem = s.mem ∧ t.harts = s.harts := by
  generalize bytes : s.mem.read key y.size = bs
  have length : bs.length = y.size := by rw [← bytes, Mem.read_length]
  have read : s.readRow (y.agt k job) 15 (y.rowFrom ga lo) y.size = .data bs false := by
    rw [Gather.rowFrom, gather, ← bytes]
    exact (State.readRow_one from_ (State.engRead_home landed idle key)).trans (congrArg _ clean)
  have place : s.engRow (y.agt k job) .write 15 (y.rowTo ga lo) y.size = .ok [(⟨.spad k lo, false⟩, bs.length)] := by
    rw [Gather.rowTo, gather, length]
    exact onto
  have write := State.engWriteRow_one (s := s.withGathers k [y.sent rows ga lo]) (a := y.agt k job) (p := ⟨.spad k lo, false⟩) (bs := bs)
    (EngWrite.piece_spad ((s.away_withGathers k _).trans here) (by rw [State.teamOf_withGathers, length]; exact plain))
  have team := (State.spadRow_applied (s := s.withGathers k [y.sent rows ga lo]) (k := k) (bs := bs) (o := lo)
    (by rw [State.teamOf_withGathers]; exact quiet)).team
  refine ⟨_, ⟨exec_gatherRowTransfer_moves only number first settled read place write, ?_⟩, fun z => ?_, rfl, rfl⟩
  all_goals rw [State.teamOf_forgetting, team, State.teamOf_withGathers]
  · rfl
  · rw [← bytes]
    exact Mem.byte_write_read wf lo y.size s.mem key z

/-- A scatter's row goes from the allocation to its bank. -/
theorem exec_gatherRowTransfer_scatter (scatter : y.scat = true)
    (from_ : s.engRow (y.agt k job) .read 15 (allocAddr lo) y.size = .ok [(⟨.spad k lo, false⟩, y.size)])
    (onto : s.engRow (y.agt k job) .write 15 ga y.size = .ok [(⟨.home key, false⟩, y.size)]) (present : (s.teamOf k).absent = false)
    (clean : (s.teamOf k).markedAt lo y.size = false) (wf : s.mem.wf = true) :
    ∃ t, (exec (.gatherRowTransfer k job) s = .next t ∧ (t.teamOf k).gathers = [y.sent rows ga lo])
      ∧ (∀ z, t.mem.byte z = if key ≤ z ∧ z < key + y.size then (s.teamOf k).mem.byte (lo + (z - key)) else s.mem.byte z)
      ∧ (t.teamOf k).mem = (s.teamOf k).mem ∧ t.harts = s.harts := by
  generalize bytes : (s.teamOf k).mem.read lo y.size = bs
  have length : bs.length = y.size := by rw [← bytes, Mem.read_length]
  have read : s.readRow (y.agt k job) 15 (y.rowFrom ga lo) y.size = .data bs false := by
    rw [Gather.rowFrom, scatter, ← bytes]
    exact (State.readRow_one from_ (State.engRead_spad present)).trans (congrArg _ clean)
  have place : s.engRow (y.agt k job) .write 15 (y.rowTo ga lo) y.size = .ok [(⟨.home key, false⟩, bs.length)] := by
    rw [Gather.rowTo, scatter, length]
    exact onto
  have write := State.engWriteRow_one (s := s.withGathers k [y.sent rows ga lo]) (a := y.agt k job) (p := ⟨.home key, false⟩) (bs := bs) (EngWrite.piece_home key)
  obtain ⟨teams, harts, mem⟩ := State.homeRow_rest (s.withGathers k [y.sent rows ga lo]) key bs
  generalize ((s.withGathers k [y.sent rows ga lo]).pokeHome key bs false).maybeEvict key bs.length = u at write teams harts mem
  have team : u.teamOf k = { s.teamOf k with gathers := [y.sent rows ga lo] } := by
    rw [State.teamOf, teams]
    exact s.teamOf_withGathers k _
  refine ⟨_, ⟨exec_gatherRowTransfer_moves only number first settled read place write, ?_⟩, fun z => ?_, ?_, harts⟩
  · rw [State.teamOf_forgetting, team]
    rfl
  · show u.mem.byte z = _
    rw [mem, ← bytes]
    exact Mem.byte_write_read wf key y.size (s.teamOf k).mem lo z
  · rw [State.teamOf_forgetting, team]
    rfl

/-- A gather's row that is not FULL is passed over, with its fault recorded and pending. -/
theorem exec_gatherRowTransfer_reports (gather : y.scat = false) (empty : s.readRow (y.agt k job) 15 ga y.size = .fail .rowNotFull ga)
    (live : (s.hartOf (.group k y.gid)).live = true) (room : (s.hartOf (.group k y.gid)).causes.length < 8) :
    ∃ t, (exec (.gatherRowTransfer k job) s = .next t ∧ (t.teamOf k).gathers = [y.sent rows ga lo])
      ∧ (t.hartOf (.group k y.gid)).efr = faultWord .rowNotFull 0 0 1 i
      ∧ (t.hartOf (.group k y.gid)).causes = (s.hartOf (.group k y.gid)).causes ++ [⟨.rowNotFull, ga ||| 0x8000000000000000, none⟩]
      ∧ (t.teamOf k).mem = (s.teamOf k).mem ∧ t.mem = s.mem := by
  have event := exec_gatherRowTransfer_notFull only number first settled gather empty
  have hart : (s.withGathers k [y.sent rows ga lo]).hartOf (.group k y.gid) = s.hartOf (.group k y.gid) := rfl
  rw [State.engineFault_eq (by decide) (by rw [hart]; exact live) (by rw [hart]; exact room)] at event
  have team (h : Hart) : ((s.withGathers k [y.sent rows ga lo]).setHartOf (.group k y.gid) h).teamOf k = { s.teamOf k with gathers := [y.sent rows ga lo] } :=
    s.teamOf_withGathers k _
  refine ⟨_, ⟨event, ?_⟩, ?_, ?_, ?_, rfl⟩
  · rw [team]
  · rw [State.hartOf_setHartOf]
  · rw [State.hartOf_setHartOf, hart]
  · rw [team]

end

end Sys2Proof.Machine

namespace Sys2Proof.Claims
open Sys2Proof.Machine

/-- Settles O49: each event is its one change; a copy's counter falls before its barrier has the arrival, and rows are moved in the order of the list. -/
theorem copyAndGatherEventResults : Obligations.CopyAndGatherEventResults := by
  intro s k g chan core off job e es data x q o key fe c tval step r rs y i ga lo rows team there bytes D T T32
    E N i0 u dst linear me leads plain h falls arrives looped word
  refine ⟨fun head op => ⟨fun room => ?starts, fun full => ?held⟩, fun head op wf => ?template,
    fun ⟨leading, queue, mine⟩ queued => ⟨fun bad => ?limits, fun good ready inside => ?begins, fun good arrive unset => ?barrier,
      fun good ready rise outside => ?sync⟩,
    fun ⟨leading, queue, mine⟩ running good ⟨here, quiet, wf, memWf, landed, idle⟩ more silent settled place free =>
      ⟨fun mode direct source clean => ?row, fun mode outside => ?zeros⟩,
    fun ⟨leading, queue, mine⟩ running whole => ⟨fun busy => ?unfinished, fun idle => ?completes⟩,
    fun ⟨leading, queue, mine⟩ failed kept idle live room => ?fault,
    fun oldest free here wf unbound => ?raise_,
    fun only number first ⟨here, quiet, wf, memWf, landed, idle⟩ settled =>
      ⟨fun gather from_ onto clean unbound => ?gather, fun scatter from_ onto present clean => ?scatter, fun notFull gather empty live room => ?report⟩,
    fun only number empty => ⟨fun busy => ?waits, fun settled => ?gathered⟩⟩
  case starts =>
    exact ⟨_, s.startedCopy k g chan e data, (exec_copyStartAccept head op).trans (congrArg _ (if_neg (Nat.not_le.mpr room))),
      State.leftQueue_of_headStore head rfl,
      State.chan_setChan (s.popSq k g) _ chan _, rfl, rfl, rfl, rfl, bytesToBits_toNat (by rw [Mem.read_length]), bytesToBits_toNat (by rw [Mem.read_length]),
      rfl, rfl, rfl, rfl⟩
  case held => exact (exec_copyStartAccept head op).trans (congrArg _ (if_pos full))
  case template =>
    obtain ⟨t, event, left, slot, same, mem⟩ := exec_templateSlotWrite_slot head op
    refine ⟨t, event, left, fun z => ?_, same, mem⟩
    rw [slot, Mem.byte_write wf, leBytes_length]
  case limits => exact exec_copyBegin_stops leading queue queued (State.copyBreach_limits bad)
  case barrier =>
    obtain ⟨t, event, stopped, -⟩ := exec_copyBegin_stops leading queue queued (State.copyBreach_barrier good arrive unset)
    exact ⟨t, event, stopped⟩
  case sync =>
    obtain ⟨t, event, stopped, -⟩ := exec_copyBegin_stops leading queue queued (State.copyBreach_sync good ready rise outside)
    exact ⟨t, event, stopped⟩
  case begins => exact exec_copyBegin_runs leading queue queued (State.copyBreach_none good ready inside)
  case row => exact exec_copyRowWrite_linear leading queue mine running more settled silent place here free quiet wf mode direct landed idle source clean
  case zeros => exact exec_copyRowWrite_outside leading queue mine running more settled silent place here free quiet wf mode outside
  case unfinished => exact (exec_copyComplete leading queue mine running (whole.trans x.rows_eq.symm)).trans (congrArg _ (if_neg (by rw [busy]; decide)))
  case completes =>
    obtain ⟨channel, falls, arrives, allocation, mem⟩ := s.copyLeft_payOwed_ended k core chan x q
    exact ⟨_, (exec_copyComplete leading queue mine running (whole.trans x.rows_eq.symm)).trans (congrArg _ (if_pos idle)), channel, falls, arrives, allocation,
      mem⟩
  case fault =>
    obtain ⟨t, event, ⟨channel, falls, arrives, -, -⟩, record, pending⟩ := exec_copyFault_ends leading queue mine failed kept idle live room
    exact ⟨t, event, channel, falls, arrives, record.trans (faultWord_copy c x.tslot chan step), pending⟩
  case raise_ => exact exec_syncWordRaise_looped oldest free here unbound wf
  case gather => exact exec_gatherRowTransfer_gather only number first settled gather landed idle from_ onto clean here unbound quiet wf
  case scatter => exact exec_gatherRowTransfer_scatter only number first settled scatter from_ onto present clean memWf
  case report =>
    subst notFull
    obtain ⟨t, moved, record, rest⟩ := exec_gatherRowTransfer_reports only number first settled gather empty live room
    exact ⟨t, moved, record.trans (faultWord_gather _ i), rest⟩
  case waits => exact (exec_gatherComplete only number empty).trans (congrArg _ (if_neg (by rw [busy]; decide)))
  case gathered =>
    have left : ((s.withGathers k []).completeOp (.group k y.gid) kGath y.id).teamOf k = { team with gathers := [] } := s.teamOf_withGathers k []
    refine ⟨_, (exec_gatherComplete only number empty).trans (congrArg _ (if_pos settled)), by rw [left], fun rest oldest later => ?_,
      by rw [left], rfl⟩
    rw [State.completeOp, State.hartOf_setHartOf]
    exact Hart.counter_complete_oldest (by decide) oldest later kGath

end Sys2Proof.Claims
end
